-- ==== Sys2Proof/Word.lean ====
section
/-!
DEFINITION. The word types of the SZ-960 and their plainest readings. Bytes in memory are little-endian (R4).
-/
namespace Sys2Proof

/-- One byte of memory. -/
abbrev Byte := BitVec 8

/-- A 32-bit register word. -/
abbrev Word := BitVec 32

/-- A scalar register, an address or a 64-bit control register. -/
abbrev DWord := BitVec 64

/-- One bit per thread of a wave: exec, a predicate, the poison bits of a register. Bit t belongs to thread t. -/
abbrev Mask := BitVec 128

end Sys2Proof
end

