-- ==== Sys2Proof/Config.lean ====
section
/-!
DEFINITION. The shared figures of R1, and the free values: what the manual leaves open is an opaque constant here,
applied to the operands it depends on or to the counter `State.freeCtr`. Nothing can evaluate one, so a claim
holds whatever it is.
-/
namespace Sys2Proof.Config

/-- Main cores (R1). -/
def mainCores : Nat := 192
/-- Cores with the two Lustre scan cores (R432). -/
def allCores : Nat := 194
/-- Clusters, the scan cores' cluster 48 included (R1, R432). -/
def clusters : Nat := 49
/-- LLC slices (R1). -/
def slices : Nat := 96
/-- Partitions (R1). -/
def partitions : Nat := 32
/-- Hash buckets (R1). -/
def buckets : Nat := 4096

/-- Wave width of a core (R1, R55). -/
def width (core : Nat) : Nat := if core < mainCores then 128 else 32
/-- The end of a core's scratchpad (R75, R432). -/
def scratchEnd (core : Nat) : Nat := if core < mainCores then 0x50000 else 0x20000
/-- The cluster of a core (R1, R432). See assumption 81. -/
def clusterOf (core : Nat) : Nat := if core < mainCores then core / 4 else 48
/-- The sector of a core (R55, R395). See assumption 81. -/
def sectorOf (core : Nat) : Nat := if core < mainCores then core / 64 else 3
/-- The matrix pair of a core; index 96 is the Lustre matrix unit (R237, R434). -/
def pairOf (core : Nat) : Nat := if core < mainCores then core / 2 else 96
/-- Lines of 128 bytes that an L1 holds (R1, R432). -/
def l1Lines (core : Nat) : Nat := if core < mainCores then 1024 else 256

/-- Lines that an LLC slice of 12 MiB holds (R1). See assumption 50. -/
def llcLines : Nat := 98304
/-- Bytes of the flash array: 8 TB, decimal (R1, R4). -/
def flashBytes : Nat := 8000000000000
/-- The set of its slice that a line falls into (R407): the index is not given. See assumption 50. -/
opaque llcSet : Nat → Nat
/-- The lines beyond eight that a set holds (R407): the number of ways is not given. See assumption 50. -/
opaque llcWays : Nat
/-- The bucket of its partition's share that a line of a context area lies in (R392): which is not given. See assumption 127. -/
opaque contextBucket : Nat → Nat → Nat

/-- The value bits of a poisoned thread (R51): any 32-bit pattern. See assumption 33. -/
opaque poisonedBits : Nat → Word
/-- Clocks that pass beside an issue, by the free counter: the CYCLE count is not fixed (R3, R200). See assumption 36. -/
opaque clocks : Nat → Nat
/-- An SC outside the conditions of R104 may succeed or fail. See assumption 121. -/
opaque scLuck : Nat → Bool
/-- The stream on which an access over the host link travels, by its address, if IDE protects it (R422). See assumption 128. -/
opaque ideStream : Nat → Option Nat
/-- The public keys of the roots and of the model CA in the certificate chain (R423). See assumption 105. -/
opaque caKey : Nat → BitVec 384
/-- Whether the flash fails while a recovery command works on it (R447). See assumption 108. -/
opaque flashFails : Nat → Bool
/-- The order in which the threads of one atomic on one location are performed (R103): a number that ranks them. See assumption 80. -/
opaque atomRank : Nat → Nat
/-- Which of the permitted bytes an LDNC returns (R81). See assumption 48. -/
opaque ldncStale : Nat → Bool
/-- Which CONT entry of a broken 64 KiB group translates an access (R377). See assumption 122. -/
opaque contPick : Nat → Nat
/-- Whether a racing reader sees the new word (R170, R228, R245, R404, R447). See assumptions 46, 47. -/
opaque seesNew : Nat → Bool
/-- The choice within the bound of a special function (R158, R159), one for each function and input. See assumption 59. -/
opaque sfuPick : Nat → Word → Nat
/-- Where a line stands in its set, and so which line a full set evicts first (R407), is not fixed. See assumption 49. -/
opaque evictPick : Nat → Nat
/-- Signature checks, digests and signatures of the security units (R423, R425, R448): functions of their input. See assumption 105. -/
opaque sigValid : Nat → Bool
/-- A signature made with a device key over a message. See assumption 105. -/
opaque signOf : Nat → Nat → BitVec 768
/-- SHA-384 digest of a message (R423). See assumption 105. -/
opaque digest : Nat → BitVec 384
/-- Values from the on-die random source (R421, R425). See assumption 105. -/
opaque random : Nat → BitVec 384
/-- A device secret fused at manufacture, from which the identity key is derived (R423). See assumption 11. -/
opaque fusedSecret : Nat
/-- The contents of the stage-1 ROM and other fixed firmware measurements (R423). See assumption 105. -/
opaque romMeasurement : Nat → BitVec 384

/-- The GDDR channel that holds a physical address: the interleaving is not given. See assumption 53. -/
opaque channelOf : Nat → Nat
/-- The index of the LDNC predictor is a hash of the line address that is not given (R80). See assumption 7. -/
opaque predictorHash : Nat → Nat
/-- Bits 63:32 of a scalar that a signed 32-bit load or atomic writes: R131 copies bit 31 in group 0, R152 writes zeros in
groups 1 and 2, and no rule says it for group 4. See assumption 17. -/
opaque scalarHigh : Nat → Word
/-- What a connector's link has trained to, as a place in the list of the links that R428 gives it. See assumption 94. -/
opaque linkTrained : Nat → Nat
/-- Whether a connector's link carries a mode that does not exceed its raw rate (R431): how much of that rate the mode takes is not given. See assumption 94. -/
opaque linkCarries : Nat → Nat → Bool
/-- Into how many DSC slices a head divides a line of HACT + 1 pixels (R428). See assumption 94. -/
opaque dscSlices : Nat → Nat
/-- A line of pixels of a number of bits for each component as DSC 1.2a carries it in a number of slices (R428). See assumption 94. -/
opaque dscLine : Nat → Nat → Nat → List (BitVec 32) → List (BitVec 32)
/-- How far an FP32 value on the fixed path of Lustre lies from the exact one (R438): the order of the path's operations is not given. See
assumption 90. -/
opaque pathDrift : Nat → Int
/-- A colour component for which the fixed path meets an infinity or a NaN (R438): its conversion is not given. See assumption 90. See assumption 70. -/
opaque pathSpecial : Nat → BitVec 10
/-- Luma of a frame between its pixels, or outside it, as motion estimation takes it (R441): how is not given. See assumption 91. -/
opaque lumaBetween : Nat → Int → Int → Rat
/-- Bytes of a pose half that could not be read (R442). See assumption 92. -/
opaque unread : Nat → Byte
/-- Whether a failed check of a link is another failure of the packet that failed there last (R395, R410). See assumption 102. -/
opaque samePacket : Nat → Bool
/-- Whether the fields of a firmware header are well formed (R448): their places are not given, so each is a function of the bytes
of the 4 KiB header. See assumption 108. -/
opaque fwFormed : List (Nat × Byte) → Bool
/-- The length of the image that follows a firmware header (R448). See assumption 108. -/
opaque fwLength : List (Nat × Byte) → Nat
/-- The minor version of the state table of a firmware header (R448, R450). See assumption 108. -/
opaque fwMinor : List (Nat × Byte) → Nat
/-- The fields of the state table that an image of a major and a minor version expects, by number (R450). See assumption 107. -/
opaque tableFields : Nat → Nat → List Nat
/-- The default of a field of the state table (R450). See assumption 107. -/
opaque tableDefault : Nat → Nat
/-- A byte of what a save writes to the SAVE area (R31, R364): only the SZ-960 knows the form of a team record. See assumption 22. -/
opaque saveByte : Nat → Nat → Byte
/-- Whether the signature in a firmware header verifies over a header and an image (R448). See assumption 108. -/
opaque fwSigned : List (Nat × Byte) → List (Nat × Byte) → Bool
/-- The security version of a firmware header (R448). See assumption 108. -/
opaque fwSvn : List (Nat × Byte) → BitVec 32
/-- The sequence of a firmware header (R448). See assumption 108. -/
opaque fwSeq : List (Nat × Byte) → BitVec 32
/-- The major version of the state table of a firmware header (R448, R450). See assumption 108. -/
opaque fwMajor : List (Nat × Byte) → Nat
/-- The measurement of the firmware in a slot (R423). See assumption 108. -/
opaque fwDigest : List (Nat × Byte) → BitVec 384
/-- The minimum security version that is fused at manufacture (R448). See assumption 11. -/
opaque fusedSvn : BitVec 32
/-- A character of a boot log record (R447): the texts are not given. See assumption 110. -/
opaque bootText : Nat → Byte
/-- The SOURCE of the record that an overtemperature sends (R452): only its SEV is given. See assumption 110. -/
opaque overtempSource : Fin 23

end Sys2Proof.Config
end

