-- ==== Sys2Proof/Syntax.lean ====
section
/-!
DEFINITION. The instructions and events of the SZ-960 as data: one constructor of `Instr` for every row of
spec/opcode_table.json. Operand fields, guards, cross-lane modifiers and modifiers are decoded here once
(R115 to R127), so the machine never reads raw fields.
-/
namespace Sys2Proof

/-- The type codes of R125. -/
inductive Ty where
  | b32 | s8 | s16 | s32 | s64 | n8 | n16 | n32 | n64 | f32 | f16 | bf16 | e4m3 | e5m2 | e3m2 | e2m3 | e2m1 | cb4
  deriving DecidableEq, Repr

/-- The rounding field of R125: the mode of SR_FPMODE, or one the word names. -/
inductive Rnd where
  | fpmode | rne | rtz | rup | rdn
  deriving DecidableEq, Repr

/-- Conditions of ICMP (R140). -/
inductive ICond where
  | eq | ne | lt | le | gt | ge
  deriving DecidableEq, Repr

/-- Conditions of FCMP (R157). -/
inductive FCond where
  | eq | ne | lt | le | gt | ge | ord | uno
  deriving DecidableEq, Repr

/-- The part of the destination that MOVH replaces (R149). -/
inductive HPart where
  | h0 | h1 | h2
  deriving DecidableEq, Repr

/-- Source selection of SHFLI (R174). -/
inductive ShflMode where
  | idx | up | down | xor
  deriving DecidableEq, Repr

/-- Operations of REDSTEP, REDUCE and SCAN (R173). -/
inductive ROp where
  | add | min | max | and | or | xor
  deriving DecidableEq, Repr

/-- Kinds of VOTE (R181). -/
inductive VKind where
  | any | all | uni
  deriving DecidableEq, Repr

/-- Conditions of BRU (R188). -/
inductive UCond where
  | always | nz | z
  deriving DecidableEq, Repr

/-- The seven exception classes in the order of XCNT (R70, R198). -/
inductive XClass where
  | inv | dz | ofl | ufl | nx | sat | nanin
  deriving DecidableEq, Repr

/-- Consecutive registers of a memory access (R203). -/
inductive Cnt where
  | x1 | x2 | x4
  deriving DecidableEq, Repr

/-- Operations of ATOM and ATOMS (R210). -/
inductive AOp where
  | add | min | max | and | or | xor | exch
  deriving DecidableEq, Repr

/-- Operations of ATOMF (R211). -/
inductive FAOp where
  | add | min | max
  deriving DecidableEq, Repr

/-- Tier hints (R90, R214). -/
inductive Hint where
  | promoteLlc | promoteGddr | demote | pin | dontneed
  deriving DecidableEq, Repr

/-- Ordering scopes (R93, R201). -/
inductive Scope where
  | wave | team | cluster | device | system
  deriving DecidableEq, Repr

/-- The engine queues 0 to 4 (R105). -/
inductive Queue where
  | q0 | q1 | q2 | q3 | q4
  deriving DecidableEq, Repr

/-- Scopes of TLBI (R350). -/
inductive TScope where
  | core | cluster | device
  deriving DecidableEq, Repr

/-- Fill select of the cross-lane modifier (R122). -/
inductive Fill where
  | own | zero | srcb
  deriving DecidableEq, Repr

/-- An operand field (R116). `unused` is a field the entry does not use; it is encoded as 0x000 (R117). -/
inductive Opnd where
  | unused
  | v (n : BitVec 8)
  | s (n : BitVec 6)
  | p (n : BitVec 3)
  | exec
  | zero
  | imm
  | t (n : BitVec 3)
  | acc (n : BitVec 2)
  deriving DecidableEq, Repr

/-- The guard (R120): a predicate number and its negation. -/
structure Guard where
  neg : Bool
  p   : BitVec 3
  deriving DecidableEq, Repr

/-- The guard of an unguarded line, 0b0111. -/
def Guard.always : Guard := ⟨false, 7⟩

/-- The guard 0b1111, which never executes. -/
def Guard.never : Guard := ⟨true, 7⟩

/-- The cross-lane modifier (R122). -/
inductive Xl where
  | none
  | shift (k : BitVec 4) (fill : Fill)
  | xor (j : BitVec 3)
  | rot (j : BitVec 3)
  | bcast (n : BitVec 7) (fill : Fill)
  deriving DecidableEq, Repr

/-- The fields that every instruction word has (R115): guard, operand fields, full/empty selection,
cross-lane modifier, the IMM field where the entry reads it as an operand or an offset, and the hints. -/
structure Ops where
  guard : Guard
  dst   : Opnd
  a     : Opnd
  b     : Opnd
  feA   : Bool
  feB   : Bool
  feD   : Bool
  xl    : Xl
  imm   : BitVec 21
  hint  : BitVec 8
  deriving DecidableEq, Repr

/-- The store a scrub read works on (R414). -/
inductive ScrubStore where
  | llc | gddr
  deriving DecidableEq, Repr

/-- What the check of a read finds (R410, R415). -/
inductive Finding where
  | clean | corrected | uncorrectable | tagMismatch
  deriving DecidableEq, Repr

/-- Debug states (R425, R426). -/
inductive DebugState where
  | none | trace | invasive
  deriving DecidableEq, Repr

/-- Who asks over SPDM (R423): the physical function or a virtual function. -/
inductive Requester where
  | pf
  | vf (n : Nat)
  deriving DecidableEq, Repr

/-- An SPDM request as far as the manual describes one: who asks, the certificate slot and the nonce. -/
structure SpdmReq where
  from_ : Requester
  slot  : Nat
  nonce : BitVec 384
  deriving DecidableEq, Repr

/-- A debug token (R425). -/
structure DebugToken where
  state     : DebugState
  part      : Nat
  nonce     : BitVec 384
  signature : BitVec 768
  deriving DecidableEq, Repr

/-- What an attached debugger asks for (R426). -/
inductive DebugReq where
  | halt (core slot : Nat)
  | resume (core slot : Nat)
  | readMem (part : Nat) (va : BitVec 64)
  | writeMem (part : Nat) (va : BitVec 64) (byte : BitVec 8)
  | readScalar (core slot : Nat) (n : BitVec 6)
  | writeScalar (core slot : Nat) (n : BitVec 6) (value : BitVec 64)
  | readVector (core slot : Nat) (n : BitVec 8) (thread : BitVec 7)
  | writeVector (core slot : Nat) (n : BitVec 8) (thread : BitVec 7) (value : BitVec 32)
  | readPred (core slot : Nat) (n : BitVec 3)
  | writePred (core slot : Nat) (n : BitVec 3) (value : BitVec 128)
  | readTile (core : Nat) (n : BitVec 3) (byte : BitVec 13)
  | writeTile (core : Nat) (n : BitVec 3) (byte : BitVec 13) (value : BitVec 8)
  | trace (core slot : Nat)     -- the address of the instruction that a wave issues next
  | count (core : Nat)          -- the cycle counter of a core
  deriving DecidableEq, Repr

/-- The way a control register is written from outside a wave (R357, R391, R418, R429, R447). See assumption 96. -/
inductive Port where
  | vf (n : Nat)        -- BAR0 of a virtual function
  | pf                  -- BAR0 of the physical function
  | machine             -- the control complex
  deriving DecidableEq, Repr

/-- One constructor per row of spec/opcode_table.json: first the 177 instructions of R128 in opcode order,
then the 123 events of the other agents, each with the agent that moves and what the outside brings. -/
inductive Instr where
  | iadd (o : Ops) (ty : Ty) (sat : Bool)
  | isub (o : Ops) (ty : Ty) (sat : Bool)
  | iaddc (o : Ops) (ty : Ty) (ci : Bool) (pc : BitVec 3) (sub : Bool)
  | imul (o : Ops) (ty : Ty) (sat : Bool)
  | imulh (o : Ops) (ty : Ty)
  | imulw (o : Ops) (ty : Ty)
  | imad (o : Ops) (ty : Ty) (sat : Bool)
  | imin (o : Ops) (ty : Ty)
  | imax (o : Ops) (ty : Ty)
  | iabs (o : Ops) (ty : Ty) (sat : Bool)
  | ineg (o : Ops) (ty : Ty) (sat : Bool)
  | iaddmin (o : Ops) (ty : Ty) (sat : Bool)
  | iaddmax (o : Ops) (ty : Ty) (sat : Bool)
  | icmp (o : Ops) (ty : Ty) (cond : ICond)
  | and (o : Ops) (ty : Ty)
  | or (o : Ops) (ty : Ty)
  | xor (o : Ops) (ty : Ty)
  | andn (o : Ops) (ty : Ty)
  | not (o : Ops) (ty : Ty)
  | shl (o : Ops) (ty : Ty)
  | shr (o : Ops) (ty : Ty)
  | sar (o : Ops) (ty : Ty)
  | rot (o : Ops) (ty : Ty)
  | fshl (o : Ops)
  | fshr (o : Ops)
  | bfx (o : Ops) (ty : Ty)
  | bfi (o : Ops)
  | popc (o : Ops) (ty : Ty)
  | clz (o : Ops) (ty : Ty)
  | ctz (o : Ops) (ty : Ty)
  | brev (o : Ops) (ty : Ty)
  | bperm (o : Ops)
  | sel (o : Ops) (ty : Ty) (ps : BitVec 3) (neg : Bool)
  | mov (o : Ops) (ty : Ty)
  | movi (o : Ops) (ty : Ty)
  | movh (o : Ops) (ty : Ty) (part : HPart)
  | lea (o : Ops) (ty : Ty) (scale : BitVec 3)
  | iadd64 (o : Ops) (sub : Bool)
  | idp4 (o : Ops) (ty : Ty) (sat : Bool) (mix : Bool)
  | idp2 (o : Ops) (ty : Ty) (sat : Bool) (mix : Bool)
  | fadd (o : Ops) (ty : Ty) (rnd : Rnd)
  | fsub (o : Ops) (ty : Ty) (rnd : Rnd)
  | fmul (o : Ops) (ty : Ty) (rnd : Rnd)
  | ffma (o : Ops) (ty : Ty) (rnd : Rnd)
  | fmin (o : Ops) (ty : Ty)
  | fmax (o : Ops) (ty : Ty)
  | fcmp (o : Ops) (ty : Ty) (cond : FCond) (hi : Bool)
  | frcp (o : Ops) (rnd : Rnd)
  | frsq (o : Ops)
  | fsqrt (o : Ops) (rnd : Rnd)
  | fexp2 (o : Ops)
  | flog2 (o : Ops)
  | fsinpi (o : Ops)
  | fcospi (o : Ops)
  | ftanh (o : Ops)
  | frnd (o : Ops) (ty : Ty) (rnd : Rnd)
  | fclass (o : Ops) (ty : Ty) (hi : Bool)
  | fscaleb (o : Ops) (ty : Ty) (rnd : Rnd)
  | fexpt (o : Ops)
  | fcvt (o : Ops) (ty : Ty) (rnd : Rnd) (hi : Bool) (sat : Bool) (sty : Ty)
  | fcvti (o : Ops) (ty : Ty) (rnd : Rnd) (hi : Bool) (sty : Ty)
  | icvtf (o : Ops) (ty : Ty) (rnd : Rnd) (sat : Bool) (sty : Ty)
  | fdot2 (o : Ops) (ty : Ty) (rnd : Rnd)
  | padd (o : Ops) (ty : Ty) (rnd : Rnd) (sat : Bool)
  | pmul (o : Ops) (ty : Ty) (rnd : Rnd) (sat : Bool)
  | pfma (o : Ops) (ty : Ty) (rnd : Rnd) (sat : Bool)
  | pmin (o : Ops) (ty : Ty)
  | pmax (o : Ops) (ty : Ty)
  | pcvt (o : Ops) (ty : Ty) (rnd : Rnd) (sat : Bool) (sty : Ty) (pick : BitVec 3) (de8 : Bool) (se8 : Bool)
  | pdot4 (o : Ops) (ty : Ty) (rnd : Rnd) (mix : Bool)
  | cbdec (o : Ops) (pick : BitVec 2) (tile : BitVec 3)
  | cbenc (o : Ops) (h : Bool) (tile : BitVec 3)
  | retag (o : Ops) (tag : BitVec 5)
  | shfl (o : Ops) (ty : Ty) (fill : Bool)
  | shfli (o : Ops) (ty : Ty) (mode : ShflMode) (wrel : Bool) (fill : Bool)
  | lsh (o : Ops) (ty : Ty)
  | bcast (o : Ops) (ty : Ty)
  | redstep (o : Ops) (ty : Ty) (op : ROp) (j : BitVec 3)
  | reduce (o : Ops) (ty : Ty) (op : ROp)
  | scan (o : Ops) (ty : Ty) (op : ROp) (excl : Bool)
  | ballot (o : Ops) (hi : Bool)
  | vote (o : Ops) (kind : VKind)
  | elect (o : Ops)
  | matchLanes (o : Ops) (ty : Ty) (cnt : Bool)
  | bra (o : Ops)
  | bru (o : Ops) (cond : UCond)
  | brx (o : Ops)
  | call (o : Ops) (ind : Bool)
  | ret (o : Ops)
  | exit (o : Ops)
  | joinp (o : Ops)
  | rep (o : Ops) (dStep : BitVec 3) (aStep : BitVec 3) (bStep : BitVec 3) (count : BitVec 6)
  | yield (o : Ops)
  | nop (o : Ops)
  | waitr (o : Ops) (count : BitVec 4)
  | execs (o : Ops)
  | execr (o : Ops)
  | racq (o : Ops) (n : BitVec 5)
  | rrel (o : Ops) (n : BitVec 5)
  | rqry (o : Ops)
  | rdsr (o : Ops) (num : BitVec 8)
  | wrsr (o : Ops) (num : BitVec 8)
  | xcnt (o : Ops) (cls : XClass)
  | trap (o : Ops) (code : BitVec 16)
  | bkpt (o : Ops) (code : BitVec 16)
  | cycle (o : Ops)
  | ld (o : Ops) (ty : Ty) (one : Bool) (cnt : Cnt) (sub : BitVec 2)
  | ldnc (o : Ops) (ty : Ty) (one : Bool) (cnt : Cnt) (sub : BitVec 2)
  | st (o : Ops) (ty : Ty) (one : Bool) (cnt : Cnt) (sub : BitVec 2)
  | stnt (o : Ops) (ty : Ty) (one : Bool) (cnt : Cnt) (sub : BitVec 2)
  | stm (o : Ops) (quad : Bool)
  | lds (o : Ops) (ty : Ty) (one : Bool) (cnt : Cnt)
  | sts (o : Ops) (ty : Ty) (one : Bool) (cnt : Cnt) (credit : Bool)
  | ldu (o : Ops) (ty : Ty) (cnt : Cnt)
  | ldmc (o : Ops) (bar : BitVec 19)
  | atom (o : Ops) (ty : Ty) (op : AOp)
  | atomf (o : Ops) (ty : Ty) (op : FAOp)
  | cas (o : Ops) (ty : Ty)
  | atoms (o : Ops) (ty : Ty) (op : AOp)
  | lr (o : Ops) (ty : Ty)
  | sc (o : Ops) (ty : Ty)
  | pref (o : Ops) (llc : Bool)
  | thint (o : Ops) (hint : Hint)
  | fence (o : Ops) (scope : Scope) (seq : Bool)
  | acq (o : Ops) (scope : Scope)
  | rel (o : Ops) (scope : Scope)
  | bind (o : Ops) (bar : Bool) (slot : BitVec 4)
  | barinit (o : Ops) (arr : BitVec 6)
  | bararr (o : Ops)
  | barwait (o : Ops)
  | barsync (o : Ops)
  | barexp (o : Ops)
  | barq (o : Ops)
  | kick (o : Ops)
  | eqst (o : Ops) (q : Queue) (reg : BitVec 2)
  | eqgo (o : Ops) (q : Queue)
  | eqfence (o : Ops) (mask : BitVec 5)
  | eqwait (o : Ops) (q : Queue) (n : BitVec 6)
  | tld (o : Ops) (ty : Ty) (sp : Bool)
  | tst (o : Ops) (sp : Bool)
  | tcpy (o : Ops)
  | tcb (o : Ops) (sp : Bool)
  | mxprg (o : Ops)
  | vxm (o : Ops) (rnd : Rnd)
  | boxt (o : Ops) (sort : Bool)
  | trit (o : Ops)
  | spush (o : Ops)
  | spop (o : Ops) (pe : BitVec 3)
  | speek (o : Ops) (pe : BitVec 3)
  | sclr (o : Ops)
  | lathreq (o : Ops) (reload : Bool)
  | lathrun (o : Ops) (nin : BitVec 3) (nout : BitVec 2)
  | lathwait (o : Ops)
  | gzarr (o : Ops)
  | gzrd (o : Ops) (flush : Bool)
  | gzclr (o : Ops) (all : Bool)
  | gzrpl (o : Ops)
  | gzst (o : Ops)
  | fget (o : Ops)
  | fcmt (o : Ops)
  | fpsn (o : Ops) (blk : Bool)
  | fend (o : Ops)
  | gprobe (o : Ops)
  | tgcond (o : Ops)
  | tgsig (o : Ops) (mask : BitVec 16)
  | tgwait (o : Ops) (mask : BitVec 16)
  | emit (o : Ops) (node : BitVec 6) (regs : BitVec 4)
  | syscall (o : Ops) (code : BitVec 16)
  | eret (o : Ops)
  | crrd (o : Ops) (num : BitVec 16)
  | crwr (o : Ops) (num : BitVec 16)
  | tlbi (o : Ops) (all : Bool) (scope : TScope)
  | tlbp (o : Ops) (w : Bool)
  | wkill (o : Ops)
  | wsusp (o : Ops)
  | wresm (o : Ops)
  | halt (o : Ops) (code : BitVec 16)
  | loadCompletion (core : Nat) (k : Nat)
  | specialFunctionCompletion (core : Nat) (k : Nat)
  | fairnessTimerExpiry (core : Nat) (slot : Nat)
  | blockGrant (core : Nat) (pool : Nat)
  | waveCreation (core : Nat)
  | exceptionWindowRestart (core : Nat)
  | storePerformed (core : Nat) (k : Nat)
  | remoteScratchpadStore (core : Nat) (k : Nat)
  | inboundCredit (core : Nat) (k : Nat)
  | scoreboardEntryRelease (core : Nat) (k : Nat)
  | peerProbe (core : Nat) (k : Nat)
  | lowerTierRead (line : Nat) (victim : Option Nat)
  | flashPageRead (page : Nat) (part : Nat) (good : Bool)
  | ageSweep (slice : Nat)
  | guestCopyFill (line : Nat) (sector : Nat)
  | guestInvalidation (line : Nat) (sector : Nat)
  | multicastRequest (core : Nat) (k : Nat)
  | mergedResponse (slice : Nat) (k : Nat)
  | followupTransmission (slice : Nat) (k : Nat)
  | mergeEntryClose (slice : Nat) (k : Nat)
  | ldmcDelivery (core : Nat) (k : Nat)
  | copyCompletion (core : Nat)
  | matrixChunk (pair : Nat)
  | epilogueDrain (pair : Nat)
  | queueMarkerCompletion (core : Nat) (q : Nat)
  | tierHintOperation (core : Nat)
  | lathImageLoad (core : Nat)
  | lathRunCompletion (core : Nat)
  | glazeArrival (core : Nat)
  | glazeRead (core : Nat)
  | glazeClear (core : Nat)
  | glazeStatusRead (core : Nat)
  | glazeReplay (core : Nat)
  | missSlotGrant (slice : Nat) (depth : Nat)
  | fillerCreation (part : Nat) (depth : Nat) (core : Nat)
  | pageTableWalk (sector : Nat) (k : Nat)
  | faultResume (part : Nat) (token : BitVec 32)
  | faultAbort (part : Nat) (token : BitVec 32)
  | pageMigration (part : Nat)
  | genLoad (part : Nat) (index : BitVec 8)
  | genInvalidate (part : Nat) (index : BitVec 8)
  | genInvalidateFinish (part : Nat)
  | graphNodeStart (core : Nat)
  | graphNodeCompletion (core : Nat)
  | recordWaveLaunch (core : Nat) (node : Nat)
  | graphCompletion (core : Nat)
  | rebalanceEpoch (sector : Nat)
  | bucketMove (bucket : Nat)
  | bucketMoveAbandon (bucket : Nat)
  | scrubRead (store : ScrubStore) (addr : Nat) (finding : Finding)
  | laneCountClear (core : Nat)
  | ringPacketError (link : Nat)
  | gddrLinkError (chan : Nat)
  | ideIntegrityFailure (stream : Nat)
  | launch (part : Nat) (q : Nat)
  | signal (part : Nat) (q : Nat)
  | wait (part : Nat) (q : Nat)
  | callPacket (part : Nat) (q : Nat)
  | join (part : Nat) (q : Nat)
  | barrier (part : Nat) (q : Nat)
  | priority (part : Nat) (q : Nat)
  | packetAcceptance (part : Nat) (q : Nat)
  | tornPacketReread (part : Nat) (q : Nat)
  | queueTailWrite (part : Nat) (q : Nat) (tail : BitVec 32)
  | queueEnable (part : Nat) (q : Nat)
  | queueRecover (part : Nat) (q : Nat)
  | queueDisable (part : Nat) (q : Nat)
  | queueRetry (part : Nat) (q : Nat)
  | teamPlacement (launch : Nat) (core : Nat)
  | teamPreemption (team : Nat)
  | gridCompletion (launch : Nat)
  | quantumExpiry (part : Nat)
  | shadowStoreSwap (outgoing : Nat) (incoming : Nat)
  | functionLevelReset (vf : Nat)
  | controlComplexFailure
  | coldReset
  | stage1 (badSlices : List Nat) (badChannels : List Nat)
  | stage2
  | d3hotEntry
  | d3coldEntry
  | junctionOvertemp
  | governorInterval (watts : Nat)
  | partitionDescriptorWrite (part : Nat) (desc : BitVec 512)
  | partitionTeardown (part : Nat)
  | headGrant (head : Nat) (part : Option Nat)
  | update
  | updateHandover
  | rcvWrite (cmd : BitVec 64)
  | rcvAuth (cmd : BitVec 64) (badSlices : List Nat) (badChannels : List Nat)
  | rcvErase (cmd : BitVec 64)
  | getVersion (req : SpdmReq)
  | getCapabilities (req : SpdmReq)
  | negotiateAlgorithms (req : SpdmReq)
  | getDigests (req : SpdmReq)
  | getCertificate (req : SpdmReq)
  | challenge (req : SpdmReq)
  | getMeasurements (req : SpdmReq)
  | keyExchange (req : SpdmReq)
  | finish (req : SpdmReq)
  | endSession (req : SpdmReq)
  | vendorDefinedRequest (req : SpdmReq) (token : DebugToken)
  | invasiveDebugEntry
  | headEnable (head : Nat)
  | headDisable (head : Nat)
  | scanKernelLoad (head : Nat) (value : BitVec 64)
  | present (head : Nat) (value : BitVec 64)
  | motionEstimation (head : Nat)
  | gazeLatch (head : Nat)
  | poseLatch (head : Nat)
  | bandDispatch (head : Nat) (band : Nat)
  | bandTeamStart (head : Nat) (band : Nat) (core : Nat)
  | bandDeadline (head : Nat) (band : Nat)
  | lineScanout (head : Nat) (ready : Bool)
  | controlRegisterWrite (port : Port) (num : BitVec 16) (inst : Nat) (value : BitVec 64)
  | tileOperationCompletion (core : Nat)
  | pcieLinkError (corrected : Bool)
  | flitParityError (link : Nat)
  | hostLinkAccess (addr : Nat) (data : Option (List (BitVec 8)))
  | waitConditionHolds (part : Nat) (q : Nat)
  | returnFromD3cold
  | debuggerRequest (req : DebugReq)
  | resumeCommand (handle : BitVec 32)
  | victimStoreSizing (base : Nat) (len : Nat)
  deriving DecidableEq, Repr

end Sys2Proof
end

