-- ==== Sys2Proof/WellFormed.lean ====
section
/-!
DEFINITION. Which instructions are well formed: the operand classes, types, pairs, immediates, full/empty bits and
cross-lane modifiers that each entry accepts (R116 to R125, R127 and the encoding tables of chapters 7 to 13 and
20). A word whose instruction is not well formed fails decode (R129). For an event, the agent it names must exist.
-/
namespace Sys2Proof

namespace Opnd

/-- A vector register. -/
def isV : Opnd → Bool | v _ => true | _ => false
/-- A scalar register. -/
def isS : Opnd → Bool | s _ => true | _ => false
/-- A predicate register. -/
def isP : Opnd → Bool | p _ => true | _ => false
/-- The zero operand. -/
def isZ : Opnd → Bool | zero => true | _ => false
/-- The immediate. -/
def isI : Opnd → Bool | imm => true | _ => false
/-- A tile register. -/
def isT : Opnd → Bool | t _ => true | _ => false
/-- A field the entry does not use. -/
def isU : Opnd → Bool | unused => true | _ => false
/-- "std" of R130 in DST. -/
def stdD (x : Opnd) : Bool := x.isV || x.isS || x.isZ
/-- "std" of R130 in a source. -/
def stdS (x : Opnd) : Bool := x.isV || x.isS || x.isZ || x.isI
/-- A vector register that can start a group aligned to `m` registers; other classes pass (R118). -/
def aligned (m : Nat) : Opnd → Bool | v n => n.toNat % m == 0 | _ => true
/-- A memory base: a vector pair or a scalar for global memory (R201). -/
def globalBase (x : Opnd) : Bool := (x.isV && x.aligned 2) || x.isS
/-- A scratchpad base: one vector or scalar register (R201). -/
def spBase (x : Opnd) : Bool := x.isV || x.isS

end Opnd

/-- The types of 64 bits, which occupy a pair (R118, R131). -/
def Ty.is64 (t : Ty) : Bool := t == .s64 || t == .n64

/-- The four integer types of R135. -/
def Ty.isInt (t : Ty) : Bool := t == .s32 || t == .n32 || t == .s64 || t == .n64

/-- The two bit-pattern types of R135. -/
def Ty.isBits (t : Ty) : Bool := t == .b32 || t == .n64

/-- The three types of group 1. -/
def Ty.isFloat (t : Ty) : Bool := t == .f32 || t == .f16 || t == .bf16

/-- The packed types of R167. -/
def Ty.isPacked (t : Ty) : Bool :=
  t == .s8 || t == .n8 || t == .s16 || t == .n16 || t == .e4m3 || t == .e5m2 || t == .e2m1

/-- The integer types among the packed ones. -/
def Ty.isPackedInt (t : Ty) : Bool := t == .s8 || t == .n8 || t == .s16 || t == .n16

/-- The bits of IMM that must be 0 for an immediate of this type are 0 (R119). -/
def Ty.immFits (t : Ty) (imm : BitVec 21) : Bool :=
  match t with
  | .b32 | .s32 | .n32 | .s64 | .n64 | .f32 => true
  | .f16 | .bf16 | .s16 | .n16 => imm.toNat < 2 ^ 16
  | .e4m3 | .e5m2 | .e3m2 | .e2m3 | .s8 | .n8 => imm.toNat < 2 ^ 8
  | .e2m1 | .cb4 => imm.toNat < 2 ^ 4

namespace Ops

/-- Some operand field names a vector register (R116). -/
def anyV (o : Ops) : Bool := o.dst.isV || o.a.isV || o.b.isV

/-- A vector instruction does not name a scalar destination (R130). -/
def vecRule (o : Ops) : Bool := !(o.anyV && o.dst.isS)

/-- IMM where it is read only as an operand: at most one field names it, it fits the type of that operand, and it
is 0 when none names it (R119). -/
def immOk (o : Ops) (ta tb : Ty) : Bool :=
  match o.a.isI, o.b.isI with
  | true, true => false
  | true, false => ta.immFits o.imm
  | false, true => tb.immFits o.imm
  | false, false => o.imm == 0

/-- A full/empty bit is set only for a vector or scalar register that the instruction reads (R121). -/
def feOk (o : Ops) (readsA readsB readsD : Bool) : Bool :=
  (!o.feA || (readsA && (o.a.isV || o.a.isS))) && (!o.feB || (readsB && (o.b.isV || o.b.isS))) &&
  (!o.feD || (readsD && (o.dst.isV || o.dst.isS)))

/-- The cross-lane modifier: only where the entry accepts one, only on a vector SRCA, never with j = 0 (R122). -/
def xlOk (o : Ops) (accepts : Bool) : Bool :=
  match o.xl with
  | .none => true
  | .xor j | .rot j => accepts && o.a.isV && j != 0
  | .shift _ _ | .bcast _ _ => accepts && o.a.isV

/-- No cross-lane modifier and no use of IMM. -/
def plain (o : Ops) (rA rB rD : Bool) : Bool := o.feOk rA rB rD && o.xlOk false

/-- The common rules of an arithmetic entry: "std" classes, pairs, the vector rule, FE, XL and the immediate. -/
def alu (o : Ops) (td ta tb : Ty) (usesB three : Bool) : Bool :=
  o.dst.stdD && o.a.stdS && (if usesB then o.b.stdS else o.b.isU) && o.vecRule &&
  (!td.is64 || o.dst.aligned 2) && (!ta.is64 || o.a.aligned 2) && (!tb.is64 || o.b.aligned 2) &&
  o.feOk true usesB three && o.xlOk true && o.immOk ta tb

/-- The same rules for an entry whose destination is a predicate. -/
def aluP (o : Ops) (ta tb : Ty) (usesB : Bool) : Bool :=
  o.dst.isP && o.a.stdS && (if usesB then o.b.stdS else o.b.isU) &&
  (!ta.is64 || o.a.aligned 2) && (!tb.is64 || o.b.aligned 2) &&
  o.feOk true usesB false && o.xlOk true && o.immOk ta tb

/-- Two register groups share a register. -/
def overlap (x : Opnd) (n : Nat) (y : Opnd) (m : Nat) : Bool :=
  match x, y with
  | .v i, .v j => i.toNat < j.toNat + m && j.toNat < i.toNat + n
  | _, _ => false

/-- A scalar group does not pass s63. See assumption 133. -/
def scalarRun (x : Opnd) (n : Nat) : Bool := match x with | .s i => i.toNat + n ≤ 64 | _ => true

end Ops

/-- A logic instruction on predicates (R141). -/
def logicP (o : Ops) (ty : Ty) (usesB : Bool) : Bool :=
  ty == .b32 && o.dst.isP && (o.a.isP || o.a.isZ || o.a.isI) &&
  (if usesB then o.b.isP || o.b.isZ || o.b.isI else o.b.isU) &&
  o.feOk false false false && o.xlOk false && o.immOk .b32 .b32

/-- The forms of MOV (R148). -/
def movForm (o : Ops) (ty : Ty) : Bool :=
  o.b.isU && o.feOk true false false && o.xlOk true && o.immOk .b32 .b32 &&
  match ty, o.dst, o.a with
  | .b32, .v _, .v _ | .b32, .v _, .s _ | .b32, .v _, .zero | .b32, .v _, .imm | .b32, .v _, .p _ => true
  | .b32, .s _, .s _ | .b32, .s _, .zero | .b32, .s _, .imm => true
  | .b32, .p _, .v _ | .b32, .p _, .p _ | .b32, .p _, .zero | .b32, .p _, .imm | .b32, .p _, .exec => true
  | .b32, .exec, .p _ | .b32, .exec, .zero | .b32, .exec, .imm => true
  | .n64, .v _, .v _ => o.dst.aligned 2 && o.a.aligned 2
  | .n64, .v _, .s _ | .n64, .v _, .zero | .n64, .v _, .imm => o.dst.aligned 2
  | .n64, .s _, .s _ | .n64, .s _, .zero | .n64, .s _, .imm => true
  | _, _, _ => false

/-- Elements per 32-bit word of the types of PCVT (R168); 0 is a type it does not accept. -/
def Ty.cvtCount : Ty → Nat
  | .f32 | .s32 | .n32 => 1
  | .f16 | .bf16 | .s16 | .n16 => 2
  | .e4m3 | .e5m2 | .s8 | .n8 => 4
  | .e2m1 => 8
  | _ => 0

/-- Elements per word of a PCVT operand: E8M0 is coded as type 0 with its own bit (R168). -/
def cvtCount (ty : Ty) (e8 : Bool) : Nat := if e8 then (if ty == .b32 then 4 else 0) else ty.cvtCount

/-- PCVT takes SRCB when the destination holds more elements per word than the source (R168). -/
def pcvtTakesB (dty sty : Ty) (de8 se8 : Bool) : Bool := cvtCount sty se8 < cvtCount dty de8

/-- PCVT writes only part of its destination, and so reads it (R168). -/
def pcvtPartial (dty sty : Ty) (de8 se8 : Bool) : Bool := 2 * cvtCount sty se8 < cvtCount dty de8

/-- The number of values SEL may take (R168). -/
def pcvtSels (dty sty : Ty) (de8 se8 : Bool) : Nat :=
  let md := cvtCount dty de8
  let ms := cvtCount sty se8
  if md ≤ ms then ms / md else if md == 2 * ms then 1 else md / (2 * ms)

/-- The types that REDSTEP, REDUCE and SCAN permit for an operation (R173). -/
def ROp.permits (op : ROp) (ty : Ty) : Bool :=
  match op with
  | .add | .min | .max => ty == .s32 || ty == .n32 || ty == .f32
  | .and | .or | .xor => ty == .b32

/-- The types that ATOM and ATOMS permit for an operation (R210). -/
def AOp.permits (op : AOp) (ty : Ty) : Bool :=
  match op with
  | .add | .min | .max => ty.isInt
  | .and | .or | .xor | .exch => ty.isBits

/-- The types with a one-element form, and the sub-byte ones among them (R203). -/
def Ty.hasOne (t : Ty) : Bool := !(t == .b32 || t == .s32 || t == .n32 || t == .f32 || t.is64)

/-- The types whose one-element form needs a sub-element (R203). -/
def Ty.subCount : Ty → Nat
  | .e2m1 | .cb4 => 2
  | .e3m2 | .e2m3 => 4
  | _ => 1

/-- Number of registers of CNT. -/
def Cnt.num : Cnt → Nat | .x1 => 1 | .x2 => 2 | .x4 => 4

/-- ONE, CNT and SUB fit the type (R203). -/
def memForm (ty : Ty) (one : Bool) (cnt : Cnt) (sub : BitVec 2) (scratch : Bool) : Bool :=
  if one then ty.hasOne && cnt == .x1 && sub.toNat < ty.subCount && !(scratch && 1 < ty.subCount)
  else sub == 0

/-- The data register of a load or store: pairs are even (R118). A run of scalars that passes s63 is no operand. See assumption 133. -/
def dataReg (x : Opnd) (ty : Ty) (cnt : Cnt) : Bool :=
  (!ty.is64 || x.aligned 2) && Ops.scalarRun x cnt.num

/-- Status register numbers of R55 and R72. -/
def srAssigned (n : Nat) : Bool := n ≤ 0x0A || (0x20 ≤ n && n ≤ 0x27)

/-- The status registers that WRSR may write (R55, R72). -/
def srWritable (n : Nat) : Bool := n == 0x0A || (0x20 ≤ n && n ≤ 0x27)

/-- The control registers that some chapter assigns a number (R343, R344). -/
def crAssigned (n : Nat) : Bool :=
  n ≤ 0x0003 || (0x0100 ≤ n && n < 0x0180 && n % 8 < 6) || (0x2000 ≤ n && n ≤ 0x2004) || n == 0x3000 ||
  (0x4000 ≤ n && n ≤ 0x400B) || (0x5000 ≤ n && n ≤ 0x5007) || (0x6000 ≤ n && n ≤ 0x6002) ||
  (0x7001 ≤ n && n ≤ 0x7003) || (0x8000 ≤ n && n ≤ 0x8003)

/-- Core numbers, the two scan cores included (R1, R432). -/
def okCore (c : Nat) : Bool := c < 194
/-- Partition numbers (R1). -/
def okPart (p : Nat) : Bool := p < 32
/-- Queue numbers of a partition (R357). -/
def okQ (q : Nat) : Bool := q < 16
/-- Slices (R1). -/
def okSlice (x : Nat) : Bool := x < 96
/-- Heads (R428). -/
def okHead (h : Nat) : Bool := h < 4

/-- The rules of each entry. -/
def Instr.wf : Instr → Bool
  -- group 0 (R135)
  | .iadd o ty _ | .isub o ty _ | .imul o ty _ => ty.isInt && o.alu ty ty ty true false
  | .iaddc o ty _ _ _ => ty.isInt && o.alu ty ty ty true false
  | .imulh o ty | .imin o ty | .imax o ty => ty.isInt && o.alu ty ty ty true false
  | .imulw o ty => (ty == .s32 || ty == .n32) && o.alu .n64 ty ty true false
  | .imad o ty _ | .iaddmin o ty _ | .iaddmax o ty _ => ty.isInt && o.alu ty ty ty true true
  | .iabs o ty _ | .ineg o ty _ => (ty == .s32 || ty == .s64) && o.alu ty ty ty false false
  | .icmp o ty _ => ty.isInt && o.aluP ty ty true
  | .and o ty | .or o ty | .xor o ty | .andn o ty =>
    ty.isBits && (if o.dst.isP then logicP o ty true else o.alu ty ty ty true false)
  | .not o ty => ty.isBits && (if o.dst.isP then logicP o ty false else o.alu ty ty ty false false)
  | .shl o ty | .shr o ty | .sar o ty | .rot o ty => ty.isBits && o.alu ty ty .b32 true false
  | .fshl o | .fshr o | .bfi o | .bperm o => o.alu .b32 .b32 .b32 true true
  | .bfx o ty => (ty == .s32 || ty == .n32) && o.alu ty ty .b32 true false
  | .popc o ty | .clz o ty | .ctz o ty => ty.isBits && o.alu .n32 ty ty false false
  | .brev o ty => ty.isBits && o.alu ty ty ty false false
  | .sel o ty _ _ => ty.isBits && o.alu ty ty ty true false
  | .mov o ty => ty.isBits && movForm o ty
  | .movi o ty =>
    (ty == .b32 || ty.isInt) && o.dst.stdD && o.a.isU && o.b.isU && (!ty.is64 || o.dst.aligned 2) &&
    o.plain false false false
  | .movh o ty part =>
    (ty == .b32 || ty.isInt) && o.dst.stdD && o.a.isU && o.b.isU && (!ty.is64 || o.dst.aligned 2) &&
    o.plain false false true && (part == .h0 || ty.is64) && (part == .h1 || o.imm.toNat < 2 ^ 11)
  | .lea o ty _ => (ty == .s32 || ty == .n32) && o.alu .n64 .n64 ty true false && !o.a.isI
  | .iadd64 o _ => o.alu .n64 .n64 .n64 true false && !o.a.isI
  | .idp4 o ty _ _ => (ty == .s8 || ty == .n8) && o.alu .n32 ty ty true true
  | .idp2 o ty _ _ => (ty == .s16 || ty == .n16) && o.alu .n32 ty ty true true
  -- group 1 (R154)
  | .fadd o ty _ | .fsub o ty _ | .fmul o ty _ => ty.isFloat && o.alu ty ty ty true false
  | .ffma o ty _ => ty.isFloat && o.alu ty ty ty true true
  | .fmin o ty | .fmax o ty => ty.isFloat && o.alu ty ty ty true false
  | .fcmp o ty _ hi => ty.isFloat && o.aluP ty ty true && !(hi && ty == .f32)
  | .frcp o _ | .fsqrt o _ => o.alu .f32 .f32 .f32 false false
  | .frsq o | .fexp2 o | .flog2 o | .fsinpi o | .fcospi o | .ftanh o | .fexpt o => o.alu .f32 .f32 .f32 false false
  | .frnd o ty _ => ty.isFloat && o.alu ty ty ty false false
  | .fclass o ty hi => ty.isFloat && o.aluP ty .b32 true && !(hi && ty == .f32)
  | .fscaleb o ty _ => ty.isFloat && o.alu ty ty .s32 true false
  | .fcvt o ty rnd hi sat sty =>
    o.alu ty sty sty (ty != .f32) false && !o.a.isI && !o.b.isI &&
    (((ty == .f32) && (sty == .f16 || sty == .bf16) && rnd == .fpmode && !sat) ||
     ((ty == .f16 || ty == .bf16) && sty == .f32 && !hi))
  | .fcvti o ty _ hi sty =>
    ty.isInt && sty.isFloat && o.alu ty sty sty false false && !o.a.isI && !(hi && sty == .f32)
  | .icvtf o ty _ _ sty => ty.isFloat && sty.isInt && o.alu ty sty sty (ty != .f32) false && !o.a.isI && !o.b.isI
  | .fdot2 o ty _ => (ty == .f16 || ty == .bf16) && o.alu .f32 ty ty true true
  -- group 2 (R166)
  | .padd o ty rnd _ | .pmul o ty rnd _ => ty.isPacked && o.alu ty ty ty true false && (!ty.isPackedInt || rnd == .fpmode)
  | .pfma o ty rnd _ => ty.isPacked && o.alu ty ty ty true true && (!ty.isPackedInt || rnd == .fpmode)
  | .pmin o ty | .pmax o ty => ty.isPacked && o.alu ty ty ty true false
  | .pcvt o ty _ _ sty pick de8 se8 =>
    let md := cvtCount ty de8
    let ms := cvtCount sty se8
    md != 0 && ms != 0 && !(de8 && se8) && !(!de8 && !se8 && ty == sty) &&
    o.alu .b32 .b32 .b32 (pcvtTakesB ty sty de8 se8) (pcvtPartial ty sty de8 se8) && !o.a.isI && !o.b.isI &&
    pick.toNat < pcvtSels ty sty de8 se8
  | .pdot4 o ty _ _ => (ty == .e4m3 || ty == .e5m2) && o.alu .f32 ty ty true true
  | .cbdec o _ _ =>
    (o.dst.isV || o.dst.isZ) && (o.a.isV || o.a.isS) && o.b.isU && o.imm == 0 && o.feOk true false false && o.xlOk true
  | .cbenc o _ _ =>
    o.dst.isV && (o.a.isV || o.a.isS) && (o.b.isV || o.b.isS || o.b.isZ) && o.imm == 0 && o.feOk true true true && o.xlOk true
  | .retag o tag => (o.dst.isV || o.dst.isT) && o.a.isU && o.b.isU && o.imm == 0 && o.plain false false false && tag.toNat ≤ 16
  | .shfl o ty _ =>
    ty.isBits && o.dst.isV && o.a.isV && o.b.stdS && (!ty.is64 || (o.dst.aligned 2 && o.a.aligned 2)) &&
    o.plain true true false && o.immOk .b32 .b32
  | .shfli o ty _ wrel _ =>
    ty.isBits && o.dst.isV && o.a.isV && o.b.isU && (!ty.is64 || (o.dst.aligned 2 && o.a.aligned 2)) &&
    o.plain true false false && (if wrel then 1 ≤ o.imm.toNat && o.imm.toNat < 8 else o.imm.toNat < 128)
  | .lsh o ty =>
    ty.isBits && o.dst.isV && o.a.isV && (o.b.isV || o.b.isS || o.b.isZ) &&
    (!ty.is64 || (o.dst.aligned 2 && o.a.aligned 2 && o.b.aligned 2)) && o.plain true true false
  | .bcast o ty =>
    ty.isBits && o.dst.stdD && o.a.isV && (o.b.isS || o.b.isI) && (!ty.is64 || (o.dst.aligned 2 && o.a.aligned 2)) &&
    o.plain true true false && o.immOk .b32 .b32
  | .redstep o ty op j => op.permits ty && o.dst.isV && o.a.isV && o.b.isU && o.imm == 0 && o.plain true false false && j != 0
  | .reduce o ty op => op.permits ty && o.dst.stdD && o.a.isV && o.b.isU && o.imm == 0 && o.plain true false false
  | .scan o ty op _ => op.permits ty && o.dst.isV && o.a.isV && o.b.isU && o.imm == 0 && o.plain true false false
  | .ballot o _ => o.dst.isS && o.a.isP && o.b.isU && o.imm == 0 && o.plain false false false
  | .vote o _ => o.dst.isP && o.a.isP && o.b.isU && o.imm == 0 && o.plain false false false
  | .elect o => o.dst.isP && o.a.isU && o.b.isU && o.imm == 0 && o.plain false false false
  | .matchLanes o ty _ =>
    ty.isBits && o.dst.isV && o.a.isV && o.b.isU && o.imm == 0 && (!ty.is64 || o.a.aligned 2) && o.plain true false false
  -- group 3 (R185)
  | .bra o | .joinp o => o.dst.isU && o.a.isU && o.b.isU && o.plain false false false
  | .bru o cond => o.dst.isU && (if cond = .always then o.a.isU else o.a.isS) && o.b.isU && o.plain true false false
  | .brx o => o.dst.isU && o.a.isS && o.b.isU && o.plain true false false
  | .call o ind =>
    o.dst.isS && (if ind then o.a.isS && o.imm == 0 else o.a.isU) && o.b.isU && o.plain true false false
  | .ret o => o.dst.isU && o.a.isS && o.b.isU && o.imm == 0 && o.plain true false false
  | .exit o | .yield o | .nop o => o.dst.isU && o.a.isU && o.b.isU && o.imm == 0 && o.plain false false false
  | .rep o _ _ _ _ =>
    o.dst.isU && o.a.isU && o.b.isU && o.imm == 0 && o.plain false false false && o.guard == Guard.always
  | .waitr o count =>
    o.dst.isU && (o.a.isV || o.a.isS) && o.b.isU && o.imm == 0 && o.plain false false false &&
    Ops.scalarRun o.a (count.toNat + 1)
  | .execs o => o.dst.isP && o.a.isP && o.b.isU && o.imm == 0 && o.plain false false false
  | .execr o => o.dst.isU && o.a.isP && o.b.isU && o.imm == 0 && o.plain false false false
  | .racq o n =>
    (o.dst.isP || o.dst.isZ) && o.a.isU && o.b.isU && o.imm == 0 && o.plain false false false && 1 ≤ n.toNat && n.toNat ≤ 16
  | .rrel o n => o.dst.isU && o.a.isU && o.b.isU && o.imm == 0 && o.plain false false false && 1 ≤ n.toNat && n.toNat ≤ 16
  | .rqry o | .cycle o => o.dst.isS && o.a.isU && o.b.isU && o.imm == 0 && o.plain false false false
  | .rdsr o num => o.dst.stdD && o.a.isU && o.b.isU && o.imm == 0 && o.plain false false false && srAssigned num.toNat
  | .wrsr o num => o.dst.isU && (o.a.isS || o.a.isZ) && o.b.isU && o.imm == 0 && o.plain true false false && srWritable num.toNat
  | .xcnt o _ => (o.dst.isS || o.dst.isZ) && o.a.isU && o.b.isU && o.imm == 0 && o.plain false false false
  | .trap o _ | .bkpt o _ => o.dst.isU && o.a.isU && o.b.isU && o.imm == 0 && o.plain false false false
  -- group 4 (R201, R203)
  | .ld o ty one cnt sub | .ldnc o ty one cnt sub =>
    o.dst.isV && o.a.globalBase && o.b.isU && memForm ty one cnt sub false && dataReg o.dst ty cnt && o.plain true false false
  | .st o ty one cnt sub | .stnt o ty one cnt sub =>
    o.dst.isU && o.a.globalBase && (o.b.isV || o.b.isS || o.b.isZ) && memForm ty one cnt sub false && dataReg o.b ty cnt &&
    o.plain true true false
  | .stm o quad =>
    (if quad then o.dst == .p 0 || o.dst == .p 4 else o.dst.isV || o.dst.isS || o.dst.isP) && o.a.globalBase && o.b.isV &&
    o.plain true true true
  | .lds o ty one cnt =>
    (o.dst.isV || (o.dst.isS && o.a.isS)) && o.a.spBase && o.b.isU && memForm ty one cnt 0 true && dataReg o.dst ty cnt &&
    o.plain true false false
  | .sts o ty one cnt credit =>
    (if credit then o.dst.isS else o.dst.isU) && o.a.spBase && (o.b.isV || o.b.isS || o.b.isZ) && memForm ty one cnt 0 true &&
    dataReg o.b ty cnt && o.plain true true true
  | .ldu o ty cnt =>
    (ty == .b32 || ty.isInt) && o.dst.isS && o.a.isS && o.b.isU && dataReg o.dst ty cnt && o.plain true false false
  | .ldmc o _ => (o.dst.isS || o.dst.isZ) && o.a.isS && o.b.isS && o.imm == 0 && o.plain true true false
  | .atom o ty op =>
    op.permits ty && o.dst.stdD && o.a.globalBase && (o.b.isV || o.b.isS || o.b.isZ) && o.vecRule &&
    dataReg o.dst ty .x1 && dataReg o.b ty .x1 && o.plain true true false
  | .atoms o ty op =>
    op.permits ty && o.dst.stdD && o.a.spBase && (o.b.isV || o.b.isS || o.b.isZ) && o.vecRule &&
    dataReg o.dst ty .x1 && dataReg o.b ty .x1 && o.plain true true false
  | .atomf o ty _ =>
    ty.isFloat && o.dst.stdD && o.a.globalBase && (o.b.isV || o.b.isS || o.b.isZ) && o.vecRule && o.plain true true false
  | .cas o ty =>
    ty.isBits && (o.dst.isV || o.dst.isS) && o.a.globalBase && (o.b.isV || o.b.isS || o.b.isZ) && o.vecRule &&
    dataReg o.dst ty .x1 && dataReg o.b ty .x1 && o.plain true true true
  | .lr o ty => ty.isBits && o.dst.isV && o.a.globalBase && o.b.isU && dataReg o.dst ty .x1 && o.plain true false false
  | .sc o ty =>
    ty.isBits && (o.dst.isV || o.dst.isZ) && o.a.globalBase && (o.b.isV || o.b.isZ) && dataReg o.b ty .x1 && o.anyV &&
    o.plain true true false
  | .pref o _ => o.dst.isU && o.a.globalBase && o.b.isU && o.plain true false false
  | .thint o _ => o.dst.isU && o.a.isS && o.b.isS && o.imm == 0 && o.plain true true false
  | .fence o _ _ => o.dst.isU && o.a.isU && o.b.isU && o.imm == 0 && o.plain false false false
  | .acq o scope => scope != .wave && (o.dst.isS || o.dst.isZ) && o.a.isS && o.b.isU && o.plain true false false
  | .rel o scope => scope != .wave && o.dst.isU && o.a.isS && (o.b.isS || o.b.isZ) && o.plain true true false
  | .bind o _ _ => o.dst.isS && o.a.isS && o.b.isS && o.imm == 0 && o.plain true true true
  -- group 5 (R219, R244 to R246)
  | .barinit o arr => o.dst.isU && o.a.isS && o.b.isU && o.plain true false false && arr.toNat ≤ 48
  | .bararr o | .barsync o => (o.dst.isS || o.dst.isZ) && o.a.isS && (o.b.isS || o.b.isZ) && o.plain true true false
  | .barwait o => (o.dst.isS || o.dst.isZ) && o.a.isS && o.b.isS && o.plain true true false
  | .barexp o => o.dst.isU && o.a.isS && o.b.isS && o.plain true true false
  | .barq o => o.dst.isS && o.a.isS && o.b.isS && o.plain true true false
  | .kick o => o.dst.isU && o.a.isS && o.b.isU && o.plain true false false
  | .eqst o _ _ => o.dst.isU && (o.a.isS || o.a.isZ || o.a.isI) && o.b.isU && o.plain true false false && o.immOk .n64 .n64
  | .eqgo o _ => o.dst.isU && o.a.isU && o.b.isU && o.imm == 0 && o.plain false false false
  | .eqfence o _ => o.dst.isU && o.a.isU && o.b.isU && o.imm == 0 && o.plain false false false
  | .eqwait o _ _ => (o.dst.isS || o.dst.isZ) && o.a.isU && o.b.isU && o.imm == 0 && o.plain false false false
  | .tld o _ _ | .tst o _ => o.dst.isT && o.a.isS && o.b.isS && o.plain true true false
  | .tcpy o => o.dst.isT && o.a.isT && o.b.isU && o.imm == 0 && o.plain false false false
  | .tcb o _ => o.dst.isT && o.a.isS && o.b.isU && o.plain true false false
  | .mxprg o => o.dst.isS && o.a.isU && o.b.isU && o.imm == 0 && o.plain false false false
  | .vxm o _ =>
    o.dst.isV && o.a.isV && o.b.isV && o.dst.aligned 8 && o.a.aligned 8 && o.b.aligned 2 && o.imm == 0 &&
    !Ops.overlap o.dst 8 o.a 8 && !Ops.overlap o.dst 8 o.b 2 && !Ops.overlap o.a 8 o.b 2 && o.plain true true true
  -- group 6 (R247, R277, R305)
  | .boxt o _ =>
    o.dst.isV && o.a.isV && o.dst.aligned 8 && o.a.aligned 8 && o.b.globalBase && o.imm.toNat % 128 == 0 && o.plain true true false
  | .trit o =>
    o.dst.isV && o.a.isV && o.dst.aligned 4 && o.a.aligned 8 && o.b.globalBase && o.imm.toNat % 16 == 0 && o.plain true true false
  | .spush o => o.dst.isP && o.a.isS && (o.b.isV || o.b.isS || o.b.isZ) && o.plain true true false
  | .spop o _ | .speek o _ => o.dst.isV && o.a.isS && o.b.isU && o.plain true false false
  | .sclr o => o.dst.isU && o.a.isU && o.b.isU && o.imm == 0 && o.plain false false false
  | .lathreq o _ => o.dst.isU && o.a.isS && o.b.isU && o.imm == 0 && o.plain true false false
  | .lathrun o nin nout =>
    o.dst.isV && o.a.isV && o.b.isS && o.imm == 0 && o.plain true true false &&
    !Ops.overlap o.dst (nout.toNat + 1) o.a (nin.toNat + 1)
  | .lathwait o => (o.dst.isS || o.dst.isZ) && o.a.isS && o.b.isU && o.imm == 0 && o.plain true false false
  | .gzarr o => o.dst.isV && o.a.isV && o.b.isV && o.b.aligned 2 && o.imm == 0 && o.feOk true true true && o.xlOk true
  | .gzrd o _ => o.dst.isV && o.dst.aligned 8 && (o.a.isV || o.a.isS) && o.b.isU && o.imm == 0 && o.plain true false false
  | .gzclr o all => o.dst.isU && (if all then o.a.isU else o.a.isV || o.a.isS) && o.b.isU && o.imm == 0 && o.plain true false false
  | .gzrpl o => o.dst.isU && o.a.isS && o.b.isS && o.imm == 0 && o.plain true true false
  | .gzst o => (o.dst.isS || o.dst.isZ) && o.a.isU && o.b.isU && o.imm == 0 && o.plain false false false
  | .fget o => o.dst.isS && o.a.isU && o.b.isU && o.imm == 0 && o.plain false false false
  | .fcmt o => o.dst.isU && o.a.isS && o.b.isV && o.plain true true false
  | .fpsn o blk => o.dst.isU && (if blk then o.a.isU && o.imm == 0 else o.a.isS) && o.b.isU && o.plain true false false
  | .fend o => o.dst.isU && o.a.isU && o.b.isU && o.imm == 0 && o.plain false false false
  | .gprobe o => (o.dst.isS || o.dst.isZ) && o.a.isS && o.b.isU && o.plain true false false
  | .tgcond o => o.dst.isU && o.a.isS && (o.b.isS || o.b.isZ) && o.plain true true false
  | .tgsig o _ | .tgwait o _ => o.dst.isU && o.a.isU && o.b.isU && o.imm == 0 && o.plain false false false
  | .emit o _ _ => o.dst.isP && o.a.isV && o.b.isU && o.imm == 0 && o.plain true false false
  -- group 7 (R350)
  | .syscall o _ | .halt o _ => o.dst.isU && o.a.isU && o.b.isU && o.imm == 0 && o.plain false false false
  | .eret o => o.dst.isU && o.a.isU && o.b.isU && o.imm == 0 && o.plain false false false
  | .crrd o num => (o.dst.isS || o.dst.isZ) && (o.a.isS || o.a.isZ) && o.b.isU && o.imm == 0 && o.plain true false false && crAssigned num.toNat
  | .crwr o num => o.dst.isU && (o.a.isS || o.a.isZ) && (o.b.isS || o.b.isZ) && o.imm == 0 && o.plain true true false && crAssigned num.toNat
  | .tlbi o all _ =>
    o.dst.isU && (if all then o.a.isU && o.b.isU else o.a.isS && o.b.isS) && o.imm == 0 && o.plain true true false
  | .tlbp o _ => o.dst.isS && o.a.isS && o.b.isU && o.imm == 0 && o.plain true false false
  | .wkill o | .wsusp o | .wresm o => (o.dst.isS || o.dst.isZ) && o.a.isS && o.b.isU && o.imm == 0 && o.plain true false false
  -- events: the agent exists
  | .loadCompletion c _ | .specialFunctionCompletion c _ | .storePerformed c _ | .remoteScratchpadStore c _
  | .inboundCredit c _ | .scoreboardEntryRelease c _ | .peerProbe c _ | .multicastRequest c _ | .ldmcDelivery c _ => okCore c
  | .fairnessTimerExpiry c slot => okCore c && slot < 24
  | .blockGrant c pool => okCore c && pool < 3
  | .waveCreation c | .exceptionWindowRestart c | .copyCompletion c | .tierHintOperation c | .lathImageLoad c
  | .lathRunCompletion c | .glazeArrival c | .glazeRead c | .glazeClear c | .glazeStatusRead c | .glazeReplay c
  | .graphNodeStart c | .graphNodeCompletion c | .graphCompletion c | .laneCountClear c | .tileOperationCompletion c => okCore c
  | .recordWaveLaunch c node => okCore c && node < 63
  | .queueMarkerCompletion c q => okCore c && (q == 3 || q == 4)
  | .lowerTierRead _ _ | .flashPageRead _ _ _ => true
  | .ageSweep x => okSlice x
  | .guestCopyFill _ sector | .guestInvalidation _ sector => sector < 3
  | .mergedResponse x _ | .followupTransmission x _ | .mergeEntryClose x _ => okSlice x
  | .matrixChunk pair | .epilogueDrain pair => pair < 97
  | .missSlotGrant x depth => okSlice x && depth < 3
  | .fillerCreation part depth core => okPart part && (depth == 1 || depth == 2) && core < 192
  | .pageTableWalk sector _ => sector < 3
  | .faultResume part _ | .faultAbort part _ | .pageMigration part | .genLoad part _ | .genInvalidate part _
  | .genInvalidateFinish part | .quantumExpiry part | .partitionDescriptorWrite part _ | .partitionTeardown part => okPart part
  | .rebalanceEpoch sector => sector < 3
  | .bucketMove b | .bucketMoveAbandon b => b < 4096
  | .scrubRead _ _ _ => true
  | .ringPacketError link | .flitParityError link => link < 6
  | .gddrLinkError ch => ch < 16
  | .ideIntegrityFailure _ => true
  | .launch p q | .signal p q | .wait p q | .callPacket p q | .join p q | .barrier p q | .priority p q
  | .packetAcceptance p q | .tornPacketReread p q | .queueTailWrite p q _ | .queueEnable p q | .queueRecover p q
  | .queueDisable p q | .queueRetry p q | .waitConditionHolds p q => okPart p && okQ q
  | .teamPlacement _ core => core < 192
  | .teamPreemption _ | .gridCompletion _ => true
  | .shadowStoreSwap a b => okPart a && okPart b
  | .functionLevelReset vf => vf < 256
  | .controlComplexFailure | .coldReset | .stage2 | .d3hotEntry | .d3coldEntry | .junctionOvertemp => true
  | .stage1 ss cs | .rcvAuth _ ss cs => ss.all okSlice && cs.all (· < 16)
  | .governorInterval _ => true
  | .headGrant h p => okHead h && p.all okPart
  | .update | .updateHandover | .rcvWrite _ | .rcvErase _ => true
  | .getVersion _ | .getCapabilities _ | .negotiateAlgorithms _ | .getDigests _ | .getCertificate _ | .challenge _
  | .getMeasurements _ | .keyExchange _ | .finish _ | .endSession _ | .vendorDefinedRequest _ _ => true
  | .invasiveDebugEntry => true
  | .headEnable h | .headDisable h | .scanKernelLoad h _ | .present h _ | .motionEstimation h | .gazeLatch h
  | .poseLatch h | .bandDispatch h _ | .bandDeadline h _ | .lineScanout h _ => okHead h
  | .bandTeamStart h _ core => okHead h && (core == 192 || core == 193)
  | .controlRegisterWrite _ _ _ _ => true
  | .pcieLinkError _ | .hostLinkAccess _ _ | .returnFromD3cold | .debuggerRequest _ | .resumeCommand _
  | .victimStoreSizing _ _ => true

/-- A well-formed instruction. -/
abbrev Instr.WF (i : Instr) : Prop := i.wf = true

/-- What a scan core refuses at decode besides (R433), and the cross-lane distances that are zero at wave width
`w` (R122, R174, R177). -/
def Instr.refusedOnScan : Instr → Bool
  | .ldmc _ _ | .boxt _ _ | .trit _ | .spush _ | .spop _ _ | .speek _ _ | .sclr _ | .lathreq _ _ | .lathrun _ _ _
  | .lathwait _ | .gzarr _ | .gzrd _ _ | .gzclr _ _ | .gzrpl _ | .gzst _ | .tgcond _ | .tgsig _ _ | .tgwait _ _
  | .emit _ _ _ | .eret _ | .crrd _ _ | .crwr _ _ | .tlbi _ _ _ | .tlbp _ _ | .wkill _ | .wsusp _ | .wresm _
  | .halt _ _ => true
  | .shfli o _ _ wrel _ => wrel && decide (6 ≤ o.imm.toNat)
  | .redstep _ _ _ j => decide (6 ≤ j.toNat)
  | _ => false

end Sys2Proof
end

