-- ==== Sys2Proof/Decode.lean ====
section
/-!
DEFINITION. The instruction word of R115 and its decoder and encoder. `build` reads the fields of a word by the
opcode map (R128) and the encoding tables (R135, R154, R166, R185, R201, R219, R247, R277, R305, R350); a word
decodes only when the instruction it names is well formed and is encoded by exactly that word, so a nonzero
unused field, an unassigned MOD bit and a reserved value all fail decode (R117, R125, R129).
-/
namespace Sys2Proof


/-- The code of R125 or of the entry that holds the field. -/
def Ty.code : Ty → BitVec 5
  | .b32 => 0
  | .s8 => 1
  | .s16 => 2
  | .s32 => 3
  | .s64 => 4
  | .n8 => 5
  | .n16 => 6
  | .n32 => 7
  | .n64 => 8
  | .f32 => 9
  | .f16 => 10
  | .bf16 => 11
  | .e4m3 => 12
  | .e5m2 => 13
  | .e3m2 => 14
  | .e2m3 => 15
  | .e2m1 => 16
  | .cb4 => 17

/-- The member a code names; a reserved code names none. -/
def Ty.ofCode (c : BitVec 5) : Option Ty :=
  match c.toNat with
  | 0 => some .b32
  | 1 => some .s8
  | 2 => some .s16
  | 3 => some .s32
  | 4 => some .s64
  | 5 => some .n8
  | 6 => some .n16
  | 7 => some .n32
  | 8 => some .n64
  | 9 => some .f32
  | 10 => some .f16
  | 11 => some .bf16
  | 12 => some .e4m3
  | 13 => some .e5m2
  | 14 => some .e3m2
  | 15 => some .e2m3
  | 16 => some .e2m1
  | 17 => some .cb4
  | _ => none

/-- The code of R125 or of the entry that holds the field. -/
def Rnd.code : Rnd → BitVec 3
  | .fpmode => 0
  | .rne => 4
  | .rtz => 5
  | .rup => 6
  | .rdn => 7

/-- The member a code names; a reserved code names none. -/
def Rnd.ofCode (c : BitVec 3) : Option Rnd :=
  match c.toNat with
  | 0 => some .fpmode
  | 4 => some .rne
  | 5 => some .rtz
  | 6 => some .rup
  | 7 => some .rdn
  | _ => none

/-- The code of R125 or of the entry that holds the field. -/
def ICond.code : ICond → BitVec 3
  | .eq => 0
  | .ne => 1
  | .lt => 2
  | .le => 3
  | .gt => 4
  | .ge => 5

/-- The member a code names; a reserved code names none. -/
def ICond.ofCode (c : BitVec 3) : Option ICond :=
  match c.toNat with
  | 0 => some .eq
  | 1 => some .ne
  | 2 => some .lt
  | 3 => some .le
  | 4 => some .gt
  | 5 => some .ge
  | _ => none

/-- The code of R125 or of the entry that holds the field. -/
def FCond.code : FCond → BitVec 3
  | .eq => 0
  | .ne => 1
  | .lt => 2
  | .le => 3
  | .gt => 4
  | .ge => 5
  | .ord => 6
  | .uno => 7

/-- The member a code names; a reserved code names none. -/
def FCond.ofCode (c : BitVec 3) : Option FCond :=
  match c.toNat with
  | 0 => some .eq
  | 1 => some .ne
  | 2 => some .lt
  | 3 => some .le
  | 4 => some .gt
  | 5 => some .ge
  | 6 => some .ord
  | 7 => some .uno
  | _ => none

/-- The code of R125 or of the entry that holds the field. -/
def HPart.code : HPart → BitVec 2
  | .h0 => 0
  | .h1 => 1
  | .h2 => 2

/-- The member a code names; a reserved code names none. -/
def HPart.ofCode (c : BitVec 2) : Option HPart :=
  match c.toNat with
  | 0 => some .h0
  | 1 => some .h1
  | 2 => some .h2
  | _ => none

/-- The code of R125 or of the entry that holds the field. -/
def ShflMode.code : ShflMode → BitVec 2
  | .idx => 0
  | .up => 1
  | .down => 2
  | .xor => 3

/-- The member a code names; a reserved code names none. -/
def ShflMode.ofCode (c : BitVec 2) : Option ShflMode :=
  match c.toNat with
  | 0 => some .idx
  | 1 => some .up
  | 2 => some .down
  | 3 => some .xor
  | _ => none

/-- The code of R125 or of the entry that holds the field. -/
def ROp.code : ROp → BitVec 3
  | .add => 0
  | .min => 1
  | .max => 2
  | .and => 3
  | .or => 4
  | .xor => 5

/-- The member a code names; a reserved code names none. -/
def ROp.ofCode (c : BitVec 3) : Option ROp :=
  match c.toNat with
  | 0 => some .add
  | 1 => some .min
  | 2 => some .max
  | 3 => some .and
  | 4 => some .or
  | 5 => some .xor
  | _ => none

/-- The code of R125 or of the entry that holds the field. -/
def VKind.code : VKind → BitVec 2
  | .any => 0
  | .all => 1
  | .uni => 2

/-- The member a code names; a reserved code names none. -/
def VKind.ofCode (c : BitVec 2) : Option VKind :=
  match c.toNat with
  | 0 => some .any
  | 1 => some .all
  | 2 => some .uni
  | _ => none

/-- The code of R125 or of the entry that holds the field. -/
def UCond.code : UCond → BitVec 2
  | .always => 0
  | .nz => 1
  | .z => 2

/-- The member a code names; a reserved code names none. -/
def UCond.ofCode (c : BitVec 2) : Option UCond :=
  match c.toNat with
  | 0 => some .always
  | 1 => some .nz
  | 2 => some .z
  | _ => none

/-- The code of R125 or of the entry that holds the field. -/
def XClass.code : XClass → BitVec 3
  | .inv => 0
  | .dz => 1
  | .ofl => 2
  | .ufl => 3
  | .nx => 4
  | .sat => 5
  | .nanin => 6

/-- The member a code names; a reserved code names none. -/
def XClass.ofCode (c : BitVec 3) : Option XClass :=
  match c.toNat with
  | 0 => some .inv
  | 1 => some .dz
  | 2 => some .ofl
  | 3 => some .ufl
  | 4 => some .nx
  | 5 => some .sat
  | 6 => some .nanin
  | _ => none

/-- The code of R125 or of the entry that holds the field. -/
def Cnt.code : Cnt → BitVec 2
  | .x1 => 0
  | .x2 => 1
  | .x4 => 2

/-- The member a code names; a reserved code names none. -/
def Cnt.ofCode (c : BitVec 2) : Option Cnt :=
  match c.toNat with
  | 0 => some .x1
  | 1 => some .x2
  | 2 => some .x4
  | _ => none

/-- The code of R125 or of the entry that holds the field. -/
def AOp.code : AOp → BitVec 3
  | .add => 0
  | .min => 1
  | .max => 2
  | .and => 3
  | .or => 4
  | .xor => 5
  | .exch => 6

/-- The member a code names; a reserved code names none. -/
def AOp.ofCode (c : BitVec 3) : Option AOp :=
  match c.toNat with
  | 0 => some .add
  | 1 => some .min
  | 2 => some .max
  | 3 => some .and
  | 4 => some .or
  | 5 => some .xor
  | 6 => some .exch
  | _ => none

/-- The code of R125 or of the entry that holds the field. -/
def FAOp.code : FAOp → BitVec 3
  | .add => 0
  | .min => 1
  | .max => 2

/-- The member a code names; a reserved code names none. -/
def FAOp.ofCode (c : BitVec 3) : Option FAOp :=
  match c.toNat with
  | 0 => some .add
  | 1 => some .min
  | 2 => some .max
  | _ => none

/-- The code of R125 or of the entry that holds the field. -/
def Hint.code : Hint → BitVec 3
  | .promoteLlc => 0
  | .promoteGddr => 1
  | .demote => 2
  | .pin => 3
  | .dontneed => 4

/-- The member a code names; a reserved code names none. -/
def Hint.ofCode (c : BitVec 3) : Option Hint :=
  match c.toNat with
  | 0 => some .promoteLlc
  | 1 => some .promoteGddr
  | 2 => some .demote
  | 3 => some .pin
  | 4 => some .dontneed
  | _ => none

/-- The code of R125 or of the entry that holds the field. -/
def Scope.code : Scope → BitVec 3
  | .wave => 0
  | .team => 1
  | .cluster => 2
  | .device => 3
  | .system => 4

/-- The member a code names; a reserved code names none. -/
def Scope.ofCode (c : BitVec 3) : Option Scope :=
  match c.toNat with
  | 0 => some .wave
  | 1 => some .team
  | 2 => some .cluster
  | 3 => some .device
  | 4 => some .system
  | _ => none

/-- The code of R125 or of the entry that holds the field. -/
def Queue.code : Queue → BitVec 3
  | .q0 => 0
  | .q1 => 1
  | .q2 => 2
  | .q3 => 3
  | .q4 => 4

/-- The member a code names; a reserved code names none. -/
def Queue.ofCode (c : BitVec 3) : Option Queue :=
  match c.toNat with
  | 0 => some .q0
  | 1 => some .q1
  | 2 => some .q2
  | 3 => some .q3
  | 4 => some .q4
  | _ => none

/-- The code of R125 or of the entry that holds the field. -/
def TScope.code : TScope → BitVec 2
  | .core => 0
  | .cluster => 1
  | .device => 2

/-- The member a code names; a reserved code names none. -/
def TScope.ofCode (c : BitVec 2) : Option TScope :=
  match c.toNat with
  | 0 => some .core
  | 1 => some .cluster
  | 2 => some .device
  | _ => none

/-- The code of R125 or of the entry that holds the field. -/
def Fill.code : Fill → BitVec 2
  | .own => 0
  | .zero => 1
  | .srcb => 2

/-- The member a code names; a reserved code names none. -/
def Fill.ofCode (c : BitVec 2) : Option Fill :=
  match c.toNat with
  | 0 => some .own
  | 1 => some .zero
  | 2 => some .srcb
  | _ => none

/-- The fields of R115, least significant first. -/
structure RawWord where
  op    : BitVec 9
  guard : BitVec 4
  dst   : BitVec 10
  a     : BitVec 10
  b     : BitVec 10
  fe    : BitVec 3
  xl    : BitVec 5
  xlp   : BitVec 6
  mod   : BitVec 10
  imm   : BitVec 21
  hint  : BitVec 8
  deriving DecidableEq, Repr

/-- The word whose fields are `r` (R115). -/
def RawWord.pack (r : RawWord) : BitVec 96 :=
  r.hint ++ r.imm ++ r.mod ++ r.xlp ++ r.xl ++ r.fe ++ r.b ++ r.a ++ r.dst ++ r.guard ++ r.op

/-- The fields of a word (R115). -/
def RawWord.unpack (w : BitVec 96) : RawWord where
  op    := w.extractLsb' 0 9
  guard := w.extractLsb' 9 4
  dst   := w.extractLsb' 13 10
  a     := w.extractLsb' 23 10
  b     := w.extractLsb' 33 10
  fe    := w.extractLsb' 43 3
  xl    := w.extractLsb' 46 5
  xlp   := w.extractLsb' 51 6
  mod   := w.extractLsb' 57 10
  imm   := w.extractLsb' 67 21
  hint  := w.extractLsb' 88 8

/-- The encoding of an operand field (R116). -/
def Opnd.bits : Opnd → BitVec 10
  | .unused => 0
  | .v n    => (0 : BitVec 2) ++ n
  | .s n    => (1 : BitVec 2) ++ (0 : BitVec 2) ++ n
  | .p n    => (2 : BitVec 2) ++ (0 : BitVec 5) ++ n
  | .exec   => 0x210
  | .zero   => 0x211
  | .imm    => 0x212
  | .t n    => (3 : BitVec 2) ++ (0 : BitVec 5) ++ n
  | .acc n  => (3 : BitVec 2) ++ (0x10 : BitVec 6) ++ n

/-- The operand that a used field names (R116); a reserved number names none. -/
def Opnd.ofBits (b : BitVec 10) : Option Opnd :=
  let n : BitVec 8 := b.extractLsb' 0 8
  match (b.extractLsb' 8 2).toNat with
  | 0 => some (.v n)
  | 1 => if n.toNat < 64 then some (.s (n.extractLsb' 0 6)) else none
  | 2 =>
    if n.toNat < 8 then some (.p (n.extractLsb' 0 3))
    else if n = 0x10 then some .exec
    else if n = 0x11 then some .zero
    else if n = 0x12 then some .imm
    else none
  | _ =>
    if n.toNat < 8 then some (.t (n.extractLsb' 0 3))
    else if 0x40 ≤ n.toNat ∧ n.toNat < 0x44 then some (.acc (n.extractLsb' 0 2))
    else none

/-- GUARD (R120): bit 3 negates, bits 2:0 select the predicate. -/
def Guard.bits (g : Guard) : BitVec 4 := BitVec.ofBool g.neg ++ g.p

/-- The guard that GUARD names. -/
def Guard.ofBits (b : BitVec 4) : Guard := ⟨b.getLsbD 3, b.extractLsb' 0 3⟩

/-- The fields XL and XLP of a cross-lane modifier (R122). -/
def Xl.bits : Xl → BitVec 5 × BitVec 6
  | .none      => (0, 0)
  | .shift k f => (f.code ++ (1 : BitVec 3), (0 : BitVec 2) ++ k)
  | .xor j     => (2, (0 : BitVec 3) ++ j)
  | .rot j     => (3, (0 : BitVec 3) ++ j)
  | .bcast n f => (f.code ++ (if n.getLsbD 6 then (5 : BitVec 3) else 4), n.extractLsb' 0 6)

/-- The cross-lane modifier of XL and XLP (R122); a reserved mode or fill names none. -/
def Xl.ofBits (x : BitVec 5) (p : BitVec 6) : Option Xl :=
  let fill := Fill.ofCode (x.extractLsb' 3 2)
  match (x.extractLsb' 0 3).toNat with
  | 0 => some .none
  | 1 => fill.map (.shift (p.extractLsb' 0 4))
  | 2 => some (.xor (p.extractLsb' 0 3))
  | 3 => some (.rot (p.extractLsb' 0 3))
  | 4 => fill.map (.bcast ((0 : BitVec 1) ++ p))
  | 5 => fill.map (.bcast ((1 : BitVec 1) ++ p))
  | _ => none

/-- The common fields of a word, for an entry that uses DST, SRCA and SRCB as the flags say and reads IMM as an
operand or an offset when `i` is set. -/
def RawWord.ops (r : RawWord) (d a b i : Bool) : Option Ops := do
  let dst ← if d then Opnd.ofBits r.dst else some .unused
  let sa ← if a then Opnd.ofBits r.a else some .unused
  let sb ← if b then Opnd.ofBits r.b else some .unused
  let xl ← Xl.ofBits r.xl r.xlp
  some
    { guard := Guard.ofBits r.guard, dst := dst, a := sa, b := sb
      feA := r.fe.getLsbD 0, feB := r.fe.getLsbD 1, feD := r.fe.getLsbD 2
      xl := xl, imm := if i then r.imm else 0, hint := r.hint }

/-- The word fields of the common part, with the entry's opcode, MOD and own IMM fields. -/
def Ops.raw (o : Ops) (op : BitVec 9) (mod : BitVec 10) (imm : BitVec 21) : RawWord :=
  { op := op, guard := o.guard.bits, dst := o.dst.bits, a := o.a.bits, b := o.b.bits
    fe := BitVec.ofBool o.feD ++ BitVec.ofBool o.feB ++ BitVec.ofBool o.feA
    xl := o.xl.bits.1, xlp := o.xl.bits.2, mod := mod, imm := imm, hint := o.hint }

/-- A one-bit field of MOD or IMM. -/
def bitAt (n lo : Nat) (b : Bool) : BitVec n := (BitVec.ofBool b).setWidth n <<< lo

/-- A wider field of MOD or IMM. -/
def fieldAt (n lo : Nat) {w : Nat} (x : BitVec w) : BitVec n := x.setWidth n <<< lo

/-- The fields that encode an instruction; an event has no word. -/
def Instr.raw : Instr → Option RawWord
  | .iadd o ty sat => some (o.raw 0x001 (fieldAt 10 0 ty.code ||| bitAt 10 5 sat) (o.imm))
  | .isub o ty sat => some (o.raw 0x002 (fieldAt 10 0 ty.code ||| bitAt 10 5 sat) (o.imm))
  | .iaddc o ty ci pc sub => some (o.raw 0x003 (fieldAt 10 0 ty.code ||| bitAt 10 5 ci ||| fieldAt 10 6 pc ||| bitAt 10 9 sub) (o.imm))
  | .imul o ty sat => some (o.raw 0x004 (fieldAt 10 0 ty.code ||| bitAt 10 5 sat) (o.imm))
  | .imulh o ty => some (o.raw 0x005 (fieldAt 10 0 ty.code) (o.imm))
  | .imulw o ty => some (o.raw 0x006 (fieldAt 10 0 ty.code) (o.imm))
  | .imad o ty sat => some (o.raw 0x007 (fieldAt 10 0 ty.code ||| bitAt 10 5 sat) (o.imm))
  | .imin o ty => some (o.raw 0x008 (fieldAt 10 0 ty.code) (o.imm))
  | .imax o ty => some (o.raw 0x009 (fieldAt 10 0 ty.code) (o.imm))
  | .iabs o ty sat => some (o.raw 0x00A (fieldAt 10 0 ty.code ||| bitAt 10 5 sat) (o.imm))
  | .ineg o ty sat => some (o.raw 0x00B (fieldAt 10 0 ty.code ||| bitAt 10 5 sat) (o.imm))
  | .iaddmin o ty sat => some (o.raw 0x00C (fieldAt 10 0 ty.code ||| bitAt 10 5 sat) (o.imm))
  | .iaddmax o ty sat => some (o.raw 0x00D (fieldAt 10 0 ty.code ||| bitAt 10 5 sat) (o.imm))
  | .icmp o ty cond => some (o.raw 0x00E (fieldAt 10 0 ty.code ||| fieldAt 10 5 cond.code) (o.imm))
  | .and o ty => some (o.raw 0x00F (fieldAt 10 0 ty.code) (o.imm))
  | .or o ty => some (o.raw 0x010 (fieldAt 10 0 ty.code) (o.imm))
  | .xor o ty => some (o.raw 0x011 (fieldAt 10 0 ty.code) (o.imm))
  | .andn o ty => some (o.raw 0x012 (fieldAt 10 0 ty.code) (o.imm))
  | .not o ty => some (o.raw 0x013 (fieldAt 10 0 ty.code) (o.imm))
  | .shl o ty => some (o.raw 0x014 (fieldAt 10 0 ty.code) (o.imm))
  | .shr o ty => some (o.raw 0x015 (fieldAt 10 0 ty.code) (o.imm))
  | .sar o ty => some (o.raw 0x016 (fieldAt 10 0 ty.code) (o.imm))
  | .rot o ty => some (o.raw 0x017 (fieldAt 10 0 ty.code) (o.imm))
  | .fshl o => some (o.raw 0x018 (0) (o.imm))
  | .fshr o => some (o.raw 0x019 (0) (o.imm))
  | .bfx o ty => some (o.raw 0x01A (fieldAt 10 0 ty.code) (o.imm))
  | .bfi o => some (o.raw 0x01B (0) (o.imm))
  | .popc o ty => some (o.raw 0x01C (fieldAt 10 0 ty.code) (o.imm))
  | .clz o ty => some (o.raw 0x01D (fieldAt 10 0 ty.code) (o.imm))
  | .ctz o ty => some (o.raw 0x01E (fieldAt 10 0 ty.code) (o.imm))
  | .brev o ty => some (o.raw 0x01F (fieldAt 10 0 ty.code) (o.imm))
  | .bperm o => some (o.raw 0x020 (0) (o.imm))
  | .sel o ty ps neg => some (o.raw 0x021 (fieldAt 10 0 ty.code ||| fieldAt 10 6 ps ||| bitAt 10 9 neg) (o.imm))
  | .mov o ty => some (o.raw 0x022 (fieldAt 10 0 ty.code) (o.imm))
  | .movi o ty => some (o.raw 0x023 (fieldAt 10 0 ty.code) (o.imm))
  | .movh o ty part => some (o.raw 0x024 (fieldAt 10 0 ty.code ||| fieldAt 10 5 part.code) (o.imm))
  | .lea o ty scale => some (o.raw 0x025 (fieldAt 10 0 ty.code ||| fieldAt 10 5 scale) (o.imm))
  | .iadd64 o sub => some (o.raw 0x026 (bitAt 10 9 sub) (o.imm))
  | .idp4 o ty sat mix => some (o.raw 0x027 (fieldAt 10 0 ty.code ||| bitAt 10 5 sat ||| bitAt 10 6 mix) (o.imm))
  | .idp2 o ty sat mix => some (o.raw 0x028 (fieldAt 10 0 ty.code ||| bitAt 10 5 sat ||| bitAt 10 6 mix) (o.imm))
  | .fadd o ty rnd => some (o.raw 0x040 (fieldAt 10 0 ty.code ||| fieldAt 10 5 rnd.code) (o.imm))
  | .fsub o ty rnd => some (o.raw 0x041 (fieldAt 10 0 ty.code ||| fieldAt 10 5 rnd.code) (o.imm))
  | .fmul o ty rnd => some (o.raw 0x042 (fieldAt 10 0 ty.code ||| fieldAt 10 5 rnd.code) (o.imm))
  | .ffma o ty rnd => some (o.raw 0x043 (fieldAt 10 0 ty.code ||| fieldAt 10 5 rnd.code) (o.imm))
  | .fmin o ty => some (o.raw 0x044 (fieldAt 10 0 ty.code) (o.imm))
  | .fmax o ty => some (o.raw 0x045 (fieldAt 10 0 ty.code) (o.imm))
  | .fcmp o ty cond hi => some (o.raw 0x046 (fieldAt 10 0 ty.code ||| fieldAt 10 5 cond.code ||| bitAt 10 8 hi) (o.imm))
  | .frcp o rnd => some (o.raw 0x047 (9 ||| fieldAt 10 5 rnd.code) (o.imm))
  | .frsq o => some (o.raw 0x048 (9) (o.imm))
  | .fsqrt o rnd => some (o.raw 0x049 (9 ||| fieldAt 10 5 rnd.code) (o.imm))
  | .fexp2 o => some (o.raw 0x04A (9) (o.imm))
  | .flog2 o => some (o.raw 0x04B (9) (o.imm))
  | .fsinpi o => some (o.raw 0x04C (9) (o.imm))
  | .fcospi o => some (o.raw 0x04D (9) (o.imm))
  | .ftanh o => some (o.raw 0x04E (9) (o.imm))
  | .frnd o ty rnd => some (o.raw 0x04F (fieldAt 10 0 ty.code ||| fieldAt 10 5 rnd.code) (o.imm))
  | .fclass o ty hi => some (o.raw 0x050 (fieldAt 10 0 ty.code ||| bitAt 10 8 hi) (o.imm))
  | .fscaleb o ty rnd => some (o.raw 0x051 (fieldAt 10 0 ty.code ||| fieldAt 10 5 rnd.code) (o.imm))
  | .fexpt o => some (o.raw 0x052 (9) (o.imm))
  | .fcvt o ty rnd hi sat sty => some (o.raw 0x053 (fieldAt 10 0 ty.code ||| fieldAt 10 5 rnd.code ||| bitAt 10 8 hi ||| bitAt 10 9 sat) (fieldAt 21 0 sty.code))
  | .fcvti o ty rnd hi sty => some (o.raw 0x054 (fieldAt 10 0 ty.code ||| fieldAt 10 5 rnd.code ||| bitAt 10 8 hi) (fieldAt 21 0 sty.code))
  | .icvtf o ty rnd sat sty => some (o.raw 0x055 (fieldAt 10 0 ty.code ||| fieldAt 10 5 rnd.code ||| bitAt 10 9 sat) (fieldAt 21 0 sty.code))
  | .fdot2 o ty rnd => some (o.raw 0x056 (fieldAt 10 0 ty.code ||| fieldAt 10 5 rnd.code) (o.imm))
  | .padd o ty rnd sat => some (o.raw 0x080 (fieldAt 10 0 ty.code ||| fieldAt 10 5 rnd.code ||| bitAt 10 8 sat) (o.imm))
  | .pmul o ty rnd sat => some (o.raw 0x081 (fieldAt 10 0 ty.code ||| fieldAt 10 5 rnd.code ||| bitAt 10 8 sat) (o.imm))
  | .pfma o ty rnd sat => some (o.raw 0x082 (fieldAt 10 0 ty.code ||| fieldAt 10 5 rnd.code ||| bitAt 10 8 sat) (o.imm))
  | .pmin o ty => some (o.raw 0x083 (fieldAt 10 0 ty.code) (o.imm))
  | .pmax o ty => some (o.raw 0x084 (fieldAt 10 0 ty.code) (o.imm))
  | .pcvt o ty rnd sat sty pick de8 se8 => some (o.raw 0x085 (fieldAt 10 0 ty.code ||| fieldAt 10 5 rnd.code ||| bitAt 10 8 sat) (fieldAt 21 0 sty.code ||| fieldAt 21 5 pick ||| bitAt 21 8 de8 ||| bitAt 21 9 se8))
  | .pdot4 o ty rnd mix => some (o.raw 0x086 (fieldAt 10 0 ty.code ||| fieldAt 10 5 rnd.code ||| bitAt 10 8 mix) (o.imm))
  | .cbdec o pick tile => some (o.raw 0x087 (11 ||| fieldAt 10 8 pick) (fieldAt 21 0 tile))
  | .cbenc o h tile => some (o.raw 0x088 (17 ||| bitAt 10 8 h) (fieldAt 21 0 tile))
  | .retag o tag => some (o.raw 0x089 (0) (fieldAt 21 0 tag))
  | .shfl o ty fill => some (o.raw 0x08A (fieldAt 10 0 ty.code ||| bitAt 10 8 fill) (o.imm))
  | .shfli o ty mode wrel fill => some (o.raw 0x08B (fieldAt 10 0 ty.code ||| fieldAt 10 5 mode.code ||| bitAt 10 7 wrel ||| bitAt 10 8 fill) (o.imm))
  | .lsh o ty => some (o.raw 0x08C (fieldAt 10 0 ty.code) (o.imm))
  | .bcast o ty => some (o.raw 0x08D (fieldAt 10 0 ty.code) (o.imm))
  | .redstep o ty op j => some (o.raw 0x08E (fieldAt 10 0 ty.code ||| fieldAt 10 5 op.code) (fieldAt 21 0 j))
  | .reduce o ty op => some (o.raw 0x08F (fieldAt 10 0 ty.code ||| fieldAt 10 5 op.code) (o.imm))
  | .scan o ty op excl => some (o.raw 0x090 (fieldAt 10 0 ty.code ||| fieldAt 10 5 op.code ||| bitAt 10 8 excl) (o.imm))
  | .ballot o hi => some (o.raw 0x091 (bitAt 10 8 hi) (o.imm))
  | .vote o kind => some (o.raw 0x092 (fieldAt 10 5 kind.code) (o.imm))
  | .elect o => some (o.raw 0x093 (0) (o.imm))
  | .matchLanes o ty cnt => some (o.raw 0x094 (fieldAt 10 0 ty.code ||| bitAt 10 8 cnt) (o.imm))
  | .bra o => some (o.raw 0x0C0 (0) (o.imm))
  | .bru o cond => some (o.raw 0x0C1 (fieldAt 10 0 cond.code) (o.imm))
  | .brx o => some (o.raw 0x0C2 (0) (o.imm))
  | .call o ind => some (o.raw 0x0C3 (bitAt 10 0 ind) (o.imm))
  | .ret o => some (o.raw 0x0C4 (0) (o.imm))
  | .exit o => some (o.raw 0x0C5 (0) (o.imm))
  | .joinp o => some (o.raw 0x0C6 (0) (o.imm))
  | .rep o dStep aStep bStep count => some (o.raw 0x0C7 (fieldAt 10 0 dStep ||| fieldAt 10 3 aStep ||| fieldAt 10 6 bStep) (fieldAt 21 0 count))
  | .yield o => some (o.raw 0x0C8 (0) (o.imm))
  | .nop o => some (o.raw 0x0C9 (0) (o.imm))
  | .waitr o count => some (o.raw 0x0CA (0) (fieldAt 21 0 count))
  | .execs o => some (o.raw 0x0CB (0) (o.imm))
  | .execr o => some (o.raw 0x0CC (0) (o.imm))
  | .racq o n => some (o.raw 0x0CD (0) (fieldAt 21 0 n))
  | .rrel o n => some (o.raw 0x0CE (0) (fieldAt 21 0 n))
  | .rqry o => some (o.raw 0x0CF (0) (o.imm))
  | .rdsr o num => some (o.raw 0x0D0 (0) (fieldAt 21 0 num))
  | .wrsr o num => some (o.raw 0x0D1 (0) (fieldAt 21 0 num))
  | .xcnt o cls => some (o.raw 0x0D2 (0) (fieldAt 21 0 cls.code))
  | .trap o code => some (o.raw 0x0D3 (0) (fieldAt 21 0 code))
  | .bkpt o code => some (o.raw 0x0D4 (0) (fieldAt 21 0 code))
  | .cycle o => some (o.raw 0x0D5 (0) (o.imm))
  | .ld o ty one cnt sub => some (o.raw 0x100 (fieldAt 10 0 ty.code ||| bitAt 10 5 one ||| fieldAt 10 6 cnt.code ||| fieldAt 10 8 sub) (o.imm))
  | .ldnc o ty one cnt sub => some (o.raw 0x101 (fieldAt 10 0 ty.code ||| bitAt 10 5 one ||| fieldAt 10 6 cnt.code ||| fieldAt 10 8 sub) (o.imm))
  | .st o ty one cnt sub => some (o.raw 0x102 (fieldAt 10 0 ty.code ||| bitAt 10 5 one ||| fieldAt 10 6 cnt.code ||| fieldAt 10 8 sub) (o.imm))
  | .stnt o ty one cnt sub => some (o.raw 0x103 (fieldAt 10 0 ty.code ||| bitAt 10 5 one ||| fieldAt 10 6 cnt.code ||| fieldAt 10 8 sub) (o.imm))
  | .stm o quad => some (o.raw 0x104 (bitAt 10 5 quad) (o.imm))
  | .lds o ty one cnt => some (o.raw 0x105 (fieldAt 10 0 ty.code ||| bitAt 10 5 one ||| fieldAt 10 6 cnt.code) (o.imm))
  | .sts o ty one cnt credit => some (o.raw 0x106 (fieldAt 10 0 ty.code ||| bitAt 10 5 one ||| fieldAt 10 6 cnt.code ||| bitAt 10 8 credit) (o.imm))
  | .ldu o ty cnt => some (o.raw 0x107 (fieldAt 10 0 ty.code ||| fieldAt 10 6 cnt.code) (o.imm))
  | .ldmc o bar => some (o.raw 0x108 (0) (fieldAt 21 0 bar))
  | .atom o ty op => some (o.raw 0x109 (fieldAt 10 0 ty.code ||| fieldAt 10 5 op.code) (o.imm))
  | .atomf o ty op => some (o.raw 0x10A (fieldAt 10 0 ty.code ||| fieldAt 10 5 op.code) (o.imm))
  | .cas o ty => some (o.raw 0x10B (fieldAt 10 0 ty.code) (o.imm))
  | .atoms o ty op => some (o.raw 0x10C (fieldAt 10 0 ty.code ||| fieldAt 10 5 op.code) (o.imm))
  | .lr o ty => some (o.raw 0x10D (fieldAt 10 0 ty.code) (o.imm))
  | .sc o ty => some (o.raw 0x10E (fieldAt 10 0 ty.code) (o.imm))
  | .pref o llc => some (o.raw 0x10F (bitAt 10 5 llc) (o.imm))
  | .thint o hint => some (o.raw 0x110 (fieldAt 10 5 hint.code) (o.imm))
  | .fence o scope seq => some (o.raw 0x111 (fieldAt 10 0 scope.code ||| bitAt 10 3 seq) (o.imm))
  | .acq o scope => some (o.raw 0x112 (fieldAt 10 0 scope.code) (o.imm))
  | .rel o scope => some (o.raw 0x113 (fieldAt 10 0 scope.code) (o.imm))
  | .bind o bar slot => some (o.raw 0x114 (bitAt 10 5 bar) (fieldAt 21 0 slot))
  | .barinit o arr => some (o.raw 0x140 (fieldAt 10 0 arr) (o.imm))
  | .bararr o => some (o.raw 0x141 (0) (o.imm))
  | .barwait o => some (o.raw 0x142 (0) (o.imm))
  | .barsync o => some (o.raw 0x143 (0) (o.imm))
  | .barexp o => some (o.raw 0x144 (0) (o.imm))
  | .barq o => some (o.raw 0x145 (0) (o.imm))
  | .kick o => some (o.raw 0x146 (0) (o.imm))
  | .eqst o q reg => some (o.raw 0x147 (fieldAt 10 0 q.code ||| fieldAt 10 3 reg) (o.imm))
  | .eqgo o q => some (o.raw 0x148 (fieldAt 10 0 q.code) (o.imm))
  | .eqfence o mask => some (o.raw 0x149 (0) (fieldAt 21 0 mask))
  | .eqwait o q n => some (o.raw 0x14A (fieldAt 10 0 q.code) (fieldAt 21 0 n))
  | .tld o ty sp => some (o.raw 0x14B (fieldAt 10 0 ty.code ||| bitAt 10 5 sp) (o.imm))
  | .tst o sp => some (o.raw 0x14C (bitAt 10 5 sp) (o.imm))
  | .tcpy o => some (o.raw 0x14D (0) (o.imm))
  | .tcb o sp => some (o.raw 0x14E (bitAt 10 5 sp) (o.imm))
  | .mxprg o => some (o.raw 0x14F (0) (o.imm))
  | .vxm o rnd => some (o.raw 0x150 (fieldAt 10 5 rnd.code) (o.imm))
  | .boxt o sort => some (o.raw 0x180 (bitAt 10 5 sort) (o.imm))
  | .trit o => some (o.raw 0x181 (0) (o.imm))
  | .spush o => some (o.raw 0x182 (0) (o.imm))
  | .spop o pe => some (o.raw 0x183 (fieldAt 10 6 pe) (o.imm))
  | .speek o pe => some (o.raw 0x184 (fieldAt 10 6 pe) (o.imm))
  | .sclr o => some (o.raw 0x185 (0) (o.imm))
  | .lathreq o reload => some (o.raw 0x186 (bitAt 10 5 reload) (o.imm))
  | .lathrun o nin nout => some (o.raw 0x187 (fieldAt 10 0 nin ||| fieldAt 10 3 nout) (o.imm))
  | .lathwait o => some (o.raw 0x188 (0) (o.imm))
  | .gzarr o => some (o.raw 0x189 (0) (o.imm))
  | .gzrd o flush => some (o.raw 0x18A (bitAt 10 5 flush) (o.imm))
  | .gzclr o all => some (o.raw 0x18B (bitAt 10 5 all) (o.imm))
  | .gzrpl o => some (o.raw 0x18C (0) (o.imm))
  | .gzst o => some (o.raw 0x18D (0) (o.imm))
  | .fget o => some (o.raw 0x18E (0) (o.imm))
  | .fcmt o => some (o.raw 0x18F (0) (o.imm))
  | .fpsn o blk => some (o.raw 0x190 (bitAt 10 5 blk) (o.imm))
  | .fend o => some (o.raw 0x191 (0) (o.imm))
  | .gprobe o => some (o.raw 0x192 (0) (o.imm))
  | .tgcond o => some (o.raw 0x193 (0) (o.imm))
  | .tgsig o mask => some (o.raw 0x194 (0) (fieldAt 21 0 mask))
  | .tgwait o mask => some (o.raw 0x195 (0) (fieldAt 21 0 mask))
  | .emit o node regs => some (o.raw 0x196 (0) (fieldAt 21 0 node ||| fieldAt 21 6 regs))
  | .syscall o code => some (o.raw 0x1C0 (0) (fieldAt 21 0 code))
  | .eret o => some (o.raw 0x1C1 (0) (o.imm))
  | .crrd o num => some (o.raw 0x1C2 (0) (fieldAt 21 0 num))
  | .crwr o num => some (o.raw 0x1C3 (0) (fieldAt 21 0 num))
  | .tlbi o all scope => some (o.raw 0x1C4 (bitAt 10 0 all ||| fieldAt 10 1 scope.code) (o.imm))
  | .tlbp o w => some (o.raw 0x1C5 (bitAt 10 0 w) (o.imm))
  | .wkill o => some (o.raw 0x1C6 (0) (o.imm))
  | .wsusp o => some (o.raw 0x1C7 (0) (o.imm))
  | .wresm o => some (o.raw 0x1C8 (0) (o.imm))
  | .halt o code => some (o.raw 0x1C9 (0) (fieldAt 21 0 code))
  | .loadCompletion _ _ => none
  | .specialFunctionCompletion _ _ => none
  | .fairnessTimerExpiry _ _ => none
  | .blockGrant _ _ => none
  | .waveCreation _ => none
  | .exceptionWindowRestart _ => none
  | .storePerformed _ _ => none
  | .remoteScratchpadStore _ _ => none
  | .inboundCredit _ _ => none
  | .scoreboardEntryRelease _ _ => none
  | .peerProbe _ _ => none
  | .lowerTierRead _ _ => none
  | .flashPageRead _ _ _ => none
  | .ageSweep _ => none
  | .guestCopyFill _ _ => none
  | .guestInvalidation _ _ => none
  | .multicastRequest _ _ => none
  | .mergedResponse _ _ => none
  | .followupTransmission _ _ => none
  | .mergeEntryClose _ _ => none
  | .ldmcDelivery _ _ => none
  | .copyCompletion _ => none
  | .matrixChunk _ => none
  | .epilogueDrain _ => none
  | .queueMarkerCompletion _ _ => none
  | .tierHintOperation _ => none
  | .lathImageLoad _ => none
  | .lathRunCompletion _ => none
  | .glazeArrival _ => none
  | .glazeRead _ => none
  | .glazeClear _ => none
  | .glazeStatusRead _ => none
  | .glazeReplay _ => none
  | .missSlotGrant _ _ => none
  | .fillerCreation _ _ _ => none
  | .pageTableWalk _ _ => none
  | .faultResume _ _ => none
  | .faultAbort _ _ => none
  | .pageMigration _ => none
  | .genLoad _ _ => none
  | .genInvalidate _ _ => none
  | .genInvalidateFinish _ => none
  | .graphNodeStart _ => none
  | .graphNodeCompletion _ => none
  | .recordWaveLaunch _ _ => none
  | .graphCompletion _ => none
  | .rebalanceEpoch _ => none
  | .bucketMove _ => none
  | .bucketMoveAbandon _ => none
  | .scrubRead _ _ _ => none
  | .laneCountClear _ => none
  | .ringPacketError _ => none
  | .gddrLinkError _ => none
  | .ideIntegrityFailure _ => none
  | .launch _ _ => none
  | .signal _ _ => none
  | .wait _ _ => none
  | .callPacket _ _ => none
  | .join _ _ => none
  | .barrier _ _ => none
  | .priority _ _ => none
  | .packetAcceptance _ _ => none
  | .tornPacketReread _ _ => none
  | .queueTailWrite _ _ _ => none
  | .queueEnable _ _ => none
  | .queueRecover _ _ => none
  | .queueDisable _ _ => none
  | .queueRetry _ _ => none
  | .teamPlacement _ _ => none
  | .teamPreemption _ => none
  | .gridCompletion _ => none
  | .quantumExpiry _ => none
  | .shadowStoreSwap _ _ => none
  | .functionLevelReset _ => none
  | .controlComplexFailure => none
  | .coldReset => none
  | .stage1 _ _ => none
  | .stage2 => none
  | .d3hotEntry => none
  | .d3coldEntry => none
  | .junctionOvertemp => none
  | .governorInterval _ => none
  | .partitionDescriptorWrite _ _ => none
  | .partitionTeardown _ => none
  | .headGrant _ _ => none
  | .update => none
  | .updateHandover => none
  | .rcvWrite _ => none
  | .rcvAuth _ _ _ => none
  | .rcvErase _ => none
  | .getVersion _ => none
  | .getCapabilities _ => none
  | .negotiateAlgorithms _ => none
  | .getDigests _ => none
  | .getCertificate _ => none
  | .challenge _ => none
  | .getMeasurements _ => none
  | .keyExchange _ => none
  | .finish _ => none
  | .endSession _ => none
  | .vendorDefinedRequest _ _ => none
  | .invasiveDebugEntry => none
  | .headEnable _ => none
  | .headDisable _ => none
  | .scanKernelLoad _ _ => none
  | .present _ _ => none
  | .motionEstimation _ => none
  | .gazeLatch _ => none
  | .poseLatch _ => none
  | .bandDispatch _ _ => none
  | .bandTeamStart _ _ _ => none
  | .bandDeadline _ _ => none
  | .lineScanout _ _ => none
  | .controlRegisterWrite _ _ _ _ => none
  | .tileOperationCompletion _ => none
  | .pcieLinkError _ => none
  | .flitParityError _ => none
  | .hostLinkAccess _ _ => none
  | .waitConditionHolds _ _ => none
  | .returnFromD3cold => none
  | .debuggerRequest _ => none
  | .resumeCommand _ => none
  | .victimStoreSizing _ _ => none

/-- The instruction that the fields of a word name, before the rules of its entry are checked. -/
def RawWord.build (r : RawWord) : Option Instr :=
  match r.op.toNat with
  | 0x001 => do
    let ty ← Ty.ofCode (r.mod.extractLsb' 0 5)
    let sat := r.mod.getLsbD 5
    let o ← r.ops true true true true
    some (.iadd o ty sat)
  | 0x002 => do
    let ty ← Ty.ofCode (r.mod.extractLsb' 0 5)
    let sat := r.mod.getLsbD 5
    let o ← r.ops true true true true
    some (.isub o ty sat)
  | 0x003 => do
    let ty ← Ty.ofCode (r.mod.extractLsb' 0 5)
    let ci := r.mod.getLsbD 5
    let pc := r.mod.extractLsb' 6 3
    let sub := r.mod.getLsbD 9
    let o ← r.ops true true true true
    some (.iaddc o ty ci pc sub)
  | 0x004 => do
    let ty ← Ty.ofCode (r.mod.extractLsb' 0 5)
    let sat := r.mod.getLsbD 5
    let o ← r.ops true true true true
    some (.imul o ty sat)
  | 0x005 => do
    let ty ← Ty.ofCode (r.mod.extractLsb' 0 5)
    let o ← r.ops true true true true
    some (.imulh o ty)
  | 0x006 => do
    let ty ← Ty.ofCode (r.mod.extractLsb' 0 5)
    let o ← r.ops true true true true
    some (.imulw o ty)
  | 0x007 => do
    let ty ← Ty.ofCode (r.mod.extractLsb' 0 5)
    let sat := r.mod.getLsbD 5
    let o ← r.ops true true true true
    some (.imad o ty sat)
  | 0x008 => do
    let ty ← Ty.ofCode (r.mod.extractLsb' 0 5)
    let o ← r.ops true true true true
    some (.imin o ty)
  | 0x009 => do
    let ty ← Ty.ofCode (r.mod.extractLsb' 0 5)
    let o ← r.ops true true true true
    some (.imax o ty)
  | 0x00A => do
    let ty ← Ty.ofCode (r.mod.extractLsb' 0 5)
    let sat := r.mod.getLsbD 5
    let o ← r.ops true true false true
    some (.iabs o ty sat)
  | 0x00B => do
    let ty ← Ty.ofCode (r.mod.extractLsb' 0 5)
    let sat := r.mod.getLsbD 5
    let o ← r.ops true true false true
    some (.ineg o ty sat)
  | 0x00C => do
    let ty ← Ty.ofCode (r.mod.extractLsb' 0 5)
    let sat := r.mod.getLsbD 5
    let o ← r.ops true true true true
    some (.iaddmin o ty sat)
  | 0x00D => do
    let ty ← Ty.ofCode (r.mod.extractLsb' 0 5)
    let sat := r.mod.getLsbD 5
    let o ← r.ops true true true true
    some (.iaddmax o ty sat)
  | 0x00E => do
    let ty ← Ty.ofCode (r.mod.extractLsb' 0 5)
    let cond ← ICond.ofCode (r.mod.extractLsb' 5 3)
    let o ← r.ops true true true true
    some (.icmp o ty cond)
  | 0x00F => do
    let ty ← Ty.ofCode (r.mod.extractLsb' 0 5)
    let o ← r.ops true true true true
    some (.and o ty)
  | 0x010 => do
    let ty ← Ty.ofCode (r.mod.extractLsb' 0 5)
    let o ← r.ops true true true true
    some (.or o ty)
  | 0x011 => do
    let ty ← Ty.ofCode (r.mod.extractLsb' 0 5)
    let o ← r.ops true true true true
    some (.xor o ty)
  | 0x012 => do
    let ty ← Ty.ofCode (r.mod.extractLsb' 0 5)
    let o ← r.ops true true true true
    some (.andn o ty)
  | 0x013 => do
    let ty ← Ty.ofCode (r.mod.extractLsb' 0 5)
    let o ← r.ops true true false true
    some (.not o ty)
  | 0x014 => do
    let ty ← Ty.ofCode (r.mod.extractLsb' 0 5)
    let o ← r.ops true true true true
    some (.shl o ty)
  | 0x015 => do
    let ty ← Ty.ofCode (r.mod.extractLsb' 0 5)
    let o ← r.ops true true true true
    some (.shr o ty)
  | 0x016 => do
    let ty ← Ty.ofCode (r.mod.extractLsb' 0 5)
    let o ← r.ops true true true true
    some (.sar o ty)
  | 0x017 => do
    let ty ← Ty.ofCode (r.mod.extractLsb' 0 5)
    let o ← r.ops true true true true
    some (.rot o ty)
  | 0x018 => do
    let o ← r.ops true true true true
    some (.fshl o)
  | 0x019 => do
    let o ← r.ops true true true true
    some (.fshr o)
  | 0x01A => do
    let ty ← Ty.ofCode (r.mod.extractLsb' 0 5)
    let o ← r.ops true true true true
    some (.bfx o ty)
  | 0x01B => do
    let o ← r.ops true true true true
    some (.bfi o)
  | 0x01C => do
    let ty ← Ty.ofCode (r.mod.extractLsb' 0 5)
    let o ← r.ops true true false true
    some (.popc o ty)
  | 0x01D => do
    let ty ← Ty.ofCode (r.mod.extractLsb' 0 5)
    let o ← r.ops true true false true
    some (.clz o ty)
  | 0x01E => do
    let ty ← Ty.ofCode (r.mod.extractLsb' 0 5)
    let o ← r.ops true true false true
    some (.ctz o ty)
  | 0x01F => do
    let ty ← Ty.ofCode (r.mod.extractLsb' 0 5)
    let o ← r.ops true true false true
    some (.brev o ty)
  | 0x020 => do
    let o ← r.ops true true true true
    some (.bperm o)
  | 0x021 => do
    let ty ← Ty.ofCode (r.mod.extractLsb' 0 5)
    let ps := r.mod.extractLsb' 6 3
    let neg := r.mod.getLsbD 9
    let o ← r.ops true true true true
    some (.sel o ty ps neg)
  | 0x022 => do
    let ty ← Ty.ofCode (r.mod.extractLsb' 0 5)
    let o ← r.ops true true false true
    some (.mov o ty)
  | 0x023 => do
    let ty ← Ty.ofCode (r.mod.extractLsb' 0 5)
    let o ← r.ops true false false true
    some (.movi o ty)
  | 0x024 => do
    let ty ← Ty.ofCode (r.mod.extractLsb' 0 5)
    let part ← HPart.ofCode (r.mod.extractLsb' 5 2)
    let o ← r.ops true false false true
    some (.movh o ty part)
  | 0x025 => do
    let ty ← Ty.ofCode (r.mod.extractLsb' 0 5)
    let scale := r.mod.extractLsb' 5 3
    let o ← r.ops true true true true
    some (.lea o ty scale)
  | 0x026 => do
    let sub := r.mod.getLsbD 9
    let o ← r.ops true true true true
    some (.iadd64 o sub)
  | 0x027 => do
    let ty ← Ty.ofCode (r.mod.extractLsb' 0 5)
    let sat := r.mod.getLsbD 5
    let mix := r.mod.getLsbD 6
    let o ← r.ops true true true true
    some (.idp4 o ty sat mix)
  | 0x028 => do
    let ty ← Ty.ofCode (r.mod.extractLsb' 0 5)
    let sat := r.mod.getLsbD 5
    let mix := r.mod.getLsbD 6
    let o ← r.ops true true true true
    some (.idp2 o ty sat mix)
  | 0x040 => do
    let ty ← Ty.ofCode (r.mod.extractLsb' 0 5)
    let rnd ← Rnd.ofCode (r.mod.extractLsb' 5 3)
    let o ← r.ops true true true true
    some (.fadd o ty rnd)
  | 0x041 => do
    let ty ← Ty.ofCode (r.mod.extractLsb' 0 5)
    let rnd ← Rnd.ofCode (r.mod.extractLsb' 5 3)
    let o ← r.ops true true true true
    some (.fsub o ty rnd)
  | 0x042 => do
    let ty ← Ty.ofCode (r.mod.extractLsb' 0 5)
    let rnd ← Rnd.ofCode (r.mod.extractLsb' 5 3)
    let o ← r.ops true true true true
    some (.fmul o ty rnd)
  | 0x043 => do
    let ty ← Ty.ofCode (r.mod.extractLsb' 0 5)
    let rnd ← Rnd.ofCode (r.mod.extractLsb' 5 3)
    let o ← r.ops true true true true
    some (.ffma o ty rnd)
  | 0x044 => do
    let ty ← Ty.ofCode (r.mod.extractLsb' 0 5)
    let o ← r.ops true true true true
    some (.fmin o ty)
  | 0x045 => do
    let ty ← Ty.ofCode (r.mod.extractLsb' 0 5)
    let o ← r.ops true true true true
    some (.fmax o ty)
  | 0x046 => do
    let ty ← Ty.ofCode (r.mod.extractLsb' 0 5)
    let cond ← FCond.ofCode (r.mod.extractLsb' 5 3)
    let hi := r.mod.getLsbD 8
    let o ← r.ops true true true true
    some (.fcmp o ty cond hi)
  | 0x047 => do
    let rnd ← Rnd.ofCode (r.mod.extractLsb' 5 3)
    let o ← r.ops true true false true
    some (.frcp o rnd)
  | 0x048 => do
    let o ← r.ops true true false true
    some (.frsq o)
  | 0x049 => do
    let rnd ← Rnd.ofCode (r.mod.extractLsb' 5 3)
    let o ← r.ops true true false true
    some (.fsqrt o rnd)
  | 0x04A => do
    let o ← r.ops true true false true
    some (.fexp2 o)
  | 0x04B => do
    let o ← r.ops true true false true
    some (.flog2 o)
  | 0x04C => do
    let o ← r.ops true true false true
    some (.fsinpi o)
  | 0x04D => do
    let o ← r.ops true true false true
    some (.fcospi o)
  | 0x04E => do
    let o ← r.ops true true false true
    some (.ftanh o)
  | 0x04F => do
    let ty ← Ty.ofCode (r.mod.extractLsb' 0 5)
    let rnd ← Rnd.ofCode (r.mod.extractLsb' 5 3)
    let o ← r.ops true true false true
    some (.frnd o ty rnd)
  | 0x050 => do
    let ty ← Ty.ofCode (r.mod.extractLsb' 0 5)
    let hi := r.mod.getLsbD 8
    let o ← r.ops true true true true
    some (.fclass o ty hi)
  | 0x051 => do
    let ty ← Ty.ofCode (r.mod.extractLsb' 0 5)
    let rnd ← Rnd.ofCode (r.mod.extractLsb' 5 3)
    let o ← r.ops true true true true
    some (.fscaleb o ty rnd)
  | 0x052 => do
    let o ← r.ops true true false true
    some (.fexpt o)
  | 0x053 => do
    let ty ← Ty.ofCode (r.mod.extractLsb' 0 5)
    let rnd ← Rnd.ofCode (r.mod.extractLsb' 5 3)
    let hi := r.mod.getLsbD 8
    let sat := r.mod.getLsbD 9
    let sty ← Ty.ofCode (r.imm.extractLsb' 0 5)
    let o ← r.ops true true (ty ≠ .f32) false
    some (.fcvt o ty rnd hi sat sty)
  | 0x054 => do
    let ty ← Ty.ofCode (r.mod.extractLsb' 0 5)
    let rnd ← Rnd.ofCode (r.mod.extractLsb' 5 3)
    let hi := r.mod.getLsbD 8
    let sty ← Ty.ofCode (r.imm.extractLsb' 0 5)
    let o ← r.ops true true false false
    some (.fcvti o ty rnd hi sty)
  | 0x055 => do
    let ty ← Ty.ofCode (r.mod.extractLsb' 0 5)
    let rnd ← Rnd.ofCode (r.mod.extractLsb' 5 3)
    let sat := r.mod.getLsbD 9
    let sty ← Ty.ofCode (r.imm.extractLsb' 0 5)
    let o ← r.ops true true (ty ≠ .f32) false
    some (.icvtf o ty rnd sat sty)
  | 0x056 => do
    let ty ← Ty.ofCode (r.mod.extractLsb' 0 5)
    let rnd ← Rnd.ofCode (r.mod.extractLsb' 5 3)
    let o ← r.ops true true true true
    some (.fdot2 o ty rnd)
  | 0x080 => do
    let ty ← Ty.ofCode (r.mod.extractLsb' 0 5)
    let rnd ← Rnd.ofCode (r.mod.extractLsb' 5 3)
    let sat := r.mod.getLsbD 8
    let o ← r.ops true true true true
    some (.padd o ty rnd sat)
  | 0x081 => do
    let ty ← Ty.ofCode (r.mod.extractLsb' 0 5)
    let rnd ← Rnd.ofCode (r.mod.extractLsb' 5 3)
    let sat := r.mod.getLsbD 8
    let o ← r.ops true true true true
    some (.pmul o ty rnd sat)
  | 0x082 => do
    let ty ← Ty.ofCode (r.mod.extractLsb' 0 5)
    let rnd ← Rnd.ofCode (r.mod.extractLsb' 5 3)
    let sat := r.mod.getLsbD 8
    let o ← r.ops true true true true
    some (.pfma o ty rnd sat)
  | 0x083 => do
    let ty ← Ty.ofCode (r.mod.extractLsb' 0 5)
    let o ← r.ops true true true true
    some (.pmin o ty)
  | 0x084 => do
    let ty ← Ty.ofCode (r.mod.extractLsb' 0 5)
    let o ← r.ops true true true true
    some (.pmax o ty)
  | 0x085 => do
    let ty ← Ty.ofCode (r.mod.extractLsb' 0 5)
    let rnd ← Rnd.ofCode (r.mod.extractLsb' 5 3)
    let sat := r.mod.getLsbD 8
    let sty ← Ty.ofCode (r.imm.extractLsb' 0 5)
    let pick := r.imm.extractLsb' 5 3
    let de8 := r.imm.getLsbD 8
    let se8 := r.imm.getLsbD 9
    let o ← r.ops true true (pcvtTakesB ty sty de8 se8) false
    some (.pcvt o ty rnd sat sty pick de8 se8)
  | 0x086 => do
    let ty ← Ty.ofCode (r.mod.extractLsb' 0 5)
    let rnd ← Rnd.ofCode (r.mod.extractLsb' 5 3)
    let mix := r.mod.getLsbD 8
    let o ← r.ops true true true true
    some (.pdot4 o ty rnd mix)
  | 0x087 => do
    let pick := r.mod.extractLsb' 8 2
    let tile := r.imm.extractLsb' 0 3
    let o ← r.ops true true false false
    some (.cbdec o pick tile)
  | 0x088 => do
    let h := r.mod.getLsbD 8
    let tile := r.imm.extractLsb' 0 3
    let o ← r.ops true true true false
    some (.cbenc o h tile)
  | 0x089 => do
    let tag := r.imm.extractLsb' 0 5
    let o ← r.ops true false false false
    some (.retag o tag)
  | 0x08A => do
    let ty ← Ty.ofCode (r.mod.extractLsb' 0 5)
    let fill := r.mod.getLsbD 8
    let o ← r.ops true true true true
    some (.shfl o ty fill)
  | 0x08B => do
    let ty ← Ty.ofCode (r.mod.extractLsb' 0 5)
    let mode ← ShflMode.ofCode (r.mod.extractLsb' 5 2)
    let wrel := r.mod.getLsbD 7
    let fill := r.mod.getLsbD 8
    let o ← r.ops true true false true
    some (.shfli o ty mode wrel fill)
  | 0x08C => do
    let ty ← Ty.ofCode (r.mod.extractLsb' 0 5)
    let o ← r.ops true true true true
    some (.lsh o ty)
  | 0x08D => do
    let ty ← Ty.ofCode (r.mod.extractLsb' 0 5)
    let o ← r.ops true true true true
    some (.bcast o ty)
  | 0x08E => do
    let ty ← Ty.ofCode (r.mod.extractLsb' 0 5)
    let op ← ROp.ofCode (r.mod.extractLsb' 5 3)
    let j := r.imm.extractLsb' 0 3
    let o ← r.ops true true false false
    some (.redstep o ty op j)
  | 0x08F => do
    let ty ← Ty.ofCode (r.mod.extractLsb' 0 5)
    let op ← ROp.ofCode (r.mod.extractLsb' 5 3)
    let o ← r.ops true true false true
    some (.reduce o ty op)
  | 0x090 => do
    let ty ← Ty.ofCode (r.mod.extractLsb' 0 5)
    let op ← ROp.ofCode (r.mod.extractLsb' 5 3)
    let excl := r.mod.getLsbD 8
    let o ← r.ops true true false true
    some (.scan o ty op excl)
  | 0x091 => do
    let hi := r.mod.getLsbD 8
    let o ← r.ops true true false true
    some (.ballot o hi)
  | 0x092 => do
    let kind ← VKind.ofCode (r.mod.extractLsb' 5 2)
    let o ← r.ops true true false true
    some (.vote o kind)
  | 0x093 => do
    let o ← r.ops true false false true
    some (.elect o)
  | 0x094 => do
    let ty ← Ty.ofCode (r.mod.extractLsb' 0 5)
    let cnt := r.mod.getLsbD 8
    let o ← r.ops true true false true
    some (.matchLanes o ty cnt)
  | 0x0C0 => do
    let o ← r.ops false false false true
    some (.bra o)
  | 0x0C1 => do
    let cond ← UCond.ofCode (r.mod.extractLsb' 0 2)
    let o ← r.ops false (cond ≠ .always) false true
    some (.bru o cond)
  | 0x0C2 => do
    let o ← r.ops false true false true
    some (.brx o)
  | 0x0C3 => do
    let ind := r.mod.getLsbD 0
    let o ← r.ops true ind false true
    some (.call o ind)
  | 0x0C4 => do
    let o ← r.ops false true false true
    some (.ret o)
  | 0x0C5 => do
    let o ← r.ops false false false true
    some (.exit o)
  | 0x0C6 => do
    let o ← r.ops false false false true
    some (.joinp o)
  | 0x0C7 => do
    let dStep := r.mod.extractLsb' 0 3
    let aStep := r.mod.extractLsb' 3 3
    let bStep := r.mod.extractLsb' 6 3
    let count := r.imm.extractLsb' 0 6
    let o ← r.ops false false false false
    some (.rep o dStep aStep bStep count)
  | 0x0C8 => do
    let o ← r.ops false false false true
    some (.yield o)
  | 0x0C9 => do
    let o ← r.ops false false false true
    some (.nop o)
  | 0x0CA => do
    let count := r.imm.extractLsb' 0 4
    let o ← r.ops false true false false
    some (.waitr o count)
  | 0x0CB => do
    let o ← r.ops true true false true
    some (.execs o)
  | 0x0CC => do
    let o ← r.ops false true false true
    some (.execr o)
  | 0x0CD => do
    let n := r.imm.extractLsb' 0 5
    let o ← r.ops true false false false
    some (.racq o n)
  | 0x0CE => do
    let n := r.imm.extractLsb' 0 5
    let o ← r.ops false false false false
    some (.rrel o n)
  | 0x0CF => do
    let o ← r.ops true false false true
    some (.rqry o)
  | 0x0D0 => do
    let num := r.imm.extractLsb' 0 8
    let o ← r.ops true false false false
    some (.rdsr o num)
  | 0x0D1 => do
    let num := r.imm.extractLsb' 0 8
    let o ← r.ops false true false false
    some (.wrsr o num)
  | 0x0D2 => do
    let cls ← XClass.ofCode (r.imm.extractLsb' 0 3)
    let o ← r.ops true false false false
    some (.xcnt o cls)
  | 0x0D3 => do
    let code := r.imm.extractLsb' 0 16
    let o ← r.ops false false false false
    some (.trap o code)
  | 0x0D4 => do
    let code := r.imm.extractLsb' 0 16
    let o ← r.ops false false false false
    some (.bkpt o code)
  | 0x0D5 => do
    let o ← r.ops true false false true
    some (.cycle o)
  | 0x100 => do
    let ty ← Ty.ofCode (r.mod.extractLsb' 0 5)
    let one := r.mod.getLsbD 5
    let cnt ← Cnt.ofCode (r.mod.extractLsb' 6 2)
    let sub := r.mod.extractLsb' 8 2
    let o ← r.ops true true false true
    some (.ld o ty one cnt sub)
  | 0x101 => do
    let ty ← Ty.ofCode (r.mod.extractLsb' 0 5)
    let one := r.mod.getLsbD 5
    let cnt ← Cnt.ofCode (r.mod.extractLsb' 6 2)
    let sub := r.mod.extractLsb' 8 2
    let o ← r.ops true true false true
    some (.ldnc o ty one cnt sub)
  | 0x102 => do
    let ty ← Ty.ofCode (r.mod.extractLsb' 0 5)
    let one := r.mod.getLsbD 5
    let cnt ← Cnt.ofCode (r.mod.extractLsb' 6 2)
    let sub := r.mod.extractLsb' 8 2
    let o ← r.ops false true true true
    some (.st o ty one cnt sub)
  | 0x103 => do
    let ty ← Ty.ofCode (r.mod.extractLsb' 0 5)
    let one := r.mod.getLsbD 5
    let cnt ← Cnt.ofCode (r.mod.extractLsb' 6 2)
    let sub := r.mod.extractLsb' 8 2
    let o ← r.ops false true true true
    some (.stnt o ty one cnt sub)
  | 0x104 => do
    let quad := r.mod.getLsbD 5
    let o ← r.ops true true true true
    some (.stm o quad)
  | 0x105 => do
    let ty ← Ty.ofCode (r.mod.extractLsb' 0 5)
    let one := r.mod.getLsbD 5
    let cnt ← Cnt.ofCode (r.mod.extractLsb' 6 2)
    let o ← r.ops true true false true
    some (.lds o ty one cnt)
  | 0x106 => do
    let ty ← Ty.ofCode (r.mod.extractLsb' 0 5)
    let one := r.mod.getLsbD 5
    let cnt ← Cnt.ofCode (r.mod.extractLsb' 6 2)
    let credit := r.mod.getLsbD 8
    let o ← r.ops credit true true true
    some (.sts o ty one cnt credit)
  | 0x107 => do
    let ty ← Ty.ofCode (r.mod.extractLsb' 0 5)
    let cnt ← Cnt.ofCode (r.mod.extractLsb' 6 2)
    let o ← r.ops true true false true
    some (.ldu o ty cnt)
  | 0x108 => do
    let bar := r.imm.extractLsb' 0 19
    let o ← r.ops true true true false
    some (.ldmc o bar)
  | 0x109 => do
    let ty ← Ty.ofCode (r.mod.extractLsb' 0 5)
    let op ← AOp.ofCode (r.mod.extractLsb' 5 3)
    let o ← r.ops true true true true
    some (.atom o ty op)
  | 0x10A => do
    let ty ← Ty.ofCode (r.mod.extractLsb' 0 5)
    let op ← FAOp.ofCode (r.mod.extractLsb' 5 3)
    let o ← r.ops true true true true
    some (.atomf o ty op)
  | 0x10B => do
    let ty ← Ty.ofCode (r.mod.extractLsb' 0 5)
    let o ← r.ops true true true true
    some (.cas o ty)
  | 0x10C => do
    let ty ← Ty.ofCode (r.mod.extractLsb' 0 5)
    let op ← AOp.ofCode (r.mod.extractLsb' 5 3)
    let o ← r.ops true true true true
    some (.atoms o ty op)
  | 0x10D => do
    let ty ← Ty.ofCode (r.mod.extractLsb' 0 5)
    let o ← r.ops true true false true
    some (.lr o ty)
  | 0x10E => do
    let ty ← Ty.ofCode (r.mod.extractLsb' 0 5)
    let o ← r.ops true true true true
    some (.sc o ty)
  | 0x10F => do
    let llc := r.mod.getLsbD 5
    let o ← r.ops false true false true
    some (.pref o llc)
  | 0x110 => do
    let hint ← Hint.ofCode (r.mod.extractLsb' 5 3)
    let o ← r.ops false true true true
    some (.thint o hint)
  | 0x111 => do
    let scope ← Scope.ofCode (r.mod.extractLsb' 0 3)
    let seq := r.mod.getLsbD 3
    let o ← r.ops false false false true
    some (.fence o scope seq)
  | 0x112 => do
    let scope ← Scope.ofCode (r.mod.extractLsb' 0 3)
    let o ← r.ops true true false true
    some (.acq o scope)
  | 0x113 => do
    let scope ← Scope.ofCode (r.mod.extractLsb' 0 3)
    let o ← r.ops false true true true
    some (.rel o scope)
  | 0x114 => do
    let bar := r.mod.getLsbD 5
    let slot := r.imm.extractLsb' 0 4
    let o ← r.ops true true true false
    some (.bind o bar slot)
  | 0x140 => do
    let arr := r.mod.extractLsb' 0 6
    let o ← r.ops false true false true
    some (.barinit o arr)
  | 0x141 => do
    let o ← r.ops true true true true
    some (.bararr o)
  | 0x142 => do
    let o ← r.ops true true true true
    some (.barwait o)
  | 0x143 => do
    let o ← r.ops true true true true
    some (.barsync o)
  | 0x144 => do
    let o ← r.ops false true true true
    some (.barexp o)
  | 0x145 => do
    let o ← r.ops true true true true
    some (.barq o)
  | 0x146 => do
    let o ← r.ops false true false true
    some (.kick o)
  | 0x147 => do
    let q ← Queue.ofCode (r.mod.extractLsb' 0 3)
    let reg := r.mod.extractLsb' 3 2
    let o ← r.ops false true false true
    some (.eqst o q reg)
  | 0x148 => do
    let q ← Queue.ofCode (r.mod.extractLsb' 0 3)
    let o ← r.ops false false false true
    some (.eqgo o q)
  | 0x149 => do
    let mask := r.imm.extractLsb' 0 5
    let o ← r.ops false false false false
    some (.eqfence o mask)
  | 0x14A => do
    let q ← Queue.ofCode (r.mod.extractLsb' 0 3)
    let n := r.imm.extractLsb' 0 6
    let o ← r.ops true false false false
    some (.eqwait o q n)
  | 0x14B => do
    let ty ← Ty.ofCode (r.mod.extractLsb' 0 5)
    let sp := r.mod.getLsbD 5
    let o ← r.ops true true true true
    some (.tld o ty sp)
  | 0x14C => do
    let sp := r.mod.getLsbD 5
    let o ← r.ops true true true true
    some (.tst o sp)
  | 0x14D => do
    let o ← r.ops true true false true
    some (.tcpy o)
  | 0x14E => do
    let sp := r.mod.getLsbD 5
    let o ← r.ops true true false true
    some (.tcb o sp)
  | 0x14F => do
    let o ← r.ops true false false true
    some (.mxprg o)
  | 0x150 => do
    let rnd ← Rnd.ofCode (r.mod.extractLsb' 5 3)
    let o ← r.ops true true true true
    some (.vxm o rnd)
  | 0x180 => do
    let sort := r.mod.getLsbD 5
    let o ← r.ops true true true true
    some (.boxt o sort)
  | 0x181 => do
    let o ← r.ops true true true true
    some (.trit o)
  | 0x182 => do
    let o ← r.ops true true true true
    some (.spush o)
  | 0x183 => do
    let pe := r.mod.extractLsb' 6 3
    let o ← r.ops true true false true
    some (.spop o pe)
  | 0x184 => do
    let pe := r.mod.extractLsb' 6 3
    let o ← r.ops true true false true
    some (.speek o pe)
  | 0x185 => do
    let o ← r.ops false false false true
    some (.sclr o)
  | 0x186 => do
    let reload := r.mod.getLsbD 5
    let o ← r.ops false true false true
    some (.lathreq o reload)
  | 0x187 => do
    let nin := r.mod.extractLsb' 0 3
    let nout := r.mod.extractLsb' 3 2
    let o ← r.ops true true true true
    some (.lathrun o nin nout)
  | 0x188 => do
    let o ← r.ops true true false true
    some (.lathwait o)
  | 0x189 => do
    let o ← r.ops true true true true
    some (.gzarr o)
  | 0x18A => do
    let flush := r.mod.getLsbD 5
    let o ← r.ops true true false true
    some (.gzrd o flush)
  | 0x18B => do
    let all := r.mod.getLsbD 5
    let o ← r.ops false (!all) false true
    some (.gzclr o all)
  | 0x18C => do
    let o ← r.ops false true true true
    some (.gzrpl o)
  | 0x18D => do
    let o ← r.ops true false false true
    some (.gzst o)
  | 0x18E => do
    let o ← r.ops true false false true
    some (.fget o)
  | 0x18F => do
    let o ← r.ops false true true true
    some (.fcmt o)
  | 0x190 => do
    let blk := r.mod.getLsbD 5
    let o ← r.ops false (!blk) false true
    some (.fpsn o blk)
  | 0x191 => do
    let o ← r.ops false false false true
    some (.fend o)
  | 0x192 => do
    let o ← r.ops true true false true
    some (.gprobe o)
  | 0x193 => do
    let o ← r.ops false true true true
    some (.tgcond o)
  | 0x194 => do
    let mask := r.imm.extractLsb' 0 16
    let o ← r.ops false false false false
    some (.tgsig o mask)
  | 0x195 => do
    let mask := r.imm.extractLsb' 0 16
    let o ← r.ops false false false false
    some (.tgwait o mask)
  | 0x196 => do
    let node := r.imm.extractLsb' 0 6
    let regs := r.imm.extractLsb' 6 4
    let o ← r.ops true true false false
    some (.emit o node regs)
  | 0x1C0 => do
    let code := r.imm.extractLsb' 0 16
    let o ← r.ops false false false false
    some (.syscall o code)
  | 0x1C1 => do
    let o ← r.ops false false false true
    some (.eret o)
  | 0x1C2 => do
    let num := r.imm.extractLsb' 0 16
    let o ← r.ops true true false false
    some (.crrd o num)
  | 0x1C3 => do
    let num := r.imm.extractLsb' 0 16
    let o ← r.ops false true true false
    some (.crwr o num)
  | 0x1C4 => do
    let all := r.mod.getLsbD 0
    let scope ← TScope.ofCode (r.mod.extractLsb' 1 2)
    let o ← r.ops false (!all) (!all) true
    some (.tlbi o all scope)
  | 0x1C5 => do
    let w := r.mod.getLsbD 0
    let o ← r.ops true true false true
    some (.tlbp o w)
  | 0x1C6 => do
    let o ← r.ops true true false true
    some (.wkill o)
  | 0x1C7 => do
    let o ← r.ops true true false true
    some (.wsusp o)
  | 0x1C8 => do
    let o ← r.ops true true false true
    some (.wresm o)
  | 0x1C9 => do
    let code := r.imm.extractLsb' 0 16
    let o ← r.ops false false false false
    some (.halt o code)
  | _ => none

/-- The word of an instruction (R115); an event has none. -/
def encode (i : Instr) : Option (BitVec 96) := i.raw.map RawWord.pack

/-- The instruction that a word encodes on a main core; `none` is a word that fails decode (R129). What a scan core
refuses besides stands in `Instr.legalOn` (R433). -/
def decode (w : BitVec 96) : Option Instr :=
  match (RawWord.unpack w).build with
  | some i => if i.wf = true ∧ encode i = some w then some i else none
  | none => none

/-- A word read from memory: byte 0 holds bits 7:0 (R115). -/
def wordOfBytes (bs : List Byte) : BitVec 96 :=
  BitVec.ofNat 96 (bs.foldr (fun b acc => acc * 256 + b.toNat) 0)

/-- The twelve bytes of a word, lowest first (R115). -/
def bytesOfWord (w : BitVec 96) : List Byte :=
  (List.range 12).map fun k => w.extractLsb' (8 * k) 8

/-- The decoder on the table's numbering of bits: the bytes of the word are laid out as memory holds them. -/
def decodeTableWord (_nbits w : Nat) : Option Instr :=
  decode (wordOfBytes (bytesOfWord (BitVec.ofNat 96 w)))

end Sys2Proof
end

