-- ==== Sys2Proof/Machine/Bits.lean ====
section
/-!
DEFINITION. Bit fields, thread masks, little-endian bytes (R4) and sparse tables: the small operations that the
rest of the machine is written with.
-/
namespace Sys2Proof

/-- The threads below `w`. -/
def Mask.first (w : Nat) : Mask := BitVec.ofNat 128 (2 ^ w - 1)

/-- The mask of one thread. -/
def Mask.one (t : Nat) : Mask := BitVec.ofNat 128 (2 ^ t)

/-- The number of the lowest thread in a mask, by trying the threads below `n` in ascending order. -/
def Mask.lowest (m : Mask) : Option Nat := (List.range 128).find? fun t => m.getLsbD t

/-- The threads of a mask in ascending order. -/
def Mask.threads (m : Mask) : List Nat := (List.range 128).filter fun t => m.getLsbD t

/-- The mask of the threads that satisfy a test. -/
def Mask.ofPred (f : Nat → Bool) : Mask :=
  BitVec.ofNat 128 ((List.range 128).foldr (fun t acc => 2 * acc + (f t).toNat) 0)

/-- Bits hi:lo of a natural number, both inclusive. -/
def bitsOf (x hi lo : Nat) : Nat := x / 2 ^ lo % 2 ^ (hi + 1 - lo)

/-- Bit k of a natural number. -/
def bitOf (x k : Nat) : Bool := x / 2 ^ k % 2 == 1

/-- The value of little-endian bytes (R4). -/
def leNat (bs : List Byte) : Nat := bs.foldr (fun b acc => b.toNat + 256 * acc) 0

/-- `n` little-endian bytes of a value (R4). -/
def leBytes : Nat → Nat → List Byte
  | 0, _ => []
  | n + 1, x => BitVec.ofNat 8 x :: leBytes n (x / 256)

/-- Rounds up to a multiple. -/
def roundUp (x m : Nat) : Nat := (x + m - 1) / m * m

/-- Replaces element `i` of a list, leaving a list that is too short alone. -/
def setAt {α : Type} (l : List α) (i : Nat) (x : α) : List α := l.set i x

/-- Two's-complement value of the low `n` bits. -/
def sVal (n : Nat) (x : Nat) : Int :=
  let y := x % 2 ^ n
  if 2 ^ (n - 1) ≤ y then (y : Int) - (2 ^ n : Nat) else y

/-- The `n`-bit pattern of an integer. -/
def wrapN (n : Nat) (y : Int) : Nat := (y % (2 ^ n : Nat)).toNat

/-- A table with a value at every key: the keys listed, ascending, and a default for the others. -/
abbrev Tab (α : Type) := List (Nat × α)

namespace Tab

/-- The value at a key. -/
def get {α : Type} (d : α) : Tab α → Nat → α
  | [], _ => d
  | (k, x) :: rest, key => if k = key then x else get d rest key

/-- Writes the value at a key, keeping the keys ascending. -/
def put {α : Type} : Tab α → Nat → α → Tab α
  | [], key, x => [(key, x)]
  | (k, y) :: rest, key, x =>
    if key < k then (key, x) :: (k, y) :: rest
    else if key = k then (key, x) :: rest
    else (k, y) :: put rest key x

/-- Removes a key. -/
def erase {α : Type} (m : Tab α) (key : Nat) : Tab α := m.filter fun e => e.1 ≠ key

/-- The listed value at a key. -/
def find {α : Type} (m : Tab α) (key : Nat) : Option α := (m.find? fun e => e.1 = key).map (·.2)

end Tab

end Sys2Proof
end

