-- ==== Sys2Proof/Machine/State.lean ====
section
/-!
DEFINITION. The state of the SZ-960: every piece of state the manual names, as plain data, and the machine right
after reset. Tables (`Tab`) list the entries that differ from a default. INVENTORY.md lists each field with its
rule and its reset value.
-/
namespace Sys2Proof.Machine

/-- Device and host memory: (physical address, byte) pairs, addresses rising, no entry equal to `Memory.unlisted`. -/
abbrev Memory := List Host.Cell

/-- What an unlisted address of memory reads as (assumption 5). -/
def Memory.unlisted : Byte := 0

/-- The canonical form of a memory: addresses strictly rising and no entry that an unlisted address would read as. -/
def Memory.wfFrom : Option Nat → Memory → Bool
  | _, [] => true
  | lo, (a, b) :: rest => (match lo with | none => true | some l => decide (l < a)) && b != Memory.unlisted && Memory.wfFrom (some a) rest

/-- The canonical form. -/
def Memory.wf (m : Memory) : Bool := Memory.wfFrom none m

/-! ### Registers (R39) -/

/-- The origin of poison (R51). -/
inductive Origin where
  | fault | data
  deriving DecidableEq, Repr

/-- Privilege levels that a wave can hold (R342). -/
inductive Level where
  | user | supervisor
  deriving DecidableEq, Repr

/-- A pending nest trap on a register (R298): the line address and the handler in force when it was set. -/
structure NestMark where
  line    : DWord
  handler : DWord
  deriving DecidableEq, Repr

/-- A vector register (R39, R44). -/
structure VReg where
  vals   : List Word
  tag    : BitVec 5
  full   : Bool
  poison : Mask
  origin : Origin
  nest   : Option NestMark
  deriving DecidableEq, Repr

/-- A newly acquired vector register (R42). -/
def VReg.fresh : VReg := ⟨List.replicate 128 0, 0, true, 0, .fault, none⟩

/-- A scalar register (R39). -/
structure SReg where
  val    : DWord
  full   : Bool
  poison : Bool
  origin : Origin
  nest   : Option NestMark
  deriving DecidableEq, Repr

/-- A scalar register of a new wave (R330). -/
def SReg.fresh : SReg := ⟨0, true, false, .fault, none⟩

/-- A predicate register (R39). -/
structure PReg where
  bits   : Mask
  poison : Mask
  origin : Origin
  deriving DecidableEq, Repr

/-- A predicate register of a new wave (assumption 8). -/
def PReg.fresh : PReg := ⟨0, 0, .fault⟩

/-- A tile register: 8 KiB, a tag, and the numbers of its poisoned 32-bit words with their origin (R39). -/
structure Tile where
  bytes  : Tab Byte
  tag    : BitVec 5
  poison : Tab Origin
  deriving DecidableEq, Repr

/-- A tile register at reset (assumption 9). -/
def Tile.fresh : Tile := ⟨[], 0, []⟩

/-- An accumulator tile: element (i, j) at key 32 i + j (R39, R59), the poisoned elements (R240). -/
structure Acc where
  elems  : Tab (BitVec 80)
  poison : List Nat
  deriving DecidableEq, Repr

/-- An accumulator at reset (assumption 9). -/
def Acc.fresh : Acc := ⟨[], []⟩

/-! ### Waves and fragments -/

/-- The repeat state of a fragment (R127): the address of the REP, the next repeat, the count and the steps. -/
structure Rep where
  addr  : DWord
  idx   : Nat
  count : Nat
  dStep : Int
  aStep : Int
  bStep : Int
  deriving DecidableEq, Repr

/-- What a fragment that does not issue is waiting for. -/
inductive Park where
  /-- an empty register is to become full (R48, R49, R194) -/
  | regs (xs : List Opnd)
  /-- earlier accesses of the wave are to be performed (R96, R100); `loads` includes loads, `host` host writes -/
  | drain (loads : Bool)
  /-- a barrier phase is to pass (R227): offset and token -/
  | barrier (core offset : Nat) (token : BitVec 16)
  /-- room in an engine queue (R231) -/
  | room (q : Queue)
  /-- at most n operations of the wave outstanding in a queue (R233) -/
  | queue (q : Queue) (n : Nat)
  /-- register blocks (R41) -/
  | blocks (n : Nat)
  /-- a range to leave the scoreboard of a core (R83): `out` when outbound ranges count too -/
  | scoreboard (core lo hi : Nat) (out : Bool)
  /-- a free scoreboard entry (R82) -/
  | sbEntry
  /-- walks of the wave (R375, R385): their requester -/
  | walk (sector req : Nat)
  /-- flags of the graph (R316) -/
  | flags (mask : BitVec 16)
  /-- a generated line to leave FILLING (R294): partition and line -/
  | line (part line : Nat)
  /-- an operation of a queue that stalls its fragment (R269, R277) -/
  | op (id : Nat)
  /-- the wave's scratchpad operations are to be performed (R337) -/
  | drainSp
  /-- a line of which an instruction fetch needs bytes is to come from a lower tier: the home slice and its copy (R403) -/
  | read (slice copy : Nat)
  /-- a Lath image (R270) -/
  | lath (image : DWord)
  /-- the matrix queue of a pair to be empty (R237) -/
  | pairEmpty (pair : Nat)
  deriving DecidableEq, Repr

/-- An LR reservation of a thread (R104): the LR's operation, the line it lies on, once the LR's value is bound, the
fragment's issues since the LR, and whether no access that ends the guaranteed window lies between. -/
structure Resv where
  thread : Nat
  op     : Nat
  line   : Option Nat
  issues : Nat
  plain  : Bool
  deriving DecidableEq, Repr

/-- A wait of BARWAIT or BARSYNC (R227): the instruction's address, the token, and once the phase has completed the FAULT
bit at its completion. See assumption 64. -/
structure Sync where
  pc    : DWord
  token : BitVec 16
  done  : Option Bool
  deriving DecidableEq, Repr

/-- What a trap records (R346, R348); `fetch` when an instruction fetch raises it. -/
structure Trap where
  cause  : Nat
  detail : Nat := 0
  code   : Nat := 0
  thread : Nat := 0
  oper   : Nat := 0
  addr   : DWord := 0
  origin : Origin := .fault
  fetch  : Bool := false
  deriving DecidableEq, Repr

/-- A trap on its way to the handler, whose frame is still to be written (R349): the trap, IADDR and WORD. -/
structure Entry where
  trap  : Trap
  iaddr : DWord
  word  : BitVec 96
  deriving DecidableEq, Repr

/-- A fragment (R16 to R23). -/
structure Fragment where
  live     : Mask           -- L: the threads that have not exited
  exec     : Mask
  pc       : DWord
  rep      : Option Rep
  depth    : Nat            -- creation depth (R20)
  waiting  : Bool           -- waits at its reconvergence address
  park     : Option Park
  level    : Level
  turn     : Nat            -- issues since it became the issuing fragment (R23)
  issues   : Nat            -- issues of the fragment
  sinceLr  : Option Nat     -- issues since its last LR (R23)
  resv     : List Resv
  age      : Nat            -- creation of its entry
  handler  : Bool           -- entered the supervisor handler and has not left it (R351)
  nest     : Option (Option Rep × Level)  -- in the GEN_NEST handler, with the repeat and the level held meanwhile (R298)
  synced   : List Sync       -- the barrier waits it is in, by the address of their instructions (R227)
  lathErr  : Option Nat      -- why the LATHRUN it stalls at failed, as in R270
  entry    : Option Entry    -- the trap that it is entering while the frame's bytes stall (R83, R349)
  deriving DecidableEq, Repr

/-- A queue status record (R231). -/
structure QStat where
  status : BitVec 4
  cls    : BitVec 3
  epi    : Bool
  row    : BitVec 12
  nfault : BitVec 32
  deriving DecidableEq, Repr

/-- A cleared status record. -/
def QStat.clear : QStat := ⟨0, 0, false, 0, 0⟩

/-- Where a wave came from (R28). -/
inductive Source where
  | frontEnd | walker | record | filler | scan
  deriving DecidableEq, Repr

/-- A wave (R30, R39). -/
structure Wave where
  uid       : Nat                    -- creation stamp
  team      : Nat                    -- team it belongs to
  launch    : Nat                    -- launch it counts for
  part      : Nat                    -- partition
  source    : Source
  index     : Nat                    -- wave index within the team
  width     : Nat                    -- W
  entries   : List (Option Fragment) -- the split table, 8 entries
  ovf       : List Fragment          -- the overflow slot
  stack     : List DWord             -- reconvergence stack, top first
  cur       : Nat                    -- entry of the issuing fragment
  alone     : Bool                   -- a fragment is in the supervisor handler (R349)
  vregs     : Tab VReg
  sregs     : Tab SReg
  preds     : Tab PReg
  blocks    : Nat                    -- h
  fpmode    : BitVec 3               -- FLUSH, RMODE (R55)
  latches   : Tab DWord              -- QA-QD of queue q at 4 q + register (R229)
  qout      : Tab Nat                -- outstanding operations per queue (R231)
  qstat     : Tab QStat
  tdepth    : Tab Nat                -- traversal depth per thread (R256)
  prio      : Nat                    -- launch priority
  depth     : Nat                    -- SR_PRIO.DEPTH
  gen       : Option Nat             -- generator index of a filler
  bound     : Option Nat             -- task that caused the creation (R295)
  held      : Option Nat             -- task it holds (R306)
  recDepth  : Nat                    -- depth of a record wave (R317)
  node      : Nat                    -- its RECORD node, and the ring entries it holds: first position and count (R314)
  ringPos   : Nat
  ringCnt   : Nat
  checked   : Bool                   -- launch flag CHECKED (R35)
  suspended : Bool                   -- WSUSP or HALT (R355, R356)
  debugHalt : Bool                   -- halted for the debugger (R347)
  halted    : Bool                   -- halted at the end of its partition's quantum (R367)
  xlimit    : List (XClass × DWord × BitVec 96)  -- XLIMITs to take at the next issues: class, instruction address, word (R71)
  word      : BitVec 96               -- the word that issues, as fetched (R22)
  stray     : Option (BitVec 10)      -- a field of it whose stepped number has left its range (R127)
  ibuf      : List (DWord × BitVec 96)  -- the instruction buffer: addresses and words, at most 8 (R22)
  ended     : Bool                    -- the issuing fragment's turn has ended by a stall, a wait or an exit (R23)
  fenced    : Nat                    -- stamp of its last acquire or fence at cluster scope or wider (R81)
  lag       : Nat                    -- quad clocks that it has been ready without issuing (R24)
  fetchBad  : List Nat               -- lines that a failed flash page delivered poisoned to an instruction fetch (R403)
  lathFail  : List (DWord × Nat)     -- images whose latest load that this wave requested has failed, with the status (R270)
  deriving DecidableEq, Repr

/-- A wave by core and slot; slot = 6 * quad + slot within the quad (R345). -/
structure WaveRef where
  core : Nat
  slot : Nat
  deriving DecidableEq, Repr

/-! ### Memory operations under way -/

/-- A line of global memory: by physical address, or by virtual address in a partition's generated range (R292). -/
inductive LineKey where
  | phys (line : Nat)
  | gen (part : Nat) (line : Nat)
  deriving DecidableEq, Repr

/-- A place a store or atomic acts on. -/
structure Place where
  key : LineKey
  off : Nat                -- byte within the line
  deriving DecidableEq, Repr

/-- A byte to be written: where, its value and the enabled bits (R87). -/
structure ByteWrite where
  addr : Nat               -- physical byte address
  val  : Byte
  en   : Byte
  deriving DecidableEq, Repr

/-- What an upset flips in a thread's result (R411): bits 255:0 in the words written, bit 256 in a predicate result, bit 257 in
the poison; of a LATHRUN, bits 127:0 in the outputs and bits 131:128 in their poison. See assumption 4. -/
abbrev Flip := BitVec 258

/-- What a pending memory operation does when it is performed. -/
inductive MemKind where
  /-- a load of LD, LDNC, LDU or LR (R204, R213): first register, form, and the active threads with their addresses;
  a thread whose address is already known to fault has no address -/
  | load (dst : Opnd) (ty : Ty) (one : Bool) (cnt : Cnt) (sub : BitVec 2) (nc lr : Bool) (accs : List (Nat × Option DWord))
  /-- the word read of ACQ (R216) -/
  | acq (dst : Opnd) (addr : DWord) (scope : Scope)
  /-- the result of a special function, still to be written (R47, R159), with the exceptions it counts then (R71) -/
  | value (dst : Opnd) (vals : List Word) (act poison : Mask) (origin : Origin) (exc : List (XClass × Nat)) (iaddr : DWord) (word : BitVec 96)
  /-- the bytes of one thread's store (R94), or under thread 128 a line that several threads of one store cover with zeros (R79);
  `nt` is STNT -/
  | store (thread : Nat) (bytes : List ByteWrite) (poisoned nt : Bool)
  /-- one thread's atomic (R210 to R212): place, width in bytes, operands, SR_FPMODE.FLUSH, and the
  instruction that counts its exceptions -/
  | atom (dst : Opnd) (thread : Nat) (addr : Nat) (ty : Ty) (op : Option AOp) (fop : Option FAOp) (cmp : Option DWord) (data : DWord)
      (flush : Bool) (iaddr : DWord) (word : BitVec 96)
  /-- one thread's SC (R213): whether its reservation stands, and the LR whose value is still to be bound -/
  | sc (dst : Opnd) (thread : Nat) (addr : Nat) (ty : Ty) (data : DWord) (holds : Bool) (lr : Option Nat)
  /-- the task that an FGET has taken, still to be written (R47, R306) -/
  | task (dst : Opnd) (x : DWord)
  /-- a remote or local scratchpad store of one thread with its credit (R76, R208) -/
  | remote (target : Nat) (off : Nat) (bytes : List (Byte × Byte)) (poisoned : Bool) (credit : Option Nat)
  /-- one thread's ATOMS (R210), or under thread 128 a uniform one -/
  | atoms (dst : Opnd) (thread : Nat) (target : Nat) (off : Nat) (ty : Ty) (op : AOp) (data : DWord)
  /-- a node or triangle fetch (R249): destination, addresses and rays read at issue, and what an upset flips in each
  thread's first result -/
  | node (dst : Opnd) (tri : Bool) (sort : Bool) (rays : List (Nat × Option DWord × List Word)) (poison : Mask) (origin : Origin)
      (flips : Tab Flip)
  /-- a VXM fetch (R246): per thread pointer, x words and old destination; what an upset flips in each thread's first result,
  and the instruction that counts its exceptions -/
  | vxm (dst : Opnd) (rnd : Nat) (flush : Bool) (accs : List (Nat × Option DWord × List Word × List Word)) (poison : Mask)
      (origin : Origin) (flips : Tab Flip) (iaddr : DWord) (word : BitVec 96)
  /-- a multicast read (R209); `sent` once its requests have reached their slices, `fail` the lowest failing byte so far
  with its class -/
  | ldmc (dst : Opnd) (src : DWord) (len : Nat) (off : Nat) (bar : Nat) (mask : BitVec 16) (sent : Bool) (fail : Option (Nat × Nat))
  deriving DecidableEq, Repr

/-- A memory operation under way. -/
structure MemOp where
  id    : Nat
  wave  : Nat              -- uid of the issuing wave
  slot  : Nat
  level : Level
  depth : Nat              -- fill depth of the requester (R293)
  kind  : MemKind
  bad   : List Nat         -- lines that a failed flash page delivered poisoned (R403)
  launch : Nat             -- launch it counts for (R110)
  waited : Bool            -- it has waited on a FILLING line (R107)
  part   : Nat             -- its partition
  released : Bool          -- its wave has released at team scope while it is still to be performed (R114)
  deriving DecidableEq, Repr

/-- An inbound credit on its way to a barrier object (R223). -/
structure Credit where
  off   : Nat
  bytes : Nat
  fault : Option (BitVec 3)
  deriving DecidableEq, Repr

/-- A range-scoreboard entry (R82); `done` when its operation has touched its last byte there. -/
structure SbEntry where
  op      : Nat
  wave    : Nat              -- stamp of the wave whose operation it is
  lo      : Nat
  hi      : Nat
  inbound : Bool
  done    : Bool
  deriving DecidableEq, Repr

/-- A line of the L1 (R77); the stamp tells whether a peer may still forward it (R81). -/
structure L1Line where
  key  : LineKey
  data : List Byte
  nc   : Bool              -- forwarded by a peer: only LDNC may see it
  at_  : Nat               -- stamp from which on its bytes have been current
  deriving DecidableEq, Repr

/-! ### Engine operations (R105) -/

/-- A copy (R234): the decoded descriptor. -/
structure CopyDesc where
  src : DWord
  dst : DWord
  rowBytes : Nat
  rows : Nat
  spitch : Nat
  dpitch : Nat
  bar : Nat
  credit : Bool
  srcSp : Bool
  dstSp : Bool
  zfill : Bool
  deriving DecidableEq, Repr

/-- An operation of queue 1 (R234, R244, R245). -/
inductive Q1Kind where
  | copy (d : CopyDesc)
  | tld (tile : Nat) (ty : Ty) (sp : Bool) (base : DWord) (shape : DWord)
  | tst (tile : Nat) (sp : Bool) (base : DWord) (shape : DWord)
  | tcpy (dst src : Nat)
  | tcb (tile : Nat) (sp : Bool) (base : DWord)
  deriving DecidableEq, Repr

/-- One arrival at a Glaze unit (R278). -/
structure Arrival where
  rec_   : Nat
  depth  : BitVec 24
  color  : List (BitVec 16)        -- red, green, blue
  alpha  : BitVec 16
  poison : Option Origin
  deriving DecidableEq, Repr

/-- An operation of queue 4 (R277). -/
inductive Q4Kind where
  | arrive (as : List Arrival)
  | read (dst : Opnd) (flush : Bool) (recs : List (Nat × Nat)) (poison : Mask) (origin : Origin)
  | clear (recs : List Nat)
  | clearAll
  | status (dst : Opnd)
  | replay (out : DWord) (n : Nat)
  | marker
  deriving DecidableEq, Repr

/-- An operation of queue 3 (R268, R269); `spoiled` when an invalid image has replaced the run's before it started. -/
inductive Q3Kind where
  | load (image : DWord) (reload : Bool)
  | run (dst : Opnd) (nin nout : Nat) (image : DWord) (threads : List Nat) (inputs : List (List Word)) (poison : List Mask)
      (origins : List Origin) (spoiled : Bool)
  | marker
  deriving DecidableEq, Repr

/-- A tier hint of queue 2 (R90). -/
structure HintOp where
  hint : Hint
  base : DWord
  len  : Nat
  at_  : Nat               -- pages done
  refused : Bool           -- a pin has been refused (R406)
  deriving DecidableEq, Repr

/-- An entry of an engine queue of a core: its wave, and the operations that EQFENCE puts before it (R105). -/
structure QEntry (κ : Type) where
  id    : Nat
  wave  : Nat
  slot  : Nat
  part  : Nat
  level : Level
  depth : Nat
  rmode : Nat
  killed : Bool            -- its wave was killed (R38)
  after : List Nat
  launch : Nat             -- launch it counts for (R110, R454)
  iaddr : DWord            -- the instruction that enqueued it (R71)
  word  : BitVec 96
  bad   : List Nat         -- lines that a failed flash page delivered poisoned (R403)
  got   : List Nat         -- 32-bit words of its tile register that it has written already (R170)
  kind  : κ
  deriving DecidableEq, Repr

/-- A matrix operation (R238 to R243). -/
structure MxOp where
  core  : Nat
  qa : DWord
  qb : DWord
  qc : DWord
  qd : DWord
  p : Nat                  -- chunks completed
  started : Bool
  paused : Bool            -- waits on a recoverable fault
  staged : Bool            -- its tile is in the staging buffers
  row : Nat                -- next row to store
  rotten : Option Nat      -- first row stored poisoned
  exc : Tab Nat            -- classes already counted for an element, one bit each (R70)
  desc : Option (BitVec 512)  -- the epilogue descriptor, once the epilogue has started
  tabA : List (BitVec 16 × Bool)  -- codebooks as read at the start, with their poison
  tabB : List (BitVec 16 × Bool)
  deriving DecidableEq, Repr

/-- A matrix operation as it enters the queue, from its latches. -/
def MxOp.start (core : Nat) (qa qb qc qd : DWord) : MxOp :=
  { core := core, qa := qa, qb := qb, qc := qc, qd := qd, p := 0, started := false, paused := false, staged := false, row := 0
    rotten := none, exc := [], desc := none, tabA := [], tabB := [] }

/-- A pair's matrix engine (R237). -/
structure Pair where
  q0 : List (QEntry MxOp)
  deriving DecidableEq, Repr

/-- A TLB entry (R383): its partition, the page's virtual base, the size code of R354 and the leaf (four words for a
tile region, R379). -/
structure TlbEntry where
  part : Nat
  base : Nat
  size : Nat
  leaf : BitVec 256
  deriving DecidableEq, Repr

/-! ### Lath, Glaze, graphs -/

/-- The Lath grid of a core (R267, R273). -/
structure Lath where
  image : Option (DWord × Nat × List Byte)   -- address, partition, the 512 bytes
  deriving DecidableEq, Repr

/-- An entry of a Glaze insertion buffer (R274). -/
structure GzEntry where
  key    : BitVec 32
  color  : List (BitVec 16)
  alpha  : BitVec 16
  poison : Option Origin
  deriving DecidableEq, Repr

/-- A Glaze record (R274, R275). -/
structure GzRec where
  l       : List Word          -- LR, LG, LB
  t       : Word
  knear   : BitVec 32
  kfar    : BitVec 32
  inexact : BitVec 16
  drops   : BitVec 16
  any     : Bool
  retired : Bool
  poison  : Option Origin
  seq     : BitVec 8
  buf     : List GzEntry       -- nearest first
  deriving DecidableEq, Repr

/-- The state that GZCLR writes (R275). -/
def GzRec.clear : GzRec := ⟨[0, 0, 0], 0x3F800000, 0, 0, 0, 0, false, false, none, 0, []⟩

/-- The adjoint of a record during a replay (R286): gL, gT, and whether it is poisoned. -/
structure GzAdj where
  gl  : Word
  gt  : List Word
  bad : Bool
  deriving DecidableEq, Repr

/-- A replay under way (R286): the operation, the log it reads, the entries still to do, the adjoints by record, and the row of the first
poisoned entry. -/
structure GzReplay where
  op     : Nat
  base   : DWord             -- GZ_LOGBASE as the replay began (R276)
  left   : Nat
  adj    : Tab GzAdj
  rotten : Option Nat
  deriving DecidableEq, Repr

/-- A cluster: its Glaze unit (R274, R276), its TLB, and the partition whose turn it is (R367). -/
structure Cluster where
  records : Tab GzRec
  log     : Bool
  tmin    : Word
  logBase : DWord
  logLim  : BitVec 24
  logN    : BitVec 24
  logOvf  : Bool
  logFlt  : Bool
  rpl     : Option GzReplay    -- the replay that runs (REPLAY of GZ_STAT), and how far it has come
  nret    : Nat
  tlb     : List TlbEntry
  turn    : Option Nat
  deriving DecidableEq, Repr

/-- A node of a graph (R312), its 32 bytes as one number. -/
abbrev Node := BitVec 256

/-- A queued record (R317): its depth, and the stores that write it into the ring. -/
structure Record where
  depth : Nat
  op    : Nat
  deriving DecidableEq, Repr

/-- The core task-graph walker (R311 to R316). -/
structure Graph where
  launch  : Nat
  team    : Nat
  nodes   : List Node
  at_     : Nat                -- node on the path; 63 is the end
  started : Bool
  op      : Option Nat         -- outstanding engine operation of the node
  pending : Nat                -- waves of a LAUNCH node still to retire
  clips   : Nat
  iters   : Tab Nat            -- WHILE iterations
  rings   : Tab (List Record)  -- queued records per RECORD node
  inUse   : Tab (List Nat)     -- ring positions held by running record waves (R314)
  faulted : Bool
  heads   : Tab Nat            -- ring position of the oldest queued record (its count modulo the entries)
  deriving DecidableEq, Repr

/-! ### Cores -/

/-- A waiting request to create waves (R28). -/
structure NewWave where
  team   : Nat
  launch : Nat
  part   : Nat
  source : Source
  index  : Nat
  entry  : DWord
  blocks : Nat
  prio   : Nat
  level  : Level
  checked : Bool
  sregs  : List (Nat × DWord)
  recDepth : Nat
  node : Nat
  ringPos : Nat
  ringCnt : Nat
  task : Option Nat
  fillDepth : Nat
  gen : Option Nat
  deriving DecidableEq, Repr

/-- A core (R1, R432). -/
structure Core where
  waves    : Tab Wave              -- by slot
  gens     : Tab (BitVec 16)       -- wave creations per slot (R355)
  free     : Tab Nat               -- free blocks: pool 0 ordinary, 1 and 2 the reserves (R33, R41)
  newWaves : List NewWave          -- waves that wait for a slot or blocks (R28)
  scratch  : Tab Byte
  spoison  : List Nat              -- poisoned 32-bit words of the scratchpad (R410)
  owner    : Option Nat            -- team that owns the scratchpad (R453)
  tiles    : Tab Tile
  accs     : Tab Acc
  staging  : Option (Nat × List (Nat × BitVec 32 × Bool))  -- operation and drained elements: index, bits, poisoned (R243)
  l1       : List L1Line
  sboard   : List SbEntry
  corrected : BitVec 32
  xth      : Tab DWord             -- SR_XTH registers by class
  xk       : Nat                   -- SR_XWIN.K
  xwin     : Tab Nat               -- window counts
  xcum     : Tab Nat               -- cumulative counts
  xran     : List XClass           -- classes whose action has run in this window
  cycles   : DWord
  outv     : Tab Nat               -- outvotes per lane (R419)
  susp     : List Nat              -- lanes reported
  pred     : Tab (Option Nat)      -- LDNC predictor (R80)
  q1       : List (QEntry Q1Kind)
  q2       : List (QEntry HintOp)
  q3       : List (QEntry Q3Kind)
  q4       : List (QEntry Q4Kind)
  joins    : Tab (List Nat)        -- per queue: operations that EQFENCE puts before later ones
  lath     : Lath
  graph    : Option Graph
  flags    : BitVec 16             -- the walker's flags (R316)
  memq     : List MemOp            -- oldest first
  credits  : List Credit
  tlb      : List TlbEntry
  deriving DecidableEq, Repr

/-- A core at reset. See assumptions 6, 10, 81. -/
def Core.reset (core : Nat) : Core :=
  { waves := [], gens := []
    free := if core < Config.mainCores then [(0, 84), (1, 8), (2, 4)] else [(0, 48), (1, 0), (2, 0)]
    newWaves := [], scratch := [], spoison := [], owner := none, tiles := [], accs := [], staging := none, l1 := []
    sboard := [], corrected := 0, xth := [], xk := 20, xwin := [], xcum := [], xran := [], cycles := 0, outv := []
    susp := [], pred := [], q1 := [], q2 := [], q3 := [], q4 := [], joins := []
    lath := ⟨none⟩, graph := none, flags := 0, memq := [], credits := [], tlb := [] }

/-- A cluster at reset (R276). -/
def Cluster.reset : Cluster :=
  { records := [], log := false, tmin := 0x3A800000, logBase := 0, logLim := 0, logN := 0, logOvf := false
    logFlt := false, rpl := none, nret := 0, tlb := [], turn := none }

/-! ### Slices, fabric, generated memory -/

/-- The marks of an LLC line (R79, R91, R407). -/
structure Line where
  zero   : Bool
  dirty  : Bool
  age    : Nat
  charge : Nat               -- partition charged
  deriving DecidableEq, Repr

/-- Sixteen bytes of a multicast source: offset in the range, line, and byte within it. -/
structure Piece where
  at_ : Nat
  key : LineKey
  off : Nat
  deriving DecidableEq, Repr

/-- The phase of a multicast merge entry (R85). -/
inductive MergePhase where
  | gathering            -- before the response leaves
  | window               -- a late-joiner window is open
  | collecting           -- a late joiner has come
  deriving DecidableEq, Repr

/-- A multicast merge entry (R85): what it matches, its phase, and the requests joined. -/
structure Merge where
  part  : Nat
  quad  : Nat
  src   : DWord
  len   : Nat
  off   : Nat
  bar   : Nat
  pieces : List Piece      -- the source of this request
  phase : MergePhase
  joined : List (Nat × Nat × BitVec 16)   -- core, operation, mask of each joined request
  reader : Nat × Nat × Nat                -- core, wave and depth of the request that opened it
  bad    : List Nat                       -- lines that a failed flash page delivered poisoned (R403)
  deriving DecidableEq, Repr

/-- A multicast transmission on its way to a core (R401): bytes per line, or a fault class. -/
structure Delivery where
  off    : Nat
  bar    : Nat
  pieces : List (Nat × List Byte × Bool × Nat)  -- offset in the range, bytes, poisoned, class of its fault
  requests : List (Nat × Nat)                    -- requesting core and operation
  from_  : Option Nat                            -- the slice that has sent it
  deriving DecidableEq, Repr

/-- A request that waits for a miss slot (R293): its depth, partition and requesting wave, and the line; for a generated
line the first of its block. -/
structure MissWait where
  depth : Nat
  part  : Nat
  uid   : Nat
  key   : LineKey
  deriving DecidableEq, Repr

/-- What a miss slot is held for: the block of a fill task, or a line read from a lower tier. -/
inductive SlotKey where
  | task (id : Nat)
  | line (k : LineKey)
  deriving DecidableEq, Repr

/-- A miss slot held (R293): its class, the partition whose request took it, and what it is held for. -/
structure MissSlot where
  cls  : Nat
  part : Nat
  key  : SlotKey
  deriving DecidableEq, Repr

/-- A slice (R86, R293, R409). -/
structure Slice where
  lines    : Tab Line            -- ordinary lines present, by the number of the copy (`copyNo`)
  guests   : Tab Nat             -- ages of the guest copies held for slices of other sectors, by the code of their line (R400)
  slots    : List MissSlot       -- miss slots held
  waiting  : List MissWait       -- requests waiting for a slot, oldest first
  merges   : List Merge
  merged   : BitVec 32
  followup : BitVec 32
  guestInv : BitVec 32
  moves    : BitVec 16
  deriving DecidableEq, Repr

/-- A slice at reset. -/
def Slice.reset : Slice := ⟨[], [], [], [], [], 0, 0, 0, 0⟩

/-- States of a generated line (R292). -/
inductive GenState where
  | valid | zero | filling | poison
  deriving DecidableEq, Repr

/-- A generated line of a partition (R292, R301). -/
structure GenLine where
  state  : GenState
  data   : List Byte
  origin : Origin
  age    : Nat
  deriving DecidableEq, Repr

/-- A fill task (R294, R295, R306). -/
structure Task where
  id     : Nat
  part   : Nat
  gen    : Nat
  block  : Nat              -- virtual base of the block
  depth  : Nat
  slice  : Nat
  opener : Nat              -- core of the request that opened it
  filler : Bool             -- a filler wave was created for it
  queued : Bool             -- not yet taken by FGET
  granted : Bool            -- it holds its miss slot
  deriving DecidableEq, Repr

/-- A walk request (R384): one page for one instruction or engine operation, until its requester has used it.
`req` names the requester: the stamp of a wave (a store, an atomic or a fetch) or of an operation. -/
structure Walk where
  core   : Nat
  req    : Nat
  part   : Nat
  page   : Nat             -- virtual address / 4096
  va     : DWord
  write  : Bool
  fetch  : Bool
  user   : Bool
  agent  : Nat             -- as in the fault record (R387)
  token  : Option (BitVec 32)  -- the open token it waits on (R387)
  full   : Bool            -- a recoverable fault that waits for ring space (R387)
  result : Option Nat      -- the class of an unrecoverable fault, to be delivered
  walker : Option Nat      -- the walker that has taken it (R384)
  deriving DecidableEq, Repr

/-- A page migration whose descriptor has been checked (R408). See assumption 24. -/
structure Migration where
  va     : Nat             -- the page
  leafPa : Nat
  newPa  : Nat
  size   : Nat             -- coded as in R354
  leaf   : DWord           -- the leaf as it was read
  stub   : Bool            -- the stub is in the leaf's place
  done   : Nat             -- lines copied
  deriving DecidableEq, Repr

/-- An entry of the victim store (R405): partition, line key, bytes, age, and its place in GDDR. -/
structure Victim where
  part : Nat
  key  : LineKey
  data : List Byte
  age  : Nat
  addr : Nat
  deriving DecidableEq, Repr

/-- An entry of the indirection table (R397). -/
structure Bucket where
  slice  : BitVec 7
  moving : Bool
  valid  : Bool
  target : Option Nat       -- slice that a move goes to (R399)
  count  : Nat              -- requests in the epoch (R398)
  deriving DecidableEq, Repr

/-- A ring link direction (R395). -/
structure Link where
  failed  : Bool
  retries : Nat
  deriving DecidableEq, Repr

/-- A GDDR channel (R410, R413). -/
structure Channel where
  failed  : Bool
  retries : Nat
  deriving DecidableEq, Repr

/-! ### Partitions and the front end -/

/-- A packet that the look-ahead has fetched and the issue stage has not started: its ring index, its position in called
buffers, its 64 bytes, or in their place why its CALL failed there (R361). -/
structure Packet where
  seq    : BitVec 32
  sub    : List Nat          -- indices down the called buffers; empty for a ring packet
  body   : List Byte
  fail   : Option (Nat × Nat)  -- DETAIL and SUBIDX
  deriving DecidableEq, Repr

/-- A packet that has started and whose record has not been written (R362). -/
structure Running where
  seq    : BitVec 32
  sub    : List Nat
  body   : List Byte
  fail   : Option (Nat × Nat)  -- of a CALL that failed: DETAIL and SUBIDX
  status : Option (Nat × Nat)  -- STATUS and DETAIL when it has completed
  deriving DecidableEq, Repr

/-- A called buffer that the look-ahead is expanding (R361). -/
structure CallFrame where
  seq   : BitVec 32
  path  : List Nat           -- indices of the CALLs that lead to it, outermost first
  next  : Nat
  buf   : DWord
  count : Nat
  deriving DecidableEq, Repr

/-- A queue of a partition (R357, R360, R366). -/
structure Fq where
  log2n   : Nat
  base    : DWord
  en      : Bool
  dprio   : Nat
  supok   : Bool
  recover : Bool
  tail    : BitVec 32
  state   : Nat              -- FE_QSTAT.STATE
  stall   : BitVec 32        -- FE_QSTAT.SEQ
  cbase   : DWord
  wbbase  : DWord
  acc     : BitVec 32
  iss     : BitVec 32
  cmp     : BitVec 32
  ready   : List Packet      -- accepted, not started
  running : List Running
  joined  : Bool             -- the look-ahead stopped at a JOIN
  rereads : Nat              -- rereads of a packet whose CRC failed
  next    : BitVec 32        -- index of the packet that the look-ahead fetches next
  calls   : List CallFrame   -- called buffers being expanded, innermost first
  writers : Tab Nat          -- handle: last started launch that writes it (R366)
  readers : Tab (List Nat)   -- handle: started launches since then that read it
  cmpDue  : Option (BitVec 32)  -- CMP still to be written: the record before it has been performed (R362)
  recov   : Option (Option (BitVec 32))  -- a recovery under way: the block is to be read, or the next started index to settle (R373)
  tailDue : Bool             -- TAIL was written before a recovery had read ACC (R357)
  ending  : Bool             -- a reset ended the queue before a recovery had read the block (R372)
  deriving DecidableEq, Repr

/-- A queue at reset (R357). -/
def Fq.reset : Fq :=
  { log2n := 4, base := 0, en := false, dprio := 0, supok := false, recover := false, tail := 0, state := 5, stall := 0
    cbase := 0, wbbase := 0, acc := 0, iss := 0, cmp := 0, ready := [], running := [], joined := false, rereads := 0, next := 0
    calls := [], writers := [], readers := [], cmpDue := none, recov := none, tailDue := false, ending := false }

/-- The fields of an image header that a launch keeps (R363). -/
structure Header where
  checked : Bool
  coresident : Bool
  matrix : Bool
  saved : Bool
  filler : Bool
  graph : Bool
  scan : Bool
  prio : Nat
  regblk : Nat
  waves : Nat
  paired : Bool
  nx : Nat
  ny : Nat
  nz : Nat
  nstage : Nat
  entry : DWord
  scrOff : Nat
  scrLen : Nat
  graphOff : Nat
  teamOff : Nat
  saveSize : DWord
  deriving DecidableEq, Repr

/-- A bind slot (R95, R217). -/
structure BindSlot where
  base : DWord
  len  : Nat
  bar  : Bool
  obj  : DWord
  deriving DecidableEq, Repr

/-- A loaded generator entry (R290). -/
structure Gen where
  vbase : Nat
  vlen  : Nat
  block : Nat                -- bytes of a fill block
  vkeep : Bool
  trap  : Bool               -- NPOL
  image : DWord
  param : DWord
  srcBase : DWord
  srcLen  : Nat
  altBase : DWord
  handler : DWord
  hdr     : Header           -- the filler image's header and bind slots, as validated at the load (R291)
  binds   : Tab BindSlot
  closing : Bool             -- an invalidate command is under way (R303)
  deriving DecidableEq, Repr

/-- An open fault token (R387). -/
structure Token where
  id    : BitVec 32
  page  : Nat
  write : Bool
  fetch : Bool
  deriving DecidableEq, Repr

/-- A shadow-store context area (R392): the cores, clusters and matrix queues that a partition has left there. -/
structure Context where
  cores    : Tab Core
  clusters : Tab Cluster
  pairs    : Tab Pair
  deriving DecidableEq, Repr

/-- An empty context area. -/
def Context.empty : Context := ⟨[], [], []⟩

/-- A partition: its descriptor (R389) and its registers. -/
structure Partition where
  clusters : BitVec 48
  valid    : Bool
  vfs      : List (BitVec 8)
  vfMask   : BitVec 8
  primary  : BitVec 3
  bktBase  : Nat
  bktCnt   : Nat
  gddrBase : Nat
  gddrLen  : Nat
  flashBase : Nat
  flashLen : Nat
  pinLim   : Nat
  tvec     : DWord           -- FE_TVEC
  tframe   : DWord           -- FE_TFRAME
  rt       : Bool            -- FE_PCTL.RT
  quantum  : BitVec 16       -- FE_QUANTUM.US
  queues   : Tab Fq
  ptRoot   : DWord
  fqLog2n  : Nat
  fqBase   : Nat
  prod     : BitVec 32
  cons     : BitVec 32
  fctl     : DWord
  tokens   : List Token
  migDesc  : DWord
  migBusy  : Bool
  migResult : BitVec 3
  mig      : Option Migration  -- the migration that has been checked (R408)
  genTbase : DWord
  genIndex : BitVec 8
  genOp    : Bool
  genBusy  : Bool
  genResult : BitVec 3
  genPerr  : BitVec 32
  gens     : Tab Gen
  tasks    : List Task
  errLog2n : Nat
  errBase  : DWord
  errProd  : BitVec 32
  errCons  : BitVec 32
  errCtl   : BitVec 12       -- VEC, IRQ
  errLost  : BitVec 32
  errBuf   : List (BitVec 256)
  dataKey  : Option (BitVec 384)
  tagKey   : Option (BitVec 384)
  keyId    : Nat             -- the pair of keys by its stamp; 0 for none (R421)
  leaving  : Bool            -- a teardown waits for operations under way (R394)
  context  : Option Context  -- shadow-store context area (R392)
  pins     : List Nat        -- pinned 4 KiB pages: 2 n for a physical page, 2 n + 1 for one of a generated range
  reported : List Nat        -- blocks whose POISON commit has been reported (R301)
  deriving DecidableEq, Repr

/-- A partition at reset. -/
def Partition.reset : Partition :=
  { clusters := 0, valid := false, vfs := List.replicate 8 0, vfMask := 0, primary := 0, bktBase := 0, bktCnt := 0
    gddrBase := 0, gddrLen := 0, flashBase := 0, flashLen := 0, pinLim := 0, tvec := 0, tframe := 0x4F400, rt := false
    quantum := 2000, queues := [], ptRoot := 0, fqLog2n := 4, fqBase := 0, prod := 0, cons := 0, fctl := 0
    tokens := [], migDesc := 0, migBusy := false, migResult := 0, mig := none, genTbase := 0, genIndex := 0
    genOp := false, genBusy := false, genResult := 0, genPerr := 0, gens := [], tasks := [], errLog2n := 4, errBase := 0
    errProd := 0, errCons := 0, errCtl := 0, errLost := 0, errBuf := [], dataKey := none, tagKey := none
    keyId := 0, leaving := false, context := none, pins := [], reported := [] }

/-- Progress of a launch. -/
inductive LaunchPhase where
  | placing | done
  deriving DecidableEq, Repr

/-- A launch that has started (R362 to R368). -/
structure Launch where
  id     : Nat
  part   : Nat
  queue  : Nat
  seq    : BitVec 32
  sub    : List Nat
  image  : DWord
  save   : DWord
  hdr    : Header
  prio   : Nat
  level  : Level
  phase  : LaunchPhase
  next   : Nat               -- next team in linear order
  alive  : Nat               -- teams placed and not completed
  spots  : Tab Nat           -- by coordinates and stage of a team: the core, or leader, of its latest placement (R13)
  killed : Nat
  faulted : Bool
  clipped : Bool
  reads  : List Nat
  writes : List Nat
  binds  : Tab BindSlot
  scratch : List Byte        -- scratchpad contents of the image
  graph  : Option (List Node × Nat × Nat)   -- nodes, start and clips of the image's graph (R311)
  deriving DecidableEq, Repr

/-- A saved core of a team: its waves, scratchpad, tiles and accumulators (R30, R31). -/
structure SavedHalf where
  waves   : List (Nat × Wave)
  scratch : Tab Byte
  spoison : List Nat
  tiles   : Tab Tile
  accs    : Tab Acc
  graph   : Option Graph
  flags   : BitVec 16
  pending : List MemOp
  newWaves : List NewWave
  deriving DecidableEq, Repr

/-- A team record of a saved image (R364): the team's coordinates and stage, whether it was abandoned, and its cores. -/
structure SavedTeam where
  x : Nat
  y : Nat
  z : Nat
  stage : Nat
  abandoned : Bool
  halves : List SavedHalf
  deriving DecidableEq, Repr

/-- A team (R10 to R13, R31). -/
structure Team where
  id     : Nat
  launch : Nat
  part   : Nat
  core   : Option Nat        -- leader or only core; none while saved
  paired : Bool
  hdr    : Header
  x : Nat
  y : Nat
  z : Nat
  stage  : Nat
  alive  : Nat               -- waves not retired
  abandoned : Bool           -- a wave was killed (R38)
  binds  : Tab BindSlot
  owns   : Bool              -- owns its scratchpad (R453)
  placed : Nat               -- stamp of its latest placement (R368)
  saved  : Option (List SavedHalf)
  deriving DecidableEq, Repr

/-! ### Device -/

/-- Security states (R426). -/
inductive SecState where
  | production | debugAuthorised | development
  deriving DecidableEq, Repr

/-- Power states (R426, R452). See assumption 109. -/
inductive Power where
  | d0 | d0idle | d3hot | d3cold
  deriving DecidableEq, Repr

/-- A firmware slot of the flash array (R448). -/
structure Firmware where
  bytes : Tab Byte
  deriving DecidableEq, Repr

/-- Who a certificate of the chain of slot 0 speaks for (R423, R426). -/
inductive CertRole where
  | vendorRoot | developmentRoot | modelCa | device | aliasKey
  deriving DecidableEq, Repr

/-- A certificate: whom it speaks for and the public key that it carries. -/
structure Certificate where
  role : CertRole
  key  : BitVec 384
  deriving DecidableEq, Repr

/-- An SPDM session of a requester (R423, R425): the latest nonce issued in it, and whether FINISH has opened it. -/
structure Session where
  from_ : Requester
  nonce : BitVec 384
  ready : Bool
  deriving DecidableEq, Repr

/-- The boot framebuffer (R446, R449): its size, head, connector and bits per component, and the failure codes that it shows. -/
structure BootFb where
  width  : Nat
  height : Nat
  head   : Nat
  conn   : Nat
  bits   : Nat
  codes  : Option (BitVec 3 × BitVec 3)
  deriving DecidableEq, Repr

/-- The boot framebuffer as stage 0 starts it. -/
def BootFb.start : BootFb := ⟨1024, 768, 0, 0, 8, none⟩

/-- An answer of the SPDM responder (R423). -/
inductive SpdmAnswer where
  | version
  | capabilities
  | algorithms
  | digests (d : BitVec 384)
  | certificate (chain : List Certificate)
  | challenge (nonce : BitVec 384) (sig : BitVec 768)
  | measurements (values : List (BitVec 384)) (failure : Option (BitVec 3 × BitVec 3)) (sig : BitVec 768)
  | session (nonce : BitVec 384)
  | finished
  | ended
  | tokenAccepted
  | error
  deriving DecidableEq, Repr

/-- Device-wide state (R410 to R427, R446 to R452). -/
structure Device where
  stage     : Nat
  fb        : Option BootFb            -- boot framebuffer, while it is shown
  rcvCmd    : DWord
  rcvBusy   : Bool
  rcvResult : BitVec 3
  rcvAt     : Nat                      -- 4 KiB blocks that the command in progress has done
  failA     : BitVec 3
  failB     : BitVec 3
  upload    : Tab Byte
  bootLog   : Tab (List Byte)          -- records of 64 bytes, by place in the ring
  bootNext  : Nat                      -- records written to the boot log
  slotA     : Firmware
  slotB     : Firmware
  activeSlot : Bool                    -- false A, true B
  minSvn    : BitVec 32
  complexB  : Bool                     -- complex B holds the active role
  standby   : Bool                     -- a standby complex is running
  newImage  : Bool                     -- the standby has imported the state table (R450)
  table     : Tab Nat                  -- the state table of the active complex: minor fields by number (R450)
  imported  : Tab Nat                  -- the table that the standby has imported
  updating  : Bool
  failedSlices : List Nat
  errLog2n  : Nat
  errBase   : DWord
  errProd   : BitVec 32
  errCons   : BitVec 32
  errCtl    : BitVec 12
  errLost   : BitVec 32
  errBuf    : List (BitVec 256)
  errRing   : List (BitVec 256)        -- records written to the device ring
  irqs      : List (Nat × Nat)         -- vectors raised: partition (32 for the device), vector
  security  : SecState
  debug     : DebugState
  debugPart : Option Nat
  debugged  : Bool
  debugFrom : Option Requester         -- the session in which the debug state was asked for
  sessions  : List Session             -- at most one for each requester
  pendingInvasive : Option Nat         -- INVASIVE waits for the teardowns (R427)
  dbgData   : DWord                    -- what the debugger last read
  power     : Power
  pendingPower : Option Power          -- a D3HOT or D3COLD request that waits for the teardowns (R427)
  devFuse   : Bool                     -- the fuse of a development device (R426)
  keys      : Bool                     -- device keys live
  identity  : BitVec 384
  aliasKey  : BitVec 384
  answers   : List SpdmAnswer
  ideEnded  : List Nat                 -- IDE streams that ended (R422)
  victimBase : Nat
  victimLen : Nat
  linkRetrains : Nat
  railOn    : Bool
  hot       : Bool                     -- an overtemperature is ending the partitions (R452)
  linkAnswer : List Byte               -- what the host last read over the link
  deriving DecidableEq, Repr

/-- A band team of a head (R436, R437). -/
structure Band where
  index   : Nat
  frame   : Nat
  team    : Option Nat        -- started
  killed  : Bool
  done    : Bool
  closed  : Bool              -- its deadline has passed
  intime  : Option Bool       -- once line D(b) has started: whether the band was complete before (R437)
  source  : Option Nat        -- 0 slot, 1 reprojection, 2 upscale, 3 repeat
  present : Option (List Byte) -- the present descriptor that serves it
  pose    : List Byte          -- the pose that its deadline takes
  deriving DecidableEq, Repr

/-- A Lustre head (R430 to R442). -/
structure Head where
  grant    : Option Nat
  hact     : BitVec 13
  vact     : BitVec 13
  vtotal   : BitVec 13
  lclk     : BitVec 16
  en       : Bool
  conn     : BitVec 2
  dsc      : Bool
  bpc10    : Bool
  lead     : BitVec 3
  gazeLine : BitVec 13
  poseLine : BitVec 13
  kbad     : Bool
  kernel   : DWord
  kernelDue : Bool            -- the image is still to be read: a read of it waits (R435)
  image    : Option (Header × Tab BindSlot)
  bandBase : DWord
  presentDesc : DWord
  queued   : Option DWord      -- present that waits for the frame boundary
  effect   : Option (DWord × List Byte)   -- present in effect and its descriptor
  previous : Option (DWord × List Byte)
  boundary : Option Nat       -- the frame at whose boundary a present is still to be read (R440)
  frameNew : List (Option Byte)  -- the frame of the present in effect, as read at its boundary; none for a poisoned or faulted byte
  frameOld : List (Option Byte)  -- the frame of the present before
  effectAt : Nat               -- the frame at which it took effect
  taken    : Nat               -- presents taken effect
  estimate : Option Nat        -- motion estimation under way, with its frame
  gaze     : DWord
  poseSel  : Bool
  poseValid : Bool
  poseBase : DWord
  latchBase : DWord
  mvBase   : DWord
  line     : Nat
  frame    : Nat
  fb1      : BitVec 16
  fb2      : BitVec 16
  fb3      : BitVec 16
  pdrop    : BitVec 16
  gazeLatch : Option DWord
  poseLatch : Option (List Byte × Bool)
  gazeLevel : Nat
  latched  : Nat               -- latches of this frame taken: bit 0 gaze, bit 1 pose
  latchRec : Nat               -- address of the latest latch record
  records  : List (Nat × List Byte)  -- latch records that are to be written: the frame and bytes 8 to 63 (R442)
  bands    : List Band
  lastLine : List Word         -- last line sent from a band or a path
  sent     : Bool              -- the frame has sent a line
  out      : List Word         -- the line on the connector
  stopping : Bool
  deriving DecidableEq, Repr

/-- A head at reset (R430). -/
def Head.reset : Head :=
  { grant := none, hact := 0, vact := 0, vtotal := 0, lclk := 0, en := false, conn := 0, dsc := false, bpc10 := false
    lead := 2, gazeLine := 0, poseLine := 0, kbad := false, kernel := 0, kernelDue := false, image := none, bandBase := 0, presentDesc := 0
    queued := none, effect := none, previous := none, boundary := none, frameNew := [], frameOld := [], effectAt := 0, taken := 0, estimate := none, gaze := 0, poseSel := false
    poseValid := false, poseBase := 0, latchBase := 0, mvBase := 0, line := 0, frame := 0, fb1 := 0, fb2 := 0, fb3 := 0
    pdrop := 0, gazeLatch := none, poseLatch := none, gazeLevel := 0, latched := 0, latchRec := 0, records := [], bands := []
    lastLine := [], sent := false, out := [], stopping := false }

/-- The governor (R430, R444). -/
structure Gov where
  level : Nat
  floor : Nat
  limit : Nat
  clkdn : Nat
  calm  : Nat                  -- intervals in a row below 0.9 LIMIT
  deriving DecidableEq, Repr

/-- A lane upset that the environment injects into the next vector arithmetic instruction (R35, R411): which of its
issues (0 to 2), the thread and the flipped bits. See assumption 4. -/
structure Upset where
  issue  : Nat
  thread : Nat
  flip   : Flip
  deriving DecidableEq, Repr

/-- A stored word that its SECDED check finds upset when it is read (R410). See assumption 103. -/
inductive StoreUpset where
  /-- a thread of a vector register of a wave -/
  | vreg (core slot reg thread : Nat)
  /-- a scalar register -/
  | sreg (core slot reg : Nat)
  /-- a thread of a predicate register -/
  | pred (core slot reg thread : Nat)
  /-- a 32-bit word of a scratchpad -/
  | scratch (core word : Nat)
  /-- a 32-bit word of a tile register -/
  | tile (core tile word : Nat)
  /-- an element of an accumulator -/
  | acc (core acc elem : Nat)
  deriving DecidableEq, Repr

/-- Which agent moves next: a wave issues, an event of the table happens (assumption 1), or a stored word is upset (assumption 103). -/
inductive Move where
  | issue (core slot : Nat)
  | event (i : Instr)
  | upset (u : StoreUpset) (corrected : Bool)
  deriving DecidableEq, Repr

/-- An error record that something under way is to send once the step has ended: the tag of a GDDR block differed (R415), or the walk
of an engine or of the front end met a malformed entry or left the partition's windows (R381, R382). See assumption 129. -/
inductive Due where
  | tag (block : Nat)
  | walk (sev level cls part : Nat) (va : DWord)
  deriving DecidableEq, Repr

/-- The whole machine. -/
structure State where
  agenda   : List Move
  focus    : Option WaveRef
  uid      : Nat
  freeCtr  : Nat
  tick     : Nat                   -- steps with an empty agenda: shares them out among waves and events (R24)
  lanes    : Tab Nat               -- quad clocks for which the lanes of a quad stay occupied (R26)
  upsets   : List Upset
  unchecked : List (List Byte)     -- bits that the environment flips in the next bytes on an unchecked stretch (R411)
  l1Bad    : List (Nat × LineKey)  -- L1 lines, by core, in which the environment has left uncorrectable data (R78)
  mem      : Memory
  poison   : List Nat              -- poisoned 64-bit words by physical address / 8 (R412)
  latent   : List Nat              -- 64-byte GDDR blocks poisoned beneath an LLC copy, by physical address / 64
  due      : List Due              -- error records that the end of the step sends
  sealed   : Tab Nat               -- the keys under which each 64-byte GDDR block was last written, by their stamp (R421)
  cores    : Tab Core
  clusters : Tab Cluster
  pairs    : Tab Pair
  slices   : Tab Slice
  genLines : Tab (Tab GenLine)     -- by partition, then by virtual line number
  guests   : List (Nat × Nat)      -- guest bits at the home slices: code of the line, sector (R400)
  invals   : List (Nat × Nat)      -- guest invalidations sent and not yet acknowledged
  promoted : Tab (List Byte)       -- host lines as they were copied when their page was promoted, by the number of the copy (R404)
  flashBad : List (Nat × Nat)      -- flash lines, by partition, that a failed page has delivered poisoned, for the agents that are no operation (R403)
  ncLast   : List (LineKey × Nat)  -- the cluster that last fetched a line by LDNC (R80)
  victims  : List Victim
  walks    : Tab (List Walk)       -- by sector
  buckets  : Tab Bucket
  links    : Tab Link
  channels : Tab Channel
  deliveries : Tab (List Delivery) -- by core
  parts    : Tab Partition
  launches : List Launch
  teams    : List Team
  dev      : Device
  heads    : Tab Head
  gov      : Gov
  deriving DecidableEq, Repr

/-- Why a step cannot go on. The machine of the manual never stops; these name calls of a meaning that no step makes. -/
inductive Fault where
  /-- raised by the meaning of an instruction when no wave is issuing: `step` never calls it so (safe: it allows nothing) -/
  | noIssuingFragment
  deriving DecidableEq, Repr

/-- Why an instruction has no meaning. -/
inductive Refusal where
  /-- raised by an arm of `exec` whose instruction has no meaning yet (safe: the run stops) -/
  | notModelled (mnemonic : String)
  deriving DecidableEq, Repr

/-- The device at a cold reset (R426, R446, R447). See assumption 11. -/
def Device.reset : Device :=
  { stage := 0, fb := some BootFb.start, rcvCmd := 0, rcvBusy := false, rcvResult := 0, rcvAt := 0, failA := 0, failB := 0, upload := []
    bootLog := [], bootNext := 0, slotA := ⟨[]⟩, slotB := ⟨[]⟩, activeSlot := false, minSvn := Config.fusedSvn, complexB := false, standby := false
    newImage := false, table := [], imported := [], updating := false, failedSlices := [], errLog2n := 4, errBase := 0, errProd := 0, errCons := 0
    errCtl := 0, errLost := 0, errBuf := [], errRing := [], irqs := [], security := .production, debug := .none
    debugPart := none, debugged := false, debugFrom := none, sessions := [], pendingInvasive := none, dbgData := 0
    power := .d0, pendingPower := none, devFuse := false, keys := true, identity := Config.digest Config.fusedSecret, aliasKey := 0, answers := [], ideEnded := [], victimBase := 0
    victimLen := 0, linkRetrains := 0, railOn := true, hot := false, linkAnswer := [] }

/-- The machine right after reset. See assumption 5. -/
def State.reset : State :=
  { agenda := [], focus := none, uid := 0, freeCtr := 0, tick := 0, lanes := [], upsets := [], unchecked := [], l1Bad := [], mem := [], poison := [], latent := [], due := [], sealed := [], cores := []
    clusters := [], pairs := [], slices := [], genLines := [], guests := [], invals := [], promoted := [], flashBad := [], ncLast := [], victims := [], walks := [], buckets := []
    links := [], channels := [], deliveries := [], parts := [], launches := [], teams := [], dev := Device.reset
    heads := [], gov := ⟨0, 6, 480, 0, 0⟩ }

end Sys2Proof.Machine
end

