-- ==== Sys2Proof/Machine/Mem.lean ====
section
/-!
DEFINITION. Memory below the cores: bytes in canonical form, poison marks (R412), physical windows (R374), buckets and
home slices (R396), the page-table walk (R375 to R382) and TLB look-up (R383), generated ranges (R292), and the L1 (R77).
-/
namespace Sys2Proof.Machine

/-! ### Bytes -/

/-- The byte at a physical address. See assumption 5. -/
def Memory.read : Memory → Nat → Byte
  | [], _ => Memory.unlisted
  | (k, b) :: rest, a => if a = k then b else Memory.read rest a

/-- Writes one byte, keeping the canonical form: the unlisted value removes the entry. See assumption 5. -/
def Memory.write : Memory → Nat → Byte → Memory
  | [], a, b => if b = Memory.unlisted then [] else [(a, b)]
  | (k, x) :: rest, a, b =>
    if a < k then (if b = Memory.unlisted then (k, x) :: rest else (a, b) :: (k, x) :: rest)
    else if a = k then (if b = Memory.unlisted then rest else (a, b) :: rest)
    else (k, x) :: Memory.write rest a b

/-- Writes consecutive bytes. -/
def Memory.writeBytes : Memory → Nat → List Byte → Memory
  | m, _, [] => m
  | m, a, b :: bs => Memory.writeBytes (Memory.write m a b) (a + 1) bs

/-- `n` consecutive bytes. -/
def Memory.readBytes (m : Memory) (a n : Nat) : List Byte := (List.range n).map fun i => m.read (a + i)

/-! ### Windows (R374) and small accessors -/

/-- The GDDR window. -/
def inGddr (pa : Nat) : Bool := pa < 0x1000000000
/-- The flash window. -/
def inFlash (pa : Nat) : Bool := 0x100000000000 ≤ pa && pa < 0x180000000000
/-- The part of the flash window that the array's 8 TB fill (R374). -/
def inArray (pa : Nat) : Bool := inFlash pa && decide (pa < 0x100000000000 + Config.flashBytes)
/-- The host window. -/
def inHost (pa : Nat) : Bool := 0x8000000000000 ≤ pa && pa < 0x10000000000000

/-- A core. -/
def State.core (s : State) (c : Nat) : Core := s.cores.get (Core.reset c) c
/-- Writes a core. -/
def State.setCore (s : State) (c : Nat) (x : Core) : State := { s with cores := s.cores.put c x }
/-- A cluster. -/
def State.cluster (s : State) (c : Nat) : Cluster := s.clusters.get Cluster.reset c
/-- Writes a cluster. -/
def State.setCluster (s : State) (c : Nat) (x : Cluster) : State := { s with clusters := s.clusters.put c x }
/-- A slice. -/
def State.slice (s : State) (c : Nat) : Slice := s.slices.get Slice.reset c
/-- Writes a slice. -/
def State.setSlice (s : State) (c : Nat) (x : Slice) : State := { s with slices := s.slices.put c x }
/-- Whether a partition has the turn on a core's cluster (R367). -/
def State.hasTurn (s : State) (part core : Nat) : Bool :=
  match (s.cluster (Config.clusterOf core)).turn with | some p => p == part | none => true
/-- A partition. -/
def State.part (s : State) (p : Nat) : Partition := s.parts.get Partition.reset p
/-- Writes a partition. -/
def State.setPart (s : State) (p : Nat) (x : Partition) : State := { s with parts := s.parts.put p x }
/-- A bucket of the indirection table (R397). -/
def State.bucket (s : State) (b : Nat) : Bucket := s.buckets.get ⟨0, false, false, none, 0⟩ b
/-- Walk requests of a sector. -/
def State.walksOf (s : State) (k : Nat) : List Walk := s.walks.get [] k
/-- Writes the walk requests of a sector. -/
def State.setWalks (s : State) (k : Nat) (l : List Walk) : State := { s with walks := s.walks.put k l }
/-- Takes the next stamp. See assumption 2. -/
def State.fresh (s : State) : State := { s with uid := s.uid + 1 }
/-- Takes the next argument of the free values. See assumption 3. -/
def State.draw (s : State) : State := { s with freeCtr := s.freeCtr + 1 }

/-- Raises an interrupt vector to the host: partition (32 for the device) and vector. See assumptions 30, 123. -/
def State.irq (s : State) (p vec : Nat) : State := { s with dev := { s.dev with irqs := s.dev.irqs ++ [(p, vec)] } }

/-! ### Generated ranges (R290, R292) -/

/-- The loaded generator whose range holds a virtual address (R375). -/
def State.genAt (s : State) (p : Nat) (va : Nat) : Option (Nat × Gen) :=
  (s.part p).gens.find? fun g => g.2.vbase ≤ va && va < g.2.vbase + g.2.vlen

/-- The virtual base of the fill block that holds an address. -/
def Gen.blockOf (g : Gen) (va : Nat) : Nat := g.vbase + (va - g.vbase) / g.block * g.block

/-- The state of a generated line, by virtual line number; none is INVALID (R292). -/
def State.genLine (s : State) (p line : Nat) : Option GenLine := Tab.find (s.genLines.get [] p) line

/-- Writes a generated line, or drops it. -/
def State.setGenLine (s : State) (p line : Nat) (g : Option GenLine) : State :=
  let t : Tab GenLine := s.genLines.get [] p
  { s with genLines := s.genLines.put p (match g with | some x => Tab.put t line x | none => Tab.erase t line) }

/-! ### Buckets and home slices (R396, R397) -/

/-- One number for a line key: even for a physical line, odd for a generated line of a partition. -/
def LineKey.code : LineKey → Nat
  | .phys l => 2 * l
  | .gen p l => 2 * (p + 32 * l) + 1

/-- The key of a number. -/
def LineKey.ofCode (n : Nat) : LineKey := if n % 2 = 0 then .phys (n / 2) else .gen (n / 2 % 32) (n / 64)

/-- The bits of a line key that the hash takes (R396). -/
def State.hashBits (s : State) : LineKey → Nat
  | .phys line => line % 2 ^ 45
  | .gen p line =>
    match s.genAt p (line * 128) with
    | some (_, g) => g.blockOf (line * 128) / 512 % 2 ^ 48
    | none => line * 128 / 512 % 2 ^ 48

/-- The bucket of a line for an access of a partition (R396). -/
def State.bucketOf (s : State) (p : Nat) (k : LineKey) : Nat :=
  let x := s.hashBits k
  let h := (((x % 4096) ^^^ (x / 2 ^ 12 % 4096)) ^^^ (x / 2 ^ 24 % 4096)) ^^^ (x / 2 ^ 36 % 4096)
  (s.part p).bktBase + h % (16 * ((s.part p).bktCnt + 1))

/-- The home slice of a line (R396, R397). -/
def State.home (s : State) (p : Nat) (k : LineKey) : Nat := (s.bucket (s.bucketOf p k)).slice.toNat

/-- Whether a line's bucket is being moved, so that requests wait (R399). -/
def State.moving (s : State) (p : Nat) (k : LineKey) : Bool := (s.bucket (s.bucketOf p k)).moving

/-! ### Copies in the LLC (R396) -/

/-- The number of the copy of a physical line that an access of a partition finds in the LLC: a GDDR line has one, and a flash or
host line one for each partition, in that partition's bucket. -/
def copyNo (p line : Nat) : Nat := if inGddr (line * 128) then line else line + 2 ^ 45 * (p + 1)

/-- The physical line of a copy. -/
def copyLine (n : Nat) : Nat := n % 2 ^ 45

/-- Whether physical bytes lie in the partition's GDDR range (R382). -/
def Partition.ownsGddr (p : Partition) (lo hi : Nat) : Bool :=
  decide (p.gddrBase ≤ lo) && decide (hi < p.gddrBase + p.gddrLen) && inGddr lo && inGddr hi

/-- The partition whose GDDR range holds an address. -/
def State.gddrOwner (s : State) (pa : Nat) : Option Nat := (s.parts.find? fun p => p.2.valid && p.2.ownsGddr pa pa).map (·.1)

/-- The partition in whose bucket a copy lies. -/
def State.copyPart (s : State) (n : Nat) : Nat := if n < 2 ^ 45 then (s.gddrOwner (n * 128)).getD 0 else n / 2 ^ 45 - 1

/-- The key of the copy of a line that an access of a partition finds. -/
def LineKey.copy (p : Nat) : LineKey → LineKey
  | .phys l => .phys (copyNo p l)
  | .gen q l => .gen q l

/-- The partition, and the line, of the key of a copy. -/
def State.copyOf (s : State) : LineKey → Nat × LineKey
  | .phys n => (s.copyPart n, .phys (copyLine n))
  | .gen p l => (p, .gen p l)

/-- The home slice of a copy. -/
def State.homeOf (s : State) (k : LineKey) : Nat := s.home (s.copyOf k).1 (s.copyOf k).2

/-- Counts a request of the epoch (R398). See assumption 52. -/
def State.countRequest (s : State) (p : Nat) (k : LineKey) : State :=
  let b := s.bucketOf p k
  let e := s.bucket b
  { s with buckets := s.buckets.put b { e with count := e.count + 1 } }

/-- The mark of an ordinary line in its home slice. -/
def State.llcLine (s : State) (p line : Nat) : Option Line := (s.slice (s.home p (.phys line))).lines.find (copyNo p line)

/-! ### Poison of memory (R412, R413) -/

/-- Whether an address lies on a failed channel (R413). See assumption 53. -/
def State.chanFailed (s : State) (pa : Nat) : Bool :=
  inGddr pa && s.channels.any (fun c => c.2.failed) && (s.channels.get ⟨false, 0⟩ (Config.channelOf pa % 16)).failed

/-- The stamp of the keys that protect a GDDR block now: those of its owner, or 0 for the device key. See assumption 142. -/
def State.blockKey (s : State) (block : Nat) : Nat := match s.gddrOwner (64 * block) with | some p => (s.part p).keyId | none => 0

/-- Whether the tag of a GDDR block differs under the keys in force: others wrote it last. See assumption 129. See assumption 142. -/
def State.tagBad (s : State) (block : Nat) : Bool := inGddr (64 * block) && s.sealed.get 0 block != s.blockKey block

/-- Whether the 64-bit word at a physical address reads as uncorrectable: so does one of a failed channel, and one whose block's tag
differs (R415). See assumption 53. -/
def State.wordPoisoned (s : State) (pa : Nat) : Bool := s.poison.contains (pa / 8) || s.chanFailed pa || s.tagBad (pa / 64)

/-- Marks or clears the poison of 64-bit words. -/
def State.markWords (s : State) (ws : List Nat) (bad : Bool) : State :=
  let rest := s.poison.filter fun w => !ws.contains w
  { s with poison := if bad then rest ++ ws else rest }

/-- The bytes of the physical range with their poison, as the slice holds them. -/
def State.readPhys (s : State) (pa n : Nat) : List (Byte × Bool) :=
  (List.range n).map fun i => (s.mem.read (pa + i), s.wordPoisoned (pa + i))

/-- The 64-bit value at a physical address (R4). -/
def State.readD (s : State) (pa : Nat) : BitVec 64 := BitVec.ofNat 64 (leNat (s.mem.readBytes pa 8))

/-! ### Encryption (R421) -/

/-- A GDDR block is written whole under the keys in force. See assumption 142. -/
def State.sealBlock (s : State) (block : Nat) : State :=
  if s.tagBad block then { s with sealed := s.sealed.put block (s.blockKey block) } else s

/-- A GDDR block is read: one whose tag differs is poisoned, with a record (R415), and a poisoned one is so beneath the copy that is
made of it (R412). See assumption 142. -/
def State.readBlock64 (s : State) (block : Nat) : State :=
  let ws := (List.range 8).map fun i => 8 * block + i
  let under := fun (st : State) => if st.latent.contains block then st else { st with latent := st.latent ++ [block] }
  if s.tagBad block then
    under (({ s.sealBlock block with due := s.due ++ [.tag block] } : State).markWords ws true)
  else if !s.poison.isEmpty && inGddr (64 * block) && ws.any s.poison.contains then under s
  else s

/-- The two blocks of a GDDR line are read. -/
def State.readLine128 (s : State) (line : Nat) : State := (s.readBlock64 (2 * line)).readBlock64 (2 * line + 1)

/-! ### Reservations (R104) -/

/-- The number under which a reservation names a line. -/
def LineKey.resvNo : LineKey → Nat
  | .phys l => l
  | .gen p l => 2 ^ 46 + p + 32 * l

/-- A fragment without its reservations on a line, but for that of one thread. -/
def Fragment.loseLine (f : Fragment) (line : Nat) (keep : Option Nat) : Fragment :=
  let rs := f.resv.filter fun r => r.line != some line || some r.thread == keep
  { f with resv := rs }

/-- Every fragment of a wave, changed by a function. -/
def Wave.mapFragments (w : Wave) (g : Fragment → Fragment) : Wave :=
  { w with entries := w.entries.map (Option.map g), ovf := w.ovf.map g }

/-- Every wave of a core, changed by a function. -/
def Core.mapWaves (c : Core) (g : Wave → Wave) : Core := { c with waves := c.waves.map fun e => (e.1, g e.2) }

/-- A store-conditional under way that loses its reservation; one whose LR is still to bind its value has none to lose. -/
def MemOp.loseLine (m : MemOp) (line : Nat) (keep : Option (Nat × Nat)) : MemOp :=
  match m.kind with
  | .sc dst thread addr ty data holds lr =>
    if addr / 128 = line && lr.isNone && keep ≠ some (m.wave, thread) then { m with kind := .sc dst thread addr ty data false none }
    else { m with kind := .sc dst thread addr ty data holds lr }
  | _ => m

/-- Ends the reservations of a line (R104), but for that of one thread of one wave: `keep` is its stamp and thread. See assumption 121. -/
def State.breakReservations (s : State) (line : Nat) (keep : Option (Nat × Nat)) : State :=
  let one := fun (w : Wave) => w.mapFragments fun f =>
    f.loseLine line (keep.bind fun k => if k.1 = w.uid then some k.2 else none)
  let core := fun (c : Core) => { c.mapWaves one with memq := c.memq.map fun m => m.loseLine line keep }
  { s with cores := s.cores.map fun e => (e.1, core e.2) }

/-! ### Eviction (R91, R407, R412) -/

/-- Whether a thread holds a live reservation on a line (R104). -/
def State.reservedLine (s : State) (line : Nat) : Bool :=
  s.cores.any fun e => (e.2.waves.any fun w => (w.2.entries.filterMap id ++ w.2.ovf).any fun f => f.resv.any fun r => r.line == some line) ||
    e.2.memq.any fun m => match m.kind with
      | .sc _ _ addr _ _ holds lr => holds && lr.isNone && addr / 128 == line
      | _ => false

/-- The code of a line's 4 KiB page in a partition's list of pins. -/
def LineKey.pageCode : LineKey → Nat
  | .phys l => 2 * (l / 32)
  | .gen _ l => 2 * (l / 32) + 1

/-- Whether the line of a copy is pinned (R90). -/
def State.pinnedLine (s : State) (k : LineKey) : Bool :=
  match k with
  | .phys n =>
    let c := (LineKey.phys (copyLine n)).pageCode
    if n < 2 ^ 45 then s.parts.any fun p => p.2.pins.contains c else (s.part (s.copyPart n)).pins.contains c
  | .gen p _ => (s.part p).pins.contains k.pageCode

/-- What a slice holds: a line, by the key of its copy, or the guest copy of a line of another sector's slice (R400). -/
inductive Held where
  | line (k : LineKey)
  | guest (code : Nat)
  deriving DecidableEq, Repr

/-- The code of the line that is held. -/
def Held.code : Held → Nat
  | .line k => k.code
  | .guest c => c

/-- Whether a slice may evict what it holds (R91, R407). -/
def State.evictable (s : State) (slice : Nat) : Held → Bool
  | .line (.phys n) => ((s.slice slice).lines.find n).isSome && !s.pinnedLine (.phys n) && !s.reservedLine (copyLine n)
  | .line (.gen p l) => (match s.genLine p l with
    | some g => (g.state == .valid || g.state == .zero) && s.home p (.gen p l) == slice && !s.pinnedLine (.gen p l) &&
        !s.reservedLine (LineKey.gen p l).resvNo
    | none => false)
  | .guest c => ((s.slice slice).guests.find c).isSome

/-- A dirty line reaches GDDR: a block with a poisoned word becomes poisoned whole (R412). -/
def State.writeBack (s : State) (line : Nat) : State :=
  if !inGddr (line * 128) then s
  else [2 * line, 2 * line + 1].foldl (fun (st : State) b =>
    let ws := (List.range 8).map fun i => 8 * b + i
    if ws.any st.poison.contains then st.markWords ws true else st) s

/-- A clean copy goes: the poison of the GDDR blocks beneath it shows. A dirty copy overwrites them. -/
def State.uncover (s : State) (line : Nat) (dirty : Bool) : State :=
  let mine := s.latent.filter fun b => b / 2 = line
  if mine.isEmpty then s
  else
    let s1 : State := { s with latent := s.latent.filter fun b => b / 2 ≠ line }
    if dirty then s1 else s1.markWords (mine.flatMap fun b => (List.range 8).map fun i => 8 * b + i) true

/-- Takes a copy of an ordinary line out of a slice, writing it back when it is dirty. -/
def State.dropLine (s : State) (slice n : Nat) : State :=
  match (s.slice slice).lines.find n with
  | none => s
  | some x =>
    let line := copyLine n
    let s1 := (if x.dirty then s.writeBack line else s).uncover line x.dirty
    let sl := s1.slice slice
    s1.setSlice slice { sl with lines := Tab.erase sl.lines n }

/-- Places a clean line in the victim store (R405): a free place, or that of the oldest entry. -/
def State.victimPut (s : State) (part : Nat) (k : LineKey) (data : List Byte) : State :=
  let rest := s.victims.filter fun v => !(v.part = part && v.key = k)
  let cap := s.dev.victimLen / 128
  if cap = 0 then s
  else
    let oldest := rest.foldl (fun (b : Option Victim) v => match b with
      | none => some v
      | some o => if v.age > o.age then some v else some o) none
    let kept := if rest.length < cap then rest else match oldest with | some o => rest.filter fun v => v.addr ≠ o.addr | none => rest
    let at_ := ((List.range (kept.length + 1)).find? fun i => !kept.any fun v => v.addr = s.dev.victimBase + 128 * i).getD 0
    let addr := s.dev.victimBase + 128 * at_
    let s1 : State := { s with victims := kept ++ [⟨part, k, data, 0, addr⟩] }
    if s1.poison.isEmpty then s1 else s1.markWords ((List.range 16).map fun i => addr / 8 + i) false

/-- Sets the age of an entry of the victim store (R407). -/
def State.victimAge (s : State) (part : Nat) (k : LineKey) (age : Nat) : State :=
  if s.victims.any fun v => v.part = part && v.key = k then
    { s with victims := s.victims.map fun v => if v.part = part && v.key = k then { v with age := age } else v }
  else s

/-- The guest copies of a line, by its code, leave their slices silently. -/
def State.forgetGuests (s : State) (code : Nat) : State :=
  if s.guests.any fun g => g.1 = code then
    { s with slices := s.slices.map fun e => (e.1, { e.2 with guests := Tab.erase e.2.guests code }) }
  else s

/-- A line or a guest copy leaves a slice: a generated line goes to the victim store under VKEEP (R302), and a guest copy silently; that of a
generated line goes with the line (assumption 50). -/
def State.evict (s : State) (slice : Nat) : Held → State
  | .line (.phys n) => s.dropLine slice n
  | .line (.gen p l) =>
    let s1 := s.forgetGuests (LineKey.gen p l).code
    (match s1.genLine p l, s1.genAt p (l * 128) with
    | some g, some (_, x) => (if x.vkeep then s1.victimPut p (.gen p l) g.data else s1).setGenLine p l none
    | _, _ => s1.setGenLine p l none)
  | .guest c => let sl := s.slice slice; s.setSlice slice { sl with guests := Tab.erase sl.guests c }

/-- The age of what a slice holds (R407). -/
def State.ageOf (s : State) (slice : Nat) : Held → Nat
  | .line (.phys n) => (((s.slice slice).lines.find n).map (·.age)).getD 0
  | .line (.gen p l) => ((s.genLine p l).map (·.age)).getD 0
  | .guest c => (s.slice slice).guests.get 0 c

/-- What a slice holds: the ordinary lines, then those of generated ranges, then guest copies. See assumption 50. -/
def State.heldAt (s : State) (slice : Nat) : List Held :=
  (s.slice slice).lines.map (fun e => Held.line (.phys e.1)) ++
    (s.genLines.flatMap fun e => (e.2.filter fun x => s.home e.1 (.gen e.1 x.1) == slice).map fun x => Held.line (.gen e.1 x.1)) ++
    (s.slice slice).guests.map fun e => Held.guest e.1

/-- The clusters of a partition that another valid partition also holds. -/
def State.sharedClusters (s : State) (part : Nat) : List Nat :=
  (List.range 48).filter fun c => (s.part part).clusters.getLsbD c &&
    s.parts.any fun e => e.1 ≠ part && e.2.valid && e.2.clusters.getLsbD c

/-- Lines of the context area of a partition (R392): 5,376 KiB for each cluster that it shares. -/
def State.contextCount (s : State) (part : Nat) : Nat :=
  if (s.part part).context.isSome then 43008 * (s.sharedClusters part).length else 0

/-- The bucket in which a line of a partition's context area lies. See assumption 127. -/
def State.contextBucket (s : State) (part i : Nat) : Nat :=
  (s.part part).bktBase + Config.contextBucket part i % (16 * ((s.part part).bktCnt + 1))

/-- Lines of context areas in a slice (R392): no access reaches them, and they are never evicted. See assumption 127. -/
def State.contextLines (s : State) (slice : Nat) : Nat :=
  ((s.parts.filter fun e => e.2.context.isSome).map fun e =>
    ((List.range (s.contextCount e.1)).filter fun i => (s.bucket (s.contextBucket e.1 i)).slice.toNat == slice).length).sum

/-- Whether a slice has no space left for one more line (R1, R392). See assumption 50. -/
def State.sliceFull (s : State) (slice : Nat) : Bool :=
  let sl := s.slice slice
  let bound := sl.lines.length + sl.guests.length + (s.genLines.map fun e => e.2.length).sum + (s.parts.map fun e => s.contextCount e.1).sum
  decide (Config.llcLines ≤ bound) && decide (Config.llcLines ≤ (s.heldAt slice).length + s.contextLines slice)

/-- What a slice holds in the set of a line. See assumption 50. -/
def State.setOf (s : State) (slice code : Nat) : List Held := (s.heldAt slice).filter fun h => Config.llcSet h.code == Config.llcSet code

/-- Whether the set of a line has no space left for it (R407). See assumption 50. -/
def State.setFull (s : State) (slice code : Nat) : Bool :=
  decide (8 ≤ (s.heldAt slice).length) && decide (Config.llcWays + 8 ≤ (s.setOf slice code).length)

/-- The oldest of what a slice may evict; of several, the first (R91, R407). See assumption 50. -/
def State.oldestOf (s : State) (slice : Nat) (hs : List Held) : Option Held :=
  (hs.filter (s.evictable slice)).foldl (fun (best : Option Held) h => match best with
    | none => some h
    | some b => if s.ageOf slice h > s.ageOf slice b then some h else some b) none

/-- A slice with space for one more line, by its code: when its set, or the slice, is full the oldest line there leaves. None when every line
there is excluded from eviction, so that the request waits (R407). See assumptions 50, 51. -/
def State.makeSpace? (s : State) (slice code : Nat) : Option State :=
  if s.setFull slice code then (s.oldestOf slice (s.setOf slice code)).map (s.evict slice)
  else if s.sliceFull slice then (s.oldestOf slice (s.heldAt slice)).map (s.evict slice)
  else some s

/-- Whether a line can enter a slice, or waits there because every line is excluded from eviction (R407). See assumption 51. -/
def State.hasSpace (s : State) (slice code : Nat) : Bool := (s.makeSpace? slice code).isSome

/-- Makes room in a set before the slice is full: what leaves is the oldest of its set that may (R407). See assumption 50. -/
def State.makeRoom (s : State) (slice : Nat) (victim : Option Held) : State :=
  match victim with
  | some v =>
    let set_ := s.setOf slice v.code
    if s.evictable slice v && set_.all fun x => !s.evictable slice x || decide (s.ageOf slice x ≤ s.ageOf slice v) then s.evict slice v else s
  | none => s

/-- The partition to which a copy is charged already (R91): its page's lines there are charged to one. -/
def State.chargeOf (s : State) (n : Nat) : Option Nat :=
  s.slices.findSome? fun x => (x.2.lines.find? fun e => e.1 / 32 = n / 32).map (·.2.charge)

/-- Writes the marks of a copy in a slice. -/
def State.putLine (s : State) (slice n : Nat) (x : Line) : State :=
  let sl := s.slice slice
  s.setSlice slice { sl with lines := sl.lines.put n x }

/-- Changes the marks of a copy that a slice holds; its age becomes 0 (R407). -/
def State.modLine (s : State) (slice n : Nat) (f : Line → Line) : State :=
  match (s.slice slice).lines.find n with
  | some x => s.putLine slice n { f x with age := 0 }
  | none => s

/-- A copy that a partition brings in enters a slice (R91): a GDDR line is read (R412, R415). None while there is no space for it. -/
def State.enter (s : State) (slice part n : Nat) : Option State :=
  (s.makeSpace? slice (LineKey.phys n).code).map fun s1 =>
    (if inGddr (copyLine n * 128) then s1.readLine128 (copyLine n) else s1).putLine slice n ⟨false, false, 0, (s.chargeOf n).getD part⟩

/-- Allocates or touches an ordinary line in its home slice, which counts a request (R398): its age becomes 0 (R310, R407), and a GDDR line
that comes in is read (R412, R415). An access allocates no host line (R404). A page is charged to the partition that brought it in first
(R91). None when the line must wait for space (R407). See assumption 51. -/
def State.touchLine? (s : State) (p line : Nat) (f : Line → Line) : Option State :=
  let h := s.home p (.phys line)
  let n := copyNo p line
  let s0 := s.countRequest p (.phys line)
  if ((s.slice h).lines.find n).isSome then some (s0.modLine h n f)
  else if inHost (line * 128) then some s0
  else (s0.enter h p n).map fun s1 => s1.modLine h n f

/-- As `touchLine?`, where a line that finds no space passes through. -/
def State.touchLine (s : State) (p line : Nat) (f : Line → Line) : State := (s.touchLine? p line f).getD (s.countRequest p (.phys line))

/-- Whether some lines can all be touched, one after the other. See assumption 51. -/
def State.touchable (s : State) (p : Nat) (lines : List Nat) : Bool :=
  (lines.foldl (fun (st : Option State) l => st.bind fun x => x.touchLine? p l id) (some s)).isSome

/-! ### Guest copies (R400) -/

/-- One more of a counter of 32 bits that saturates (R86, R409). -/
def sat32 (x : BitVec 32) : BitVec 32 := if x = BitVec.allOnes 32 then x else x + 1

/-- The slice that holds the guest copy of a line in a sector. -/
def State.guestSlice (s : State) (k : LineKey) (sector : Nat) : Nat := 32 * sector + s.homeOf k % 32

/-- The guest bits of the copies of a physical line, in whichever partitions' buckets. -/
def State.guestsOf (s : State) (line : Nat) : List (Nat × Nat) :=
  s.guests.filter fun g => match LineKey.ofCode g.1 with | .phys n => copyLine n == line | .gen .. => false

/-- A home slice counts an invalidation that it sends (R409). -/
def State.countInval (s : State) (code : Nat) : State :=
  let h := s.homeOf (LineKey.ofCode code)
  let sl := s.slice h
  s.setSlice h { sl with guestInv := sat32 sl.guestInv }

/-- The home slice of a line sends an invalidation to each sector that its guest bits mark, and counts it (R400, R409). -/
def State.sendInvals (s : State) (line : Nat) : State :=
  (s.guestsOf line).foldl (fun (st : State) g =>
    if st.invals.contains g then st else { st.countInval g.1 with invals := st.invals ++ [g] }) s

/-- A guest drops its copy, and its bit clears. -/
def State.clearGuest (s : State) (g : Nat × Nat) : State :=
  let h := s.guestSlice (LineKey.ofCode g.1) g.2
  let sl := s.slice h
  let s1 := if (sl.guests.find g.1).isSome then s.setSlice h { sl with guests := Tab.erase sl.guests g.1 } else s
  { s1 with guests := s1.guests.filter fun x => x ≠ g, invals := s1.invals.filter fun x => x ≠ g }

/-- Invalidates a guest copy at once: the home sends the invalidation, unless it has, and the guest acknowledges. -/
def State.dropGuest (s : State) (g : Nat × Nat) : State :=
  if !s.guests.contains g then s
  else (if s.invals.contains g then s else s.countInval g.1).clearGuest g

/-- Invalidates every guest copy of a physical line. -/
def State.dropGuests (s : State) (line : Nat) : State := (s.guestsOf line).foldl (fun (st : State) g => st.dropGuest g) s

/-- Invalidates every guest copy of one line, by the key of its copy. -/
def State.dropCopies (s : State) (k : LineKey) : State :=
  (s.guests.filter fun g => g.1 == k.code).foldl (fun (st : State) g => st.dropGuest g) s

/-! ### Writes at the slices -/

/-- The words of 8 bytes that a set of byte writes covers whole. -/
def fullWords (bs : List ByteWrite) : List Nat :=
  (bs.map fun b => b.addr / 8).eraseDups.filter fun w =>
    (List.range 8).all fun i => bs.any fun b => b.addr = w * 8 + i && b.en == 0xFF

/-- The 64-byte blocks that a set of byte writes covers whole. -/
def fullBlocks (bs : List ByteWrite) : List Nat :=
  let ws := fullWords bs
  (ws.map (· / 8)).eraseDups.filter fun b => (List.range 8).all fun i => ws.contains (8 * b + i)

/-- A line is marked for what a set of byte writes makes of it (R79); STNT makes it the first to go. -/
def State.markLine (s : State) (p line : Nat) (bs : List ByteWrite) (poisoned nt : Bool) : State :=
  let covered := (List.range 128).all fun i => bs.any fun b => b.addr = line * 128 + i && b.en == 0xFF && b.val == 0
  let s1 := s.touchLine p line fun l => { l with zero := covered && !poisoned, dirty := true }
  let n := copyNo p line
  let h := s1.home p (.phys line)
  if nt then (match (s1.slice h).lines.find n with | some x => s1.putLine h n { x with age := 7 } | none => s1) else s1

/-- Performs byte writes at their slices: bytes under their enables (R87), poison (R412), line marks (R79), and the
reservations of other threads (R104). Writes to flash never occur (R382); a failed channel discards them (R413). Copies of a
promoted host line go (R404). -/
def State.performWrites (s : State) (p : Nat) (all : List ByteWrite) (poisoned nt : Bool) (keep : Option (Nat × Nat)) : State :=
  let bs := if s.channels.isEmpty then all else all.filter fun b => !s.chanFailed b.addr
  let lines := (bs.map fun b => b.addr / 128).eraseDups
  let s0 := if s.sealed.isEmpty && s.parts.all (fun e => e.2.keyId = 0) then s
    else (fullBlocks bs).foldl (fun (st : State) b => st.sealBlock b) s
  let s1 := lines.foldl (fun (st : State) l => st.markLine p l bs poisoned nt) s0
  let s2 : State := { s1 with mem := bs.foldl (fun m b => m.write b.addr ((m.read b.addr &&& ~~~b.en) ||| (b.val &&& b.en))) s1.mem }
  let words := (bs.map fun b => b.addr / 8).eraseDups
  let s3 := if poisoned then s2.markWords words true else if s2.poison.isEmpty then s2 else s2.markWords (fullWords bs) false
  let hosts := lines.filter fun l => inHost (l * 128)
  let s4 : State := if hosts.isEmpty then s3 else { s3 with
    victims := s3.victims.filter fun v => !hosts.any fun l => v.key = .phys l
    promoted := s3.promoted.filter fun e => !hosts.contains (copyLine e.1) }
  lines.foldl (fun st line => st.breakReservations line keep) s4

/-- Writes whole bytes at a physical address; guest copies of the lines go first (R400). -/
def State.writePhys (s : State) (p pa : Nat) (bs : List Byte) (poisoned : Bool) : State :=
  let s1 := if s.guests.isEmpty then s
    else ((List.range ((pa % 128 + bs.length + 127) / 128)).map fun i => pa / 128 + i).foldl (fun (st : State) l => st.dropGuests l) s
  s1.performWrites p (bs.zipIdx.map fun (b, i) => ⟨pa + i, b, 0xFF⟩) poisoned false none

/-! ### The walk (R375 to R382) -/

/-- Whether an address is canonical (R74). -/
def canonical (va : DWord) : Bool := (va.toNat / 2 ^ 56 == 0) || (va.toNat / 2 ^ 56 == 0xFF)

/-- The kinds of access a walk checks (R378). -/
structure AccessKind where
  write : Bool
  fetch : Bool
  user  : Bool
  deriving DecidableEq, Repr

/-- What a walk finds: a leaf that permits the access, or a stop with its class (R222), whether the fault is recoverable
(R385), the level and entry at which the walk stopped, the error record's severity when the host receives one (R381,
R382), and the valid leaf that refused the access, if any. -/
inductive WalkOut where
  | leaf (e : TlbEntry)
  | stop (cls : Nat) (recover : Bool) (level : Nat) (entry : DWord) (record : Option Nat) (refused : Option TlbEntry)
  deriving DecidableEq, Repr

/-- Bytes of a page by size code (R354). -/
def pageBytes : Nat → Nat
  | 0 => 0x1000
  | 1 => 0x10000
  | 2 => 0x200000
  | _ => 0x40000000

/-- Rows and pitches of a tile leaf (R379): ROWB, N0, N1, N2, P0, P1, P2. -/
def tileFields (l : BitVec 256) : Nat × Nat × Nat × Nat × Nat × Nat × Nat :=
  let x := l.toNat
  (bitsOf x 85 64, bitsOf x 102 86 + 1, bitsOf x 119 103 + 1, bitsOf x 144 128 + 1, bitsOf x 191 160, bitsOf x 223 192,
    bitsOf x 255 224)

/-- The base of a leaf. -/
def leafBase (l : BitVec 256) : Nat := bitsOf l.toNat 51 12 * 4096

/-- Whether a leaf is a tile region. -/
def isTile (l : BitVec 256) : Bool := bitOf l.toNat 2

/-- An address that exists: a flash byte beyond the array reads as a fault of class NOMAP (R374). -/
def existing (pa : Nat) : Option Nat := if inFlash pa && !inArray pa then none else some pa

/-- The physical address of a byte under a leaf (R380); none beyond a tile region's rows or beyond the flash array. -/
def TlbEntry.phys (e : TlbEntry) (va : Nat) : Option Nat :=
  let o := va - e.base
  if isTile e.leaf then
    let (rowb, n0, n1, n2, p0, p1, p2) := tileFields e.leaf
    if o ≥ rowb * n0 * n1 * n2 then none
    else
      let r := o / rowb
      existing (leafBase e.leaf + o % rowb + 16 * (r % n0 * p0 + r / n0 % n1 * p1 + r / (n0 * n1) * p2))
  else existing (leafBase e.leaf + o)

/-- Whether a tile leaf keeps the rules of R379. -/
def tileOk (l : BitVec 256) : Bool :=
  let x := l.toNat
  let (rowb, n0, n1, n2, p0, p1, p2) := tileFields l
  rowb % 16 == 0 && 16 ≤ rowb && rowb ≤ 2 ^ 21 && bitsOf x 127 120 == 0 && bitsOf x 159 145 == 0 &&
    rowb * n0 * n1 * n2 ≤ 0x200000 && (n0 != 1 || p0 == 0) && (n1 != 1 || p1 == 0) && (n2 != 1 || p2 == 0) &&
    !bitOf x 4 && !bitOf x 7

/-- The last physical byte that a leaf of a size maps (R382). -/
def leafLast (l : BitVec 256) (size : Nat) : Nat :=
  if isTile l then
    let (rowb, n0, n1, n2, p0, p1, p2) := tileFields l
    leafBase l + rowb - 1 + 16 * ((n0 - 1) * p0 + (n1 - 1) * p1 + (n2 - 1) * p2)
  else leafBase l + pageBytes size - 1

/-- Whether a leaf lies in the partition's windows (R382). -/
def Partition.ownsLeaf (p : Partition) (l : BitVec 256) (size : Nat) : Bool :=
  let lo := leafBase l
  let hi := leafLast l size
  p.ownsGddr lo hi ||
    (inFlash lo && inFlash hi && decide (p.flashBase ≤ lo) && decide (hi < p.flashBase + p.flashLen) && !bitOf l.toNat 3) ||
    (inHost lo && inHost hi)

/-- Checks a leaf for isolation (R382) and permission (R378). A refused write with SVC set is recoverable (R385). See assumption 57. -/
def checkLeaf (p : Partition) (k : AccessKind) (e : TlbEntry) (level : Nat) : WalkOut :=
  let x := e.leaf.toNat
  let ent : DWord := BitVec.ofNat 64 x
  if !p.ownsLeaf e.leaf e.size then .stop 2 false level ent (some 3) (some e)
  else if k.write && !bitOf x 3 && bitOf x 8 then .stop 2 true level ent none (some e)
  else if (k.user && !bitOf x 5) || (k.fetch && !bitOf x 4) then .stop 2 false level ent none (some e)
  else if k.write && !bitOf x 3 then .stop 2 false level ent none (some e)
  else .leaf e

/-- What the group of 16 level-0 entries around an index makes of an access (R376, R377): none when no entry of it is a CONT entry, else the leaf
of its 64 KiB page. When the group breaks the rule, one of its CONT entries, picked freely, gives the translation. A page whose base has
address bits below its size is malformed, and so is an entry that is no leaf. See assumption 122. -/
def contLeaf (s : State) (table idx : Nat) : Option (Option (BitVec 64)) :=
  let g := idx / 16 * 16
  let es := (List.range 16).map fun i => s.readD (table + 8 * (g + i))
  let cs := es.zipIdx.filter fun (e, _) => bitOf e.toNat 7 && bitOf e.toNat 0
  if cs.isEmpty then none
  else
    let first := es.getD 0 0
    let good := es.zipIdx.all fun (e, i) => bitOf e.toNat 7 && bitsOf e.toNat 11 0 == bitsOf first.toNat 11 0 &&
      bitsOf e.toNat 51 12 == bitsOf first.toNat 51 12 + i
    let pick := if good then (first, 0) else cs.getD (Config.contPick s.freeCtr % cs.length) (0, 0)
    let x := pick.1.toNat
    let base := (bitsOf x 51 12 * 4096 + 2 ^ 52 - 4096 * pick.2) % 2 ^ 52
    if base % 65536 ≠ 0 || !bitOf x 1 || bitOf x 2 || bitsOf x 11 9 ≠ 0 then some none
    else some (some (BitVec.ofNat 64 (bitsOf x 63 52 * 2 ^ 52 + base + x % 4096)))

/-- Walks from a table of a level down to a leaf (R375, R381): the level is the index of the entry read. See assumption 57. -/
def walkAt (s : State) (p : Partition) (k : AccessKind) (part va : Nat) : Nat → Nat → WalkOut
  | level, table =>
    let idx := va / 2 ^ (12 + 9 * level) % 512
    let addr := table + 8 * idx
    if !p.ownsGddr table (table + 4095) then .stop 2 false level 0 (some 3) none
    else
      let e := s.readD addr
      let x := e.toNat
      let bad := WalkOut.stop 1 false level e (some 2) none
      let group := if level = 0 then contLeaf s table idx else none
      if s.wordPoisoned addr then .stop 6 false level e none none
      else if group.isSome then (match group with
        | some (some l) => checkLeaf p k ⟨part, va / 2 ^ 16 * 2 ^ 16, 1, l.setWidth 256⟩ 0
        | _ => bad)
      else if level = 1 && idx % 4 ≠ 0 && s.readD (table + 8 * (idx / 4 * 4)) &&& 7 == 7 then .stop 1 false level e none none
      else if !bitOf x 0 then .stop 1 (bitOf x 8) level e none none
      else if bitsOf x 11 9 ≠ 0 then bad
      else if bitOf x 1 then
        if bitOf x 2 then
          let l : BitVec 256 := BitVec.ofNat 256 (leNat (s.mem.readBytes addr 32))
          if level ≠ 1 || idx % 4 ≠ 0 || !tileOk l then bad
          else checkLeaf p k ⟨part, va / 2 ^ 21 * 2 ^ 21, 2, l⟩ level
        else
          match level with
          | 0 => checkLeaf p k ⟨part, va / 2 ^ 12 * 2 ^ 12, 0, e.setWidth 256⟩ 0
          | 1 =>
            if bitOf x 7 || bitsOf x 20 12 ≠ 0 then bad
            else checkLeaf p k ⟨part, va / 2 ^ 21 * 2 ^ 21, 2, e.setWidth 256⟩ 1
          | 2 =>
            if bitOf x 7 || bitsOf x 29 12 ≠ 0 then bad
            else checkLeaf p k ⟨part, va / 2 ^ 30 * 2 ^ 30, 3, e.setWidth 256⟩ 2
          | _ => bad
      else if bitOf x 2 || bitsOf x 7 3 ≠ 0 then bad
      else
        match level with
        | 0 => bad
        | l + 1 => walkAt s p k part va l (bitsOf x 51 12 * 4096)

/-- Walks the tables of a partition for an address (R375). Translation off faults NOMAP (R386). See assumption 57. -/
def State.walk (s : State) (part : Nat) (k : AccessKind) (va : DWord) : WalkOut :=
  let p := s.part part
  if !bitOf p.ptRoot.toNat 0 then .stop 1 false 4 0 none none
  else walkAt s p k part (va.toNat % 2 ^ 57) 4 (bitsOf p.ptRoot.toNat 51 12 * 4096)

/-! ### Look-up -/

/-- What the translation of one address answers. -/
inductive Look where
  /-- a physical address, with the entry that gave it -/
  | ok (pa : Nat) (e : TlbEntry)
  /-- an address of a loaded generated range -/
  | gen (index : Nat)
  /-- an unrecoverable fault of a class of R222 -/
  | fault (cls : Nat)
  /-- a walk is needed -/
  | miss
  deriving DecidableEq, Repr

/-- The TLB entry that holds an address. -/
def tlbFind (l : List TlbEntry) (part va : Nat) : Option TlbEntry :=
  l.find? fun e => e.part = part && e.base ≤ va && va < e.base + pageBytes e.size

/-- Whether a cached leaf permits an access (R378); one that refuses is walked again, which decides. -/
def TlbEntry.permits (e : TlbEntry) (k : AccessKind) : Bool :=
  (!k.user || bitOf e.leaf.toNat 5) && (!k.fetch || bitOf e.leaf.toNat 4) && (!k.write || bitOf e.leaf.toNat 3)

/-- The steps of R375 up to the TLBs, for an access of a core. -/
def State.lookup (s : State) (core part : Nat) (k : AccessKind) (va : DWord) : Look :=
  let v := va.toNat % 2 ^ 57
  if !canonical va then .fault 4
  else match s.genAt part va.toNat with
    | some (i, _) => .gen i
    | none =>
      match tlbFind (s.core core).tlb part v, tlbFind (s.cluster (Config.clusterOf core)).tlb part v with
      | some e, _ => if e.permits k then (match e.phys v with | some pa => .ok pa e | none => .fault 1) else .miss
      | none, some e => if e.permits k then (match e.phys v with | some pa => .ok pa e | none => .fault 1) else .miss
      | none, none => .miss

/-- The steps of R375 with the walk at once: for engines, the front end and walkers of a graph. A recoverable fault
answers `miss`. See assumption 55. -/
def State.lookNow (s : State) (core part : Nat) (k : AccessKind) (va : DWord) : Look :=
  match s.lookup core part k va with
  | .miss =>
    match s.walk part k va with
    | .leaf e => (match e.phys (va.toNat % 2 ^ 57) with | some pa => .ok pa e | none => .fault 1)
    | .stop cls recover _ _ _ _ => if recover then .miss else .fault cls
  | r => r

/-- The lines of the table entries that a walk from a table of a level reads. -/
def walkPath (s : State) (va : Nat) : Nat → Nat → List Nat
  | level, table =>
    let addr := table + 8 * (va / 2 ^ (12 + 9 * level) % 512)
    let x := (s.readD addr).toNat
    addr / 128 :: match level with
      | 0 => []
      | l + 1 => if x % 4 = 1 then walkPath s va l (bitsOf x 51 12 * 4096) else []

/-- The GDDR lines that a walk of an address reads. -/
def State.walkLines (s : State) (part : Nat) (va : DWord) : List Nat :=
  let p := s.part part
  if !bitOf p.ptRoot.toNat 0 then []
  else (walkPath s (va.toNat % 2 ^ 57) 4 (bitsOf p.ptRoot.toNat 51 12 * 4096)).filter fun l => inGddr (l * 128)

/-- Whether a walk waits: a bucket of a line that it reads is being moved (R399), or such a line finds no space (R407). See assumption 54. -/
def State.walkWaits (s : State) (part : Nat) (va : DWord) : Bool :=
  let ls := s.walkLines part va
  ls.any (fun l => s.moving part (.phys l)) || !s.touchable part ls

/-- The lines that a walk reads are in the LLC afterwards (R310). See assumption 54. -/
def State.touchWalk (s : State) (part : Nat) (va : DWord) : State := (s.walkLines part va).foldl (fun st l => st.touchLine part l id) s

/-- The error record that a walk's end calls for, to be sent once the step has ended (R381, R382). -/
def State.noteWalk (s : State) (part : Nat) (k : AccessKind) (va : DWord) : State :=
  match s.walk part k va with
  | .stop cls false level _ (some sev) _ => { s with due := s.due ++ [.walk sev level cls part va] }
  | _ => s

/-- Puts an entry into a TLB of a capacity, oldest out. See assumption 49. -/
def tlbInsert (cap : Nat) (l : List TlbEntry) (e : TlbEntry) : List TlbEntry :=
  let rest := l.filter fun x => !(x.part = e.part && x.base = e.base && x.size = e.size)
  (e :: rest).take cap

/-- Fills the core's and the cluster's TLB (R383). See assumption 49. -/
def State.fillTlb (s : State) (core : Nat) (e : TlbEntry) : State :=
  let c := s.core core
  let s1 := s.setCore core { c with tlb := tlbInsert 64 c.tlb e }
  let k := Config.clusterOf core
  let cl := s1.cluster k
  s1.setCluster k { cl with tlb := tlbInsert 2048 cl.tlb e }

/-- Adds a walk request unless its requester already has one for the page and kind (R384). -/
def State.requestWalk (s : State) (core part req agent : Nat) (k : AccessKind) (va : DWord) : State :=
  let sec := Config.sectorOf core
  let ws := s.walksOf sec
  let page := va.toNat % 2 ^ 57 / 4096
  if ws.any fun w => w.req = req && w.page = page && w.write = k.write && w.fetch = k.fetch then s
  else s.setWalks sec (ws ++ [⟨core, req, part, page, va, k.write, k.fetch, k.user, agent, none, false, none, none⟩])

/-- What a requester's walk of a page has come to: a fault that is to be delivered, or a wait on a token or for ring space (R387, R388).
An access with neither is translated as usual. See assumption 55. -/
def State.walkHeld (s : State) (core req : Nat) (k : AccessKind) (va : DWord) : Option Look :=
  match (s.walksOf (Config.sectorOf core)).find? fun w =>
    w.req = req && w.page = va.toNat % 2 ^ 57 / 4096 && w.write = k.write && w.fetch = k.fetch with
  | some w => (match w.result with
    | some c => some (.fault c)
    | none => if w.token.isSome || w.full then some .miss else none)
  | none => none

/-- Drops the requests of a requester. -/
def State.dropWalks (s : State) (core req : Nat) : State :=
  let sec := Config.sectorOf core
  if (s.walksOf sec).any fun w => w.req = req then s.setWalks sec ((s.walksOf sec).filter fun w => w.req ≠ req) else s

/-- Translation for a requester: as `lookup`, where a finished walk that faulted gives its class, and one that waits on a token
goes on waiting (R388). -/
def State.lookFor (s : State) (core part req : Nat) (k : AccessKind) (va : DWord) : Look :=
  (s.walkHeld core req k va).getD (s.lookup core part k va)

/-! ### The L1 (R77, R78) -/

/-- The copy of a line in a core's L1. -/
def Core.l1Find (c : Core) (k : LineKey) : Option L1Line := c.l1.find? fun l => l.key = k

/-- The copy that a load may hit (R77, R81): none that a peer has forwarded, unless LDNC reads a line eligible for that; then none that is
older than the wave's last acquire or fence at cluster scope or wider. `peer` says whether it does. -/
def Core.l1Hit (c : Core) (peer : Bool) (fenced : Nat) (k : LineKey) : Option L1Line :=
  (c.l1Find k).filter fun l => if peer then decide (fenced ≤ l.at_) else !l.nc

/-- Brings a line into the L1; at capacity one line, picked freely, leaves. See assumption 49. -/
def Core.l1Fill (c : Core) (core free : Nat) (l : L1Line) : Core :=
  let rest := c.l1.filter fun x => x.key ≠ l.key
  let kept := if rest.length < Config.l1Lines core then rest else rest.eraseIdx (Config.evictPick free % rest.length)
  { c with l1 := l :: kept }

/-- Drops a line from the L1. -/
def Core.l1Drop (c : Core) (k : LineKey) : Core := { c with l1 := c.l1.filter fun x => x.key ≠ k }

/-- Invalidates the whole L1. -/
def Core.l1Clear (c : Core) : Core := { c with l1 := [] }

/-- An L1 line after a store to it. -/
def L1Line.update (l : L1Line) (bs : List ByteWrite) : L1Line :=
  match l.key with
  | .phys line =>
    let byte := fun (x : Byte × Nat) => bs.foldl (init := x.1) fun y b =>
      if b.addr = line * 128 + x.2 then (y &&& ~~~b.en) ||| (b.val &&& b.en) else y
    { l with data := l.data.zipIdx.map byte }
  | .gen _ _ => l

/-- Updates the enabled bytes of present lines when a store is sent (R77). See assumption 42. -/
def Core.l1Update (c : Core) (bs : List ByteWrite) : Core := { c with l1 := c.l1.map fun l => l.update bs }

end Sys2Proof.Machine
end

