-- ==== Sys2Proof/Machine/Records.lean ====
section
/-!
DEFINITION. Error records (R417, R418) and wave handles (R355).
-/
namespace Sys2Proof.Machine

/-- An error record before its number is known (R417). See assumption 101. -/
structure ErrRec where
  source : Nat
  sev    : Nat
  unit   : Nat := 0
  cls    : Nat := 0
  lane   : Nat := 0
  part   : Option Nat := none
  handle : Nat := 0
  addr   : Nat := 0
  info   : Nat := 0
  issuer : Option Nat := none   -- the handle that a WKILL's record names (R355)
  at_    : Option Nat := none   -- the core that a wave's record names where it is not the wave's own (R420)
  deriving DecidableEq, Repr

/-- The 32 bytes of a record with its number in a ring (R417). See assumption 101. -/
def ErrRec.bits (r : ErrRec) (seq : Nat) : BitVec 256 :=
  BitVec.ofNat 256 (seq % 2 ^ 32 + r.source * 2 ^ 32 + r.sev * 2 ^ 40 + r.unit % 2 ^ 16 * 2 ^ 48 + r.cls % 256 * 2 ^ 64 +
    r.lane % 128 * 2 ^ 72 + (r.part.getD 0xFFFF) * 2 ^ 80 + r.handle % 2 ^ 32 * 2 ^ 96 + r.addr % 2 ^ 64 * 2 ^ 128 +
    r.info % 2 ^ 64 * 2 ^ 192)

/-- A record's bits with another number. -/
def renumber (x : BitVec 256) (seq : Nat) : BitVec 256 := BitVec.ofNat 256 (x.toNat / 2 ^ 32 * 2 ^ 32 + seq % 2 ^ 32)

/-- The lowest core of a partition, whose TLBs serve accesses of no particular core. -/
def Partition.firstCore (p : Partition) : Nat :=
  match (List.range 48).find? fun c => p.clusters.getLsbD c with
  | some c => 4 * c
  | none => 0

/-- The cores of a partition, ascending. -/
def Partition.cores (p : Partition) : List Nat :=
  (List.range 48).flatMap fun c => if p.clusters.getLsbD c then [4 * c, 4 * c + 1, 4 * c + 2, 4 * c + 3] else []

/-- Whether a core belongs to a partition. -/
def Partition.hasCore (p : Partition) (core : Nat) : Bool := core < 192 && p.clusters.getLsbD (core / 4)

/-- Writes bytes at a virtual address of a partition at supervisor level; none when the address does not translate. See assumption 14. -/
def State.writeVirt (s : State) (part : Nat) (va : DWord) (bs : List Byte) : Option State :=
  match s.lookNow (s.part part).firstCore part ⟨true, false, false⟩ va with
  | .ok pa _ => if s.moving part (.phys (pa / 128)) then none else some ((s.touchWalk part va).writePhys part pa bs false)
  | _ => none

/-- Adds a record to the device ring, its buffer, or LOST (R418). The ring lies in host memory (assumption 14). -/
def State.deviceRecord (s : State) (r : BitVec 256) : State :=
  let d := s.dev
  if (d.errProd - d.errCons).toNat < 2 ^ d.errLog2n then
    let x := renumber r d.errProd.toNat
    let pa := 0x8000000000000 + d.errBase.toNat % 2 ^ 51 + 32 * (d.errProd.toNat % 2 ^ d.errLog2n)
    let s1 : State := { s with
      mem := s.mem.writeBytes pa (leBytes 32 x.toNat)
      dev := { d with errRing := d.errRing ++ [x], errProd := d.errProd + 1 } }
    if bitOf d.errCtl.toNat 11 then s1.irq 32 (d.errCtl.toNat % 2048) else s1
  else if d.errBuf.length < 64 then { s with dev := { d with errBuf := d.errBuf ++ [r] } }
  else { s with dev := { d with errLost := if d.errLost = BitVec.allOnes 32 then d.errLost else d.errLost + 1 } }

/-- What becomes of a write to a partition's error ring. -/
inductive RingOut where
  | written (s : State)
  | wait (s : State)      -- its bucket is being moved, or a recoverable fault is to be served (R385)
  | lost
  deriving DecidableEq, Repr

/-- The stamp under which the records of a partition's ring ask for walks. See assumption 14. -/
def ringReq : Nat := 2 ^ 23

/-- Writes a record at the address in a partition's error ring where it belongs. See assumption 14. -/
def State.writeRing (s : State) (part : Nat) (va : DWord) (bs : List Byte) : RingOut :=
  let core := (s.part part).firstCore
  let k : AccessKind := ⟨true, false, false⟩
  match (s.walkHeld core ringReq k va).getD (s.lookNow core part k va) with
  | .ok pa _ =>
    if s.moving part (.phys (pa / 128)) || s.walkWaits part va then .wait s
    else .written (((s.dropWalks core ringReq).touchWalk part va).writePhys part pa bs false)
  | .miss => .wait (s.requestWalk core part ringReq 4 k va)
  | _ => .lost

/-- Adds a record to a partition's ring, its buffer, or LOST (R418): behind the records that its buffer holds. A ring address that does not
translate loses the record, counted in LOST, and one whose fault is still to be served holds it in the buffer (assumption 14). -/
def State.partRecord (s : State) (part : Nat) (r : BitVec 256) : State :=
  let p := s.part part
  let lost := fun (st : State) => st.setPart part { st.part part with
    errLost := if p.errLost = BitVec.allOnes 32 then p.errLost else p.errLost + 1 }
  let hold := fun (st : State) => if p.errBuf.length < 64 then st.setPart part { st.part part with errBuf := p.errBuf ++ [r] } else lost st
  if p.errBuf.isEmpty && decide ((p.errProd - p.errCons).toNat < 2 ^ p.errLog2n) then
    let x := renumber r p.errProd.toNat
    let va : DWord := p.errBase + BitVec.ofNat 64 (32 * (p.errProd.toNat % 2 ^ p.errLog2n))
    match s.writeRing part va (leBytes 32 x.toNat) with
    | .written s1 =>
      let s2 := s1.setPart part { s1.part part with errProd := p.errProd + 1 }
      if bitOf p.errCtl.toNat 11 then s2.irq part (p.errCtl.toNat % 2048) else s2
    | .wait s1 => hold s1
    | .lost => lost (s.dropWalks p.firstCore ringReq)
  else hold s

/-- Sends an error record to the device ring and to the ring of the partition it names (R418). -/
def State.record (s : State) (r : ErrRec) : State :=
  let s1 := s.deviceRecord (r.bits 0)
  match r.part with
  | some p => s1.partRecord p (r.bits 0)
  | none => s1

/-- Writes the buffered records that now fit, oldest first: called when CONS advances (R418). See assumption 14. -/
def State.drainDevice (s : State) : State :=
  let buf := s.dev.errBuf
  buf.foldl (fun st r => st.deviceRecord r) { s with dev := { s.dev with errBuf := [] } }

/-- The same for a partition's ring. See assumption 14. -/
def State.drainPart (s : State) (part : Nat) : State :=
  let p := s.part part
  p.errBuf.foldl (fun st r => st.partRecord part r) (s.setPart part { p with errBuf := [] })

/-- Sends the error records that a step has left due, and the buffered ones that wait for more than room. See assumption 129. See assumptions 14, 101. -/
def State.sendDue (s : State) : State :=
  let one := fun (st : State) (d : Due) => match d with
    | .tag block => st.record { source := 7, sev := 1, unit := Config.channelOf (64 * block) % 16, part := st.gddrOwner (64 * block), addr := 64 * block }
    | .walk sev level cls part va => st.record { source := 16, sev := sev, unit := level, cls := cls, part := some part, addr := va.toNat }
  let s1 := if s.due.isEmpty then s else s.due.foldl one { s with due := [] }
  ((s1.parts.filter fun e => !e.2.errBuf.isEmpty && decide ((e.2.errProd - e.2.errCons).toNat < 2 ^ e.2.errLog2n)).map (·.1)).foldl
    (fun (st : State) p => st.drainPart p) s1

/-- The handle of the wave in a slot (R355). -/
def State.handleOf (s : State) (core slot : Nat) : Nat :=
  core + slot / 6 * 2 ^ 8 + slot % 6 * 2 ^ 10 + ((s.core core).gens.get 0 slot).toNat * 2 ^ 16

end Sys2Proof.Machine
end

