-- ==== Sys2Proof/Machine/Generated.lean ====
section
/-!
DEFINITION. Generated memory (R289 to R304): the lines a load awaits, effective priority (R25, R297), opening a fill
task (R294), miss slots (R293) and committing lines (R301, R307).
-/
namespace Sys2Proof

/-- Register number `n` of a class plus an index. -/
def Opnd.plus (o : Opnd) (i : Nat) : Opnd :=
  match o with
  | .v n => .v (n + BitVec.ofNat 8 i)
  | .s n => .s (n + BitVec.ofNat 6 i)
  | x => x

end Sys2Proof

namespace Sys2Proof.Machine

/-! ### Registers that an operation writes -/

/-- The registers that an access of a type and count takes: pairs of vector registers for a 64-bit type (R203). -/
def accessRegs (o : Opnd) (ty : Ty) (cnt : Nat) : List Opnd :=
  match o with
  | .v _ => (List.range (if ty.is64 then 2 * cnt else cnt)).map o.plus
  | .s _ => (List.range cnt).map o.plus
  | _ => []

/-- Bytes of memory that one register of an access takes (R203): element size for ONE. -/
def regBytes (ty : Ty) (one : Bool) : Nat :=
  match ty with
  | .b32 | .s32 | .n32 | .f32 => 4
  | .s64 | .n64 => 8
  | .s8 | .n8 | .e4m3 | .e5m2 => if one then 1 else 4
  | .s16 | .n16 | .f16 | .bf16 => if one then 2 else 4
  | .e2m1 | .cb4 => if one then 1 else 4
  | .e3m2 | .e2m3 => 3

/-- The registers that a pending operation still has to write. -/
def MemKind.dsts : MemKind → List Opnd
  | .load dst ty _ cnt _ _ _ _ => accessRegs dst ty cnt.num
  | .acq dst _ _ => accessRegs dst .n64 1
  | .value dst _ _ _ _ _ _ _ => accessRegs dst .b32 1
  | .atom dst _ _ ty _ _ _ _ _ _ _ => accessRegs dst ty 1
  | .sc dst _ _ _ _ _ _ => accessRegs dst .b32 1
  | .task dst _ => accessRegs dst .n64 1
  | .atoms dst _ _ _ ty _ _ => accessRegs dst ty 1
  | .node dst tri _ _ _ _ _ => accessRegs dst .b32 (if tri then 4 else 8)
  | .vxm dst _ _ _ _ _ _ _ _ => accessRegs dst .b32 8
  | .ldmc dst _ _ _ _ _ _ _ => accessRegs dst .b32 1
  | .store .. | .remote .. => []

/-- Virtual line numbers that `n` bytes at an address touch. -/
def linesOf (va : DWord) (n : Nat) : List Nat :=
  (List.range ((va.toNat % 128 + n + 127) / 128)).map fun i => va.toNat / 128 + i

/-- The byte ranges that a pending operation reads from global memory: address and length. -/
def MemKind.reads : MemKind → List (DWord × Nat)
  | .load _ ty one cnt _ _ _ accs => accs.filterMap fun a => a.2.map fun v => (v, regBytes ty one * cnt.num)
  | .acq _ a _ => [(a, 8)]
  | .node _ tri _ rays _ _ _ => rays.filterMap fun r => r.2.1.map fun v => (v, if tri then 48 else 128)
  | .vxm _ _ _ accs _ _ _ _ _ => accs.filterMap fun r => r.2.1.map fun v => (v, 256)
  | _ => []

/-- The byte ranges whose lines a pending operation's register awaits (R296): also the source of an LDMC. -/
def MemKind.awaits : MemKind → List (DWord × Nat)
  | .ldmc _ src len .. => [(src, len)]
  | k => k.reads

/-! ### Effective priority (R25, R296, R297) -/

/-- The empty registers on which fragments of a wave are parked. -/
def Wave.parkedOn (w : Wave) : List Opnd :=
  (w.entries.filterMap id ++ w.ovf).flatMap fun f => match f.park with | some (.regs xs) => xs | _ => []

/-- The lowest-addressed FILLING line that a wave parked on empty registers awaits, whichever of its fragments parks (R296). -/
def State.waitLine (s : State) (core : Nat) (w : Wave) : Option Nat :=
  let xs := w.parkedOn
  if xs.isEmpty then none
  else
    let ops := (s.core core).memq.filter fun m => m.wave = w.uid && m.kind.dsts.any fun d => xs.contains d
    let lines := (ops.flatMap fun m => m.kind.awaits).flatMap fun r => linesOf r.1 r.2
    let filling := lines.filter fun l => match s.genLine w.part l with | some g => g.state == .filling | none => false
    filling.foldl (fun best l => match best with | none => some l | some b => some (min b l)) none

/-- A line lies in a task's block. -/
def State.taskHasLine (s : State) (t : Task) (line : Nat) : Bool :=
  match (s.part t.part).gens.find t.gen with
  | some g => t.block ≤ line * 128 && line * 128 < t.block + g.block
  | none => false

/-- Effective priority of a wave, following wait lists to a depth (R25, R297). -/
def State.effPrioTo (s : State) : Nat → Wave → Nat
  | 0, w => w.prio
  | n + 1, w =>
    match w.held with
    | none => w.prio
    | some id =>
      match (s.part w.part).tasks.find? fun t => t.id = id with
      | none => w.prio
      | some t =>
        s.cores.foldl (fun best (c, x) => x.waves.foldl (fun b (_, v) =>
          if v.part = t.part then
            match s.waitLine c v with
            | some l => if s.taskHasLine t l then max b (State.effPrioTo s n v) else b
            | none => b
          else b) best) w.prio

/-- Effective priority (R25): chains of wait lists are at most three long (R298). -/
def State.effPrio (s : State) (w : Wave) : Nat := s.effPrioTo 3 w

/-- Inherited priority of a task (R297). -/
def State.taskPrio (s : State) (t : Task) : Nat :=
  s.cores.foldl (fun best (c, x) => x.waves.foldl (fun b (_, v) =>
    if v.part = t.part then
      match s.waitLine c v with
      | some l => if s.taskHasLine t l then max b (s.effPrio v) else b
      | none => b
    else b) best) 0

/-! ### Miss slots and fill tasks -/

/-- Slots of a class (R293). -/
def missSlots : Nat → Nat
  | 0 => 48
  | 1 => 12
  | _ => 4

/-- Whether a slice has a free slot of a class. -/
def Slice.hasSlot (sl : Slice) (d : Nat) : Bool := (sl.slots.filter fun x => x.cls = d).length < missSlots d

/-- Whether a slice holds a slot for something. -/
def Slice.holdsSlot (sl : Slice) (key : SlotKey) : Bool := sl.slots.any fun x => x.key = key

/-- Takes a slot. -/
def State.takeSlot (s : State) (slice : Nat) (x : MissSlot) : State :=
  let sl := s.slice slice
  s.setSlice slice { sl with slots := sl.slots ++ [x] }

/-- Frees the slot of a key. -/
def State.freeSlot (s : State) (slice : Nat) (key : SlotKey) : State :=
  let sl := s.slice slice
  s.setSlice slice { sl with slots := sl.slots.filter fun x => x.key ≠ key }

/-- Asks a slice for a slot: it is granted at once when the class has one, no earlier request of the class waits and the slice
has space for the lines; otherwise the request waits (R293, R407). `grant` is what the slot is taken for: none while there is no space. -/
def State.askSlot (s : State) (slice : Nat) (me : MissWait) (grant : State → Option State) : State :=
  let sl := s.slice slice
  let wait := if sl.waiting.contains me then s else s.setSlice slice { sl with waiting := sl.waiting ++ [me] }
  if sl.hasSlot me.depth && !(sl.waiting.any fun w => w.depth = me.depth) then (grant s).getD wait else wait

/-- Takes a slot for the read of a line from a lower tier, by the key of its copy, when the slice has space for it (R293, R407). -/
def State.readSlot (s : State) (slice : Nat) (x : MissSlot) (copy : LineKey) : Option State :=
  if s.hasSpace slice copy.code then some (s.takeSlot slice x) else none

/-- The lines of a block, by virtual line number. -/
def blockLines (block bytes : Nat) : List Nat := (List.range (bytes / 128)).map fun i => block / 128 + i

/-- The loads under way in a partition that read one of some lines, and so wait on a FILLING line, are marked (R107). -/
def State.markWaiting (s : State) (part : Nat) (ls : List Nat) : State :=
  let reads := fun (m : MemOp) => m.kind.reads.any fun r => (linesOf r.1 r.2).any ls.contains
  let one := fun (c : Core) => { c with memq := c.memq.map fun m =>
    if (match c.waves.find m.slot with | some w => w.uid = m.wave && w.part = part | none => false) && reads m then { m with waited := true } else m }
  { s with cores := s.cores.map fun e => (e.1, one e.2) }

/-- A line of a generated range enters its slice in a state; none while the slice has no space for it (R407). -/
def State.placeGen (s : State) (slice part line : Nat) (x : GenLine) : Option State :=
  (s.makeSpace? slice (LineKey.gen part line).code).map fun st => st.setGenLine part line (some x)

/-- Opens a fill task for a block (R294): takes a slot of the requester's class, marks every absent line FILLING and
queues one task at depth d + 1. None while the slice has no space for the lines (R407). -/
def State.openTask (s : State) (core part gi : Nat) (g : Gen) (block d : Nat) : Option State :=
  let h := s.home part (.gen part (block / 128))
  let id := s.uid
  let s1 := (s.fresh).takeSlot h ⟨d, part, .task id⟩
  let ls := (blockLines block g.block).filter fun l => (s1.genLine part l).isNone
  (ls.foldl (fun (st : Option State) l => st.bind fun x => x.placeGen h part l ⟨.filling, List.replicate 128 0, .fault, 0⟩) (some s1)).map fun s2 =>
    let p := s2.part part
    (s2.setPart part { p with
      tasks := p.tasks ++ [⟨id, part, gi, block, d + 1, h, core, false, true, true⟩]
      reported := p.reported.filter fun b => b ≠ block }).markWaiting part ls

/-- What a read of a generated line meets. -/
inductive GenTouch where
  /-- the line is present: VALID, ZERO or POISON -/
  | ready
  /-- it is FILLING, or waits for a slot or for an invalidate command -/
  | waiting
  /-- the miss would exceed depth 2 (R298) -/
  | nest
  deriving DecidableEq, Repr

/-- Whether the copy of a line in the victim store can be read. -/
def State.victimGood (s : State) (v : Victim) : Bool := !(List.range 16).any fun i => s.wordPoisoned (v.addr + 8 * i)

/-- The readable copy of a line of a partition in the victim store. -/
def State.victimCopy (s : State) (part : Nat) (k : LineKey) : Option Victim :=
  s.victims.find? fun v => v.part = part && v.key = k && s.victimGood v

/-- Asks for the copy of a generated line in the victim store: an ordinary miss (R294). -/
def State.wantCopy (s : State) (part uid d line : Nat) : State :=
  let k : LineKey := .gen part line
  let h := s.home part k
  if (s.slice h).holdsSlot (.line k) then s else s.askSlot h ⟨d, part, uid, k⟩ fun st => st.readSlot h ⟨d, part, .line k⟩ k

/-- A read of a generated line (R294, R298, R303) by a requester of a depth on a core. -/
def State.touchGen (s : State) (core part uid d line : Nat) : State × GenTouch :=
  if s.moving part (.gen part line) then (s, .waiting)
  else match s.genLine part line with
  | some g =>
    match g.state with
    | .filling =>
      if d ≥ 2 then (s, .nest)
      else
        let p := s.part part
        let relabel := fun (t : Task) =>
          if d = 1 && t.depth = 1 && !t.filler && s.taskHasLine t line then { t with depth := 2 } else t
        (s.setPart part { p with tasks := p.tasks.map relabel }, .waiting)
    | _ => (s.setGenLine part line (some { g with age := 0 }), .ready)
  | none =>
    match s.genAt part (line * 128) with
    | none => (s, .waiting)
    | some (gi, g) =>
      if g.closing then (s, .waiting)
      else
        let bad := s.victims.filter fun v => v.part = part && v.key = .gen part line && !s.victimGood v
        let s1 : State := if bad.isEmpty then s else { s with victims := s.victims.filter fun v => !bad.contains v }
        let h := s1.home part (.gen part line)
        if g.vkeep && s1.victims.any (fun v => v.part = part && v.key = .gen part line) then (s1.wantCopy part uid d line, .waiting)
        else if d ≥ 2 then (s1, .nest)
        else
          let block := g.blockOf (line * 128)
          (s1.askSlot h ⟨d, part, uid, .gen part (block / 128)⟩ fun st => st.openTask core part gi g block d, .waiting)

/-- Commits one line as POISON with an origin (R301): the first of a block sends a record and counts in GEN_PERR. -/
def State.poisonLine (s : State) (part line : Nat) (o : Origin) : State :=
  let s1 := s.setGenLine part line (some ⟨.poison, List.replicate 128 0, o, 0⟩)
  match s1.genAt part (line * 128) with
  | none => s1
  | some (gi, g) =>
    let block := g.blockOf (line * 128)
    let p := s1.part part
    if p.reported.contains block then s1
    else
      let s2 := s1.setPart part { p with
        reported := p.reported ++ [block]
        genPerr := if p.genPerr = BitVec.allOnes 32 then p.genPerr else p.genPerr + 1 }
      s2.record { source := 15, sev := 1, unit := s2.home part (.gen part line), part := some part, addr := line * 128, info := gi + block }

/-- Frees a task's slot once no line of its block is FILLING (R293, R307). -/
def State.settleSlot (s : State) (t : Task) : State :=
  match (s.part t.part).gens.find t.gen with
  | none => s.freeSlot t.slice (.task t.id)
  | some g =>
    if (blockLines t.block g.block).any fun l => match s.genLine t.part l with | some x => x.state == .filling | none => false
    then s else s.freeSlot t.slice (.task t.id)

/-- Commits every line of a task that is still FILLING as POISON and ends the task (R304, R309). -/
def State.endTask (s : State) (part id : Nat) (o : Origin) : State :=
  match (s.part part).tasks.find? fun t => t.id = id with
  | none => s
  | some t =>
    let lines := match (s.part part).gens.find t.gen with | some g => blockLines t.block g.block | none => []
    let s1 := lines.foldl (fun st l => match st.genLine part l with
      | some x => if x.state == .filling then st.poisonLine part l o else st
      | none => st) s
    let s2 := s1.settleSlot t
    let p := s2.part part
    s2.setPart part { p with tasks := p.tasks.filter fun u => u.id ≠ id }

end Sys2Proof.Machine
end

