-- ==== Sys2Proof/Machine/Ops.lean ====
section
/-!
DEFINITION. The named operations over waves, fragments, registers and scratchpads: register accessors with tags,
full/empty bits and poison (R39 to R52), reconvergence (R16 to R20), the end of a wave (R29, R38), taking a trap
(R345 to R349) and the return from one (R351).
-/
namespace Sys2Proof

/-- Whether a scope is the cluster or wider. -/
def Scope.wide : Scope → Bool
  | .wave | .team => false
  | _ => true

/-- The number of a queue. -/
def Queue.num : Queue → Nat
  | .q0 => 0
  | .q1 => 1
  | .q2 => 2
  | .q3 => 3
  | .q4 => 4

end Sys2Proof

namespace Sys2Proof.Machine

/-! ### Waves and fragments -/

/-- The wave in a slot. -/
def State.wave? (s : State) (core slot : Nat) : Option Wave := (s.core core).waves.find slot

/-- Writes the wave in a slot. -/
def State.setWave (s : State) (core slot : Nat) (w : Wave) : State :=
  let c := s.core core
  s.setCore core { c with waves := c.waves.put slot w }

/-- Changes the wave in a slot, if there is one. -/
def State.modWave (s : State) (core slot : Nat) (g : Wave → Wave) : State :=
  match s.wave? core slot with
  | some w => s.setWave core slot (g w)
  | none => s

/-- The fragment in a split-table entry. -/
def Wave.frag? (w : Wave) (i : Nat) : Option Fragment := w.entries.getD i none

/-- Writes a split-table entry. -/
def Wave.setFrag (w : Wave) (i : Nat) (f : Option Fragment) : Wave := { w with entries := w.entries.set i f }

/-- Changes the issuing fragment. -/
def Wave.modCur (w : Wave) (g : Fragment → Fragment) : Wave := w.setFrag w.cur ((w.frag? w.cur).map g)

/-- All fragments of a wave. -/
def Wave.frags (w : Wave) : List Fragment := w.entries.filterMap id ++ w.ovf

/-- The threads of a wave that have not exited. -/
def Wave.lives (w : Wave) : Mask := w.frags.foldl (fun m f => m ||| f.live) 0

/-- A new fragment. -/
def Fragment.start (live : Mask) (pc : DWord) (level : Level) (age : Nat) : Fragment :=
  { live := live, exec := live, pc := pc, rep := none, depth := 0, waiting := false, park := none, level := level
    turn := 0, issues := 0, sinceLr := none, resv := [], age := age, handler := false, nest := none, synced := [], lathErr := none
    entry := none }

/-- What a fragment stalls at: an operation of queue 3 or 4 (R269, R277). -/
def Fragment.stalledAt (f : Fragment) : List Nat := match f.park with | some (.op id) => [id] | _ => []

/-- Moves past the word just executed: to the next repeat under a REP (R127), else to the next word (R115). See assumption 56. -/
def Fragment.advance (f : Fragment) : Fragment :=
  match f.rep with
  | some r => if r.idx + 1 < r.count then { f with rep := some { r with idx := r.idx + 1 } }
    else { f with rep := none, pc := f.pc + 12 }
  | none => { f with pc := f.pc + 12 }

/-- Continues at an address with no repeat pending. -/
def Fragment.jump (f : Fragment) (pc : DWord) : Fragment := { f with pc := pc, rep := none }

/-! ### Registers (R39, R40) -/

/-- A vector register. -/
def Wave.v (w : Wave) (n : Nat) : VReg := w.vregs.get VReg.fresh n
/-- A scalar register. -/
def Wave.s (w : Wave) (n : Nat) : SReg := w.sregs.get SReg.fresh n
/-- A predicate; p7 reads as all true (R39). See assumption 8. -/
def Wave.p (w : Wave) (n : Nat) : PReg := if n = 7 then ⟨BitVec.allOnes 128, 0, .fault⟩ else w.preds.get PReg.fresh n
/-- Writes a vector register whole. -/
def Wave.setV (w : Wave) (n : Nat) (r : VReg) : Wave := { w with vregs := w.vregs.put n r }
/-- Writes a scalar register whole. -/
def Wave.setS (w : Wave) (n : Nat) (r : SReg) : Wave := { w with sregs := w.sregs.put n r }
/-- Writes a predicate; p7 ignores writes (R39). -/
def Wave.setP (w : Wave) (n : Nat) (r : PReg) : Wave := if n = 7 then w else { w with preds := w.preds.put n r }
/-- Writes a scalar full and unpoisoned. -/
def Wave.putS (w : Wave) (n : Nat) (x : DWord) : Wave := w.setS n ⟨x, true, false, .fault, none⟩

/-- Poison joined to poison: DATA dominates. -/
def joinOrigin (a b : Option Origin) : Option Origin :=
  match a, b with
  | some .data, _ | _, some .data => some .data
  | some x, _ => some x
  | none, y => y

/-- The origin flag of a register after a write (R52). -/
def originAfter (oldOrigin : Origin) (oldPoison act newPoison : Mask) (inputs : Origin) : Origin :=
  if (newPoison &&& act != 0 && inputs == .data) || (oldOrigin == .data && oldPoison &&& ~~~act != 0) then .data else .fault

/-- Writes the threads of a mask: value and poison of each thread, with the origin that poisoned inputs carry. The
register becomes full, takes the tag, and loses a pending nest trap (R45, R47, R52, R298). -/
def VReg.write (r : VReg) (act : Mask) (val : Nat → Word) (poison : Mask) (inputs : Origin) (tag : BitVec 5) : VReg :=
  { vals := (List.range 128).map fun t => if act.getLsbD t then val t else r.vals.getD t 0
    tag := tag, full := true
    poison := (poison &&& act) ||| (r.poison &&& ~~~act)
    origin := originAfter r.origin r.poison act poison inputs
    nest := none }

/-- Writes predicate bits of the threads of a mask. -/
def PReg.write (r : PReg) (act bits poison : Mask) (inputs : Origin) : PReg :=
  { bits := (bits &&& act) ||| (r.bits &&& ~~~act)
    poison := (poison &&& act) ||| (r.poison &&& ~~~act)
    origin := originAfter r.origin r.poison act poison inputs }

/-- A scalar as an operation writes it. -/
def SReg.write (x : DWord) (poison : Bool) (inputs : Origin) : SReg :=
  ⟨x, true, poison, if poison then inputs else .fault, none⟩

/-- Marks a register empty and, for a vector register, writes its tag (R46, R47). -/
def Wave.markEmpty (w : Wave) (o : Opnd) (tag : BitVec 5) : Wave :=
  match o with
  | .v n => w.setV n.toNat { w.v n.toNat with full := false, tag := tag }
  | .s n => w.setS n.toNat { w.s n.toNat with full := false }
  | _ => w

/-- Marks a register full. -/
def Wave.markFull (w : Wave) (o : Opnd) : Wave :=
  match o with
  | .v n => w.setV n.toNat { w.v n.toNat with full := true }
  | .s n => w.setS n.toNat { w.s n.toNat with full := true }
  | _ => w

/-- Whether a register is empty (R47). -/
def Wave.isEmpty (w : Wave) (o : Opnd) : Bool :=
  match o with
  | .v n => !(w.v n.toNat).full
  | .s n => !(w.s n.toNat).full
  | _ => false

/-- Origin flag of a register. -/
def Wave.originOf (w : Wave) (o : Opnd) : Origin :=
  match o with
  | .v n => (w.v n.toNat).origin
  | .s n => (w.s n.toNat).origin
  | .p n => (w.p n.toNat).origin
  | _ => .fault

/-! ### Splitting and fusing (R16 to R20) -/

/-- The reconvergence address of a creation depth, if the stack holds that entry. -/
def Wave.ownAddr (w : Wave) (d : Nat) : Option DWord :=
  if d = 0 || d > w.stack.length then none else w.stack[w.stack.length - d]?

/-- A fragment that reaches the address of its own entry waits (R20). A repeat still pending does not stand there. See assumption 56. -/
def Wave.arrive (w : Wave) (f : Fragment) : Fragment :=
  if !f.waiting && f.rep.isNone && w.ownAddr f.depth == some f.pc then { f with waiting := true, park := none } else f

/-- Joins a fragment's threads to another's, which keeps its place. See assumption 29. -/
def Fragment.join (f g : Fragment) : Fragment :=
  { f with live := f.live ||| g.live, exec := f.exec ||| g.exec, resv := f.resv ++ g.resv, park := none, lathErr := none
           synced := f.synced ++ g.synced.filter fun x => !f.synced.any fun y => y.pc = x.pc }

/-- Whether two overflow fragments are one (R19): equal program counter, repeat state, creation depth and waiting state. Neither is in
the handler, nor of another level. -/
def Fragment.alike (f g : Fragment) : Bool :=
  f.pc == g.pc && f.rep == g.rep && f.depth == g.depth && f.waiting == g.waiting && f.level == g.level && !f.handler && !g.handler &&
    f.nest.isNone && g.nest.isNone

/-- An overflow fragment joins one that is like it, in that one's place, else it comes last (R19). See assumption 29. -/
def addOverflow (ovf : List Fragment) (f : Fragment) : List Fragment :=
  match ovf.findIdx? fun g => g.alike f with
  | some i => ovf.modify i fun g => { g.join f with age := min g.age f.age }
  | none => ovf ++ [f]

/-- The overflow slot with the fragments that are alike joined (R19). See assumption 29. -/
def Wave.mergeOvf (w : Wave) : Wave := if w.ovf.length ≤ 1 then w else { w with ovf := w.ovf.foldl addOverflow [] }

/-- The siblings under a depth. -/
def Wave.siblings (w : Wave) (d : Nat) : List Fragment := w.frags.filter fun f => f.depth = d

/-- Whether a split-table entry holds a fragment of a depth. -/
def Wave.holds (w : Wave) (d i : Nat) : Bool := match w.frag? i with | some g => g.depth == d | none => false

/-- Drops the fragments of a depth, and the top entry of the stack. -/
def Wave.dropDepth (w : Wave) (d : Nat) : Wave :=
  let keep := fun (g : Fragment) => g.depth ≠ d
  { w with entries := w.entries.map fun e => e.filter keep, ovf := w.ovf.filter keep, stack := w.stack.drop 1 }

/-- Puts the fused fragment of a depth where the first of its siblings stood in the split table, or into the overflow slot. -/
def Wave.placeFused (w : Wave) (d : Nat) (one : Fragment) : Wave :=
  match (List.range 8).find? (w.holds d) with
  | some i => { (w.dropDepth d).setFrag i (some one) with cur := if w.holds d w.cur = true then i else w.cur }
  | none => { w.dropDepth d with ovf := (w.dropDepth d).ovf ++ [one] }

/-- Fuses the waiting siblings of the top entry and pops it (R20). The fused fragment takes the first split-table entry
that a sibling held; otherwise it stays in the overflow slot. See assumption 16. -/
def Wave.fuseTop (w : Wave) (stamp : Nat) : Wave :=
  let d := w.stack.length
  match w.siblings d with
  | [] => { w with stack := w.stack.drop 1 }
  | f :: fs => w.placeFused d { fs.foldl Fragment.join f with depth := d - 1, waiting := false, age := stamp, turn := 0 }

/-- Pops the entry of depth d, and those below it, as long as it is on top and none of its siblings is left (R20): called
when a fragment of that depth has left. See assumption 16. -/
def Wave.popLeft : Nat → Nat → Wave → Wave
  | 0, _, w => w
  | n + 1, d, w =>
    if d ≠ 0 && d = w.stack.length && (w.siblings d).isEmpty then Wave.popLeft n (d - 1) { w with stack := w.stack.drop 1 } else w

/-- Marks arrivals and fuses as long as the top entry is complete (R20), at most once per stack entry. An entry under which
no split has put a fragment stays (assumption 16). -/
def Wave.reconverge (stamp : Nat) : Nat → Wave → Wave
  | 0, w => w.mapFragments w.arrive
  | n + 1, w =>
    let w1 := w.mapFragments w.arrive
    let sibs := w1.siblings w1.stack.length
    if w1.stack.isEmpty || sibs.isEmpty then w1
    else if sibs.all fun f => f.waiting then Wave.reconverge stamp n (w1.fuseTop stamp)
    else w1

/-- The position of the oldest overflow fragment that is not waiting (R19). When the slot holds only waiting fragments none moves, even
into a free entry: they go on waiting there. See assumption 130. -/
def Wave.servable (w : Wave) : Option Nat :=
  let c := w.ovf.zipIdx.filter fun x => !x.1.waiting
  (c.foldl (fun (best : Option (Fragment × Nat)) x => match best with
    | none => some x
    | some b => if x.1.age < b.1.age then some x else some b) none).map (·.2)

/-- The first free split-table entry. -/
def Wave.freeEntry (w : Wave) : Option Nat := (List.range w.entries.length).find? fun i => (w.frag? i).isNone

/-- Gives free entries to overflow fragments, oldest first (R19). See assumption 130. -/
def Wave.serve (stamp : Nat) : Nat → Wave → Wave
  | 0, w => w
  | n + 1, w =>
    match w.servable, w.freeEntry with
    | some k, some i =>
      let f := w.ovf.getD k (Fragment.start 0 0 .user 0)
      Wave.serve stamp n (({ w with ovf := w.ovf.eraseIdx k } : Wave).setFrag i (some { f with age := stamp }))
    | _, _ => w

/-- Whether the fragment in an entry has begun to wait since an earlier state of the wave: it did not wait there before, or it is
one that has just been fused. -/
def Wave.beganWait (old w : Wave) (i : Nat) : Bool :=
  match w.frag? i with
  | some f => f.waiting && (match old.frag? i with | some g => !g.waiting || g.age != f.age | none => true)
  | none => false

/-- A fragment that begins to wait gives its entry to the oldest overflow fragment that does not, and goes on waiting in the overflow
slot (R19). -/
def Wave.yieldEntries (w old : Wave) (stamp : Nat) : Wave :=
  (List.range 8).foldl (fun (w : Wave) i =>
    match w.servable, w.frag? i with
    | some k, some g =>
      if Wave.beganWait old w i then
        let f := w.ovf.getD k g
        ({ w with ovf := w.ovf.eraseIdx k ++ [{ g with age := stamp }] } : Wave).setFrag i (some { f with age := stamp })
      else w
    | _, _ => w) w

/-- Whether the issuing fragment of an earlier state has begun to wait, has been fused or has left: its turn has ended (R23). -/
def Wave.curLeft (old w : Wave) : Bool :=
  match old.frag? old.cur, w.frag? old.cur with
  | some f, some g => g.waiting || f.age != g.age
  | _, _ => true

/-- Whether another fragment stands in the issuing entry than in an earlier state: the instruction buffer is empty then (R22). -/
def Wave.curChanged (old w : Wave) : Bool := (w.frag? w.cur).map (·.age) != (old.frag? old.cur).map (·.age)

/-- Settles a wave after a fragment has moved or left: reconvergence, then the overflow slot. -/
def Wave.settle (w : Wave) (stamp : Nat) : Wave :=
  let w1 := Wave.reconverge stamp 9 w
  let w2 := (Wave.yieldEntries (Wave.serve stamp 8 w1.mergeOvf) w stamp).mergeOvf
  { w2 with ended := w2.ended || Wave.curLeft w w1, ibuf := if Wave.curChanged w w2 then [] else w2.ibuf }

/-- Whether two siblings may fuse when the table is full (R18, R19): fragments under no stack entry are none. One that is parked, or
stalls at an operation under way, may: the fused fragment issues the instruction again. See assumption 18. See assumption 29. -/
def Fragment.fusable (f g : Fragment) : Bool :=
  f.depth == g.depth && f.depth != 0 && f.pc == g.pc && (f.rep.map (·.idx)) == (g.rep.map (·.idx)) && f.level == g.level

/-- The oldest fusable pair: positions of the older and the younger member (R19). See assumption 29. -/
def Wave.oldestPair (w : Wave) : Option (Nat × Nat) :=
  let held := (List.range 8).filterMap fun i => (w.frag? i).map fun f => (i, f)
  let pairs := held.flatMap fun x => held.filterMap fun y =>
    if (x.2.age < y.2.age || (x.2.age = y.2.age && x.1 < y.1)) && x.2.fusable y.2 then some (x, y) else none
  let older := fun (p q : (Nat × Fragment) × (Nat × Fragment)) =>
    p.2.2.age < q.2.2.age || (p.2.2.age = q.2.2.age && p.1.2.age < q.1.2.age)
  (pairs.foldl (fun best p => match best with
    | none => some p
    | some b => if older p b then some p else some b) none).map fun p => (p.1.1, p.2.1)

/-- Finds a place for the not-taken side of a split: a free entry, the entry that a fusion frees, or the overflow slot
(R18, R19). DESIGN CHOICE (assumption 29): the fused pair keeps the entry, the age and the turn of its older member. -/
def Wave.place (w : Wave) (f : Fragment) : Wave :=
  match w.freeEntry with
  | some i => w.setFrag i (some f)
  | none =>
    match w.oldestPair with
    | none => { w with ovf := w.ovf ++ [f] }
    | some (i, j) =>
      match w.frag? i, w.frag? j with
      | some a, some b =>
        let w1 := (w.setFrag i (some (a.join b))).setFrag j (some f)
        { w1 with cur := if w.cur = j then i else w.cur, ibuf := if w.cur = j then [] else w.ibuf }
      | _, _ => { w with ovf := w.ovf ++ [f] }

/-! ### Scratchpads (R75, R76, R83, R113) -/

/-- Bytes of a core's scratchpad with the poison of their words (R410). See assumption 6. -/
def State.spRead (s : State) (core off n : Nat) : List (Byte × Bool) :=
  let c := s.core core
  (List.range n).map fun i => (c.scratch.get 0 (off + i), c.spoison.contains ((off + i) / 4))

/-- Writes scratchpad bytes under enables: a word that is covered whole with unpoisoned bytes loses its poison, a
poisoned write marks every word it touches (R410, R412). -/
def Core.spWrite (c : Core) (off : Nat) (bs : List (Byte × Byte)) (poisoned : Bool) : Core :=
  let mem := bs.zipIdx.foldl (fun (m : Tab Byte) x =>
    let a := off + x.2
    m.put a ((m.get 0 a &&& ~~~x.1.2) ||| (x.1.1 &&& x.1.2))) c.scratch
  let words := (List.range ((off % 4 + bs.length + 3) / 4)).map fun i => off / 4 + i
  let full := words.filter fun w => (List.range 4).all fun i =>
    off ≤ w * 4 + i && (match bs[w * 4 + i - off]? with | some b => b.2 == 0xFF | none => false)
  let rest := c.spoison.filter fun w => !(if poisoned then words else full).contains w
  { c with scratch := mem, spoison := if poisoned then rest ++ words else rest }

/-- Writes whole bytes into a core's scratchpad. -/
def State.spPut (s : State) (core off : Nat) (bs : List Byte) : State :=
  s.setCore core ((s.core core).spWrite off (bs.map fun b => (b, 0xFF)) false)

/-- A scalar value in a scratchpad. See assumption 62. -/
def State.spNat (s : State) (core off n : Nat) : Nat := leNat ((s.spRead core off n).map (·.1))

/-- Whether an access of a core's scratchpad bytes stalls on the scoreboard (R83). -/
def State.spBlocked (s : State) (core lo hi : Nat) (out : Bool) : Bool :=
  (s.core core).sboard.any fun e => e.lo < hi && lo < e.hi && (e.inbound || out)

/-- Whether a pending operation acts on bytes of a core's scratchpad for the wave that issued it, by thread 128 for all. -/
def MemKind.atomsOn (k : MemKind) (thread : Nat → Bool) (target off n : Nat) : Bool :=
  match k with
  | .atoms _ t target' off' ty _ _ => (thread t || t = 128) && target' = target && off' < off + n && off < off' + regBytes ty false
  | _ => false

/-- The first ATOMS of a wave, under way for some threads, on bytes of a core's scratchpad: their program order holds there, and no other
(R113). -/
def State.atomsOn (s : State) (core uid : Nat) (thread : Nat → Bool) (target off n : Nat) : Option Nat :=
  ((s.core core).memq.find? fun m => m.wave = uid && m.kind.atomsOn thread target off n).map (·.id)

/-- Bytes as they cross a stretch without a check: the environment may have flipped bits in them (R411). See assumption 4. -/
def State.cross (s : State) (bs : List Byte) : State × List Byte :=
  match s.unchecked with
  | [] => (s, bs)
  | x :: rest => ({ s with unchecked := rest }, bs.zipIdx.map fun b => b.1 ^^^ x.getD b.2 0)

/-! ### What waits and what is ready -/

/-- Operations of a wave that a release waits for (R96, R100): not LDMC. See assumption 113. -/
def State.wavePending (s : State) (core uid : Nat) (loads : Bool) : Bool :=
  (s.core core).memq.any fun m => m.wave = uid && match m.kind with
    | .ldmc .. => false
    | .load .zero .. | .load .unused .. => false
    | .load .. | .acq .. | .value .. | .node .. | .vxm .. | .task .. => loads
    | _ => true

/-- Whether scratchpad operations of a wave are still to be performed: its remote stores and its ATOMS (R113). -/
def State.spPending (s : State) (core uid : Nat) : Bool :=
  (s.core core).memq.any fun m => m.wave = uid && match m.kind with | .remote .. | .atoms .. => true | _ => false

/-- Takes operations of queues 3 and 4 of a core back that some fragments of a wave stall at; they are issued again (R272, R288). See assumption 18. -/
def State.abortOps (s : State) (core slot : Nat) (ids : List Nat) : State :=
  let c := s.core core
  let gone3 := (c.q3.filter fun e => ids.contains e.id).length
  let gone4 := (c.q4.filter fun e => ids.contains e.id).length
  if gone3 + gone4 = 0 then s
  else (s.setCore core { c with q3 := c.q3.filter (fun e => !ids.contains e.id), q4 := c.q4.filter fun e => !ids.contains e.id }).modWave core slot
    fun w => { w with qout := (w.qout.put 3 (w.qout.get 0 3 - gone3)).put 4 (w.qout.get 0 4 - gone4) }

/-- Whether a core holds an operation. -/
def Core.holdsOp (c : Core) (id : Nat) : Bool :=
  c.memq.any (fun m => m.id = id) || c.q1.any (fun e => e.id = id) || c.q2.any (fun e => e.id = id) ||
    c.q3.any (fun e => e.id = id) || c.q4.any (fun e => e.id = id)

/-- The cores of a core's pair: those whose queues a join can name together (R105, R237). -/
def pairCores (core : Nat) : List Nat := [core / 2 * 2, core / 2 * 2 + 1]

/-- Whether an operation is still under way on a core, its pair's other core or the pair's matrix queue. -/
def State.opPending (s : State) (core id : Nat) : Bool :=
  (pairCores core).any (fun k => (s.core k).holdsOp id) || (s.pairs.get ⟨[]⟩ (Config.pairOf core)).q0.any fun e => e.id = id

/-- Depths of the queues (R231). -/
def queueDepth : Queue → Nat
  | .q0 => 8
  | .q1 => 64
  | .q2 => 32
  | .q3 => 4
  | .q4 => 16

/-- Entries in a queue as seen by a core. -/
def State.queueLen (s : State) (core : Nat) (q : Queue) : Nat :=
  let c := s.core core
  match q with
  | .q0 => (s.pairs.get ⟨[]⟩ (Config.pairOf core)).q0.length
  | .q1 => c.q1.length
  | .q2 => c.q2.length
  | .q3 => c.q3.length
  | .q4 => c.q4.length

/-- The key of a team's coordinates and stage in `Launch.spots`. -/
def spotKey (x y z stage : Nat) : Nat := stage + 2 ^ 4 * (x + 2 ^ 20 * (y + 2 ^ 20 * z))

/-- The team of a wave. -/
def State.teamOf (s : State) (w : Wave) : Option Team := s.teams.find? fun t => t.id = w.team

/-- Whether a wave of the team has been killed (R38). -/
def State.abandoned (s : State) (w : Wave) : Bool := match s.teamOf w with | some t => t.abandoned | none => false

/-- A wave has acquired or fenced at cluster scope or wider (R81). -/
def State.fenceWave (s : State) (core slot : Nat) : State := (s.modWave core slot fun w => { w with fenced := s.uid + 1 }).fresh

/-- Whether a core's grid holds an image of a partition (R267). -/
def Core.holdsImage (c : Core) (part : Nat) (image : DWord) : Bool :=
  match c.lath.image with
  | some (a, p, _) => a == image && p == part
  | none => false

/-- The status that a LATHWAIT of a wave for an image writes; none while it parks (R270). See assumption 18. -/
def Core.lathStatus (c : Core) (w : Wave) (image : DWord) : Option Nat :=
  let mine := fun (e : QEntry Q3Kind) => e.wave == w.uid && (match e.kind with
    | .load a _ => a == image
    | .run _ _ _ a .. => a == image
    | .marker => false)
  if c.holdsImage w.part image then some 0
  else if c.q3.any mine then none
  else (w.lathFail.find? fun x => x.1 = image).map (·.2)

/-- Whether what a fragment waits for has come about. -/
def State.unparked (s : State) (core : Nat) (w : Wave) : Park → Bool
  | .regs xs => xs.all fun x => !w.isEmpty x
  | .drain loads => !s.wavePending core w.uid loads
  | .barrier _ _ _ => s.abandoned w
  | .room q => s.queueLen core q < queueDepth q
  | .queue q n => w.qout.get 0 q.num ≤ n
  | .blocks _ => false
  | .scoreboard c lo hi out => !s.spBlocked c lo hi out
  | .sbEntry => (s.core core).sboard.length < 64
  | .walk sec req => !(s.walksOf sec).any fun k => k.req = req && k.result.isNone
  | .flags m => (s.core core).flags &&& m == m
  | .line p l => (match s.genLine p l with | some g => g.state ≠ .filling | none => true)
  | .op id => !s.opPending core id
  | .drainSp => !s.spPending core w.uid
  | .read slice copy => ((s.slice slice).lines.find copy).isSome || w.fetchBad.contains (copyLine copy)
  | .pairEmpty k => (s.pairs.get ⟨[]⟩ k).q0.isEmpty
  | .lath image => ((s.core core).lathStatus w image).isSome

/-- Whether a fragment can issue (R23, R349). -/
def State.ready (s : State) (core : Nat) (w : Wave) (f : Fragment) : Bool :=
  !f.waiting && (!w.alone || f.handler || f.entry.isSome) && match f.park with | none => true | some p => s.unparked core w p

/-- Whether a wave issues at all: not suspended, and not halted. -/
def Wave.runs (w : Wave) : Bool := !w.suspended && !w.debugHalt && !w.halted

/-- The next ready fragment in split-table order after the current one, wrapping; the current one last (R23). -/
def State.nextReady (s : State) (core : Nat) (w : Wave) : Option Nat :=
  ((List.range 8).map fun i => (w.cur + 1 + i) % 8).find? fun i =>
    match w.frag? i with | some f => s.ready core w f | none => false

/-- Makes an entry the issuing fragment, with a new turn (R23); another fragment finds the instruction buffer empty (R22). See assumption 65. -/
def Wave.switchTo (w : Wave) (i : Nat) : Wave :=
  ({ w with cur := i, ended := false, ibuf := if i = w.cur then w.ibuf else [] } : Wave).setFrag i ((w.frag? i).map fun f => { f with turn := 0 })

/-- Whether the fairness timer may end the turn: 64 issues, and not for 16 issues after its LR, nor in a handler
(R23, R349). See assumption 60. -/
def Wave.turnOver (w : Wave) : Bool :=
  match w.frag? w.cur with
  | some f => decide (f.turn ≥ 64) && !w.alone && (match f.sinceLr with | some n => decide (n ≥ 16) | none => true)
  | none => false

/-- Ends the turn of the issuing fragment (R19, R23): when the overflow slot holds a fragment that is not waiting, the
fragment moves there after 64 issues and the oldest overflow fragment takes its entry. See assumption 60. -/
def State.endTurn (s : State) (core slot : Nat) (swap : Bool) : State :=
  match s.wave? core slot with
  | none => s
  | some w =>
    let w1 := match w.servable, w.frag? w.cur with
      | some k, some f =>
        if swap then
          let g := w.ovf.getD k f
          (({ w with ovf := w.ovf.eraseIdx k ++ [{ f with age := s.uid, turn := 0 }], ibuf := [] } : Wave).setFrag w.cur
            (some { g with age := s.uid, turn := 0 })).mergeOvf
        else w
      | _, _ => w
    let s1 := s.fresh
    match s1.nextReady core w1 with
    | some i => s1.setWave core slot (w1.switchTo i)
    | none => s1.setWave core slot { w1.modCur (fun f => { f with turn := 0 }) with ended := true }

/-! ### The end of a wave (R29, R38) -/

/-- The pool that a wave's blocks come from: 0, or the reserve of a filler's depth (R33). -/
def Wave.pool (w : Wave) : Nat := w.depth

/-- Free blocks of a pool. -/
def Core.freeIn (c : Core) (pool : Nat) : Nat := c.free.get 0 pool

/-- Returns blocks to a pool. -/
def Core.giveBlocks (c : Core) (pool n : Nat) : Core := { c with free := c.free.put pool (c.freeIn pool + n) }

/-- The cores that a team occupies. -/
def Team.cores (t : Team) : List Nat :=
  match t.core with
  | none => []
  | some c => if t.paired then [c, c + 1] else [c]

/-- Ends a team all of whose waves have retired (R29): its scratchpads lose their owner (R453), its launch counts it,
and a band that it rendered is complete (R436). -/
def State.endTeam (s : State) (t : Team) : State :=
  let s1 := t.cores.foldl (fun st c =>
    let x := st.core c
    st.setCore c { x with owner := if x.owner = some t.id then none else x.owner }) s
  let band := fun (b : Band) => if b.team = some t.id then { b with done := !t.abandoned, killed := t.abandoned } else b
  let bands := fun (h : Head) => { h with bands := h.bands.map band }
  let s2 : State := { s1 with
    teams := s1.teams.filter (fun u => u.id ≠ t.id),
    heads := s1.heads.map fun e => (e.1, bands e.2) }
  if t.owns then
    { s2 with launches := s2.launches.map fun l => if l.id = t.launch then { l with alive := l.alive - 1 } else l }
  else s2

/-- Whether the walker of one of a team's cores still runs the team's graph (R313). -/
def State.graphRuns (s : State) (t : Team) : Bool := t.cores.any fun c => match (s.core c).graph with | some g => g.team == t.id | none => false

/-- What is left of a graph when one of its waves has ended (R313, R314). -/
def Graph.waveEnded (g : Graph) (w : Wave) : Graph :=
  match w.source with
  | .walker => { g with pending := g.pending - 1 }
  | .record =>
    let gone := (List.range w.ringCnt).map fun i => w.ringPos + i
    { g with inUse := g.inUse.put w.node ((g.inUse.get [] w.node).filter fun p => !gone.contains p) }
  | _ => g

/-- Takes a wave out of its slot: blocks and slot are freed, values still to arrive are discarded (R50), its stores and
engine operations stay. The task of a filler ends as R304 states. -/
def State.endWave (s : State) (core slot : Nat) (killed : Bool) : State :=
  match s.wave? core slot with
  | none => s
  | some w =>
    let c := s.core core
    let keep := fun (m : MemOp) => m.wave ≠ w.uid || match m.kind with
      | .load .. | .acq .. | .value .. | .node .. | .vxm .. | .task .. => false
      | _ => true
    let c1 := { c.giveBlocks w.pool w.blocks with
      waves := Tab.erase c.waves slot, memq := c.memq.filter keep,
      graph := c.graph.map fun g => g.waveEnded w }
    let s1 := (s.setCore core c1).dropWalks core w.uid
    let s2 := match w.held, w.bound with
      | some t, _ => s1.endTask w.part t (if killed then .data else .fault)
      | none, some t => s1.endTask w.part t (if killed then .data else .fault)
      | none, none => s1
    let s3 : State := { s2 with teams := s2.teams.map (fun t => if t.id = w.team then { t with alive := t.alive - 1 } else t) }
    match s3.teams.find? fun t => t.id = w.team with
    | some t => if t.alive = 0 && !s3.graphRuns t then s3.endTeam t else s3
    | none => s3

/-- Marks the queued operations of a killed wave, whose completion objects record FAULTED (R38). -/
def State.markKilled (s : State) (core uid : Nat) : State :=
  let c := s.core core
  let s1 := s.setCore core { c with
    q1 := c.q1.map (fun e => if e.wave = uid then { e with killed := true } else e),
    q2 := c.q2.map (fun e => if e.wave = uid then { e with killed := true } else e),
    q3 := c.q3.map (fun e => if e.wave = uid then { e with killed := true } else e),
    q4 := c.q4.map (fun e => if e.wave = uid then { e with killed := true } else e) }
  let k := Config.pairOf core
  let p := s1.pairs.get ⟨[]⟩ k
  if p.q0.any fun e => e.wave = uid then
    { s1 with pairs := s1.pairs.put k ⟨p.q0.map fun e => if e.wave = uid then { e with killed := true } else e⟩ }
  else s1

/-- Kills a wave (R38): the record is sent, its team is abandoned, its launch is faulted, and it ends. -/
def State.killWave (s : State) (core slot : Nat) (r : ErrRec) : State :=
  match s.wave? core slot with
  | none => s
  | some w =>
    let s1 := s.record { r with unit := r.at_.getD core, part := some w.part, lane := r.lane + slot / 6 * 32, handle := r.issuer.getD (s.handleOf core slot) }
    let s2 : State := { s1.markKilled core w.uid with
      teams := s1.teams.map (fun t => if t.id = w.team then { t with abandoned := true } else t),
      launches := s1.launches.map (fun l => if l.id = w.launch then { l with killed := l.killed + 1, faulted := true } else l) }
    s2.endWave core slot true

/-- Settles a wave after its issuing fragment has moved; a wave without fragments retires (R20, R29). -/
def State.settle (s : State) (core slot : Nat) : State :=
  match s.wave? core slot with
  | none => s
  | some w =>
    let w1 := w.settle s.uid
    let s1 := s.fresh
    if w1.frags.isEmpty then (s1.setWave core slot w1).endWave core slot false else s1.setWave core slot w1

/-- The issuing fragment moves past its word. -/
def State.nextWord (s : State) (core slot : Nat) : State :=
  (s.modWave core slot fun w => w.modCur Fragment.advance).settle core slot

/-! ### The issuing fragment -/

/-- The issuing wave and fragment, with the state it issues in. -/
structure Ctx where
  s    : State
  core : Nat
  slot : Nat
  w    : Wave
  f    : Fragment

/-- The issuing fragment of a state. -/
def State.ctx? (s : State) : Option Ctx :=
  match s.focus with
  | none => none
  | some r =>
    match s.wave? r.core r.slot with
    | none => none
    | some w =>
      match w.frag? w.cur with
      | none => none
      | some f => some ⟨s, r.core, r.slot, w, f⟩

/-- Runs a meaning on the issuing fragment. -/
def withCtx (s : State) (k : Ctx → State) : Host.Outcome State Fault Refusal :=
  match s.ctx? with
  | none => .fault .noIssuingFragment
  | some c => .next (k c)

/-- The wave's partition. -/
def Ctx.part (c : Ctx) : Partition := c.s.part c.w.part

/-- Whether the issuing fragment is at user level. -/
def Ctx.user (c : Ctx) : Bool := c.f.level == .user

/-- The state with the wave replaced. -/
def Ctx.put (c : Ctx) (w : Wave) : State := c.s.setWave c.core c.slot w

/-- The state with the wave replaced, after which the fragment moves past its word. -/
def Ctx.done (c : Ctx) (w : Wave) : State := (c.put w).nextWord c.core c.slot

/-- The fragment moves past its word in a state. -/
def Ctx.next (c : Ctx) (s : State) : State := s.nextWord c.core c.slot

/-- The fragment parks, and its turn ends (R23); the instruction issues again from the start (R48). See assumption 12. -/
def Ctx.park (c : Ctx) (p : Park) : State := c.put { c.w.modCur (fun f => { f with park := some p }) with ended := true }

/-! ### Taking a trap -/

/-- Cause codes (R348). -/
def Trap.illegal : Trap := { cause := 0 }
/-- PRIV (R129). -/
def Trap.priv : Trap := { cause := 1 }

/-- The scratchpad offset of a wave's frame (R345). -/
def State.frameOff (s : State) (part slot : Nat) : Nat := (s.part part).tframe.toNat % 2 ^ 19 + 128 * slot

/-- Where ERET resumes, the repeat index and REPV (R348): the next word for TRAP, BKPT and SYSCALL; the fetch address of a fetch;
a pending REP; or the instruction itself. -/
def Fragment.resume (f : Fragment) (t : Trap) : DWord × Nat × Bool :=
  if t.cause = 12 || t.cause = 13 || t.cause = 14 then (f.pc + 12, 0, false)
  else if t.fetch then (f.pc, 0, false)
  else match f.rep with
    | some r => (r.addr, r.idx, true)
    | none => (f.pc, 0, false)

/-- The 128 bytes of a frame (R346). -/
def frameBytes (resume : DWord) (t : Trap) (repIdx : Nat) (repV : Bool) (iaddr : DWord) (word : BitVec 96) (handle : Nat)
    (exec : Mask) (saved : List DWord) : List Byte :=
  leBytes 8 resume.toNat ++ leBytes 1 t.cause ++ leBytes 1 t.detail ++ leBytes 2 t.code ++
    leBytes 1 (repIdx % 64 + 64 * repV.toNat) ++ leBytes 1 (t.thread % 128) ++ leBytes 2 (t.oper % 1024) ++ leBytes 8 iaddr.toNat ++
    leBytes 12 word.toNat ++ leBytes 4 0 ++ leBytes 8 t.addr.toNat ++ leBytes 4 handle ++ leBytes 4 0 ++
    leBytes 16 exec.toNat ++ saved.flatMap (fun x => leBytes 8 x.toNat) ++ leBytes 24 0

/-- What an access of its frame by the wave waits for: the scoreboard (R83), then the wave's own ATOMS there (R113). -/
def Ctx.frameBusy (c : Ctx) (out : Bool) : Option Park :=
  let off := c.s.frameOff c.w.part c.slot
  if c.s.spBlocked c.core off (off + 128) out then some (.scoreboard c.core off (off + 128) out)
  else (c.s.atomsOn c.core c.w.uid (fun _ => true) c.core off 128).map .op

/-- Handler entry (R349): the other fragments of the wave stop issuing; the frame is written; the fragment becomes supervisor with
s60 to s63 set, and continues at the vector. The entry stalls as STS on the frame's bytes does (R83, R113, R345). -/
def Ctx.enter (c : Ctx) (t : Trap) (iaddr : DWord) (word : BitVec 96) : State :=
  let off := c.s.frameOff c.w.part c.slot
  match c.frameBusy true with
  | some p => c.put { c.w.modCur (fun f => { f with entry := some ⟨t, iaddr, word⟩, park := some p }) with alone := true }
  | none =>
    let (resume, idx, repV) := c.f.resume t
    let saved := [(c.w.s 60).val, (c.w.s 61).val, (c.w.s 62).val, (c.w.s 63).val]
    let bs := frameBytes resume t idx repV iaddr word (c.s.handleOf c.core c.slot) c.f.exec saved
    let s1 := c.s.spPut c.core off bs
    let w1 := (((c.w.putS 63 (BitVec.ofNat 64 off)).putS 62 (BitVec.ofNat 64 (leNat ((bs.drop 8).take 8)))).putS 61 t.addr).putS 60 resume
    let w2 := w1.modCur fun f => { f.jump (c.part.tvec &&& ~~~3#64) with level := .supervisor, handler := true, park := none, waiting := false, entry := none }
    s1.setWave c.core c.slot { w2 with alone := true, ibuf := [] }

/-- Whether the debugger is attached to a partition under INVASIVE (R426). -/
def State.debugs (s : State) (part : Nat) : Bool :=
  s.dev.debug == .invasive && (s.dev.debugPart == some part || s.dev.security == .development)

/-- Takes a trap (R347): consumed poison of origin DATA and traps at supervisor level kill the wave, BKPT under INVASIVE
halts it for the debugger, a user trap enters the handler when FE_TVEC.EN is 1 and kills otherwise. Any trap of a scan
wave kills it (R433). -/
def Ctx.trapAt (c : Ctx) (t : Trap) (iaddr : DWord) (word : BitVec 96) : State :=
  let rec_ : ErrRec := { source := 22, sev := 2, cls := t.cause, lane := t.thread % 32, addr := iaddr.toNat }
  if t.cause = 5 && t.origin == .data then c.s.killWave c.core c.slot { rec_ with source := 14 }
  else if c.core ≥ Config.mainCores then c.s.killWave c.core c.slot rec_
  else if t.cause = 13 && c.s.debugs c.w.part then
    (c.s.modWave c.core c.slot fun w => { w.modCur (fun f => f.advance) with debugHalt := true }).record
      { source := 21, sev := 1, unit := c.core, part := some c.w.part, handle := c.s.handleOf c.core c.slot, addr := iaddr.toNat, info := t.code }
  else if !c.user then c.s.killWave c.core c.slot { rec_ with source := 18 }
  else if bitOf c.part.tvec.toNat 0 then c.enter t iaddr word
  else c.s.killWave c.core c.slot rec_

/-- Takes a trap whose instruction is the one that issues. The unrecoverable walks it reports are used up. Where a fetch trap has fetched no
word, WORD of the frame is the word that the wave issued last. See assumption 131. -/
def Ctx.trap (c : Ctx) (t : Trap) : State :=
  ({ c with s := c.s.dropWalks c.core c.w.uid }).trapAt t c.f.pc c.w.word

/-- The bytes of a word as a fetch sees them. -/
inductive FetchOut where
  | word (w : BitVec 96)
  | fault (cls : Nat)
  | poisoned
  | miss (va : DWord)
  | line (l : Nat)
  deriving DecidableEq, Repr

/-- One byte of an instruction, fetched at a level: generated lines deliver their bytes when present; an absent one is no mapping for
a fetch (assumption 15). -/
def Ctx.fetchByte (c : Ctx) (user : Bool) (va : DWord) : Look × Byte × Bool :=
  match c.s.lookFor c.core c.w.part c.w.uid ⟨false, true, user⟩ va with
  | .ok pa e => (.ok pa e, c.s.mem.read pa, c.s.wordPoisoned pa)
  | .gen i =>
    match c.s.genLine c.w.part (va.toNat / 128) with
    | some g =>
      match g.state with
      | .valid | .zero => (.gen i, g.data.getD (va.toNat % 128) 0, false)
      | .poison => (.gen i, 0, true)
      | .filling => (.fault 1, 0, false)
    | none => (.fault 1, 0, false)
  | r => (r, 0, false)

/-- The flash line of an address, when the LLC does not hold it. See assumption 15. -/
def Ctx.flashMiss (c : Ctx) (pa : Nat) : Option Nat :=
  if inFlash pa && (c.s.llcLine c.w.part (pa / 128)).isNone then some (pa / 128) else none

/-- Fetches the 12 bytes at an address (R115): the first byte that does not translate decides, then a flash line that must come first
(R403). See assumption 15. -/
def Ctx.fetch (c : Ctx) (user : Bool) (pc : DWord) : FetchOut :=
  let bs := (List.range 12).map fun i => (pc + BitVec.ofNat 64 i, c.fetchByte user (pc + BitVec.ofNat 64 i))
  match bs.find? fun b => match b.2.1 with | .fault _ | .miss => true | _ => false with
  | some (va, .miss, _) => .miss va
  | some (_, .fault cls, _) => .fault cls
  | _ =>
    match bs.findSome? fun b => match b.2.1 with | .ok pa _ => c.flashMiss pa | _ => none with
    | some l => if c.w.fetchBad.contains l then .poisoned else .line l
    | none => if bs.any fun b => b.2.2.2 then .poisoned else .word (wordOfBytes (bs.map fun b => b.2.2.1))

/-- The fragment waits for the walk that a fetch needs (R375). -/
def Ctx.awaitFetch (c : Ctx) (user : Bool) (va : DWord) : State :=
  let s1 := c.s.requestWalk c.core c.w.part c.w.uid 0 ⟨false, true, user⟩ va
  ({ c with s := s1 } : Ctx).park (.walk (Config.sectorOf c.core) c.w.uid)

/-- The fragment waits for the flash line that a fetch needs (R403). See assumption 15. -/
def Ctx.awaitLine (c : Ctx) (l : Nat) : State :=
  let k : LineKey := .phys l
  let h := c.s.home c.w.part k
  let s1 := c.s.askSlot h ⟨c.w.depth, c.w.part, c.w.uid, k⟩ fun st => st.readSlot h ⟨c.w.depth, c.w.part, .line (k.copy c.w.part)⟩ (k.copy c.w.part)
  ({ c with s := s1 } : Ctx).park (.read h (copyNo c.w.part l))

/-- The value of a signed 3-bit step (R127). -/
def stepVal (x : BitVec 3) : Int := x.toInt

/-- Return from the handler (R351): the frame gives back s60 to s63, exec and the place to resume; the level becomes user
and the other fragments issue again. -/
def Ctx.eret (c : Ctx) : State :=
  if !c.f.handler then c.trap Trap.illegal
  else
    let off := c.s.frameOff c.w.part c.slot
    match c.frameBusy false with
    | some p => c.park p
    | none =>
      let g := fun (a n : Nat) => c.s.spNat c.core (off + a) n
      let bad := fun (a n : Nat) => (c.s.spRead c.core (off + a) n).any (·.2)
      let resume : DWord := BitVec.ofNat 64 (g 0 8)
      let iaddr : DWord := BitVec.ofNat 64 (g 16 8)
      let idx := g 12 1 % 64
      let w1 := (List.range 4).foldl (fun (w : Wave) i =>
        w.setS (60 + i) (SReg.write (BitVec.ofNat 64 (g (72 + 8 * i) 8)) (bad (72 + 8 * i) 8) .data)) c.w
      let back := fun (f : Fragment) => { f with
        exec := BitVec.ofNat 128 (g 56 16) &&& f.live, level := .user, handler := false }
      let tests := bitOf (g 12 1) 6 && iaddr == resume + 12
      let out := if tests then c.fetch true resume else .fault 0
      match out with
      | .miss va => c.awaitFetch true va
      | .line l => c.awaitLine l
      | _ =>
        let rep := match out with
          | .word x => (match decode x with
            | some (.rep _ d a b n) => some (⟨resume, idx, n.toNat + 1, stepVal d, stepVal a, stepVal b⟩ : Rep)
            | _ => none)
          | _ => none
        let w2 := match rep with
          | some r => w1.modCur fun f => { back f with pc := resume + 12, rep := some r, synced := [] }
          | none => w1.modCur fun f => { (back f).jump resume with synced := f.synced.filter fun x => x.pc = resume }
        (({ c with s := c.s.dropWalks c.core c.w.uid } : Ctx).put { w2 with alone := false, ibuf := [] }).settle c.core c.slot

/-! ### Barrier objects (R221, R223) -/

/-- A barrier object (R221). -/
structure Bar where
  arrexp  : Nat
  arrived : Nat
  phase   : Nat
  inexp   : Nat
  inrcvd  : Nat
  fault   : Bool
  fclass  : Nat
  deriving DecidableEq, Repr

/-- Reads a barrier object. See assumption 62. -/
def State.bar (s : State) (core off : Nat) : Bar :=
  let x := s.spNat core off 16
  ⟨bitsOf x 5 0, bitsOf x 13 8, bitsOf x 31 16, bitsOf x 63 32, bitsOf x 95 64, bitOf x 96, bitsOf x 99 97⟩

/-- The 16 bytes of a barrier object. -/
def Bar.bytes (b : Bar) : List Byte :=
  leBytes 16 (b.arrexp + b.arrived * 2 ^ 8 + b.phase * 2 ^ 16 + b.inexp * 2 ^ 32 + b.inrcvd * 2 ^ 64 + b.fault.toNat * 2 ^ 96 +
    b.fclass * 2 ^ 97)

/-- Adds to a byte count that saturates (R223, R226). -/
def Bar.saturate (b : Bar) (x : Nat) : Bar × Nat :=
  if x < 2 ^ 32 then (b, x)
  else ({ b with fault := true, fclass := if b.fclass = 0 then 7 else b.fclass }, 2 ^ 32 - 1)

/-- Evaluates the completion condition (R223). -/
def Bar.evaluate (b : Bar) : Bar :=
  if b.arrived = b.arrexp && b.inrcvd ≥ b.inexp && (b.arrexp > 0 || b.inexp > 0) then
    { b with inrcvd := b.inrcvd - b.inexp, inexp := 0, arrived := 0, phase := (b.phase + 1) % 2 ^ 16 }
  else b

/-- An inbound credit, with the class of its fault if the transfer had one; the operations of a killed wave carry class 0
(R38, R223). -/
def Bar.credit (b : Bar) (n : Nat) (fault : Option Nat) : Bar :=
  let b1 := match fault with
    | some cls => { b with fault := true, fclass := if b.fclass = 0 then cls else b.fclass }
    | none => b
  let (b2, x) := b1.saturate (b1.inrcvd + n)
  { b2 with inrcvd := x }.evaluate

/-- A fragment in a barrier wait at its instruction (R227). -/
def Fragment.addSync (f : Fragment) (x : Sync) : Fragment := { f with synced := x :: f.synced.filter fun y => y.pc ≠ x.pc }

/-- A fragment parked on an object when a phase of it completes (R223). See assumption 64. -/
def Fragment.wakeBar (f : Fragment) (core off : Nat) (fault : Bool) : Fragment :=
  match f.park with
  | some (.barrier c o token) =>
    if c = core && o = off then { f.addSync ⟨f.pc, token, some fault⟩ with park := none } else f
  | _ => f

/-- Writes a barrier object after an update; a phase that completes wakes every wave parked on it (R223). See assumption 64. -/
def State.setBar (s : State) (core off : Nat) (b : Bar) : State :=
  let s1 := s.spPut core off b.bytes
  if b.phase = (s.bar core off).phase then s1
  else { s1 with cores := s1.cores.map fun e => (e.1, e.2.mapWaves fun w => w.mapFragments fun f => f.wakeBar core off b.fault) }

/-- Sends an inbound credit to an object of a core; it lands at INBOUND_CREDIT. -/
def State.sendCredit (s : State) (core off n : Nat) (fault : Option Nat) : State :=
  let c := s.core core
  s.setCore core { c with credits := c.credits ++ [⟨off, n, fault.map fun k => BitVec.ofNat 3 k⟩] }

end Sys2Proof.Machine
end

