-- ==== Sys2Proof/Machine/Flags.lean ====
section
/-!
DEFINITION. Numerical exceptions: the window and cumulative counts, the thresholds and their actions (R70 to R72).
-/
namespace Sys2Proof.Machine

/-- Index of a class in XCNT and the SR_XTH registers. -/
def classNum (c : XClass) : Nat := c.code.toNat

/-- THRESH and ACTION of a class (R72). -/
def Core.threshold (c : Core) (k : XClass) : Nat × Nat :=
  let x := (c.xth.get 0xFFFFFFFF (classNum k)).toNat
  (x % 2 ^ 32, bitsOf x 33 32)

/-- A count that saturates at 2^32 - 1. -/
def satAdd (x n : Nat) : Nat := min (x + n) (2 ^ 32 - 1)

/-- The partition that a core serves: the one whose turn it is on its cluster, or the one that has the cluster. -/
def State.partAt (s : State) (core : Nat) : Option Nat :=
  match (s.cluster (Config.clusterOf core)).turn with
  | some p => some p
  | none => (s.parts.find? fun e => e.2.valid && e.2.hasCore core).map (·.1)

/-- Counts `n` events of a class on a core for an instruction of a wave, which lies in a slot of core `wc` (R71): the first
crossing of THRESH in a window runs the action. A trap is taken at the wave's next issue, where `traps` allows one. DESIGN CHOICE: an ACTION of 0 counts as
run, so that one written later in the window does nothing until the restart; and the host interrupt goes to the physical function
with the device's error vector (assumption 30). See assumption 101. See assumption 139. -/
def State.countFor (s : State) (traps : Bool) (core wc slot uid : Nat) (k : XClass) (n : Nat) (iaddr : DWord) (word : BitVec 96) : State :=
  if n = 0 then s
  else
    let c := s.core core
    let i := classNum k
    let win := satAdd (c.xwin.get 0 i) n
    let (thresh, action) := c.threshold k
    let run := decide (win > thresh) && !c.xran.contains k
    let c1 := { c with
      xwin := c.xwin.put i win, xcum := c.xcum.put i (satAdd (c.xcum.get 0 i) n),
      xran := if run then c.xran ++ [k] else c.xran }
    let s1 := s.setCore core c1
    if !run then s1
    else
      let s2 := if traps && (action = 1 || action = 3) then
          s1.modWave wc slot fun w => if w.uid = uid then { w with xlimit := w.xlimit ++ [(k, iaddr, word)] } else w
        else s1
      if action ≥ 2 then
        let here := match s2.wave? wc slot with | some w => if w.uid = uid then some w.part else none | none => none
        let part := match here with | some p => some p | none => s2.partAt core
        (s2.record { source := 19, sev := 1, unit := core, cls := i, part := part, handle := if here.isSome then s2.handleOf wc slot else 0, addr := iaddr.toNat }).irq 32
          (s2.dev.errCtl.toNat % 2048)
      else s2

/-- Counts events for an instruction of a wave that may trap for them. -/
def State.countOn (s : State) (core wc slot uid : Nat) (k : XClass) (n : Nat) (iaddr : DWord) (word : BitVec 96) : State :=
  s.countFor true core wc slot uid k n iaddr word

/-- The classes in the order of their codes. -/
def allClasses : List XClass := [.inv, .dz, .ofl, .ufl, .nx, .sat, .nanin]

/-- Counts a list of events, class by class. -/
def State.countAll (s : State) (core slot uid : Nat) (evs : List (XClass × Nat)) (iaddr : DWord) (word : BitVec 96) : State :=
  evs.foldl (fun st e => st.countOn core core slot uid e.1 e.2 iaddr word) s

/-- How many threads raise each class (R70): each class once for each thread. -/
def tally (exc : List (List XClass)) : List (XClass × Nat) :=
  allClasses.map fun k => (k, (exc.filter fun l => l.contains k).length)

end Sys2Proof.Machine
end

