-- ==== Sys2Proof/Machine/Operands.lean ====
section
/-!
DEFINITION. Operand forms: immediates (R119), cross-lane sources (R122, R123), the guard (R120), the checks at issue in
their order (R54), and the shared frame of every instruction that computes thread by thread, with checked issue (R35).
-/
namespace Sys2Proof

/-- Tag codes accepted for a source of a type (R45); none: any. -/
def Ty.tags : Ty → Option (List Nat)
  | .b32 => none
  | .s32 | .n32 | .s64 | .n64 => some [0, 1, 2]
  | .f32 => some [0, 3]
  | .f16 => some [0, 4]
  | .bf16 => some [0, 5]
  | .e4m3 | .e2m3 => some [0, 6]
  | .e5m2 | .e3m2 => some [0, 7]
  | .e2m1 => some [0, 8]
  | .cb4 => some [0, 9]
  | .s8 => some [0, 10]
  | .n8 => some [0, 11]
  | .s16 => some [0, 12]
  | .n16 => some [0, 13]

/-- The tag that a destination of a type takes (R45). -/
def Ty.tag : Ty → BitVec 5
  | .b32 => 0
  | .s32 | .s64 => 1
  | .n32 | .n64 => 2
  | .f32 => 3
  | .f16 => 4
  | .bf16 => 5
  | .e4m3 | .e2m3 => 6
  | .e5m2 | .e3m2 => 7
  | .e2m1 => 8
  | .cb4 => 9
  | .s8 => 10
  | .n8 => 11
  | .s16 => 12
  | .n16 => 13

end Sys2Proof

namespace Sys2Proof.Machine

/-! ### Values of operand fields -/

/-- The value that the immediate delivers for an operand type (R119). -/
def immValue (ty : Ty) (imm : BitVec 21) : Nat :=
  let x := imm.toNat
  match ty with
  | .b32 | .s32 | .n32 => wrapN 32 imm.toInt
  | .s64 | .n64 => wrapN 64 imm.toInt
  | .f32 => x * 2 ^ 11
  | .f16 | .bf16 | .s16 | .n16 => x % 2 ^ 16 * 0x10001
  | .e4m3 | .e5m2 | .e3m2 | .e2m3 | .s8 | .n8 => x % 2 ^ 8 * 0x1010101
  | .e2m1 | .cb4 => x % 2 ^ 4 * 0x11111111

/-- The bits that an operand field delivers to a thread. -/
def Wave.value (w : Wave) (exec : Mask) (o : Opnd) (ty : Ty) (imm : BitVec 21) (t : Nat) : Nat :=
  match o with
  | .v n => if ty.is64 then ((w.v n.toNat).vals.getD t 0).toNat + 2 ^ 32 * ((w.v (n.toNat + 1)).vals.getD t 0).toNat
    else ((w.v n.toNat).vals.getD t 0).toNat
  | .s n => if ty.is64 then (w.s n.toNat).val.toNat else (w.s n.toNat).val.toNat % 2 ^ 32
  | .p n => ((w.p n.toNat).bits.getLsbD t).toNat
  | .exec => (exec.getLsbD t).toNat
  | .imm => immValue ty imm
  | _ => 0

/-- The poison that an operand field delivers to a thread. -/
def Wave.poisonAt (w : Wave) (o : Opnd) (is64 : Bool) (t : Nat) : Bool :=
  match o with
  | .v n => (w.v n.toNat).poison.getLsbD t || (is64 && (w.v (n.toNat + 1)).poison.getLsbD t)
  | .s n => (w.s n.toNat).poison
  | .p n => (w.p n.toNat).poison.getLsbD t
  | _ => false

/-- Whether the poison that an operand field delivers to a thread carries DATA: that of a register whose flag is DATA (R52). -/
def Wave.taintAt (w : Wave) (o : Opnd) (is64 : Bool) (t : Nat) : Bool :=
  match o with
  | .v _ => (w.poisonAt o false t && w.originOf o == .data) || (is64 && w.poisonAt (o.plus 1) false t && w.originOf (o.plus 1) == .data)
  | x => w.poisonAt x is64 t && w.originOf x == .data

/-- The origin that the poison of an operand field carries in a thread. -/
def Wave.originAt (w : Wave) (o : Opnd) (is64 : Bool) (t : Nat) : Origin := if w.taintAt o is64 t then .data else .fault

/-! ### Cross-lane sources -/

/-- Where a reading thread's SRCA value comes from (R122, R123). -/
inductive XSrc where
  | thread (u : Nat)
  | zero
  | srcb
  deriving DecidableEq, Repr

/-- The fill of a thread outside the wave. -/
def fillSrc (f : Fill) (t : Nat) : XSrc :=
  match f with
  | .own => .thread t
  | .zero => .zero
  | .srcb => .srcb

/-- The source of thread t in a wave of width W (R122). See assumption 72. -/
def xlSource (x : Xl) (width t : Nat) : XSrc :=
  match x with
  | .none => .thread t
  | .shift k f =>
    let u : Int := (t : Int) + k.toInt
    if u < 0 || u ≥ width then fillSrc f t else .thread u.toNat
  | .xor j => .thread (t ^^^ (width >>> j.toNat))
  | .rot j => .thread ((t + (width >>> j.toNat)) % width)
  | .bcast n f => if n.toNat < width then .thread n.toNat else fillSrc f t

/-- SRCA's value for a thread, through the cross-lane modifier; a srcb fill is SRCB as its own type reads it, so a 32-bit one fills the low half of a
64-bit value and leaves zeros above. See assumptions 72, 135. -/
def Wave.valueA (w : Wave) (exec : Mask) (o : Ops) (ty tyB : Ty) (t : Nat) : Nat :=
  match xlSource o.xl w.width t with
  | .thread u => w.value exec o.a ty o.imm u
  | .zero => 0
  | .srcb => w.value exec o.b tyB o.imm t

/-- SRCA's poison for a thread. See assumption 72. -/
def Wave.poisonA (w : Wave) (o : Ops) (a64 b64 : Bool) (t : Nat) : Bool :=
  match xlSource o.xl w.width t with
  | .thread u => w.poisonAt o.a a64 u
  | .zero => false
  | .srcb => w.poisonAt o.b b64 t

/-- Whether SRCA's poison for a thread carries DATA. -/
def Wave.taintA (w : Wave) (o : Ops) (a64 b64 : Bool) (t : Nat) : Bool :=
  match xlSource o.xl w.width t with
  | .thread u => w.taintAt o.a a64 u
  | .zero => false
  | .srcb => w.taintAt o.b b64 t

/-! ### The guard (R120) -/

/-- The threads of the wave. -/
def Wave.all (w : Wave) : Mask := Mask.first w.width

/-- Threads whose guard bit is true. -/
def Wave.guardBits (w : Wave) (g : Guard) : Mask :=
  let b := (w.p g.p.toNat).bits
  if g.neg then ~~~b else b

/-- Threads whose guard bit is poisoned; p7 never is. -/
def Wave.guardPoison (w : Wave) (g : Guard) : Mask := (w.p g.p.toNat).poison

/-- The active threads of a vector instruction: a poisoned guard counts as true (R54, R120). -/
def Ctx.active (c : Ctx) (g : Guard) : Mask := c.f.exec &&& (c.w.guardBits g ||| c.w.guardPoison g)

/-- The threads whose guard a uniform instruction reads. -/
def Ctx.guardScope (c : Ctx) : Mask := if c.f.exec = 0 then c.w.all else c.f.exec

/-- Whether a uniform instruction executes (R120); a poisoned guard counts as true, and then raises POISON. -/
def Ctx.uniformRuns (c : Ctx) (g : Guard) : Bool := c.guardScope &&& (c.w.guardBits g ||| c.w.guardPoison g) != 0

/-- The thread whose predicate bits a uniform instruction reads: the lowest active one, thread 0 when exec is zero (R130).
DESIGN CHOICE (assumption 31): SR_TID in a scalar destination reads its number. -/
def Ctx.uniThread (c : Ctx) : Nat := (Mask.lowest c.f.exec).getD 0

/-! ### The checks at issue (R54) -/

/-- One register that an instruction uses: its operand field as encoded, what is done with it, the tags it may carry
(none: any), and whether the use consumes poison (R53). -/
structure Use where
  reg     : Opnd
  field   : Opnd
  fe      : Bool := false
  read    : Bool := true
  write   : Bool := false
  tags    : Option (List Nat) := none
  consume : Bool := false
  far     : Bool := false      -- a number past v255, which no wave holds
  deriving DecidableEq, Repr

/-- Why an instruction does not execute. -/
inductive Stop where
  | trap (t : Trap)
  | park (p : Park)
  | nest (m : NestMark) (reg : Opnd)
  deriving DecidableEq, Repr

/-- REGBOUND for a register (R40). -/
def Wave.outOfBlocks (w : Wave) (u : Use) : Bool :=
  u.far || match u.reg with
  | .v n => n.toNat ≥ 16 * w.blocks
  | _ => false

/-- Whether a register's tag fails its check (R45). -/
def Wave.tagFails (w : Wave) (u : Use) : Bool :=
  match u.reg, u.tags with
  | .v n, some ts => u.read && !ts.contains (w.v n.toNat).tag.toNat
  | _, _ => false

/-- A pending nest trap of a register (R298). -/
def Wave.nestOf (w : Wave) (o : Opnd) : Option NestMark :=
  match o with
  | .v n => (w.v n.toNat).nest
  | .s n => (w.s n.toNat).nest
  | _ => none

/-- The poisoned threads of a register. -/
def Wave.poisonOf (w : Wave) (o : Opnd) : Mask :=
  match o with
  | .v n => (w.v n.toNat).poison
  | .s n => if (w.s n.toNat).poison then BitVec.allOnes 128 else 0
  | .p n => (w.p n.toNat).poison
  | _ => 0

/-- The poison that a consuming use meets in the threads of a mask: thread and origin (R53). -/
def Wave.consumed (w : Wave) (act : Mask) (u : Use) : Option (Nat × Origin) :=
  if !u.consume then none
  else match u.reg with
    | .s n => if (w.s n.toNat).poison then some (0, (w.s n.toNat).origin) else none
    | r => match Mask.lowest (w.poisonOf r &&& act) with
      | some t => some (t, w.originOf r)
      | none => none

/-- Steps 2 to 5 of R54 for the uses of an instruction and its guard: `act` is the threads that use vector operands,
`gmask` the threads whose guard is read. A stepped number that has left its range fails step 2 (R127). DESIGN CHOICE: of several uses
that fail one step, the first in the order SRCA, SRCB, destination decides, so of empty operands with differing FE bits whether the
fragment parks or traps (R48), and of poisoned operands with differing origins whether a handler runs (R53); the guard comes before
the operands (assumption 32). -/
def Ctx.check (c : Ctx) (act gmask : Mask) (g : Guard) (us : List Use) : Option Stop :=
  let w := c.w
  let trap := fun (cause : Nat) (u : Use) => some (Stop.trap { cause := cause, oper := u.field.bits.toNat })
  match w.stray with
  | some x => some (.trap { cause := 2, oper := x.toNat })
  | none =>
  match us.find? fun u => w.outOfBlocks u with
  | some u => trap 2 u
  | none =>
  match us.find? fun u => w.tagFails u with
  | some u => trap 3 u
  | none =>
  match us.find? fun u => w.isEmpty u.reg with
  | some u => if u.read && u.fe then trap 4 u else some (.park (.regs [u.reg]))
  | none =>
  match (if c.f.nest.isNone then us.findSome? fun u => if u.read then (w.nestOf u.reg).map fun m => (m, u.reg) else none else none) with
  | some (m, r) => some (.nest m r)
  | none =>
  match Mask.lowest (w.guardPoison g &&& gmask) with
  | some t => some (.trap { cause := 5, thread := t, oper := (Opnd.p g.p).bits.toNat, origin := (w.p g.p.toNat).origin })
  | none =>
  match us.findSome? fun u => (w.consumed act u).map fun p => (u, p) with
  | some (u, t, o) => some (.trap { cause := 5, thread := t, oper := u.field.bits.toNat, origin := o })
  | none => none

/-- Entry into a generator's nest handler (R298): s63, s62 and s61 are set and the fragment continues at the handler
recorded with the mark, at user level with the same exec; the level is held until it leaves. -/
def Ctx.enterNest (c : Ctx) (m : NestMark) (reg : Opnd) : State :=
  let here := match c.f.rep with | some r => r.addr | none => c.f.pc
  let w1 := ((c.w.putS 63 here).putS 62 m.line).putS 61 (BitVec.ofNat 64 reg.bits.toNat)
  c.put { w1.modCur (fun f => { f with pc := m.handler, nest := some (f.rep, f.level), rep := none, level := .user }) with ibuf := [] }

/-- What a failed check does. -/
def Ctx.stop (c : Ctx) : Stop → State
  | .trap t => c.trap t
  | .park p => c.park p
  | .nest m r => c.enterNest m r

/-- Runs a vector instruction: void without an active thread (R27, R54), then the checks, then the effect. -/
def Ctx.vector (c : Ctx) (g : Guard) (us : List Use) (k : Mask → State) : State :=
  let act := c.active g
  if act = 0 then c.next c.s
  else match c.check act c.f.exec g us with
    | some st => c.stop st
    | none => k act

/-- The cause of a uniform instruction names no thread (R346). -/
def Stop.uniform : Stop → Stop
  | .trap t => .trap { t with thread := 0 }
  | x => x

/-- Runs a uniform instruction: one guarded "never" does nothing (R120); otherwise it is checked as usual (R54), whatever
its guard, and has its effect when the guard is true. -/
def Ctx.uniformOn (c : Ctx) (g : Guard) (act : Mask) (us : List Use) (k : State) : State :=
  if g = Guard.never then c.next c.s
  else match c.check act c.guardScope g us with
    | some st => c.stop st.uniform
    | none => if c.uniformRuns g then k else c.next c.s

/-- The same where predicate operands are used in the threads whose guard is read. -/
def Ctx.uniform (c : Ctx) (g : Guard) (us : List Use) (k : State) : State := c.uniformOn g c.guardScope us k

/-! ### Tags (R44, R45) -/

/-- The tag rule of an address pair: half 0 and half 1 (R45). -/
def addrTags (half : Nat) : Option (List Nat) := some [0, 2, if half = 0 then 14 else 15]

/-- The uses of an operand field that holds one register or, for a 64-bit type, a vector pair. -/
def usesOf (o : Opnd) (is64 fe read write consume : Bool) (tags : Nat → Option (List Nat)) : List Use :=
  match o with
  | .v _ =>
    let one := fun (i : Nat) => ({ reg := o.plus i, field := o, fe := fe, read := read, write := write, tags := tags i, consume := consume } : Use)
    if is64 then [one 0, one 1] else [one 0]
  | .s _ => [{ reg := o, field := o, fe := fe, read := read, write := write, consume := consume }]
  | .p _ => [{ reg := o, field := o, read := read, write := write, consume := consume }]
  | _ => []

/-- The uses of `n` consecutive registers from an operand field. -/
def runUses (o : Opnd) (n : Nat) (fe read write consume : Bool) (tags : Nat → Option (List Nat)) : List Use :=
  match o with
  | .v k => (List.range n).map fun i =>
      { reg := o.plus i, field := o, fe := fe, read := read, write := write, tags := tags i, consume := consume
        far := decide (k.toNat + i > 255) }
  | .s _ => (List.range n).map fun i => { reg := o.plus i, field := o, fe := fe, read := read, write := write, consume := consume }
  | _ => []

/-! ### Instructions that compute thread by thread -/

/-- What one thread's computation reads. -/
structure LaneIn where
  a : Nat
  b : Nat
  d : Nat
  p : Bool
  t : Nat
  deriving DecidableEq, Repr

/-- What one thread's computation gives: the result bits, a predicate bit, and the exceptions it raises. -/
structure LaneOut where
  val : Nat := 0
  p   : Bool := false
  exc : List XClass := []
  deriving DecidableEq, Repr

/-- The shape of a thread-by-thread instruction: operand types, tag rules, the predicate read and written, the result's
width and tags, and the computation. -/
structure Plan where
  tyA    : Ty
  tyB    : Ty := .b32
  tyD    : Ty := .b32
  tagA   : Nat → Option (List Nat) := fun _ => none
  tagB   : Nat → Option (List Nat) := fun _ => none
  tagD   : Nat → Option (List Nat) := fun _ => none
  readD  : Bool := false
  pin    : Option (Nat × Bool) := none
  pick   : Bool := false          -- the predicate chooses between a and b, whose poison alone then counts (R52)
  out64  : Bool := false
  sext   : Bool := false          -- a 32-bit result in a scalar is sign-extended (R131)
  tagOut : Nat → BitVec 5 := fun _ => 0
  pout   : Option Nat := none
  long   : Bool := false          -- a special function (R47)
  run    : LaneIn → LaneOut

/-- The uses of an instruction of this shape: sources A, B, the third source, then the destination. -/
def Plan.uses (pl : Plan) (o : Ops) : List Use :=
  let srcbTags := match o.xl with
    | .shift _ .srcb | .bcast _ .srcb => usesOf o.b pl.tyB.is64 o.feB true false false pl.tagA
    | _ => []
  usesOf o.a pl.tyA.is64 o.feA true false false pl.tagA ++ usesOf o.b pl.tyB.is64 o.feB true false false pl.tagB ++ srcbTags ++
    (if pl.readD then usesOf o.dst pl.tyD.is64 o.feD true true false pl.tagD
     else match o.dst with
      | .p _ => []
      | d => usesOf d pl.out64 false false true false fun _ => none)

/-- What a thread reads. -/
def Ctx.laneIn (c : Ctx) (o : Ops) (pl : Plan) (t : Nat) : LaneIn :=
  { a := c.w.valueA c.f.exec o pl.tyA pl.tyB t
    b := c.w.value c.f.exec o.b pl.tyB o.imm t
    d := if pl.readD then c.w.value c.f.exec o.dst pl.tyD o.imm t else 0
    p := match pl.pin with | some (n, neg) => (c.w.p n).bits.getLsbD t != neg | none => false
    t := t }

/-- Whether a thread's result is poisoned (R52). -/
def Ctx.lanePoison (c : Ctx) (o : Ops) (pl : Plan) (t : Nat) : Bool :=
  let pp := match pl.pin with | some (n, _) => (c.w.p n).poison.getLsbD t | none => false
  let a := c.w.poisonA o pl.tyA.is64 pl.tyB.is64 t
  let b := c.w.poisonAt o.b pl.tyB.is64 t
  if pl.pick then pp || (if (c.laneIn o pl t).p then a else b)
  else pp || a || b || (pl.readD && c.w.poisonAt o.dst pl.tyD.is64 t)

/-- Whether a thread used poison that carries DATA (R52). -/
def Ctx.laneData (c : Ctx) (o : Ops) (pl : Plan) (t : Nat) : Bool :=
  let pp := match pl.pin with | some (n, _) => (c.w.p n).poison.getLsbD t && (c.w.p n).origin == .data | none => false
  let a := c.w.taintA o pl.tyA.is64 pl.tyB.is64 t
  let b := c.w.taintAt o.b pl.tyB.is64 t
  if pl.pick then pp || (if (c.laneIn o pl t).p then a else b)
  else pp || a || b || (pl.readD && c.w.taintAt o.dst pl.tyD.is64 t)

/-- The origin that the poisoned inputs of an instruction carry (R52). -/
def Ctx.laneOrigin (c : Ctx) (o : Ops) (pl : Plan) (act : Mask) : Origin :=
  if act.threads.any fun t => c.laneData o pl t then .data else .fault

/-- What an upset flips in a thread's result of an issue (R411). See assumption 4. -/
def State.flips (s : State) (issue t : Nat) : Flip :=
  s.upsets.foldl (fun x u => if u.issue = issue && u.thread = t then x ^^^ u.flip else x) 0

/-- The flipped bits of a result of at most 64 bits. -/
def Flip.low (x : Flip) : Nat := x.toNat % 2 ^ 64

/-- The flipped bits of word k of a result. -/
def Flip.word (x : Flip) (k : Nat) : Nat := bitsOf x.toNat (32 * k + 31) (32 * k)

/-- The bits that a result of n words and its poison write. -/
def Flip.ofWords (n : Nat) : Flip := BitVec.ofNat 258 (2 ^ (32 * n) - 1 + 2 ^ 257)

/-- The outcome of the issues of a vector instruction (R35, R419). -/
inductive Vote where
  /-- the result of an issue stands -/
  | use (issue : Nat)
  /-- the result of an issue stands, after a vote that an issue lost at a thread -/
  | corrected (issue lost thread : Nat)
  /-- no majority; the first differing thread -/
  | none (thread : Nat)
  deriving DecidableEq, Repr

/-- Compares the issues of a checked instruction (R35). `eff` keeps the bits that are written. See assumption 4. -/
def State.vote (s : State) (checked : Bool) (act : Mask) (eff : Flip) : Vote :=
  if s.upsets.isEmpty || !checked then .use 0
  else
    let differ := fun (i j : Nat) => act.threads.find? fun t => s.flips i t &&& eff != s.flips j t &&& eff
    match differ 0 1 with
    | .none => .use 0
    | some t =>
      if (differ 2 0).isNone then .corrected 2 1 t
      else if (differ 2 1).isNone then .corrected 2 0 t
      else .none t

/-- Counts a correction and the outvote of a lane (R35, R419). See assumption 101. -/
def State.outvote (s : State) (core slot part lost thread : Nat) : State :=
  let c := s.core core
  let lane := slot / 6 * 32 + (thread + lost) % 32
  let n := min (c.outv.get 0 lane + 1) 15
  let report := decide (n ≥ 8) && !c.susp.contains lane
  let s1 := s.setCore core { c with
    corrected := if c.corrected = BitVec.allOnes 32 then c.corrected else c.corrected + 1,
    outv := c.outv.put lane n, susp := if report then c.susp ++ [lane] else c.susp }
  if report then s1.record { source := 13, sev := 1, unit := core, lane := lane % 32 + lane / 32 * 32, part := some part } else s1

/-- Kills a wave whose vote found no majority (R420). -/
def Ctx.chkKill (c : Ctx) (thread : Nat) : State :=
  ({ c.s with upsets := [] } : State).killWave c.core c.slot { source := 12, sev := 2, lane := thread % 32, addr := c.f.pc.toNat }

/-- Sign or zero extension of a 32-bit result in a scalar (R131). -/
def extend32 (sext : Bool) (x : Nat) : DWord := BitVec.ofNat 64 (if sext then wrapN 64 (sVal 32 x) else x % 2 ^ 32)

/-- What a vector ALU or special-function instruction gives: per thread, its result; the poisoned threads and their origin;
the width and tags of the result; the predicate written; whether it is long-latency; and the scalar it writes instead. -/
structure Result where
  outs   : List LaneOut
  poison : Mask := 0
  origin : Origin := .fault
  out64  : Bool := false
  tagOut : Nat → BitVec 5 := fun _ => 0
  pout   : Option Nat := none
  long   : Bool := false
  scalar : Option (Nat × Bool) := none   -- value and poison of a scalar destination (BCAST, REDUCE)
  evs    : Option (List (XClass × Nat)) := none   -- counts, when not once for each thread

/-- Writes the results of a vector instruction. -/
def Wave.putLanes (w : Wave) (dst : Opnd) (r : Result) (act : Mask) (val : Nat → Nat) : Wave :=
  match dst with
  | .v n =>
    let w1 := w.setV n.toNat ((w.v n.toNat).write act (fun t => BitVec.ofNat 32 (val t)) r.poison r.origin (r.tagOut 0))
    if r.out64 then
      w1.setV (n.toNat + 1) ((w1.v (n.toNat + 1)).write act (fun t => BitVec.ofNat 32 (val t / 2 ^ 32)) r.poison r.origin (r.tagOut 1))
    else w1
  | .s n => match r.scalar with
    | some (x, bad) => w.setS n.toNat (SReg.write (BitVec.ofNat 64 x) bad r.origin)
    | none => w
  | _ => w

/-- The vote of a checked launch (R35): kills the wave without a majority, else counts a correction and hands on what the
issue that stands flips in each thread. `eff` keeps the bits that are written. -/
def Ctx.voted (c : Ctx) (act : Mask) (eff : Flip) (k : State → (Nat → Flip) → State) : State :=
  let flip := fun (issue t : Nat) => if c.s.upsets.isEmpty then 0 else c.s.flips issue t
  let s0 : State := { c.s with upsets := [] }
  match c.s.vote c.w.checked act eff with
  | .none t => c.chkKill t
  | .use i => k s0 (flip i)
  | .corrected i lost t => k (s0.outvote c.core c.slot c.w.part lost t) (flip i)

/-- The bits of each thread that a result writes: its value, its predicate bit and its poison. -/
def Result.written (r : Result) (dst : Opnd) : Flip :=
  let bits := match dst with
    | .v _ => if r.out64 then 2 ^ 64 - 1 else 2 ^ 32 - 1
    | .s _ => if r.scalar.isSome then 2 ^ 64 - 1 else 0
    | _ => 0
  BitVec.ofNat 258 (bits + (if r.pout.isSome then 2 ^ 256 else 0) + 2 ^ 257)

/-- The threads whose results are compared: for a scalar destination the lowest active one, whose lane gives it (assumption 4). -/
def comparedThreads (dst : Opnd) (act : Mask) : Mask :=
  match dst with
  | .s _ => (match Mask.lowest act with | some t => Mask.one t | none => 0)
  | _ => act

/-- A result as the issue that stands gives it, with the bits that upsets flip. -/
def Result.flipped (r : Result) (act : Mask) (flip : Nat → Flip) : Result :=
  if (List.range 128).all fun t => flip t == 0 then r
  else
    let lead := flip ((Mask.lowest act).getD 0)
    { r with
      outs := r.outs.zipIdx.map fun x => { x.1 with val := x.1.val ^^^ (flip x.2).low, p := x.1.p != (flip x.2).getLsbD 256 }
      poison := r.poison ^^^ Mask.ofPred fun t => act.getLsbD t && (flip t).getLsbD 257
      scalar := r.scalar.map fun x => (x.1 ^^^ lead.low, x.2 != lead.getLsbD 257) }

/-- Writes the result of a vector instruction, or starts a special function, on a state. -/
def Ctx.writeResult (c : Ctx) (s1 : State) (dst : Opnd) (act : Mask) (r : Result) : State :=
  let val := fun (t : Nat) => (r.outs.getD t {}).val
  let evs := r.evs.getD (tally (r.outs.map (·.exc)))
  if r.long then
    let w1 := match dst with | .v n => c.w.markEmpty (.v n) (r.tagOut 0) | _ => c.w
    let k := s1.core c.core
    let op : MemOp := ⟨s1.uid, c.w.uid, c.slot, c.f.level, c.w.depth,
      .value dst ((List.range 128).map fun t => BitVec.ofNat 32 (val t)) act r.poison r.origin evs c.f.pc c.w.word, [], c.w.launch, false, c.w.part, false⟩
    c.next ((s1.fresh.setCore c.core { k with memq := k.memq ++ [op] }).setWave c.core c.slot w1)
  else
    let w1 := c.w.putLanes dst r act val
    let w2 := match r.pout with
      | some n => w1.setP n ((w1.p n).write act (Mask.ofPred fun t => act.getLsbD t && (r.outs.getD t {}).p) r.poison r.origin)
      | none => w1
    c.next ((s1.setWave c.core c.slot w2).countAll c.core c.slot c.w.uid evs c.f.pc c.w.word)

/-- The end of a vector instruction: the vote of a checked launch over every written bit (R35), then the write, or the start of a
special function. -/
def Ctx.commit (c : Ctx) (dst : Opnd) (act : Mask) (r : Result) : State :=
  c.voted (comparedThreads dst act) (r.written dst) fun s1 flip => c.writeResult s1 dst act (r.flipped act flip)

/-- One result for each thread of a mask. -/
def lanes (act : Mask) (f : Nat → LaneOut) : List LaneOut := (List.range 128).map fun t => if act.getLsbD t then f t else {}

/-- Vector form of a thread-by-thread instruction, once its checks have passed. DESIGN CHOICE: the value bits of a thread that becomes
poisoned are the operation's result (R51 allows any pattern; assumption 33). -/
def Ctx.runVector (c : Ctx) (o : Ops) (pl : Plan) (act : Mask) : State :=
  let poison := Mask.ofPred fun t => act.getLsbD t && c.lanePoison o pl t
  c.commit o.dst act
    { outs := lanes act fun t => pl.run (c.laneIn o pl t), poison := poison
      origin := if poison = 0 then .fault else c.laneOrigin o pl act
      out64 := pl.out64, tagOut := pl.tagOut, pout := pl.pout, long := pl.long }

/-- The result of a thread as the environment may have upset it on its one issue: no check sees it (R35, R411). -/
def Ctx.upsetOut (c : Ctx) (t : Nat) (out : LaneOut) (bad : Bool) : LaneOut × Bool :=
  if c.s.upsets.isEmpty then (out, bad)
  else let u := c.s.flips 0 t; ({ out with val := out.val ^^^ u.low, p := out.p != u.getLsbD 256 }, bad != u.getLsbD 257)

/-- The end of the uniform form: the one result is written, a special function's when its operation completes. A predicate destination
is written in every thread of the wave. -/
def Ctx.writeUniform (c : Ctx) (o : Ops) (pl : Plan) (out : LaneOut) (bad : Bool) : State :=
  let t := c.uniThread
  let org := if c.lanePoison o pl t then c.laneOrigin o pl (Mask.one t) else .fault
  let evs := out.exc.eraseDups.map fun k => (k, 1)
  let x := if pl.out64 then BitVec.ofNat 64 out.val else extend32 pl.sext out.val
  if pl.long then
    let w1 := match o.dst with | .s n => c.w.markEmpty (.s n) 0 | _ => c.w
    let k := c.s.core c.core
    let op : MemOp := ⟨c.s.uid, c.w.uid, c.slot, c.f.level, c.w.depth,
      .value o.dst [BitVec.ofNat 32 out.val] 1 (if bad then 1 else 0) org evs c.f.pc c.w.word, [], c.w.launch, false, c.w.part, false⟩
    c.next ((c.s.fresh.setCore c.core { k with memq := k.memq ++ [op] }).setWave c.core c.slot w1)
  else
    let w1 := match o.dst with
      | .s n => c.w.setS n.toNat (SReg.write x bad org)
      | _ => c.w
    let w2 := match pl.pout with
      | some n => w1.setP n ((w1.p n).write c.w.all (if out.p then c.w.all else 0) (if bad then c.w.all else 0) org)
      | none => w1
    c.next ((c.put w2).countAll c.core c.slot c.w.uid evs c.f.pc c.w.word)

/-- Uniform form: once, with the thread of R130. An upset of that one issue is used up (R411). -/
def Ctx.runUniform (c : Ctx) (o : Ops) (pl : Plan) : State :=
  let r := c.upsetOut c.uniThread (pl.run (c.laneIn o pl c.uniThread)) (c.lanePoison o pl c.uniThread)
  Ctx.writeUniform { c with s := { c.s with upsets := [] } } o pl r.1 r.2

/-- A thread-by-thread instruction: the guard, the checks of R54, then its vector or uniform form. -/
def Ctx.alu (c : Ctx) (o : Ops) (pl : Plan) : State :=
  if o.anyV then c.vector o.guard (pl.uses o) (fun act => c.runVector o pl act)
  else c.uniform o.guard (pl.uses o) (c.runUniform o pl)

end Sys2Proof.Machine
end

