-- ==== Sys2Proof/Machine/Float.lean ====
section
/-!
DEFINITION. Number formats and their arithmetic (R56 to R68): values as exact dyadic numbers, one rounding for every
format, conversions and saturation, and the special functions within their bounds (R158, R159).
-/
namespace Sys2Proof.Machine

/-! ### Formats (R56) -/

/-- How a format uses its top encodings. -/
inductive FmtKind where
  /-- infinities and NaNs at the top exponent -/
  | ieee
  /-- no infinity, one NaN for each sign (E4M3) -/
  | e4m3
  /-- every encoding is a finite number -/
  | finite
  deriving DecidableEq, Repr

/-- A floating-point format: exponent bits, fraction bits, bias. -/
structure Fmt where
  e    : Nat
  f    : Nat
  bias : Nat
  kind : FmtKind
  deriving DecidableEq, Repr

def fp32 : Fmt := ⟨8, 23, 127, .ieee⟩
def fp16 : Fmt := ⟨5, 10, 15, .ieee⟩
def bf16 : Fmt := ⟨8, 7, 127, .ieee⟩
def e4m3 : Fmt := ⟨4, 3, 7, .e4m3⟩
def e5m2 : Fmt := ⟨5, 2, 15, .ieee⟩
def e3m2 : Fmt := ⟨3, 2, 3, .finite⟩
def e2m3 : Fmt := ⟨2, 3, 1, .finite⟩
def e2m1 : Fmt := ⟨2, 1, 1, .finite⟩

/-- Bits of an encoding. -/
def Fmt.bits (x : Fmt) : Nat := 1 + x.e + x.f

/-- A value: a NaN (signalling or not), an infinity, or the exact number (-1)^neg × m × 2^e. -/
inductive FVal where
  | nan (signalling : Bool)
  | inf (neg : Bool)
  | fin (neg : Bool) (m : Nat) (e : Int)
  deriving DecidableEq, Repr

/-- The value of an encoding. -/
def Fmt.value (x : Fmt) (b : Nat) : FVal :=
  let neg := bitOf b (x.e + x.f)
  let ex := b / 2 ^ x.f % 2 ^ x.e
  let fr := b % 2 ^ x.f
  let top := 2 ^ x.e - 1
  let finite : FVal := if ex = 0 then .fin neg fr (1 - (x.bias : Int) - x.f)
    else .fin neg (2 ^ x.f + fr) ((ex : Int) - x.bias - x.f)
  match x.kind with
  | .ieee => if ex = top then (if fr = 0 then .inf neg else .nan (!bitOf fr (x.f - 1))) else finite
  | .e4m3 => if ex = top && fr = 2 ^ x.f - 1 then .nan false else finite
  | .finite => finite

/-- The canonical NaN (R57). -/
def Fmt.canonicalNaN (x : Fmt) : Nat :=
  match x.kind with
  | .ieee => (2 ^ x.e - 1) * 2 ^ x.f + 2 ^ (x.f - 1)
  | .e4m3 => 2 ^ (x.e + x.f) - 1
  | .finite => 0

/-- An infinity; for a format without, its largest finite value. -/
def Fmt.infinity (x : Fmt) (neg : Bool) : Nat := neg.toNat * 2 ^ (x.e + x.f) + (2 ^ x.e - 1) * 2 ^ x.f

/-- The encoding of the largest finite value. -/
def Fmt.largest (x : Fmt) (neg : Bool) : Nat :=
  neg.toNat * 2 ^ (x.e + x.f) + match x.kind with
    | .ieee => (2 ^ x.e - 1) * 2 ^ x.f - 1
    | .e4m3 => 2 ^ (x.e + x.f) - 2
    | .finite => 2 ^ (x.e + x.f) - 1

/-- The encoding of q × 2^eq, where eq is a quantum of the format. -/
def Fmt.encode (x : Fmt) (neg : Bool) (q : Nat) (eq : Int) : Nat :=
  let sign := neg.toNat * 2 ^ (x.e + x.f)
  if q < 2 ^ x.f then sign + q
  else if q < 2 ^ (x.f + 1) then sign + ((eq + x.f + x.bias).toNat * 2 ^ x.f + (q - 2 ^ x.f))
  else sign + ((eq + x.f + x.bias + 1).toNat * 2 ^ x.f + (q / 2 - 2 ^ x.f))

/-! ### Rounding (R63) -/

/-- The integer that a mode takes for (m + sticky) / 2^k: mode 0 RNE, 1 RTZ, 2 RUP, 3 RDN; and whether it is inexact. -/
def roundShift (mode : Nat) (neg : Bool) (m k : Nat) (sticky : Bool) : Nat × Bool :=
  let q := m / 2 ^ k
  let r := m % 2 ^ k
  let inexact := r != 0 || sticky
  let half := 2 ^ k
  let up := match mode with
    | 0 => if k = 0 then false else decide (2 * r > half) || (2 * r == half && (sticky || q % 2 == 1))
    | 1 => false
    | 2 => inexact && !neg
    | _ => inexact && neg
  (if up then q + 1 else q, inexact)

/-- Rounds (m + sticky) × 2^e to a multiple of 2^eq. -/
def roundQuantum (mode : Nat) (neg : Bool) (m : Nat) (e eq : Int) (sticky : Bool) : Nat × Bool :=
  if eq ≤ e then (m * 2 ^ (e - eq).toNat, sticky) else roundShift mode neg m (eq - e).toNat sticky

/-- A rounded magnitude: q × 2^eq, whether it is inexact, and whether it is tiny after rounding (R70). -/
structure Rounded where
  q       : Nat
  eq      : Int
  inexact : Bool
  tiny    : Bool
  deriving DecidableEq, Repr

/-- Rounds a nonzero magnitude to a format's precision, with an exponent bounded only below (R63). -/
def Fmt.round (x : Fmt) (mode : Nat) (neg : Bool) (m : Nat) (e : Int) (sticky : Bool) : Rounded :=
  let lead : Int := e + Nat.log2 m
  let low : Int := 1 - (x.bias : Int) - x.f
  let free : Int := lead - x.f
  let eq := max free low
  let (q, inexact) := roundQuantum mode neg m e eq sticky
  let (q', _) := roundQuantum mode neg m e free sticky
  let tiny := decide (free < low) && decide (free + Nat.log2 q' < low + x.f)
  ⟨q, eq, inexact, tiny⟩

/-- Whether q × 2^eq is beyond a format's largest finite value. -/
def Fmt.beyond (x : Fmt) (q : Nat) (eq : Int) : Bool :=
  match x.value (x.largest false) with
  | .fin _ m e => if eq ≤ e then decide (q > m * 2 ^ (e - eq).toNat) else decide (q * 2 ^ (eq - e).toNat > m)
  | _ => false

/-- A result: its bits and the exceptions it raises. -/
structure FRes where
  bits : Nat
  exc  : List XClass
  deriving DecidableEq, Repr

/-- The result of a finite value beyond the largest (R64 to R66). See assumption 58. -/
def Fmt.overflow (x : Fmt) (mode : Nat) (sat neg : Bool) : FRes :=
  let away := match mode with | 0 => true | 1 => false | 2 => !neg | _ => neg
  match x.kind with
  | .finite => ⟨x.largest neg, [.sat, .nx]⟩
  | .e4m3 => if sat then ⟨x.largest neg, [.sat, .nx]⟩ else ⟨x.canonicalNaN, [.ofl, .nx]⟩
  | .ieee => if sat then ⟨x.largest neg, [.sat, .nx]⟩
    else ⟨if away then x.infinity neg else x.largest neg, [.ofl, .nx]⟩

/-- A magnitude with a sticky bit as a result in a format (R64 to R66); with `flush` a subnormal result becomes zero. See assumption 58. -/
def Fmt.fromMag (x : Fmt) (mode : Nat) (sat flush neg : Bool) (m : Nat) (e : Int) (sticky : Bool) : FRes :=
  if m = 0 && !sticky then ⟨x.encode neg 0 0, []⟩
  else
    let r := x.round mode neg m e sticky
    if x.beyond r.q r.eq then x.overflow mode sat neg
    else if flush && r.q < 2 ^ x.f then ⟨x.encode neg 0 0, if r.q = 0 && !r.inexact then [] else [.ufl, .nx]⟩
    else ⟨x.encode neg r.q r.eq, (if r.tiny && r.inexact then [.ufl] else []) ++ (if r.inexact then [.nx] else [])⟩

/-- An exact value as a result in a format: infinities and NaNs follow R65 and R66. -/
def Fmt.fromVal (x : Fmt) (mode : Nat) (sat flush : Bool) (v : FVal) : FRes :=
  match v with
  | .nan _ => match x.kind with | .finite => ⟨0, [.inv]⟩ | _ => ⟨x.canonicalNaN, []⟩
  | .inf neg => match x.kind with
    | .finite => ⟨x.largest neg, [.sat, .nx]⟩
    | .e4m3 => if sat then ⟨x.largest neg, [.sat, .nx]⟩ else ⟨x.canonicalNaN, [.ofl, .nx]⟩
    | .ieee => if sat then ⟨x.largest neg, [.sat, .nx]⟩ else ⟨x.infinity neg, []⟩
  | .fin neg m e => x.fromMag mode sat flush neg m e false

/-! ### Exact arithmetic -/

/-- A subnormal input of a flushed format reads as zero of its sign (R64). See assumption 58. -/
def Fmt.flushed (x : Fmt) (flush : Bool) (b : Nat) : FVal :=
  match x.value b with
  | .fin neg m e => if flush && m < 2 ^ x.f then .fin neg 0 e else .fin neg m e
  | v => v

/-- A NaN of either kind. -/
def FVal.isNaN : FVal → Bool
  | .nan _ => true
  | _ => false

/-- The exceptions that NaN inputs raise: NANIN, and INV for a signalling one (R70). -/
def nanExc (xs : List FVal) : List XClass :=
  (if xs.any FVal.isNaN then [.nanin] else []) ++ (if xs.contains (.nan true) then [.inv] else [])

/-- The sign of a value. -/
def FVal.neg : FVal → Bool
  | .nan _ => false
  | .inf n => n
  | .fin n _ _ => n

/-- Negation. -/
def FVal.negate : FVal → FVal
  | .nan s => .nan s
  | .inf n => .inf (!n)
  | .fin n m e => .fin (!n) m e

/-- An exact product; infinity times zero is invalid. -/
def FVal.mul (x y : FVal) : FVal × List XClass :=
  match x, y with
  | .nan _, .inf _ | .nan _, .nan _ | .nan _, .fin _ _ _ | .inf _, .nan _ | .fin _ _ _, .nan _ => (.nan false, [])
  | .inf a, .inf b => (.inf (a != b), [])
  | .inf a, .fin b m _ => if m = 0 then (.nan false, [.inv]) else (.inf (a != b), [])
  | .fin a m _, .inf b => if m = 0 then (.nan false, [.inv]) else (.inf (a != b), [])
  | .fin a m e, .fin b n k => (.fin (a != b) (m * n) (e + k), [])

/-- The signed integer of a finite value in units of 2^e, for e no larger than its exponent. -/
def FVal.scaled (e : Int) : FVal → Int
  | .fin neg m k => let x : Int := (m * 2 ^ (k - e).toNat : Nat); if neg then -x else x
  | _ => 0

/-- The exponent of a finite value; 0 for others and for zeros, which have no weight. -/
def FVal.expo : FVal → Option Int
  | .fin _ m e => if m = 0 then none else some e
  | _ => none

/-- An exact sum: a NaN term, or infinities of both signs (invalid), give a NaN. A zero sum is negative when every term
is, or, of mixed signs, under RDN (R64). -/
def sumVals (mode : Nat) (xs : List FVal) : FVal × List XClass :=
  if xs.any FVal.isNaN then (.nan false, [])
  else if xs.contains (.inf false) && xs.contains (.inf true) then (.nan false, [.inv])
  else if xs.contains (.inf false) then (.inf false, [])
  else if xs.contains (.inf true) then (.inf true, [])
  else
    let es := xs.filterMap FVal.expo
    let e := es.foldl min (es.headD 0)
    let total := xs.foldl (fun s x => if x.expo.isSome then s + x.scaled e else s) (0 : Int)
    if total = 0 then
      let allNeg := xs.all FVal.neg
      let allPos := xs.all fun x => !x.neg
      (.fin (allNeg || (!allPos && mode = 3)) 0 0, [])
    else (.fin (decide (total < 0)) total.natAbs e, [])

/-- a.e × b.e + d.e, exact. -/
def fmaVals (mode : Nat) (a b d : FVal) : FVal × List XClass :=
  let (p, e1) := a.mul b
  let (x, e2) := sumVals mode [p, d]
  (x, e1 ++ e2)

/-! ### Comparison -/

/-- Exact order of two values that are not NaN: less, with −0 equal to +0. -/
def FVal.lt (x y : FVal) : Bool :=
  match x, y with
  | .inf a, .inf b => a && !b
  | .inf a, .fin _ _ _ => a
  | .fin _ _ _, .inf b => !b
  | .fin a m e, .fin b n k =>
    let lo := min e k
    decide ((FVal.fin a m e).scaled lo < (FVal.fin b n k).scaled lo)
  | _, _ => false

/-- Whether a value is a zero. -/
def FVal.isZero : FVal → Bool
  | .fin _ m _ => m == 0
  | _ => false

/-- Exact equality of two values that are not NaN. -/
def FVal.same (x y : FVal) : Bool := !x.isNaN && !y.isNaN && !x.lt y && !y.lt x

/-- Total order of FMIN and FMAX: −0 is less than +0 (R156). -/
def FVal.below (x y : FVal) : Bool := x.lt y || (x.isZero && y.isZero && x.neg && !y.neg)

/-- FMIN and FMAX on encodings (R156): the bits of the operand chosen, flushed to zero where the format flushes. -/
def Fmt.minMax (x : Fmt) (flush wantMax : Bool) (a b : Nat) : FRes :=
  let va := x.flushed flush a
  let vb := x.flushed flush b
  let keep := fun (v : FVal) (bits : Nat) => if v.isZero then x.encode v.neg 0 0 else bits
  let exc := nanExc [va, vb]
  match va.isNaN, vb.isNaN with
  | true, true => ⟨x.canonicalNaN, exc⟩
  | true, false => ⟨keep vb b, exc⟩
  | false, true => ⟨keep va a, exc⟩
  | false, false =>
    if wantMax then ⟨if va.below vb then keep vb b else keep va a, exc⟩
    else ⟨if vb.below va then keep vb b else keep va a, exc⟩

/-! ### Integers (R68) -/

/-- Rounds a finite value to an integer by a mode, with whether it is inexact. -/
def FVal.toInt (mode : Nat) : FVal → Int × Bool
  | .fin neg m e =>
    let (q, inexact) := roundQuantum mode neg m e 0 false
    (if neg then -(q : Int) else q, inexact)
  | _ => (0, false)

/-- A float to an integer of n bits: it always saturates (R68). -/
def toIntSat (mode : Nat) (signed : Bool) (n : Nat) (v : FVal) : FRes :=
  let lo : Int := if signed then -(2 ^ (n - 1) : Nat) else 0
  let hi : Int := if signed then (2 ^ (n - 1) : Nat) - 1 else (2 ^ n : Nat) - 1
  match v with
  | .nan _ => ⟨0, [.inv]⟩
  | .inf neg => ⟨wrapN n (if neg then lo else hi), [.sat, .nx]⟩
  | x =>
    let (y, inexact) := x.toInt mode
    if y < lo then ⟨wrapN n lo, [.sat, .nx]⟩
    else if hi < y then ⟨wrapN n hi, [.sat, .nx]⟩
    else ⟨wrapN n y, if inexact then [.nx] else []⟩

/-- An integer as an exact value. -/
def FVal.ofInt (y : Int) : FVal := .fin (decide (y < 0)) y.natAbs 0

/-! ### E8M0 (R58, R67) -/

/-- The value of an E8M0 code. -/
def e8m0Value (b : Nat) : FVal := if b % 256 = 255 then .nan false else .fin false 1 ((b % 256 : Nat) - 127)

/-- A conversion to E8M0: the sign of the source is ignored. -/
def toE8m0 (mode : Nat) (sat : Bool) (v : FVal) : FRes :=
  match v with
  | .nan _ => ⟨0xFF, []⟩
  | .inf _ => ⟨0xFF, [.ofl, .nx]⟩
  | .fin _ m e =>
    if m = 0 then ⟨0, [.ufl, .nx]⟩
    else
      let k := Nat.log2 m
      let lead : Int := e + k
      let exact := m == 2 ^ k
      let up := match mode with
        | 0 => decide (2 * m > 3 * 2 ^ k) || (2 * m == 3 * 2 ^ k && (lead + 127) % 2 == 1)
        | 2 => !exact
        | _ => false
      let p := if up then lead + 1 else lead
      if p > 127 then (if sat then ⟨0xFE, [.sat, .nx]⟩ else ⟨0xFF, [.ofl, .nx]⟩)
      else if p < -127 then ⟨0, [.ufl, .nx]⟩
      else ⟨(p + 127).toNat, if exact then [] else [.nx]⟩

/-! ### Division, square root and the special functions (R158, R159) -/

/-- Integer square root by its bits, high to low. -/
def isqrt (bits n : Nat) : Nat :=
  (List.range bits).foldl (fun r i => let c := r + 2 ^ (bits - 1 - i); if c * c ≤ n then c else r) 0

/-- A positive real known from below: y × 2^e, exact, or less than 2^20 × 2^e above it. See assumption 59. -/
structure Approx where
  y     : Nat
  e     : Int
  exact : Bool
  deriving DecidableEq, Repr

/-- Bits of the fixed-point working precision. -/
def prec : Nat := 200

/-- ln 2 and π in units of 2^-200. -/
def ln2Fix : Nat := 1113844574712631719546256151097547306333272293549090750737802
def piFix : Nat := 5048344754617993871973410141242436836214643421488662971535368

/-- A fixed-point product. -/
def fmulFix (a b : Nat) : Nat := a * b / 2 ^ prec

/-- The sum of a series of positive terms: term k+1 is term k times x over (a k). -/
def seriesFix (x : Nat) (den : Nat → Nat) (n : Nat) : Nat :=
  ((List.range n).foldl (fun (st : Nat × Nat) k =>
    let t := fmulFix st.2 x / den k
    (st.1 + t, t)) (2 ^ prec, 2 ^ prec)).1

/-- The alternating sum of the same terms. -/
def alternatingFix (x : Nat) (den : Nat → Nat) (n : Nat) : Nat :=
  let r := (List.range n).foldl (fun (st : Int × Nat) k =>
    let t := fmulFix st.2 x / den k
    (if k % 2 = 0 then st.1 - t else st.1 + t, t)) ((2 ^ prec : Nat), 2 ^ prec)
  r.1.toNat

/-- e^x for a fixed-point x below 1. -/
def expFix (x : Nat) : Nat := seriesFix x (fun k => k + 1) 60

/-- 2^(m × 2^e) for a value of either sign, m × 2^e below 2^10 in magnitude. -/
def exp2Approx (neg : Bool) (m : Nat) (e : Int) : Approx :=
  let x := if e + prec ≥ 0 then m * 2 ^ (e + prec).toNat else m / 2 ^ (-(e + prec)).toNat
  let i := x / 2 ^ prec
  let f := x % 2 ^ prec
  if neg then
    let g := if f = 0 then 0 else 2 ^ prec - f
    ⟨expFix (fmulFix g ln2Fix), -(prec : Int) - (if f = 0 then i else i + 1), false⟩
  else ⟨expFix (fmulFix f ln2Fix), -(prec : Int) + i, false⟩

/-- log2 of a fixed-point x in [1, 2), in units of 2^-90, by repeated squaring. -/
def log2Fix (x : Nat) : Nat :=
  ((List.range 90).foldl (fun (st : Nat × Nat) _ =>
    let y := fmulFix st.2 st.2
    if y ≥ 2 ^ (prec + 1) then (2 * st.1 + 1, y / 2) else (2 * st.1, y)) (0, x)).1

/-- sin(π t) for t = m × 2^e in (0, 1/2]. -/
def sinPiApprox (m : Nat) (e : Int) : Approx :=
  let t := if e + prec ≥ 0 then m * 2 ^ (e + prec).toNat else m / 2 ^ (-(e + prec)).toNat
  let y := fmulFix t piFix
  let sinc := alternatingFix (fmulFix y y) (fun k => (2 * k + 2) * (2 * k + 3)) 40
  ⟨m * fmulFix piFix sinc, e - prec, false⟩

/-- tanh(m × 2^e) for a positive argument; a small one lies below its argument by less than a third of its cube. -/
def tanhApprox (m : Nat) (e : Int) : Approx :=
  let lead : Int := e + Nat.log2 m
  if lead ≤ -60 then ⟨m * 2 ^ 180 - 2 ^ 30, e - 180, false⟩
  else if lead < 0 then
    let a := if e + prec ≥ 0 then m * 2 ^ (e + prec).toNat else m / 2 ^ (-(e + prec)).toNat
    let a2 := fmulFix a a
    let sh := seriesFix a2 (fun k => (2 * k + 2) * (2 * k + 3)) 40
    let ch := seriesFix a2 (fun k => (2 * k + 1) * (2 * k + 2)) 40
    ⟨m * (sh * 2 ^ prec / ch), e - prec, false⟩
  else if lead ≥ 6 then ⟨2 ^ prec - 2 ^ 30, -(prec : Int), false⟩
  else
    let a := m * 2 ^ (e + prec).toNat
    let x := 2 * a
    let i := x / ln2Fix
    let f := x % ln2Fix
    let ex := expFix f * 2 ^ i
    ⟨(ex - 2 ^ prec) * 2 ^ prec / (ex + 2 ^ prec), -(prec : Int), false⟩

/-- Whether an FP32 encoding lies within a bound of a signed real: `ulps` units in the last place of the exact result, or
2^-22 absolute. See assumption 59. -/
def withinBound (b : Nat) (neg : Bool) (x : Approx) (ulps : Nat) (absolute : Bool) : Bool :=
  match fp32.value b with
  | .fin bn m k =>
    let lo := min (min x.e k) (-200)
    let exact : Int := (x.y * 2 ^ (x.e - lo).toNat : Nat)
    let err : Int := if x.exact then 0 else (2 ^ 20 * 2 ^ (x.e - lo).toNat : Nat)
    let got : Int := (FVal.fin bn m k).scaled lo
    let lead : Int := x.e + Nat.log2 x.y
    let ulp : Int := max (lead - 23) (-149)
    let bound : Int := if absolute then (2 ^ (-22 - lo).toNat : Nat) else (ulps * 2 ^ (ulp - lo).toNat : Nat)
    decide ((got - (if neg then -exact else exact)).natAbs + err ≤ bound)
  | _ => false

/-- The result of a special function without a modifier: any value within the bound, one for each function and input
(R159); the freely picked one when it is within, otherwise the exact result rounded toward zero. NX counts when it is not the exact
result (R158). See assumption 59. -/
def sfuResult (fn input : Nat) (neg : Bool) (x : Approx) (ulps : Nat) (absolute : Bool) : FRes :=
  let pick := Config.sfuPick fn (BitVec.ofNat 32 input) % 2 ^ 32
  let toward := (fp32.fromMag 1 false false neg x.y x.e (!x.exact)).bits
  let bits := if withinBound pick neg x ulps absolute then pick else toward
  let isExact := x.exact && withinBound bits neg x 0 false
  ⟨bits, (if !isExact && bits / 2 ^ 23 % 256 = 0 then [.ufl] else []) ++ (if isExact then [] else [.nx])⟩

/-- 1/a (R158). -/
def frcp (mode : Nat) (a : Nat) : FRes :=
  match fp32.value a with
  | .nan s => ⟨fp32.canonicalNaN, nanExc [.nan s]⟩
  | .inf neg => ⟨fp32.encode neg 0 0, []⟩
  | .fin neg m e =>
    if m = 0 then ⟨fp32.infinity neg, [.dz]⟩
    else
      let k := Nat.log2 m + 64
      fp32.fromMag mode false false neg (2 ^ k / m) (-e - k) (2 ^ k % m != 0)

/-- √a (R158). -/
def fsqrt (mode : Nat) (a : Nat) : FRes :=
  match fp32.value a with
  | .nan s => ⟨fp32.canonicalNaN, nanExc [.nan s]⟩
  | .inf neg => if neg then ⟨fp32.canonicalNaN, [.inv]⟩ else ⟨a, []⟩
  | .fin neg m e =>
    if m = 0 then ⟨a, []⟩
    else if neg then ⟨fp32.canonicalNaN, [.inv]⟩
    else
      let (m1, e1) := if e % 2 = 0 then (m, e) else (2 * m, e - 1)
      let n := m1 * 2 ^ 100
      let r := isqrt 70 n
      fp32.fromMag mode false false false r ((e1 - 100) / 2) (r * r != n)

/-- 1/√a (R158). -/
def frsq (a : Nat) : FRes :=
  match fp32.value a with
  | .nan s => ⟨fp32.canonicalNaN, nanExc [.nan s]⟩
  | .inf neg => if neg then ⟨fp32.canonicalNaN, [.inv]⟩ else ⟨0, []⟩
  | .fin neg m e =>
    if m = 0 then ⟨fp32.infinity neg, [.dz]⟩
    else if neg then ⟨fp32.canonicalNaN, [.inv]⟩
    else
      let (m1, e1) := if e % 2 = 0 then (m, e) else (2 * m, e - 1)
      let n := 2 ^ 300 / m1
      let r := isqrt 151 n
      sfuResult 2 a false ⟨r, (-e1 - 300) / 2, r * r * m1 == 2 ^ 300⟩ 1 false

/-- 2^a (R158). -/
def fexp2 (a : Nat) : FRes :=
  match fp32.value a with
  | .nan s => ⟨fp32.canonicalNaN, nanExc [.nan s]⟩
  | .inf neg => if neg then ⟨0, []⟩ else ⟨a, []⟩
  | .fin neg m e =>
    let lead : Int := e + Nat.log2 m
    if m = 0 then ⟨0x3F800000, []⟩
    else if !neg && lead ≥ 7 then ⟨fp32.infinity false, [.ofl, .nx]⟩
    else if neg && lead ≥ 8 then sfuResult 3 a false ⟨2 ^ 60, -400, false⟩ 1 false
    else
      let (q, inexact) := roundQuantum 1 neg m e 0 false
      let n : Int := if neg then -(q : Int) else q
      if !inexact && n ≥ -149 then ⟨(fp32.fromMag 0 false false false 1 n false).bits, []⟩
      else if !inexact then sfuResult 3 a false ⟨2 ^ 60, n - 60, true⟩ 1 false
      else sfuResult 3 a false (exp2Approx neg m e) 1 false

/-- log2 a (R158). -/
def flog2 (a : Nat) : FRes :=
  match fp32.value a with
  | .nan s => ⟨fp32.canonicalNaN, nanExc [.nan s]⟩
  | .inf neg => if neg then ⟨fp32.canonicalNaN, [.inv]⟩ else ⟨a, []⟩
  | .fin neg m e =>
    if m = 0 then ⟨fp32.infinity true, [.dz]⟩
    else if neg then ⟨fp32.canonicalNaN, [.inv]⟩
    else
      let k := Nat.log2 m
      let lead : Int := e + k
      if m = 2 ^ k then ⟨(fp32.fromVal 0 false false (FVal.ofInt lead)).bits, []⟩
      else
        let x := m * 2 ^ (prec - k)
        let y : Int := lead * (2 ^ 90 : Nat) + log2Fix x
        let absolute := decide (lead = -1) || decide (lead = 0)
        if y ≥ 0 then sfuResult 4 a false ⟨y.toNat, -90, false⟩ 1 absolute
        else sfuResult 4 a true ⟨y.natAbs - 1, -90, false⟩ 1 absolute

/-- The fraction of a value modulo 2, in units of 2^e for a negative e. -/
def modTwo (m : Nat) (e : Int) : Nat := m % 2 ^ ((-e).toNat + 1)

/-- sin(π a) (R158). -/
def fsinpi (a : Nat) : FRes :=
  match fp32.value a with
  | .nan s => ⟨fp32.canonicalNaN, nanExc [.nan s]⟩
  | .inf _ => ⟨fp32.canonicalNaN, [.inv]⟩
  | .fin neg m e =>
    if e ≥ 0 then ⟨fp32.encode neg 0 0, []⟩
    else
      let k := (-e).toNat
      let r := modTwo m e
      let whole := r / 2 ^ k
      let f := r % 2 ^ k
      let sign := neg != (whole == 1)
      if f = 0 then ⟨fp32.encode neg 0 0, []⟩
      else if 2 * f = 2 ^ k then ⟨if sign then 0xBF800000 else 0x3F800000, []⟩
      else
        let g := if 2 * f < 2 ^ k then f else 2 ^ k - f
        sfuResult 5 a sign (sinPiApprox g e) 2 false

/-- cos(π a) (R158). -/
def fcospi (a : Nat) : FRes :=
  match fp32.value a with
  | .nan s => ⟨fp32.canonicalNaN, nanExc [.nan s]⟩
  | .inf _ => ⟨fp32.canonicalNaN, [.inv]⟩
  | .fin _ m e =>
    if e ≥ 0 then ⟨if (m * 2 ^ e.toNat) % 2 = 1 then 0xBF800000 else 0x3F800000, []⟩
    else
      let k := (-e).toNat
      let r := modTwo m e
      let whole := r / 2 ^ k
      let f := r % 2 ^ k
      if f = 0 then ⟨if whole = 1 then 0xBF800000 else 0x3F800000, []⟩
      else if 2 * f = 2 ^ k then ⟨0, []⟩
      else
        -- cos(π f) = sin(π (1/2 - f)) for f below 1/2, and -sin(π (f - 1/2)) above
        let low := decide (2 * f < 2 ^ k)
        let g := if low then 2 ^ k - 2 * f else 2 * f - 2 ^ k
        -- next to an integer the cosine lies just below 1
        let x := if (min f (2 ^ k - f)) * 2 ^ 60 < 2 ^ k then ⟨2 ^ prec - 2 ^ 30, -(prec : Int), false⟩ else sinPiApprox g (e - 1)
        sfuResult 6 a ((whole == 1) != !low) x 2 false

/-- tanh a (R158). -/
def ftanh (a : Nat) : FRes :=
  match fp32.value a with
  | .nan s => ⟨fp32.canonicalNaN, nanExc [.nan s]⟩
  | .inf neg => ⟨if neg then 0xBF800000 else 0x3F800000, []⟩
  | .fin neg m e => if m = 0 then ⟨a, []⟩ else sfuResult 7 a neg (tanhApprox m e) 2 false

end Sys2Proof.Machine
end

