-- ==== Sys2Proof/Machine/Integer.lean ====
section
/-!
DEFINITION. Group 0: integer, logic and move instructions (R130 to R151).
-/
namespace Sys2Proof.Machine

/-! ### Integer arithmetic in a type (R131, R134) -/

/-- Operand width n of a group-0 type. -/
def tyBits (ty : Ty) : Nat := if ty.is64 then 64 else 32

/-- Whether a type is signed. -/
def tySigned (ty : Ty) : Bool := ty == .s32 || ty == .s64 || ty == .s8 || ty == .s16

/-- val(x): the value of a pattern under a type. -/
def tyVal (ty : Ty) (x : Nat) : Int := if tySigned ty then sVal (tyBits ty) x else x % 2 ^ tyBits ty

/-- Lowest and highest value of an integer type of n bits (R62). -/
def intRange (signed : Bool) (n : Nat) : Int × Int :=
  if signed then (-(2 ^ (n - 1) : Nat), (2 ^ (n - 1) : Nat) - 1) else (0, (2 ^ n : Nat) - 1)

/-- fit(y) in n bits: wrapped, or clamped with SAT counted (R134). See assumption 34. -/
def fitIn (signed : Bool) (n : Nat) (sat : Bool) (y : Int) : LaneOut :=
  let (lo, hi) := intRange signed n
  if sat && decide (y < lo) then { val := wrapN n lo, exc := [.sat] }
  else if sat && decide (hi < y) then { val := wrapN n hi, exc := [.sat] }
  else { val := wrapN n y }

/-- fit(y) under a group-0 type. -/
def fit (ty : Ty) (sat : Bool) (y : Int) : LaneOut := fitIn (tySigned ty) (tyBits ty) sat y

/-- The shape of an instruction whose sources and result have one integer type. -/
def intPlan (ty : Ty) (run : LaneIn → LaneOut) : Plan :=
  { tyA := ty, tyB := ty, tyD := ty, tagA := fun _ => ty.tags, tagB := fun _ => ty.tags, tagD := fun _ => ty.tags
    out64 := ty.is64, sext := ty == .s32, tagOut := fun _ => ty.tag, run := run }

/-- The shape of a logic, shift or bit instruction: any tag; RAW in .b32 form, N32 in each half in .n64 form (R132). -/
def bitPlan (ty : Ty) (run : LaneIn → LaneOut) : Plan :=
  { tyA := ty, tyB := ty, tyD := ty, out64 := ty.is64, tagOut := fun _ => if ty.is64 then 2 else 0, run := run }

/-! ### Addition and subtraction (R136, R137) -/

/-- IADD: val(a) + val(b). -/
def execIadd (o : Ops) (ty : Ty) (sat : Bool) (s : State) : Host.Outcome State Fault Refusal :=
  withCtx s fun c => c.alu o (intPlan ty fun x => fit ty sat (tyVal ty x.a + tyVal ty x.b))

/-- ISUB: val(a) - val(b). -/
def execIsub (o : Ops) (ty : Ty) (sat : Bool) (s : State) : Host.Outcome State Fault Refusal :=
  withCtx s fun c => c.alu o (intPlan ty fun x => fit ty sat (tyVal ty x.a - tyVal ty x.b))

/-- INEG: -s(a). -/
def execIneg (o : Ops) (ty : Ty) (sat : Bool) (s : State) : Host.Outcome State Fault Refusal :=
  withCtx s fun c => c.alu o (intPlan ty fun x => fit ty sat (-(tyVal ty x.a)))

/-- IABS: |s(a)|. -/
def execIabs (o : Ops) (ty : Ty) (sat : Bool) (s : State) : Host.Outcome State Fault Refusal :=
  withCtx s fun c => c.alu o (intPlan ty fun x => fit ty sat (tyVal ty x.a).natAbs)

/-- The sum and carry of IADDC (R137). -/
def addCarry (n : Nat) (sub cin : Bool) (a b : Nat) : LaneOut :=
  let y := a + (if sub then 2 ^ n - 1 - b else b) + cin.toNat
  { val := y % 2 ^ n, p := decide (2 ^ n ≤ y) }

/-- IADDC: add or subtract with a carry held in a predicate (R137). -/
def execIaddc (o : Ops) (ty : Ty) (ci : Bool) (pc : BitVec 3) (sub : Bool) (s : State) : Host.Outcome State Fault Refusal :=
  withCtx s fun c => c.alu o { intPlan ty (fun x => addCarry (tyBits ty) sub (if ci then x.p else sub) x.a x.b) with
    pin := if ci then some (pc.toNat, false) else none, pout := some pc.toNat }

/-! ### Multiplication (R138) -/

/-- IMUL: the product, fitted. -/
def execImul (o : Ops) (ty : Ty) (sat : Bool) (s : State) : Host.Outcome State Fault Refusal :=
  withCtx s fun c => c.alu o (intPlan ty fun x => fit ty sat (tyVal ty x.a * tyVal ty x.b))

/-- IMULH: the high half of the 2n-bit product. -/
def execImulh (o : Ops) (ty : Ty) (s : State) : Host.Outcome State Fault Refusal :=
  withCtx s fun c => c.alu o (intPlan ty fun x => { val := wrapN (2 * tyBits ty) (tyVal ty x.a * tyVal ty x.b) / 2 ^ tyBits ty })

/-- IMULW: the whole 64-bit product of two 32-bit operands. -/
def execImulw (o : Ops) (ty : Ty) (s : State) : Host.Outcome State Fault Refusal :=
  withCtx s fun c => c.alu o { intPlan ty (fun x => { val := wrapN 64 (tyVal ty x.a * tyVal ty x.b) }) with out64 := true }

/-- IMAD: a*b + d, d read before it is written. -/
def execImad (o : Ops) (ty : Ty) (sat : Bool) (s : State) : Host.Outcome State Fault Refusal :=
  withCtx s fun c => c.alu o { intPlan ty (fun x => fit ty sat (tyVal ty x.a * tyVal ty x.b + tyVal ty x.d)) with readD := true }

/-! ### Minimum and maximum (R139) -/

/-- IMIN: the smaller operand. -/
def execImin (o : Ops) (ty : Ty) (s : State) : Host.Outcome State Fault Refusal :=
  withCtx s fun c => c.alu o (intPlan ty fun x => { val := wrapN (tyBits ty) (min (tyVal ty x.a) (tyVal ty x.b)) })

/-- IMAX: the larger operand. -/
def execImax (o : Ops) (ty : Ty) (s : State) : Host.Outcome State Fault Refusal :=
  withCtx s fun c => c.alu o (intPlan ty fun x => { val := wrapN (tyBits ty) (max (tyVal ty x.a) (tyVal ty x.b)) })

/-- The sum of IADDMIN and IADDMAX, wrapped or saturated before it is compared with d. -/
def addThen (ty : Ty) (sat : Bool) (pick : Int → Int → Int) (x : LaneIn) : LaneOut :=
  let sum := fit ty sat (tyVal ty x.a + tyVal ty x.b)
  { sum with val := wrapN (tyBits ty) (pick (tyVal ty sum.val) (tyVal ty x.d)) }

/-- IADDMIN: min(a + b, d). -/
def execIaddmin (o : Ops) (ty : Ty) (sat : Bool) (s : State) : Host.Outcome State Fault Refusal :=
  withCtx s fun c => c.alu o { intPlan ty (addThen ty sat min) with readD := true }

/-- IADDMAX: max(a + b, d). -/
def execIaddmax (o : Ops) (ty : Ty) (sat : Bool) (s : State) : Host.Outcome State Fault Refusal :=
  withCtx s fun c => c.alu o { intPlan ty (addThen ty sat max) with readD := true }

/-! ### Comparison (R140) -/

/-- The predicate that a destination field names. -/
def Opnd.predNum (x : Opnd) : Nat := match x with | .p n => n.toNat | _ => 7

/-- A condition of ICMP. -/
def icondHolds (k : ICond) (a b : Int) : Bool :=
  match k with
  | .eq => a == b
  | .ne => a != b
  | .lt => a < b
  | .le => a ≤ b
  | .gt => b < a
  | .ge => b ≤ a

/-- ICMP: compares into a predicate. -/
def execIcmp (o : Ops) (ty : Ty) (cond : ICond) (s : State) : Host.Outcome State Fault Refusal :=
  withCtx s fun c => c.alu o { intPlan ty (fun x => { p := icondHolds cond (tyVal ty x.a) (tyVal ty x.b) }) with
    pout := some (Opnd.predNum o.dst) }

/-! ### Predicate forms: uniform, every thread of the wave (R141, R148) -/

/-- The predicate bits that a field delivers: P, Z or I; a nonzero immediate is true in every thread. -/
def Wave.predBits (w : Wave) (o : Ops) (x : Opnd) : Mask :=
  match x with
  | .p n => (w.p n.toNat).bits
  | .imm => if o.imm = 0 then 0 else BitVec.allOnes 128
  | _ => 0

/-- Whether a predicate field carries poison of origin DATA. -/
def Wave.predData (w : Wave) (x : Opnd) : Bool :=
  match x with
  | .p n => (w.p n.toNat).origin == .data && (w.p n.toNat).poison != 0
  | _ => false

/-- A logic or move instruction over predicates: it writes every thread of the destination predicate (R130, R141). -/
def Ctx.predOp (c : Ctx) (o : Ops) (f : Mask → Mask → Mask) : State :=
  c.uniform o.guard [] (
    let bits := f (c.w.predBits o o.a) (c.w.predBits o o.b)
    let poison := c.w.poisonOf (match o.a with | .p n => .p n | _ => .zero) ||| c.w.poisonOf (match o.b with | .p n => .p n | _ => .zero)
    let org := if c.w.predData o.a || c.w.predData o.b then Origin.data else .fault
    let n := Opnd.predNum o.dst
    c.done (c.w.setP n ((c.w.p n).write c.w.all bits poison org)))

/-! ### Logic (R141) -/

/-- A two-operand logic instruction in its register or predicate form. -/
def Ctx.logic (c : Ctx) (o : Ops) (ty : Ty) (f : Nat → Nat → Nat) (g : Mask → Mask → Mask) : State :=
  if o.dst.isP then c.predOp o g else c.alu o (bitPlan ty fun x => { val := f x.a x.b })

/-- a AND NOT b on n bits. -/
def andNot (n a b : Nat) : Nat := a &&& (2 ^ n - 1 - b)

/-- AND. -/
def execAnd (o : Ops) (ty : Ty) (s : State) : Host.Outcome State Fault Refusal :=
  withCtx s fun c => c.logic o ty (fun a b => a &&& b) (fun a b => a &&& b)

/-- OR. -/
def execOr (o : Ops) (ty : Ty) (s : State) : Host.Outcome State Fault Refusal :=
  withCtx s fun c => c.logic o ty (fun a b => a ||| b) (fun a b => a ||| b)

/-- XOR. -/
def execXor (o : Ops) (ty : Ty) (s : State) : Host.Outcome State Fault Refusal :=
  withCtx s fun c => c.logic o ty (fun a b => a ^^^ b) (fun a b => a ^^^ b)

/-- ANDN: a AND NOT b. -/
def execAndn (o : Ops) (ty : Ty) (s : State) : Host.Outcome State Fault Refusal :=
  withCtx s fun c => c.logic o ty (andNot (tyBits ty)) (fun a b => a &&& ~~~b)

/-- NOT. -/
def execNot (o : Ops) (ty : Ty) (s : State) : Host.Outcome State Fault Refusal :=
  withCtx s fun c => c.logic o ty (fun a _ => 2 ^ tyBits ty - 1 - a) (fun a _ => ~~~a)

/-! ### Shifts and rotation (R142, R143) -/

/-- A shift: the count is 32 bits in every width. -/
def Ctx.shift (c : Ctx) (o : Ops) (ty : Ty) (f : Nat → Nat → Nat) : State :=
  c.alu o { bitPlan ty (fun x => { val := f x.a x.b }) with tyB := .b32 }

/-- Shift left: any count of n or more gives 0. -/
def shlBits (n a k : Nat) : Nat := if n ≤ k then 0 else a * 2 ^ k % 2 ^ n
/-- Shift right. -/
def shrBits (n a k : Nat) : Nat := if n ≤ k then 0 else a / 2 ^ k
/-- Arithmetic shift right: any count of n or more copies the sign. -/
def sarBits (n a k : Nat) : Nat := if n ≤ k then (if bitOf a (n - 1) then 2 ^ n - 1 else 0) else wrapN n (sVal n a / (2 ^ k : Nat))
/-- Rotate left by the count modulo n. -/
def rotBits (n a k : Nat) : Nat := let j := k % n; (a * 2 ^ j % 2 ^ n) ||| (a / 2 ^ (n - j))

/-- SHL. -/
def execShl (o : Ops) (ty : Ty) (s : State) : Host.Outcome State Fault Refusal :=
  withCtx s fun c => c.shift o ty (shlBits (tyBits ty))

/-- SHR. -/
def execShr (o : Ops) (ty : Ty) (s : State) : Host.Outcome State Fault Refusal :=
  withCtx s fun c => c.shift o ty (shrBits (tyBits ty))

/-- SAR. -/
def execSar (o : Ops) (ty : Ty) (s : State) : Host.Outcome State Fault Refusal :=
  withCtx s fun c => c.shift o ty (sarBits (tyBits ty))

/-- ROT. -/
def execRot (o : Ops) (ty : Ty) (s : State) : Host.Outcome State Fault Refusal :=
  withCtx s fun c => c.shift o ty (rotBits (tyBits ty))

/-- High word of d:a shifted left (R143). -/
def funnelLeft (d a b : Nat) : Nat := (d * 2 ^ 32 + a) * 2 ^ min b 32 / 2 ^ 32 % 2 ^ 32
/-- Low word of a:d shifted right (R143). -/
def funnelRight (d a b : Nat) : Nat := (a * 2 ^ 32 + d) / 2 ^ min b 32 % 2 ^ 32

/-- FSHL. -/
def execFshl (o : Ops) (s : State) : Host.Outcome State Fault Refusal :=
  withCtx s fun c => c.alu o { bitPlan .b32 (fun x => { val := funnelLeft x.d x.a x.b }) with readD := true }

/-- FSHR. -/
def execFshr (o : Ops) (s : State) : Host.Outcome State Fault Refusal :=
  withCtx s fun c => c.alu o { bitPlan .b32 (fun x => { val := funnelRight x.d x.a x.b }) with readD := true }

/-! ### Bit fields, counts and byte permutation (R144 to R146) -/

/-- The field of BFX (R144). -/
def bitFieldExtract (signed : Bool) (a b : Nat) : Nat :=
  let pos := b % 256
  let len := b / 256 % 256
  if len = 0 || 32 ≤ pos then 0
  else
    let n := min (pos + len) 32 - pos
    let f := a / 2 ^ pos % 2 ^ n
    if signed then wrapN 32 (sVal n f) else f

/-- The word of BFI (R144). -/
def bitFieldInsert (d a b : Nat) : Nat :=
  let pos := b % 256
  let len := b / 256 % 256
  if len = 0 || 32 ≤ pos then d
  else
    let e := min (pos + len) 32
    d / 2 ^ e * 2 ^ e + a % 2 ^ (e - pos) * 2 ^ pos + d % 2 ^ pos

/-- BFX. -/
def execBfx (o : Ops) (ty : Ty) (s : State) : Host.Outcome State Fault Refusal :=
  withCtx s fun c => c.alu o (intPlan ty fun x => { val := bitFieldExtract (tySigned ty) x.a x.b })

/-- BFI. -/
def execBfi (o : Ops) (s : State) : Host.Outcome State Fault Refusal :=
  withCtx s fun c => c.alu o { bitPlan .b32 (fun x => { val := bitFieldInsert x.d x.a x.b }) with readD := true }

/-- The shape of a count: one 32-bit result with tag N32 (R145). -/
def countPlan (ty : Ty) (f : Nat → Nat) : Plan :=
  { tyA := ty, tagOut := fun _ => 2, run := fun x => { val := f x.a } }

/-- Number of 1 bits among the low n. -/
def popCount (n a : Nat) : Nat := ((List.range n).filter fun i => bitOf a i).length
/-- 0 bits above the highest 1. -/
def leadZeros (n a : Nat) : Nat := ((List.range n).find? fun i => bitOf a (n - 1 - i)).getD n
/-- 0 bits below the lowest 1. -/
def trailZeros (n a : Nat) : Nat := ((List.range n).find? fun i => bitOf a i).getD n
/-- Bits in reverse order. -/
def reverseBits (n a : Nat) : Nat := (List.range n).foldl (fun x i => 2 * x + (bitOf a i).toNat) 0

/-- POPC. -/
def execPopc (o : Ops) (ty : Ty) (s : State) : Host.Outcome State Fault Refusal :=
  withCtx s fun c => c.alu o (countPlan ty (popCount (tyBits ty)))

/-- CLZ. -/
def execClz (o : Ops) (ty : Ty) (s : State) : Host.Outcome State Fault Refusal :=
  withCtx s fun c => c.alu o (countPlan ty (leadZeros (tyBits ty)))

/-- CTZ. -/
def execCtz (o : Ops) (ty : Ty) (s : State) : Host.Outcome State Fault Refusal :=
  withCtx s fun c => c.alu o (countPlan ty (trailZeros (tyBits ty)))

/-- BREV. -/
def execBrev (o : Ops) (ty : Ty) (s : State) : Host.Outcome State Fault Refusal :=
  withCtx s fun c => c.alu o (bitPlan ty fun x => { val := reverseBits (tyBits ty) x.a })

/-- The bytes of BPERM (R146). -/
def bytePermute (d a b : Nat) : Nat :=
  let x := d * 2 ^ 32 + a
  (List.range 4).foldl (fun acc i =>
    let k := b / 2 ^ (4 * i) % 16
    acc + (if 8 ≤ k then 0 else x / 2 ^ (8 * k) % 256) * 2 ^ (8 * i)) 0

/-- BPERM. -/
def execBperm (o : Ops) (s : State) : Host.Outcome State Fault Refusal :=
  withCtx s fun c => c.alu o { bitPlan .b32 (fun x => { val := bytePermute x.d x.a x.b }) with readD := true }

/-! ### Selection and moves (R147 to R149) -/

/-- The tag of a half of a source field, if it is a vector register. -/
def Wave.tagHalf (w : Wave) (o : Opnd) (i : Nat) : Option (BitVec 5) :=
  match o with
  | .v n => some (w.v (n.toNat + i)).tag
  | _ => none

/-- The tag of an untagged source: RAW, or N32 in each half of an .n64 form (R147, R148). -/
def untagged (ty : Ty) : BitVec 5 := if ty.is64 then 2 else 0

/-- The shape of SEL and MOV: any tag in .b32 form, and each half of a pair checked as .n32 (R45, R132). See assumption 120. -/
def movePlan (ty : Ty) (run : LaneIn → LaneOut) : Plan :=
  { bitPlan ty run with tagA := fun _ => ty.tags, tagB := fun _ => ty.tags }

/-- The tag that SEL writes (R147). -/
def Wave.selTag (w : Wave) (o : Ops) (ty : Ty) (i : Nat) : BitVec 5 :=
  match w.tagHalf o.a i, w.tagHalf o.b i with
  | some x, some y => if x = y then x else 0
  | some x, none => x
  | none, some y => y
  | none, none => untagged ty

/-- SEL: a where the predicate, negated by NEG, is true; otherwise b. -/
def execSel (o : Ops) (ty : Ty) (ps : BitVec 3) (neg : Bool) (s : State) : Host.Outcome State Fault Refusal :=
  withCtx s fun c => c.alu o { movePlan ty (fun x => { val := if x.p then x.a else x.b }) with
    pin := some (ps.toNat, neg), pick := true, tagOut := c.w.selTag o ty }

/-- MOV into exec: the source within the fragment's live threads; a predicate poisoned there raises POISON (R148). -/
def Ctx.movExec (c : Ctx) (o : Ops) : State :=
  c.uniformOn o.guard c.f.live (usesOf o.a false false true false true fun _ => none)
    (c.done (c.w.modCur fun f => { f with exec := c.w.predBits o o.a &&& f.live }))

/-- MOV exec into a predicate: every thread of the wave takes its exec bit (R148). -/
def Ctx.movFromExec (c : Ctx) (o : Ops) : State :=
  c.uniform o.guard [] (
    let n := Opnd.predNum o.dst
    c.done (c.w.setP n ((c.w.p n).write c.w.all c.f.exec 0 .fault)))

/-- MOV in its forms (R148). -/
def execMov (o : Ops) (ty : Ty) (s : State) : Host.Outcome State Fault Refusal :=
  withCtx s fun c =>
    match o.dst, o.a with
    | .exec, _ => c.movExec o
    | .p _, .exec => c.movFromExec o
    | .p n, .v _ => c.alu o { movePlan ty (fun x => { p := x.a != 0 }) with pout := some n.toNat }
    | .p _, _ => c.predOp o fun a _ => a
    | .v _, .p _ => c.alu o { movePlan ty (fun x => { val := x.a }) with tagOut := fun _ => 2 }
    | _, _ => c.alu o { movePlan ty (fun x => { val := x.a }) with tagOut := fun i => (c.w.tagHalf o.a i).getD (untagged ty) }

/-- MOVI: IMM sign-extended to n bits (R149). -/
def execMovi (o : Ops) (ty : Ty) (s : State) : Host.Outcome State Fault Refusal :=
  withCtx s fun c => c.alu o (intPlan ty fun _ => { val := wrapN (tyBits ty) o.imm.toInt })

/-- The bits of d that MOVH replaces: position and width (R149). -/
def movhField (part : HPart) : Nat × Nat :=
  match part with
  | .h0 => (21, 11)
  | .h1 => (32, 21)
  | .h2 => (53, 11)

/-- MOVH: one part of d is replaced. -/
def execMovh (o : Ops) (ty : Ty) (part : HPart) (s : State) : Host.Outcome State Fault Refusal :=
  let (pos, len) := movhField part
  withCtx s fun c => c.alu o { intPlan ty (fun x =>
      { val := x.d / 2 ^ (pos + len) * 2 ^ (pos + len) + o.imm.toNat % 2 ^ len * 2 ^ pos + x.d % 2 ^ pos }) with
    readD := true }

/-! ### Addresses (R150) -/

/-- The tag of a half of an address result. -/
def ptrTag (i : Nat) : BitVec 5 := if i = 0 then 14 else 15

/-- LEA: a + b * 2^scale. -/
def execLea (o : Ops) (ty : Ty) (scale : BitVec 3) (s : State) : Host.Outcome State Fault Refusal :=
  withCtx s fun c => c.alu o {
    tyA := .n64, tyB := ty, tagA := addrTags, tagB := fun _ => ty.tags, out64 := true, tagOut := ptrTag
    run := fun x => { val := wrapN 64 ((x.a : Int) + tyVal ty x.b * (2 ^ scale.toNat : Nat)) } }

/-- IADD64: a + b, or a - b. -/
def execIadd64 (o : Ops) (sub : Bool) (s : State) : Host.Outcome State Fault Refusal :=
  withCtx s fun c => c.alu o {
    tyA := .n64, tyB := .n64, tagA := addrTags, tagB := fun i => some [0, 1, 2, if i = 0 then 14 else 15], out64 := true, tagOut := ptrTag
    run := fun x => { val := wrapN 64 (if sub then (x.a : Int) - x.b else (x.a : Int) + x.b) } }

/-! ### Dot products (R151) -/

/-- The type of SRCB under .mix: the opposite signedness. -/
def mixType (ty : Ty) (mix : Bool) : Ty :=
  if !mix then ty
  else match ty with
    | .s8 => .n8
    | .n8 => .s8
    | .s16 => .n16
    | .n16 => .s16
    | t => t

/-- Element i of a packed word under an integer type of n bits. -/
def packedElem (ty : Ty) (n x i : Nat) : Int :=
  let e := x / 2 ^ (n * i) % 2 ^ n
  if tySigned ty then sVal n e else e

/-- The sum of the products of m elements of n bits. -/
def dotSum (ta tb : Ty) (m n a b : Nat) : Int :=
  (List.range m).foldl (fun y i => y + packedElem ta n a i * packedElem tb n b i) 0

/-- The shape of IDP4 and IDP2 (R151). -/
def dotPlan (ty : Ty) (sat mix : Bool) (m n : Nat) : Plan :=
  let tb := mixType ty mix
  let signed := tySigned ty || tySigned tb
  let tr : Ty := if signed then .s32 else .n32
  { tyA := ty, tyB := tb, tyD := tr, tagA := fun _ => ty.tags, tagB := fun _ => tb.tags, tagD := fun _ => tr.tags
    readD := true, sext := signed, tagOut := fun _ => tr.tag
    run := fun x => fit tr sat (tyVal tr x.d + dotSum ty tb m n x.a x.b) }

/-- IDP4. -/
def execIdp4 (o : Ops) (ty : Ty) (sat mix : Bool) (s : State) : Host.Outcome State Fault Refusal :=
  withCtx s fun c => c.alu o (dotPlan ty sat mix 4 8)

/-- IDP2. -/
def execIdp2 (o : Ops) (ty : Ty) (sat mix : Bool) (s : State) : Host.Outcome State Fault Refusal :=
  withCtx s fun c => c.alu o (dotPlan ty sat mix 2 16)

end Sys2Proof.Machine
end

