-- ==== Sys2Proof/Machine/FloatOps.lean ====
section
/-!
DEFINITION. Group 1: floating-point instructions (R152 to R165).
-/
namespace Sys2Proof.Machine

/-! ### Modes, formats and elements -/

/-- The rounding mode of an instruction: its own, or SR_FPMODE.RMODE (R63). -/
def Ctx.mode (c : Ctx) (rnd : Rnd) : Nat :=
  match rnd with
  | .fpmode => c.w.fpmode.toNat % 4
  | .rne => 0
  | .rtz => 1
  | .rup => 2
  | .rdn => 3

/-- SR_FPMODE.FLUSH (R64). -/
def Ctx.flush (c : Ctx) : Bool := bitOf c.w.fpmode.toNat 2

/-- The format of a floating-point type. -/
def fmtOf (ty : Ty) : Fmt :=
  match ty with
  | .f16 => fp16
  | .bf16 => bf16
  | .e4m3 => e4m3
  | .e5m2 => e5m2
  | .e3m2 => e3m2
  | .e2m3 => e2m3
  | .e2m1 => e2m1
  | _ => fp32

/-- Whether FLUSH applies to a type: FP16 and BF16 only (R64). See assumption 58. -/
def Ctx.flushes (c : Ctx) (ty : Ty) : Bool := c.flush && (ty == .f16 || ty == .bf16)

/-- Element i of a packed word, for elements of n bits. -/
def elem (n x i : Nat) : Nat := x / 2 ^ (n * i) % 2 ^ n

/-- A word from the results of its elements of n bits; each class counts once for the thread (R70). -/
def packElems (n m : Nat) (f : Nat → FRes) : LaneOut :=
  let rs := (List.range m).map f
  { val := rs.foldr (fun r acc => r.bits % 2 ^ n + 2 ^ n * acc) 0, exc := rs.flatMap (·.exc) }

/-- An operation on each element of the packed words of a type. -/
def mapElems (ty : Ty) (f : Nat → Nat → Nat → FRes) (x : LaneIn) : LaneOut :=
  let n := (fmtOf ty).bits
  packElems n (32 / n) fun i => f (elem n x.a i) (elem n x.b i) (elem n x.d i)

/-- The shape of an instruction whose operands and result have one floating-point type (R153). -/
def floatPlan (ty : Ty) (run : LaneIn → LaneOut) : Plan :=
  { tyA := ty, tyB := ty, tyD := ty, tagA := fun _ => ty.tags, tagB := fun _ => ty.tags, tagD := fun _ => ty.tags
    tagOut := fun _ => ty.tag, run := run }

/-- An arithmetic result: the exact value rounded once, with the exceptions of its inputs (R64, R70). -/
def finish (x : Fmt) (mode : Nat) (sat flush : Bool) (inputs : List FVal) (v : FVal × List XClass) : FRes :=
  let r := x.fromVal mode sat flush v.1
  ⟨r.bits, nanExc inputs ++ v.2 ++ r.exc⟩

/-- a + b. -/
def Fmt.add (x : Fmt) (mode : Nat) (sat flush : Bool) (a b : Nat) : FRes :=
  let va := x.flushed flush a
  let vb := x.flushed flush b
  finish x mode sat flush [va, vb] (sumVals mode [va, vb])

/-- a - b. -/
def Fmt.sub (x : Fmt) (mode : Nat) (sat flush : Bool) (a b : Nat) : FRes :=
  let va := x.flushed flush a
  let vb := x.flushed flush b
  finish x mode sat flush [va, vb] (sumVals mode [va, vb.negate])

/-- a × b. -/
def Fmt.times (x : Fmt) (mode : Nat) (sat flush : Bool) (a b : Nat) : FRes :=
  let va := x.flushed flush a
  let vb := x.flushed flush b
  finish x mode sat flush [va, vb] (va.mul vb)

/-- a × b + d, rounded once. -/
def Fmt.fma (x : Fmt) (mode : Nat) (sat flush : Bool) (a b d : Nat) : FRes :=
  let va := x.flushed flush a
  let vb := x.flushed flush b
  let vd := x.flushed flush d
  finish x mode sat flush [va, vb, vd] (fmaVals mode va vb vd)

/-! ### Arithmetic (R155, R156) -/

/-- FADD. -/
def execFadd (o : Ops) (ty : Ty) (rnd : Rnd) (s : State) : Host.Outcome State Fault Refusal :=
  withCtx s fun c => c.alu o (floatPlan ty (mapElems ty fun a b _ => (fmtOf ty).add (c.mode rnd) false (c.flushes ty) a b))

/-- FSUB. -/
def execFsub (o : Ops) (ty : Ty) (rnd : Rnd) (s : State) : Host.Outcome State Fault Refusal :=
  withCtx s fun c => c.alu o (floatPlan ty (mapElems ty fun a b _ => (fmtOf ty).sub (c.mode rnd) false (c.flushes ty) a b))

/-- FMUL. -/
def execFmul (o : Ops) (ty : Ty) (rnd : Rnd) (s : State) : Host.Outcome State Fault Refusal :=
  withCtx s fun c => c.alu o (floatPlan ty (mapElems ty fun a b _ => (fmtOf ty).times (c.mode rnd) false (c.flushes ty) a b))

/-- FFMA. -/
def execFfma (o : Ops) (ty : Ty) (rnd : Rnd) (s : State) : Host.Outcome State Fault Refusal :=
  withCtx s fun c => c.alu o { floatPlan ty (mapElems ty fun a b d => (fmtOf ty).fma (c.mode rnd) false (c.flushes ty) a b d) with
    readD := true }

/-- FMIN. -/
def execFmin (o : Ops) (ty : Ty) (s : State) : Host.Outcome State Fault Refusal :=
  withCtx s fun c => c.alu o (floatPlan ty (mapElems ty fun a b _ => (fmtOf ty).minMax (c.flushes ty) false a b))

/-- FMAX. -/
def execFmax (o : Ops) (ty : Ty) (s : State) : Host.Outcome State Fault Refusal :=
  withCtx s fun c => c.alu o (floatPlan ty (mapElems ty fun a b _ => (fmtOf ty).minMax (c.flushes ty) true a b))

/-! ### Comparison and classes (R157, R161) -/

/-- A condition of FCMP. -/
def fcondHolds (k : FCond) (a b : FVal) : Bool :=
  let nan := a.isNaN || b.isNaN
  match k with
  | .eq => a.same b
  | .ne => !a.same b
  | .lt => !nan && a.lt b
  | .le => !nan && !b.lt a
  | .gt => !nan && b.lt a
  | .ge => !nan && !a.lt b
  | .ord => !nan
  | .uno => nan

/-- A comparison with its exceptions: the four orderings count INV for any NaN (R157). -/
def fcompare (k : FCond) (a b : FVal) : LaneOut :=
  let ordering := k == .lt || k == .le || k == .gt || k == .ge
  { p := fcondHolds k a b
    exc := nanExc [a, b] ++ (if ordering && (a.isNaN || b.isNaN) then [.inv] else []) }

/-- The element that .hi selects. -/
def hiElem (ty : Ty) (hi : Bool) (x : Nat) : Nat := elem (fmtOf ty).bits x hi.toNat

/-- FCMP: compares into a predicate. -/
def execFcmp (o : Ops) (ty : Ty) (cond : FCond) (hi : Bool) (s : State) : Host.Outcome State Fault Refusal :=
  withCtx s fun c =>
    let value := fun (x : Nat) => (fmtOf ty).flushed (c.flushes ty) (hiElem ty hi x)
    c.alu o { floatPlan ty (fun x => fcompare cond (value x.a) (value x.b)) with pout := some (Opnd.predNum o.dst) }

/-- The class number of a value (R161). -/
def classOf (x : Fmt) (b : Nat) : Nat :=
  match x.value b with
  | .nan true => 0
  | .nan false => 1
  | .inf neg => if neg then 2 else 9
  | .fin neg m _ =>
    let k := if m = 0 then 2 else if m < 2 ^ x.f then 1 else 0
    if neg then 3 + k else 8 - k

/-- FCLASS: tests the class against a mask. -/
def execFclass (o : Ops) (ty : Ty) (hi : Bool) (s : State) : Host.Outcome State Fault Refusal :=
  withCtx s fun c => c.alu o { floatPlan ty (fun x => { p := bitOf x.b (classOf (fmtOf ty) (hiElem ty hi x.a)) }) with
    tyB := .b32, tagB := fun _ => none, pout := some (Opnd.predNum o.dst) }

/-! ### Special functions (R158, R159) -/

/-- The shape of a special function: one FP32 operand, long-latency. -/
def sfuPlan (f : Nat → FRes) : Plan :=
  { floatPlan .f32 (fun x => let r := f x.a; { val := r.bits, exc := r.exc }) with long := true }

/-- FRCP. -/
def execFrcp (o : Ops) (rnd : Rnd) (s : State) : Host.Outcome State Fault Refusal :=
  withCtx s fun c => c.alu o (sfuPlan (frcp (c.mode rnd)))

/-- FSQRT. -/
def execFsqrt (o : Ops) (rnd : Rnd) (s : State) : Host.Outcome State Fault Refusal :=
  withCtx s fun c => c.alu o (sfuPlan (fsqrt (c.mode rnd)))

/-- FRSQ. -/
def execFrsq (o : Ops) (s : State) : Host.Outcome State Fault Refusal := withCtx s fun c => c.alu o (sfuPlan frsq)

/-- FEXP2. -/
def execFexp2 (o : Ops) (s : State) : Host.Outcome State Fault Refusal := withCtx s fun c => c.alu o (sfuPlan fexp2)

/-- FLOG2. -/
def execFlog2 (o : Ops) (s : State) : Host.Outcome State Fault Refusal := withCtx s fun c => c.alu o (sfuPlan flog2)

/-- FSINPI. -/
def execFsinpi (o : Ops) (s : State) : Host.Outcome State Fault Refusal := withCtx s fun c => c.alu o (sfuPlan fsinpi)

/-- FCOSPI. -/
def execFcospi (o : Ops) (s : State) : Host.Outcome State Fault Refusal := withCtx s fun c => c.alu o (sfuPlan fcospi)

/-- FTANH. -/
def execFtanh (o : Ops) (s : State) : Host.Outcome State Fault Refusal := withCtx s fun c => c.alu o (sfuPlan ftanh)

/-! ### Rounding and scaling (R160, R162) -/

/-- An element rounded to an integral value; it counts no NX, UF or OF (R160). -/
def Fmt.toIntegral (x : Fmt) (mode : Nat) (flush : Bool) (a : Nat) : FRes :=
  let v := x.flushed flush a
  match v with
  | .nan _ => ⟨x.canonicalNaN, nanExc [v]⟩
  | .inf neg => ⟨x.infinity neg, []⟩
  | .fin neg m e =>
    let (q, _) := roundQuantum mode neg m e 0 false
    ⟨(x.fromMag 1 false false neg q 0 false).bits, []⟩

/-- FRND. -/
def execFrnd (o : Ops) (ty : Ty) (rnd : Rnd) (s : State) : Host.Outcome State Fault Refusal :=
  withCtx s fun c => c.alu o (floatPlan ty (mapElems ty fun a _ _ => (fmtOf ty).toIntegral (c.mode rnd) (c.flushes ty) a))

/-- a × 2^k; a scale beyond every exponent of the formats is held at ±2000, which gives the same result (R162). -/
def Fmt.scale (x : Fmt) (mode : Nat) (flush : Bool) (a : Nat) (k : Int) : FRes :=
  let v := x.flushed flush a
  let k1 := max (-2000) (min 2000 k)
  match v with
  | .fin neg m e => x.fromMag mode false flush neg m (e + k1) false
  | _ => finish x mode false flush [v] (v, [])

/-- FSCALEB. -/
def execFscaleb (o : Ops) (ty : Ty) (rnd : Rnd) (s : State) : Host.Outcome State Fault Refusal :=
  withCtx s fun c =>
    let n := (fmtOf ty).bits
    c.alu o { floatPlan ty (fun x => packElems n (32 / n) fun i =>
        (fmtOf ty).scale (c.mode rnd) (c.flushes ty) (elem n x.a i) (sVal 32 x.b)) with
      tyB := .s32, tagB := fun _ => Ty.s32.tags }

/-- The exponent of an FP32 value as s32 (R162). -/
def exponentOf (a : Nat) : LaneOut :=
  let v := fp32.value a
  match v with
  | .nan _ => { val := 0x80000000, exc := nanExc [v] ++ [.inv] }
  | .inf _ => { val := 0x7FFFFFFF }
  | .fin _ m e => if m = 0 then { val := 0x80000000, exc := [.dz] } else { val := wrapN 32 (e + Nat.log2 m) }

/-- FEXPT. -/
def execFexpt (o : Ops) (s : State) : Host.Outcome State Fault Refusal :=
  withCtx s fun c => c.alu o { floatPlan .f32 (fun x => exponentOf x.a) with tagOut := fun _ => 1 }

/-! ### Conversions (R163, R164) -/

/-- A float of one format in another: widened exactly, or narrowed by the mode (R65, R66). See assumption 58. -/
def convert (src dst : Fmt) (mode : Nat) (sat flushIn flushOut : Bool) (a : Nat) : FRes :=
  let v := src.flushed flushIn a
  finish dst mode sat flushOut [v] (v, [])

/-- FCVT: widens one element to FP32, or narrows a and b into a pair. -/
def execFcvt (o : Ops) (ty : Ty) (rnd : Rnd) (hi : Bool) (sat : Bool) (sty : Ty) (s : State) : Host.Outcome State Fault Refusal :=
  withCtx s fun c =>
    let conv := convert (fmtOf sty) (fmtOf ty) (c.mode rnd) sat (c.flushes sty) (c.flushes ty)
    let run := fun (x : LaneIn) =>
      if ty = .f32 then packElems 32 1 fun _ => conv (hiElem sty hi x.a)
      else packElems 16 2 fun i => conv (if i = 0 then x.a else x.b)
    c.alu o { floatPlan sty run with tagOut := fun _ => ty.tag }

/-- FCVTI: one element to an integer. -/
def execFcvti (o : Ops) (ty : Ty) (rnd : Rnd) (hi : Bool) (sty : Ty) (s : State) : Host.Outcome State Fault Refusal :=
  withCtx s fun c =>
    let run := fun (x : LaneIn) =>
      let v := (fmtOf sty).flushed (c.flushes sty) (hiElem sty hi x.a)
      let r := toIntSat (c.mode rnd) (tySigned ty) (tyBits ty) v
      ({ val := r.bits, exc := nanExc [v] ++ r.exc } : LaneOut)
    c.alu o { floatPlan sty run with out64 := ty.is64, tagOut := fun _ => ty.tag }

/-- ICVTF: an integer to FP32, or two integers to a pair. -/
def execIcvtf (o : Ops) (ty : Ty) (rnd : Rnd) (sat : Bool) (sty : Ty) (s : State) : Host.Outcome State Fault Refusal :=
  withCtx s fun c =>
    let conv := fun (x : Nat) => (fmtOf ty).fromVal (c.mode rnd) sat (c.flushes ty) (FVal.ofInt (tyVal sty x))
    let run := fun (x : LaneIn) =>
      if ty = .f32 then packElems 32 1 fun _ => conv x.a else packElems 16 2 fun i => conv (if i = 0 then x.a else x.b)
    c.alu o { intPlan sty run with out64 := false, sext := false, tagOut := fun _ => ty.tag }

/-! ### Dot product (R165) -/

/-- d + Σ a.i × b.i over m elements, exact and rounded once to FP32. -/
def dotFloat (mode : Nat) (d : Nat) (as bs : List FVal) : LaneOut :=
  let vd := fp32.value d
  let ps := as.zipWith FVal.mul bs
  let (x, e) := sumVals mode (vd :: ps.map (·.1))
  let r := finish fp32 mode false false (vd :: as ++ bs) (x, ps.flatMap (·.2) ++ e)
  { val := r.bits, exc := r.exc }

/-- FDOT2. -/
def execFdot2 (o : Ops) (ty : Ty) (rnd : Rnd) (s : State) : Host.Outcome State Fault Refusal :=
  withCtx s fun c =>
    let vals := fun (x : Nat) => (List.range 2).map fun i => (fmtOf ty).flushed (c.flushes ty) (elem 16 x i)
    c.alu o { floatPlan ty (fun x => dotFloat (c.mode rnd) x.d (vals x.a) (vals x.b)) with
      tyD := .f32, tagD := fun _ => Ty.f32.tags, readD := true, tagOut := fun _ => 3 }

end Sys2Proof.Machine
end

