-- ==== Sys2Proof/Machine/CrossLane.lean ====
section
/-!
DEFINITION. Group 2, second part: cross-lane instructions (R173 to R183).
-/
namespace Sys2Proof.Machine

/-! ### Values and poison of chosen threads -/

/-- The poison of a register's thread with the origin that its register holds. -/
def Wave.bad (w : Wave) (o : Opnd) (is64 : Bool) (t : Nat) : Bool × Origin := (w.poisonAt o is64 t, w.originAt o is64 t)

/-- One thread's result and the poison it used. -/
structure CrossOut where
  out : LaneOut := {}
  bad : List (Bool × Origin) := []
  deriving DecidableEq, Repr

/-- Poison of a list of uses. -/
def badOf (bs : List (Bool × Origin)) : Bool := bs.any (·.1)

/-- Origin of a list of uses (R52). -/
def originOfBad (bs : List (Bool × Origin)) : Origin := if bs.any fun b => b.1 && b.2 == .data then .data else .fault

/-- Commits one result for each active thread. -/
def Ctx.cross (c : Ctx) (dst : Opnd) (act : Mask) (out64 : Bool) (tagOut : Nat → BitVec 5) (f : Nat → CrossOut) : State :=
  let rs := (List.range 128).map fun t => if act.getLsbD t then f t else {}
  c.commit dst act
    { outs := rs.map (·.out), poison := Mask.ofPred fun t => badOf (rs.getD t {}).bad
      origin := originOfBad (rs.flatMap (·.bad)), out64 := out64, tagOut := tagOut }

/-- The tag of the source vector in each half (R45). See assumption 120. -/
def Ctx.tagOfA (c : Ctx) (o : Ops) (i : Nat) : BitVec 5 := (c.w.tagHalf o.a i).getD 0

/-- The tags that the source of an exchange may carry: any in the .b32 form, and S32, N32 or RAW in each half of a pair (R44, R45). See assumption 120. -/
def crossTags (is64 : Bool) : Option (List Nat) := if is64 then some [0, 1, 2] else none

/-- The uses of a vector source and a destination of one type. See assumption 120. -/
def crossUses (o : Ops) (is64 : Bool) (second : List Use) : List Use :=
  usesOf o.a is64 o.feA true false false (fun _ => crossTags is64) ++ second ++ usesOf o.dst is64 false false true false fun _ => none

/-- SRCA of a chosen thread, or the fill of SHFL: own or zero (R174). -/
def Ctx.chosen (c : Ctx) (o : Ops) (ty : Ty) (fill : Bool) (u : Int) (t : Nat) : CrossOut :=
  let from_ := fun (k : Nat) => ({ out := { val := c.w.value c.f.exec o.a ty 0 k }, bad := [c.w.bad o.a ty.is64 k] } : CrossOut)
  if 0 ≤ u && u < c.w.width then from_ u.toNat
  else if fill then {} else from_ t

/-! ### Exchange (R174 to R176) -/

/-- SHFL: the thread that b names. -/
def execShfl (o : Ops) (ty : Ty) (fill : Bool) (s : State) : Host.Outcome State Fault Refusal :=
  withCtx s fun c =>
    let second := usesOf o.b false o.feB true false false fun _ => some [0, 1, 2]
    c.vector o.guard (crossUses o ty.is64 second) fun act =>
      c.cross o.dst act ty.is64 (c.tagOfA o) fun t =>
        let x := c.chosen o ty fill (c.w.value c.f.exec o.b .b32 o.imm t % 2 ^ 32 : Nat) t
        { x with bad := c.w.bad o.b false t :: x.bad }

/-- The value of SHFLI: IMM, or W shifted right by it (R174). -/
def shfliValue (width : Nat) (wrel : Bool) (imm : BitVec 21) : Nat := if wrel then width >>> imm.toNat else imm.toNat

/-- The source thread of SHFLI. -/
def shfliSource (mode : ShflMode) (value t : Nat) : Int :=
  match mode with
  | .idx => value
  | .up => (t : Int) - value
  | .down => (t : Int) + value
  | .xor => (t ^^^ value : Nat)

/-- SHFLI: a thread at a fixed distance. -/
def execShfli (o : Ops) (ty : Ty) (mode : ShflMode) (wrel : Bool) (fill : Bool) (s : State) : Host.Outcome State Fault Refusal :=
  withCtx s fun c =>
    c.vector o.guard (crossUses o ty.is64 []) fun act =>
      c.cross o.dst act ty.is64 (c.tagOfA o) fun t =>
        c.chosen o ty fill (shfliSource mode (shfliValue c.w.width wrel o.imm) t) t

/-- LSH: shifts the wave's values by k threads (R175). -/
def execLsh (o : Ops) (ty : Ty) (s : State) : Host.Outcome State Fault Refusal :=
  withCtx s fun c =>
    let tags := fun (i : Nat) => if c.tagOfA o i = 0 then none else some [0, (c.tagOfA o i).toNat]
    let second := usesOf o.b ty.is64 o.feB true false false tags
    c.vector o.guard (crossUses o ty.is64 second) fun act =>
      c.cross o.dst act ty.is64 (c.tagOfA o) fun t =>
        let u : Int := (t : Int) - o.imm.toInt
        if 0 ≤ u && u < c.w.width then c.chosen o ty true u t
        else { out := { val := c.w.value c.f.exec o.b ty 0 t }, bad := [c.w.bad o.b ty.is64 t] }

/-- BCAST: the value of one thread, to every active thread or to a scalar (R176). -/
def execBcast (o : Ops) (ty : Ty) (s : State) : Host.Outcome State Fault Refusal :=
  withCtx s fun c =>
    let second := usesOf o.b false o.feB true false false fun _ => none
    c.vector o.guard (crossUses o ty.is64 second) fun act =>
      let u := c.w.value c.f.exec o.b .b32 o.imm 0 % 2 ^ 32 % c.w.width
      let x : CrossOut := { out := { val := c.w.value c.f.exec o.a ty 0 u }, bad := [c.w.bad o.a ty.is64 u, c.w.bad o.b false 0] }
      let bad := badOf x.bad
      c.commit o.dst act
        { outs := lanes act fun _ => x.out, poison := if bad then act else 0, origin := originOfBad x.bad
          out64 := ty.is64, tagOut := c.tagOfA o, scalar := some (x.out.val, bad) }

/-! ### Reductions (R173, R177 to R179) -/

/-- One combination of a reduction. -/
def combine (op : ROp) (ty : Ty) (mode a b : Nat) : FRes :=
  match op, ty with
  | .add, .f32 => fp32.add mode false false a b
  | .min, .f32 => fp32.minMax false false a b
  | .max, .f32 => fp32.minMax false true a b
  | .add, _ => ⟨(a + b) % 2 ^ 32, []⟩
  | .min, _ => ⟨wrapN 32 (min (tyVal ty a) (tyVal ty b)), []⟩
  | .max, _ => ⟨wrapN 32 (max (tyVal ty a) (tyVal ty b)), []⟩
  | .and, _ => ⟨a &&& b, []⟩
  | .or, _ => ⟨a ||| b, []⟩
  | .xor, _ => ⟨a ^^^ b, []⟩

/-- The identity of an operation. -/
def identityOf (op : ROp) (ty : Ty) : Nat :=
  match op, ty with
  | .add, .f32 => 0x80000000
  | .min, .f32 => 0x7F800000
  | .max, .f32 => 0xFF800000
  | .min, .s32 => 0x7FFFFFFF
  | .min, _ => 0xFFFFFFFF
  | .max, .s32 => 0x80000000
  | .and, _ => 0xFFFFFFFF
  | _, _ => 0

/-- The values that a reduction starts from: the identity where a thread does not contribute. -/
def Ctx.leaves (c : Ctx) (o : Ops) (op : ROp) (ty : Ty) (act : Mask) : List CrossOut :=
  (List.range c.w.width).map fun t =>
    if act.getLsbD t then { out := { val := c.w.value c.f.exec o.a ty 0 t }, bad := [c.w.bad o.a false t] }
    else { out := { val := identityOf op ty } }

/-- A combination of two values with their exceptions and poison. -/
def CrossOut.combine (op : ROp) (ty : Ty) (mode : Nat) (x y : CrossOut) : CrossOut :=
  let r := Machine.combine op ty mode x.out.val y.out.val
  let bad := x.bad ++ y.bad
  { out := { val := r.bits, exc := (x.out.exc ++ y.out.exc ++ r.exc).eraseDups }, bad := [(badOf bad, originOfBad bad)] }

/-- The uses of a reduction. -/
def reduceUses (o : Ops) (ty : Ty) : List Use :=
  usesOf o.a false o.feA true false false (fun _ => ty.tags) ++ usesOf o.dst false false false true false fun _ => none

/-- REDSTEP: one step of a butterfly (R177). -/
def execRedstep (o : Ops) (ty : Ty) (op : ROp) (j : BitVec 3) (s : State) : Host.Outcome State Fault Refusal :=
  withCtx s fun c =>
    c.vector o.guard (reduceUses o ty) fun act =>
      c.cross o.dst act false (fun _ => ty.tag) fun t =>
        (c.chosen o ty true t t).combine op ty (c.mode .fpmode) (c.chosen o ty true (t ^^^ (c.w.width >>> j.toNat) : Nat) t)

/-- log2 of a wave width. -/
def log2Width (w : Nat) : Nat := Nat.log2 w

/-- The tree of REDUCE (R178). -/
def reduceTree (width : Nat) (f : CrossOut → CrossOut → CrossOut) (xs : List CrossOut) : List CrossOut :=
  (List.range (log2Width width)).foldl (fun ys j =>
    (List.range width).map fun t => f (ys.getD t {}) (ys.getD (t ^^^ (width >>> (j + 1))) {})) xs

/-- REDUCE: combines the contributing threads. -/
def execReduce (o : Ops) (ty : Ty) (op : ROp) (s : State) : Host.Outcome State Fault Refusal :=
  withCtx s fun c =>
    c.vector o.guard (reduceUses o ty) fun act =>
      let x := (reduceTree c.w.width (CrossOut.combine op ty (c.mode .fpmode)) (c.leaves o op ty act)).headD {}
      let n := match o.dst with | .v _ => act.threads.length | .s _ => 1 | _ => 0
      let bad := badOf x.bad
      c.commit o.dst act
        { outs := lanes act fun _ => x.out, poison := if bad then act else 0, origin := originOfBad x.bad
          tagOut := fun _ => ty.tag, scalar := some (x.out.val, bad)
          evs := some ((allClasses.filter fun k => x.out.exc.contains k).map fun k => (k, n)) }

/-- The prefix combinations of SCAN (R179). See assumption 119. -/
def scanTree (width : Nat) (f : CrossOut → CrossOut → CrossOut) (xs : List CrossOut) : List CrossOut :=
  (List.range (log2Width width)).foldl (fun ys j =>
    (List.range width).map fun t => if t < 2 ^ j then ys.getD t {} else f (ys.getD (t - 2 ^ j) {}) (ys.getD t {})) xs

/-- SCAN: prefix combinations in thread order. See assumption 119. -/
def execScan (o : Ops) (ty : Ty) (op : ROp) (excl : Bool) (s : State) : Host.Outcome State Fault Refusal :=
  withCtx s fun c =>
    c.vector o.guard (reduceUses o ty) fun act =>
      let xs := scanTree c.w.width (CrossOut.combine op ty (c.mode .fpmode)) (c.leaves o op ty act)
      let ident : CrossOut := { out := { val := identityOf op ty } }
      c.cross o.dst act false (fun _ => ty.tag) fun t =>
        if excl then (if t = 0 then ident else xs.getD (t - 1) {}) else xs.getD t {}

/-! ### Votes and matching (R180 to R183) -/

/-- The contributing threads of a uniform instruction: active with a true guard. -/
def Ctx.contributing (c : Ctx) (g : Guard) : Mask := c.f.exec &&& c.w.guardBits g

/-- The uses of a scalar destination. -/
def scalarDst (o : Ops) : List Use := usesOf o.dst false false false true false fun _ => none

/-- Poison that the contributing threads of a predicate carry, with its origin. -/
def Ctx.predBad (c : Ctx) (n : Nat) (m : Mask) : Bool × Origin :=
  let bad := (c.w.p n).poison &&& m != 0
  (bad, if bad then (c.w.p n).origin else .fault)

/-- BALLOT: 64 bits of a predicate (R180). -/
def execBallot (o : Ops) (hi : Bool) (s : State) : Host.Outcome State Fault Refusal :=
  withCtx s fun c => c.uniform o.guard (scalarDst o) (
    let n := Opnd.predNum o.a
    let m := c.contributing o.guard
    let (bad, org) := c.predBad n m
    let bits := ((c.w.p n).bits &&& m).extractLsb' (64 * hi.toNat) 64
    c.done (match o.dst with | .s d => c.w.setS d.toNat (SReg.write bits bad org) | _ => c.w))

/-- VOTE: one predicate over the contributing threads, written to every thread (R181). -/
def execVote (o : Ops) (kind : VKind) (s : State) : Host.Outcome State Fault Refusal :=
  withCtx s fun c => c.uniform o.guard [] (
    let n := Opnd.predNum o.a
    let m := c.contributing o.guard
    let bits := (c.w.p n).bits &&& m
    let x := match kind with
      | .any => bits != 0
      | .all => bits == m
      | .uni => bits == 0 || bits == m
    let (bad, org) := c.predBad n m
    let d := Opnd.predNum o.dst
    c.done (c.w.setP d ((c.w.p d).write c.w.all (if x then c.w.all else 0) (if bad then c.w.all else 0) org)))

/-- ELECT: the lowest contributing thread (R182). -/
def execElect (o : Ops) (s : State) : Host.Outcome State Fault Refusal :=
  withCtx s fun c => c.uniform o.guard [] (
    let bits := match Mask.lowest (c.contributing o.guard) with | some t => Mask.one t | none => 0
    let d := Opnd.predNum o.dst
    c.done (c.w.setP d ((c.w.p d).write c.w.all bits 0 .fault)))

/-- MATCH: the leader or the number of the contributing threads that hold an equal value (R183). A thread of exec that does not
contribute compares with them too, so its own poison poisons its result. See assumptions 120, 136. -/
def execMatchLanes (o : Ops) (ty : Ty) (cnt : Bool) (s : State) : Host.Outcome State Fault Refusal :=
  withCtx s fun c =>
    let us := usesOf o.a ty.is64 o.feA true false false (fun _ => ty.tags) ++ scalarDst o
    c.vector o.guard us fun act =>
      let vals := (List.range 128).map fun t => c.w.value c.f.exec o.a ty 0 t
      let bads := act.threads.map fun u => c.w.bad o.a ty.is64 u
      let own := fun (t : Nat) => [c.w.bad o.a ty.is64 t]
      let one := fun (t : Nat) =>
        let g := act.threads.filter fun u => vals.getD u 0 == vals.getD t 0
        ({ val := if cnt then g.length else g.headD c.w.width } : LaneOut)
      c.commit o.dst c.f.exec
        { outs := lanes c.f.exec one, poison := Mask.ofPred fun t => c.f.exec.getLsbD t && badOf (bads ++ own t)
          origin := originOfBad (c.f.exec.threads.flatMap fun t => bads ++ own t), tagOut := fun _ => 2 }

end Sys2Proof.Machine
end

