-- ==== Sys2Proof/Machine/Fetch.lean ====
section
/-!
DEFINITION. What comes before and after the meaning of an instruction: choosing the fragment (R23), a pending XLIMIT (R71),
the fetch (R115, R129), the repeat prefix's stepping (R127), decoding and the privilege check (R129), the issue counts,
and the end of a turn.
-/
namespace Sys2Proof.Machine

/-- What a wave does when its turn to issue comes. -/
inductive Prep where
  /-- it executes an instruction in a state -/
  | run (i : Instr) (s : State)
  /-- something else happened instead: a trap, a park, nothing ready -/
  | other (s : State)

/-- The instruction buffer's copy of the word at an address (R22). See assumption 65. -/
def Wave.buffered (w : Wave) (pc : DWord) : Option (BitVec 96) := (w.ibuf.find? fun x => x.1 = pc).map (·.2)

/-- The words that refill the instruction buffer: those from an address on, up to eight, as far as they can be fetched now (R22). See assumption 65. -/
def Ctx.refill (c : Ctx) : Nat → DWord → List (DWord × BitVec 96)
  | 0, _ => []
  | n + 1, pc =>
    match c.fetch c.user pc with
    | .word w => (pc, w) :: c.refill n (pc + 12)
    | _ => []

/-- The word at an address for the issuing fragment, from its buffer or from memory (R22). -/
def Ctx.read (c : Ctx) (pc : DWord) : FetchOut :=
  match c.w.buffered pc with
  | some w => .word w
  | none => c.fetch c.user pc

/-- A register number increased by i × step: the field, and, when the number is no register's any more, the field that the trap names
(R127). A number that is not keeps its low bits, so that a pair's low number stays odd or even, and a scalar then makes room for a run. See assumption 133. -/
def stepField (x : BitVec 10) (i : Nat) (step : Int) : BitVec 10 × Option (BitVec 10) :=
  let n : Int := (x.toNat % 256 : Nat) + i * step
  let field := fun (base k top : Nat) (room : Nat) =>
    let f := BitVec.ofNat 10 (base + wrapN k n)
    if 0 ≤ n && n ≤ top then (f, none) else (BitVec.ofNat 10 (base + min (wrapN k n) room), some f)
  match x.toNat / 256 with
  | 0 => field 0 8 255 255
  | 1 => field 256 6 63 60
  | _ => (x, none)

/-- The word of repeat i (R127), and the first of its fields SRCA, SRCB, DST whose stepped number has left its range. -/
def stepWord (w : BitVec 96) (r : Rep) : BitVec 96 × Option (BitVec 10) :=
  let x := RawWord.unpack w
  let d := stepField x.dst r.idx r.dStep
  let a := stepField x.a r.idx r.aStep
  let b := stepField x.b r.idx r.bStep
  (RawWord.pack { x with dst := d.1, a := a.1, b := b.1 }, [a, b, d].findSome? (·.2))

/-- Whether a REP may repeat a word (R127): group 0, 1, 2 or 4, EQST, TLD or TST. -/
def RawWord.repeatable (x : RawWord) : Bool :=
  let n := x.op.toNat
  n < 0xC0 || (0x100 ≤ n && n < 0x140) || n == 0x147 || n == 0x14B || n == 0x14C

/-- Whether an instruction that may be repeated uses SRCB; FCVT, ICVTF, PCVT and STS have forms that leave fields unused. See assumption 41. -/
def RawWord.usesB (x : RawWord) (i : Instr) : Bool :=
  match i with
  | .fcvt o .. => o.b != .unused
  | .icvtf o .. => o.b != .unused
  | .pcvt o .. => o.b != .unused
  | _ => !(List.contains [0x0A, 0x0B, 0x13, 0x1C, 0x1D, 0x1E, 0x1F, 0x22, 0x23, 0x24, 0x47, 0x48, 0x49, 0x4A, 0x4B, 0x4C, 0x4D, 0x4E, 0x4F, 0x52, 0x54, 0x87, 0x89,
      0x8B, 0x8E, 0x8F, 0x90, 0x91, 0x92, 0x93, 0x94, 0x100, 0x101, 0x105, 0x107, 0x10D, 0x10F, 0x111, 0x112, 0x147] x.op.toNat)

/-- Whether it uses SRCA. See assumption 41. -/
def RawWord.usesA (x : RawWord) : Bool := !(List.contains [0x23, 0x24, 0x89, 0x93, 0x111] x.op.toNat)

/-- Whether it uses DST. See assumption 41. -/
def RawWord.usesD (x : RawWord) (i : Instr) : Bool :=
  match i with
  | .sts o .. => o.dst != .unused
  | _ => !(List.contains [0x102, 0x103, 0x10F, 0x110, 0x111, 0x113, 0x147] x.op.toNat)

/-- Whether the steps of a REP fit a word (R127): a field with a nonzero step is used and of class 0b00 or 0b01. See assumption 41. -/
def RawWord.stepsFit (x : RawWord) (i : Instr) (d a b : Int) : Bool :=
  (d == 0 || decide (x.dst.toNat < 512) && RawWord.usesD x i) && (a == 0 || decide (x.a.toNat < 512) && RawWord.usesA x) &&
    (b == 0 || decide (x.b.toNat < 512) && RawWord.usesB x i)

/-- Whether a word's cross-lane modifier names a distance W >> j that is zero in a wave of 32 threads (R122). -/
def RawWord.farOnScan (x : RawWord) : Bool :=
  let mode := x.xl.toNat % 8
  (mode == 2 || mode == 3) && decide (6 ≤ x.xlp.toNat % 8)

/-- The instruction of a word on a core: what a scan core refuses decodes to none there (R122, R433). -/
def decodeOn (core : Nat) (w : BitVec 96) : Option Instr :=
  (decode w).filter fun i => !(decide (core ≥ Config.mainCores) && (Instr.refusedOnScan i || RawWord.farOnScan (RawWord.unpack w)))

/-- Whether a REP may stand before a word on a core. See assumption 41. -/
def repFits (core : Nat) (w : BitVec 96) (d a b : Int) : Bool :=
  let x := RawWord.unpack w
  match decodeOn core w with
  | some i => RawWord.repeatable x && RawWord.stepsFit x i d a b
  | none => false

/-- Whether an instruction needs supervisor level: group 7 but for SYSCALL (R129, R342). -/
def Instr.privileged : Instr → Bool
  | .eret _ | .crrd _ _ | .crwr _ _ | .tlbi _ _ _ | .tlbp _ _ | .wkill _ | .wsusp _ | .wresm _ | .halt _ _ => true
  | _ => false

/-- Counts an issue of the fragment: for its turn, its LR window and its reservations, which last 64 issues (R23, R104). See assumptions 12, 121. -/
def Fragment.issue (f : Fragment) : Fragment :=
  let rs := (f.resv.map fun r => { r with issues := r.issues + 1 }).filter fun r => r.issues ≤ 64
  { f with turn := f.turn + 1, issues := f.issues + 1, sinceLr := f.sinceLr.map (· + 1), resv := rs, park := none }

/-- The instruction that a fetched word gives the fragment, with a stepped field that has left its range, or the trap that it
raises instead (R127, R129). See assumption 41. -/
def Ctx.decoded (c : Ctx) (w : BitVec 96) : Sum (Instr × Option (BitVec 10)) Trap :=
  let fits := match c.f.rep with | some r => repFits c.core w r.dStep r.aStep r.bStep | none => true
  let x := match c.f.rep with | some r => stepWord w r | none => (w, none)
  if !fits then .inr Trap.illegal
  else
    match decodeOn c.core x.1 with
    | none => .inr Trap.illegal
    | some i => if Instr.privileged i && c.user then .inr Trap.priv else .inl (i, x.2)

/-- The ordinary lines that words at some addresses are fetched from are in the LLC afterwards (R310). See assumption 54. -/
def Ctx.touchWords (c : Ctx) (pcs : List DWord) : State :=
  let lines := (pcs.flatMap fun pc => [pc, pc + 11]).filterMap fun va => match c.s.lookup c.core c.w.part ⟨false, true, c.user⟩ va with
    | .ok pa _ => some (pa / 128)
    | _ => none
  lines.eraseDups.foldl (fun st l => st.touchLine c.w.part l id) c.s

/-- Issues a fetched word: it counts for the fragment, and is decoded. -/
def Ctx.issueWord (c : Ctx) (ibuf : List (DWord × BitVec 96)) (w : BitVec 96) : Prep :=
  let w1 := { c.w with word := w, ibuf := ibuf, stray := none }.modCur Fragment.issue
  match c.decoded w, (c.put w1).ctx? with
  | .inl (i, stray), _ => .run i (c.put { w1 with stray := stray })
  | .inr t, some c1 => .other (c1.trap t)
  | .inr _, none => .other (c.put w1)

/-- Prepares the issue of the fragment that a wave has chosen: an entry to the handler that stalled (R349), a pending XLIMIT (R71),
then the buffer or the fetch (R22, R115), and decoding. Of several XLIMITs that wait, each issue takes one, so that the second comes in the
handler that the first has entered, and kills the wave. See assumption 132. -/
def Ctx.prepare (c : Ctx) : Prep :=
  match c.f.entry, c.w.xlimit with
  | some e, _ => .other (c.enter e.trap e.iaddr e.word)
  | none, (k, iaddr, word) :: rest =>
    let w1 := { c.w with xlimit := rest }
    .other (({ c with w := w1, s := c.put w1 } : Ctx).trapAt { cause := 11, detail := classNum k } iaddr word)
  | none, [] =>
    if c.f.pc.toNat % 4 ≠ 0 then .other (c.trap { cause := 6, addr := c.f.pc, fetch := true })
    else
      match c.w.buffered c.f.pc with
      | some w => c.issueWord c.w.ibuf w
      | none =>
        match c.fetch c.user c.f.pc with
        | .miss va => .other (c.awaitFetch c.user va)
        | .line l => .other (c.awaitLine l)
        | .fault cls => .other (c.trap { cause := 8, detail := cls, addr := c.f.pc, fetch := true })
        | .poisoned => .other (c.s.killWave c.core c.slot { source := 14, sev := 2, addr := c.f.pc.toNat })
        | .word w =>
          let ibuf := (c.f.pc, w) :: c.refill 7 (c.f.pc + 12)
          ({ c with s := c.touchWords (ibuf.map (·.1)) } : Ctx).issueWord ibuf w

/-- The entry from which a wave issues next: its issuing fragment's while the turn lasts, else that of the next ready fragment
(R23). -/
def State.nextEntry (s : State) (core : Nat) (w : Wave) : Option Nat :=
  let keeps := !w.ended && (match w.frag? w.cur with | some f => s.ready core w f | none => false)
  if keeps then some w.cur else s.nextReady core w

/-- Lets the wave in focus issue: it keeps its fragment, or moves to the next ready one (R23). -/
def State.prepare (s : State) : Prep :=
  match s.focus with
  | none => .other s
  | some r =>
    match s.wave? r.core r.slot with
    | none => .other s
    | some w =>
      if !w.runs then .other s
      else
        let s0 := if w.turnOver then s.endTurn r.core r.slot true else s
        match s0.wave? r.core r.slot with
        | none => .other s0
        | some w0 =>
          match s0.nextEntry r.core w0 with
          | none => .other s0
          | some i =>
            match (if !w0.ended && i = w0.cur then s0 else s0.setWave r.core r.slot (w0.switchTo i)).ctx? with
            | some c => c.prepare
            | none => .other s0

/-- After an instruction: the YIELD hint of its word ends the fragment's turn (R126), but never in a handler (R349). A
fragment that stalls, waits or has left gives way to the next ready one, which the next issue chooses (R23). See assumption 60. -/
def State.finish (s : State) : State :=
  match s.focus with
  | none => s
  | some r =>
    match s.wave? r.core r.slot with
    | none => s
    | some w => if bitOf w.word.toNat 92 && !w.alone then s.endTurn r.core r.slot w.turnOver else s

/-! ### Scheduling (R24, R26) -/

/-- A wave that can issue: its effective priority, its creation and where it is. -/
structure Ready where
  prio : Nat
  uid  : Nat
  at_  : WaveRef
  deriving DecidableEq, Repr

/-- The waves that can issue, by core and slot. -/
def State.readyWaves (s : State) : List Ready :=
  s.cores.flatMap fun e => e.2.waves.filterMap fun x =>
    if x.2.runs && (s.nextReady e.1 x.2).isSome then some ⟨s.effPrio x.2, x.2.uid, ⟨e.1, x.1⟩⟩ else none

/-- The quad of a wave, numbered over all cores. -/
def WaveRef.quad (r : WaveRef) : Nat := 4 * r.core + r.slot / 6

/-- Whether the scheduler prefers one wave to another: higher effective priority, then the older wave (R26). -/
def Ready.before (a b : Ready) : Bool := decide (a.prio > b.prio) || (a.prio == b.prio && decide (a.uid < b.uid))

/-- The operands of an instruction; an event of the table has none. -/
def Instr.operands : Instr → Option Ops
  | .iadd o .. | .isub o .. | .iaddc o .. | .imul o .. | .imulh o .. | .imulw o .. | .imad o .. | .imin o .. | .imax o ..
  | .iabs o .. | .ineg o .. | .iaddmin o .. | .iaddmax o .. | .icmp o .. | .and o .. | .or o .. | .xor o .. | .andn o ..
  | .not o .. | .shl o .. | .shr o .. | .sar o .. | .rot o .. | .fshl o | .fshr o | .bfx o .. | .bfi o | .popc o .. | .clz o ..
  | .ctz o .. | .brev o .. | .bperm o | .sel o .. | .mov o .. | .movi o .. | .movh o .. | .lea o .. | .iadd64 o .. | .idp4 o ..
  | .idp2 o .. | .fadd o .. | .fsub o .. | .fmul o .. | .ffma o .. | .fmin o .. | .fmax o .. | .fcmp o .. | .frcp o .. | .frsq o
  | .fsqrt o .. | .fexp2 o | .flog2 o | .fsinpi o | .fcospi o | .ftanh o | .frnd o .. | .fclass o .. | .fscaleb o .. | .fexpt o
  | .fcvt o .. | .fcvti o .. | .icvtf o .. | .fdot2 o .. | .padd o .. | .pmul o .. | .pfma o .. | .pmin o .. | .pmax o ..
  | .pcvt o .. | .pdot4 o .. | .cbdec o .. | .cbenc o .. | .retag o .. | .shfl o .. | .shfli o .. | .lsh o .. | .bcast o ..
  | .redstep o .. | .reduce o .. | .scan o .. | .ballot o .. | .vote o .. | .elect o | .matchLanes o .. | .bra o | .bru o ..
  | .brx o | .call o .. | .ret o | .exit o | .joinp o | .rep o .. | .yield o | .nop o | .waitr o .. | .execs o | .execr o
  | .racq o .. | .rrel o .. | .rqry o | .rdsr o .. | .wrsr o .. | .xcnt o .. | .trap o .. | .bkpt o .. | .cycle o | .ld o ..
  | .ldnc o .. | .st o .. | .stnt o .. | .stm o .. | .lds o .. | .sts o .. | .ldu o .. | .ldmc o .. | .atom o .. | .atomf o ..
  | .cas o .. | .atoms o .. | .lr o .. | .sc o .. | .pref o .. | .thint o .. | .fence o .. | .acq o .. | .rel o .. | .bind o ..
  | .barinit o .. | .bararr o | .barwait o | .barsync o | .barexp o | .barq o | .kick o | .eqst o .. | .eqgo o .. | .eqfence o ..
  | .eqwait o .. | .tld o .. | .tst o .. | .tcpy o | .tcb o .. | .mxprg o | .vxm o .. | .boxt o .. | .trit o | .spush o
  | .spop o .. | .speek o .. | .sclr o | .lathreq o .. | .lathrun o .. | .lathwait o | .gzarr o | .gzrd o .. | .gzclr o ..
  | .gzrpl o | .gzst o | .fget o | .fcmt o | .fpsn o .. | .fend o | .gprobe o | .tgcond o | .tgsig o .. | .tgwait o ..
  | .emit o .. | .syscall o .. | .eret o | .crrd o .. | .crwr o .. | .tlbi o .. | .tlbp o .. | .wkill o | .wsusp o | .wresm o
  | .halt o .. => some o
  | _ => none

/-- The word that a wave issues next, as far as it can be fetched now. -/
def State.peek (s : State) (r : WaveRef) (w : Wave) : Option (BitVec 96) :=
  (s.nextEntry r.core w).bind fun i => (w.frag? i).bind fun f =>
    if f.entry.isSome || !w.xlimit.isEmpty then none
    else match ({ s := s, core := r.core, slot := r.slot, w := if i = w.cur then w else w.switchTo i, f := f } : Ctx).read f.pc with
      | .word x => some x
      | _ => none

/-- The quad clocks for which the next instruction of a wave occupies the lanes (R16, R35): none when it is uniform. See assumption 1. -/
def State.beats (s : State) (r : WaveRef) (w : Wave) : Nat :=
  match (s.peek r w).bind fun x => (decodeOn r.core x).map fun i => ((RawWord.unpack x).op.toNat, i) with
  | some (op, i) =>
    if (Instr.operands i).any (·.anyV) || op = 0x108 then
      w.width / 32 * (if 0x47 ≤ op && op ≤ 0x4E then 4 else 1) * (if w.checked && op < 0xC0 then 2 else 1)
    else 0
  | none => 0

/-- Of some waves that can issue, the one that the scheduler prefers (R26). -/
def preferred (ws : List Ready) : Option Ready :=
  ws.foldl (fun best x => match best with
    | none => some x
    | some b => if x.before b then some x else some b) none

/-- The quad clocks after which a ready wave goes first whatever its priority. See assumption 1. -/
def lagLimit : Nat := 64

/-- The wave that a quad scheduler selects: the preferred one of those whose path is free (R26); and first the preferred one of those that
have been ready too long, which keeps the bound of R24. While the lanes stay occupied for `held` clocks, only waves whose next
instruction is uniform find their path free; when there is none, those clocks pass. See assumption 1. -/
def State.pickReady (s : State) (held : Nat) (ws : List Ready) : Option WaveRef :=
  let wave := fun (x : Ready) => s.wave? x.at_.core x.at_.slot
  let late := ws.filter fun x => (wave x).any fun w => decide (lagLimit ≤ w.lag)
  let free := if held = 0 then ws else ws.filter fun x => (wave x).any fun w => s.beats x.at_ w == 0
  ((preferred late).or ((preferred free).or (preferred ws))).map (·.at_)

/-- A quad counts a clock in which one of its waves issues: the lanes, and how long the other ready waves have waited (R24, R26). See assumption 1. -/
def State.clockQuad (s : State) (q held : Nat) (pick : WaveRef) (ws : List Ready) : State :=
  let n := match s.wave? pick.core pick.slot with | some w => s.beats pick w | none => 0
  let c := s.core pick.core
  let wait := fun (e : Nat × Wave) =>
    if 4 * pick.core + e.1 / 6 ≠ q then e
    else (e.1, { e.2 with lag := if e.1 ≠ pick.slot && ws.any (fun x => x.at_.slot == e.1) then e.2.lag + 1 else 0 })
  { s.setCore pick.core { c with waves := c.waves.map wait } with lanes := s.lanes.put q (if n = 0 then held else n) }

/-- The quad that issues next: the first after the one in focus that has a ready wave. See assumption 1. -/
def nextQuad (last : Nat) (qs : List Nat) : Option Nat :=
  match qs.find? fun q => last < q with
  | some q => some q
  | none => qs.head?

/-- The state in which the wave that issues next is in focus, and its quad has counted the clock. -/
def State.nextWave (s : State) : Option State :=
  let ws := s.readyWaves
  let last := match s.focus with | some r => r.quad | none => 0
  match nextQuad last (ws.map fun x => x.at_.quad) with
  | none => none
  | some q =>
    let held := s.lanes.get 0 q - 1
    let mine := ws.filter fun x => x.at_.quad == q
    (s.pickReady held mine).map fun r => { s.clockQuad q held r mine with focus := some r }

/-! ### A program placed from outside (assumption 13) -/

/-- The virtual and physical address at which `placeWord` puts a word when no wave is about to fetch. See assumption 13. -/
def bootAddr : Nat := 0x10000

/-- The 1 GiB leaf at address 0: V, LEAF, W, X and U (R376, R377). See assumption 13. -/
def bootLeaf : Nat := 0x3B

/-- A supervisor wave of one block with all its threads, at an address. See assumptions 8, 13. -/
def bootWave (uid : Nat) (pc : DWord) : Wave :=
  { uid := uid, team := 0, launch := 0, part := 0, source := .frontEnd, index := 0, width := 128
    entries := some (Fragment.start (Mask.first 128) pc .supervisor uid) :: List.replicate 7 none
    ovf := [], stack := [], cur := 0, alone := false, vregs := [], sregs := [], preds := [], blocks := 1, fpmode := 0
    latches := [], qout := [], qstat := [], tdepth := [], prio := 0, depth := 0, gen := none, bound := none, held := none
    recDepth := 0, node := 0, ringPos := 0, ringCnt := 0, checked := false, suspended := false, debugHalt := false, halted := false
    xlimit := [], word := 0, stray := none, ibuf := [], ended := false, fenced := 0, lag := 0, fetchBad := [], lathFail := [] }

/-- Partition 0 with every cluster, all of GDDR and 16 buckets, tables that map the first GiB, and a wave on core 0 that is
about to fetch at `bootAddr`. See assumption 13. -/
def State.bootWith (s : State) (bytes : List Byte) : State :=
  let tables := [(0x1000, 0x2001), (0x2000, 0x3001), (0x3000, bootLeaf)]
  let mem := tables.foldl (fun (m : Memory) e => m.writeBytes e.1 (leBytes 8 e.2)) s.mem
  let p0 := s.part 0
  let p := { p0 with
    clusters := BitVec.allOnes 48, valid := true, gddrBase := 0, gddrLen := 0x1000000000, bktBase := 0, bktCnt := 0
    ptRoot := 0x1001 }
  let s1 : State := { s with
    mem := mem.writeBytes bootAddr bytes
    focus := some ⟨0, 0⟩
    agenda := [.issue 0 0]
    buckets := (List.range 16).foldl (fun b i => b.put i ⟨BitVec.ofNat 7 i, false, true, none, 0⟩) s.buckets }
  let c := s1.core 0
  (s1.setPart 0 p).setCore 0 { c with
    waves := c.waves.put 0 (bootWave s.uid (BitVec.ofNat 64 bootAddr))
    tlb := tlbInsert 64 c.tlb ⟨0, 0, 3, BitVec.ofNat 256 bootLeaf⟩ }

/-- Whether the fragment in focus is about to fetch at its program counter. -/
def Ctx.aboutToFetch (c : Ctx) : Bool :=
  c.w.runs && c.w.xlimit.isEmpty && c.f.entry.isNone && c.f.rep.isNone && !c.w.turnOver && !c.w.ended && c.s.ready c.core c.w c.f &&
    c.f.pc.toNat % 4 == 0

/-- Puts a word where the next step fetches: over the word that the wave in focus is about to fetch, or, when no wave is
about to issue, into a machine set up for it. See assumption 13. -/
def State.placeWord (s : State) (w : Nat) : State :=
  let bytes := leBytes 12 w
  let here := match s.ctx? with
    | some c =>
      if c.aboutToFetch then
        (match c.fetchByte c.user c.f.pc, c.fetchByte c.user (c.f.pc + 11) with
        | (.ok lo _, _), (.ok hi _, _) => if hi = lo + 11 then some (c, lo) else none
        | _, _ => none)
      else none
    | none => none
  match here with
  | some (c, pa) => { c.put { c.w with ibuf := [] } with mem := s.mem.writeBytes pa bytes, agenda := [.issue c.core c.slot] }
  | none => s.bootWith bytes

end Sys2Proof.Machine
end

