-- ==== Sys2Proof/Machine/Control.lean ====
section
/-!
DEFINITION. Group 3: branches, fragments, register blocks, status registers and counters (R184 to R200).
-/
namespace Sys2Proof.Machine

/-! ### Targets and jumps -/

/-- The target of an offset: the instruction's address plus 4 × off (R185). -/
def Ctx.target (c : Ctx) (imm : BitVec 21) : DWord := c.f.pc + BitVec.ofInt 64 (4 * imm.toInt)

/-- The fragment continues at an address. -/
def Ctx.goTo (c : Ctx) (w : Wave) (pc : DWord) : State := (c.put (w.modCur fun f => f.jump pc)).settle c.core c.slot

/-- A scalar operand whose poison is consumed (R186). -/
def scalarUse (x : Opnd) (fe : Bool) : List Use := usesOf x true fe true false true fun _ => none

/-- The value of a scalar or zero operand. -/
def Wave.scalar (w : Wave) (x : Opnd) : DWord := match x with | .s n => (w.s n.toNat).val | _ => 0

/-- Writes a scalar destination; zero discards. -/
def Wave.putDst (w : Wave) (x : Opnd) (v : DWord) : Wave := match x with | .s n => w.putS n.toNat v | _ => w

/-! ### BRA and EXIT (R187, R191) -/

/-- A fragment of the threads `live`, of which `exec` are active, at an address, split from another: a sibling under the
top of the stack (R18). -/
def Fragment.side (f : Fragment) (live exec : Mask) (pc : DWord) (depth age : Nat) : Fragment :=
  { f with live := live, exec := exec, pc := pc, rep := none, depth := depth, age := age
           resv := f.resv.filter fun r => live.getLsbD r.thread }

/-- Splits the issuing fragment: the threads of `taken` keep its entry and go to the target (R18, R19). A fusion that makes room takes
back the operations at which the fused fragments stalled (assumption 18). -/
def Ctx.split (c : Ctx) (taken : Mask) (target : DWord) : State :=
  let d := c.w.stack.length
  let one := c.f.side taken taken target d c.f.age
  let two := { c.f.side (c.f.live &&& ~~~taken) (c.f.exec &&& ~~~taken) (c.f.pc + 12) d c.s.uid with turn := 0 }
  let s1 := c.s.fresh
  let w1 := (c.w.setFrag c.w.cur (some one)).place two
  let left := w1.frags.flatMap Fragment.stalledAt
  let fused := (c.w.frags.flatMap Fragment.stalledAt).filter fun id => !left.contains id
  ((s1.setWave c.core c.slot w1).abortOps c.core c.slot fused).settle c.core c.slot

/-- BRA: the divergent branch; its condition is its guard. -/
def execBra (o : Ops) (s : State) : Host.Outcome State Fault Refusal :=
  withCtx s fun c =>
    if o.guard = Guard.never then c.next c.s
    else match c.check c.f.exec c.f.exec o.guard [] with
      | some st => c.stop st
      | none =>
        let taken := c.f.exec &&& c.w.guardBits o.guard
        if taken = 0 then c.next c.s
        else if taken = c.f.exec then c.goTo c.w (c.target o.imm)
        else c.split taken (c.target o.imm)

/-- The issuing fragment leaves the wave: it counts as arrived for its entry (R20). -/
def Ctx.retire (c : Ctx) : State :=
  let w1 := (c.w.setFrag c.w.cur none).popLeft 8 c.f.depth
  (c.put { w1 with alone := w1.frags.any fun f => f.handler }).settle c.core c.slot

/-- EXIT: threads, or the whole fragment, leave. -/
def execExit (o : Ops) (s : State) : Host.Outcome State Fault Refusal :=
  withCtx s fun c =>
    if o.guard = Guard.never then c.next c.s
    else if o.guard = Guard.always || c.f.exec = 0 then c.retire
    else match c.check c.f.exec c.f.exec o.guard [] with
      | some st => c.stop st
      | none =>
        let gone := c.f.exec &&& c.w.guardBits o.guard
        let live := c.f.live &&& ~~~gone
        if live = 0 then c.retire
        else c.done (c.w.modCur fun f => { f with
          live := live, exec := f.exec &&& ~~~gone, resv := f.resv.filter fun r => live.getLsbD r.thread })

/-! ### Uniform branches and calls (R188, R189) -/

/-- A condition of BRU. -/
def ucondHolds (k : UCond) (x : DWord) : Bool :=
  match k with
  | .always => true
  | .nz => x != 0
  | .z => x == 0

/-- BRU. -/
def execBru (o : Ops) (cond : UCond) (s : State) : Host.Outcome State Fault Refusal :=
  withCtx s fun c => c.uniform o.guard (scalarUse o.a o.feA) (
    if ucondHolds cond (c.w.scalar o.a) then c.goTo c.w (c.target o.imm) else c.next c.s)

/-- BRX: to s + 4 × off. -/
def execBrx (o : Ops) (s : State) : Host.Outcome State Fault Refusal :=
  withCtx s fun c => c.uniform o.guard (scalarUse o.a o.feA) (
    c.goTo c.w (c.w.scalar o.a + BitVec.ofInt 64 (4 * o.imm.toInt)))

/-- CALL: the next word's address is written after the target is read. -/
def execCall (o : Ops) (ind : Bool) (s : State) : Host.Outcome State Fault Refusal :=
  withCtx s fun c => c.uniform o.guard (scalarUse o.a o.feA ++ scalarDst o) (
    let pc := if ind then c.w.scalar o.a else c.target o.imm
    c.goTo (c.w.putDst o.dst (c.f.pc + 12)) pc)

/-- RET s63 in the GEN_NEST handler leaves it for the level held since its entry; a return to the REP whose repeat entered it resumes
at that repeat (R298). -/
def Ctx.leaveNest (c : Ctx) (held : Option Rep × Level) (pc : DWord) : State :=
  let w := { c.w.modCur (fun f => { f with nest := none, level := held.2 }) with ibuf := [] }
  match held.1 with
  | some r => if pc = r.addr then c.put (w.modCur fun f => { f with pc := pc + 12, rep := some r }) else c.goTo w pc
  | none => c.goTo w pc

/-- RET. -/
def execRet (o : Ops) (s : State) : Host.Outcome State Fault Refusal :=
  withCtx s fun c => c.uniform o.guard (scalarUse o.a o.feA) (
    match c.f.nest, o.a with
    | some held, .s 63 => c.leaveNest held (c.w.scalar o.a)
    | _, _ => c.goTo c.w (c.w.scalar o.a))

/-! ### JOINP, REP, YIELD, NOP (R192, R193, R127) -/

/-- JOINP: pushes its target; JOINOVF at depth 8. -/
def execJoinp (o : Ops) (s : State) : Host.Outcome State Fault Refusal :=
  withCtx s fun c => c.uniform o.guard [] (
    if c.w.stack.length ≥ 8 then c.trap { cause := 10 }
    else c.done { c.w with stack := c.target o.imm :: c.w.stack })

/-- Starts the repeats of the word that follows. -/
def Ctx.startRep (c : Ctx) (d a b : Int) (count : Nat) : State :=
  c.put (c.w.modCur fun f => { f with pc := f.pc + 12, rep := some ⟨f.pc, 0, count, d, a, b⟩ })

/-- REP: the following word is checked; one that cannot be fetched now is dealt with when it is (R127, R433). -/
def execRep (o : Ops) (dStep aStep bStep : BitVec 3) (count : BitVec 6) (s : State) : Host.Outcome State Fault Refusal :=
  withCtx s fun c =>
    let go := c.startRep (stepVal dStep) (stepVal aStep) (stepVal bStep) (count.toNat + 1)
    match c.read (c.f.pc + 12) with
    | .word w => if o.guard = Guard.always && repFits c.core w (stepVal dStep) (stepVal aStep) (stepVal bStep) then go else c.trap Trap.illegal
    | .miss va => c.awaitFetch c.user va
    | _ => go

/-- YIELD: ends the fragment's turn. See assumption 60. -/
def execYield (o : Ops) (s : State) : Host.Outcome State Fault Refusal :=
  withCtx s fun c => c.uniform o.guard [] ((c.next c.s).endTurn c.core c.slot c.w.turnOver)

/-- NOP. -/
def execNop (o : Ops) (s : State) : Host.Outcome State Fault Refusal :=
  withCtx s fun c => c.uniform o.guard [] (c.next c.s)

/-! ### Waiting and the execute mask (R194, R195) -/

/-- WAITR: parks until the named registers are full; a pending nest trap of one is acted on (R298). With a vector register
it acts whatever exec and the guard hold, and its guard is read in the threads of exec (R120). See assumption 63. -/
def execWaitr (o : Ops) (count : BitVec 4) (s : State) : Host.Outcome State Fault Refusal :=
  withCtx s fun c =>
    if o.guard = Guard.never then c.next c.s
    else match c.check 0 (if o.a.isV then c.f.exec else c.guardScope) o.guard (runUses o.a (count.toNat + 1) false true false false fun _ => none) with
      | some st => if o.a.isV || c.uniformRuns o.guard then c.stop st else c.next c.s
      | none => c.next c.s

/-- A predicate operand whose poison in the fragment's live threads is consumed (R195). -/
def predUse (x : Opnd) : List Use := usesOf x false false true false true fun _ => none

/-- EXECS: saves exec in pd and narrows it by pa. -/
def execExecs (o : Ops) (s : State) : Host.Outcome State Fault Refusal :=
  withCtx s fun c => c.uniformOn o.guard c.f.live (predUse o.a) (
    let d := Opnd.predNum o.dst
    let w1 := c.w.setP d ((c.w.p d).write c.w.all c.f.exec 0 .fault)
    c.done (w1.modCur fun f => { f with exec := f.exec &&& (c.w.p (Opnd.predNum o.a)).bits }))

/-- EXECR: exec becomes pa within the live threads. -/
def execExecr (o : Ops) (s : State) : Host.Outcome State Fault Refusal :=
  withCtx s fun c => c.uniformOn o.guard c.f.live (predUse o.a) (
    c.done (c.w.modCur fun f => { f with exec := (c.w.p (Opnd.predNum o.a)).bits &&& f.live }))

/-! ### Register blocks (R41, R196) -/

/-- A fragment that waits for blocks: its wave's effective priority, creation and slot, its place among the wave's
fragments, and the blocks it asks for. -/
structure BlockWait where
  prio : Nat
  uid  : Nat
  slot : Nat
  n    : Nat
  deriving DecidableEq, Repr

/-- The fragments that wait for blocks of a pool. -/
def State.blockWaits (s : State) (core pool : Nat) : List BlockWait :=
  (s.core core).waves.flatMap fun e =>
    if e.2.pool = pool then e.2.frags.filterMap fun f => match f.park with
      | some (.blocks n) => some ⟨s.effPrio e.2, e.2.uid, e.1, n⟩
      | _ => none
    else []

/-- Whether one waiter is served before another: higher effective priority, then the older (R41). DESIGN CHOICE: the older waiter is
the wave created first, and among the fragments of one wave the first in split-table order (assumption 35). -/
def BlockWait.before (a b : BlockWait) : Bool := decide (a.prio > b.prio) || (a.prio == b.prio && decide (a.uid < b.uid))

/-- The waiter that is served first. See assumption 35. -/
def firstWait (l : List BlockWait) : Option BlockWait :=
  l.foldl (fun best x => match best with
    | none => some x
    | some b => if x.before b then some x else some b) none

/-- Gives blocks of its pool to a wave; their registers are as R42 states. -/
def State.takeBlocks (s : State) (core slot n : Nat) : State :=
  match s.wave? core slot with
  | none => s
  | some w =>
    let c := s.core core
    (s.setCore core { c with free := c.free.put w.pool (c.freeIn w.pool - n) }).setWave core slot { w with blocks := w.blocks + n, vregs := w.vregs.filter fun e => e.1 < 16 * w.blocks }

/-- RACQ, blocking (DST zero) or into a predicate. -/
def execRacq (o : Ops) (n : BitVec 5) (s : State) : Host.Outcome State Fault Refusal :=
  withCtx s fun c => c.uniform o.guard [] (
    let k := n.toNat
    let fits := decide (k ≤ (c.s.core c.core).freeIn c.w.pool)
    let waits := c.s.blockWaits c.core c.w.pool
    if c.w.blocks + k > 16 then c.trap { cause := 2 }
    else match o.dst with
      | .p p =>
        let ok := fits && waits.isEmpty
        let s1 := if ok then c.s.takeBlocks c.core c.slot k else c.s
        let bits := if ok then c.w.all else 0
        c.next (s1.modWave c.core c.slot fun w => w.setP p.toNat ((w.p p.toNat).write w.all bits 0 .fault))
      | _ =>
        let me : BlockWait := ⟨c.s.effPrio c.w, c.w.uid, c.slot, k⟩
        if fits && waits.all fun x => me.before x then c.next (c.s.takeBlocks c.core c.slot k) else c.park (.blocks k))

/-- RREL: waits until no register of the top n blocks is empty, then returns them. -/
def execRrel (o : Ops) (n : BitVec 5) (s : State) : Host.Outcome State Fault Refusal :=
  withCtx s fun c => c.uniform o.guard [] (
    let k := n.toNat
    let low := 16 * (c.w.blocks - k)
    let empty := (c.w.vregs.filter fun e => low ≤ e.1 && !e.2.full).map fun e => Opnd.v (BitVec.ofNat 8 e.1)
    if k ≥ c.w.blocks then c.trap { cause := 2 }
    else if !empty.isEmpty then c.park (.regs empty)
    else
      let s1 := c.s.setCore c.core ((c.s.core c.core).giveBlocks c.w.pool k)
      c.next (s1.setWave c.core c.slot { c.w with blocks := c.w.blocks - k, vregs := c.w.vregs.filter fun e => e.1 < low }))

/-- RQRY. -/
def execRqry (o : Ops) (s : State) : Host.Outcome State Fault Refusal :=
  withCtx s fun c => c.uniform o.guard (scalarDst o) (c.done (c.w.putDst o.dst (BitVec.ofNat 64 c.w.blocks)))

/-! ### Status registers (R55, R72, R197) -/

/-- The header of the image that a wave was created from. -/
def State.headerOf (s : State) (w : Wave) : Option Header :=
  (s.teamOf w).map (·.hdr)

/-- SR_STAGEPEER (R13): the team that consumes this team's output, on the core of its latest placement. -/
def State.stagePeer (s : State) (core : Nat) (w : Wave) : Nat :=
  match s.teamOf w with
  | none => 0
  | some t =>
    if t.stage + 1 ≥ t.hdr.nstage then 0
    else
      let k := match s.launches.find? fun l => l.id = t.launch with
        | some l => l.spots.get 0 (spotKey t.x t.y t.z (t.stage + 1))
        | none => 0
      k + (if Config.clusterOf k = Config.clusterOf core then 2 ^ 8 else 0) + 2 ^ 9

/-- The value of a status register, as thread `t` reads it. See assumption 31. -/
def Ctx.readSr (c : Ctx) (n t : Nat) : DWord :=
  let k := c.s.core c.core
  let x : Nat := match n with
    | 0 => c.w.width
    | 1 => t
    | 2 => c.slot % 6 + c.slot / 6 * 2 ^ 3 + c.w.index * 2 ^ 5
    | 3 => c.core + Config.clusterOf c.core * 2 ^ 8 + Config.sectorOf c.core * 2 ^ 14
    | 4 => (match c.s.teamOf c.w with | some t => t.x + t.y * 2 ^ 20 + t.z * 2 ^ 40 + t.stage * 2 ^ 60 | none => 0)
    | 5 => (match c.s.headerOf c.w with
      | some h => (h.nx - 1) + (h.ny - 1) * 2 ^ 20 + (h.nz - 1) * 2 ^ 40 + (h.nstage - 1) * 2 ^ 60
      | none => 0)
    | 6 => c.s.stagePeer c.core c.w
    | 7 => c.w.blocks + k.freeIn c.w.pool * 2 ^ 8
    | 8 => c.w.prio + c.s.effPrio c.w * 2 ^ 3 + c.w.depth * 2 ^ 6
    | 9 => k.corrected.toNat
    | 10 => c.w.fpmode.toNat
    | 0x27 => k.xk
    | _ => (k.xth.get 0xFFFFFFFF (n - 0x20)).toNat
  BitVec.ofNat 64 x

/-- RDSR: uniform into a scalar, a vector instruction into a vector register. -/
def execRdsr (o : Ops) (num : BitVec 8) (s : State) : Host.Outcome State Fault Refusal :=
  withCtx s fun c =>
    match o.dst with
    | .v n => c.vector o.guard (scalarDst o) fun act =>
        c.done (c.w.setV n.toNat ((c.w.v n.toNat).write act (fun t => (c.readSr num.toNat t).setWidth 32) 0 .fault 2))
    | _ => c.uniform o.guard (scalarDst o) (c.done (c.w.putDst o.dst (c.readSr num.toNat c.uniThread)))

/-- A write of a status register (R55, R72). -/
def Ctx.writeSr (c : Ctx) (n : Nat) (x : DWord) : State :=
  let k := c.s.core c.core
  if n = 10 then c.put { c.w with fpmode := x.setWidth 3 }
  else if n = 0x27 then
    c.s.setCore c.core { k with xk := max 10 (min 47 (x.toNat % 64)), xwin := [], xran := [] }
  else c.s.setCore c.core { k with xth := k.xth.put (n - 0x20) (BitVec.ofNat 64 (x.toNat % 2 ^ 34)) }

/-- WRSR. -/
def execWrsr (o : Ops) (num : BitVec 8) (s : State) : Host.Outcome State Fault Refusal :=
  withCtx s fun c => c.uniform o.guard (scalarUse o.a o.feA) (c.next (c.writeSr num.toNat (c.w.scalar o.a)))

/-! ### Counters and software traps (R198 to R200) -/

/-- XCNT: reads and clears a cumulative count. -/
def execXcnt (o : Ops) (cls : XClass) (s : State) : Host.Outcome State Fault Refusal :=
  withCtx s fun c => c.uniform o.guard (scalarDst o) (
    let k := c.s.core c.core
    let x := k.xcum.get 0 (classNum cls)
    let s1 := c.s.setCore c.core { k with xcum := k.xcum.put (classNum cls) 0 }
    c.next (s1.modWave c.core c.slot fun w => w.putDst o.dst (BitVec.ofNat 64 x)))

/-- TRAP. -/
def execTrap (o : Ops) (code : BitVec 16) (s : State) : Host.Outcome State Fault Refusal :=
  withCtx s fun c => c.uniform o.guard [] (c.trap { cause := 12, code := code.toNat })

/-- BKPT. -/
def execBkpt (o : Ops) (code : BitVec 16) (s : State) : Host.Outcome State Fault Refusal :=
  withCtx s fun c => c.uniform o.guard [] (c.trap { cause := 13, code := code.toNat })

/-- CYCLE: the core's clocks; how many have passed since the last read is free. The count never goes back (assumption 36). -/
def execCycle (o : Ops) (s : State) : Host.Outcome State Fault Refusal :=
  withCtx s fun c => c.uniform o.guard (scalarDst o) (
    let k := c.s.core c.core
    let now : DWord := BitVec.ofNat 64 (min (2 ^ 64 - 1) (k.cycles.toNat + Config.clocks c.s.freeCtr))
    let s1 := (c.s.setCore c.core { k with cycles := now }).draw
    c.next (s1.modWave c.core c.slot fun w => w.putDst o.dst now))

end Sys2Proof.Machine
end

