-- ==== Sys2Proof/Machine/Access.lean ====
section
/-!
DEFINITION. What memory and engine instructions share: how a type lies in memory and in registers (R60, R87, R203),
addresses of global memory and scratchpads (R75, R202), translation of a store (R205), and entering an engine queue (R105,
R231).
-/
namespace Sys2Proof.Machine

/-! ### From memory to registers (R60, R203) -/

/-- An FP6 element widened to the byte that a register holds (R60). -/
def widen6 (ty : Ty) (x : Nat) : Nat :=
  if ty = .e3m2 then (e5m2.fromVal 0 false false (e3m2.value x)).bits else (e4m3.fromVal 0 false false (e2m3.value x)).bits

/-- The words that one register group of an access receives from its bytes: one word, or two for a pair. -/
def loadWords (ty : Ty) (one : Bool) (sub : Nat) (bs : List Byte) : List Word :=
  let x := leNat bs
  let w := fun (n : Nat) => BitVec.ofNat 32 n
  match ty with
  | .s64 | .n64 => [w x, w (x / 2 ^ 32)]
  | .s8 => if one then [w (wrapN 32 (sVal 8 x))] else [w x]
  | .s16 => if one then [w (wrapN 32 (sVal 16 x))] else [w x]
  | .e2m1 | .cb4 => if one then [w (x / 2 ^ (4 * sub) % 16)] else [w x]
  | .e3m2 | .e2m3 =>
    if one then [w (widen6 ty (x / 2 ^ (6 * sub) % 64))]
    else [w ((List.range 4).foldl (fun acc i => acc + widen6 ty (x / 2 ^ (6 * i) % 64) * 2 ^ (8 * i)) 0)]
  | _ => [w x]

/-- The words of a thread's whole access. -/
def loadAll (ty : Ty) (one : Bool) (sub cnt : Nat) (bs : List Byte) : List Word :=
  let n := regBytes ty one
  (List.range cnt).flatMap fun i => loadWords ty one sub ((bs.drop (n * i)).take n)

/-- The tag that a load writes (R203). -/
def loadTag (ty : Ty) (one : Bool) : BitVec 5 :=
  match ty with
  | .s8 | .s16 => if one then 1 else ty.tag
  | .n8 | .n16 => if one then 2 else ty.tag
  | t => t.tag

/-- Whether bits 63:32 of a scalar that a load or atomic of a type writes are open: signed 32-bit values (assumption 17). -/
def highOpen (ty : Ty) (one : Bool) : Bool := ty == .s32 || (one && (ty == .s8 || ty == .s16))

/-- A 32-bit value in a scalar destination. See assumption 17. -/
def State.scalarOf (s : State) (ty : Ty) (one : Bool) (x : Word) : DWord :=
  BitVec.ofNat 64 (x.toNat + if highOpen ty one then 2 ^ 32 * (Config.scalarHigh s.freeCtr).toNat else 0)

/-! ### From registers to memory (R87, R203) -/

/-- A byte of a register narrowed to FP6 (R60, R63, R65). -/
def narrow6 (ty : Ty) (mode x : Nat) : FRes :=
  if ty = .e3m2 then let v := e5m2.value x; let r := e3m2.fromVal mode false false v; ⟨r.bits, nanExc [v] ++ r.exc⟩
  else let v := e4m3.value x; let r := e2m3.fromVal mode false false v; ⟨r.bits, nanExc [v] ++ r.exc⟩

/-- Bytes with enables, and the exceptions of their conversion. -/
structure StoreOut where
  bytes : List (Byte × Byte)
  exc   : List XClass
  deriving DecidableEq, Repr

/-- Whole bytes of a value. -/
def wholeBytes (n x : Nat) : List (Byte × Byte) := (leBytes n x).map fun b => (b, 0xFF)

/-- The bytes that one register group writes: `x` is its word, or the 64 bits of a pair. -/
def storeWord (ty : Ty) (one : Bool) (sub mode x : Nat) : StoreOut :=
  match ty with
  | .e2m1 | .cb4 =>
    if one then ⟨[(BitVec.ofNat 8 (x % 16 * 2 ^ (4 * sub)), BitVec.ofNat 8 (15 * 2 ^ (4 * sub)))], []⟩ else ⟨wholeBytes 4 x, []⟩
  | .e3m2 | .e2m3 =>
    if one then
      let r := narrow6 ty mode (x % 256)
      ⟨(leBytes 3 (r.bits * 2 ^ (6 * sub))).zip (leBytes 3 (63 * 2 ^ (6 * sub))), r.exc⟩
    else
      let rs := (List.range 4).map fun i => narrow6 ty mode (x / 2 ^ (8 * i) % 256)
      ⟨wholeBytes 3 (rs.foldr (fun r acc => r.bits + 64 * acc) 0), rs.flatMap (·.exc)⟩
  | t => ⟨wholeBytes (regBytes t one) x, []⟩

/-- The bytes of a thread's whole store from the values of its registers. -/
def storeAll (ty : Ty) (one : Bool) (sub mode : Nat) (xs : List Nat) : StoreOut :=
  let outs := xs.map (storeWord ty one sub mode)
  ⟨outs.flatMap (·.bytes), outs.flatMap (·.exc)⟩

/-- Tags accepted for store data (R45, R203). -/
def storeTags (ty : Ty) (one : Bool) : Option (List Nat) :=
  match ty with
  | .s8 | .n8 | .s16 | .n16 => if one then some [0, 1, 2, ty.tag.toNat] else ty.tags
  | t => t.tags

/-- The value of register group i of the data operand for a thread. -/
def Wave.dataAt (w : Wave) (o : Opnd) (ty : Ty) (i t : Nat) : Nat :=
  match o with
  | .v _ => w.value 0 (o.plus (if ty.is64 then 2 * i else i)) ty 0 t
  | .s _ => w.value 0 (o.plus i) ty 0 t
  | _ => 0

/-- The number of vector registers, or scalars, of a run. -/
def runLength (o : Opnd) (ty : Ty) (cnt : Nat) : Nat := if o.isV && ty.is64 then 2 * cnt else cnt

/-! ### Addresses -/

/-- A thread's global address: base plus offset, modulo 2^64 (R202). -/
def Ctx.globalAddr (c : Ctx) (o : Ops) (base : Opnd) (t : Nat) : DWord :=
  BitVec.ofNat 64 (c.w.value c.f.exec base .n64 0 t) + BitVec.ofInt 64 o.imm.toInt

/-- The uses of a global base (R45, R202). -/
def baseUses (base : Opnd) (fe consume : Bool) : List Use := usesOf base true fe true false consume addrTags

/-- Whether an access of n bytes of a type must be a multiple of min(n, 16): FP6 groups and elements below a byte need no
alignment (R203). -/
def needsAlign (ty : Ty) (one : Bool) : Bool :=
  !(ty == .e3m2 || ty == .e2m3 || (one && (ty == .e2m1 || ty == .cb4)))

/-- A misaligned access. -/
def misaligned (ty : Ty) (one : Bool) (n addr : Nat) : Bool := needsAlign ty one && addr % min n 16 != 0

/-- A thread's 32-bit scratchpad address (R202). -/
def Ctx.spAddr (c : Ctx) (o : Ops) (t : Nat) : Nat :=
  wrapN 32 ((c.w.value c.f.exec o.a .b32 0 t : Int) + o.imm.toInt)

/-- The fields of a scratchpad address (R75): target core and offset; none when an access of n bytes raises WINDOW. -/
def spTarget (core addr n : Nat) : Option (Nat × Nat) :=
  let off := addr % 2 ^ 19
  let remote := bitOf addr 31
  let k := bitsOf addr 27 20
  let target := if remote then k else core
  if bitOf addr 19 || bitsOf addr 30 28 ≠ 0 then none
  else if remote && (k ≥ Config.allCores || Config.clusterOf k ≠ Config.clusterOf core) then none
  else if off + n > Config.scratchEnd core then none
  else some (target, off)

/-- The uses of a scratchpad base: S32, N32 or RAW (R202). -/
def spUses (o : Ops) (consume : Bool) : List Use := usesOf o.a false o.feA true false consume fun _ => some [0, 1, 2]

/-- The threads of an instruction: the active threads of a vector form, or thread 0 of a uniform one. -/
def Ctx.scope (c : Ctx) (o : Ops) : Mask := if o.anyV then c.active o.guard else 1

/-- Runs a memory instruction in its vector or uniform form (R184). -/
def Ctx.either (c : Ctx) (o : Ops) (us : List Use) (k : Mask → State) : State :=
  if o.anyV then c.vector o.guard us k else c.uniform o.guard us (k 1)

/-! ### Waiting for an acquire (R97, R216) and the LR window (R104) -/

/-- An ACQ of the wave whose value is not bound yet. -/
def Ctx.acquiring (c : Ctx) : Option Nat :=
  ((c.s.core c.core).memq.find? fun m => m.wave = c.w.uid && match m.kind with | .acq .. => true | _ => false).map (·.id)

/-- No memory access issues before an earlier ACQ of the wave has bound its value. -/
def Ctx.memory (c : Ctx) (k : State) : State := match c.acquiring with | some id => c.park (.op id) | none => k

/-- The context with another wave: the state holds it too. -/
def Ctx.withWave (c : Ctx) (w : Wave) : Ctx :=
  { c with s := c.put w, w := w, f := (w.frag? w.cur).getD c.f }

/-- An access lies between an LR of the fragment and its SC (R104). -/
def Ctx.spoil (c : Ctx) : Ctx :=
  if c.f.resv.isEmpty then c
  else c.withWave (c.w.modCur fun f => { f with resv := f.resv.map fun r => { r with plain := false } })

/-! ### Translation of stores and atomics (R205) -/

/-- What the translation of one thread's bytes finds. -/
inductive Reach where
  | bytes (ps : List Nat)
  | fault (cls : Nat) (va : DWord)
  | genro (va : DWord)
  | miss (va : DWord)
  deriving DecidableEq, Repr

/-- Translates the bytes at the given offsets of a thread's address. See assumption 111. -/
def Ctx.reach (c : Ctx) (write : Bool) (va : DWord) (offs : List Nat) : Reach :=
  let k : AccessKind := ⟨write, false, c.user⟩
  let one := fun (i : Nat) => (va + BitVec.ofNat 64 i, c.s.lookFor c.core c.w.part c.w.uid k (va + BitVec.ofNat 64 i))
  let ls := offs.map one
  match ls.find? fun l => match l.2 with | .ok _ _ => false | _ => true with
  | some (a, .gen _) => .genro a
  | some (a, .fault cls) => .fault cls a
  | some (a, .miss) => .miss a
  | _ => .bytes (ls.map fun l => match l.2 with | .ok pa _ => pa | _ => 0)

/-- Translates every thread of a store or atomic before any data is sent (R205): waits for walks, traps at the lowest
thread that faults, or hands each thread's physical byte addresses on. See assumption 111. -/
def Ctx.reachAll (c : Ctx) (o : Ops) (write : Bool) (accs : List (Nat × DWord × List Nat)) (bad : DWord → Bool) (k : Ctx → List (Nat × List Nat) → State) : State :=
  let rs := accs.map fun a => (a.1, a.2.1, if bad a.2.1 then Reach.fault 3 a.2.1 else c.reach write a.2.1 a.2.2)
  let misses := rs.filterMap fun r => match r.2.2 with | .miss va => some va | _ => none
  if !misses.isEmpty then
    let s1 := misses.foldl (fun st va => st.requestWalk c.core c.w.part c.w.uid 0 ⟨write, false, c.user⟩ va) c.s
    ({ c with s := s1 } : Ctx).park (.walk (Config.sectorOf c.core) c.w.uid)
  else
    let thread := fun (t : Nat) => if o.anyV then t else 0
    match rs.find? fun r => match r.2.2 with | .bytes _ => false | _ => true with
    | some (t, _, .fault cls va) => c.trap { cause := 8, detail := cls, thread := thread t, oper := o.a.bits.toNat, addr := va }
    | some (t, _, .genro va) => c.trap { cause := 9, detail := 5, thread := thread t, oper := o.a.bits.toNat, addr := va }
    | _ =>
      let c1 : Ctx := { c with s := c.s.dropWalks c.core c.w.uid }
      k c1 (rs.filterMap fun r => match r.2.2 with | .bytes ps => some (r.1, ps) | _ => none)

/-! ### Acquires (R77, R97) -/

/-- The L1 keys of the bytes of a virtual line, as they translate now. -/
def State.keysOf (s : State) (core part line : Nat) : List LineKey :=
  (List.range 8).filterMap fun i =>
    match s.lookNow core part ⟨false, false, false⟩ (BitVec.ofNat 64 (line * 128 + 16 * i)) with
    | .ok pa _ => some (.phys (pa / 128))
    | .gen _ => some (.gen part line)
    | _ => none

/-- An acquire on an object by a wave: the core drops every L1 line that overlaps a region which the wave's team binds to
the object (R77, R95). A region that is not canonical matches nothing (R217). See assumption 126. -/
def State.acquire (s : State) (core : Nat) (w : Wave) (bar : Bool) (obj : DWord) : State :=
  let k := s.core core
  match s.teamOf w with
  | none => s
  | some t =>
    let regions := t.binds.filter fun b => b.2.bar == bar && b.2.obj == obj && canonical b.2.base
    if k.l1.isEmpty || regions.isEmpty then s
    else
      let lines := (regions.flatMap fun b => linesOf b.2.base b.2.len).eraseDups
      let keys := lines.flatMap fun l => s.keysOf core w.part l
      s.setCore core { k with l1 := k.l1.filter fun x => !keys.contains x.key }

/-! ### Operations under way -/

/-- A memory operation of the issuing fragment. -/
def Ctx.op (c : Ctx) (kind : MemKind) : MemOp := ⟨c.s.uid, c.w.uid, c.slot, c.f.level, c.w.depth, kind, [], c.w.launch, false, c.w.part, false⟩

/-- The partition of a memory operation. -/
def State.opPart (_ : State) (_ : Nat) (m : MemOp) : Nat := m.part

/-- The lines of memory that an operation acts on. -/
def State.opKeys (s : State) (core part : Nat) (m : MemOp) : List LineKey :=
  match m.kind with
  | .store _ bytes _ _ => (bytes.map fun b => LineKey.phys (b.addr / 128)).eraseDups
  | .atom _ _ addr .. => [.phys (addr / 128)]
  | .sc _ _ addr .. => [.phys (addr / 128)]
  | .ldmc .. => []
  | _ => ((m.kind.reads.flatMap fun a => linesOf a.1 a.2).eraseDups.flatMap fun l => s.keysOf core part l).eraseDups

/-- The stores under way that the issuing core's L1 shows already, by position among its operations: a store updates it when it is
sent (R77) unless an earlier access of its wave on one of its lines is still to be performed, which it then follows. See assumption 43. -/
def State.shownStores (s : State) (core : Nat) : List Nat :=
  ((s.core core).memq.zipIdx.foldl (fun (acc : List Nat × List (Nat × List LineKey)) x =>
    let m := x.1
    let keys := s.opKeys core (s.opPart core m) m
    let shown := (match m.kind with | .store _ _ _ nt => !nt | _ => false) && !acc.2.any fun b => b.1 = m.wave && b.2.any keys.contains
    if shown then (acc.1 ++ [x.2], acc.2) else (acc.1, acc.2 ++ [(m.wave, keys)])) ([], [])).1

/-- The bytes of the stores that a core's L1 shows already, in their order. See assumption 43. -/
def State.shownBytes (s : State) (core : Nat) : List ByteWrite :=
  let q := (s.core core).memq
  if q.all fun m => match m.kind with | .store .. => false | _ => true then []
  else (s.shownStores core).flatMap fun k => match (q[k]?).map fun m : MemOp => m.kind with
    | some (MemKind.store _ bytes _ _) => bytes
    | _ => []

/-- A byte under some writes. See assumption 43. -/
def overlay (bs : List ByteWrite) (pa : Nat) (x : Byte) : Byte :=
  bs.foldl (fun y b => if b.addr = pa then (y &&& ~~~b.en) ||| (b.val &&& b.en) else y) x

/-- Adds operations, all with one stamp, to those under way on a core. -/
def State.addOps (s : State) (core : Nat) (ops : List MemOp) : State :=
  let c := s.core core
  (s.setCore core { c with memq := c.memq ++ ops }).fresh

/-- The order in which the threads of one instruction act: free when their places overlap (R103), else ascending. See assumption 80. -/
def threadOrder (free : Nat) (overlap : Bool) (ts : List Nat) : List Nat :=
  if !overlap then ts
  else
    let rank := fun (t : Nat) => Config.atomRank (free * 128 + t)
    ts.foldl (fun l t => (l.filter fun u => rank u ≤ rank t) ++ t :: l.filter fun u => rank u > rank t) []

/-- Whether two threads of an instruction act on a common byte. See assumption 80. -/
def overlaps (xs : List (List Nat)) : Bool :=
  let all := xs.flatMap fun l => l.eraseDups
  all.eraseDups.length != all.length

/-! ### Engine queues (R105, R229 to R233) -/

/-- The core that keeps a queue's joins: the leader of the pair for queue 0 (R232). -/
def joinCore (core q : Nat) : Nat := if q = 0 then core / 2 * 2 else core

/-- What EQFENCE and the earlier accesses of the wave put before an operation (R105, R106). -/
def Ctx.before (c : Ctx) (q : Nat) (reads : Bool) : List Nat :=
  let mine := (c.s.core c.core).memq.filter fun m => m.wave = c.w.uid && match m.kind with | .ldmc .. => false | _ => true
  (c.s.core (joinCore c.core q)).joins.get [] q ++ (if reads then (mine.map (·.id)).eraseDups else [])

/-- A new entry of a queue. -/
def Ctx.entry {κ : Type} (c : Ctx) (q : Nat) (reads : Bool) (kind : κ) : QEntry κ :=
  ⟨c.s.uid, c.w.uid, c.slot, c.w.part, c.f.level, c.w.depth, c.w.fpmode.toNat % 4, false, c.before q reads, c.w.launch, c.f.pc, c.w.word, [], [], kind⟩

/-- Counts an operation of the wave as outstanding in a queue (R231). -/
def Wave.outstanding (w : Wave) (q : Nat) : Wave := { w with qout := w.qout.put q (w.qout.get 0 q + 1) }

/-- Enqueues an operation, or parks while the queue is full (R231). -/
def Ctx.enqueue (c : Ctx) (q : Queue) (add : Core → Core) (after : State → State) : State :=
  if c.s.queueLen c.core q ≥ queueDepth q then c.park (.room q)
  else
    let s1 := (c.s.setCore c.core (add (c.s.core c.core))).fresh
    let s2 := s1.modWave c.core c.slot fun w => w.outstanding q.num
    c.next (after s2)

/-- A faulting operation in a status record: the first since the last EQWAIT is kept (R231). -/
def QStat.add (r : QStat) (status cls row : Nat) (epi : Bool) : QStat :=
  if status = 0 then r
  else
    let n := if r.nfault = BitVec.allOnes 32 then r.nfault else r.nfault + 1
    if r.status = 0 then ⟨BitVec.ofNat 4 status, BitVec.ofNat 3 cls, epi, BitVec.ofNat 12 row, n⟩ else { r with nfault := n }

/-- The 64 bits of a status record. -/
def QStat.bits (r : QStat) : DWord :=
  BitVec.ofNat 64 (r.status.toNat + r.cls.toNat * 2 ^ 4 + r.epi.toNat * 2 ^ 7 + r.row.toNat * 2 ^ 8 + r.nfault.toNat * 2 ^ 32)

/-- The place of a wave by its stamp. -/
def State.findWave (s : State) (uid : Nat) : Option (Nat × Nat) :=
  s.cores.findSome? fun e => (e.2.waves.find? fun x => x.2.uid = uid).map fun x => (e.1, x.1)

/-- Whether a status makes its launch FAULTED (R454). -/
def statusFaults (status : Nat) : Bool := status == 1 || status == 2 || status == 4

/-- Marks a launch as faulted (R38, R454). -/
def State.faultLaunch (s : State) (launch : Nat) : State :=
  { s with launches := s.launches.map fun l => if l.id = launch then { l with faulted := true } else l }

/-- An operation of a wave has completed: its count falls, and a fault enters its record and marks its launch (R231, R454). -/
def State.opDone (s : State) (uid launch q status cls row : Nat) (epi : Bool) : State :=
  let s1 := if statusFaults status then s.faultLaunch launch else s
  match s1.findWave uid with
  | none => s1
  | some (core, slot) => s1.modWave core slot fun w =>
      { w with qout := w.qout.put q (w.qout.get 0 q - 1)
               qstat := w.qstat.put q ((w.qstat.get QStat.clear q).add status cls row epi) }

end Sys2Proof.Machine
end

