-- ==== Sys2Proof/Machine/MemoryInstr.lean ====
section
/-!
DEFINITION. Group 4: loads, stores, atomics, reservations, hints and ordering (R201 to R217).
-/
namespace Sys2Proof.Machine

/-! ### Loads (R204, R213) -/

/-- The threads of a load with their addresses; a poisoned, misaligned or non-canonical one has none, and will be poisoned
(R51, R204). -/
def Ctx.loadAccs (c : Ctx) (o : Ops) (ty : Ty) (one : Bool) (cnt : Cnt) (act : Mask) : List (Nat × Option DWord) :=
  act.threads.map fun t =>
    let va := c.globalAddr o o.a t
    let bad := c.w.poisonAt o.a true t || misaligned ty one (regBytes ty one * cnt.num) va.toNat || !canonical va
    (t, if bad then none else some va)

/-- Whether an operation reads a line that is FILLING. -/
def State.meetsFilling (s : State) (part : Nat) (m : MemOp) : Bool :=
  (m.kind.reads.flatMap fun a => linesOf a.1 a.2).any fun l => match s.genLine part l with | some g => g.state == .filling | none => false

/-- The lines of generated ranges among the bytes of some accesses: reading them starts or joins fills (R294), unless the access goes
through the L1 and hits there: `hits` says which lines do. -/
def State.touchAccs (s : State) (core part uid depth : Nat) (hits : LineKey → Bool) (accs : List (DWord × Nat)) : State :=
  let lines := (accs.flatMap fun a => linesOf a.1 a.2).eraseDups.filter fun l => !hits (.gen part l)
  let s1 := lines.foldl (fun st l => if (st.genAt part (l * 128)).isSome then (st.touchGen core part uid depth l).1 else st) s
  let k := s1.core core
  if k.memq.any fun m => m.wave = uid && s1.meetsFilling part m then
    s1.setCore core { k with memq := k.memq.map fun m => if m.wave = uid && s1.meetsFilling part m then { m with waited := true } else m }
  else s1

/-- Starts a load: destinations become empty and take their tags, reads of generated lines start their fills. -/
def Ctx.startLoad (c : Ctx) (o : Ops) (ty : Ty) (one : Bool) (cnt : Cnt) (sub : Nat) (nc lr : Bool) (act : Mask) : State :=
  let accs := c.loadAccs o ty one cnt act
  let w1 := (accessRegs o.dst ty cnt.num).foldl (fun w r => w.markEmpty r (loadTag ty one)) c.w
  let w2 := if lr then w1.modCur fun f => { f with
      sinceLr := some 0
      resv := (f.resv.filter fun r => !act.getLsbD r.thread) ++ act.threads.map fun t => ⟨t, c.s.uid, none, 0, true⟩ }
    else w1
  let reads := accs.filterMap fun a => a.2.map fun va => (va, regBytes ty one * cnt.num)
  let s1 := (c.put w2).addOps c.core [c.op (.load o.dst ty one cnt (BitVec.ofNat 2 sub) nc lr accs)]
  c.next (s1.touchAccs c.core c.w.part c.w.uid c.w.depth (fun k => !lr && ((c.s.core c.core).l1Hit nc c.w.fenced k).isSome) reads)

/-- The uses of a load: base, then destinations. -/
def loadUses (o : Ops) (ty : Ty) (cnt : Nat) : List Use :=
  baseUses o.a o.feA false ++ runUses o.dst (runLength o.dst ty cnt) false false true false fun _ => none

/-- LD. -/
def execLd (o : Ops) (ty : Ty) (one : Bool) (cnt : Cnt) (sub : BitVec 2) (s : State) : Host.Outcome State Fault Refusal :=
  withCtx s fun c => c.vector o.guard (loadUses o ty cnt.num) fun act =>
    c.memory (c.spoil.startLoad o ty one cnt sub.toNat false false act)

/-- LDNC: as LD, with peer forwarding (R80, R81). -/
def execLdnc (o : Ops) (ty : Ty) (one : Bool) (cnt : Cnt) (sub : BitVec 2) (s : State) : Host.Outcome State Fault Refusal :=
  withCtx s fun c => c.vector o.guard (loadUses o ty cnt.num) fun act =>
    c.memory (c.spoil.startLoad o ty one cnt sub.toNat true false act)

/-- LDU: one uniform load into scalars. -/
def execLdu (o : Ops) (ty : Ty) (cnt : Cnt) (s : State) : Host.Outcome State Fault Refusal :=
  withCtx s fun c => c.uniform o.guard (loadUses o ty cnt.num) (
    c.memory (c.spoil.startLoad o ty false cnt 0 false false 1))

/-- LR: a load that sets its threads' reservations (R104). -/
def execLr (o : Ops) (ty : Ty) (s : State) : Host.Outcome State Fault Refusal :=
  withCtx s fun c => c.vector o.guard (loadUses o ty 1) fun act =>
    c.memory (c.spoil.startLoad o ty false .x1 0 false true act)

/-! ### Stores (R205 to R207) -/

/-- Byte writes from bytes with enables and their physical addresses. -/
def placeBytes (bs : List (Byte × Byte)) (ps : List Nat) : List ByteWrite := (bs.zip ps).map fun x => ⟨x.2, x.1.1, x.1.2⟩

/-- The lines on which an operation of the wave is still under way that the L1 does not show: a store to one of them follows it (R99). See assumption 43. -/
def Ctx.busyLines (c : Ctx) : List LineKey :=
  let shown := c.s.shownStores c.core
  ((c.s.core c.core).memq.zipIdx.filter fun x => x.1.wave = c.w.uid && !shown.contains x.2).flatMap fun x => c.s.opKeys c.core c.w.part x.1

/-- The lines that the threads of one store cover whole with zero bytes, all enabled (R79). -/
def zeroLines (xs : List (Nat × List ByteWrite)) : List Nat :=
  let bs := xs.flatMap (·.2)
  if bs.length < 128 then []
  else (bs.map fun b => b.addr / 128).eraseDups.filter fun l =>
    let mine := bs.filter fun b => b.addr / 128 = l
    mine.all (fun b => b.en == 0xFF && b.val == 0) && (List.range 128).all fun i => mine.any fun b => b.addr = l * 128 + i

/-- One store's bytes by thread, with each line that it covers whole with zeros as one access of its own (R79). -/
def gatherZeros (xs : List (Nat × List ByteWrite)) : List (Nat × List ByteWrite) :=
  let zs := zeroLines xs
  if zs.isEmpty then xs
  else (xs.map fun x => (x.1, x.2.filter fun b => !zs.contains (b.addr / 128))).filter (fun x => !x.2.isEmpty) ++
    zs.map fun l => (128, (List.range 128).map fun i => ⟨l * 128 + i, 0, 0xFF⟩)

/-- Sends the stores of some threads: the L1 copy is updated, or dropped by STNT (R77), and each thread's bytes are to be
performed at their slices. A store to a line with an earlier access under way reaches the L1 when it is performed. See assumption 44. -/
def Ctx.sendStores (c : Ctx) (xs : List (Nat × List ByteWrite)) (nt : Bool) : State :=
  let lap := overlaps (xs.map fun x => x.2.map (·.addr))
  let order := threadOrder c.s.freeCtr lap (xs.map (·.1))
  let sorted := gatherZeros (order.filterMap fun t => xs.find? fun x => x.1 = t)
  let k := c.s.core c.core
  let busy := if k.l1.isEmpty then [] else c.busyLines
  let free := fun (b : ByteWrite) => !busy.contains (.phys (b.addr / 128))
  let k1 := if k.l1.isEmpty then k else sorted.foldl (fun (k : Core) x =>
    if nt then (x.2.map fun b => b.addr / 128).eraseDups.foldl (fun k l => k.l1Drop (.phys l)) k
    else if x.2.all free then k.l1Update x.2 else k) k
  (c.s.setCore c.core k1).draw.addOps c.core (sorted.map fun x => c.op (.store x.1 x.2 false nt))

/-- The uses of a store: base and data, both consumed (R53). -/
def storeUses (o : Ops) (ty : Ty) (one : Bool) (cnt : Nat) : List Use :=
  baseUses o.a o.feA true ++ runUses o.b (runLength o.b ty cnt) o.feB true false true fun _ => storeTags ty one

/-- Global stores of a type. -/
def Ctx.store (c : Ctx) (o : Ops) (ty : Ty) (one : Bool) (cnt sub : Nat) (nt : Bool) (act : Mask) : State :=
  let n := regBytes ty one * cnt
  let outs := act.threads.map fun t =>
    (t, storeAll ty one sub (c.mode .fpmode) ((List.range cnt).map fun i => c.w.dataAt o.b ty i t))
  let accs := outs.map fun x => (x.1, c.globalAddr o o.a x.1, (List.range n))
  c.reachAll o true accs (fun va => misaligned ty one n va.toNat) fun c1 ps =>
    let xs := ps.filterMap fun p => (outs.find? fun x => x.1 = p.1).map fun x => (p.1, placeBytes x.2.bytes p.2)
    let evs := tally (outs.map fun x => x.2.exc)
    c.next ((c1.sendStores xs nt).countAll c.core c.slot c.w.uid evs c.f.pc c.w.word)

/-- ST. -/
def execSt (o : Ops) (ty : Ty) (one : Bool) (cnt : Cnt) (sub : BitVec 2) (s : State) : Host.Outcome State Fault Refusal :=
  withCtx s fun c => c.either o (storeUses o ty one cnt.num) fun act => c.memory (c.spoil.store o ty one cnt.num sub.toNat false act)

/-- STNT. -/
def execStnt (o : Ops) (ty : Ty) (one : Bool) (cnt : Cnt) (sub : BitVec 2) (s : State) : Host.Outcome State Fault Refusal :=
  withCtx s fun c => c.either o (storeUses o ty one cnt.num) fun act => c.memory (c.spoil.store o ty one cnt.num sub.toNat true act)

/-- The byte mask of STM for a thread (R207). -/
def Ctx.stmMask (c : Ctx) (o : Ops) (quad : Bool) (t : Nat) : Nat :=
  match o.dst with
  | .p n =>
    if quad then (List.range 4).foldl (fun m i => m + ((c.w.p (n.toNat + i)).bits.getLsbD t).toNat * 2 ^ i) 0
    else if (c.w.p n.toNat).bits.getLsbD t then 15 else 0
  | x => c.w.value c.f.exec x .b32 0 t % 16

/-- The uses of STM's mask, all consumed. -/
def stmMaskUses (o : Ops) (quad : Bool) : List Use :=
  match o.dst with
  | .p n => (List.range (if quad then 4 else 1)).map fun i => { reg := .p (n + BitVec.ofNat 3 i), field := o.dst, consume := true }
  | x => usesOf x false o.feD true false true fun _ => none

/-- STM: bytes of a word under a mask, unaligned (R88). -/
def Ctx.storeMasked (c : Ctx) (o : Ops) (quad : Bool) (act : Mask) : State :=
  let masks := act.threads.filterMap fun t => let m := c.stmMask o quad t; if m = 0 then none else some (t, (List.range 4).filter fun i => bitOf m i)
  let accs := masks.map fun x => (x.1, c.globalAddr o o.a x.1, x.2)
  c.reachAll o true accs (fun _ => false) fun c1 ps =>
    let xs := ps.filterMap fun p => (masks.find? fun x => x.1 = p.1).map fun x =>
      let word := c.w.value c.f.exec o.b .b32 0 p.1
      (p.1, placeBytes (x.2.map fun i => (BitVec.ofNat 8 (word / 2 ^ (8 * i)), 0xFF)) p.2)
    c.next (c1.sendStores xs false)

/-- STM. -/
def execStm (o : Ops) (quad : Bool) (s : State) : Host.Outcome State Fault Refusal :=
  withCtx s fun c =>
    let us := baseUses o.a o.feA true ++ usesOf o.b false o.feB true false true (fun _ => none) ++ stmMaskUses o quad
    c.vector o.guard us fun act => c.memory (c.spoil.storeMasked o quad act)

/-! ### Atomics (R210 to R212) -/

/-- The uses of an atomic: base and operand consumed, the destination written, and for CAS read and consumed. -/
def atomUses (o : Ops) (ty : Ty) (base : List Use) (cas : Bool) : List Use :=
  base ++ usesOf o.b ty.is64 o.feB true false true (fun _ => ty.tags) ++
    usesOf o.dst ty.is64 (cas && o.feD) cas true cas (fun _ => ty.tags)

/-- Starts an atomic at the home slices: the destination becomes empty, the L1 copies of the lines are dropped (R77). -/
def Ctx.startAtom (c : Ctx) (o : Ops) (ty : Ty) (op : Option AOp) (fop : Option FAOp) (cas : Bool) (act : Mask) : State :=
  let n := regBytes ty false
  let accs := act.threads.map fun t => (t, c.globalAddr o o.a t, List.range n)
  c.reachAll o true accs (fun va => va.toNat % n != 0) fun c1 ps =>
    let w1 := (accessRegs o.dst ty 1).foldl (fun w r => w.markEmpty r ty.tag) c.w
    let places := ps.map fun p => (p.1, p.2.headD 0)
    let lap := overlaps (places.map fun p => [p.2])
    let order := threadOrder c1.s.freeCtr lap (places.map (·.1))
    let sorted := order.filterMap fun t => places.find? fun p => p.1 = t
    let data := fun (x : Opnd) (t : Nat) => BitVec.ofNat 64 (c.w.value c.f.exec x ty 0 t)
    let ops := sorted.map fun p =>
      c1.op (.atom o.dst p.1 p.2 ty op fop (if cas then some (data o.dst p.1) else none) (data o.b p.1) (c.flushes ty) c.f.pc c.w.word)
    let k := c1.s.core c.core
    let k1 := sorted.foldl (fun (k : Core) p => k.l1Drop (.phys (p.2 / 128))) k
    c.next (((c1.s.setCore c.core k1).setWave c.core c.slot w1).draw.addOps c.core ops)

/-- ATOM. -/
def execAtom (o : Ops) (ty : Ty) (op : AOp) (s : State) : Host.Outcome State Fault Refusal :=
  withCtx s fun c => c.either o (atomUses o ty (baseUses o.a o.feA true) false) fun act =>
    c.memory (c.spoil.startAtom o ty (some op) none false act)

/-- ATOMF. -/
def execAtomf (o : Ops) (ty : Ty) (op : FAOp) (s : State) : Host.Outcome State Fault Refusal :=
  withCtx s fun c => c.either o (atomUses o ty (baseUses o.a o.feA true) false) fun act =>
    c.memory (c.spoil.startAtom o ty none (some op) false act)

/-- CAS. -/
def execCas (o : Ops) (ty : Ty) (s : State) : Host.Outcome State Fault Refusal :=
  withCtx s fun c => c.either o (atomUses o ty (baseUses o.a o.feA true) true) fun act =>
    c.memory (c.spoil.startAtom o ty none none true act)

/-! ### SC (R213) -/

/-- Whether a thread's SC on a line holds a reservation: surely within 16 issues of the LR with nothing between, else a
free choice (R104); and the LR when its value, and so its line, is still to be bound. See assumption 121. -/
def Ctx.scHolds (c : Ctx) (thread line : Nat) : Bool × Option Nat :=
  match c.f.resv.find? fun r => r.thread = thread && (r.line == some line || r.line.isNone) with
  | none => (false, none)
  | some r => ((decide (r.issues ≤ 16) && r.plain) || Config.scLuck (c.s.freeCtr * 128 + thread), if r.line.isNone then some r.op else none)

/-- Starts an SC: the reservations of its threads are used up; the lowest thread of a line acts first. -/
def Ctx.startSc (c : Ctx) (o : Ops) (ty : Ty) (act : Mask) : State :=
  let n := regBytes ty false
  let accs := act.threads.map fun t => (t, c.globalAddr o o.a t, List.range n)
  c.reachAll o true accs (fun va => va.toNat % n != 0) fun c1 ps =>
    let w1 := (accessRegs o.dst .b32 1).foldl (fun w r => w.markEmpty r 2) c.w
    let w2 := w1.modCur fun f => { f with resv := (f.resv.filter fun r => !act.getLsbD r.thread).map fun r => { r with plain := false } }
    let ops := ps.map fun p =>
      let pa := p.2.headD 0
      let h := c.scHolds p.1 (pa / 128)
      c1.op (.sc o.dst p.1 pa ty (BitVec.ofNat 64 (c.w.value c.f.exec o.b ty 0 p.1)) h.1 h.2)
    let k := c1.s.core c.core
    let k1 := ps.foldl (fun (k : Core) p => k.l1Drop (.phys (p.2.headD 0 / 128))) k
    c.next (((c1.s.setCore c.core k1).setWave c.core c.slot w2).draw.addOps c.core ops)

/-- SC. -/
def execSc (o : Ops) (ty : Ty) (s : State) : Host.Outcome State Fault Refusal :=
  withCtx s fun c =>
    let us := baseUses o.a o.feA true ++ usesOf o.b ty.is64 o.feB true false true (fun _ => ty.tags) ++ scalarDst o
    c.vector o.guard us fun act => c.memory (c.startSc o ty act)

/-! ### Scratchpad access (R75, R83, R208) -/

/-- A scratchpad access of one thread: thread, target core, offset. -/
structure SpAcc where
  t      : Nat
  target : Nat
  off    : Nat
  deriving DecidableEq, Repr

/-- An earlier ATOMS of the thread that touches a range of a core's scratchpad: the thread's program order holds there, and no other
(R113); one of a uniform instruction is every thread's. A fragment stalls at its own stores. -/
def Ctx.spEarlier (c : Ctx) (threads : Bool) (a : SpAcc) (n : Nat) : Option Nat :=
  c.s.atomsOn c.core c.w.uid (fun t => t = a.t || !threads) a.target a.off n

/-- The checks of a scratchpad access of n bytes per thread: WINDOW before MISALIGN (R75), then the scoreboard (R83) and
earlier accesses of the wave. Threads of `skip` are not checked. -/
def Ctx.spCheck (c : Ctx) (o : Ops) (act skip : Mask) (n : Nat) (align out : Bool) (k : List SpAcc → State) : State :=
  let ts := (act &&& ~~~skip).threads
  let thread := fun (t : Nat) => if o.anyV then t else 0
  let trap := fun (cause t : Nat) =>
    c.trap { cause := cause, thread := thread t, oper := o.a.bits.toNat, addr := BitVec.ofNat 64 (c.spAddr o t) }
  match ts.find? fun t => (spTarget c.core (c.spAddr o t) n).isNone with
  | some t => trap 7 t
  | none =>
  match ts.find? fun t => align && c.spAddr o t % min n 16 != 0 with
  | some t => trap 6 t
  | none =>
    let accs := ts.filterMap fun t => (spTarget c.core (c.spAddr o t) n).map fun x => (⟨t, x.1, x.2⟩ : SpAcc)
    match accs.find? fun a => c.s.spBlocked a.target a.off (a.off + n) out with
    | some a => c.park (.scoreboard a.target a.off (a.off + n) out)
    | none =>
      match accs.findSome? fun a => c.spEarlier o.anyV a n with
      | some id => c.park (.op id)
      | none => k accs

/-- LDS: the value read, at once. -/
def Ctx.loadSp (c : Ctx) (o : Ops) (ty : Ty) (one : Bool) (cnt : Nat) (act : Mask) : State :=
  let n := regBytes ty one * cnt
  let bad := Mask.ofPred fun t => act.getLsbD t && c.w.poisonAt o.a false t
  c.spCheck o act bad n (needsAlign ty one) false fun accs =>
    let reads := accs.map fun a => (a.t, c.s.spRead a.target a.off n)
    let words := reads.map fun r => (r.1, loadAll ty one 0 cnt (r.2.map (·.1)))
    let rotten := Mask.ofPred fun t => reads.any fun r => r.1 = t && r.2.any (·.2)
    let org : Origin := if rotten = 0 then .fault else .data
    let word := fun (i t : Nat) => match words.find? fun x => x.1 = t with
      | some x => x.2.getD i 0
      | none => Config.poisonedBits (c.s.freeCtr * 128 + t)
    let regs := accessRegs o.dst ty cnt
    let w1 := regs.zipIdx.foldl (fun (w : Wave) r => match r.1 with
      | .v k => w.setV k.toNat ((w.v k.toNat).write act (word r.2) (bad ||| rotten) org (loadTag ty one))
      | .s k =>
        let x := if ty.is64 then BitVec.ofNat 64 ((word (2 * r.2) 0).toNat + 2 ^ 32 * (word (2 * r.2 + 1) 0).toNat)
          else c.s.scalarOf ty one (word r.2 0)
        w.setS k.toNat (SReg.write x ((bad ||| rotten).getLsbD 0) org)
      | _ => w) c.w
    c.next ((c.put w1).draw)

/-- LDS. -/
def execLds (o : Ops) (ty : Ty) (one : Bool) (cnt : Cnt) (s : State) : Host.Outcome State Fault Refusal :=
  withCtx s fun c =>
    let us := spUses o false ++ runUses o.dst (runLength o.dst ty cnt.num) false false true false fun _ => none
    c.either o us fun act => c.memory (c.spoil.loadSp o ty one cnt.num act)

/-- STS: local bytes are written at once, remote ones travel while the fragment stalls; the credit of each target core
follows its bytes. -/
def Ctx.storeSp (c : Ctx) (o : Ops) (ty : Ty) (one : Bool) (cnt : Nat) (credit : Bool) (act : Mask) : State :=
  let n := regBytes ty one * cnt
  let obj := (c.w.scalar o.dst).toNat
  if credit && (obj % 16 ≠ 0 || obj ≥ 0x50000) then c.trap { cause := 7, oper := o.dst.bits.toNat }
  else c.spCheck o act 0 n (needsAlign ty one) true fun accs =>
    let outs := accs.map fun a =>
      (a, storeAll ty one 0 (c.mode .fpmode) ((List.range cnt).map fun i => c.w.dataAt o.b ty i a.t))
    let evs := tally (outs.map fun x => x.2.exc)
    let s1 := outs.foldl (fun (st : State) x =>
      if x.1.target = c.core then
        let st1 := st.setCore c.core ((st.core c.core).spWrite x.1.off x.2.bytes false)
        if credit then st1.sendCredit c.core obj x.2.bytes.length none else st1
      else st) c.s
    let far := outs.filter fun x => x.1.target ≠ c.core
    let s2 := s1.countAll c.core c.slot c.w.uid evs c.f.pc c.w.word
    if far.isEmpty then c.next s2
    else
      let id := s2.uid
      let ops := far.map fun x =>
        ({ (c.op (.remote x.1.target x.1.off x.2.bytes false (if credit then some obj else none))) with id := id } : MemOp)
      let s3 := s2.addOps c.core ops
      (s3.modWave c.core c.slot fun w =>
        { w.modCur (fun f => { f.advance with park := some (.op id) }) with ended := true }).settle c.core c.slot

/-- STS. See assumption 76. -/
def execSts (o : Ops) (ty : Ty) (one : Bool) (cnt : Cnt) (credit : Bool) (s : State) : Host.Outcome State Fault Refusal :=
  withCtx s fun c =>
    let us := spUses o true ++ runUses o.b (runLength o.b ty cnt.num) o.feB true false true (fun _ => storeTags ty one) ++
      (if credit then usesOf o.dst false o.feD true false true fun _ => none else [])
    c.either o us fun act => c.memory (c.spoil.storeSp o ty one cnt.num credit act)

/-- ATOMS: performed at the target scratchpad; the destination is empty until then. -/
def Ctx.startAtoms (c : Ctx) (o : Ops) (ty : Ty) (op : AOp) (act : Mask) : State :=
  let n := regBytes ty false
  c.spCheck o act 0 n true true fun accs =>
    let w1 := (accessRegs o.dst ty 1).foldl (fun w r => w.markEmpty r ty.tag) c.w
    let lap := overlaps (accs.map fun a => [a.target * 2 ^ 20 + a.off])
    let order := threadOrder c.s.freeCtr lap (accs.map (·.t))
    let sorted := order.filterMap fun t => accs.find? fun a => a.t = t
    let ops := sorted.map fun a =>
      c.op (.atoms o.dst (if o.anyV then a.t else 128) a.target a.off ty op (BitVec.ofNat 64 (c.w.value c.f.exec o.b ty 0 a.t)))
    c.next ((c.put w1).draw.addOps c.core ops)

/-- ATOMS. -/
def execAtoms (o : Ops) (ty : Ty) (op : AOp) (s : State) : Host.Outcome State Fault Refusal :=
  withCtx s fun c => c.either o (atomUses o ty (spUses o true) false) fun act => c.memory (c.spoil.startAtoms o ty op act)

/-! ### LDMC (R209) -/

/-- The core that bit i of an LDMC mask names (R84). -/
def quadCore (core i : Nat) : Nat := 16 * (core / 16) + i

/-- The cores of an LDMC mask. -/
def maskCores (core : Nat) (mask : BitVec 16) : List Nat := ((List.range 16).filter fun i => mask.getLsbD i).map (quadCore core)

/-- Starts an LDMC: the checks of its values, the scoreboard entry on its own core, and the request. -/
def Ctx.startLdmc (c : Ctx) (o : Ops) (bar : Nat) : State :=
  let src := c.w.scalar o.a
  let x := (c.w.scalar o.b).toNat
  let mask := BitVec.ofNat 16 x
  let len := 16 * (bitsOf x 27 16 + 1)
  let off := bitsOf x 50 32
  let cores := maskCores c.core mask
  let fail := fun (f : Opnd) => c.trap { cause := 7, oper := f.bits.toNat, addr := src }
  let own := cores.contains c.core
  let k := c.s.core c.core
  if src.toNat % 16 ≠ 0 then fail o.a
  else if off % 16 ≠ 0 || off + len > 0x50000 || bitsOf x 31 28 ≠ 0 || bitsOf x 63 51 ≠ 0 then fail o.b
  else if bar % 16 ≠ 0 || bar + 16 > 0x50000 then fail o.b
  else if cores.any fun d => !c.part.hasCore d then fail o.b
  else if own && k.sboard.length ≥ 64 then c.park .sbEntry
  else
    let id := c.s.uid
    let k1 := if own then { k with sboard := k.sboard ++ [⟨id, c.w.uid, off, off + len, true, false⟩] } else k
    let s1 := c.s.setCore c.core k1
    if cores.isEmpty then c.next (s1.setWave c.core c.slot (c.w.putDst o.dst 0))
    else
      let s2 := (s1.setWave c.core c.slot (c.w.markEmpty o.dst 0)).addOps c.core [c.op (.ldmc o.dst src len off bar mask false none)]
      let lines := linesOf src len
      c.next (s2.touchAccs c.core c.w.part c.w.uid c.w.depth (fun _ => false) (lines.map fun l => (BitVec.ofNat 64 (l * 128), 1)))

/-- LDMC: issued as a vector instruction (R184). -/
def execLdmc (o : Ops) (bar : BitVec 19) (s : State) : Host.Outcome State Fault Refusal :=
  withCtx s fun c =>
    let us := usesOf o.a true o.feA true false true (fun _ => none) ++ usesOf o.b true o.feB true false true (fun _ => none) ++ scalarDst o
    c.vector o.guard us fun _ => c.memory (c.spoil.startLdmc o bar.toNat)

/-! ### Hints (R214) -/

/-- PREF: a load that writes no register; a thread whose address faults is dropped. -/
def Ctx.prefetch (c : Ctx) (o : Ops) (llc : Bool) (act : Mask) : State :=
  let k : AccessKind := ⟨false, false, c.user⟩
  let accs := act.threads.filterMap fun t =>
    let va := c.globalAddr o o.a t
    if c.w.poisonAt o.a true t then none
    else match c.s.lookNow c.core c.w.part k va with
      | .ok _ _ | .gen _ => some (t, some (BitVec.ofNat 64 (va.toNat / 128 * 128)))
      | _ => none
  if accs.isEmpty then c.next c.s
  else
    let s1 := c.s.addOps c.core [c.op (.load (if llc then .unused else .zero) .b32 false .x1 0 false false accs)]
    c.next (s1.touchAccs c.core c.w.part c.w.uid c.w.depth (fun k => !llc && ((c.s.core c.core).l1Hit false 0 k).isSome)
      (accs.filterMap fun a => a.2.map fun va => (va, 4)))

/-- PREF. -/
def execPref (o : Ops) (llc : Bool) (s : State) : Host.Outcome State Fault Refusal :=
  withCtx s fun c => c.either o (baseUses o.a o.feA false) fun act => c.memory (c.prefetch o llc act)

/-- THINT: a tier hint for queue 2; one with a bad length, or of length 0, enqueues nothing. See assumption 76. -/
def execThint (o : Ops) (hint : Hint) (s : State) : Host.Outcome State Fault Refusal :=
  withCtx s fun c =>
    let us := usesOf o.a true o.feA true false false (fun _ => none) ++ usesOf o.b true o.feB true false false fun _ => none
    c.uniform o.guard us (
      let len := (c.w.scalar o.b).toNat
      if len = 0 || len ≥ 2 ^ 40 then c.next c.s
      else c.enqueue .q2 (fun k => { k with q2 := k.q2 ++ [c.entry 2 false ⟨hint, c.w.scalar o.a, len, 0, false⟩] }) id)

/-! ### Ordering (R215 to R217) -/

/-- Whether a wave's team is paired. -/
def Ctx.paired (c : Ctx) : Bool := match c.s.teamOf c.w with | some t => t.paired | none => false

/-- Whether a fence of a scope invalidates the whole L1 (R77, R100). -/
def Ctx.fenceClears (c : Ctx) (scope : Scope) : Bool :=
  match scope with
  | .wave => false
  | .team => c.paired
  | _ => true

/-- Waits until the earlier accesses of the wave are performed (R96, R100). See assumptions 113, 126. -/
def Ctx.drained (c : Ctx) (k : State) : State := if c.s.wavePending c.core c.w.uid true then c.park (.drain true) else k

/-- FENCE, with or without .sc: the steps of the machine are one total order, which serves as that of R101. -/
def execFence (o : Ops) (scope : Scope) (seq : Bool) (s : State) : Host.Outcome State Fault Refusal :=
  withCtx s fun c => c.uniform o.guard [] (
    let _ := seq
    let c1 := c.spoil
    c1.drained (
      let k := c1.s.core c1.core
      let s1 := if c1.fenceClears scope then c1.s.setCore c1.core k.l1Clear else c1.s
      c1.next (if scope.wide then s1.fenceWave c1.core c1.slot else s1)))

/-- Translates the 8 bytes of a lock word (R216): MISALIGN, then as a store does. -/
def Ctx.lockWord (c : Ctx) (o : Ops) (write : Bool) (gen : State) (k : Ctx → List Nat → State) : State :=
  let va := c.globalAddr o o.a 0
  if va.toNat % 8 ≠ 0 then c.trap { cause := 6, oper := o.a.bits.toNat, addr := va }
  else if !write && (c.s.genAt c.w.part va.toNat).isSome then gen
  else c.reachAll o write [(0, va, List.range 8)] (fun _ => false) fun c1 ps => k c1 ((ps.headD (0, [])).2)

/-- ACQ: reads a lock word; later memory accesses of the wave wait for its value. See assumption 126. -/
def execAcq (o : Ops) (scope : Scope) (s : State) : Host.Outcome State Fault Refusal :=
  withCtx s fun c => c.uniform o.guard (usesOf o.a true o.feA true false true (fun _ => none) ++ scalarDst o) (
    let va := c.globalAddr o o.a 0
    let go := fun (c1 : Ctx) =>
      let s1 := (c1.s.setWave c.core c.slot (c.w.markEmpty o.dst 0)).addOps c.core [c1.op (.acq o.dst va scope)]
      c.next (s1.touchAccs c.core c.w.part c.w.uid c.w.depth (fun _ => false) [(va, 8)])
    c.memory (c.lockWord o false (go c) fun c1 _ => go c1))

/-- Whether a release at a scope acts on one core alone: team scope in a team that is not paired (R337). -/
def Ctx.localRelease (c : Ctx) (scope : Scope) : Bool := scope == .team && !c.paired

/-- A release waits for the earlier accesses of the wave (R96). One whose scope is a team on one core orders nothing for observers beyond that
core (R114): it waits for scratchpad operations only, and an acquire on the core waits for the stores that it has passed. See assumption 126. -/
def Ctx.releases (c : Ctx) (scope : Scope) (k : Ctx → State) : State :=
  if !c.localRelease scope then c.drained (k c)
  else if c.s.spPending c.core c.w.uid then c.park .drainSp
  else
    let core := c.s.core c.core
    k { c with s := c.s.setCore c.core { core with memq := core.memq.map fun m => if m.wave = c.w.uid then { m with released := true } else m } }

/-- REL: writes a lock word once every earlier access of the wave is performed (R96). See assumption 126. -/
def execRel (o : Ops) (scope : Scope) (s : State) : Host.Outcome State Fault Refusal :=
  withCtx s fun c =>
    let us := usesOf o.a true o.feA true false true (fun _ => none) ++ usesOf o.b true o.feB true false true fun _ => none
    c.uniform o.guard us (
      c.memory (c.lockWord o true c.s fun c1 ps => c1.releases scope fun c2 =>
        c.next (c2.sendStores [(0, placeBytes (wholeBytes 8 (c.w.scalar o.b).toNat) ps)] false)))

/-- Writes or clears a bind slot of the wave's team. -/
def Ctx.putBind (c : Ctx) (slot : Nat) (b : Option BindSlot) : State :=
  c.next { c.s with teams := c.s.teams.map fun t =>
    if t.id = c.w.team then { t with binds := match b with | some x => t.binds.put slot x | none => t.binds.erase slot } else t }

/-- BIND. Length 0 clears the slot before the object is looked at, and no operand's poison is consumed: its bits stand. See assumptions 137, 138. See assumption 76. -/
def execBind (o : Ops) (bar : Bool) (slot : BitVec 4) (s : State) : Host.Outcome State Fault Refusal :=
  withCtx s fun c =>
    let us := usesOf o.a true o.feA true false false (fun _ => none) ++ usesOf o.b true o.feB true false false (fun _ => none) ++
      usesOf o.dst true o.feD true false false fun _ => none
    c.uniform o.guard us (
      let len := (c.w.scalar o.a).toNat
      let obj := c.w.scalar o.b
      let spot := obj.toNat % 2 ^ 19
      if len > 2 ^ 32 then c.trap { cause := 7, oper := o.a.bits.toNat }
      else if len = 0 then c.putBind slot.toNat none
      else if bar && (spot % 16 ≠ 0 || spot ≥ 0x50000) then c.trap { cause := 7, oper := o.b.bits.toNat }
      else if !bar && obj.toNat % 8 ≠ 0 then c.trap { cause := 6, oper := o.b.bits.toNat, addr := obj }
      else c.putBind slot.toNat (some ⟨c.w.scalar o.dst, len, bar, if bar then BitVec.ofNat 64 spot else obj⟩))

end Sys2Proof.Machine
end

