-- ==== Sys2Proof/Machine/Barrier.lean ====
section
/-!
DEFINITION. Barrier instructions: BARINIT, BARARR, BARWAIT, BARSYNC, BAREXP and BARQ (R218 to R228).
-/
namespace Sys2Proof.Machine

/-- The core whose scratchpad holds a wave's barrier objects: the leader of a paired team (R11, R220). -/
def Ctx.barCore (c : Ctx) : Nat :=
  match c.s.teamOf c.w with
  | some t => t.core.getD c.core
  | none => c.core

/-- The object that a barrier instruction names (R220): WINDOW for a remote address or one outside the scratchpad, then
MISALIGN. -/
def Ctx.barObj (c : Ctx) (o : Ops) (k : Nat → State) : State :=
  let a := c.spAddr o 0
  let trap := fun (cause : Nat) => c.trap { cause := cause, oper := o.a.bits.toNat, addr := BitVec.ofNat 64 a }
  if bitOf a 31 || (spTarget c.core a 16).isNone then trap 7
  else if a % 16 ≠ 0 then trap 6
  else k (a % 2 ^ 19)

/-- Adds to the inbound bytes expected (R226). -/
def Bar.expect (b : Bar) (n : Nat) : Bar :=
  let (b1, x) := b.saturate (b.inexp + n)
  if x = b.inexp then { b1 with inexp := x } else ({ b1 with inexp := x } : Bar).evaluate

/-- Adds to the inbound bytes expected and arrives (R226). -/
def Bar.arrive (b : Bar) (n : Nat) : Bar :=
  let (b1, x) := b.saturate (b.inexp + n)
  ({ b1 with inexp := x, arrived := b.arrived + 1 } : Bar).evaluate

/-- The status of a phase (R224): 0 DONE, 1 PENDING, 2 FAULTED, 3 ABANDONED. -/
def State.barStatus (s : State) (w : Wave) (core off token : Nat) : Nat :=
  let b := s.bar core off
  if s.abandoned w then 3 else if b.phase = token then 1 else if b.fault then 2 else 0

/-- Writes a status; any but PENDING is an acquire on the object at cluster scope (R97, R224), which LDNC also keeps to (R81). -/
def Ctx.report (c : Ctx) (o : Ops) (off x : Nat) : State :=
  let s1 := if x = 1 then c.s else (c.s.acquire c.core c.w true (BitVec.ofNat 64 off)).fenceWave c.core c.slot
  c.next (s1.modWave c.core c.slot fun w => (w.putDst o.dst (BitVec.ofNat 64 x)).modCur fun f =>
    { f with synced := f.synced.filter fun y => y.pc ≠ f.pc })

/-- The wait that the fragment is in at this instruction. -/
def Ctx.wait? (c : Ctx) : Option Sync := c.f.synced.find? fun x => x.pc == c.f.pc

/-- Reports a phase that has passed, or parks until it does: a phase that completed during the wait ends it. See assumption 64. -/
def Ctx.reportOrPark (c : Ctx) (o : Ops) (off token : Nat) : State :=
  match c.wait?.bind (·.done) with
  | some fault => c.report o off (if c.s.abandoned c.w then 3 else if fault then 2 else 0)
  | none =>
    let x := c.s.barStatus c.w c.barCore off token
    if x ≠ 1 then c.report o off x
    else
      let k : BitVec 16 := BitVec.ofNat 16 token
      c.put { c.w.modCur (fun f => { f.addSync ⟨f.pc, k, none⟩ with park := some (.barrier c.barCore off k) }) with ended := true }

/-- The uses of a source whose poison is not consumed (R218). -/
def tokenUse (x : Opnd) (fe : Bool) : List Use := usesOf x true fe true false false fun _ => none

/-- Whether a fragment of some wave is parked on an object (R225). -/
def State.parkedOn (s : State) (core off : Nat) : Bool :=
  s.cores.any fun e => e.2.waves.any fun x => x.2.frags.any fun f => match f.park with
    | some (.barrier c o _) => c = core && o = off && !s.abandoned x.2
    | _ => false

/-- BARINIT. -/
def execBarinit (o : Ops) (arr : BitVec 6) (s : State) : Host.Outcome State Fault Refusal :=
  withCtx s fun c => c.uniform o.guard (scalarUse o.a o.feA) (c.barObj o fun off =>
    if c.s.parkedOn c.barCore off then c.trap { cause := 16, oper := o.a.bits.toNat }
    else c.next (c.s.spPut c.barCore off (⟨arr.toNat, 0, 0, 0, 0, false, 0⟩ : Bar).bytes))

/-- BARARR: the arrival waits for the wave's earlier accesses (R96). -/
def execBararr (o : Ops) (s : State) : Host.Outcome State Fault Refusal :=
  withCtx s fun c => c.uniform o.guard (scalarUse o.a o.feA ++ scalarUse o.b o.feB ++ scalarDst o) (c.barObj o fun off => c.drained (
    let b := c.s.bar c.barCore off
    if b.arrived = b.arrexp then c.trap { cause := 17, oper := o.a.bits.toNat }
    else
      let s1 := c.s.setBar c.barCore off (b.arrive ((c.w.scalar o.b).toNat % 2 ^ 32))
      c.next (s1.modWave c.core c.slot fun w => w.putDst o.dst (BitVec.ofNat 64 b.phase))))

/-- BAREXP. -/
def execBarexp (o : Ops) (s : State) : Host.Outcome State Fault Refusal :=
  withCtx s fun c => c.uniform o.guard (scalarUse o.a o.feA ++ scalarUse o.b o.feB) (c.barObj o fun off =>
    c.next (c.s.setBar c.barCore off ((c.s.bar c.barCore off).expect ((c.w.scalar o.b).toNat % 2 ^ 32))))

/-- BARWAIT: parks until the phase of its token has passed. -/
def execBarwait (o : Ops) (s : State) : Host.Outcome State Fault Refusal :=
  withCtx s fun c => c.uniform o.guard (scalarUse o.a o.feA ++ tokenUse o.b o.feB ++ scalarDst o) (c.barObj o fun off =>
    c.reportOrPark o off ((c.w.scalar o.b).toNat % 2 ^ 16))

/-- BARQ: the status now. -/
def execBarq (o : Ops) (s : State) : Host.Outcome State Fault Refusal :=
  withCtx s fun c => c.uniform o.guard (scalarUse o.a o.feA ++ tokenUse o.b o.feB ++ scalarDst o) (c.barObj o fun off =>
    c.report o off (c.s.barStatus c.w c.barCore off ((c.w.scalar o.b).toNat % 2 ^ 16)))

/-- BARSYNC: arrives once, then waits on its own token. -/
def execBarsync (o : Ops) (s : State) : Host.Outcome State Fault Refusal :=
  withCtx s fun c => c.uniform o.guard (scalarUse o.a o.feA ++ scalarUse o.b o.feB ++ scalarDst o) (c.barObj o fun off =>
    match c.wait? with
    | some x => c.reportOrPark o off x.token.toNat
    | none =>
      if c.s.abandoned c.w then c.report o off 3
      else c.drained (
        let b := c.s.bar c.barCore off
        if b.arrived = b.arrexp then c.trap { cause := 17, oper := o.a.bits.toNat }
        else
          let s1 := c.s.setBar c.barCore off (b.arrive ((c.w.scalar o.b).toNat % 2 ^ 32))
          let c1 : Ctx := { c with s := s1, w := (s1.wave? c.core c.slot).getD c.w }
          c1.reportOrPark o off b.phase))

end Sys2Proof.Machine
end

