-- ==== Sys2Proof/Machine/Engines.lean ====
section
/-!
DEFINITION. The engine window, copies, tile registers and VXM as they issue (R229 to R246): what each operation is when it
enters its queue. The events that complete them are in Copies.lean and Matrix.lean.
-/
namespace Sys2Proof.Machine

/-! ### Scratchpad ranges of an operation (R82, R235) -/

/-- A scratchpad side of an operation: its core, bounding range and direction. -/
structure Side where
  core    : Nat
  lo      : Nat
  hi      : Nat
  inbound : Bool
  deriving DecidableEq, Repr

/-- The target core and offset of a scratchpad address; none when a bit that must be 0 is set or the core lies outside the
cluster (R75). -/
def spAt (core addr : Nat) : Option (Nat × Nat) :=
  let remote := bitOf addr 31
  let k := bitsOf addr 27 20
  if bitOf addr 19 || bitsOf addr 30 28 ≠ 0 || (remote && (k ≥ Config.allCores || Config.clusterOf k ≠ Config.clusterOf core)) then none
  else some (if remote then k else core, addr % 2 ^ 19)

/-- The bytes from the first of some rows to the last row's end. -/
def rowsSpan (rowBytes rows pitch : Nat) : Nat := (rows - 1) * pitch + rowBytes

/-- The side of a scratchpad address whose rows take `span` bytes. -/
def sideAt (core addr span : Nat) (inbound : Bool) : Option Side :=
  (spAt core addr).map fun x => ⟨x.1, x.2, x.2 + span, inbound⟩

/-- The scoreboard entry of an operation's side, widened to 16-byte units (R82). -/
def Side.entry (x : Side) (id wave : Nat) : SbEntry := ⟨id, wave, x.lo / 16 * 16, roundUp x.hi 16, x.inbound, false⟩

/-- Adds scoreboard entries of the sides on a core (R82). -/
def Core.addSides (c : Core) (core id wave : Nat) (sides : List Side) : Core :=
  { c with sboard := c.sboard ++ (sides.filter fun x => x.core = core).map fun x => x.entry id wave }

/-- Whether a core's scoreboard has room for the sides on it. -/
def Core.hasRoom (c : Core) (core : Nat) (sides : List Side) : Bool :=
  decide (c.sboard.length + (sides.filter fun x => x.core = core).length ≤ 64)

/-- Enqueues a queue-1 operation with its scoreboard entries; parks while the queue or the scoreboard is full. -/
def Ctx.enqueue1 (c : Ctx) (kind : Q1Kind) (sides : List Side) (after : State → State) : State :=
  if c.s.queueLen c.core .q1 < queueDepth .q1 && !(c.s.core c.core).hasRoom c.core sides then c.park .sbEntry
  else
    let e := c.entry 1 true kind
    c.enqueue .q1 (fun k => { k.addSides c.core e.id e.wave sides with q1 := k.q1 ++ [e] }) after

/-! ### Copies (R234, R235) -/

/-- The fields of a copy descriptor's four words. -/
def copyDesc (w0 w1 w2 w3 : DWord) : CopyDesc :=
  { src := w0, dst := w1, rowBytes := bitsOf w2.toNat 19 0 + 1, rows := bitsOf w2.toNat 31 20 + 1, spitch := bitsOf w2.toNat 63 32
    dpitch := bitsOf w3.toNat 31 0, bar := bitsOf w3.toNat 50 32, credit := bitOf w3.toNat 51, srcSp := bitOf w3.toNat 52
    dstSp := bitOf w3.toNat 53, zfill := bitOf w3.toNat 54 }

/-- The source side of a copy, if it reads a scratchpad. -/
def CopyDesc.srcAddr (d : CopyDesc) : Option Nat := if d.srcSp && !d.zfill then some (d.src.toNat % 2 ^ 32) else none

/-- The destination side of a copy, if it writes a scratchpad. -/
def CopyDesc.dstAddr (d : CopyDesc) : Option Nat := if d.dstSp then some (d.dst.toNat % 2 ^ 32) else none

/-- The scratchpad sides of a copy. -/
def CopyDesc.sides (d : CopyDesc) (core : Nat) : List Side :=
  (d.srcAddr.bind fun a => sideAt core a (rowsSpan d.rowBytes d.rows d.spitch) false).toList ++
    (d.dstAddr.bind fun a => sideAt core a (rowsSpan d.rowBytes d.rows d.dpitch) true).toList

/-- The core whose barrier object a copy credits. -/
def CopyDesc.barCore (d : CopyDesc) (core : Nat) : Nat :=
  match d.dstAddr.bind fun a => spAt core a with
  | some x => x.1
  | none => core

/-- Whether a range of a scratchpad address passes the end of its scratchpad. -/
def pastEnd (core addr span : Nat) : Bool :=
  let target := match spAt core addr with | some x => x.1 | none => core
  decide (addr % 2 ^ 19 + span > Config.scratchEnd target)

/-- The trap that a copy descriptor raises at issue, if any (R235): DESC, then WINDOW. ZFILL ignores the source. -/
def CopyDesc.bad (d : CopyDesc) (core : Nat) (reserved : Nat) : Option Nat :=
  let odd := fun (x : Nat) => x % 16 != 0
  if reserved ≠ 0 then some 15
  else if odd d.rowBytes || odd d.spitch || odd d.dpitch || odd d.dst.toNat || (!d.zfill && odd d.src.toNat) || (d.credit && odd d.bar) then some 15
  else if (match d.srcAddr with | some a => pastEnd core a (rowsSpan d.rowBytes d.rows d.spitch) | none => false) ||
      (match d.dstAddr with | some a => pastEnd core a (rowsSpan d.rowBytes d.rows d.dpitch) | none => false) ||
      (d.credit && decide (d.bar + 16 > Config.scratchEnd (d.barCore core))) then some 15
  else if (match d.srcAddr with | some a => (spAt core a).isNone | none => false) ||
      (match d.dstAddr with | some a => (spAt core a).isNone | none => false) then some 7
  else none

/-- Enqueues a copy described by four words; `field` is the operand that gave them. See assumption 61. -/
def Ctx.startCopy (c : Ctx) (field : Opnd) (w0 w1 w2 w3 : DWord) : State :=
  let d := copyDesc w0 w1 w2 w3
  match d.bad c.core (w3.toNat / 2 ^ 55) with
  | some cause => c.trap { cause := cause, oper := field.bits.toNat }
  | none => c.enqueue1 (.copy d) (d.sides c.core) id

/-- KICK: a copy whose descriptor lies in the issuing core's scratchpad. See assumption 62. -/
def execKick (o : Ops) (s : State) : Host.Outcome State Fault Refusal :=
  withCtx s fun c => c.uniform o.guard (scalarUse o.a o.feA) (
    let a := c.spAddr o 0
    let trap := fun (cause : Nat) => c.trap { cause := cause, oper := o.a.bits.toNat, addr := BitVec.ofNat 64 a }
    match spTarget c.core a 32 with
    | none => trap 7
    | some (target, off) =>
      if target ≠ c.core then trap 7
      else if off % 16 ≠ 0 then trap 6
      else c.memory (
        let w := fun (i : Nat) => BitVec.ofNat 64 (c.s.spNat c.core (off + 8 * i) 8)
        c.spoil.startCopy o.a (w 0) (w 1) (w 2) (w 3)))

/-! ### The engine window (R229, R230) -/

/-- A latch of a queue. -/
def Wave.latch (w : Wave) (q reg : Nat) : DWord := w.latches.get 0 (4 * q + reg)

/-- EQST: under a REP, repeat i writes latch REG + i. -/
def execEqst (o : Ops) (q : Queue) (reg : BitVec 2) (s : State) : Host.Outcome State Fault Refusal :=
  withCtx s fun c => c.uniform o.guard (scalarUse o.a o.feA) (
    let r := reg.toNat + (match c.f.rep with | some x => x.idx | none => 0)
    if r > 3 then c.trap Trap.illegal
    else
      let x := BitVec.ofNat 64 (c.w.value c.f.exec o.a .n64 o.imm 0)
      c.done { c.w with latches := c.w.latches.put (4 * q.num + r) x })

/-- Elements of K in a chunk of a format (R238). -/
def chunkOf (fmt : Nat) : Nat := if fmt ≤ 1 then 32 else if fmt ≤ 5 then 64 else 128

/-- The 64 bytes of an epilogue descriptor, as one number. -/
def State.epiDesc (s : State) (core off : Nat) : Nat := s.spNat core off 64

/-- The types that an epilogue may store (R241). -/
def epiType (code : Nat) : Option Ty :=
  (Ty.ofCode (BitVec.ofNat 5 code)).filter fun ty => !(ty == .b32 || ty == .s64 || ty == .n64 || ty == .cb4)

/-- Bytes of an element of an epilogue's type, one for types below a byte. -/
def epiAlign : Ty → Nat
  | .s32 | .n32 | .f32 => 4
  | .s16 | .n16 | .f16 | .bf16 => 2
  | _ => 1

/-- Whether an epilogue descriptor keeps the rules of R241: known types, rounding and activation, no reserved bit, pointers
aligned to their elements. -/
def epiOk (x : Nat) : Bool :=
  match epiType (bitsOf x 100 96) with
  | none => false
  | some ty =>
    let scale := if bitOf x 110 then 2 else 1
    (Rnd.ofCode (BitVec.ofNat 3 (bitsOf x 104 102))).isSome && bitsOf x 106 105 != 3 && bitsOf x 127 115 == 0 && bitsOf x 447 416 == 0 &&
      !(bitOf x 111 && (ty == .e3m2 || ty == .e2m3)) && bitsOf x 63 0 % epiAlign ty == 0 &&
      bitsOf x 191 128 % scale == 0 && bitsOf x 255 192 % scale == 0 && bitsOf x 319 256 % 4 == 0

/-- Whether the latches of queue 0 keep the rules of R238, R241 and, on a scan core, R434. -/
def Ctx.matrixOk (c : Ctx) (qa qb qc qd : DWord) : Bool :=
  let d := qd.toNat
  let (af, bf) := (bitsOf d 10 8, bitsOf d 13 11)
  let epi := bitsOf d 50 32
  qa.toNat % 16 == 0 && qb.toNat % 16 == 0 && qc.toNat % 2 ^ 32 % 16 == 0 && qc.toNat / 2 ^ 32 % 16 == 0 &&
    chunkOf af == chunkOf bf && decide ((bitsOf d 6 0 + 1) * chunkOf af ≤ 4096) &&
    (af == 7 || bitsOf d 19 17 == 0) && (bf == 7 || bitsOf d 22 20 == 0) && bitsOf d 31 23 == 0 && bitsOf d 63 51 == 0 &&
    (decide (c.core < Config.mainCores) || ((af == 2 || af == 3) && (bf == 2 || bf == 3))) &&
    (!bitOf d 16 || (epi % 64 == 0 && decide (epi + 64 ≤ Config.scratchEnd c.core) && epiOk (c.s.epiDesc c.core epi)))

/-- Enqueues a matrix operation; a wave on a follower core waits until the queue of the pair is empty (R237). See assumption 61. -/
def Ctx.startMatrix (c : Ctx) (qa qb qc qd : DWord) : State :=
  let k := Config.pairOf c.core
  let q := (c.s.pairs.get ⟨[]⟩ k).q0
  let trap := c.trap { cause := 15 }
  if !c.matrixOk qa qb qc qd then trap
  else if c.core < Config.mainCores && c.core % 2 = 1 && !q.isEmpty then c.park (.pairEmpty k)
  else
    let e := c.entry 0 true (MxOp.start c.core qa qb qc qd)
    c.enqueue .q0 id fun s => { s with pairs := s.pairs.put k ⟨q ++ [e]⟩ }

/-- The hint of a code (R214). -/
def hintOf (x : Nat) : Option Hint :=
  match x with
  | 0 => some .promoteLlc
  | 1 => some .promoteGddr
  | 2 => some .demote
  | 3 => some .pin
  | 4 => some .dontneed
  | _ => none

/-- Enqueues a tier hint given by the latches of queue 2 (R230). See assumption 61. -/
def Ctx.startHint (c : Ctx) (qa qb qc qd : DWord) : State :=
  match hintOf qc.toNat with
  | some h =>
    if qb.toNat ≥ 2 ^ 40 || qd ≠ 0 then c.trap { cause := 15 }
    else c.enqueue .q2 (fun k => { k with q2 := k.q2 ++ [c.entry 2 false ⟨h, qa, qb.toNat, 0, false⟩] }) id
  | none => c.trap { cause := 15 }

/-- EQGO: the operation that the latches of a queue describe. See assumption 61. -/
def execEqgo (o : Ops) (q : Queue) (s : State) : Host.Outcome State Fault Refusal :=
  withCtx s fun c0 => c0.uniform o.guard [] (c0.memory (
    let c := c0.spoil
    let x := fun (r : Nat) => c.w.latch q.num r
    match q with
    | .q0 => c.startMatrix (x 0) (x 1) (x 2) (x 3)
    | .q1 => c.startCopy .unused (x 0) (x 1) (x 2) (x 3)
    | .q2 => c.startHint (x 0) (x 1) (x 2) (x 3)
    | .q3 => c.enqueue .q3 (fun k => { k with q3 := k.q3 ++ [c.entry 3 false .marker] }) id
    | .q4 => c.enqueue .q4 (fun k => { k with q4 := k.q4 ++ [c.entry 4 false .marker] }) id))

/-! ### EQFENCE and EQWAIT (R232, R233) -/

/-- The operations under way in a queue of a core. -/
def State.queueIds (s : State) (core q : Nat) : List Nat :=
  let k := s.core core
  match q with
  | 0 => (s.pairs.get ⟨[]⟩ (Config.pairOf core)).q0.map (·.id)
  | 1 => k.q1.map (·.id)
  | 2 => k.q2.map (·.id)
  | 3 => k.q3.map (·.id)
  | _ => k.q4.map (·.id)

/-- EQFENCE: later operations of the named queues start after every operation that is now in one of them. -/
def execEqfence (o : Ops) (mask : BitVec 5) (s : State) : Host.Outcome State Fault Refusal :=
  withCtx s fun c => c.uniform o.guard [] (
    let qs := (List.range 5).filter fun q => mask.getLsbD q
    let ids := qs.flatMap fun q => c.s.queueIds c.core q
    c.next (qs.foldl (fun st q =>
      let at_ := joinCore c.core q
      let k := st.core at_
      let old := (k.joins.get [] q).filter fun i => st.opPending c.core i
      st.setCore at_ { k with joins := k.joins.put q (old ++ ids).eraseDups }) c.s))

/-- EQWAIT: parks, then reads and clears the status record and invalidates the L1. -/
def execEqwait (o : Ops) (q : Queue) (n : BitVec 6) (s : State) : Host.Outcome State Fault Refusal :=
  withCtx s fun c => c.uniform o.guard (scalarDst o) (
    if c.w.qout.get 0 q.num > n.toNat then c.park (.queue q n.toNat)
    else
      let r := (c.w.qstat.get QStat.clear q.num).bits
      let w1 := { c.w with qstat := c.w.qstat.put q.num QStat.clear }.putDst o.dst r
      c.next (((c.put w1).setCore c.core (((c.put w1).core c.core).l1Clear)).fenceWave c.core c.slot))

/-! ### Tile registers (R244, R245) -/

/-- A tile register number. -/
def tileNum (x : Opnd) : Nat := match x with | .t n => n.toNat | _ => 0

/-- Bytes per row, rows, tile offset and pitch of a shape (R244). -/
def tileShape (x : DWord) : Nat × Nat × Nat × Nat :=
  (16 * (bitsOf x.toNat 8 0 + 1), bitsOf x.toNat 21 9 + 1, 16 * bitsOf x.toNat 30 22, bitsOf x.toNat 63 32)

/-- Whether a shape keeps the rules of R244. -/
def shapeOk (x : DWord) : Bool :=
  let (rb, rows, toff, pitch) := tileShape x
  decide (toff + rb * rows ≤ 8192) && !bitOf x.toNat 31 && pitch % 16 == 0

/-- The types that TLD takes (R244). -/
def tileType (ty : Ty) : Bool := !(ty == .s64 || ty == .n64 || ty == .e3m2 || ty == .e2m3)

/-- The base address of a tile operation: a global address, or a scratchpad address with its checks over `span` bytes
(R75, R244). -/
def Ctx.tileBase (c : Ctx) (o : Ops) (sp inbound : Bool) (span : Nat) (k : DWord → List Side → State) : State :=
  let a := c.spAddr o 0
  let va := c.globalAddr o o.a 0
  let trap := fun (cause : Nat) (x : DWord) => c.trap { cause := cause, oper := o.a.bits.toNat, addr := x }
  if sp then
    if (spTarget c.core a span).isNone then trap 7 (BitVec.ofNat 64 a)
    else if a % 16 ≠ 0 then trap 6 (BitVec.ofNat 64 a)
    else k (BitVec.ofNat 64 a) (sideAt c.core a span inbound).toList
  else if va.toNat % 16 ≠ 0 then trap 6 va
  else k va []

/-- Sets the tag of a tile register of the issuing core (R46). -/
def State.tagTile (s : State) (core n : Nat) (tag : BitVec 5) : State :=
  let k := s.core core
  s.setCore core { k with tiles := k.tiles.put n { k.tiles.get Tile.fresh n with tag := tag } }

/-- The span in memory of a shape's rows. -/
def shapeSpan (x : DWord) : Nat := let (rb, rows, _, pitch) := tileShape x; rowsSpan rb rows pitch

/-- TLD. -/
def execTld (o : Ops) (ty : Ty) (sp : Bool) (s : State) : Host.Outcome State Fault Refusal :=
  withCtx s fun c => c.uniform o.guard (scalarUse o.a o.feA ++ scalarUse o.b o.feB) (c.memory (
    let x := c.w.scalar o.b
    if !shapeOk x || !tileType ty then c.trap { cause := 15, oper := o.b.bits.toNat }
    else c.tileBase o sp false (shapeSpan x) fun base sides =>
      c.enqueue1 (.tld (tileNum o.dst) ty sp base x) sides fun st => st.tagTile c.core (tileNum o.dst) ty.tag))

/-- TST. -/
def execTst (o : Ops) (sp : Bool) (s : State) : Host.Outcome State Fault Refusal :=
  withCtx s fun c => c.uniform o.guard (scalarUse o.a o.feA ++ scalarUse o.b o.feB) (c.memory (
    let x := c.w.scalar o.b
    if !shapeOk x then c.trap { cause := 15, oper := o.b.bits.toNat }
    else c.tileBase o sp true (shapeSpan x) fun base sides =>
      c.enqueue1 (.tst (tileNum o.dst) sp base x) sides id))

/-- TCPY: the destination's tag follows the source's. -/
def execTcpy (o : Ops) (s : State) : Host.Outcome State Fault Refusal :=
  withCtx s fun c => c.uniform o.guard [] (c.memory (
    let tag := ((c.s.core c.core).tiles.get Tile.fresh (tileNum o.a)).tag
    c.enqueue1 (.tcpy (tileNum o.dst) (tileNum o.a)) [] fun st => st.tagTile c.core (tileNum o.dst) tag))

/-- TCB: 32 bytes of a codebook. -/
def execTcb (o : Ops) (sp : Bool) (s : State) : Host.Outcome State Fault Refusal :=
  withCtx s fun c => c.uniform o.guard (scalarUse o.a o.feA) (c.memory (
    c.tileBase o sp false 32 fun base sides =>
      c.enqueue1 (.tcb (tileNum o.dst) sp base) sides fun st => st.tagTile c.core (tileNum o.dst) 5))

/-! ### MXPRG (R240) -/

/-- The progress of the oldest incomplete operation of a pair, and whether a staging buffer of its cores is in use. DONE has
7 bits: 128 chunks of an operation that still drains read 0 (DESIGN CHOICE, assumption 37). -/
def State.progress (s : State) (core : Nat) : DWord :=
  let staged := (pairCores core).any fun k => (s.core k).staging.isSome
  let x := match (s.pairs.get ⟨[]⟩ (Config.pairOf core)).q0 with
    | [] => 0
    | e :: _ => e.kind.p % 128 + bitsOf e.kind.qd.toNat 6 0 * 2 ^ 7 + 2 ^ 14 + e.kind.paused.toNat * 2 ^ 15
  BitVec.ofNat 64 (x + staged.toNat * 2 ^ 16)

/-- MXPRG. -/
def execMxprg (o : Ops) (s : State) : Host.Outcome State Fault Refusal :=
  withCtx s fun c => c.uniform o.guard (scalarDst o) (c.done (c.w.putDst o.dst (c.s.progress c.core)))

/-! ### VXM (R246) -/

/-- The uses of VXM: x, the pointer pair, then the eight destinations, which are read. -/
def vxmUses (o : Ops) : List Use :=
  runUses o.a 8 o.feA true false false (fun _ => some [0, 5]) ++ usesOf o.b true o.feB true false false addrTags ++
    runUses o.dst 8 o.feD true true false fun _ => some [0, 3]

/-- Starts a VXM: what each thread reads is taken now, the destinations become empty. A pointer that is 0, poisoned,
misaligned or not canonical poisons its thread. -/
def Ctx.startVxm (c : Ctx) (o : Ops) (rnd : Rnd) (act : Mask) : State :=
  let words := fun (x : Opnd) (t : Nat) => (List.range 8).map fun i => BitVec.ofNat 32 (c.w.value c.f.exec (x.plus i) .b32 0 t)
  let badIn := fun (x : Opnd) (t : Nat) => (List.range 8).any fun i => c.w.poisonAt (x.plus i) false t
  let ptr := fun (t : Nat) =>
    let p : DWord := BitVec.ofNat 64 (c.w.value c.f.exec o.b .n64 0 t)
    if p = 0 || c.w.poisonAt o.b true t || p.toNat % 256 ≠ 0 || !canonical p then none else some p
  let accs := act.threads.map fun t => (t, ptr t, words o.a t, words o.dst t)
  let poison := Mask.ofPred fun t => act.getLsbD t && (badIn o.a t || badIn o.dst t)
  let org : Origin := if (List.range 8).any fun i => act.threads.any fun t =>
      (c.w.poisonAt (o.a.plus i) false t && c.w.originOf (o.a.plus i) == .data) ||
      (c.w.poisonAt (o.dst.plus i) false t && c.w.originOf (o.dst.plus i) == .data) then .data else .fault
  c.voted act (Flip.ofWords 8) fun s1 flip =>
    let flips : Tab Flip := act.threads.filterMap fun t => if flip t = 0 then none else some (t, flip t)
    let w1 := (accessRegs o.dst .b32 8).foldl (fun w r => w.markEmpty r 3) c.w
    let op := MemKind.vxm o.dst (c.mode rnd) c.flush accs poison org flips c.f.pc c.w.word
    let s2 := (s1.setWave c.core c.slot w1).addOps c.core [{ c.op op with id := s1.uid }]
    c.next (s2.touchAccs c.core c.w.part c.w.uid c.w.depth (fun _ => false) (accs.filterMap fun a => a.2.1.map fun p => (p, 256)))

/-- VXM. -/
def execVxm (o : Ops) (rnd : Rnd) (s : State) : Host.Outcome State Fault Refusal :=
  withCtx s fun c => c.vector o.guard (vxmUses o) fun act => c.memory (c.spoil.startVxm o rnd act)

end Sys2Proof.Machine
end

