-- ==== Sys2Proof/Machine/Reading.lean ====
section
/-!
DEFINITION. Reads of global memory by operations under way: translation (R375), waiting for lines of a lower tier or of a
generator (R293, R294, R402), and the bytes with their poison. Loads use their core's TLB; engines walk at once.
-/
namespace Sys2Proof.Machine

/-- Who reads: core, partition, wave and fill depth, the operation's stamp, its level, whether it translates at once (an
engine), and the lines that a failed flash page delivered to it. -/
structure Reader where
  core  : Nat
  part  : Nat
  uid   : Nat
  depth : Nat
  op    : Nat
  user  : Bool
  now   : Bool
  bad   : List Nat
  agent : Nat               -- as in the fault record (R387)
  launch : Option Nat := none  -- the launch that it reads for
  deriving DecidableEq, Repr

/-- Where a byte lies. -/
inductive Loc where
  | phys (pa : Nat)
  | gen (part line off : Nat)
  deriving DecidableEq, Repr

/-- The line of a byte. -/
def Loc.key : Loc → LineKey
  | .phys pa => .phys (pa / 128)
  | .gen p line _ => .gen p line

/-- The byte within its line. -/
def Loc.off : Loc → Nat
  | .phys pa => pa % 128
  | .gen _ _ off => off

/-- Translation for a reader: a walk of its own that has faulted gives its class, and one whose token is open makes it wait (R388). See assumption 55. -/
def State.lookBy (s : State) (r : Reader) (k : AccessKind) (va : DWord) : Look :=
  (s.walkHeld r.core r.op k va).getD (if r.now then s.lookNow r.core r.part k va else s.lookup r.core r.part k va)

/-- An engine's walk has ended in a fault of a class: when the host is to have a record of it (R381, R382), the record is due, and the walk
stands as finished so that it is due once. See assumption 55. -/
def State.failWalk (s : State) (r : Reader) (k : AccessKind) (va : DWord) (cls : Nat) : State :=
  match s.walkHeld r.core r.op k va, s.walk r.part k va with
  | none, .stop _ false _ _ (some _) _ =>
    let sec := Config.sectorOf r.core
    (s.noteWalk r.part k va).setWalks sec (s.walksOf sec ++
      [⟨r.core, r.op, r.part, va.toNat % 2 ^ 57 / 4096, va, k.write, k.fetch, k.user, r.agent, none, false, some cls, none⟩])
  | _, _ => s

/-- What the translation of a range finds. -/
inductive Found where
  | at_ (ls : List Loc)
  | fault (cls : Nat) (va : DWord)
  | wait
  deriving DecidableEq, Repr

/-- The virtual addresses at which the units of `n` bytes at an address begin: units of 16 bytes, within which every leaf is contiguous (R377,
R379), the first from the address on. -/
def unitsOf (va : DWord) (n : Nat) : List DWord :=
  let o := va.toNat % 16
  (List.range ((o + n + 15) / 16)).map fun i => if i = 0 then va else va - BitVec.ofNat 64 o + BitVec.ofNat 64 (16 * i)

/-- Translates `n` bytes. A miss asks for a walk; an engine's walk waits while a table that it reads is not to be had, and the tables that it
has read are then in the LLC (R310, R399). See assumption 55. -/
def State.locate (s : State) (r : Reader) (write : Bool) (va : DWord) (n : Nat) : State × Found :=
  let k : AccessKind := ⟨write, false, r.user⟩
  let o := va.toNat % 16
  let us := unitsOf va n
  let looks := us.map fun u => (u, s.lookBy r k u)
  let walks := if r.now then us.filter fun u => s.lookup r.core r.part k u == .miss else []
  let misses := looks.filterMap fun l => match l.2 with | .miss => some l.1 | _ => none
  if walks.any fun u => s.walkWaits r.part u then (s, .wait)
  else if !misses.isEmpty then (misses.foldl (fun st u => st.requestWalk r.core r.part r.op r.agent k u) s, .wait)
  else
  let walked := walks.foldl (fun st u => st.touchWalk r.part u) s
  match looks.findSome? fun l => match l.2 with | .fault cls => some (cls, l.1) | _ => none with
  | some (cls, u) => (if r.now then walked.failWalk r k u cls else walked, .fault cls u)
  | none =>
    (walked, .at_ ((List.range n).map fun i =>
      let j := o + i
      match looks[j / 16]? with
      | some (_, .ok pa _) => .phys (if j / 16 = 0 then pa + i else pa + j % 16)
      | _ =>
        let a := (va + BitVec.ofNat 64 i).toNat
        .gen r.part (a / 128) (a % 128)))

/-- What a reader meets at a line. -/
inductive LineOut where
  | ready
  | wait
  | nest
  deriving DecidableEq, Repr

/-- Asks for an ordinary line that is absent from the LLC: a miss slot of the class, or a place in its queue (R293). -/
def State.wantLine (s : State) (r : Reader) (line : Nat) : State :=
  let h := s.home r.part (.phys line)
  let copy := (LineKey.phys line).copy r.part
  if (s.slice h).holdsSlot (.line copy) then s
  else s.askSlot h ⟨r.depth, r.part, r.uid, .phys line⟩ fun st => st.readSlot h ⟨r.depth, r.part, .line copy⟩ copy

/-- Whether the TLB entries through which a core reads a line are all read-only (R400). -/
def State.readsOnly (s : State) (core part line : Nat) : Bool :=
  let es := (s.core core).tlb.filter fun t => t.part = part && leafBase t.leaf / 128 ≤ line && line ≤ leafLast t.leaf t.size / 128
  !es.isEmpty && es.all fun t => !bitOf t.leaf.toNat 3

/-- Whether a guest copy in the sector of a core answers a read of a line (R400). See assumption 54. -/
def State.guestAnswers (s : State) (core part : Nat) (k : LineKey) : Bool :=
  let g := (k.copy part).code
  let sector := Config.sectorOf core
  s.guests.contains (g, sector) && ((s.slice (s.guestSlice (k.copy part) sector)).guests.find g).isSome && match k with
    | .phys l => s.readsOnly core part l
    | .gen p l => (match s.genLine p l with | some x => x.state == .valid || x.state == .zero | none => false)

/-- A guest copy answers: its age becomes 0 (R407). -/
def State.touchGuest (s : State) (core part : Nat) (k : LineKey) : State :=
  let h := s.guestSlice (k.copy part) (Config.sectorOf core)
  let sl := s.slice h
  s.setSlice h { sl with guests := sl.guests.put (k.copy part).code 0 }

/-- Whether a line lies on a GDDR channel that has been declared failed, or in a slice that has failed (R371, R413). See assumption 53. -/
def State.brokenLine (s : State) (part : Nat) (k : LineKey) : Bool :=
  (match k with | .phys l => s.chanFailed (l * 128) | .gen _ _ => false) ||
    (!s.dev.failedSlices.isEmpty && s.dev.failedSlices.contains (s.home part k))

/-- A launch touches some lines: one of a failed channel or slice ends it with FAULTED (R371, R413). See assumption 53. -/
def State.noteLines (s : State) (part : Nat) (launch : Option Nat) (ks : List LineKey) : State :=
  match launch with
  | none => s
  | some l => if (s.channels.any (fun c => c.2.failed) || !s.dev.failedSlices.isEmpty) && ks.any (s.brokenLine part) then
      { s with launches := s.launches.map fun x => if x.id = l then { x with faulted := true } else x } else s

/-- Whether a line can be read now; an absent one is asked for. A host line is read over the link (R404), a line that a
failed flash page delivered is at hand (R403), and a guest copy answers in its sector (R400). -/
def State.lineReady (s0 : State) (r : Reader) (k : LineKey) : State × LineOut :=
  let s := s0.noteLines r.part r.launch [k]
  if s.moving r.part k then (s, .wait)
  else if s.guestAnswers r.core r.part k then (s.touchGuest r.core r.part k, .ready)
  else match k with
  | .gen p line => (match s.touchGen r.core p r.uid r.depth line with
    | (s1, .ready) => (s1.countRequest p k, .ready)
    | (s1, .waiting) => (s1, .wait)
    | (s1, .nest) => (s1, .nest))
  | .phys line =>
    if r.bad.contains line && (s.llcLine r.part line).isNone then (s.countRequest r.part k, .ready)
    else if inHost (line * 128) || (s.llcLine r.part line).isSome then
      (match s.touchLine? r.part line id with | some s1 => (s1, .ready) | none => (s, .wait))
    else (s.wantLine r line, .wait)

/-- The bytes of a host line as they were when its page was promoted, while a copy of it answers reads (R404). -/
def State.hostCopy (s : State) (part line : Nat) : Option (List Byte) :=
  (s.promoted.find (copyNo part line)).filter fun _ =>
    (s.llcLine part line).isSome || s.victims.any fun v => v.part = part && v.key = .phys line

/-- The value of a byte of memory for a partition: of a host line that has been promoted, each aligned 4 bytes are as they were then or as the
host has written them since (R404). See assumption 54. -/
def State.memByte (s : State) (part pa : Nat) : Byte :=
  if s.promoted.isEmpty then s.mem.read pa
  else match s.hostCopy part (pa / 128) with
  | some old => if Config.seesNew (s.freeCtr + pa / 4) then s.mem.read pa else old.getD (pa % 128) 0
  | none => s.mem.read pa

/-- The value of a byte and its poison: that of the lines that a failed flash page has delivered, while the LLC does not hold them (R403). -/
def State.byteAt (s : State) (part : Nat) (bad : List Nat) : Loc → Byte × Option Origin
  | .phys pa => (s.memByte part pa,
      if s.wordPoisoned pa || (bad.contains (pa / 128) && (s.llcLine part (pa / 128)).isNone) then some .data else none)
  | .gen p line off =>
    match s.genLine p line with
    | some g => (g.data.getD off 0, if g.state == .poison then some g.origin else none)
    | none => (0, none)

/-- What a read answers. -/
inductive ReadOut where
  | wait
  | fault (cls : Nat) (va : DWord)
  | nest (line : Nat)
  | bytes (bs : List (Byte × Option Origin))
  deriving DecidableEq, Repr

/-- The lines of some locations, each once. -/
def keysOfLocs (ls : List Loc) : List LineKey := (ls.map Loc.key).eraseDups

/-- Asks for every line of a list. -/
def State.readyAll (s : State) (r : Reader) (ks : List LineKey) : State × List (LineKey × LineOut) :=
  ks.foldl (fun acc k => let x := acc.1.lineReady r k; (x.1, acc.2 ++ [(k, x.2)])) (s, [])

/-- The virtual line number of a key, for a nest mark. -/
def LineKey.num : LineKey → Nat
  | .phys l => l
  | .gen _ l => l

/-- Reads `n` bytes of global memory past the L1. -/
def State.readGlobal (s : State) (r : Reader) (va : DWord) (n : Nat) : State × ReadOut :=
  match s.locate r false va n with
  | (s1, .wait) => (s1, .wait)
  | (s1, .fault cls u) => (s1, .fault cls u)
  | (s1, .at_ ls) =>
    let (s2, outs) := s1.readyAll r (keysOfLocs ls)
    if outs.any fun o => o.2 == .wait then (s2, .wait)
    else match outs.find? fun o => o.2 == .nest with
    | some o => (s2, .nest o.1.num)
    | none => (s2, .bytes (ls.map (s2.byteAt r.part r.bad)))

/-- Whether a line's writes can be performed now: its bucket does not move, no sector holds a guest copy (R399, R400), and its slice
has it or can take it (R407). -/
def State.writable (s : State) (part line : Nat) : Bool :=
  !s.moving part (.phys line) && (s.guests.isEmpty || (s.guestsOf line).isEmpty) && s.touchable part [line]

/-- Whether the writes of several lines can all be performed now. See assumption 51. -/
def State.writableAll (s : State) (part : Nat) (lines : List Nat) : Bool :=
  lines.all (s.writable part) && (decide (lines.length ≤ 1) || s.touchable part lines)

/-- A write that waits makes the home slices of its lines send their invalidations (R400). -/
def State.askGuests (s : State) (lines : List Nat) : State :=
  if s.guests.isEmpty then s else lines.foldl (fun (st : State) l => st.sendInvals l) s

/-- The values of some bytes. -/
def valuesOf (bs : List (Byte × Option Origin)) : List Byte := bs.map (·.1)

/-- The origin that poisons some bytes, if any: DATA before FAULT. -/
def poisonOf (bs : List (Byte × Option Origin)) : Option Origin :=
  if bs.any fun b => b.2 == some .data then some .data else if bs.any fun b => b.2.isSome then some .fault else none

/-- The reader that an engine operation is. -/
def QEntry.reader {κ : Type} (e : QEntry κ) (core : Nat) (agent : Nat := 1) : Reader :=
  { core := core, part := e.part, uid := e.wave, depth := e.depth, op := e.id, user := e.level == .user, now := true, bad := e.bad, agent := agent
    launch := some e.launch }

/-- Whether nothing that stands before an operation is still under way (R105, R106). -/
def QEntry.clear {κ : Type} (e : QEntry κ) (s : State) (core : Nat) : Bool := !e.after.any fun i => s.opPending core i

end Sys2Proof.Machine
end

