-- ==== Sys2Proof/Machine/Copies.lean ====
section
/-!
DEFINITION. The events that complete queue-1 operations: copies (R234 to R236) and tile operations (R244, R245).
-/
namespace Sys2Proof.Machine

/-! ### Cells: units of 16 bytes -/

/-- One end of a row's unit: global memory or a scratchpad. -/
inductive End where
  | mem (va : DWord)
  | sp (core off : Nat)
  | zeros
  deriving DecidableEq, Repr

/-- The end at a distance from a base. -/
def End.plus (e : End) (n : Nat) : End :=
  match e with
  | .mem va => .mem (va + BitVec.ofNat 64 n)
  | .sp core off => .sp core (off + n)
  | .zeros => .zeros

/-- An end in a scratchpad, or in global memory. -/
def endOf (core : Nat) (sp : Bool) (x : DWord) : End :=
  if sp then (match spAt core (x.toNat % 2 ^ 32) with | some (k, off) => .sp k off | none => .sp core (x.toNat % 2 ^ 19)) else .mem x

/-- A unit to move: its row, where it is read and where it is written. -/
structure Cell where
  row : Nat
  src : End
  dst : End
  deriving DecidableEq, Repr

/-- A unit as it was read: the bytes, or the class of a fault. -/
structure CellIn where
  cell : Cell
  loc  : List Loc
  bs   : List (Byte × Option Origin)
  fail : Option Nat
  deriving DecidableEq, Repr

/-- Reads one unit; `none` when it must wait. -/
def State.readCell (s : State) (r : Reader) (c : Cell) : State × Option CellIn :=
  match c.src with
  | .zeros => (s, some ⟨c, [], List.replicate 16 (0, none), none⟩)
  | .sp core off => (s, some ⟨c, [], (s.spRead core off 16).map (fun b => (b.1, if b.2 then some .data else none)), none⟩)
  | .mem va =>
    match s.readGlobal r va 16 with
    | (s1, .wait) => (s1, none)
    | (s1, .fault cls _) => (s1, some ⟨c, [], [], some cls⟩)
    | (s1, .nest _) => (s1, some ⟨c, [], [], some 1⟩)
    | (s1, .bytes bs) =>
      let loc := match (s1.locate r false va 16).2 with | .at_ ls => ls | _ => []
      (s1, some ⟨c, loc, bs, none⟩)

/-- Reads every unit; `none` when one must wait. -/
def State.readCells (s : State) (r : Reader) (cs : List Cell) : State × Option (List CellIn) :=
  cs.foldl (fun acc c =>
    match acc.1.readCell r c with
    | (s1, some x) => (s1, acc.2.map fun l => l ++ [x])
    | (s1, none) => (s1, none)) (s, some [])

/-- Where a unit is to be written. -/
inductive Target where
  | mem (ps : List Nat)
  | sp (core off : Nat)
  | genro
  | fault (cls : Nat)
  | wait
  deriving DecidableEq, Repr

/-- Translates the destination of a unit (R236). -/
def State.targetOf (s : State) (r : Reader) (e : End) : State × Target :=
  match e with
  | .sp core off => (s, .sp core off)
  | .zeros => (s, .fault 1)
  | .mem va =>
    match s.locate r true va 16 with
    | (s1, .wait) => (s1, .wait)
    | (s1, .fault cls _) => (s1, .fault cls)
    | (s1, .at_ ls) =>
      if ls.any fun l => match l with | .gen .. => true | _ => false then (s1, .genro)
      else
        let ps := ls.map fun l => match l with | .phys pa => pa | .gen .. => 0
        let lines := (ps.map fun pa => pa / 128).eraseDups
        if s1.writableAll r.part lines then (s1.noteLines r.part r.launch (lines.map LineKey.phys), .mem ps) else (s1.askGuests lines, .wait)

/-- Translates every destination. -/
def State.targetsOf (s : State) (r : Reader) (cs : List Cell) : State × List Target :=
  cs.foldl (fun acc c => let x := acc.1.targetOf r c.dst; (x.1, acc.2 ++ [x.2])) (s, [])

/-- The line of an end, by which a fault leaves its bytes alone (R236). -/
def End.line : End → Option Nat
  | .mem va => some (va.toNat / 128)
  | _ => none

/-- A faulting operation's class and first row (R231). -/
def firstFault (fs : List (Nat × Nat)) : Option (Nat × Nat) :=
  fs.foldl (fun best f => match best with
    | none => some f
    | some b => if f.1 < b.1 then some f else some b) none

/-- Writes a unit's bytes to scratchpad, word by word. -/
def State.putSp (s : State) (core off : Nat) (bs : List (Byte × Option Origin)) : State :=
  (List.range 4).foldl (fun st i =>
    let w := (bs.drop (4 * i)).take 4
    st.setCore core ((st.core core).spWrite (off + 4 * i) (w.map fun b => (b.1, 0xFF)) (w.any fun b => b.2.isSome))) s

/-- Writes bytes to memory: 64-bit words that hold a poisoned byte are written poisoned (R236, R412). -/
def State.putMem (s : State) (part : Nat) (ws : List (Nat × Byte × Option Origin)) : State :=
  let bad := ((ws.filter fun w => w.2.2.isSome).map fun w => w.1 / 8).eraseDups
  let write := fun (w : Nat × Byte × Option Origin) => (⟨w.1, w.2.1, 0xFF⟩ : ByteWrite)
  let good := (ws.filter fun w => !bad.contains (w.1 / 8)).map write
  let rest := (ws.filter fun w => bad.contains (w.1 / 8)).map write
  let s1 := if good.isEmpty then s else s.performWrites part good false false none
  if rest.isEmpty then s1 else s1.performWrites part rest true false none

/-- The result of moving units: the state, and the status, class and row of the first fault. -/
structure Moved where
  s      : State
  status : Nat
  cls    : Nat
  row    : Nat

/-- Moves units whose sources are read and whose destinations are translated. A unit in a line that faults is left alone; a
source that is itself a destination gives old or new bytes (R235, R236). See assumption 46. -/
def State.move (s : State) (part : Nat) (ins : List CellIn) (ts : List Target) : Moved :=
  let xs := ins.zip ts
  let srcBad := ins.filterMap fun i => if i.fail.isSome then i.cell.src.line else none
  let dstBad := xs.filterMap fun x => match x.2 with | .fault _ => x.1.cell.dst.line | _ => none
  let faults := xs.filterMap fun x => match x.1.fail, x.2 with
    | some cls, _ => some (x.1.cell.row, cls)
    | none, .fault cls => some (x.1.cell.row, cls)
    | _, _ => none
  let lineBad := fun (e : End) (l : List Nat) => match e.line with | some n => l.contains n | none => false
  let good := xs.filter fun x => x.1.fail.isNone && !lineBad x.1.cell.src srcBad && !lineBad x.1.cell.dst dstBad &&
    match x.2 with | .mem _ | .sp _ _ => true | _ => false
  let same := fun (i : CellIn) (t : Target) => match i.cell.src, t with
    | .sp c o, .sp c2 o2 => c = c2 && o = o2
    | .mem _, .mem ps => i.loc == ps.map Loc.phys
    | _, _ => false
  let bytes := fun (x : (CellIn × Target) × Nat) =>
    match good.find? fun y => same x.1.1 y.2 && y.1.cell != x.1.1.cell with
    | some y => (x.1.1.bs.zip y.1.bs).zipIdx.map fun b =>
        if Config.seesNew (s.freeCtr + 16 * x.2 + b.2) then b.1.2 else b.1.1
    | none => x.1.1.bs
  let outs := good.zipIdx.map fun x => (x.1.2, bytes x, x.1.1.cell.row)
  let s1 := outs.foldl (fun st o => match o.1 with | .sp c off => st.putSp c off o.2.1 | _ => st) s
  let mems := outs.flatMap fun o => match o.1 with | .mem ps => ps.zip o.2.1 | _ => []
  let s2 := (if mems.isEmpty then s1 else s1.putMem part mems).draw
  let rotten := (outs.filter fun o => o.2.1.any fun b => b.2.isSome).map fun o => (o.2.2, 6)
  match firstFault faults, firstFault rotten with
  | some (row, cls), _ => ⟨s2, 1, cls, row⟩
  | none, some (row, cls) => ⟨s2, 2, cls, row⟩
  | none, none => ⟨s2, 0, 0, 0⟩

/-- Reads, translates and moves; `none` when something must wait. A destination in a generated range stops it all. See assumption 111. -/
def State.moveCells (s : State) (r : Reader) (cs : List Cell) : State × Option Moved :=
  match s.targetsOf r cs with
  | (s1, ts) =>
    if ts.contains .genro then (s1, some ⟨s1, 1, 5, (match ts.idxOf? .genro with | some i => ((cs[i]?).map (·.row)).getD 0 | none => 0)⟩)
    else
      let (s2, ins) := s1.readCells r cs
      if ts.contains .wait then (s2, none)
      else match ins with
      | none => (s2, none)
      | some is => let m := s2.move r.part is ts; (m.s, some m)

/-! ### Completion -/

/-- Marks the scoreboard entries of an operation as done, on every core (R82). -/
def State.doneEntries (s : State) (id : Nat) : State :=
  let core := fun (c : Core) => if c.sboard.any fun e => e.op = id then
    { c with sboard := c.sboard.map fun e => if e.op = id then { e with done := true } else e } else c
  { s with cores := s.cores.map fun e => (e.1, core e.2) }

/-- The scratchpad sides of a queue-1 operation. -/
def Q1Kind.sides (core : Nat) : Q1Kind → List Side
  | .copy d => d.sides core
  | .tld _ _ sp base shape => if sp then (sideAt core base.toNat (shapeSpan shape) false).toList else []
  | .tst _ sp base shape => if sp then (sideAt core base.toNat (shapeSpan shape) true).toList else []
  | .tcpy _ _ => []
  | .tcb _ sp base => if sp then (sideAt core base.toNat 32 false).toList else []

/-- The sides on other cores for which an operation of a queue 1 has no scoreboard entry yet (R82). -/
def QEntry.unentered (e : QEntry Q1Kind) (s : State) (core : Nat) : List Side :=
  (e.kind.sides core).filter fun x => x.core ≠ core && !(s.core x.core).sboard.any fun b => b.op = e.id && b.inbound == x.inbound

/-- Takes the entries on other cores; a core without a free one gives none (R82). -/
def State.enterSides (s : State) (e : QEntry Q1Kind) (sides : List Side) : State :=
  sides.foldl (fun st x =>
    let k := st.core x.core
    if k.sboard.length < 64 then st.setCore x.core { k with sboard := k.sboard ++ [x.entry e.id e.wave] } else st) s

/-- The operation at the head of a queue 1, when nothing stands before it. It first takes its scoreboard entries on other
cores, and touches no byte there while one is missing (R82). -/
def State.run1 (s : State) (core : Nat) (k : QEntry Q1Kind → State) : State :=
  match (s.core core).q1 with
  | [] => s
  | e :: _ =>
    if !e.clear s core then s
    else match e.unentered s core with
      | [] => k e
      | sides => s.enterSides e sides

/-- Takes the finished head off queue 1: its record, its walks and its scoreboard entries. -/
def State.finish1 (s : State) (core : Nat) (e : QEntry Q1Kind) (status cls row : Nat) : State :=
  let k := s.core core
  let s1 := (s.setCore core { k with q1 := k.q1.drop 1 }).dropWalks core e.id
  (s1.doneEntries e.id).opDone e.wave e.launch 1 status cls row false

/-- The units of a copy. -/
def CopyDesc.cells (d : CopyDesc) (core : Nat) : List Cell :=
  let src := if d.zfill then End.zeros else endOf core d.srcSp d.src
  let dst := endOf core d.dstSp d.dst
  (List.range d.rows).flatMap fun r => (List.range (d.rowBytes / 16)).map fun i =>
    ⟨r, src.plus (r * d.spitch + 16 * i), dst.plus (r * d.dpitch + 16 * i)⟩

/-- A copy finishes: its bytes are performed, its record written and its credit made in full (R236). See assumption 45. -/
def State.runCopy (s : State) (core : Nat) (e : QEntry Q1Kind) (d : CopyDesc) : State :=
  match s.moveCells (e.reader core) (d.cells core) with
  | (s1, none) => s1
  | (_, some m) =>
    let fault := if m.status ≠ 0 then some m.cls else if e.killed then some 0 else none
    let s2 := if d.credit then m.s.sendCredit (d.barCore core) d.bar (d.rows * d.rowBytes) fault else m.s
    s2.finish1 core e m.status m.cls m.row

/-- COPY_COMPLETION: the copy at the head of a core's queue 1 finishes, unless it must still wait. -/
def execCopyCompletion (core : Nat) (s : State) : Host.Outcome State Fault Refusal :=
  .next (s.run1 core fun e => match e.kind with | .copy d => s.runCopy core e d | _ => s)

/-! ### Tile operations -/

/-- A tile register of a core. -/
def State.tile (s : State) (core n : Nat) : Tile := (s.core core).tiles.get Tile.fresh n

/-- Writes a tile register. -/
def State.setTile (s : State) (core n : Nat) (t : Tile) : State :=
  let k := s.core core
  s.setCore core { k with tiles := k.tiles.put n t }

/-- Writes a 32-bit word of a tile with its poison. -/
def Tile.putWord (t : Tile) (w : Nat) (bs : List Byte) (bad : Option Origin) : Tile :=
  { t with bytes := bs.zipIdx.foldl (fun m b => m.put (4 * w + b.2) b.1) t.bytes
           poison := match bad with | some o => t.poison.put w o | none => t.poison.erase w }

/-- Writes bytes read from memory at a byte offset of a tile. -/
def Tile.putUnit (t : Tile) (off : Nat) (bs : List (Byte × Option Origin)) : Tile :=
  (List.range (bs.length / 4)).foldl (fun t i =>
    let w := (bs.drop (4 * i)).take 4
    t.putWord (off / 4 + i) (valuesOf w) (poisonOf w)) t

/-- Bytes of a tile with their poison. -/
def Tile.read (t : Tile) (off n : Nat) : List (Byte × Option Origin) :=
  (List.range n).map fun i => (t.bytes.get 0 (off + i), Tab.find t.poison ((off + i) / 4))

/-- Units read into a tile: words that fault are poisoned with origin FAULT (R51, R244). -/
def Tile.load (t : Tile) (toff : Nat) (ins : List (Nat × CellIn)) : Tile :=
  ins.foldl (fun t x => match x.2.fail with
    | some _ => (List.range 4).foldl (fun t i => { t with poison := t.poison.put ((toff + x.1) / 4 + i) .fault }) t
    | none => t.putUnit (toff + x.1) x.2.bs) t

/-- The status of units read: FAULT before POISON, with the first row. -/
def readStatus (ins : List CellIn) : Nat × Nat × Nat :=
  let faults := ins.filterMap fun i => i.fail.map fun cls => (i.cell.row, cls)
  let rotten := ins.filterMap fun i => if i.bs.any fun b => b.2.isSome then some (i.cell.row, 6) else none
  match firstFault faults, firstFault rotten with
  | some (row, cls), _ => (1, cls, row)
  | none, some (row, cls) => (2, cls, row)
  | none, none => (0, 0, 0)

/-- The memory ends of a shape's units, in tile order. -/
def shapeCells (core : Nat) (sp : Bool) (base shape : DWord) : List Cell :=
  let (rb, rows, _, pitch) := tileShape shape
  (List.range rows).flatMap fun r => (List.range (rb / 16)).map fun i =>
    ⟨r, (endOf core sp base).plus (r * pitch + 16 * i), .zeros⟩

/-- What an operation of queue 1 loads: the tile register, where its units go there, and the units. -/
def Q1Kind.loads (k : Q1Kind) (core : Nat) : Option (Nat × Nat × List Cell) :=
  match k with
  | .tld n _ sp base shape => let (_, _, toff, _) := tileShape shape; some (n, toff, shapeCells core sp base shape)
  | .tcb n sp base => let src := endOf core sp base; some (n, 0, [⟨0, src, .zeros⟩, ⟨0, src.plus 16, .zeros⟩])
  | _ => none

/-- A tile register loaded with units, but for the words that the operation has written before (R170). -/
def Tile.loadRest (t : Tile) (toff : Nat) (ins : List CellIn) (got : List Nat) : Tile :=
  got.foldl (fun x w => x.putWord w (valuesOf (t.read (4 * w) 4)) (Tab.find t.poison w)) (t.load toff (ins.zipIdx.map fun x => (16 * x.2, x.1)))

/-- TLD or TCB finishes. See assumption 45. -/
def State.runLoad (s : State) (core : Nat) (e : QEntry Q1Kind) (n toff : Nat) (cs : List Cell) : State :=
  match s.readCells (e.reader core) cs with
  | (s1, none) => s1
  | (s1, some ins) =>
    let (status, cls, row) := readStatus ins
    (s1.setTile core n ((s1.tile core n).loadRest toff ins e.got)).finish1 core e status cls row

/-- TST finishes: poisoned words are written poisoned and record POISON; a generated range takes nothing. See assumption 45. -/
def State.runTst (s : State) (core : Nat) (e : QEntry Q1Kind) (n : Nat) (sp : Bool) (base shape : DWord) : State :=
  let (_, _, toff, _) := tileShape shape
  let cs := (shapeCells core sp base shape).map fun c => ({ c with src := .zeros, dst := c.src } : Cell)
  match s.targetsOf (e.reader core) cs with
  | (s1, ts) =>
    if ts.contains .genro then s1.finish1 core e 1 5 (match ts.idxOf? .genro with | some i => ((cs[i]?).map (·.row)).getD 0 | none => 0)
    else if ts.contains .wait then s1
    else
      let t := s1.tile core n
      let ins := cs.zipIdx.map fun c => (⟨c.1, [], t.read (toff + 16 * c.2) 16, none⟩ : CellIn)
      let m := s1.move e.part ins ts
      m.s.finish1 core e m.status m.cls m.row

/-- TILE_OPERATION_COMPLETION: the tile operation at the head of a core's queue 1 finishes, unless it must still wait. -/
def execTileOperationCompletion (core : Nat) (s : State) : Host.Outcome State Fault Refusal :=
  .next (s.run1 core fun e => match e.kind with
    | .copy _ => s
    | .tst n sp base shape => s.runTst core e n sp base shape
    | .tcpy d n =>
      let src := s.tile core n
      (if d = n then s else s.setTile core d { src with tag := (s.tile core d).tag }).finish1 core e 0 0 0
    | k => (match k.loads core with | some (n, toff, cs) => s.runLoad core e n toff cs | none => s))

/-- SCOREBOARD_ENTRY_RELEASE: an entry whose operation has touched its last byte there leaves (R82). -/
def execScoreboardEntryRelease (core k : Nat) (s : State) : Host.Outcome State Fault Refusal :=
  let c := s.core core
  .next (match c.sboard[k]? with
  | some e => if e.done then s.setCore core { c with sboard := c.sboard.eraseIdx k } else s
  | none => s)

end Sys2Proof.Machine
end

