-- ==== Sys2Proof/Machine/Matrix.lean ====
section
/-!
DEFINITION. The matrix engine: chunks (R239, R240), the sums of R69, and the epilogue (R241 to R243).
-/
namespace Sys2Proof.Machine

/-! ### A80 (R56, R59, R69) -/

/-- The accumulator format. -/
def a80 : Fmt := ⟨15, 64, 16383, .ieee⟩

/-- The value of an A80 pattern: every NaN is the quiet one (R56, R57). -/
def a80Value (x : BitVec 80) : FVal := match a80.value x.toNat with | .nan _ => .nan false | v => v

/-- An exact value rounded to A80 by RNE. -/
def toA80 (v : FVal) : BitVec 80 × List XClass := let r := a80.fromVal 0 false false v; (BitVec.ofNat 80 r.bits, r.exc)

/-- One group of R69: c plus sixteen exact products, rounded once. A zero result is -0 only when c and every product are. An
element that an earlier group has made NaN is an input of the next, and counts NANIN there (DESIGN CHOICE, assumption 37). -/
def a80Group (c : BitVec 80) (xs : List (FVal × FVal)) : BitVec 80 × List XClass :=
  let ps := xs.map fun x => x.1.mul x.2
  let sum := sumVals 0 (a80Value c :: ps.map (·.1))
  let (y, exc) := toA80 sum.1
  (y, nanExc (a80Value c :: xs.flatMap fun x => [x.1, x.2]) ++ ps.flatMap (·.2) ++ sum.2 ++ exc)

/-- The lists of at most n elements, in order, that a list falls into; at most `fuel` of them. -/
def chunksOf {α : Type} (n : Nat) : Nat → List α → List (List α)
  | 0, _ => []
  | fuel + 1, l => if l.isEmpty then [] else l.take n :: chunksOf n fuel (l.drop n)

/-- The sum of R69 over the products of a chunk. -/
def a80Sum (c : BitVec 80) (xs : List (FVal × FVal)) : BitVec 80 × List XClass :=
  (chunksOf 16 xs.length xs).foldl (fun acc g => let r := a80Group acc.1 g; (r.1, acc.2 ++ r.2)) (c, [])

/-! ### Operands (R238, R239) -/

/-- Bits of an element of a matrix format. -/
def matBits (fmt : Nat) : Nat := if fmt ≤ 1 then 16 else if fmt ≤ 3 then 8 else if fmt ≤ 5 then 6 else 4

/-- The floating-point format of a matrix format other than CB4. -/
def matFmt (fmt : Nat) : Fmt :=
  match fmt with
  | 0 => bf16
  | 1 => fp16
  | 2 => e4m3
  | 3 => e5m2
  | 4 => e3m2
  | 5 => e2m3
  | _ => e2m1

/-- A codebook: sixteen BF16 values in the first bytes of a tile, with their poison (R61). -/
def Tile.codebook (t : Tile) : List (BitVec 16 × Bool) :=
  (List.range 16).map fun k => (BitVec.ofNat 16 (leNat (valuesOf (t.read (2 * k) 2))), (Tab.find t.poison (k / 2)).isSome)

/-- The value of an element and whether its codebook entry is poisoned. -/
def matValue (fmt : Nat) (table : List (BitVec 16 × Bool)) (x : Nat) : FVal × Bool :=
  if fmt = 7 then let e := table.getD x (0, false); (bf16.value e.1.toNat, e.2) else ((matFmt fmt).value x, false)

/-- The elements of packed bytes, each with its poison. -/
def matElems (fmt : Nat) (table : List (BitVec 16 × Bool)) (n : Nat) (bs : List (Byte × Option Origin)) : List (FVal × Bool) :=
  let w := matBits fmt
  let x := leNat (valuesOf bs)
  (List.range n).map fun i =>
    let v := matValue fmt table (x / 2 ^ (w * i) % 2 ^ w)
    let bad := bs.zipIdx.any fun b => b.1.2.isSome && b.2 * 8 < w * (i + 1) && w * i < 8 * (b.2 + 1)
    (v.1, v.2 || bad)

/-! ### Fields of an operation -/

def MxOp.aFmt (m : MxOp) : Nat := bitsOf m.qd.toNat 10 8
def MxOp.bFmt (m : MxOp) : Nat := bitsOf m.qd.toNat 13 11
def MxOp.chunk (m : MxOp) : Nat := chunkOf m.aFmt
def MxOp.chunks (m : MxOp) : Nat := bitsOf m.qd.toNat 6 0 + 1
def MxOp.acc (m : MxOp) : Nat := bitsOf m.qd.toNat 15 14
def MxOp.drains (m : MxOp) : Bool := bitOf m.qd.toNat 16
def MxOp.epi (m : MxOp) : Nat := bitsOf m.qd.toNat 50 32

/-- The matrix queue of a pair. -/
def State.queue0 (s : State) (pair : Nat) : List (QEntry MxOp) := (s.pairs.get ⟨[]⟩ pair).q0

/-- Writes the matrix queue of a pair. -/
def State.setQueue0 (s : State) (pair : Nat) (q : List (QEntry MxOp)) : State := { s with pairs := s.pairs.put pair ⟨q⟩ }

/-- Replaces an entry of a matrix queue. -/
def State.setMx (s : State) (pair : Nat) (e : QEntry MxOp) : State :=
  s.setQueue0 pair ((s.queue0 pair).map fun x => if x.id = e.id then e else x)

/-- An accumulator: rows 0 to 31 of the pair lie in its first core, rows 32 to 63 in its second. -/
def State.accOf (s : State) (pair half n : Nat) : Acc := (s.core (2 * pair + half)).accs.get Acc.fresh n

/-- Writes an accumulator. -/
def State.setAcc (s : State) (pair half n : Nat) (a : Acc) : State :=
  let k := s.core (2 * pair + half)
  s.setCore (2 * pair + half) { k with accs := k.accs.put n a }

/-- The core that drains a half of C: on a scan core the issuing core drains the first (R434). -/
def MxOp.drainCore (m : MxOp) (pair half : Nat) : Nat :=
  if m.core < Config.mainCores then 2 * pair + half else if half = 0 then m.core else 4 * pair + 1 - m.core

/-! ### Exceptions (R70, R71) -/

/-- A set of classes as bits. -/
def classBits (exc : List XClass) : Nat := allClasses.foldl (fun n k => if exc.contains k then n + 2 ^ classNum k else n) 0

/-- Counts the classes that elements of an operation raise for the first time, on the core of their rows. See assumption 37. -/
def State.countElems (s : State) (core : Nat) (e : QEntry MxOp) (xs : List (Nat × List XClass)) : State × QEntry MxOp :=
  let news := xs.map fun x => (x.1, x.2.filter fun k => !bitOf (e.kind.exc.get 0 x.1) (classNum k))
  let exc := news.foldl (fun t x => if x.2.isEmpty then t else t.put x.1 (t.get 0 x.1 + classBits x.2)) e.kind.exc
  let evs := tally (news.map (·.2))
  let (wc, slot) := (s.findWave e.wave).getD (core, e.slot)
  let s1 := evs.foldl (fun st v => st.countOn core wc slot e.wave v.1 v.2 e.iaddr e.word) s
  (s1, { e with kind := { e.kind with exc := exc } })

/-! ### Completion -/

/-- Takes the finished head off a matrix queue. -/
def State.finish0 (s : State) (pair : Nat) (e : QEntry MxOp) (status cls row : Nat) (epi : Bool) : State :=
  ((s.setQueue0 pair ((s.queue0 pair).filter fun x => x.id ≠ e.id)).dropWalks e.kind.core e.id).opDone e.wave e.launch 0 status cls row epi

/-- Whether an operation is the oldest of its queue: only there may it complete (R105). -/
def State.isHead0 (s : State) (pair : Nat) (e : QEntry MxOp) : Bool := ((s.queue0 pair).head?.map fun x => x.id) == some e.id

/-- Starts an operation: the codebooks are read, and CLR clears the accumulator. -/
def State.startMx (s : State) (pair : Nat) (e : QEntry MxOp) : State × QEntry MxOp :=
  let m := e.kind
  let e1 := { e with kind := { m with
    started := true
    tabA := (s.tile m.core (bitsOf m.qd.toNat 19 17)).codebook
    tabB := (s.tile m.core (bitsOf m.qd.toNat 22 20)).codebook } }
  let s1 := if bitOf m.qd.toNat 7 then (s.setAcc pair 0 m.acc Acc.fresh).setAcc pair 1 m.acc Acc.fresh else s
  (s1.setMx pair e1, e1)

/-- Reads several ranges; the lowest that faults gives the class. -/
def State.readRanges (s : State) (r : Reader) (xs : List (DWord × Nat)) : State × List ReadOut :=
  xs.foldl (fun acc x => let y := acc.1.readGlobal r x.1 x.2; (y.1, acc.2 ++ [y.2])) (s, [])

/-- Whether some requests of an operation wait on a fault that is being serviced. -/
def State.onToken (s : State) (core id : Nat) : Bool :=
  (s.walksOf (Config.sectorOf core)).any fun w => w.req = id && (w.token.isSome || w.full)

/-- The class that a set of reads faults with, if any; a generated line beyond depth 2 is NOMAP (R298). -/
def readsFault (xs : List ReadOut) : Option Nat :=
  xs.findSome? fun x => match x with | .fault cls _ => some cls | .nest _ => some 1 | _ => none

/-- The bytes of a read. -/
def ReadOut.data : ReadOut → List (Byte × Option Origin)
  | .bytes bs => bs
  | _ => []

/-- One chunk into one half of C. -/
def chunkHalf (a : Acc) (rows : List (List (FVal × Bool))) (cols : List (List (FVal × Bool))) : Acc × List (Nat × List XClass) :=
  let allBad := cols.any fun r => r.any (·.2)
  let cells := (List.range 32).flatMap fun i => (List.range 32).map fun j =>
    let arow := rows.getD i []
    let xs := arow.zipIdx.map fun x => (x.1.1, (((cols.getD x.2 []).getD j (.nan false, false))).1)
    let r := a80Sum (a.elems.get 0 (32 * i + j)) xs
    (32 * i + j, r.1, r.2)
  let badRows := (List.range 32).filter fun i => (rows.getD i []).any (·.2)
  let bad := (List.range 1024).filter fun n => allBad || badRows.contains (n / 32) || a.poison.contains n
  (⟨cells.foldl (fun t x => t.put x.1 x.2.1) [], bad⟩, cells.map fun x => (x.1, x.2.2))

/-- Whether a launch is checked. -/
def State.launchChecked (s : State) (launch : Nat) : Bool :=
  match s.launches.find? fun l => l.id = launch with | some l => l.hdr.checked | none => false

/-- An accumulator of a half of C with the bits that upsets flip in its updated elements. -/
def Acc.flipped (a : Acc) (half : Nat) (us : List Upset) : Acc :=
  us.foldl (fun (x : Acc) u => if u.thread / 1024 % 2 = half then
    { x with elems := x.elems.put (u.thread % 1024) (x.elems.get 0 (u.thread % 1024) ^^^ u.flip.setWidth 80) } else x) a

/-- Whether the elements that upsets may have changed keep their residues: those of their 80-bit words mod 3 (R37). See assumption 37. -/
def Acc.residuesKept (a b : Acc) (us : List Upset) : Bool :=
  us.all fun u => (a.elems.get 0 (u.thread % 1024)).toNat % 3 == (b.elems.get 0 (u.thread % 1024)).toNat % 3

/-- The core that a record of a pair's matrix engine names: the leader, and on the scan cores the one that issued (R420, R434). -/
def MxOp.leader (m : MxOp) (pair : Nat) : Nat := if m.core < Config.mainCores then 2 * pair else m.core

/-- A matrix operation's check has failed twice: its wave is killed, and the record names the leader core (R37, R420). The operation of a wave that
has retired still sends the record and faults its launch. See assumption 4. -/
def State.checkKill (s : State) (pair : Nat) (e : QEntry MxOp) : State :=
  let r : ErrRec := { source := 12, sev := 2 }
  match s.findWave e.wave with
  | some (core, slot) => s.killWave core slot { r with at_ := some (e.kind.leader pair) }
  | none =>
    let s1 := s.record { r with unit := e.kind.leader pair, part := some e.part, lane := e.slot / 6 * 32 }
    { s1 with launches := s1.launches.map fun l => if l.id = e.launch then { l with faulted := true } else l }

/-- Computes the chunk that an operation is at from the operands read. In a checked launch a residue mismatch makes it compute
the chunk once more, and a second one kills the wave (R37); an operation ends only at the head of its queue (R105). -/
def State.computeChunk (s : State) (pair : Nat) (e : QEntry MxOp) (reads : List ReadOut) : State :=
  let m := e.kind
  let a := (reads.take 64).map fun r => matElems m.aFmt m.tabA m.chunk r.data
  let b := (reads.drop 64).map fun r => matElems m.bFmt m.tabB 32 r.data
  let checked := s.launchChecked e.launch
  let s0 : State := { s with upsets := [] }
  let half := fun (h : Nat) => chunkHalf (s.accOf pair h m.acc) ((a.drop (32 * h)).take 32) b
  let pass := fun (issue h : Nat) => (half h).1.flipped h (s.upsets.filter fun u => u.issue = issue)
  let kept := fun (issue : Nat) => [0, 1].all fun h =>
    (half h).1.residuesKept (pass issue h) (s.upsets.filter fun u => u.issue = issue && u.thread / 1024 % 2 = h)
  match (if !checked then some 0 else [0, 1].find? kept) with
  | none => if s.isHead0 pair e then (s0.checkKill pair e).finish0 pair e 1 0 (m.p * m.chunk) false else s
  | some i =>
    let (s1, e1) := s0.countElems (m.drainCore pair 0) e (half 0).2
    let (s2, e2) := s1.countElems (m.drainCore pair 1) e1 ((half 1).2.map fun x => (x.1 + 1024, x.2))
    ((s2.setAcc pair 0 m.acc (pass i 0)).setAcc pair 1 m.acc (pass i 1)).setMx pair { e2 with kind := { e2.kind with p := m.p + 1, paused := false } }

/-- An operation completes when it is the oldest, has done its chunks and drains nothing. -/
def State.settleMx (s : State) (pair : Nat) : State :=
  match s.queue0 pair with
  | e :: _ => if e.kind.started && e.kind.p ≥ e.kind.chunks && !e.kind.drains then s.finish0 pair e 0 0 0 false else s
  | [] => s

/-- The operation that computes: the first whose chunks are not done, when every earlier one has released its accumulator
(R243). -/
def State.computing (s : State) (pair : Nat) : Option (QEntry MxOp) :=
  let q := s.queue0 pair
  let before := q.takeWhile fun e => e.kind.started && e.kind.p ≥ e.kind.chunks
  if before.all fun e => !e.kind.drains || e.kind.staged then (q.drop before.length).head? else none

/-- Bits of an element of D. -/
def epiBits (ty : Ty) : Nat :=
  match ty with
  | .s8 | .n8 => 8
  | .s16 | .n16 => 16
  | .s32 | .n32 => 32
  | t => (fmtOf t).bits

/-- The lines of some ranges; none when one of them cannot be translated now. See assumption 73. -/
def State.rangeLines (s : State) (r : Reader) (xs : List (DWord × Nat)) : Option (List LineKey) :=
  xs.foldl (fun acc x => match acc, (s.locate { r with now := true } false x.1 x.2).2 with
    | some ls, .at_ l => some (ls ++ (l.map Loc.key).eraseDups)
    | _, _ => none) (some [])

/-- The rows of D that a staged operation may still store. -/
def MxOp.rowsLeft (m : MxOp) : List (DWord × Nat) :=
  match m.desc with
  | none => []
  | some x =>
    let d := x.toNat
    if bitsOf d 63 0 = 0 then []
    else ((List.range 64).filter fun i => decide (m.row ≤ i) && bitOf (bitsOf d 511 448) i).map fun i =>
      (BitVec.ofNat 64 (bitsOf d 63 0 + i * bitsOf d 95 64), 4 * epiBits ((epiType (bitsOf d 100 96)).getD .f32))

/-- Whether an operation must wait for the stores of an earlier one whose tile is staged, since it reads what they write (R105). See assumption 73. -/
def State.hazard0 (s : State) (pair : Nat) (e : QEntry MxOp) (ranges : List (DWord × Nat)) : Bool :=
  ((s.queue0 pair).takeWhile fun x => x.id ≠ e.id).any fun x =>
    let rows := x.kind.rowsLeft
    !rows.isEmpty && match s.rangeLines (x.reader x.kind.core 2) rows, s.rangeLines (e.reader e.kind.core 2) ranges with
      | some a, some b => a.any b.contains
      | none, _ => true
      | _, none => false

/-- MATRIX_CHUNK: the engine completes a chunk, pauses on a recoverable fault, or aborts (R240). -/
def execMatrixChunk (pair : Nat) (s : State) : Host.Outcome State Fault Refusal :=
  .next (match s.computing pair with
  | none => s.settleMx pair
  | some e =>
    if !e.clear s e.kind.core then s
    else
      let (s1, e1) := if e.kind.started then (s, e) else s.startMx pair e
      let m := e1.kind
      let n := m.chunk
      let rowA := fun (i : Nat) => m.qa + BitVec.ofNat 64 (i * (m.qc.toNat % 2 ^ 32) + m.p * (n * matBits m.aFmt / 8))
      let rowB := fun (k : Nat) => m.qb + BitVec.ofNat 64 ((m.p * n + k) * (m.qc.toNat / 2 ^ 32))
      let ranges := (List.range 64).map (fun i => (rowA i, n * matBits m.aFmt / 8)) ++ (List.range n).map (fun k => (rowB k, 4 * matBits m.bFmt))
      let (s2, reads) := s1.readRanges (e1.reader m.core 2) ranges
      if s.hazard0 pair e1 ranges then s
      else if reads.contains .wait then s2.setMx pair { e1 with kind := { m with paused := s2.onToken m.core e1.id } }
      else match readsFault reads with
      | some cls => if s2.isHead0 pair e1 then s2.finish0 pair e1 1 cls (m.p * n) false else s2
      | none => (s2.computeChunk pair e1 reads).settleMx pair)

/-! ### The epilogue (R241 to R243) -/

/-- A multiplication or an addition in A80. -/
def a80Mul (v w : FVal) : FVal × List XClass :=
  let p := v.mul w
  let (y, exc) := toA80 p.1
  (a80Value y, nanExc [v, w] ++ p.2 ++ exc)
def a80Add (v w : FVal) : FVal × List XClass :=
  let p := sumVals 0 [v, w]
  let (y, exc) := toA80 p.1
  (a80Value y, nanExc [v, w] ++ p.2 ++ exc)

/-- The activation of an epilogue. -/
def activate (act : Nat) (lo hi v : FVal) : FVal :=
  if v.isNaN then v
  else match act with
  | 1 => if v.neg then .fin false 0 0 else v
  | 2 =>
    let x := if v.below lo then lo else v
    if hi.below x then hi else x
  | _ => v

/-- The conversion of an element to the type of D. -/
def epiConvert (ty : Ty) (mode : Nat) (sat : Bool) (v : FVal) : FRes :=
  let r := match ty with
    | .s8 => toIntSat mode true 8 v
    | .s16 => toIntSat mode true 16 v
    | .s32 => toIntSat mode true 32 v
    | .n8 => toIntSat mode false 8 v
    | .n16 => toIntSat mode false 16 v
    | .n32 => toIntSat mode false 32 v
    | t => (fmtOf t).fromVal mode sat false v
  ⟨r.bits, nanExc [v] ++ r.exc⟩

/-- A scale as a value and whether it is poisoned. -/
def scaleAt (bf : Bool) (bs : List (Byte × Option Origin)) (i : Nat) : FVal × Bool :=
  let n := if bf then 2 else 1
  let x := (bs.drop (n * i)).take n
  (if bf then bf16.value (leNat (valuesOf x)) else e8m0Value (leNat (valuesOf x)), x.any fun b => b.2.isSome)

/-- One element through the steps of R242: its bits, its exceptions and its poison. -/
def epiElem (d : Nat) (ty : Ty) (mode : Nat) (rows cols bias : List (Byte × Option Origin)) (i j : Nat) (x : BitVec 80) (bad : Bool) : FRes × Bool :=
  let v0 : FVal × List XClass × Bool := (a80Value x, [], bad)
  let v1 := if bitOf d 107 then
      let sc := scaleAt (bitOf d 110) rows i; let r := a80Mul v0.1 sc.1; (r.1, r.2, v0.2.2 || sc.2) else v0
  let v2 := if bitOf d 108 then
      let sc := scaleAt (bitOf d 110) cols j; let r := a80Mul v1.1 sc.1; (r.1, v1.2.1 ++ r.2, v1.2.2 || sc.2) else v1
  let v3 := if bitOf d 109 then
      let b := (bias.drop (4 * j)).take 4
      let r := a80Add v2.1 (fp32.value (leNat (valuesOf b)))
      (r.1, v2.2.1 ++ r.2, v2.2.2 || b.any fun x => x.2.isSome) else v2
  let v4 := activate (bitsOf d 106 105) (fp32.value (bitsOf d 351 320)) (fp32.value (bitsOf d 383 352)) v3.1
  let r := epiConvert ty mode (bitOf d 101) v4
  (⟨r.bits, v3.2.1 ++ r.exc⟩, v3.2.2)

/-- The rounding mode of an epilogue. -/
def epiMode (d rmode : Nat) : Nat := let x := bitsOf d 104 102; if x = 0 then rmode else x - 4

/-- The enabled elements of a half: index 32 i + j within the half, bits and poison. -/
abbrev Staged := List (Nat × BitVec 32 × Bool)

/-- Bytes of a row of D with their enables and poison, from its enabled elements. -/
def rowBytes (w : Nat) (xs : List (Nat × BitVec 32 × Bool)) : List (Byte × Byte × Bool) :=
  let val := xs.foldl (fun n x => n + (x.2.1.toNat % 2 ^ w) * 2 ^ (w * x.1)) 0
  let en := xs.foldl (fun n x => n + (2 ^ w - 1) * 2 ^ (w * x.1)) 0
  let bad := xs.foldl (fun n x => n + (if x.2.2 then (2 ^ w - 1) * 2 ^ (w * x.1) else 0)) 0
  ((leBytes (4 * w) val).zip ((leBytes (4 * w) en).zip (leBytes (4 * w) bad))).map fun b => (b.1, b.2.1, b.2.2 != 0)

/-- Writes the enabled bits of a 32-bit word of a tile: a word written whole without poison is poisoned no more (R52). -/
def Tile.putBits (t : Tile) (n : Nat) (bs : List (Byte × Byte × Bool)) : Tile :=
  { t with
    bytes := bs.zipIdx.foldl (fun m b => if b.1.2.1 = 0 then m
      else m.put (4 * n + b.2) ((m.get 0 (4 * n + b.2) &&& ~~~b.1.2.1) ||| (b.1.1 &&& b.1.2.1))) t.bytes
    poison := if bs.any fun b => b.2.2 then t.poison.put n .data else if bs.all fun b => b.2.1 == 0xFF then t.poison.erase n else t.poison }

/-- Writes the rows of a half into a tile register (TOTILE): 128 bytes a row, only the enabled elements. -/
def Tile.putRows (t : Tile) (w : Nat) (xs : Staged) : Tile :=
  (List.range 32).foldl (fun t i =>
    let row := rowBytes w ((xs.filter fun x => x.1 / 32 = i).map fun x => (x.1 % 32, x.2))
    (List.range (row.length / 4)).foldl (fun t k => t.putBits (32 * i + k) ((row.drop (4 * k)).take 4)) t) t

/-- Whether some of the rows at a scratchpad address meet `n` bytes of a core's scratchpad. -/
def rowsMeet (core target addr rows pitch bytes off n : Nat) : Bool :=
  match spAt core addr with
  | some (k, lo) => k = target && (List.range rows).any fun r => decide (lo + r * pitch < off + n) && decide (off < lo + r * pitch + bytes)
  | none => false

/-- Whether an operation of queue 1 of a core writes one of `n` bytes of a core's scratchpad: only its rows, not what lies between them. -/
def Q1Kind.writesSp (k : Q1Kind) (core target off n : Nat) : Bool :=
  match k with
  | .copy d => (match d.dstAddr with | some a => rowsMeet core target a d.rows d.dpitch d.rowBytes off n | none => false)
  | .tst _ sp base shape =>
    let (rb, rows, _, pitch) := tileShape shape
    sp && rowsMeet core target base.toNat rows pitch rb off n
  | _ => false

/-- Whether a queue-1 operation that has not completed writes the descriptor of an epilogue (R239). -/
def State.descLate (s : State) (core off : Nat) : Bool := s.cores.any fun k => k.2.q1.any fun e => e.kind.writesSp k.1 core off 64

/-- First part of a drain: the descriptor is read once, as the epilogue starts (R239), and the scales; the tile is converted into the staging buffers, and the
accumulator is released (R243). See assumption 45. -/
def State.stageMx (s : State) (pair : Nat) (e : QEntry MxOp) : State :=
  let m := e.kind
  let d := match m.desc with | some x => x.toNat | none => s.epiDesc m.core m.epi
  let r := e.reader m.core 2
  if ([0, 1].map (m.drainCore pair)).any fun k => (s.core k).staging.isSome then s
  else if m.desc.isNone && (s.descLate m.core m.epi || !epiOk d) then s.finish0 pair e 4 0 0 true
  else
    let n := if bitOf d 110 then 2 else 1
    let ptr := fun (on : Bool) (hi lo len : Nat) => if on then [((BitVec.ofNat 64 (bitsOf d hi lo) : DWord), len)] else []
    let (s1, reads) := s.readRanges r (ptr (bitOf d 107) 191 128 (64 * n) ++ ptr (bitOf d 108) 255 192 (32 * n) ++ ptr (bitOf d 109) 319 256 128)
    if reads.contains .wait then s1.setMx pair { e with kind := { m with paused := s1.onToken m.core e.id, desc := some (BitVec.ofNat 512 d) } }
    else match readsFault reads with
    | some cls => s1.finish0 pair e 1 cls 0 true
    | none =>
      let data := reads.map ReadOut.data
      let rows := if bitOf d 107 then data.getD 0 [] else []
      let cols := if bitOf d 108 then data.getD (bitOf d 107).toNat [] else []
      let bias := if bitOf d 109 then data.getLastD [] else []
      let ty := (epiType (bitsOf d 100 96)).getD .f32
      let half := fun (h : Nat) =>
        let a := s1.accOf pair h m.acc
        (List.range 1024).filterMap fun x =>
          if bitOf (bitsOf d 511 448) (32 * h + x / 32) && bitOf (bitsOf d 415 384) (x % 32) then
            let y := epiElem d ty (epiMode d e.rmode) rows cols bias (32 * h + x / 32) (x % 32) (a.elems.get 0 x) (a.poison.contains x)
            some (x, y)
          else none
      let stage := fun (st : State × QEntry MxOp) (h : Nat) =>
        let k := m.drainCore pair h
        let xs := half h
        let (s2, e2) := st.1.countElems k st.2 (xs.map fun x => (x.1 + 1024 * h, x.2.1.exc))
        let staged : Staged := xs.map fun x => (x.1, BitVec.ofNat 32 x.2.1.bits, x.2.2)
        let c := s2.core k
        let s3 := s2.setCore k { c with staging := some (e.id, staged) }
        let s4 := if bitOf d 111 then
            let tt := bitsOf d 114 112
            let t0 := s3.tile k tt
            s3.setTile k tt (({ t0 with tag := ty.tag } : Tile).putRows (epiBits ty) staged)
          else s3
        (s4, e2)
      let (s5, e5) := [0, 1].foldl stage (s1, e)
      s5.setMx pair { e5 with kind := { e5.kind with staged := true, paused := false, desc := some (BitVec.ofNat 512 d) } }

/-- What storing one row does. -/
inductive RowOut where
  | done (s : State)
  | wait (s : State)
  | fault (s : State) (cls : Nat)

/-- Translates the bytes of a row that are enabled, in order: only those are stored. -/
def State.locateEnabled (s : State) (r : Reader) (base : DWord) (row : List (Byte × Byte × Bool)) : State × Found :=
  let units := ((row.zipIdx.filter fun b => b.1.2.1 ≠ 0).map fun b => (base + BitVec.ofNat 64 b.2).toNat / 16 * 16).eraseDups
  let on := (row.zipIdx.filter fun b => b.1.2.1 ≠ 0).map fun b => (base + BitVec.ofNat 64 b.2).toNat
  units.foldl (fun acc u =>
    let xs := on.filter fun a => a / 16 * 16 = u
    match acc.2, acc.1.locate r true (BitVec.ofNat 64 u) 16 with
    | .at_ ls, (s1, .at_ l) => (s1, .at_ (ls ++ xs.map fun a => l.getD (a % 16) (.phys 0)))
    | .at_ _, (s1, y) => (s1, y)
    | y, (s1, .wait) => (s1, match y with | .fault .. => y | _ => .wait)
    | y, (s1, _) => (s1, y)) (s, .at_ [])

/-- Stores one row of D from staging. -/
def State.storeRow (s : State) (e : QEntry MxOp) (d : Nat) (row : List (Byte × Byte × Bool)) (i : Nat) : RowOut :=
  let base : DWord := BitVec.ofNat 64 (bitsOf d 63 0 + i * bitsOf d 95 64)
  match s.locateEnabled (e.reader e.kind.core 2) base row with
  | (s1, .wait) => .wait s1
  | (s1, .fault cls _) => .fault s1 cls
  | (s1, .at_ ls) =>
    if ls.any fun l => match l with | .gen .. => true | _ => false then .fault s1 5
    else
      let ps := ls.map fun l => match l with | .phys pa => pa | .gen .. => 0
      let lines := (ps.map fun pa => pa / 128).eraseDups
      if !s1.writableAll e.part lines then .wait (s1.askGuests lines)
      else
        let s1 := s1.noteLines e.part (some e.launch) (lines.map LineKey.phys)
        let ws := ps.zip (row.filter fun b => b.2.1 != 0)
        let badWords := ((ws.filter fun x => x.2.2.2).map fun x => x.1 / 8).eraseDups
        let write := fun (x : Nat × Byte × Byte × Bool) => (⟨x.1, x.2.1, x.2.2.1⟩ : ByteWrite)
        let good := (ws.filter fun x => !badWords.contains (x.1 / 8)).map write
        let rest := (ws.filter fun x => badWords.contains (x.1 / 8)).map write
        let s2 := if good.isEmpty then s1 else s1.performWrites e.part good false false none
        .done (if rest.isEmpty then s2 else s2.performWrites e.part rest true false none)

/-- Stores the rows from the next one on; at most `fuel` rows. The operation completes after the last. See assumption 45. -/
def State.storeRows (pair d : Nat) (ty : Ty) : Nat → QEntry MxOp → State → State
  | 0, e, s => s.setMx pair e
  | fuel + 1, e, s =>
    let m := e.kind
    let free := fun (st : State) => [0, 1].foldl (fun (st : State) h =>
      let k := m.drainCore pair h
      st.setCore k { st.core k with staging := none }) st
    if m.row ≥ 64 then
      (match m.rotten with
      | some r => (free s).finish0 pair e 2 6 r true
      | none => (free s).finish0 pair e 0 0 0 true)
    else
      let staged := match (s.core (m.drainCore pair (m.row / 32))).staging with | some (_, xs) => xs | none => []
      let xs := (staged.filter fun x => x.1 / 32 = m.row % 32).map fun x => (x.1 % 32, x.2)
      let rotten := if m.rotten.isNone && xs.any fun x => x.2.2 then some m.row else m.rotten
      if xs.isEmpty || bitsOf d 63 0 = 0 then
        State.storeRows pair d ty fuel { e with kind := { m with row := m.row + 1, rotten := rotten } } s
      else match s.storeRow e d (rowBytes (epiBits ty) xs) m.row with
      | .done s1 => State.storeRows pair d ty fuel { e with kind := { m with row := m.row + 1, rotten := rotten, paused := false } } s1
      | .wait s1 => s1.setMx pair { e with kind := { m with paused := s1.onToken m.core e.id } }
      | .fault s1 cls => (free s1).finish0 pair e 1 cls m.row true

/-- EPILOGUE_DRAIN: the oldest operation, once its chunks are done, is converted into staging, then stored (R243). -/
def execEpilogueDrain (pair : Nat) (s : State) : Host.Outcome State Fault Refusal :=
  .next (match s.queue0 pair with
  | [] => s
  | e :: _ =>
    let m := e.kind
    if !m.started || m.p < m.chunks || !m.drains then s
    else if !m.staged then s.stageMx pair e
    else
      let d := match m.desc with | some x => x.toNat | none => 0
      (State.storeRows pair d ((epiType (bitsOf d 100 96)).getD .f32) 65 e s).settleMx pair)

end Sys2Proof.Machine
end

