-- ==== Sys2Proof/Machine/Narrow.lean ====
section
/-!
DEFINITION. Group 2, first part: packed narrow arithmetic, conversions, FP8 dot products and tags (R166 to R169, R172).
-/
namespace Sys2Proof.Machine

/-! ### Packed arithmetic (R167) -/

/-- Bits of an element of a packed type. -/
def packBits (ty : Ty) : Nat :=
  match ty with
  | .s8 | .n8 => 8
  | .s16 | .n16 => 16
  | t => (fmtOf t).bits

/-- An operation on packed words: on integers by value, on floats by encoding. -/
def packPlan (ty : Ty) (onInt : Int → Int → Int → LaneOut) (onFloat : Nat → Nat → Nat → FRes) : Plan :=
  let n := packBits ty
  let one := fun (x : LaneIn) (i : Nat) =>
    if ty.isPackedInt then
      let r := onInt (packedElem ty n x.a i) (packedElem ty n x.b i) (packedElem ty n x.d i)
      (⟨r.val, r.exc⟩ : FRes)
    else onFloat (elem n x.a i) (elem n x.b i) (elem n x.d i)
  floatPlan ty fun x => packElems n (32 / n) (one x)

/-- PADD. DESIGN CHOICE: an integer element that .sat clamps counts SAT alone, as R167 says, here and in PMUL and PFMA
(assumption 34). -/
def execPadd (o : Ops) (ty : Ty) (rnd : Rnd) (sat : Bool) (s : State) : Host.Outcome State Fault Refusal :=
  withCtx s fun c => c.alu o (packPlan ty (fun a b _ => fitIn (tySigned ty) (packBits ty) sat (a + b))
    (fun a b _ => (fmtOf ty).add (c.mode rnd) sat false a b))

/-- PMUL. See assumption 34. -/
def execPmul (o : Ops) (ty : Ty) (rnd : Rnd) (sat : Bool) (s : State) : Host.Outcome State Fault Refusal :=
  withCtx s fun c => c.alu o (packPlan ty (fun a b _ => fitIn (tySigned ty) (packBits ty) sat (a * b))
    (fun a b _ => (fmtOf ty).times (c.mode rnd) sat false a b))

/-- PFMA. See assumption 34. -/
def execPfma (o : Ops) (ty : Ty) (rnd : Rnd) (sat : Bool) (s : State) : Host.Outcome State Fault Refusal :=
  withCtx s fun c => c.alu o { packPlan ty (fun a b d => fitIn (tySigned ty) (packBits ty) sat (a * b + d))
    (fun a b d => (fmtOf ty).fma (c.mode rnd) sat false a b d) with readD := true }

/-- PMIN. -/
def execPmin (o : Ops) (ty : Ty) (s : State) : Host.Outcome State Fault Refusal :=
  withCtx s fun c => c.alu o (packPlan ty (fun a b _ => { val := wrapN (packBits ty) (min a b) })
    (fun a b _ => (fmtOf ty).minMax false false a b))

/-- PMAX. -/
def execPmax (o : Ops) (ty : Ty) (s : State) : Host.Outcome State Fault Refusal :=
  withCtx s fun c => c.alu o (packPlan ty (fun a b _ => { val := wrapN (packBits ty) (max a b) })
    (fun a b _ => (fmtOf ty).minMax false true a b))

/-! ### PCVT (R168) -/

/-- A type of PCVT. -/
inductive CvtTy where
  | float (f : Fmt)
  | int (signed : Bool) (n : Nat)
  | e8m0
  deriving DecidableEq, Repr

/-- The type that a code and its E8M0 bit name. -/
def cvtTy (ty : Ty) (e8 : Bool) : CvtTy :=
  if e8 then .e8m0
  else match ty with
    | .s32 => .int true 32
    | .n32 => .int false 32
    | .s16 => .int true 16
    | .n16 => .int false 16
    | .s8 => .int true 8
    | .n8 => .int false 8
    | t => .float (fmtOf t)

/-- The tag of a type of PCVT. -/
def cvtTag (ty : Ty) (e8 : Bool) : BitVec 5 := if e8 then 16 else ty.tag

/-- The value of a source element. -/
def cvtValue (k : CvtTy) (flush : Bool) (x : Nat) : FVal :=
  match k with
  | .float f => f.flushed flush x
  | .int signed n => FVal.ofInt (if signed then sVal n x else x)
  | .e8m0 => e8m0Value x

/-- conv of R168: `flushIn` and `flushOut` say whether FLUSH applies to the two types. See assumption 58. -/
def cvtElem (src dst : CvtTy) (mode : Nat) (sat flushIn flushOut : Bool) (x : Nat) : FRes :=
  let v := cvtValue src flushIn x
  match src, dst with
  | .int signed n, .int dsigned dn =>
    let r := fitIn dsigned dn sat (if signed then sVal n x else x)
    ⟨r.val, r.exc ++ (if r.exc.isEmpty then [] else [.nx])⟩
  | _, .int signed n =>
    let r := toIntSat mode signed n v
    ⟨r.bits, nanExc [v] ++ r.exc⟩
  | _, .e8m0 =>
    let r := toE8m0 mode sat v
    ⟨r.bits, nanExc [v] ++ r.exc⟩
  | .float f, .float g => finish g mode (sat && decide (g.bits ≤ f.bits)) flushOut [v] (v, [])
  | _, .float g => finish g mode sat flushOut [v] (v, [])

/-- The result word: the whole of it, or the elements that SEL names within d. -/
def cvtWord (md ms pick : Nat) (conv : Nat → FRes) (x : LaneIn) : LaneOut :=
  let nd := 32 / md
  let ns := 32 / ms
  if md ≤ ms then packElems nd md fun i => conv (elem ns x.a (pick * md + i))
  else
    let src := fun (i : Nat) => if i < ms then elem ns x.a i else elem ns x.b (i - ms)
    packElems nd md fun i =>
      if pick * 2 * ms ≤ i && i < pick * 2 * ms + 2 * ms then conv (src (i - pick * 2 * ms)) else ⟨elem nd x.d i, []⟩

/-- PCVT. -/
def execPcvt (o : Ops) (ty : Ty) (rnd : Rnd) (sat : Bool) (sty : Ty) (pick : BitVec 3) (de8 se8 : Bool) (s : State) :
    Host.Outcome State Fault Refusal :=
  withCtx s fun c =>
    let flushes := fun (t : Ty) (e8 : Bool) => !e8 && c.flushes t
    let conv := cvtElem (cvtTy sty se8) (cvtTy ty de8) (c.mode rnd) sat (flushes sty se8) (flushes ty de8)
    let src := fun (_ : Nat) => if se8 then some [0, 16] else sty.tags
    c.alu o {
      tyA := .b32, tagA := src, tagB := src, tagD := fun _ => some [0, (cvtTag ty de8).toNat]
      readD := pcvtPartial ty sty de8 se8, tagOut := fun _ => cvtTag ty de8
      run := cvtWord (cvtCount ty de8) (cvtCount sty se8) pick.toNat conv }

/-! ### FP8 dot product (R169) -/

/-- The type of SRCB: the other FP8 format under .mix. -/
def mixFp8 (ty : Ty) (mix : Bool) : Ty := if !mix then ty else if ty = .e4m3 then .e5m2 else .e4m3

/-- PDOT4. -/
def execPdot4 (o : Ops) (ty : Ty) (rnd : Rnd) (mix : Bool) (s : State) : Host.Outcome State Fault Refusal :=
  withCtx s fun c =>
    let tb := mixFp8 ty mix
    let vals := fun (t : Ty) (x : Nat) => (List.range 4).map fun i => (fmtOf t).value (elem 8 x i)
    c.alu o { floatPlan ty (fun x => dotFloat (c.mode rnd) x.d (vals ty x.a) (vals tb x.b)) with
      tyB := tb, tagB := fun _ => tb.tags, tyD := .f32, tagD := fun _ => Ty.f32.tags, readD := true, tagOut := fun _ => 3 }

/-! ### RETAG (R172) -/

/-- Retags a vector register: void without an active thread; only its blocks and the guard are checked. -/
def Ctx.retagVector (c : Ctx) (o : Ops) (n : Nat) (tag : BitVec 5) : State :=
  if c.active o.guard = 0 then c.next c.s
  else if c.w.outOfBlocks { reg := o.dst, field := o.dst } then c.trap { cause := 2, oper := o.dst.bits.toNat }
  else c.vector o.guard [] fun _ => c.done (c.w.setV n { c.w.v n with tag := tag })

/-- RETAG: bits, full/empty and poison stay. -/
def execRetag (o : Ops) (tag : BitVec 5) (s : State) : Host.Outcome State Fault Refusal :=
  withCtx s fun c =>
    match o.dst with
    | .v n => c.retagVector o n.toNat tag
    | .t n => c.uniform o.guard [] (
        let k := c.s.core c.core
        let x := k.tiles.get Tile.fresh n.toNat
        c.next (c.s.setCore c.core { k with tiles := k.tiles.put n.toNat { x with tag := tag } }))
    | _ => c.next c.s

end Sys2Proof.Machine
end

