-- ==== Sys2Proof/Machine/Codebook.lean ====
section
/-!
DEFINITION. Codebook conversions against a tile register: CBDEC and CBENC (R61, R170, R171).
-/
namespace Sys2Proof.Machine

/-! ### The table as it stands at issue -/

/-- The TLD or TCB that loads a tile register now: the head of queue 1, when nothing stands before it and what it reads is at hand; with the state
after the read, and the register as that leaves it. Operations behind it have not begun (R105). See assumption 47. -/
def State.loading (s : State) (core n : Nat) : Option (QEntry Q1Kind × State × Tile) :=
  match (s.core core).q1 with
  | [] => none
  | e :: _ =>
    match e.kind.loads core with
    | some (m, toff, cs) =>
      if m ≠ n || !e.clear s core || !(e.unentered s core).isEmpty then none
      else match s.readCells (e.reader core) cs with
      | (s1, some ins) => some (e, s1, (s.tile core n).loadRest toff ins e.got)
      | _ => none
    | none => none

/-- The words of a table that the operation which loads it has written by now. See assumption 47. -/
def Ctx.seenWords (c : Ctx) : List Nat := (List.range 8).filter fun w => Config.seesNew (8 * c.s.freeCtr + w)

/-- The table as an instruction reads it: each of its eight words, with its poison, is the one before or the one after the operation that loads
it (R170). See assumption 47. -/
def Ctx.table (c : Ctx) (n : Nat) : Tile :=
  let old := c.s.tile c.core n
  match c.s.loading c.core n with
  | some (_, _, new) => c.seenWords.foldl (fun (t : Tile) w => t.putWord w (valuesOf (new.read (4 * w) 4)) (Tab.find new.poison w)) old
  | none => old

/-- The state in which that operation has written the words that the instruction finds new: it reads their source no more. See assumption 47. -/
def Ctx.tabled (c : Ctx) (n : Nat) : State :=
  match c.s.loading c.core n with
  | some (e, s1, _) =>
    let s2 := s1.setTile c.core n (c.table n)
    let k := s2.core c.core
    s2.setCore c.core { k with q1 := k.q1.map fun x => if x.id = e.id then { x with got := (e.got ++ c.seenWords).eraseDups } else x }
  | none => c.s

/-- An instruction that reads a tile register: TAG when the tile carries neither BF16X2 nor RAW, among the tag checks of R54.
A form that names no vector register is uniform and writes nothing. -/
def Ctx.withTile (c : Ctx) (o : Ops) (us : List Use) (n : Nat) (k : Mask → State) : State :=
  let tag := (c.s.tile c.core n).tag
  let issues := if o.anyV then c.active o.guard ≠ 0 else o.guard ≠ Guard.never
  if issues && c.w.stray.isNone && !(us.any fun u => c.w.outOfBlocks u) && !(us.any fun u => c.w.tagFails u) && tag ≠ 5 && tag ≠ 0 then c.trap { cause := 3 }
  else if o.anyV then c.vector o.guard us k
  else c.uniform o.guard us (c.next c.s)

/-- The origin that a table's poisoned words carry. -/
def Tile.tableOrigin (t : Tile) : Origin := if t.poison.any fun p => p.1 < 8 && p.2 == .data then .data else .fault

/-- Runs a codebook instruction of a shape against a tile register, where `bad` says which threads the table poisons. See assumption 47. -/
def Ctx.runTable (c : Ctx) (o : Ops) (pl : Plan) (n : Nat) (bad : Nat → Bool) (act : Mask) : State :=
  let table := c.table n
  let own := Mask.ofPred fun t => act.getLsbD t && c.lanePoison o pl t
  let far := Mask.ofPred fun t => act.getLsbD t && bad t
  let c1 : Ctx := { c with s := (c.tabled n).draw }
  c1.commit o.dst act
    { outs := lanes act fun t => pl.run (c.laneIn o pl t), poison := own ||| far
      origin := if (far ≠ 0 && table.tableOrigin == .data) || (own ≠ 0 && c.laneOrigin o pl act == .data) then .data else .fault
      tagOut := pl.tagOut }

/-! ### CBDEC -/

/-- The codes that CBDEC decodes: nibbles 2 SEL and 2 SEL + 1. -/
def decCode (pick x e : Nat) : Nat := elem 4 x (2 * pick + e)

/-- CBDEC. -/
def execCbdec (o : Ops) (pick : BitVec 2) (tile : BitVec 3) (s : State) : Host.Outcome State Fault Refusal :=
  withCtx s fun c =>
    let t := c.table tile.toNat
    let book := t.codebook
    let pl : Plan := {
      tyA := .b32, tagA := fun _ => some [0, 9], tagOut := fun _ => 5
      run := fun x => { val := ((book.getD (decCode pick.toNat x.a 0) (0, false)).1).toNat +
        2 ^ 16 * ((book.getD (decCode pick.toNat x.a 1) (0, false)).1).toNat } }
    c.withTile o (pl.uses o) tile.toNat fun act => c.runTable o pl tile.toNat (fun i =>
      let x := (c.laneIn o pl i).a
      (book.getD (decCode pick.toNat x 0) (0, false)).2 || (book.getD (decCode pick.toNat x 1) (0, false)).2) act

/-! ### CBENC -/

/-- The lowest index of a list that satisfies a test. -/
def lowestIdx (l : List FVal) (f : FVal → Bool) : Option Nat := (l.zipIdx.find? fun x => f x.1).map (·.2)

/-- The distance of two finite values, in units of 2^e. -/
def fdist (e : Int) (x y : FVal) : Nat := (x.scaled e - y.scaled e).natAbs

/-- The lowest index of the finite entry nearest to a finite value. -/
def nearest (l : List FVal) (v : FVal) : Option Nat :=
  let e := (v :: l).foldl (fun m x => match x with | .fin _ _ k => min m k | _ => m) (0 : Int)
  let xs := l.zipIdx.filter fun x => match x.1 with | .fin .. => true | _ => false
  (xs.foldl (fun best x => match best with
    | none => some x
    | some b => if fdist e v x.1 < fdist e v b.1 then some x else some b) none).map (·.2)

/-- The lowest index of the greatest finite entry, or of the least. -/
def extreme (l : List FVal) (wantMax : Bool) : Option Nat :=
  let xs := l.zipIdx.filter fun x => match x.1 with | .fin .. => true | _ => false
  (xs.foldl (fun best x => match best with
    | none => some x
    | some b => if (if wantMax then b.1.lt x.1 else x.1.lt b.1) then some x else some b) none).map (·.2)

/-- The code of a value against a table, with the exceptions it counts (R171). -/
def encodeCode (l : List FVal) (v : FVal) : FRes :=
  let pick : Option Nat × List XClass := match v with
    | .nan _ => (lowestIdx l FVal.isNaN, [])
    | .inf neg =>
      (match lowestIdx l fun x => x == .inf neg with
      | some k => (some k, [])
      | none => (match extreme l (!neg) with | some k => (some k, [.sat]) | none => (none, [])))
    | .fin .. =>
      (match nearest l v with
      | some k => (some k, [])
      | none => (match lowestIdx l fun x => match x with | .inf _ => true | _ => false with | some k => (some k, [.sat]) | none => (none, [])))
  let k := pick.1.getD 0
  let missing := if pick.1.isNone then [XClass.inv] else []
  let nx := if v.isNaN || (l.getD k (.nan false)).same v then [] else [XClass.nx]
  ⟨k, nanExc [v] ++ pick.2 ++ missing ++ nx⟩

/-- CBENC. -/
def execCbenc (o : Ops) (h : Bool) (tile : BitVec 3) (s : State) : Host.Outcome State Fault Refusal :=
  withCtx s fun c =>
    let t := c.table tile.toNat
    let l := t.codebook.map fun e => bf16.value e.1.toNat
    let src := fun (_ : Nat) => some [0, 5]
    let run := fun (x : LaneIn) =>
      let rs := [elem 16 x.a 0, elem 16 x.a 1, elem 16 x.b 0, elem 16 x.b 1].map fun v => encodeCode l (bf16.flushed c.flush v)
      let half := rs.foldr (fun r acc => r.bits + 16 * acc) 0
      ({ val := if h then x.d % 2 ^ 16 + 2 ^ 16 * half else x.d / 2 ^ 16 * 2 ^ 16 + half, exc := rs.flatMap (·.exc) } : LaneOut)
    let pl : Plan := { tyA := .b32, tagA := src, tagB := src, tagD := fun _ => some [0, 9], readD := true, tagOut := fun _ => 9, run := run }
    c.withTile o (pl.uses o) tile.toNat fun act => c.runTable o pl tile.toNat (fun _ => t.poison.any fun p => p.1 < 8) act

end Sys2Proof.Machine
end

