-- ==== Sys2Proof/Machine/Traversal.lean ====
section
/-!
DEFINITION. Traversal: the box and triangle tests BOXT and TRIT (R247 to R255), and the traversal stacks (R256 to R259).
-/
namespace Sys2Proof.Machine

/-! ### Exact numbers -/

/-- A rational number, or an infinity. -/
inductive ERat where
  | inf (neg : Bool)
  | rat (num : Int) (den : Nat)
  deriving DecidableEq, Repr

/-- Exact order. -/
def ERat.lt : ERat → ERat → Bool
  | .inf a, .inf b => a && !b
  | .inf a, .rat _ _ => a
  | .rat _ _, .inf b => !b
  | .rat a b, .rat c d => decide (a * (d : Int) < c * (b : Int))

/-- The larger of two. -/
def ERat.max (x y : ERat) : ERat := if x.lt y then y else x
/-- The smaller of two. -/
def ERat.min (x y : ERat) : ERat := if y.lt x then y else x

/-- A finite FP32 value in units of 2^-149. -/
def FVal.units (v : FVal) : Int := v.scaled (-149)

/-- An FP32 value that is not NaN. -/
def FVal.toERat : FVal → ERat
  | .inf neg => .inf neg
  | v => .rat (FVal.units v) (2 ^ 149)

/-- (b - o) / d for finite o and d, d not zero (R251). -/
def slabAt (b o d : FVal) : ERat :=
  match b with
  | .inf neg => .inf (neg != d.neg)
  | v =>
    let n := FVal.units v - FVal.units o
    let k := FVal.units d
    if k < 0 then .rat (-n) k.natAbs else .rat n k.natAbs

/-- One rounding to FP32. -/
def ERat.round (mode : Nat) : ERat → FVal
  | .inf neg => .inf neg
  | .rat n d =>
    let x := n.natAbs * 2 ^ 600
    fp32.value (fp32.fromMag mode false false (decide (n < 0)) (x / d) (-600) (x % d != 0)).bits

/-! ### Rays (R248) -/

/-- A ray: origin, direction, tmin and tmax. -/
structure Ray where
  o    : List FVal
  d    : List FVal
  tmin : FVal
  tmax : FVal
  deriving DecidableEq, Repr

/-- Component of a list of values. -/
def axisOf (l : List FVal) (i : Nat) : FVal := l.getD i (.nan false)

/-- Whether a value is finite. -/
def FVal.isFin : FVal → Bool
  | .fin _ _ _ => true
  | _ => false

/-- The ray of eight registers; none when it misses everything. -/
def rayOf (ws : List Word) : Option Ray :=
  let v := fun (i : Nat) => fp32.value (ws.getD i 0).toNat
  let r : Ray := ⟨[v 0, v 1, v 2], [v 4, v 5, v 6], v 3, v 7⟩
  if r.o.all FVal.isFin && r.d.all FVal.isFin && !r.tmin.isNaN && !r.tmax.isNaN && !r.tmax.lt r.tmin then some r else none

/-! ### BOXT (R250, R251) -/

/-- FP32 value number i of some bytes. -/
def f32At (bs : List Byte) (i : Nat) : FVal := fp32.value (leNat ((bs.drop (4 * i)).take 4))

/-- Word number i of some bytes. -/
def wordAt (bs : List Byte) (i : Nat) : Word := BitVec.ofNat 32 (leNat ((bs.drop (4 * i)).take 4))

/-- T of one box, given its bounds. -/
def boxT (r : Ray) (lo hi : List FVal) : FVal :=
  let miss := FVal.inf false
  if lo.any FVal.isNaN || hi.any FVal.isNaN then miss
  else if (List.range 3).any fun a => (axisOf hi a).lt (axisOf lo a) then miss
  else if (List.range 3).any fun a => (axisOf r.d a).isZero && ((axisOf r.o a).lt (axisOf lo a) || (axisOf hi a).lt (axisOf r.o a)) then miss
  else
    let axes := (List.range 3).filter fun a => !(axisOf r.d a).isZero
    let slab := fun (a : Nat) =>
      let t1 := slabAt (axisOf lo a) (axisOf r.o a) (axisOf r.d a)
      let t2 := slabAt (axisOf hi a) (axisOf r.o a) (axisOf r.d a)
      (t1.min t2, t1.max t2)
    let near := axes.foldl (fun x a => x.max (slab a).1) r.tmin.toERat
    let far := axes.foldl (fun x a => x.min (slab a).2) r.tmax.toERat
    let n := near.round 3
    if (far.round 2).lt n then miss else n

/-- FP32 bits of a value, −0 as +0. -/
def plusBits (v : FVal) : Word :=
  let b := (fp32.fromVal 0 false false v).bits
  BitVec.ofNat 32 (if b = 0x80000000 then 0 else b)

/-- Inserts an index into a list ascending by a key, after its equals. -/
def insertBy (key : Nat → FVal) (i : Nat) : List Nat → List Nat
  | [] => [i]
  | j :: rest => if (key i).lt (key j) then i :: j :: rest else j :: insertBy key i rest

/-- The eight results of BOXT from a ray and the 128 bytes of a node. -/
def boxResult (sort : Bool) (ray : List Word) (node : List Byte) : List Word :=
  let vals := fun (i h : Nat) => (List.range 3).map fun a => f32At node (6 * i + 3 * h + a)
  let ts : List FVal := (List.range 4).map fun i => match rayOf ray with
    | some r => boxT r (vals i 0) (vals i 1)
    | none => .inf false
  let t := fun (i : Nat) => ts.getD i (.inf false)
  let order := if sort then (List.range 4).foldl (fun l i => insertBy t i l) [] else List.range 4
  (order.map fun i => plusBits (t i)) ++ order.map fun i => wordAt node (24 + i)

/-! ### TRIT (R252 to R255) -/

/-- One rounding to FP32 by RNE. -/
def rne (v : FVal) : FVal := fp32.value (fp32.fromVal 0 false false v).bits

/-- A quotient rounded to FP32 by RNE. See assumption 19. -/
def divF32 (a b : FVal) : FVal :=
  match a, b with
  | .nan _, _ | .inf _, .nan _ | .fin _ _ _, .nan _ => .nan false
  | .inf _, .inf _ => .nan false
  | .inf s, .fin t _ _ => .inf (s != t)
  | .fin s _ _, .inf t => .fin (s != t) 0 0
  | .fin s m e, .fin t n k =>
    if n = 0 then (if m = 0 then .nan false else .inf (s != t))
    else
      let x := m * 2 ^ 80
      fp32.value (fp32.fromMag 0 false false (s != t) (x / n) (e - k - 80) (x % n != 0)).bits

/-- An exact sum. See assumption 19. -/
def exactSum (xs : List FVal) : FVal := (sumVals 0 xs).1
/-- An exact product. -/
def exactMul (a b : FVal) : FVal := (a.mul b).1
/-- An exact difference. -/
def exactSub (a b : FVal) : FVal := exactSum [a, b.negate]

/-- A vertex after the shear (R253). -/
structure Sheared where
  x : FVal
  y : FVal
  z : FVal
  deriving DecidableEq, Repr

/-- Shears a vertex. -/
def shear (r : Ray) (kx ky kz : Nat) (sx sy sz : FVal) (p : List FVal) : Sheared :=
  let q := fun (a : Nat) => rne (exactSub (axisOf p a) (axisOf r.o a))
  ⟨rne (exactSub (q kx) (exactMul sx (q kz))), rne (exactSub (q ky) (exactMul sy (q kz))), rne (exactMul sz (q kz))⟩

/-- The exact edge function a.x × b.y − a.y × b.x. -/
def edgeFn (a b : Sheared) : FVal := exactSub (exactMul a.x b.y) (exactMul a.y b.x)

/-- Whether the edge from p to q is top-left for a sign (R254). -/
def topLeft (neg : Bool) (p q : Sheared) : Bool :=
  let flip := fun (v : FVal) => if neg then v.negate else v
  let ex := flip (exactSub q.x p.x)
  let ey := flip (exactSub q.y p.y)
  let zero : FVal := .fin false 0 0
  zero.lt ey || (ey.isZero && ex.lt zero)

/-- Whether an edge function turns the ray away: its value rounded, taken again from the exact difference when that is zero,
which FP64 holds (R253). See assumption 19. -/
def edgeMisses (neg : Bool) (e exact : FVal) (p q : Sheared) : Bool :=
  let x := if e.isZero then exact else e
  if x.isZero then !topLeft neg p q else !x.isNaN && x.neg != neg

/-- The magnitude of a value. -/
def FVal.mag (v : FVal) : FVal := if v.neg then v.negate else v

/-- x <= y, false for NaN. -/
def FVal.le (x y : FVal) : Bool := !x.isNaN && !y.isNaN && !y.lt x

/-- What TRIT writes on a miss. -/
def triMiss : List Word := [0x7F800000, 0, 0, 0xFFFFFFFF]

/-- The four results of TRIT from a ray and the 48 bytes of a record. A comparison with NaN misses (assumption 19). -/
def triResult (ray : List Word) (bs : List Byte) : List Word :=
  let vertex := fun (i : Nat) => (List.range 3).map fun a => f32At bs (3 * i + a)
  let vs := [vertex 0, vertex 1, vertex 2]
  match rayOf ray with
  | none => triMiss
  | some r =>
    if !(vs.all fun v => v.all FVal.isFin) then triMiss
    else
      let m := fun (a : Nat) => (axisOf r.d a).mag
      let kz := if (m 0).lt (m 1) then (if (m 1).lt (m 2) then 2 else 1) else if (m 0).lt (m 2) then 2 else 0
      let k1 := (kz + 1) % 3
      let k2 := (k1 + 1) % 3
      let dz := axisOf r.d kz
      let down := dz.neg && !dz.isZero
      let kx := if down then k2 else k1
      let ky := if down then k1 else k2
      let p := vs.map (shear r kx ky kz (divF32 (axisOf r.d kx) dz) (divF32 (axisOf r.d ky) dz) (divF32 (.fin false 1 0) dz))
      let a := p.getD 0 ⟨.nan false, .nan false, .nan false⟩
      let b := p.getD 1 a
      let c := p.getD 2 a
      let (eu, ev, ew) := (edgeFn c b, edgeFn a c, edgeFn b a)
      let (u, v, w) := (rne eu, rne ev, rne ew)
      let det := rne (exactSum [u, v, w])
      let neg := det.neg
      let t := rne (exactSum [exactMul u a.z, exactMul v b.z, exactMul w c.z])
      let st := if neg then t.negate else t
      if det.isZero || det.isNaN then triMiss
      else if edgeMisses neg u eu b c || edgeMisses neg v ev c a || edgeMisses neg w ew a b then triMiss
      else if !((exactMul r.tmin det.mag).le st && st.le (exactMul r.tmax det.mag)) then triMiss
      else [plusBits (divF32 t det), plusBits (divF32 v det), plusBits (divF32 w det), wordAt bs 9]

/-! ### BOXT and TRIT at issue (R249) -/

/-- The uses of a tester: the ray, the pointer, the destinations. -/
def testerUses (o : Ops) (n : Nat) : List Use :=
  runUses o.a 8 o.feA true false false (fun _ => some [0, 3]) ++ baseUses o.b o.feB false ++
    runUses o.dst n false false true false fun _ => none

/-- Starts a node or triangle fetch: the rays are read, the destinations become empty. A pointer that is poisoned, misaligned
or not canonical poisons its thread. -/
def Ctx.startTester (c : Ctx) (o : Ops) (tri sort : Bool) (act : Mask) : State :=
  let n := if tri then 4 else 8
  let align := if tri then 16 else 128
  let words := fun (t : Nat) => (List.range 8).map fun i => BitVec.ofNat 32 (c.w.value c.f.exec (o.a.plus i) .b32 0 t)
  let ptr := fun (t : Nat) =>
    let p := c.globalAddr o o.b t
    if c.w.poisonAt o.b true t || p.toNat % align ≠ 0 || !canonical p then none else some p
  let rays := act.threads.map fun t => (t, ptr t, words t)
  let bad := fun (t : Nat) => (List.range 8).any fun i => c.w.poisonAt (o.a.plus i) false t
  let poison := Mask.ofPred fun t => act.getLsbD t && bad t
  let org : Origin := if (List.range 8).any fun i => c.w.originOf (o.a.plus i) == .data &&
      act.threads.any fun t => c.w.poisonAt (o.a.plus i) false t then .data else .fault
  c.voted act (Flip.ofWords n) fun s1 flip =>
    let flips : Tab Flip := act.threads.filterMap fun t => if flip t = 0 then none else some (t, flip t)
    let tagOf := fun (i : Nat) => if i < n - n / 2 + (if tri then 1 else 0) then (3 : BitVec 5) else 2
    let w1 := (accessRegs o.dst .b32 n).zipIdx.foldl (fun w r => w.markEmpty r.1 (tagOf r.2)) c.w
    let s2 := (s1.setWave c.core c.slot w1).addOps c.core [{ c.op (.node o.dst tri sort rays poison org flips) with id := s1.uid }]
    c.next (s2.touchAccs c.core c.w.part c.w.uid c.w.depth (fun k => ((c.s.core c.core).l1Hit false 0 k).isSome)
      (rays.filterMap fun a => a.2.1.map fun p => (p, if tri then 48 else 128)))

/-- BOXT. -/
def execBoxt (o : Ops) (sort : Bool) (s : State) : Host.Outcome State Fault Refusal :=
  withCtx s fun c => c.vector o.guard (testerUses o 8) fun act => c.memory (c.spoil.startTester o false sort act)

/-- TRIT. -/
def execTrit (o : Ops) (s : State) : Host.Outcome State Fault Refusal :=
  withCtx s fun c => c.vector o.guard (testerUses o 4) fun act => c.memory (c.spoil.startTester o true false act)

/-! ### Traversal stacks (R256 to R259) -/

/-- The depth of a thread's stack. -/
def Wave.stackDepth (w : Wave) (t : Nat) : Nat := w.tdepth.get 0 t

/-- The offset of entry i of thread t in a stack area at a base. -/
def stackEntry (base width i t : Nat) : Nat := base + 4 * (width * i + t)

/-- The checks of a stack access (R256): WINDOW, MISALIGN, then the scoreboard and the wave's earlier accesses for each
entry touched. `k` takes the offset of the base. -/
def Ctx.stackArea (c : Ctx) (o : Ops) (act : Mask) (poisoned out : Bool) (entries : List (Nat × Nat)) (k : Nat → State) : State :=
  let a := c.spAddr o 0
  let off := a % 2 ^ 19
  let trap := fun (cause : Nat) =>
    c.trap { cause := cause, thread := (Mask.lowest act).getD 0, oper := o.a.bits.toNat, addr := BitVec.ofNat 64 a }
  if poisoned then k off
  else if bitOf a 31 || bitOf a 19 || bitsOf a 30 28 ≠ 0 || decide (off + 128 * c.w.width > Config.scratchEnd c.core) then trap 7
  else if a % 16 ≠ 0 then trap 6
  else
    let accs := entries.map fun e => (⟨e.2, c.core, stackEntry off c.w.width e.1 e.2⟩ : SpAcc)
    match accs.find? fun x => c.s.spBlocked c.core x.off (x.off + 4) out with
    | some x => c.park (.scoreboard c.core x.off (x.off + 4) out)
    | none =>
      match accs.findSome? fun x => c.spEarlier true x 4 with
      | some id => c.park (.op id)
      | none => k off

/-- SPUSH. -/
def Ctx.push (c : Ctx) (o : Ops) (act : Mask) : State :=
  let room := act.threads.filter fun t => c.w.stackDepth t < 32
  c.stackArea o act false true (room.map fun t => (c.w.stackDepth t, t)) fun off =>
    let k := room.foldl (fun (k : Core) t =>
      let x := c.w.value c.f.exec o.b .b32 0 t
      k.spWrite (stackEntry off c.w.width (c.w.stackDepth t) t) (wholeBytes 4 x) false) (c.s.core c.core)
    let w1 : Wave := { c.w with tdepth := room.foldl (fun d t => d.put t (c.w.stackDepth t + 1)) c.w.tdepth }
    let n := Opnd.predNum o.dst
    let full := Mask.ofPred fun t => act.getLsbD t && !room.contains t
    c.next ((c.s.setCore c.core k).setWave c.core c.slot (w1.setP n ((w1.p n).write act full 0 .fault)))

/-- SPUSH: base and value are consumed. -/
def execSpush (o : Ops) (s : State) : Host.Outcome State Fault Refusal :=
  withCtx s fun c =>
    c.vector o.guard (spUses o true ++ usesOf o.b false o.feB true false true fun _ => none) fun act => c.memory (c.spoil.push o act)

/-- SPOP and SPEEK: the top entry, or all ones with the predicate set when the stack is empty. -/
def Ctx.top (c : Ctx) (o : Ops) (pe : Nat) (pop : Bool) (act : Mask) : State :=
  let held := act.threads.filter fun t => 0 < c.w.stackDepth t
  let bad := c.w.poisonAt o.a false 0
  c.stackArea o act bad false (held.map fun t => (c.w.stackDepth t - 1, t)) fun off =>
    let reads := held.map fun t => (t, c.s.spRead c.core (stackEntry off c.w.width (c.w.stackDepth t - 1) t) 4)
    let rotten := if bad then act else Mask.ofPred fun t => reads.any fun r => r.1 = t && r.2.any (·.2)
    let org : Origin := if bad || rotten = 0 then .fault else .data
    let val := fun (t : Nat) =>
      if bad then Config.poisonedBits (c.s.freeCtr * 128 + t)
      else match reads.find? fun r => r.1 = t with
        | some r => BitVec.ofNat 32 (leNat (r.2.map (·.1)))
        | none => 0xFFFFFFFF
    let empty := Mask.ofPred fun t => act.getLsbD t && !held.contains t
    let w1 := match o.dst with
      | .v n => c.w.setV n.toNat ((c.w.v n.toNat).write act val rotten org 0)
      | _ => c.w
    let w2 := w1.setP pe ((w1.p pe).write act empty rotten org)
    let w3 : Wave := if pop then { w2 with tdepth := held.foldl (fun d t => d.put t (c.w.stackDepth t - 1)) w2.tdepth } else w2
    c.next ((c.put w3).draw)

/-- The uses of SPOP and SPEEK. -/
def topUses (o : Ops) : List Use := spUses o false ++ usesOf o.dst false false false true false fun _ => none

/-- SPOP. -/
def execSpop (o : Ops) (pe : BitVec 3) (s : State) : Host.Outcome State Fault Refusal :=
  withCtx s fun c => c.vector o.guard (topUses o) fun act => c.memory (c.spoil.top o pe.toNat true act)

/-- SPEEK. -/
def execSpeek (o : Ops) (pe : BitVec 3) (s : State) : Host.Outcome State Fault Refusal :=
  withCtx s fun c => c.vector o.guard (topUses o) fun act => c.memory (c.spoil.top o pe.toNat false act)

/-- SCLR: the stacks of the active threads become empty. -/
def execSclr (o : Ops) (s : State) : Host.Outcome State Fault Refusal :=
  withCtx s fun c => c.vector o.guard [] fun act =>
    c.done { c.w with tdepth := act.threads.foldl (fun d t => d.put t 0) c.w.tdepth }

end Sys2Proof.Machine
end

