-- ==== Sys2Proof/Machine/Lath.lean ====
section
/-!
DEFINITION. The Lath grid (R260 to R273): images and their rules, the load, the run cell by cell, LATHREQ, LATHRUN and
LATHWAIT, and the markers of queues 3 and 4 (R229).
-/
namespace Sys2Proof.Machine

/-! ### Images (R261 to R266) -/

/-- Cell word of a cell number 8 r + c. -/
def cellWord (img : List Byte) (cell : Nat) : Nat := leNat ((img.drop (64 + 8 * cell)).take 8)

/-- The header as one number. -/
def imageHeader (img : List Byte) : Nat := leNat (img.take 64)

/-- Constant j of an image. -/
def imageConst (img : List Byte) (j : Nat) : Nat := leNat ((img.drop (448 + 4 * j)).take 4)

/-- The word of output o of a header. -/
def outputWord (hdr o : Nat) : Nat := bitsOf hdr (95 + 32 * o) (64 + 32 * o)

/-- Inputs of an image. -/
def imageIns (img : List Byte) : Nat := bitsOf (imageHeader img) 10 8 + 1
/-- Outputs of an image. -/
def imageOuts (img : List Byte) : Nat := bitsOf (imageHeader img) 12 11 + 1

/-- How many operands a cell operation uses (R262). -/
def cellOperands (opc : Nat) : Nat :=
  if opc = 0 then 0 else if opc = 4 || opc = 18 then 3 else if opc ≤ 17 then 2 else 1

/-- Whether a cell operation rounds (R262). -/
def cellRounds (opc : Nat) : Bool := (1 ≤ opc && opc ≤ 4) || opc == 20 || opc == 21

/-- Whether a cell word keeps the rules of R261 to R263, in an image of `ins` inputs. -/
def cellOk (ins x : Nat) : Bool :=
  let opc := bitsOf x 4 0
  let rnd := bitsOf x 7 5
  let operand := fun (i : Nat) =>
    let pick := bitsOf x (11 + 4 * i) (8 + 4 * i)
    let p := bitsOf x (23 + 4 * i) (20 + 4 * i)
    if i < cellOperands opc then
      decide (pick ≤ 7) && (if pick = 5 then true else if pick = 6 then decide (p < ins) else p == 0)
    else pick == 0 && p == 0
  decide (opc ≤ 21) && (rnd == 0 || (decide (4 ≤ rnd) && cellRounds opc)) && (List.range 3).all operand && bitsOf x 63 37 == 0

/-- Whether the word of an output keeps the rules of R265 and R266. -/
def outputOk (x : Nat) : Bool := decide (bitsOf x 2 0 ≤ 5) && decide (bitsOf x 20 16 ≤ 16) && bitsOf x 31 21 == 0

/-- Whether an image is valid (R266). -/
def imageOk (img : List Byte) : Bool :=
  let h := imageHeader img
  bitsOf h 7 0 == 1 && bitsOf h 63 13 == 0 && bitsOf h 511 192 == 0 &&
    ((List.range 4).all fun o => if o < imageOuts img then outputOk (outputWord h o) else outputWord h o == 0) &&
    (List.range 48).all fun c => cellOk (imageIns img) (cellWord img c)

/-! ### Cell operations (R262) -/

/-- A rounding field of a cell as a mode. -/
def cellMode (rnd : Nat) : Nat :=
  match rnd with
  | 5 => 1
  | 6 => 2
  | 7 => 3
  | _ => 0

/-- The operation of a cell on one thread's operands, as the vector instruction of its name. -/
def cellOp (opc mode a b c : Nat) : FRes :=
  let lane := fun (x : LaneOut) => (⟨x.val % 2 ^ 32, x.exc⟩ : FRes)
  match opc with
  | 1 => fp32.add mode false false a b
  | 2 => fp32.sub mode false false a b
  | 3 => fp32.times mode false false a b
  | 4 => fp32.fma mode false false a b c
  | 5 => fp32.minMax false false a b
  | 6 => fp32.minMax false true a b
  | 7 => lane (fit .s32 false (sVal 32 a + sVal 32 b))
  | 8 => lane (fit .s32 false (sVal 32 a - sVal 32 b))
  | 9 => lane (fit .s32 false (sVal 32 a * sVal 32 b))
  | 10 => ⟨wrapN 32 (min (sVal 32 a) (sVal 32 b)), []⟩
  | 11 => ⟨wrapN 32 (max (sVal 32 a) (sVal 32 b)), []⟩
  | 12 => ⟨a &&& b, []⟩
  | 13 => ⟨a ||| b, []⟩
  | 14 => ⟨a ^^^ b, []⟩
  | 15 => ⟨shlBits 32 a b, []⟩
  | 16 => ⟨shrBits 32 a b, []⟩
  | 17 => ⟨sarBits 32 a b, []⟩
  | 18 => ⟨if c ≠ 0 then a else b, []⟩
  | 19 => ⟨a, []⟩
  | 20 => fp32.fromVal mode false false (FVal.ofInt (sVal 32 a))
  | 21 =>
    let v := fp32.value a
    let r := toIntSat mode true 32 v
    ⟨r.bits, nanExc [v] ++ r.exc⟩
  | _ => ⟨0, []⟩

/-! ### A run (R263, R264) -/

/-- A value in the grid and the origin of its poison, if it is poisoned. -/
abbrev CellVal := Nat × Option Origin

/-- What the cells computed in one clock, by cell number, with the exceptions raised. -/
structure Clock where
  vals : List CellVal
  exc  : List (List XClass)

/-- The output of a cell during a clock, from what earlier clocks computed, latest first. -/
def cellOut (img : List Byte) (hist : List Clock) (cell : Nat) : CellVal :=
  match hist[bitsOf (cellWord img cell) 35 32]? with
  | some k => k.vals.getD cell (0, none)
  | none => (0, none)

/-- The source that a select reads during clock k; `ins` are the inputs of each streamed thread. -/
def cellSource (img : List Byte) (hist : List Clock) (ins : List (List CellVal)) (k cell pick p : Nat) : CellVal :=
  let r := cell / 8
  let c := cell % 8
  let zero : CellVal := (0, none)
  match pick with
  | 0 => if r = 0 || c = 0 then zero else cellOut img hist (cell - 9)
  | 1 => if r = 0 then zero else cellOut img hist (cell - 8)
  | 2 => if r = 0 || c = 7 then zero else cellOut img hist (cell - 7)
  | 3 => if c = 0 then zero else cellOut img hist (cell - 1)
  | 4 => cellOut img hist cell
  | 5 => (imageConst img p, none)
  | 6 => (ins.getD k []).getD p zero
  | _ => zero

/-- One cell in clock k. -/
def runCell (img : List Byte) (hist : List Clock) (ins : List (List CellVal)) (k cell : Nat) : CellVal × List XClass :=
  let x := cellWord img cell
  let opc := bitsOf x 4 0
  if !bitOf x 36 then ((0, none), [])
  else
    let src := fun (i : Nat) =>
      if i < cellOperands opc then cellSource img hist ins k cell (bitsOf x (11 + 4 * i) (8 + 4 * i)) (bitsOf x (23 + 4 * i) (20 + 4 * i))
      else (0, none)
    let (a, b, c) := (src 0, src 1, src 2)
    let r := cellOp opc (cellMode (bitsOf x 7 5)) a.1 b.1 c.1
    let bad := if opc = 18 then joinOrigin c.2 (if c.1 ≠ 0 then a.2 else b.2) else joinOrigin a.2 (joinOrigin b.2 c.2)
    ((r.bits, bad), r.exc)

/-- The largest STAGE of an image's outputs. -/
def imageStages (img : List Byte) : Nat :=
  (List.range (imageOuts img)).foldl (fun m o => max m (bitsOf (outputWord (imageHeader img) o) 15 6)) 0

/-- The outputs of each streamed thread, and the exceptions of every cell result, of a run of n + S clocks. -/
def runImage (img : List Byte) (ins : List (List CellVal)) : List (List CellVal) × List (List XClass) :=
  let n := ins.length
  let hdr := imageHeader img
  let clocks := n + imageStages img
  let outs := fun (hist : List Clock) => (List.range 48).map (cellOut img hist)
  let r := (List.range clocks).foldl (fun (st : List Clock × List (List CellVal) × List (List XClass)) k =>
    let now := (List.range 48).map (runCell img st.1 ins k)
    let clock : Clock := ⟨now.map (·.1), now.map (·.2)⟩
    ((clock :: st.1).take 16, st.2.1 ++ [outs st.1], st.2.2 ++ clock.exc)) ([], [], [])
  let seen := r.2.1
  ((List.range n).map fun m => (List.range (imageOuts img)).map fun o =>
    let w := outputWord hdr o
    (seen.getD (m + bitsOf w 15 6) []).getD (8 * bitsOf w 2 0 + bitsOf w 5 3) (0, none), r.2.2)

/-! ### Issue (R268 to R270) -/

/-- LATHREQ. -/
def execLathreq (o : Ops) (reload : Bool) (s : State) : Host.Outcome State Fault Refusal :=
  withCtx s fun c => c.uniform o.guard (scalarUse o.a o.feA) (
    let image := c.w.scalar o.a
    if image.toNat % 512 ≠ 0 then c.trap { cause := 6, oper := o.a.bits.toNat, addr := image }
    else c.memory (c.enqueue .q3 (fun k => { k with q3 := k.q3 ++ [c.entry 3 true (.load image reload)] }) id))

/-- The uses of LATHRUN: inputs, the image's address, outputs. A poisoned address is no consuming use (R53): its bits are taken as they stand,
and poison the results (R52). See assumption 76. -/
def lathUses (o : Ops) (nin nout : Nat) : List Use :=
  runUses o.a nin o.feA true false false (fun _ => none) ++ tokenUse o.b o.feB ++ runUses o.dst nout false false true false fun _ => none

/-- Enqueues a run with the inputs as they are now, and behind their poison that of the image's address; the fragment stalls at the LATHRUN (R269).
A run that failed raises LATHIMG when the fragment issues again. -/
def Ctx.startRun (c : Ctx) (o : Ops) (nin nout : Nat) (act : Mask) : State :=
  let image := c.w.scalar o.b
  match c.f.lathErr with
  | some why =>
    let c1 := c.withWave (c.w.modCur fun f => { f with lathErr := none })
    c1.trap { cause := 18, detail := why, oper := o.b.bits.toNat, addr := image, thread := (Mask.lowest act).getD 0 }
  | none =>
    if c.s.queueLen c.core .q3 ≥ queueDepth .q3 then c.park (.room .q3)
    else
      let ts := act.threads
      let ins := ts.map fun t => (List.range nin).map fun i => BitVec.ofNat 32 (c.w.value c.f.exec (o.a.plus i) .b32 0 t)
      let poison := (List.range nin).map (fun i => c.w.poisonOf (o.a.plus i) &&& act) ++ [if c.w.poisonAt o.b true 0 then act else 0]
      let org := (List.range nin).map (fun i => c.w.originOf (o.a.plus i)) ++ [c.w.originOf o.b]
      let e := c.entry 3 true (.run o.dst nin nout image ts ins poison org false)
      let k := c.s.core c.core
      let s1 := (c.s.setCore c.core { k with q3 := k.q3 ++ [e] }).fresh
      s1.modWave c.core c.slot fun w =>
        { (w.outstanding 3).modCur (fun f => { f with park := some (.op e.id) }) with ended := true }

/-- LATHRUN. See assumption 76. -/
def execLathrun (o : Ops) (nin : BitVec 3) (nout : BitVec 2) (s : State) : Host.Outcome State Fault Refusal :=
  withCtx s fun c => c.vector o.guard (lathUses o (nin.toNat + 1) (nout.toNat + 1)) fun act =>
    c.memory (c.startRun o (nin.toNat + 1) (nout.toNat + 1) act)

/-- LATHWAIT: a poisoned address is no consuming use (R53); its bits are taken as they stand, and poison the status (R52). See assumption 76. -/
def execLathwait (o : Ops) (s : State) : Host.Outcome State Fault Refusal :=
  withCtx s fun c => c.uniform o.guard (tokenUse o.a o.feA ++ scalarDst o) (
    let image := c.w.scalar o.a
    match (c.s.core c.core).lathStatus c.w image with
    | some x => c.done (match o.dst with
      | .s n => c.w.setS n.toNat (SReg.write (BitVec.ofNat 64 x) (c.w.poisonAt o.a true 0) (c.w.originOf o.a))
      | _ => c.w)
    | none => c.park (.lath image))

/-! ### Loads (R267, R268) -/

/-- What the attempt to read an image answers. -/
inductive ImageRead where
  | wait
  | fail (why : Nat)
  | image (bs : List Byte)

/-- Reads and checks an image for an operation of queue 3; a misaligned one, which only a run can name, cannot be loaded (R269). -/
def State.readImage (s : State) (core : Nat) (e : QEntry Q3Kind) (image : DWord) : State × ImageRead :=
  if image.toNat % 512 ≠ 0 then (s, .fail 3)
  else match s.readGlobal (e.reader core) image 512 with
  | (s1, .wait) => (s1, .wait)
  | (s1, .fault cls _) => (s1, .fail cls)
  | (s1, .nest _) => (s1, .fail 1)
  | (s1, .bytes bs) =>
    if (poisonOf bs).isSome then (s1, .fail 6)
    else if imageOk (valuesOf bs) then (s1, .image (valuesOf bs)) else (s1, .fail 8)

/-- A wave's record of its latest load of an image. -/
def State.noteLoad (s : State) (uid : Nat) (image : DWord) (why : Option Nat) : State :=
  match s.findWave uid with
  | none => s
  | some (core, slot) => s.modWave core slot fun w =>
      { w with lathFail := (w.lathFail.filter fun x => x.1 ≠ image) ++ (match why with | some x => [(image, x)] | none => []) }

/-- Runs of other waves behind an invalid replacement lose the image that the grid held (R269). -/
def QEntry.spoil (e : QEntry Q3Kind) (by_ : Nat) (held : Option (DWord × Nat × List Byte)) : QEntry Q3Kind :=
  match e.kind, held with
  | .run dst nin nout image ts ins poison org _, some (a, p, _) =>
    if e.wave ≠ by_ && a = image && p = e.part then { e with kind := .run dst nin nout image ts ins poison org true } else e
  | _, _ => e

/-- The grid after a load: the image, or empty, with what the wave and the runs behind learn. -/
def State.setGrid (s : State) (core : Nat) (e : QEntry Q3Kind) (image : DWord) (r : Sum Nat (List Byte)) : State :=
  let k := s.core core
  match r with
  | .inr bs => (s.setCore core { k with lath := ⟨some (image, e.part, bs)⟩ }).noteLoad e.wave image none
  | .inl why =>
    let q3 := if why = 8 then k.q3.map fun x => x.spoil e.wave k.lath.image else k.q3
    (s.setCore core { k with lath := ⟨none⟩, q3 := q3 }).noteLoad e.wave image (some why)

/-- Takes the head of queue 3 away: its operation has ended (R231). A failed load is told by LATHWAIT and LATHIMG, not by the
queue's status (assumption 18). -/
def State.done3 (s : State) (core : Nat) (e : QEntry Q3Kind) : State :=
  let k := s.core core
  ((s.setCore core { k with q3 := k.q3.filter fun x => x.id ≠ e.id }).dropWalks core e.id).opDone e.wave e.launch 3 0 0 0 false

/-- The fragment that stalls at an operation goes on as a function says. -/
def State.release (s : State) (uid id : Nat) (g : Fragment → Fragment) : State :=
  match s.findWave uid with
  | none => s
  | some (core, slot) =>
    let one := fun (f : Fragment) => if f.park == some (.op id) then { g f with park := none } else f
    (s.modWave core slot fun w => w.mapFragments one).settle core slot

/-- A run that cannot take place: its fragment will raise LATHIMG (R269). See assumption 18. -/
def State.failRun (s : State) (core : Nat) (e : QEntry Q3Kind) (why : Nat) : State :=
  (s.done3 core e).release e.wave e.id fun f => { f with lathErr := some why }

/-- LATH_IMAGE_LOAD: the load at the head of queue 3, or the one that the run at its head needs first. -/
def State.imageLoad (s : State) (core : Nat) : State :=
  match (s.core core).q3 with
  | [] => s
  | e :: _ =>
    if !e.clear s core then s
    else match e.kind with
    | .marker => s
    | .load image reload =>
      if (s.core core).holdsImage e.part image && !reload then (s.noteLoad e.wave image none).done3 core e
      else (match s.readImage core e image with
        | (s1, .wait) => s1
        | (s1, .fail why) => (s1.setGrid core e image (.inl why)).done3 core e
        | (s1, .image bs) => (s1.setGrid core e image (.inr bs)).done3 core e)
    | .run _ _ _ image _ _ _ _ spoiled =>
      if (s.core core).holdsImage e.part image then s
      else if spoiled then s.failRun core e 8
      else (match s.readImage core e image with
        | (s1, .wait) => s1
        | (s1, .fail why) => (s1.setGrid core e image (.inl why)).failRun core e why
        | (s1, .image bs) => s1.setGrid core e image (.inr bs))

/-- LATH_IMAGE_LOAD. -/
def execLathImageLoad (core : Nat) (s : State) : Host.Outcome State Fault Refusal := .next (s.imageLoad core)

/-! ### The end of a run (R269, R271) -/

/-- The bits of a run's outputs and of their poison that its passes compare (R271): words 0 to 3, then one bit for each. -/
def Flip.ofOutputs (nout : Nat) : Flip := BitVec.ofNat 258 (2 ^ (32 * nout) - 1 + (2 ^ nout - 1) * 2 ^ 128)

/-- Output o of a thread as a pass gives it, with the bits that upsets flip. -/
def CellVal.flipped (x : CellVal) (flip : Flip) (o : Nat) : CellVal :=
  (x.1 ^^^ flip.word o, if flip.getLsbD (128 + o) then (match x.2 with | some _ => none | none => some .fault) else x.2)

/-- Writes the outputs of a run in its threads that are live (R191); a register that has been released since takes none (R42). See assumption 33. -/
def Wave.putOutputs (w : Wave) (dst : Opnd) (hdr nout : Nat) (ts : List Nat) (outs : List (List CellVal)) (flip : Nat → Flip) : Wave :=
  let act := (Mask.ofPred fun t => ts.contains t) &&& w.lives
  (List.range nout).foldl (fun (w : Wave) o =>
    let at_ := fun (t : Nat) => CellVal.flipped (match ts.idxOf? t with | some m => (outs.getD m []).getD o (0, none) | none => (0, none)) (flip t) o
    match dst.plus o with
    | .v n =>
      if n.toNat ≥ 16 * w.blocks then w
      else
        let poison := Mask.ofPred fun t => act.getLsbD t && (at_ t).2.isSome
        let org : Origin := if act.threads.any fun t => (at_ t).2 == some .data then .data else .fault
        w.setV n.toNat ((w.v n.toNat).write act (fun t => BitVec.ofNat 32 (at_ t).1) poison org (BitVec.ofNat 5 (bitsOf (outputWord hdr o) 20 16)))
    | _ => w) w

/-- Counts a correction of a core (R35, R37). -/
def Core.countCorrected (c : Core) : Core :=
  { c with corrected := if c.corrected = BitVec.allOnes 32 then c.corrected else c.corrected + 1 }

/-- LATH_RUN_COMPLETION: the run at the head of queue 3 whose image the grid holds. In a checked launch the passes are
compared (R37, R271). See assumption 45. -/
def State.runDone (s : State) (core : Nat) : State :=
  match (s.core core).q3, (s.core core).lath.image with
  | e :: _, some (_, _, img) =>
    (match e.kind with
    | .run dst nin nout image ts ins poison org _ =>
      if !e.clear s core || !(s.core core).holdsImage e.part image then s
      else if imageIns img ≠ nin || imageOuts img ≠ nout then s.failRun core e 8
      else
        let vals := (ts.zip ins).map fun x => x.2.zipIdx.map fun y =>
          (y.1.toNat, if (poison.getD y.2 0).getLsbD x.1 then some (org.getD y.2 .fault) else none)
        let (clean, exc) := runImage img vals
        let named := if poison.getD nin 0 = 0 then none else some (org.getD nin .fault)
        let outs := clean.map fun l => l.map fun (x : CellVal) => (x.1, joinOrigin x.2 named)
        let evs := tally exc
        let act := Mask.ofPred fun t => ts.contains t
        match s.wave? core e.slot with
        | none => s.done3 core e
        | some w =>
          if w.uid ≠ e.wave then s.done3 core e
          else
            let finish := fun (st : State) (flip : Nat → Flip) =>
              let s1 := (st.done3 core e).modWave core e.slot fun w => w.putOutputs dst (imageHeader img) nout ts outs flip
              (s1.countAll core e.slot e.wave evs e.iaddr e.word).release e.wave e.id Fragment.advance
            let s0 : State := { s with upsets := [] }
            let flip := fun (issue t : Nat) => if s.upsets.isEmpty then 0 else s.flips issue t
            match s.vote w.checked act (Flip.ofOutputs nout) with
            | .use i => finish s0 (flip i)
            | .corrected i _ _ => finish (s0.setCore core ((s0.core core).countCorrected)) (flip i)
            | .none t => (s0.done3 core e).killWave core e.slot { source := 12, sev := 2, lane := t % 32, addr := e.iaddr.toNat }
    | _ => s)
  | _, _ => s

/-- LATH_RUN_COMPLETION. -/
def execLathRunCompletion (core : Nat) (s : State) : Host.Outcome State Fault Refusal := .next (s.runDone core)

/-! ### Markers (R229) -/

/-- QUEUE_MARKER_COMPLETION: a marker at the head of queue 3 or 4 completes when it gets there. -/
def State.markerDone (s : State) (core q : Nat) : State :=
  let k := s.core core
  match q with
  | 3 => (match k.q3 with
    | e :: _ => if e.kind == .marker && e.clear s core then s.done3 core e else s
    | [] => s)
  | 4 => (match k.q4 with
    | e :: rest => if e.kind == .marker && e.clear s core && (s.cluster (Config.clusterOf core)).rpl.isNone then (s.setCore core { k with q4 := rest }).opDone e.wave e.launch 4 0 0 0 false else s
    | [] => s)
  | _ => s

/-- QUEUE_MARKER_COMPLETION. -/
def execQueueMarkerCompletion (core q : Nat) (s : State) : Host.Outcome State Fault Refusal := .next (s.markerDone core q)

end Sys2Proof.Machine
end

