-- ==== Sys2Proof/Machine/Glaze.lean ====
section
/-!
DEFINITION. Glaze (R274 to R288): records, arrivals and commits, the commit log, and the instructions and events of queue 4.
-/
namespace Sys2Proof.Machine

/-! ### Records (R274, R275) -/

/-- A record of a cluster. -/
def Cluster.record (c : Cluster) (n : Nat) : GzRec := c.records.get GzRec.clear n

/-- Writes a record. -/
def Cluster.setRecord (c : Cluster) (n : Nat) (r : GzRec) : Cluster := { c with records := c.records.put n r }

/-- The words w0 to w7 of a record. -/
def GzRec.words (r : GzRec) : List Word :=
  let org := match r.poison with | some .data => 1 | _ => 0
  r.l ++ [r.t, r.knear, r.kfar, BitVec.ofNat 32 (r.inexact.toNat + r.drops.toNat * 2 ^ 16),
    BitVec.ofNat 32 (r.any.toNat + r.retired.toNat * 2 + r.poison.isSome.toNat * 4 + org * 8 + r.buf.length * 16 + r.seq.toNat * 256)]

/-- A 16-bit count that saturates. -/
def satAdd16 (x : BitVec 16) (n : Nat) : BitVec 16 := BitVec.ofNat 16 (min (x.toNat + n) 0xFFFF)

/-- Whether a buffer key is nearer, or as near and earlier in the buffer. -/
def insertEntry (e : GzEntry) : List GzEntry → List GzEntry
  | [] => [e]
  | x :: rest => if e.key < x.key then e :: x :: rest else x :: insertEntry e rest

/-! ### Commits (R280) -/

/-- The three kinds of commit, by their code in the log (R282). -/
inductive GzKind where
  | normal | front | behind
  deriving DecidableEq, Repr

/-- The code of a kind. -/
def GzKind.code : GzKind → Nat
  | .normal => 0
  | .front => 1
  | .behind => 2

/-- 1 - a, exact. -/
def oneMinus (a : BitVec 16) : FVal := exactSub (.fin false 1 0) (fp16.value a.toNat)

/-- x + y·z rounded once to FP32 by RNE, with the exceptions. -/
def commitSum (x y z : FVal) : FRes := finish fp32 0 false false [x, y, z] (fmaVals 0 y z x)

/-- y·z rounded once. -/
def commitMul (y z : FVal) : FRes := finish fp32 0 false false [y, z] (y.mul z)

/-- A record after a commit, and the exceptions it counts. `fix` gives the value that is written for each of the four results, the
channels of L and T, from the one computed. -/
def GzRec.commit (r : GzRec) (e : GzEntry) (kind : GzKind) (tmin : Word) (fix : Nat → Word → Word) : GzRec × List XClass :=
  let t := fp32.value r.t.toNat
  let rest := oneMinus e.alpha
  let chan := fun (i : Nat) =>
    let c := fp16.value (e.color.getD i 0).toNat
    let l := fp32.value (r.l.getD i 0).toNat
    match kind with
    | .front => commitSum c rest l
    | _ => commitSum l t c
  let ls := (List.range 3).map chan
  let nt := match kind with | .front => commitMul rest t | _ => commitMul t rest
  let bits := ls.zipIdx.map fun x => fix x.2 (BitVec.ofNat 32 x.1.bits)
  let r1 : GzRec := { r with l := bits, t := fix 3 (BitVec.ofNat 32 nt.bits), poison := joinOrigin r.poison e.poison }
  let r2 : GzRec := match kind with
    | .normal => { r1 with kfar := e.key, knear := if r.any then r1.knear else e.key, any := true }
    | .front => { r1 with knear := e.key }
    | .behind => r1
  let retires := (fp32.value r2.t.toNat).lt (fp32.value tmin.toNat) && !(fp32.value tmin.toNat).isNaN && !(fp32.value r2.t.toNat).isNaN
  let r3 : GzRec := if retires && !r2.retired then { r2 with retired := true, drops := satAdd16 r2.drops r2.buf.length, buf := [] } else r2
  (r3, (ls.flatMap (·.exc)) ++ nt.exc)

/-- The 32 bytes of a log entry (R282). -/
def logBytes (rec_ : Nat) (r : GzRec) (e : GzEntry) (kind : GzKind) : List Byte :=
  leBytes 4 e.key.toNat ++ (List.range 3).flatMap (fun i => leBytes 2 (e.color.getD i 0).toNat) ++ leBytes 2 e.alpha.toNat ++
    leBytes 4 r.t.toNat ++ r.l.flatMap (fun x => leBytes 4 x.toNat) ++ leBytes 2 (rec_ + kind.code * 2 ^ 12) ++ leBytes 2 0

/-! ### An operation as it is performed -/

/-- An operation of queue 4 under way: the state so far, the core, the operation, whether its launch is checked, the upsets that
its passes meet, by commit, the commits so far, and whether it has met something to wait for. -/
structure GzRun where
  s       : State
  core    : Nat
  e       : QEntry Q4Kind
  checked : Bool
  upsets  : List Upset
  commits : Nat := 0
  wait    : Option DWord := none

/-- The reader of an operation under way. -/
def GzRun.r (g : GzRun) : Reader := g.e.reader g.core 3

/-- The cluster of an operation. -/
def GzRun.cl (g : GzRun) : Cluster := g.s.cluster (Config.clusterOf g.core)

/-- Writes the cluster of an operation. -/
def GzRun.setCl (g : GzRun) (c : Cluster) : GzRun := { g with s := g.s.setCluster (Config.clusterOf g.core) c }

/-- Counts exceptions at the core of the operation; no wave takes a trap for them (R280). DESIGN CHOICE: a class counts once for each
commit, and once for each arrival outside its commits (assumption 38). -/
def GzRun.count (g : GzRun) (exc : List XClass) : GzRun :=
  let (wc, slot) := (g.s.findWave g.e.wave).getD (g.core, g.e.slot)
  { g with s := exc.eraseDups.foldl (fun st k => st.countFor false g.core wc slot g.e.wave k 1 g.e.iaddr g.e.word) g.s }

/-- Where a 32-byte entry of global memory lies for a write: the physical bytes, a fault class, or a wait. See assumption 66. -/
def State.entryTarget (s : State) (r : Reader) (va : DWord) : State × Target :=
  match s.targetOf r (.mem va) with
  | (s1, .mem a) => (match s1.targetOf r (.mem (va + 16)) with
    | (s2, .mem b) => (s2, .mem (a ++ b))
    | x => x)
  | x => x

/-- Writes the log entry of a commit, if logging is on (R282). See assumption 66. -/
def GzRun.log (g : GzRun) (rec_ : Nat) (old : GzRec) (e : GzEntry) (kind : GzKind) : GzRun :=
  let c := g.cl
  if !c.log then g
  else if c.logN = c.logLim || c.logFlt then g.setCl { c with logOvf := true }
  else
    let va := c.logBase + BitVec.ofNat 64 (32 * c.logN.toNat)
    match g.s.entryTarget g.r va with
    | (s0, .mem ps) =>
      let s1 := s0.performWrites g.r.part (ps.zip (logBytes rec_ old e kind) |>.map fun x => ⟨x.1, x.2, 0xFF⟩) false false none
      let g1 : GzRun := { g with s := s1 }
      g1.setCl { g1.cl with logN := g1.cl.logN + 1 }
    | (_, .wait) => { g with wait := some va }
    | (s0, _) => ({ g with s := s0 } : GzRun).setCl { c with logFlt := true }

/-- The vote of a commit of a checked launch over the channels and T (R280): a correction counts on the core; without a majority the
values are free, the record is poisoned and the host gets a record. It gives the state, the values written, and the poison. See assumptions 4, 38. -/
def GzRun.vote (g : GzRun) : GzRun × (Nat → Word → Word) × Option Origin :=
  let k := g.commits % 128
  let s0 : State := { g.s with upsets := g.upsets }
  let g1 : GzRun := { g with commits := g.commits + 1 }
  let pass := fun (issue : Nat) (i : Nat) (x : Word) => x ^^^ BitVec.ofNat 32 ((s0.flips issue k).word i)
  if g.upsets.isEmpty then (g1, fun _ x => x, none)
  else match s0.vote g.checked (Mask.one k) (BitVec.ofNat 258 (2 ^ 128 - 1)) with
    | .use i => (g1, pass i, none)
    | .corrected i _ _ => ({ g1 with s := g1.s.setCore g.core (g1.s.core g.core).countCorrected }, pass i, none)
    | .none _ =>
      let free := g.s.freeCtr
      ({ g1 with s := (g1.s.record { source := 12, sev := 2, unit := g.core, part := some g.e.part, addr := g.e.iaddr.toNat }).draw },
        fun i _ => Config.poisonedBits (free * 128 + i), some .data)

/-- Commits an entry to a record: the arithmetic, the log, retirement and the counts (R280). -/
def GzRun.commit (g : GzRun) (rec_ : Nat) (e : GzEntry) (kind : GzKind) : GzRun :=
  if g.wait.isSome then g
  else
    let old := g.cl.record rec_
    let (g0, fix, bad) := g.vote
    let (r, exc) := old.commit { e with poison := joinOrigin e.poison bad } kind g.cl.tmin fix
    let g1 := g0.log rec_ old e kind
    let c := g1.cl.setRecord rec_ r
    let g2 := g1.setCl { c with nret := if r.retired && !old.retired then c.nret + 1 else c.nret }
    g2.count exc

/-- Counts a discarded arrival. -/
def GzRun.drop (g : GzRun) (rec_ : Nat) : GzRun :=
  let r := g.cl.record rec_
  g.setCl (g.cl.setRecord rec_ { r with drops := satAdd16 r.drops 1 })

/-- Handles one arrival (R279). -/
def GzRun.arrive (g : GzRun) (a : Arrival) : GzRun :=
  let r0 := g.cl.record a.rec_
  let av := fp16.value a.alpha.toNat
  let one : FVal := .fin false 1 0
  let zero : FVal := .fin false 0 0
  if av.isNaN then (g.drop a.rec_).count [.nanin]
  else if r0.retired then g.drop a.rec_
  else
    let alpha : BitVec 16 := if av.lt zero then 0 else if one.lt av then 0x3C00 else a.alpha
    let g0 := if alpha = a.alpha then g else g.count [.sat]
    let e : GzEntry := ⟨a.depth ++ r0.seq, a.color, alpha, a.poison⟩
    let r1 : GzRec := { r0 with seq := r0.seq + 1 }
    let g1 := g0.setCl (g0.cl.setRecord a.rec_ r1)
    if !r1.any || r1.kfar < e.key then
      (match r1.buf with
      | near :: rest =>
        if r1.buf.length < 4 then g1.setCl (g1.cl.setRecord a.rec_ { r1 with buf := insertEntry e r1.buf })
        else if e.key < near.key then g1.commit a.rec_ e .normal
        else
          let g2 := (g1.setCl (g1.cl.setRecord a.rec_ { r1 with buf := rest })).commit a.rec_ near .normal
          let r2 := g2.cl.record a.rec_
          if r2.retired then g2.drop a.rec_ else g2.setCl (g2.cl.setRecord a.rec_ { r2 with buf := insertEntry e r2.buf })
      | [] => g1.setCl (g1.cl.setRecord a.rec_ { r1 with buf := [e] }))
    else if e.key < r1.knear then g1.commit a.rec_ e .front
    else
      let mid := (r1.knear.toNat + r1.kfar.toNat) / 2
      let g2 := g1.commit a.rec_ e (if e.key.toNat < mid then .front else .behind)
      let r2 := g2.cl.record a.rec_
      g2.setCl (g2.cl.setRecord a.rec_ { r2 with inexact := satAdd16 r2.inexact 1 })

/-- Commits the buffered entries of a record in ascending key order (R283): at most four. -/
def GzRun.flush (rec_ : Nat) : Nat → GzRun → GzRun
  | 0, g => g
  | n + 1, g =>
    let r := g.cl.record rec_
    match r.buf with
    | [] => g
    | e :: rest => GzRun.flush rec_ n ((g.setCl (g.cl.setRecord rec_ { r with buf := rest })).commit rec_ e .normal)

/-! ### Taking an operation from queue 4 -/

/-- The operation of a core's queue 4 that the unit may perform: the head, when nothing stands before it and no replay of
another operation runs (R277, R286). -/
def State.head4 (s : State) (core : Nat) : Option (QEntry Q4Kind) :=
  match (s.core core).q4 with
  | e :: _ => if e.clear s core && ((s.cluster (Config.clusterOf core)).rpl.all fun x => x.op = e.id) then some e else none
  | [] => none

/-- Ends the head of queue 4 with its status. -/
def State.done4 (s : State) (core : Nat) (e : QEntry Q4Kind) (status cls row : Nat) : State :=
  let k := s.core core
  ((s.setCore core { k with q4 := k.q4.filter fun x => x.id ≠ e.id }).dropWalks core e.id).opDone e.wave e.launch 4 status cls row false

/-- Starts an operation. -/
def State.startGz (s : State) (core : Nat) (e : QEntry Q4Kind) : GzRun :=
  { s := { s with upsets := [] }, core := core, e := e, checked := s.launchChecked e.launch, upsets := s.upsets }

/-- The state after an operation: unchanged, but for a walk it asks for, when the operation must wait. -/
def GzRun.end_ (g : GzRun) (old : State) (k : State → State) : State :=
  match g.wait with
  | some va => (old.entryTarget g.r va).1
  | none => k g.s

/-! ### The events (R279, R283 to R286) -/

/-- GLAZE_ARRIVAL: the arrivals of one GZARR in thread order, with nothing between. -/
def execGlazeArrival (core : Nat) (s : State) : Host.Outcome State Fault Refusal :=
  .next (match s.head4 core with
  | some e => (match e.kind with
    | .arrive as => (as.foldl GzRun.arrive (s.startGz core e)).end_ s fun st => st.done4 core e 0 0 0
    | _ => s)
  | none => s)

/-- Writes the records read into the registers of their threads that are live (R191); a register released since takes none (R42). -/
def Wave.putRecords (w : Wave) (dst : Opnd) (all : List (Nat × GzRec)) (poison : Mask) (org : Origin) : Wave :=
  let xs := all.filter fun x => w.lives.getLsbD x.1
  let act := Mask.ofPred fun t => xs.any fun x => x.1 = t
  let rec_ := fun (t : Nat) => ((xs.find? fun x => x.1 = t).map (·.2)).getD GzRec.clear
  (List.range 8).foldl (fun (w : Wave) i =>
    match dst.plus i with
    | .v n => if n.toNat ≥ 16 * w.blocks then w else
      let own := if i < 4 then Mask.ofPred fun t => act.getLsbD t && (rec_ t).poison.isSome else 0
      let data := (poison &&& act != 0 && org == .data) || (decide (i < 4) && xs.any fun x => x.2.poison == some .data)
      w.setV n.toNat ((w.v n.toNat).write act (fun t => (rec_ t).words.getD i 0) (poison ||| own) (if data then .data else .fault)
        (if i < 4 then 3 else 2))
    | _ => w) w

/-- GLAZE_READ: a GZRD is performed and its fragment goes on. -/
def State.glazeRead (s : State) (core : Nat) (e : QEntry Q4Kind) (dst : Opnd) (flush : Bool) (recs : List (Nat × Nat)) (poison : Mask)
    (org : Origin) : State :=
  let g := s.startGz core e
  let g1 := if flush then recs.foldl (fun g x => GzRun.flush x.2 4 g) g else g
  g1.end_ s fun st =>
    let cl := st.cluster (Config.clusterOf core)
    let xs := recs.map fun x => (x.1, cl.record x.2)
    let s1 := st.done4 core e 0 0 0
    match s1.findWave e.wave with
    | some (c, slot) => (s1.modWave c slot fun w => w.putRecords dst xs poison org).release e.wave e.id Fragment.advance
    | none => s1

/-- GLAZE_READ. -/
def execGlazeRead (core : Nat) (s : State) : Host.Outcome State Fault Refusal :=
  .next (match s.head4 core with
  | some e => (match e.kind with | .read dst flush recs poison org => s.glazeRead core e dst flush recs poison org | _ => s)
  | none => s)

/-- Resets records: retired ones leave the count (R284). -/
def Cluster.clearRecords (c : Cluster) (recs : List Nat) : Cluster :=
  recs.foldl (fun (c : Cluster) n => { c with
    nret := if (c.record n).retired then c.nret - 1 else c.nret
    records := c.records.erase n }) c

/-- GLAZE_CLEAR. -/
def execGlazeClear (core : Nat) (s : State) : Host.Outcome State Fault Refusal :=
  .next (match s.head4 core with
  | some e =>
    let k := Config.clusterOf core
    let c := s.cluster k
    (match e.kind with
    | .clear recs => (s.setCluster k (c.clearRecords recs)).done4 core e 0 0 0
    | .clearAll => (s.setCluster k { c with records := [], logN := 0, logOvf := false, logFlt := false, nret := 0 }).done4 core e 0 0 0
    | _ => s)
  | none => s)

/-- GZ_STAT (R276). -/
def Cluster.gzStat (c : Cluster) : DWord :=
  BitVec.ofNat 64 (c.logN.toNat + c.logOvf.toNat * 2 ^ 24 + c.logFlt.toNat * 2 ^ 25 + c.rpl.isSome.toNat * 2 ^ 26 + c.nret * 2 ^ 32)

/-- GLAZE_STATUS_READ: a GZST is performed and its fragment goes on. -/
def execGlazeStatusRead (core : Nat) (s : State) : Host.Outcome State Fault Refusal :=
  .next (match s.head4 core with
  | some e => (match e.kind with
    | .status dst =>
      let x := (s.cluster (Config.clusterOf core)).gzStat
      let s1 := s.done4 core e 0 0 0
      (match s1.findWave e.wave with
      | some (c, slot) => (s1.modWave c slot fun w => w.putDst dst x).release e.wave e.id Fragment.advance
      | none => s1)
    | _ => s)
  | none => s)

/-! ### Replay (R286) -/

/-- The adjoint of a record: gL, gT, and whether it is poisoned. -/
structure Adjoint where
  gl  : FVal
  gt  : List FVal
  bad : Bool

/-- The adjoint that a replay starts with. -/
def Adjoint.start : Adjoint := ⟨.fin false 1 0, [.fin false 0 0, .fin false 0 0, .fin false 0 0], false⟩

/-- FP32 bits of a rounded value. -/
def f32Bytes (v : FVal) : List Byte := leBytes 4 (fp32.fromVal 0 false false v).bits

/-- One entry of the log, read back: the 32 bytes written for it and the record's adjoint after it. No exception is counted (R280 counts those of
commits). See assumption 140. -/
def Adjoint.step (g : Adjoint) (bs : List Byte) : List Byte × Adjoint :=
  let half := fun (i : Nat) => fp16.value (leNat ((bs.drop i).take 2))
  let word := fun (i : Nat) => fp32.value (leNat ((bs.drop i).take 4))
  let a := exactSub (.fin false 1 0) (half 10)
  let tb := word 12
  let at_ := fun (i : Nat) => g.gt.getD i (.fin false 0 0)
  let chans := List.range 3
  let out := fun (dc : FVal) (da : List FVal) => f32Bytes dc ++ da.flatMap f32Bytes ++ chans.flatMap (fun i => f32Bytes (at_ i)) ++ f32Bytes tb
  if bitsOf (leNat ((bs.drop 28).take 2)) 13 12 = 1 then
    let da := chans.map fun i => (exactSum [exactMul g.gl (word (16 + 4 * i)), exactMul (at_ i) tb]).negate
    (out g.gl da, { g with gl := rne (exactMul g.gl a), gt := chans.map fun i => rne (exactMul (at_ i) a) })
  else
    let da := chans.map fun i => (exactMul (at_ i) tb).negate
    (out (exactMul g.gl tb) da, { g with gt := chans.map fun i => rne (exactSum [exactMul g.gl (half (4 + 2 * i)), exactMul (at_ i) a]) })

/-- An adjoint as the unit keeps it between entries, and its values. -/
def Adjoint.kept (g : Adjoint) : GzAdj :=
  let bits := fun (v : FVal) => BitVec.ofNat 32 (fp32.fromVal 0 false false v).bits
  ⟨bits g.gl, g.gt.map bits, g.bad⟩
def GzAdj.value (g : GzAdj) : Adjoint := ⟨fp32.value g.gl.toNat, g.gt.map fun x => fp32.value x.toNat, g.bad⟩

/-- A replay as an event carries it on: the state, how far it has come, the fault that ends it, and whether it waits. -/
structure Replay where
  s      : State
  at_    : GzReplay
  fault  : Option (Nat × Nat) := none   -- class and row of the fault that ended it
  wait   : Bool := false

/-- The class of a fault on the read of a log entry: a generated range gives NOMAP. -/
def State.readEntry (s : State) (r : Reader) (va : DWord) : State × ReadOut :=
  match s.locate r false va 32 with
  | (s1, .at_ ls) => if ls.any fun l => match l with | .gen .. => true | _ => false then (s1, .fault 1 va) else s.readGlobal r va 32
  | _ => s.readGlobal r va 32

/-- The next entry of a replay, from the last to the first. -/
def Replay.entry (x : Replay) (r : Reader) (out : DWord) : Replay :=
  if x.wait || x.fault.isSome || x.at_.left = 0 then x
  else
    let i := x.at_.left - 1
    let va := x.at_.base + BitVec.ofNat 64 (32 * i)
    let dst := out + BitVec.ofNat 64 (32 * i)
    match x.s.readEntry r va with
    | (s1, .wait) => { x with s := s1, wait := true }
    | (s1, .fault cls _) => { x with s := s1, fault := some (cls, i % 4096) }
    | (s1, .nest _) => { x with s := s1, fault := some (1, i % 4096) }
    | (s1, .bytes bs) =>
      let vals := valuesOf bs
      let bad := (poisonOf bs).isSome
      let n := leNat ((vals.drop 28).take 2) % 4096
      let g := (x.at_.adj.get Adjoint.start.kept n).value
      let (bytes, g1) := g.step vals
      let sick := bad || g.bad
      match s1.entryTarget r dst with
      | (s2, .wait) => { x with s := s2, wait := true }
      | (s2, .fault cls) => { x with s := s2, fault := some (cls, i % 4096) }
      | (s2, .mem ps) =>
        let s2 := s2.performWrites r.part (ps.zip bytes |>.map fun y => ⟨y.1, y.2, 0xFF⟩) sick false none
        { x with
          s := s2
          at_ := { x.at_ with left := i, adj := x.at_.adj.put n { g1 with bad := sick }.kept,
                              rotten := if bad && x.at_.rotten.isNone then some (i % 4096) else x.at_.rotten } }
      | (s2, _) => { x with s := s2, fault := some (5, i % 4096) }

/-- The entries that are left, at most `fuel`. -/
def Replay.run (r : Reader) (out : DWord) : Nat → Replay → Replay
  | 0, x => x
  | fuel + 1, x => Replay.run r out fuel (x.entry r out)

/-- GLAZE_REPLAY: the replay at the head of a core's queue 4 (R286). One that must wait keeps the unit and goes on at the entry it
has come to; GZ_LOGBASE counts as it stood when the replay began (R276). -/
def State.glazeReplay (s : State) (core : Nat) (e : QEntry Q4Kind) (out : DWord) (n : Nat) : State :=
  let k := Config.clusterOf core
  let c := s.cluster k
  let at_ := c.rpl.getD ⟨e.id, c.logBase, n, [], none⟩
  let x := Replay.run (e.reader core 3) out at_.left { s := s, at_ := at_ }
  if x.wait then x.s.setCluster k { x.s.cluster k with rpl := some x.at_ }
  else
    let s1 := x.s.setCluster k { x.s.cluster k with rpl := none }
    match x.fault, x.at_.rotten with
    | some (cls, row), _ => s1.done4 core e 1 cls row
    | none, some row => s1.done4 core e 2 6 row
    | none, none => s1.done4 core e 0 0 0

/-- GLAZE_REPLAY. -/
def execGlazeReplay (core : Nat) (s : State) : Host.Outcome State Fault Refusal :=
  .next (match s.head4 core with
  | some e => (match e.kind with | .replay out n => s.glazeReplay core e out n | _ => s)
  | none => s)

/-! ### Issue (R277, R278, R283 to R286) -/

/-- Enqueues an operation of queue 4 at which the fragment stalls. -/
def Ctx.stall4 (c : Ctx) (kind : Q4Kind) : State :=
  if c.s.queueLen c.core .q4 ≥ queueDepth .q4 then c.park (.room .q4)
  else
    let e := c.entry 4 false kind
    let k := c.s.core c.core
    ((c.s.setCore c.core { k with q4 := k.q4 ++ [e] }).fresh).modWave c.core c.slot fun w =>
      { (w.outstanding 4).modCur (fun f => { f with park := some (.op e.id) }) with ended := true }

/-- Enqueues an operation of queue 4. -/
def Ctx.enqueue4 (c : Ctx) (kind : Q4Kind) : State := c.enqueue .q4 (fun k => { k with q4 := k.q4 ++ [c.entry 4 false kind] }) id

/-- The record numbers that an operand names in some threads: WINDOW when bits 31:12 of one are set. See assumption 116. -/
def Ctx.recordNumbers (c : Ctx) (o : Ops) (x : Opnd) (ts : List Nat) (k : List (Nat × Nat) → State) : State :=
  let val := fun (t : Nat) => c.w.value c.f.exec x .b32 0 t
  match ts.find? fun t => val t ≥ 4096 with
  | some t => c.trap { cause := 7, oper := x.bits.toNat, thread := if o.anyV then t else 0 }
  | none => k (ts.map fun t => (t, val t))

/-- Tags of a record number. -/
def recordTags : Nat → Option (List Nat) := fun _ => some [0, 1, 2]

/-- The arrival of one thread. See assumption 134. -/
def Ctx.arrivalOf (c : Ctx) (o : Ops) (t n : Nat) : Arrival :=
  let key := c.w.valueA c.f.exec o .n32 .n32 t
  let lo := c.w.value c.f.exec o.b .b32 0 t
  let hi := c.w.value c.f.exec (o.b.plus 1) .b32 0 t
  let h := fun (x i : Nat) => BitVec.ofNat 16 (x / 2 ^ (16 * i))
  let part := fun (x : Opnd) => if c.w.poisonAt x false t then some (c.w.originAt x false t) else none
  let ofKey := if c.w.poisonA o false false t then some (if c.w.taintA o false false t then Origin.data else .fault) else none
  let poison := [part o.dst, ofKey, part o.b, part (o.b.plus 1)].foldl joinOrigin none
  ⟨n, BitVec.ofNat 24 (key / 256), [h lo 0, h lo 1, h hi 0], h hi 1, poison⟩

/-- GZARR: every operand is read at issue; poison travels with the arrival. A srcb fill passes the rule of the key's tag
(R123), and of the pair SRCB it is the low register. See assumption 134. -/
def execGzarr (o : Ops) (s : State) : Host.Outcome State Fault Refusal :=
  withCtx s fun c =>
    let keyTags : Nat → Option (List Nat) := fun _ => some [0, 2]
    let fill := match o.xl with
      | .shift _ .srcb | .bcast _ .srcb => usesOf o.b false o.feB true false false keyTags
      | _ => []
    let us := usesOf o.a false o.feA true false false keyTags ++ fill ++ runUses o.b 2 o.feB true false false (fun _ => some [0, 4]) ++
      usesOf o.dst false o.feD true false false recordTags
    c.vector o.guard us fun act => c.recordNumbers o o.dst act.threads fun recs =>
      c.enqueue4 (.arrive (recs.map fun x => c.arrivalOf o x.1 x.2))

/-- GZRD. -/
def execGzrd (o : Ops) (flush : Bool) (s : State) : Host.Outcome State Fault Refusal :=
  withCtx s fun c =>
    let us := usesOf o.a false o.feA true false false recordTags ++ runUses o.dst 8 false false true false fun _ => none
    c.vector o.guard us fun act => c.recordNumbers o o.a act.threads fun recs =>
      let poison := act &&& c.w.poisonOf o.a
      c.stall4 (.read o.dst flush recs poison (if poison = 0 then .fault else c.w.originOf o.a))

/-- GZCLR. -/
def execGzclr (o : Ops) (all : Bool) (s : State) : Host.Outcome State Fault Refusal :=
  withCtx s fun c =>
    if all then c.uniform o.guard [] (c.enqueue4 .clearAll)
    else c.either o (usesOf o.a false o.feA true false (!o.anyV) recordTags) fun act =>
      c.recordNumbers o o.a act.threads fun recs => c.enqueue4 (.clear (recs.map (·.2)))

/-- GZRPL. -/
def execGzrpl (o : Ops) (s : State) : Host.Outcome State Fault Refusal :=
  withCtx s fun c => c.uniform o.guard (scalarUse o.a o.feA ++ scalarUse o.b o.feB) (
    let out := c.w.scalar o.a
    let n := (c.w.scalar o.b).toNat
    if out.toNat % 32 ≠ 0 then c.trap { cause := 15, oper := o.a.bits.toNat }
    else if n ≥ 2 ^ 24 || n > (c.s.cluster (Config.clusterOf c.core)).logN.toNat then c.trap { cause := 15, oper := o.b.bits.toNat }
    else c.memory (c.enqueue .q4 (fun k => { k with q4 := k.q4 ++ [c.entry 4 true (.replay out n)] }) id))

/-- GZST. -/
def execGzst (o : Ops) (s : State) : Host.Outcome State Fault Refusal :=
  withCtx s fun c => c.uniform o.guard (scalarDst o) (c.stall4 (.status o.dst))

end Sys2Proof.Machine
end

