-- ==== Sys2Proof/Machine/Filler.lean ====
section
/-!
DEFINITION. Filler and graph instructions (R305 to R317): FGET, FCMT, FPSN, FEND, GPROBE, TGCOND, TGSIG, TGWAIT and EMIT.
-/
namespace Sys2Proof.Machine

/-! ### Tasks (R306 to R309) -/

/-- Trap FILL. -/
def Trap.fill (x : Opnd) (addr : DWord) : Trap := { cause := 19, oper := x.bits.toNat, addr := addr }

/-- The task that a wave holds, with its generator's entry. -/
def Ctx.task (c : Ctx) : Option (Task × Gen) :=
  match c.w.held with
  | none => none
  | some id =>
    match c.part.tasks.find? fun t => t.id = id with
    | none => none
    | some t => (c.part.gens.find t.gen).map fun g => (t, g)

/-- The queued task of a wave's generator and depth that FGET takes: highest inherited priority, then the oldest (R306). -/
def Ctx.nextTask (c : Ctx) : Option Task :=
  let ts := c.part.tasks.filter fun t => t.queued && some t.gen == c.w.gen && t.depth == c.w.depth
  ts.foldl (fun best t => match best with
    | none => some t
    | some b => if c.s.taskPrio t > c.s.taskPrio b then some t else some b) none

/-- Marks a task as held by a filler. -/
def State.takeTask (s : State) (part id : Nat) : State :=
  let p := s.part part
  s.setPart part { p with tasks := p.tasks.map fun t => if t.id = id then { t with queued := false, filler := true } else t }

/-- FGET marks sd empty and takes first the task bound to the wave, then a queued one; sd becomes full with the task's block, or
with 0 where there is none, when the operation completes (R47, R306). -/
def execFget (o : Ops) (s : State) : Host.Outcome State Fault Refusal :=
  withCtx s fun c => c.uniform o.guard (scalarDst o) (
    if c.w.depth = 0 || c.w.held.isSome then c.trap (Trap.fill o.dst 0)
    else
      let task : Option Task := match c.w.bound with
        | some id => c.part.tasks.find? fun t => t.id = id
        | none => c.nextTask
      let x := match task with
        | some t => BitVec.ofNat 64 (t.block / 512 * 512 + t.gen)
        | none => 0
      let s1 := match task with
        | some t => c.s.takeTask c.w.part t.id
        | none => c.s
      c.next ((s1.modWave c.core c.slot fun w =>
        { w.markEmpty o.dst 0 with held := task.map (·.id), bound := none }).addOps c.core [c.op (.task o.dst x)]))

/-- The lines of a run of one word for each thread at an address, within the held block and all FILLING; none raises FILL
(R307, R308). -/
def Ctx.fillLines (c : Ctx) (a : DWord) : Option (Task × List Nat) :=
  let n := 4 * c.w.width
  match c.task with
  | none => none
  | some (t, g) =>
    let lines := (List.range (n / 128)).map fun i => a.toNat / 128 + i
    let filling := lines.all fun l => match c.s.genLine c.w.part l with | some x => x.state == .filling | none => false
    if c.w.depth = 0 || a.toNat % n ≠ 0 || a.toNat < t.block || a.toNat + n > t.block + g.block || !filling then none else some (t, lines)

/-- The address of a filler instruction: scalar plus offset. -/
def Ctx.fillAddr (c : Ctx) (o : Ops) : DWord := c.w.scalar o.a + BitVec.ofInt 64 o.imm.toInt

/-- Commits one line from the words of a register (R307), whose bytes no check covers on their way (R411). -/
def State.commitLine (s : State) (part line : Nat) (r : VReg) (first : Nat) : State :=
  let ts := (List.range 32).map fun i => first + i
  if ts.any fun t => r.poison.getLsbD t then s.poisonLine part line r.origin
  else
    let (s1, data) := s.cross (ts.flatMap fun t => leBytes 4 (r.vals.getD t 0).toNat)
    s1.setGenLine part line (some ⟨if data.all fun b => b = 0 then .zero else .valid, data, .fault, 0⟩)

/-- FCMT: a release, so it waits for the earlier accesses of the wave (R107). See assumption 113. -/
def execFcmt (o : Ops) (s : State) : Host.Outcome State Fault Refusal :=
  withCtx s fun c => c.vector o.guard (scalarUse o.a o.feA ++ usesOf o.b false o.feB true false false fun _ => none) fun _ =>
    let a := c.fillAddr o
    match c.fillLines a, o.b with
    | some (t, lines), .v n => c.drained (
        let s1 := lines.zipIdx.foldl (fun (st : State) x => st.commitLine c.w.part x.1 (c.w.v n.toNat) (32 * x.2)) c.s
        c.next (s1.settleSlot t))
    | _, _ => c.trap (Trap.fill o.a a)

/-- FPSN. See assumption 113. -/
def execFpsn (o : Ops) (blk : Bool) (s : State) : Host.Outcome State Fault Refusal :=
  withCtx s fun c => c.uniform o.guard (if blk then [] else scalarUse o.a o.feA) (
    let a := c.fillAddr o
    let run := if blk then
        (if c.w.depth = 0 then none else c.task.map fun x => (x.1, (blockLines x.1.block x.2.block).filter fun l =>
          match c.s.genLine c.w.part l with | some g => g.state == .filling | none => false))
      else c.fillLines a
    match run with
    | some (t, lines) => c.drained (c.next ((lines.foldl (fun (st : State) l => st.poisonLine c.w.part l .data) c.s).settleSlot t))
    | none => c.trap (Trap.fill o.a (if blk then 0 else a)))

/-- FEND. -/
def execFend (o : Ops) (s : State) : Host.Outcome State Fault Refusal :=
  withCtx s fun c => c.uniform o.guard [] (
    match c.w.held with
    | some id =>
      if c.w.depth = 0 then c.trap (Trap.fill .unused 0)
      else c.next ((c.s.endTask c.w.part id .fault).modWave c.core c.slot fun w => { w with held := none })
    | none => c.trap (Trap.fill .unused 0))

/-- The state of the line that holds an address (R310): an address that does not translate lies in no line. See assumption 67. -/
def Ctx.probe (c : Ctx) (a : DWord) : Nat :=
  match c.s.lookNow c.core c.w.part ⟨false, false, c.user⟩ a with
  | .gen _ => (match c.s.genLine c.w.part (a.toNat / 128) with
    | some g => (match g.state with | .valid => 1 | .zero => 2 | .filling => 3 | .poison => 4)
    | none => 0)
  | .ok pa _ => (match c.s.llcLine c.w.part (pa / 128) with | some l => if l.zero then 2 else 1 | none => 0)
  | _ => 0

/-- GPROBE. See assumption 67. -/
def execGprobe (o : Ops) (s : State) : Host.Outcome State Fault Refusal :=
  withCtx s fun c => c.uniform o.guard (scalarUse o.a o.feA ++ scalarDst o) (c.memory (
    let a := c.fillAddr o
    if !canonical a then c.trap { cause := 8, detail := 4, oper := o.a.bits.toNat, addr := a }
    else c.done (c.w.putDst o.dst (BitVec.ofNat 64 (c.probe a)))))

/-! ### Conditions and flags (R315, R316) -/

/-- TGCOND: writes a condition word, once the earlier accesses of the wave are performed (R96). See assumption 115. -/
def execTgcond (o : Ops) (s : State) : Host.Outcome State Fault Refusal :=
  withCtx s fun c => c.uniform o.guard (scalarUse o.a o.feA ++ scalarUse o.b o.feB) (c.memory (
    let a := c.spAddr o 0
    let off := a % 2 ^ 19
    let trap := fun (cause : Nat) => c.trap { cause := cause, oper := o.a.bits.toNat, addr := BitVec.ofNat 64 a }
    if bitOf a 31 || (spTarget c.core a 4).isNone then trap 7
    else if a % 4 ≠ 0 then trap 6
    else if c.s.spBlocked c.core off (off + 4) true then c.park (.scoreboard c.core off (off + 4) true)
    else c.spoil.drained (
      let c1 := c.spoil
      c1.next (c1.s.spPut c.core off (leBytes 4 (c.w.scalar o.b).toNat)))))

/-- TGSIG: sets flags, as a release. See assumption 115. -/
def execTgsig (o : Ops) (mask : BitVec 16) (s : State) : Host.Outcome State Fault Refusal :=
  withCtx s fun c => c.uniform o.guard [] (
    if mask = 0 then c.next c.s
    else c.drained (
      let k := c.s.core c.core
      c.next (c.s.setCore c.core { k with flags := k.flags ||| mask })))

/-- TGWAIT: parks until the flags are set, clears them, and acquires. See assumption 115. -/
def execTgwait (o : Ops) (mask : BitVec 16) (s : State) : Host.Outcome State Fault Refusal :=
  withCtx s fun c => c.uniform o.guard [] (
    let k := c.s.core c.core
    if mask = 0 then c.next c.s
    else if k.flags &&& mask = mask then c.next ((c.s.setCore c.core { k.l1Clear with flags := k.flags &&& ~~~mask }).fenceWave c.core c.slot)
    else c.park (.flags mask))

/-! ### EMIT (R317) -/

/-- KIND of a node. -/
def nodeKind (n : Node) : Nat := bitsOf n.toNat 2 0
/-- Words of a RECORD node's records. See assumption 20. -/
def nodeWords (n : Node) : Nat := bitsOf n.toNat 197 192 + 1
/-- Entries of its ring. -/
def nodeEntries (n : Node) : Nat := bitsOf n.toNat 213 200 + 1
/-- Its batch. -/
def nodeBatch (n : Node) : Nat := bitsOf n.toNat 220 214 + 1
/-- Its recursion limit. -/
def nodeMaxDepth (n : Node) : Nat := bitsOf n.toNat 53 48
/-- ARG0 and ARG1. -/
def nodeArg0 (n : Node) : DWord := BitVec.ofNat 64 (bitsOf n.toNat 127 64)
def nodeArg1 (n : Node) : DWord := BitVec.ofNat 64 (bitsOf n.toNat 191 128)

/-- The ring position for the i-th record queued from now on; none when the ring is full there. See assumption 114. -/
def Graph.slotFor (g : Graph) (node : Nat) (n : Node) (i : Nat) : Option Nat :=
  let size := nodeEntries n
  let len := (Tab.get [] g.rings node).length + i
  let pos := (Tab.get 0 g.heads node + len) % size
  if len ≥ size || (Tab.get [] g.inUse node).contains pos then none else some pos

/-- The address of a ring position: records stand one after another (assumption 20). -/
def ringAddr (n : Node) (pos : Nat) : DWord := nodeArg1 n + BitVec.ofNat 64 (4 * nodeWords n * pos)

/-- Queues the records of some threads: their words are stored in the ring. See assumption 68. -/
def Ctx.queueRecords (c : Ctx) (o : Ops) (g : Graph) (node : Nat) (n : Node) (act : Mask) (places : List (Nat × Nat)) : State :=
  let k := nodeWords n
  let accs := places.map fun x => (x.1, ringAddr n x.2, List.range (4 * k))
  c.reachAll o true accs (fun _ => false) fun c1 ps =>
    let bytes := fun (t : Nat) => (List.range k).flatMap fun i => wholeBytes 4 (c.w.value c.f.exec (o.a.plus i) .b32 0 t)
    let id := c1.s.uid
    let s1 := c1.sendStores (ps.map fun p => (p.1, placeBytes (bytes p.1) p.2)) false
    let queue := (Tab.get [] g.rings node) ++ places.map fun _ => (⟨c.w.recDepth + 1, id⟩ : Record)
    let core := s1.core c.core
    let s2 := s1.setCore c.core { core with graph := some { g with rings := Tab.put g.rings node queue } }
    let p := Opnd.predNum o.dst
    c.next (s2.modWave c.core c.slot fun w => w.setP p ((w.p p).write act act 0 .fault))

/-- EMIT, for a RECORD node of the core's graph with k words in a record. See assumption 68. -/
def Ctx.emit (c : Ctx) (o : Ops) (g : Graph) (node : Nat) (n : Node) (act : Mask) : State :=
  let ts := act.threads
  if c.w.recDepth + 1 > nodeMaxDepth n then
    if bitOf n.toNat 15 then c.trap { cause := 20, thread := ts.headD 0 }
    else
      let k := c.s.core c.core
      let p := Opnd.predNum o.dst
      let s1 := c.s.setCore c.core { k with graph := some { g with clips := min (g.clips + ts.length) 0xFFFF } }
      c.next (s1.modWave c.core c.slot fun w => w.setP p ((w.p p).write act 0 0 .fault))
  else
    let slots := ts.zipIdx.map fun x => (x.1, g.slotFor node n x.2)
    match slots.find? fun x => x.2.isNone with
    | some x => c.trap { cause := 21, thread := x.1 }
    | none => c.drained (c.queueRecords o g node n act (slots.filterMap fun x => x.2.map fun p => (x.1, p)))

/-- EMIT: ILLEGAL without a graph, for another kind of node, or another record size. See assumption 68. -/
def execEmit (o : Ops) (node : BitVec 6) (regs : BitVec 4) (s : State) : Host.Outcome State Fault Refusal :=
  withCtx s fun c =>
    let k := regs.toNat + 1
    let found := match (c.s.core c.core).graph with
      | none => none
      | some g => (match g.nodes[node.toNat]? with
        | some n => if nodeKind n = 5 && nodeWords n = k then some (g, n) else none
        | none => none)
    if c.active o.guard = 0 then c.next c.s
    else match found with
      | none => c.trap Trap.illegal
      | some (g, n) =>
        c.vector o.guard (runUses o.a k o.feA true false true fun _ => none) fun act => c.memory (c.spoil.emit o g node.toNat n act)

end Sys2Proof.Machine
end

