-- ==== Sys2Proof/Machine/Loads.lean ====
section
/-!
DEFINITION. The events that complete memory operations: loads, node and VXM fetches (R47, R77 to R81, R204, R246, R249), special
functions, stores, atomics and SC at their slices (R103, R104, R210 to R213), remote scratchpad stores and inbound credits.
-/
namespace Sys2Proof.Machine

/-! ### Order among the operations of a wave (R112) -/

/-- Whether an operation acts at the slices past the L1 of its core. -/
def MemKind.atSlice : MemKind → Bool
  | .load _ _ _ _ _ _ lr _ => lr
  | .store .. | .atom .. | .sc .. | .acq .. | .vxm .. => true
  | _ => false

/-- Whether an earlier operation on the same line is still under way which this one follows: one of its wave; and, for one that acts at
the slices, a store of the core that its L1 shows already, so that nobody sees values in another order than the slice's (R94, R99). See assumption 43. -/
def State.lineHeld (s : State) (core k : Nat) (m : MemOp) : Bool :=
  let q := (s.core core).memq
  let earlier := q.zipIdx.take k
  if earlier.isEmpty then false
  else
    let shown := if m.kind.atSlice then s.shownStores core else []
    let follows := earlier.filter fun x => x.1.wave = m.wave || shown.contains x.2
    let keys := s.opKeys core (s.opPart core m) m
    follows.any fun x => (s.opKeys core (s.opPart core x.1) x.1).any keys.contains

/-- The lines that an operation writes at their slices, or may write. -/
def MemOp.stores (m : MemOp) : List Nat :=
  match m.kind with
  | .store _ bytes _ _ => (bytes.map fun b => b.addr / 128).eraseDups
  | .atom _ _ addr .. => [addr / 128]
  | .sc _ _ addr .. => [addr / 128]
  | _ => []

/-- Whether an earlier write of the core to the home slice of one of the operation's lines could be performed now: what one agent sends to
one slice arrives in the order in which it was sent (R395). See assumption 43. -/
def State.pathHeld (s : State) (core k : Nat) (m : MemOp) : Bool :=
  let earlier := (s.core core).memq.zipIdx.take k
  let writes := earlier.filter fun x => !x.1.stores.isEmpty && !s.lineHeld core x.2 x.1 && s.writableAll x.1.part x.1.stores
  if writes.isEmpty then false
  else
    let homes := (s.opKeys core m.part m).map (s.home m.part)
    writes.any fun x => x.1.stores.any fun l => homes.contains (s.home x.1.part (.phys l))

/-- Whether an operation waits for an earlier one of its core. See assumption 43. -/
def State.opHeld (s : State) (core k : Nat) (m : MemOp) : Bool := s.lineHeld core k m || s.pathHeld core k m

/-- An operation that has touched a failed channel or slice ends its launch with FAULTED (R371, R413). See assumption 53. -/
def State.noteChannel (s : State) (core : Nat) (m : MemOp) : State :=
  if s.channels.any (fun c => c.2.failed) || !s.dev.failedSlices.isEmpty then s.noteLines m.part (some m.launch) (s.opKeys core m.part m) else s

/-- Removes the k-th operation of a core. -/
def State.dropOp (s : State) (core k : Nat) : State :=
  let s0 := match (s.core core).memq[k]? with | some m => s.noteChannel core m | none => s
  let c := s0.core core
  s0.setCore core { c with memq := c.memq.eraseIdx k }

/-- Changes the k-th operation of a core. -/
def State.modOp (s : State) (core k : Nat) (g : MemOp → MemOp) : State :=
  let c := s.core core
  s.setCore core { c with memq := c.memq.zipIdx.map fun x => if x.2 = k then g x.1 else x.1 }

/-! ### Reading for a load -/

/-- The reader that a memory operation is. -/
def MemOp.reader (m : MemOp) (core part : Nat) : Reader :=
  { core := core, part := part, uid := m.wave, depth := m.depth, op := m.id, user := m.level == .user, now := false, bad := m.bad, agent := 0
    launch := some m.launch }

/-- What one thread's access meets: its bytes by location, a fault, a line that no fill may bring (R298), or a wait. -/
inductive LaneRead where
  | locs (ls : List Loc)
  | fault
  | wait
  deriving DecidableEq, Repr

/-- Locates the accesses of the threads of an operation. -/
def State.locateAll (s : State) (r : Reader) (accs : List (Nat × Option DWord)) (n : Nat) : State × List (Nat × LaneRead) :=
  accs.foldl (fun acc a =>
    match a.2 with
    | none => (acc.1, acc.2 ++ [(a.1, .fault)])
    | some va =>
      match acc.1.locate r false va n with
      | (s1, .wait) => (s1, acc.2 ++ [(a.1, .wait)])
      | (s1, .fault _ _) => (s1, acc.2 ++ [(a.1, .fault)])
      | (s1, .at_ ls) => (s1, acc.2 ++ [(a.1, .locs ls)])) (s, [])

/-- The bytes of a line as the slice holds it, with its poison. -/
def State.lineBytes (s : State) (part : Nat) (bad : List Nat) (k : LineKey) : List (Byte × Option Origin) :=
  (List.range 128).map fun i => s.byteAt part bad (match k with | .phys l => .phys (l * 128 + i) | .gen p l => .gen p l i)

/-- Whether a line is one that peers may forward: its page is read-only or marked, or it is a VALID generated line (R80, R89); none of a tile
region is (R380). -/
def State.forwards (s : State) (core part : Nat) (va : DWord) : Bool :=
  match s.lookNow core part ⟨false, false, false⟩ va with
  | .ok _ e => !isTile e.leaf && (!bitOf e.leaf.toNat 3 || bitOf e.leaf.toNat 6)
  | .gen _ => (match s.genLine part (va.toNat / 128) with | some g => g.state == .valid | none => false)
  | _ => false

/-- Notes that a cluster has fetched a line by LDNC; the core's predictor learns the cluster that did so before (R80). See assumption 7. -/
def State.noteNc (s : State) (core : Nat) (k : LineKey) : State :=
  let named := (s.ncLast.find? fun x => x.1 = k).map (·.2)
  let c := s.core core
  let slot := Config.predictorHash k.code % 256
  let s1 := match named with
    | some cl => s.setCore core { c with pred := c.pred.put slot (some cl) }
    | none => s
  { s1 with ncLast := (s1.ncLast.filter fun x => x.1 ≠ k) ++ [(k, Config.clusterOf core)] }

/-- How an operation goes through the L1: whether as LDNC, and when its wave last acquired or fenced at cluster scope or wider (R81). -/
structure L1Way where
  nc     : Bool
  fenced : Nat
  deriving DecidableEq, Repr

/-- The lines of an operation that the L1 treats apart: those that an LDNC may take from a peer (R80), and those of tile regions (R380). -/
structure L1View where
  peers : List LineKey
  tiles : List LineKey
  deriving DecidableEq, Repr

/-- Whether an address lies in a tile region. -/
def State.inTile (s : State) (core part : Nat) (va : DWord) : Bool :=
  match s.lookNow core part ⟨false, false, false⟩ va with
  | .ok _ e => isTile e.leaf
  | _ => false

/-- What the L1 makes of the lines of some located accesses. -/
def State.l1View (s : State) (core part : Nat) (nc : Bool) (accs : List (DWord × List Loc)) : L1View :=
  let met := (accs.flatMap fun a => a.2.zipIdx.map fun x => (x.1.key, (a.1 + BitVec.ofNat 64 x.2).toNat / 128)).eraseDups
  let of := fun (f : DWord → Bool) => ((met.filter fun x => f (BitVec.ofNat 64 (128 * x.2))).map (·.1)).eraseDups
  ⟨if nc then of (s.forwards core part) else [], of (s.inTile core part)⟩

/-- A byte as a core's L1 receives it from below: the slice's, under the stores that the core has sent and its L1 shows (R77, R94). See assumptions 42, 43. -/
def State.byteBelow (s : State) (part : Nat) (bad : List Nat) (sent : List ByteWrite) (l : Loc) : Byte × Option Origin :=
  let x := s.byteAt part bad l
  match l with
  | .phys pa => (overlay sent pa x.1, x.2)
  | .gen _ _ _ => x

/-- Brings lines that were read from their slices into the L1, unless they hold poison (R77, R78) or lie in a tile region (R380). -/
def State.fillL1 (s : State) (core part : Nat) (bad : List Nat) (sent : List ByteWrite) (view : L1View) (ks : List LineKey) : State :=
  ks.foldl (fun (st : State) k =>
    let bytes := (List.range 128).map fun i => st.byteBelow part bad sent (match k with | .phys l => .phys (l * 128 + i) | .gen p l => .gen p l i)
    let st1 := if view.peers.contains k then st.noteNc core k else st
    if (poisonOf bytes).isSome || view.tiles.contains k then st1
    else (st1.setCore core ((st1.core core).l1Fill core st1.freeCtr ⟨k, valuesOf bytes, false, st1.uid⟩)).draw) s

/-- The copy that an operation hits. -/
def State.hit (s : State) (core : Nat) (way : Option L1Way) (view : L1View) (k : LineKey) : Option L1Line :=
  way.bind fun w => (s.core core).l1Hit (view.peers.contains k) w.fenced k

/-- A byte as a core reads it: from its L1 where the operation hits, else from below. -/
def State.byteSeen (s : State) (core part : Nat) (way : Option L1Way) (view : L1View) (bad : List Nat) (sent : List ByteWrite) (l : Loc) :
    Byte × Option Origin :=
  match s.hit core way view l.key with
  | some x => (x.data.getD l.off 0, none)
  | none => if way.isSome then s.byteBelow part bad sent l else s.byteAt part bad l

/-- Lines of a core's L1 with uncorrectable data are dropped when an access meets them (R78). See assumption 4. -/
def State.dropBadL1 (s : State) (core : Nat) (ks : List LineKey) : State :=
  let met := s.l1Bad.filter fun x => x.1 = core && ks.contains x.2 && ((s.core core).l1Find x.2).isSome
  met.foldl (fun st x => { st.setCore core ((st.core core).l1Drop x.2) with l1Bad := st.l1Bad.filter fun y => y ≠ x }) s

/-- An operation that waits on a FILLING line is marked (R107). -/
def State.markFilling (s : State) (core op : Nat) (ks : List LineKey) : State :=
  let filling := ks.any fun k => match k with
    | .gen p l => (match s.genLine p l with | some g => g.state == .filling | none => false)
    | .phys _ => false
  if !filling then s
  else
    let c := s.core core
    s.setCore core { c with memq := c.memq.map fun m => if m.id = op then { m with waited := true } else m }

/-- The bytes that the threads of an operation read, once every line is at hand. -/
structure ReadDone where
  s     : State
  lanes : List (Nat × Option (List (Byte × Option Origin)))  -- none: the thread is poisoned with origin FAULT
  nests : List (Nat × DWord)                                 -- threads that met a line that no fill may bring

/-- The address of the first byte of a key's line. -/
def LineKey.addr (k : LineKey) : DWord := BitVec.ofNat 64 (k.num * 128)

/-- Reads for all threads of an operation, or answers the state in which it waits. `way` for accesses that go through the L1, which
allocate there what they miss. See assumption 44. -/
def State.readLanes (s : State) (r : Reader) (accs : List (Nat × Option DWord)) (n : Nat) (way : Option L1Way) : Sum State ReadDone :=
  let (s0, ls) := s.locateAll r accs n
  if ls.any fun x => x.2 == .wait then .inl s0
  else
    let locs := ls.flatMap fun x => match x.2 with | .locs l => l | _ => []
    let keys := keysOfLocs locs
    let s1 := if way.isSome then s0.dropBadL1 r.core keys else s0
    let view := match way with
      | some w => s1.l1View r.core r.part w.nc (accs.filterMap fun a => match a.2, (ls.find? fun x => x.1 = a.1).map (·.2) with
        | some va, some (.locs l) => some (va, l)
        | _, _ => none)
      | none => ⟨[], []⟩
    let absent := keys.filter fun k => (s1.hit r.core way view k).isNone
    let (s2, outs) := s1.readyAll r absent
    let sent := if way.isSome && !absent.isEmpty then s2.shownBytes r.core else []
    if outs.any fun o => o.2 == .wait then .inl (s2.markFilling r.core r.op absent)
    else
      let nest := (outs.filter fun o => o.2 == .nest).map (·.1)
      let met := fun (l : List Loc) => (l.find? fun x => nest.contains x.key).map fun x => x.key.addr
      let lanes := ls.map fun x => match x.2 with
        | .locs l => (x.1, if (met l).isSome then none else some (l.map (s2.byteSeen r.core r.part way view r.bad sent)))
        | _ => (x.1, none)
      let nests := ls.filterMap fun x => match x.2 with | .locs l => (met l).map fun a => (x.1, a) | _ => none
      let got := absent.filter fun k => !nest.contains k
      .inr ⟨if way.isSome then s2.fillL1 r.core r.part r.bad sent view got else s2, lanes, nests⟩

/-! ### Writing what was read -/

/-- What one register receives: per thread its word and the origin of its poison. -/
abbrev RegIn := List (Nat × Word × Option Origin)

/-- Writes a vector register of a completed load: full, its tag as it was set at issue (R46), with a pending nest trap. -/
def VReg.load (r : VReg) (xs : RegIn) (mark : Option NestMark) : VReg :=
  let act := Mask.ofPred fun t => xs.any fun x => x.1 = t
  let poison := Mask.ofPred fun t => xs.any fun x => x.1 = t && x.2.2.isSome
  let data := xs.any fun x => x.2.2 == some .data
  { r.write act (fun t => match xs.find? fun x => x.1 = t with | some x => x.2.1 | none => 0) poison (if data then .data else .fault) r.tag with
    nest := mark }

/-- The pending mark that a depth-2 filler's register takes (R298): by the policy of the filler's own generator. -/
def State.nestMark (s : State) (w : Wave) (nests : List (Nat × DWord)) : Option NestMark :=
  match nests, w.gen.bind fun g => (s.part w.part).gens.find g with
  | x :: rest, some g =>
    let low := rest.foldl (fun (b : Nat × DWord) y => if y.1 < b.1 then y else b) x
    if g.trap then some ⟨low.2, g.handler⟩ else none
  | _, _ => none

/-- Writes the scalar of a uniform load. -/
def SReg.load (x : DWord) (bad : Option Origin) (mark : Option NestMark) : SReg :=
  ⟨x, true, bad.isSome, bad.getD .fault, mark⟩

/-- The words that each thread's registers receive from its bytes: by register; uncorrectable data poisons all of them (R204). -/
def laneRegs (ty : Ty) (one : Bool) (sub cnt : Nat) (bs : List (Byte × Option Origin)) : List (Word × Option Origin) :=
  let n := regBytes ty one
  (List.range cnt).flatMap fun i =>
    (loadWords ty one sub (valuesOf ((bs.drop (n * i)).take n))).map fun w => (w, poisonOf bs)

/-- Writes the registers of a completed load; values of threads that have exited are discarded (R191). -/
def State.putLoad (s : State) (w : Wave) (dst : Opnd) (ty : Ty) (one : Bool) (cnt : Nat) (sub : Nat) (d : ReadDone) : Wave :=
  let mark := s.nestMark w d.nests
  let regs := accessRegs dst ty cnt
  let lanes := (d.lanes.filter fun x => dst.isS || w.lives.getLsbD x.1).map fun x => (x.1, x.2.map (laneRegs ty one sub cnt))
  let at_ := fun (i t : Nat) (l : Option (List (Word × Option Origin))) => match l with
    | some ws => let w := ws.getD i (0, none); (if w.2.isSome then Config.poisonedBits (s.freeCtr * 128 + t) else w.1, w.2)
    | none => (Config.poisonedBits (s.freeCtr * 128 + t), some Origin.fault)
  regs.zipIdx.foldl (fun (w : Wave) r =>
    match r.1 with
    | .v n => w.setV n.toNat ((w.v n.toNat).load (lanes.map fun x => let y := at_ r.2 x.1 x.2; (x.1, y.1, y.2)) mark)
    | .s n =>
      (match lanes with
      | x :: _ =>
        let lo := at_ (if ty.is64 then 2 * r.2 else r.2) x.1 x.2
        let hi := at_ (2 * r.2 + 1) x.1 x.2
        let v := if ty.is64 then BitVec.ofNat 64 (lo.1.toNat + 2 ^ 32 * hi.1.toNat) else s.scalarOf ty one lo.1
        w.setS n.toNat (SReg.load v lo.2 mark)
      | [] => w)
    | _ => w) w

/-! ### LOAD_COMPLETION -/

/-- Changes the wave of an operation, if it is still there. -/
def State.modOpWave (s : State) (core : Nat) (m : MemOp) (g : Wave → Wave) : State :=
  match s.wave? core m.slot with
  | some w => if w.uid = m.wave then s.setWave core m.slot (g w) else s
  | none => s

/-- Invalidates the whole L1 before the registers of a load that waited on a FILLING line become full (R107). -/
def State.wokenL1 (s : State) (core : Nat) (m : MemOp) : State :=
  if m.waited then s.setCore core ((s.core core).l1Clear) else s

/-- Ends an operation after its registers have been written. -/
def State.endOp (s : State) (core : Nat) (m : MemOp) : State :=
  let s0 := s.noteChannel core m
  let c := s0.core core
  (s0.setCore core { c with memq := c.memq.filter fun x => x.id ≠ m.id }).dropWalks core m.id

/-- An SC that waits to learn what its LR reserved learns it: the LR has reserved the line given for its thread, if any. -/
def MemKind.learn (lr : Nat) (lines : List (Nat × Nat)) : MemKind → MemKind
  | .sc dst thread addr ty data holds (some id) =>
    if id = lr then .sc dst thread addr ty data (holds && lines.contains (thread, addr / 128)) none else .sc dst thread addr ty data holds (some id)
  | k => k

/-- The lines that an LR of some threads reserves, once their values are bound (R104); a thread without one holds no reservation. -/
def State.reserve (s : State) (core : Nat) (m : MemOp) (lines : List (Nat × Nat)) : State :=
  let line := fun (t : Nat) => (lines.find? fun x => x.1 = t).map (·.2)
  let bind := fun (r : Resv) => if r.op = m.id then (line r.thread).map fun l => { r with line := some l } else some r
  let s1 := s.modOpWave core m fun w => w.mapFragments fun f => { f with resv := f.resv.filterMap bind }
  let c := s1.core core
  s1.setCore core { c with memq := c.memq.map fun x => if x.wave = m.wave then { x with kind := x.kind.learn m.id lines } else x }

/-- When the wave of an operation last acquired or fenced at cluster scope or wider (R81). -/
def State.fencedOf (s : State) (core : Nat) (m : MemOp) : Nat :=
  match s.wave? core m.slot with | some w => if w.uid = m.wave then w.fenced else 0 | none => 0

/-- Whether an operation is a PREF. See assumption 117. -/
def MemKind.prefetches : MemKind → Bool
  | .load .zero .. | .load .unused .. => true
  | _ => false

/-- The threads of a PREF whose addresses do not fault now: one that does, also recoverably, is dropped (R214). -/
def State.prefetched (s : State) (core part : Nat) (m : MemOp) (accs : List (Nat × Option DWord)) : List (Nat × Option DWord) :=
  accs.filter fun a => a.2.any fun va => match s.lookNow core part ⟨false, false, m.level == .user⟩ va with
    | .ok _ _ | .gen _ => true
    | _ => false

/-- Completes a load of LD, LDNC, LDU, LR or PREF. -/
def State.finishLoad (s : State) (core part : Nat) (m : MemOp) (dst : Opnd) (ty : Ty) (one : Bool) (cnt sub : Nat) (nc lr : Bool)
    (all : List (Nat × Option DWord)) : State :=
  let r := m.reader core part
  let n := regBytes ty one * cnt
  let quiet := dst = .unused
  let accs := if m.kind.prefetches then s.prefetched core part m all else all
  match s.readLanes r accs n (if lr || quiet then none else some ⟨nc, s.fencedOf core m⟩) with
  | .inl s1 => s1
  | .inr d =>
    if dst = .zero || dst = .unused then d.s.endOp core m
    else
      let s1 := d.s.wokenL1 core m
      let s2 := s1.modOpWave core m fun w => s1.putLoad w dst ty one cnt sub d
      let s3 := if lr then
          let lines := accs.filterMap fun a => a.2.bind fun va => (match (s2.locate r false va n).2 with
            | .at_ (x :: _) => some (a.1, x.key)
            | _ => none)
          let c := s2.core core
          (s2.setCore core (lines.foldl (fun (c : Core) x => c.l1Drop x.2) c)).reserve core m (lines.map fun x => (x.1, x.2.resvNo))
        else s2
      (s3.draw).endOp core m

/-- Whether stores of the core that a release of their wave at team scope has passed are still to be performed: an acquire on the core waits for them
(R98, R114). See assumption 126. -/
def State.passedStores (s : State) (core : Nat) (m : MemOp) : Bool :=
  (s.core core).memq.any fun x => x.released && x.wave ≠ m.wave && !x.stores.isEmpty

/-- Completes the read of an ACQ: the value is bound, then the acquire takes effect (R97, R216). -/
def State.finishAcq (s : State) (core part : Nat) (m : MemOp) (dst : Opnd) (addr : DWord) (scope : Scope) : State :=
  if s.passedStores core m then s
  else match s.readLanes (m.reader core part) [(0, some addr)] 8 none with
  | .inl s1 => s1
  | .inr d =>
    let s1 := d.s.wokenL1 core m
    let s2 := s1.modOpWave core m fun w => s1.putLoad w dst .n64 false 1 0 d
    let s3 := match s2.wave? core m.slot with
      | some w => if w.uid = m.wave then s2.acquire core w false addr else s2
      | none => s2
    (if scope.wide then s3.fenceWave core m.slot else s3).draw.endOp core m

/-- A thread's poison under an upset. -/
def Flip.poisons (x : Flip) (bad : Option Origin) : Option Origin :=
  if x.getLsbD 257 then (match bad with | some _ => none | none => some .fault) else bad

/-- The results of a node or triangle test for each thread. -/
def nodeRegs (tri sort : Bool) (rays : List (Nat × Option DWord × List Word)) (poison : Mask) (org : Origin) (flips : Tab Flip)
    (free : Nat) (d : ReadDone) : List (Nat × List (Word × Option Origin)) :=
  rays.map fun x =>
    let t := x.1
    let n := if tri then 4 else 8
    let own := if poison.getLsbD t then some org else none
    let flip : Flip := flips.get 0 t
    let (vals, bad) := match (d.lanes.find? fun l => l.1 = t).bind (·.2) with
      | none => (List.replicate n (Config.poisonedBits (free * 128 + t)), joinOrigin own (some .fault))
      | some bs => (if tri then triResult x.2.2 (valuesOf bs) else boxResult sort x.2.2 (valuesOf bs), joinOrigin own (poisonOf bs))
    (t, vals.zipIdx.map fun v => (v.1 ^^^ BitVec.ofNat 32 (flip.word v.2), flip.poisons bad))

/-- Writes a run of vector registers from each thread's words; those of threads that have exited are discarded (R191). -/
def Wave.putRun (w : Wave) (dst : Opnd) (n : Nat) (xs : List (Nat × List (Word × Option Origin))) (mark : Option NestMark) : Wave :=
  (accessRegs dst .b32 n).zipIdx.foldl (fun (w : Wave) r =>
    match r.1 with
    | .v k => w.setV k.toNat ((w.v k.toNat).load ((xs.filter fun x => w.lives.getLsbD x.1).map fun x => let y := x.2.getD r.2 (0, none); (x.1, y.1, y.2)) mark)
    | _ => w) w

/-- Completes a node or triangle fetch (R249). -/
def State.finishNode (s : State) (core part : Nat) (m : MemOp) (dst : Opnd) (tri sort : Bool) (rays : List (Nat × Option DWord × List Word))
    (poison : Mask) (org : Origin) (flips : Tab Flip) : State :=
  match s.readLanes (m.reader core part) (rays.map fun x => (x.1, x.2.1)) (if tri then 48 else 128) (some ⟨false, 0⟩) with
  | .inl s1 => s1
  | .inr d =>
    let s1 := d.s.wokenL1 core m
    let xs := nodeRegs tri sort rays poison org flips s1.freeCtr d
    ((s1.modOpWave core m fun w => w.putRun dst (if tri then 4 else 8) xs (s1.nestMark w d.nests)).draw).endOp core m

/-- The eight results of VXM for one thread and the exceptions they raise (R246). -/
def vxmResult (mode : Nat) (flush : Bool) (x d : List Word) (block : List Byte) : List FRes :=
  let xe := fun (k : Nat) => bf16.flushed flush (elem 16 (x.getD (k / 2) 0).toNat (k % 2))
  let be := fun (k j : Nat) => bf16.flushed flush (leNat ((block.drop (16 * k + 2 * j)).take 2))
  (List.range 8).map fun j =>
    let acc := fp32.value (d.getD j 0).toNat
    let prods := (List.range 16).map fun k => (xe k).mul (be k j)
    let (v, e) := sumVals mode (acc :: prods.map (·.1))
    let ins := acc :: (List.range 16).flatMap fun k => [xe k, be k j]
    let r := fp32.fromVal mode false false v
    ⟨r.bits, nanExc ins ++ prods.flatMap (·.2) ++ e ++ r.exc⟩

/-- Completes a VXM: sums, poison, and the exceptions counted now. -/
def State.finishVxm (s : State) (core part : Nat) (m : MemOp) (dst : Opnd) (mode : Nat) (flush : Bool)
    (accs : List (Nat × Option DWord × List Word × List Word)) (poison : Mask) (org : Origin) (flips : Tab Flip) (iaddr : DWord)
    (word : BitVec 96) : State :=
  match s.readLanes (m.reader core part) (accs.map fun x => (x.1, x.2.1)) 256 none with
  | .inl s1 => s1
  | .inr d =>
    let s1 := d.s.wokenL1 core m
    let outs : List (Nat × List (Word × Option Origin) × List XClass) := accs.map fun x =>
      let flip : Flip := flips.get 0 x.1
      let own := if poison.getLsbD x.1 then some org else none
      let (vals, bad, exc) : List Word × Option Origin × List XClass := match (d.lanes.find? fun l => l.1 = x.1).bind (·.2) with
        | none => (List.replicate 8 (Config.poisonedBits (s1.freeCtr * 128 + x.1)), joinOrigin own (some .fault), ([] : List XClass))
        | some bs =>
          let rs : List FRes := vxmResult mode flush x.2.2.1 x.2.2.2 (valuesOf bs)
          (rs.map fun (v : FRes) => BitVec.ofNat 32 v.bits, joinOrigin own (poisonOf bs), rs.flatMap fun (v : FRes) => v.exc)
      (x.1, vals.zipIdx.map fun v => (v.1 ^^^ BitVec.ofNat 32 (flip.word v.2), flip.poisons bad), exc)
    let s2 := s1.modOpWave core m fun w => w.putRun dst 8 (outs.map fun x => (x.1, x.2.1)) (s1.nestMark w d.nests)
    ((s2.countAll core m.slot m.wave (tally (outs.map fun x => x.2.2)) iaddr word).draw).endOp core m

/-- LOAD_COMPLETION: the k-th operation of a core, if it reads and nothing that it must follow is under way; otherwise, or
while a translation or a line is still to come, nothing but its requests. See assumption 44. -/
def State.loadDone (s : State) (core k : Nat) : State :=
  match (s.core core).memq[k]? with
  | none => s
  | some m =>
    let part := s.opPart core m
    if s.opHeld core k m then s
    else match m.kind with
    | .load dst ty one cnt sub nc lr accs => s.finishLoad core part m dst ty one cnt.num sub.toNat nc lr accs
    | .acq dst addr scope => s.finishAcq core part m dst addr scope
    | .node dst tri sort rays poison org flips => s.finishNode core part m dst tri sort rays poison org flips
    | .vxm dst rnd flush accs poison org flips iaddr word => s.finishVxm core part m dst rnd flush accs poison org flips iaddr word
    | _ => s

/-- LOAD_COMPLETION. -/
def execLoadCompletion (core k : Nat) (s : State) : Host.Outcome State Fault Refusal := .next (s.loadDone core k)

/-! ### PEER_PROBE (R80, R81) -/

/-- A peer's copy of a line that a wave's LDNC may take, with the stamp from which its bytes have been current: one current since the
wave's last acquire or fence, or still current now. Only a cluster of the wave's partition answers, in its turn (R390). See assumption 48. -/
def State.peerCopy (s : State) (part cluster : Nat) (k : LineKey) (fenced : Nat) : Option L1Line :=
  let now := valuesOf (s.lineBytes part [] k)
  let fit := fun (l : L1Line) => if l.data == now then some { l with at_ := s.uid } else if fenced ≤ l.at_ then some l else none
  if !(s.part part).clusters.getLsbD cluster || (match (s.cluster cluster).turn with | some p => p != part | none => false) then none
  else (List.range Config.allCores).findSome? fun c =>
    if Config.clusterOf c = cluster && !s.l1Bad.contains (c, k) then ((s.core c).l1Find k).bind fit else none

/-- PEER_PROBE: an LDNC that misses takes eligible lines from the cluster that its predictor names; each byte is the peer's or
the current one, and only LDNC sees them (R81, R102). See assumptions 7, 48. -/
def State.peerProbe (s : State) (core k : Nat) : State :=
  match (s.core core).memq[k]? with
  | none => s
  | some m =>
    match m.kind with
    | .load _ ty one cnt _ true _ accs =>
      let part := s.opPart core m
      let fenced := s.fencedOf core m
      let lines := (accs.flatMap fun a => match a.2 with | some va => linesOf va (regBytes ty one * cnt.num) | none => []).eraseDups
      lines.foldl (fun (st : State) l =>
        if !st.forwards core part (BitVec.ofNat 64 (l * 128)) then st
        else (st.keysOf core part l).eraseDups.foldl (fun (st : State) key =>
          let c := st.core core
          let slot := Config.predictorHash key.code % 256
          match c.l1Hit true fenced key, c.pred.get none slot with
          | none, some cl =>
            (match st.peerCopy part cl key fenced with
            | some x =>
              let now := st.lineBytes part [] key
              let pick := fun (b : Byte) (y : Byte × Option Origin) (i : Nat) =>
                if y.2.isSome || Config.ldncStale (st.freeCtr * 128 + i) then b else y.1
              let data := x.data.zipIdx.map fun b => pick b.1 (now.getD b.2 (b.1, none)) b.2
              (st.setCore core (c.l1Fill core st.freeCtr ⟨key, data, true, x.at_⟩)).draw
            | none => st)
          | _, _ => st) st) s
    | _ => s

/-- PEER_PROBE. -/
def execPeerProbe (core k : Nat) (s : State) : Host.Outcome State Fault Refusal := .next (s.peerProbe core k)

/-! ### SPECIAL_FUNCTION_COMPLETION (R47, R159) -/

/-- Writes the value of a special function in the threads that have not exited (R191). -/
def Wave.putValue (w : Wave) (dst : Opnd) (vals : List Word) (act poison : Mask) (org : Origin) : Wave :=
  match dst with
  | .v n => w.setV n.toNat ((w.v n.toNat).write (act &&& w.lives) (fun t => vals.getD t 0) poison org (w.v n.toNat).tag)
  | .s n => w.setS n.toNat (SReg.write (extend32 false (vals.headD 0).toNat) (poison != 0) org)
  | _ => w

/-- SPECIAL_FUNCTION_COMPLETION: the value of a special function, or the task that an FGET has taken (R306). -/
def execSpecialFunctionCompletion (core k : Nat) (s : State) : Host.Outcome State Fault Refusal :=
  .next (match (s.core core).memq[k]? with
  | some m => (match m.kind with
    | .value dst vals act poison org exc iaddr word =>
      ((s.modOpWave core m fun w => w.putValue dst vals act poison org).countAll core m.slot m.wave exc iaddr word).dropOp core k
    | .task dst x => (s.modOpWave core m fun w => w.putDst dst x).dropOp core k
    | _ => s)
  | none => s)

/-! ### STORE_PERFORMED (R94, R103, R104, R210 to R213) -/

/-- Writes one thread of the destination of an atomic, unless it has exited (R191); the register becomes full with the last thread. See assumption 33. -/
def Wave.putLane (w : Wave) (dst : Opnd) (ty : Ty) (t : Nat) (x : DWord) (high : Word) (bad : Option Origin) (last : Bool) : Wave :=
  match dst with
  | .v n =>
    let one := fun (w : Wave) (i : Nat) (v : Word) =>
      let r := w.v (n.toNat + i)
      w.setV (n.toNat + i) { r.write (Mask.one t &&& w.lives) (fun _ => v) (if bad.isSome then Mask.one t else 0) (bad.getD .fault) r.tag with full := last }
    let w1 := one w 0 (x.setWidth 32)
    if ty.is64 then one w1 1 ((x >>> 32).setWidth 32) else w1
  | .s n =>
    let v := if ty.is64 then x else BitVec.ofNat 64 (x.toNat % 2 ^ 32 + 2 ^ 32 * high.toNat)
    w.setS n.toNat ⟨v, true, bad.isSome, bad.getD .fault, none⟩
  | _ => w

/-- Whether the k-th operation is the last of its instruction. -/
def Core.lastOf (c : Core) (k id : Nat) : Bool := !(c.memq.zipIdx.any fun x => x.1.id = id && x.2 ≠ k)

/-- The new value of an integer atomic (R210). -/
def atomInt (op : AOp) (ty : Ty) (old b : Nat) : Nat :=
  let n := tyBits ty
  let pick := fun (useOld : Bool) => if useOld then old else b
  match op with
  | .add => (old + b) % 2 ^ n
  | .min => pick (decide (tyVal ty old ≤ tyVal ty b))
  | .max => pick (decide (tyVal ty b ≤ tyVal ty old))
  | .and => old &&& b
  | .or => old ||| b
  | .xor => old ^^^ b
  | .exch => b

/-- The new value of a float atomic and its exceptions (R211): one FP32, or two elements of 16 bits. FLUSH acts on the minimum and the
maximum alone. -/
def atomFloat (op : FAOp) (ty : Ty) (flush : Bool) (old b : Nat) : LaneOut :=
  let f := fmtOf ty
  let one := fun (x y : Nat) => match op with
    | .add => f.add 0 false false x y
    | .min => f.minMax flush false x y
    | .max => f.minMax flush true x y
  if ty = .f32 then packElems 32 1 fun _ => one old b
  else packElems 16 2 fun i => one (elem 16 old i) (elem 16 b i)

/-- The new value of an atomic, if it writes, with the exceptions it raises. -/
def atomNew (ty : Ty) (op : Option AOp) (fop : Option FAOp) (cmp : Option DWord) (data : DWord) (flush : Bool) (old : Nat) : Option Nat × List XClass :=
  match op, fop with
  | some a, _ => (some (atomInt a ty old (data.toNat % 2 ^ tyBits ty)), [])
  | none, some f => let r := atomFloat f ty flush old (data.toNat % 2 ^ 32); (some r.val, r.exc)
  | none, none =>
    match cmp with
    | some d => (if old = d.toNat % 2 ^ tyBits ty then some (data.toNat % 2 ^ tyBits ty) else none, [])
    | none => (none, [])

/-- A performed store acts on the issuing core's L1 as if it were sent: a line that was filled in between follows it too, so that no
later load of the thread returns an older value; the stores that the L1 shows before they are performed stay in front (R77, R99). See assumption 42. -/
def State.settleL1 (s : State) (core : Nat) (bytes : List ByteWrite) (nt : Bool) : State :=
  let k := s.core core
  if k.l1.isEmpty then s
  else if nt then s.setCore core ((bytes.map fun b => b.addr / 128).eraseDups.foldl (fun (k : Core) l => k.l1Drop (.phys l)) k)
  else s.setCore core ((k.l1Update bytes).l1Update (s.shownBytes core))

/-- An access performed at its home slice invalidates the issuing core's copy (R77). -/
def State.dropL1 (s : State) (core line : Nat) : State := s.setCore core ((s.core core).l1Drop (.phys line))

/-- Performs one thread's atomic at its slice. Uncorrectable data poisons the result and is left as it is. -/
def State.performAtom (s : State) (core part k : Nat) (m : MemOp) (dst : Opnd) (t addr : Nat) (ty : Ty) (op : Option AOp) (fop : Option FAOp)
    (cmp : Option DWord) (data : DWord) (flush : Bool) (iaddr : DWord) (word : BitVec 96) : State :=
  let n := tyBits ty / 8
  let bad := s.wordPoisoned addr
  let old := leNat (s.mem.readBytes addr n)
  let (new, exc) := if bad then (none, []) else atomNew ty op fop cmp data flush old
  let s1 := match new with
    | some x => s.performWrites part ((leBytes n x).zipIdx.map fun (b : Byte × Nat) => (⟨addr + b.2, b.1, 0xFF⟩ : ByteWrite)) false false (some (m.wave, t))
    | none => s.touchLine part (addr / 128) id
  let last := (s.core core).lastOf k m.id
  let high := if highOpen ty false then Config.scalarHigh s.freeCtr else 0
  let value := if bad then (Config.poisonedBits (s.freeCtr * 128 + t)).setWidth 64 else BitVec.ofNat 64 old
  let s2 := s1.modOpWave core m fun w => w.putLane dst ty t value high (if bad then some .data else none) last
  ((s2.countAll core m.slot m.wave (tally [exc]) iaddr word).draw).dropOp core k

/-- The bytes of a store as they reach their slices. -/
def State.crossStore (s : State) (bs : List ByteWrite) : State × List ByteWrite :=
  if s.unchecked.isEmpty then (s, bs)
  else ((s.cross (bs.map (·.val))).1, (bs.zip (s.cross (bs.map (·.val))).2).map fun b => { b.1 with val := b.2 })

/-- What an atomic or an SC does before it acts: it asks for a line that its slice must first read (R293), and has guest copies invalidated (R400);
none once it can act. -/
def State.beforeAtom (s : State) (core : Nat) (m : MemOp) (line : Nat) : Option State :=
  let absent := !inHost (line * 128) && (s.llcLine m.part line).isNone && !m.bad.contains line
  if s.moving m.part (.phys line) then some s
  else if absent then some (s.wantLine (m.reader core m.part) line)
  else if s.writable m.part line then none else some (s.askGuests [line])

/-- STORE_PERFORMED: the k-th operation of a core, if it writes, nothing that it must follow is under way and its lines can be
written (R399, R400). See assumptions 44, 51. -/
def State.storeDone (s : State) (core k : Nat) : State :=
  match (s.core core).memq[k]? with
  | none => s
  | some m =>
    let part := s.opPart core m
    if s.opHeld core k m then s
    else match m.kind with
    | .store t bytes poisoned nt =>
      if s.writableAll part m.stores then
        let (s1, sent) := s.crossStore bytes
        ((s1.performWrites part sent poisoned nt (some (m.wave, t))).dropOp core k).settleL1 core bytes nt
      else s.askGuests m.stores
    | .atom dst t addr ty op fop cmp data flush iaddr word =>
      (match s.beforeAtom core m (addr / 128) with
      | some s1 => s1
      | none => (s.dropL1 core (addr / 128)).performAtom core part k m dst t addr ty op fop cmp data flush iaddr word)
    | .sc dst t addr ty data held lr =>
      match s.beforeAtom core m (addr / 128) with
      | some s1 => s1
      | none =>
        let n := tyBits ty / 8
        let holds := held && lr.isNone
        let s1 := if holds then
            s.performWrites part ((leBytes n data.toNat).zipIdx.map fun (b : Byte × Nat) => (⟨addr + b.2, b.1, 0xFF⟩ : ByteWrite)) false false (some (m.wave, t))
          else s
        ((s1.dropL1 core (addr / 128)).modOpWave core m fun w => w.putLane dst .b32 t (if holds then 1 else 0) 0 none ((s.core core).lastOf k m.id)).dropOp core k
    | _ => s

/-- STORE_PERFORMED. -/
def execStorePerformed (core k : Nat) (s : State) : Host.Outcome State Fault Refusal := .next (s.storeDone core k)

/-! ### REMOTE_SCRATCHPAD_STORE and INBOUND_CREDIT (R76, R103, R208, R223) -/

/-- Whether an earlier operation of the wave on the same core's scratchpad comes first: a store before a store, whatever their bytes
(R76), and otherwise one that acts on the same bytes. -/
def Core.spHeld (c : Core) (k : Nat) (m : MemOp) (target lo hi : Nat) : Bool :=
  let store := fun (x : MemOp) => match x.kind with | .remote .. => true | _ => false
  (c.memq.take k).any fun x => x.wave = m.wave && match x.kind with
    | .remote t off bytes _ _ => t = target && (store m || (off < hi && lo < off + bytes.length))
    | .atoms _ _ t off ty _ _ => t = target && off < hi && lo < off + regBytes ty false
    | _ => false

/-- Whether a store or ATOMS on its way stalls on its target's scoreboard (R83): on any range but those of later operations of its
own wave, which wait for it. -/
def State.spStalls (s : State) (m : MemOp) (target lo hi : Nat) : Bool :=
  (s.core target).sboard.any fun e => e.lo < hi && lo < e.hi && !(e.wave = m.wave && e.op > m.id)

/-- REMOTE_SCRATCHPAD_STORE: the k-th operation of a core, if it writes a scratchpad: a store with its credit, or an ATOMS. -/
def State.remoteDone (s : State) (core k : Nat) : State :=
  match (s.core core).memq[k]? with
  | none => s
  | some m =>
    match m.kind with
    | .remote target off bytes poisoned credit =>
      if (s.core core).spHeld k m target off (off + bytes.length) || s.spStalls m target off (off + bytes.length) then s
      else
        let s1 := (s.dropOp core k)
        let s2 := s1.setCore target ((s1.core target).spWrite off bytes poisoned)
        (match credit with
        | some obj => s2.sendCredit target obj bytes.length none
        | none => s2)
    | .atoms dst t target off ty op data =>
      let n := tyBits ty / 8
      if (s.core core).spHeld k m target off (off + n) || s.spStalls m target off (off + n) then s
      else
        let got := s.spRead target off n
        let bad := got.any (·.2)
        let old := leNat (got.map (·.1))
        let new := atomInt op ty old (data.toNat % 2 ^ tyBits ty)
        let s1 := if bad then s else s.setCore target ((s.core target).spWrite off (wholeBytes n new) false)
        let high := if highOpen ty false then Config.scalarHigh s.freeCtr else 0
        let value := if bad then (Config.poisonedBits (s.freeCtr * 128 + t)).setWidth 64 else BitVec.ofNat 64 old
        ((s1.modOpWave core m fun w => w.putLane dst ty t value high (if bad then some .data else none) ((s.core core).lastOf k m.id)).draw).dropOp core k
    | _ => s

/-- REMOTE_SCRATCHPAD_STORE. -/
def execRemoteScratchpadStore (core k : Nat) (s : State) : Host.Outcome State Fault Refusal := .next (s.remoteDone core k)

/-- INBOUND_CREDIT: the k-th credit on its way to a core lands on its object (R223). -/
def execInboundCredit (core k : Nat) (s : State) : Host.Outcome State Fault Refusal :=
  .next (
    let c := s.core core
    match c.credits[k]? with
    | some x =>
      let s1 := s.setCore core { c with credits := c.credits.eraseIdx k }
      s1.setBar core x.off ((s1.bar core x.off).credit x.bytes (x.fault.map (·.toNat)))
    | none => s)

end Sys2Proof.Machine
end

