-- ==== Sys2Proof/Machine/Fabric.lean ====
section
/-!
DEFINITION. The events of the slices, the fabric and the tiers: lines brought in and evicted (R91, R402 to R407), miss slots
(R293), guest copies (R400), tier hints (R90, R406), bucket moves (R398, R399) and multicast (R84, R85, R209, R401).
-/
namespace Sys2Proof.Machine

/-! ### Lower tiers (R402, R403) -/

/-- What a slice holds, by a number: twice the code of a line, or once more than twice that of a guest copy. -/
def Held.ofNat (n : Nat) : Held := if n % 2 = 0 then .line (LineKey.ofCode (n / 2)) else .guest (n / 2)

/-- A line that a partition brings in reaches its slice, and its slot is free; a copy that is there already keeps its marks (R79). It waits while the
slice has no space (R407). -/
def State.arrive (s : State) (slice part n : Nat) : State :=
  let there := ((s.slice slice).lines.find n).isSome
  match (if there then some (s.modLine slice n id) else s.enter slice part n) with
  | some s1 => s1.freeSlot slice (.line (.phys n))
  | none => s

/-- The reads of a line under way, by the key of its copy: the slices and the slots that they hold there. -/
def State.readersOf (s : State) (k : LineKey) : List (Nat × MissSlot) :=
  s.slices.flatMap fun x => (x.2.slots.filter fun y => y.key = .line k).map fun y => (x.1, y)

/-- The read of a line completes at a slice: a flash line comes from the victim store, and so does one of a generated range,
whose copy there may have gone bad (R294, R402, R403); the access sets the entry's age to 0 (R407). -/
def State.readDone (s : State) (k : LineKey) (x : Nat × MissSlot) (victim : Option Held) : State :=
  match k with
  | .phys n =>
    let key : LineKey := .phys (copyLine n)
    if inFlash (copyLine n * 128) && (s.victimCopy x.2.part key).isNone then s
    else ((s.makeRoom x.1 victim).victimAge x.2.part key 0).arrive x.1 x.2.part n
  | .gen p line =>
    match s.victimCopy x.2.part k with
    | some v => if (s.genLine p line).isSome then s.freeSlot x.1 x.2.key
      else (match (s.makeRoom x.1 victim).placeGen x.1 p line ⟨.valid, v.data, .fault, 0⟩ with
        | some s1 => (s1.victimAge x.2.part k 0).freeSlot x.1 x.2.key
        | none => s)
    | none => s.freeSlot x.1 x.2.key

/-- LOWER_TIER_READ: the read of a line, by the code of its copy, completes at every slice that holds a slot for it. -/
def State.lowerRead (s : State) (line : Nat) (victim : Option Held) : State :=
  let k := LineKey.ofCode line
  (s.readersOf k).foldl (fun (st : State) x => st.readDone k x victim) s

/-- LOWER_TIER_READ. -/
def execLowerTierRead (line : Nat) (victim : Option Nat) (s : State) : Host.Outcome State Fault Refusal :=
  .next (s.lowerRead line (victim.map Held.ofNat))

/-- The lines of a flash page of 16 KiB. -/
def flashLines (page : Nat) : List Nat := (List.range 128).map fun i => 128 * page + i

/-- A core whose operations and fetches wait for lines of a partition that come poisoned. -/
def Core.spoilReaders (c : Core) (part : Nat) (ls : List Nat) (reads : MemOp → Bool) : Core :=
  let first := fun {κ : Type} (q : List (QEntry κ)) => q.zipIdx.map fun x => if x.2 = 0 && x.1.part = part then { x.1 with bad := x.1.bad ++ ls } else x.1
  let fetched := fun (w : Wave) => (w.entries.filterMap id ++ w.ovf).filterMap fun f => match f.park with
    | some (.read _ copy) => if ls.contains (copyLine copy) then some (copyLine copy) else none
    | _ => none
  { c with
    memq := c.memq.map fun m => if m.part = part && reads m then { m with bad := m.bad ++ ls } else m
    waves := c.waves.map fun e => (e.1, if e.2.part = part then { e.2 with fetchBad := e.2.fetchBad ++ fetched e.2 } else e.2)
    q1 := first c.q1, q2 := first c.q2, q3 := first c.q3, q4 := first c.q4 }

/-- What waits for lines of a page that a partition reads learns that they come poisoned (R403). See assumption 54. -/
def State.spoilReaders (s : State) (part : Nat) (ls : List Nat) : State :=
  let reads := fun (core : Nat) (m : MemOp) => (s.opKeys core part m).any fun k => ls.any fun l => k == .phys l
  let mx := fun (e : QEntry MxOp) => if e.part = part then { e with bad := e.bad ++ ls } else e
  let merge := fun (m : Merge) => if m.part = part then { m with bad := m.bad ++ ls } else m
  { s with
    cores := s.cores.map fun e => (e.1, e.2.spoilReaders part ls (reads e.1))
    pairs := s.pairs.map fun e => (e.1, ⟨e.2.q0.map mx⟩)
    slices := s.slices.map fun e => (e.1, { e.2 with merges := e.2.merges.map merge })
    flashBad := s.flashBad ++ ls.map fun l => (part, l) }

/-- FLASH_PAGE_READ: a page of which some lines are awaited, and are not in the victim store, is read: one that passes its check enters the victim
store and its requested lines the LLC; one that does not is delivered poisoned, with one record. See assumption 54. -/
def State.flashRead (s : State) (page part : Nat) (good : Bool) : State :=
  let home := fun (st : State) (l : Nat) => st.home part (.phys l)
  let held := (flashLines page).filter fun l => inFlash (l * 128) && (s.victimCopy part (.phys l)).isNone &&
    (s.slice (home s l)).holdsSlot (.line (.phys (copyNo part l)))
  if held.isEmpty then s
  else if good then
    let s0 : State := { s with flashBad := s.flashBad.filter fun x => !(x.1 = part && (flashLines page).contains x.2) }
    let s1 := (flashLines page).foldl (fun (st : State) l => st.victimPut part (.phys l) (s.mem.readBytes (128 * l) 128)) s0
    held.foldl (fun (st : State) l => st.arrive (home st l) part (copyNo part l)) s1
  else
    let s1 := held.foldl (fun (st : State) l => st.freeSlot (home st l) (.line (.phys (copyNo part l)))) (s.spoilReaders part held)
    s1.record { source := 10, sev := 1, part := some part, addr := 16384 * page }

/-- FLASH_PAGE_READ. -/
def execFlashPageRead (page part : Nat) (good : Bool) (s : State) : Host.Outcome State Fault Refusal := .next (s.flashRead page part good)

/-- AGE_SWEEP: every age below 7 of what a slice holds, and in the victim store of the entries for its lines, rises by one (R407). -/
def execAgeSweep (slice : Nat) (s : State) : Host.Outcome State Fault Refusal :=
  let up := fun (a : Nat) => if a < 7 then a + 1 else a
  let sl := s.slice slice
  let gen := fun (p : Nat) (e : Nat × GenLine) =>
    if s.home p (.gen p e.1) = slice then (e.1, { e.2 with age := up e.2.age }) else e
  .next { s.setSlice slice { sl with
      lines := sl.lines.map fun e => (e.1, { e.2 with age := up e.2.age })
      guests := sl.guests.map fun e => (e.1, up e.2) } with
    genLines := s.genLines.map fun e => (e.1, e.2.map (gen e.1))
    victims := s.victims.map fun v => if s.home v.part v.key = slice then { v with age := up v.age } else v }

/-- The waiting request of a class of a slice with the highest effective priority, then the oldest (R293). -/
def State.firstWait (s : State) (slice depth : Nat) : Option MissWait :=
  let prio := fun (w : MissWait) => match s.findWave w.uid with
    | some (c, k) => ((s.wave? c k).map s.effPrio).getD 0
    | none => 0
  (((s.slice slice).waiting.filter fun w => w.depth = depth).foldl (fun (b : Option (Nat × MissWait)) w => match b with
    | none => some (prio w, w)
    | some x => if prio w > x.1 then some (prio w, w) else some x) none).map (·.2)

/-- A waiting request takes a free slot (R293), once the slice has space for its line (R407): a generated line opens its task, unless the victim
store has it (R294). One that nothing has to be brought in for any more is answered. -/
def State.grantTo (s : State) (slice : Nat) (w : MissWait) : Option State :=
  let sl := s.slice slice
  match w.key with
  | .phys line =>
    let copy : LineKey := .phys (copyNo w.part line)
    if (sl.lines.find (copyNo w.part line)).isSome || sl.holdsSlot (.line copy) then some s
    else s.readSlot slice ⟨w.depth, w.part, .line copy⟩ copy
  | .gen p line =>
    match s.genAt p (line * 128) with
    | none => some s
    | some (gi, g) =>
      let block := g.blockOf (line * 128)
      let absent := (blockLines block g.block).any fun l => (s.genLine p l).isNone
      let core := match s.findWave w.uid with | some (c, _) => c | none => (s.part p).firstCore
      if g.closing || sl.holdsSlot (.line w.key) then some s
      else if g.vkeep && (s.genLine p line).isNone && (s.victimCopy p w.key).isSome then s.readSlot slice ⟨w.depth, p, .line w.key⟩ w.key
      else if !absent || w.depth ≥ 2 then some s
      else s.openTask core p gi g block w.depth

/-- MISS_SLOT_GRANT: the first request of a class takes a slot. -/
def State.grantSlot (s : State) (slice depth : Nat) : State :=
  match s.firstWait slice depth with
  | none => s
  | some w =>
    let sl := s.slice slice
    if !sl.hasSlot depth then s
    else ((s.setSlice slice { sl with waiting := sl.waiting.erase w }).grantTo slice w).getD s

/-- MISS_SLOT_GRANT. -/
def execMissSlotGrant (slice depth : Nat) (s : State) : Host.Outcome State Fault Refusal := .next (s.grantSlot slice depth)

/-! ### Guest copies (R400) -/

/-- Whether some core of a sector reads a line, by the key of its copy, through leaves with W = 0, or it is a generated line in state VALID or ZERO. -/
def State.guestEligible (s : State) (copy : LineKey) (sector : Nat) : Bool :=
  match s.copyOf copy with
  | (p, .phys l) => s.cores.any fun e => Config.sectorOf e.1 = sector && s.readsOnly e.1 p l
  | (_, .gen p l) => (match s.genLine p l with | some g => g.state == .valid || g.state == .zero | none => false)

/-- Whether the home slice of a copy holds it. -/
def State.holdsCopy (s : State) (copy : LineKey) : Bool :=
  match copy with
  | .phys n => ((s.slice (s.homeOf copy)).lines.find n).isSome
  | .gen p l => (s.genLine p l).isSome

/-- A guest copy of a line enters the slice of a sector that takes it, and the home slice sets the bit; none without space there (R407). -/
def State.fillGuest (s : State) (copy : LineKey) (sector : Nat) : Option State :=
  let g := s.guestSlice copy sector
  (s.makeSpace? g copy.code).map fun s1 =>
    let sl := s1.slice g
    let s2 := s1.setSlice g { sl with guests := sl.guests.put copy.code 0 }
    if s2.guests.contains (copy.code, sector) then s2 else { s2 with guests := s2.guests ++ [(copy.code, sector)] }

/-- GUEST_COPY_FILL: a line, by the code of its copy, gets a guest copy in another sector, unless its invalidation there is under way. See assumption 54. -/
def execGuestCopyFill (line sector : Nat) (s : State) : Host.Outcome State Fault Refusal :=
  let copy := LineKey.ofCode line
  .next (
    if sector < 3 && s.homeOf copy / 32 ≠ sector && s.holdsCopy copy && !s.moving (s.copyOf copy).1 (s.copyOf copy).2 && s.guestEligible copy sector &&
        !((s.slice (s.guestSlice copy sector)).guests.find copy.code).isSome && !s.invals.contains (line, sector) then
      (s.fillGuest copy sector).getD s
    else s)

/-- GUEST_INVALIDATION: the invalidation that a home slice has sent reaches a guest, which drops its copy and acknowledges. -/
def execGuestInvalidation (line sector : Nat) (s : State) : Host.Outcome State Fault Refusal :=
  .next (if s.invals.contains (line, sector) then s.clearGuest (line, sector) else s)

/-! ### Tier hints (R90, R406) -/

/-- The age of the copy of a line in the LLC and of its entry in the victim store. -/
def State.setAge (s : State) (part : Nat) (k : LineKey) (a : Nat) : State :=
  let s1 := s.victimAge part k a
  match k with
  | .phys l =>
    let h := s1.home part k
    (match (s1.slice h).lines.find (copyNo part l) with
    | some x => s1.putLine h (copyNo part l) { x with age := a }
    | none => s1)
  | .gen p l => (match s1.genLine p l with | some g => s1.setGenLine p l (some { g with age := a }) | none => s1)

/-- Removes the pin of a line's page. -/
def State.unpin (s : State) (part : Nat) (k : LineKey) : State :=
  let p := s.part part
  if p.pins.contains k.pageCode then s.setPart part { p with pins := p.pins.filter fun n => n ≠ k.pageCode } else s

/-- A line of a host page enters the victim store, as the host's memory holds it now; one that has been promoted keeps what was copied then (R404). -/
def State.promoteHost (s : State) (part l : Nat) : State :=
  let data := (s.hostCopy part l).getD (s.mem.readBytes (128 * l) 128)
  let s1 := s.victimPut part (.phys l) data
  { s1 with promoted := s1.promoted.put (copyNo part l) data }

/-- The copies of a promoted host line go, but for those of a line that carries a live reservation (R91, R404). -/
def State.demoteHost (s : State) (part l : Nat) : State :=
  if !inHost (l * 128) || s.reservedLine l then s
  else
    let s1 := s.dropLine (s.home part (.phys l)) (copyNo part l)
    { s1 with
      victims := s1.victims.filter fun v => !(v.part = part && v.key = .phys l)
      promoted := s1.promoted.erase (copyNo part l) }

/-- PROMOTE of a line (R90, R403, R404), into the LLC or only into GDDR; the answer says whether it waits. A line that a failed flash page delivers is
done with. DESIGN CHOICE: PROMOTE_LLC of a generated line that is neither in the LLC nor in the victim store does nothing, since R294 names no hint
among the reads that open a fill (assumption 39). -/
def State.promoteLine (s : State) (r : Reader) (llc : Bool) (k : LineKey) : State × Bool :=
  match k with
  | .phys l =>
    if inHost (l * 128) then
      let s1 := s.promoteHost r.part l
      if !llc || (s1.llcLine r.part l).isSome then (if llc then s1.setAge r.part k 0 else s1, false)
      else (match s1.enter (s1.home r.part k) r.part (copyNo r.part l) with
        | some s2 => (s2, false)
        | none => (s1, true))
    else if llc || (inFlash (l * 128) && (s.victimCopy r.part k).isNone) then
      (match s.lineReady r k with
      | (s1, .ready) =>
        (if inFlash (l * 128) && !r.bad.contains l && (s1.victimCopy r.part k).isNone then s1.victimPut r.part k (s1.mem.readBytes (128 * l) 128) else s1, false)
      | (s1, _) => (s1, true))
    else (s, false)
  | .gen p l =>
    if !llc then (s, false)
    else if (s.genLine p l).isSome then (s.setAge p k 0, false)
    else match s.genAt p (l * 128) with
    | some (_, g) => if g.vkeep && !g.closing && (s.victimCopy p k).isSome then (s.wantCopy p r.uid r.depth l, true) else (s, false)
    | none => (s, false)

/-- DONTNEED of a line (R90, R406): guest copies are invalidated (R400); an ordinary line is written back and dropped, unless it carries a live
reservation, and then becomes the oldest; a generated line that is not FILLING is dropped, with its copy in the victim store. -/
def State.dontneedLine (s : State) (part : Nat) (k : LineKey) : State :=
  let s1 := (s.unpin part k).dropCopies (k.copy part)
  match k with
  | .phys l =>
    let s2 := s1.setAge part k 7
    if s2.reservedLine l then s2 else (s2.dropLine (s2.home part k) (copyNo part l)).demoteHost part l
  | .gen p l =>
    let s2 : State := { s1 with victims := s1.victims.filter fun v => !(v.part = p && v.key = k) }
    (match s2.genLine p l with
    | some g => if g.state == .filling || s2.reservedLine k.resvNo then s2 else s2.setGenLine p l none
    | none => s2)

/-- The effect of a hint on a line of memory, and whether it waits. A request to a bucket that is being moved waits (R399). See assumption 39. -/
def State.hintLine (s : State) (r : Reader) (h : Hint) (k : LineKey) : State × Bool :=
  if s.moving r.part k then (s, true)
  else match h with
  | .promoteLlc => s.promoteLine r true k
  | .promoteGddr => s.promoteLine r false k
  | .demote =>
    let s1 := (s.unpin r.part k).setAge r.part k 7
    (match k with | .phys l => s1.demoteHost r.part l | .gen .. => s1, false)
  | .pin => (s, false)
  | .dontneed => (s.dontneedLine r.part k, false)

/-- The lines of a page that a partition maps, if it maps. -/
def State.pageKeys (s : State) (r : Reader) (page : Nat) : List LineKey :=
  match s.lookNow r.core r.part ⟨false, false, r.user⟩ (BitVec.ofNat 64 (page * 4096)) with
  | .ok _ _ | .gen _ => ((List.range 32).flatMap fun i => s.keysOf r.core r.part (page * 32 + i)).eraseDups
  | _ => []

/-- Pins the pages that some lines lie in, unless PINLIM would be passed (R406): the answer says whether it was. -/
def State.pinPage (s : State) (part : Nat) (ks : List LineKey) : State × Bool :=
  let p := s.part part
  let news := ((ks.map LineKey.pageCode).eraseDups).filter fun n => !p.pins.contains n
  if p.pins.length + news.length > p.pinLim then (s, true) else (s.setPart part { p with pins := p.pins ++ news }, false)

/-- A hint as an event carries it on: the state, the pages done, whether a pin has been refused, and whether it waits. -/
structure HintRun where
  s       : State
  at_     : Nat
  refused : Bool
  wait    : Bool := false

/-- The next page of a hint. See assumption 45. -/
def HintRun.page (x : HintRun) (r : Reader) (h : Hint) (first : Nat) : HintRun :=
  if x.wait then x
  else
    let va : DWord := BitVec.ofNat 64 ((first + x.at_) * 4096)
    let walks := x.s.lookup r.core r.part ⟨false, false, r.user⟩ va == .miss
    if walks && x.s.walkWaits r.part va then { x with wait := true }
    else
      let s0 := if walks then x.s.touchWalk r.part va else x.s
      let ks := s0.pageKeys r (first + x.at_)
      match h with
      | .pin =>
        let (s1, no) := if x.refused || ks.isEmpty then (s0, false) else s0.pinPage r.part ks
        { x with s := s1, at_ := x.at_ + 1, refused := x.refused || no }
      | h =>
        let (s1, wait) := ks.foldl (fun (acc : State × Bool) k => let y := acc.1.hintLine r h k; (y.1, acc.2 || y.2)) (s0, false)
        if wait then { x with s := s1, wait := true } else { x with s := s1, at_ := x.at_ + 1 }

/-- TIER_HINT_OPERATION: the tier engine performs the hint at the head of a core's queue 2, page by page in ascending
order; an empty range has no page (R230). One that must wait goes on at the page it has come to. See assumption 45. -/
def State.runHint (s : State) (core : Nat) : State :=
  match (s.core core).q2 with
  | [] => s
  | e :: rest =>
    if !e.clear s core then s
    else
      let r := e.reader core
      let first := e.kind.base.toNat / 4096
      let n := if e.kind.len = 0 then 0 else (e.kind.base.toNat + e.kind.len + 4095) / 4096 - first
      let x := (List.range (n - e.kind.at_)).foldl (fun (x : HintRun) _ => x.page r e.kind.hint first) { s := s, at_ := e.kind.at_, refused := e.kind.refused }
      let c := x.s.core core
      if x.wait then x.s.setCore core { c with q2 := { e with kind := { e.kind with at_ := x.at_, refused := x.refused } } :: rest }
      else (x.s.setCore core { c with q2 := rest }).opDone e.wave e.launch 2 (if x.refused then 3 else 0) 0 0 false

/-- TIER_HINT_OPERATION. -/
def execTierHintOperation (core : Nat) (s : State) : Host.Outcome State Fault Refusal := .next (s.runHint core)

/-! ### Moving buckets (R398, R399) -/

/-- The partition that owns a bucket. -/
def State.bucketOwner (s : State) (b : Nat) : Option Nat :=
  (s.parts.find? fun p => p.2.valid && p.2.bktBase ≤ b && b < p.2.bktBase + 16 * (p.2.bktCnt + 1)).map (·.1)

/-- Whether a partition's line lies in a bucket. -/
def State.inBucket (s : State) (part b : Nat) (k : LineKey) : Bool := s.bucketOf part k = b

/-- Whether a bucket holds lines of a context area (R392). -/
def State.hasContext (s : State) (part b : Nat) : Bool := (List.range (s.contextCount part)).any fun i => s.contextBucket part i == b

/-- Whether the rebalancer may select a bucket (R398). See assumption 52. -/
def State.movable (s : State) (b : Nat) : Bool :=
  match s.bucketOwner b with
  | none => false
  | some p =>
    let sl := s.slice (s.bucket b).slice.toNat
    !(s.bucket b).moving &&
      !((s.genLines.get [] p).any fun e => e.2.state == .filling && s.inBucket p b (.gen p e.1)) &&
      !(sl.merges.any fun m => m.part = p && m.pieces.any fun x => s.inBucket p b x.key) && !s.hasContext p b

/-- The first of the keys with the largest value. See assumption 52. -/
def argMax (l : List (Nat × Nat)) : Option (Nat × Nat) :=
  l.foldl (fun (b : Option (Nat × Nat)) x => match b with
    | none => some x
    | some y => if x.2 > y.2 then some x else some y) none

/-- The first of the keys with the least value. See assumption 52. -/
def argMin (l : List (Nat × Nat)) : Option (Nat × Nat) :=
  l.foldl (fun (b : Option (Nat × Nat)) x => match b with
    | none => some x
    | some y => if x.2 < y.2 then some x else some y) none

/-- REBALANCE_EPOCH: the epoch of a sector ends; a slice with more than 1.5 times the mean gives its busiest bucket to the
least busy slice, and the counts start again. See assumption 52. -/
def State.rebalance (s : State) (sector : Nat) : State :=
  let mine := s.buckets.filter fun e => e.2.valid && e.2.slice.toNat / 32 = sector
  let load := (List.range 32).map fun i => (32 * sector + i, ((mine.filter fun e => e.2.slice.toNat = 32 * sector + i).map (·.2.count)).sum)
  let total := (load.map (·.2)).sum
  let s1 : State := { s with buckets := s.buckets.map fun e => if e.2.valid && e.2.slice.toNat / 32 = sector then (e.1, { e.2 with count := 0 }) else e }
  match argMax load, argMin load with
  | some (hot, n), some (cool, _) =>
    if 64 * n ≤ 3 * total then s1
    else
      match argMax ((mine.filter fun e => e.2.slice.toNat = hot && s.movable e.1).map fun e => (e.1, e.2.count)) with
      | some (b, _) => { s1 with buckets := s1.buckets.put b { s1.bucket b with moving := true, target := some cool } }
      | none => s1
  | _, _ => s1

/-- REBALANCE_EPOCH. -/
def execRebalanceEpoch (sector : Nat) (s : State) : Host.Outcome State Fault Refusal := .next (if sector < 3 then s.rebalance sector else s)

/-- Whether a slice has drained its requests of a bucket. -/
def State.drainedBucket (s : State) (part b a : Nat) : Bool :=
  let sl := s.slice a
  let inside := fun (key : SlotKey) => match key with
    | .line k => s.inBucket part b (s.copyOf k).2
    | .task id => (s.part part).tasks.any fun t => t.id = id && s.inBucket part b (.gen part (t.block / 128))
  !(sl.slots.any fun x => x.part = part && inside x.key) && !(sl.waiting.any fun w => w.part = part && s.inBucket part b w.key) &&
    !(sl.merges.any fun m => m.part = part && m.pieces.any fun x => s.inBucket part b x.key)

/-- The copies of ordinary lines that a slice holds for a bucket of a partition; those of other partitions' buckets are not among them (R396). -/
def State.copiesIn (s : State) (part b slice : Nat) : List (Nat × Line) :=
  (s.slice slice).lines.filter fun e => let c := s.copyOf (.phys e.1); c.1 = part && s.inBucket part b c.2

/-- Step 3 of R399, but for what goes to the other slice: guest copies are invalidated, lines written back or dropped. -/
def State.flushBucket (s : State) (part b slice : Nat) (stays : Nat × Line → Bool) : State :=
  let gens := (s.genLines.get [] part).filter fun e => s.inBucket part b (.gen part e.1)
  let s1 := (s.copiesIn part b slice).foldl (fun (st : State) e => st.dropCopies (.phys e.1)) s
  let s2 := gens.foldl (fun (st : State) e => st.dropCopies (.gen part e.1)) s1
  (s.copiesIn part b slice).foldl (fun (st : State) e => if stays e then st else st.dropLine slice e.1) s2

/-- A counter of moves of a slice (R409). -/
def State.countMove (s : State) (h : Nat) : State :=
  let sl := s.slice h
  s.setSlice h { sl with moves := if sl.moves = BitVec.allOnes 16 then sl.moves else sl.moves + 1 }

/-- BUCKET_MOVE: steps 2 to 4 of R399, once the slice has drained; pinned and reserved lines and generated lines go to the other slice, which must
take them all. -/
def State.moveBucket (s : State) (b : Nat) : State :=
  match s.bucketOwner b, (s.bucket b).target with
  | some p, some dst =>
    let src := (s.bucket b).slice.toNat
    if !(s.bucket b).moving || !s.drainedBucket p b src then s
    else
      let kept := fun (e : Nat × Line) => s.pinnedLine (.phys e.1) || s.reservedLine (copyLine e.1)
      let lines := (s.copiesIn p b src).filter kept
      let gens := (s.genLines.get [] p).filter fun e => s.inBucket p b (.gen p e.1)
      let s1 := s.flushBucket p b src kept
      let sl := s1.slice src
      let s2 := s1.setSlice src { sl with lines := sl.lines.filter fun e => !lines.any fun x => x.1 = e.1 }
      let s3 := gens.foldl (fun (st : State) e => st.setGenLine p e.1 none) s2
      let s4 : State := { s3 with buckets := s3.buckets.put b { s3.bucket b with slice := BitVec.ofNat 7 dst, moving := false, target := none } }
      let s5 := lines.foldl (fun (st : Option State) e => st.bind fun x => (x.makeSpace? dst (LineKey.phys e.1).code).map fun y => y.putLine dst e.1 e.2) (some s4)
      let s6 := gens.foldl (fun (st : Option State) e => st.bind fun x => x.placeGen dst p e.1 e.2) s5
      (s6.map fun x => (x.countMove src).countMove dst).getD s
  | _, _ => s

/-- BUCKET_MOVE. -/
def execBucketMove (bucket : Nat) (s : State) : Host.Outcome State Fault Refusal := .next (s.moveBucket bucket)

/-- BUCKET_MOVE_ABANDON: the entry returns to its slice with MOVING cleared. -/
def execBucketMoveAbandon (bucket : Nat) (s : State) : Host.Outcome State Fault Refusal :=
  .next (let e := s.bucket bucket
    if e.moving then { s with buckets := s.buckets.put bucket { e with moving := false, target := none } } else s)

/-! ### Multicast (R84, R85, R209, R401) -/

/-- The core of a quad-cluster that a mask bit names. -/
def mergeCores (quad : Nat) (mask : BitVec 16) : List Nat := ((List.range 16).filter fun i => mask.getLsbD i).map fun i => 16 * quad + i

/-- Sends a transmission to every named core of the requests: each core is credited for the requests that name it (R84). -/
def State.transmit (s : State) (from_ : Option Nat) (quad off bar : Nat) (pieces : List (Nat × List Byte × Bool × Nat)) (reqs : List (Nat × Nat × BitVec 16)) : State :=
  ((reqs.flatMap fun r => mergeCores quad r.2.2).eraseDups).foldl (fun (st : State) d =>
    let names := (reqs.filter fun r => (mergeCores quad r.2.2).contains d).map fun r => (r.1, r.2.1)
    { st with deliveries := st.deliveries.put d (st.deliveries.get [] d ++ [⟨off, bar, pieces, names, from_⟩]) }) s

/-- Joins a request to the merge entry of a slice that it matches, or opens one (R85). -/
def State.mergeAt (s : State) (slice : Nat) (m : Merge) : State :=
  let sl := s.slice slice
  let same := fun (x : Merge) => x.part = m.part && x.quad = m.quad && x.src = m.src && x.len = m.len && x.off = m.off && x.bar = m.bar
  match sl.merges.findIdx? same with
  | none => s.setSlice slice { sl with merges := sl.merges ++ [m] }
  | some i =>
    let join := fun (x : Merge) => match x.phase with
      | .gathering => { x with joined := x.joined ++ m.joined }
      | .window => { x with phase := .collecting, joined := m.joined }
      | .collecting => { x with joined := x.joined ++ m.joined }
    let merged := (match (sl.merges[i]?).map (·.phase) with | some .gathering => sat32 sl.merged | _ => sl.merged)
    s.setSlice slice { sl with merges := sl.merges.zipIdx.map (fun x => if x.2 = i then join x.1 else x.1), merged := merged }

/-- The class with which a source line fails at once: an unrecoverable fault, or a generated line that no fill may bring
(R298). -/
def State.pieceNests (s : State) (r : Reader) (k : LineKey) : Bool :=
  match k with
  | .phys _ => false
  | .gen p l => r.depth ≥ 2 && (match s.genLine p l with
    | some g => g.state == .filling
    | none => !((s.genAt p (l * 128)).any fun x => x.2.vkeep) || (s.victimCopy p k).isNone)

/-- MULTICAST_REQUEST: the k-th operation of a core, an LDMC, reaches the home slices of its lines; lines that fault are
transferred as faults at once. -/
def State.multicast (s : State) (core k : Nat) : State :=
  match (s.core core).memq[k]? with
  | none => s
  | some m =>
    match m.kind with
    | .ldmc dst src len off bar mask false fail =>
      let part := s.opPart core m
      let r := m.reader core part
      if ((s.core core).memq.take k).any fun x => x.wave = m.wave && (match x.kind with | .ldmc .. => false | _ => true) then s
      else
        let units := (List.range (len / 16)).map fun i => 16 * i
        let (s1, found) := units.foldl (fun (acc : State × List (Nat × Found)) i =>
          let x := acc.1.locate r false (src + BitVec.ofNat 64 i) 16
          (x.1, acc.2 ++ [(i, x.2)])) (s, [])
        if found.any fun x => x.2 == .wait then s1
        else
          let placed := found.filterMap fun x => match x.2 with | .at_ (l :: _) => some (⟨x.1, l.key, l.off⟩ : Piece) | _ => none
          if placed.any fun x => s1.moving part x.key then s1
          else
            let nests := placed.filter fun x => s1.pieceNests r x.key
            let good := placed.filter fun x => !s1.pieceNests r x.key
            let failed := (found.filterMap fun x => match x.2 with | .fault c _ => some (x.1, ([] : List Byte), false, c) | _ => none) ++
              nests.map fun x => (x.at_, [], false, 1)
            let req := (core, m.id, mask)
            let s2 := s1.modOp core k fun o => { o with kind := .ldmc dst src len off bar mask true fail }
            let s3 := if failed.isEmpty then s2 else s2.transmit none (core / 16) off bar failed [req]
            ((good.map fun x => s3.home part x.key).eraseDups).foldl (fun (st : State) h =>
              st.mergeAt h ⟨part, core / 16, src, len, off, bar, good.filter (fun x => s3.home part x.key = h), .gathering, [req],
                (core, m.wave, m.depth), []⟩) s3
    | _ => s

/-- MULTICAST_REQUEST. -/
def execMulticastRequest (core k : Nat) (s : State) : Host.Outcome State Fault Refusal := .next (s.multicast core k)

/-- The bytes of a request as they leave: a line with uncorrectable data is poisoned whole (R209). -/
def Merge.bytes (m : Merge) (s : State) : List (Nat × List Byte × Bool × Nat) :=
  let raw := m.pieces.map fun x =>
    let bs := (List.range 16).map fun j => s.byteAt m.part m.bad (match x.key with
      | .phys l => .phys (l * 128 + x.off + j)
      | .gen p l => .gen p l (x.off + j))
    (x.at_, bs)
  let line := fun (a : Nat) => (m.src.toNat + a) / 128
  let bad := (raw.filter fun x => (poisonOf x.2).isSome).map fun x => line x.1
  raw.map fun x => let p := bad.contains (line x.1); (x.1, valuesOf x.2, p, if p then 6 else 0)

/-- A piece of a request as it stands now: one of a generated range that has been invalidated is handled under the partition's
translation (R303). It gives the piece, none while it waits, or the class of its fault. -/
def State.renewPiece (s : State) (r : Reader) (src : DWord) (x : Piece) : State × Sum (Option Piece) Nat :=
  match x.key with
  | .phys _ => (s, .inl (some x))
  | .gen p l =>
    if (s.genAt p (l * 128)).isSome || (s.genLine p l).isSome then (s, .inl (some x))
    else match s.locate r false (src + BitVec.ofNat 64 x.at_) 16 with
      | (s1, .at_ (l :: _)) => (s1, .inl (some ⟨x.at_, l.key, l.off⟩))
      | (s1, .fault c _) => (s1, .inr c)
      | (s1, _) => (s1, .inl none)

/-- Lets the k-th merge entry of a slice send, once every line is present in a readable state (R85). -/
def State.sendMerge (s : State) (slice k : Nat) (phase : MergePhase) (count : Slice → Slice) : State :=
  match (s.slice slice).merges[k]? with
  | none => s
  | some m =>
    if m.phase ≠ phase then s
    else
      let r : Reader := { core := m.reader.1, part := m.part, uid := m.reader.2.1, depth := m.reader.2.2, op := 0, user := false, now := true, bad := m.bad, agent := 0 }
      let (s0, news) := m.pieces.foldl (fun (acc : State × List (Nat × Sum (Option Piece) Nat)) x =>
        let y := acc.1.renewPiece r m.src x; (y.1, acc.2 ++ [(x.at_, y.2)])) (s, [])
      let pieces := news.filterMap fun x => match x.2 with | .inl p => p | .inr _ => none
      let failed := news.filterMap fun x => match x.2 with | .inr c => some (x.1, ([] : List Byte), false, c) | _ => none
      let (s1, outs) := s0.readyAll r ((pieces.map (·.key)).eraseDups)
      if news.any (fun x => x.2 == .inl none) || outs.any fun o => o.2 == .wait then s1
      else
        let nest := (outs.filter fun o => o.2 == .nest).map (·.1)
        let bytes := (({ m with pieces := pieces } : Merge).bytes s1).zip pieces
        let sent := bytes.map (fun x => if nest.contains x.2.key then (x.1.1, [], false, 1) else x.1) ++ failed
        let sl := count (s1.slice slice)
        let open_ := fun (x : Merge) => { x with phase := .window, joined := [] }
        (s1.setSlice slice { sl with merges := sl.merges.zipIdx.map fun x => if x.2 = k then open_ x.1 else x.1 }).transmit (some slice) m.quad m.off m.bar sent m.joined

/-- MERGED_RESPONSE. -/
def execMergedResponse (slice k : Nat) (s : State) : Host.Outcome State Fault Refusal := .next (s.sendMerge slice k .gathering id)

/-- FOLLOWUP_TRANSMISSION. -/
def execFollowupTransmission (slice k : Nat) (s : State) : Host.Outcome State Fault Refusal :=
  .next (s.sendMerge slice k .collecting fun sl => { sl with followup := sat32 sl.followup })

/-- MERGE_ENTRY_CLOSE: a late-joiner window ends with no joiner. -/
def execMergeEntryClose (slice k : Nat) (s : State) : Host.Outcome State Fault Refusal :=
  .next (let sl := s.slice slice
    match sl.merges[k]? with
    | some m => if m.phase = .window then s.setSlice slice { sl with merges := sl.merges.eraseIdx k } else s
    | none => s)

/-- Whether anything of an LDMC is still to be delivered at a core, or at any core. -/
def State.ldmcLeft (s : State) (core op : Nat) (at_ : Option Nat) : Bool :=
  let here := fun (d : Nat) => match at_ with | some x => x == d | none => true
  s.deliveries.any (fun e => here e.1 && e.2.any fun d => d.requests.contains (core, op)) ||
    s.slices.any fun e => e.2.merges.any fun m => m.joined.any fun j => j.1 = core && j.2.1 = op && (mergeCores m.quad j.2.2).any here

/-- Whether a core has a scoreboard entry of an operation. -/
def Core.hasEntry (c : Core) (op : Nat) : Bool := c.sboard.any fun e => e.op = op && e.inbound

/-- The length of an LDMC under way. -/
def State.ldmcLen (s : State) (core op : Nat) : Nat :=
  match (s.core core).memq.find? fun m => m.id = op with
  | some m => (match m.kind with | .ldmc _ _ len _ _ _ _ _ => len | _ => 16)
  | none => 16

/-- Keeps the lowest failing byte of an LDMC (R209). -/
def State.ldmcFail (s : State) (core op : Nat) (f : Option (Nat × Nat)) : State :=
  match f with
  | none => s
  | some x =>
    let low := fun (o : Option (Nat × Nat)) => match o with | some y => if y.1 ≤ x.1 then some y else some x | none => some x
    let c := s.core core
    s.setCore core { c with memq := c.memq.map fun m => if m.id = op then
      (match m.kind with
      | .ldmc dst src len off bar mask sent fail => { m with kind := .ldmc dst src len off bar mask sent (low fail) }
      | _ => m) else m }

/-- Ends the parts of an LDMC that a delivery completes: its scoreboard entry on the core, then the LDMC itself (R82, R209). -/
def State.ldmcEnd (s : State) (core op d : Nat) : State :=
  let s1 := if s.ldmcLeft core op (some d) then s
    else let c := s.core d; s.setCore d { c with sboard := c.sboard.map fun e => if e.op = op then { e with done := true } else e }
  if s1.ldmcLeft core op none then s1
  else
    match (s1.core core).memq.find? fun m => m.id = op with
    | none => s1
    | some m =>
      (match m.kind with
      | .ldmc dst _ _ _ _ _ _ fail =>
        let cls := (fail.map (·.2)).getD 0
        let s2 := s1.modOpWave core m fun w => match dst with
          | .s n => w.putS n.toNat (BitVec.ofNat 64 cls)
          | _ => w
        (if cls = 0 then s2 else s2.faultLaunch m.launch).endOp core m
      | _ => s1)

/-- LDMC_DELIVERY: the k-th transmission on its way to a core is performed and credited (R84, R209, R223), behind those that its slice has sent there
before (R395). An operation that has no scoreboard entry there takes one; while none is free the bytes are held (R82). -/
def State.deliver (s : State) (d k : Nat) : State :=
  match (s.deliveries.get [] d)[k]? with
  | none => s
  | some x =>
    let c := s.core d
    let news := (x.requests.map (·.2)).filter fun op => !c.hasEntry op
    let behind := ((s.deliveries.get [] d).take k).any fun y => y.from_ == x.from_ && x.from_.isSome
    if behind || decide (c.sboard.length + news.length > 64) then s
    else
      let wave := fun (r : Nat × Nat) => (((s.core r.1).memq.find? fun m => m.id = r.2).map fun m => m.wave).getD 0
      let entry := fun (r : Nat × Nat) => (⟨r.2, wave r, x.off, x.off + s.ldmcLen r.1 r.2, true, false⟩ : SbEntry)
      let added := (x.requests.filter fun r => news.contains r.2).map entry
      let s1 := s.setCore d { c with sboard := c.sboard ++ added }
      let s2 := x.pieces.foldl (fun (st : State) p =>
        if p.2.1.isEmpty then st
        else st.setCore d ((st.core d).spWrite (x.off + p.1) (p.2.1.map fun b => (b, 0xFF)) p.2.2.1)) s1
      let fault := (x.pieces.filter fun p => p.2.2.2 ≠ 0).foldl (fun (b : Option (Nat × Nat)) p => match b with
        | none => some (p.1, p.2.2.2)
        | some y => if p.1 < y.1 then some (p.1, p.2.2.2) else some y) none
      let s3 : State := { s2 with deliveries := s2.deliveries.put d ((s2.deliveries.get [] d).eraseIdx k) }
      x.requests.foldl (fun (st : State) r =>
        (((st.sendCredit d x.bar (16 * x.pieces.length) (fault.map (·.2))).ldmcFail r.1 r.2 fault)).ldmcEnd r.1 r.2 d) s3

/-- LDMC_DELIVERY. -/
def execLdmcDelivery (core k : Nat) (s : State) : Host.Outcome State Fault Refusal := .next (s.deliver core k)

end Sys2Proof.Machine
end

