-- ==== Sys2Proof/Machine/Images.lean ====
section
/-!
DEFINITION. What the front end and the walkers read and write: accesses at supervisor level, launch images (R363, R364) and
graphs (R311, R312), and the CRC of packets (R358).
-/
namespace Sys2Proof.Machine

/-! ### Accesses of the front end (R378, R385, R387) -/

/-- The front end as a reader of a partition; its walks are told apart by a key. -/
def State.frontReader (s : State) (part key : Nat) : Reader :=
  { core := (s.part part).firstCore, part := part, uid := 2 ^ 64 + key, depth := 0, op := 2 ^ 64 + key, user := false, now := true,
    bad := [], agent := 4 }

/-- What a read by the front end answers. -/
inductive FrontRead where
  | wait
  | fault (cls : Nat)
  | bytes (bs : List Byte)
  deriving DecidableEq, Repr

/-- A line that the front end reads: a GDDR line that is absent comes in without a miss slot; a flash line comes with its page (R403), and a generated
line from its filler. -/
def State.frontLine (s : State) (r : Reader) (k : LineKey) : State × LineOut :=
  match k with
  | .phys l =>
    if inFlash (l * 128) then s.lineReady r k
    else if s.moving r.part k then (s, .wait)
    else (match s.touchLine? r.part l id with | some s1 => (s1, .ready) | none => (s, .wait))
  | .gen .. => s.lineReady r k

/-- Reads bytes for the front end, whose lines are in the LLC afterwards (R310); uncorrectable data, and a line that a failed flash page delivers (R403), is a fault
of class DATA. See assumption 54. -/
def State.frontRead (s : State) (r0 : Reader) (va : DWord) (n : Nat) : State × FrontRead :=
  match s.locate r0 false va n with
  | (s1, .wait) => (s1, .wait)
  | (s1, .fault cls _) => (s1.dropWalks r0.core r0.op, .fault cls)
  | (s1, .at_ ls) =>
    let r : Reader := { r0 with bad := (s1.flashBad.filter fun x => x.1 = r0.part).map (·.2) }
    let keys := keysOfLocs ls
    let (s2, outs) := keys.foldl (fun acc k => let x := acc.1.frontLine r k; (x.1, acc.2 ++ [x.2])) (s1, ([] : List LineOut))
    if outs.contains .wait then (s2, .wait)
    else
      let bs := ls.map (s2.byteAt r.part r.bad)
      let s3 : State := { s2.dropWalks r.core r.op with flashBad := s2.flashBad.filter fun x => !(x.1 = r.part && keys.contains (.phys x.2)) }
      if (poisonOf bs).isSome then (s3, .fault 6) else (s3, .bytes (valuesOf bs))

/-- What a write by the front end answers. -/
inductive FrontWrite where
  | wait
  | fault (cls : Nat)
  | done
  deriving DecidableEq, Repr

/-- Writes bytes for the front end, as a system-scope release; guest copies of the lines are invalidated first (R400). -/
def State.frontWrite (s : State) (r : Reader) (va : DWord) (bs : List Byte) : State × FrontWrite :=
  match s.locate r true va bs.length with
  | (s1, .wait) => (s1, .wait)
  | (s1, .fault cls _) => (s1.dropWalks r.core r.op, .fault cls)
  | (s1, .at_ ls) =>
    let pas := ls.filterMap fun l => match l with | .phys pa => some pa | .gen .. => none
    let lines := (pas.map (· / 128)).eraseDups
    if pas.length < ls.length then (s1.dropWalks r.core r.op, .fault 5)
    else if lines.any (fun l => s1.moving r.part (.phys l)) || !s1.touchable r.part lines then (s1, .wait)
    else
      let s2 := lines.foldl (fun (st : State) l => st.dropGuests l) (s1.dropWalks r.core r.op)
      (s2.performWrites r.part ((pas.zip bs).map fun x => ⟨x.1, x.2, 0xFF⟩) false false none, .done)

/-! ### CRC-32C (R358) -/

/-- One step of the reflected CRC of the Castagnoli polynomial. -/
def crcBit (c : Nat) : Nat := if c % 2 = 1 then c / 2 ^^^ 0x82F63B78 else c / 2

/-- The CRC after one byte. -/
def crcByte (c : Nat) (b : Byte) : Nat := (List.range 8).foldl (fun x _ => crcBit x) (c ^^^ b.toNat)

/-- CRC-32C of some bytes. -/
def crc32c (bs : List Byte) : Nat := bs.foldl crcByte 0xFFFFFFFF ^^^ 0xFFFFFFFF

/-! ### Image headers (R363) -/

/-- The fields of a header. -/
def parseHeader (x : Nat) : Header :=
  { checked := bitOf x 40, coresident := bitOf x 41, matrix := bitOf x 42, saved := bitOf x 43, filler := bitOf x 44
    graph := bitOf x 45, scan := bitOf x 46, prio := bitsOf x 50 48, regblk := bitsOf x 55 51, waves := bitsOf x 61 56
    paired := bitOf x 62, nx := bitsOf x 83 64 + 1, ny := bitsOf x 103 84 + 1, nz := bitsOf x 123 104 + 1
    nstage := bitsOf x 127 124 + 1, entry := BitVec.ofNat 64 (bitsOf x 191 128), scrOff := bitsOf x 223 192
    scrLen := bitsOf x 255 224, graphOff := bitsOf x 287 256, teamOff := bitsOf x 319 288
    saveSize := BitVec.ofNat 64 (bitsOf x 383 320) }

/-- The 512 bits of a header. -/
def Header.bits (h : Header) : Nat :=
  0x5A4C0960 + 2 ^ 32 + h.checked.toNat * 2 ^ 40 + h.coresident.toNat * 2 ^ 41 + h.matrix.toNat * 2 ^ 42 + h.saved.toNat * 2 ^ 43 +
    h.filler.toNat * 2 ^ 44 + h.graph.toNat * 2 ^ 45 + h.scan.toNat * 2 ^ 46 + h.prio * 2 ^ 48 + h.regblk * 2 ^ 51 + h.waves * 2 ^ 56 +
    h.paired.toNat * 2 ^ 62 + (h.nx - 1) * 2 ^ 64 + (h.ny - 1) * 2 ^ 84 + (h.nz - 1) * 2 ^ 104 + (h.nstage - 1) * 2 ^ 124 +
    h.entry.toNat * 2 ^ 128 + h.scrOff * 2 ^ 192 + h.scrLen * 2 ^ 224 + h.graphOff * 2 ^ 256 + h.teamOff * 2 ^ 288 + h.saveSize.toNat * 2 ^ 320

/-- The 24 bytes of a bind slot, all zero for an empty one. -/
def bindBytes (b : Option BindSlot) : List Byte :=
  match b with
  | some x => leBytes 8 x.base.toNat ++ leBytes 8 x.len ++ leBytes 8 (x.obj.toNat + x.bar.toNat * 2 ^ 63)
  | none => List.replicate 24 0

/-- Whether a header keeps R363: the marks, reserved bits, ranges and alignments. -/
def headerOk (x : Nat) : Bool :=
  let h := parseHeader x
  bitsOf x 31 0 == 0x5A4C0960 && bitsOf x 39 32 == 1 && !bitOf x 47 && !bitOf x 63 && bitsOf x 511 384 == 0 &&
    decide (1 ≤ h.regblk) && decide (h.regblk ≤ 16) &&
    (if h.paired then decide (2 ≤ h.waves) && decide (h.waves ≤ 48) else decide (1 ≤ h.waves) && decide (h.waves ≤ 24)) &&
    h.entry.toNat % 4 == 0 && h.scrOff % 16 == 0 && decide (h.scrLen ≤ 0x50000)

/-- A bind slot of an image, checked as BIND checks its operands (R217); none when it is malformed. -/
def parseBind (bs : List Byte) : Option (Option BindSlot) :=
  let len := leNat ((bs.drop 8).take 8)
  let o := leNat ((bs.drop 16).take 8)
  let bar := bitOf o 63
  let obj := o % 2 ^ 63
  if len > 2 ^ 32 then none
  else if len = 0 then some none
  else if (bar && (obj % 16 ≠ 0 || obj ≥ 0x50000)) || (!bar && obj % 8 ≠ 0) then none
  else some (some ⟨BitVec.ofNat 64 (leNat (bs.take 8)), len, bar, BitVec.ofNat 64 obj⟩)

/-- The 16 bind slots of an image; none when one is malformed. -/
def parseBinds (bs : List Byte) : Option (Tab BindSlot) :=
  (List.range 16).foldl (fun (acc : Option (Tab BindSlot)) i =>
    match acc, parseBind ((bs.drop (24 * i)).take 24) with
    | some t, some (some b) => some (t.put i b)
    | some t, some none => some t
    | _, _ => none) (some [])

/-! ### Graphs (R311 to R313) -/

/-- Successors of a node. -/
def nodeNext (n : Node) : Nat := bitsOf n.toNat 8 3
/-- ALT of a node. -/
def nodeAlt (n : Node) : Nat := bitsOf n.toNat 14 9

/-- Whether a node keeps R312 in a graph of `count` nodes. -/
def nodeOk (count : Nat) (n : Node) : Bool :=
  let x := n.toNat
  let kind := nodeKind n
  let succ := fun (k : Nat) => decide (k < count) || k == 63
  decide (1 ≤ kind) && decide (kind ≤ 5) && bitsOf x 63 54 == 0 && succ (nodeNext n) &&
    (if kind = 3 || kind = 4 then succ (nodeAlt n) else nodeAlt n == 0) &&
    (kind != 5 || (decide (1 ≤ nodeMaxDepth n) && decide (nodeMaxDepth n ≤ 32) && (nodeArg1 n).toNat % 64 == 0 &&
      decide (nodeWords n ≤ 16) && decide (nodeBatch n ≤ 128))) &&
    (kind != 1 || decide (bitsOf x 87 85 ≤ 2))

/-- The nodes that a path from the start can reach. -/
def graphReach (nodes : List Node) : Nat → List Nat → List Nat
  | 0, l => l
  | n + 1, l =>
    let next := l.flatMap fun i => match nodes[i]? with
      | some d => if nodeKind d = 3 || nodeKind d = 4 then [nodeNext d, nodeAlt d] else [nodeNext d]
      | none => []
    graphReach nodes n (l ++ next).eraseDups

/-- Whether a graph may be restored: no reserved value, and no path reaches a RECORD node (R311, R313). -/
def graphOk (head : Nat) (nodes : List Node) : Bool :=
  let start := bitsOf head 11 6
  let reach := graphReach nodes nodes.length [start]
  bitsOf head 15 12 == 0 && bitsOf head 255 32 == 0 && (decide (start < nodes.length) || start == 63) && nodes.all (nodeOk nodes.length) &&
    !(reach.any fun i => match nodes[i]? with | some d => nodeKind d == 5 | none => false)

/-! ### Reading an image (R364) -/

end Sys2Proof.Machine

namespace Sys2Proof.Config

/-- The team records in the bytes of a saved image, if each passes its CRC-32C and names this device's revision (R364): only the SZ-960
knows their form (assumption 22). -/
opaque savedTeams : List Byte → Option (List Sys2Proof.Machine.SavedTeam)

end Sys2Proof.Config

namespace Sys2Proof.Machine

/-- Whether a core of a team record can be restored: tags that are assigned (R46), and waves that a core of the grid can hold. -/
def SavedHalf.ok (h : SavedHalf) : Bool :=
  h.waves.all (fun w => decide (w.1 < 24) && decide (w.2.blocks ≤ 16) && w.2.depth == 0 && w.2.vregs.all fun r => decide (r.2.tag.toNat ≤ 16)) &&
    ((h.waves.map (·.1)).eraseDups.length == h.waves.length) && h.tiles.all fun t => decide (t.2.tag.toNat ≤ 16)

/-- The team records of a saved image; none when one fails its check. See assumption 22. -/
def teamRecords (h : Header) (bs : List Byte) : Option (List SavedTeam) :=
  (Config.savedTeams bs).filter fun ts => !ts.isEmpty && ts.all fun t =>
    t.halves.length == (if h.paired then 2 else 1) && t.halves.all SavedHalf.ok && decide (t.x < h.nx) && decide (t.y < h.ny) && decide (t.z < h.nz) &&
      decide (t.stage < h.nstage)

/-- A launch image as read; a saved one has teams. -/
structure Image where
  hdr     : Header
  binds   : Tab BindSlot
  scratch : List Byte
  graph   : Option (List Node × Nat × Nat)
  saved   : List SavedTeam
  deriving DecidableEq, Repr

/-- What reading an image answers. -/
inductive ImageOut where
  | wait
  | bad
  | image (i : Image)
  deriving DecidableEq, Repr

/-- Reads the graph of an image. -/
def State.readGraph (s : State) (r : Reader) (va : DWord) : State × Option (Option (List Node × Nat × Nat)) :=
  match s.frontRead r va 32 with
  | (s1, .wait) => (s1, none)
  | (s1, .fault _) => (s1, some none)
  | (s1, .bytes hd) =>
    let head := leNat hd
    let count := bitsOf head 5 0
    match s1.frontRead r (va + 32) (32 * count) with
    | (s2, .wait) => (s2, none)
    | (s2, .fault _) => (s2, some none)
    | (s2, .bytes bs) =>
      let nodes := (List.range count).map fun i => BitVec.ofNat 256 (leNat ((bs.drop (32 * i)).take 32))
      (s2, some (if graphOk head nodes then some (nodes, bitsOf head 11 6, bitsOf head 31 16) else none))

/-- Reads the team records of an image: from TEAMOFF to the end of the SAVESIZE bytes (assumption 22). -/
def State.readTeams (s : State) (r : Reader) (va : DWord) (h : Header) : State × Option (Option (List SavedTeam)) :=
  if !h.saved then (s, some (some []))
  else match s.frontRead r (va + BitVec.ofNat 64 h.teamOff) (h.saveSize.toNat - h.teamOff) with
    | (s1, .wait) => (s1, none)
    | (s1, .fault _) => (s1, some none)
    | (s1, .bytes bs) => (s1, some (teamRecords h bs))

/-- Reads and checks an image; `saves` where a saved one is taken, which only a LAUNCH does. -/
def State.readLaunch (s : State) (r : Reader) (va : DWord) (saves : Bool) : State × ImageOut :=
  match s.frontRead r va 0x1C0 with
  | (s1, .wait) => (s1, .wait)
  | (s1, .fault _) => (s1, .bad)
  | (s1, .bytes bs) =>
    let x := leNat (bs.take 64)
    let h := parseHeader x
    match headerOk x && (saves || !h.saved), parseBinds (bs.drop 64) with
    | true, some binds =>
      let rest := if h.scrLen = 0 then (s1, FrontRead.bytes []) else s1.frontRead r (va + BitVec.ofNat 64 h.scrOff) h.scrLen
      match rest with
      | (s2, .wait) => (s2, .wait)
      | (s2, .fault _) => (s2, .bad)
      | (s2, .bytes scr) =>
        match s2.readTeams r va h with
        | (s3, none) => (s3, .wait)
        | (s3, some none) => (s3, .bad)
        | (s3, some (some ts)) =>
          if !h.graph then (s3, .image ⟨h, binds, scr, none, ts⟩)
          else match s3.readGraph r (va + BitVec.ofNat 64 h.graphOff) with
            | (s4, none) => (s4, .wait)
            | (s4, some none) => (s4, .bad)
            | (s4, some (some g)) => (s4, .image ⟨h, binds, scr, some g, ts⟩)
    | _, _ => (s1, .bad)

end Sys2Proof.Machine
end

