-- ==== Sys2Proof/Machine/Launching.lean ====
section
/-!
DEFINITION. How waves come to run: creation (R28, R41, R330), fillers (R295), placement, pre-emption and restore of teams
(R10 to R12, R30 to R34, R109, R365, R368, R453), the fairness timer (R23) and the exception window (R71).
-/
namespace Sys2Proof.Machine

/-- FAIRNESS_TIMER_EXPIRY: after 64 issues the turn of a wave's fragment ends (R23). -/
def execFairnessTimerExpiry (core slot : Nat) (s : State) : Host.Outcome State Fault Refusal :=
  .next (match s.wave? core slot with
  | some w => if w.turnOver then s.endTurn core slot true else s
  | none => s)

/-- EXCEPTION_WINDOW_RESTART: the window counts clear, and every action may run again (R71). -/
def execExceptionWindowRestart (core : Nat) (s : State) : Host.Outcome State Fault Refusal :=
  .next (let c := s.core core; s.setCore core { c with xwin := [], xran := [] })

/-- Changes the first fragment of a wave that waits for n blocks, in split-table order. -/
def Wave.firstBlocked (w : Wave) (n : Nat) (g : Fragment → Fragment) : Wave :=
  let waits := fun (f : Fragment) => f.park == some (.blocks n)
  match (List.range 8).find? fun i => (w.frag? i).any waits with
  | some i => w.setFrag i ((w.frag? i).map g)
  | none => { w with ovf := match w.ovf.findIdx? waits with | some k => w.ovf.modify k g | none => w.ovf }

/-- BLOCK_GRANT: the first waiter of a pool is served when its whole request fits (R41); one whose wave would now hold more than 16
blocks issues its RACQ again, which traps. -/
def execBlockGrant (core pool : Nat) (s : State) : Host.Outcome State Fault Refusal :=
  .next (match firstWait (s.blockWaits core pool) with
  | some x =>
    if (s.wave? core x.slot).any fun w => decide (w.blocks + x.n > 16) then
      s.modWave core x.slot fun w => w.firstBlocked x.n fun f => { f with park := none }
    else if x.n ≤ (s.core core).freeIn pool then
      ((s.takeBlocks core x.slot x.n).modWave core x.slot fun w => w.firstBlocked x.n fun f => { f.advance with park := none }).settle core x.slot
    else s
  | none => s)

/-! ### Creating waves (R28, R330) -/

/-- The request for one wave of a team from an image. -/
def newWave (team launch part : Nat) (source : Source) (h : Header) (index prio : Nat) (level : Level) : NewWave :=
  { team := team, launch := launch, part := part, source := source, index := index, entry := h.entry, blocks := h.regblk, prio := prio
    level := level, checked := h.checked, sregs := [], recDepth := 0, node := 0, ringPos := 0, ringCnt := 0, task := none, fillDepth := 0
    gen := none }

/-- A wave at entry state (R330). See assumption 8. -/
def NewWave.wave (n : NewWave) (uid width : Nat) : Wave :=
  { bootWave uid n.entry with
    team := n.team, launch := n.launch, part := n.part, source := n.source, index := n.index, width := width
    entries := some (Fragment.start (Mask.first width) n.entry n.level uid) :: List.replicate 7 none
    sregs := n.sregs.foldl (fun (t : Tab SReg) x => t.put x.1 ⟨x.2, true, false, .fault, none⟩) []
    blocks := n.blocks, prio := n.prio, depth := n.fillDepth, gen := n.gen, bound := n.task, recDepth := n.recDepth, node := n.node
    ringPos := n.ringPos, ringCnt := n.ringCnt, checked := n.checked }

/-- Wave slots of a core. See assumption 81. -/
def slotsOf (core : Nat) : Nat := if core < Config.mainCores then 24 else 6

/-- The first free wave slot. See assumption 77. -/
def Core.freeSlot (c : Core) (core : Nat) : Option Nat := (List.range (slotsOf core)).find? fun i => (Tab.find c.waves i).isNone

/-- Creates a wave in a slot. -/
def State.createAt (s : State) (core slot : Nat) (n : NewWave) : State :=
  let c := s.core core
  let w := n.wave s.uid (Config.width core)
  (s.setCore core { c with
    waves := c.waves.put slot w
    gens := c.gens.put slot (c.gens.get 0 slot + 1)
    free := c.free.put n.fillDepth (c.freeIn n.fillDepth - n.blocks) }).fresh

/-- Waves of the ordinary pool on a core. See assumption 118. -/
def Core.ordinary (c : Core) : Nat := (c.waves.filter fun e => e.2.depth = 0).length

/-- Waves that a team has on one of its cores: its leader takes the larger half (R10). -/
def Team.wavesOn (t : Team) (core : Nat) : Nat :=
  if !t.paired then t.hdr.waves else if t.core = some core then (t.hdr.waves + 1) / 2 else t.hdr.waves / 2

/-- Whether a core lends the slots of its filler reserves to a team of 22 waves or more (R34). See assumption 118. -/
def State.lending (s : State) (core : Nat) : Bool := s.teams.any fun t => t.owns && t.cores.contains core && s.hasTurn t.part core && decide (t.wavesOn core ≥ 22)

/-- Creates the waves of a team on one core. See assumptions 77, 78. -/
def State.createMany (s : State) (core : Nat) (ns : List NewWave) : State :=
  ns.foldl (fun (st : State) n => match (st.core core).freeSlot core with
    | some slot => st.createAt core slot n
    | none => st) s

/-- Whether a core has slots and blocks for some more ordinary waves; slots that it lends to a team are no others' (R34). See assumptions 78, 118. -/
def State.roomFor (s : State) (core n blocks : Nat) : Bool :=
  let c := s.core core
  let slots := if core ≥ Config.mainCores then 6 else 21
  decide (c.ordinary + n ≤ slots) && decide (blocks ≤ c.freeIn 0)

/-- WAVE_CREATION: the waves of the oldest requesting team of a core are created once their slots and blocks are free (R28, R31). A record
wave's creation invalidates the core's whole L1 (R108). See assumption 78. -/
def execWaveCreation (core : Nat) (s : State) : Host.Outcome State Fault Refusal :=
  .next (let c := s.core core
    match c.newWaves with
    | [] => s
    | n :: _ =>
      let mine := c.newWaves.takeWhile fun x => x.team = n.team
      if s.roomFor core mine.length ((mine.map (·.blocks)).sum) then
        let l1 := if mine.any fun x => x.source == .record then [] else c.l1
        (s.setCore core { c with newWaves := c.newWaves.drop mine.length, l1 := l1 }).createMany core mine
      else s)

/-! ### Fillers (R295) -/

/-- Slots of a filler reserve. -/
def reserveSlots (depth : Nat) : Nat := if depth = 1 then 2 else 1

/-- Whether a core can take a filler of a depth. -/
def State.fillerRoom (s : State) (core depth blocks : Nat) : Bool :=
  let c := s.core core
  !s.lending core && decide ((c.waves.filter fun e => e.2.depth = depth).length < reserveSlots depth) && decide (blocks ≤ c.freeIn depth) &&
    (c.freeSlot core).isSome

/-- The cores of a partition in the order of R295. -/
def fillerCores (p : Partition) (opener : Nat) : List Nat :=
  let all := p.cores
  ([opener] ++ all.filter (fun c => Config.clusterOf c = Config.clusterOf opener) ++
    all.filter (fun c => Config.sectorOf c = Config.sectorOf opener) ++ all).eraseDups.filter p.hasCore

/-- The first task of a partition and depth that has no filler: highest inherited priority, then the oldest. -/
def State.firstTask (s : State) (part depth : Nat) : Option Task :=
  ((s.part part).tasks.filter fun t => t.queued && !t.filler && t.depth = depth).foldl (fun (b : Option Task) t => match b with
    | none => some t
    | some x => if s.taskPrio t > s.taskPrio x then some t else some x) none

/-- A team without a launch packet: a filler's, the walker's or a band's. It owns no scratchpad. See assumption 93. -/
def looseTeam (id launch part core waves : Nat) (h : Header) (x : Nat) (binds : Tab BindSlot) : Team :=
  { id := id, launch := launch, part := part, core := some core, paired := false, hdr := h, x := x, y := 0, z := 0, stage := 0
    alive := waves, abandoned := false, binds := binds, owns := false, placed := id, saved := none }

/-- FILLER_CREATION: the first task without a filler gets one on a core, if that is the first core of R295's order with
room. -/
def State.createFiller (s : State) (part depth core : Nat) : State :=
  match s.firstTask part depth with
  | none => s
  | some t =>
    match (s.part part).gens.find t.gen with
    | none => s
    | some g =>
      let c := s.core core
      if (fillerCores (s.part part) t.opener).find? (fun k => s.hasTurn part k && s.fillerRoom k depth g.hdr.regblk) ≠ some core then s
      else match c.freeSlot core with
        | none => s
        | some slot =>
          let team := s.uid
          let s1 := s.fresh
          let n : NewWave := { newWave team team part .filler g.hdr 0 g.hdr.prio .user with
            sregs := [(0, g.param), (1, g.srcBase), (2, BitVec.ofNat 64 g.srcLen), (3, g.altBase)]
            task := some t.id, fillDepth := depth, gen := some t.gen }
          let p := s1.part part
          let s2 := s1.setPart part { p with
            tasks := p.tasks.map fun u => if u.id = t.id then { u with filler := true, queued := false } else u }
          let s3 : State := { s2 with teams := s2.teams ++ [looseTeam team team part core 1 g.hdr 0 g.binds] }
          s3.createAt core slot n

/-- FILLER_CREATION. -/
def execFillerCreation (part depth core : Nat) (s : State) : Host.Outcome State Fault Refusal := .next (s.createFiller part depth core)

/-! ### Turns on shared clusters (R367, R392) -/

/-- The cores of a cluster. -/
def coresOf (cluster : Nat) : List Nat := [4 * cluster, 4 * cluster + 1, 4 * cluster + 2, 4 * cluster + 3]

/-- A core with the state of a context area: what belongs to the core and not to a partition stays. See assumption 83. -/
def Core.load (here saved : Core) : Core :=
  { saved with cycles := here.cycles, outv := here.outv, susp := here.susp, pred := here.pred, tlb := here.tlb, l1 := [], lath := ⟨none⟩ }

/-- The machine as a partition finds it when the turn is its own on every cluster: what its checks of capacity look at (R32, R368). -/
def State.asTurn (s : State) (part : Nat) : State :=
  match (s.part part).context with
  | none => s
  | some x =>
    let away := (List.range 48).filter fun c => (s.part part).clusters.getLsbD c && (match (s.cluster c).turn with | some q => q != part | none => false)
    away.foldl (fun (st : State) c =>
      let st1 := (coresOf c).foldl (fun (u : State) k => u.setCore k ((u.core k).load (x.cores.get (Core.reset k) k))) st
      st1.setCluster c { st1.cluster c with turn := some part }) s

/-! ### Where a team may stand (R32, R34, R237, R365, R453) -/

/-- Waves on the leader and on the follower of a team. -/
def Header.halves (h : Header) : Nat × Nat := if h.paired then ((h.waves + 1) / 2, h.waves / 2) else (h.waves, 0)

/-- Whether a core can take a number of waves of a new team, of which some cores would lend their reserves. -/
def State.canHold (s : State) (part core waves blocks : Nat) (lends : List Nat) : Bool :=
  let c := s.core core
  (s.part part).hasCore core && s.hasTurn part core && c.owner.isNone && c.newWaves.isEmpty && decide (waves * blocks ≤ c.freeIn 0) &&
    if waves ≥ 22 then
      c.waves.isEmpty && (List.range 4).any fun i =>
        let d := core / 4 * 4 + i
        !lends.contains d && !s.lending d
    else decide (c.ordinary + waves ≤ 21)

/-- Whether a pair holds a team that uses the matrix engine or tiles. -/
def State.pairMatrix (s : State) (core : Nat) : Bool := s.teams.any fun t => t.hdr.matrix && s.hasTurn t.part core && t.cores.any fun c => c / 2 = core / 2

/-- Whether a team of an image may be placed on a core: both halves of a paired team together. -/
def State.legal (s : State) (part : Nat) (h : Header) (core : Nat) : Bool :=
  let (a, b) := h.halves
  let lends := (if a ≥ 22 then [core] else []) ++ if b ≥ 22 then [core + 1] else []
  (!h.matrix || !s.pairMatrix core) && s.canHold part core a h.regblk lends &&
    (!h.paired || (core % 2 == 0 && s.canHold part (core + 1) b h.regblk lends))

/-- Teams of a grid. -/
def Header.total (h : Header) : Nat := h.nx * h.ny * h.nz * h.nstage

/-- Coordinates and stage of the n-th team: x fastest, and of one coordinate the last stage first (R12, R365). -/
def Header.coord (h : Header) (n : Nat) : Nat × Nat × Nat × Nat :=
  let c := n / h.nstage
  (c % h.nx, c / h.nx % h.ny, c / (h.nx * h.ny), h.nstage - 1 - n % h.nstage)

/-! ### Placing and restoring -/

/-- A graph as the walker starts it (R311). -/
def Graph.start (launch team : Nat) (g : List Node × Nat × Nat) : Graph :=
  { launch := launch, team := team, nodes := g.1, at_ := g.2.1, started := false, op := none, pending := 0, clips := g.2.2, iters := []
    rings := [], inUse := [], faulted := false, heads := [] }

/-- Scratchpad contents as a table. -/
def scratchTab (bs : List Byte) : Tab Byte := (bs.zipIdx.filter fun x => x.1 != 0).map fun x => (x.2, x.1)

/-- Places a new team of a launch on a core: its scratchpads, bind slots, graph and waves; each L1 is invalidated (R365). -/
def State.placeTeam (s : State) (l : Launch) (core : Nat) : State :=
  let id := s.uid
  let s1 := s.fresh
  let (x, y, z, stage) := l.hdr.coord l.next
  let t : Team := { looseTeam id l.id l.part core l.hdr.waves l.hdr x l.binds with y := y, z := z, stage := stage, paired := l.hdr.paired, owns := true }
  let (a, b) := l.hdr.halves
  let fill := fun (st : State) (k : Nat) =>
    let c := st.core k
    st.setCore k { c with
      owner := some id, scratch := scratchTab l.scratch, spoison := [], l1 := [], flags := 0
      graph := if k = core then l.graph.map (Graph.start l.id id) else none }
  let s2 := t.cores.foldl fill s1
  let req := fun (i : Nat) => newWave id l.id l.part .frontEnd l.hdr i l.prio l.level
  let s3 := s2.createMany core ((List.range a).map req)
  let s4 := if l.hdr.paired then s3.createMany (core + 1) ((List.range b).map fun i => req (a + i)) else s3
  { s4 with
    teams := s4.teams ++ [t]
    launches := s4.launches.map fun u => if u.id = l.id then { u with
      next := u.next + 1, alive := u.alive + 1, spots := u.spots.put (spotKey x y z stage) core } else u }

/-- Whether a saved team may be restored on a core: as for a new team, into the same wave slots. See assumption 77. -/
def State.restorable (s : State) (t : Team) (core : Nat) : Bool :=
  s.legal t.part t.hdr core && (t.saved.getD []).zipIdx.all fun h =>
    h.1.waves.all fun w => (Tab.find (s.core (core + h.2)).waves w.1).isNone

/-- Restores one core of a saved team (R30, R109). See assumptions 77, 118. -/
def State.restoreHalf (s : State) (team core : Nat) (h : SavedHalf) : State :=
  let c := s.core core
  let blocks := (h.waves.map fun w => w.2.blocks).sum
  let c1 := { c with
    waves := h.waves.foldl (fun (t : Tab Wave) w => t.put w.1 w.2) c.waves
    gens := h.waves.foldl (fun (t : Tab (BitVec 16)) w => t.put w.1 (t.get 0 w.1 + 1)) c.gens
    free := c.free.put 0 (c.freeIn 0 - blocks), newWaves := h.newWaves, scratch := h.scratch, spoison := h.spoison, owner := some team
    tiles := h.tiles, accs := h.accs, l1 := [], graph := h.graph, flags := h.flags, memq := c.memq ++ h.pending }
  let ids := (h.waves.map fun w => w.2.team) ++ h.newWaves.map (·.team)
  let s1 := s.setCore core c1
  { s1 with teams := s1.teams.map fun t => if !t.owns && ids.contains t.id then { t with core := some core } else t }

/-- Restores a saved team. -/
def State.restoreTeam (s : State) (t : Team) (core : Nat) : State :=
  let s1 := (t.saved.getD []).zipIdx.foldl (fun (st : State) h => st.restoreHalf t.id (core + h.2) h.1) s
  let s2 : State := { s1 with
    teams := s1.teams.map fun u => if u.id = t.id then { u with core := some core, saved := none, placed := s1.uid } else u
    launches := s1.launches.map fun l => if l.id = t.launch then { l with spots := l.spots.put (spotKey t.x t.y t.z t.stage) core } else l }
  s2.fresh

/-- The stamps of a team record follow those of the machine, from a base on. -/
def Fragment.renew (f : Fragment) (base : Nat) : Fragment :=
  { f with resv := [], park := match f.park with
    | some (.op id) => some (.op (base + id))
    | some (.regs xs) => some (.regs xs)
    | _ => none }

/-- A core of a team record as a team of a launch takes it: its loads are issued again, and what belonged to another machine goes. -/
def SavedHalf.renew (h : SavedHalf) (base team : Nat) (l : Launch) : SavedHalf :=
  let wave := fun (w : Wave) => { w.mapFragments (fun f => f.renew base) with
    uid := base + w.uid, team := team, launch := l.id, part := l.part, prio := l.prio, gen := none, bound := none, held := none, qout := [],
    ibuf := [], lag := 0, fetchBad := [] }
  let ops := h.pending.filter fun m => match m.kind with | .load .. | .acq .. | .node .. | .vxm .. => true | _ => false
  { h with
    waves := h.waves.map fun w => (w.1, wave w.2)
    graph := h.graph.map fun g => { g with launch := l.id, team := team, op := none }
    pending := ops.map fun m => { m with id := base + m.id, wave := base + m.wave, launch := l.id, part := l.part }
    newWaves := [] }

/-- Above every stamp of a core of a team record. -/
def SavedHalf.top (h : SavedHalf) : Nat := ((h.waves.map fun w => w.2.uid) ++ h.pending.map fun m => max m.id m.wave).foldl max 0 + 1

/-- A launch of a saved image has its teams at once, saved; none starts afresh (R364). -/
def State.addSaved (s : State) (l : Launch) (ts : List SavedTeam) : State :=
  let s1 := ts.foldl (fun (st : State) t =>
    let id := st.uid
    let halves := t.halves.map fun h => h.renew (id + 1) id l
    let team : Team := { looseTeam id l.id l.part 0 (halves.map fun h => h.waves.length).sum l.hdr t.x l.binds with
      core := none, paired := l.hdr.paired, y := t.y, z := t.z, stage := t.stage, abandoned := t.abandoned, owns := true, saved := some halves }
    { st with uid := id + 1 + (t.halves.map SavedHalf.top).foldl max 0, teams := st.teams ++ [team] }) s
  if ts.isEmpty then s
  else { s1 with launches := s1.launches.map fun u => if u.id = l.id then { u with next := l.hdr.total, alive := ts.length } else u }

/-- The saved teams of a launch, oldest first. -/
def State.savedOf (s : State) (l : Launch) : List Team := s.teams.filter fun t => t.launch = l.id && t.owns && t.saved.isSome

/-- Whether a launch still has a team to place. -/
def State.wantsPlace (s : State) (l : Launch) : Bool := decide (l.next < l.hdr.total) || !(s.savedOf l).isEmpty

/-- The cores on which a launch's next team may stand now: a consumer needs room for its producer too, as it would be with the
consumer placed, and a producer takes its consumer's cluster where that has room (R12). See assumption 125. -/
def State.placesFor (s : State) (l : Launch) : List Nat :=
  match s.savedOf l with
  | t :: _ => (s.part l.part).cores.filter (s.restorable t)
  | [] =>
    let all := (s.part l.part).cores.filter (s.legal l.part l.hdr)
    let (x, y, z, stage) := l.hdr.coord l.next
    let cluster := match s.teams.find? fun t => t.launch = l.id && t.owns && t.x = x && t.y = y && t.z = z && t.stage = stage + 1 with
      | some t => t.core.map Config.clusterOf
      | none => none
    let near := match cluster with
      | some k => let same := all.filter fun c => Config.clusterOf c = k; if same.isEmpty then all else same
      | none => all
    if stage > 0 then near.filter fun c => let t := s.placeTeam l c; (s.part l.part).cores.any (t.legal l.part l.hdr) else near

/-- Places a launch's next team on a core, if it may stand there. -/
def State.placeOne (s : State) (id core : Nat) : State :=
  match s.launches.find? fun l => l.id = id with
  | none => s
  | some l =>
    if !s.wantsPlace l || !(s.placesFor l).contains core then s
    else match s.savedOf l with
      | t :: _ => s.restoreTeam t core
      | [] => s.placeTeam l core

/-- Places all that is left of a launch, trying the cores of its partition in ascending order from one on. See assumption 125. -/
def State.placeAll (s : State) (id core : Nat) : State :=
  match s.launches.find? fun l => l.id = id with
  | none => s
  | some l =>
    let cs := (s.part l.part).cores
    (cs.filter (fun c => core ≤ c) ++ cs.filter fun c => c < core).foldl (fun (st : State) c => st.placeOne id c) s

/-- Whether a launch has nothing left to place. -/
def State.allPlaced (s : State) (id : Nat) : Bool :=
  match s.launches.find? fun l => l.id = id with
  | some l => !s.wantsPlace l
  | none => true

/-- Whether a launch goes before another when capacity frees: higher priority, then age (R367, R368). -/
def Launch.before (a b : Launch) : Bool := decide (a.prio > b.prio) || (a.prio == b.prio && decide (a.id < b.id))

/-- TEAM_PLACEMENT: the next team of a launch is placed on a core; a CORESIDENT grid is placed whole (R32). No launch that goes
before it could stand there. See assumption 125. -/
def State.place (s : State) (id core : Nat) : State :=
  match s.launches.find? fun l => l.id = id with
  | none => s
  | some l =>
    let ahead := s.launches.any fun u => u.part = l.part && u.before l && u.phase == .placing && s.wantsPlace u && (s.placesFor u).contains core
    if ahead then s
    else
      let s1 := if l.hdr.coresident then
          let t := s.placeAll id core
          if t.allPlaced id then t else s
        else s.placeOne id core
      if s1.allPlaced id then
        { s1 with launches := s1.launches.map fun u => if u.id = id then { u with phase := .done } else u }
      else s1

/-- TEAM_PLACEMENT. -/
def execTeamPlacement (launch core : Nat) (s : State) : Host.Outcome State Fault Refusal := .next (s.place launch core)

/-! ### Pre-emption (R30, R31, R109, R368, R369) -/

/-- A fragment as the image keeps it: its reservations are lost, and it issues again the instruction at which it waited, unless that
is one of the loads recorded as pending. -/
def Fragment.saved (pending : List MemOp) (f : Fragment) : Fragment :=
  { f with resv := [], park := match f.park with
    | some (.op id) => if pending.any fun m => m.id = id then some (.op id) else none
    | some (.regs xs) => some (.regs xs)
    | _ => none }

/-- Whether an operation under way waits on a FILLING line, on the flash or host-memory tier or on a recoverable fault, so that a halt records it
as pending (R30, R369). -/
def State.recordable (s : State) (core : Nat) (m : MemOp) : Bool :=
  let part := s.opPart core m
  let away := fun (k : LineKey) => match k with
    | .phys l => (inHost (l * 128) || inFlash (l * 128)) && (s.llcLine part l).isNone
    | .gen p l => (match s.genLine p l with | some g => g.state == .filling | none => false)
  match m.kind with
  | .load .. | .acq .. | .node .. | .vxm .. =>
    ((s.walksOf (Config.sectorOf core)).any fun w => w.req = m.id && w.token.isSome) || (s.opKeys core part m).any away
  | _ => false

/-- Whether the ordinary waves of a core have nothing under way but loads that a halt records and the operations at which fragments
stall, which a halt takes back (R272, R288); nor is any credit or multicast on its way to the core's scratchpad. See assumption 69. -/
def State.quiet (s : State) (core : Nat) : Bool :=
  let c := s.core core
  let mine := fun (u : Nat) => c.waves.any fun w => w.2.depth = 0 && w.2.uid = u
  c.memq.all (fun m => !mine m.wave || s.recordable core m) && c.q1.all (fun e => !mine e.wave) && c.q2.all (fun e => !mine e.wave) &&
    c.q3.all (fun e => !mine e.wave || match e.kind with | .run .. => true | _ => false) &&
    c.q4.all (fun e => !mine e.wave || match e.kind with | .read .. | .status .. => true | _ => false) &&
    c.credits.isEmpty && (s.deliveries.get [] core).isEmpty &&
    ((s.pairs.get ⟨[]⟩ (Config.pairOf core)).q0.all fun e => !mine e.wave) &&
    match c.graph.bind (·.op) with | some id => !s.opPending core id | none => true

/-- The operations of queues 3 and 4 at which fragments of the ordinary waves of a core stall are taken back: the instructions are
recorded as not issued (R272, R288). -/
def State.takeBack (s : State) (core : Nat) : State :=
  ((s.core core).waves.filter fun e => e.2.depth = 0).foldl (fun (st : State) e =>
    st.abortOps core e.1 ((e.2.entries.filterMap id ++ e.2.ovf).filterMap fun f => match f.park with | some (.op id) => some id | _ => none)) s

/-- Takes the ordinary waves and the team state out of one core. -/
def State.saveHalf (s0 : State) (core : Nat) : State × SavedHalf :=
  let s := s0.takeBack core
  let c := s.core core
  let mine := c.waves.filter fun e => e.2.depth = 0
  let ops := fun (m : MemOp) => mine.any fun e => e.2.uid = m.wave
  let half : SavedHalf :=
    { waves := mine.map fun e => (e.1, { e.2.mapFragments (Fragment.saved (c.memq.filter ops)) with ibuf := [] }), scratch := c.scratch, spoison := c.spoison, tiles := c.tiles
      accs := c.accs, graph := c.graph, flags := c.flags, pending := c.memq.filter ops, newWaves := c.newWaves }
  let blocks := (mine.map fun e => e.2.blocks).sum
  let s1 := s.setCore core { c.giveBlocks 0 blocks with
    waves := c.waves.filter fun e => e.2.depth ≠ 0, owner := none, graph := none, flags := 0, newWaves := []
    memq := c.memq.filter fun m => !ops m }
  let ids := mine.map fun e => e.2.team
  let s2 := mine.foldl (fun (st : State) e => st.dropWalks core e.2.uid) s1
  (half.pending.foldl (fun (st : State) m => st.dropWalks core m.id)
    { s2 with teams := s2.teams.map fun t => if !t.owns && ids.contains t.id then { t with core := none } else t }, half)

/-- Saves a team. -/
def State.saveTeam (s : State) (t : Team) : State :=
  let (s1, hs) := t.cores.foldl (fun (acc : State × List SavedHalf) c =>
    let x := acc.1.saveHalf c
    (x.1, acc.2 ++ [x.2])) (s, [])
  { s1 with
    teams := s1.teams.map fun u => if u.id = t.id then { u with core := none, saved := some hs } else u
    launches := s1.launches.map fun l => if l.id = t.launch then { l with phase := .placing } else l }

/-- The bytes with which a saved image begins: the header of R363, with SAVED = 1, and the bind slots. Where the contents that it carries lie is
the SZ-960's own form. See assumption 22. -/
def Launch.savedHead (l : Launch) (free : Nat) : List Byte :=
  let own := fun (i : Nat) => leNat ((List.range 4).map fun j => Config.saveByte free (4 * i + j))
  let h : Header := { l.hdr with saved := true, scrOff := own 6 / 16 * 16, graphOff := own 8, teamOff := own 9 }
  leBytes 64 h.bits ++ (List.range 16).flatMap fun i => bindBytes (l.binds.find i)

/-- A byte of a saved image: behind the header and the bind slots, one whose form only the SZ-960 knows (R31, R364). See assumption 22. -/
def Launch.savedByte (l : Launch) (free i : Nat) : Byte := if i < 0x1C0 then (l.savedHead free).getD i 0 else Config.saveByte free i

/-- Writes a launch's SAVE area; it answers false while a part must wait. What does not translate is lost (assumption 25). See assumption 22. -/
def State.writeSave (s : State) (l : Launch) : State × Bool :=
  let r := s.frontReader l.part (2 ^ 22)
  let free := s.freeCtr
  let n := l.hdr.saveSize.toNat
  (List.range ((n + 15) / 16)).foldl (fun (acc : State × Bool) i =>
    if !acc.2 then acc
    else match acc.1.frontWrite r (l.save + BitVec.ofNat 64 (16 * i)) ((List.range (min 16 (n - 16 * i))).map fun j => l.savedByte free (16 * i + j)) with
      | (s1, .wait) => (s1, false)
      | (s1, _) => (s1, true)) (s.draw, true)

/-- The priority of a team's launch. -/
def State.teamPrio (s : State) (t : Team) : Nat := ((s.launches.find? fun l => l.id = t.launch).map (·.prio)).getD 0

/-- Whether a launch of a priority may pre-empt a team by itself (R368). -/
def State.preemptibleOne (s : State) (part prio : Nat) (t : Team) : Bool :=
  t.owns && t.core.isSome && t.part = part && decide (s.teamPrio t < prio) &&
    t.cores.all fun c => (s.core c).waves.all fun e => e.2.depth ≠ 0 || decide (s.effPrio e.2 < prio)

/-- The teams that are saved together with one: all of a CORESIDENT grid. -/
def State.together (s : State) (t : Team) : List Team :=
  if t.hdr.coresident then s.teams.filter fun u => u.owns && u.launch = t.launch && u.core.isSome else [t]

/-- Whether a launch of a priority may pre-empt a team and all that are saved with it (R368); priority 7 does so only where FE_PCTL.RT
lets it (R357). -/
def State.preemptible (s : State) (part prio : Nat) (t : Team) : Bool :=
  (decide (prio < 7) || (s.part part).rt) && s.preemptibleOne part prio t && (s.together t).all (s.preemptibleOne part prio)

/-- The team that a launch pre-empts next: lowest priority, then the most recently placed. See assumption 125. -/
def State.victimTeam (s : State) (part prio : Nat) : Option Team :=
  (s.teams.filter (s.preemptible part prio)).foldl (fun (b : Option Team) t => match b with
    | none => some t
    | some x => if s.teamPrio t < s.teamPrio x || (s.teamPrio t = s.teamPrio x && t.placed > x.placed) then some t else some x) none

/-- Whether a launch lacks capacity in the turn of its partition. -/
def State.lacks (s0 : State) (l : Launch) : Bool :=
  let s := s0.asTurn l.part
  l.phase == .placing && s.wantsPlace l &&
    if l.hdr.coresident then !((s.placeAll l.id 0).allPlaced l.id) else (s.placesFor l).isEmpty

/-- TEAM_PREEMPTION: a team is halted and saved, in a turn of its partition (R367), for a launch that lacks capacity and picks it (R368); its
stores and engine operations have finished (R109). See assumptions 69, 125. -/
def State.preempt (s : State) (team : Nat) : State :=
  match s.teams.find? fun t => t.id = team with
  | none => s
  | some t =>
    let wanted := s.launches.any fun l => l.part = t.part && s.lacks l && ((s.asTurn l.part).victimTeam l.part l.prio).map (·.id) == some team
    let all := s.together t
    if !wanted || !(all.all fun u => u.cores.all fun c => s.hasTurn t.part c && s.quiet c) then s
    else match s.launches.find? fun l => l.id = t.launch with
      | none => s
      | some l =>
        let (s1, done) := s.writeSave l
        if done then all.foldl (fun (st : State) u => st.saveTeam u) s1 else s1

/-- TEAM_PREEMPTION. -/
def execTeamPreemption (team : Nat) (s : State) : Host.Outcome State Fault Refusal := .next (s.preempt team)

/-- Whether a CORESIDENT grid fits in a turn of its partition, with the capacity of the teams that it may pre-empt (R32). -/
def State.gridFits (s0 : State) (l : Launch) : Bool :=
  let s := s0.asTurn l.part
  let gone := (s.teams.filter (s.preemptible l.part l.prio)).foldl (fun (st : State) t => st.saveTeam t) s
  (gone.placeAll l.id 0).allPlaced l.id

end Sys2Proof.Machine
end

