-- ==== Sys2Proof/Machine/Graph.lean ====
section
/-!
DEFINITION. The core task-graph walker (R311 to R316): the events that start and complete nodes, launch record waves and
complete a graph.
-/
namespace Sys2Proof.Machine

/-- Writes the graph of a core. -/
def State.setGraph (s : State) (core : Nat) (g : Graph) : State := s.setCore core { s.core core with graph := some g }

/-- The node on the path of a graph. -/
def Graph.node (g : Graph) : Option Node := g.nodes[g.at_]?

/-- Flags that a node waits for and sets. -/
def nodeWait (n : Node) : BitVec 16 := BitVec.ofNat 16 (bitsOf n.toNat 31 16)
/-- SIGSET. -/
def nodeSet (n : Node) : BitVec 16 := BitVec.ofNat 16 (bitsOf n.toNat 47 32)
/-- ARG1 as a number. -/
def nodeCount (n : Node) : Nat := bitsOf n.toNat 191 128

/-- The partition, level and priority of a graph's launch. -/
def State.graphLaunch (s : State) (g : Graph) : Option Launch := s.launches.find? fun l => l.id = g.launch

/-- The walker as an issuer of engine operations: no wave of the core has its stamp. -/
def State.walkerCtx (s : State) (core : Nat) (l : Launch) : Ctx :=
  let uid := 2 ^ 65 + core
  ⟨s, core, 24, { bootWave uid 0 with part := l.part, launch := l.id }, Fragment.start 0 0 l.level uid⟩

/-- The queue and the latches of an ENGINE node. -/
def State.nodeLatch (s : State) (core : Nat) (n : Node) (r : Nat) : DWord :=
  BitVec.ofNat 64 (s.spNat core ((nodeArg0 n).toNat % 2 ^ 19 + 8 * r) 8)

/-- What starting an ENGINE node does: nothing yet, an operation under way, or a descriptor that EQGO would refuse. -/
inductive NodeStart where
  | later
  | going (s : State)
  | refused
  deriving DecidableEq, Repr

/-- Enqueues the operation of an ENGINE node as EQGO does (R230). -/
def State.startEngine (s : State) (core : Nat) (l : Launch) (n : Node) : NodeStart :=
  let c := s.walkerCtx core l
  let x := s.nodeLatch core n
  let k := s.core core
  match bitsOf n.toNat 87 85 with
  | 0 =>
    let p := Config.pairOf core
    let q := (s.pairs.get ⟨[]⟩ p).q0
    if !c.matrixOk (x 0) (x 1) (x 2) (x 3) then .refused
    else if q.length ≥ queueDepth .q0 || (core < Config.mainCores && core % 2 = 1 && !q.isEmpty) then .later
    else .going { s with pairs := s.pairs.put p ⟨q ++ [c.entry 0 false (MxOp.start core (x 0) (x 1) (x 2) (x 3))]⟩ }
  | 1 =>
    let d := copyDesc (x 0) (x 1) (x 2) (x 3)
    if (d.bad core ((x 3).toNat / 2 ^ 55)).isSome then .refused
    else if k.q1.length ≥ queueDepth .q1 || !k.hasRoom core (d.sides core) then .later
    else
      let e := c.entry 1 false (.copy d)
      .going (s.setCore core { k.addSides core e.id e.wave (d.sides core) with q1 := k.q1 ++ [e] })
  | _ =>
    (match hintOf (x 2).toNat with
    | some h =>
      if (x 1).toNat ≥ 2 ^ 40 || x 3 ≠ 0 then .refused
      else if k.q2.length ≥ queueDepth .q2 then .later
      else .going (s.setCore core { k with q2 := k.q2 ++ [c.entry 2 false ⟨h, x 0, (x 1).toNat, 0, false⟩] })
    | none => .refused)

/-- Requests the waves of the teams of a LAUNCH node (R313, R453). -/
def State.startTeams (s : State) (core : Nat) (l : Launch) (n : Node) (i : Image) : State :=
  (List.range (nodeCount n + 1)).foldl (fun (st : State) k =>
    let id := st.uid
    let st1 := st.fresh
    let ws := (List.range i.hdr.waves).map fun j => newWave id l.id l.part .walker i.hdr j l.prio l.level
    let c := st1.core core
    let st2 := st1.setCore core { c with newWaves := c.newWaves ++ ws }
    { st2 with teams := st2.teams ++ [looseTeam id l.id l.part core i.hdr.waves i.hdr k i.binds] }) s

/-- The key of a core's walker among the readers of images. -/
def walkerKey (core : Nat) : Nat := 2 ^ 20 + core

/-- Whether an image can serve the walker: an ordinary image of one core without a graph of its own. See assumption 23. -/
def Header.walkable (h : Header) : Bool := !h.filler && !h.scan && !h.paired && !h.graph && decide (h.waves ≤ 24)

/-- GRAPH_NODE_START: the node on the path starts once its flags are all set, and clears them (R313, R316). A node that
cannot be carried out as it stands counts as a fault of the launch and is complete (assumption 23). -/
def State.startNode (s : State) (core : Nat) : State :=
  match (s.core core).graph with
  | none => s
  | some g =>
    match g.node, s.graphLaunch g with
    | some n, some l =>
      let mask := nodeWait n
      let k := s.core core
      if g.started || k.flags &&& mask ≠ mask then s
      else
        let begin_ := fun (st : State) (h : Graph) =>
          let c := st.core core
          st.setCore core { c with flags := c.flags &&& ~~~mask, graph := some { h with started := true } }
        (match nodeKind n with
        | 1 => (match s.startEngine core l n with
          | .later => s
          | .going s1 => (begin_ s1 { g with op := some s.uid }).fresh
          | .refused => begin_ s { g with op := none, faulted := true })
        | 2 => (match s.readLaunch (s.frontReader l.part (walkerKey core)) (nodeArg0 n) false with
          | (s1, .wait) => s1
          | (s1, .bad) => begin_ s1 { g with pending := 0, faulted := true }
          | (s1, .image i) =>
            if i.hdr.walkable then
              let waves := i.hdr.waves * (nodeCount n + 1)
              (begin_ s1 { g with pending := waves }).startTeams core l n i
            else begin_ s1 { g with pending := 0, faulted := true })
        | _ => begin_ s g)
    | _, _ => s

/-- GRAPH_NODE_START. -/
def execGraphNodeStart (core : Nat) (s : State) : Host.Outcome State Fault Refusal := .next (s.startNode core)

/-- The successor of the node on the path, with what a WHILE node counts (R313). See assumptions 62, 79. -/
def Graph.successor (g : Graph) (n : Node) (word : Nat) : Graph × Nat :=
  match nodeKind n with
  | 3 => (g, if word = 0 then nodeNext n else nodeAlt n)
  | 4 =>
    let done := Tab.get 0 g.iters g.at_
    let limit := nodeCount n
    if word = 0 then ({ g with iters := Tab.put g.iters g.at_ 0 }, nodeAlt n)
    else if limit ≠ 0 && decide (limit ≤ done) then
      ({ g with iters := Tab.put g.iters g.at_ 0, clips := min (g.clips + 1) 0xFFFF }, nodeAlt n)
    else ({ g with iters := Tab.put g.iters g.at_ (done + 1) }, nodeNext n)
  | _ => (g, nodeNext n)

/-- GRAPH_NODE_COMPLETION: a started node has completed; its flags are set and the path moves on. See assumption 23. -/
def State.completeNode (s : State) (core : Nat) : State :=
  match (s.core core).graph with
  | none => s
  | some g =>
    match g.node with
    | none => s
    | some n =>
      let done := g.started && match nodeKind n with
        | 1 => (match g.op with | some id => !s.opPending core id | none => true)
        | 2 => g.pending == 0
        | _ => true
      if !done then s
      else
        let (g1, to_) := g.successor n (s.spNat core ((nodeArg0 n).toNat % 2 ^ 19) 4)
        let c := s.core core
        s.setCore core { c with flags := c.flags ||| nodeSet n, graph := some { g1 with at_ := to_, started := false, op := none } }

/-- GRAPH_NODE_COMPLETION. -/
def execGraphNodeCompletion (core : Nat) (s : State) : Host.Outcome State Fault Refusal := .next (s.completeNode core)

/-- The records at the head of a ring that make the next batch: equal depth, stored, and not around the ring's end (R314). See assumption 114. -/
def State.batch (s : State) (core : Nat) (g : Graph) (node : Nat) (n : Node) : List Record :=
  let q : List Record := Tab.get [] g.rings node
  let pos := Tab.get 0 g.heads node
  let stored := fun (r : Record) => !(s.core core).memq.any fun m => m.id = r.op
  match q with
  | [] => []
  | r :: _ => (q.takeWhile fun x => x.depth = r.depth && stored x).take (min (nodeBatch n) (nodeEntries n - pos))

/-- RECORD_WAVE_LAUNCH: a RECORD node launches a wave for its next batch (R314). See assumption 114. -/
def State.launchRecords (s : State) (core node : Nat) : State :=
  match (s.core core).graph with
  | none => s
  | some g =>
    match g.nodes[node]?, s.graphLaunch g with
    | some n, some l =>
      let rs := s.batch core g node n
      if nodeKind n ≠ 5 || rs.isEmpty then s
      else
        (match s.readLaunch (s.frontReader l.part (walkerKey core)) (nodeArg0 n) false with
        | (s1, .wait) => s1
        | (s1, .bad) => s1.setGraph core { g with faulted := true, rings := Tab.put g.rings node ((Tab.get [] g.rings node).drop rs.length) }
        | (s1, .image i) =>
          let pos := Tab.get 0 g.heads node
          let id := s1.uid
          let count := rs.length
          let depth := (rs.head?.map (·.depth)).getD 0
          let w : NewWave := { newWave id l.id l.part .record i.hdr 0 l.prio l.level with
            sregs := [(0, ringAddr n pos), (1, BitVec.ofNat 64 count), (2, BitVec.ofNat 64 depth)]
            recDepth := depth, node := node, ringPos := pos, ringCnt := count }
          let held := (List.range count).map fun k => pos + k
          let g1 := { g with
            rings := Tab.put g.rings node ((Tab.get [] g.rings node).drop count)
            heads := Tab.put g.heads node ((pos + count) % nodeEntries n)
            inUse := Tab.put g.inUse node (Tab.get [] g.inUse node ++ held) }
          let c := s1.core core
          let s2 := (s1.setCore core { c with newWaves := c.newWaves ++ [w], graph := some g1 }).fresh
          { s2 with teams := s2.teams ++ [looseTeam id l.id l.part core 1 i.hdr 0 i.binds] })
    | _, _ => s

/-- RECORD_WAVE_LAUNCH. -/
def execRecordWaveLaunch (core node : Nat) (s : State) : Host.Outcome State Fault Refusal := .next (s.launchRecords core node)

/-- Whether a graph has reached its end: the path at 63, every ring empty and no record wave left (R313). -/
def Graph.finished (g : Graph) : Bool := g.at_ == 63 && g.rings.all (fun r => r.2.isEmpty) && g.inUse.all fun r => r.2.isEmpty

/-- GRAPH_COMPLETION: a graph is complete; its clips and faults pass to its launch, whose record tells them (R313, R359). -/
def State.graphDone (s : State) (core : Nat) : State :=
  match (s.core core).graph with
  | none => s
  | some g =>
    if !g.finished then s
    else
      let s1 := s.setCore core { s.core core with graph := none }
      let note := fun (l : Launch) => if l.id = g.launch then
        { l with clipped := l.clipped || g.clips != 0, faulted := l.faulted || g.faulted } else l
      let s2 : State := { s1 with launches := s1.launches.map note }
      match s2.teams.find? fun t => t.id = g.team with
      | some t => if t.alive = 0 then s2.endTeam t else s2
      | none => s2

/-- GRAPH_COMPLETION. -/
def execGraphCompletion (core : Nat) (s : State) : Host.Outcome State Fault Refusal := .next (s.graphDone core)

end Sys2Proof.Machine
end

