-- ==== Sys2Proof/Machine/Walks.lean ====
section
/-!
DEFINITION. The walk scheduler and fault queue (R375 to R388), dropping translations (R353), page migration (R408) and the
commands of the generator table (R289 to R291, R303).
-/
namespace Sys2Proof.Machine

/-! ### PAGE_TABLE_WALK (R375, R384, R385, R387) -/

/-- Kind of an access in a fault record. -/
def Walk.kind (w : Walk) : Nat := if w.fetch then 2 else if w.write then 1 else 0

/-- The record of a recoverable fault (R387). -/
def faultRecord (w : Walk) (token level cls : Nat) (entry : DWord) : List Byte :=
  leBytes 8 w.va.toNat ++ leBytes 4 token ++ leBytes 1 (w.kind + w.user.toNat * 4) ++ leBytes 1 level ++ leBytes 1 cls ++ leBytes 1 0 ++
    leBytes 2 (w.core % 256 + w.agent % 16 * 256) ++ leBytes 6 0 ++ leBytes 8 entry.toNat

/-- The open token that a fault joins: the same page and kind. -/
def Partition.tokenFor (p : Partition) (w : Walk) : Option Token := p.tokens.find? fun t => t.page = w.page && t.write = w.write && t.fetch = w.fetch

/-- Opens a token for a recoverable fault, or lets it wait for ring space; the answer is the walk as it then stands. None while the record
cannot be written: its bucket is being moved (R399), or its set has no room (R407). -/
def State.openToken (s : State) (w : Walk) (level cls : Nat) (entry : DWord) : Option (State × Walk) :=
  let p := s.part w.part
  match p.tokenFor w with
  | some t => some (s, { w with token := some t.id, full := false, walker := none })
  | none =>
    if (p.prod - p.cons).toNat < 2 ^ p.fqLog2n then
      let pa := p.fqBase + 32 * (p.prod.toNat % 2 ^ p.fqLog2n)
      if s.moving w.part (.phys (pa / 128)) || !s.touchable w.part [pa / 128] then none
      else
        let s1 := s.writePhys w.part pa (faultRecord w p.prod.toNat level cls entry) false
        let s2 := s1.setPart w.part { s1.part w.part with
          prod := p.prod + 1, tokens := p.tokens ++ [⟨p.prod, w.page, w.write, w.fetch⟩] }
        let s3 := if bitOf p.fctl.toNat 11 then s2.irq w.part (p.fctl.toNat % 2048) else s2
        some (s3, { w with token := some p.prod, full := false, walker := none })
    else some (s, { w with full := true, walker := none })

/-- Whether two requests are one: a page for one instruction, of a kind (R384). -/
def Walk.same (w v : Walk) : Bool := w.req = v.req && w.page = v.page && w.write = v.write && w.fetch = v.fetch

/-- Replaces a request of a sector, or takes it out. -/
def State.replaceWalk (s : State) (sector : Nat) (w : Walk) (v : Option Walk) : State :=
  s.setWalks sector ((s.walksOf sector).filterMap fun x => if x.same w then v else some x)

/-- Whether the tier engine is moving the page of an address (R385, R408). See assumption 24. -/
def Partition.migrating (p : Partition) (va : DWord) : Bool :=
  let a := va.toNat % 2 ^ 57
  p.mig.any fun m => m.stub && decide (m.va / pageBytes m.size = a / pageBytes m.size)

/-- Whether a request stands in the pending queue or waits for it: it waits on no token, for no ring space and for no migration. -/
def State.pendingWalk (s : State) (w : Walk) : Bool :=
  let p := s.part w.part
  w.walker.isNone && w.token.isNone && w.result.isNone && !p.migrating w.va &&
    (!w.full || (p.tokenFor w).isSome || decide ((p.prod - p.cons).toNat < 2 ^ p.fqLog2n))

/-- The pending queue of a sector: the oldest 512 requests; the others wait in their cluster TLBs (R384). -/
def State.walkQueue (s : State) (sector : Nat) : List Walk := ((s.walksOf sector).filter s.pendingWalk).take 512

/-- How many walkers of a sector an instruction holds. -/
def State.walkersOf (s : State) (sector req : Nat) : Nat :=
  (((s.walksOf sector).filter fun w => w.req = req).filterMap (·.walker)).eraseDups.length

/-- The requests that a free walker takes: one whose instruction holds the fewest walkers, the oldest of those, and up to 7 further ones of that
instruction that share its levels 4 to 2 (R384). -/
def State.nextWalks (s : State) (sector : Nat) : List Walk :=
  let q := s.walkQueue sector
  let better := fun (best : Option Walk) (w : Walk) => match best with
    | none => some w
    | some b => if s.walkersOf sector w.req < s.walkersOf sector b.req then some w else some b
  match q.foldl better none with
  | none => []
  | some w => w :: ((q.filter fun x => x.req = w.req && x.page / 2 ^ 18 = w.page / 2 ^ 18 && !x.same w).take 7)

/-- Whether a request is a PREF's, which drops a thread that faults and reports nothing (R214). -/
def State.walkDrops (s : State) (w : Walk) : Bool := (s.core w.core).memq.any fun m => m.id = w.req && m.kind.prefetches

/-- Walks the tables for a request (R375). The lines that the walk reads are in the LLC afterwards (R310), and while one of them is not to be had
the walk waits. See assumption 101. -/
def State.walkOne (s0 : State) (sector : Nat) (w : Walk) : State :=
  if s0.walkWaits w.part w.va then s0
  else
    let s := s0.touchWalk w.part w.va
    match s.walk w.part ⟨w.write, w.fetch, w.user⟩ w.va with
    | .leaf e => (s.fillTlb w.core e).replaceWalk sector w none
    | .stop cls recover level entry record _ =>
      let fail := s.replaceWalk sector w (some { w with result := some cls, full := false, walker := none })
      if recover then
        if (s.part w.part).migrating w.va then s.replaceWalk sector w (some { w with walker := none })
        else if s.walkDrops w then fail
        else (match s.openToken w level cls entry with
          | some (s1, v) => s1.replaceWalk sector w (some v)
          | none => s)
      else match record with
        | some sev => fail.record { source := 16, sev := sev, unit := level, cls := cls, part := some w.part, addr := w.va.toNat }
        | none => fail

/-- PAGE_TABLE_WALK by a walker of a sector (R384): a free one takes requests, and one that has some walks for each. -/
def State.walkStep (s : State) (sector walker : Nat) : State :=
  let mine := (s.walksOf sector).filter fun w => w.walker = some walker
  if walker ≥ 64 then s
  else if mine.isEmpty then
    (s.nextWalks sector).foldl (fun (st : State) w => st.replaceWalk sector w (some { w with walker := some walker })) s
  else mine.foldl (fun (st : State) w => st.walkOne sector w) s

/-- PAGE_TABLE_WALK. -/
def execPageTableWalk (sector k : Nat) (s : State) : Host.Outcome State Fault Refusal := .next (s.walkStep sector k)

/-- Ends an open token: the accesses that wait on it walk again, or complete as unrecoverable faults of class NOMAP (R388). -/
def State.endToken (s : State) (part : Nat) (token : BitVec 32) (abort : Bool) : State :=
  let p := s.part part
  if !(p.tokens.any fun t => t.id = token) then s
  else
    let s1 := s.setPart part { p with tokens := p.tokens.filter fun t => t.id ≠ token }
    let wake := fun (w : Walk) => if w.part = part && w.token = some token then
      { w with token := none, result := if abort then some 1 else none } else w
    { s1 with walks := s1.walks.map fun e => (e.1, e.2.map wake) }

/-- FAULT_RESUME. -/
def execFaultResume (part : Nat) (token : BitVec 32) (s : State) : Host.Outcome State Fault Refusal := .next (s.endToken part token false)

/-- FAULT_ABORT. -/
def execFaultAbort (part : Nat) (token : BitVec 32) (s : State) : Host.Outcome State Fault Refusal := .next (s.endToken part token true)

/-! ### Dropping translations (R353) -/

/-- Whether a TLB entry of a partition overlaps a range. -/
def TlbEntry.overlaps (e : TlbEntry) (part lo hi : Nat) : Bool := e.part = part && e.base < hi && lo < e.base + pageBytes e.size

/-- Drops the entries of a partition that overlap a range from the TLBs of some cores and clusters; the waves of the partition on
those cores fetch again what their instruction buffers hold. See assumption 65. -/
def State.dropTlb (s : State) (part lo hi : Nat) (core cluster : Nat → Bool) : State :=
  let keep := fun (l : List TlbEntry) => l.filter fun e => !e.overlaps part lo hi
  let refetch := fun (t : Tab Wave) => t.map fun x => (x.1, if x.2.part = part then { x.2 with ibuf := [] } else x.2)
  { s with
    cores := s.cores.map fun e => if core e.1 then (e.1, { e.2 with tlb := keep e.2.tlb, waves := refetch e.2.waves }) else e
    clusters := s.clusters.map fun e => if cluster e.1 then (e.1, { e.2 with tlb := keep e.2.tlb }) else e }

/-- TLBI.device over a range of a partition. -/
def State.dropAllTlb (s : State) (part lo hi : Nat) : State := s.dropTlb part lo hi (fun _ => true) fun _ => true

/-! ### Page migration (R408) -/

/-- The address and level of the leaf entry that maps an address, if its walk reaches a valid leaf. -/
def leafAddr (s : State) (p : Partition) (va : Nat) : Nat → Nat → Option (Nat × Nat)
  | level, table =>
    let addr := table + 8 * (va / 2 ^ (12 + 9 * level) % 512)
    let x := (s.readD addr).toNat
    if !p.ownsGddr table (table + 4095) || s.wordPoisoned addr || !bitOf x 0 then none
    else if bitOf x 1 then some (addr, level)
    else match level with
      | 0 => none
      | l + 1 => leafAddr s p va l (bitsOf x 51 12 * 4096)

/-- The size code of a leaf at a level (R354, R377). -/
def leafSize (level x : Nat) : Nat := if level = 0 then (if bitOf x 7 then 1 else 0) else level + 1

/-- Ends a migration with a result. -/
def State.endMigration (s : State) (part result : Nat) : State :=
  s.setPart part { s.part part with migBusy := false, migResult := BitVec.ofNat 3 result, mig := none }

/-- The tier engine as a reader of a partition. -/
def State.tierReader (s : State) (part : Nat) : Reader :=
  { s.frontReader part (2 ^ 23) with bad := (s.flashBad.filter fun x => x.1 = part).map (·.2) }

/-- The descriptor of the partition's migration, if it keeps the rules and its leaf is what it says (R408, R377, R382). See assumption 24. -/
def State.parseMigration (s : State) (part : Nat) : Option Migration :=
  let p := s.part part
  let d := p.migDesc.toNat % 2 ^ 52
  let bs := s.mem.readBytes d 64
  let va := leNat (bs.take 8)
  let leafPa := leNat ((bs.drop 8).take 8)
  let newPa := leNat ((bs.drop 16).take 8)
  let size := leNat ((bs.drop 24).take 1)
  let bytes := pageBytes size
  if !p.ownsGddr d (d + 63) || ((List.range 8).any fun i => s.wordPoisoned (d + 8 * i)) || (bs.drop 25).any (· != 0) || leafPa % 8 ≠ 0 ||
      size > 3 || newPa % bytes ≠ 0 || newPa ≥ 2 ^ 52 || inFlash newPa || !canonical (BitVec.ofNat 64 va) || !bitOf p.ptRoot.toNat 0 then none
  else (leafAddr s p (va % 2 ^ 57) 4 (bitsOf p.ptRoot.toNat 51 12 * 4096)).bind fun (addr, level) =>
    let leaf := s.readD leafPa
    let x := leaf.toNat
    let moved : DWord := BitVec.ofNat 64 (bitsOf x 63 52 * 2 ^ 52 + newPa + x % 4096)
    if addr ≠ leafPa || bitOf x 2 || leafSize level x ≠ size || bitsOf x 51 12 * 4096 % bytes ≠ 0 || !p.ownsLeaf (moved.setWidth 256) size then none
    else some ⟨va % 2 ^ 57 / bytes * bytes, leafPa, newPa, size, leaf, false, 0⟩

/-- The stub that stands in the leaf's place while the page is copied: V is 0 and SVC is 1 (R408). -/
def Migration.stubLeaf (m : Migration) : DWord := m.leaf &&& ~~~1#64 ||| 0x100#64

/-- The leaf with the page's new address. -/
def Migration.movedLeaf (m : Migration) : DWord :=
  BitVec.ofNat 64 (bitsOf m.leaf.toNat 63 52 * 2 ^ 52 + m.newPa + m.leaf.toNat % 4096)

/-- Copies a line from the old page to the new one, through the LLC (R310); uncorrectable words are written poisoned (R408). None while a line of
it is not to be had. See assumption 24. -/
def State.migrateLine (s : State) (r : Reader) (src dst : Nat) : State × Bool :=
  let (s1, out) := s.frontLine r (.phys (src / 128))
  if out != .ready || s1.moving r.part (.phys (dst / 128)) || !s1.touchable r.part [dst / 128] then (s1, false)
  else
    let bs := (List.range 128).map fun i => s1.byteAt r.part r.bad (.phys (src + i))
    let bad := (List.range 16).filter fun j => ((bs.drop (8 * j)).take 8).any (·.2.isSome)
    let s2 := s1.writePhys r.part dst (bs.map (·.1)) false
    (if bad.isEmpty then s2 else s2.markWords (bad.map (dst / 8 + ·)) true, true)

/-- Copies up to `n` lines of a page from a line on, to the first that must wait; the answer says how many have been copied. See assumption 24. -/
def State.copyLines (s : State) (r : Reader) (src dst : Nat) : Nat → Nat → State × Nat
  | 0, i => (s, i)
  | n + 1, i =>
    match s.migrateLine r (src + 128 * i) (dst + 128 * i) with
    | (s1, true) => s1.copyLines r src dst n (i + 1)
    | (s1, false) => (s1, i)

/-- The next stage of a migration: the check of the descriptor; the stub and TLBI.device; the copy, as far as it comes; and the new leaf (R408). A
stage waits while a line that it reads or writes is not to be had. See assumption 24. -/
def State.migrate (s : State) (part : Nat) : State :=
  let p := s.part part
  if !p.migBusy then s
  else match p.mig with
  | none =>
    let d := p.migDesc.toNat % 2 ^ 52
    if !p.ownsGddr d (d + 63) then s.endMigration part 1
    else if s.moving part (.phys (d / 128)) then s
    else (match s.touchLine? part (d / 128) id with
      | none => s
      | some s1 => match s1.parseMigration part with
        | some m => s1.setPart part { s1.part part with mig := some m }
        | none => s1.endMigration part 1)
  | some m =>
    let line := m.leafPa / 128
    let bytes := pageBytes m.size
    if !m.stub then
      if s.moving part (.phys line) || !s.touchable part [line] then s
      else if s.readD m.leafPa ≠ m.leaf || s.wordPoisoned m.leafPa then (s.touchLine part line id).endMigration part 2
      else
        let s1 := (s.writePhys part m.leafPa (leBytes 8 m.stubLeaf.toNat) false).dropAllTlb part m.va (m.va + bytes)
        s1.setPart part { s1.part part with mig := some { m with stub := true } }
    else if m.done < bytes / 128 then
      let (s1, n) := s.copyLines (s.tierReader part) (bitsOf m.leaf.toNat 51 12 * 4096) m.newPa (bytes / 128 - m.done) m.done
      s1.setPart part { s1.part part with mig := some { m with done := n } }
    else if s.moving part (.phys line) || !s.touchable part [line] then s
    else (s.writePhys part m.leafPa (leBytes 8 m.movedLeaf.toNat) false).endMigration part 0

/-- PAGE_MIGRATION. See assumption 24. -/
def execPageMigration (part : Nat) (s : State) : Host.Outcome State Fault Refusal := .next (s.migrate part)

/-! ### Generator commands (R289 to R291, R303) -/

/-- Ends a generator command with a result. -/
def State.endGen (s : State) (part result : Nat) : State :=
  s.setPart part { s.part part with genBusy := false, genResult := BitVec.ofNat 3 result }

/-- Whether an image can serve as a filler image (R291). -/
def Header.fills (h : Header) : Bool :=
  h.total == 1 && h.waves == 1 && decide (h.regblk ≤ 4) && h.nstage == 1 && !h.coresident && !h.graph && !h.matrix && !h.paired && !h.scan

/-- The entry of a generator table, without its image. -/
def parseGen (x : Nat) (h : Header) (binds : Tab BindSlot) : Gen :=
  { vbase := bitsOf x 63 0, vlen := bitsOf x 103 64, block := 2 ^ (bitsOf x 106 104 + 9), vkeep := bitOf x 108, trap := bitOf x 109
    image := BitVec.ofNat 64 (bitsOf x 191 128), param := BitVec.ofNat 64 (bitsOf x 255 192)
    srcBase := BitVec.ofNat 64 (bitsOf x 319 256), srcLen := bitsOf x 359 320, altBase := BitVec.ofNat 64 (bitsOf x 447 384)
    handler := BitVec.ofNat 64 (bitsOf x 511 448), hdr := h, binds := binds, closing := false }

/-- Whether an entry keeps R290 and R291, its image apart. -/
def genOk (x : Nat) : Bool :=
  let g := parseGen x (parseHeader 0) []
  bitsOf x 127 110 == 0 && bitsOf x 383 360 == 0 && bitOf x 107 && g.vbase % g.block == 0 && g.vbase % 4096 == 0 && decide (g.vlen ≠ 0) &&
    g.vlen % g.block == 0 && g.handler.toNat % 4 == 0 && (!g.trap || g.handler != 0) && decide (g.vbase + g.vlen ≤ 2 ^ 64) &&
    canonical (BitVec.ofNat 64 g.vbase) && canonical (BitVec.ofNat 64 (g.vbase + g.vlen - 1)) &&
    decide (g.vbase / 2 ^ 56 = (g.vbase + g.vlen - 1) / 2 ^ 56)

/-- Performs the load command of a partition; while the entry's line or the image is not to be had, the command stays busy. -/
def State.loadGen (s : State) (part : Nat) : State :=
  let p := s.part part
  if !p.genBusy || p.genOp then s
  else
    let i := p.genIndex.toNat
    let a := p.genTbase.toNat % 2 ^ 52 + 64 * i
    if !p.ownsGddr a (a + 63) then s.endGen part 3
    else if s.moving part (.phys (a / 128)) then s
    else match s.touchLine? part (a / 128) id with
    | none => s
    | some s =>
    if (List.range 8).any fun j => s.wordPoisoned (a + 8 * j) then s.endGen part 3
    else
      let x := leNat (s.mem.readBytes a 64)
      if !genOk x then s.endGen part 1
      else match s.readLaunch (s.frontReader part (2 ^ 21)) (BitVec.ofNat 64 (bitsOf x 191 128)) false with
        | (s1, .wait) => s1
        | (s1, .bad) => s1.endGen part 1
        | (s1, .image im) =>
          let g := parseGen x im.hdr im.binds
          let p1 := s1.part part
          if !im.hdr.fills then s1.endGen part 1
          else if p1.gens.any fun e => e.1 ≠ i && e.2.vbase < g.vbase + g.vlen && g.vbase < e.2.vbase + e.2.vlen then s1.endGen part 2
          else (s1.setPart part { p1 with gens := p1.gens.put i g }).endGen part 0

/-- GEN_LOAD. -/
def execGenLoad (part : Nat) (index : BitVec 8) (s : State) : Host.Outcome State Fault Refusal :=
  .next (if (s.part part).genIndex = index then s.loadGen part else s)

/-- Starts the invalidate command of a partition: new misses on the range wait; without a loaded entry it is done (R303). -/
def State.closeGen (s : State) (part : Nat) : State :=
  let p := s.part part
  if !p.genBusy || !p.genOp then s
  else match p.gens.find p.genIndex.toNat with
    | some g => s.setPart part { p with gens := p.gens.put p.genIndex.toNat { g with closing := true } }
    | none => s.endGen part 0

/-- GEN_INVALIDATE. -/
def execGenInvalidate (part : Nat) (index : BitVec 8) (s : State) : Host.Outcome State Fault Refusal :=
  .next (if (s.part part).genIndex = index then s.closeGen part else s)

/-- Drops the lines of a virtual range of a partition, with their guests and victim copies. -/
def State.dropGenRange (s : State) (part lo hi : Nat) : State :=
  let inside := fun (l : Nat) => decide (lo ≤ l * 128) && decide (l * 128 < hi)
  let ls := ((s.genLines.get [] part).filter fun e => inside e.1).map (·.1)
  let s1 := ls.foldl (fun (st : State) l => (st.dropCopies (.gen part l)).setGenLine part l none) s
  let p := s1.part part
  let s2 := s1.setPart part { p with pins := p.pins.filter fun n => n % 2 = 0 || !inside (n / 2 * 32) }
  { s2 with victims := s2.victims.filter fun v => match v.key with | .gen q l => !(q = part && inside l) | .phys _ => true }

/-- Whether an access that waited on a fill of a range, or a multicast request for its lines, has still to take the bytes that the
fill committed (R303). See assumption 117. -/
def State.fillOwed (s : State) (part lo hi : Nat) : Bool :=
  let owed := fun (ks : List LineKey) =>
    let ls := ks.filterMap fun k => match k with
      | .gen q l => if q = part && lo ≤ l * 128 && l * 128 < hi then some l else none
      | .phys _ => none
    !ls.isEmpty && ls.all fun l => (s.genLine part l).isSome
  (s.cores.any fun e => e.2.memq.any fun m => m.waited && !m.kind.prefetches && s.opPart e.1 m = part && owed (s.opKeys e.1 part m)) ||
    s.slices.any fun e => e.2.merges.any fun m => m.part = part && m.phase ≠ .window && owed (m.pieces.map (·.key))

/-- GEN_INVALIDATE_FINISH: every task of the generator has ended; its lines are dropped and its entry cleared. See assumption 117. -/
def execGenInvalidateFinish (part : Nat) (s : State) : Host.Outcome State Fault Refusal :=
  .next (let p := s.part part
    let i := p.genIndex.toNat
    match p.gens.find i with
    | some g =>
      if p.genBusy && p.genOp && g.closing && !s.fillOwed part g.vbase (g.vbase + g.vlen) && !p.tasks.any (fun t => t.gen = i) then
        let s1 := s.dropGenRange part g.vbase (g.vbase + g.vlen)
        let p1 := s1.part part
        (s1.setPart part { p1 with gens := p1.gens.erase i }).endGen part 0
      else s
    | none => s)

end Sys2Proof.Machine
end

