-- ==== Sys2Proof/Machine/FrontEnd.lean ====
section
/-!
DEFINITION. The front end (R357 to R373): queues, packets, the look-ahead and issue stages, completion records, and the
resets of functions and control complexes.
-/
namespace Sys2Proof.Machine

/-- A queue of a partition. -/
def State.fq (s : State) (part q : Nat) : Fq := (s.part part).queues.get Fq.reset q

/-- Writes a queue. -/
def State.setFq (s : State) (part q : Nat) (f : Fq) : State :=
  let p := s.part part
  s.setPart part { p with queues := p.queues.put q f }

/-- Changes a queue. -/
def State.modFq (s : State) (part q : Nat) (g : Fq → Fq) : State := s.setFq part q (g (s.fq part q))

/-- The reader that a queue is; 16 keys for each partition. -/
def State.queueReader (s : State) (part q : Nat) : Reader := s.frontReader part (16 * part + q)

/-! ### Packets (R358) -/

/-- Bytes a to b of a packet as a number. -/
def pkt (bs : List Byte) (a n : Nat) : Nat := leNat ((bs.drop a).take n)

/-- TYPE of a packet. -/
def pktType (bs : List Byte) : Nat := pkt bs 8 1

/-- Whether a unit has the tag of an index and its CRC passes. -/
def pktGood (bs : List Byte) (tag : Nat) : Bool := pkt bs 0 4 == tag % 2 ^ 32 && pkt bs 4 4 == crc32c (bs.drop 8)

/-- The eight handle words of a LAUNCH: handle, R and W. -/
def pktHandles (bs : List Byte) : List (Nat × Bool × Bool) :=
  (List.range 8).map fun i => let x := pkt bs (32 + 4 * i) 4; (x % 4096, bitOf x 16, bitOf x 17)

/-- Whether a handle word keeps R358: no bit outside its fields, and a handle that is named says R or W. See assumption 28. -/
def handleWordOk (x : Nat) : Bool :=
  x / 2 ^ 12 % 16 == 0 && x / 2 ^ 18 == 0 && (x % 4096 == 0 || bitOf x 16 || bitOf x 17)

/-- Whether a packet keeps R358; a bit of byte 9 or of a handle word outside every field must be 0 (assumption 28). -/
def pktOk (bs : List Byte) (supok : Bool) : Bool :=
  let zero := fun (a n : Nat) => pkt bs a n == 0
  let b9 := pkt bs 9 1
  match pktType bs with
  | 1 => decide (b9 < 64) && zero 10 6 && pkt bs 16 8 % 4096 == 0 && pkt bs 24 8 % 4096 == 0 && pkt bs 24 8 != 0 && (!bitOf b9 4 || supok) &&
      (List.range 8).all fun i => handleWordOk (pkt bs (32 + 4 * i) 4)
  | 2 => decide (b9 ≤ 1) && zero 10 6 && pkt bs 16 8 % 8 == 0 && zero 32 32
  | 3 => decide (b9 ≤ 2) && zero 10 6 && pkt bs 16 8 % 8 == 0 && zero 32 32
  | 4 => zero 9 7 && pkt bs 16 8 % 64 == 0 && decide (pkt bs 24 4 ≤ 65535) && zero 28 36
  | 5 => zero 9 55
  | 6 => zero 9 55
  | 7 => decide (b9 < 8) && zero 10 54
  | _ => false

/-! ### Records and the write-back block (R357, R359, R362) -/

/-- Whether a write of the front end has been performed, or lost for want of a translation (assumption 25). -/
def FrontWrite.over : FrontWrite → Bool
  | .wait => false
  | .fault _ | .done => true

/-- Writes the write-back block: the three indices and zeros. The second component is false while the write waits. See assumptions 25, 74. -/
def State.writeBlock (s : State) (part q : Nat) (acc iss cmp : BitVec 32) : State × Bool :=
  let r := s.frontWrite (s.queueReader part q) (s.fq part q).wbbase
    (leBytes 4 acc.toNat ++ leBytes 4 iss.toNat ++ leBytes 4 cmp.toNat ++ List.replicate 20 0)
  (r.1, r.2.over)

/-- The 16 bytes of a completion record. -/
def recordBytes (seq status detail subidx : Nat) : List Byte :=
  leBytes 4 seq ++ leBytes 1 status ++ leBytes 1 0 ++ leBytes 2 (min detail 0xFFFF) ++ leBytes 4 subidx ++ leBytes 4 0

/-- The slot of a completion record. -/
def Fq.recordAddr (f : Fq) (seq : BitVec 32) : DWord := f.cbase + BitVec.ofNat 64 (16 * (seq.toNat % 2 ^ f.log2n))

/-- Writes a record; false while the write waits. The CMP after it is then due. See assumption 25. -/
def State.putRecord (s : State) (part q : Nat) (seq : BitVec 32) (status detail subidx : Nat) : State × Bool :=
  match s.frontWrite (s.queueReader part q) ((s.fq part q).recordAddr seq) (recordBytes seq.toNat status detail subidx) with
  | (s1, .wait) => (s1, false)
  | (s1, _) => (s1.modFq part q fun f => { f with cmpDue := some (seq + 1) }, true)

/-- Writes the CMP that is due; false while the write waits. See assumption 25. -/
def State.putCmp (s : State) (part q : Nat) : State × Bool :=
  let f := s.fq part q
  match f.cmpDue with
  | none => (s, true)
  | some x =>
    match s.writeBlock part q f.acc f.iss x with
    | (s1, false) => (s1, false)
    | (s1, true) => (s1.modFq part q fun g => { g with cmp := x, cmpDue := none }, true)

/-- The outcome of a ring packet when it has one: its own, or that of the packets that its CALL expanded (R361). -/
def Fq.outcome (f : Fq) (r : Running) : Option (Nat × Nat × Nat) :=
  if pktType r.body = 4 && r.status.isNone then
    let subs := f.running.filter fun x => x.seq = r.seq && !x.sub.isEmpty
    let more := (f.ready.any fun p => p.seq = r.seq && !p.sub.isEmpty) || f.calls.any fun c => c.seq = r.seq
    if subs.any (fun x => x.status.isNone) then none
    else match r.fail with
      | some (d, i) => some (6, d, i)
      | none =>
        if more then none
        else match subs.findSome? fun x => x.status.filter fun st => st.1 ≠ 0 with
          | some st => some (st.1, st.2, 0)
          | none => some (0, 0, 0)
  else r.status.map fun st => (st.1, st.2, 0)

/-- The next record in index order, where it is due, which during a recovery none is: index, STATUS, DETAIL and SUBIDX. -/
def Fq.due (f : Fq) : Option (BitVec 32 × Nat × Nat × Nat) :=
  if f.recov.isSome then none
  else match f.running.find? fun r => r.sub.isEmpty with
    | none => none
    | some r => (f.outcome r).map fun o => (r.seq, o)

/-- Writes the records that are due, in index order, each with its CMP before the next one (R362). -/
def State.flush (s : State) (part q : Nat) : Nat → State
  | 0 => s
  | n + 1 =>
    match s.putCmp part q with
    | (s1, false) => s1
    | (s1, true) =>
      match (s1.fq part q).due with
      | none => s1
      | some (seq, status, detail, subidx) =>
        match s1.putRecord part q seq status detail subidx with
        | (s2, false) => s2
        | (s2, true) => (s2.modFq part q fun g => { g with running := g.running.filter fun x => x.seq ≠ seq }).flush part q n

/-- Writes every record that is due, and the CMP after it. -/
def State.flushAll (s : State) (part q : Nat) : State := s.flush part q ((s.fq part q).running.length + 1)

/-! ### Recovery (R373) -/

/-- Whether a TAIL is more than a ring ahead of ACC (R357). -/
def Fq.overrun (f : Fq) : Bool := decide ((f.tail - f.acc).toNat > 2 ^ f.log2n)

/-- The records of accepted packets that have not started, when their queue ends: cancelled (R372). -/
def cancelled (first : BitVec 32) (n : Nat) : List Running :=
  (List.range n).map fun i => ⟨first + BitVec.ofNat 32 i, [], [], none, some (8, 0)⟩

/-- Reads the write-back block of a queue that recovers; a block that does not translate stalls the queue. A TAIL that was written meanwhile is
judged by the block's ACC (R357), and of a queue that a reset has ended the packets that had not started are cancelled (R372). -/
def State.readBlock (s : State) (part q : Nat) : State :=
  let f := s.fq part q
  if f.recov ≠ some none || (f.state ≠ 0 && !f.ending) then s
  else match s.frontRead (s.queueReader part q) f.wbbase 12 with
    | (s1, .wait) => s1
    | (s1, .fault _) => s1.setFq part q (if f.ending then { f with recov := none, ending := false } else { f with state := 2 })
    | (s1, .bytes bs) =>
      let idx := fun (o : Nat) => BitVec.ofNat 32 (pkt bs o 4)
      let g : Fq := { f with acc := idx 0, iss := idx 4, cmp := idx 8, next := idx 4, recov := some (some (idx 8)), tailDue := false }
      s1.setFq part q (
        if f.ending then { g with next := g.acc, running := cancelled g.iss (g.acc - g.iss).toNat, ending := false }
        else if f.tailDue && g.overrun then { g with state := 3, stall := g.next } else g)

/-- Settles the indices that had started, from the next one to ISS: a record is written where the slot does not hold the
index. See assumption 71. -/
def State.abortStarted (s : State) (part q : Nat) : Nat → State
  | 0 => s
  | n + 1 =>
    match s.putCmp part q with
    | (s1, false) => s1
    | (s1, true) =>
      let f := s1.fq part q
      match f.recov with
      | some (some i) =>
        if i = f.iss then s1.setFq part q { f with recov := none }
        else match s1.frontRead (s1.queueReader part q) (f.recordAddr i) 4 with
          | (s2, .wait) => s2
          | (s2, x) =>
            let held := match x with | .bytes bs => leNat bs == i.toNat | _ => false
            match if held then (s2.modFq part q fun g => { g with cmpDue := some (i + 1) }, true) else s2.putRecord part q i 7 0 0 with
            | (s3, false) => s3
            | (s3, true) => (s3.modFq part q fun g => { g with recov := some (some (i + 1)) }).abortStarted part q n
      | _ => s1

/-- Whether something of a queue is still to be written: a recovery, a CMP or a record that had to wait. See assumption 74. -/
def Fq.owes (f : Fq) : Bool := f.recov.isSome || f.cmpDue.isSome || f.due.isSome

/-- Goes on with what a queue has still to write. See assumption 74. -/
def State.catchUp (s : State) (part q : Nat) : State :=
  if !(s.fq part q).owes then s
  else
    let s1 := s.readBlock part q
    let f := s1.fq part q
    (s1.abortStarted part q ((f.iss - f.cmp).toNat + 2)).flushAll part q

/-! ### The look-ahead stage (R360, R361) -/

/-- Fails the ring CALL of an index at the packet a path leads to: no later packet of it starts. See assumption 124. -/
def State.failCall (s : State) (part q : Nat) (seq : BitVec 32) (path : List Nat) (detail : Nat) : State :=
  s.modFq part q fun f => { f with
    rereads := 0, calls := f.calls.filter fun x => x.seq ≠ seq
    ready := f.ready ++ [⟨seq, path, [], some (detail, path.getLastD 0)⟩] }

/-- Opens the buffer of a CALL. -/
def openFrame (seq : BitVec 32) (path : List Nat) (bs : List Byte) : CallFrame :=
  ⟨seq, path, 0, BitVec.ofNat 64 (pkt bs 16 8), pkt bs 24 4 + 1⟩

/-- Takes a good ring packet once ACC is written, unless it had been accepted before a cold reset (R360, R373); while that
write waits nothing is accepted. -/
def State.acceptRing (s : State) (part q : Nat) (bs : List Byte) : State :=
  let f := s.fq part q
  let n := f.next
  match if n = f.acc then s.writeBlock part q (n + 1) f.iss f.cmp else (s, true) with
  | (s1, false) => s1
  | (s1, true) =>
    let ok := pktOk bs f.supok
    s1.modFq part q fun g => { g with
      acc := if n = g.acc then n + 1 else g.acc
      next := n + 1, rereads := 0, ready := g.ready ++ [⟨n, [], bs, none⟩]
      calls := if ok && pktType bs = 4 then openFrame n [] bs :: g.calls else g.calls
      joined := g.joined || (ok && pktType bs = 5) }

/-- Takes a good packet of a called buffer; a malformed one, or the first packet of a CALL at level 8, fails the ring CALL. See assumption 124. -/
def State.acceptCalled (s : State) (part q : Nat) (c : CallFrame) (bs : List Byte) : State :=
  let f := s.fq part q
  let path := c.path ++ [c.next]
  if !pktOk bs f.supok then s.failCall part q c.seq path 4
  else if pktType bs = 4 && path.length ≥ 8 then s.failCall part q c.seq (path ++ [0]) 1
  else
    s.modFq part q fun g => { g with
      rereads := 0, ready := g.ready ++ [⟨c.seq, path, bs, none⟩]
      joined := g.joined || pktType bs = 5
      calls :=
        let rest := if c.next + 1 < c.count then { c with next := c.next + 1 } :: g.calls.drop 1 else g.calls.drop 1
        if pktType bs = 4 then openFrame c.seq path bs :: rest else rest }

/-- Stalls a queue; one whose EN is 0 stays DISABLED. See assumption 97. -/
def State.stallQueue (s : State) (part q state : Nat) (n : BitVec 32) : State :=
  s.modFq part q fun f => if f.en then { f with state := state, stall := n, rereads := 0 } else { f with rereads := 0 }

/-- What the look-ahead does with the unit it reads: the innermost called buffer first, else the ring. `again` when it is a
reread of a unit that failed (R111); a wrong tag of a called packet fails the CALL without a reread (R361). See assumption 124. -/
def State.fetchPacket (s : State) (part q : Nat) (again : Bool) : State :=
  let f := s.fq part q
  let r := s.queueReader part q
  let retry := fun (st : State) (fail : State → State) =>
    if again && f.rereads ≥ 8 then fail st else st.modFq part q fun g => { g with rereads := g.rereads + 1 }
  match f.calls with
  | c :: _ =>
    (match s.frontRead r (c.buf + BitVec.ofNat 64 (64 * c.next)) 64 with
    | (s1, .wait) => s1
    | (s1, .fault _) => s1.failCall part q c.seq (c.path ++ [c.next]) 3
    | (s1, .bytes bs) =>
      let fail := fun (st : State) => st.failCall part q c.seq (c.path ++ [c.next]) 2
      if pktGood bs c.next then s1.acceptCalled part q c bs else if pkt bs 0 4 ≠ c.next then fail s1 else retry s1 fail)
  | [] =>
    let n := f.next
    (match s.frontRead r (f.base + BitVec.ofNat 64 (64 * (n.toNat % 2 ^ f.log2n))) 64 with
    | (s1, .wait) => s1
    | (s1, .fault _) => s1.stallQueue part q 2 n
    | (s1, .bytes bs) => if pktGood bs n.toNat then s1.acceptRing part q bs else retry s1 fun st => st.stallQueue part q 1 n)

/-- Whether the look-ahead may fetch: not past a JOIN or before a recovery is over, and at most 4,096 packets ahead. -/
def Fq.mayFetch (f : Fq) : Bool := !f.joined && f.recov.isNone && decide (f.ready.length < 4096)

/-- Whether the ring holds a packet to fetch: one accepted before a recovery, whatever TAIL is (R373), and with EN = 1 one before TAIL. See assumption 97. -/
def Fq.ringMore (f : Fq) : Bool :=
  if f.next ≠ f.acc then !f.en || f.state = 0 || f.state = 3 else f.en && f.state = 0 && f.next ≠ f.tail

/-- PACKET_ACCEPTANCE: the look-ahead fetches the next ring packet. -/
def execPacketAcceptance (part q : Nat) (s : State) : Host.Outcome State Fault Refusal :=
  .next (let s1 := s.catchUp part q
    let f := s1.fq part q
    if f.ringMore && f.mayFetch && f.calls.isEmpty && f.rereads = 0 then s1.fetchPacket part q false else s1)

/-- TORN_PACKET_REREAD: a unit whose tag or CRC failed is read again. -/
def execTornPacketReread (part q : Nat) (s : State) : Host.Outcome State Fault Refusal :=
  .next (let s1 := s.catchUp part q
    let f := s1.fq part q
    if f.rereads > 0 && (!f.calls.isEmpty || f.ringMore) then s1.fetchPacket part q true else s1)

/-! ### The issue stage (R362, R366) -/

/-- Whether a WAIT that has started holds the stage. -/
def Fq.waiting (f : Fq) : Bool := f.running.any fun r => pktType r.body = 3 && r.status.isNone

/-- The packet that the stage starts next. -/
def Fq.head (f : Fq) : Option Packet := if f.waiting then none else f.ready.head?

/-- Whether a packet that has started has completed: a CALL counts by what it expanded. -/
def Fq.done (f : Fq) (r : Running) : Bool := if r.sub.isEmpty then (f.outcome r).isSome else r.status.isSome

/-- Whether every earlier packet has completed; the CALL that a packet belongs to is not earlier. -/
def Fq.allDone (f : Fq) (p : Packet) : Bool := f.running.all fun r => f.done r || (r.seq = p.seq && r.sub.isEmpty)

/-- Starts the packet at the head: of a ring packet ISS is written first, and while that write waits nothing starts. See assumption 74. -/
def State.startHead (s : State) (part q : Nat) (k : State → State) : State :=
  let f := s.fq part q
  match f.ready with
  | [] => s
  | p :: _ =>
    if !p.sub.isEmpty || f.iss = p.seq + 1 then k s
    else match s.writeBlock part q f.acc (p.seq + 1) f.cmp with
      | (s1, false) => s1
      | (s1, true) => k (s1.modFq part q fun g => { g with iss := p.seq + 1 })

/-- The packet at the head becomes a running one, with a status once it has completed. -/
def State.takeHead (s : State) (part q : Nat) (status : Option (Nat × Nat)) : State :=
  s.modFq part q fun f => match f.ready with
    | [] => f
    | p :: rest => { f with ready := rest, running := f.running ++ [⟨p.seq, p.sub, p.body, none, status⟩] }

/-- Completes the packet at the head, which has started. -/
def State.completeHead (s : State) (part q status detail : Nat) : State := (s.takeHead part q (some (status, detail))).flushAll part q

/-- Starts and completes the packet at the head. -/
def State.finishHead (s : State) (part q status detail : Nat) : State :=
  s.startHead part q fun s1 => s1.completeHead part q status detail

/-- The place where a CALL failed is reached: its ring packet takes the cause. -/
def State.reachFail (s : State) (part q : Nat) (p : Packet) : State :=
  (s.modFq part q fun f => { f with
    ready := f.ready.drop 1
    running := f.running.map fun r => if r.seq = p.seq && r.sub.isEmpty then { r with fail := p.fail } else r }).flushAll part q

/-- Runs the start of a packet of a TYPE at the head of a queue, after what the queue has still to write; a malformed ring
packet completes with BADPACKET, whatever its TYPE. -/
def State.atHead (s : State) (part q type : Nat) (k : State → Packet → State) : State :=
  let s1 := s.catchUp part q
  let f := s1.fq part q
  match f.head with
  | none => s1
  | some p =>
    if p.fail.isSome then s1.reachFail part q p
    else if !pktOk p.body f.supok then s1.finishHead part q 5 0
    else if pktType p.body = type then k s1 p else s1

/-- Whether a launch has completed. -/
def State.launchOver (s : State) (id : Nat) : Bool := !s.launches.any fun l => l.id = id

/-- Whether the handles of a LAUNCH let it start (R366). -/
def State.handlesFree (s : State) (f : Fq) (bs : List Byte) : Bool :=
  (pktHandles bs).all fun h =>
    h.1 == 0 ||
      ((match f.writers.find h.1 with | some w => s.launchOver w | none => true) &&
        (!h.2.2 || (f.readers.get [] h.1).all s.launchOver))

/-- Enters a launch in the handle table. -/
def Fq.noteHandles (f : Fq) (bs : List Byte) (id : Nat) : Fq :=
  (pktHandles bs).foldl (fun (g : Fq) h =>
    if h.1 = 0 then g
    else if h.2.2 then { g with writers := g.writers.put h.1 id, readers := g.readers.put h.1 [] }
    else if h.2.1 then { g with readers := g.readers.put h.1 (g.readers.get [] h.1 ++ [id]) }
    else g) f

/-- A launch as it starts. -/
def newLaunch (id part q : Nat) (p : Packet) (i : Image) (dprio : Nat) : Launch :=
  let b9 := pkt p.body 9 1
  { id := id, part := part, queue := q, seq := p.seq, sub := p.sub, image := BitVec.ofNat 64 (pkt p.body 16 8)
    save := BitVec.ofNat 64 (pkt p.body 24 8), hdr := i.hdr
    prio := if bitOf b9 3 then dprio else if bitOf b9 5 then i.hdr.prio else b9 % 8
    level := if bitOf b9 4 then .supervisor else .user
    phase := .placing, next := 0, alive := 0, spots := [], killed := 0, faulted := false, clipped := false
    reads := (pktHandles p.body).filterMap fun h => if h.2.1 then some h.1 else none
    writes := (pktHandles p.body).filterMap fun h => if h.2.2 then some h.1 else none
    binds := i.binds, scratch := i.scratch, graph := i.graph }

/-- A launch that has started is entered: its handles, the launch itself, and the teams of a saved image. -/
def State.enterLaunch (s : State) (part q : Nat) (p : Packet) (l : Launch) (saved : List SavedTeam) : State :=
  let s1 := (s.takeHead part q none).modFq part q fun g => g.noteHandles p.body l.id
  (({ s1 with launches := s1.launches ++ [l] } : State).fresh).addSaved l saved

/-- LAUNCH: reads and checks the image; the launch is then placed team by team. -/
def State.startLaunch (s : State) (part q : Nat) (p : Packet) : State :=
  if !s.handlesFree (s.fq part q) p.body then s
  else s.startHead part q fun s0 =>
    match s0.readLaunch (s0.queueReader part q) (BitVec.ofNat 64 (pkt p.body 16 8)) true with
    | (s1, .wait) => s1
    | (s1, .bad) => s1.completeHead part q 4 0
    | (s1, .image i) =>
      if i.hdr.filler || i.hdr.scan then s1.completeHead part q 4 0
      else
        let l := newLaunch s1.uid part q p i (s1.fq part q).dprio
        if l.hdr.coresident && !({ s1 with launches := s1.launches ++ [l] } : State).gridFits l then s1.completeHead part q 3 0
        else s1.enterLaunch part q p l i.saved

/-- LAUNCH. -/
def execLaunch (part q : Nat) (s : State) : Host.Outcome State Fault Refusal := .next (s.atHead part q 1 fun s1 => s1.startLaunch part q)

/-- SIGNAL: after every earlier packet, writes or adds 64 bits. -/
def State.startSignal (s : State) (part q : Nat) (p : Packet) : State :=
  if !(s.fq part q).allDone p then s
  else s.startHead part q fun s0 =>
    let r := s0.queueReader part q
    let va := BitVec.ofNat 64 (pkt p.body 16 8)
    let x := pkt p.body 24 8
    let put := fun (st : State) (y : Nat) => match st.frontWrite r va (leBytes 8 y) with
      | (s1, .wait) => s1
      | (s1, .fault cls) => s1.completeHead part q 1 cls
      | (s1, .done) => s1.completeHead part q 0 0
    if pkt p.body 9 1 = 0 then put s0 x
    else match s0.frontRead r va 8 with
      | (s1, .wait) => s1
      | (s1, .fault cls) => s1.completeHead part q 1 cls
      | (s1, .bytes bs) => put s1 ((leNat bs + x) % 2 ^ 64)

/-- SIGNAL. -/
def execSignal (part q : Nat) (s : State) : Host.Outcome State Fault Refusal := .next (s.atHead part q 2 fun s1 => s1.startSignal part q)

/-- Whether the condition of a WAIT holds of a value. -/
def waitHolds (bs : List Byte) (x : Nat) : Bool :=
  let y := pkt bs 24 8
  match pkt bs 9 1 with
  | 0 => decide (y ≤ x)
  | 1 => x == y
  | _ => x != y

/-- Reads the address of a WAIT that has started, and completes it once its condition holds. -/
def State.pollWait (s : State) (part q : Nat) : State :=
  match (s.fq part q).running.find? fun r => pktType r.body = 3 && r.status.isNone with
  | none => s
  | some r =>
    let finish := fun (st : State) (x : Nat × Nat) => (st.modFq part q fun f => { f with
      running := f.running.map fun y => if y = r then { y with status := some x } else y }).flushAll part q
    match s.frontRead (s.queueReader part q) (BitVec.ofNat 64 (pkt r.body 16 8)) 8 with
    | (s1, .wait) => s1
    | (s1, .fault cls) => finish s1 (1, cls)
    | (s1, .bytes bs) => if waitHolds r.body (leNat bs) then finish s1 (0, 0) else s1

/-- WAIT: starts, and reads its address at once. -/
def execWait (part q : Nat) (s : State) : Host.Outcome State Fault Refusal :=
  .next (s.atHead part q 3 fun s1 _ => s1.startHead part q fun s2 => (s2.takeHead part q none).pollWait part q)

/-- WAIT_CONDITION_HOLDS: the address of a WAIT is read again. -/
def execWaitConditionHolds (part q : Nat) (s : State) : Host.Outcome State Fault Refusal :=
  .next ((s.catchUp part q).pollWait part q)

/-- CALL_PACKET: the issue stage starts a CALL at its head, or the look-ahead fetches the next packet of the buffer that it is
expanding. -/
def execCallPacket (part q : Nat) (s : State) : Host.Outcome State Fault Refusal :=
  .next (let f := s.fq part q
    let starts := match f.head with | some p => p.fail.isSome || (pktOk p.body f.supok && pktType p.body = 4) | none => false
    if starts then
      s.atHead part q 4 fun s1 p => if p.sub.isEmpty then s1.startHead part q fun s2 => (s2.takeHead part q none).flushAll part q
        else s1.modFq part q fun g => { g with ready := g.ready.drop 1 }
    else
      let s1 := s.catchUp part q
      if !f.calls.isEmpty && f.mayFetch && f.rereads = 0 then s1.fetchPacket part q false else s1)

/-- BARRIER: completes once every earlier packet has. -/
def execBarrier (part q : Nat) (s : State) : Host.Outcome State Fault Refusal :=
  .next (s.atHead part q 6 fun s1 p => if (s1.fq part q).allDone p then s1.finishHead part q 0 0 else s1)

/-- JOIN: as BARRIER; the look-ahead then goes on. -/
def execJoin (part q : Nat) (s : State) : Host.Outcome State Fault Refusal :=
  .next (s.atHead part q 5 fun s1 p =>
    if (s1.fq part q).allDone p then
      s1.startHead part q fun s2 => (s2.completeHead part q 0 0).modFq part q fun f => { f with joined := false }
    else s1)

/-- PRIORITY: sets DPRIO. -/
def execPriority (part q : Nat) (s : State) : Host.Outcome State Fault Refusal :=
  .next (s.atHead part q 7 fun s1 p => s1.startHead part q fun s2 =>
    (s2.modFq part q fun f => { f with dprio := pkt p.body 9 1 % 8 }).completeHead part q 0 0)

/-! ### GRID_COMPLETION (R29, R110, R359, R454) -/

/-- Whether a core still holds something of a launch. -/
def Core.holdsLaunch (c : Core) (id : Nat) : Bool :=
  c.waves.any (fun w => w.2.launch = id) || c.newWaves.any (fun n => n.launch = id) || c.memq.any (fun m => m.launch = id) ||
    c.q1.any (fun e => e.launch = id) || c.q2.any (fun e => e.launch = id) || c.q3.any (fun e => e.launch = id) ||
    c.q4.any (fun e => e.launch = id) || (match c.graph with | some g => g.launch == id | none => false)

/-- Whether a context area still holds something of a launch. -/
def Context.holdsLaunch (x : Context) (id : Nat) : Bool :=
  x.cores.any (fun e => e.2.holdsLaunch id) || x.pairs.any fun e => e.2.q0.any fun y => y.launch = id

/-- Whether a grid has completed: every team placed and ended, every write performed, every queue drained. -/
def State.gridOver (s : State) (l : Launch) : Bool :=
  decide (l.next = l.hdr.total) && l.alive == 0 && !(s.teams.any fun t => t.launch = l.id) && !(s.cores.any fun e => e.2.holdsLaunch l.id) &&
    !(s.pairs.any fun e => e.2.q0.any fun x => x.launch = l.id) && !(s.part l.part).context.any fun x => x.holdsLaunch l.id

/-- STATUS and DETAIL of a launch that has completed. -/
def Launch.result (l : Launch) : Nat × Nat := if l.faulted then (1, l.killed) else if l.clipped then (2, 0) else (0, 0)

/-- GRID_COMPLETION: the completion record of a launch is written. -/
def State.gridDone (s : State) (id : Nat) : State :=
  match s.launches.find? fun l => l.id = id with
  | none => s
  | some l =>
    if !s.gridOver l then s
    else
      let s1 : State := { s with launches := s.launches.filter fun u => u.id ≠ id }
      (s1.modFq l.part l.queue fun f => { f with
        running := f.running.map fun r => if r.seq = l.seq && r.sub = l.sub then { r with status := some l.result } else r }).flushAll l.part l.queue

/-- GRID_COMPLETION. -/
def execGridCompletion (launch : Nat) (s : State) : Host.Outcome State Fault Refusal := .next (s.gridDone launch)

/-! ### Queue registers (R357, R360, R373) -/

/-- QUEUE_TAIL_WRITE: more packets than the ring holds stall the queue with OVERRUN, as soon as ACC is known (R373). -/
def State.writeTail (s : State) (part q : Nat) (tail : BitVec 32) : State :=
  let f := { s.fq part q with tail := tail }
  let s1 := s.setFq part q f
  if f.recov = some none then s1.setFq part q { f with tailDue := true }
  else if f.en && f.overrun then s1.stallQueue part q 3 f.next else s1

/-- QUEUE_TAIL_WRITE. -/
def execQueueTailWrite (part q : Nat) (tail : BitVec 32) (s : State) : Host.Outcome State Fault Refusal := .next (s.writeTail part q tail)

/-- Sets EN with RECOVER = 0: the indices start at 0. -/
def State.enableQueue (s : State) (part q : Nat) : State :=
  let f := s.fq part q
  if f.en then s
  else s.setFq part q { f with
    en := true, state := 0, stall := 0, acc := 0, iss := 0, cmp := 0, next := 0, joined := false, rereads := 0, cmpDue := none, recov := none
    tailDue := false, ending := false }

/-- QUEUE_ENABLE. -/
def execQueueEnable (part q : Nat) (s : State) : Host.Outcome State Fault Refusal := .next (s.enableQueue part q)

/-- Sets EN with RECOVER = 1: the indices are to come from the write-back block, and the queue forgets the packets it held
(R373). See assumption 71. -/
def Fq.recovering (f : Fq) : Fq :=
  { f with
    en := true, state := 0, stall := 0, acc := 0, iss := 0, cmp := 0, next := 0, joined := false, rereads := 0
    ready := [], running := [], calls := [], cmpDue := none, recov := some none, tailDue := false, ending := false }

/-- Sets EN with RECOVER = 1, and goes on with the recovery; one under way goes on. See assumption 71. -/
def State.recoverQueue (s : State) (part q : Nat) : State :=
  if (s.fq part q).en then s.catchUp part q else (s.modFq part q Fq.recovering).catchUp part q

/-- QUEUE_RECOVER. -/
def execQueueRecover (part q : Nat) (s : State) : Host.Outcome State Fault Refusal := .next (s.recoverQueue part q)

/-- Clears EN: the packets that are not accepted are discarded, and so is a recovery that has not read the block. -/
def State.disableQueue (s : State) (part q : Nat) : State :=
  s.modFq part q fun f => { f with
    en := false, state := 5, rereads := if f.calls.isEmpty then 0 else f.rereads, recov := f.recov.filter Option.isSome }

/-- QUEUE_DISABLE. -/
def execQueueDisable (part q : Nat) (s : State) : Host.Outcome State Fault Refusal := .next (s.disableQueue part q)

/-- Writes RETRY: a stalled queue goes on at its stalled packet. See assumption 97. -/
def State.retryQueue (s : State) (part q : Nat) : State :=
  s.modFq part q fun f => if f.en && (f.state = 1 || f.state = 2 || f.state = 3) then { f with state := 0, stall := 0 } else f

/-- QUEUE_RETRY. -/
def execQueueRetry (part q : Nat) (s : State) : Host.Outcome State Fault Refusal := .next (s.retryQueue part q)

/-! ### Resets (R371, R372) -/

/-- Kills a wave of a launch or partition that a reset or teardown ends (R38, R372, R394). See assumption 26. -/
def State.dropWave (s : State) (core slot : Nat) : State := s.killWave core slot { source := 17, sev := 2 }

/-- Ends every wave of a core that satisfies a test. -/
def State.dropWavesOn (s : State) (core : Nat) (p : Wave → Bool) : State :=
  (((s.core core).waves.filter fun w => p w.2).map (·.1)).foldl (fun (st : State) slot => st.dropWave core slot) s

/-- Runs a change on the core of a partition that a context area holds, as if it were swapped in. See assumption 100. -/
def State.inContext (s : State) (part core : Nat) (f : State → State) : State :=
  match (s.part part).context.bind fun x => x.cores.find core with
  | none => s
  | some saved =>
    let here := s.core core
    let s1 := f (s.setCore core saved)
    let after := s1.core core
    let p := s1.part part
    (s1.setPart part { p with context := p.context.map fun x => { x with cores := x.cores.put core after } }).setCore core here

/-- Applies a change to every core of the machine and to every core that a context area holds. -/
def State.onAllCores (s : State) (f : Nat → State → State) : State :=
  let s1 := (s.cores.map (·.1)).foldl (fun (st : State) k => f k st) s
  let saved := s1.parts.flatMap fun e => ((e.2.context.map (·.cores)).getD []).map fun c => (e.1, c.1)
  saved.foldl (fun (st : State) x => st.inContext x.1 x.2 (f x.2)) s1

/-- Ends every wave that satisfies a test. See assumption 26. -/
def State.dropWaves (s : State) (p : Wave → Bool) : State := s.onAllCores fun k st => st.dropWavesOn k p

/-- Takes the waiting waves and the graph of a launch off a core, and the claims of ended teams on its scratchpad. -/
def State.clearLaunch (s : State) (id : Nat) (teams : List Nat) (core : Nat) : State :=
  let c := s.core core
  s.setCore core { c with
    newWaves := c.newWaves.filter fun n => n.launch ≠ id
    graph := c.graph.filter fun g => g.launch ≠ id
    owner := c.owner.filter fun t => !teams.contains t }

/-- Ends a launch: its waves, saved teams, requests and graphs. See assumption 26. -/
def State.killLaunch (s : State) (id : Nat) : State :=
  let s1 := (s.onAllCores fun k st => st.clearLaunch id [] k).dropWaves fun w => w.launch = id
  let gone := (s1.teams.filter fun t => t.launch = id).map (·.id)
  let s2 := s1.onAllCores fun k st => st.clearLaunch id gone k
  { s2 with teams := s2.teams.filter fun t => t.launch ≠ id, launches := s2.launches.filter fun l => l.id ≠ id }

/-- The packets of a queue that ends, each with its outcome: one that has completed keeps it; one that had started, its head included once ISS
names it, is aborted, and every other accepted one is cancelled, those that a recovery has still to fetch included. -/
def Fq.ended (f : Fq) : List Running :=
  let started := f.running.map fun r => if r.status.isSome || (r.sub.isEmpty && (f.outcome r).isSome) then r else { r with status := some (7, 0) }
  let fresh := (f.ready.filter fun p => p.sub.isEmpty).map fun p =>
    (⟨p.seq, [], p.body, none, some (if f.iss = p.seq + 1 then 7 else 8, 0)⟩ : Running)
  started ++ fresh ++ cancelled f.next (f.acc - f.next).toNat

/-- Ends a queue: started launches are killed, records are written in order, EN is 0 (R372). A recovery that has still to read the block does so,
for the records that it and the reset call for. See assumption 27. -/
def State.endQueue (s : State) (part q : Nat) : State :=
  let s1 := (s.launches.filter fun l => l.part = part && l.queue = q).foldl (fun (st : State) l => st.killLaunch l.id) s
  let f := s1.fq part q
  let s2 := (s1.setFq part q { f with
    ready := [], calls := [], running := f.ended, next := f.acc, joined := false, rereads := 0, writers := [], readers := [] })
  let s3 := s2.disableQueue part q
  (if f.recov = some none then s3.modFq part q fun g => { g with recov := some none, ending := true } else s3).catchUp part q

/-- The partition of a virtual function (R391). See assumption 27. -/
def State.partOfVf (s : State) (vf : Nat) : Option Nat :=
  (s.parts.find? fun p => p.2.valid && (List.range 8).any fun i => p.2.vfMask.getLsbD i && (p.2.vfs.getD i 0).toNat = vf).map (·.1)

/-- FUNCTION_LEVEL_RESET: every queue of the function's partition ends (assumption 27). -/
def execFunctionLevelReset (vf : Nat) (s : State) : Host.Outcome State Fault Refusal :=
  .next (match s.partOfVf vf with
  | some p => ((s.part p).queues.map (·.1)).foldl (fun (st : State) q => st.endQueue p q) s
  | none => s)

/-- CONTROL_COMPLEX_FAILURE: the standby takes over, on the new image if an update has imported the state table; the queues
stay as they are, so that each packet starts once (R371, R372, R451). Without a standby nothing is stated. -/
def execControlComplexFailure (s : State) : Host.Outcome State Fault Refusal :=
  .next (if s.dev.standby then
    { s with dev := { s.dev with
      complexB := !s.dev.complexB, standby := false, updating := false, newImage := false, imported := []
      table := if s.dev.newImage then s.dev.imported else s.dev.table
      activeSlot := if s.dev.newImage then !s.dev.activeSlot else s.dev.activeSlot } }
  else s)

end Sys2Proof.Machine
end

