-- ==== Sys2Proof/Machine/Partition.lean ====
section
/-!
DEFINITION. Partitions as the control complex holds them (R389 to R394, R397, R421), and the turns that they take on shared
clusters (R367, R392, R393).
-/
namespace Sys2Proof.Machine

/-- The clusters of a partition. -/
def Partition.clusterList (p : Partition) : List Nat := (List.range 48).filter fun c => p.clusters.getLsbD c

/-- The other valid partitions that hold a cluster. -/
def State.sharers (s : State) (part cluster : Nat) : List Nat :=
  (s.parts.filter fun e => e.1 ≠ part && e.2.valid && e.2.clusters.getLsbD cluster).map (·.1)

/-! ### QUANTUM_EXPIRY (R367) -/

/-- The clusters on which a partition has the turn among several. -/
def State.turnsOf (s : State) (part : Nat) : List Nat := (List.range 48).filter fun c => (s.cluster c).turn = some part

/-- Halts or releases the waves of a core. See assumption 82. -/
def State.haltCore (s : State) (core : Nat) (h : Bool) : State :=
  s.setCore core ((s.core core).mapWaves fun w => { w with halted := h })

/-- QUANTUM_EXPIRY: the waves of the running partition are halted on the clusters that it shares, each at its next boundary of
instructions (R30). See assumption 82. -/
def execQuantumExpiry (part : Nat) (s : State) : Host.Outcome State Fault Refusal :=
  .next (((s.turnsOf part).flatMap coresOf).foldl (fun (st : State) k => st.haltCore k true) s)

/-! ### SHADOW_STORE_SWAP (R392, R393) -/

/-- Whether a queue of a core has drained or stands at a chunk boundary: the operation at its head waits on an open token (R109, R393). See assumption 69. -/
def State.standsStill {κ : Type} (s : State) (core : Nat) (q : List (QEntry κ)) : Bool :=
  match q with
  | [] => true
  | e :: _ => (s.walksOf (Config.sectorOf core)).any fun w => w.req = e.id && w.token.isSome

/-- Whether a core has nothing under way that its context area could not hold: its waves are halted, its queues have drained or stand still, and
only loads that a halt records are outstanding (R30, R369). See assumption 69. -/
def State.calm (s : State) (core : Nat) : Bool :=
  let c := s.core core
  c.waves.all (fun w => w.2.halted) && c.memq.all (fun m => s.recordable core m) && s.standsStill core c.q1 && s.standsStill core c.q2 &&
    s.standsStill core c.q3 && s.standsStill core c.q4 && c.credits.isEmpty && (s.deliveries.get [] core).isEmpty &&
    (let q := (s.pairs.get ⟨[]⟩ (Config.pairOf core)).q0
     s.standsStill (match q with | e :: _ => e.kind.core | [] => core) q) &&
    match c.graph.bind (·.op) with | some id => !s.opPending core id || s.standsStill core c.q1 | none => true

/-- A core as the context area keeps it: every reservation is lost, the Lath grid is empty and the L1 invalid. See assumption 83. -/
def Core.stored (c : Core) : Core :=
  { c.mapWaves (fun w => { w.mapFragments (fun f => { f with resv := [] }) with halted := false }) with lath := ⟨none⟩, l1 := [], tlb := [] }

/-- Moves the state of a core into a partition's context area. See assumption 83. -/
def State.storeCore (s : State) (part core : Nat) : State :=
  let p := s.part part
  let x := p.context.getD Context.empty
  s.setPart part { p with context := some { x with cores := x.cores.put core (s.core core).stored } }

/-- The pairs of cores whose matrix queue lies in a cluster. -/
def pairsOf (cluster : Nat) : List Nat := ((coresOf cluster).map Config.pairOf).eraseDups

/-- Moves the Glaze state of a cluster, and its matrix queues, into a partition's context area. -/
def State.storeCluster (s : State) (part cluster : Nat) : State :=
  let p := s.part part
  let x := p.context.getD Context.empty
  s.setPart part { p with context := some { x with
    clusters := x.clusters.put cluster { s.cluster cluster with tlb := [], turn := none }
    pairs := (pairsOf cluster).foldl (fun (t : Tab Pair) k => t.put k (s.pairs.get ⟨[]⟩ k)) x.pairs } }

/-- Reads the state of a core back from a context area; a partition that has none there starts from reset. See assumption 83. -/
def State.loadCore (s : State) (part core : Nat) : State :=
  let p := s.part part
  let x := p.context.getD Context.empty
  let saved : Core := x.cores.get (Core.reset core) core
  (s.setPart part { p with context := p.context.map fun y => { y with cores := y.cores.erase core } }).setCore core ((s.core core).load saved)

/-- Reads the Glaze state of a cluster and its matrix queues back, and gives the partition the turn there. -/
def State.loadCluster (s : State) (part cluster : Nat) : State :=
  let p := s.part part
  let x := p.context.getD Context.empty
  let saved : Cluster := x.clusters.get Cluster.reset cluster
  let s1 : State := { s with pairs := (pairsOf cluster).foldl (fun (t : Tab Pair) k => t.put k (x.pairs.get ⟨[]⟩ k)) s.pairs }
  (s1.setPart part { p with context := p.context.map fun y => { y with
    clusters := y.clusters.erase cluster, pairs := (pairsOf cluster).foldl (fun (t : Tab Pair) k => t.erase k) y.pairs } }).setCluster cluster
    { saved with tlb := (s.cluster cluster).tlb, turn := some part }

/-- Brings a partition in on a cluster. See assumption 83. -/
def State.swapIn (s : State) (part cluster : Nat) : State :=
  ((coresOf cluster).foldl (fun (st : State) k => st.loadCore part k) s).loadCluster part cluster

/-- Takes a partition out of a cluster. See assumption 83. -/
def State.swapOut (s : State) (part cluster : Nat) : State :=
  ((coresOf cluster).foldl (fun (st : State) k => st.storeCore part k) s).storeCluster part cluster

/-- SHADOW_STORE_SWAP: on the clusters of a turn that both partitions hold, once every core of them is calm. See assumptions 69, 82. -/
def State.swap (s : State) (outgoing incoming : Nat) : State :=
  let cs := (s.turnsOf outgoing).filter fun c => (s.part incoming).clusters.getLsbD c
  if outgoing = incoming || !(s.part incoming).valid || !((cs.flatMap coresOf).all s.calm) then s
  else cs.foldl (fun (st : State) c => (st.swapOut outgoing c).swapIn incoming c) s

/-- SHADOW_STORE_SWAP. See assumption 82. -/
def execShadowStoreSwap (outgoing incoming : Nat) (s : State) : Host.Outcome State Fault Refusal := .next (s.swap outgoing incoming)

/-! ### PARTITION_DESCRIPTOR_WRITE (R389, R392, R397, R421) -/

/-- The fields of a descriptor over a partition's registers. See assumption 84. -/
def Partition.describe (p : Partition) (d : BitVec 512) : Partition :=
  let x := d.toNat
  { p with
    clusters := BitVec.ofNat 48 x, valid := bitOf x 48, vfs := (List.range 8).map fun i => BitVec.ofNat 8 (bitsOf x (71 + 8 * i) (64 + 8 * i))
    vfMask := BitVec.ofNat 8 (bitsOf x 135 128), primary := BitVec.ofNat 3 (bitsOf x 138 136), bktBase := bitsOf x 155 144
    bktCnt := bitsOf x 163 156, gddrBase := bitsOf x 255 192, gddrLen := bitsOf x 319 256, flashBase := bitsOf x 383 320
    flashLen := bitsOf x 447 384, pinLim := bitsOf x 479 448 }

/-- The virtual functions of a partition. -/
def Partition.vfList (p : Partition) : List Nat := (List.range 8).filterMap fun i => if p.vfMask.getLsbD i then some (p.vfs.getD i 0).toNat else none

/-- Buckets of a partition. -/
def Partition.buckets (p : Partition) : Nat := 16 * (p.bktCnt + 1)

/-- Whether a GDDR range meets the victim store, which no partition's may (R405). -/
def State.meetsVictims (s : State) (lo len : Nat) : Bool :=
  decide (lo < s.dev.victimBase + s.dev.victimLen) && decide (s.dev.victimBase < lo + len)

/-- Whether the mailbox takes a descriptor for a partition beside the other valid ones. See assumption 84. -/
def State.descriptorOk (s : State) (part : Nat) (p : Partition) : Bool :=
  let others := s.parts.filter fun e => e.1 ≠ part && e.2.valid
  p.clusters != 0 && decide (p.bktBase + p.buckets ≤ 4096) &&
    others.all (fun e => decide (p.bktBase + p.buckets ≤ e.2.bktBase) || decide (e.2.bktBase + e.2.buckets ≤ p.bktBase)) &&
    decide (p.gddrBase + p.gddrLen ≤ 0x1000000000) && !s.meetsVictims p.gddrBase p.gddrLen &&
    others.all (fun e => decide (p.gddrBase + p.gddrLen ≤ e.2.gddrBase) || decide (e.2.gddrBase + e.2.gddrLen ≤ p.gddrBase)) &&
    p.vfMask != 0 && p.vfMask.getLsbD p.primary.toNat && others.all fun e => !(e.2.vfList.any p.vfList.contains)

/-- The sectors that hold a cluster of a partition, ascending. -/
def Partition.sectors (p : Partition) : List Nat := (List.range 3).filter fun k => (List.range 16).any fun i => p.clusters.getLsbD (16 * k + i)

/-- The home slice of the i-th bucket of a partition that becomes valid (R397). See assumption 85. -/
def Partition.firstHome (p : Partition) (i : Nat) : Nat := 32 * p.sectors.getD (i / 32 % p.sectors.length) 0 + i % 32

/-- Maps the buckets of a partition. See assumption 85. -/
def State.mapBuckets (s : State) (p : Partition) : State :=
  { s with buckets := (List.range p.buckets).foldl (fun (t : Tab Bucket) i =>
      t.put (p.bktBase + i) ⟨BitVec.ofNat 7 (p.firstHome i), false, true, none, 0⟩) s.buckets }

/-- Frees the buckets of a partition. -/
def State.freeBuckets (s : State) (p : Partition) : State :=
  { s with buckets := s.buckets.map fun e =>
      if p.bktBase ≤ e.1 && e.1 < p.bktBase + p.buckets then (e.1, { e.2 with valid := false, moving := false, target := none }) else e }

/-- Whether a copy in a slice is one of a partition's share: of a flash or host line by its key, of a GDDR line by its address or charge. -/
def Partition.ownsLine (p : Partition) (part n : Nat) (x : Line) : Bool :=
  if n < 2 ^ 45 then x.charge = part || p.ownsGddr (n * 128) (n * 128 + 127) else n / 2 ^ 45 = part + 1

/-- Writes back and drops the lines of a partition's bucket share, with their guests; its generated lines, its promoted host lines and its entries of
the victim store go too, and whatever waits at a slice for it. See assumption 85. -/
def State.dropShare (s : State) (part : Nat) : State :=
  let p := s.part part
  let lines := s.slices.flatMap fun e => (e.2.lines.filter fun l => p.ownsLine part l.1 l.2).map fun l => (e.1, l.1)
  let s1 := lines.foldl (fun (st : State) x => (st.dropCopies (.phys x.2)).dropLine x.1 x.2) s
  let s2 := ((s1.genLines.get [] part).map (·.1)).foldl (fun (st : State) l => (st.dropCopies (.gen part l)).setGenLine part l none) s1
  let slice := fun (x : Slice) => { x with
    slots := x.slots.filter fun y => y.part ≠ part
    waiting := x.waiting.filter fun w => w.part ≠ part
    merges := x.merges.filter fun m => m.part ≠ part }
  let s3 : State := { s2 with
    slices := s2.slices.map fun e => (e.1, slice e.2), victims := s2.victims.filter fun v => v.part ≠ part
    promoted := s2.promoted.filter fun e => e.1 / 2 ^ 45 ≠ part + 1, flashBad := s2.flashBad.filter fun x => x.1 ≠ part }
  s3.setPart part { s3.part part with tasks := [], reported := [] }

/-- Lines leave a slice until the context areas have their space there (R392). See assumption 127. -/
def State.carve (s : State) (slice : Nat) : Nat → State
  | 0 => s
  | n + 1 =>
    if (s.heldAt slice).length + s.contextLines slice ≤ Config.llcLines then s
    else match s.oldestOf slice (s.heldAt slice) with
      | some v => (s.evict slice v).carve slice n
      | none => s

/-- Gives the clusters that a partition comes to share their turns: the partition that holds one already keeps it, and each
has a context area, whose lines leave the pool of its share (R91, R392). See assumptions 85, 127. -/
def State.shareClusters (s : State) (part : Nat) : State :=
  let area := fun (u : State) (k : Nat) => u.setPart k { u.part k with context := some ((u.part k).context.getD Context.empty) }
  let s1 := (s.part part).clusterList.foldl (fun (st : State) c =>
    match st.sharers part c with
    | [] => st
    | q :: _ =>
      let st1 := area (area st part) q
      let cl := st1.cluster c
      if cl.turn.isSome then st1 else st1.setCluster c { cl with turn := some q }) s
  if s1.contextCount part = 0 then s1 else (List.range 96).foldl (fun (st : State) h => st.carve h (st.heldAt h).length) s1

/-- Makes a partition valid, or changes the descriptor of a valid one. See assumptions 84, 85. -/
def State.describe (s : State) (part : Nat) (d : BitVec 512) : State :=
  let old := s.part part
  let p := old.describe d
  if !s.descriptorOk part p then s
  else
    let same := old.valid && old.bktBase = p.bktBase && old.bktCnt = p.bktCnt
    let s1 := if same || !old.valid then s else (s.dropShare part).freeBuckets old
    let p1 := { s1.part part with clusters := p.clusters }.describe d
    let s2 := s1.setPart part (if old.valid then p1
      else { p1 with dataKey := some (Config.random s1.freeCtr), tagKey := some (Config.random (s1.freeCtr + 1)), keyId := s1.uid + 1 })
    let s3 := if same then s2 else s2.mapBuckets p
    let s4 := s3.shareClusters part
    { s4 with freeCtr := s4.freeCtr + 2, uid := s4.uid + 1, dev := { s4.dev with stage := 3 } }

/-! ### PARTITION_TEARDOWN (R394) -/

/-- Whether a partition has work under way on its cores that is still to be performed. See assumption 86. -/
def State.busy (s : State) (part : Nat) : Bool :=
  ((s.part part).cores.filter (s.hasTurn part)).any fun k =>
    let c := s.core k
    c.memq.any (fun m => match m.kind with | .store .. | .remote .. | .atom .. | .sc .. | .atoms .. => true | _ => false) ||
      !c.q1.isEmpty || !c.q2.isEmpty || !c.q4.isEmpty || !(s.pairs.get ⟨[]⟩ (Config.pairOf k)).q0.isEmpty

/-- Steps 1 and 2: the waves are killed and the queues end. See assumption 86. -/
def State.endWork (s : State) (part : Nat) : State :=
  let s1 := s.dropWaves fun w => w.part = part
  (List.range 16).foldl (fun (st : State) q => st.endQueue part q) s1

/-- A core without any state of the partition that leaves it. -/
def State.resetCore (s : State) (core : Nat) : State := s.setCore core ((s.core core).load (Core.reset core))

/-- A cluster that a partition leaves: another holder comes in, and one that is left alone takes no more turns. -/
def State.leaveCluster (s : State) (part cluster : Nat) : State :=
  let alone := (s.sharers part cluster).length ≤ 1
  let settle := fun (st : State) => if alone then st.setCluster cluster { st.cluster cluster with turn := none } else st
  match (s.cluster cluster).turn with
  | some q =>
    if q ≠ part then settle s
    else match s.sharers part cluster with
      | r :: _ => settle (s.swapIn r cluster)
      | [] => s
  | none =>
    let s1 := (coresOf cluster).foldl (fun (st : State) k =>
      let st1 := st.resetCore k
      { st1 with deliveries := st1.deliveries.put k [] }) s
    s1.setCluster cluster { Cluster.reset with tlb := (s1.cluster cluster).tlb }

/-- Steps 3 to 6: translations, tokens and pins, the lines, the context area and the keys go. See assumption 86. -/
def State.erasePart (s : State) (part : Nat) : State :=
  let p := s.part part
  let s1 := s.dropAllTlb part 0 (2 ^ 64)
  let s2 : State := { s1 with walks := s1.walks.map fun e => (e.1, e.2.filter fun w => w.part ≠ part) }
  let s3 := s2.setPart part { s2.part part with
    tokens := [], pins := [], migBusy := false, migResult := if p.migBusy then 3 else p.migResult, mig := none }
  let s4 := s3.dropShare part
  let s5 := p.clusterList.foldl (fun (st : State) c => st.leaveCluster part c) (s4.freeBuckets p)
  let s6 : State := { s5 with teams := s5.teams.filter fun t => t.part ≠ part }
  s6.setPart part { (s6.part part).describe 0 with context := none, dataKey := none, tagKey := none, keyId := 0, leaving := false }

/-- PARTITION_TEARDOWN: while stores or engine operations of the killed waves are under way, the teardown waits after its
second step, and the event comes again. See assumption 86. -/
def State.teardown (s : State) (part : Nat) : State :=
  if !(s.part part).valid then s
  else
    let s1 := s.endWork part
    if s1.busy part then s1.setPart part { s1.part part with leaving := true } else s1.erasePart part

/-- PARTITION_TEARDOWN. -/
def execPartitionTeardown (part : Nat) (s : State) : Host.Outcome State Fault Refusal := .next (s.teardown part)

/-- PARTITION_DESCRIPTOR_WRITE: accepted from stage 3 on; one with VALID = 0 clears the descriptor. See assumption 84. -/
def execPartitionDescriptorWrite (part : Nat) (desc : BitVec 512) (s : State) : Host.Outcome State Fault Refusal :=
  .next (if s.dev.stage < 2 || !s.dev.railOn || part ≥ 32 then s
    else if bitOf desc.toNat 48 then s.describe part desc else s.teardown part)

end Sys2Proof.Machine
end

