-- ==== Sys2Proof/Machine/Lustre.lean ====
section
/-!
DEFINITION. Lustre (R428 to R445): heads, bands, the fallback path, presents, motion, latches and the governor. A head's events
at the start of a line come before the line is sent.
-/
namespace Sys2Proof.Machine

/-- A head. -/
def State.head (s : State) (h : Nat) : Head := s.heads.get Head.reset h
/-- Writes a head. -/
def State.setHead (s : State) (h : Nat) (x : Head) : State := { s with heads := s.heads.put h x }
/-- Changes a head. -/
def State.modHead (s : State) (h : Nat) (g : Head → Head) : State := s.setHead h (g (s.head h))

/-- One more of a counter of 16 bits that saturates (R430). -/
def sat16 (x : BitVec 16) : BitVec 16 := if x = BitVec.allOnes 16 then x else x + 1

/-- The partition that holds a head, as a reader: for the kernel, descriptors and poses (0), the presented frame (1), band slots (2), latch records (3)
and motion buffers (4). -/
def State.headReader (s : State) (part h use : Nat) : Reader := s.frontReader part (2 ^ 22 + 8 * h + use)

/-! ### HEAD_GRANT, HEAD_ENABLE, HEAD_DISABLE (R429, R431, R446) -/

/-- HEAD_GRANT: the mailbox grants a head to a valid partition or takes it back; the boot framebuffer stops with head 0. -/
def execHeadGrant (head : Nat) (part : Option Nat) (s : State) : Host.Outcome State Fault Refusal :=
  .next (match part with
  | some p =>
    if head < 4 && (s.part p).valid then
      let s1 := s.modHead head fun h => { h with grant := some p }
      if head = 0 then { s1 with dev := { s1.dev with fb := none } } else s1
    else s
  | none => s.modHead head fun h => { h with grant := none })

/-- The links of a connector (R428): lanes, and Mb/s for each lane. See assumption 94. -/
def connectorLinks (conn : Nat) : List (Nat × Nat) :=
  if conn < 3 then [1, 2, 4].flatMap fun n => [10000, 13500, 20000].map fun r => (n, r)
  else [3, 4].flatMap fun n => [3000, 6000, 8000, 10000, 12000].map fun r => (n, r)

/-- The link to which a connector has trained. See assumption 94. -/
def linkOf (conn : Nat) : Nat × Nat :=
  let ls := connectorLinks conn
  ls.getD (Config.linkTrained conn % ls.length) (1, 0)

/-- Bits of each component (R428). -/
def Head.bpc (h : Head) : Nat := if h.bpc10 then 10 else 8

/-- Whether the link of a head's connector carries its mode: uncompressed, a line needs no more bits than the link passes in a line period, of
LCLK ns. See assumption 94. -/
def Head.linkOk (h : Head) : Bool :=
  let (lanes, rate) := linkOf h.conn.toNat
  (h.dsc || decide (1000 * 3 * h.bpc * (h.hact.toNat + 1) ≤ lanes * rate * h.lclk.toNat)) &&
    Config.linkCarries h.conn.toNat (h.hact.toNat + h.vact.toNat * 2 ^ 13 + h.vtotal.toNat * 2 ^ 26 + h.lclk.toNat * 2 ^ 39 +
      h.dsc.toNat * 2 ^ 55 + h.bpc10.toNat * 2 ^ 56)

/-- Whether a mode may start (R431). See assumption 94. -/
def State.modeOk (s : State) (h : Nat) (x : Head) : Bool :=
  decide (x.vtotal.toNat ≥ x.vact.toNat + 1) && decide (x.lclk.toNat ≥ 250) && decide (x.gazeLine ≤ x.vtotal) &&
    decide (x.poseLine ≤ x.vtotal) && decide (1 ≤ x.lead.toNat) && decide (x.lead.toNat ≤ 4) &&
    !(s.heads.any fun e => e.1 ≠ h && e.2.en && e.2.conn = x.conn) && decide (x.hact.toNat + 1 ≤ 7680) && decide (x.vact.toNat + 1 ≤ 4320) &&
    x.linkOk

/-- Whether a team still runs. -/
def State.teamRuns (s : State) (id : Nat) : Bool := s.teams.any fun t => t.id = id

/-- Whether the team of a band still runs. -/
def State.bandRuns (s : State) (x : Band) : Bool := match x.team with | some t => s.teamRuns t | none => false

/-- Sets EN: the first frame begins. Of the bands of an earlier enabling those whose teams still run are kept, closed and of no frame, since they
write their slots (R431, R436). See assumption 87. -/
def State.enableHead (s : State) (h : Nat) : State :=
  let x := s.head h
  if x.en || !s.modeOk h x then s
  else s.setHead h { x with
    en := true, stopping := false, line := 0, frame := 1, latched := 0, sent := false, out := [], effectAt := 0
    boundary := none, bands := (x.bands.filter s.bandRuns).map fun b => { b with closed := true, frame := 0 } }

/-- HEAD_ENABLE. -/
def execHeadEnable (head : Nat) (s : State) : Host.Outcome State Fault Refusal := .next (if head < 4 then s.enableHead head else s)

/-- Clears EN: scan-out stops at the next line boundary. See assumption 87. -/
def State.disableHead (s : State) (h : Nat) : State := s.modHead h fun x => if x.en then { x with en := false, stopping := true } else x

/-- HEAD_DISABLE. -/
def execHeadDisable (head : Nat) (s : State) : Host.Outcome State Fault Refusal := .next (s.disableHead head)

/-! ### SCAN_KERNEL_LOAD (R435) -/

/-- Whether an image can serve as a scan kernel. See assumption 93. -/
def Header.scans (h : Header) : Bool :=
  h.total == 1 && h.nx == 1 && h.ny == 1 && h.nz == 1 && !h.checked && !h.coresident && !h.filler && !h.graph && !h.paired && h.scan &&
    decide (h.waves ≤ 6) && decide (h.regblk ≤ 8)

/-- Writes LS_KERNEL: the image is read and checked, as soon as it can be read. See assumption 93. -/
def State.loadKernel (s : State) (head : Nat) (value : DWord) : State :=
  let addr : DWord := value &&& ~~~0xFFF#64
  let none_ := fun (st : State) (bad due : Bool) => st.modHead head fun h => { h with kernel := addr, image := none, kbad := bad, kernelDue := due }
  match (s.head head).grant with
  | none => none_ s (addr != 0) false
  | some p =>
    if addr = 0 then none_ s false false
    else match s.readLaunch (s.headReader p head 0) addr false with
      | (s1, .wait) => none_ s1 false true
      | (s1, .bad) => none_ s1 true false
      | (s1, .image i) =>
        if i.hdr.scans then s1.modHead head fun h => { h with kernel := addr, image := some (i.hdr, i.binds), kbad := false, kernelDue := false }
        else none_ s1 true false

/-- SCAN_KERNEL_LOAD. -/
def execScanKernelLoad (head : Nat) (value : DWord) (s : State) : Host.Outcome State Fault Refusal :=
  .next (if head < 4 then s.loadKernel head value else s)

/-! ### Presents (R439, R440) -/

/-- Writes LS_PRESENT; a present that waits is replaced, and counts. -/
def State.present (s : State) (head : Nat) (value : DWord) : State :=
  let d : DWord := value &&& ~~~0x3F#64
  s.modHead head fun h => { h with presentDesc := d, queued := some d, pdrop := if h.queued.isSome then sat16 h.pdrop else h.pdrop }

/-- PRESENT. -/
def execPresent (head : Nat) (value : DWord) (s : State) : Host.Outcome State Fault Refusal :=
  .next (if head < 4 then s.present head value else s)

/-- Whether a present descriptor keeps R439. -/
def presentOk (bs : List Byte) : Bool :=
  pkt bs 0 8 % 128 == 0 && pkt bs 8 4 % 128 == 0 && decide (pkt bs 16 1 ≤ 2) && pkt bs 19 1 == 0 && (bs.drop 52).all (· == 0)

/-- Width of a presented frame. -/
def presentW (bs : List Byte) : Nat := pkt bs 12 2 + 1
/-- Height of a presented frame. -/
def presentH (bs : List Byte) : Nat := pkt bs 14 2 + 1

/-- Bytes of a pixel of a presented frame. -/
def pixelSize (bs : List Byte) : Nat := if pkt bs 16 1 = 2 then 8 else 4

/-- Reads the pixels of the frame of the present in effect from the `i`-th on, up to `n`, and stops at one that must wait; a byte that is poisoned or
faults is read as none (R438, R440). The boundary is over once all are read. -/
def State.readPixels (s : State) (head part : Nat) (d : List Byte) : Nat → Nat → State
  | 0, _ => s.modHead head fun x => { x with boundary := none }
  | n + 1, i =>
    let size := pixelSize d
    let va : DWord := BitVec.ofNat 64 (pkt d 0 8 + i / presentW d * pkt d 8 4 + i % presentW d * size)
    let add := fun (st : State) (bs : List (Option Byte)) => st.modHead head fun x => { x with frameNew := x.frameNew ++ bs }
    match s.frontRead (s.headReader part head 1) va size with
    | (s1, .wait) => s1
    | (s1, .fault _) => (add s1 (List.replicate size none)).readPixels head part d n (i + 1)
    | (s1, .bytes bs) => (add s1 (bs.map some)).readPixels head part d n (i + 1)

/-- What is still to be read of the frame of the present in effect. See assumption 89. -/
def State.readFrame (s : State) (head : Nat) : State :=
  let h := s.head head
  match h.effect, h.grant with
  | some (_, d), some p =>
    let i := h.frameNew.length / pixelSize d
    s.readPixels head p d (presentW d * presentH d - i) i
  | _, _ => s

/-- The frame boundary: the latest present takes effect for a frame, and its frame is read; a malformed or unreadable one counts as dropped. While
the descriptor or a pixel must wait, the boundary goes on. See assumption 89. -/
def State.takePresent (s : State) (head : Nat) : State :=
  let h := s.head head
  match h.boundary, h.queued, h.grant with
  | some frame, some d, some p =>
    if h.effectAt = frame && h.effect.isSome then s.readFrame head
    else
      let drop := fun (st : State) => st.modHead head fun x => { x with queued := none, boundary := none, pdrop := sat16 x.pdrop }
      (match s.frontRead (s.headReader p head 0) d 64 with
      | (s1, .wait) => s1
      | (s1, .fault _) => drop s1
      | (s1, .bytes bs) =>
        if presentOk bs then
          (s1.modHead head fun x => { x with
            queued := none, previous := x.effect, effect := some (d, bs), effectAt := frame, taken := x.taken + 1
            frameOld := x.frameNew, frameNew := [], estimate := x.effect.map fun _ => frame }).readFrame head
        else drop s1)
  | some frame, none, some _ => if h.effectAt = frame && h.effect.isSome then s.readFrame head else s.modHead head fun x => { x with boundary := none }
  | _, _, _ => s

/-- The present that serves a frame. See assumption 89. -/
def Head.presentFor (h : Head) (frame : Nat) : Option (DWord × List Byte) := if h.effectAt ≤ frame then h.effect else h.previous

/-- The bytes of the presented frame that serves a frame. -/
def Head.pixelsFor (h : Head) (frame : Nat) : List (Option Byte) := if h.effectAt ≤ frame then h.frameNew else h.frameOld

/-! ### Bands (R436, R437) -/

/-- Bands of a frame. -/
def Head.bandCount (h : Head) : Nat := (h.vact.toNat + 16) / 16

/-- The frame whose line the current line is, counted from an offset: a negative offset names a line of the frame before. -/
def Head.due (h : Head) (off : Int) : Option Nat :=
  if 0 ≤ off then (if (h.line : Int) = off then some h.frame else none)
  else if (h.line : Int) = h.vtotal.toNat + 1 + off then some (h.frame + 1) else none

/-- The line of a band's dispatch, D0(b). -/
def Head.dispatchAt (h : Head) (b : Nat) : Int := 16 * ((b : Int) - 2 - h.lead.toNat)

/-- The line of a band's deadline, D(b). -/
def deadlineAt (b : Nat) : Int := 16 * (b : Int) - 32

/-- The entry of a band of a frame. -/
def Head.band? (h : Head) (b frame : Nat) : Option Band := h.bands.find? fun x => x.index = b && x.frame = frame

/-- Changes the entry of a band. -/
def Head.modBand (h : Head) (b frame : Nat) (g : Band → Band) : Head :=
  { h with bands := h.bands.map fun x => if x.index = b && x.frame = frame then g x else x }

/-- A band that has been dispatched. -/
def Band.new (b frame : Nat) : Band :=
  { index := b, frame := frame, team := none, killed := false, done := false, closed := false, intime := none, source := none, present := none, pose := [] }

/-- BAND_DISPATCH: a team for a band is asked for; with band 0 the present takes effect. See assumption 89. -/
def State.dispatch (s : State) (head b : Nat) : State :=
  let h := s.head head
  if !h.en || b ≥ h.bandCount then s
  else match h.due (h.dispatchAt b) with
    | none => s
    | some f =>
      if (h.band? b f).isSome then s
      else
        let s1 := s.modHead head fun x => { x with bands := x.bands ++ [Band.new b f] }
        if b = 0 then (s1.modHead head fun x => { x with boundary := some f }).takePresent head else s1

/-- BAND_DISPATCH. -/
def execBandDispatch (head band : Nat) (s : State) : Host.Outcome State Fault Refusal := .next (s.dispatch head band)

/-- Bytes of a line in a band slot. -/
def Head.pitch (h : Head) : Nat := roundUp (4 * (h.hact.toNat + 1)) 128

/-- The address of a band's slot. -/
def Head.slotOf (h : Head) (b : Nat) : DWord := h.bandBase + BitVec.ofNat 64 (16 * h.pitch * (b % 8))

/-- Whether a band may start as far as its head goes: it waits, it has a kernel, and no earlier band runs on its slot. -/
def State.bandWaits (s : State) (h : Head) (x : Band) : Bool :=
  x.team.isNone && !x.closed && h.grant.isSome && h.image.isSome &&
    !(h.bands.any fun y => y.index % 8 = x.index % 8 && s.bandRuns y)

/-- Lustre clocks until a band's deadline starts. -/
def Head.slack (h : Head) (x : Band) : Nat :=
  (((x.frame : Int) - h.frame) * (h.vtotal.toNat + 1) + deadlineAt x.index - h.line).toNat * h.lclk.toNat

/-- Whether another waiting band is served before one (R436). -/
def State.bandAhead (s : State) (head : Nat) (x : Band) : Bool :=
  let mine := (s.head head).slack x
  s.heads.any fun e => e.2.bands.any fun y =>
    s.bandWaits e.2 y && (decide (e.2.slack y < mine) || (e.2.slack y == mine && decide (e.1 < head)))

/-- BAND_TEAM_START: the team of a band starts on a scan core with free slots and blocks. See assumption 93. -/
def State.startBand (s : State) (head b core : Nat) : State :=
  let h := s.head head
  match h.bands.find? fun x => x.index = b && s.bandWaits h x with
  | none => s
  | some x =>
    match h.image, h.grant with
    | some (hdr, binds), some p =>
      if (core ≠ 192 && core ≠ 193) || s.bandAhead head x || !s.roomFor core hdr.waves (hdr.waves * hdr.regblk) then s
      else
        let id := s.uid
        let s1 := s.fresh
        let c := s1.core core
        let s2 := s1.setCore core { c with l1 := [] }
        let s3 : State := { s2 with teams := s2.teams ++ [looseTeam id id p core hdr.waves hdr b binds] }
        let desc : DWord := match h.presentFor x.frame with | some d => d.1 | none => 0
        let regs := [(0, BitVec.ofNat 64 b), (1, BitVec.ofNat 64 x.frame), (2, h.slotOf b), (3, BitVec.ofNat 64 h.latchRec), (4, desc), (5, h.mvBase)]
        let req := fun (i : Nat) => { newWave id id p .scan hdr i 7 .user with sregs := regs }
        (s3.createMany core ((List.range hdr.waves).map req)).modHead head fun y => y.modBand b x.frame fun z => { z with team := some id }
    | _, _ => s

/-- BAND_TEAM_START. -/
def execBandTeamStart (head band core : Nat) (s : State) : Host.Outcome State Fault Refusal := .next (s.startBand head band core)

/-- Whether a band is complete: its waves have retired without a kill and their stores are performed, those of epilogues included. -/
def State.bandComplete (s : State) (x : Band) : Bool :=
  match x.team with
  | some t => x.done && !((s.core 192).holdsLaunch t || (s.core 193).holdsLaunch t || s.pairs.any fun e => e.2.q0.any fun y => y.launch = t)
  | none => false

/-! ### Latches (R442) -/

/-- The peripheral ray density and the render scale of a level, in sixteenths (R443). -/
def shedding (level : Nat) : Nat × Nat :=
  ([(16, 16), (12, 16), (8, 16), (4, 16), (4, 14), (4, 12)] : List (Nat × Nat)).getD level (4, 10)

/-- Writes the latch records that are due, oldest first, each with its first eight bytes last; one that must wait holds back the others. -/
def State.putRecords (s : State) (head : Nat) : Nat → State
  | 0 => s
  | n + 1 =>
    let h := s.head head
    match h.records, h.grant with
    | (frame, body) :: rest, some p =>
      let va : DWord := h.latchBase + BitVec.ofNat 64 (64 * (frame % 4))
      let r := s.headReader p head 3
      (match s.frontWrite r (va + 8) body with
      | (s1, .wait) => s1
      | (s1, _) => match s1.frontWrite r va (leBytes 8 frame) with
        | (s2, .wait) => s2
        | (s2, _) => (s2.modHead head fun x => { x with latchRec := va.toNat, records := rest }).putRecords head n)
    | _, _ => s

/-- The latch records that are due. -/
def State.flushRecords (s : State) (head : Nat) : State := s.putRecords head (s.head head).records.length

/-- The latch record of a frame is due after the later of its latches. -/
def State.writeLatch (s : State) (head : Nat) : State :=
  let h := s.head head
  if h.latched ≠ 3 || h.grant.isNone then s
  else
    let gaze := h.gazeLatch.getD 0
    let (pose, ok) := h.poseLatch.getD (List.replicate 28 0, false)
    let (density, scale) := shedding h.gazeLevel
    let body := leBytes 8 gaze.toNat ++ pose ++ leBytes 1 h.gazeLevel ++ leBytes 1 density ++ leBytes 1 scale ++
      leBytes 1 ((bitOf gaze.toNat 48).toNat + 2 * ok.toNat) ++ List.replicate 16 0
    (s.setHead head { h with records := h.records ++ [(h.frame, body)] }).flushRecords head

/-- GAZE_LATCH: the start of line GAZELATCH. -/
def execGazeLatch (head : Nat) (s : State) : Host.Outcome State Fault Refusal :=
  .next (let h := s.head head
    if h.en && h.line = h.gazeLine.toNat && h.latched % 2 = 0 then
      (s.setHead head { h with gazeLatch := some h.gaze, gazeLevel := s.gov.level, latched := h.latched + 1 }).writeLatch head
    else s)

/-- Whether 32 bits are an FP32 NaN. -/
def isNan32 (x : Nat) : Bool := bitsOf x 30 23 == 255 && bitsOf x 22 0 != 0

/-- POSE_LATCH: the start of line POSELATCH. A half that cannot be read gives no valid pose. See assumption 92. -/
def State.latchPose (s : State) (head : Nat) : State :=
  let h := s.head head
  if !h.en || h.line ≠ h.poseLine.toNat || h.latched ≥ 2 then s
  else
    let at_ : DWord := h.poseBase + (if h.poseSel then 64 else 0)
    let keep := fun (st : State) (bs : List Byte) (ok : Bool) =>
      (st.modHead head fun x => { x with poseLatch := some (bs, ok), latched := x.latched + 2 }).writeLatch head
    let none_ := fun (st : State) => (keep st ((List.range 28).map fun i => Config.unread (st.freeCtr + i)) false).draw
    match h.grant with
    | none => none_ s
    | some p =>
      match s.frontRead (s.headReader p head 0) at_ 28 with
      | (s1, .bytes bs) => keep s1 bs (h.poseValid && !((List.range 4).any fun i => isNan32 (pkt bs (4 * i) 4)))
      | (s1, _) => none_ s1

/-- POSE_LATCH. -/
def execPoseLatch (head : Nat) (s : State) : Host.Outcome State Fault Refusal := .next (s.latchPose head)

/-! ### BAND_DEADLINE (R437, R438) -/

/-- BAND_DEADLINE: a band that was complete before the line started is taken from its slot; otherwise the first path of R438 whose conditions hold.
A pose that is latched at the same line comes first (R442). -/
def State.deadline (s0 : State) (head b : Nat) : State :=
  let s := if ((s0.head head).due (deadlineAt b)).isSome then s0.latchPose head else s0
  let h := s.head head
  if !h.en || b ≥ h.bandCount then s0
  else match h.due (deadlineAt b) with
    | none => s0
    | some f =>
      let x := (h.band? b f).getD (Band.new b f)
      if x.closed then s0
      else
        let present := (h.presentFor f).map (·.2)
        let posed := match present with | some d => bitOf (pkt d 17 1) 0 | none => false
        let latch := match h.poseLatch with | some l => l.2 | none => false
        let source := if x.intime = some true then 0 else if posed && latch then 1 else if present.isSome then 2 else 3
        let done : Band := { x with closed := true, source := some source, present := present, pose := (h.poseLatch.map (·.1)).getD [] }
        let h1 : Head := if (h.band? b f).isSome then h.modBand b f fun _ => done else { h with bands := h.bands ++ [done] }
        s.setHead head (if source = 1 then { h1 with fb1 := sat16 h1.fb1 } else if source = 2 then { h1 with fb2 := sat16 h1.fb2 } else h1)

/-- BAND_DEADLINE. -/
def execBandDeadline (head band : Nat) (s : State) : Host.Outcome State Fault Refusal := .next (s.deadline head band)

/-! ### Pixels of a presented frame -/

/-- The exact value of an FP32 or FP16 number of given exponent and mantissa widths; none for an infinity or NaN. See assumption 70. -/
def floatRat (eb mb x : Nat) : Option Rat :=
  let bias : Int := 2 ^ (eb - 1) - 1
  let e := bitsOf x (mb + eb - 1) mb
  let m := bitsOf x (mb - 1) 0
  let sgn : Rat := if bitOf x (mb + eb) then -1 else 1
  if e = 2 ^ eb - 1 then none
  else if e = 0 then some (sgn * m * (2 : Rat) ^ (1 - bias - mb))
  else some (sgn * (2 ^ mb + m : Nat) * (2 : Rat) ^ ((e : Int) - bias - mb))

/-- The FP32 fields of a block of bytes; 0 for one that is no number, which `numbers` finds. -/
def fieldF32 (bs : List Byte) (off : Nat) : Rat := (floatRat 8 23 (pkt bs off 4)).getD 0

/-- Whether the FP32 fields from an offset on are numbers. -/
def numbers (bs : List Byte) (off n : Nat) : Bool := (List.range n).all fun i => (floatRat 8 23 (pkt bs (off + 4 * i) 4)).isSome

/-- The nearest integer, ties to even. -/
def rneInt (q : Rat) : Int :=
  let f := q.floor
  let r := q - f
  if r < 1 / 2 then f else if r > 1 / 2 then f + 1 else if f % 2 = 0 then f else f + 1

/-- The exponent of a number's leading bit. -/
def leadOf (q : Rat) : Int :=
  let k : Int := (Nat.log2 q.num.natAbs : Int) - Nat.log2 q.den
  if (2 : Rat) ^ k ≤ |q| then k else k - 1

/-- A number rounded to FP32 with RNE; beyond its range it stays as it is, since every conversion after it saturates. -/
def rne32 (q : Rat) : Rat :=
  if q = 0 then 0
  else
    let u : Rat := (2 : Rat) ^ (max (leadOf q) (-126) - 23)
    rneInt (q / u) * u

/-- Bytes at a virtual address of a partition as the debugger reads them; none when one faults, waits or is poisoned. See assumption 54. -/
def State.lustreBytes (s : State) (part : Nat) (va : DWord) (n : Nat) : Option (List Byte) :=
  match s.lookNow (s.part part).firstCore part ⟨false, false, false⟩ va with
  | .ok pa _ => if (List.range n).any fun i => s.wordPoisoned (pa + i) then none else some (s.mem.readBytes pa n)
  | .gen _ =>
    (match s.genLine part (va.toNat / 128) with
    | some g => if g.state == .valid || g.state == .zero then some ((g.data.drop (va.toNat % 128)).take n) else none
    | none => none)
  | _ => none

/-- Red, green and blue of a pixel of a presented frame, as fractions of full scale; a component is none for an infinity or NaN. None when the pixel
has not been read, is poisoned or faults. -/
def framePixel (px : List (Option Byte)) (d : List Byte) (x y : Nat) : Option (List (Option Rat)) :=
  let size := pixelSize d
  ((List.range size).mapM fun i => (px[(y * presentW d + x) * size + i]?).join).map fun bs =>
    match pkt d 16 1 with
    | 0 => (List.range 3).map fun i => some ((pkt bs i 1 : Rat) / 255)
    | 1 => (List.range 3).map fun i => some ((bitsOf (leNat bs) (10 * i + 9) (10 * i) : Rat) / 1023)
    | _ => (List.range 3).map fun i => floatRat 5 10 (pkt bs (2 * i) 2)

/-- An index clamped to the edges of a frame. -/
def clampTo (n : Nat) (x : Int) : Nat := min (n - 1) x.toNat

/-- A value that FP32 arithmetic gives near an exact one: it is rounded, and lies within a few units of the last place of the largest operand. See
assumption 90. -/
def drifted (exact largest : Rat) (n : Nat) : Rat := rne32 (exact + (Config.pathDrift n % 129 - 64 : Int) * largest * (2 : Rat) ^ (-24 : Int))

/-- A colour component of 10 bits: the conversion rounds to the nearest and saturates (R438). -/
def toComponent (q : Rat) : Nat := (max 0 (min 1023 (rneInt (rne32 (q * 1023))))).toNat

/-- A pixel of the fixed path: the bilinear sample of a presented frame at a point, with edge clamping; none when a pixel that it needs cannot be had.
A component that meets an infinity or a NaN is a free value. See assumption 90. See assumption 70. -/
def bilinear (px : List (Option Byte)) (d : List Byte) (p : Rat × Rat) (n : Nat) : Option Word :=
  let x0 := p.1.floor
  let y0 := p.2.floor
  let fx := p.1 - x0
  let fy := p.2 - y0
  let at_ := fun (i j : Int) => framePixel px d (clampTo (presentW d) (x0 + i)) (clampTo (presentH d) (y0 + j))
  match at_ 0 0, at_ 1 0, at_ 0 1, at_ 1 1 with
  | some a, some b, some c, some e =>
    let comp := fun (k : Nat) => match (a.getD k none), (b.getD k none), (c.getD k none), (e.getD k none) with
      | some p0, some p1, some p2, some p3 =>
        toComponent (drifted ((p0 * (1 - fx) + p1 * fx) * (1 - fy) + (p2 * (1 - fx) + p3 * fx) * fy) (max (max |p0| |p1|) (max |p2| |p3|)) (4 * n + k))
      | _, _, _, _ => (Config.pathSpecial (4 * n + k)).toNat
    some (BitVec.ofNat 32 (comp 0 + comp 1 * 2 ^ 10 + comp 2 * 2 ^ 20))
  | _, _, _, _ => none

/-- A rotation given by a quaternion at an offset, applied to a vector. -/
def rotate (bs : List Byte) (off : Nat) (transpose : Bool) (v : Rat × Rat × Rat) : Rat × Rat × Rat :=
  let w := if transpose then - fieldF32 bs off else fieldF32 bs off
  let x := fieldF32 bs (off + 4)
  let y := fieldF32 bs (off + 8)
  let z := fieldF32 bs (off + 12)
  let (a, b, c) := v
  ((1 - 2 * (y * y + z * z)) * a + 2 * (x * y - w * z) * b + 2 * (x * z + w * y) * c,
    2 * (x * y + w * z) * a + (1 - 2 * (x * x + z * z)) * b + 2 * (y * z - w * x) * c,
    2 * (x * z - w * y) * a + 2 * (y * z + w * x) * b + (1 - 2 * (x * x + y * y)) * c)

/-- The point of the presented frame to which H maps an output pixel (R438): none where an operand is no number or a division has no result. The
point that FP32 arithmetic finds near it depends on the order of the operations, and is free. See assumption 90. -/
def warp (d pose : List Byte) (outW outH x y n : Nat) : Option (Rat × Rat) :=
  let kx : Rat := (outW : Rat) / presentW d
  let ky : Rat := (outH : Rat) / presentH d
  let fx := fieldF32 d 20 * kx
  let fy := fieldF32 d 24 * ky
  let cx := fieldF32 d 28 * kx
  let cy := fieldF32 d 32 * ky
  let (a, b, c) := rotate d 36 true (rotate pose 0 false (((x : Rat) - cx) / fx, ((y : Rat) - cy) / fy, 1))
  if !numbers d 20 8 || !numbers pose 0 4 || fx = 0 || fy = 0 || c = 0 then none
  else
    let near := fun (q : Rat) (k : Nat) => rne32 (q + Config.pathDrift k * (2 : Rat) ^ (-24 : Int))
    some (near ((fx * (a / c) + cx) / kx) (2 * n), near ((fy * (b / c) + cy) / ky) (2 * n + 1))

/-- The point of the presented frame that upscaling gives an output pixel. -/
def scaleTo (d : List Byte) (outW outH x y n : Nat) : Rat × Rat :=
  let px := ((x : Rat) + 1 / 2) * presentW d / outW
  let py := ((y : Rat) + 1 / 2) * presentH d / outH
  (drifted (px - 1 / 2) px (2 * n), drifted (py - 1 / 2) py (2 * n + 1))

/-- A line of a band by path 1 or 2, in FP32 with RNE. See assumption 90. -/
def State.pathLine (s : State) (h : Head) (x : Band) (warped : Bool) : Option (List Word) :=
  x.present.bind fun d =>
    let outW := h.hact.toNat + 1
    let outH := h.vact.toNat + 1
    let px := h.pixelsFor x.frame
    (List.range outW).mapM fun i =>
      let n := s.freeCtr * 2 ^ 20 + i
      let p := if warped then warp d x.pose outW outH i h.line n else some (scaleTo d outW outH i h.line n)
      match p with
      | some q => bilinear px d q n
      | none => some (BitVec.ofNat 32 ((Config.pathSpecial (4 * n)).toNat + (Config.pathSpecial (4 * n + 1)).toNat * 2 ^ 10 +
          (Config.pathSpecial (4 * n + 2)).toNat * 2 ^ 20))

/-- A line of a complete band, from its slot, read through the LLC (R310). -/
def State.slotLine (s : State) (head part : Nat) (h : Head) (x : Band) : State × Option (List Word) :=
  let n := h.hact.toNat + 1
  match s.frontRead (s.headReader part head 2) (h.slotOf x.index + BitVec.ofNat 64 (h.line % 16 * h.pitch)) (4 * n) with
  | (s1, .bytes bs) => (s1, some ((List.range n).map fun i => BitVec.ofNat 32 (bitsOf (pkt bs (4 * i) 4) 29 0)))
  | (s1, _) => (s1, none)

/-! ### LINE_SCANOUT (R438) -/

/-- Whether an event of a head is due at the start of the current line and has not come. See assumption 88. -/
def Head.owes (h : Head) : Bool :=
  (h.line == h.gazeLine.toNat && h.latched % 2 == 0) || (h.line == h.poseLine.toNat && decide (h.latched < 2)) ||
    (List.range h.bandCount).any fun b =>
      (match h.due (h.dispatchAt b) with | some f => (h.band? b f).isNone | none => false) ||
        (match h.due (deadlineAt b) with | some f => !(match h.band? b f with | some x => x.closed | none => false) | none => false)

/-- A pixel as the connector carries it: the top 8 bits of each component unless BPC10 is set. -/
def Head.wirePixel (h : Head) (x : Word) : Word :=
  if h.bpc10 then x
  else BitVec.ofNat 32 (bitsOf x.toNat 9 2 + bitsOf x.toNat 19 12 * 2 ^ 10 + bitsOf x.toNat 29 22 * 2 ^ 20)

/-- A line as the connector carries it: with DSC on, compressed in the slices that the head sets from HACT (R428). See assumption 94. -/
def Head.wire (h : Head) (n : Nat) (l : List Word) : List Word :=
  let px := l.map h.wirePixel
  if h.dsc then Config.dscLine n (Config.dscSlices h.hact.toNat) h.bpc px else px

/-- The source of the current line, when it is an active one that can be sent from a band or a path. -/
def State.lineSource (s : State) (head : Nat) (ready : Bool) : State × Option (List Word) :=
  let h := s.head head
  match h.band? (h.line / 16) h.frame, h.grant with
  | some x, some p => (match x.source with
    | some 0 => s.slotLine head p h x
    | some 1 => (s, if ready then s.pathLine h x true else none)
    | some 2 => (s, if ready then s.pathLine h x false else none)
    | _ => (s, none))
  | _, _ => (s, none)

/-- The bands whose deadline falls at the line that starts are judged: each is complete or late from now on (R437). -/
def State.judge (s : State) (h : Head) : Head :=
  { h with bands := h.bands.map fun x =>
      if x.intime.isNone && h.due (deadlineAt x.index) = some x.frame then { x with intime := some (s.bandComplete x) } else x }

/-- The head after a line: the next line, or the next frame. Bands whose teams still run stay listed. -/
def State.nextLine (s : State) (h : Head) : Head :=
  s.judge (
    if h.line < h.vtotal.toNat then { h with line := h.line + 1 }
    else { h with
      line := 0, frame := h.frame + 1, sent := false, latched := 0, bands := h.bands.filter fun x => decide (x.frame > h.frame) || s.bandRuns x })

/-- What a head has still to read or write: its kernel, the present and the frame of a boundary, and its latch records. See assumption 93. -/
def State.headWork (s : State) (head : Nat) : State :=
  let s1 := if (s.head head).kernelDue then s.loadKernel head (s.head head).kernel else s
  (s1.takePresent head).flushRecords head

/-- LINE_SCANOUT: the current line of a head is sent, and the next one starts. See assumption 88. -/
def State.scanLine (s0 : State) (head : Nat) (ready : Bool) : State :=
  let h0 := s0.head head
  if h0.stopping then s0.setHead head { h0 with stopping := false, out := [] }
  else if !h0.en || h0.owes then s0
  else
    let s := s0.headWork head
    let h := s.head head
    let width := h.hact.toNat + 1
    let black := List.replicate width (0 : Word)
    let wire := h.wire s.freeCtr
    if h.line > h.vact.toNat then (s.setHead head (s.nextLine { h with out := [] })).draw
    else if h.grant.isNone then (s.setHead head (s.nextLine { h with out := wire black })).draw
    else match s.lineSource head ready with
      | (s1, some l) => (s1.setHead head (s1.nextLine { s1.head head with out := wire l, lastLine := l, sent := true })).draw
      | (s1, none) =>
        let l := if h.sent then h.lastLine else black
        (s1.setHead head (s1.nextLine { s1.head head with out := wire l, fb3 := sat16 h.fb3 })).draw

/-- LINE_SCANOUT. -/
def execLineScanout (head : Nat) (ready : Bool) (s : State) : Host.Outcome State Fault Refusal := .next (s.scanLine head ready)

/-! ### MOTION_ESTIMATION (R441) -/

/-- Luma of a pixel, times 4; none when the pixel cannot be had or is no number. -/
def luma (px : List (Option Byte)) (d : List Byte) (x y : Nat) : Option Rat :=
  (framePixel px d x y).bind fun v => match v with
    | [some r, some g, some b] => some (r + 2 * g + b)
    | _ => none

/-- Luma of a frame at a point in quarter pixels; between pixels and outside it is a free value. See assumption 91. -/
def State.lumaAt (s : State) (px : List (Option Byte)) (d : List Byte) (qx qy : Int) : Rat :=
  let inside := qx % 4 = 0 && qy % 4 = 0 && decide (0 ≤ qx) && decide (0 ≤ qy) && decide (qx / 4 < presentW d) && decide (qy / 4 < presentH d)
  let free := Config.lumaBetween s.freeCtr qx qy
  if inside then (luma px d (qx / 4).toNat (qy / 4).toNat).getD free else free

/-- The sum of absolute luma differences of a block under a displacement in quarter pixels. See assumption 91. -/
def State.blockCost (s : State) (h : Head) (new old : List Byte) (bx by_ : Nat) (dx dy : Int) : Rat :=
  let cell := fun (i : Nat) =>
    let x := 8 * bx + i % 8
    let y := 8 * by_ + i / 8
    if x < presentW new && y < presentH new then
      let diff := s.lumaAt h.frameNew new (4 * x) (4 * y) - s.lumaAt h.frameOld old (4 * x + dx) (4 * y + dy)
      if diff < 0 then - diff else diff
    else 0
  ((List.range 64).map cell).sum

/-- The displacements within 64 pixels, in the order in which ties are broken: smaller |dx| + |dy|, lower dy, lower dx. -/
def displacements : List (Int × Int) :=
  (List.range 513).flatMap fun (j : Nat) => (List.range 513).map fun (i : Nat) => ((i : Int) - 256, (j : Int) - 256)

/-- Whether one displacement goes before another of the same cost. -/
def tieBefore (a b : Int × Int) : Bool :=
  let n := fun (p : Int × Int) => p.1.natAbs + p.2.natAbs
  decide (n a < n b) || (n a == n b && (decide (a.2 < b.2) || (a.2 == b.2 && decide (a.1 < b.1))))

/-- The motion vector of a block. -/
def State.motionOf (s : State) (h : Head) (new old : List Byte) (bx by_ : Nat) : Int × Int :=
  let best := displacements.foldl (fun (b : Option ((Int × Int) × Rat)) m =>
    let cost := s.blockCost h new old bx by_ m.1 m.2
    match b with
    | none => some (m, cost)
    | some x => if cost < x.2 || (cost = x.2 && tieBefore m x.1) then some (m, cost) else some x) none
  (best.map (·.1)).getD (0, 0)

/-- The words of the motion buffer: for each block of 8 by 8 pixels, in raster order, its vector in quarter pixels. See assumption 91. -/
def State.motionWords (s : State) (h : Head) (new old : List Byte) : List Byte :=
  let nx := (presentW new + 7) / 8
  (List.range (nx * ((presentH new + 7) / 8))).flatMap fun i =>
    let m := s.motionOf h new old (i % nx) (i / nx)
    leBytes 4 (wrapN 16 m.1 + wrapN 16 m.2 * 2 ^ 16)

/-- Where the motion buffer of the present in effect lies: two buffers take turns. See assumption 91. -/
def Head.motionAt (h : Head) (new : List Byte) : DWord :=
  h.mvBase + BitVec.ofNat 64 (h.taken % 2 * roundUp (64 + 4 * ((presentW new + 7) / 8) * ((presentH new + 7) / 8)) 128)

/-- MOTION_ESTIMATION: writes the motion buffer of the present in effect, its header last, once both frames have been read; a write that must wait comes
again. See assumptions 89, 91, 112. -/
def State.estimateMotion (s : State) (head : Nat) : State :=
  let h := s.head head
  match h.estimate, h.effect, h.previous, h.grant with
  | some f, some new, some old, some p =>
    if h.boundary.isSome then s
    else
      let va := h.motionAt new.2
      let r := s.headReader p head 4
      match s.frontWrite r (va + 64) (s.motionWords h new.2 old.2) with
      | (s1, .wait) => s1
      | (s1, _) => match s1.frontWrite r va (leBytes 8 f) with
        | (s2, .wait) => s2
        | (s2, _) => (s2.modHead head fun x => { x with estimate := none }).draw
  | _, _, _, _ => s

/-- MOTION_ESTIMATION. See assumption 112. -/
def execMotionEstimation (head : Nat) (s : State) : Host.Outcome State Fault Refusal := .next (s.estimateMotion head)

/-! ### GOVERNOR_INTERVAL (R444) -/

/-- The governor after an interval with an estimate of the core-rail power. See assumption 95. -/
def Gov.interval (g : Gov) (watts : Nat) : Gov :=
  if watts > g.limit then
    if g.level < g.floor then { g with level := g.level + 1, calm := 0 } else { g with clkdn := min (g.clkdn + 1) 8, calm := 0 }
  else if 10 * watts < 9 * g.limit then
    if g.calm + 1 < 16 then { g with calm := g.calm + 1 }
    else if g.clkdn > 0 then { g with clkdn := g.clkdn - 1, calm := 0 }
    else { g with level := g.level - 1, calm := 0 }
  else { g with calm := 0 }

/-- GOVERNOR_INTERVAL. See assumption 95. -/
def execGovernorInterval (watts : Nat) (s : State) : Host.Outcome State Fault Refusal := .next { s with gov := s.gov.interval watts }

end Sys2Proof.Machine
end

