-- ==== Sys2Proof/Machine/Registers.lean ====
section
/-!
DEFINITION. The control registers (R343, R344): what each reads as, and what a write to it does under R5. Reserved bits read 0
and ignore writes.
-/
namespace Sys2Proof.Machine

/-- A value that software writes where bits below a boundary are reserved. -/
def keepHigh (v : DWord) (n : Nat) : DWord := BitVec.ofNat 64 (v.toNat / 2 ^ n * 2 ^ n)

/-! ### Reads -/

/-- A queue register of a partition (R357). -/
def Fq.reg (f : Fq) (k : Nat) : Nat :=
  match k with
  | 0 => f.log2n + f.base.toNat
  | 1 => f.en.toNat + f.dprio * 2 + f.supok.toNat * 16 + f.recover.toNat * 32
  | 2 => f.tail.toNat
  | 3 => f.state + f.stall.toNat * 2 ^ 32
  | 4 => f.cbase.toNat
  | _ => f.wbbase.toNat

/-- GZ_STAT (R276). -/
def Cluster.stat (c : Cluster) : Nat :=
  c.logN.toNat + c.logOvf.toNat * 2 ^ 24 + c.logFlt.toNat * 2 ^ 25 + c.rpl.isSome.toNat * 2 ^ 26 + c.nret % 2 ^ 13 * 2 ^ 32

/-- LA_STAT (R273): the operation at the head of queue 3, when no join holds it back (R105), loads an image, unless the load is skipped (R268) or
cannot take place, or runs the loaded one. See assumption 98. -/
def State.lathStat (s : State) (core : Nat) : Nat :=
  let c := s.core core
  let image := c.lath.image.map fun x => x.1
  let head := c.q3.head?.filter fun e => e.clear s core
  let loading := head.any fun e => match e.kind with
    | .load a reload => reload || !c.holdsImage e.part a
    | .run _ _ _ a _ _ _ _ spoiled => !c.holdsImage e.part a && !spoiled && a.toNat % 512 == 0
    | .marker => false
  let running := head.any fun e => match e.kind with | .run _ _ _ a .. => c.holdsImage e.part a | _ => false
  image.isSome.toNat + loading.toNat * 2 + running.toNat * 4 + (match image with | some a => a.toNat / 512 * 512 | none => 0)

/-- A register of a Lustre head (R430). -/
def State.headReg (s : State) (h : Head) (k : Nat) : Nat :=
  match k with
  | 0 => h.hact.toNat + h.vact.toNat * 2 ^ 16 + h.vtotal.toNat * 2 ^ 32 + h.lclk.toNat * 2 ^ 48
  | 1 => h.en.toNat + h.conn.toNat * 2 + h.dsc.toNat * 8 + h.bpc10.toNat * 16 + h.lead.toNat * 32 + h.gazeLine.toNat * 2 ^ 8 +
      h.poseLine.toNat * 2 ^ 21 + h.kbad.toNat * 2 ^ 34
  | 2 => h.kernel.toNat
  | 3 => h.bandBase.toNat
  | 4 => h.presentDesc.toNat
  | 5 => h.gaze.toNat
  | 6 => h.poseSel.toNat + h.poseValid.toNat * 2 + h.poseBase.toNat
  | 7 => h.latchBase.toNat
  | 8 => h.mvBase.toNat
  | 9 => h.line % 2 ^ 13 + h.frame % 2 ^ 48 * 2 ^ 16
  | 10 => h.fb1.toNat + h.fb2.toNat * 2 ^ 16 + h.fb3.toNat * 2 ^ 32 + h.pdrop.toNat * 2 ^ 48
  | _ => s.gov.level + s.gov.floor * 2 ^ 3 + s.gov.limit * 2 ^ 6 + s.gov.clkdn * 2 ^ 16

/-- A register of the translation block (R386, R408). -/
def State.ptReg (s : State) (part k : Nat) : Nat :=
  let p := s.part part
  match k with
  | 0 => p.ptRoot.toNat
  | 1 => p.fqLog2n + p.fqBase
  | 2 => p.prod.toNat + p.cons.toNat * 2 ^ 32
  | 3 => 0
  | 4 => p.fctl.toNat
  | 5 => p.tokens.length % 2 ^ 16 + ((s.walks.any fun e => e.2.any fun w => w.part = part && w.full).toNat) * 2 ^ 16
  | 6 => p.migDesc.toNat
  | _ => p.migBusy.toNat + p.migResult.toNat * 2

/-- An error-ring register (R418). -/
def ringReg (log2n : Nat) (base : DWord) (prod cons : BitVec 32) (ctl : BitVec 12) (lost : BitVec 32) (k : Nat) : Nat :=
  match k with
  | 1 => log2n + base.toNat
  | 2 => prod.toNat + cons.toNat * 2 ^ 32
  | _ => ctl.toNat + lost.toNat * 2 ^ 16

/-- A counter of a slice (R86, R409). -/
def Slice.counter (x : Slice) (k : Nat) : Nat :=
  match k with
  | 0 => x.merged.toNat
  | 1 => x.followup.toNat
  | 2 => x.guestInv.toNat
  | _ => x.moves.toNat

/-- The value of a control register of an instance. -/
def State.readReg (s : State) (num inst : Nat) : DWord :=
  let k := num % 0x1000
  let p := s.part inst
  BitVec.ofNat 64 (match num / 0x1000 with
  | 0 =>
    if k = 0 then p.tvec.toNat
    else if k = 1 then p.tframe.toNat
    else if k = 2 then p.rt.toNat
    else if k = 3 then p.quantum.toNat
    else (s.fq inst ((k - 0x100) / 8)).reg (k % 8)
  | 2 =>
    let c := s.cluster inst
    (match k with
    | 0 => c.log.toNat
    | 1 => c.tmin.toNat
    | 2 => c.logBase.toNat
    | 3 => c.logLim.toNat
    | _ => c.stat)
  | 3 => s.lathStat inst
  | 4 => s.headReg (s.head inst) k
  | 5 => s.ptReg inst k
  | 6 =>
    (match k with
    | 0 => p.genTbase.toNat
    | 1 => p.genIndex.toNat + p.genOp.toNat * 2 ^ 8 + p.genBusy.toNat * 2 ^ 9 + p.genResult.toNat * 2 ^ 10
    | _ => p.genPerr.toNat)
  | 7 => ringReg p.errLog2n p.errBase p.errProd p.errCons p.errCtl p.errLost k
  | 8 => (s.slice inst).counter k
  | _ => 0)

/-- RCV_STAT (R447); ACTIVE is valid from stage 2. -/
def Device.rcvStat (d : Device) : Nat :=
  d.rcvBusy.toNat + d.rcvResult.toNat * 2 + d.stage % 4 * 2 ^ 4 + (d.activeSlot && decide (d.stage ≥ 2)).toNat * 2 ^ 6 + d.failA.toNat * 2 ^ 7 +
    d.failB.toNat * 2 ^ 10

/-- Whether both firmware slots have failed, so that stage 0 answers and the host reaches only the recovery window (R449). -/
def State.bothFailed (s : State) : Bool := s.dev.stage == 0 && s.dev.failA != 0 && s.dev.failB != 0

/-- 8 bytes of BAR0 of the physical function: the recovery window and the device ring's registers (R418, R447). See assumptions 75, 96. -/
def State.pfRead (s : State) (off : Nat) : List Byte :=
  let d := s.dev
  if off = 0 then leBytes 8 d.rcvCmd.toNat
  else if off = 8 then leBytes 8 d.rcvStat
  else if 0x1000 ≤ off && off < 0x2000 then
    (List.range 8).map fun i => (d.bootLog.get [] ((off - 0x1000) / 64)).getD (off % 64 + i) 0
  else if (off = 0x20000 || off = 0x20008 || off = 0x20010) && !s.bothFailed then
    leBytes 8 (ringReg d.errLog2n d.errBase d.errProd d.errCons d.errCtl d.errLost ((off - 0x20000) / 8 + 1))
  else if 0x100000 ≤ off && off < 0x200000 then (List.range 8).map fun i => d.upload.get 0 (off - 0x100000 + i)
  else leBytes 8 0

/-- 8 bytes of BAR0 of a virtual function: the queue registers of its partition and three registers of the heads that the
partition holds (R357, R391, R429). See assumption 96. -/
def State.vfRead (s : State) (vf off : Nat) : List Byte :=
  let num := (off - 0x10000) / 8
  let head := (off - 0x30000) / 0x100
  let k := (off - 0x30000) / 8 % 32
  match s.partOfVf vf with
  | none => leBytes 8 0
  | some p =>
    if 0x10000 ≤ off && off < 0x10C00 && (num = 2 || num = 3 || (0x100 ≤ num && num % 8 < 6)) then leBytes 8 (s.readReg num p).toNat
    else if 0x30000 ≤ off && off < 0x30400 && (k = 4 || k = 5 || k = 6) && (s.head head).grant = some p then
      leBytes 8 (s.readReg (0x4000 + k) head).toNat
    else leBytes 8 0

/-- The entry of a bucket in the indirection table (R397). -/
def Bucket.entry (b : Bucket) : Nat := b.slice.toNat + b.moving.toNat * 2 ^ 7 + b.valid.toNat * 2 ^ 8

/-- What the mailbox of the physical function answers from stage 2 on to a read of 8 bytes of the indirection table: four entries, that of bucket b at
byte 2 b (R397, R446). See assumption 40. -/
def State.mailboxRead (s : State) (off : Nat) : List Byte :=
  if s.dev.stage < 2 || off + 8 > 2 * Config.buckets then leBytes 8 0 else (List.range 4).flatMap fun i => leBytes 2 (s.bucket (off / 2 + i)).entry

/-! ### Writes -/

/-- Writes FE_QCTL: the fields, then EN, then RETRY (R357, R360, R373). The host cannot change SUPOK. See assumption 97. -/
def State.writeQctl (s : State) (part q x : Nat) (host : Bool) : State :=
  let was := s.fq part q
  let s1 := s.modFq part q fun f => { f with
    dprio := bitsOf x 3 1, supok := if host then f.supok else bitOf x 4, recover := bitOf x 5 }
  let s2 := if bitOf x 0 && !was.en then (if bitOf x 5 then s1.recoverQueue part q else s1.enableQueue part q)
    else if !bitOf x 0 && was.en then s1.disableQueue part q else s1
  if bitOf x 6 then s2.retryQueue part q else s2

/-- Writes a queue register. -/
def State.writeQueue (s : State) (part q k : Nat) (v : DWord) (host : Bool) : State :=
  let f := s.fq part q
  let x := v.toNat
  match k with
  | 0 => if f.en || x % 16 < 4 || x % 16 > 12 then s else s.setFq part q { f with log2n := x % 16, base := keepHigh v 12 }
  | 1 => s.writeQctl part q x host
  | 2 => s.writeTail part q (BitVec.ofNat 32 x)
  | 3 => s
  | 4 => if f.en then s else s.setFq part q { f with cbase := keepHigh v 12 }
  | _ => if f.en then s else s.setFq part q { f with wbbase := keepHigh v 6 }

/-- Writes the partition-level registers of the front end (R345, R357). -/
def State.writeFront (s : State) (part k : Nat) (v : DWord) : State :=
  let p := s.part part
  let x := v.toNat
  match k with
  | 0 => s.setPart part { p with tvec := v &&& ~~~2#64 }
  | 1 =>
    let o := x % 2 ^ 19
    if o % 128 = 0 && o + 0xC00 ≤ 0x50000 then s.setPart part { p with tframe := BitVec.ofNat 64 o } else s
  | 2 => s.setPart part { p with rt := bitOf x 0 }
  | _ => let q := x % 2 ^ 16; if 100 ≤ q && q ≤ 50000 then s.setPart part { p with quantum := BitVec.ofNat 16 q } else s

/-- Writes a Glaze register (R276). -/
def State.writeGlaze (s : State) (cluster k : Nat) (v : DWord) : State :=
  let c := s.cluster cluster
  match k with
  | 0 => s.setCluster cluster { c with log := bitOf v.toNat 0 }
  | 1 => s.setCluster cluster { c with tmin := v.setWidth 32 }
  | 2 => s.setCluster cluster { c with logBase := v }
  | 3 => s.setCluster cluster { c with logLim := v.setWidth 24 }
  | _ => s

/-- Writes LS_CTL (R430, R431). See assumption 87. -/
def State.writeLsCtl (s : State) (head x : Nat) : State :=
  let h := s.head head
  let lines : Head := { h with gazeLine := BitVec.ofNat 13 (bitsOf x 20 8), poseLine := BitVec.ofNat 13 (bitsOf x 33 21) }
  if h.en then
    let s1 := s.setHead head lines
    if bitOf x 0 then s1 else s1.disableHead head
  else
    let all : Head := { lines with
      conn := BitVec.ofNat 2 (bitsOf x 2 1), dsc := bitOf x 3, bpc10 := bitOf x 4, lead := BitVec.ofNat 3 (bitsOf x 7 5) }
    if !bitOf x 0 then s.setHead head all
    else if s.modeOk head all then (s.setHead head all).enableHead head else s

/-- Writes LS_GOV, at machine level only (R430). -/
def State.writeGov (s : State) (x : Nat) : State := { s with gov := { s.gov with floor := bitsOf x 5 3, limit := bitsOf x 15 6 } }

/-- Writes a register of a head. -/
def State.writeHead (s : State) (head k : Nat) (v : DWord) : State :=
  let h := s.head head
  let x := v.toNat
  match k with
  | 0 => if h.en then s else s.setHead head { h with
      hact := BitVec.ofNat 13 x, vact := BitVec.ofNat 13 (x / 2 ^ 16), vtotal := BitVec.ofNat 13 (x / 2 ^ 32), lclk := BitVec.ofNat 16 (x / 2 ^ 48) }
  | 1 => s.writeLsCtl head x
  | 2 => s.loadKernel head v
  | 3 => s.setHead head { h with bandBase := keepHigh v 7 }
  | 4 => s.present head v
  | 5 => s.setHead head { h with gaze := BitVec.ofNat 64 (x % 2 ^ 49) }
  | 6 => s.setHead head { h with poseSel := bitOf x 0, poseValid := bitOf x 1, poseBase := keepHigh v 7 }
  | 7 => s.setHead head { h with latchBase := keepHigh v 8 }
  | 8 => s.setHead head { h with mvBase := keepHigh v 7 }
  | 10 => s.setHead head { h with
      fb1 := BitVec.ofNat 16 x, fb2 := BitVec.ofNat 16 (x / 2 ^ 16), fb3 := BitVec.ofNat 16 (x / 2 ^ 32), pdrop := BitVec.ofNat 16 (x / 2 ^ 48) }
  | 11 => s.writeGov x
  | _ => s

/-- Writes a register of the translation block (R386, R388, R408). See assumption 98. -/
def State.writePt (s : State) (part k : Nat) (v : DWord) : State :=
  let p := s.part part
  let x := v.toNat
  match k with
  | 0 => s.setPart part { p with ptRoot := BitVec.ofNat 64 (x % 2 + bitsOf x 51 12 * 4096) }
  | 1 =>
    let base := bitsOf x 51 12 * 4096
    if !p.tokens.isEmpty || !p.ownsGddr base base || x % 16 < 4 || x % 16 > 12 then s
    else s.setPart part { p with fqLog2n := x % 16, fqBase := base }
  | 2 => s.setPart part { p with cons := BitVec.ofNat 32 (x / 2 ^ 32) }
  | 3 => s.endToken part (BitVec.ofNat 32 x) (bitOf x 32)
  | 4 => s.setPart part { p with fctl := BitVec.ofNat 64 (x % 2 ^ 12) }
  | 6 => if p.migBusy then s else s.setPart part { p with migDesc := BitVec.ofNat 64 (bitsOf x 51 6 * 64), migBusy := true }
  | _ => s

/-- Writes a register of the generator block; a command starts at the write (R289, R352). -/
def State.writeGen (s : State) (part k : Nat) (v : DWord) : State :=
  let p := s.part part
  let x := v.toNat
  match k with
  | 0 => s.setPart part { p with genTbase := BitVec.ofNat 64 (x % 2 ^ 52) }
  | 1 =>
    if p.genBusy then s
    else
      let s1 := s.setPart part { p with genIndex := BitVec.ofNat 8 x, genOp := bitOf x 8, genBusy := true }
      if bitOf x 8 then s1.closeGen part else s1.loadGen part
  | _ => s.setPart part { p with genPerr := BitVec.ofNat 32 x }

/-- Writes an error-ring register of a partition; room in the ring takes buffered records (R418). -/
def State.writeSec (s : State) (part k : Nat) (v : DWord) : State :=
  let p := s.part part
  let x := v.toNat
  match k with
  | 1 => if x % 16 < 4 || x % 16 > 12 then s else s.setPart part { p with errLog2n := x % 16, errBase := keepHigh v 12 }
  | 2 => (s.setPart part { p with errCons := BitVec.ofNat 32 (x / 2 ^ 32) }).drainPart part
  | _ => s.setPart part { p with errCtl := BitVec.ofNat 12 x, errLost := p.errLost &&& ~~~(BitVec.ofNat 32 (x / 2 ^ 16)) }

/-- Writes an error-ring register of the device. -/
def State.writeDevRing (s : State) (k : Nat) (v : DWord) : State :=
  let d := s.dev
  let x := v.toNat
  match k with
  | 1 => if x % 16 < 4 || x % 16 > 12 then s else { s with dev := { d with errLog2n := x % 16, errBase := keepHigh v 12 } }
  | 2 => ({ s with dev := { d with errCons := BitVec.ofNat 32 (x / 2 ^ 32) } } : State).drainDevice
  | _ => { s with dev := { d with errCtl := BitVec.ofNat 12 x, errLost := d.errLost &&& ~~~(BitVec.ofNat 32 (x / 2 ^ 16)) } }

/-- Writes a counter of a slice. -/
def State.writeCounter (s : State) (slice k : Nat) (v : DWord) : State :=
  let x := s.slice slice
  match k with
  | 0 => s.setSlice slice { x with merged := v.setWidth 32 }
  | 1 => s.setSlice slice { x with followup := v.setWidth 32 }
  | 2 => s.setSlice slice { x with guestInv := v.setWidth 32 }
  | _ => s.setSlice slice { x with moves := v.setWidth 16 }

/-- Writes a control register of an instance. -/
def State.writeReg (s : State) (num inst : Nat) (v : DWord) (host : Bool) : State :=
  let k := num % 0x1000
  match num / 0x1000 with
  | 0 => if k < 4 then s.writeFront inst k v else s.writeQueue inst ((k - 0x100) / 8) (k % 8) v host
  | 2 => s.writeGlaze inst k v
  | 4 => s.writeHead inst k v
  | 5 => s.writePt inst k v
  | 6 => s.writeGen inst k v
  | 7 => s.writeSec inst k v
  | 8 => s.writeCounter inst k v
  | _ => s

/-! ### The checks of R344 -/

/-- Whether a block has the partition as its instance. -/
def partBlock (num : Nat) : Bool := [0, 5, 6, 7].contains (num / 0x1000)

/-- Whether an instance exists for a block. -/
def instExists (num inst : Nat) : Bool :=
  match num / 0x1000 with
  | 1 => decide (inst < 192) && inst % 2 == 0
  | 2 => decide (inst < 48)
  | 3 => decide (inst < 192)
  | 4 => decide (inst < 4)
  | 8 => decide (inst < 96)
  | _ => false

/-- Whether a register is at machine level for an access. -/
def machineReg (num : Nat) (write : Bool) : Bool := num == 2 || num == 3 || (num == 0x400B && write)

/-- Whether an instance belongs to a partition. -/
def State.instOwned (s : State) (part num inst : Nat) : Bool :=
  let p := s.part part
  match num / 0x1000 with
  | 1 => p.hasCore inst
  | 2 => p.clusters.getLsbD inst
  | 3 => p.hasCore inst
  | 4 => (s.head inst).grant == some part
  | 8 => (List.range p.buckets).any fun i => (s.bucket (p.bktBase + i)).slice.toNat = inst
  | _ => true

/-- The issuing core's own instance (R343). -/
def ownInst (num core part : Nat) : Nat :=
  match num / 0x1000 with
  | 1 => core / 2 * 2
  | 2 => Config.clusterOf core
  | 3 => core
  | 4 => 0
  | 8 => 32 * Config.sectorOf core
  | _ => part

/-! ### CONTROL_REGISTER_WRITE -/

/-- A write through BAR0 of a virtual function: the queue registers of its partition, and three registers of the heads that the
partition holds (R357, R391, R429). See assumption 96. -/
def State.vfWrite (s : State) (vf num inst : Nat) (v : DWord) : State :=
  match s.partOfVf vf with
  | none => s
  | some p =>
    if 0x100 ≤ num && num < 0x180 && num % 8 < 6 then s.writeReg num p v true
    else if (num = 0x4004 || num = 0x4005 || num = 0x4006) && inst < 4 && (s.head inst).grant = some p then s.writeReg num inst v true
    else s

/-- A write of 8 bytes through BAR0 of a virtual function, at an offset: the queue registers from 0x10000 on, and those of head h from
0x30000 + 0x100 h on (R357, R429). See assumption 96. -/
def State.vfWriteAt (s : State) (vf off : Nat) (v : DWord) : State :=
  if 0x10000 ≤ off && off < 0x10C00 then s.vfWrite vf ((off - 0x10000) / 8) 0 v
  else if 0x30000 ≤ off && off < 0x30400 then s.vfWrite vf (0x4000 + (off - 0x30000) % 0x100 / 8) ((off - 0x30000) / 0x100) v
  else s

/-- The fields of RCV_CMD: the reserved bits read 0. -/
def rcvFields (cmd : DWord) : DWord := cmd &&& 0x3FFF1F#64

/-- A write of RCV_CMD: it starts a command when its OP names one, and is ignored while a command is in progress (R447). -/
def State.rcvStart (s : State) (v : DWord) : State :=
  let op := v.toNat % 16
  if s.dev.rcvBusy || s.dev.power = .d3cold then s
  else { s with dev := { s.dev with rcvCmd := rcvFields v, rcvBusy := decide (1 ≤ op) && decide (op ≤ 3), rcvAt := 0 } }

/-- A write of 8 bytes through BAR0 of the physical function, at an offset: RCV_CMD and the upload buffer (R447), and the device ring's registers
(R418). See assumption 96. -/
def State.pfWrite (s : State) (off : Nat) (v : DWord) : State :=
  if off = 0 then s.rcvStart v
  else if (off = 0x20000 || off = 0x20008 || off = 0x20010) && !s.bothFailed then s.writeDevRing ((off - 0x20000) / 8 + 1) v
  else if 0x100000 ≤ off && off + 8 ≤ 0x200000 then
    let put := fun (t : Tab Byte) (b : Byte × Nat) => t.put (off - 0x100000 + b.2) b.1
    { s with dev := { s.dev with upload := (leBytes 8 v.toNat).zipIdx.foldl put s.dev.upload } }
  else s

/-- CONTROL_REGISTER_WRITE: through BAR0 of a virtual function; through BAR0 of the physical function, where `inst` is the byte
offset; or at machine level, which reaches every register (R342). See assumption 96. -/
def execControlRegisterWrite (port : Port) (num : BitVec 16) (inst : Nat) (value : BitVec 64) (s : State) : Host.Outcome State Fault Refusal :=
  .next (let n := num.toNat
    match port with
    | .vf vf => s.vfWrite vf n inst value
    | .pf => s.pfWrite inst value
    | .machine =>
      if crAssigned n && (if partBlock n then decide (inst < 32) else instExists n inst) then s.writeReg n inst value false else s)

end Sys2Proof.Machine
end

