-- ==== Sys2Proof/Machine/Privileged.lean ====
section
/-!
DEFINITION. Group 7 (R350 to R356): system calls, the return from the handler, control registers, translations and other
waves.
-/
namespace Sys2Proof.Machine

/-- SYSCALL: takes trap SYSCALL; at supervisor level it kills the wave (R351, R347). -/
def execSyscall (o : Ops) (code : BitVec 16) (s : State) : Host.Outcome State Fault Refusal :=
  withCtx s fun c => c.uniform o.guard [] (c.trap { cause := 14, code := code.toNat })

/-- ERET writes s60 to s63, for whose earlier producers it waits (R49). -/
def eretUses : List Use := (List.range 4).flatMap fun i => usesOf (.s (BitVec.ofNat 6 (60 + i))) false false false true false fun _ => none

/-- ERET: the return from the handler (R351). -/
def execEret (o : Ops) (s : State) : Host.Outcome State Fault Refusal :=
  withCtx s fun c => c.uniform o.guard (if c.f.handler then eretUses else []) c.eret

/-! ### CRRD and CRWR (R344, R352) -/

/-- Checks an access and gives the instance that it names. -/
def Ctx.crAccess (c : Ctx) (o : Ops) (num : Nat) (write : Bool) (k : Nat → State) : State :=
  let window := c.trap { cause := 7, oper := o.a.bits.toNat }
  let go := fun (inst : Nat) =>
    if machineReg num write || !c.s.instOwned c.w.part num inst then c.trap Trap.priv else k inst
  match o.a with
  | .s n =>
    let x := (c.w.s n.toNat).val.toNat
    if x / 256 ≠ 0 || partBlock num || !instExists num x then window else go x
  | _ => go (ownInst num c.core c.w.part)

/-- CRRD. -/
def execCrrd (o : Ops) (num : BitVec 16) (s : State) : Host.Outcome State Fault Refusal :=
  withCtx s fun c => c.uniform o.guard (scalarUse o.a o.feA ++ scalarDst o) (
    c.crAccess o num.toNat false fun inst => c.done (c.w.putDst o.dst (c.s.readReg num.toNat inst)))

/-- CRWR: waits as FENCE.device does, then writes. -/
def execCrwr (o : Ops) (num : BitVec 16) (s : State) : Host.Outcome State Fault Refusal :=
  withCtx s fun c => c.uniform o.guard (scalarUse o.a o.feA ++ scalarUse o.b o.feB) (
    c.crAccess o num.toNat true fun inst =>
      let c1 := c.spoil
      c1.drained (
        let k := c1.s.core c1.core
        let s1 := (c1.s.setCore c1.core k.l1Clear).fenceWave c1.core c1.slot
        c1.next (s1.writeReg num.toNat inst (c.w.scalar o.b) false)))

/-! ### Translations (R353, R354) -/

/-- Drops a partition's translations of a range at a scope. -/
def Ctx.dropTlbs (c : Ctx) (scope : TScope) (lo hi : Nat) : State :=
  let mine := Config.clusterOf c.core
  match scope with
  | .core => c.s.dropTlb c.w.part lo hi (fun k => k == c.core) fun _ => false
  | .cluster => c.s.dropTlb c.w.part lo hi (fun k => Config.clusterOf k == mine) fun k => k == mine
  | .device => c.s.dropAllTlb c.w.part lo hi

/-- TLBI. -/
def execTlbi (o : Ops) (all : Bool) (scope : TScope) (s : State) : Host.Outcome State Fault Refusal :=
  withCtx s fun c => c.uniform o.guard (scalarUse o.a o.feA ++ scalarUse o.b o.feB) (
    if all then c.next (c.dropTlbs scope 0 (2 ^ 64))
    else
      let base := (c.w.scalar o.a).toNat % 2 ^ 57
      let len := (c.w.scalar o.b).toNat
      if len / 2 ^ 40 ≠ 0 then c.trap { cause := 7, oper := o.b.bits.toNat }
      else if len = 0 then c.next c.s
      else c.next (c.dropTlbs scope (base / 4096 * 4096) (roundUp (base + len) 4096)))

/-- The fields of a TLBP result that describe a leaf and a byte. See assumption 99. -/
def leafFields (e : TlbEntry) (pa : Nat) : Nat :=
  e.size * 2 ^ 4 + (isTile e.leaf).toNat * 2 ^ 6 + (bitOf e.leaf.toNat 3).toNat * 2 ^ 7 + (bitOf e.leaf.toNat 6).toNat * 2 ^ 8 +
    bitsOf pa 51 12 * 2 ^ 12

/-- What TLBP finds for an address. See assumption 99. -/
def State.probe (s : State) (core part : Nat) (write : Bool) (va : DWord) : Nat :=
  let v := va.toNat % 2 ^ 57
  let k : AccessKind := ⟨write, false, false⟩
  let leaf := fun (e : TlbEntry) (x : Nat) => match e.phys v with
    | some pa => x + leafFields e pa
    | none => 1 * 2
  let walked := fun (_ : Unit) => match s.walk part k va with
    | .leaf e => leaf e 1
    | .stop cls recover _ _ _ refused =>
      let x := cls * 2 + recover.toNat * 2 ^ 10
      (match refused with | some e => leaf e x | none => x)
  if !canonical va then 4 * 2
  else if (s.genAt part va.toNat).isSome then 2 ^ 9
  else
    match tlbFind (s.core core).tlb part v, tlbFind (s.cluster (Config.clusterOf core)).tlb part v with
    | some e, _ => if e.permits k then leaf e 1 else walked ()
    | none, some e => if e.permits k then leaf e 1 else walked ()
    | none, none => walked ()

/-- TLBP. See assumption 99. -/
def execTlbp (o : Ops) (w : Bool) (s : State) : Host.Outcome State Fault Refusal :=
  withCtx s fun c => c.uniform o.guard (scalarUse o.a o.feA ++ scalarDst o) (
    c.done (c.w.putDst o.dst (BitVec.ofNat 64 (c.s.probe c.core c.w.part w (c.w.scalar o.a)))))

/-! ### Other waves (R355, R356) -/

/-- The core of a handle. -/
def handleCore (h : Nat) : Nat := h % 256
/-- The wave slot of a handle. -/
def handleSlot (h : Nat) : Nat := 6 * bitsOf h 9 8 + bitsOf h 12 10

/-- Whether a handle can name a wave of a partition. -/
def Partition.handleOk (p : Partition) (h : Nat) : Bool := p.hasCore (handleCore h) && bitsOf h 15 13 == 0 && decide (bitsOf h 12 10 ≤ 5)

/-- The wave that a handle names on its core. -/
def State.target (s : State) (part h : Nat) : Option Wave :=
  if s.handleOf (handleCore h) (handleSlot h) = h then (s.wave? (handleCore h) (handleSlot h)).filter fun w => w.part = part else none

/-- Acts on a core of a partition, wherever the state that the partition has there now is (R392). See assumption 100. -/
def State.onTarget (s : State) (part core : Nat) (f : State → State) : State :=
  if s.hasTurn part core then f s else s.inContext part core f

/-- The target of a handle, also while its partition is swapped out. See assumption 100. -/
def State.findTarget (s : State) (part h : Nat) : Option Wave :=
  let k := handleCore h
  if s.hasTurn part k then s.target part h
  else match (s.part part).context.bind fun x => x.cores.find k with
    | some saved => (s.setCore k saved).target part h
    | none => none

/-- Runs an operation of a handle, whose result goes to sd. -/
def Ctx.onHandle (c : Ctx) (o : Ops) (own : Bool) (k : Nat → Option Wave → State) : State :=
  c.uniform o.guard (scalarUse o.a o.feA ++ scalarDst o) (
    let h := (c.w.scalar o.a).toNat % 2 ^ 32
    if !c.part.handleOk h || (own && h = c.s.handleOf c.core c.slot) then c.trap { cause := 7, oper := o.a.bits.toNat }
    else k h (c.s.findTarget c.w.part h))

/-- Writes a result and moves on, in a state in which the target has been acted on. -/
def Ctx.answer (c : Ctx) (o : Ops) (s : State) (x : Nat) : State :=
  c.next (s.modWave c.core c.slot fun w => w.putDst o.dst (BitVec.ofNat 64 x))

/-- Suspends or releases the target of a handle. -/
def State.suspend (s : State) (part h : Nat) (stop : Bool) : State :=
  s.onTarget part (handleCore h) fun st => st.modWave (handleCore h) (handleSlot h) fun w => { w with suspended := stop }

/-- WKILL: the record names the issuing handle. A wave that kills itself has nothing left to write. See assumption 100. -/
def execWkill (o : Ops) (s : State) : Host.Outcome State Fault Refusal :=
  withCtx s fun c => c.onHandle o false fun h target =>
    match target with
    | none => c.answer o c.s 1
    | some w =>
      let r : ErrRec := { source := 17, sev := 2, issuer := some (c.s.handleOf c.core c.slot) }
      let s1 := c.s.onTarget c.w.part (handleCore h) fun st => st.killWave (handleCore h) (handleSlot h) r
      if w.uid = c.w.uid then s1 else c.answer o s1 0

/-- WSUSP. -/
def execWsusp (o : Ops) (s : State) : Host.Outcome State Fault Refusal :=
  withCtx s fun c => c.onHandle o true fun h target =>
    match target with
    | none => c.answer o c.s 1
    | some w => if w.suspended then c.answer o c.s 2 else c.answer o (c.s.suspend c.w.part h true) 0

/-- WRESM. -/
def execWresm (o : Ops) (s : State) : Host.Outcome State Fault Refusal :=
  withCtx s fun c => c.onHandle o false fun h target =>
    match target with
    | none => c.answer o c.s 1
    | some w => if w.suspended then c.answer o (c.s.suspend c.w.part h false) 0 else c.answer o c.s 2

/-- HALT: the event record, and the wave is suspended after this instruction. See assumption 101. -/
def execHalt (o : Ops) (code : BitVec 16) (s : State) : Host.Outcome State Fault Refusal :=
  withCtx s fun c => c.uniform o.guard [] (
    let s1 := c.s.record { source := 20, sev := 1, unit := c.core, part := some c.w.part, handle := c.s.handleOf c.core c.slot
                           addr := c.f.pc.toNat, info := code.toNat }
    (c.next s1).modWave c.core c.slot fun w => { w with suspended := true })

/-- RESUME_COMMAND: the front end lets the wave of a handle go on. -/
def execResumeCommand (handle : BitVec 32) (s : State) : Host.Outcome State Fault Refusal :=
  .next (let h := handle.toNat
    let go := fun (st : State) => if st.handleOf (handleCore h) (handleSlot h) = h then
      st.modWave (handleCore h) (handleSlot h) fun w => { w with suspended := false } else st
    (s.parts.map (·.1)).foldl (fun (st : State) p => st.inContext p (handleCore h) go) (go s))

end Sys2Proof.Machine
end

