-- ==== Sys2Proof/Machine/Reliability.lean ====
section
/-!
DEFINITION. Errors that the environment brings about (R395, R410 to R416, R419, R422), accesses over the host link, and the size
of the victim store (R405).
-/
namespace Sys2Proof.Machine

/-! ### SCRUB_READ (R412, R414 to R416) -/

/-- The slice that holds a copy of a line, named by its number or by the line, with the copy's number and marks. -/
def State.lineIn (s : State) (line : Nat) : Option (Nat × Nat × Line) :=
  s.slices.findSome? fun e => (e.2.lines.find? fun x => x.1 = line || copyLine x.1 = line).map fun x => (e.1, x.1, x.2)

/-- A GDDR block becomes poisoned: at once, or beneath an LLC copy, which will overwrite it when it is dirty. -/
def State.poisonBlock (s : State) (block : Nat) : State :=
  match s.lineIn (block / 2) with
  | some _ => if s.latent.contains block then s else { s with latent := s.latent ++ [block] }
  | none => s.markWords ((List.range 8).map fun i => 8 * block + i) true

/-- Whether a GDDR block is poisoned already, so that it sends no further record (R412). -/
def State.blockPoisoned (s : State) (block : Nat) : Bool :=
  s.latent.contains block || ((s.lineIn (block / 2)).isNone && (List.range 8).any fun i => s.poison.contains (8 * block + i))

/-- The outcome of a read of a GDDR block by its check. -/
def State.scrubGddr (s : State) (addr : Nat) (f : Finding) : State :=
  let block := addr / 64
  let rec_ := fun (source sev : Nat) =>
    s.record { source := source, sev := sev, unit := Config.channelOf addr % 16, part := s.gddrOwner addr, addr := block * 64 }
  if !inGddr addr || s.blockPoisoned block then s
  else match f with
    | .clean => s
    | .corrected => rec_ 11 0
    | .uncorrectable => (rec_ 6 1).poisonBlock block
    | .tagMismatch => (rec_ 7 1).poisonBlock block

/-- The outcome of a read of a generated line in the LLC: it is clean, so that one that cannot be corrected is dropped, and filled again (R410, R414). -/
def State.scrubGen (s : State) (part line : Nat) (f : Finding) : State :=
  match s.genLine part line with
  | none => s
  | some g =>
    let rec_ := fun (source sev : Nat) =>
      s.record { source := source, sev := sev, unit := s.home part (.gen part line), part := some part, addr := line * 128 }
    if g.state == .filling then s
    else match f with
      | .corrected => rec_ 11 0
      | .uncorrectable => ((rec_ 3 1).forgetGuests (LineKey.gen part line).code).setGenLine part line none
      | _ => s

/-- The outcome of a read of an LLC line by its check: `addr` names the 64-bit word of a line of memory, or from 2^64 on a generated line by its
partition and number. See assumption 103. -/
def State.scrubLlc (s : State) (addr : Nat) (f : Finding) : State :=
  if addr ≥ 2 ^ 64 then s.scrubGen ((addr - 2 ^ 64) / 128 % 32) ((addr - 2 ^ 64) / 4096) f
  else match s.lineIn (addr / 128) with
  | none => s
  | some (h, n, x) =>
    let word := copyLine n * 16 + addr % 128 / 8
    let rec_ := fun (source sev : Nat) => s.record { source := source, sev := sev, unit := h, part := some x.charge, addr := 8 * word }
    match f with
    | .corrected => rec_ 11 0
    | .uncorrectable => if x.dirty then (rec_ 3 1).markWords [word] true else (rec_ 3 1).dropLine h n
    | _ => s

/-- A core whose store is poisoned, and the record of it (R410, R417): a corrected error changes no value. See assumption 103. -/
def State.coreUpset (s : State) (core source handle lane : Nat) (corrected : Bool) (poisoned : State) : State :=
  let r : ErrRec := { source := source, sev := 1, unit := core, part := s.partAt core, handle := handle, lane := lane }
  if corrected then s.record { r with source := 11, sev := 0 } else poisoned.record r

/-- A register file or scratchpad word whose check fails when it is read (R410): corrected in place, or poisoned with origin
DATA for that thread or that word. A register that nobody holds has no word. See assumption 103. -/
def State.storeUpset (s : State) (u : StoreUpset) (corrected : Bool) : State :=
  let c := fun (core : Nat) => s.core core
  let wave := fun (core slot thread : Nat) (holds : Wave → Bool) (f : Wave → Wave) =>
    match s.wave? core slot with
    | some w => if holds w && thread < w.width then
        s.coreUpset core 4 (s.handleOf core slot) (thread % 32 + slot / 6 * 32) corrected (s.setWave core slot (f w)) else s
    | none => s
  match u with
  | .vreg core slot reg thread => wave core slot thread (fun w => reg < 16 * w.blocks) fun w =>
      let v := w.v reg
      w.setV reg { v with poison := v.poison ||| Mask.one thread, origin := .data }
  | .sreg core slot reg => wave core slot 0 (fun _ => reg < 64) fun w => w.setS reg { w.s reg with poison := true, origin := .data }
  | .pred core slot reg thread => wave core slot thread (fun _ => reg < 7) fun w =>
      let p := w.p reg
      w.setP reg { p with poison := p.poison ||| Mask.one thread, origin := .data }
  | .scratch core word =>
    if core < Config.allCores && 4 * word < Config.scratchEnd core then
      s.coreUpset core 5 0 0 corrected (s.setCore core { c core with spoison := word :: (c core).spoison.filter (· ≠ word) })
    else s
  | .tile core n word =>
    if core < Config.mainCores && n < 8 && word < 2048 then
      let x := Tab.get Tile.fresh (c core).tiles n
      s.coreUpset core 4 0 0 corrected (s.setCore core { c core with tiles := (c core).tiles.put n { x with poison := x.poison.put word .data } })
    else s
  | .acc core n elem =>
    if core < Config.mainCores && n < 4 && elem < 1024 then
      let x := Tab.get Acc.fresh (c core).accs n
      s.coreUpset core 4 0 0 corrected (s.setCore core { c core with accs := (c core).accs.put n { x with poison := elem :: x.poison.filter (· ≠ elem) } })
    else s

/-- SCRUB_READ. A demand read classifies errors in the same way. -/
def execScrubRead (store : ScrubStore) (addr : Nat) (finding : Finding) (s : State) : Host.Outcome State Fault Refusal :=
  .next (match store with | .llc => s.scrubLlc addr finding | .gddr => s.scrubGddr addr finding)

/-! ### Lanes and links -/

/-- LANE_COUNT_CLEAR: the outvote counts of a core clear (R419). -/
def execLaneCountClear (core : Nat) (s : State) : Host.Outcome State Fault Refusal :=
  .next (s.setCore core { s.core core with outv := [], susp := [] })

/-- The number of failures in a row of the packet that fails now. See assumption 102. -/
def State.failures (s : State) (before : Nat) : Nat := if Config.samePacket s.freeCtr then before + 1 else 1

/-- RING_PACKET_ERROR: the packet is sent again; its fourth failure in a row fails the link direction (R395). See assumption 102. -/
def execRingPacketError (link : Nat) (s : State) : Host.Outcome State Fault Refusal :=
  .next (let x := s.links.get ⟨false, 0⟩ link
    let n := s.failures x.retries
    if x.failed then s
    else if n ≥ 4 then
      (({ s with links := s.links.put link ⟨true, 0⟩ } : State).record { source := 2, sev := 4, unit := link }).draw
    else ({ s with links := s.links.put link ⟨false, n⟩ } : State).draw)

/-- FLIT_PARITY_ERROR: the flit is sent again from the last router that checked it; it never delivers its payload twice (R395). -/
def execFlitParityError (link : Nat) (s : State) : Host.Outcome State Fault Refusal :=
  .next (let _ := link; s)

/-- Launches that have an operation under way on a failed channel are faulted (R371). -/
def State.faultTouching (s : State) : State :=
  s.cores.foldl (fun (st : State) e => e.2.memq.foldl (fun (u : State) m => u.noteChannel e.1 m) st) s

/-- GDDR_LINK_ERROR: the transfer is retried up to 8 times; then the channel is declared failed (R410, R413). See assumption 102. -/
def execGddrLinkError (chan : Nat) (s : State) : Host.Outcome State Fault Refusal :=
  .next (let x := s.channels.get ⟨false, 0⟩ chan
    let n := s.failures x.retries
    if x.failed then s
    else if n ≥ 9 then
      ((({ s with channels := s.channels.put chan ⟨true, 0⟩ } : State).record { source := 9, sev := 4, unit := chan }).faultTouching).draw
    else (({ s with channels := s.channels.put chan ⟨false, n⟩ } : State).record { source := 8, sev := 0, unit := chan }).draw)

/-- IDE_INTEGRITY_FAILURE: the stream ends, with one record; later packets on it are dropped (R410, R422). See assumption 128. -/
def execIdeIntegrityFailure (stream : Nat) (s : State) : Host.Outcome State Fault Refusal :=
  .next (if s.dev.ideEnded.contains stream then s
    else ({ s with dev := { s.dev with ideEnded := s.dev.ideEnded ++ [stream] } } : State).record { source := 1, sev := 1 })

/-- PCIE_LINK_ERROR: corrected by replay or FEC, or the link retrains; a LINK record is sent (R410). -/
def execPcieLinkError (corrected : Bool) (s : State) : Host.Outcome State Fault Refusal :=
  .next (if corrected then s.record { source := 0, sev := 0 }
    else ({ s with dev := { s.dev with linkRetrains := s.dev.linkRetrains + 1 } } : State).record { source := 0, sev := 1 })

/-! ### HOST_LINK_ACCESS (R100, R104, R310, R400) -/

/-- A write by the host or a peer: to memory of the device once the GDDR channels have been trained (R446), where the lines' guests go first and it is
performed at the slices, or to host memory, of which copies in the device may exist (R404). One that finds no space comes again. See assumptions
21, 40. See assumptions 21, 40. -/
def State.hostWrite (s : State) (addr : Nat) (bs : List Byte) : State :=
  let p := (s.gddrOwner addr).getD 0
  let lines := (List.range ((addr % 128 + bs.length + 127) / 128)).map fun i => addr / 128 + i
  if inHost addr && inHost (addr + bs.length) then
    let ws := bs.zipIdx.map fun (b, i) => (⟨addr + i, b, 0xFF⟩ : ByteWrite)
    let s1 : State := { s with mem := s.mem.writeBytes addr bs }
    lines.foldl (fun (st : State) l => st.breakReservations l none) (if s1.poison.isEmpty then s1 else s1.markWords (fullWords ws) false)
  else if s.dev.stage < 1 || !inGddr addr || !inGddr (addr + bs.length) || lines.any (fun l => s.moving p (.phys l)) || !s.touchable p lines then s
  else s.writePhys p addr bs false

/-- A write of 8 bytes through BAR0 of a function: 0 is the physical one, n the virtual function n − 1. See assumption 40. -/
def State.barWrite (s : State) (fn off : Nat) (bs : List Byte) : State :=
  let v : DWord := BitVec.ofNat 64 (leNat bs)
  if bs.length ≠ 8 || off % 8 ≠ 0 then s else if fn = 0 then s.pfWrite off v else if fn ≤ 256 then s.vfWriteAt (fn - 1) off v else s

/-- A read by the host through BAR0: of the physical function for number 0, of virtual function n − 1 for a number n up to 256; number 257 is the mailbox of
the physical function. See assumption 40. -/
def State.barRead (s : State) (fn off : Nat) : State :=
  let bs := if fn = 0 then s.pfRead off else if fn = 257 then s.mailboxRead off else s.vfRead (fn - 1) off
  { s with dev := { s.dev with linkAnswer := bs } }

/-- A read of device memory by the host or a peer, once the GDDR channels have been trained: the aligned 8 bytes that hold an address; poisoned ones
carry no value of memory. See assumption 40. -/
def State.hostRead (s : State) (addr : Nat) : State :=
  let p := (s.gddrOwner addr).getD 0
  let a := addr / 8 * 8
  if s.dev.stage < 1 || !inGddr addr || s.moving p (.phys (addr / 128)) then s
  else match s.touchLine? p (addr / 128) id with
  | none => s
  | some s1 =>
    let bs := if s1.wordPoisoned a then (List.range 8).map fun i => Config.unread (s.freeCtr + i) else s1.mem.readBytes a 8
    ({ s1 with dev := { s1.dev with linkAnswer := bs } } : State).draw

/-- Whether an access travels on an IDE stream that has ended: it is dropped (R410, R422). See assumption 128. See assumption 141. -/
def State.linkDrops (s : State) (addr : Nat) : Bool := !s.dev.ideEnded.isEmpty && (Config.ideStream addr).any s.dev.ideEnded.contains

/-- HOST_LINK_ACCESS: a write of bytes, or a read; an address from 2^52 on, which no memory has, stands for BAR0 of the functions,
2^52 bytes each (assumption 40). See assumption 21. See assumption 128. -/
def execHostLinkAccess (addr : Nat) (data : Option (List (BitVec 8))) (s : State) : Host.Outcome State Fault Refusal :=
  .next (if s.linkDrops addr || s.dev.power = .d3cold then s
    else match data with
    | some bs => if addr < 2 ^ 52 then s.hostWrite addr bs else s.barWrite (addr / 2 ^ 52 - 1) (addr % 2 ^ 52) bs
    | none => if addr < 2 ^ 52 then s.hostRead addr else s.barRead (addr / 2 ^ 52 - 1) (addr % 2 ^ 52 / 8 * 8))

/-! ### VICTIM_STORE_SIZING (R405, R446) -/

/-- VICTIM_STORE_SIZING: at stage 3 the driver gives the victim store a region of GDDR outside every partition's range. See assumption 84. -/
def execVictimStoreSizing (base len : Nat) (s : State) : Host.Outcome State Fault Refusal :=
  .next (let free := s.parts.all fun p => !p.2.valid || decide (base + len ≤ p.2.gddrBase) || decide (p.2.gddrBase + p.2.gddrLen ≤ base)
    if s.dev.stage < 2 || !s.dev.railOn || !free || base + len > 0x1000000000 then s
    else { s with victims := [], dev := { s.dev with stage := 3, victimBase := base, victimLen := len } })

end Sys2Proof.Machine
end

