-- ==== Sys2Proof/Machine/Security.lean ====
section
/-!
DEFINITION. Attestation and debug (R423 to R427): the SPDM responder, debug tokens, and what an attached debugger asks for.
-/
namespace Sys2Proof.Machine

/-! ### The responder (R423, R424, R449) -/

/-- Whether a requester exists: the physical function, or a virtual function of a valid partition. -/
def State.requesterOk (s : State) : Requester → Bool
  | .pf => true
  | .vf n => (s.partOfVf n).isSome

/-- Answers a request from stage 2 on. See assumption 104. -/
def State.respond (s : State) (r : SpdmReq) (a : SpdmAnswer) : State :=
  if s.dev.stage ≥ 2 && s.requesterOk r.from_ then { s with dev := { s.dev with answers := s.dev.answers ++ [a] } } else s

/-- Answers a request that stage 0 also answers when both slots have failed. See assumption 104. -/
def State.respondAlways (s : State) (r : SpdmReq) (a : SpdmAnswer) : State :=
  if s.bothFailed && r.from_ == .pf then { s with dev := { s.dev with answers := s.dev.answers ++ [a] } } else s.respond r a

/-- GET_VERSION. -/
def execGetVersion (req : SpdmReq) (s : State) : Host.Outcome State Fault Refusal := .next (s.respond req .version)
/-- GET_CAPABILITIES. -/
def execGetCapabilities (req : SpdmReq) (s : State) : Host.Outcome State Fault Refusal := .next (s.respond req .capabilities)
/-- NEGOTIATE_ALGORITHMS: ECDSA P-384, SHA-384, ECDHE on P-384 and AES-256-GCM are the only ones. -/
def execNegotiateAlgorithms (req : SpdmReq) (s : State) : Host.Outcome State Fault Refusal := .next (s.respond req .algorithms)

/-- The public key of a private one. See assumption 105. -/
def publicOf (key : BitVec 384) : BitVec 384 := Config.digest (key.toNat + 2 ^ 768)

/-- The certificate chain of slot 0 (R423): from the vendor's root, or on a development device the development root (R426), over the model CA and the
device to the alias key, once stage 1 has derived it. See assumption 105. -/
def State.chain (s : State) : List Certificate :=
  let d := s.dev
  let dev := d.security == .development
  [⟨if dev then .developmentRoot else .vendorRoot, Config.caKey (if dev then 1 else 0)⟩, ⟨.modelCa, Config.caKey 2⟩, ⟨.device, publicOf d.identity⟩] ++
    if d.stage = 0 then [] else [⟨.aliasKey, publicOf d.aliasKey⟩]

/-- A certificate as a number. -/
def Certificate.code (c : Certificate) : Nat :=
  (match c.role with | .vendorRoot => 0 | .developmentRoot => 1 | .modelCa => 2 | .device => 3 | .aliasKey => 4) + c.key.toNat * 8

/-- The digest of the certificate chain of slot 0. -/
def State.chainDigest (s : State) : BitVec 384 := Config.digest (s.chain.foldl (fun (n : Nat) c => n * 2 ^ 387 + c.code) 1)

/-- GET_DIGESTS. -/
def execGetDigests (req : SpdmReq) (s : State) : Host.Outcome State Fault Refusal := .next (s.respondAlways req (.digests s.chainDigest))

/-- GET_CERTIFICATE: slot 0 holds the chain. -/
def execGetCertificate (req : SpdmReq) (s : State) : Host.Outcome State Fault Refusal :=
  .next (s.respondAlways req (if req.slot = 0 then .certificate s.chain else .error))

/-- A signature over a nonce: with the alias key, or with the identity key when both slots have failed. See assumption 105. -/
def State.sign (s : State) (nonce : BitVec 384) : BitVec 768 :=
  Config.signOf (if s.bothFailed then s.dev.identity.toNat else s.dev.aliasKey.toNat) nonce.toNat

/-- CHALLENGE. -/
def execChallenge (req : SpdmReq) (s : State) : Host.Outcome State Fault Refusal :=
  .next (s.respondAlways req (.challenge req.nonce (s.sign req.nonce)))

/-- The 4 KiB header of a slot (R448). See assumption 108. -/
def Firmware.header (f : Firmware) : List (Nat × Byte) := f.bytes.filter fun e => e.1 < 4096

/-- The image of a slot, as long as its header says (R448). See assumption 108. -/
def Firmware.image (f : Firmware) : List (Nat × Byte) := f.bytes.filter fun e => 4096 ≤ e.1 && decide (e.1 < 4096 + Config.fwLength f.header)

/-- The slot that runs. -/
def Device.running (d : Device) : Firmware := if d.activeSlot then d.slotB else d.slotA

/-- A partition's descriptor (R389), as a number. -/
def Partition.descriptor (p : Partition) : Nat :=
  p.clusters.toNat + p.valid.toNat * 2 ^ 48 + leNat p.vfs * 2 ^ 64 + p.vfMask.toNat * 2 ^ 128 + p.primary.toNat * 2 ^ 136 +
    p.bktBase * 2 ^ 144 + p.bktCnt * 2 ^ 156 + p.gddrBase * 2 ^ 192 + p.gddrLen * 2 ^ 256 + p.flashBase * 2 ^ 320 + p.flashLen * 2 ^ 384 +
    p.pinLim * 2 ^ 448

/-- Measurement 5: the security state, the debug state and DEBUGGED. -/
def Device.stateCode (d : Device) : Nat :=
  (match d.security with | .production => 0 | .debugAuthorised => 1 | .development => 2) +
    (match d.debug with | .none => 0 | .trace => 1 | .invasive => 2) * 4 + d.debugged.toNat * 16

/-- The measurements that a requester gets (R423): index 3 is zero, with a failure code, when both slots have failed. See assumption 105. -/
def State.measurements (s : State) (from_ : Requester) : List (BitVec 384) :=
  let d := s.dev
  let three := if s.bothFailed then 0 else Config.fwDigest d.running.image
  let six := match from_ with
    | .vf n => ((s.partOfVf n).map fun p => Config.digest (s.part p).descriptor).toList
    | .pf => []
  [Config.romMeasurement 1, Config.romMeasurement 2, three, BitVec.ofNat 384 (Config.fwSvn d.running.header).toNat, BitVec.ofNat 384 d.stateCode] ++ six

/-- GET_MEASUREMENTS. -/
def execGetMeasurements (req : SpdmReq) (s : State) : Host.Outcome State Fault Refusal :=
  .next (s.respondAlways req (.measurements (s.measurements req.from_)
    (if s.bothFailed then some (s.dev.failA, s.dev.failB) else none) (s.sign req.nonce)))

/-! ### Sessions (R423, R425) -/

/-- Changes the debug state, with a record for each change (R425). See assumption 101. -/
def State.setDebug (s : State) (d : DebugState) (part : Option Nat) : State :=
  let s1 : State := { s with dev := { s.dev with debug := d, debugPart := part } }
  if s.dev.debug = d && s.dev.debugPart = part then s1 else s1.record { source := 21, sev := 1, part := part }

/-- The session of a requester. See assumption 104. -/
def State.sessionOf (s : State) (r : Requester) : Option Session := s.dev.sessions.find? fun x => x.from_ = r

/-- Ends debug: its state is NONE, and no INVASIVE waits any more. -/
def State.endDebug (s : State) : State :=
  ({ s with dev := { s.dev with debugFrom := none, pendingInvasive := none } } : State).setDebug .none none

/-- Ends the session of a requester; the debug state that was asked for in it returns to NONE (R425). -/
def State.endSession (s : State) (r : Requester) : State :=
  let s1 : State := { s with dev := { s.dev with sessions := s.dev.sessions.filter fun x => x.from_ ≠ r } }
  if s.dev.debugFrom = some r then s1.endDebug else s1

/-- KEY_EXCHANGE: a session of the requester begins, in place of one that it had, and with it a new nonce. See assumption 104. -/
def execKeyExchange (req : SpdmReq) (s : State) : Host.Outcome State Fault Refusal :=
  .next (if s.dev.stage ≥ 2 && s.requesterOk req.from_ then
    let n := Config.random s.freeCtr
    let s1 := s.endSession req.from_
    (({ s1 with dev := { s1.dev with sessions := s1.dev.sessions ++ [⟨req.from_, n, false⟩] } } : State).respond req (.session n)).draw
  else s)

/-- FINISH: the session that the requester's key exchange began is open. See assumption 104. -/
def execFinish (req : SpdmReq) (s : State) : Host.Outcome State Fault Refusal :=
  .next (if s.dev.stage ≥ 2 && s.requesterOk req.from_ then
    if (s.sessionOf req.from_).isSome then
      ({ s with dev := { s.dev with sessions := s.dev.sessions.map fun x => if x.from_ = req.from_ then { x with ready := true } else x } } : State).respond
        req .finished
    else s.respond req .error
  else s)

/-- Whether a requester has an open session. -/
def State.inSession (s : State) (r : Requester) : Bool := (s.sessionOf r).any (·.ready)

/-- END_SESSION. -/
def execEndSession (req : SpdmReq) (s : State) : Host.Outcome State Fault Refusal :=
  .next (if s.dev.stage ≥ 2 && s.requesterOk req.from_ && s.inSession req.from_ then (s.endSession req.from_).respond req .ended
    else s.respond req .error)

/-! ### Debug tokens (R425 to R427) -/

/-- A token as a message with its signature. -/
def tokenCode (t : DebugToken) : Nat :=
  (match t.state with | .none => 0 | .trace => 1 | .invasive => 2) + t.part * 4 + t.nonce.toNat * 2 ^ 40 + t.signature.toNat * 2 ^ 424

/-- Whether a token of a requester is accepted: it carries the latest nonce of the requester's session, and its signature verifies; a development device
asks for none. See assumption 104. -/
def State.tokenOk (s : State) (r : Requester) (t : DebugToken) : Bool :=
  s.dev.security == .development || ((s.sessionOf r).any (fun x => x.nonce == t.nonce) && Config.sigValid (tokenCode t))

/-- What an accepted token does. INVASIVE waits for the teardowns of the other partitions, but not on a development device. See assumption 104. -/
def State.takeToken (s : State) (r : Requester) (t : DebugToken) : State :=
  let dev := s.dev.security == .development
  let s1 : State := { s with dev := { s.dev with
    debugged := true, security := if dev then .development else .debugAuthorised, debugFrom := some r, pendingInvasive := none } }
  match t.state with
  | .none => s1.setDebug .none none
  | .trace => s1.setDebug .trace (some t.part)
  | .invasive => if dev then s1.setDebug .invasive (some t.part) else { s1 with dev := { s1.dev with pendingInvasive := some t.part } }

/-- VENDOR_DEFINED_REQUEST. -/
def execVendorDefinedRequest (req : SpdmReq) (token : DebugToken) (s : State) : Host.Outcome State Fault Refusal :=
  .next (if s.dev.stage < 2 || !s.requesterOk req.from_ then s
    else if s.inSession req.from_ && s.tokenOk req.from_ token then (s.takeToken req.from_ token).respond req .tokenAccepted
    else s.respond req .error)

/-! ### Loss of power (R373, R426, R446) -/

/-- Host memory and flash, which a loss of power leaves alone. See assumption 106. -/
def Memory.outside (m : Memory) : Memory := m.filter fun c => !inGddr c.1

/-- The device after a loss of all its state: firmware slots, the fused minimum and the fuse of a development device stay. See assumption 106. -/
def Device.restart (d : Device) : Device :=
  { Device.reset with
    slotA := d.slotA, slotB := d.slotB, minSvn := d.minSvn, devFuse := d.devFuse
    security := if d.devFuse || d.security = .development then .development else .production }

/-- The machine after a loss of all its state: what the environment will do and the counters of free values go on. See assumption 106. -/
def State.restart (s : State) : State :=
  { State.reset with
    agenda := s.agenda, uid := s.uid, freeCtr := s.freeCtr, mem := s.mem.outside
    poison := s.poison.filter fun w => !inGddr (w * 8), dev := s.dev.restart }

/-- D3HOT: keys and partitions are kept, and every session ends, with debug (R426). See assumption 109. -/
def State.enterHot (s : State) : State :=
  let s1 : State := { s with dev := { s.dev with sessions := [], power := .d3hot } }
  if s.dev.debug = .none then s1 else s1.endDebug

/-- D3COLD: all keys are lost and the device returns to its reset state. See assumption 106. -/
def State.enterCold (s : State) : State := let s1 := s.restart; { s1 with dev := { s1.dev with power := .d3cold, keys := false, fb := none } }

/-- A request for D3HOT or D3COLD: while partitions are being torn down for INVASIVE it waits (R427), and with the core rail stopped the device waits for a
cold reset alone (R452). -/
def State.enterPower (s : State) (p : Power) : State :=
  if !s.dev.railOn then s
  else if s.dev.pendingInvasive.isSome then { s with dev := { s.dev with pendingPower := some p } }
  else if p = .d3hot then s.enterHot else if p = .d3cold then s.enterCold else s

/-- INVASIVE_DEBUG_ENTRY: every other valid partition is torn down; once all are, the token takes effect, and a power state that waits for it is
entered (R427). -/
def State.enterInvasive (s : State) : State :=
  match s.dev.pendingInvasive with
  | none => s
  | some p =>
    let others := fun (st : State) => ((st.parts.filter fun e => e.1 ≠ p && e.2.valid).map (·.1))
    let s1 := (others s).foldl (fun (st : State) q => st.teardown q) s
    if !(others s1).isEmpty then s1
    else
      let s2 := ({ s1 with dev := { s1.dev with pendingInvasive := none, pendingPower := none } } : State).setDebug .invasive (some p)
      match s1.dev.pendingPower with
      | some x => s2.enterPower x
      | none => s2

/-- INVASIVE_DEBUG_ENTRY. -/
def execInvasiveDebugEntry (s : State) : Host.Outcome State Fault Refusal := .next s.enterInvasive

/-! ### DEBUGGER_REQUEST (R199, R426) -/

/-- Changes a wave that the debugger reaches. -/
def State.debugWave (s : State) (core slot : Nat) (g : Wave → Wave) : State :=
  s.modWave core slot fun w => if s.debugs w.part then g w else w

/-- What the debugger reads goes to its data register. -/
def State.debugData (s : State) (x : Nat) : State := { s with dev := { s.dev with dbgData := BitVec.ofNat 64 x } }

/-- Reads something of a wave that the debugger reaches. -/
def State.debugRead (s : State) (core slot : Nat) (g : Wave → Option Nat) : State :=
  match s.wave? core slot with
  | some w => if s.debugs w.part then ((g w).map s.debugData).getD s else s
  | none => s

/-- Whether a partition is traced: the target of TRACE, or any partition on a development device (R426). -/
def State.traces (s : State) (part : Nat) : Bool :=
  s.dev.debug == .trace && (s.dev.debugPart == some part || s.dev.security == .development)

/-- The partition of a wave on a core, whose tile registers it shares. -/
def State.debugsCore (s : State) (core : Nat) : Bool := (s.partAt core).any s.debugs

/-- Whether a request is one of TRACE. -/
def tracing : DebugReq → Bool
  | .trace .. | .count .. => true
  | _ => false

/-- On a development device a debugger enters the state that its request needs without a token (R426). See assumption 104. -/
def State.debugBy (s : State) (r : DebugReq) : State :=
  if s.dev.security ≠ .development then s
  else if tracing r then (if s.dev.debug = .trace then s else s.setDebug .trace none)
  else if s.dev.debug = .invasive then s else s.setDebug .invasive none

/-- What a request does: of an INVASIVE session only the target partition is reached, and of a TRACE session its trace and counters (R426). -/
def State.debugged (s : State) : DebugReq → State
  | .halt core slot => s.debugWave core slot fun w => { w with debugHalt := true }
  | .resume core slot => s.debugWave core slot fun w => { w with debugHalt := false }
  | .readMem part va => if s.debugs part then ((s.lustreBytes part va 1).map fun bs => s.debugData (leNat bs)).getD s else s
  | .writeMem part va byte => if s.debugs part then (s.writeVirt part va [byte]).getD s else s
  | .readScalar core slot n => s.debugRead core slot fun w => some (w.s n.toNat).val.toNat
  | .writeScalar core slot n value => s.debugWave core slot fun w => w.putS n.toNat value
  | .readVector core slot n t => s.debugRead core slot fun w => if n.toNat < 16 * w.blocks then some ((w.v n.toNat).vals.getD t.toNat 0).toNat else none
  | .writeVector core slot n t value => s.debugWave core slot fun w =>
      if n.toNat < 16 * w.blocks && t.toNat < w.width then
        let r := w.v n.toNat
        w.setV n.toNat { r with vals := r.vals.set t.toNat value }
      else w
  | .readPred core slot n => s.debugRead core slot fun w => if n.toNat < 7 then some (w.p n.toNat).bits.toNat else none
  | .writePred core slot n value => s.debugWave core slot fun w => if n.toNat < 7 then w.setP n.toNat { w.p n.toNat with bits := value } else w
  | .readTile core n byte =>
    if s.debugsCore core then s.debugData ((Tab.get Tile.fresh (s.core core).tiles n.toNat).bytes.get 0 byte.toNat).toNat else s
  | .writeTile core n byte value =>
    if s.debugsCore core then
      let c := s.core core
      let x := Tab.get Tile.fresh c.tiles n.toNat
      s.setCore core { c with tiles := c.tiles.put n.toNat { x with bytes := x.bytes.put byte.toNat value } }
    else s
  | .trace core slot => (match s.wave? core slot with
    | some w => if s.traces w.part then (((w.frag? w.cur).map fun f => s.debugData f.pc.toNat).getD s) else s
    | none => s)
  | .count core => if (s.partAt core).any s.traces then s.debugData (s.core core).cycles.toNat else s

/-- DEBUGGER_REQUEST. -/
def State.debugger (s : State) (r : DebugReq) : State := (s.debugBy r).debugged r

/-- DEBUGGER_REQUEST. -/
def execDebuggerRequest (req : DebugReq) (s : State) : Host.Outcome State Fault Refusal := .next (s.debugger req)

end Sys2Proof.Machine
end

