-- ==== Sys2Proof/Machine/Bringup.lean ====
section
/-!
DEFINITION. Staged start, firmware slots, live update, power and cooling (R426, R446 to R452).
-/
namespace Sys2Proof.Machine

/-! ### Resets (R373, R426, R446) -/

/-- COLD_RESET: stage 0 starts. See assumption 106. -/
def execColdReset (s : State) : Host.Outcome State Fault Refusal := .next s.restart

/-- D3HOT_ENTRY (R426, R427). See assumption 109. -/
def execD3hotEntry (s : State) : Host.Outcome State Fault Refusal := .next (s.enterPower .d3hot)

/-- D3COLD_ENTRY (R426, R427). See assumption 106. -/
def execD3coldEntry (s : State) : Host.Outcome State Fault Refusal := .next (s.enterPower .d3cold)

/-- RETURN_FROM_D3COLD: stage 0 starts. From D3HOT, for which the table has no event of its own, the device returns to D0 as it is. See assumption 109. See assumption 106. -/
def execReturnFromD3cold (s : State) : Host.Outcome State Fault Refusal :=
  .next (match s.dev.power with
  | .d3cold => s.restart
  | .d3hot => { s with dev := { s.dev with power := .d0 } }
  | _ => s)

/-! ### Firmware slots (R447 to R449) -/

/-- The result of authenticating a slot, coded as RCV_STAT.RESULT: the fields of its header, the signature over header and image, and its SVN. See
assumption 108. -/
def Device.authenticate (d : Device) (slot : Firmware) : BitVec 3 :=
  if !Config.fwFormed slot.header then 5
  else if !Config.fwSigned slot.header slot.image then 2
  else if Config.fwSvn slot.header < d.minSvn then 3
  else 0

/-- A firmware slot. -/
def Device.slot (d : Device) (b : Bool) : Firmware := if b then d.slotB else d.slotA

/-- Writes a firmware slot. -/
def Device.setSlot (d : Device) (b : Bool) (f : Firmware) : Device := if b then { d with slotB := f } else { d with slotA := f }

/-- The slot that stage 1 selects among those that pass. See assumption 108. -/
def Device.select (d : Device) : Option Bool :=
  let a := d.authenticate d.slotA = 0
  let b := d.authenticate d.slotB = 0
  let va := Config.fwSvn d.slotA.header
  let vb := Config.fwSvn d.slotB.header
  let qa := Config.fwSeq d.slotA.header
  let qb := Config.fwSeq d.slotB.header
  if a && b then some (decide (va < vb) || (va == vb && decide (qa < qb))) else if a then some false else if b then some true else none

/-- Adds a record of 64 characters to the boot log, whose ring holds 64. See assumption 110. -/
def State.bootNote (s : State) : State :=
  let text := (List.range 64).map fun i => Config.bootText (s.freeCtr * 64 + i)
  let d := s.dev
  ({ s with dev := { d with bootLog := d.bootLog.put (d.bootNext % 64) text, bootNext := d.bootNext + 1 } } : State).draw

/-- The slices that fail their test and the channels that fail training are recorded, each in the boot log (R446). -/
def State.noteBad (s : State) (badSlices badChannels : List Nat) : State :=
  let s1 : State := { s with
    dev := { s.dev with failedSlices := badSlices }
    channels := badChannels.foldl (fun (t : Tab Channel) c => t.put c ⟨true, 0⟩) s.channels }
  let s2 := (badSlices ++ badChannels).foldl (fun (st : State) _ => st.bootNote) s1
  badChannels.foldl (fun (st : State) c => st.record { source := 9, sev := 4, unit := c }) s2

/-- Goes on to stage 1 with a slot: the alias key is derived, and the tests are made. -/
def State.enterStage1 (s : State) (slot : Bool) (badSlices badChannels : List Nat) : State :=
  let d := s.dev
  let key := Config.digest (d.identity.toNat + (Config.fwDigest (d.slot slot).image).toNat * 2 ^ 384)
  ({ s with dev := { d with stage := 1, activeSlot := slot, aliasKey := key } } : State).noteBad badSlices badChannels

/-- STAGE_1: the slots are authenticated, the channels trained and the slices tested; with no slot that passes, the device stays
in stage 0, and the boot framebuffer shows the failure codes (R449). See assumption 109. -/
def execStage1 (badSlices badChannels : List Nat) (s : State) : Host.Outcome State Fault Refusal :=
  .next (if s.dev.stage ≠ 0 || !s.dev.railOn || s.dev.power = .d3cold then s
    else
      let d := s.dev
      let fa := d.authenticate d.slotA
      let fb := d.authenticate d.slotB
      let s1 : State := { s with dev := { d with failA := fa, failB := fb } }
      match d.select with
      | some slot => s1.enterStage1 slot badSlices badChannels
      | none =>
        let s2 : State := { s1 with dev := { s1.dev with fb := d.fb.map fun x => { x with codes := some (fa, fb) } } }
        s2.bootNote.noteBad badSlices badChannels)

/-- The state table of an image that starts: every field that it expects at its default (R450). See assumption 107. -/
def Firmware.freshTable (f : Firmware) : Tab Nat :=
  (Config.tableFields (Config.fwMajor f.header) (Config.fwMinor f.header)).map fun n => (n, Config.tableDefault n)

/-- STAGE_2: the selected image runs on complex A and the standby on B; a higher security version is fused. See assumption 107. -/
def execStage2 (s : State) : Host.Outcome State Fault Refusal :=
  .next (if s.dev.stage ≠ 1 || !s.dev.railOn then s
    else
      let f := s.dev.running
      let v := Config.fwSvn f.header
      { s with dev := { s.dev with
        stage := 2, complexB := false, standby := true, minSvn := if s.dev.minSvn < v then v else s.dev.minSvn, table := f.freshTable } })

/-- Completes the recovery command in progress with a result. -/
def State.rcvDone (s : State) (result : BitVec 3) : State := { s with dev := { s.dev with rcvBusy := false, rcvResult := result } }

/-- Whether a command names the slot that runs. -/
def State.rcvActive (s : State) : Bool := decide (s.dev.stage ≥ 2) && bitOf s.dev.rcvCmd.toNat 4 == s.dev.activeSlot

/-- The next 4 KiB of WRITE: the upload buffer as it is now goes to the slot, so that a write of the host meanwhile shows in whole blocks (R447). An error of
the flash ends the command. See assumption 108. -/
def State.rcvBlock (s : State) : State :=
  let x := s.dev.rcvCmd.toNat
  let i := s.dev.rcvAt
  let off := bitsOf x 21 16 * 2 ^ 20 + 4096 * i
  let old := (s.dev.slot (bitOf x 4)).bytes
  let kept := old.filter fun e => e.1 < off || off + 4096 ≤ e.1
  let block := (s.dev.upload.filter fun e => e.1 / 4096 = i).map fun e => (off + e.1 % 4096, e.2)
  let new := block.foldl (fun (t : Tab Byte) e => t.put e.1 e.2) kept
  if Config.flashFails s.freeCtr then (s.rcvDone 4).draw
  else
    let s1 : State := { s with dev := { s.dev.setSlot (bitOf x 4) ⟨new⟩ with rcvAt := i + 1 } }
    (if i < bitsOf x 15 8 then s1 else s1.rcvDone 0).draw

/-- The next part of the recovery command in progress: WRITE goes on by 4 KiB, and ERASE and AUTH complete; in stage 0 a pass goes on to stage 1 with the
slot, where slices and channels may fail (R447). -/
def State.rcvStep (s : State) (badSlices badChannels : List Nat) : State :=
  let x := s.dev.rcvCmd.toNat
  let slot := bitOf x 4
  if !s.dev.rcvBusy || s.dev.power = .d3cold then s
  else if x % 16 = 2 then
    let r := s.dev.authenticate (s.dev.slot slot)
    let s1 := s.rcvDone r
    if r = 0 && s.dev.stage = 0 && s.dev.railOn then s1.enterStage1 slot badSlices badChannels else s1
  else if s.rcvActive then s.rcvDone 1
  else if x % 16 = 1 then s.rcvBlock
  else if Config.flashFails s.freeCtr then (s.rcvDone 4).draw
  else (({ s with dev := s.dev.setSlot slot ⟨[]⟩ } : State).rcvDone 0).draw

/-- A recovery event of an operation: it starts the command, or carries on one that is in progress. See assumption 108. -/
def State.rcvEvent (s : State) (op : Nat) (cmd : DWord) (badSlices badChannels : List Nat) : State :=
  if s.dev.rcvBusy then (if s.dev.rcvCmd.toNat % 16 = op then s.rcvStep badSlices badChannels else s)
  else if cmd.toNat % 16 = op then s.rcvStart cmd else s

/-- RCV_WRITE. -/
def execRcvWrite (cmd : BitVec 64) (s : State) : Host.Outcome State Fault Refusal := .next (s.rcvEvent 1 cmd [] [])
/-- RCV_AUTH. -/
def execRcvAuth (cmd : BitVec 64) (badSlices badChannels : List Nat) (s : State) : Host.Outcome State Fault Refusal :=
  .next (s.rcvEvent 2 cmd badSlices badChannels)
/-- RCV_ERASE. -/
def execRcvErase (cmd : BitVec 64) (s : State) : Host.Outcome State Fault Refusal := .next (s.rcvEvent 3 cmd [] [])

/-! ### Live update (R450, R451) -/

/-- UPDATE: the standby authenticates the slot that is not running and boots it; a second UPDATE is ignored. See assumption 107. -/
def execUpdate (s : State) : Host.Outcome State Fault Refusal :=
  .next (let d := s.dev
    if d.stage < 2 || !d.railOn || d.updating || !d.standby then s
    else if d.authenticate (d.slot (!d.activeSlot)) ≠ 0 then s.bootNote
    else { s with dev := { d with updating := true, newImage := false } })

/-- The state table of the active complex as an image of its major version takes it over: a field that the image does not know is left out, and one that is
missing takes its default (R450). See assumption 107. -/
def Device.importTable (d : Device) (f : Firmware) : Tab Nat :=
  (Config.tableFields (Config.fwMajor f.header) (Config.fwMinor f.header)).map fun n => (n, d.table.get (Config.tableDefault n) n)

/-- Whether a queue stands between packets: nothing of it is still to be written, no packet is read again or half started, and no called buffer is being
expanded. See assumption 107. -/
def Fq.quiescent (f : Fq) : Bool :=
  !f.owes && f.calls.isEmpty && f.rereads == 0 && match f.ready with | p :: _ => !(p.sub.isEmpty && f.iss == p.seq + 1) | [] => true

/-- UPDATE_HANDOVER: the standby reads the state table of the active complex, which it refuses when the major versions differ; then, at a boundary between
packets of every queue, it becomes active with the queues as they are, and the old active complex becomes the standby. See assumption 107. -/
def execUpdateHandover (s : State) : Host.Outcome State Fault Refusal :=
  .next (let d := s.dev
    let new := d.slot (!d.activeSlot)
    if !d.updating || !d.railOn then s
    else if !d.newImage then
      if Config.fwMajor new.header ≠ Config.fwMajor d.running.header then
        ({ s with dev := { d with updating := false } } : State).bootNote
      else { s with dev := { d with newImage := true, imported := d.importTable new } }
    else if s.parts.all fun e => e.2.queues.all fun q => q.2.quiescent then
      { s with dev := { d with
        complexB := !d.complexB, activeSlot := !d.activeSlot, updating := false, newImage := false, standby := true, table := d.imported, imported := [] } }
    else s)

/-! ### JUNCTION_OVERTEMP (R452) -/

/-- JUNCTION_OVERTEMP: every partition is torn down (R394); once all are, the core rail stops and a record is sent. See assumption 110. -/
def State.overheat (s : State) : State :=
  let valid := fun (st : State) => (st.parts.filter fun e => e.2.valid).map (·.1)
  let s1 := (valid s).foldl (fun (st : State) p => st.teardown p) s
  if !s.dev.railOn then s
  else if !(valid s1).isEmpty then { s1 with dev := { s1.dev with hot := true } }
  else ({ s1 with dev := { s1.dev with railOn := false, hot := false } } : State).record { source := Config.overtempSource.val, sev := 4 }

/-- JUNCTION_OVERTEMP. See assumption 110. -/
def execJunctionOvertemp (s : State) : Host.Outcome State Fault Refusal := .next s.overheat

end Sys2Proof.Machine
end

