-- ==== Sys2Proof/Machine/Dispatch.lean ====
section
/-!
DEFINITION. The dispatch: one arm per constructor of `Instr`, each a direct call of that instruction's meaning.
-/
namespace Sys2Proof.Machine

def exec (i : Instr) (s : State) : Host.Outcome State Fault Refusal :=
  match i with
  | .iadd o ty sat => Sys2Proof.Machine.execIadd o ty sat s
  | .isub o ty sat => Sys2Proof.Machine.execIsub o ty sat s
  | .iaddc o ty ci pc sub => Sys2Proof.Machine.execIaddc o ty ci pc sub s
  | .imul o ty sat => Sys2Proof.Machine.execImul o ty sat s
  | .imulh o ty => Sys2Proof.Machine.execImulh o ty s
  | .imulw o ty => Sys2Proof.Machine.execImulw o ty s
  | .imad o ty sat => Sys2Proof.Machine.execImad o ty sat s
  | .imin o ty => Sys2Proof.Machine.execImin o ty s
  | .imax o ty => Sys2Proof.Machine.execImax o ty s
  | .iabs o ty sat => Sys2Proof.Machine.execIabs o ty sat s
  | .ineg o ty sat => Sys2Proof.Machine.execIneg o ty sat s
  | .iaddmin o ty sat => Sys2Proof.Machine.execIaddmin o ty sat s
  | .iaddmax o ty sat => Sys2Proof.Machine.execIaddmax o ty sat s
  | .icmp o ty cond => Sys2Proof.Machine.execIcmp o ty cond s
  | .and o ty => Sys2Proof.Machine.execAnd o ty s
  | .or o ty => Sys2Proof.Machine.execOr o ty s
  | .xor o ty => Sys2Proof.Machine.execXor o ty s
  | .andn o ty => Sys2Proof.Machine.execAndn o ty s
  | .not o ty => Sys2Proof.Machine.execNot o ty s
  | .shl o ty => Sys2Proof.Machine.execShl o ty s
  | .shr o ty => Sys2Proof.Machine.execShr o ty s
  | .sar o ty => Sys2Proof.Machine.execSar o ty s
  | .rot o ty => Sys2Proof.Machine.execRot o ty s
  | .fshl o => Sys2Proof.Machine.execFshl o s
  | .fshr o => Sys2Proof.Machine.execFshr o s
  | .bfx o ty => Sys2Proof.Machine.execBfx o ty s
  | .bfi o => Sys2Proof.Machine.execBfi o s
  | .popc o ty => Sys2Proof.Machine.execPopc o ty s
  | .clz o ty => Sys2Proof.Machine.execClz o ty s
  | .ctz o ty => Sys2Proof.Machine.execCtz o ty s
  | .brev o ty => Sys2Proof.Machine.execBrev o ty s
  | .bperm o => Sys2Proof.Machine.execBperm o s
  | .sel o ty ps neg => Sys2Proof.Machine.execSel o ty ps neg s
  | .mov o ty => Sys2Proof.Machine.execMov o ty s
  | .movi o ty => Sys2Proof.Machine.execMovi o ty s
  | .movh o ty part => Sys2Proof.Machine.execMovh o ty part s
  | .lea o ty scale => Sys2Proof.Machine.execLea o ty scale s
  | .iadd64 o sub => Sys2Proof.Machine.execIadd64 o sub s
  | .idp4 o ty sat mix => Sys2Proof.Machine.execIdp4 o ty sat mix s
  | .idp2 o ty sat mix => Sys2Proof.Machine.execIdp2 o ty sat mix s
  | .fadd o ty rnd => Sys2Proof.Machine.execFadd o ty rnd s
  | .fsub o ty rnd => Sys2Proof.Machine.execFsub o ty rnd s
  | .fmul o ty rnd => Sys2Proof.Machine.execFmul o ty rnd s
  | .ffma o ty rnd => Sys2Proof.Machine.execFfma o ty rnd s
  | .fmin o ty => Sys2Proof.Machine.execFmin o ty s
  | .fmax o ty => Sys2Proof.Machine.execFmax o ty s
  | .fcmp o ty cond hi => Sys2Proof.Machine.execFcmp o ty cond hi s
  | .frcp o rnd => Sys2Proof.Machine.execFrcp o rnd s
  | .frsq o => Sys2Proof.Machine.execFrsq o s
  | .fsqrt o rnd => Sys2Proof.Machine.execFsqrt o rnd s
  | .fexp2 o => Sys2Proof.Machine.execFexp2 o s
  | .flog2 o => Sys2Proof.Machine.execFlog2 o s
  | .fsinpi o => Sys2Proof.Machine.execFsinpi o s
  | .fcospi o => Sys2Proof.Machine.execFcospi o s
  | .ftanh o => Sys2Proof.Machine.execFtanh o s
  | .frnd o ty rnd => Sys2Proof.Machine.execFrnd o ty rnd s
  | .fclass o ty hi => Sys2Proof.Machine.execFclass o ty hi s
  | .fscaleb o ty rnd => Sys2Proof.Machine.execFscaleb o ty rnd s
  | .fexpt o => Sys2Proof.Machine.execFexpt o s
  | .fcvt o ty rnd hi sat sty => Sys2Proof.Machine.execFcvt o ty rnd hi sat sty s
  | .fcvti o ty rnd hi sty => Sys2Proof.Machine.execFcvti o ty rnd hi sty s
  | .icvtf o ty rnd sat sty => Sys2Proof.Machine.execIcvtf o ty rnd sat sty s
  | .fdot2 o ty rnd => Sys2Proof.Machine.execFdot2 o ty rnd s
  | .padd o ty rnd sat => Sys2Proof.Machine.execPadd o ty rnd sat s
  | .pmul o ty rnd sat => Sys2Proof.Machine.execPmul o ty rnd sat s
  | .pfma o ty rnd sat => Sys2Proof.Machine.execPfma o ty rnd sat s
  | .pmin o ty => Sys2Proof.Machine.execPmin o ty s
  | .pmax o ty => Sys2Proof.Machine.execPmax o ty s
  | .pcvt o ty rnd sat sty pick de8 se8 => Sys2Proof.Machine.execPcvt o ty rnd sat sty pick de8 se8 s
  | .pdot4 o ty rnd mix => Sys2Proof.Machine.execPdot4 o ty rnd mix s
  | .cbdec o pick tile => Sys2Proof.Machine.execCbdec o pick tile s
  | .cbenc o h tile => Sys2Proof.Machine.execCbenc o h tile s
  | .retag o tag => Sys2Proof.Machine.execRetag o tag s
  | .shfl o ty fill => Sys2Proof.Machine.execShfl o ty fill s
  | .shfli o ty mode wrel fill => Sys2Proof.Machine.execShfli o ty mode wrel fill s
  | .lsh o ty => Sys2Proof.Machine.execLsh o ty s
  | .bcast o ty => Sys2Proof.Machine.execBcast o ty s
  | .redstep o ty op j => Sys2Proof.Machine.execRedstep o ty op j s
  | .reduce o ty op => Sys2Proof.Machine.execReduce o ty op s
  | .scan o ty op excl => Sys2Proof.Machine.execScan o ty op excl s
  | .ballot o hi => Sys2Proof.Machine.execBallot o hi s
  | .vote o kind => Sys2Proof.Machine.execVote o kind s
  | .elect o => Sys2Proof.Machine.execElect o s
  | .matchLanes o ty cnt => Sys2Proof.Machine.execMatchLanes o ty cnt s
  | .bra o => Sys2Proof.Machine.execBra o s
  | .bru o cond => Sys2Proof.Machine.execBru o cond s
  | .brx o => Sys2Proof.Machine.execBrx o s
  | .call o ind => Sys2Proof.Machine.execCall o ind s
  | .ret o => Sys2Proof.Machine.execRet o s
  | .exit o => Sys2Proof.Machine.execExit o s
  | .joinp o => Sys2Proof.Machine.execJoinp o s
  | .rep o dStep aStep bStep count => Sys2Proof.Machine.execRep o dStep aStep bStep count s
  | .yield o => Sys2Proof.Machine.execYield o s
  | .nop o => Sys2Proof.Machine.execNop o s
  | .waitr o count => Sys2Proof.Machine.execWaitr o count s
  | .execs o => Sys2Proof.Machine.execExecs o s
  | .execr o => Sys2Proof.Machine.execExecr o s
  | .racq o n => Sys2Proof.Machine.execRacq o n s
  | .rrel o n => Sys2Proof.Machine.execRrel o n s
  | .rqry o => Sys2Proof.Machine.execRqry o s
  | .rdsr o num => Sys2Proof.Machine.execRdsr o num s
  | .wrsr o num => Sys2Proof.Machine.execWrsr o num s
  | .xcnt o cls => Sys2Proof.Machine.execXcnt o cls s
  | .trap o code => Sys2Proof.Machine.execTrap o code s
  | .bkpt o code => Sys2Proof.Machine.execBkpt o code s
  | .cycle o => Sys2Proof.Machine.execCycle o s
  | .ld o ty one cnt sub => Sys2Proof.Machine.execLd o ty one cnt sub s
  | .ldnc o ty one cnt sub => Sys2Proof.Machine.execLdnc o ty one cnt sub s
  | .st o ty one cnt sub => Sys2Proof.Machine.execSt o ty one cnt sub s
  | .stnt o ty one cnt sub => Sys2Proof.Machine.execStnt o ty one cnt sub s
  | .stm o quad => Sys2Proof.Machine.execStm o quad s
  | .lds o ty one cnt => Sys2Proof.Machine.execLds o ty one cnt s
  | .sts o ty one cnt credit => Sys2Proof.Machine.execSts o ty one cnt credit s
  | .ldu o ty cnt => Sys2Proof.Machine.execLdu o ty cnt s
  | .ldmc o bar => Sys2Proof.Machine.execLdmc o bar s
  | .atom o ty op => Sys2Proof.Machine.execAtom o ty op s
  | .atomf o ty op => Sys2Proof.Machine.execAtomf o ty op s
  | .cas o ty => Sys2Proof.Machine.execCas o ty s
  | .atoms o ty op => Sys2Proof.Machine.execAtoms o ty op s
  | .lr o ty => Sys2Proof.Machine.execLr o ty s
  | .sc o ty => Sys2Proof.Machine.execSc o ty s
  | .pref o llc => Sys2Proof.Machine.execPref o llc s
  | .thint o hint => Sys2Proof.Machine.execThint o hint s
  | .fence o scope seq => Sys2Proof.Machine.execFence o scope seq s
  | .acq o scope => Sys2Proof.Machine.execAcq o scope s
  | .rel o scope => Sys2Proof.Machine.execRel o scope s
  | .bind o bar slot => Sys2Proof.Machine.execBind o bar slot s
  | .barinit o arr => Sys2Proof.Machine.execBarinit o arr s
  | .bararr o => Sys2Proof.Machine.execBararr o s
  | .barwait o => Sys2Proof.Machine.execBarwait o s
  | .barsync o => Sys2Proof.Machine.execBarsync o s
  | .barexp o => Sys2Proof.Machine.execBarexp o s
  | .barq o => Sys2Proof.Machine.execBarq o s
  | .kick o => Sys2Proof.Machine.execKick o s
  | .eqst o q reg => Sys2Proof.Machine.execEqst o q reg s
  | .eqgo o q => Sys2Proof.Machine.execEqgo o q s
  | .eqfence o mask => Sys2Proof.Machine.execEqfence o mask s
  | .eqwait o q n => Sys2Proof.Machine.execEqwait o q n s
  | .tld o ty sp => Sys2Proof.Machine.execTld o ty sp s
  | .tst o sp => Sys2Proof.Machine.execTst o sp s
  | .tcpy o => Sys2Proof.Machine.execTcpy o s
  | .tcb o sp => Sys2Proof.Machine.execTcb o sp s
  | .mxprg o => Sys2Proof.Machine.execMxprg o s
  | .vxm o rnd => Sys2Proof.Machine.execVxm o rnd s
  | .boxt o sort => Sys2Proof.Machine.execBoxt o sort s
  | .trit o => Sys2Proof.Machine.execTrit o s
  | .spush o => Sys2Proof.Machine.execSpush o s
  | .spop o pe => Sys2Proof.Machine.execSpop o pe s
  | .speek o pe => Sys2Proof.Machine.execSpeek o pe s
  | .sclr o => Sys2Proof.Machine.execSclr o s
  | .lathreq o reload => Sys2Proof.Machine.execLathreq o reload s
  | .lathrun o nin nout => Sys2Proof.Machine.execLathrun o nin nout s
  | .lathwait o => Sys2Proof.Machine.execLathwait o s
  | .gzarr o => Sys2Proof.Machine.execGzarr o s
  | .gzrd o flush => Sys2Proof.Machine.execGzrd o flush s
  | .gzclr o all => Sys2Proof.Machine.execGzclr o all s
  | .gzrpl o => Sys2Proof.Machine.execGzrpl o s
  | .gzst o => Sys2Proof.Machine.execGzst o s
  | .fget o => Sys2Proof.Machine.execFget o s
  | .fcmt o => Sys2Proof.Machine.execFcmt o s
  | .fpsn o blk => Sys2Proof.Machine.execFpsn o blk s
  | .fend o => Sys2Proof.Machine.execFend o s
  | .gprobe o => Sys2Proof.Machine.execGprobe o s
  | .tgcond o => Sys2Proof.Machine.execTgcond o s
  | .tgsig o mask => Sys2Proof.Machine.execTgsig o mask s
  | .tgwait o mask => Sys2Proof.Machine.execTgwait o mask s
  | .emit o node regs => Sys2Proof.Machine.execEmit o node regs s
  | .syscall o code => Sys2Proof.Machine.execSyscall o code s
  | .eret o => Sys2Proof.Machine.execEret o s
  | .crrd o num => Sys2Proof.Machine.execCrrd o num s
  | .crwr o num => Sys2Proof.Machine.execCrwr o num s
  | .tlbi o all scope => Sys2Proof.Machine.execTlbi o all scope s
  | .tlbp o w => Sys2Proof.Machine.execTlbp o w s
  | .wkill o => Sys2Proof.Machine.execWkill o s
  | .wsusp o => Sys2Proof.Machine.execWsusp o s
  | .wresm o => Sys2Proof.Machine.execWresm o s
  | .halt o code => Sys2Proof.Machine.execHalt o code s
  | .loadCompletion core k => Sys2Proof.Machine.execLoadCompletion core k s
  | .specialFunctionCompletion core k => Sys2Proof.Machine.execSpecialFunctionCompletion core k s
  | .fairnessTimerExpiry core slot => Sys2Proof.Machine.execFairnessTimerExpiry core slot s
  | .blockGrant core pool => Sys2Proof.Machine.execBlockGrant core pool s
  | .waveCreation core => Sys2Proof.Machine.execWaveCreation core s
  | .exceptionWindowRestart core => Sys2Proof.Machine.execExceptionWindowRestart core s
  | .storePerformed core k => Sys2Proof.Machine.execStorePerformed core k s
  | .remoteScratchpadStore core k => Sys2Proof.Machine.execRemoteScratchpadStore core k s
  | .inboundCredit core k => Sys2Proof.Machine.execInboundCredit core k s
  | .scoreboardEntryRelease core k => Sys2Proof.Machine.execScoreboardEntryRelease core k s
  | .peerProbe core k => Sys2Proof.Machine.execPeerProbe core k s
  | .lowerTierRead line victim => Sys2Proof.Machine.execLowerTierRead line victim s
  | .flashPageRead page part good => Sys2Proof.Machine.execFlashPageRead page part good s
  | .ageSweep slice => Sys2Proof.Machine.execAgeSweep slice s
  | .guestCopyFill line sector => Sys2Proof.Machine.execGuestCopyFill line sector s
  | .guestInvalidation line sector => Sys2Proof.Machine.execGuestInvalidation line sector s
  | .multicastRequest core k => Sys2Proof.Machine.execMulticastRequest core k s
  | .mergedResponse slice k => Sys2Proof.Machine.execMergedResponse slice k s
  | .followupTransmission slice k => Sys2Proof.Machine.execFollowupTransmission slice k s
  | .mergeEntryClose slice k => Sys2Proof.Machine.execMergeEntryClose slice k s
  | .ldmcDelivery core k => Sys2Proof.Machine.execLdmcDelivery core k s
  | .copyCompletion core => Sys2Proof.Machine.execCopyCompletion core s
  | .matrixChunk pair => Sys2Proof.Machine.execMatrixChunk pair s
  | .epilogueDrain pair => Sys2Proof.Machine.execEpilogueDrain pair s
  | .queueMarkerCompletion core q => Sys2Proof.Machine.execQueueMarkerCompletion core q s
  | .tierHintOperation core => Sys2Proof.Machine.execTierHintOperation core s
  | .lathImageLoad core => Sys2Proof.Machine.execLathImageLoad core s
  | .lathRunCompletion core => Sys2Proof.Machine.execLathRunCompletion core s
  | .glazeArrival core => Sys2Proof.Machine.execGlazeArrival core s
  | .glazeRead core => Sys2Proof.Machine.execGlazeRead core s
  | .glazeClear core => Sys2Proof.Machine.execGlazeClear core s
  | .glazeStatusRead core => Sys2Proof.Machine.execGlazeStatusRead core s
  | .glazeReplay core => Sys2Proof.Machine.execGlazeReplay core s
  | .missSlotGrant slice depth => Sys2Proof.Machine.execMissSlotGrant slice depth s
  | .fillerCreation part depth core => Sys2Proof.Machine.execFillerCreation part depth core s
  | .pageTableWalk sector k => Sys2Proof.Machine.execPageTableWalk sector k s
  | .faultResume part token => Sys2Proof.Machine.execFaultResume part token s
  | .faultAbort part token => Sys2Proof.Machine.execFaultAbort part token s
  | .pageMigration part => Sys2Proof.Machine.execPageMigration part s
  | .genLoad part index => Sys2Proof.Machine.execGenLoad part index s
  | .genInvalidate part index => Sys2Proof.Machine.execGenInvalidate part index s
  | .genInvalidateFinish part => Sys2Proof.Machine.execGenInvalidateFinish part s
  | .graphNodeStart core => Sys2Proof.Machine.execGraphNodeStart core s
  | .graphNodeCompletion core => Sys2Proof.Machine.execGraphNodeCompletion core s
  | .recordWaveLaunch core node => Sys2Proof.Machine.execRecordWaveLaunch core node s
  | .graphCompletion core => Sys2Proof.Machine.execGraphCompletion core s
  | .rebalanceEpoch sector => Sys2Proof.Machine.execRebalanceEpoch sector s
  | .bucketMove bucket => Sys2Proof.Machine.execBucketMove bucket s
  | .bucketMoveAbandon bucket => Sys2Proof.Machine.execBucketMoveAbandon bucket s
  | .scrubRead store addr finding => Sys2Proof.Machine.execScrubRead store addr finding s
  | .laneCountClear core => Sys2Proof.Machine.execLaneCountClear core s
  | .ringPacketError link => Sys2Proof.Machine.execRingPacketError link s
  | .gddrLinkError chan => Sys2Proof.Machine.execGddrLinkError chan s
  | .ideIntegrityFailure stream => Sys2Proof.Machine.execIdeIntegrityFailure stream s
  | .launch part q => Sys2Proof.Machine.execLaunch part q s
  | .signal part q => Sys2Proof.Machine.execSignal part q s
  | .wait part q => Sys2Proof.Machine.execWait part q s
  | .callPacket part q => Sys2Proof.Machine.execCallPacket part q s
  | .join part q => Sys2Proof.Machine.execJoin part q s
  | .barrier part q => Sys2Proof.Machine.execBarrier part q s
  | .priority part q => Sys2Proof.Machine.execPriority part q s
  | .packetAcceptance part q => Sys2Proof.Machine.execPacketAcceptance part q s
  | .tornPacketReread part q => Sys2Proof.Machine.execTornPacketReread part q s
  | .queueTailWrite part q tail => Sys2Proof.Machine.execQueueTailWrite part q tail s
  | .queueEnable part q => Sys2Proof.Machine.execQueueEnable part q s
  | .queueRecover part q => Sys2Proof.Machine.execQueueRecover part q s
  | .queueDisable part q => Sys2Proof.Machine.execQueueDisable part q s
  | .queueRetry part q => Sys2Proof.Machine.execQueueRetry part q s
  | .teamPlacement launch core => Sys2Proof.Machine.execTeamPlacement launch core s
  | .teamPreemption team => Sys2Proof.Machine.execTeamPreemption team s
  | .gridCompletion launch => Sys2Proof.Machine.execGridCompletion launch s
  | .quantumExpiry part => Sys2Proof.Machine.execQuantumExpiry part s
  | .shadowStoreSwap outgoing incoming => Sys2Proof.Machine.execShadowStoreSwap outgoing incoming s
  | .functionLevelReset vf => Sys2Proof.Machine.execFunctionLevelReset vf s
  | .controlComplexFailure => Sys2Proof.Machine.execControlComplexFailure s
  | .coldReset => Sys2Proof.Machine.execColdReset s
  | .stage1 badSlices badChannels => Sys2Proof.Machine.execStage1 badSlices badChannels s
  | .stage2 => Sys2Proof.Machine.execStage2 s
  | .d3hotEntry => Sys2Proof.Machine.execD3hotEntry s
  | .d3coldEntry => Sys2Proof.Machine.execD3coldEntry s
  | .junctionOvertemp => Sys2Proof.Machine.execJunctionOvertemp s
  | .governorInterval watts => Sys2Proof.Machine.execGovernorInterval watts s
  | .partitionDescriptorWrite part desc => Sys2Proof.Machine.execPartitionDescriptorWrite part desc s
  | .partitionTeardown part => Sys2Proof.Machine.execPartitionTeardown part s
  | .headGrant head part => Sys2Proof.Machine.execHeadGrant head part s
  | .update => Sys2Proof.Machine.execUpdate s
  | .updateHandover => Sys2Proof.Machine.execUpdateHandover s
  | .rcvWrite cmd => Sys2Proof.Machine.execRcvWrite cmd s
  | .rcvAuth cmd badSlices badChannels => Sys2Proof.Machine.execRcvAuth cmd badSlices badChannels s
  | .rcvErase cmd => Sys2Proof.Machine.execRcvErase cmd s
  | .getVersion req => Sys2Proof.Machine.execGetVersion req s
  | .getCapabilities req => Sys2Proof.Machine.execGetCapabilities req s
  | .negotiateAlgorithms req => Sys2Proof.Machine.execNegotiateAlgorithms req s
  | .getDigests req => Sys2Proof.Machine.execGetDigests req s
  | .getCertificate req => Sys2Proof.Machine.execGetCertificate req s
  | .challenge req => Sys2Proof.Machine.execChallenge req s
  | .getMeasurements req => Sys2Proof.Machine.execGetMeasurements req s
  | .keyExchange req => Sys2Proof.Machine.execKeyExchange req s
  | .finish req => Sys2Proof.Machine.execFinish req s
  | .endSession req => Sys2Proof.Machine.execEndSession req s
  | .vendorDefinedRequest req token => Sys2Proof.Machine.execVendorDefinedRequest req token s
  | .invasiveDebugEntry => Sys2Proof.Machine.execInvasiveDebugEntry s
  | .headEnable head => Sys2Proof.Machine.execHeadEnable head s
  | .headDisable head => Sys2Proof.Machine.execHeadDisable head s
  | .scanKernelLoad head value => Sys2Proof.Machine.execScanKernelLoad head value s
  | .present head value => Sys2Proof.Machine.execPresent head value s
  | .motionEstimation head => Sys2Proof.Machine.execMotionEstimation head s
  | .gazeLatch head => Sys2Proof.Machine.execGazeLatch head s
  | .poseLatch head => Sys2Proof.Machine.execPoseLatch head s
  | .bandDispatch head band => Sys2Proof.Machine.execBandDispatch head band s
  | .bandTeamStart head band core => Sys2Proof.Machine.execBandTeamStart head band core s
  | .bandDeadline head band => Sys2Proof.Machine.execBandDeadline head band s
  | .lineScanout head ready => Sys2Proof.Machine.execLineScanout head ready s
  | .controlRegisterWrite port num inst value => Sys2Proof.Machine.execControlRegisterWrite port num inst value s
  | .tileOperationCompletion core => Sys2Proof.Machine.execTileOperationCompletion core s
  | .pcieLinkError corrected => Sys2Proof.Machine.execPcieLinkError corrected s
  | .flitParityError link => Sys2Proof.Machine.execFlitParityError link s
  | .hostLinkAccess addr data => Sys2Proof.Machine.execHostLinkAccess addr data s
  | .waitConditionHolds part q => Sys2Proof.Machine.execWaitConditionHolds part q s
  | .returnFromD3cold => Sys2Proof.Machine.execReturnFromD3cold s
  | .debuggerRequest req => Sys2Proof.Machine.execDebuggerRequest req s
  | .resumeCommand handle => Sys2Proof.Machine.execResumeCommand handle s
  | .victimStoreSizing base len => Sys2Proof.Machine.execVictimStoreSizing base len s

end Sys2Proof.Machine
end

