-- ==== Sys2Proof/Machine/Agenda.lean ====
section
/-!
DEFINITION. The events that can be due of themselves, in the order in which an empty agenda tries them (assumption 1). Timers,
errors, the host, the debugger and the connectors act only by the agenda.
-/
namespace Sys2Proof.Machine

/-- An event of the table with its arguments, as its meaning. -/
abbrev Event : Type := State → Host.Outcome State Fault Refusal

/-- The memory operations and engine queues of a core. -/
def State.coreEvents (s : State) (core : Nat) : List Event :=
  let c := s.core core
  let ks := List.range c.memq.length
  let memq := ks.flatMap fun k => [execStorePerformed core k, execLoadCompletion core k, execSpecialFunctionCompletion core k,
    execRemoteScratchpadStore core k, execMulticastRequest core k]
  let credits := (List.range c.credits.length).map fun k => execInboundCredit core k
  let arrivals := (List.range (s.deliveries.get [] core).length).map fun k => execLdmcDelivery core k
  let entries := (List.range c.sboard.length).map fun k => execScoreboardEntryRelease core k
  let q1 := if c.q1.isEmpty then [] else [execCopyCompletion core, execTileOperationCompletion core]
  let q2 := if c.q2.isEmpty then [] else [execTierHintOperation core]
  let q3 := if c.q3.isEmpty then [] else [execLathImageLoad core, execLathRunCompletion core, execQueueMarkerCompletion core 3]
  let q4 := if c.q4.isEmpty then [] else [execGlazeArrival core, execGlazeRead core, execGlazeClear core, execGlazeStatusRead core, execGlazeReplay core,
    execQueueMarkerCompletion core 4]
  let waits := if c.waves.isEmpty then [] else [execBlockGrant core 0, execBlockGrant core 1, execBlockGrant core 2]
  let new := if c.newWaves.isEmpty then [] else [execWaveCreation core]
  let graph := match c.graph with
    | some g => execGraphNodeStart core :: execGraphNodeCompletion core :: (g.rings.map fun r => execRecordWaveLaunch core r.1) ++ [execGraphCompletion core]
    | none => []
  memq ++ credits ++ arrivals ++ entries ++ q1 ++ q2 ++ q3 ++ q4 ++ waits ++ new ++ graph

/-- The lower tiers, merge entries and miss slots of a slice. -/
def State.sliceEvents (s : State) (h : Nat) : List Event :=
  let sl := s.slice h
  let merges := (List.range sl.merges.length).flatMap fun k => [execMergedResponse h k, execFollowupTransmission h k, execMergeEntryClose h k]
  let grants := if sl.waiting.isEmpty then [] else [execMissSlotGrant h 2, execMissSlotGrant h 1, execMissSlotGrant h 0]
  let reads := sl.slots.flatMap fun x => match x.key with
    | .task _ => []
    | .line k => execLowerTierRead k.code none :: match k with
      | .phys n => if inFlash (copyLine n * 128) then [execFlashPageRead (copyLine n / 128) x.part true] else []
      | .gen .. => []
  merges ++ grants ++ reads

/-- The commands, tasks and queues of a partition. -/
def State.partEvents (s : State) (p : Nat) : List Event :=
  let q := s.part p
  let commands := (if q.migBusy then [execPageMigration p] else []) ++
    (if q.genBusy then [execGenLoad p q.genIndex, execGenInvalidate p q.genIndex, execGenInvalidateFinish p] else [])
  let fillers := [2, 1].flatMap fun d => if (s.firstTask p d).isSome then q.cores.map fun c => execFillerCreation p d c else []
  let queues := q.queues.flatMap fun e => [execPacketAcceptance p e.1, execTornPacketReread p e.1, execLaunch p e.1, execSignal p e.1, execWait p e.1,
    execCallPacket p e.1, execJoin p e.1, execBarrier p e.1, execPriority p e.1, execWaitConditionHolds p e.1]
  commands ++ fillers ++ queues

/-- The placement, pre-emption and completion of launches. -/
def State.launchEvents (s : State) : List Event :=
  s.launches.flatMap fun l =>
    let places := if l.phase == .placing then (s.placesFor l).map fun c => execTeamPlacement l.id c else []
    let victims := if s.lacks l then (match (s.asTurn l.part).victimTeam l.part l.prio with | some t => [execTeamPreemption t.id] | none => []) else []
    places ++ victims ++ [execGridCompletion l.id]

/-- The walkers of a sector that have requests, and the first free one (R384). -/
def walkersDue (ws : List Walk) : List Nat :=
  let held := (ws.filterMap (·.walker)).eraseDups
  held ++ ((List.range 64).find? fun k => !held.contains k).toList

/-- What the device as a whole has still to do: recovery commands, teardowns, and the heads' reads and writes. -/
def State.deviceEvents (s : State) : List Event :=
  let d := s.dev
  let rcv := if d.rcvBusy then [execRcvWrite d.rcvCmd, execRcvAuth d.rcvCmd [] [], execRcvErase d.rcvCmd] else []
  let leaving := s.parts.flatMap fun e => if e.2.leaving then [execPartitionTeardown e.1] else []
  let heads := s.heads.flatMap fun e =>
    (if e.2.kernelDue || e.2.boundary.isSome || !e.2.records.isEmpty then [fun (st : State) => .next (st.headWork e.1)] else []) ++
      if e.2.estimate.isSome then [execMotionEstimation e.1] else []
  rcv ++ leaving ++ (if d.pendingInvasive.isSome then [execInvasiveDebugEntry] else []) ++ (if d.hot then [execJunctionOvertemp] else []) ++ heads

/-- Every event that may be due, oldest waiting first within a unit. See assumption 1. -/
def State.candidates (s : State) : List Event :=
  let walks := s.walks.flatMap fun e => if e.2.isEmpty then [] else (walkersDue e.2).map fun k => execPageTableWalk e.1 k
  let guests := s.invals.map fun g => execGuestInvalidation g.1 g.2
  let pairs := s.pairs.flatMap fun e => if e.2.q0.isEmpty then [] else [execMatrixChunk e.1, execEpilogueDrain e.1]
  let moves := s.buckets.flatMap fun e => if e.2.moving then [execBucketMove e.1] else []
  walks ++ guests ++ (s.cores.flatMap fun e => s.coreEvents e.1) ++ pairs ++ (s.slices.flatMap fun e => s.sliceEvents e.1) ++ moves ++
    (s.parts.flatMap fun e => s.partEvents e.1) ++ s.launchEvents ++ s.deviceEvents

/-- The state after the first event of a list that does something. See assumption 12. -/
def State.firstEvent (s : State) : List Event → Option State
  | [] => none
  | e :: rest => match e s with
    | .next t => if t = s then s.firstEvent rest else some t
    | _ => s.firstEvent rest

/-- An event that is due; where the search starts turns with `tick`, so that none waits for ever. See assumption 1. -/
def State.autoEvent (s : State) : Option State :=
  let cs := s.candidates
  s.firstEvent (cs.rotateLeft (if s.tick % 64 = 31 then s.tick / 64 else s.tick))

/-- The wave in focus issues: what stands before the instruction, its meaning, and the end of the issue. -/
def issueFocus (s : State) : Host.Outcome State Fault Refusal :=
  match s.prepare with
  | .other t => .next t
  | .run i t =>
    match exec i t with
    | .next u => .next u.finish
    | r => r

/-- The wave that its quad's scheduler selects issues (R26); with none ready an event happens, or nothing. -/
def issueAny (s : State) : Host.Outcome State Fault Refusal :=
  match s.nextWave with
  | some t => issueFocus { t with tick := t.tick + 1 }
  | none => match s.autoEvent with
    | some t => .next { t with tick := t.tick + 1 }
    | none => .next s

/-- The state after the first inbound credit or generator command that is due: a credit follows its bytes (R97), and a command its
write (R289), before anything else happens. See assumption 1. -/
def State.promptEvent (s : State) : Option State :=
  let credits := s.cores.flatMap fun e => (List.range e.2.credits.length).map fun k => execInboundCredit e.1 k
  let commands := s.parts.flatMap fun e =>
    if e.2.genBusy then [execGenLoad e.1 e.2.genIndex, execGenInvalidate e.1 e.2.genIndex, execGenInvalidateFinish e.1] else []
  s.firstEvent (credits ++ commands)

/-- What happens with an empty agenda: what is due at once; else one step in 64 serves the events that are due, and every other
one the quads by turns. See assumptions 1, 12. -/
def idle (s : State) : Host.Outcome State Fault Refusal :=
  match s.promptEvent with
  | some t => .next t
  | none =>
    if s.tick % 64 = 31 then
      match s.autoEvent with
      | some t => .next { t with tick := t.tick + 1 }
      | none => issueAny s
    else issueAny s

/-- What a step leaves due is sent at its end: error records, those of a ring that had to wait included. See assumption 129. -/
def closeStep : Host.Outcome State Fault Refusal → Host.Outcome State Fault Refusal
  | .next t => .next t.sendDue
  | .fault r => .fault r
  | .refused r => .refused r

end Sys2Proof.Machine
end

