-- ==== Sys2Proof/Machine/Step.lean ====
section
/-!
DEFINITION. One step of the machine: the next move of the agenda; with an empty agenda a wave that its quad's scheduler
selects issues, or an event that is due happens (assumption 1). A stored word that is upset is a move of its own (assumption 103).
-/
namespace Sys2Proof.Machine

/-- One step. -/
def step (s : State) : Host.Outcome State Fault Refusal :=
  closeStep (match s.agenda with
  | .event i :: rest => exec i { s with agenda := rest }
  | .issue core slot :: rest => issueFocus { s with agenda := rest, focus := some ⟨core, slot⟩ }
  | .upset u corrected :: rest => .next (({ s with agenda := rest } : State).storeUpset u corrected)
  | [] => idle s)

/-- A word of the opcode table, placed where the next step fetches. See assumption 13. -/
def State.withFetchWord (s : State) (_nbits w : Nat) : State := s.placeWord w

end Sys2Proof.Machine
end

