-- ==== Sys2Proof/Safety.lean ====
section
/-!
DEFINITION. The terms that claims use: a step that goes on, the invariant of every step, the conditions on the state and the
operands under which an instruction has its effect (R27, R54, R120), and what an instruction that computes thread by thread
leaves of a wave.
-/
namespace Sys2Proof.Machine

/-- An outcome that goes on. -/
def Safe (o : Host.Outcome State Fault Refusal) : Prop := ∃ t, o = .next t

/-- The invariant that claims about every step use: memory keeps its canonical form. -/
def Inv (s : State) : Prop := s.mem.wf = true

/-! ### When an instruction has its effect -/

/-- A vector instruction runs in the threads of `act`: they are its active threads, there is one, and no check of R54 stops it. -/
structure Ctx.RunsIn (c : Ctx) (g : Guard) (us : List Use) (act : Mask) : Prop where
  active : c.active g = act
  any    : act ≠ 0
  passes : c.check act c.f.exec g us = none

/-- A uniform instruction runs: it is not guarded "never", no check of R54 stops it, and its guard is true (R120). -/
structure Ctx.RunsOnce (c : Ctx) (g : Guard) (us : List Use) : Prop where
  guarded : g ≠ Guard.never
  passes  : c.check c.guardScope c.guardScope g us = none
  holds   : c.uniformRuns g = true

/-- A uniform instruction that reads predicates in the fragment's live threads runs (R148, R195). -/
structure Ctx.RunsLive (c : Ctx) (g : Guard) (us : List Use) : Prop where
  guarded : g ≠ Guard.never
  passes  : c.check c.f.live c.guardScope g us = none
  holds   : c.uniformRuns g = true

/-- An access of memory that issues now: the fragment awaits no acquire of its own (R97, R216). -/
def Ctx.FreeOfAcquire (c : Ctx) : Prop := c.acquiring = none

/-! ### What an instruction leaves of a wave -/

/-- What a thread-by-thread instruction of a shape leaves of its wave, in its vector form: the destination holds each active
thread's result, with the poison of R52 and the tag of R45, the other threads and registers keep what they held, and the
predicate that the shape writes holds each active thread's predicate result. -/
structure LaneWritten (c : Ctx) (o : Ops) (pl : Plan) (act : Mask) (v : Wave) : Prop where
  rest   : v = { c.w with vregs := v.vregs, preds := v.preds }
  keep   : ∀ m, (∀ n, o.dst = .v n → m ≠ n.toNat ∧ (pl.out64 = true → m ≠ n.toNat + 1)) → v.v m = c.w.v m
  low    : ∀ n, o.dst = .v n → ∀ k, act.getLsbD k = true →
    (v.v n.toNat).vals.getD k 0 = BitVec.ofNat 32 (pl.run (c.laneIn o pl k)).val
  high   : ∀ n, o.dst = .v n → pl.out64 = true → ∀ k, act.getLsbD k = true →
    (v.v (n.toNat + 1)).vals.getD k 0 = BitVec.ofNat 32 ((pl.run (c.laneIn o pl k)).val / 2 ^ 32)
  off    : ∀ m k, k < 128 → act.getLsbD k = false → (v.v m).vals.getD k 0 = (c.w.v m).vals.getD k 0
  tag    : ∀ n, o.dst = .v n → (v.v n.toNat).full = true ∧ (v.v n.toNat).tag = pl.tagOut 0
  poison : ∀ n, o.dst = .v n → ∀ k, act.getLsbD k = true → (v.v n.toNat).poison.getLsbD k = c.lanePoison o pl k
  preds  : ∀ p, pl.pout ≠ some p → v.p p = c.w.p p
  pred   : ∀ p, pl.pout = some p → p ≠ 7 → ∀ k, act.getLsbD k = true → (v.p p).bits.getLsbD k = (pl.run (c.laneIn o pl k)).p

/-- What its uniform form leaves: a scalar destination holds the one result, extended to 64 bits (R131), and the predicate
that the shape writes holds it in every thread (R130). -/
structure OnceWritten (c : Ctx) (o : Ops) (pl : Plan) (v : Wave) : Prop where
  rest   : v = { c.w with sregs := v.sregs, preds := v.preds }
  keep   : ∀ m, (∀ n, o.dst = .s n → m ≠ n.toNat) → v.s m = c.w.s m
  value  : ∀ n, o.dst = .s n → (v.s n.toNat).val =
    if pl.out64 then BitVec.ofNat 64 (pl.run (c.laneIn o pl c.uniThread)).val
    else extend32 pl.sext (pl.run (c.laneIn o pl c.uniThread)).val
  full   : ∀ n, o.dst = .s n → (v.s n.toNat).full = true ∧ (v.s n.toNat).poison = c.lanePoison o pl c.uniThread
  preds  : ∀ p, pl.pout ≠ some p → v.p p = c.w.p p
  pred   : ∀ p, pl.pout = some p → p ≠ 7 → ∀ k, c.w.all.getLsbD k = true →
    (v.p p).bits.getLsbD k = (pl.run (c.laneIn o pl c.uniThread)).p

/-- An instruction that computes thread by thread, of a shape that is not long-latency: in both forms it answers a next state
in which its wave is as the shape leaves it, its exceptions are counted (R70), the fragment has moved past the word, and
nothing else has changed. The shape may read the issuing wave, for its rounding mode and tags. -/
def LaneResult (i : Instr) (o : Ops) (shape : Ctx → Plan) : Prop :=
  ∀ (s : State) (c : Ctx), s.ctx? = some c → s.upsets = [] →
    (∀ act, o.anyV = true → c.RunsIn o.guard ((shape c).uses o) act →
      ∃ v, LaneWritten c o (shape c) act v ∧ exec i s = .next (c.next ((s.setWave c.core c.slot v).countAll c.core c.slot c.w.uid
        (tally ((lanes act fun k => (shape c).run (c.laneIn o (shape c) k)).map (·.exc))) c.f.pc c.w.word))) ∧
    (o.anyV = false → c.RunsOnce o.guard ((shape c).uses o) →
      ∃ v, OnceWritten c o (shape c) v ∧ exec i s = .next (c.next ((s.setWave c.core c.slot v).countAll c.core c.slot c.w.uid
        (((shape c).run (c.laneIn o (shape c) c.uniThread)).exc.eraseDups.map fun k => (k, 1)) c.f.pc c.w.word)))

/-- A special function (R47, R158): it answers a next state in which the destination is empty with its tag and an operation
under way holds each thread's value, poison and exceptions until SPECIAL_FUNCTION_COMPLETION. -/
def LongResult (i : Instr) (o : Ops) (shape : Ctx → Plan) : Prop :=
  ∀ (s : State) (c : Ctx), s.ctx? = some c → s.upsets = [] →
    (∀ act, o.anyV = true → c.RunsIn o.guard ((shape c).uses o) act →
      ∃ vals poison org,
        (∀ k, act.getLsbD k = true → vals.getD k 0 = BitVec.ofNat 32 ((shape c).run (c.laneIn o (shape c) k)).val ∧
          poison.getLsbD k = c.lanePoison o (shape c) k) ∧
        exec i s = .next (c.next ((s.addOps c.core [c.op (.value o.dst vals act poison org
            (tally ((lanes act fun k => (shape c).run (c.laneIn o (shape c) k)).map (·.exc))) c.f.pc c.w.word)]).setWave c.core c.slot
          (match o.dst with | .v n => c.w.markEmpty (.v n) ((shape c).tagOut 0) | _ => c.w)))) ∧
    (o.anyV = false → c.RunsOnce o.guard ((shape c).uses o) →
      ∃ org, exec i s = .next (c.next ((s.addOps c.core [c.op (.value o.dst
            [BitVec.ofNat 32 ((shape c).run (c.laneIn o (shape c) c.uniThread)).val] 1
            (if c.lanePoison o (shape c) c.uniThread then 1 else 0) org
            (((shape c).run (c.laneIn o (shape c) c.uniThread)).exc.eraseDups.map fun k => (k, 1)) c.f.pc c.w.word)]).setWave c.core c.slot
          (match o.dst with | .s n => c.w.markEmpty (.s n) 0 | _ => c.w))))

/-- What an exchange between threads leaves of its wave: in every active thread the destination, or the pair of a 64-bit
type, holds the thread's value and poison, with the tag, and is full; every other thread, register and field is unchanged. -/
structure VecWritten (c : Ctx) (dst : Opnd) (act : Mask) (out64 : Bool) (tag : BitVec 5) (val : Nat → Nat) (bad : Nat → Bool)
    (v : Wave) : Prop where
  rest   : v = { c.w with vregs := v.vregs }
  keep   : ∀ m, (∀ n, dst = .v n → m ≠ n.toNat ∧ (out64 = true → m ≠ n.toNat + 1)) → v.v m = c.w.v m
  low    : ∀ n, dst = .v n → ∀ k, act.getLsbD k = true → (v.v n.toNat).vals.getD k 0 = BitVec.ofNat 32 (val k)
  high   : ∀ n, dst = .v n → out64 = true → ∀ k, act.getLsbD k = true →
    (v.v (n.toNat + 1)).vals.getD k 0 = BitVec.ofNat 32 (val k / 2 ^ 32)
  off    : ∀ m k, k < 128 → act.getLsbD k = false → (v.v m).vals.getD k 0 = (c.w.v m).vals.getD k 0
  full   : ∀ n, dst = .v n → (v.v n.toNat).full = true ∧ (v.v n.toNat).tag = tag
  poison : ∀ n, dst = .v n → ∀ k, act.getLsbD k = true → (v.v n.toNat).poison.getLsbD k = bad k

/-- An exchange between threads, or another vector instruction that gives each active thread a value: it answers a next state
in which its wave is as `VecWritten` says, its exceptions are counted, and the fragment has moved past the word. -/
def CrossResult (i : Instr) (o : Ops) (us : Ctx → List Use) (out64 : Bool) (tag : Ctx → BitVec 5) (val : Ctx → Mask → Nat → Nat)
    (bad : Ctx → Mask → Nat → Bool) (evs : Ctx → Mask → List (XClass × Nat)) : Prop :=
  ∀ (s : State) (c : Ctx) (act : Mask), s.ctx? = some c → s.upsets = [] → c.RunsIn o.guard (us c) act → (∀ n, o.dst ≠ .s n) →
    ∃ v, VecWritten c o.dst act out64 (tag c) (val c act) (bad c act) v ∧
      exec i s = .next (c.next ((s.setWave c.core c.slot v).countAll c.core c.slot c.w.uid (evs c act) c.f.pc c.w.word))

/-- The same with a scalar destination, which takes one value and its poison. -/
def GatherResult (i : Instr) (o : Ops) (us : Ctx → List Use) (val : Ctx → Mask → Nat) (bad : Ctx → Mask → Bool)
    (evs : Ctx → Mask → List (XClass × Nat)) : Prop :=
  ∀ (s : State) (c : Ctx) (act : Mask) (n : BitVec 6), s.ctx? = some c → s.upsets = [] → c.RunsIn o.guard (us c) act → o.dst = .s n →
    ∃ org, exec i s = .next (c.next ((s.setWave c.core c.slot
      (c.w.setS n.toNat (SReg.write (BitVec.ofNat 64 (val c act)) (bad c act) org))).countAll c.core c.slot c.w.uid (evs c act) c.f.pc c.w.word))

/-! ### Issuing an instruction -/

/-- The fragment in focus issues as it stands: its wave runs, its turn goes on, it is ready, neither an XLIMIT nor an entry to the
handler is pending, and its pc is a multiple of 4 (R23, R71, R115, R349). -/
structure Ctx.IssuesNow (c : Ctx) : Prop where
  runs   : c.w.runs = true
  turn   : c.w.turnOver = false
  goes   : c.w.ended = false
  ready  : c.s.ready c.core c.w c.f = true
  calm   : c.w.xlimit = []
  enters : c.f.entry = none
  placed : c.f.pc.toNat % 4 = 0

/-- The word that the fragment issues, with the state and the instruction buffer in which it does: the word that the buffer holds for
its pc, else the one it fetches with the words after it (R22, R115, R310). -/
def Ctx.Supplies (c : Ctx) (word : BitVec 96) (s : State) (ibuf : List (DWord × BitVec 96)) : Prop :=
  (c.w.buffered c.f.pc = some word ∧ ibuf = c.w.ibuf ∧ s = c.s) ∨
  (c.w.buffered c.f.pc = none ∧ c.fetch c.user c.f.pc = .word word ∧ ibuf = (c.f.pc, word) :: c.refill 7 (c.f.pc + 12) ∧
    s = c.touchWords (ibuf.map (·.1)))

/-- The state in which the meaning of a word runs: the wave holds the word and a stepped field that left its range, and the issue is
counted (R23, R104, R127). -/
def Ctx.issued (c : Ctx) (s : State) (ibuf : List (DWord × BitVec 96)) (word : BitVec 96) (stray : Option (BitVec 10)) : State :=
  s.setWave c.core c.slot { ({ c.w with word := word, ibuf := ibuf, stray := none } : Wave).modCur Fragment.issue with stray := stray }

/-- What an issue answers: the meaning's state, at which the word's YIELD hint is seen to (R126). -/
def issueOf (i : Instr) (s : State) : Host.Outcome State Fault Refusal := match exec i s with | .next u => .next u.finish | r => r

/-- What an instruction that only computes leaves of the machine: of its wave, what stands in `LaneWritten` and its kin; of its core,
the counts of exceptions (R71); memory, every other wave and every other unit keep what they hold. -/
structure OnlyItsWave (c : Ctx) (o : Ops) (out64 : Bool) (pout : Option Nat) (t : State) : Prop where
  rest   : t = { c.s with uid := t.uid, cores := t.cores }
  memory : ∀ a, t.mem.read a = c.s.mem.read a
  others : ∀ core slot, ¬ (core = c.core ∧ slot = c.slot) → t.wave? core slot = c.s.wave? core slot
  cores  : ∀ k, t.core k = { c.s.core k with
    waves := (t.core k).waves, xwin := (t.core k).xwin, xcum := (t.core k).xcum, xran := (t.core k).xran }
  wave   : ∃ v, t.wave? c.core c.slot = some v ∧ v.fpmode = c.w.fpmode ∧ v.latches = c.w.latches ∧ v.blocks = c.w.blocks ∧
    (∀ m, (∀ n, o.dst = .v n → m ≠ n.toNat ∧ (out64 = true → m ≠ n.toNat + 1)) → v.v m = c.w.v m) ∧
    (∀ m, (∀ n, o.dst = .s n → m ≠ n.toNat) → v.s m = c.w.s m) ∧
    ∀ p, pout ≠ some p → v.p p = c.w.p p

/-- No exception class of a core has the host interrupt among its actions (R72). -/
def State.Quiet (s : State) (core : Nat) : Prop := ∀ k, ((s.core core).threshold k).2 < 2

/-! ### What an instruction answers -/

/-- A vector instruction: wherever it runs in the threads of `act` and `when_` holds, it answers the state `t`. -/
def DoesIn (i : Instr) (g : Guard) (us : List Use) (when_ : Ctx → Mask → Prop) (t : Ctx → Mask → State) : Prop :=
  ∀ (s : State) (c : Ctx) (act : Mask), s.ctx? = some c → c.RunsIn g us act → when_ c act → exec i s = .next (t c act)

/-- A uniform instruction: wherever it runs and `when_` holds, it answers the state `t`. -/
def DoesOnce (i : Instr) (g : Guard) (us : List Use) (when_ : Ctx → Prop) (t : Ctx → State) : Prop :=
  ∀ (s : State) (c : Ctx), s.ctx? = some c → c.RunsOnce g us → when_ c → exec i s = .next (t c)

/-- An instruction with a vector and a uniform form (R184): the uniform form acts as thread 0. -/
def DoesEither (i : Instr) (o : Ops) (us : List Use) (when_ : Ctx → Mask → Prop) (t : Ctx → Mask → State) : Prop :=
  (o.anyV = true → DoesIn i o.guard us when_ t) ∧ (o.anyV = false → DoesOnce i o.guard us (fun c => when_ c 1) fun c => t c 1)

/-- What a memory instruction finds when the bytes `offs` of every thread's address translate for writing (R205): no fault, no
miss, and no misaligned address. -/
def Ctx.Reaches (c : Ctx) (addr : Nat → DWord) (offs : Nat → List Nat) (bad : DWord → Bool) (ts : List Nat) (ps : Nat → List Nat) : Prop :=
  ∀ k ∈ ts, bad (addr k) = false ∧ c.reach true (addr k) (offs k) = .bytes (ps k)

/-- The state in which a store or atomic acts once it has translated: the walks it asked for are used up. -/
def Ctx.translated (c : Ctx) : Ctx := { c with s := c.s.dropWalks c.core c.w.uid }

/-- A queue has room (R231). -/
def Ctx.HasPlace (c : Ctx) (q : Queue) : Prop := c.s.queueLen c.core q < queueDepth q

/-- Queue 1 has room, and so have the scoreboards for the sides of an operation (R82, R231). -/
def Ctx.HasPlace1 (c : Ctx) (sides : List Side) : Prop := c.HasPlace .q1 ∧ (c.s.core c.core).hasRoom c.core sides = true

/-- The state after an operation has entered a queue (R105, R231): it stands in the queue as `add` puts it, the wave counts it as
outstanding, and the fragment has moved past the word. -/
def Ctx.entered (c : Ctx) (q : Queue) (add : Core → Core) (after : State → State) : State :=
  c.next (after ((c.s.setCore c.core (add (c.s.core c.core))).fresh.modWave c.core c.slot fun w =>
    { w with qout := w.qout.put q.num (w.qout.get 0 q.num + 1) }))

/-- The same for queue 1, with the scoreboard entries of the operation's sides on its core (R82). -/
def Ctx.entered1 (c : Ctx) (kind : Q1Kind) (sides : List Side) (after : State → State) : State :=
  c.entered .q1 (fun k => { k.addSides c.core c.s.uid c.w.uid sides with q1 := k.q1 ++ [c.entry 1 true kind] }) after

/-- An event: wherever it is due, it answers the state `t`. -/
def Happens (i : Instr) (due : State → Prop) (t : State → State) : Prop := ∀ s : State, due s → exec i s = .next (t s)

/-- An event: wherever it is due, it answers a next state of which `after` holds beside the state before. -/
def Brings (i : Instr) (due : State → Prop) (after : State → State → Prop) : Prop :=
  ∀ s : State, due s → ∃ t, exec i s = .next t ∧ after s t

/-- The k-th memory operation of a core may take effect: no earlier access of its wave to its lines is under way (R112). -/
def State.MayPerform (s : State) (core k : Nat) (m : MemOp) : Prop := (s.core core).memq[k]? = some m ∧ s.opHeld core k m = false

/-- An operation at the head of a queue 1 may run: nothing stands before it, and it has its scoreboard entries on other cores
(R82, R105). -/
def State.Runs1 (s : State) (core : Nat) (e : QEntry Q1Kind) : Prop :=
  (s.core core).q1.head? = some e ∧ e.clear s core = true ∧ e.unentered s core = []

/-- A core has no operation of a number left. -/
def State.OpGone (s : State) (core id : Nat) : Prop := ∀ m ∈ (s.core core).memq, m.id ≠ id

/-- A walker of a sector walks for one request (R375, R384): the lines that it reads are to be had, and the state is that after reading them. -/
def State.Walks (s : State) (sector k : Nat) (w : Walk) (out : State → WalkOut → Prop) : Prop :=
  k < 64 ∧ ((s.walksOf sector).filter fun x => x.walker = some k) = [w] ∧ s.walkWaits w.part w.va = false ∧
    out (s.touchWalk w.part w.va) ((s.touchWalk w.part w.va).walk w.part ⟨w.write, w.fetch, w.user⟩ w.va)

/-- The host link carries an access: power is on, and its stream, if it has one, has not ended (R410, R422). -/
def State.LinkCarries (s : State) (addr : Nat) : Prop := s.linkDrops addr = false ∧ s.dev.power ≠ .d3cold

/-- A recovery command of an operation is in progress (R447). -/
def State.RcvRuns (s : State) (op : Nat) : Prop := s.dev.rcvBusy = true ∧ s.dev.rcvCmd.toNat % 16 = op ∧ s.dev.power ≠ .d3cold

/-- A recovery command has started (R447). -/
def State.rcvStarted (s : State) (cmd : DWord) : State :=
  { s with dev := { s.dev with rcvCmd := cmd &&& 0x3FFF1F#64, rcvBusy := true, rcvAt := 0 } }

/-- A packet of a TYPE stands at the head of a queue's issue stage, well-formed; the queue has nothing left to write of what came
before (R358, R362). -/
def State.AtHead (s : State) (part q type : Nat) (p : Packet) : Prop :=
  (s.fq part q).owes = false ∧ (s.fq part q).head = some p ∧ p.fail = none ∧ pktOk p.body (s.fq part q).supok = true ∧ pktType p.body = type

/-- The packet at the head of a queue has started, which leaves the state `s0`: of a ring packet ISS is written, unless it was before
(R362). -/
def State.Starts (s : State) (part q : Nat) (p : Packet) (s0 : State) : Prop :=
  let f := s.fq part q
  if !p.sub.isEmpty || f.iss = p.seq + 1 then s0 = s
  else ∃ s1, s.writeBlock part q f.acc (p.seq + 1) f.cmp = (s1, true) ∧ s0 = s1.modFq part q fun g => { g with iss := p.seq + 1 }

/-- The responder has answered a request (R423). -/
def State.answered (s : State) (a : SpdmAnswer) : State := { s with dev := { s.dev with answers := s.dev.answers ++ [a] } }

/-- The responder answers a requester (R423, R449). -/
def State.Answers (s : State) (r : SpdmReq) : Prop := 2 ≤ s.dev.stage ∧ s.requesterOk r.from_ = true

end Sys2Proof.Machine
end

