-- ==== Sys2Proof/Certificates/Slice0/Obligations.lean ====
section
/-!
DEFINITION. The statements for the provers. Each is about every state and every operand that meets its hypotheses; where an
instruction completes it says so as an equation, `exec i s = .next t`, in the terms of Sys2Proof/Safety.lean and of the shared
operations of the model.
-/
section
open Sys2Proof Sys2Proof.Machine

/-! ### Thread-by-thread instructions (R130 to R172) -/

/-- Fitting a value into an integer type (R134): without .sat it wraps to the n low bits and counts nothing; with .sat a value
outside the range of the type is clamped to its nearer end and counts SAT, and one inside is kept. -/
def Obligations.FittingWrapsOrClamps : Prop :=
  ∀ (ty : Ty) (y : Int),
    (fit ty false y).exc = [] ∧ ((fit ty false y).val : Int) = y % 2 ^ tyBits ty ∧
    (let lo := (intRange (tySigned ty) (tyBits ty)).1
     let hi := (intRange (tySigned ty) (tyBits ty)).2
     tyVal ty (fit ty true y).val = max lo (min hi y) ∧ ((fit ty true y).exc = [XClass.sat] ↔ (y < lo ∨ hi < y)) ∧
     ((fit ty true y).exc = [] ↔ (lo ≤ y ∧ y ≤ hi)))

/-- Group 0, arithmetic (R136 to R140): the value of each active thread, in both forms. -/
def Obligations.IntegerArithmeticResults : Prop :=
  (∀ o ty sat, LaneResult (.iadd o ty sat) o fun _ => intPlan ty fun x => fit ty sat (tyVal ty x.a + tyVal ty x.b)) ∧
  (∀ o ty sat, LaneResult (.isub o ty sat) o fun _ => intPlan ty fun x => fit ty sat (tyVal ty x.a - tyVal ty x.b)) ∧
  (∀ o ty sat, LaneResult (.ineg o ty sat) o fun _ => intPlan ty fun x => fit ty sat (-tyVal ty x.a)) ∧
  (∀ o ty sat, LaneResult (.iabs o ty sat) o fun _ => intPlan ty fun x => fit ty sat (tyVal ty x.a).natAbs) ∧
  (∀ o ty ci pc sub, LaneResult (.iaddc o ty ci pc sub) o fun _ =>
    { intPlan ty (fun x => addCarry (tyBits ty) sub (if ci then x.p else sub) x.a x.b) with
      pin := if ci then some (pc.toNat, false) else none, pout := some pc.toNat }) ∧
  (∀ o ty sat, LaneResult (.imul o ty sat) o fun _ => intPlan ty fun x => fit ty sat (tyVal ty x.a * tyVal ty x.b)) ∧
  (∀ o ty, LaneResult (.imulh o ty) o fun _ =>
    intPlan ty fun x => { val := wrapN (2 * tyBits ty) (tyVal ty x.a * tyVal ty x.b) / 2 ^ tyBits ty }) ∧
  (∀ o ty, LaneResult (.imulw o ty) o fun _ => { intPlan ty (fun x => { val := wrapN 64 (tyVal ty x.a * tyVal ty x.b) }) with out64 := true }) ∧
  (∀ o ty sat, LaneResult (.imad o ty sat) o fun _ =>
    { intPlan ty (fun x => fit ty sat (tyVal ty x.a * tyVal ty x.b + tyVal ty x.d)) with readD := true }) ∧
  (∀ o ty, LaneResult (.imin o ty) o fun _ => intPlan ty fun x => { val := wrapN (tyBits ty) (min (tyVal ty x.a) (tyVal ty x.b)) }) ∧
  (∀ o ty, LaneResult (.imax o ty) o fun _ => intPlan ty fun x => { val := wrapN (tyBits ty) (max (tyVal ty x.a) (tyVal ty x.b)) }) ∧
  (∀ o ty sat, LaneResult (.iaddmin o ty sat) o fun _ => { intPlan ty (addThen ty sat min) with readD := true }) ∧
  (∀ o ty sat, LaneResult (.iaddmax o ty sat) o fun _ => { intPlan ty (addThen ty sat max) with readD := true }) ∧
  (∀ o ty cond, LaneResult (.icmp o ty cond) o fun _ =>
    { intPlan ty (fun x => { p := icondHolds cond (tyVal ty x.a) (tyVal ty x.b) }) with pout := some (Opnd.predNum o.dst) })

/-- Group 0, logic, shifts, bit fields, counts and byte permutation (R141 to R146), with a register destination.

Group 0, selection, moves, addresses and dot products (R147 to R151). MOV here moves between registers, or from a
predicate to a vector register. -/
def Obligations.IntegerBitAndMoveResults : Prop :=
  (
    (∀ o ty, o.dst.isP = false → LaneResult (.and o ty) o fun _ => bitPlan ty fun x => { val := x.a &&& x.b }) ∧
    (∀ o ty, o.dst.isP = false → LaneResult (.or o ty) o fun _ => bitPlan ty fun x => { val := x.a ||| x.b }) ∧
    (∀ o ty, o.dst.isP = false → LaneResult (.xor o ty) o fun _ => bitPlan ty fun x => { val := x.a ^^^ x.b }) ∧
    (∀ o ty, o.dst.isP = false → LaneResult (.andn o ty) o fun _ => bitPlan ty fun x => { val := andNot (tyBits ty) x.a x.b }) ∧
    (∀ o ty, o.dst.isP = false → LaneResult (.not o ty) o fun _ => bitPlan ty fun x => { val := 2 ^ tyBits ty - 1 - x.a }) ∧
    (∀ o ty, LaneResult (.shl o ty) o fun _ => { bitPlan ty (fun x => { val := shlBits (tyBits ty) x.a x.b }) with tyB := .b32 }) ∧
    (∀ o ty, LaneResult (.shr o ty) o fun _ => { bitPlan ty (fun x => { val := shrBits (tyBits ty) x.a x.b }) with tyB := .b32 }) ∧
    (∀ o ty, LaneResult (.sar o ty) o fun _ => { bitPlan ty (fun x => { val := sarBits (tyBits ty) x.a x.b }) with tyB := .b32 }) ∧
    (∀ o ty, LaneResult (.rot o ty) o fun _ => { bitPlan ty (fun x => { val := rotBits (tyBits ty) x.a x.b }) with tyB := .b32 }) ∧
    (∀ o, LaneResult (.fshl o) o fun _ => { bitPlan .b32 (fun x => { val := funnelLeft x.d x.a x.b }) with readD := true }) ∧
    (∀ o, LaneResult (.fshr o) o fun _ => { bitPlan .b32 (fun x => { val := funnelRight x.d x.a x.b }) with readD := true }) ∧
    (∀ o ty, LaneResult (.bfx o ty) o fun _ => intPlan ty fun x => { val := bitFieldExtract (tySigned ty) x.a x.b }) ∧
    (∀ o, LaneResult (.bfi o) o fun _ => { bitPlan .b32 (fun x => { val := bitFieldInsert x.d x.a x.b }) with readD := true }) ∧
    (∀ o ty, LaneResult (.popc o ty) o fun _ => countPlan ty (popCount (tyBits ty))) ∧
    (∀ o ty, LaneResult (.clz o ty) o fun _ => countPlan ty (leadZeros (tyBits ty))) ∧
    (∀ o ty, LaneResult (.ctz o ty) o fun _ => countPlan ty (trailZeros (tyBits ty))) ∧
    (∀ o ty, LaneResult (.brev o ty) o fun _ => bitPlan ty fun x => { val := reverseBits (tyBits ty) x.a }) ∧
    (∀ o, LaneResult (.bperm o) o fun _ => { bitPlan .b32 (fun x => { val := bytePermute x.d x.a x.b }) with readD := true })) ∧
  (
    (∀ o ty ps neg, LaneResult (.sel o ty ps neg) o fun c => { bitPlan ty (fun x => { val := if x.p then x.a else x.b }) with
      pin := some (ps.toNat, neg), pick := true, tagOut := c.w.selTag o ty }) ∧
    (∀ o ty, o.dst ≠ .exec → o.dst.isP = false → o.a.isP = false → LaneResult (.mov o ty) o fun c =>
      { bitPlan ty (fun x => { val := x.a }) with tagOut := fun i => (c.w.tagHalf o.a i).getD (untagged ty) }) ∧
    (∀ o ty n k, o.dst = .v n → o.a = .p k → LaneResult (.mov o ty) o fun _ =>
      { bitPlan ty (fun x => { val := x.a }) with tagOut := fun _ => 2 }) ∧
    (∀ o ty n k, o.dst = .p n → o.a = .v k → LaneResult (.mov o ty) o fun _ =>
      { bitPlan ty (fun x => { p := x.a != 0 }) with pout := some n.toNat }) ∧
    (∀ o ty, LaneResult (.movi o ty) o fun _ => intPlan ty fun _ => { val := wrapN (tyBits ty) o.imm.toInt }) ∧
    (∀ o ty part, LaneResult (.movh o ty part) o fun _ => { intPlan ty (fun x =>
        { val := x.d / 2 ^ ((movhField part).1 + (movhField part).2) * 2 ^ ((movhField part).1 + (movhField part).2) +
            o.imm.toNat % 2 ^ (movhField part).2 * 2 ^ (movhField part).1 + x.d % 2 ^ (movhField part).1 }) with readD := true }) ∧
    (∀ o ty scale, LaneResult (.lea o ty scale) o fun _ => {
      tyA := .n64, tyB := ty, tagA := addrTags, tagB := fun _ => ty.tags, out64 := true, tagOut := ptrTag
      run := fun x => { val := wrapN 64 ((x.a : Int) + tyVal ty x.b * (2 ^ scale.toNat : Nat)) } }) ∧
    (∀ o sub, LaneResult (.iadd64 o sub) o fun _ => {
      tyA := .n64, tyB := .n64, tagA := addrTags, tagB := fun i => some [0, 1, 2, if i = 0 then 14 else 15], out64 := true, tagOut := ptrTag
      run := fun x => { val := wrapN 64 (if sub then (x.a : Int) - x.b else (x.a : Int) + x.b) } }) ∧
    (∀ o ty sat mix, LaneResult (.idp4 o ty sat mix) o fun _ => dotPlan ty sat mix 4 8) ∧
    (∀ o ty sat mix, LaneResult (.idp2 o ty sat mix) o fun _ => dotPlan ty sat mix 2 16))

/-- A logic or move instruction over predicates (R141, R148) writes every thread of its destination predicate, whatever exec
holds, with the poison of its sources; the fragment moves past the word.

The execute mask (R148, R195): MOV from exec and EXECS save the fragment's exec in a predicate; MOV to exec, EXECS and
EXECR keep exec within the fragment's live threads. -/
def Obligations.PredicateAndExecResults : Prop :=
  (
    let does := fun (i : Instr) (o : Ops) (f : Mask → Mask → Mask) =>
      DoesOnce i o.guard [] (fun _ => True) fun c => c.done (c.w.setP (Opnd.predNum o.dst) ((c.w.p (Opnd.predNum o.dst)).write c.w.all
        (f (c.w.predBits o o.a) (c.w.predBits o o.b))
        (c.w.poisonOf (match o.a with | .p n => .p n | _ => .zero) ||| c.w.poisonOf (match o.b with | .p n => .p n | _ => .zero))
        (if c.w.predData o.a || c.w.predData o.b then Origin.data else .fault)))
    (∀ o ty, o.dst.isP = true → does (.and o ty) o (fun a b => a &&& b)) ∧
    (∀ o ty, o.dst.isP = true → does (.or o ty) o (fun a b => a ||| b)) ∧
    (∀ o ty, o.dst.isP = true → does (.xor o ty) o (fun a b => a ^^^ b)) ∧
    (∀ o ty, o.dst.isP = true → does (.andn o ty) o (fun a b => a &&& ~~~b)) ∧
    (∀ o ty, o.dst.isP = true → does (.not o ty) o (fun a _ => ~~~a)) ∧
    (∀ o ty, o.dst.isP = true → o.a ≠ .exec → o.a.isV = false → does (.mov o ty) o (fun a _ => a))) ∧
  (
    (∀ o ty n, o.dst = .p n → o.a = .exec → DoesOnce (.mov o ty) o.guard [] (fun _ => True) fun c =>
      c.done (c.w.setP n.toNat ((c.w.p n.toNat).write c.w.all c.f.exec 0 .fault))) ∧
    (∀ o ty (s : State) (c : Ctx), o.dst = .exec → s.ctx? = some c → c.RunsLive o.guard (predUse o.a) →
      exec (.mov o ty) s = .next (c.done (c.w.modCur fun f => { f with exec := c.w.predBits o o.a &&& f.live }))) ∧
    (∀ o n m (s : State) (c : Ctx), o.dst = .p n → o.a = .p m → s.ctx? = some c → c.RunsLive o.guard (predUse o.a) →
      exec (.execs o) s = .next (c.done ((c.w.setP n.toNat ((c.w.p n.toNat).write c.w.all c.f.exec 0 .fault)).modCur
        fun f => { f with exec := f.exec &&& (c.w.p m.toNat).bits }))) ∧
    (∀ o m (s : State) (c : Ctx), o.a = .p m → s.ctx? = some c → c.RunsLive o.guard (predUse o.a) →
      exec (.execr o) s = .next (c.done (c.w.modCur fun f => { f with exec := (c.w.p m.toNat).bits &&& f.live }))))

/-- Group 1 (R155 to R165), but for the special functions: each result is the exact value of its elements rounded once in the
mode of the instruction.

The special functions (R47, R158, R159): the destination is empty until SPECIAL_FUNCTION_COMPLETION. -/
def Obligations.FloatingPointResults : Prop :=
  (
    (∀ o ty rnd, LaneResult (.fadd o ty rnd) o fun c =>
      floatPlan ty (mapElems ty fun a b _ => (fmtOf ty).add (c.mode rnd) false (c.flushes ty) a b)) ∧
    (∀ o ty rnd, LaneResult (.fsub o ty rnd) o fun c =>
      floatPlan ty (mapElems ty fun a b _ => (fmtOf ty).sub (c.mode rnd) false (c.flushes ty) a b)) ∧
    (∀ o ty rnd, LaneResult (.fmul o ty rnd) o fun c =>
      floatPlan ty (mapElems ty fun a b _ => (fmtOf ty).times (c.mode rnd) false (c.flushes ty) a b)) ∧
    (∀ o ty rnd, LaneResult (.ffma o ty rnd) o fun c =>
      { floatPlan ty (mapElems ty fun a b d => (fmtOf ty).fma (c.mode rnd) false (c.flushes ty) a b d) with readD := true }) ∧
    (∀ o ty, LaneResult (.fmin o ty) o fun c => floatPlan ty (mapElems ty fun a b _ => (fmtOf ty).minMax (c.flushes ty) false a b)) ∧
    (∀ o ty, LaneResult (.fmax o ty) o fun c => floatPlan ty (mapElems ty fun a b _ => (fmtOf ty).minMax (c.flushes ty) true a b)) ∧
    (∀ o ty cond hi, LaneResult (.fcmp o ty cond hi) o fun c =>
      { floatPlan ty (fun x => fcompare cond ((fmtOf ty).flushed (c.flushes ty) (hiElem ty hi x.a)) ((fmtOf ty).flushed (c.flushes ty) (hiElem ty hi x.b)))
        with pout := some (Opnd.predNum o.dst) }) ∧
    (∀ o ty hi, LaneResult (.fclass o ty hi) o fun _ => { floatPlan ty (fun x => { p := bitOf x.b (classOf (fmtOf ty) (hiElem ty hi x.a)) }) with
      tyB := .b32, tagB := fun _ => none, pout := some (Opnd.predNum o.dst) }) ∧
    (∀ o ty rnd, LaneResult (.frnd o ty rnd) o fun c =>
      floatPlan ty (mapElems ty fun a _ _ => (fmtOf ty).toIntegral (c.mode rnd) (c.flushes ty) a)) ∧
    (∀ o ty rnd, LaneResult (.fscaleb o ty rnd) o fun c =>
      { floatPlan ty (fun x => packElems (fmtOf ty).bits (32 / (fmtOf ty).bits) fun i =>
          (fmtOf ty).scale (c.mode rnd) (c.flushes ty) (elem (fmtOf ty).bits x.a i) (sVal 32 x.b)) with
        tyB := .s32, tagB := fun _ => Ty.s32.tags }) ∧
    (∀ o, LaneResult (.fexpt o) o fun _ => { floatPlan .f32 (fun x => exponentOf x.a) with tagOut := fun _ => 1 }) ∧
    (∀ o ty rnd hi sat sty, LaneResult (.fcvt o ty rnd hi sat sty) o fun c =>
      { floatPlan sty (fun x =>
          if ty = .f32 then packElems 32 1 fun _ => convert (fmtOf sty) (fmtOf ty) (c.mode rnd) sat (c.flushes sty) (c.flushes ty) (hiElem sty hi x.a)
          else packElems 16 2 fun i => convert (fmtOf sty) (fmtOf ty) (c.mode rnd) sat (c.flushes sty) (c.flushes ty) (if i = 0 then x.a else x.b))
        with tagOut := fun _ => ty.tag }) ∧
    (∀ o ty rnd hi sty, LaneResult (.fcvti o ty rnd hi sty) o fun c =>
      { floatPlan sty (fun x =>
          let v := (fmtOf sty).flushed (c.flushes sty) (hiElem sty hi x.a)
          let r := toIntSat (c.mode rnd) (tySigned ty) (tyBits ty) v
          { val := r.bits, exc := nanExc [v] ++ r.exc })
        with out64 := ty.is64, tagOut := fun _ => ty.tag }) ∧
    (∀ o ty rnd sat sty, LaneResult (.icvtf o ty rnd sat sty) o fun c =>
      { intPlan sty (fun x =>
          if ty = .f32 then packElems 32 1 fun _ => (fmtOf ty).fromVal (c.mode rnd) sat (c.flushes ty) (FVal.ofInt (tyVal sty x.a))
          else packElems 16 2 fun i => (fmtOf ty).fromVal (c.mode rnd) sat (c.flushes ty) (FVal.ofInt (tyVal sty (if i = 0 then x.a else x.b))))
        with out64 := false, sext := false, tagOut := fun _ => ty.tag }) ∧
    (∀ o ty rnd, LaneResult (.fdot2 o ty rnd) o fun c =>
      { floatPlan ty (fun x => dotFloat (c.mode rnd) x.d
          ((List.range 2).map fun i => (fmtOf ty).flushed (c.flushes ty) (elem 16 x.a i))
          ((List.range 2).map fun i => (fmtOf ty).flushed (c.flushes ty) (elem 16 x.b i)))
        with tyD := .f32, tagD := fun _ => Ty.f32.tags, readD := true, tagOut := fun _ => 3 })) ∧
  (
    (∀ o rnd, LongResult (.frcp o rnd) o fun c => sfuPlan (frcp (c.mode rnd))) ∧
    (∀ o rnd, LongResult (.fsqrt o rnd) o fun c => sfuPlan (fsqrt (c.mode rnd))) ∧
    (∀ o, LongResult (.frsq o) o fun _ => sfuPlan frsq) ∧
    (∀ o, LongResult (.fexp2 o) o fun _ => sfuPlan fexp2) ∧
    (∀ o, LongResult (.flog2 o) o fun _ => sfuPlan flog2) ∧
    (∀ o, LongResult (.fsinpi o) o fun _ => sfuPlan fsinpi) ∧
    (∀ o, LongResult (.fcospi o) o fun _ => sfuPlan fcospi) ∧
    (∀ o, LongResult (.ftanh o) o fun _ => sfuPlan ftanh))

/-- Packed arithmetic, conversions and FP8 dot products (R167 to R169): every element of the result. -/
def Obligations.PackedResults : Prop :=
  (∀ o ty rnd sat, LaneResult (.padd o ty rnd sat) o fun c =>
    packPlan ty (fun a b _ => fitIn (tySigned ty) (packBits ty) sat (a + b)) (fun a b _ => (fmtOf ty).add (c.mode rnd) sat false a b)) ∧
  (∀ o ty rnd sat, LaneResult (.pmul o ty rnd sat) o fun c =>
    packPlan ty (fun a b _ => fitIn (tySigned ty) (packBits ty) sat (a * b)) (fun a b _ => (fmtOf ty).times (c.mode rnd) sat false a b)) ∧
  (∀ o ty rnd sat, LaneResult (.pfma o ty rnd sat) o fun c =>
    { packPlan ty (fun a b d => fitIn (tySigned ty) (packBits ty) sat (a * b + d))
        (fun a b d => (fmtOf ty).fma (c.mode rnd) sat false a b d) with readD := true }) ∧
  (∀ o ty, LaneResult (.pmin o ty) o fun _ =>
    packPlan ty (fun a b _ => { val := wrapN (packBits ty) (min a b) }) (fun a b _ => (fmtOf ty).minMax false false a b)) ∧
  (∀ o ty, LaneResult (.pmax o ty) o fun _ =>
    packPlan ty (fun a b _ => { val := wrapN (packBits ty) (max a b) }) (fun a b _ => (fmtOf ty).minMax false true a b)) ∧
  (∀ o ty rnd sat sty pick de8 se8, LaneResult (.pcvt o ty rnd sat sty pick de8 se8) o fun c => {
      tyA := .b32, tagA := fun _ => some [0, (cvtTag sty se8).toNat], tagB := fun _ => some [0, (cvtTag sty se8).toNat]
      tagD := fun _ => some [0, (cvtTag ty de8).toNat], readD := pcvtPartial ty sty de8 se8, tagOut := fun _ => cvtTag ty de8
      run := cvtWord (cvtCount ty de8) (cvtCount sty se8) pick.toNat
        (cvtElem (cvtTy sty se8) (cvtTy ty de8) (c.mode rnd) sat (!se8 && c.flushes sty) (!de8 && c.flushes ty)) }) ∧
  (∀ o ty rnd mix, LaneResult (.pdot4 o ty rnd mix) o fun c =>
    { floatPlan ty (fun x => dotFloat (c.mode rnd) x.d ((List.range 4).map fun i => (fmtOf ty).value (elem 8 x.a i))
        ((List.range 4).map fun i => (fmtOf (mixFp8 ty mix)).value (elem 8 x.b i)))
      with tyB := mixFp8 ty mix, tagB := fun _ => (mixFp8 ty mix).tags, tyD := .f32, tagD := fun _ => Ty.f32.tags, readD := true
           tagOut := fun _ => 3 })

/-- CBDEC (R170): two codes of each thread become the two BF16 entries of the codebook in a tile register that carries BF16X2
or RAW; a poisoned entry poisons the thread that reads it. The table is the one that stands at issue: of a load of it under way each word may have been
written or not, as a free value says (assumption 47), and the words found written stay written.

CBENC (R171): the four BF16 values of each thread become codes in one half of the destination, whose other half stays; a
poisoned table word poisons every thread.

RETAG (R46, R172) writes a tag and nothing else: bits, full/empty and poison stay, in a vector register and in a tile
register. -/
def Obligations.CodebookAndTagResults : Prop :=
  (
    ∀ (o : Ops) (pick : BitVec 2) (tile : BitVec 3) (s : State) (c : Ctx) (act : Mask), s.ctx? = some c → s.upsets = [] →
      o.anyV = true → (∀ n, o.dst ≠ .s n) →
      c.RunsIn o.guard (({ tyA := .b32, tagA := fun _ => some [0, 9], run := fun _ => {} } : Plan).uses o) act →
      ((s.tile c.core tile.toNat).tag = 5 ∨ (s.tile c.core tile.toNat).tag = 0) →
      let entry := fun (k e : Nat) => ((c.table tile.toNat).codebook.getD (decCode pick.toNat (c.w.valueA c.f.exec o .b32 .b32 k) e) (0, false))
      ∃ v, VecWritten c o.dst act false 5 (fun k => (entry k 0).1.toNat + 2 ^ 16 * (entry k 1).1.toNat)
          (fun k => c.w.poisonA o false false k || c.w.poisonAt o.b false k || (entry k 0).2 || (entry k 1).2) v ∧
        exec (.cbdec o pick tile) s = .next (c.next ((c.tabled tile.toNat).draw.setWave c.core c.slot v))) ∧
  (
    ∀ (o : Ops) (h : Bool) (tile : BitVec 3) (s : State) (c : Ctx) (act : Mask), s.ctx? = some c → s.upsets = [] →
      o.anyV = true → (∀ n, o.dst ≠ .s n) →
      c.RunsIn o.guard (({ tyA := .b32, tagA := fun _ => some [0, 5], tagB := fun _ => some [0, 5], tagD := fun _ => some [0, 9], readD := true
                           run := fun _ => {} } : Plan).uses o) act →
      ((s.tile c.core tile.toNat).tag = 5 ∨ (s.tile c.core tile.toNat).tag = 0) →
      let book := (c.table tile.toNat).codebook.map fun e => bf16.value e.1.toNat
      let codes := fun (k : Nat) =>
        let a := c.w.valueA c.f.exec o .b32 .b32 k
        let b := c.w.value c.f.exec o.b .b32 o.imm k
        [elem 16 a 0, elem 16 a 1, elem 16 b 0, elem 16 b 1].map fun x => encodeCode book (bf16.flushed c.flush x)
      let half := fun (k : Nat) => (codes k).foldr (fun r acc => r.bits + 16 * acc) 0
      let d := fun (k : Nat) => c.w.value c.f.exec o.dst .b32 o.imm k
      ∃ v, VecWritten c o.dst act false 9
          (fun k => if h then d k % 2 ^ 16 + 2 ^ 16 * half k else d k / 2 ^ 16 * 2 ^ 16 + half k)
          (fun k => c.w.poisonA o false false k || c.w.poisonAt o.b false k || c.w.poisonAt o.dst false k ||
            ((c.table tile.toNat).poison.any fun p => p.1 < 8)) v ∧
        exec (.cbenc o h tile) s = .next (c.next (((c.tabled tile.toNat).draw.setWave c.core c.slot v).countAll c.core c.slot c.w.uid
          (tally ((lanes act fun k => { val := 0, exc := (codes k).flatMap (·.exc) }).map (·.exc))) c.f.pc c.w.word))) ∧
  (
    (∀ o n tag, o.dst = .v n → DoesIn (.retag o tag) o.guard [] (fun c _ => n.toNat < 16 * c.w.blocks) fun c _ =>
      c.done (c.w.setV n.toNat { c.w.v n.toNat with tag := tag })) ∧
    (∀ o n tag, o.dst = .t n → DoesOnce (.retag o tag) o.guard [] (fun _ => True) fun c =>
      c.next (c.s.setCore c.core { c.s.core c.core with
        tiles := (c.s.core c.core).tiles.put n.toNat { (c.s.core c.core).tiles.get Tile.fresh n.toNat with tag := tag } })))

/-! ### Cross-lane instructions (R173 to R183) -/

/-- SHFL, SHFLI, LSH and BCAST (R174 to R176): the source thread of each active thread, and what a thread outside the wave
gives. -/
def Obligations.ExchangeResults : Prop :=
  (∀ o ty fill, CrossResult (.shfl o ty fill) o
    (fun _ => crossUses o ty.is64 (usesOf o.b false o.feB true false false fun _ => some [0, 1, 2])) ty.is64 (fun c => c.tagOfA o 0)
    (fun c _ k =>
      let u := c.w.value c.f.exec o.b .b32 o.imm k % 2 ^ 32
      if u < c.w.width then c.w.value c.f.exec o.a ty 0 u else if fill then 0 else c.w.value c.f.exec o.a ty 0 k)
    (fun c _ k =>
      let u := c.w.value c.f.exec o.b .b32 o.imm k % 2 ^ 32
      c.w.poisonAt o.b false k ||
        (if u < c.w.width then c.w.poisonAt o.a ty.is64 u else if fill then false else c.w.poisonAt o.a ty.is64 k))
    fun _ _ => []) ∧
  (∀ o ty mode wrel fill, CrossResult (.shfli o ty mode wrel fill) o (fun _ => crossUses o ty.is64 []) ty.is64 (fun c => c.tagOfA o 0)
    (fun c _ k =>
      let u := shfliSource mode (if wrel then c.w.width >>> o.imm.toNat else o.imm.toNat) k
      if 0 ≤ u ∧ u < c.w.width then c.w.value c.f.exec o.a ty 0 u.toNat else if fill then 0 else c.w.value c.f.exec o.a ty 0 k)
    (fun c _ k =>
      let u := shfliSource mode (if wrel then c.w.width >>> o.imm.toNat else o.imm.toNat) k
      if 0 ≤ u ∧ u < c.w.width then c.w.poisonAt o.a ty.is64 u.toNat else if fill then false else c.w.poisonAt o.a ty.is64 k)
    fun _ _ => []) ∧
  (∀ o ty, CrossResult (.lsh o ty) o
    (fun c => crossUses o ty.is64 (usesOf o.b ty.is64 o.feB true false false fun i =>
      if c.tagOfA o i = 0 then none else some [0, (c.tagOfA o i).toNat])) ty.is64 (fun c => c.tagOfA o 0)
    (fun c _ k =>
      let u : Int := (k : Int) - o.imm.toInt
      if 0 ≤ u ∧ u < c.w.width then c.w.value c.f.exec o.a ty 0 u.toNat else c.w.value c.f.exec o.b ty 0 k)
    (fun c _ k =>
      let u : Int := (k : Int) - o.imm.toInt
      if 0 ≤ u ∧ u < c.w.width then c.w.poisonAt o.a ty.is64 u.toNat else c.w.poisonAt o.b ty.is64 k)
    fun _ _ => []) ∧
  (∀ o ty,
    let us := crossUses o ty.is64 (usesOf o.b false o.feB true false false fun _ => none)
    let u := fun (c : Ctx) => c.w.value c.f.exec o.b .b32 o.imm 0 % 2 ^ 32 % c.w.width
    let bad := fun (c : Ctx) => c.w.poisonAt o.a ty.is64 (u c) || c.w.poisonAt o.b false 0
    CrossResult (.bcast o ty) o (fun _ => us) ty.is64 (fun c => c.tagOfA o 0) (fun c _ _ => c.w.value c.f.exec o.a ty 0 (u c)) (fun c _ _ => bad c)
      (fun _ _ => []) ∧
    GatherResult (.bcast o ty) o (fun _ => us) (fun c _ => c.w.value c.f.exec o.a ty 0 (u c)) (fun c _ => bad c) fun _ _ => [])

/-- REDSTEP, REDUCE and SCAN (R177 to R179): the order in which the contributing threads are combined, with the identity of
the operation where a thread does not contribute. -/
def Obligations.ReductionResults : Prop :=
  (∀ o ty op j,
    let pair := fun (c : Ctx) (k : Nat) =>
      (c.chosen o ty true k k).combine op ty (c.mode .fpmode) (c.chosen o ty true (k ^^^ (c.w.width >>> j.toNat) : Nat) k)
    CrossResult (.redstep o ty op j) o (fun _ => reduceUses o ty) false (fun _ => ty.tag) (fun c _ k => (pair c k).out.val)
      (fun c _ k => badOf (pair c k).bad) fun c act => tally ((lanes act fun k => (pair c k).out).map (·.exc))) ∧
  (∀ o ty op,
    let total := fun (c : Ctx) (act : Mask) =>
      (reduceTree c.w.width (CrossOut.combine op ty (c.mode .fpmode)) (c.leaves o op ty act)).headD {}
    let evs := fun (n : Nat) (c : Ctx) (act : Mask) => (allClasses.filter fun k => (total c act).out.exc.contains k).map fun k => (k, n)
    ((∃ n, o.dst = .v n) → CrossResult (.reduce o ty op) o (fun _ => reduceUses o ty) false (fun _ => ty.tag) (fun c act _ => (total c act).out.val)
      (fun c act _ => badOf (total c act).bad) fun c act => evs act.threads.length c act) ∧
    GatherResult (.reduce o ty op) o (fun _ => reduceUses o ty) (fun c act => (total c act).out.val) (fun c act => badOf (total c act).bad)
      (evs 1)) ∧
  (∀ o ty op excl,
    let prefixes := fun (c : Ctx) (act : Mask) => scanTree c.w.width (CrossOut.combine op ty (c.mode .fpmode)) (c.leaves o op ty act)
    let at_ := fun (c : Ctx) (act : Mask) (k : Nat) =>
      if excl then (if k = 0 then { out := { val := identityOf op ty } } else (prefixes c act).getD (k - 1) {}) else (prefixes c act).getD k {}
    CrossResult (.scan o ty op excl) o (fun _ => reduceUses o ty) false (fun _ => ty.tag) (fun c act k => (at_ c act k).out.val)
      (fun c act k => badOf (at_ c act k).bad) fun c act => tally ((lanes act fun k => (at_ c act k).out).map (·.exc)))

/-- BALLOT, VOTE, ELECT and MATCH (R180 to R183) look at the contributing threads: active, with a true guard. MATCH writes every active
thread, a non-contributing one too. -/
def Obligations.VoteResults : Prop :=
  (∀ o hi n d, o.a = .p n → o.dst = .s d → DoesOnce (.ballot o hi) o.guard (scalarDst o) (fun _ => True) fun c =>
    let m := c.f.exec &&& c.w.guardBits o.guard
    let bad := (c.w.p n.toNat).poison &&& m != 0
    c.done (c.w.setS d.toNat (SReg.write (((c.w.p n.toNat).bits &&& m).extractLsb' (64 * hi.toNat) 64) bad
      (if bad then (c.w.p n.toNat).origin else .fault)))) ∧
  (∀ o kind n d, o.a = .p n → o.dst = .p d → DoesOnce (.vote o kind) o.guard [] (fun _ => True) fun c =>
    let m := c.f.exec &&& c.w.guardBits o.guard
    let bits := (c.w.p n.toNat).bits &&& m
    let x := match kind with | .any => bits != 0 | .all => bits == m | .uni => bits == 0 || bits == m
    let bad := (c.w.p n.toNat).poison &&& m != 0
    c.done (c.w.setP d.toNat ((c.w.p d.toNat).write c.w.all (if x then c.w.all else 0) (if bad then c.w.all else 0)
      (if bad then (c.w.p n.toNat).origin else .fault)))) ∧
  (∀ o d, o.dst = .p d → DoesOnce (.elect o) o.guard [] (fun _ => True) fun c =>
    c.done (c.w.setP d.toNat ((c.w.p d.toNat).write c.w.all
      (match Mask.lowest (c.f.exec &&& c.w.guardBits o.guard) with | some t => Mask.one t | none => 0) 0 .fault))) ∧
  (∀ o ty cnt (s : State) (c : Ctx) (act : Mask), s.ctx? = some c → s.upsets = [] →
    c.RunsIn o.guard (usesOf o.a ty.is64 o.feA true false false (fun _ => ty.tags) ++ scalarDst o) act → (∀ n, o.dst ≠ .s n) →
    let same := fun (k : Nat) => act.threads.filter fun u => c.w.value c.f.exec o.a ty 0 u == c.w.value c.f.exec o.a ty 0 k
    ∃ v, VecWritten c o.dst c.f.exec false 2 (fun k => if cnt then (same k).length else (same k).headD c.w.width)
        (fun k => (act.threads.any fun u => c.w.poisonAt o.a ty.is64 u) || c.w.poisonAt o.a ty.is64 k) v ∧
      exec (.matchLanes o ty cnt) s = .next (c.next (s.setWave c.core c.slot v)))

/-! ### Control (R184 to R200) -/

/-- What moving past a word does (R115, R127): in a wave with one fragment and no reconvergence entry, the fragment alone
changes. Outside a REP its pc is that of the next word; within one it stands at the next repeat until the last.

A jump (R185, R188): in a wave with one fragment and no reconvergence entry the fragment stands at the target with no
repeat pending, and nothing else changes.

Moving past a word, or to another address, changes nothing but where the wave's fragments stand, what its
instruction buffer holds, whether a turn has ended, and the model's stamp:
registers, flags, every other wave, memory and devices keep what they hold. -/
def Obligations.TheFragmentMovesOn : Prop :=
  (
    ∀ (s : State) (core slot : Nat) (w : Wave) (f : Fragment), s.wave? core slot = some w → w.frag? w.cur = some f → w.stack = [] → w.ovf = [] →
      f.waiting = false →
      ∃ u, s.nextWord core slot = { s.setWave core slot (w.setFrag w.cur (some u)) with uid := s.uid + 1 } ∧
        u = (match f.rep with
          | none => { f with pc := f.pc + 12 }
          | some r => if r.idx + 1 < r.count then { f with rep := some { r with idx := r.idx + 1 } } else { f with rep := none, pc := f.pc + 12 })) ∧
  (
    ∀ (c : Ctx) (w : Wave) (f : Fragment) (target : DWord), w.frag? w.cur = some f → w.stack = [] → w.ovf = [] → f.waiting = false →
      c.goTo w target = { c.s.setWave c.core c.slot (w.setFrag w.cur (some { f with pc := target, rep := none })) with uid := c.s.uid + 1 }) ∧
  (
    ∀ (s : State) (core slot : Nat) (w : Wave) (f : Fragment), s.wave? core slot = some w → w.frag? w.cur = some f →
      ∃ v, s.nextWord core slot = { s.setWave core slot v with uid := s.uid + 1 } ∧
        v = { w with entries := v.entries, ovf := v.ovf, stack := v.stack, cur := v.cur, ibuf := v.ibuf, ended := v.ended })

/-- BRA (R187): no thread taken goes on, every active thread taken goes to the target, else the fragment splits.

Uniform branches, calls and returns (R188, R189, R298).

EXIT (R191): the threads whose guard is true leave the fragment; the fragment leaves the wave when it is not guarded, when
exec is zero, or when none of its threads is left. -/
def Obligations.BranchAndExitResults : Prop :=
  (
    ∀ (o : Ops) (s : State) (c : Ctx), s.ctx? = some c → o.guard ≠ Guard.never → c.check c.f.exec c.f.exec o.guard [] = none →
      let taken := c.f.exec &&& c.w.guardBits o.guard
      let target := c.f.pc + BitVec.ofInt 64 (4 * o.imm.toInt)
      (taken = 0 → exec (.bra o) s = .next (c.next s)) ∧
      (taken ≠ 0 → taken = c.f.exec → exec (.bra o) s = .next (c.goTo c.w target)) ∧
      (taken ≠ 0 → taken ≠ c.f.exec → exec (.bra o) s = .next (c.split taken target))) ∧
  (
    (∀ o cond, DoesOnce (.bru o cond) o.guard (scalarUse o.a o.feA) (fun _ => True) fun c =>
      if (match cond with | .always => true | .nz => c.w.scalar o.a != 0 | .z => c.w.scalar o.a == 0)
      then c.goTo c.w (c.f.pc + BitVec.ofInt 64 (4 * o.imm.toInt)) else c.next c.s) ∧
    (∀ o, DoesOnce (.brx o) o.guard (scalarUse o.a o.feA) (fun _ => True) fun c =>
      c.goTo c.w (c.w.scalar o.a + BitVec.ofInt 64 (4 * o.imm.toInt))) ∧
    (∀ o ind, DoesOnce (.call o ind) o.guard (scalarUse o.a o.feA ++ scalarDst o) (fun _ => True) fun c =>
      c.goTo (c.w.putDst o.dst (c.f.pc + 12)) (if ind then c.w.scalar o.a else c.f.pc + BitVec.ofInt 64 (4 * o.imm.toInt))) ∧
    (∀ o, DoesOnce (.ret o) o.guard (scalarUse o.a o.feA) (fun c => c.f.nest = none ∨ o.a ≠ .s 63) fun c => c.goTo c.w (c.w.scalar o.a)) ∧
    (∀ o held, o.a = .s 63 → DoesOnce (.ret o) o.guard (scalarUse o.a o.feA) (fun c => c.f.nest = some held) fun c =>
      let w := { c.w.modCur (fun f => { f with nest := none, level := held.2 }) with ibuf := [] }
      match held.1 with
      | some r => if c.w.scalar o.a = r.addr then c.put (w.modCur fun f => { f with pc := r.addr + 12, rep := some r })
        else c.goTo w (c.w.scalar o.a)
      | none => c.goTo w (c.w.scalar o.a))) ∧
  (
    (∀ (o : Ops) (s : State) (c : Ctx), s.ctx? = some c → (o.guard = Guard.always ∨ c.f.exec = 0) → o.guard ≠ Guard.never →
      exec (.exit o) s = .next c.retire) ∧
    (∀ (o : Ops) (s : State) (c : Ctx), s.ctx? = some c → o.guard ≠ Guard.always → o.guard ≠ Guard.never → c.f.exec ≠ 0 →
      c.check c.f.exec c.f.exec o.guard [] = none →
      let gone := c.f.exec &&& c.w.guardBits o.guard
      (c.f.live &&& ~~~gone = 0 → exec (.exit o) s = .next c.retire) ∧
      (c.f.live &&& ~~~gone ≠ 0 → exec (.exit o) s = .next (c.done (c.w.modCur fun f => { f with
        live := c.f.live &&& ~~~gone, exec := f.exec &&& ~~~gone
        resv := f.resv.filter fun r => (c.f.live &&& ~~~gone).getLsbD r.thread })))))

/-- A divergent branch (R18) of a fragment that does not wait: the taken threads keep the fragment's entry and go to the target; the others take a new
entry at the next word; both are siblings under the top of the stack, whatever it holds: their depth is the stack's length, and each waits when it stands
at the top's address (R20). With both sides there the two would fuse at once (R20); that case is left to the fusion. -/
def Obligations.SplitMakesSiblings : Prop :=
  ∀ (c : Ctx) (taken : Mask) (target : DWord) (i : Nat), c.s.wave? c.core c.slot = some c.w → c.w.frag? c.w.cur = some c.f →
    c.f.waiting = false → c.w.ovf = [] → ¬(c.w.stack.head? = some target ∧ c.w.stack.head? = some (c.f.pc + 12)) →
    (List.range c.w.entries.length).find? (fun k => ((c.w.setFrag c.w.cur (some c.f)).frag? k).isNone) = some i →
    ∃ v a b, (c.split taken target).wave? c.core c.slot = some v ∧ v.frag? c.w.cur = some a ∧ v.frag? i = some b ∧ v.stack = c.w.stack ∧
      a.live = taken ∧ a.exec = taken ∧ a.pc = target ∧ a.depth = c.w.stack.length ∧
      (a.waiting = true ↔ c.w.stack.head? = some target) ∧
      b.live = c.f.live &&& ~~~taken ∧ b.exec = c.f.exec &&& ~~~taken ∧ b.pc = c.f.pc + 12 ∧ b.depth = c.w.stack.length ∧
      (b.waiting = true ↔ c.w.stack.head? = some (c.f.pc + 12))

/-- JOINP (R17, R192) pushes its target address; with 8 entries on the stack it raises JOINOVF and the stack stays. -/
def Obligations.JoinpPushesOrTraps : Prop :=
  (∀ o, DoesOnce (.joinp o) o.guard [] (fun c => c.w.stack.length < 8) fun c =>
    c.done { c.w with stack := (c.f.pc + BitVec.ofInt 64 (4 * o.imm.toInt)) :: c.w.stack }) ∧
  (∀ o, DoesOnce (.joinp o) o.guard [] (fun c => 8 ≤ c.w.stack.length) fun c => c.trap { cause := 10 }) ∧
  (∀ (o : Ops) (s : State) (c : Ctx) (t : State) (w : Wave), s.ctx? = some c → c.RunsOnce o.guard [] → 8 ≤ c.w.stack.length →
    exec (.joinp o) s = .next t → t.wave? c.core c.slot = some w → w.stack = c.w.stack)

/-- REP, YIELD, NOP and WAITR (R127, R193, R194).

Register blocks (R41, R42, R196): RACQ takes free blocks of the wave's pool when no waiter stands before it, and says so in
a predicate or waits; RREL returns the top blocks and forgets their registers; RQRY reads how many the wave holds. -/
def Obligations.SequencingAndBlockResults : Prop :=
  (
    (∀ (o : Ops) (d a b : BitVec 3) (n : BitVec 6) (s : State) (c : Ctx) (word : BitVec 96), s.ctx? = some c → o.guard = Guard.always →
      c.read (c.f.pc + 12) = .word word → repFits c.core word (stepVal d) (stepVal a) (stepVal b) = true →
      exec (.rep o d a b n) s = .next (c.put (c.w.modCur fun f =>
        { f with pc := f.pc + 12, rep := some ⟨f.pc, 0, n.toNat + 1, stepVal d, stepVal a, stepVal b⟩ }))) ∧
    (∀ o, DoesOnce (.yield o) o.guard [] (fun _ => True) fun c => (c.next c.s).endTurn c.core c.slot c.w.turnOver) ∧
    (∀ o, DoesOnce (.nop o) o.guard [] (fun _ => True) fun c => c.next c.s) ∧
    (∀ (o : Ops) (n : BitVec 4) (s : State) (c : Ctx), s.ctx? = some c → o.guard ≠ Guard.never →
      c.check 0 (if o.a.isV then c.f.exec else c.guardScope) o.guard (runUses o.a (n.toNat + 1) false true false false fun _ => none) = none →
      exec (.waitr o n) s = .next (c.next s))) ∧
  (
    (∀ o n p, o.dst = .p p → DoesOnce (.racq o n) o.guard [] (fun c => c.w.blocks + n.toNat ≤ 16) fun c =>
      let ok := decide (n.toNat ≤ (c.s.core c.core).freeIn c.w.pool) && (c.s.blockWaits c.core c.w.pool).isEmpty
      c.next ((if ok then c.s.takeBlocks c.core c.slot n.toNat else c.s).modWave c.core c.slot fun w =>
        w.setP p.toNat ((w.p p.toNat).write w.all (if ok then c.w.all else 0) 0 .fault))) ∧
    (∀ o n, o.dst = .zero → DoesOnce (.racq o n) o.guard [] (fun c => c.w.blocks + n.toNat ≤ 16 ∧ n.toNat ≤ (c.s.core c.core).freeIn c.w.pool ∧
        (c.s.blockWaits c.core c.w.pool).all (fun x => BlockWait.before ⟨c.s.effPrio c.w, c.w.uid, c.slot, n.toNat⟩ x) = true) fun c =>
      c.next (c.s.takeBlocks c.core c.slot n.toNat)) ∧
    (∀ o n, o.dst = .zero → DoesOnce (.racq o n) o.guard [] (fun c => c.w.blocks + n.toNat ≤ 16 ∧ (c.s.core c.core).freeIn c.w.pool < n.toNat) fun c =>
      c.park (.blocks n.toNat)) ∧
    (∀ o n, DoesOnce (.rrel o n) o.guard [] (fun c => n.toNat < c.w.blocks ∧
        c.w.vregs.all (fun e => decide (e.1 < 16 * (c.w.blocks - n.toNat)) || e.2.full) = true) fun c =>
      c.next ((c.s.setCore c.core ((c.s.core c.core).giveBlocks c.w.pool n.toNat)).setWave c.core c.slot
        { c.w with blocks := c.w.blocks - n.toNat, vregs := c.w.vregs.filter fun e => e.1 < 16 * (c.w.blocks - n.toNat) })) ∧
    (∀ o, DoesOnce (.rqry o) o.guard (scalarDst o) (fun _ => True) fun c => c.done (c.w.putDst o.dst (BitVec.ofNat 64 c.w.blocks))))

/-- Status registers and counters (R55, R72, R197, R198, R200): RDSR reads one, thread by thread into a vector register; WRSR
writes SR_FPMODE, a threshold or SR_XK; XCNT reads a cumulative count and clears it; CYCLE reads the core's clocks, which have
gone on by a free number (assumption 36). -/
def Obligations.StatusRegisterResults : Prop :=
  (∀ o num, o.dst.isV = false → DoesOnce (.rdsr o num) o.guard (scalarDst o) (fun _ => True) fun c =>
    c.done (c.w.putDst o.dst (c.readSr num.toNat c.uniThread))) ∧
  (∀ o num n, o.dst = .v n → DoesIn (.rdsr o num) o.guard (scalarDst o) (fun _ _ => True) fun c act =>
    c.done (c.w.setV n.toNat ((c.w.v n.toNat).write act (fun t => (c.readSr num.toNat t).setWidth 32) 0 .fault 2))) ∧
  (∀ o, DoesOnce (.wrsr o 10) o.guard (scalarUse o.a o.feA) (fun _ => True) fun c =>
    c.next (c.put { c.w with fpmode := (c.w.scalar o.a).setWidth 3 })) ∧
  (∀ o, DoesOnce (.wrsr o 0x27) o.guard (scalarUse o.a o.feA) (fun _ => True) fun c =>
    c.next (c.s.setCore c.core { c.s.core c.core with
      xk := max 10 (min 47 ((c.w.scalar o.a).toNat % 64)), xwin := [], xran := [] })) ∧
  (∀ o num, 0x20 ≤ num.toNat → num.toNat ≤ 0x26 → DoesOnce (.wrsr o num) o.guard (scalarUse o.a o.feA) (fun _ => True) fun c =>
    c.next (c.s.setCore c.core { c.s.core c.core with
      xth := (c.s.core c.core).xth.put (num.toNat - 0x20) (BitVec.ofNat 64 ((c.w.scalar o.a).toNat % 2 ^ 34)) })) ∧
  (∀ o cls, DoesOnce (.xcnt o cls) o.guard (scalarDst o) (fun _ => True) fun c =>
    c.next ((c.s.setCore c.core { c.s.core c.core with xcum := (c.s.core c.core).xcum.put (classNum cls) 0 }).modWave c.core c.slot
      fun w => w.putDst o.dst (BitVec.ofNat 64 ((c.s.core c.core).xcum.get 0 (classNum cls))))) ∧
  (∀ o, DoesOnce (.cycle o) o.guard (scalarDst o) (fun _ => True) fun c =>
    let now : DWord := BitVec.ofNat 64 (min (2 ^ 64 - 1) ((c.s.core c.core).cycles.toNat + Config.clocks c.s.freeCtr))
    c.next ((c.s.setCore c.core { c.s.core c.core with cycles := now }).draw.modWave c.core c.slot fun w => w.putDst o.dst now))

/-! ### Traps (R345 to R351) -/

/-- TRAP, BKPT and SYSCALL take their traps with their codes (R199, R351).

The traps that kill the wave instead (R347): consumed poison of origin DATA, any trap at supervisor level, a trap at user
level with FE_TVEC.EN = 0, and any trap of a scan wave (R433). The wave is gone from its slot. -/
def Obligations.SoftwareTrapsAndKills : Prop :=
  (
    (∀ o code, DoesOnce (.trap o code) o.guard [] (fun _ => True) fun c => c.trap { cause := 12, code := code.toNat }) ∧
    (∀ o code, DoesOnce (.bkpt o code) o.guard [] (fun _ => True) fun c => c.trap { cause := 13, code := code.toNat }) ∧
    (∀ o code, DoesOnce (.syscall o code) o.guard [] (fun _ => True) fun c => c.trap { cause := 14, code := code.toNat })) ∧
  (
    ∀ (c : Ctx) (t : Trap), c.s.wave? c.core c.slot = some c.w →
      ((t.cause = 5 ∧ t.origin = .data) ∨ Config.mainCores ≤ c.core ∨
        (¬(t.cause = 13 ∧ c.s.debugs c.w.part = true) ∧ (c.f.level = .supervisor ∨ bitOf c.part.tvec.toNat 0 = false))) →
      (c.trap t).wave? c.core c.slot = none)

/-- Handler entry (R345, R346, R349): a trap at user level with FE_TVEC.EN = 1 writes the frame into the core's scratchpad,
makes the fragment supervisor at ADDR × 4 of FE_TVEC with exec unchanged, sets s60 to s63 full and unpoisoned, and stops the
other fragments of the wave. It stalls while the scoreboard, or an ATOMS of the wave under way there, blocks the frame's bytes (R83, R113).

The fields of a frame (R346), each at its place among the 128 bytes. -/
def Obligations.TrapEntersTheHandler : Prop :=
  (
    ∀ (c : Ctx) (t : Trap), c.s.wave? c.core c.slot = some c.w → c.w.frag? c.w.cur = some c.f → c.core < Config.mainCores →
      c.f.level = .user → bitOf c.part.tvec.toNat 0 = true → ¬(t.cause = 5 ∧ t.origin = .data) → ¬(t.cause = 13 ∧ c.s.debugs c.w.part = true) →
      let off := c.s.frameOff c.w.part c.slot
      c.s.spBlocked c.core off (off + 128) true = false → c.s.atomsOn c.core c.w.uid (fun _ => true) c.core off 128 = none →
      let back := c.f.resume t
      let frame := frameBytes back.1 t back.2.1 back.2.2 c.f.pc c.w.word (c.s.handleOf c.core c.slot) c.f.exec
        [(c.w.s 60).val, (c.w.s 61).val, (c.w.s 62).val, (c.w.s 63).val]
      ∃ w f, (c.trap t).wave? c.core c.slot = some w ∧ w.frag? w.cur = some f ∧ w.alone = true ∧
        f.level = .supervisor ∧ f.handler = true ∧ f.pc = c.part.tvec &&& ~~~3#64 ∧ f.exec = c.f.exec ∧ f.live = c.f.live ∧
        w.s 63 = ⟨BitVec.ofNat 64 off, true, false, .fault, none⟩ ∧
        w.s 62 = ⟨BitVec.ofNat 64 (leNat ((frame.drop 8).take 8)), true, false, .fault, none⟩ ∧
        w.s 61 = ⟨t.addr, true, false, .fault, none⟩ ∧ w.s 60 = ⟨back.1, true, false, .fault, none⟩ ∧
        (∀ m, m < 60 → w.s m = c.w.s m) ∧ w.vregs = c.w.vregs ∧ w.preds = c.w.preds ∧ (c.trap t).mem = c.s.mem ∧
        (∀ i, i < 128 → ((c.trap t).core c.core).scratch.get 0 (off + i) = frame.getD i 0)) ∧
  (
    ∀ (resume : DWord) (t : Trap) (idx : Nat) (repV : Bool) (iaddr : DWord) (word : BitVec 96) (handle : Nat) (exec_ : Mask) (a b c d : DWord),
      let fr := frameBytes resume t idx repV iaddr word handle exec_ [a, b, c, d]
      let field := fun (i n : Nat) => leNat ((fr.drop i).take n)
      fr.length = 128 ∧ field 0 8 = resume.toNat ∧ field 8 1 = t.cause % 2 ^ 8 ∧ field 9 1 = t.detail % 2 ^ 8 ∧ field 10 2 = t.code % 2 ^ 16 ∧
      field 12 1 = idx % 64 + 64 * repV.toNat ∧ field 13 1 = t.thread % 128 ∧ field 14 2 = t.oper % 1024 ∧ field 16 8 = iaddr.toNat ∧
      field 24 12 = word.toNat ∧ field 36 4 = 0 ∧ field 40 8 = t.addr.toNat ∧ field 48 4 = handle % 2 ^ 32 ∧ field 52 4 = 0 ∧
      field 56 16 = exec_.toNat ∧ field 72 8 = a.toNat ∧ field 80 8 = b.toNat ∧ field 88 8 = c.toNat ∧ field 96 8 = d.toNat ∧ field 104 24 = 0)

/-- ERET (R351): in the handler, the frame gives back s60 to s63, exec within the live threads and the place to resume; the
level becomes user and the other fragments issue again. It waits for the producers of s60 to s63 (R49). Outside a handler it raises ILLEGAL. -/
def Obligations.EretLeavesTheHandler : Prop :=
  (∀ o, DoesOnce (.eret o) o.guard [] (fun c => c.f.handler = false) fun c => c.trap { cause := 0 }) ∧
  (∀ (o : Ops) (s : State) (c : Ctx), s.ctx? = some c → c.RunsOnce o.guard eretUses → c.f.handler = true → c.w.stack = [] → c.w.ovf = [] →
    let off := s.frameOff c.w.part c.slot
    let field := fun (i n : Nat) => s.spNat c.core (off + i) n
    s.spBlocked c.core off (off + 128) false = false → s.atomsOn c.core c.w.uid (fun _ => true) c.core off 128 = none → bitOf (field 12 1) 6 = false →
    ∃ t w f, exec (.eret o) s = .next t ∧ t.wave? c.core c.slot = some w ∧ w.frag? w.cur = some f ∧ w.alone = false ∧ f.level = .user ∧
      f.handler = false ∧ f.pc = BitVec.ofNat 64 (field 0 8) ∧ f.exec = BitVec.ofNat 128 (field 56 16) &&& c.f.live ∧ f.live = c.f.live ∧
      (∀ i, i < 4 → (w.s (60 + i)).val = BitVec.ofNat 64 (field (72 + 8 * i) 8) ∧ (w.s (60 + i)).full = true) ∧
      (∀ m, m < 60 → w.s m = c.w.s m) ∧ w.vregs = c.w.vregs ∧ w.preds = c.w.preds ∧ t.mem = s.mem)

/-! ### Memory (R201 to R217) -/

/-- LD, LDNC, LDU and LR (R47, R104, R204): they issue at once. Every destination register is empty with the tag of the type, one
load is under way with the address of each thread that has one, LR sets the reservations of its threads, and reads of
generated lines have started their fills.

LDMC (R84, R209): with values that keep its rules and room in the scoreboard, the request is under way, the destination is empty,
and the issuing core's own scoreboard has an entry if the mask names it; with an empty mask nothing is sent and the status is 0.

PREF and THINT (R214): a prefetch of the threads whose addresses translate is under way and writes no register; a hint of a length
above 0 and below 2^40 enters queue 2, and one of any other length enqueues nothing. -/
def Obligations.LoadsAndHintsStart : Prop :=
  (
    let started := fun (o : Ops) (ty : Ty) (one : Bool) (cnt : Cnt) (sub : BitVec 2) (nc lr : Bool) (c0 : Ctx) (act : Mask) =>
      let c := c0.spoil
      let n := regBytes ty one * cnt.num
      let accs := act.threads.map fun k =>
        (k, if c.w.poisonAt o.a true k || misaligned ty one n (c.globalAddr o o.a k).toNat || !canonical (c.globalAddr o o.a k) then none
            else some (c.globalAddr o o.a k))
      let w := (accessRegs o.dst ty cnt.num).foldl (fun w r => w.markEmpty r (loadTag ty one)) c.w
      let w1 := if lr then w.modCur fun f => { f with
          sinceLr := some 0, resv := (f.resv.filter fun r => !act.getLsbD r.thread) ++ act.threads.map fun k => ⟨k, c.s.uid, none, 0, true⟩ } else w
      c.next (((c.put w1).addOps c.core [c.op (.load o.dst ty one cnt sub nc lr accs)]).touchAccs c.core c.w.part c.w.uid c.w.depth
          (fun k => !lr && ((c.s.core c.core).l1Hit nc c.w.fenced k).isSome)
        (accs.filterMap fun a => a.2.map fun va => (va, n)))
    (∀ o ty one cnt sub, DoesIn (.ld o ty one cnt sub) o.guard (loadUses o ty cnt.num) (fun c _ => c.FreeOfAcquire)
      (started o ty one cnt sub false false)) ∧
    (∀ o ty one cnt sub, DoesIn (.ldnc o ty one cnt sub) o.guard (loadUses o ty cnt.num) (fun c _ => c.FreeOfAcquire)
      (started o ty one cnt sub true false)) ∧
    (∀ o ty cnt, DoesOnce (.ldu o ty cnt) o.guard (loadUses o ty cnt.num) (fun c => c.FreeOfAcquire)
      fun c => started o ty false cnt 0 false false c 1) ∧
    (∀ o ty, DoesIn (.lr o ty) o.guard (loadUses o ty 1) (fun c _ => c.FreeOfAcquire) (started o ty false .x1 0 false true))) ∧
  (
    ∀ (o : Ops) (bar : BitVec 19), DoesIn (.ldmc o bar) o.guard
      (usesOf o.a true o.feA true false true (fun _ => none) ++ usesOf o.b true o.feB true false true (fun _ => none) ++ scalarDst o)
      (fun c0 _ =>
        let c := c0.spoil
        let x := (c.w.scalar o.b).toNat
        let cores := maskCores c.core (BitVec.ofNat 16 x)
        c0.FreeOfAcquire ∧ (c.w.scalar o.a).toNat % 16 = 0 ∧ bitsOf x 50 32 % 16 = 0 ∧ bitsOf x 50 32 + 16 * (bitsOf x 27 16 + 1) ≤ 0x50000 ∧
        bitsOf x 31 28 = 0 ∧ bitsOf x 63 51 = 0 ∧ bar.toNat % 16 = 0 ∧ bar.toNat + 16 ≤ 0x50000 ∧
        (∀ d ∈ cores, c.part.hasCore d = true) ∧ (c.core ∈ cores → (c.s.core c.core).sboard.length < 64))
      fun c0 _ =>
        let c := c0.spoil
        let x := (c.w.scalar o.b).toNat
        let cores := maskCores c.core (BitVec.ofNat 16 x)
        let len := 16 * (bitsOf x 27 16 + 1)
        let off := bitsOf x 50 32
        let k := c.s.core c.core
        let s1 := c.s.setCore c.core (if cores.contains c.core then { k with sboard := k.sboard ++ [⟨c.s.uid, c.w.uid, off, off + len, true, false⟩] } else k)
        if cores = [] then c.next (s1.setWave c.core c.slot (c.w.putDst o.dst 0))
        else c.next (((s1.setWave c.core c.slot (c.w.markEmpty o.dst 0)).addOps c.core
            [c.op (.ldmc o.dst (c.w.scalar o.a) len off bar.toNat (BitVec.ofNat 16 x) false none)]).touchAccs c.core c.w.part c.w.uid c.w.depth (fun _ => false)
          ((linesOf (c.w.scalar o.a) len).map fun l => (BitVec.ofNat 64 (l * 128), 1)))) ∧
  (
    (∀ o llc, DoesEither (.pref o llc) o (baseUses o.a o.feA false) (fun c _ => c.FreeOfAcquire) fun c act =>
      let accs := act.threads.filterMap fun k =>
        if c.w.poisonAt o.a true k then none
        else match c.s.lookNow c.core c.w.part ⟨false, false, c.user⟩ (c.globalAddr o o.a k) with
          | .ok _ _ | .gen _ => some (k, some (BitVec.ofNat 64 ((c.globalAddr o o.a k).toNat / 128 * 128)))
          | _ => none
      if accs.isEmpty then c.next c.s
      else c.next ((c.s.addOps c.core [c.op (.load (if llc then .unused else .zero) .b32 false .x1 0 false false accs)]).touchAccs
        c.core c.w.part c.w.uid c.w.depth (fun k => !llc && ((c.s.core c.core).l1Hit false 0 k).isSome)
        (accs.filterMap fun a => a.2.map fun va => (va, 4)))) ∧
    (∀ o hint, DoesOnce (.thint o hint) o.guard
      (usesOf o.a true o.feA true false false (fun _ => none) ++ usesOf o.b true o.feB true false false fun _ => none)
      (fun c => c.HasPlace .q2) fun c =>
        let len := (c.w.scalar o.b).toNat
        if len = 0 ∨ 2 ^ 40 ≤ len then c.next c.s
        else c.entered .q2 (fun k => { k with q2 := k.q2 ++ [c.entry 2 false ⟨hint, c.w.scalar o.a, len, 0, false⟩] }) id))

/-- ST, STNT and STM (R87, R88, R205 to R207): once every byte translates, the bytes of each thread are sent to be performed,
and the exceptions of a conversion are counted.

A sent store (R94, R99) changes no memory yet: operations are under way after those that were, which carry every byte of every thread to
its place, and no other byte, whatever their order. -/
def Obligations.StoresAreSent : Prop :=
  (
    let stored := fun (o : Ops) (ty : Ty) (one : Bool) (cnt sub : Nat) (nt : Bool) (ps : Nat → List Nat) (c0 : Ctx) (act : Mask) =>
      let c := c0.spoil
      let out := fun (k : Nat) => storeAll ty one sub (c.mode .fpmode) ((List.range cnt).map fun i => c.w.dataAt o.b ty i k)
      c.next ((c.translated.sendStores (act.threads.map fun k => (k, placeBytes (out k).bytes (ps k))) nt).countAll c.core c.slot c.w.uid
        (tally (act.threads.map fun k => (out k).exc)) c.f.pc c.w.word)
    let reaches := fun (o : Ops) (ty : Ty) (one : Bool) (cnt : Nat) (ps : Nat → List Nat) (c0 : Ctx) (act : Mask) =>
      c0.FreeOfAcquire ∧ c0.spoil.Reaches (c0.spoil.globalAddr o o.a) (fun _ => List.range (regBytes ty one * cnt))
        (fun va => misaligned ty one (regBytes ty one * cnt) va.toNat) act.threads ps
    (∀ o ty one cnt sub ps, DoesEither (.st o ty one cnt sub) o (storeUses o ty one cnt.num) (reaches o ty one cnt.num ps)
      (stored o ty one cnt.num sub.toNat false ps)) ∧
    (∀ o ty one cnt sub ps, DoesEither (.stnt o ty one cnt sub) o (storeUses o ty one cnt.num) (reaches o ty one cnt.num ps)
      (stored o ty one cnt.num sub.toNat true ps)) ∧
    (∀ o quad (ps : Nat → List Nat), DoesIn (.stm o quad) o.guard
      (baseUses o.a o.feA true ++ usesOf o.b false o.feB true false true (fun _ => none) ++ stmMaskUses o quad)
      (fun c0 act => c0.FreeOfAcquire ∧ c0.spoil.Reaches (c0.spoil.globalAddr o o.a)
        (fun k => (List.range 4).filter fun i => bitOf (c0.spoil.stmMask o quad k) i) (fun _ => false)
        (act.threads.filter fun k => c0.spoil.stmMask o quad k != 0) ps)
      fun c0 act =>
        let c := c0.spoil
        c.next (c.translated.sendStores ((act.threads.filter fun k => c.stmMask o quad k != 0).map fun k =>
          (k, placeBytes (((List.range 4).filter fun i => bitOf (c.stmMask o quad k) i).map fun i =>
            (BitVec.ofNat 8 (c.w.value c.f.exec o.b .b32 0 k / 2 ^ (8 * i)), 0xFF)) (ps k))) false))) ∧
  (
    ∀ (c : Ctx) (xs : List (Nat × List ByteWrite)) (nt : Bool), xs.Pairwise (fun a b => a.1 ≠ b.1) →
      (c.sendStores xs nt).mem = c.s.mem ∧
      ∃ ops, ((c.sendStores xs nt).core c.core).memq = (c.s.core c.core).memq ++ ops ∧
        (∀ m ∈ ops, m.wave = c.w.uid ∧ ∃ t bs, m.kind = .store t bs false nt ∧ ∀ b ∈ bs, ∃ x ∈ xs, b ∈ x.2) ∧
        (∀ x ∈ xs, ∀ b ∈ x.2, ∃ m ∈ ops, ∃ t bs, m.kind = .store t bs false nt ∧ b ∈ bs))

/-- ST, STNT, STM, ATOM, ATOMF, CAS, SC and REL translate every thread before any data is sent (R205): with a misaligned or faulting
thread and no miss the instruction takes the trap of the lowest such thread, XLATE or in a generated range GENRO, and that is all that it does. A lock
word that is no multiple of 8 raises MISALIGN (R216).

LDS, STS and ATOMS whose address in some thread is not in its window raise WINDOW, and with none such but a misaligned one MISALIGN (R75), at the
lowest such thread, and that is all that they do. LDS looks at no thread whose address is poisoned (R52); STS with a credit looks at its object first, which
must be a multiple of 16 below 0x50000 (R208). -/
def Obligations.AccessChecksTrap : Prop :=
  (
    let traps := fun (i : Instr) (o : Ops) (runs : Ctx → Mask → Prop) (at_ : Ctx → Ctx) (accs : Ctx → Mask → List (Nat × DWord × List Nat))
        (bad : DWord → Bool) =>
      ∀ (s : State) (c0 : Ctx) (act : Mask) (before : List (Nat × DWord × List Nat)) (a : Nat × DWord × List Nat)
        (after : List (Nat × DWord × List Nat)), s.ctx? = some c0 → c0.FreeOfAcquire → runs c0 act →
        let c := at_ c0
        accs c act = before ++ a :: after →
        (∀ x ∈ before, bad x.2.1 = false ∧ ∃ ps, c.reach true x.2.1 x.2.2 = .bytes ps) →
        (∀ x ∈ a :: after, bad x.2.1 = true ∨ ∀ va, c.reach true x.2.1 x.2.2 ≠ .miss va) →
        let thread := if o.anyV then a.1 else 0
        (bad a.2.1 = true → exec i s =
          .next (c.trap { cause := 8, detail := 3, thread := thread, oper := o.a.bits.toNat, addr := a.2.1 })) ∧
        (∀ cls va, bad a.2.1 = false → c.reach true a.2.1 a.2.2 = .fault cls va → exec i s =
          .next (c.trap { cause := 8, detail := cls, thread := thread, oper := o.a.bits.toNat, addr := va })) ∧
        (∀ va, bad a.2.1 = false → c.reach true a.2.1 a.2.2 = .genro va → exec i s =
          .next (c.trap { cause := 9, detail := 5, thread := thread, oper := o.a.bits.toNat, addr := va }))
    let either := fun (o : Ops) (us : List Use) (c0 : Ctx) (act : Mask) =>
      (o.anyV = true ∧ c0.RunsIn o.guard us act) ∨ (o.anyV = false ∧ act = 1 ∧ c0.RunsOnce o.guard us)
    let whole := fun (o : Ops) (n : Nat) (c : Ctx) (act : Mask) => act.threads.map fun k => (k, c.globalAddr o o.a k, List.range n)
    let lockUses := fun (o : Ops) => usesOf o.a true o.feA true false true (fun _ => none) ++ usesOf o.b true o.feB true false true fun _ => none
    (∀ (i : Instr) o ty one cnt sub, i = .st o ty one cnt sub ∨ i = .stnt o ty one cnt sub →
      traps i o (either o (storeUses o ty one cnt.num)) Ctx.spoil (whole o (regBytes ty one * cnt.num))
        fun va => misaligned ty one (regBytes ty one * cnt.num) va.toNat) ∧
    (∀ o quad, traps (.stm o quad) o
      (fun c0 act => c0.RunsIn o.guard (baseUses o.a o.feA true ++ usesOf o.b false o.feB true false true (fun _ => none) ++ stmMaskUses o quad) act)
      Ctx.spoil
      (fun c act => (act.threads.filter fun k => c.stmMask o quad k != 0).map fun k =>
        (k, c.globalAddr o o.a k, (List.range 4).filter fun i => bitOf (c.stmMask o quad k) i)) fun _ => false) ∧
    (∀ (i : Instr) o ty (cas : Bool), (∃ op, i = .atom o ty op) ∧ cas = false ∨ (∃ op, i = .atomf o ty op) ∧ cas = false ∨ i = .cas o ty ∧ cas = true →
      traps i o (either o (atomUses o ty (baseUses o.a o.feA true) cas)) Ctx.spoil (whole o (regBytes ty false))
        fun va => va.toNat % regBytes ty false != 0) ∧
    (∀ o ty, traps (.sc o ty) o
      (fun c0 act => c0.RunsIn o.guard (baseUses o.a o.feA true ++ usesOf o.b ty.is64 o.feB true false true (fun _ => ty.tags) ++ scalarDst o) act)
      id (whole o (regBytes ty false)) fun va => va.toNat % regBytes ty false != 0) ∧
    (∀ o scope, traps (.rel o scope) o
      (fun c0 act => act = 1 ∧ c0.RunsOnce o.guard (lockUses o) ∧ (c0.globalAddr o o.a 0).toNat % 8 = 0) id (whole o 8) fun _ => false) ∧
    (∀ o scope, DoesOnce (.rel o scope) o.guard (lockUses o) (fun c => c.FreeOfAcquire ∧ (c.globalAddr o o.a 0).toNat % 8 ≠ 0) fun c =>
      c.trap { cause := 6, oper := o.a.bits.toNat, addr := c.globalAddr o o.a 0 })) ∧
  (
    let traps := fun (i : Instr) (o : Ops) (us : List Use) (when_ : Ctx → Prop) (skip : Ctx → Nat → Bool) (n : Nat) (align : Bool) =>
      ∀ (s : State) (c0 : Ctx) (act : Mask) (t : Nat), s.ctx? = some c0 → c0.FreeOfAcquire → when_ c0 →
        ((o.anyV = true ∧ c0.RunsIn o.guard us act) ∨ (o.anyV = false ∧ act = 1 ∧ c0.RunsOnce o.guard us)) →
        let c := c0.spoil
        let ts := act.threads.filter fun k => !skip c k
        let trap := fun (cause : Nat) =>
          c.trap { cause := cause, thread := if o.anyV then t else 0, oper := o.a.bits.toNat, addr := BitVec.ofNat 64 (c.spAddr o t) }
        (ts.find? (fun k => (spTarget c.core (c.spAddr o k) n).isNone) = some t → exec i s = .next (trap 7)) ∧
        ((∀ u ∈ ts, (spTarget c.core (c.spAddr o u) n).isSome = true) → align = true →
          ts.find? (fun k => c.spAddr o k % min n 16 != 0) = some t → exec i s = .next (trap 6))
    let stsUses := fun (o : Ops) (ty : Ty) (one : Bool) (cnt : Nat) (credit : Bool) =>
      spUses o true ++ runUses o.b (runLength o.b ty cnt) o.feB true false true (fun _ => storeTags ty one) ++
        (if credit then usesOf o.dst false o.feD true false true fun _ => none else [])
    (∀ o ty one cnt, traps (.lds o ty one cnt) o
      (spUses o false ++ runUses o.dst (runLength o.dst ty cnt.num) false false true false fun _ => none) (fun _ => True)
      (fun c k => c.w.poisonAt o.a false k) (regBytes ty one * cnt.num) (needsAlign ty one)) ∧
    (∀ o ty one cnt credit, traps (.sts o ty one cnt credit) o (stsUses o ty one cnt.num credit)
      (fun c => credit = true → (c.w.scalar o.dst).toNat % 16 = 0 ∧ (c.w.scalar o.dst).toNat < 0x50000) (fun _ _ => false)
      (regBytes ty one * cnt.num) (needsAlign ty one)) ∧
    (∀ o ty op, traps (.atoms o ty op) o (atomUses o ty (spUses o true) false) (fun _ => True) (fun _ _ => false) (regBytes ty false) true) ∧
    (∀ o ty one cnt, DoesEither (.sts o ty one cnt true) o (stsUses o ty one cnt.num true)
      (fun c _ => c.FreeOfAcquire ∧ ((c.w.scalar o.dst).toNat % 16 ≠ 0 ∨ 0x50000 ≤ (c.w.scalar o.dst).toNat)) fun c0 _ =>
      c0.spoil.trap { cause := 7, oper := o.dst.bits.toNat }))

/-- ATOM, ATOMF and CAS (R210 to R212): once every place translates, each thread's atomic is under way with its operands, the
destination is empty with the tag of the type, and memory is as it was.

SC (R104, R213): once every place translates, each thread's SC is under way and the reservations of its threads are used up. It
holds surely when the thread's reservation is on the line, or its LR has no value yet and then reserves that line, within 16 issues of
the LR with no access between; with neither it surely fails. -/
def Obligations.AtomicsStart : Prop :=
  (
    let starts := fun (i : Instr) (o : Ops) (ty : Ty) (us : List Use) (op : Option AOp) (fop : Option FAOp) (cas : Bool) =>
      ∀ (s : State) (c0 : Ctx) (act : Mask) (ps : Nat → List Nat), s.ctx? = some c0 → c0.FreeOfAcquire →
        ((o.anyV = true ∧ c0.RunsIn o.guard us act) ∨ (o.anyV = false ∧ act = 1 ∧ c0.RunsOnce o.guard us)) →
        c0.spoil.Reaches (c0.spoil.globalAddr o o.a) (fun _ => List.range (regBytes ty false)) (fun va => va.toNat % regBytes ty false != 0)
          act.threads ps →
        let c := c0.spoil
        ∃ t ops, exec i s = .next (c.next t) ∧ t.mem = s.mem ∧
          t.wave? c.core c.slot = some ((accessRegs o.dst ty 1).foldl (fun w r => w.markEmpty r ty.tag) c.w) ∧
          (t.core c.core).memq = (s.core c.core).memq ++ ops ∧ ops.length = act.threads.length ∧
          ∀ k, act.getLsbD k = true → ∃ m ∈ ops, m.wave = c.w.uid ∧
            m.kind = .atom o.dst k ((ps k).headD 0) ty op fop (if cas then some (BitVec.ofNat 64 (c.w.value c.f.exec o.dst ty 0 k)) else none)
              (BitVec.ofNat 64 (c.w.value c.f.exec o.b ty 0 k)) (c.flushes ty) c.f.pc c.w.word
    (∀ o ty op, starts (.atom o ty op) o ty (atomUses o ty (baseUses o.a o.feA true) false) (some op) none false) ∧
    (∀ o ty op, starts (.atomf o ty op) o ty (atomUses o ty (baseUses o.a o.feA true) false) none (some op) false) ∧
    (∀ o ty, starts (.cas o ty) o ty (atomUses o ty (baseUses o.a o.feA true) true) none none true)) ∧
  (
    ∀ (o : Ops) (ty : Ty) (s : State) (c : Ctx) (act : Mask) (ps : Nat → List Nat), s.ctx? = some c → c.FreeOfAcquire →
      c.RunsIn o.guard (baseUses o.a o.feA true ++ usesOf o.b ty.is64 o.feB true false true (fun _ => ty.tags) ++ scalarDst o) act →
      c.Reaches (c.globalAddr o o.a) (fun _ => List.range (regBytes ty false)) (fun va => va.toNat % regBytes ty false != 0) act.threads ps →
      ∃ t ops, exec (.sc o ty) s = .next (c.next t) ∧ t.mem = s.mem ∧
        t.wave? c.core c.slot = some (((accessRegs o.dst .b32 1).foldl (fun w r => w.markEmpty r 2) c.w).modCur fun f =>
          { f with resv := (f.resv.filter fun r => !act.getLsbD r.thread).map fun r => { r with plain := false } }) ∧
        (t.core c.core).memq = (s.core c.core).memq ++ ops ∧ ops.length = act.threads.length ∧
        ∀ k, act.getLsbD k = true → ∃ m ∈ ops, ∃ holds pending, m.kind = .sc o.dst k ((ps k).headD 0) ty
            (BitVec.ofNat 64 (c.w.value c.f.exec o.b ty 0 k)) holds pending ∧
          ((∀ r ∈ c.f.resv, ¬(r.thread = k ∧ (r.line = some ((ps k).headD 0 / 128) ∨ r.line = none))) → holds = false) ∧
          (∀ r, c.f.resv.find? (fun r => r.thread = k && (r.line == some ((ps k).headD 0 / 128) || r.line.isNone)) = some r →
            pending = (if r.line.isNone then some r.op else none) ∧ (r.issues ≤ 16 → r.plain = true → holds = true)))

/-- LDS and ATOMS (R75, R83, R208, R210): where the address of every thread, of LDS every thread with an unpoisoned one, is in its window, aligned
and not blocked, LDS writes the bytes it reads at once, with poison where the address or a byte is poisoned (R52), and ATOMS puts each thread's
operation under way.

STS (R76, R83, R208): bytes for the issuing core's own scratchpad are written at once, in thread order, each followed by its
credit, whether or not other threads write to another core. With bytes for another core, an operation for each such thread is under way besides, and the
fragment stalls, past the word, until they have all ended. -/
def Obligations.ScratchpadAccessesComplete : Prop :=
  (
    let clear := fun (o : Ops) (n : Nat) (align out : Bool) (place : Nat → Nat × Nat) (c : Ctx) (k : Nat) =>
      spTarget c.core (c.spAddr o k) n = some (place k) ∧ (align = true → c.spAddr o k % min n 16 = 0) ∧
      c.s.spBlocked (place k).1 (place k).2 ((place k).2 + n) out = false ∧ c.spEarlier o.anyV ⟨k, (place k).1, (place k).2⟩ n = none
    (∀ o ty one cnt place, DoesEither (.lds o ty one cnt) o
      (spUses o false ++ runUses o.dst (runLength o.dst ty cnt.num) false false true false fun _ => none)
      (fun c0 act => c0.FreeOfAcquire ∧ ∀ k, act.getLsbD k = true → c0.w.poisonAt o.a false k = false →
        clear o (regBytes ty one * cnt.num) (needsAlign ty one) false place c0.spoil k)
      fun c0 act =>
        let c := c0.spoil
        let good := fun (k : Nat) => act.getLsbD k && !c.w.poisonAt o.a false k
        let read := fun (k : Nat) => c.s.spRead (place k).1 (place k).2 (regBytes ty one * cnt.num)
        let word := fun (i k : Nat) => if good k then (loadAll ty one 0 cnt.num ((read k).map (·.1))).getD i 0 else Config.poisonedBits (c.s.freeCtr * 128 + k)
        let bad := Mask.ofPred fun k => act.getLsbD k && c.w.poisonAt o.a false k
        let rotten := Mask.ofPred fun k => good k && (read k).any (·.2)
        let org : Origin := if rotten = 0 then .fault else .data
        let w := (accessRegs o.dst ty cnt.num).zipIdx.foldl (fun (w : Wave) r => match r.1 with
          | .v n => w.setV n.toNat ((w.v n.toNat).write act (word r.2) (bad ||| rotten) org (loadTag ty one))
          | .s n =>
            let x := if ty.is64 then BitVec.ofNat 64 ((word (2 * r.2) 0).toNat + 2 ^ 32 * (word (2 * r.2 + 1) 0).toNat)
              else c.s.scalarOf ty one (word r.2 0)
            w.setS n.toNat (SReg.write x ((bad ||| rotten).getLsbD 0) org)
          | _ => w) c.w
        c.next ((c.put w).draw)) ∧
    (∀ (o : Ops) (ty : Ty) (op : AOp) (s : State) (c0 : Ctx) (act : Mask) (place : Nat → Nat × Nat), s.ctx? = some c0 → c0.FreeOfAcquire →
      ((o.anyV = true ∧ c0.RunsIn o.guard (atomUses o ty (spUses o true) false) act) ∨
        (o.anyV = false ∧ act = 1 ∧ c0.RunsOnce o.guard (atomUses o ty (spUses o true) false))) →
      (∀ k, act.getLsbD k = true → clear o (regBytes ty false) true true place c0.spoil k) →
      let c := c0.spoil
      ∃ t ops, exec (.atoms o ty op) s = .next (c.next t) ∧ t.mem = s.mem ∧
        t.wave? c.core c.slot = some ((accessRegs o.dst ty 1).foldl (fun w r => w.markEmpty r ty.tag) c.w) ∧
        (t.core c.core).memq = (s.core c.core).memq ++ ops ∧ ops.length = act.threads.length ∧
        ∀ k, act.getLsbD k = true → ∃ m ∈ ops,
          m.kind = .atoms o.dst (if o.anyV then k else 128) (place k).1 (place k).2 ty op (BitVec.ofNat 64 (c.w.value c.f.exec o.b ty 0 k)))) ∧
  (
    let ready := fun (o : Ops) (n : Nat) (align credit : Bool) (place : Nat → Nat × Nat) (c : Ctx) (act : Mask) =>
      (credit = true → (c.w.scalar o.dst).toNat % 16 = 0 ∧ (c.w.scalar o.dst).toNat < 0x50000) ∧
      ∀ k, act.getLsbD k = true →
        spTarget c.core (c.spAddr o k) n = some (place k) ∧ (align = true → c.spAddr o k % min n 16 = 0) ∧
        c.s.spBlocked (place k).1 (place k).2 ((place k).2 + n) true = false ∧ c.spEarlier o.anyV ⟨k, (place k).1, (place k).2⟩ n = none
    let us := fun (o : Ops) (ty : Ty) (one : Bool) (cnt : Nat) (credit : Bool) =>
      spUses o true ++ runUses o.b (runLength o.b ty cnt) o.feB true false true (fun _ => storeTags ty one) ++
        (if credit then usesOf o.dst false o.feD true false true fun _ => none else [])
    let out := fun (o : Ops) (ty : Ty) (one : Bool) (cnt : Nat) (c : Ctx) (k : Nat) =>
      storeAll ty one 0 (c.mode .fpmode) ((List.range cnt).map fun i => c.w.dataAt o.b ty i k)
    let own := fun (o : Ops) (ty : Ty) (one : Bool) (cnt : Nat) (credit : Bool) (place : Nat → Nat × Nat) (c : Ctx) (act : Mask) =>
      let s1 := (act.threads.filter fun k => (place k).1 = c.core).foldl (fun (st : State) k =>
        let st1 := st.setCore c.core ((st.core c.core).spWrite (place k).2 (out o ty one cnt c k).bytes false)
        if credit then st1.sendCredit c.core (c.w.scalar o.dst).toNat (out o ty one cnt c k).bytes.length none else st1) c.s
      s1.countAll c.core c.slot c.w.uid (tally (act.threads.map fun k => (out o ty one cnt c k).exc)) c.f.pc c.w.word
    (∀ o ty one cnt credit place, DoesEither (.sts o ty one cnt credit) o (us o ty one cnt.num credit)
      (fun c0 act => c0.FreeOfAcquire ∧ ready o (regBytes ty one * cnt.num) (needsAlign ty one) credit place c0.spoil act ∧
        ∀ k, act.getLsbD k = true → (place k).1 = c0.core)
      fun c0 act => c0.spoil.next (own o ty one cnt.num credit place c0.spoil act)) ∧
    (∀ o ty one cnt credit place, DoesEither (.sts o ty one cnt credit) o (us o ty one cnt.num credit)
      (fun c0 act => c0.FreeOfAcquire ∧ ready o (regBytes ty one * cnt.num) (needsAlign ty one) credit place c0.spoil act ∧
        ∃ k, act.getLsbD k = true ∧ (place k).1 ≠ c0.core)
      fun c0 act =>
        let c := c0.spoil
        let s1 := own o ty one cnt.num credit place c act
        let far := (act.threads.filter fun k => (place k).1 ≠ c.core).map fun k =>
          { c.op (.remote (place k).1 (place k).2 (out o ty one cnt.num c k).bytes false (if credit then some (c.w.scalar o.dst).toNat else none)) with
            id := s1.uid }
        ((s1.addOps c.core far).modWave c.core c.slot fun w =>
          { w.modCur (fun f => { f.advance with park := some (.op s1.uid) }) with ended := true }).settle c.core c.slot))

/-- FENCE, ACQ, REL and BIND (R77, R95 to R101, R215 to R217): a fence completes once the wave's earlier accesses are performed, and at
cluster scope or wider, or at team scope in a paired team, it drops the L1; an acquire puts the read of its lock word under way;
a release stores its word once the earlier accesses are performed, and one whose scope is a team on one core once those of the scratchpad are, with
the others marked as passed (assumption 126); BIND writes or clears a slot of the team. -/
def Obligations.OrderingResults : Prop :=
  (∀ o scope seq, DoesOnce (.fence o scope seq) o.guard [] (fun c => c.spoil.s.wavePending c.core c.spoil.w.uid true = false) fun c0 =>
    let c := c0.spoil
    let clears := match scope with | .wave => false | .team => c.paired | _ => true
    let s1 := if clears then c.s.setCore c.core (c.s.core c.core).l1Clear else c.s
    c.next (match scope with | .wave | .team => s1 | _ => s1.fenceWave c.core c.slot)) ∧
  (∀ o scope (pa : List Nat), DoesOnce (.acq o scope) o.guard (usesOf o.a true o.feA true false true (fun _ => none) ++ scalarDst o)
    (fun c => c.FreeOfAcquire ∧ (c.globalAddr o o.a 0).toNat % 8 = 0 ∧ c.s.genAt c.w.part (c.globalAddr o o.a 0).toNat = none ∧
      c.reach false (c.globalAddr o o.a 0) (List.range 8) = .bytes pa) fun c =>
    let c1 := c.translated
    c.next (((c1.s.setWave c.core c.slot (c.w.markEmpty o.dst 0)).addOps c.core [c1.op (.acq o.dst (c.globalAddr o o.a 0) scope)]).touchAccs
      c.core c.w.part c.w.uid c.w.depth (fun _ => false) [(c.globalAddr o o.a 0, 8)])) ∧
  (∀ o scope (pa : List Nat), DoesOnce (.rel o scope) o.guard (usesOf o.a true o.feA true false true (fun _ => none) ++
      usesOf o.b true o.feB true false true fun _ => none)
    (fun c => c.FreeOfAcquire ∧ (c.globalAddr o o.a 0).toNat % 8 = 0 ∧ c.reach true (c.globalAddr o o.a 0) (List.range 8) = .bytes pa ∧
      (scope ≠ .team ∨ c.paired = true) ∧ c.s.wavePending c.core c.w.uid true = false) fun c =>
    c.next (c.translated.sendStores [(0, placeBytes (wholeBytes 8 (c.w.scalar o.b).toNat) pa)] false)) ∧
  (∀ o (pa : List Nat), DoesOnce (.rel o .team) o.guard (usesOf o.a true o.feA true false true (fun _ => none) ++
      usesOf o.b true o.feB true false true fun _ => none)
    (fun c => c.FreeOfAcquire ∧ (c.globalAddr o o.a 0).toNat % 8 = 0 ∧ c.reach true (c.globalAddr o o.a 0) (List.range 8) = .bytes pa ∧
      c.paired = false ∧ c.s.spPending c.core c.w.uid = false) fun c =>
    let k := c.s.core c.core
    let s1 := c.translated.s.setCore c.core { k with memq := k.memq.map fun m => if m.wave = c.w.uid then { m with released := true } else m }
    c.next (({ c with s := s1 } : Ctx).sendStores [(0, placeBytes (wholeBytes 8 (c.w.scalar o.b).toNat) pa)] false)) ∧
  (∀ o bar slot, DoesOnce (.bind o bar slot) o.guard
    (usesOf o.a true o.feA true false false (fun _ => none) ++ usesOf o.b true o.feB true false false (fun _ => none) ++
      usesOf o.dst true o.feD true false false fun _ => none)
    (fun c =>
      let obj := (c.w.scalar o.b).toNat
      (c.w.scalar o.a).toNat ≤ 2 ^ 32 ∧ ((c.w.scalar o.a).toNat = 0 ∨
        (if bar then obj % 2 ^ 19 % 16 = 0 ∧ obj % 2 ^ 19 < 0x50000 else obj % 8 = 0))) fun c =>
    let len := (c.w.scalar o.a).toNat
    let obj := c.w.scalar o.b
    let b : BindSlot := ⟨c.w.scalar o.dst, len, bar, if bar then BitVec.ofNat 64 (obj.toNat % 2 ^ 19) else obj⟩
    let change := fun (t : Team) => { t with binds := if len = 0 then t.binds.erase slot.toNat else t.binds.put slot.toNat b }
    c.next { c.s with teams := c.s.teams.map fun t => if t.id = c.w.team then change t else t })

/-! ### Barriers and engines (R218 to R246) -/

/-- The completion condition of a barrier object (R223): when the arrivals are as many as expected, the inbound bytes received at
least those expected, and something was expected, the phase goes on, the arrivals and the expected bytes are 0, and the bytes
received beyond those expected stay; otherwise the object stays.

A barrier object keeps its fields in its 16 bytes (R221): what is written is what is read. -/
def Obligations.BarrierObjectUpdates : Prop :=
  (
    ∀ b : Bar,
      let complete := b.arrived = b.arrexp ∧ b.inexp ≤ b.inrcvd ∧ (0 < b.arrexp ∨ 0 < b.inexp)
      (complete → b.evaluate = { b with arrived := 0, inexp := 0, inrcvd := b.inrcvd - b.inexp, phase := (b.phase + 1) % 2 ^ 16 }) ∧
      (¬complete → b.evaluate = b)) ∧
  (
    ∀ (s : State) (core off : Nat) (b : Bar), b.arrexp < 64 → b.arrived < 64 → b.phase < 2 ^ 16 → b.inexp < 2 ^ 32 → b.inrcvd < 2 ^ 32 → b.fclass < 8 →
      (s.spPut core off b.bytes).bar core off = b)

/-- Barrier instructions (R218 to R228) on an object within the scratchpad at a multiple of 16: BARINIT starts a phase 0 unless a wave is
parked on the object; BARARR and BAREXP update it and BARARR gives the phase as the token; BARQ reports; BARWAIT reports a phase
that has passed and parks on one that has not; BARSYNC arrives and then reports or parks. -/
def Obligations.BarrierResults : Prop :=
  let at_ := fun (o : Ops) (c : Ctx) => bitOf (c.spAddr o 0) 31 = false ∧ (spTarget c.core (c.spAddr o 0) 16).isSome = true ∧ c.spAddr o 0 % 16 = 0
  let off := fun (o : Ops) (c : Ctx) => c.spAddr o 0 % 2 ^ 19
  let add := fun (o : Ops) (c : Ctx) => (c.w.scalar o.b).toNat % 2 ^ 32
  let token := fun (o : Ops) (c : Ctx) => (c.w.scalar o.b).toNat % 2 ^ 16
  (∀ o arr, DoesOnce (.barinit o arr) o.guard (scalarUse o.a o.feA) (fun c => at_ o c ∧ c.s.parkedOn c.barCore (off o c) = false) fun c =>
    c.next (c.s.spPut c.barCore (off o c) (⟨arr.toNat, 0, 0, 0, 0, false, 0⟩ : Bar).bytes)) ∧
  (∀ o, DoesOnce (.bararr o) o.guard (scalarUse o.a o.feA ++ scalarUse o.b o.feB ++ scalarDst o)
    (fun c => at_ o c ∧ c.s.wavePending c.core c.w.uid true = false ∧
      (c.s.bar c.barCore (off o c)).arrived ≠ (c.s.bar c.barCore (off o c)).arrexp) fun c =>
    let b := c.s.bar c.barCore (off o c)
    c.next ((c.s.setBar c.barCore (off o c) (b.arrive (add o c))).modWave c.core c.slot fun w => w.putDst o.dst (BitVec.ofNat 64 b.phase))) ∧
  (∀ o, DoesOnce (.barexp o) o.guard (scalarUse o.a o.feA ++ scalarUse o.b o.feB) (fun c => at_ o c) fun c =>
    c.next (c.s.setBar c.barCore (off o c) ((c.s.bar c.barCore (off o c)).expect (add o c)))) ∧
  (∀ o, DoesOnce (.barq o) o.guard (scalarUse o.a o.feA ++ tokenUse o.b o.feB ++ scalarDst o) (fun c => at_ o c) fun c =>
    c.report o (off o c) (c.s.barStatus c.w c.barCore (off o c) (token o c))) ∧
  (∀ o, DoesOnce (.barwait o) o.guard (scalarUse o.a o.feA ++ tokenUse o.b o.feB ++ scalarDst o)
    (fun c => at_ o c ∧ c.wait? = none ∧ c.s.barStatus c.w c.barCore (off o c) (token o c) ≠ 1) fun c =>
    c.report o (off o c) (c.s.barStatus c.w c.barCore (off o c) (token o c))) ∧
  (∀ o, DoesOnce (.barwait o) o.guard (scalarUse o.a o.feA ++ tokenUse o.b o.feB ++ scalarDst o)
    (fun c => at_ o c ∧ c.wait? = none ∧ c.s.barStatus c.w c.barCore (off o c) (token o c) = 1) fun c =>
    c.put { c.w.modCur (fun f => { f.addSync ⟨c.f.pc, BitVec.ofNat 16 (token o c), none⟩ with
      park := some (.barrier c.barCore (off o c) (BitVec.ofNat 16 (token o c))) }) with ended := true }) ∧
  (∀ o, DoesOnce (.barsync o) o.guard (scalarUse o.a o.feA ++ scalarUse o.b o.feB ++ scalarDst o)
    (fun c => at_ o c ∧ c.wait? = none ∧ c.s.abandoned c.w = false ∧ c.s.wavePending c.core c.w.uid true = false ∧
      (c.s.bar c.barCore (off o c)).arrived ≠ (c.s.bar c.barCore (off o c)).arrexp) fun c =>
    let b := c.s.bar c.barCore (off o c)
    let s1 := c.s.setBar c.barCore (off o c) (b.arrive (add o c))
    ({ c with s := s1, w := (s1.wave? c.core c.slot).getD c.w } : Ctx).reportOrPark o (off o c) b.phase) ∧
  (∀ o fault x, DoesOnce (.barsync o) o.guard (scalarUse o.a o.feA ++ scalarUse o.b o.feB ++ scalarDst o)
    (fun c => at_ o c ∧ c.wait? = some x ∧ x.done = some fault) fun c =>
    c.report o (off o c) (if c.s.abandoned c.w then 3 else if fault then 2 else 0))

/-- The engine window (R229 to R235): EQST writes a latch, and one above 3 raises ILLEGAL; EQGO and KICK enqueue what the latches or a descriptor
describe when it keeps the rules of its queue; a descriptor that breaks them raises DESC, or WINDOW for a scratchpad that the wave does not reach. The
address of a KICK's descriptor raises WINDOW or MISALIGN; a full queue parks. -/
def Obligations.EngineWindowResults : Prop :=
  (∀ o q reg, DoesOnce (.eqst o q reg) o.guard (scalarUse o.a o.feA)
    (fun c => reg.toNat + (match c.f.rep with | some x => x.idx | none => 0) ≤ 3) fun c =>
    let r := reg.toNat + (match c.f.rep with | some x => x.idx | none => 0)
    let x := BitVec.ofNat 64 (c.w.value c.f.exec o.a .n64 o.imm 0)
    c.done { c.w with latches := c.w.latches.put (4 * q.num + r) x }) ∧
  (∀ o q reg, DoesOnce (.eqst o q reg) o.guard (scalarUse o.a o.feA)
    (fun c => 3 < reg.toNat + (match c.f.rep with | some x => x.idx | none => 0)) fun c => c.trap Trap.illegal) ∧
  (∀ o, DoesOnce (.eqgo o .q0) o.guard [] (fun c0 =>
      let c := c0.spoil
      c0.FreeOfAcquire ∧ c.matrixOk (c.w.latch 0 0) (c.w.latch 0 1) (c.w.latch 0 2) (c.w.latch 0 3) = false)
    fun c0 => c0.spoil.trap { cause := 15 }) ∧
  (∀ o cause, DoesOnce (.eqgo o .q1) o.guard [] (fun c0 =>
      let c := c0.spoil
      c0.FreeOfAcquire ∧
        (copyDesc (c.w.latch 1 0) (c.w.latch 1 1) (c.w.latch 1 2) (c.w.latch 1 3)).bad c.core ((c.w.latch 1 3).toNat / 2 ^ 55) = some cause)
    fun c0 => c0.spoil.trap { cause := cause, oper := Opnd.unused.bits.toNat }) ∧
  (∀ o, DoesOnce (.eqgo o .q2) o.guard [] (fun c0 =>
      c0.FreeOfAcquire ∧ (hintOf (c0.w.latch 2 2).toNat = none ∨ 2 ^ 40 ≤ (c0.w.latch 2 1).toNat ∨ c0.w.latch 2 3 ≠ 0))
    fun c0 => c0.spoil.trap { cause := 15 }) ∧
  (∀ o, DoesOnce (.kick o) o.guard (scalarUse o.a o.feA)
    (fun c => spTarget c.core (c.spAddr o 0) 32 = none ∨ ∃ k off, spTarget c.core (c.spAddr o 0) 32 = some (k, off) ∧ k ≠ c.core) fun c =>
    c.trap { cause := 7, oper := o.a.bits.toNat, addr := BitVec.ofNat 64 (c.spAddr o 0) }) ∧
  (∀ o off, DoesOnce (.kick o) o.guard (scalarUse o.a o.feA)
    (fun c => spTarget c.core (c.spAddr o 0) 32 = some (c.core, off) ∧ off % 16 ≠ 0) fun c =>
    c.trap { cause := 6, oper := o.a.bits.toNat, addr := BitVec.ofNat 64 (c.spAddr o 0) }) ∧
  (∀ o off cause, DoesOnce (.kick o) o.guard (scalarUse o.a o.feA) (fun c0 =>
      let w := fun (i : Nat) => BitVec.ofNat 64 (c0.s.spNat c0.core (off + 8 * i) 8)
      c0.FreeOfAcquire ∧ spTarget c0.core (c0.spAddr o 0) 32 = some (c0.core, off) ∧ off % 16 = 0 ∧
      (copyDesc (w 0) (w 1) (w 2) (w 3)).bad c0.core ((w 3).toNat / 2 ^ 55) = some cause)
    fun c0 => c0.spoil.trap { cause := cause, oper := o.a.bits.toNat }) ∧
  (∀ (d : CopyDesc) core reserved cause, d.bad core reserved = some cause →
    (cause = 15 ∨ cause = 7) ∧ (cause = 7 → reserved = 0 ∧ d.rowBytes % 16 = 0 ∧ d.spitch % 16 = 0 ∧ d.dpitch % 16 = 0 ∧ d.dst.toNat % 16 = 0)) ∧
  (∀ o, DoesOnce (.eqgo o .q0) o.guard [] (fun c0 =>
      let c := c0.spoil
      c0.FreeOfAcquire ∧ c.matrixOk (c.w.latch 0 0) (c.w.latch 0 1) (c.w.latch 0 2) (c.w.latch 0 3) = true ∧
      c.HasPlace .q0 ∧
      (c.core % 2 = 0 ∨ Config.mainCores ≤ c.core ∨ (c.s.pairs.get ⟨[]⟩ (Config.pairOf c.core)).q0 = []))
    fun c0 =>
      let c := c0.spoil
      let k := Config.pairOf c.core
      let e := c.entry 0 true (MxOp.start c.core (c.w.latch 0 0) (c.w.latch 0 1) (c.w.latch 0 2) (c.w.latch 0 3))
      c.entered .q0 id fun s => { s with pairs := s.pairs.put k ⟨(c.s.pairs.get ⟨[]⟩ k).q0 ++ [e]⟩ }) ∧
  (∀ o, DoesOnce (.eqgo o .q1) o.guard [] (fun c0 =>
      let c := c0.spoil
      let d := copyDesc (c.w.latch 1 0) (c.w.latch 1 1) (c.w.latch 1 2) (c.w.latch 1 3)
      c0.FreeOfAcquire ∧ d.bad c.core ((c.w.latch 1 3).toNat / 2 ^ 55) = none ∧ c.HasPlace1 (d.sides c.core))
    fun c0 =>
      let c := c0.spoil
      let d := copyDesc (c.w.latch 1 0) (c.w.latch 1 1) (c.w.latch 1 2) (c.w.latch 1 3)
      c.entered1 (.copy d) (d.sides c.core) id) ∧
  (∀ o h, DoesOnce (.eqgo o .q2) o.guard [] (fun c0 =>
      c0.FreeOfAcquire ∧ hintOf (c0.w.latch 2 2).toNat = some h ∧ (c0.w.latch 2 1).toNat < 2 ^ 40 ∧ c0.w.latch 2 3 = 0 ∧ c0.spoil.HasPlace .q2)
    fun c0 => c0.spoil.entered .q2
      (fun k => { k with q2 := k.q2 ++ [c0.spoil.entry 2 false ⟨h, c0.w.latch 2 0, (c0.w.latch 2 1).toNat, 0, false⟩] }) id) ∧
  (∀ o, DoesOnce (.eqgo o .q3) o.guard [] (fun c => c.FreeOfAcquire ∧ c.spoil.HasPlace .q3) fun c =>
    c.spoil.entered .q3 (fun k => { k with q3 := k.q3 ++ [c.spoil.entry 3 false .marker] }) id) ∧
  (∀ o, DoesOnce (.eqgo o .q4) o.guard [] (fun c => c.FreeOfAcquire ∧ c.spoil.HasPlace .q4) fun c =>
    c.spoil.entered .q4 (fun k => { k with q4 := k.q4 ++ [c.spoil.entry 4 false .marker] }) id) ∧
  (∀ o off, DoesOnce (.kick o) o.guard (scalarUse o.a o.feA) (fun c0 =>
      let c := c0.spoil
      let w := fun (i : Nat) => BitVec.ofNat 64 (c0.s.spNat c.core (off + 8 * i) 8)
      c0.FreeOfAcquire ∧ spTarget c.core (c0.spAddr o 0) 32 = some (c.core, off) ∧ off % 16 = 0 ∧
      (copyDesc (w 0) (w 1) (w 2) (w 3)).bad c.core ((w 3).toNat / 2 ^ 55) = none ∧ c.HasPlace1 ((copyDesc (w 0) (w 1) (w 2) (w 3)).sides c.core))
    fun c0 =>
      let w := fun (i : Nat) => BitVec.ofNat 64 (c0.s.spNat c0.core (off + 8 * i) 8)
      let d := copyDesc (w 0) (w 1) (w 2) (w 3)
      c0.spoil.entered1 (.copy d) (d.sides c0.core) id) ∧
  (∀ (c : Ctx) (q : Queue) (add : Core → Core) (after : State → State), queueDepth q ≤ c.s.queueLen c.core q →
    c.enqueue q add after = c.park (.room q))

/-- EQFENCE, EQWAIT and MXPRG (R232, R233, R240): later operations of the named queues wait for every operation now in one of
them; a wave with at most n operations outstanding reads and clears its status record and drops the L1; the progress of the
oldest matrix operation is read.

TLD, TST, TCPY and TCB (R244, R245): an operation of queue 1 with its scoreboard entries; the destination tile carries its new tag
at once. -/
def Obligations.QueueWaitAndTileResults : Prop :=
  (
    (∀ o mask, DoesOnce (.eqfence o mask) o.guard [] (fun _ => True) fun c =>
      let qs := (List.range 5).filter fun q => mask.getLsbD q
      let ids := qs.flatMap fun q => c.s.queueIds c.core q
      c.next (qs.foldl (fun st q =>
        let old := ((st.core (joinCore c.core q)).joins.get [] q).filter fun i => st.opPending c.core i
        st.setCore (joinCore c.core q) { st.core (joinCore c.core q) with
          joins := (st.core (joinCore c.core q)).joins.put q (old ++ ids).eraseDups }) c.s)) ∧
    (∀ o q n, DoesOnce (.eqwait o q n) o.guard (scalarDst o) (fun c => c.w.qout.get 0 q.num ≤ n.toNat) fun c =>
      let w := ({ c.w with qstat := c.w.qstat.put q.num QStat.clear } : Wave).putDst o.dst (c.w.qstat.get QStat.clear q.num).bits
      c.next (((c.put w).setCore c.core ((c.put w).core c.core).l1Clear).fenceWave c.core c.slot)) ∧
    (∀ o q n, DoesOnce (.eqwait o q n) o.guard (scalarDst o) (fun c => n.toNat < c.w.qout.get 0 q.num) fun c => c.park (.queue q n.toNat)) ∧
    (∀ o, DoesOnce (.mxprg o) o.guard (scalarDst o) (fun _ => True) fun c => c.done (c.w.putDst o.dst (c.s.progress c.core)))) ∧
  (
    let base := fun (o : Ops) (sp : Bool) (span : Nat) (c : Ctx) =>
      if sp then (spTarget c.core (c.spAddr o 0) span).isSome = true ∧ c.spAddr o 0 % 16 = 0 else (c.globalAddr o o.a 0).toNat % 16 = 0
    let addr := fun (o : Ops) (sp : Bool) (c : Ctx) => if sp then BitVec.ofNat 64 (c.spAddr o 0) else c.globalAddr o o.a 0
    let sides := fun (o : Ops) (sp inbound : Bool) (span : Nat) (c : Ctx) => if sp then (sideAt c.core (c.spAddr o 0) span inbound).toList else []
    (∀ o ty sp n, o.dst = .t n → DoesOnce (.tld o ty sp) o.guard (scalarUse o.a o.feA ++ scalarUse o.b o.feB)
      (fun c => c.FreeOfAcquire ∧ shapeOk (c.w.scalar o.b) = true ∧ tileType ty = true ∧ base o sp (shapeSpan (c.w.scalar o.b)) c ∧
        c.HasPlace1 (sides o sp false (shapeSpan (c.w.scalar o.b)) c)) fun c =>
      c.entered1 (.tld n.toNat ty sp (addr o sp c) (c.w.scalar o.b)) (sides o sp false (shapeSpan (c.w.scalar o.b)) c)
        fun st => st.tagTile c.core n.toNat ty.tag) ∧
    (∀ o sp n, o.dst = .t n → DoesOnce (.tst o sp) o.guard (scalarUse o.a o.feA ++ scalarUse o.b o.feB)
      (fun c => c.FreeOfAcquire ∧ shapeOk (c.w.scalar o.b) = true ∧ base o sp (shapeSpan (c.w.scalar o.b)) c ∧
        c.HasPlace1 (sides o sp true (shapeSpan (c.w.scalar o.b)) c)) fun c =>
      c.entered1 (.tst n.toNat sp (addr o sp c) (c.w.scalar o.b)) (sides o sp true (shapeSpan (c.w.scalar o.b)) c) id) ∧
    (∀ o n m, o.dst = .t n → o.a = .t m → DoesOnce (.tcpy o) o.guard [] (fun c => c.FreeOfAcquire ∧ c.HasPlace1 []) fun c =>
      c.entered1 (.tcpy n.toNat m.toNat) [] fun st => st.tagTile c.core n.toNat ((c.s.core c.core).tiles.get Tile.fresh m.toNat).tag) ∧
    (∀ o sp n, o.dst = .t n → DoesOnce (.tcb o sp) o.guard (scalarUse o.a o.feA) (fun c => c.FreeOfAcquire ∧ base o sp 32 c ∧ c.HasPlace1 (sides o sp false 32 c)) fun c =>
      c.entered1 (.tcb n.toNat sp (addr o sp c)) (sides o sp false 32 c) fun st => st.tagTile c.core n.toNat 5))

/-! ### Vector-matrix, traversal, Lath and Glaze (R246 to R287) -/

/-- VXM, BOXT and TRIT (R246, R249): the operands are read at issue, the destinations are empty with their tags, and one operation
is under way with the pointer of each thread that has one; memory is as it was. -/
def Obligations.FetchingInstructionsStart : Prop :=
  let words := fun (c : Ctx) (x : Opnd) (k : Nat) => (List.range 8).map fun i => BitVec.ofNat 32 (c.w.value c.f.exec (x.plus i) .b32 0 k)
  let ptr := fun (c : Ctx) (o : Ops) (align : Nat) (p : DWord) (k : Nat) =>
    if c.w.poisonAt o.b true k || decide (p.toNat % align ≠ 0) || !canonical p then none else some p
  (∀ (o : Ops) (rnd : Rnd) (s : State) (c0 : Ctx) (act : Mask), s.ctx? = some c0 → s.upsets = [] → c0.RunsIn o.guard (vxmUses o) act → c0.FreeOfAcquire →
    let c := c0.spoil
    let p := fun (k : Nat) => BitVec.ofNat 64 (c.w.value c.f.exec o.b .n64 0 k)
    let accs := act.threads.map fun k => (k, (if p k = 0 then none else ptr c o 256 (p k) k), words c o.a k, words c o.dst k)
    ∃ poison org,
      exec (.vxm o rnd) s = .next (c.next (((c.put ((accessRegs o.dst .b32 8).foldl (fun w r => w.markEmpty r 3) c.w)).addOps c.core
        [c.op (.vxm o.dst (c.mode rnd) c.flush accs poison org [] c.f.pc c.w.word)]).touchAccs c.core c.w.part c.w.uid c.w.depth (fun _ => false)
        (accs.filterMap fun a => a.2.1.map fun p => (p, 256)))) ∧
      ∀ k, act.getLsbD k = true → poison.getLsbD k =
        (List.range 8).any fun i => c.w.poisonAt (o.a.plus i) false k || c.w.poisonAt (o.dst.plus i) false k) ∧
  (∀ (o : Ops) (tri sort : Bool) (s : State) (c0 : Ctx) (act : Mask), s.ctx? = some c0 → s.upsets = [] →
    c0.RunsIn o.guard (testerUses o (if tri then 4 else 8)) act → c0.FreeOfAcquire →
    let c := c0.spoil
    let rays := act.threads.map fun k => (k, ptr c o (if tri then 16 else 128) (c.globalAddr o o.b k) k, words c o.a k)
    let tags := if tri then [3, 3, 3, 2] else [3, 3, 3, 3, 2, 2, 2, 2]
    ∃ poison org,
      exec (if tri then .trit o else .boxt o sort) s = .next (c.next (((c.put
        ((accessRegs o.dst .b32 (if tri then 4 else 8)).zipIdx.foldl (fun w r => w.markEmpty r.1 (tags.getD r.2 2)) c.w)).addOps c.core
        [c.op (.node o.dst tri (if tri then false else sort) rays poison org [])]).touchAccs c.core c.w.part c.w.uid c.w.depth
        (fun k => ((c.s.core c.core).l1Hit false 0 k).isSome)
        (rays.filterMap fun a => a.2.1.map fun p => (p, if tri then 48 else 128)))) ∧
      ∀ k, act.getLsbD k = true → poison.getLsbD k = (List.range 8).any fun i => c.w.poisonAt (o.a.plus i) false k)

/-- Traversal stacks (R256 to R259) in a stack area that lies in the scratchpad at a multiple of 16 and is not blocked: SPUSH stores the
values of the threads with room and raises the predicate of the full ones; SPOP and SPEEK read the top entries and raise the
predicate of the empty ones; SCLR empties the stacks. -/
def Obligations.TraversalStackResults : Prop :=
  let area := fun (o : Ops) (out : Bool) (entries : List (Nat × Nat)) (c : Ctx) =>
    let a := c.spAddr o 0
    bitOf a 31 = false ∧ bitOf a 19 = false ∧ bitsOf a 30 28 = 0 ∧ a % 2 ^ 19 + 128 * c.w.width ≤ Config.scratchEnd c.core ∧ a % 16 = 0 ∧
    ∀ e ∈ entries, c.s.spBlocked c.core (stackEntry (a % 2 ^ 19) c.w.width e.1 e.2) (stackEntry (a % 2 ^ 19) c.w.width e.1 e.2 + 4) out = false ∧
      c.spEarlier true ⟨e.2, c.core, stackEntry (a % 2 ^ 19) c.w.width e.1 e.2⟩ 4 = none
  let room := fun (c : Ctx) (act : Mask) => act.threads.filter fun k => c.w.stackDepth k < 32
  let held := fun (c : Ctx) (act : Mask) => act.threads.filter fun k => 0 < c.w.stackDepth k
  (∀ o p, o.dst = .p p → DoesIn (.spush o) o.guard (spUses o true ++ usesOf o.b false o.feB true false true fun _ => none)
    (fun c act => c.FreeOfAcquire ∧ area o true ((room c.spoil act).map fun k => (c.spoil.w.stackDepth k, k)) c.spoil)
    fun c0 act =>
      let c := c0.spoil
      let k := (room c act).foldl (fun (k : Core) t => k.spWrite (stackEntry (c.spAddr o 0 % 2 ^ 19) c.w.width (c.w.stackDepth t) t)
        (wholeBytes 4 (c.w.value c.f.exec o.b .b32 0 t)) false) (c.s.core c.core)
      let w : Wave := { c.w with tdepth := (room c act).foldl (fun d t => d.put t (c.w.stackDepth t + 1)) c.w.tdepth }
      c.next ((c.s.setCore c.core k).setWave c.core c.slot (w.setP p.toNat ((w.p p.toNat).write act
        (Mask.ofPred fun t => act.getLsbD t && !(room c act).contains t) 0 .fault)))) ∧
  (∀ (o : Ops) (pe : BitVec 3) (pop : Bool) (n : BitVec 8) (s : State) (c0 : Ctx) (act : Mask), o.dst = .v n → s.ctx? = some c0 →
    c0.RunsIn o.guard (topUses o) act → c0.FreeOfAcquire → c0.w.poisonAt o.a false 0 = false →
    area o false ((held c0.spoil act).map fun k => (c0.spoil.w.stackDepth k - 1, k)) c0.spoil → pe ≠ 7 →
    let c := c0.spoil
    let read := fun (k : Nat) => s.spRead c.core (stackEntry (c.spAddr o 0 % 2 ^ 19) c.w.width (c.w.stackDepth k - 1) k) 4
    ∃ w, exec (if pop then .spop o pe else .speek o pe) s = .next (c.next ((c.put w).draw)) ∧
      (∀ k, act.getLsbD k = true → (w.v n.toNat).vals.getD k 0 =
        if 0 < c.w.stackDepth k then BitVec.ofNat 32 (leNat ((read k).map (·.1))) else 0xFFFFFFFF) ∧
      (∀ k, act.getLsbD k = true → (w.v n.toNat).poison.getLsbD k = (decide (0 < c.w.stackDepth k) && (read k).any (·.2))) ∧
      (w.v n.toNat).full = true ∧ (w.v n.toNat).tag = 0 ∧
      (∀ k, act.getLsbD k = true → (w.p pe.toNat).bits.getLsbD k = decide (c.w.stackDepth k = 0)) ∧
      (∀ k, w.stackDepth k = if pop = true ∧ act.getLsbD k = true then c.w.stackDepth k - 1 else c.w.stackDepth k) ∧
      (∀ m, m ≠ n.toNat → w.v m = c.w.v m) ∧ w.sregs = c.w.sregs) ∧
  (∀ o, DoesIn (.sclr o) o.guard [] (fun _ _ => True) fun c act =>
    c.done { c.w with tdepth := act.threads.foldl (fun d t => d.put t 0) c.w.tdepth })

/-- Lath (R266 to R270): LATHREQ enqueues a load of an image at a multiple of 512; LATHRUN enqueues a run with the inputs as they are, with their poison and that of the
image's address, and the fragment stalls at it; LATHWAIT writes the status of an image when there is one.

Glaze (R271 to R287) with record numbers below 4096 and room in queue 4: arrivals, clears and replays enter the queue and the
fragment goes on; reads and status reads enter it and the fragment stalls. -/
def Obligations.LathAndGlazeResults : Prop :=
  (
    (∀ o reload, DoesOnce (.lathreq o reload) o.guard (scalarUse o.a o.feA) (fun c => (c.w.scalar o.a).toNat % 512 = 0 ∧ c.FreeOfAcquire ∧ c.HasPlace .q3) fun c =>
      c.entered .q3 (fun k => { k with q3 := k.q3 ++ [c.entry 3 true (.load (c.w.scalar o.a) reload)] }) id) ∧
    (∀ (o : Ops) (nin : BitVec 3) (nout : BitVec 2) (s : State) (c : Ctx) (act : Mask), s.ctx? = some c →
      c.RunsIn o.guard (lathUses o (nin.toNat + 1) (nout.toNat + 1)) act → c.FreeOfAcquire → c.f.lathErr = none →
      s.queueLen c.core .q3 < queueDepth .q3 →
        let e := c.entry 3 true (.run o.dst (nin.toNat + 1) (nout.toNat + 1) (c.w.scalar o.b) act.threads
          (act.threads.map fun t => (List.range (nin.toNat + 1)).map fun i => BitVec.ofNat 32 (c.w.value c.f.exec (o.a.plus i) .b32 0 t))
          ((List.range (nin.toNat + 1)).map (fun i => c.w.poisonOf (o.a.plus i) &&& act) ++ [if c.w.poisonAt o.b true 0 then act else 0])
          ((List.range (nin.toNat + 1)).map (fun i => c.w.originOf (o.a.plus i)) ++ [c.w.originOf o.b]) false)
        exec (.lathrun o nin nout) s = .next ((s.setCore c.core { s.core c.core with q3 := (s.core c.core).q3 ++ [e] }).fresh.modWave c.core c.slot
          fun w => { (w.outstanding 3).modCur (fun f => { f with park := some (.op e.id) }) with ended := true })) ∧
    (∀ o x, DoesOnce (.lathwait o) o.guard (tokenUse o.a o.feA ++ scalarDst o)
      (fun c => (c.s.core c.core).lathStatus c.w (c.w.scalar o.a) = some x) fun c => c.done (match o.dst with
        | .s n => c.w.setS n.toNat (SReg.write (BitVec.ofNat 64 x) (c.w.poisonAt o.a true 0) (c.w.originOf o.a))
        | _ => c.w))) ∧
  (
    let numbers := fun (x : Opnd) (c : Ctx) (act : Mask) => ∀ k, act.getLsbD k = true → c.w.value c.f.exec x .b32 0 k < 4096
    let recs := fun (x : Opnd) (c : Ctx) (act : Mask) => act.threads.map fun k => (k, c.w.value c.f.exec x .b32 0 k)
    let queued := fun (c : Ctx) (kind : Q4Kind) => c.entered .q4 (fun k => { k with q4 := k.q4 ++ [c.entry 4 false kind] }) id
    let stalled := fun (c : Ctx) (kind : Q4Kind) =>
      ((c.s.setCore c.core { c.s.core c.core with q4 := (c.s.core c.core).q4 ++ [c.entry 4 false kind] }).fresh).modWave c.core c.slot fun w =>
        { (w.outstanding 4).modCur (fun f => { f with park := some (.op c.s.uid) }) with ended := true }
    let keyFill := fun (o : Ops) => match o.xl with
      | .shift _ .srcb | .bcast _ .srcb => usesOf o.b false o.feB true false false fun _ => some [0, 2]
      | _ => []
    (∀ o, DoesIn (.gzarr o) o.guard
      (usesOf o.a false o.feA true false false (fun _ => some [0, 2]) ++ keyFill o ++ runUses o.b 2 o.feB true false false (fun _ => some [0, 4]) ++
        usesOf o.dst false o.feD true false false recordTags) (fun c act => numbers o.dst c act ∧ c.HasPlace .q4) fun c act =>
      queued c (.arrive ((recs o.dst c act).map fun x => c.arrivalOf o x.1 x.2))) ∧
    (∀ o flush, DoesIn (.gzrd o flush) o.guard
      (usesOf o.a false o.feA true false false recordTags ++ runUses o.dst 8 false false true false fun _ => none)
      (fun c act => numbers o.a c act ∧ c.s.queueLen c.core .q4 < queueDepth .q4) fun c act =>
      stalled c (.read o.dst flush (recs o.a c act) (act &&& c.w.poisonOf o.a) (if act &&& c.w.poisonOf o.a = 0 then .fault else c.w.originOf o.a))) ∧
    (∀ o, DoesOnce (.gzclr o true) o.guard [] (fun c => c.HasPlace .q4) fun c => queued c .clearAll) ∧
    (∀ o, DoesEither (.gzclr o false) o (usesOf o.a false o.feA true false (!o.anyV) recordTags) (fun c act => numbers o.a c act ∧ c.HasPlace .q4) fun c act =>
      queued c (.clear ((recs o.a c act).map (·.2)))) ∧
    (∀ o, DoesOnce (.gzrpl o) o.guard (scalarUse o.a o.feA ++ scalarUse o.b o.feB)
      (fun c => (c.w.scalar o.a).toNat % 32 = 0 ∧ (c.w.scalar o.b).toNat < 2 ^ 24 ∧
        (c.w.scalar o.b).toNat ≤ (c.s.cluster (Config.clusterOf c.core)).logN.toNat ∧ c.FreeOfAcquire ∧ c.HasPlace .q4) fun c =>
      c.entered .q4 (fun k => { k with q4 := k.q4 ++ [c.entry 4 true (.replay (c.w.scalar o.a) (c.w.scalar o.b).toNat)] }) id) ∧
    (∀ o, DoesOnce (.gzst o) o.guard (scalarDst o) (fun c => c.s.queueLen c.core .q4 < queueDepth .q4) fun c => stalled c (.status o.dst)))

/-! ### Fillers and graphs (R305 to R317) -/

/-- FGET, FCMT, FPSN, FEND and GPROBE (R306 to R310): a filler takes its bound task, then a queued one, and leaves sd empty until the
operation that it adds writes the task's block there, or 0 where there is none; commits or poisons FILLING lines of
the task's block; ends its task; and reads the state of a line. -/
def Obligations.FillerResults : Prop :=
  (∀ o t, DoesOnce (.fget o) o.guard (scalarDst o)
    (fun c => c.w.depth ≠ 0 ∧ c.w.held = none ∧
      (match c.w.bound with | some id => c.part.tasks.find? fun x => x.id = id | none => c.nextTask) = some t) fun c =>
    c.next (((c.s.takeTask c.w.part t.id).modWave c.core c.slot fun w =>
      { w.markEmpty o.dst 0 with held := some t.id, bound := none }).addOps c.core
        [c.op (.task o.dst (BitVec.ofNat 64 (t.block / 512 * 512 + t.gen)))])) ∧
  (∀ o, DoesOnce (.fget o) o.guard (scalarDst o) (fun c => c.w.depth ≠ 0 ∧ c.w.held = none ∧ c.w.bound = none ∧ c.nextTask = none) fun c =>
    c.next ((c.s.modWave c.core c.slot fun w => { w.markEmpty o.dst 0 with held := none, bound := none }).addOps c.core
      [c.op (.task o.dst 0)])) ∧
  (∀ o n t lines, o.b = .v n → DoesIn (.fcmt o) o.guard (scalarUse o.a o.feA ++ usesOf o.b false o.feB true false false fun _ => none)
    (fun c _ => c.fillLines (c.fillAddr o) = some (t, lines) ∧ c.s.wavePending c.core c.w.uid true = false) fun c _ =>
    c.next ((lines.zipIdx.foldl (fun (st : State) x => st.commitLine c.w.part x.1 (c.w.v n.toNat) (32 * x.2)) c.s).settleSlot t)) ∧
  (∀ o t lines, DoesOnce (.fpsn o false) o.guard (scalarUse o.a o.feA)
    (fun c => c.fillLines (c.fillAddr o) = some (t, lines) ∧ c.s.wavePending c.core c.w.uid true = false) fun c =>
    c.next ((lines.foldl (fun (st : State) l => st.poisonLine c.w.part l .data) c.s).settleSlot t)) ∧
  (∀ o t g, DoesOnce (.fpsn o true) o.guard [] (fun c => c.w.depth ≠ 0 ∧ c.task = some (t, g) ∧ c.s.wavePending c.core c.w.uid true = false) fun c =>
    c.next ((((blockLines t.block g.block).filter fun l => match c.s.genLine c.w.part l with | some x => x.state == .filling | none => false).foldl
      (fun (st : State) l => st.poisonLine c.w.part l .data) c.s).settleSlot t)) ∧
  (∀ o id, DoesOnce (.fend o) o.guard [] (fun c => c.w.held = some id ∧ c.w.depth ≠ 0) fun c =>
    c.next ((c.s.endTask c.w.part id .fault).modWave c.core c.slot fun w => { w with held := none })) ∧
  (∀ o, DoesOnce (.gprobe o) o.guard (scalarUse o.a o.feA ++ scalarDst o) (fun c => c.FreeOfAcquire ∧ canonical (c.fillAddr o) = true) fun c =>
    c.done (c.w.putDst o.dst (BitVec.ofNat 64 (c.probe (c.fillAddr o)))))

/-- TGCOND, TGSIG and TGWAIT (R315, R316): a condition word is written once the wave's earlier accesses are performed; flags are
set as a release; a wait takes its flags, clears them and acquires, or parks.

EMIT (R317) to a RECORD node of the core's graph with records of its size. Within the recursion limit, with a free ring position
for every thread and the wave's earlier accesses performed, each thread's words are sent as a store to its position, the node's
ring holds one record more for each thread, one recursion level below the wave's, and the predicate is true there. Past the
limit, without the trap bit, the records are clipped and counted. -/
def Obligations.GraphInstructionResults : Prop :=
  (
    (∀ o, DoesOnce (.tgcond o) o.guard (scalarUse o.a o.feA ++ scalarUse o.b o.feB)
      (fun c => c.FreeOfAcquire ∧ bitOf (c.spAddr o 0) 31 = false ∧ (spTarget c.core (c.spAddr o 0) 4).isSome = true ∧ c.spAddr o 0 % 4 = 0 ∧
        c.s.spBlocked c.core (c.spAddr o 0 % 2 ^ 19) (c.spAddr o 0 % 2 ^ 19 + 4) true = false ∧
        c.spoil.s.wavePending c.core c.spoil.w.uid true = false) fun c =>
      c.next (c.spoil.s.spPut c.core (c.spAddr o 0 % 2 ^ 19) (leBytes 4 (c.w.scalar o.b).toNat))) ∧
    (∀ o mask, DoesOnce (.tgsig o mask) o.guard [] (fun c => mask = 0 ∨ c.s.wavePending c.core c.w.uid true = false) fun c =>
      if mask = 0 then c.next c.s else c.next (c.s.setCore c.core { c.s.core c.core with flags := (c.s.core c.core).flags ||| mask })) ∧
    (∀ o mask, DoesOnce (.tgwait o mask) o.guard [] (fun c => (c.s.core c.core).flags &&& mask = mask) fun c =>
      if mask = 0 then c.next c.s
      else c.next ((c.s.setCore c.core { (c.s.core c.core).l1Clear with flags := (c.s.core c.core).flags &&& ~~~mask }).fenceWave c.core c.slot)) ∧
    (∀ o mask, DoesOnce (.tgwait o mask) o.guard [] (fun c => (c.s.core c.core).flags &&& mask ≠ mask) fun c => c.park (.flags mask))) ∧
  (
    (∀ (o : Ops) (node : BitVec 6) (regs : BitVec 4) (g : Graph) (n : Node) (place : Nat → Nat) (ps : Nat → List Nat),
      DoesIn (.emit o node regs) o.guard (runUses o.a (regs.toNat + 1) o.feA true false true fun _ => none)
        (fun c0 act =>
          let c := c0.spoil
          c0.FreeOfAcquire ∧ (c0.s.core c0.core).graph = some g ∧ g.nodes[node.toNat]? = some n ∧ nodeKind n = 5 ∧ nodeWords n = regs.toNat + 1 ∧
          c.w.recDepth + 1 ≤ nodeMaxDepth n ∧ (∀ x ∈ act.threads.zipIdx, g.slotFor node.toNat n x.2 = some (place x.1)) ∧
          c.s.wavePending c.core c.w.uid true = false ∧
          c.Reaches (fun k => ringAddr n (place k)) (fun _ => List.range (4 * nodeWords n)) (fun _ => false) act.threads ps)
        fun c0 act =>
          let c := c0.spoil
          let bytes := fun (k : Nat) => (List.range (nodeWords n)).flatMap fun i => wholeBytes 4 (c.w.value c.f.exec (o.a.plus i) .b32 0 k)
          let s1 := c.translated.sendStores (act.threads.map fun k => (k, placeBytes (bytes k) (ps k))) false
          let ring := (Tab.get [] g.rings node.toNat) ++ act.threads.map fun _ => (⟨c.w.recDepth + 1, c.s.uid⟩ : Record)
          c.next ((s1.setCore c.core { s1.core c.core with graph := some { g with rings := Tab.put g.rings node.toNat ring } }).modWave c.core c.slot
            fun w => w.setP (Opnd.predNum o.dst) ((w.p (Opnd.predNum o.dst)).write act act 0 .fault))) ∧
    (∀ (o : Ops) (node : BitVec 6) (regs : BitVec 4) (g : Graph) (n : Node),
      DoesIn (.emit o node regs) o.guard (runUses o.a (regs.toNat + 1) o.feA true false true fun _ => none)
        (fun c0 _ => c0.FreeOfAcquire ∧ (c0.s.core c0.core).graph = some g ∧ g.nodes[node.toNat]? = some n ∧ nodeKind n = 5 ∧
          nodeWords n = regs.toNat + 1 ∧ nodeMaxDepth n < c0.w.recDepth + 1 ∧ bitOf n.toNat 15 = false)
        fun c0 act =>
          let c := c0.spoil
          c.next ((c.s.setCore c.core { c.s.core c.core with graph := some { g with clips := min (g.clips + act.threads.length) 0xFFFF } }).modWave
            c.core c.slot fun w => w.setP (Opnd.predNum o.dst) ((w.p (Opnd.predNum o.dst)).write act 0 0 .fault))))

/-! ### Privileged instructions (R344 to R356) -/

/-- CRRD, CRWR, TLBI and TLBP (R344, R352 to R354): a register of the wave's own partition or core, or of an instance that it owns, is
read or written; translations of a range are dropped at a scope; a translation is probed. -/
def Obligations.ControlRegisterResults : Prop :=
  let own := fun (o : Ops) (num : Nat) (write : Bool) (inst : Nat) (c : Ctx) =>
    machineReg num write = false ∧ c.s.instOwned c.w.part num inst = true ∧
    (match o.a with
      | .s n => inst = (c.w.s n.toNat).val.toNat ∧ inst < 256 ∧ partBlock num = false ∧ instExists num inst = true
      | _ => inst = ownInst num c.core c.w.part)
  (∀ o num inst, DoesOnce (.crrd o num) o.guard (scalarUse o.a o.feA ++ scalarDst o) (fun c => own o num.toNat false inst c) fun c =>
    c.done (c.w.putDst o.dst (c.s.readReg num.toNat inst))) ∧
  (∀ o num inst, DoesOnce (.crwr o num) o.guard (scalarUse o.a o.feA ++ scalarUse o.b o.feB)
    (fun c => own o num.toNat true inst c ∧ c.spoil.s.wavePending c.core c.spoil.w.uid true = false) fun c =>
    let s1 := c.spoil.s
    c.next (((s1.setCore c.core (s1.core c.core).l1Clear).fenceWave c.core c.slot).writeReg num.toNat inst (c.w.scalar o.b) false)) ∧
  (∀ o scope, DoesOnce (.tlbi o true scope) o.guard (scalarUse o.a o.feA ++ scalarUse o.b o.feB) (fun _ => True) fun c =>
    c.next (c.dropTlbs scope 0 (2 ^ 64))) ∧
  (∀ o scope, DoesOnce (.tlbi o false scope) o.guard (scalarUse o.a o.feA ++ scalarUse o.b o.feB)
    (fun c => (c.w.scalar o.b).toNat < 2 ^ 40) fun c =>
    let base := (c.w.scalar o.a).toNat % 2 ^ 57
    let len := (c.w.scalar o.b).toNat
    if len = 0 then c.next c.s else c.next (c.dropTlbs scope (base / 4096 * 4096) (roundUp (base + len) 4096))) ∧
  (∀ o w, DoesOnce (.tlbp o w) o.guard (scalarUse o.a o.feA ++ scalarDst o) (fun _ => True) fun c =>
    c.done (c.w.putDst o.dst (BitVec.ofNat 64 (c.s.probe c.core c.w.part w (c.w.scalar o.a)))))

/-- WKILL, WSUSP, WRESM and HALT (R355, R356) act on the wave that a handle names and write 0, or write 1 when there is none and 2 when it is
suspended already, or not suspended; HALT records an event and suspends its own wave. -/
def Obligations.WaveControlResults : Prop :=
  let h := fun (o : Ops) (c : Ctx) => (c.w.scalar o.a).toNat % 2 ^ 32
  let us := fun (o : Ops) => scalarUse o.a o.feA ++ scalarDst o
  let ok := fun (o : Ops) (own : Bool) (c : Ctx) => c.part.handleOk (h o c) = true ∧ (own = true → h o c ≠ c.s.handleOf c.core c.slot)
  let answer := fun (o : Ops) (c : Ctx) (s : State) (x : Nat) => c.next (s.modWave c.core c.slot fun w => w.putDst o.dst (BitVec.ofNat 64 x))
  (∀ (i : Instr) (o : Ops) (own : Bool), (i = .wkill o ∧ own = false) ∨ (i = .wsusp o ∧ own = true) ∨ (i = .wresm o ∧ own = false) →
    DoesOnce i o.guard (us o) (fun c => ok o own c ∧ c.s.findTarget c.w.part (h o c) = none) fun c => answer o c c.s 1) ∧
  (∀ o w, DoesOnce (.wkill o) o.guard (us o) (fun c => ok o false c ∧ c.s.findTarget c.w.part (h o c) = some w ∧ w.uid ≠ c.w.uid) fun c =>
    answer o c (c.s.onTarget c.w.part (handleCore (h o c)) fun st => st.killWave (handleCore (h o c)) (handleSlot (h o c))
      { source := 17, sev := 2, issuer := some (c.s.handleOf c.core c.slot) }) 0) ∧
  (∀ o w, DoesOnce (.wsusp o) o.guard (us o) (fun c => ok o true c ∧ c.s.findTarget c.w.part (h o c) = some w) fun c =>
    if w.suspended then answer o c c.s 2
    else answer o c (c.s.onTarget c.w.part (handleCore (h o c)) fun st => st.modWave (handleCore (h o c)) (handleSlot (h o c))
      fun w => { w with suspended := true }) 0) ∧
  (∀ o w, DoesOnce (.wresm o) o.guard (us o) (fun c => ok o false c ∧ c.s.findTarget c.w.part (h o c) = some w) fun c =>
    if w.suspended then answer o c (c.s.onTarget c.w.part (handleCore (h o c)) fun st => st.modWave (handleCore (h o c)) (handleSlot (h o c))
      fun w => { w with suspended := false }) 0
    else answer o c c.s 2) ∧
  (∀ o code, DoesOnce (.halt o code) o.guard [] (fun _ => True) fun c =>
    (c.next (c.s.record { source := 20, sev := 1, unit := c.core, part := some c.w.part, handle := c.s.handleOf c.core c.slot
                          addr := c.f.pc.toNat, info := code.toNat })).modWave c.core c.slot fun w => { w with suspended := true })

/-- A filler instruction outside a filler or without a held task raises FILL (R306 to R309), and so do FCMT and FPSN at an address that is no multiple of
4W, at a run that does not lie in the held block, and at a line that is not FILLING (R307, R308).

CRRD and CRWR of a register at machine level, or of one whose instance does not belong to the wave's partition, raise PRIV; a scalar instance whose
bits 63:8 are not 0 or that does not exist for the block, and any for a partition block, raises WINDOW, which comes first (R129, R344, R352). -/
def Obligations.MisusedInstructionsTrap : Prop :=
  (
    (∀ o, DoesOnce (.fget o) o.guard (scalarDst o) (fun c => c.w.depth = 0 ∨ c.w.held.isSome = true) fun c =>
      c.trap { cause := 19, oper := o.dst.bits.toNat }) ∧
    (∀ o, DoesIn (.fcmt o) o.guard (scalarUse o.a o.feA ++ usesOf o.b false o.feB true false false fun _ => none)
      (fun c _ => c.w.depth = 0 ∨ c.w.held = none) fun c _ => c.trap { cause := 19, oper := o.a.bits.toNat, addr := c.fillAddr o }) ∧
    (∀ o, DoesOnce (.fend o) o.guard [] (fun c => c.w.depth = 0 ∨ c.w.held = none) fun c => c.trap { cause := 19, oper := Opnd.unused.bits.toNat }) ∧
    (∀ o, DoesOnce (.fpsn o true) o.guard [] (fun c => c.w.depth = 0 ∨ c.w.held = none) fun c =>
      c.trap { cause := 19, oper := o.a.bits.toNat }) ∧
    (∀ o, DoesOnce (.fpsn o false) o.guard (scalarUse o.a o.feA) (fun c => c.w.depth = 0 ∨ c.w.held = none) fun c =>
      c.trap { cause := 19, oper := o.a.bits.toNat, addr := c.fillAddr o }) ∧
    (let strange := fun (o : Ops) (c : Ctx) => ∃ t g, c.task = some (t, g) ∧
        let a := (c.fillAddr o).toNat
        let n := 4 * c.w.width
        a % n ≠ 0 ∨ a < t.block ∨ t.block + g.block < a + n ∨
          ∃ i < n / 128, ∀ x, c.s.genLine c.w.part (a / 128 + i) = some x → x.state ≠ .filling
     (∀ o, DoesIn (.fcmt o) o.guard (scalarUse o.a o.feA ++ usesOf o.b false o.feB true false false fun _ => none) (fun c _ => strange o c) fun c _ =>
       c.trap { cause := 19, oper := o.a.bits.toNat, addr := c.fillAddr o }) ∧
     ∀ o, DoesOnce (.fpsn o false) o.guard (scalarUse o.a o.feA) (strange o) fun c =>
       c.trap { cause := 19, oper := o.a.bits.toNat, addr := c.fillAddr o })) ∧
  (
    let closed := fun (num : Nat) (write : Bool) (inst : Nat) (c : Ctx) => machineReg num write = true ∨ c.s.instOwned c.w.part num inst = false
    let outside := fun (num : Nat) (n : BitVec 6) (c : Ctx) =>
      256 ≤ (c.w.s n.toNat).val.toNat ∨ partBlock num = true ∨ instExists num (c.w.s n.toNat).val.toNat = false
    let traps := fun (i : Instr) (o : Ops) (us : List Use) (num : Nat) (write : Bool) =>
      (o.a = .zero → DoesOnce i o.guard us (fun c => closed num write (ownInst num c.core c.w.part) c) fun c => c.trap { cause := 1 }) ∧
      (∀ n, o.a = .s n → DoesOnce i o.guard us (fun c => ¬outside num n c ∧ closed num write (c.w.s n.toNat).val.toNat c) fun c =>
        c.trap { cause := 1 }) ∧
      (∀ n, o.a = .s n → DoesOnce i o.guard us (outside num n) fun c => c.trap { cause := 7, oper := o.a.bits.toNat })
    (∀ o num, traps (.crrd o num) o (scalarUse o.a o.feA ++ scalarDst o) num.toNat false) ∧
    (∀ o num, traps (.crwr o num) o (scalarUse o.a o.feA ++ scalarUse o.b o.feB) num.toNat true))

/-! ### Events of memory and the engines (R76 to R90, R103 to R106, R204 to R286) -/

/-- LOAD_COMPLETION (R47, R77, R204): once every line of a load is at hand, its registers take the bytes read and the operation
is gone; a load that must wait has only made its requests. A PREF drops the threads whose addresses fault by now (R214) and writes no register. LR (R213),
the read of ACQ (R216; it waits for stores that a release on the core has passed, assumption 126) and the node and triangle fetches of R249 complete in the
same way. VXM (R246) writes its eight registers with the sums of each thread, or with a free value, poisoned with origin FAULT, in a thread whose block could
not be read. SPECIAL_FUNCTION_COMPLETION (R159): the value, its poison and its exceptions arrive; or the task that an FGET has taken (R306). -/
def Obligations.LoadsComplete : Prop :=
  (∀ core k m dst ty one cnt sub nc accs d w, m.kind = .load dst ty one cnt sub nc false accs → dst ≠ .zero → dst ≠ .unused → w.uid = m.wave →
    Brings (.loadCompletion core k)
      (fun s => s.MayPerform core k m ∧
        s.readLanes (m.reader core (s.opPart core m)) accs (regBytes ty one * cnt.num) (some ⟨nc, s.fencedOf core m⟩) = .inr d ∧
        d.s.wave? core m.slot = some w)
      fun _ t => t.OpGone core m.id ∧ t.wave? core m.slot = some ((d.s.wokenL1 core m).putLoad w dst ty one cnt.num sub.toNat d)) ∧
  (∀ core k m dst ty one cnt sub nc accs d, m.kind = .load dst ty one cnt sub nc false accs → dst = .zero ∨ dst = .unused →
    Brings (.loadCompletion core k)
      (fun s => s.MayPerform core k m ∧ s.readLanes (m.reader core (s.opPart core m)) (s.prefetched core (s.opPart core m) m accs)
        (regBytes ty one * cnt.num) (if dst = .unused then none else some ⟨nc, s.fencedOf core m⟩) = .inr d)
      fun _ t => t.OpGone core m.id ∧ ∀ c slot, t.wave? c slot = d.s.wave? c slot) ∧
  (∀ core k m dst ty one cnt sub nc accs s1, m.kind = .load dst ty one cnt sub nc false accs → dst ≠ .zero → dst ≠ .unused →
    Happens (.loadCompletion core k)
      (fun s => s.MayPerform core k m ∧
        s.readLanes (m.reader core (s.opPart core m)) accs (regBytes ty one * cnt.num) (some ⟨nc, s.fencedOf core m⟩) = .inl s1)
      fun _ => s1) ∧
  (∀ core k m dst ty one cnt sub nc accs d w, m.kind = .load dst ty one cnt sub nc true accs → dst ≠ .zero → dst ≠ .unused → w.uid = m.wave →
    Brings (.loadCompletion core k)
      (fun s => s.MayPerform core k m ∧ s.readLanes (m.reader core (s.opPart core m)) accs (regBytes ty one * cnt.num) none = .inr d ∧
        d.s.wave? core m.slot = some w)
      fun _ t => t.OpGone core m.id ∧ ∃ v, t.wave? core m.slot = some v ∧
        v.vregs = ((d.s.wokenL1 core m).putLoad w dst ty one cnt.num sub.toNat d).vregs ∧
        v.sregs = ((d.s.wokenL1 core m).putLoad w dst ty one cnt.num sub.toNat d).sregs) ∧
  (∀ core k m dst addr scope d w, m.kind = .acq dst addr scope → w.uid = m.wave →
    Brings (.loadCompletion core k)
      (fun s => s.MayPerform core k m ∧ s.passedStores core m = false ∧
        s.readLanes (m.reader core (s.opPart core m)) [(0, some addr)] 8 none = .inr d ∧ d.s.wave? core m.slot = some w)
      fun _ t => t.OpGone core m.id ∧ ∃ v, t.wave? core m.slot = some v ∧
        v.sregs = ((d.s.wokenL1 core m).putLoad w dst .n64 false 1 0 d).sregs) ∧
  (∀ core k m dst tri sort rays poison org flips d w, m.kind = .node dst tri sort rays poison org flips → w.uid = m.wave →
    Brings (.loadCompletion core k)
      (fun s => s.MayPerform core k m ∧ s.readLanes (m.reader core (s.opPart core m)) (rays.map fun x => (x.1, x.2.1)) (if tri then 48 else 128)
          (some ⟨false, 0⟩) = .inr d ∧ d.s.wave? core m.slot = some w)
      fun _ t => t.OpGone core m.id ∧ t.wave? core m.slot = some (w.putRun dst (if tri then 4 else 8)
        (nodeRegs tri sort rays poison org flips d.s.freeCtr d) ((d.s.wokenL1 core m).nestMark w d.nests))) ∧
  (∀ core k m dst rnd flush accs poison org flips iaddr word d w, m.kind = .vxm dst rnd flush accs poison org flips iaddr word → w.uid = m.wave →
    Brings (.loadCompletion core k)
      (fun s => s.MayPerform core k m ∧ s.readLanes (m.reader core (s.opPart core m)) (accs.map fun x => (x.1, x.2.1)) 256 none = .inr d ∧
        d.s.wave? core m.slot = some w)
      fun _ t =>
        let own : Nat → Option Origin := fun k => if poison.getLsbD k then some org else none
        let flip : Nat → Flip := fun k => Tab.get 0 flips k
        let words : Nat × Option DWord × List Word × List Word → List Word × Option Origin := fun x => match (d.lanes.find? fun l => l.1 = x.1).bind (·.2) with
          | some bs => ((vxmResult rnd flush x.2.2.1 x.2.2.2 (valuesOf bs)).map fun (r : FRes) => BitVec.ofNat 32 r.bits, joinOrigin (own x.1) (poisonOf bs))
          | none => (List.replicate 8 (Config.poisonedBits (d.s.freeCtr * 128 + x.1)), joinOrigin (own x.1) (some .fault))
        let sums := accs.map fun x => (x.1, (words x).1.zipIdx.map fun y =>
          (y.1 ^^^ BitVec.ofNat 32 ((flip x.1).word y.2), (flip x.1).poisons (words x).2))
        t.OpGone core m.id ∧ ∃ v, t.wave? core m.slot = some v ∧
          v.vregs = (w.putRun dst 8 sums ((d.s.wokenL1 core m).nestMark w d.nests)).vregs ∧ v.sregs = w.sregs ∧ v.preds = w.preds) ∧
  (∀ core k m dst vals act poison org exc iaddr word w, m.kind = .value dst vals act poison org exc iaddr word → w.uid = m.wave →
    Happens (.specialFunctionCompletion core k) (fun s => (s.core core).memq[k]? = some m ∧ s.wave? core m.slot = some w)
      fun s => ((s.setWave core m.slot (w.putValue dst vals act poison org)).countAll core m.slot m.wave exc iaddr word).dropOp core k) ∧
  (∀ core k m dst x w, m.kind = .task dst x → w.uid = m.wave →
    Happens (.specialFunctionCompletion core k) (fun s => (s.core core).memq[k]? = some m ∧ s.wave? core m.slot = some w)
      fun s => (s.setWave core m.slot (w.putDst dst x)).dropOp core k)

/-- STORE_PERFORMED (R87, R94, R103): once its lines can be written (R399, R400, R407) a store's enabled bits are in memory, in order of its bytes, but for
those of a failed channel, which are discarded (R413), and the operation is gone; no other byte of memory changes. An atomic (R210, R211) leaves its new value, and its register holds the old one, for a word that is
not poisoned; SC (R213) writes where its reservation held and answers 1 there, and 0 elsewhere. -/
def Obligations.StoresArePerformed : Prop :=
  (∀ core k m thread bytes poisoned nt, m.kind = .store thread bytes poisoned nt →
    Brings (.storePerformed core k)
      (fun s => s.MayPerform core k m ∧ s.writableAll (s.opPart core m) m.stores = true ∧ s.unchecked = [])
      fun s t =>
        t.mem = (bytes.filter fun b => !s.chanFailed b.addr).foldl (fun mem b => mem.write b.addr ((mem.read b.addr &&& ~~~b.en) ||| (b.val &&& b.en))) s.mem ∧
        (∀ a, (∀ b ∈ bytes, b.addr ≠ a) → t.mem.read a = s.mem.read a) ∧
        (t.core core).memq.length + 1 = (s.core core).memq.length) ∧
  (∀ core k m dst thread addr ty op fop cmp data flush iaddr word, m.kind = .atom dst thread addr ty op fop cmp data flush iaddr word →
    ∀ old new, atomNew ty op fop cmp data flush old = (new, []) →
    Brings (.storePerformed core k)
      (fun s => s.MayPerform core k m ∧ s.beforeAtom core m (addr / 128) = none ∧ s.wordPoisoned addr = false ∧
        (∀ i < tyBits ty / 8, s.chanFailed (addr + i) = false) ∧ leNat (s.mem.readBytes addr (tyBits ty / 8)) = old)
      fun s t =>
        t.mem = (match new with | some x => s.mem.writeBytes addr (leBytes (tyBits ty / 8) x) | none => s.mem) ∧
        ∀ w, s.wave? core m.slot = some w → w.uid = m.wave → ∃ v high, t.wave? core m.slot = some v ∧
          v.vregs = (w.putLane dst ty thread (BitVec.ofNat 64 old) high none ((s.core core).lastOf k m.id)).vregs ∧
          v.sregs = (w.putLane dst ty thread (BitVec.ofNat 64 old) high none ((s.core core).lastOf k m.id)).sregs) ∧
  (∀ core k m dst thread addr ty data held lr holds, m.kind = .sc dst thread addr ty data held lr → holds = (held && lr.isNone) →
    Brings (.storePerformed core k) (fun s => s.MayPerform core k m ∧ s.beforeAtom core m (addr / 128) = none ∧
        ∀ i < tyBits ty / 8, s.chanFailed (addr + i) = false)
      fun s t =>
        t.mem = (if holds then s.mem.writeBytes addr (leBytes (tyBits ty / 8) data.toNat) else s.mem) ∧
        ∀ w, s.wave? core m.slot = some w → w.uid = m.wave → ∃ v, t.wave? core m.slot = some v ∧
          v.vregs = (w.putLane dst .b32 thread (if holds then 1 else 0) 0 none ((s.core core).lastOf k m.id)).vregs ∧
          v.sregs = (w.putLane dst .b32 thread (if holds then 1 else 0) 0 none ((s.core core).lastOf k m.id)).sregs)

/-- REMOTE_SCRATCHPAD_STORE (R76, R208): the bytes are in the scratchpad of the target core under their enables and the credit is
on its way; ATOMS (R210) leaves its new value there. INBOUND_CREDIT (R223): a credit lands on its object. SCOREBOARD_ENTRY_RELEASE
(R82): a finished entry leaves. -/
def Obligations.ScratchpadEventsTakeEffect : Prop :=
  (∀ core k m target off bytes poisoned credit, m.kind = .remote target off bytes poisoned credit →
    Brings (.remoteScratchpadStore core k)
      (fun s => (s.core core).memq[k]? = some m ∧ (s.core core).spHeld k m target off (off + bytes.length) = false ∧
        s.spStalls m target off (off + bytes.length) = false)
      fun s t =>
        (t.core target).scratch = ((s.core target).spWrite off bytes poisoned).scratch ∧
        (t.core target).spoison = ((s.core target).spWrite off bytes poisoned).spoison ∧
        (t.core target).credits = (s.core target).credits ++ (credit.map fun obj => (⟨obj, bytes.length, none⟩ : Credit)).toList ∧
        (t.core core).memq = (s.core core).memq.eraseIdx k) ∧
  (∀ core k m dst thread target off ty op data, m.kind = .atoms dst thread target off ty op data →
    Brings (.remoteScratchpadStore core k)
      (fun s => (s.core core).memq[k]? = some m ∧ (s.core core).spHeld k m target off (off + tyBits ty / 8) = false ∧
        s.spStalls m target off (off + tyBits ty / 8) = false ∧
        (s.spRead target off (tyBits ty / 8)).any (·.2) = false)
      fun s t =>
        let old := leNat ((s.spRead target off (tyBits ty / 8)).map (·.1))
        (t.core target).scratch = ((s.core target).spWrite off
          (wholeBytes (tyBits ty / 8) (atomInt op ty old (data.toNat % 2 ^ tyBits ty))) false).scratch ∧
        (t.core core).memq = (s.core core).memq.eraseIdx k ∧
        ∀ w, s.wave? core m.slot = some w → w.uid = m.wave → ∃ high, t.wave? core m.slot =
          some (w.putLane dst ty thread (BitVec.ofNat 64 old) high none ((s.core core).lastOf k m.id))) ∧
  (∀ core k x, Happens (.inboundCredit core k) (fun s => (s.core core).credits[k]? = some x)
    fun s => (s.setCore core { s.core core with credits := (s.core core).credits.eraseIdx k }).setBar core x.off
      ((s.bar core x.off).credit x.bytes (x.fault.map (·.toNat)))) ∧
  (∀ core k x, Happens (.scoreboardEntryRelease core k) (fun s => (s.core core).sboard[k]? = some x ∧ x.done = true)
    fun s => s.setCore core { s.core core with sboard := (s.core core).sboard.eraseIdx k })

/-- PEER_PROBE (R80): an LDNC of one line that misses takes it from a peer that the predictor names. MULTICAST_REQUEST (R84, R85): an
LDMC whose lines all translate is sent, and stands in a merge entry at the home slice of each. MERGED_RESPONSE and
FOLLOWUP_TRANSMISSION: an entry whose lines are all at hand opens its late-joiner window and has no request left; MERGE_ENTRY_CLOSE:
a window without a joiner closes. LDMC_DELIVERY (R209, R395, R401): behind what its slice sent there before, the bytes are in the scratchpad, and each request is credited. -/
def Obligations.MulticastEventsTakeEffect : Prop :=
  (∀ core k m dst ty one cnt sub lr thread va l key cl w, m.kind = .load dst ty one cnt sub true lr [(thread, some va)] →
    (linesOf va (regBytes ty one * cnt.num)).eraseDups = [l] →
    Brings (.peerProbe core k)
      (fun s => (s.core core).memq[k]? = some m ∧ s.wave? core m.slot = some w ∧
        s.forwards core (s.opPart core m) (BitVec.ofNat 64 (l * 128)) = true ∧ (s.keysOf core (s.opPart core m) l).eraseDups = [key] ∧
        (s.core core).l1Hit true (s.fencedOf core m) key = none ∧ (s.core core).pred.get none (Config.predictorHash key.code % 256) = some cl ∧
        (s.peerCopy (s.opPart core m) cl key (s.fencedOf core m)).isSome = true)
      fun s t => ((t.core core).l1Find key).isSome = true ∧ t.mem = s.mem ∧ t.wave? core m.slot = some w) ∧
  (∀ core k m dst src len off bar mask fail, m.kind = .ldmc dst src len off bar mask false fail →
    Brings (.multicastRequest core k)
      (fun s => (s.core core).memq[k]? = some m ∧
        (∀ x ∈ (s.core core).memq.take k, x.wave = m.wave → ∃ a b c d e f g h, x.kind = .ldmc a b c d e f g h) ∧
        ∀ i < len / 16, ∃ x xs, s.locate (m.reader core (s.opPart core m)) false (src + BitVec.ofNat 64 (16 * i)) 16 = (s, .at_ (x :: xs)) ∧
          s.moving (s.opPart core m) x.key = false ∧ s.pieceNests (m.reader core (s.opPart core m)) x.key = false)
      fun s t => (t.core core).memq[k]? = some { m with kind := .ldmc dst src len off bar mask true fail } ∧
        ∀ i < len / 16, ∀ x xs, s.locate (m.reader core (s.opPart core m)) false (src + BitVec.ofNat 64 (16 * i)) 16 = (s, .at_ (x :: xs)) →
          ∃ e ∈ (t.slice (s.home (s.opPart core m) x.key)).merges, (core, m.id, mask) ∈ e.joined) ∧
  (∀ slice k m r, r = (⟨m.reader.1, m.part, m.reader.2.1, m.reader.2.2, 0, false, true, m.bad, 0, none⟩ : Reader) →
    (m.phase = .gathering → Brings (.mergedResponse slice k)
      (fun s => (s.slice slice).merges[k]? = some m ∧ (∀ x ∈ m.pieces, s.renewPiece r m.src x = (s, .inl (some x))) ∧
        ∀ x ∈ (s.readyAll r ((m.pieces.map (·.key)).eraseDups)).2, x.2 ≠ .wait)
      fun _ t => ∃ e, (t.slice slice).merges[k]? = some e ∧ e.phase = .window ∧ e.joined = []) ∧
    (m.phase = .collecting → Brings (.followupTransmission slice k)
      (fun s => (s.slice slice).merges[k]? = some m ∧ (∀ x ∈ m.pieces, s.renewPiece r m.src x = (s, .inl (some x))) ∧
        ∀ x ∈ (s.readyAll r ((m.pieces.map (·.key)).eraseDups)).2, x.2 ≠ .wait)
      fun s t => (∃ e, (t.slice slice).merges[k]? = some e ∧ e.phase = .window ∧ e.joined = []) ∧
        (t.slice slice).followup = sat32 (s.slice slice).followup)) ∧
  (∀ slice k m, m.phase = .window → Happens (.mergeEntryClose slice k) (fun s => (s.slice slice).merges[k]? = some m)
    fun s => s.setSlice slice { s.slice slice with merges := (s.slice slice).merges.eraseIdx k }) ∧
  (∀ core k x, Brings (.ldmcDelivery core k)
    (fun s => (s.deliveries.get [] core)[k]? = some x ∧ (∀ y ∈ (s.deliveries.get [] core).take k, x.from_ = none ∨ y.from_ ≠ x.from_) ∧
      (s.core core).sboard.length + ((x.requests.map (·.2)).filter fun op => !(s.core core).hasEntry op).length ≤ 64)
    fun s t => t.deliveries.get [] core = (s.deliveries.get [] core).eraseIdx k ∧
      (t.core core).scratch = (x.pieces.foldl (fun (c : Core) p => if p.2.1.isEmpty then c else
        c.spWrite (x.off + p.1) (p.2.1.map fun b => (b, 0xFF)) p.2.2.1) (s.core core)).scratch ∧
      (t.core core).credits.length = (s.core core).credits.length + x.requests.length)

/-- COPY_COMPLETION (R234 to R236): a copy whose rows are all at hand is moved, its record written and its credit made; before that
it takes the scoreboard entries that it lacks on other cores (R82).
TILE_OPERATION_COMPLETION (R244, R245): the tile register holds the bytes read or copied, or a copy of it is in memory.
QUEUE_MARKER_COMPLETION (R229) and TIER_HINT_OPERATION (R90, R406): the operation leaves its queue; a hint that must wait at a page keeps its place
there; it changes no byte of memory, and no pin passes PINLIM. -/
def Obligations.QueueOperationsComplete : Prop :=
  (∀ core e d m s1, e.kind = .copy d →
    Happens (.copyCompletion core) (fun s => s.Runs1 core e ∧ s.moveCells (e.reader core) (d.cells core) = (s1, some m))
      fun _ => (if d.credit then m.s.sendCredit (d.barCore core) d.bar (d.rows * d.rowBytes)
          (if m.status ≠ 0 then some m.cls else if e.killed then some 0 else none) else m.s).finish1 core e m.status m.cls m.row) ∧
  (∀ core e sides, sides ≠ [] →
    Happens (.copyCompletion core)
      (fun s => (s.core core).q1.head? = some e ∧ e.clear s core = true ∧ e.unentered s core = sides) fun s => s.enterSides e sides) ∧
  (∀ core e n ty sp base shape s1 ins, e.kind = .tld n ty sp base shape →
    Brings (.tileOperationCompletion core)
      (fun s => s.Runs1 core e ∧ s.readCells (e.reader core) (shapeCells core sp base shape) = (s1, some ins))
      fun _ t => t.tile core n = (s1.tile core n).loadRest (tileShape shape).2.2.1 ins e.got ∧
        (t.core core).q1 = (s1.core core).q1.drop 1) ∧
  (∀ core e n sp base shape s1 ts, e.kind = .tst n sp base shape → Target.genro ∉ ts → Target.wait ∉ ts →
    Happens (.tileOperationCompletion core)
      (fun s => s.Runs1 core e ∧
        s.targetsOf (e.reader core) ((shapeCells core sp base shape).map fun c => ({ c with src := .zeros, dst := c.src } : Cell)) = (s1, ts))
      fun _ =>
        let cs := (shapeCells core sp base shape).map fun c => ({ c with src := .zeros, dst := c.src } : Cell)
        let m := s1.move e.part (cs.zipIdx.map fun c =>
          (⟨c.1, [], (s1.tile core n).read ((tileShape shape).2.2.1 + 16 * c.2) 16, none⟩ : CellIn)) ts
        m.s.finish1 core e m.status m.cls m.row) ∧
  (∀ core e d n, e.kind = .tcpy d n →
    Brings (.tileOperationCompletion core) (fun s => s.Runs1 core e)
      fun s t => t.tile core d = { s.tile core n with tag := (s.tile core d).tag } ∧ (t.core core).q1 = (s.core core).q1.drop 1) ∧
  (∀ core e n sp base s1 ins, e.kind = .tcb n sp base →
    Brings (.tileOperationCompletion core)
      (fun s => s.Runs1 core e ∧
        s.readCells (e.reader core) [⟨0, endOf core sp base, .zeros⟩, ⟨0, (endOf core sp base).plus 16, .zeros⟩] = (s1, some ins))
      fun _ t => t.tile core n = (s1.tile core n).loadRest 0 ins e.got) ∧
  (∀ core e rest, e.kind = .marker →
    Happens (.queueMarkerCompletion core 4) (fun s => (s.core core).q4 = e :: rest ∧ e.clear s core = true)
      fun s => (s.setCore core { s.core core with q4 := rest }).opDone e.wave e.launch 4 0 0 0 false) ∧
  (∀ core e rest, e.kind = .marker →
    Happens (.queueMarkerCompletion core 3) (fun s => (s.core core).q3 = e :: rest ∧ e.clear s core = true) fun s => s.done3 core e) ∧
  (∀ core e rest, Brings (.tierHintOperation core) (fun s => (s.core core).q2 = e :: rest ∧ e.clear s core = true)
    fun s t => ((t.core core).q2 = rest ∨ ∃ at_ refused, e.kind.at_ ≤ at_ ∧
        (t.core core).q2 = { e with kind := { e.kind with at_ := at_, refused := refused } } :: rest) ∧
      t.mem = s.mem ∧ (e.kind.hint = .pin → (t.part e.part).pins.length ≤ max (s.part e.part).pins.length (s.part e.part).pinLim)) ∧
  (∀ core e rest, e.kind.len = 0 → Happens (.tierHintOperation core) (fun s => (s.core core).q2 = e :: rest ∧ e.clear s core = true)
    fun s => (s.setCore core { s.core core with q2 := rest }).opDone e.wave e.launch 2 (if e.kind.refused then 3 else 0) 0 0 false) ∧
  (∀ core e rest, Brings (.tierHintOperation core)
    (fun s => (s.core core).q2 = e :: rest ∧ e.clear s core = true ∧ ((List.range ((e.kind.base.toNat + e.kind.len + 4095) / 4096 -
      e.kind.base.toNat / 4096 - e.kind.at_)).foldl (fun (x : HintRun) _ => x.page (e.reader core) e.kind.hint (e.kind.base.toNat / 4096))
        { s := s, at_ := e.kind.at_, refused := e.kind.refused }).wait = false)
    fun _ t => (t.core core).q2 = rest)

/-- MATRIX_CHUNK (R239, R240): the operation that computes, once its operands are at hand, is one chunk further, and complete when it
drains nothing. EPILOGUE_DRAIN (R242, R243): a finished tile whose descriptor is well-formed is converted into the staging buffers,
then its rows are stored; a malformed descriptor, or one written too late (R239), ends the operation with status 4. -/
def Obligations.MatrixEventsTakeEffect : Prop :=
  (∀ pair e s1 e1 s2 reads,
    let m := e1.kind
    let n := m.chunk
    let ranges := (List.range 64).map (fun i => (m.qa + BitVec.ofNat 64 (i * (m.qc.toNat % 2 ^ 32) + m.p * (n * matBits m.aFmt / 8)), n * matBits m.aFmt / 8)) ++
      (List.range n).map fun k => (m.qb + BitVec.ofNat 64 ((m.p * n + k) * (m.qc.toNat / 2 ^ 32)), 4 * matBits m.bFmt)
    ReadOut.wait ∉ reads → readsFault reads = none →
    Happens (.matrixChunk pair)
      (fun s => s.computing pair = some e ∧ e.clear s e.kind.core = true ∧
        (if e.kind.started then (s, e) else s.startMx pair e) = (s1, e1) ∧ s1.readRanges (e1.reader m.core 2) ranges = (s2, reads) ∧
        s.hazard0 pair e1 ranges = false)
      fun _ => (s2.computeChunk pair e1 reads).settleMx pair) ∧
  (∀ pair e rest, e.kind.started = true → e.kind.chunks ≤ e.kind.p → e.kind.drains = true →
    (e.kind.staged = false → Happens (.epilogueDrain pair) (fun s => s.queue0 pair = e :: rest) fun s => s.stageMx pair e) ∧
    (e.kind.staged = false → e.kind.desc = none → Happens (.epilogueDrain pair)
      (fun s => s.queue0 pair = e :: rest ∧ (∀ h < 2, (s.core (e.kind.drainCore pair h)).staging = none) ∧
        (s.descLate e.kind.core e.kind.epi = true ∨ epiOk (s.epiDesc e.kind.core e.kind.epi) = false)) fun s => s.finish0 pair e 4 0 0 true) ∧
    (e.kind.staged = true → ∀ d, e.kind.desc = some d → Happens (.epilogueDrain pair) (fun s => s.queue0 pair = e :: rest)
      fun s => (State.storeRows pair d.toNat ((epiType (bitsOf d.toNat 100 96)).getD .f32) 65 e s).settleMx pair))

/-- LATH_IMAGE_LOAD (R267, R268): the grid holds the image that a load at the head of queue 3 reads, or none when it fails.
LATH_RUN_COMPLETION (R52, R269, R271): a run whose image the grid holds leaves its outputs in its wave's registers, poisoned where the address that
named the image was, when no upset disturbs it. GLAZE_ARRIVAL, GLAZE_READ, GLAZE_CLEAR, GLAZE_STATUS_READ and GLAZE_REPLAY (R279, R283 to R286): the unit performs the
operation at the head of queue 4 and the operation leaves the queue. -/
def Obligations.LathAndGlazeEventsTakeEffect : Prop :=
  (∀ core e rest image reload s1 bs, e.kind = .load image reload →
    Brings (.lathImageLoad core)
      (fun s => (s.core core).q3 = e :: rest ∧ e.clear s core = true ∧ ((s.core core).holdsImage e.part image = false ∨ reload = true) ∧
        s.readImage core e image = (s1, .image bs))
      fun _ t => (t.core core).lath.image = some (image, e.part, bs) ∧ ∀ x ∈ (t.core core).q3, x.id ≠ e.id) ∧
  (∀ core e rest image reload s1 why, e.kind = .load image reload →
    Brings (.lathImageLoad core)
      (fun s => (s.core core).q3 = e :: rest ∧ e.clear s core = true ∧ ((s.core core).holdsImage e.part image = false ∨ reload = true) ∧
        s.readImage core e image = (s1, .fail why))
      fun _ t => (t.core core).lath.image = none ∧ ∀ x ∈ (t.core core).q3, x.id ≠ e.id) ∧
  (∀ core e rest dst nin nout image ts ins poison org sp a p img w, e.kind = .run dst nin nout image ts ins poison org sp →
    imageIns img = nin → imageOuts img = nout → w.uid = e.wave →
    Brings (.lathRunCompletion core)
      (fun s => (s.core core).q3 = e :: rest ∧ (s.core core).lath.image = some (a, p, img) ∧ e.clear s core = true ∧
        (s.core core).holdsImage e.part image = true ∧ s.wave? core e.slot = some w ∧ s.upsets = [])
      fun _ t => (∀ x ∈ (t.core core).q3, x.id ≠ e.id) ∧ ∀ v, t.wave? core e.slot = some v →
        v.vregs = (w.putOutputs dst (imageHeader img) nout ts ((runImage img ((ts.zip ins).map fun x =>
          x.2.zipIdx.map fun y =>
            (y.1.toNat, if (poison.getD y.2 0).getLsbD x.1 then some (org.getD y.2 .fault) else none))).1.map fun l => l.map fun x =>
              (x.1, joinOrigin x.2 (if poison.getD nin 0 = 0 then none else some (org.getD nin .fault)))) fun _ => 0).vregs) ∧
  (∀ core e as, e.kind = .arrive as →
    Happens (.glazeArrival core)
      (fun s => s.head4 core = some e ∧ (as.foldl GzRun.arrive (s.startGz core e)).wait = none)
      fun s => (as.foldl GzRun.arrive (s.startGz core e)).s.done4 core e 0 0 0) ∧
  (∀ core e dst flush recs poison org, e.kind = .read dst flush recs poison org →
    Brings (.glazeRead core) (fun s => s.head4 core = some e ∧ flush = false ∧ s.upsets = [])
      fun s t => (∀ x ∈ (t.core core).q4, x.id ≠ e.id) ∧ (t.cluster (Config.clusterOf core)).records = (s.cluster (Config.clusterOf core)).records ∧
        ∀ w, (s.done4 core e 0 0 0).findWave e.wave = some (core, e.slot) → s.wave? core e.slot = some w → ∀ v, t.wave? core e.slot = some v →
          v.vregs = (w.putRecords dst (recs.map fun x => (x.1, (s.cluster (Config.clusterOf core)).record x.2)) poison org).vregs) ∧
  (∀ core e recs, e.kind = .clear recs →
    Happens (.glazeClear core) (fun s => s.head4 core = some e)
      fun s => (s.setCluster (Config.clusterOf core) ((s.cluster (Config.clusterOf core)).clearRecords recs)).done4 core e 0 0 0) ∧
  (∀ core e, e.kind = .clearAll →
    Brings (.glazeClear core) (fun s => s.head4 core = some e)
      fun _ t => let c := t.cluster (Config.clusterOf core)
        c.records = [] ∧ c.logN = 0 ∧ c.logOvf = false ∧ c.logFlt = false ∧ c.nret = 0 ∧ ∀ x ∈ (t.core core).q4, x.id ≠ e.id) ∧
  (∀ core e dst, e.kind = .status dst →
    Brings (.glazeStatusRead core) (fun s => s.head4 core = some e)
      fun s t => (∀ x ∈ (t.core core).q4, x.id ≠ e.id) ∧
        ∀ w, (s.done4 core e 0 0 0).findWave e.wave = some (core, e.slot) → s.wave? core e.slot = some w → ∀ v, t.wave? core e.slot = some v →
          v.sregs = (w.putDst dst (s.cluster (Config.clusterOf core)).gzStat).sregs) ∧
  (∀ core e out n, e.kind = .replay out n →
    Happens (.glazeReplay core) (fun s => s.head4 core = some e) fun s => s.glazeReplay core e out n)

/-! ### Events of the tiers, the walks and the generator table (R88 to R92, R289 to R303, R375 to R409) -/

/-- LOWER_TIER_READ (R402): a line of memory is in the slice that asked for it, once there is space (R407), and holds no miss slot there; a generated
line's slot is free likewise. FLASH_PAGE_READ (R403): so is the requested line of a page that passes its check; of one that does not, the slots are
free. AGE_SWEEP (R407): every age below 7 rises by one. MISS_SLOT_GRANT (R293): the one request that waits takes the free slot of its class.
GUEST_COPY_FILL and GUEST_INVALIDATION (R400): a guest has its copy and the home its bit, and neither has it afterwards. -/
def Obligations.SliceEventsTakeEffect : Prop :=
  (∀ n victim h, Brings (.lowerTierRead (LineKey.phys n).code victim)
    (fun s => inFlash (copyLine n * 128) = false ∧ s.readersOf (.phys n) = [h] ∧
      let u := s.makeRoom h.1 (victim.map Held.ofNat)
      ((Tab.find (u.slice h.1).lines n).isSome = true ∨ u.hasSpace h.1 (LineKey.phys n).code = true))
    fun s t => t.mem = s.mem ∧ (Tab.find (t.slice h.1).lines n).isSome = true ∧ ∀ x ∈ (t.slice h.1).slots, x.key ≠ .line (.phys n)) ∧
  (∀ part line h, part < 32 → Brings (.lowerTierRead (LineKey.gen part line).code none)
    (fun s => s.readersOf (.gen part line) = [h] ∧ ((s.genLine part line).isSome = true ∨ s.hasSpace h.1 (LineKey.gen part line).code = true))
    fun s t => t.mem = s.mem ∧ ∀ x ∈ (t.slice h.1).slots, x.key ≠ .line (.gen part line)) ∧
  (∀ page part l, Brings (.flashPageRead page part true)
    (fun s => (flashLines page).filter (fun l => inFlash (l * 128) && (s.victimCopy part (.phys l)).isNone &&
        (s.slice (s.home part (.phys l))).holdsSlot (.line (.phys (copyNo part l)))) = [l] ∧
      s.hasSpace (s.home part (.phys l)) (LineKey.phys (copyNo part l)).code = true)
    fun s t => t.mem = s.mem ∧ (Tab.find (t.slice (s.home part (.phys l))).lines (copyNo part l)).isSome = true ∧
      ∀ x ∈ (t.slice (s.home part (.phys l))).slots, x.key ≠ .line (.phys (copyNo part l))) ∧
  (∀ page part, Brings (.flashPageRead page part false) (fun _ => True)
    fun s t => ∀ l ∈ flashLines page, inFlash (l * 128) = true → s.victimCopy part (.phys l) = none →
      ∀ x ∈ (t.slice (s.home part (.phys l))).slots, x.key ≠ .line (.phys (copyNo part l))) ∧
  (∀ slice, Brings (.ageSweep slice) (fun _ => True)
    fun s t => t.mem = s.mem ∧ (∀ n x, Tab.find (s.slice slice).lines n = some x →
        Tab.find (t.slice slice).lines n = some { x with age := if x.age < 7 then x.age + 1 else x.age }) ∧
      ∀ code age, Tab.find (s.slice slice).guests code = some age → Tab.find (t.slice slice).guests code = some (if age < 7 then age + 1 else age)) ∧
  (∀ slice depth w line, w.key = .phys line → Happens (.missSlotGrant slice depth)
    (fun s => (s.slice slice).waiting.filter (fun x => x.depth = depth) = [w] ∧ (s.slice slice).hasSlot depth = true ∧
      s.hasSpace slice (LineKey.phys (copyNo w.part line)).code = true ∧ Tab.find (s.slice slice).lines (copyNo w.part line) = none ∧
      (s.slice slice).holdsSlot (.line (.phys (copyNo w.part line))) = false)
    fun s => s.setSlice slice { s.slice slice with
      waiting := (s.slice slice).waiting.erase w
      slots := (s.slice slice).slots ++ [⟨depth, w.part, .line (.phys (copyNo w.part line))⟩] }) ∧
  (∀ line sector, sector < 3 → Brings (.guestCopyFill line sector)
    (fun s => let copy := LineKey.ofCode line
      s.homeOf copy / 32 ≠ sector ∧ s.holdsCopy copy = true ∧ s.moving (s.copyOf copy).1 (s.copyOf copy).2 = false ∧
      s.guestEligible copy sector = true ∧ Tab.find (s.slice (s.guestSlice copy sector)).guests line = none ∧
      (line, sector) ∉ s.invals ∧ s.hasSpace (s.guestSlice copy sector) line = true)
    fun s t => t.mem = s.mem ∧ (line, sector) ∈ t.guests ∧ Tab.find (t.slice (s.guestSlice (LineKey.ofCode line) sector)).guests line = some 0) ∧
  (∀ line sector, Brings (.guestInvalidation line sector) (fun s => (line, sector) ∈ s.invals)
    fun s t => t.mem = s.mem ∧ (line, sector) ∉ t.guests ∧ (line, sector) ∉ t.invals ∧
      Tab.find (t.slice (s.guestSlice (LineKey.ofCode line) sector)).guests line = none)

/-- REBALANCE_EPOCH (R398): the counts of a sector start again. BUCKET_MOVE (R399): a drained bucket has its new home and no longer
moves, unless its lines find no space there; BUCKET_MOVE_ABANDON: it stays. PAGE_TABLE_WALK (R375, R383 to R387): a free walker takes requests; one
that has a request walks for it: a leaf enters the TLBs and the request is gone; a recoverable fault waits on a token or for ring space; any other
fault is recorded as the request's result. FAULT_RESUME and FAULT_ABORT (R388): a token ends. PAGE_MIGRATION (R408): the descriptor is checked, the
stub takes the leaf's place, and the moved leaf that of the stub; a migration that fails changes no byte of memory. -/
def Obligations.TranslationEventsTakeEffect : Prop :=
  (∀ sector, sector < 3 → Brings (.rebalanceEpoch sector) (fun _ => True)
    fun s t => ∀ b, (s.bucket b).valid = true → (s.bucket b).slice.toNat / 32 = sector →
      (t.bucket b).count = 0 ∧ (t.bucket b).slice = (s.bucket b).slice) ∧
  (∀ b p dst, Brings (.bucketMove b)
    (fun s => s.bucketOwner b = some p ∧ (s.bucket b).target = some dst ∧ (s.bucket b).moving = true ∧
      s.drainedBucket p b (s.bucket b).slice.toNat = true)
    fun s t => t.mem = s.mem ∧ (t = s ∨ t.bucket b = { s.bucket b with slice := BitVec.ofNat 7 dst, moving := false, target := none }) ∧
      ((∀ e ∈ s.copiesIn p b (s.bucket b).slice.toNat, s.pinnedLine (.phys e.1) = false ∧ s.reservedLine (copyLine e.1) = false) →
        (∀ e ∈ s.genLines.get [] p, s.inBucket p b (.gen p e.1) = false) →
        t.bucket b = { s.bucket b with slice := BitVec.ofNat 7 dst, moving := false, target := none })) ∧
  (∀ b, Happens (.bucketMoveAbandon b) (fun s => (s.bucket b).moving = true)
    fun s => { s with buckets := s.buckets.put b { s.bucket b with moving := false, target := none } }) ∧
  (∀ sector k, k < 64 → Brings (.pageTableWalk sector k) (fun s => (s.walksOf sector).filter (fun x => x.walker = some k) = [])
    fun s t => ∀ w ∈ s.nextWalks sector, ∃ v ∈ t.walksOf sector, v.same w = true ∧ v.walker = some k) ∧
  (∀ sector k w e, Brings (.pageTableWalk sector k) (fun s => s.Walks sector k w fun _ out => out = .leaf e)
    fun _ t => (∀ x ∈ t.walksOf sector, x.same w = false) ∧ e ∈ (t.core w.core).tlb ∧ e ∈ (t.cluster (Config.clusterOf w.core)).tlb) ∧
  (∀ sector k w cls level entry record refused, Brings (.pageTableWalk sector k)
    (fun s => s.Walks sector k w fun u out => out = .stop cls true level entry record refused ∧ (u.part w.part).migrating w.va = false ∧
      u.walkDrops w = false ∧
      let p := u.part w.part
      let pa := p.fqBase + 32 * (p.prod.toNat % 2 ^ p.fqLog2n)
      (p.tokenFor w ≠ none ∨ 2 ^ p.fqLog2n ≤ (p.prod - p.cons).toNat ∨ u.moving w.part (.phys (pa / 128)) = false ∧ u.touchable w.part [pa / 128] = true))
    fun _ t => ∃ v ∈ t.walksOf sector, v.same w = true ∧ v.walker = none ∧ v.result = w.result ∧ (v.token.isSome = true ∨ v.full = true)) ∧
  (∀ sector k w cls level entry record refused, w.req ≠ ringReq → Brings (.pageTableWalk sector k)
    (fun s => s.Walks sector k w fun _ out => out = .stop cls false level entry record refused)
    fun _ t => { w with result := some cls, full := false, walker := none } ∈ t.walksOf sector) ∧
  (∀ part token (abort : Bool), Brings (if abort then .faultAbort part token else .faultResume part token)
    (fun s => ∃ x ∈ (s.part part).tokens, x.id = token)
    fun s t => (∀ x ∈ (t.part part).tokens, x.id ≠ token) ∧
      ∀ (sector k : Nat) (w : Walk), (s.walksOf sector)[k]? = some w → w.part = part → w.token = some token →
        (t.walksOf sector)[k]? = some { w with token := none, result := if abort then some 1 else none }) ∧
  (∀ part, Happens (.pageMigration part)
    (fun s => (s.part part).migBusy = true ∧ (s.part part).mig = none ∧
      (s.part part).ownsGddr ((s.part part).migDesc.toNat % 2 ^ 52) ((s.part part).migDesc.toNat % 2 ^ 52 + 63) = false)
    fun s => s.endMigration part 1) ∧
  (∀ part s1, Brings (.pageMigration part)
    (fun s => let d := (s.part part).migDesc.toNat % 2 ^ 52
      (s.part part).migBusy = true ∧ (s.part part).mig = none ∧ (s.part part).ownsGddr d (d + 63) = true ∧
      s.moving part (.phys (d / 128)) = false ∧ s.touchLine? part (d / 128) id = some s1)
    fun s t => t.mem = s.mem ∧ match s1.parseMigration part with
      | some m => (t.part part).mig = some m ∧ (t.part part).migBusy = true
      | none => (t.part part).mig = none ∧ (t.part part).migBusy = false ∧ (t.part part).migResult = 1) ∧
  (∀ part m, m.stub = false → Brings (.pageMigration part)
    (fun s => (s.part part).migBusy = true ∧ (s.part part).mig = some m ∧ s.moving part (.phys (m.leafPa / 128)) = false ∧
      s.touchable part [m.leafPa / 128] = true ∧ ∀ i < 8, s.chanFailed (m.leafPa + i) = false)
    fun s t => if s.readD m.leafPa ≠ m.leaf ∨ s.wordPoisoned m.leafPa = true then
        t.mem = s.mem ∧ (t.part part).mig = none ∧ (t.part part).migBusy = false ∧ (t.part part).migResult = 2
      else t.readD m.leafPa = m.stubLeaf ∧ (t.part part).mig = some { m with stub := true } ∧
        ∀ core, ∀ e ∈ (t.core core).tlb, e.overlaps part m.va (m.va + pageBytes m.size) = false) ∧
  (∀ part m, m.stub = true → pageBytes m.size / 128 ≤ m.done → Brings (.pageMigration part)
    (fun s => (s.part part).migBusy = true ∧ (s.part part).mig = some m ∧ s.moving part (.phys (m.leafPa / 128)) = false ∧
      s.touchable part [m.leafPa / 128] = true ∧ ∀ i < 8, s.chanFailed (m.leafPa + i) = false)
    fun _ t => t.readD m.leafPa = m.movedLeaf ∧ (t.part part).mig = none ∧ (t.part part).migBusy = false ∧ (t.part part).migResult = 0)

/-- GEN_LOAD (R289 to R291): an entry outside the partition's memory answers 3, a malformed one 1, and a good one whose image can fill is
loaded. GEN_INVALIDATE (R303): the range closes; GEN_INVALIDATE_FINISH: with no task left its entry is clear. FILLER_CREATION (R295): the
first task has its filler, with the generator's parameters. GRAPH_NODE_START, GRAPH_NODE_COMPLETION and GRAPH_COMPLETION (R313, R316): a
node starts once its flags are set, and clears them; a completed one sets its own and the path moves on; a finished graph is gone.
RECORD_WAVE_LAUNCH (R314): a wave is asked for with the batch in s0 to s2. -/
def Obligations.GeneratorAndGraphEventsTakeEffect : Prop :=
  (∀ part index a,
    Brings (.genLoad part index)
      (fun s => (s.part part).genIndex = index ∧ (s.part part).genBusy = true ∧ (s.part part).genOp = false ∧
        a = (s.part part).genTbase.toNat % 2 ^ 52 + 64 * index.toNat ∧ (s.part part).ownsGddr a (a + 63) = false)
      fun s t => (t.part part).genBusy = false ∧ (t.part part).genResult = 3 ∧ (t.part part).gens = (s.part part).gens) ∧
  (∀ part index a s0 s1 im,
    Brings (.genLoad part index)
      (fun s => (s.part part).genIndex = index ∧ (s.part part).genBusy = true ∧ (s.part part).genOp = false ∧
        a = (s.part part).genTbase.toNat % 2 ^ 52 + 64 * index.toNat ∧ (s.part part).ownsGddr a (a + 63) = true ∧
        s.moving part (.phys (a / 128)) = false ∧ s.touchLine? part (a / 128) id = some s0 ∧
        (∀ j < 8, s0.wordPoisoned (a + 8 * j) = false) ∧ genOk (leNat (s.mem.readBytes a 64)) = true ∧
        s0.readLaunch (s0.frontReader part (2 ^ 21)) (BitVec.ofNat 64 (bitsOf (leNat (s.mem.readBytes a 64)) 191 128)) false =
          (s1, .image im) ∧
        im.hdr.fills = true ∧
        let g := parseGen (leNat (s.mem.readBytes a 64)) im.hdr im.binds
        (s1.part part).gens.any (fun e => e.1 ≠ index.toNat && e.2.vbase < g.vbase + g.vlen && g.vbase < e.2.vbase + e.2.vlen) = false)
      fun s t => (t.part part).genBusy = false ∧ (t.part part).genResult = 0 ∧
        Tab.find (t.part part).gens index.toNat = some (parseGen (leNat (s.mem.readBytes a 64)) im.hdr im.binds)) ∧
  (∀ part index g,
    Brings (.genInvalidate part index)
      (fun s => (s.part part).genIndex = index ∧ (s.part part).genBusy = true ∧ (s.part part).genOp = true ∧
        Tab.find (s.part part).gens index.toNat = some g)
      fun _ t => Tab.find (t.part part).gens index.toNat = some { g with closing := true }) ∧
  (∀ part g,
    Brings (.genInvalidateFinish part)
      (fun s => (s.part part).genBusy = true ∧ (s.part part).genOp = true ∧ Tab.find (s.part part).gens (s.part part).genIndex.toNat = some g ∧
        g.closing = true ∧ s.fillOwed part g.vbase (g.vbase + g.vlen) = false ∧ ∀ t ∈ (s.part part).tasks, t.gen ≠ (s.part part).genIndex.toNat)
      fun s t => (t.part part).genBusy = false ∧ (t.part part).genResult = 0 ∧ Tab.find (t.part part).gens (s.part part).genIndex.toNat = none) ∧
  (∀ part depth core task g slot,
    Brings (.fillerCreation part depth core)
      (fun s => s.firstTask part depth = some task ∧ Tab.find (s.part part).gens task.gen = some g ∧
        (fillerCores (s.part part) task.opener).find? (fun k => s.hasTurn part k && s.fillerRoom k depth g.hdr.regblk) = some core ∧
        (s.core core).freeSlot core = some slot)
      fun _ t => ∃ v, t.wave? core slot = some v ∧ v.bound = some task.id ∧ v.depth = depth ∧ v.gen = some task.gen ∧ v.source = .filler ∧
        (v.s 0).val = g.param ∧ (v.s 1).val = g.srcBase ∧ (v.s 2).val = BitVec.ofNat 64 g.srcLen ∧ (v.s 3).val = g.altBase) ∧
  (∀ core g n l, g.node = some n → g.started = false → nodeKind n ≠ 1 → nodeKind n ≠ 2 →
    Happens (.graphNodeStart core)
      (fun s => (s.core core).graph = some g ∧ s.graphLaunch g = some l ∧ (s.core core).flags &&& nodeWait n = nodeWait n)
      fun s => s.setCore core { s.core core with flags := (s.core core).flags &&& ~~~nodeWait n, graph := some { g with started := true } }) ∧
  (∀ core g n l s1, g.node = some n → g.started = false → nodeKind n = 1 →
    Brings (.graphNodeStart core)
      (fun s => (s.core core).graph = some g ∧ s.graphLaunch g = some l ∧ (s.core core).flags &&& nodeWait n = nodeWait n ∧
        s.startEngine core l n = .going s1)
      fun s t => (t.core core).graph = some { g with op := some s.uid, started := true } ∧
        (t.core core).flags = (s1.core core).flags &&& ~~~nodeWait n) ∧
  (∀ core g n, g.node = some n → g.started = true →
    Happens (.graphNodeCompletion core)
      (fun s => (s.core core).graph = some g ∧
        (nodeKind n = 1 → ∀ id, g.op = some id → s.opPending core id = false) ∧ (nodeKind n = 2 → g.pending = 0))
      fun s =>
        let x := g.successor n (s.spNat core ((nodeArg0 n).toNat % 2 ^ 19) 4)
        s.setCore core { s.core core with
          flags := (s.core core).flags ||| nodeSet n, graph := some { x.1 with at_ := x.2, started := false, op := none } }) ∧
  (∀ core node g n l s1 im, g.nodes[node]? = some n → nodeKind n = 5 →
    Brings (.recordWaveLaunch core node)
      (fun s => (s.core core).graph = some g ∧ s.graphLaunch g = some l ∧ s.batch core g node n ≠ [] ∧
        s.readLaunch (s.frontReader l.part (walkerKey core)) (nodeArg0 n) false = (s1, .image im))
      fun s t => ∃ w, (t.core core).newWaves = (s1.core core).newWaves ++ [w] ∧ w.source = .record ∧ w.node = node ∧ w.sregs =
        [(0, ringAddr n (Tab.get 0 g.heads node)), (1, BitVec.ofNat 64 (s.batch core g node n).length),
          (2, BitVec.ofNat 64 (((s.batch core g node n).head?.map (·.depth)).getD 0))]) ∧
  (∀ core g, Brings (.graphCompletion core) (fun s => (s.core core).graph = some g ∧ g.finished = true)
    fun s t => (t.core core).graph = none ∧ t.mem = s.mem)

/-! ### Events of waves, teams and queues (R10 to R43, R71, R357 to R373) -/

/-- FAIRNESS_TIMER_EXPIRY (R23): the turn of a fragment ends and the next one's starts. BLOCK_GRANT (R41): the first waiter of a pool
gets its blocks once they fit, and one whose wave holds too many issues its RACQ again. EXCEPTION_WINDOW_RESTART (R71): the window counts clear. WAVE_CREATION (R28, R330): a team's wave is
created at entry state. TEAM_PLACEMENT (R11, R365, R453): a launch's next team owns the core's scratchpad and the core's L1 is empty.
TEAM_PREEMPTION (R368, R369): the team is saved. GRID_COMPLETION (R29, R359): the launch is gone. QUANTUM_EXPIRY (R367): the running
partition's waves are halted on shared clusters. SHADOW_STORE_SWAP (R392, R393): the incoming partition has the turn there. -/
def Obligations.WaveAndTeamEventsTakeEffect : Prop :=
  (∀ core slot w, Brings (.fairnessTimerExpiry core slot) (fun s => s.wave? core slot = some w ∧ w.turnOver = true)
    fun _ t => ∃ v, t.wave? core slot = some v ∧ v.vregs = w.vregs ∧ ∀ f, v.frag? v.cur = some f → f.turn = 0) ∧
  (∀ core pool x, Happens (.blockGrant core pool)
    (fun s => firstWait (s.blockWaits core pool) = some x ∧ (∀ w, s.wave? core x.slot = some w → w.blocks + x.n ≤ 16) ∧
      x.n ≤ (s.core core).freeIn pool)
    fun s => ((s.takeBlocks core x.slot x.n).modWave core x.slot fun w =>
      w.firstBlocked x.n fun f => { f.advance with park := none }).settle core x.slot) ∧
  (∀ core pool x w, Happens (.blockGrant core pool)
    (fun s => firstWait (s.blockWaits core pool) = some x ∧ s.wave? core x.slot = some w ∧ 16 < w.blocks + x.n)
    fun s => s.modWave core x.slot fun w => w.firstBlocked x.n fun f => { f with park := none }) ∧
  (∀ core, Happens (.exceptionWindowRestart core) (fun _ => True) fun s => s.setCore core { s.core core with xwin := [], xran := [] }) ∧
  (∀ core n rest slot, rest.head?.map (·.team) ≠ some n.team →
    Brings (.waveCreation core)
      (fun s => (s.core core).newWaves = n :: rest ∧ (s.core core).freeSlot core = some slot ∧ s.roomFor core 1 n.blocks = true)
      fun s t => (t.core core).newWaves = rest ∧ ∃ v f, t.wave? core slot = some v ∧ v.uid = s.uid ∧ v.width = Config.width core ∧
        v.frags = [f] ∧ f.pc = n.entry ∧ f.live = Mask.first (Config.width core) ∧ f.exec = f.live ∧ f.level = n.level ∧
        v.vregs = [] ∧ v.preds = [] ∧ v.stack = [] ∧ v.fpmode = 0 ∧ v.latches = [] ∧ v.blocks = n.blocks) ∧
  (∀ launch core l,
    Brings (.teamPlacement launch core)
      (fun s => s.launches.find? (fun x => x.id = launch) = some l ∧ l.hdr.coresident = false ∧
        (s.launches.any fun u => u.part = l.part && u.before l && u.phase == .placing && s.wantsPlace u && (s.placesFor u).contains core) = false ∧
        s.wantsPlace l = true ∧ core ∈ s.placesFor l ∧ s.savedOf l = [])
      fun s t => (t.core core).owner = some s.uid ∧ (t.core core).l1 = [] ∧
        ∃ x ∈ t.teams, x.id = s.uid ∧ x.launch = l.id ∧ x.core = some core ∧ (x.x, x.y, x.z, x.stage) = l.hdr.coord l.next) ∧
  (∀ team x,
    Brings (.teamPreemption team)
      (fun s => s.teams.find? (fun u => u.id = team) = some x ∧ x.hdr.coresident = false ∧
        (s.launches.any fun l => l.part = x.part && s.lacks l && ((s.asTurn l.part).victimTeam l.part l.prio).map (·.id) == some team) = true ∧
        (∀ c ∈ x.cores, s.hasTurn x.part c = true ∧ s.quiet c = true) ∧ ∃ l, s.launches.find? (fun l => l.id = x.launch) = some l ∧ (s.writeSave l).2 = true)
      fun _ t => ∀ u ∈ t.teams, u.id = team → u.core = none ∧ u.saved.isSome = true) ∧
  (∀ launch l, Brings (.gridCompletion launch) (fun s => s.launches.find? (fun x => x.id = launch) = some l ∧ s.gridOver l = true)
    fun _ t => ∀ x ∈ t.launches, x.id ≠ launch) ∧
  (∀ part, Brings (.quantumExpiry part) (fun _ => True)
    fun s t => ∀ c < 48, (s.cluster c).turn = some part → ∀ core ∈ coresOf c, ∀ slot w, t.wave? core slot = some w → w.halted = true) ∧
  (∀ outgoing incoming, outgoing ≠ incoming →
    Brings (.shadowStoreSwap outgoing incoming)
      (fun s => (s.part incoming).valid = true ∧
        ∀ c < 48, (s.cluster c).turn = some outgoing → (s.part incoming).clusters.getLsbD c = true → ∀ core ∈ coresOf c, s.calm core = true)
      fun s t => ∀ c < 48, (s.cluster c).turn = some outgoing → (s.part incoming).clusters.getLsbD c = true →
        (t.cluster c).turn = some incoming)

/-- PACKET_ACCEPTANCE and TORN_PACKET_REREAD (R358, R360, R111): a good unit of the ring is accepted; a torn one is read again, and after
eight rereads stalls the queue with state 1. LAUNCH (R362 to R366): a launch whose image passes starts; one whose image does not completes
with status 4. SIGNAL, WAIT, CALL, JOIN, BARRIER and PRIORITY (R361, R362): the packet at the head starts, or completes once every earlier one
has; WAIT_CONDITION_HOLDS: a started WAIT completes. -/
def Obligations.PacketEventsTakeEffect : Prop :=
  (∀ part q s1 s2 bs, Brings (.packetAcceptance part q)
    (fun s => (s.fq part q).owes = false ∧ (s.fq part q).en = true ∧ (s.fq part q).state = 0 ∧ (s.fq part q).mayFetch = true ∧ (s.fq part q).calls = [] ∧
      (s.fq part q).rereads = 0 ∧ (s.fq part q).next ≠ (s.fq part q).tail ∧
      s.frontRead (s.queueReader part q)
        ((s.fq part q).base + BitVec.ofNat 64 (64 * ((s.fq part q).next.toNat % 2 ^ (s.fq part q).log2n))) 64 = (s1, .bytes bs) ∧
      pktGood bs (s.fq part q).next.toNat = true ∧ s1.fq part q = s.fq part q ∧
      (if (s.fq part q).next = (s.fq part q).acc then s1.writeBlock part q ((s.fq part q).next + 1) (s.fq part q).iss (s.fq part q).cmp
        else (s1, true)) = (s2, true) ∧ s2.fq part q = s.fq part q)
    fun s t => (t.fq part q).next = (s.fq part q).next + 1 ∧ (t.fq part q).ready = (s.fq part q).ready ++ [⟨(s.fq part q).next, [], bs, none⟩] ∧
      ((s.fq part q).next = (s.fq part q).acc → (t.fq part q).acc = (s.fq part q).next + 1)) ∧
  (∀ part q s1 bs, Brings (.tornPacketReread part q)
    (fun s => (s.fq part q).owes = false ∧ (s.fq part q).rereads > 0 ∧ (s.fq part q).en = true ∧ (s.fq part q).ringMore = true ∧
      (s.fq part q).calls = [] ∧
      s.frontRead (s.queueReader part q)
        ((s.fq part q).base + BitVec.ofNat 64 (64 * ((s.fq part q).next.toNat % 2 ^ (s.fq part q).log2n))) 64 = (s1, .bytes bs) ∧
      s1.fq part q = s.fq part q)
    fun s t => (pktGood bs (s.fq part q).next.toNat = true → (s.fq part q).next ≠ (s.fq part q).acc →
        (t.fq part q).next = (s.fq part q).next + 1 ∧ (t.fq part q).rereads = 0) ∧
      (pktGood bs (s.fq part q).next.toNat = false → (s.fq part q).rereads < 8 → (t.fq part q).rereads = (s.fq part q).rereads + 1) ∧
      (pktGood bs (s.fq part q).next.toNat = false → 8 ≤ (s.fq part q).rereads →
        (t.fq part q).state = 1 ∧ (t.fq part q).stall = (s.fq part q).next)) ∧
  (∀ part q p s0 s1 im, im.hdr.filler = false → im.hdr.scan = false → im.hdr.coresident = false → im.saved = [] →
    Brings (.launch part q)
      (fun s => s.AtHead part q 1 p ∧ s.handlesFree (s.fq part q) p.body = true ∧ s.Starts part q p s0 ∧
        s0.readLaunch (s0.queueReader part q) (BitVec.ofNat 64 (pkt p.body 16 8)) true = (s1, .image im))
      fun _ t => t.launches = s1.launches ++ [newLaunch s1.uid part q p im (s1.fq part q).dprio]) ∧
  (∀ part q p s0 s1, Happens (.launch part q)
    (fun s => s.AtHead part q 1 p ∧ s.handlesFree (s.fq part q) p.body = true ∧ s.Starts part q p s0 ∧
      s0.readLaunch (s0.queueReader part q) (BitVec.ofNat 64 (pkt p.body 16 8)) true = (s1, .bad))
    fun _ => s1.completeHead part q 4 0) ∧
  (∀ part q p s0 s1, pkt p.body 9 1 = 0 → Happens (.signal part q)
    (fun s => s.AtHead part q 2 p ∧ (s.fq part q).allDone p = true ∧ s.Starts part q p s0 ∧
      s0.frontWrite (s0.queueReader part q) (BitVec.ofNat 64 (pkt p.body 16 8)) (leBytes 8 (pkt p.body 24 8)) = (s1, .done))
    fun _ => s1.completeHead part q 0 0) ∧
  (∀ part q p s0 s1 s2 bs, pkt p.body 9 1 = 1 → Happens (.signal part q)
    (fun s => s.AtHead part q 2 p ∧ (s.fq part q).allDone p = true ∧ s.Starts part q p s0 ∧
      s0.frontRead (s0.queueReader part q) (BitVec.ofNat 64 (pkt p.body 16 8)) 8 = (s1, .bytes bs) ∧
      s1.frontWrite (s0.queueReader part q) (BitVec.ofNat 64 (pkt p.body 16 8)) (leBytes 8 ((leNat bs + pkt p.body 24 8) % 2 ^ 64)) = (s2, .done))
    fun _ => s2.completeHead part q 0 0) ∧
  (∀ part q p s0, Happens (.wait part q) (fun s => s.AtHead part q 3 p ∧ s.Starts part q p s0)
    fun _ => (s0.takeHead part q none).pollWait part q) ∧
  (∀ part q r s1 bs, Happens (.waitConditionHolds part q)
    (fun s => (s.fq part q).owes = false ∧ (s.fq part q).running.find? (fun r => pktType r.body = 3 && r.status.isNone) = some r ∧
      s.frontRead (s.queueReader part q) (BitVec.ofNat 64 (pkt r.body 16 8)) 8 = (s1, .bytes bs) ∧ waitHolds r.body (leNat bs) = true)
    fun _ => (s1.modFq part q fun f => { f with
      running := f.running.map fun y => if y = r then { y with status := some (0, 0) } else y }).flushAll part q) ∧
  (∀ part q p s0, p.sub = [] → Happens (.callPacket part q) (fun s => s.AtHead part q 4 p ∧ s.Starts part q p s0)
    fun _ => (s0.takeHead part q none).flushAll part q) ∧
  (∀ part q p s0, Happens (.join part q) (fun s => s.AtHead part q 5 p ∧ (s.fq part q).allDone p = true ∧ s.Starts part q p s0)
    fun _ => (s0.completeHead part q 0 0).modFq part q fun f => { f with joined := false }) ∧
  (∀ part q p s0, Happens (.barrier part q) (fun s => s.AtHead part q 6 p ∧ (s.fq part q).allDone p = true ∧ s.Starts part q p s0)
    fun _ => s0.completeHead part q 0 0) ∧
  (∀ part q p s0, Brings (.priority part q) (fun s => s.AtHead part q 7 p ∧ s.Starts part q p s0)
    fun _ t => (t.fq part q).dprio = pkt p.body 9 1 % 8)

/-- QUEUE_TAIL_WRITE (R357, R373): TAIL is written; more packets than the ring holds stall the queue with state 3, once ACC is known. QUEUE_ENABLE, QUEUE_RECOVER,
QUEUE_DISABLE and QUEUE_RETRY (R357, R373): EN and the indices. FUNCTION_LEVEL_RESET (R372): every queue of the function's partition ends.
CONTROL_COMPLEX_FAILURE (R371, R451): the standby takes over and the queues stay as they are. RESUME_COMMAND (R356): the wave of a
handle is no longer suspended. CONTROL_REGISTER_WRITE (R5, R342, R345, R418): a write reaches its register. -/
def Obligations.QueueRegisterEventsTakeEffect : Prop :=
  (∀ part q tail, Brings (.queueTailWrite part q tail) (fun _ => True)
    fun s t => (t.fq part q).tail = tail ∧ ((s.fq part q).recov = some none → (t.fq part q).tailDue = true ∧ (t.fq part q).state = (s.fq part q).state) ∧
      ((s.fq part q).recov ≠ some none → (s.fq part q).en = true → 2 ^ (s.fq part q).log2n < (tail - (s.fq part q).acc).toNat →
      (t.fq part q).state = 3 ∧ (t.fq part q).stall = (s.fq part q).next)) ∧
  (∀ part q, Brings (.queueEnable part q) (fun s => (s.fq part q).en = false)
    fun _ t => let f := t.fq part q
      f.en = true ∧ f.state = 0 ∧ f.acc = 0 ∧ f.iss = 0 ∧ f.cmp = 0) ∧
  (∀ part q s1 bs, Brings (.queueRecover part q)
    (fun s => (s.fq part q).en = false ∧
      (s.modFq part q Fq.recovering).frontRead (s.queueReader part q) (s.fq part q).wbbase 12 = (s1, .bytes bs))
    fun _ t => (t.fq part q).en = true ∧ (t.fq part q).acc = BitVec.ofNat 32 (pkt bs 0 4) ∧ (t.fq part q).iss = BitVec.ofNat 32 (pkt bs 4 4)) ∧
  (∀ part q, Brings (.queueDisable part q) (fun _ => True) fun _ t => (t.fq part q).en = false ∧ (t.fq part q).state = 5) ∧
  (∀ part q, Brings (.queueRetry part q) (fun s => (s.fq part q).en = true ∧ 1 ≤ (s.fq part q).state ∧ (s.fq part q).state ≤ 3)
    fun _ t => (t.fq part q).state = 0 ∧ (t.fq part q).en = true) ∧
  (∀ vf p, Happens (.functionLevelReset vf) (fun s => s.partOfVf vf = some p)
    fun s => ((s.part p).queues.map (·.1)).foldl (fun (st : State) q => st.endQueue p q) s) ∧
  (Brings .controlComplexFailure (fun s => s.dev.standby = true)
    fun s t => t.dev.complexB = !s.dev.complexB ∧ t.dev.standby = false ∧ t.parts = s.parts ∧ t.launches = s.launches ∧ t.cores = s.cores) ∧
  (∀ handle w, Brings (.resumeCommand handle)
    (fun s => s.handleOf (handleCore handle.toNat) (handleSlot handle.toNat) = handle.toNat ∧
      s.wave? (handleCore handle.toNat) (handleSlot handle.toNat) = some w ∧ ∀ e ∈ s.parts, e.2.context = none)
    fun _ t => t.wave? (handleCore handle.toNat) (handleSlot handle.toNat) = some { w with suspended := false }) ∧
  (∀ inst v, inst < 32 → Happens (.controlRegisterWrite .machine 0 inst v) (fun _ => True)
    fun s => s.setPart inst { s.part inst with tvec := v &&& ~~~2#64 }) ∧
  (∀ num inst v, crAssigned (BitVec.toNat num) = true → (if partBlock num.toNat then decide (inst < 32) else instExists num.toNat inst) = true →
    Happens (.controlRegisterWrite .machine num inst v) (fun _ => True) fun s => s.writeReg num.toNat inst v false) ∧
  (∀ vf p v, Brings (.controlRegisterWrite (.vf vf) 0x102 0 v) (fun s => s.partOfVf vf = some p)
    fun _ t => (t.fq p 0).tail = BitVec.ofNat 32 v.toNat) ∧
  (∀ off v, 0x100000 ≤ off → off + 8 ≤ 0x200000 → Brings (.controlRegisterWrite .pf 0 off v) (fun _ => True)
    fun _ t => ∀ i < 8, t.dev.upload.get 0 (off - 0x100000 + i) = BitVec.ofNat 8 (v.toNat / 2 ^ (8 * i)))

/-! ### Events of the links, the security complex and the start (R389 to R427, R446 to R452) -/

/-- SCRUB_READ (R412, R414 to R416): a clean block changes nothing; other findings send their record, and an uncorrectable block is
poisoned. LANE_COUNT_CLEAR (R419), RING_PACKET_ERROR and FLIT_PARITY_ERROR (R395), GDDR_LINK_ERROR (R410, R413), IDE_INTEGRITY_FAILURE
(R422), PCIE_LINK_ERROR (R410): the retries are counted until the link, channel or stream fails. HOST_LINK_ACCESS (R104, R397, R400): a write
is performed, a read answers the bytes, or entries of the indirection table; one on a stream that has ended is dropped (R422). The SPDM requests
(R423 to R425) are answered from stage 2 on, and each requester has a session of its own. VENDOR_DEFINED_REQUEST, INVASIVE_DEBUG_ENTRY and
DEBUGGER_REQUEST (R425 to R427): an accepted token sets the debug state, and the debugger reaches its partition. -/
def Obligations.ReliabilityAndSecurityEventsTakeEffect : Prop :=
  (∀ addr, Happens (.scrubRead .gddr addr .clean) (fun _ => True) fun s => s) ∧
  (∀ addr finding source sev, (finding, source, sev) ∈ [(Finding.corrected, 11, 0), (.uncorrectable, 6, 1), (.tagMismatch, 7, 1)] →
    Happens (.scrubRead .gddr addr finding) (fun s => inGddr addr = true ∧ s.blockPoisoned (addr / 64) = false)
      fun s =>
        let u := s.record { source := source, sev := sev, unit := Config.channelOf addr % 16, part := s.gddrOwner addr, addr := addr / 64 * 64 }
        if finding = .corrected then u else u.poisonBlock (addr / 64)) ∧
  (∀ core, Brings (.laneCountClear core) (fun _ => True) fun _ t => (t.core core).outv = [] ∧ (t.core core).susp = []) ∧
  (∀ link x, x.failed = false → Brings (.ringPacketError link) (fun s => s.links.get ⟨false, 0⟩ link = x)
    fun s t => let n := s.failures x.retries
      t.links.get ⟨false, 0⟩ link = if 4 ≤ n then ⟨true, 0⟩ else ⟨false, n⟩) ∧
  (∀ link, Happens (.flitParityError link) (fun _ => True) fun s => s) ∧
  (∀ chan x, x.failed = false → Brings (.gddrLinkError chan) (fun s => s.channels.get ⟨false, 0⟩ chan = x)
    fun s t => let n := s.failures x.retries
      t.channels.get ⟨false, 0⟩ chan = if 9 ≤ n then ⟨true, 0⟩ else ⟨false, n⟩) ∧
  (∀ stream, Brings (.ideIntegrityFailure stream) (fun _ => True) fun _ t => stream ∈ t.dev.ideEnded) ∧
  (Happens (.pcieLinkError true) (fun _ => True) fun s => s.record { source := 0, sev := 0 }) ∧
  (Brings (.pcieLinkError false) (fun _ => True) fun s t => t.dev.linkRetrains = s.dev.linkRetrains + 1) ∧
  (∀ addr bs, inGddr addr = true → inGddr (addr + bs.length) = true →
    Brings (.hostLinkAccess addr (some bs))
      (fun s => let lines := (List.range ((addr % 128 + bs.length + 127) / 128)).map fun i => addr / 128 + i
        s.LinkCarries addr ∧ 1 ≤ s.dev.stage ∧ (∀ l ∈ lines, s.moving ((s.gddrOwner addr).getD 0) (.phys l) = false) ∧
        s.touchable ((s.gddrOwner addr).getD 0) lines = true ∧ ∀ i < bs.length, s.chanFailed (addr + i) = false)
      fun s t => t.mem = s.mem.writeBytes addr bs) ∧
  (∀ addr bs, inHost addr = true → inHost (addr + bs.length) = true → addr < 2 ^ 52 →
    Brings (.hostLinkAccess addr (some bs)) (fun s => s.LinkCarries addr) fun s t => t.mem = s.mem.writeBytes addr bs) ∧
  (∀ addr s1, inGddr addr = true → Brings (.hostLinkAccess addr none)
    (fun s => s.LinkCarries addr ∧ 1 ≤ s.dev.stage ∧ s.moving ((s.gddrOwner addr).getD 0) (.phys (addr / 128)) = false ∧
      s.touchLine? ((s.gddrOwner addr).getD 0) (addr / 128) id = some s1 ∧ s1.wordPoisoned (addr / 8 * 8) = false)
    fun s t => t.dev.linkAnswer = s.mem.readBytes (addr / 8 * 8) 8 ∧ t.mem = s.mem) ∧
  (∀ off bs, bs.length = 8 → off % 8 = 0 → off < 2 ^ 52 → Happens (.hostLinkAccess (2 ^ 52 + off) (some bs)) (fun s => s.LinkCarries (2 ^ 52 + off))
    fun s => s.pfWrite off (BitVec.ofNat 64 (leNat bs))) ∧
  (∀ b, b % 4 = 0 → b + 4 ≤ Config.buckets → Brings (.hostLinkAccess (2 ^ 52 * 258 + 2 * b) none)
    (fun s => s.LinkCarries (2 ^ 52 * 258 + 2 * b) ∧ 2 ≤ s.dev.stage)
    fun s t => t.dev.linkAnswer = (List.range 4).flatMap fun i => leBytes 2 (s.bucket (b + i)).entry) ∧
  (∀ addr data, Happens (.hostLinkAccess addr data) (fun s => s.linkDrops addr = true) fun s => s) ∧
  (∀ req, Happens (.getVersion req) (fun s => s.Answers req) fun s => s.answered .version) ∧
  (∀ req, Happens (.getCapabilities req) (fun s => s.Answers req) fun s => s.answered .capabilities) ∧
  (∀ req, Happens (.negotiateAlgorithms req) (fun s => s.Answers req) fun s => s.answered .algorithms) ∧
  (∀ req, Happens (.getDigests req) (fun s => s.Answers req) fun s => s.answered (.digests s.chainDigest)) ∧
  (∀ req, req.slot = 0 → Happens (.getCertificate req) (fun s => s.Answers req) fun s => s.answered (.certificate s.chain)) ∧
  (∀ req, Happens (.challenge req) (fun s => s.Answers req) fun s => s.answered (.challenge req.nonce (s.sign req.nonce))) ∧
  (∀ req, Happens (.getMeasurements req) (fun s => s.Answers req)
    fun s => s.answered (.measurements (s.measurements req.from_) none (s.sign req.nonce))) ∧
  (∀ req, Brings (.keyExchange req) (fun s => s.Answers req)
    fun s t => ∃ n, t.sessionOf req.from_ = some ⟨req.from_, n, false⟩ ∧ t.dev.answers = s.dev.answers ++ [.session n] ∧
      (∀ r, r ≠ req.from_ → t.sessionOf r = s.sessionOf r) ∧
      (s.dev.debugFrom = some req.from_ → t.dev.debug = .none ∧ t.dev.debugPart = none)) ∧
  (∀ req, Brings (.finish req) (fun s => s.Answers req ∧ (s.sessionOf req.from_).isSome = true)
    fun s t => t.inSession req.from_ = true ∧ t.dev.answers = s.dev.answers ++ [.finished] ∧ ∀ r, r ≠ req.from_ → t.sessionOf r = s.sessionOf r) ∧
  (∀ req, Brings (.endSession req) (fun s => s.Answers req ∧ s.inSession req.from_ = true)
    fun s t => t.sessionOf req.from_ = none ∧ t.dev.answers = s.dev.answers ++ [.ended] ∧ (∀ r, r ≠ req.from_ → t.sessionOf r = s.sessionOf r) ∧
      (s.dev.debugFrom = some req.from_ → t.dev.debug = .none ∧ t.dev.debugPart = none)) ∧
  (∀ req token, Brings (.vendorDefinedRequest req token)
    (fun s => s.Answers req ∧ s.inSession req.from_ = true ∧ s.tokenOk req.from_ token = true)
    fun s t => t.dev.debugged = true ∧ t.dev.debugFrom = some req.from_ ∧ (token.state = .none → t.dev.debug = .none) ∧
      (token.state = .trace → t.dev.debug = .trace ∧ t.dev.debugPart = some token.part) ∧
      (token.state = .invasive → s.dev.security ≠ .development → t.dev.debug = s.dev.debug ∧ t.dev.pendingInvasive = some token.part)) ∧
  (∀ req token, Happens (.vendorDefinedRequest req token) (fun s => s.Answers req ∧ (s.inSession req.from_ = false ∨ s.tokenOk req.from_ token = false))
    fun s => s.answered .error) ∧
  (∀ p, Brings .invasiveDebugEntry (fun s => s.dev.pendingInvasive = some p ∧ s.dev.pendingPower = none ∧ ∀ e ∈ s.parts, e.1 ≠ p → e.2.valid = false)
    fun _ t => t.dev.debug = .invasive ∧ t.dev.debugPart = some p ∧ t.dev.pendingInvasive = none) ∧
  (∀ p, Brings .invasiveDebugEntry
    (fun s => s.dev.pendingInvasive = some p ∧ s.dev.pendingPower = some .d3hot ∧ s.dev.railOn = true ∧ ∀ e ∈ s.parts, e.1 ≠ p → e.2.valid = false)
    fun _ t => t.dev.power = .d3hot ∧ t.dev.debug = .none ∧ t.dev.sessions = [] ∧ t.dev.pendingInvasive = none ∧ t.dev.pendingPower = none) ∧
  (∀ core slot w, Happens (.debuggerRequest (.halt core slot)) (fun s => s.wave? core slot = some w ∧ s.debugs w.part = true)
    fun s => s.setWave core slot { w with debugHalt := true }) ∧
  (∀ core slot w, Happens (.debuggerRequest (.resume core slot)) (fun s => s.wave? core slot = some w ∧ s.debugs w.part = true)
    fun s => s.setWave core slot { w with debugHalt := false }) ∧
  (∀ core slot n w, Happens (.debuggerRequest (.readScalar core slot n)) (fun s => s.wave? core slot = some w ∧ s.debugs w.part = true)
    fun s => { s with dev := { s.dev with dbgData := (w.s n.toNat).val } }) ∧
  (∀ core slot n v w, Happens (.debuggerRequest (.writeScalar core slot n v)) (fun s => s.wave? core slot = some w ∧ s.debugs w.part = true)
    fun s => s.setWave core slot (w.putS n.toNat v)) ∧
  (∀ part va b, Happens (.debuggerRequest (.readMem part va)) (fun s => s.debugs part = true ∧ s.lustreBytes part va 1 = some [b])
    fun s => { s with dev := { s.dev with dbgData := BitVec.ofNat 64 b.toNat } }) ∧
  (∀ part va b s1, Happens (.debuggerRequest (.writeMem part va b)) (fun s => s.debugs part = true ∧ s.writeVirt part va [b] = some s1)
    fun _ => s1) ∧
  (∀ core slot n x w, Happens (.debuggerRequest (.readVector core slot n x))
    (fun s => s.wave? core slot = some w ∧ s.debugs w.part = true ∧ BitVec.toNat n < 16 * w.blocks)
    fun s => s.debugData ((w.v n.toNat).vals.getD (BitVec.toNat x) 0).toNat) ∧
  (∀ core slot n x v w, Happens (.debuggerRequest (.writeVector core slot n x v))
    (fun s => s.wave? core slot = some w ∧ s.debugs w.part = true ∧ BitVec.toNat n < 16 * w.blocks ∧ BitVec.toNat x < w.width)
    fun s => s.setWave core slot (w.setV n.toNat { w.v n.toNat with vals := (w.v n.toNat).vals.set x.toNat v })) ∧
  (∀ core slot n w, BitVec.toNat n < 7 → Happens (.debuggerRequest (.readPred core slot n)) (fun s => s.wave? core slot = some w ∧ s.debugs w.part = true)
    fun s => s.debugData (w.p n.toNat).bits.toNat) ∧
  (∀ core slot n v w, BitVec.toNat n < 7 →
    Happens (.debuggerRequest (.writePred core slot n v)) (fun s => s.wave? core slot = some w ∧ s.debugs w.part = true)
    fun s => s.setWave core slot (w.setP n.toNat { w.p n.toNat with bits := v })) ∧
  (∀ core n byte, Happens (.debuggerRequest (.readTile core n byte)) (fun s => s.dev.debug = .invasive ∧ s.debugsCore core = true)
    fun s => s.debugData ((s.tile core (BitVec.toNat n)).bytes.get 0 (BitVec.toNat byte)).toNat) ∧
  (∀ core n byte v, Brings (.debuggerRequest (.writeTile core n byte v)) (fun s => s.dev.debug = .invasive ∧ s.debugsCore core = true)
    fun s t => (t.tile core (BitVec.toNat n)).bytes.get 0 (BitVec.toNat byte) = v ∧ ∀ j, j ≠ byte.toNat →
      (t.tile core n.toNat).bytes.get 0 j = (s.tile core n.toNat).bytes.get 0 j) ∧
  (∀ core slot w f, Happens (.debuggerRequest (.trace core slot))
    (fun s => s.wave? core slot = some w ∧ s.traces w.part = true ∧ w.frag? w.cur = some f) fun s => s.debugData f.pc.toNat) ∧
  (∀ core p, Happens (.debuggerRequest (.count core)) (fun s => s.partAt core = some p ∧ s.traces p = true)
    fun s => s.debugData (s.core core).cycles.toNat) ∧
  (∀ core slot w, Happens (.debuggerRequest (.halt core slot))
    (fun s => s.dev.security ≠ .development ∧ s.wave? core slot = some w ∧ s.debugs w.part = false) fun s => s.setWave core slot w)

/-- COLD_RESET (R446), D3HOT_ENTRY, D3COLD_ENTRY and RETURN_FROM_D3COLD (R426, R427, R452): what a loss of power keeps: the firmware slots
and every byte outside GDDR. STAGE_1 and STAGE_2 (R446, R449): a slot that passes starts, and a device without one stays in stage 0.
RCV_WRITE, RCV_AUTH and RCV_ERASE (R447, R448): a command starts, goes on by 4 KiB, and completes. UPDATE and UPDATE_HANDOVER (R450, R451): the
state table is imported, then the complexes change places. JUNCTION_OVERTEMP (R452): the core rail stops once every partition is torn down.
GOVERNOR_INTERVAL (R444). PARTITION_DESCRIPTOR_WRITE, PARTITION_TEARDOWN, HEAD_GRANT and VICTIM_STORE_SIZING (R389, R394, R397, R405, R446). -/
def Obligations.StartAndPartitionEventsTakeEffect : Prop :=
  (Brings .coldReset (fun _ => True)
    fun s t => t.dev.stage = 0 ∧ t.cores = [] ∧ t.parts = [] ∧ t.launches = [] ∧ t.teams = [] ∧ t.dev.slotA = s.dev.slotA ∧
      t.dev.slotB = s.dev.slotB ∧ t.dev.minSvn = s.dev.minSvn ∧
      ∀ a, t.mem.read a = if inGddr a then Memory.unlisted else s.mem.read a) ∧
  (Brings .d3hotEntry (fun s => s.dev.railOn = true ∧ s.dev.pendingInvasive = none) fun s t => t.dev.power = .d3hot ∧ t.dev.debug = .none ∧
    t.dev.sessions = [] ∧ t.mem = s.mem ∧ (s.dev.debug = .none → t.parts = s.parts)) ∧
  (∀ i p, (i, p) ∈ [(Instr.d3hotEntry, Power.d3hot), (.d3coldEntry, .d3cold)] →
    Happens i (fun s => s.dev.railOn = true ∧ s.dev.pendingInvasive.isSome = true) fun s => { s with dev := { s.dev with pendingPower := some p } }) ∧
  (Brings .d3coldEntry (fun s => s.dev.railOn = true ∧ s.dev.pendingInvasive = none)
    fun s t => t.dev.power = .d3cold ∧ t.dev.keys = false ∧ t.parts = [] ∧ t.dev.slotA = s.dev.slotA ∧ t.dev.slotB = s.dev.slotB) ∧
  (Happens .returnFromD3cold (fun s => s.dev.power = .d3cold) fun s => s.restart) ∧
  (Happens .returnFromD3cold (fun s => s.dev.power = .d3hot) fun s => { s with dev := { s.dev with power := .d0 } }) ∧
  (∀ badSlices badChannels slot, Brings (.stage1 badSlices badChannels)
    (fun s => s.dev.stage = 0 ∧ s.dev.railOn = true ∧ s.dev.power ≠ .d3cold ∧ s.dev.select = some slot)
    fun _ t => t.dev.stage = 1 ∧ t.dev.activeSlot = slot ∧ t.dev.failedSlices = badSlices) ∧
  (∀ badSlices badChannels, Brings (.stage1 badSlices badChannels)
    (fun s => s.dev.stage = 0 ∧ s.dev.railOn = true ∧ s.dev.power ≠ .d3cold ∧ s.dev.select = none)
    fun s t => t.dev.stage = 0 ∧ t.dev.failA = s.dev.authenticate s.dev.slotA ∧ t.dev.failB = s.dev.authenticate s.dev.slotB ∧
      t.dev.failedSlices = badSlices ∧ t.dev.fb = s.dev.fb.map fun x => { x with codes := some (t.dev.failA, t.dev.failB) }) ∧
  (Brings .stage2 (fun s => s.dev.stage = 1 ∧ s.dev.railOn = true)
    fun s t => t.dev.stage = 2 ∧ t.dev.standby = true ∧ t.dev.complexB = false ∧ s.dev.minSvn ≤ t.dev.minSvn ∧
      Config.fwSvn s.dev.running.header ≤ t.dev.minSvn ∧ t.dev.table = s.dev.running.freshTable) ∧
  (∀ cmd bad worse, (BitVec.toNat cmd % 16 = 1 → Happens (.rcvWrite cmd) (fun s => s.dev.rcvBusy = false ∧ s.dev.power ≠ .d3cold) fun s => s.rcvStarted cmd) ∧
    (BitVec.toNat cmd % 16 = 2 → Happens (.rcvAuth cmd bad worse) (fun s => s.dev.rcvBusy = false ∧ s.dev.power ≠ .d3cold) fun s => s.rcvStarted cmd) ∧
    (BitVec.toNat cmd % 16 = 3 → Happens (.rcvErase cmd) (fun s => s.dev.rcvBusy = false ∧ s.dev.power ≠ .d3cold) fun s => s.rcvStarted cmd)) ∧
  (∀ cmd i op, (i, op) ∈ [(Instr.rcvWrite cmd, 1), (.rcvErase cmd, 3)] → Happens i (fun s => s.RcvRuns op ∧ s.rcvActive = true)
    fun s => { s with dev := { s.dev with rcvBusy := false, rcvResult := 1 } }) ∧
  (∀ cmd, Brings (.rcvWrite cmd)
    (fun s => s.RcvRuns 1 ∧ s.rcvActive = false ∧ Config.flashFails s.freeCtr = false ∧ (s.dev.upload.map (·.1)).Nodup)
    fun s t =>
      let x := s.dev.rcvCmd.toNat
      let off := bitsOf x 21 16 * 2 ^ 20 + 4096 * s.dev.rcvAt
      let slot := bitOf x 4
      t.dev.slot (!slot) = s.dev.slot (!slot) ∧
      (∀ j < 4096, (t.dev.slot slot).bytes.get 0 (off + j) = s.dev.upload.get 0 (4096 * s.dev.rcvAt + j)) ∧
      (∀ a, a < off ∨ off + 4096 ≤ a → (t.dev.slot slot).bytes.get 0 a = (s.dev.slot slot).bytes.get 0 a) ∧
      t.dev.rcvAt = s.dev.rcvAt + 1 ∧ t.dev.rcvBusy = decide (s.dev.rcvAt < bitsOf x 15 8) ∧ (t.dev.rcvBusy = false → t.dev.rcvResult = 0)) ∧
  (∀ cmd i op, (i, op) ∈ [(Instr.rcvWrite cmd, 1), (.rcvErase cmd, 3)] →
    Brings i (fun s => s.RcvRuns op ∧ s.rcvActive = false ∧ Config.flashFails s.freeCtr = true)
    fun s t => t.dev.rcvBusy = false ∧ t.dev.rcvResult = 4 ∧ t.dev.slotA = s.dev.slotA ∧ t.dev.slotB = s.dev.slotB) ∧
  (∀ cmd badSlices badChannels, Brings (.rcvAuth cmd badSlices badChannels) (fun s => s.RcvRuns 2)
    fun s t => t.dev.rcvBusy = false ∧ t.dev.rcvResult = s.dev.authenticate (s.dev.slot (bitOf s.dev.rcvCmd.toNat 4)) ∧
      (t.dev.rcvResult = 0 → s.dev.stage = 0 → s.dev.railOn = true →
        t.dev.stage = 1 ∧ t.dev.activeSlot = bitOf s.dev.rcvCmd.toNat 4 ∧ t.dev.failedSlices = badSlices)) ∧
  (∀ cmd, Brings (.rcvErase cmd) (fun s => s.RcvRuns 3 ∧ s.rcvActive = false ∧ Config.flashFails s.freeCtr = false)
    fun s t => t.dev.rcvBusy = false ∧ t.dev.rcvResult = 0 ∧ t.dev.slot (bitOf s.dev.rcvCmd.toNat 4) = ⟨[]⟩) ∧
  (Happens .update (fun s => 2 ≤ s.dev.stage ∧ s.dev.railOn = true ∧ s.dev.updating = false ∧ s.dev.standby = true ∧
      s.dev.authenticate (s.dev.slot (!s.dev.activeSlot)) = 0)
    fun s => { s with dev := { s.dev with updating := true, newImage := false } }) ∧
  (Brings .updateHandover (fun s => s.dev.railOn = true ∧ s.dev.updating = true ∧ s.dev.newImage = false)
    fun s t => let new := s.dev.slot (!s.dev.activeSlot)
      if Config.fwMajor new.header = Config.fwMajor s.dev.running.header then
        t.dev.newImage = true ∧ t.dev.imported = s.dev.importTable new ∧ t.dev.activeSlot = s.dev.activeSlot ∧ t.dev.updating = true
      else t.dev.updating = false ∧ t.dev.newImage = false ∧ t.dev.activeSlot = s.dev.activeSlot) ∧
  (Brings .updateHandover (fun s => s.dev.railOn = true ∧ s.dev.updating = true ∧ s.dev.newImage = true ∧
      ∀ e ∈ s.parts, ∀ q ∈ e.2.queues, q.2.quiescent = true)
    fun s t => t.dev.activeSlot = !s.dev.activeSlot ∧ t.dev.complexB = !s.dev.complexB ∧ t.dev.updating = false ∧ t.dev.standby = true ∧
      t.dev.table = s.dev.imported ∧ t.parts = s.parts ∧ t.launches = s.launches) ∧
  (Brings .junctionOvertemp (fun s => s.dev.railOn = true)
    fun _ t => (t.dev.railOn = true → t.dev.hot = true ∧ ∃ e ∈ t.parts, e.2.valid = true) ∧ (t.dev.railOn = false → ∀ e ∈ t.parts, e.2.valid = false)) ∧
  (Brings .junctionOvertemp (fun s => s.dev.railOn = true ∧ ∀ e ∈ s.parts, e.2.valid = false) fun _ t => t.dev.railOn = false) ∧
  (∀ watts, Brings (.governorInterval watts) (fun s => s.gov.limit < watts ∧ s.gov.level < s.gov.floor)
    fun s t => t.gov.level = s.gov.level + 1 ∧ t.gov.clkdn = s.gov.clkdn) ∧
  (∀ watts, Brings (.governorInterval watts) (fun s => s.gov.limit < watts ∧ s.gov.floor ≤ s.gov.level)
    fun s t => t.gov.level = s.gov.level ∧ t.gov.clkdn = min (s.gov.clkdn + 1) 8) ∧
  (∀ watts, Brings (.governorInterval watts) (fun s => 10 * watts < 9 * s.gov.limit ∧ s.gov.calm = 15)
    fun s t => (0 < s.gov.clkdn → t.gov.clkdn + 1 = s.gov.clkdn ∧ t.gov.level = s.gov.level) ∧
      (s.gov.clkdn = 0 → t.gov.level = s.gov.level - 1 ∧ t.gov.clkdn = 0)) ∧
  (∀ part desc, part < 32 → bitOf (BitVec.toNat desc) 48 = true → Brings (.partitionDescriptorWrite part desc)
    (fun s => 2 ≤ s.dev.stage ∧ s.dev.railOn = true ∧ s.descriptorOk part ((s.part part).describe desc) = true)
    fun _ t => (t.part part).valid = true ∧ (t.part part).clusters = BitVec.ofNat 48 desc.toNat ∧ t.dev.stage = 3) ∧
  (∀ part desc, part < 32 → bitOf (BitVec.toNat desc) 48 = true → Happens (.partitionDescriptorWrite part desc)
    (fun s => 2 ≤ s.dev.stage ∧ s.dev.railOn = true ∧ s.descriptorOk part ((s.part part).describe desc) = false) fun s => s) ∧
  (∀ part, Brings (.partitionTeardown part) (fun s => (s.part part).valid = true ∧ (s.endWork part).busy part = false)
    fun _ t => (t.part part).valid = false ∧ (t.part part).context = none ∧ (t.part part).dataKey = none ∧ (t.part part).tagKey = none) ∧
  (∀ head p, head < 4 → Brings (.headGrant head (some p)) (fun s => (s.part p).valid = true)
    fun _ t => (t.head head).grant = some p ∧ (head = 0 → t.dev.fb = none)) ∧
  (∀ head, Brings (.headGrant head none) (fun _ => True) fun _ t => (t.head head).grant = none) ∧
  (∀ base len, base + len ≤ 0x1000000000 → Brings (.victimStoreSizing base len)
    (fun s => 2 ≤ s.dev.stage ∧ s.dev.railOn = true ∧ ∀ e ∈ s.parts, e.2.valid = true → base + len ≤ e.2.gddrBase ∨ e.2.gddrBase + e.2.gddrLen ≤ base)
    fun _ t => t.dev.victimBase = base ∧ t.dev.victimLen = len ∧ t.victims = [] ∧ t.dev.stage = 3)

/-- HEAD_ENABLE and HEAD_DISABLE (R431): a head whose mode may start begins frame 1 at line 0; scan-out stops. SCAN_KERNEL_LOAD (R435),
PRESENT (R439), BAND_DISPATCH, BAND_TEAM_START and BAND_DEADLINE (R436 to R438): a band is asked for, gets its team, and at its deadline, by
what held as the line started, the first path whose conditions hold. GAZE_LATCH and POSE_LATCH (R442): the latches take the registers. LINE_SCANOUT (R438): the line is sent, from
a slot, a path, or the line before, and the next one starts. MOTION_ESTIMATION (R441): the estimate is done. -/
def Obligations.LustreEventsTakeEffect : Prop :=
  (∀ head, head < 4 → Brings (.headEnable head) (fun s => (s.head head).en = false ∧ s.modeOk head (s.head head) = true)
    fun _ t => (t.head head).en = true ∧ (t.head head).line = 0 ∧ (t.head head).frame = 1) ∧
  (∀ head, Brings (.headDisable head) (fun s => (s.head head).en = true) fun _ t => (t.head head).en = false ∧ (t.head head).stopping = true) ∧
  (∀ head v p s1 im, head < 4 → v &&& ~~~0xFFF#64 ≠ 0 → im.hdr.scans = true → Brings (.scanKernelLoad head v)
    (fun s => (s.head head).grant = some p ∧ s.readLaunch (s.headReader p head 0) (v &&& ~~~0xFFF#64) false = (s1, .image im))
    fun _ t => (t.head head).image = some (im.hdr, im.binds) ∧ (t.head head).kernel = v &&& ~~~0xFFF#64 ∧ (t.head head).kbad = false ∧
      (t.head head).kernelDue = false) ∧
  (∀ head v p s1, head < 4 → v &&& ~~~0xFFF#64 ≠ 0 → Brings (.scanKernelLoad head v)
    (fun s => (s.head head).grant = some p ∧ s.readLaunch (s.headReader p head 0) (v &&& ~~~0xFFF#64) false = (s1, .wait))
    fun _ t => (t.head head).image = none ∧ (t.head head).kernel = v &&& ~~~0xFFF#64 ∧ (t.head head).kernelDue = true) ∧
  (∀ head v, head < 4 → Brings (.present head v) (fun _ => True)
    fun s t => (t.head head).queued = some (v &&& ~~~0x3F#64) ∧
      (t.head head).pdrop = if (s.head head).queued.isSome then sat16 (s.head head).pdrop else (s.head head).pdrop) ∧
  (∀ head b f, Brings (.bandDispatch head b)
    (fun s => (s.head head).en = true ∧ b < (s.head head).bandCount ∧ (s.head head).due ((s.head head).dispatchAt b) = some f ∧
      (s.head head).band? b f = none)
    fun s t => (t.head head).bands = (s.head head).bands ++ [Band.new b f]) ∧
  (∀ head b core x hdr binds, core = 192 ∨ core = 193 → Brings (.bandTeamStart head b core)
    (fun s => (s.head head).bands.find? (fun y => y.index = b && s.bandWaits (s.head head) y) = some x ∧ (s.head head).image = some (hdr, binds) ∧
      s.bandAhead head x = false ∧ s.roomFor core hdr.waves (hdr.waves * hdr.regblk) = true)
    fun s t => ∃ y ∈ (t.head head).bands, y.index = b ∧ y.frame = x.frame ∧ y.team = some s.uid) ∧
  (∀ head b f x, Brings (.bandDeadline head b)
    (fun s => (s.head head).en = true ∧ b < (s.head head).bandCount ∧ (s.head head).due (deadlineAt b) = some f ∧
      x = ((s.head head).band? b f).getD (Band.new b f) ∧ x.closed = false)
    fun s t => ∃ y, (t.head head).band? b f = some y ∧ y.closed = true ∧
      (x.intime = some true → y.source = some 0) ∧
      (x.intime ≠ some true → ((s.head head).presentFor f).isNone = true → y.source = some 3) ∧
      (x.intime ≠ some true → ∀ d, (s.head head).presentFor f = some d →
        y.source = some (if bitOf (pkt d.2 17 1) 0 && (match ((s.latchPose head).head head).poseLatch with | some l => l.2 | none => false) then 1 else 2))) ∧
  (∀ head, Brings (.gazeLatch head)
    (fun s => (s.head head).en = true ∧ (s.head head).line = (s.head head).gazeLine.toNat ∧ (s.head head).latched % 2 = 0)
    fun s t => (t.head head).gazeLatch = some (s.head head).gaze ∧ (t.head head).gazeLevel = s.gov.level ∧
      (t.head head).latched = (s.head head).latched + 1) ∧
  (∀ head p s1 bs, Brings (.poseLatch head)
    (fun s => (s.head head).en = true ∧ (s.head head).line = (s.head head).poseLine.toNat ∧ (s.head head).latched < 2 ∧
      (s.head head).grant = some p ∧
      s.frontRead (s.headReader p head 0) ((s.head head).poseBase + (if (s.head head).poseSel then 64 else 0)) 28 = (s1, .bytes bs))
    fun s t => (t.head head).poseLatch =
      some (bs, (s.head head).poseValid && !((List.range 4).any fun i => isNan32 (pkt bs (4 * i) 4)))) ∧
  (∀ head ready, Brings (.lineScanout head ready)
    (fun s => (s.head head).stopping = false ∧ (s.head head).en = true ∧ (s.head head).owes = false)
    fun s t =>
      let u := s.headWork head
      let h := u.head head
      let black := List.replicate (h.hact.toNat + 1) (0 : Word)
      ((t.head head).line = if h.line < h.vtotal.toNat then h.line + 1 else 0) ∧
      (h.vact.toNat < h.line → (t.head head).out = []) ∧
      (h.line ≤ h.vact.toNat → h.grant = none → (t.head head).out = h.wire u.freeCtr black) ∧
      (h.line ≤ h.vact.toNat → h.grant ≠ none → ∀ l, (u.lineSource head ready).2 = some l → (t.head head).out = h.wire u.freeCtr l) ∧
      (h.line ≤ h.vact.toNat → h.grant ≠ none → (u.lineSource head ready).2 = none →
        (t.head head).fb3 = sat16 h.fb3 ∧ (t.head head).out = h.wire u.freeCtr (if h.sent then h.lastLine else black))) ∧
  (∀ head, Brings (.lineScanout head true) (fun s => (s.head head).stopping = true)
    fun _ t => (t.head head).stopping = false ∧ (t.head head).out = []) ∧
  (∀ head f new old p s1 o1 s2 o2, o1 ≠ .wait → o2 ≠ .wait → Brings (.motionEstimation head)
    (fun s => let h := s.head head
      h.estimate = some f ∧ h.effect = some new ∧ h.previous = some old ∧ h.grant = some p ∧ h.boundary = none ∧
      s.frontWrite (s.headReader p head 4) (h.motionAt new.2 + 64) (s.motionWords h new.2 old.2) = (s1, o1) ∧
      s1.frontWrite (s.headReader p head 4) (h.motionAt new.2) (leBytes 8 f) = (s2, o2))
    fun _ t => (t.head head).estimate = none ∧ t.mem = s2.mem)

/-! ### Issuing, encoding, reset and the whole machine -/

/-- A step runs the decoded instruction (R22, R23, R115, R126, R129). Where the fragment that issues stands at a word that decodes to i,
the step is the meaning of i in the state in which the issue is counted, and then the word's YIELD hint; the word comes from the wave's
buffer, or is fetched there. This holds for a wave that the agenda names and, with an empty agenda and nothing due at once, for the wave
that its quad's scheduler selects (the order of the quads and of the events is the model's choice, assumption 1). A word that fails decode
takes the ILLEGAL trap, and a privileged one at user level PRIV. An event that the agenda names happens. Every step ends with the error
records that it has left due (assumption 129). The fetch reads the twelve bytes at the pc, lowest first, when each of them translates, none is poisoned
and none lies in a flash line still to come; without a pending repeat the word is decoded as it stands. -/
def Obligations.StepRunsTheDecodedInstruction : Prop :=
  (∀ (s t : State) (core slot : Nat) (rest : List Move) (c : Ctx) (word : BitVec 96) (ibuf : List (DWord × BitVec 96)) (i : Instr)
      (stray : Option (BitVec 10)), s.agenda = .issue core slot :: rest →
    ({ s with agenda := rest, focus := some ⟨core, slot⟩ } : State).ctx? = some c → c.IssuesNow → c.Supplies word t ibuf →
    ({ c with s := t } : Ctx).decoded word = .inl (i, stray) →
    step s = closeStep (issueOf i (c.issued t ibuf word stray))) ∧
  (∀ (s t u : State) (c : Ctx) (word : BitVec 96) (ibuf : List (DWord × BitVec 96)) (i : Instr) (stray : Option (BitVec 10)),
    s.agenda = [] → s.promptEvent = none → s.tick % 64 ≠ 31 → s.nextWave = some u → ({ u with tick := u.tick + 1 } : State).ctx? = some c →
    c.IssuesNow → c.Supplies word t ibuf → ({ c with s := t } : Ctx).decoded word = .inl (i, stray) →
    step s = closeStep (issueOf i (c.issued t ibuf word stray))) ∧
  (∀ (s t : State) (core slot : Nat) (rest : List Move) (c c1 : Ctx) (word : BitVec 96) (ibuf : List (DWord × BitVec 96)) (tr : Trap),
    s.agenda = .issue core slot :: rest → ({ s with agenda := rest, focus := some ⟨core, slot⟩ } : State).ctx? = some c → c.IssuesNow →
    c.Supplies word t ibuf → ({ c with s := t } : Ctx).decoded word = .inr tr → (c.issued t ibuf word none).ctx? = some c1 →
    step s = .next (c1.trap tr).sendDue) ∧
  (∀ (s : State) (i : Instr) (rest : List Move), s.agenda = .event i :: rest → step s = closeStep (exec i { s with agenda := rest })) ∧
  (∀ (c : Ctx) (user : Bool) (pc : DWord) (bytes : List Byte), bytes.length = 12 →
    (∀ k, k < 12 → ∃ pa e, c.s.lookFor c.core c.w.part c.w.uid ⟨false, true, user⟩ (pc + BitVec.ofNat 64 k) = .ok pa e ∧
      c.s.mem.read pa = bytes.getD k 0 ∧ c.s.wordPoisoned pa = false ∧ c.flashMiss pa = none) →
    c.fetch user pc = .word (wordOfBytes bytes)) ∧
  (∀ (c : Ctx) (word : BitVec 96), c.f.rep = none →
    (decodeOn c.core word = none → c.decoded word = .inr Trap.illegal) ∧
    ∀ i, decodeOn c.core word = some i →
      c.decoded word = if Instr.privileged i = true ∧ c.user = true then .inr Trap.priv else .inl (i, none)) ∧
  (∀ (core : Nat) (word : BitVec 96), core < Config.mainCores → decodeOn core word = decode word)

/-- Words written out from the encodings of R115 to R119 decode to the instructions that they stand for. -/
def Obligations.DecodeWords : Prop :=
  let o := fun (d a b : Opnd) (imm : BitVec 21) =>
    ({ guard := ⟨false, 7⟩, dst := d, a := a, b := b, feA := false, feB := false, feD := false, xl := .none, imm := imm, hint := 0 } : Ops)
  decode 0x000000804E0004240300CE02 = some (.isub (o (.v 6) (.v 6) .imm 16) .n32 true) ∧
  decode 0x000000008E00000003208E8F = some (.reduce (o (.s 4) (.v 6) .unused 0) .n32 .max) ∧
  decode 0x00FFFFC0080000008620AF12 = some (.acq (o (.s 5) (.s 12) .unused 0x1FFFF8) .system) ∧
  decode 0x00000800000004228120CF43 = some (.barsync (o (.s 6) (.s 2) .zero 0x100)) ∧
  decode 0x000004004000000804020F80 = some (.boxt (o (.v 16) (.v 8) (.v 4) 0x80) true) ∧
  decode 0x000000000000001404018F89 = some (.gzarr (o (.v 12) (.v 8) (.v 10) 0)) ∧
  decode 0x000010000000002084000F8F = some (.fcmt (o .unused (.s 8) (.v 16) 0x200)) ∧
  decode 0x000000900000000000000FC0 = some (.syscall (o .unused .unused .unused 0) 0x12)

/-- Decoding undoes encoding (R115 to R129): every well-formed instruction that has a word decodes from it, with every operand, modifier
and immediate at every value that its entry admits. -/
def Obligations.DecodingUndoesEncoding : Prop := ∀ (i : Instr) (w : BitVec 96), i.wf = true → encode i = some w → decode w = some i

/-- The invariant of every step: from any state whose memory is in its canonical form, a step that goes on leaves it so. The canonical form
is the model's own (assumption 5). -/
def Obligations.EveryStepKeepsMemoryCanonical : Prop := ∀ s t : State, Inv s → step s = .next t → Inv t

/-- The machine after reset meets the invariant of every step. -/
def Obligations.ResetMemoryIsCanonical : Prop := Inv State.reset

/-- What the machine holds after reset where the spec gives a value: the exception registers (R72), the register blocks of a main core's pools
(R33), the Glaze registers (R276), the registers of a partition and its queues (R345, R357, R386, R408, R418), the heads and the governor (R430), and the
device's stage and security state (R426, R446). -/
def Obligations.ResetValues : Prop :=
  (∀ core k, ((State.reset.core core).threshold k) = (0xFFFFFFFF, 0) ∧ (State.reset.core core).xk = 20 ∧ (State.reset.core core).corrected = 0 ∧
    (State.reset.core core).waves = []) ∧
  (∀ core, core < 192 → (State.reset.core core).free = [(0, 84), (1, 8), (2, 4)]) ∧
  (∀ k, (State.reset.cluster k).log = false ∧ (State.reset.cluster k).tmin = 0x3A800000 ∧ (State.reset.cluster k).logBase = 0 ∧
    (State.reset.cluster k).stat = 0) ∧
  (∀ p, (State.reset.part p).tvec = 0 ∧ (State.reset.part p).tframe = 0x4F400 ∧ (State.reset.part p).rt = false ∧
    (State.reset.part p).quantum = 2000 ∧ (State.reset.part p).fqLog2n = 4 ∧ (State.reset.part p).errLog2n = 4 ∧
    (State.reset.part p).migBusy = false ∧ (State.reset.part p).genBusy = false ∧ (State.reset.part p).valid = false) ∧
  (∀ p q, (State.reset.fq p q).reg 0 = 4 ∧ (State.reset.fq p q).reg 1 = 0 ∧ (State.reset.fq p q).reg 3 = 5) ∧
  (∀ h, State.reset.headReg (State.reset.head h) 1 = 2 * 2 ^ 5 ∧ State.reset.headReg (State.reset.head h) 11 = 6 * 2 ^ 3 + 480 * 2 ^ 6) ∧
  State.reset.dev.stage = 0 ∧ State.reset.dev.fb = some BootFb.start ∧ State.reset.dev.security = .production ∧ State.reset.dev.debug = .none

/-- Instructions that compute thread by thread, and the exchanges between threads, touch only their wave (R27, R71): IADD to PDOT4 of the families
of FittingWrapsOrClamps to PackedResults, and SHFL, LSH, BCAST, REDSTEP, SCAN and MATCH, which `LaneResult` and `CrossResult` describe. Where one runs,
it goes on; every byte of memory, every other wave, every unit, and of its own wave every register but its destination keep what they hold. Of its core
only the counts of exceptions change; the host interrupt of R72 is left to a core that has one set. -/
def Obligations.ComputingTouchesOnlyItsWave : Prop :=
  (∀ (i : Instr) (o : Ops) (shape : Ctx → Plan), LaneResult i o shape → ∀ (s : State) (c : Ctx), s.ctx? = some c → s.upsets = [] → s.Quiet c.core →
    (o.anyV = true ∧ ∃ act, c.RunsIn o.guard ((shape c).uses o) act) ∨ (o.anyV = false ∧ c.RunsOnce o.guard ((shape c).uses o)) →
    ∃ t, exec i s = .next t ∧ OnlyItsWave c o (shape c).out64 (shape c).pout t) ∧
  ∀ (i : Instr) (o : Ops) us out64 tag val bad evs, CrossResult i o us out64 tag val bad evs → ∀ (s : State) (c : Ctx) (act : Mask), s.ctx? = some c →
    s.upsets = [] → s.Quiet c.core → c.RunsIn o.guard (us c) act → (∀ n, o.dst ≠ .s n) →
    ∃ t, exec i s = .next t ∧ OnlyItsWave c o out64 none t

end
end

