-- ==== Sys2Proof/Laws/Tab.lean ====
section
/-!
SUPPORT. Tables: a written key reads as written, and no other key changes.
-/
namespace Sys2Proof

@[simp] theorem Tab.find_put_same {α : Type} (m : Tab α) (k : Nat) (x : α) : (Tab.put m k x).find k = some x := by
  induction m with
  | nil => simp [Tab.put, Tab.find]
  | cons e m ih =>
    obtain ⟨a, y⟩ := e
    simp only [Tab.put]
    split
    · simp [Tab.find]
    · split
      · simp [Tab.find]
      · have : a ≠ k := fun h => by simp_all
        simpa [Tab.find, this] using ih

theorem Tab.find_put_ne {α : Type} (m : Tab α) {k j : Nat} (x : α) (h : j ≠ k) : (Tab.put m k x).find j = m.find j := by
  induction m with
  | nil => simp [Tab.put, Tab.find, h.symm]
  | cons e m ih =>
    obtain ⟨a, y⟩ := e
    simp only [Tab.put]
    split
    · simp [Tab.find, h.symm]
    · split
      · rename_i h1 h2
        subst h2
        simp [Tab.find, h.symm]
      · simp only [Tab.find, List.find?_cons] at ih ⊢
        split <;> simp_all

@[simp] theorem Tab.get_put_same {α : Type} (d : α) (m : Tab α) (k : Nat) (x : α) : (Tab.put m k x).get d k = x := by
  induction m with
  | nil => simp [Tab.put, Tab.get]
  | cons e m ih =>
    obtain ⟨a, y⟩ := e
    simp only [Tab.put]
    split
    · simp [Tab.get]
    · split
      · simp [Tab.get]
      · have : a ≠ k := fun h => by simp_all
        simpa [Tab.get, this] using ih

theorem Tab.get_put_ne {α : Type} (d : α) (m : Tab α) {k j : Nat} (x : α) (h : j ≠ k) : (Tab.put m k x).get d j = m.get d j := by
  induction m with
  | nil => simp [Tab.put, Tab.get, h.symm]
  | cons e m ih =>
    obtain ⟨a, y⟩ := e
    simp only [Tab.put]
    split
    · simp [Tab.get, h.symm]
    · split
      · rename_i h1 h2
        subst h2
        simp [Tab.get, h.symm]
      · simp only [Tab.get]
        split <;> simp_all

end Sys2Proof
end

