-- ==== Sys2Proof/Laws/State.lean ====
section
/-!
SUPPORT. What each small update of the state leaves: one lemma per field, so that no proof unfolds a record update.
-/
namespace Sys2Proof.Machine

@[simp] theorem State.setCore_agenda (s : State) (c : Nat) (x : Core) : (s.setCore c x).agenda = s.agenda := rfl
@[simp] theorem State.setCore_focus (s : State) (c : Nat) (x : Core) : (s.setCore c x).focus = s.focus := rfl
@[simp] theorem State.setCore_uid (s : State) (c : Nat) (x : Core) : (s.setCore c x).uid = s.uid := rfl
@[simp] theorem State.setCore_freeCtr (s : State) (c : Nat) (x : Core) : (s.setCore c x).freeCtr = s.freeCtr := rfl
@[simp] theorem State.setCore_tick (s : State) (c : Nat) (x : Core) : (s.setCore c x).tick = s.tick := rfl
@[simp] theorem State.setCore_lanes (s : State) (c : Nat) (x : Core) : (s.setCore c x).lanes = s.lanes := rfl
@[simp] theorem State.setCore_upsets (s : State) (c : Nat) (x : Core) : (s.setCore c x).upsets = s.upsets := rfl
@[simp] theorem State.setCore_unchecked (s : State) (c : Nat) (x : Core) : (s.setCore c x).unchecked = s.unchecked := rfl
@[simp] theorem State.setCore_l1Bad (s : State) (c : Nat) (x : Core) : (s.setCore c x).l1Bad = s.l1Bad := rfl
@[simp] theorem State.setCore_mem (s : State) (c : Nat) (x : Core) : (s.setCore c x).mem = s.mem := rfl
@[simp] theorem State.setCore_poison (s : State) (c : Nat) (x : Core) : (s.setCore c x).poison = s.poison := rfl
@[simp] theorem State.setCore_latent (s : State) (c : Nat) (x : Core) : (s.setCore c x).latent = s.latent := rfl
@[simp] theorem State.setCore_due (s : State) (c : Nat) (x : Core) : (s.setCore c x).due = s.due := rfl
@[simp] theorem State.setCore_sealed (s : State) (c : Nat) (x : Core) : (s.setCore c x).sealed = s.sealed := rfl
@[simp] theorem State.setCore_cores (s : State) (c : Nat) (x : Core) : (s.setCore c x).cores = s.cores.put c x := rfl
@[simp] theorem State.setCore_clusters (s : State) (c : Nat) (x : Core) : (s.setCore c x).clusters = s.clusters := rfl
@[simp] theorem State.setCore_pairs (s : State) (c : Nat) (x : Core) : (s.setCore c x).pairs = s.pairs := rfl
@[simp] theorem State.setCore_slices (s : State) (c : Nat) (x : Core) : (s.setCore c x).slices = s.slices := rfl
@[simp] theorem State.setCore_genLines (s : State) (c : Nat) (x : Core) : (s.setCore c x).genLines = s.genLines := rfl
@[simp] theorem State.setCore_guests (s : State) (c : Nat) (x : Core) : (s.setCore c x).guests = s.guests := rfl
@[simp] theorem State.setCore_invals (s : State) (c : Nat) (x : Core) : (s.setCore c x).invals = s.invals := rfl
@[simp] theorem State.setCore_promoted (s : State) (c : Nat) (x : Core) : (s.setCore c x).promoted = s.promoted := rfl
@[simp] theorem State.setCore_flashBad (s : State) (c : Nat) (x : Core) : (s.setCore c x).flashBad = s.flashBad := rfl
@[simp] theorem State.setCore_ncLast (s : State) (c : Nat) (x : Core) : (s.setCore c x).ncLast = s.ncLast := rfl
@[simp] theorem State.setCore_victims (s : State) (c : Nat) (x : Core) : (s.setCore c x).victims = s.victims := rfl
@[simp] theorem State.setCore_walks (s : State) (c : Nat) (x : Core) : (s.setCore c x).walks = s.walks := rfl
@[simp] theorem State.setCore_buckets (s : State) (c : Nat) (x : Core) : (s.setCore c x).buckets = s.buckets := rfl
@[simp] theorem State.setCore_links (s : State) (c : Nat) (x : Core) : (s.setCore c x).links = s.links := rfl
@[simp] theorem State.setCore_channels (s : State) (c : Nat) (x : Core) : (s.setCore c x).channels = s.channels := rfl
@[simp] theorem State.setCore_deliveries (s : State) (c : Nat) (x : Core) : (s.setCore c x).deliveries = s.deliveries := rfl
@[simp] theorem State.setCore_parts (s : State) (c : Nat) (x : Core) : (s.setCore c x).parts = s.parts := rfl
@[simp] theorem State.setCore_launches (s : State) (c : Nat) (x : Core) : (s.setCore c x).launches = s.launches := rfl
@[simp] theorem State.setCore_teams (s : State) (c : Nat) (x : Core) : (s.setCore c x).teams = s.teams := rfl
@[simp] theorem State.setCore_dev (s : State) (c : Nat) (x : Core) : (s.setCore c x).dev = s.dev := rfl
@[simp] theorem State.setCore_heads (s : State) (c : Nat) (x : Core) : (s.setCore c x).heads = s.heads := rfl
@[simp] theorem State.setCore_gov (s : State) (c : Nat) (x : Core) : (s.setCore c x).gov = s.gov := rfl

@[simp] theorem State.setCluster_agenda (s : State) (c : Nat) (x : Cluster) : (s.setCluster c x).agenda = s.agenda := rfl
@[simp] theorem State.setCluster_focus (s : State) (c : Nat) (x : Cluster) : (s.setCluster c x).focus = s.focus := rfl
@[simp] theorem State.setCluster_uid (s : State) (c : Nat) (x : Cluster) : (s.setCluster c x).uid = s.uid := rfl
@[simp] theorem State.setCluster_freeCtr (s : State) (c : Nat) (x : Cluster) : (s.setCluster c x).freeCtr = s.freeCtr := rfl
@[simp] theorem State.setCluster_tick (s : State) (c : Nat) (x : Cluster) : (s.setCluster c x).tick = s.tick := rfl
@[simp] theorem State.setCluster_lanes (s : State) (c : Nat) (x : Cluster) : (s.setCluster c x).lanes = s.lanes := rfl
@[simp] theorem State.setCluster_upsets (s : State) (c : Nat) (x : Cluster) : (s.setCluster c x).upsets = s.upsets := rfl
@[simp] theorem State.setCluster_unchecked (s : State) (c : Nat) (x : Cluster) : (s.setCluster c x).unchecked = s.unchecked := rfl
@[simp] theorem State.setCluster_l1Bad (s : State) (c : Nat) (x : Cluster) : (s.setCluster c x).l1Bad = s.l1Bad := rfl
@[simp] theorem State.setCluster_mem (s : State) (c : Nat) (x : Cluster) : (s.setCluster c x).mem = s.mem := rfl
@[simp] theorem State.setCluster_poison (s : State) (c : Nat) (x : Cluster) : (s.setCluster c x).poison = s.poison := rfl
@[simp] theorem State.setCluster_latent (s : State) (c : Nat) (x : Cluster) : (s.setCluster c x).latent = s.latent := rfl
@[simp] theorem State.setCluster_due (s : State) (c : Nat) (x : Cluster) : (s.setCluster c x).due = s.due := rfl
@[simp] theorem State.setCluster_sealed (s : State) (c : Nat) (x : Cluster) : (s.setCluster c x).sealed = s.sealed := rfl
@[simp] theorem State.setCluster_cores (s : State) (c : Nat) (x : Cluster) : (s.setCluster c x).cores = s.cores := rfl
@[simp] theorem State.setCluster_clusters (s : State) (c : Nat) (x : Cluster) : (s.setCluster c x).clusters = s.clusters.put c x := rfl
@[simp] theorem State.setCluster_pairs (s : State) (c : Nat) (x : Cluster) : (s.setCluster c x).pairs = s.pairs := rfl
@[simp] theorem State.setCluster_slices (s : State) (c : Nat) (x : Cluster) : (s.setCluster c x).slices = s.slices := rfl
@[simp] theorem State.setCluster_genLines (s : State) (c : Nat) (x : Cluster) : (s.setCluster c x).genLines = s.genLines := rfl
@[simp] theorem State.setCluster_guests (s : State) (c : Nat) (x : Cluster) : (s.setCluster c x).guests = s.guests := rfl
@[simp] theorem State.setCluster_invals (s : State) (c : Nat) (x : Cluster) : (s.setCluster c x).invals = s.invals := rfl
@[simp] theorem State.setCluster_promoted (s : State) (c : Nat) (x : Cluster) : (s.setCluster c x).promoted = s.promoted := rfl
@[simp] theorem State.setCluster_flashBad (s : State) (c : Nat) (x : Cluster) : (s.setCluster c x).flashBad = s.flashBad := rfl
@[simp] theorem State.setCluster_ncLast (s : State) (c : Nat) (x : Cluster) : (s.setCluster c x).ncLast = s.ncLast := rfl
@[simp] theorem State.setCluster_victims (s : State) (c : Nat) (x : Cluster) : (s.setCluster c x).victims = s.victims := rfl
@[simp] theorem State.setCluster_walks (s : State) (c : Nat) (x : Cluster) : (s.setCluster c x).walks = s.walks := rfl
@[simp] theorem State.setCluster_buckets (s : State) (c : Nat) (x : Cluster) : (s.setCluster c x).buckets = s.buckets := rfl
@[simp] theorem State.setCluster_links (s : State) (c : Nat) (x : Cluster) : (s.setCluster c x).links = s.links := rfl
@[simp] theorem State.setCluster_channels (s : State) (c : Nat) (x : Cluster) : (s.setCluster c x).channels = s.channels := rfl
@[simp] theorem State.setCluster_deliveries (s : State) (c : Nat) (x : Cluster) : (s.setCluster c x).deliveries = s.deliveries := rfl
@[simp] theorem State.setCluster_parts (s : State) (c : Nat) (x : Cluster) : (s.setCluster c x).parts = s.parts := rfl
@[simp] theorem State.setCluster_launches (s : State) (c : Nat) (x : Cluster) : (s.setCluster c x).launches = s.launches := rfl
@[simp] theorem State.setCluster_teams (s : State) (c : Nat) (x : Cluster) : (s.setCluster c x).teams = s.teams := rfl
@[simp] theorem State.setCluster_dev (s : State) (c : Nat) (x : Cluster) : (s.setCluster c x).dev = s.dev := rfl
@[simp] theorem State.setCluster_heads (s : State) (c : Nat) (x : Cluster) : (s.setCluster c x).heads = s.heads := rfl
@[simp] theorem State.setCluster_gov (s : State) (c : Nat) (x : Cluster) : (s.setCluster c x).gov = s.gov := rfl

@[simp] theorem State.setSlice_agenda (s : State) (h : Nat) (x : Slice) : (s.setSlice h x).agenda = s.agenda := rfl
@[simp] theorem State.setSlice_focus (s : State) (h : Nat) (x : Slice) : (s.setSlice h x).focus = s.focus := rfl
@[simp] theorem State.setSlice_uid (s : State) (h : Nat) (x : Slice) : (s.setSlice h x).uid = s.uid := rfl
@[simp] theorem State.setSlice_freeCtr (s : State) (h : Nat) (x : Slice) : (s.setSlice h x).freeCtr = s.freeCtr := rfl
@[simp] theorem State.setSlice_tick (s : State) (h : Nat) (x : Slice) : (s.setSlice h x).tick = s.tick := rfl
@[simp] theorem State.setSlice_lanes (s : State) (h : Nat) (x : Slice) : (s.setSlice h x).lanes = s.lanes := rfl
@[simp] theorem State.setSlice_upsets (s : State) (h : Nat) (x : Slice) : (s.setSlice h x).upsets = s.upsets := rfl
@[simp] theorem State.setSlice_unchecked (s : State) (h : Nat) (x : Slice) : (s.setSlice h x).unchecked = s.unchecked := rfl
@[simp] theorem State.setSlice_l1Bad (s : State) (h : Nat) (x : Slice) : (s.setSlice h x).l1Bad = s.l1Bad := rfl
@[simp] theorem State.setSlice_mem (s : State) (h : Nat) (x : Slice) : (s.setSlice h x).mem = s.mem := rfl
@[simp] theorem State.setSlice_poison (s : State) (h : Nat) (x : Slice) : (s.setSlice h x).poison = s.poison := rfl
@[simp] theorem State.setSlice_latent (s : State) (h : Nat) (x : Slice) : (s.setSlice h x).latent = s.latent := rfl
@[simp] theorem State.setSlice_due (s : State) (h : Nat) (x : Slice) : (s.setSlice h x).due = s.due := rfl
@[simp] theorem State.setSlice_sealed (s : State) (h : Nat) (x : Slice) : (s.setSlice h x).sealed = s.sealed := rfl
@[simp] theorem State.setSlice_cores (s : State) (h : Nat) (x : Slice) : (s.setSlice h x).cores = s.cores := rfl
@[simp] theorem State.setSlice_clusters (s : State) (h : Nat) (x : Slice) : (s.setSlice h x).clusters = s.clusters := rfl
@[simp] theorem State.setSlice_pairs (s : State) (h : Nat) (x : Slice) : (s.setSlice h x).pairs = s.pairs := rfl
@[simp] theorem State.setSlice_slices (s : State) (h : Nat) (x : Slice) : (s.setSlice h x).slices = s.slices.put h x := rfl
@[simp] theorem State.setSlice_genLines (s : State) (h : Nat) (x : Slice) : (s.setSlice h x).genLines = s.genLines := rfl
@[simp] theorem State.setSlice_guests (s : State) (h : Nat) (x : Slice) : (s.setSlice h x).guests = s.guests := rfl
@[simp] theorem State.setSlice_invals (s : State) (h : Nat) (x : Slice) : (s.setSlice h x).invals = s.invals := rfl
@[simp] theorem State.setSlice_promoted (s : State) (h : Nat) (x : Slice) : (s.setSlice h x).promoted = s.promoted := rfl
@[simp] theorem State.setSlice_flashBad (s : State) (h : Nat) (x : Slice) : (s.setSlice h x).flashBad = s.flashBad := rfl
@[simp] theorem State.setSlice_ncLast (s : State) (h : Nat) (x : Slice) : (s.setSlice h x).ncLast = s.ncLast := rfl
@[simp] theorem State.setSlice_victims (s : State) (h : Nat) (x : Slice) : (s.setSlice h x).victims = s.victims := rfl
@[simp] theorem State.setSlice_walks (s : State) (h : Nat) (x : Slice) : (s.setSlice h x).walks = s.walks := rfl
@[simp] theorem State.setSlice_buckets (s : State) (h : Nat) (x : Slice) : (s.setSlice h x).buckets = s.buckets := rfl
@[simp] theorem State.setSlice_links (s : State) (h : Nat) (x : Slice) : (s.setSlice h x).links = s.links := rfl
@[simp] theorem State.setSlice_channels (s : State) (h : Nat) (x : Slice) : (s.setSlice h x).channels = s.channels := rfl
@[simp] theorem State.setSlice_deliveries (s : State) (h : Nat) (x : Slice) : (s.setSlice h x).deliveries = s.deliveries := rfl
@[simp] theorem State.setSlice_parts (s : State) (h : Nat) (x : Slice) : (s.setSlice h x).parts = s.parts := rfl
@[simp] theorem State.setSlice_launches (s : State) (h : Nat) (x : Slice) : (s.setSlice h x).launches = s.launches := rfl
@[simp] theorem State.setSlice_teams (s : State) (h : Nat) (x : Slice) : (s.setSlice h x).teams = s.teams := rfl
@[simp] theorem State.setSlice_dev (s : State) (h : Nat) (x : Slice) : (s.setSlice h x).dev = s.dev := rfl
@[simp] theorem State.setSlice_heads (s : State) (h : Nat) (x : Slice) : (s.setSlice h x).heads = s.heads := rfl
@[simp] theorem State.setSlice_gov (s : State) (h : Nat) (x : Slice) : (s.setSlice h x).gov = s.gov := rfl

@[simp] theorem State.setPart_agenda (s : State) (p : Nat) (x : Partition) : (s.setPart p x).agenda = s.agenda := rfl
@[simp] theorem State.setPart_focus (s : State) (p : Nat) (x : Partition) : (s.setPart p x).focus = s.focus := rfl
@[simp] theorem State.setPart_uid (s : State) (p : Nat) (x : Partition) : (s.setPart p x).uid = s.uid := rfl
@[simp] theorem State.setPart_freeCtr (s : State) (p : Nat) (x : Partition) : (s.setPart p x).freeCtr = s.freeCtr := rfl
@[simp] theorem State.setPart_tick (s : State) (p : Nat) (x : Partition) : (s.setPart p x).tick = s.tick := rfl
@[simp] theorem State.setPart_lanes (s : State) (p : Nat) (x : Partition) : (s.setPart p x).lanes = s.lanes := rfl
@[simp] theorem State.setPart_upsets (s : State) (p : Nat) (x : Partition) : (s.setPart p x).upsets = s.upsets := rfl
@[simp] theorem State.setPart_unchecked (s : State) (p : Nat) (x : Partition) : (s.setPart p x).unchecked = s.unchecked := rfl
@[simp] theorem State.setPart_l1Bad (s : State) (p : Nat) (x : Partition) : (s.setPart p x).l1Bad = s.l1Bad := rfl
@[simp] theorem State.setPart_mem (s : State) (p : Nat) (x : Partition) : (s.setPart p x).mem = s.mem := rfl
@[simp] theorem State.setPart_poison (s : State) (p : Nat) (x : Partition) : (s.setPart p x).poison = s.poison := rfl
@[simp] theorem State.setPart_latent (s : State) (p : Nat) (x : Partition) : (s.setPart p x).latent = s.latent := rfl
@[simp] theorem State.setPart_due (s : State) (p : Nat) (x : Partition) : (s.setPart p x).due = s.due := rfl
@[simp] theorem State.setPart_sealed (s : State) (p : Nat) (x : Partition) : (s.setPart p x).sealed = s.sealed := rfl
@[simp] theorem State.setPart_cores (s : State) (p : Nat) (x : Partition) : (s.setPart p x).cores = s.cores := rfl
@[simp] theorem State.setPart_clusters (s : State) (p : Nat) (x : Partition) : (s.setPart p x).clusters = s.clusters := rfl
@[simp] theorem State.setPart_pairs (s : State) (p : Nat) (x : Partition) : (s.setPart p x).pairs = s.pairs := rfl
@[simp] theorem State.setPart_slices (s : State) (p : Nat) (x : Partition) : (s.setPart p x).slices = s.slices := rfl
@[simp] theorem State.setPart_genLines (s : State) (p : Nat) (x : Partition) : (s.setPart p x).genLines = s.genLines := rfl
@[simp] theorem State.setPart_guests (s : State) (p : Nat) (x : Partition) : (s.setPart p x).guests = s.guests := rfl
@[simp] theorem State.setPart_invals (s : State) (p : Nat) (x : Partition) : (s.setPart p x).invals = s.invals := rfl
@[simp] theorem State.setPart_promoted (s : State) (p : Nat) (x : Partition) : (s.setPart p x).promoted = s.promoted := rfl
@[simp] theorem State.setPart_flashBad (s : State) (p : Nat) (x : Partition) : (s.setPart p x).flashBad = s.flashBad := rfl
@[simp] theorem State.setPart_ncLast (s : State) (p : Nat) (x : Partition) : (s.setPart p x).ncLast = s.ncLast := rfl
@[simp] theorem State.setPart_victims (s : State) (p : Nat) (x : Partition) : (s.setPart p x).victims = s.victims := rfl
@[simp] theorem State.setPart_walks (s : State) (p : Nat) (x : Partition) : (s.setPart p x).walks = s.walks := rfl
@[simp] theorem State.setPart_buckets (s : State) (p : Nat) (x : Partition) : (s.setPart p x).buckets = s.buckets := rfl
@[simp] theorem State.setPart_links (s : State) (p : Nat) (x : Partition) : (s.setPart p x).links = s.links := rfl
@[simp] theorem State.setPart_channels (s : State) (p : Nat) (x : Partition) : (s.setPart p x).channels = s.channels := rfl
@[simp] theorem State.setPart_deliveries (s : State) (p : Nat) (x : Partition) : (s.setPart p x).deliveries = s.deliveries := rfl
@[simp] theorem State.setPart_parts (s : State) (p : Nat) (x : Partition) : (s.setPart p x).parts = s.parts.put p x := rfl
@[simp] theorem State.setPart_launches (s : State) (p : Nat) (x : Partition) : (s.setPart p x).launches = s.launches := rfl
@[simp] theorem State.setPart_teams (s : State) (p : Nat) (x : Partition) : (s.setPart p x).teams = s.teams := rfl
@[simp] theorem State.setPart_dev (s : State) (p : Nat) (x : Partition) : (s.setPart p x).dev = s.dev := rfl
@[simp] theorem State.setPart_heads (s : State) (p : Nat) (x : Partition) : (s.setPart p x).heads = s.heads := rfl
@[simp] theorem State.setPart_gov (s : State) (p : Nat) (x : Partition) : (s.setPart p x).gov = s.gov := rfl

@[simp] theorem State.setWalks_agenda (s : State) (k : Nat) (l : List Walk) : (s.setWalks k l).agenda = s.agenda := rfl
@[simp] theorem State.setWalks_focus (s : State) (k : Nat) (l : List Walk) : (s.setWalks k l).focus = s.focus := rfl
@[simp] theorem State.setWalks_uid (s : State) (k : Nat) (l : List Walk) : (s.setWalks k l).uid = s.uid := rfl
@[simp] theorem State.setWalks_freeCtr (s : State) (k : Nat) (l : List Walk) : (s.setWalks k l).freeCtr = s.freeCtr := rfl
@[simp] theorem State.setWalks_tick (s : State) (k : Nat) (l : List Walk) : (s.setWalks k l).tick = s.tick := rfl
@[simp] theorem State.setWalks_lanes (s : State) (k : Nat) (l : List Walk) : (s.setWalks k l).lanes = s.lanes := rfl
@[simp] theorem State.setWalks_upsets (s : State) (k : Nat) (l : List Walk) : (s.setWalks k l).upsets = s.upsets := rfl
@[simp] theorem State.setWalks_unchecked (s : State) (k : Nat) (l : List Walk) : (s.setWalks k l).unchecked = s.unchecked := rfl
@[simp] theorem State.setWalks_l1Bad (s : State) (k : Nat) (l : List Walk) : (s.setWalks k l).l1Bad = s.l1Bad := rfl
@[simp] theorem State.setWalks_mem (s : State) (k : Nat) (l : List Walk) : (s.setWalks k l).mem = s.mem := rfl
@[simp] theorem State.setWalks_poison (s : State) (k : Nat) (l : List Walk) : (s.setWalks k l).poison = s.poison := rfl
@[simp] theorem State.setWalks_latent (s : State) (k : Nat) (l : List Walk) : (s.setWalks k l).latent = s.latent := rfl
@[simp] theorem State.setWalks_due (s : State) (k : Nat) (l : List Walk) : (s.setWalks k l).due = s.due := rfl
@[simp] theorem State.setWalks_sealed (s : State) (k : Nat) (l : List Walk) : (s.setWalks k l).sealed = s.sealed := rfl
@[simp] theorem State.setWalks_cores (s : State) (k : Nat) (l : List Walk) : (s.setWalks k l).cores = s.cores := rfl
@[simp] theorem State.setWalks_clusters (s : State) (k : Nat) (l : List Walk) : (s.setWalks k l).clusters = s.clusters := rfl
@[simp] theorem State.setWalks_pairs (s : State) (k : Nat) (l : List Walk) : (s.setWalks k l).pairs = s.pairs := rfl
@[simp] theorem State.setWalks_slices (s : State) (k : Nat) (l : List Walk) : (s.setWalks k l).slices = s.slices := rfl
@[simp] theorem State.setWalks_genLines (s : State) (k : Nat) (l : List Walk) : (s.setWalks k l).genLines = s.genLines := rfl
@[simp] theorem State.setWalks_guests (s : State) (k : Nat) (l : List Walk) : (s.setWalks k l).guests = s.guests := rfl
@[simp] theorem State.setWalks_invals (s : State) (k : Nat) (l : List Walk) : (s.setWalks k l).invals = s.invals := rfl
@[simp] theorem State.setWalks_promoted (s : State) (k : Nat) (l : List Walk) : (s.setWalks k l).promoted = s.promoted := rfl
@[simp] theorem State.setWalks_flashBad (s : State) (k : Nat) (l : List Walk) : (s.setWalks k l).flashBad = s.flashBad := rfl
@[simp] theorem State.setWalks_ncLast (s : State) (k : Nat) (l : List Walk) : (s.setWalks k l).ncLast = s.ncLast := rfl
@[simp] theorem State.setWalks_victims (s : State) (k : Nat) (l : List Walk) : (s.setWalks k l).victims = s.victims := rfl
@[simp] theorem State.setWalks_walks (s : State) (k : Nat) (l : List Walk) : (s.setWalks k l).walks = s.walks.put k l := rfl
@[simp] theorem State.setWalks_buckets (s : State) (k : Nat) (l : List Walk) : (s.setWalks k l).buckets = s.buckets := rfl
@[simp] theorem State.setWalks_links (s : State) (k : Nat) (l : List Walk) : (s.setWalks k l).links = s.links := rfl
@[simp] theorem State.setWalks_channels (s : State) (k : Nat) (l : List Walk) : (s.setWalks k l).channels = s.channels := rfl
@[simp] theorem State.setWalks_deliveries (s : State) (k : Nat) (l : List Walk) : (s.setWalks k l).deliveries = s.deliveries := rfl
@[simp] theorem State.setWalks_parts (s : State) (k : Nat) (l : List Walk) : (s.setWalks k l).parts = s.parts := rfl
@[simp] theorem State.setWalks_launches (s : State) (k : Nat) (l : List Walk) : (s.setWalks k l).launches = s.launches := rfl
@[simp] theorem State.setWalks_teams (s : State) (k : Nat) (l : List Walk) : (s.setWalks k l).teams = s.teams := rfl
@[simp] theorem State.setWalks_dev (s : State) (k : Nat) (l : List Walk) : (s.setWalks k l).dev = s.dev := rfl
@[simp] theorem State.setWalks_heads (s : State) (k : Nat) (l : List Walk) : (s.setWalks k l).heads = s.heads := rfl
@[simp] theorem State.setWalks_gov (s : State) (k : Nat) (l : List Walk) : (s.setWalks k l).gov = s.gov := rfl

@[simp] theorem State.setGenLine_agenda (s : State) (p line : Nat) (g : Option GenLine) : (s.setGenLine p line g).agenda = s.agenda := rfl
@[simp] theorem State.setGenLine_focus (s : State) (p line : Nat) (g : Option GenLine) : (s.setGenLine p line g).focus = s.focus := rfl
@[simp] theorem State.setGenLine_uid (s : State) (p line : Nat) (g : Option GenLine) : (s.setGenLine p line g).uid = s.uid := rfl
@[simp] theorem State.setGenLine_freeCtr (s : State) (p line : Nat) (g : Option GenLine) : (s.setGenLine p line g).freeCtr = s.freeCtr := rfl
@[simp] theorem State.setGenLine_tick (s : State) (p line : Nat) (g : Option GenLine) : (s.setGenLine p line g).tick = s.tick := rfl
@[simp] theorem State.setGenLine_lanes (s : State) (p line : Nat) (g : Option GenLine) : (s.setGenLine p line g).lanes = s.lanes := rfl
@[simp] theorem State.setGenLine_upsets (s : State) (p line : Nat) (g : Option GenLine) : (s.setGenLine p line g).upsets = s.upsets := rfl
@[simp] theorem State.setGenLine_unchecked (s : State) (p line : Nat) (g : Option GenLine) : (s.setGenLine p line g).unchecked = s.unchecked := rfl
@[simp] theorem State.setGenLine_l1Bad (s : State) (p line : Nat) (g : Option GenLine) : (s.setGenLine p line g).l1Bad = s.l1Bad := rfl
@[simp] theorem State.setGenLine_mem (s : State) (p line : Nat) (g : Option GenLine) : (s.setGenLine p line g).mem = s.mem := rfl
@[simp] theorem State.setGenLine_poison (s : State) (p line : Nat) (g : Option GenLine) : (s.setGenLine p line g).poison = s.poison := rfl
@[simp] theorem State.setGenLine_latent (s : State) (p line : Nat) (g : Option GenLine) : (s.setGenLine p line g).latent = s.latent := rfl
@[simp] theorem State.setGenLine_due (s : State) (p line : Nat) (g : Option GenLine) : (s.setGenLine p line g).due = s.due := rfl
@[simp] theorem State.setGenLine_sealed (s : State) (p line : Nat) (g : Option GenLine) : (s.setGenLine p line g).sealed = s.sealed := rfl
@[simp] theorem State.setGenLine_cores (s : State) (p line : Nat) (g : Option GenLine) : (s.setGenLine p line g).cores = s.cores := rfl
@[simp] theorem State.setGenLine_clusters (s : State) (p line : Nat) (g : Option GenLine) : (s.setGenLine p line g).clusters = s.clusters := rfl
@[simp] theorem State.setGenLine_pairs (s : State) (p line : Nat) (g : Option GenLine) : (s.setGenLine p line g).pairs = s.pairs := rfl
@[simp] theorem State.setGenLine_slices (s : State) (p line : Nat) (g : Option GenLine) : (s.setGenLine p line g).slices = s.slices := rfl
@[simp] theorem State.setGenLine_guests (s : State) (p line : Nat) (g : Option GenLine) : (s.setGenLine p line g).guests = s.guests := rfl
@[simp] theorem State.setGenLine_invals (s : State) (p line : Nat) (g : Option GenLine) : (s.setGenLine p line g).invals = s.invals := rfl
@[simp] theorem State.setGenLine_promoted (s : State) (p line : Nat) (g : Option GenLine) : (s.setGenLine p line g).promoted = s.promoted := rfl
@[simp] theorem State.setGenLine_flashBad (s : State) (p line : Nat) (g : Option GenLine) : (s.setGenLine p line g).flashBad = s.flashBad := rfl
@[simp] theorem State.setGenLine_ncLast (s : State) (p line : Nat) (g : Option GenLine) : (s.setGenLine p line g).ncLast = s.ncLast := rfl
@[simp] theorem State.setGenLine_victims (s : State) (p line : Nat) (g : Option GenLine) : (s.setGenLine p line g).victims = s.victims := rfl
@[simp] theorem State.setGenLine_walks (s : State) (p line : Nat) (g : Option GenLine) : (s.setGenLine p line g).walks = s.walks := rfl
@[simp] theorem State.setGenLine_buckets (s : State) (p line : Nat) (g : Option GenLine) : (s.setGenLine p line g).buckets = s.buckets := rfl
@[simp] theorem State.setGenLine_links (s : State) (p line : Nat) (g : Option GenLine) : (s.setGenLine p line g).links = s.links := rfl
@[simp] theorem State.setGenLine_channels (s : State) (p line : Nat) (g : Option GenLine) : (s.setGenLine p line g).channels = s.channels := rfl
@[simp] theorem State.setGenLine_deliveries (s : State) (p line : Nat) (g : Option GenLine) : (s.setGenLine p line g).deliveries = s.deliveries := rfl
@[simp] theorem State.setGenLine_parts (s : State) (p line : Nat) (g : Option GenLine) : (s.setGenLine p line g).parts = s.parts := rfl
@[simp] theorem State.setGenLine_launches (s : State) (p line : Nat) (g : Option GenLine) : (s.setGenLine p line g).launches = s.launches := rfl
@[simp] theorem State.setGenLine_teams (s : State) (p line : Nat) (g : Option GenLine) : (s.setGenLine p line g).teams = s.teams := rfl
@[simp] theorem State.setGenLine_dev (s : State) (p line : Nat) (g : Option GenLine) : (s.setGenLine p line g).dev = s.dev := rfl
@[simp] theorem State.setGenLine_heads (s : State) (p line : Nat) (g : Option GenLine) : (s.setGenLine p line g).heads = s.heads := rfl
@[simp] theorem State.setGenLine_gov (s : State) (p line : Nat) (g : Option GenLine) : (s.setGenLine p line g).gov = s.gov := rfl

@[simp] theorem State.fresh_agenda (s : State) : (s.fresh).agenda = s.agenda := rfl
@[simp] theorem State.fresh_focus (s : State) : (s.fresh).focus = s.focus := rfl
@[simp] theorem State.fresh_uid (s : State) : (s.fresh).uid = s.uid + 1 := rfl
@[simp] theorem State.fresh_freeCtr (s : State) : (s.fresh).freeCtr = s.freeCtr := rfl
@[simp] theorem State.fresh_tick (s : State) : (s.fresh).tick = s.tick := rfl
@[simp] theorem State.fresh_lanes (s : State) : (s.fresh).lanes = s.lanes := rfl
@[simp] theorem State.fresh_upsets (s : State) : (s.fresh).upsets = s.upsets := rfl
@[simp] theorem State.fresh_unchecked (s : State) : (s.fresh).unchecked = s.unchecked := rfl
@[simp] theorem State.fresh_l1Bad (s : State) : (s.fresh).l1Bad = s.l1Bad := rfl
@[simp] theorem State.fresh_mem (s : State) : (s.fresh).mem = s.mem := rfl
@[simp] theorem State.fresh_poison (s : State) : (s.fresh).poison = s.poison := rfl
@[simp] theorem State.fresh_latent (s : State) : (s.fresh).latent = s.latent := rfl
@[simp] theorem State.fresh_due (s : State) : (s.fresh).due = s.due := rfl
@[simp] theorem State.fresh_sealed (s : State) : (s.fresh).sealed = s.sealed := rfl
@[simp] theorem State.fresh_cores (s : State) : (s.fresh).cores = s.cores := rfl
@[simp] theorem State.fresh_clusters (s : State) : (s.fresh).clusters = s.clusters := rfl
@[simp] theorem State.fresh_pairs (s : State) : (s.fresh).pairs = s.pairs := rfl
@[simp] theorem State.fresh_slices (s : State) : (s.fresh).slices = s.slices := rfl
@[simp] theorem State.fresh_genLines (s : State) : (s.fresh).genLines = s.genLines := rfl
@[simp] theorem State.fresh_guests (s : State) : (s.fresh).guests = s.guests := rfl
@[simp] theorem State.fresh_invals (s : State) : (s.fresh).invals = s.invals := rfl
@[simp] theorem State.fresh_promoted (s : State) : (s.fresh).promoted = s.promoted := rfl
@[simp] theorem State.fresh_flashBad (s : State) : (s.fresh).flashBad = s.flashBad := rfl
@[simp] theorem State.fresh_ncLast (s : State) : (s.fresh).ncLast = s.ncLast := rfl
@[simp] theorem State.fresh_victims (s : State) : (s.fresh).victims = s.victims := rfl
@[simp] theorem State.fresh_walks (s : State) : (s.fresh).walks = s.walks := rfl
@[simp] theorem State.fresh_buckets (s : State) : (s.fresh).buckets = s.buckets := rfl
@[simp] theorem State.fresh_links (s : State) : (s.fresh).links = s.links := rfl
@[simp] theorem State.fresh_channels (s : State) : (s.fresh).channels = s.channels := rfl
@[simp] theorem State.fresh_deliveries (s : State) : (s.fresh).deliveries = s.deliveries := rfl
@[simp] theorem State.fresh_parts (s : State) : (s.fresh).parts = s.parts := rfl
@[simp] theorem State.fresh_launches (s : State) : (s.fresh).launches = s.launches := rfl
@[simp] theorem State.fresh_teams (s : State) : (s.fresh).teams = s.teams := rfl
@[simp] theorem State.fresh_dev (s : State) : (s.fresh).dev = s.dev := rfl
@[simp] theorem State.fresh_heads (s : State) : (s.fresh).heads = s.heads := rfl
@[simp] theorem State.fresh_gov (s : State) : (s.fresh).gov = s.gov := rfl

@[simp] theorem State.draw_agenda (s : State) : (s.draw).agenda = s.agenda := rfl
@[simp] theorem State.draw_focus (s : State) : (s.draw).focus = s.focus := rfl
@[simp] theorem State.draw_uid (s : State) : (s.draw).uid = s.uid := rfl
@[simp] theorem State.draw_freeCtr (s : State) : (s.draw).freeCtr = s.freeCtr + 1 := rfl
@[simp] theorem State.draw_tick (s : State) : (s.draw).tick = s.tick := rfl
@[simp] theorem State.draw_lanes (s : State) : (s.draw).lanes = s.lanes := rfl
@[simp] theorem State.draw_upsets (s : State) : (s.draw).upsets = s.upsets := rfl
@[simp] theorem State.draw_unchecked (s : State) : (s.draw).unchecked = s.unchecked := rfl
@[simp] theorem State.draw_l1Bad (s : State) : (s.draw).l1Bad = s.l1Bad := rfl
@[simp] theorem State.draw_mem (s : State) : (s.draw).mem = s.mem := rfl
@[simp] theorem State.draw_poison (s : State) : (s.draw).poison = s.poison := rfl
@[simp] theorem State.draw_latent (s : State) : (s.draw).latent = s.latent := rfl
@[simp] theorem State.draw_due (s : State) : (s.draw).due = s.due := rfl
@[simp] theorem State.draw_sealed (s : State) : (s.draw).sealed = s.sealed := rfl
@[simp] theorem State.draw_cores (s : State) : (s.draw).cores = s.cores := rfl
@[simp] theorem State.draw_clusters (s : State) : (s.draw).clusters = s.clusters := rfl
@[simp] theorem State.draw_pairs (s : State) : (s.draw).pairs = s.pairs := rfl
@[simp] theorem State.draw_slices (s : State) : (s.draw).slices = s.slices := rfl
@[simp] theorem State.draw_genLines (s : State) : (s.draw).genLines = s.genLines := rfl
@[simp] theorem State.draw_guests (s : State) : (s.draw).guests = s.guests := rfl
@[simp] theorem State.draw_invals (s : State) : (s.draw).invals = s.invals := rfl
@[simp] theorem State.draw_promoted (s : State) : (s.draw).promoted = s.promoted := rfl
@[simp] theorem State.draw_flashBad (s : State) : (s.draw).flashBad = s.flashBad := rfl
@[simp] theorem State.draw_ncLast (s : State) : (s.draw).ncLast = s.ncLast := rfl
@[simp] theorem State.draw_victims (s : State) : (s.draw).victims = s.victims := rfl
@[simp] theorem State.draw_walks (s : State) : (s.draw).walks = s.walks := rfl
@[simp] theorem State.draw_buckets (s : State) : (s.draw).buckets = s.buckets := rfl
@[simp] theorem State.draw_links (s : State) : (s.draw).links = s.links := rfl
@[simp] theorem State.draw_channels (s : State) : (s.draw).channels = s.channels := rfl
@[simp] theorem State.draw_deliveries (s : State) : (s.draw).deliveries = s.deliveries := rfl
@[simp] theorem State.draw_parts (s : State) : (s.draw).parts = s.parts := rfl
@[simp] theorem State.draw_launches (s : State) : (s.draw).launches = s.launches := rfl
@[simp] theorem State.draw_teams (s : State) : (s.draw).teams = s.teams := rfl
@[simp] theorem State.draw_dev (s : State) : (s.draw).dev = s.dev := rfl
@[simp] theorem State.draw_heads (s : State) : (s.draw).heads = s.heads := rfl
@[simp] theorem State.draw_gov (s : State) : (s.draw).gov = s.gov := rfl

@[simp] theorem State.setWave_agenda (s : State) (core slot : Nat) (w : Wave) : (s.setWave core slot w).agenda = s.agenda := rfl
@[simp] theorem State.setWave_focus (s : State) (core slot : Nat) (w : Wave) : (s.setWave core slot w).focus = s.focus := rfl
@[simp] theorem State.setWave_uid (s : State) (core slot : Nat) (w : Wave) : (s.setWave core slot w).uid = s.uid := rfl
@[simp] theorem State.setWave_freeCtr (s : State) (core slot : Nat) (w : Wave) : (s.setWave core slot w).freeCtr = s.freeCtr := rfl
@[simp] theorem State.setWave_tick (s : State) (core slot : Nat) (w : Wave) : (s.setWave core slot w).tick = s.tick := rfl
@[simp] theorem State.setWave_lanes (s : State) (core slot : Nat) (w : Wave) : (s.setWave core slot w).lanes = s.lanes := rfl
@[simp] theorem State.setWave_upsets (s : State) (core slot : Nat) (w : Wave) : (s.setWave core slot w).upsets = s.upsets := rfl
@[simp] theorem State.setWave_unchecked (s : State) (core slot : Nat) (w : Wave) : (s.setWave core slot w).unchecked = s.unchecked := rfl
@[simp] theorem State.setWave_l1Bad (s : State) (core slot : Nat) (w : Wave) : (s.setWave core slot w).l1Bad = s.l1Bad := rfl
@[simp] theorem State.setWave_mem (s : State) (core slot : Nat) (w : Wave) : (s.setWave core slot w).mem = s.mem := rfl
@[simp] theorem State.setWave_poison (s : State) (core slot : Nat) (w : Wave) : (s.setWave core slot w).poison = s.poison := rfl
@[simp] theorem State.setWave_latent (s : State) (core slot : Nat) (w : Wave) : (s.setWave core slot w).latent = s.latent := rfl
@[simp] theorem State.setWave_due (s : State) (core slot : Nat) (w : Wave) : (s.setWave core slot w).due = s.due := rfl
@[simp] theorem State.setWave_sealed (s : State) (core slot : Nat) (w : Wave) : (s.setWave core slot w).sealed = s.sealed := rfl
@[simp] theorem State.setWave_clusters (s : State) (core slot : Nat) (w : Wave) : (s.setWave core slot w).clusters = s.clusters := rfl
@[simp] theorem State.setWave_pairs (s : State) (core slot : Nat) (w : Wave) : (s.setWave core slot w).pairs = s.pairs := rfl
@[simp] theorem State.setWave_slices (s : State) (core slot : Nat) (w : Wave) : (s.setWave core slot w).slices = s.slices := rfl
@[simp] theorem State.setWave_genLines (s : State) (core slot : Nat) (w : Wave) : (s.setWave core slot w).genLines = s.genLines := rfl
@[simp] theorem State.setWave_guests (s : State) (core slot : Nat) (w : Wave) : (s.setWave core slot w).guests = s.guests := rfl
@[simp] theorem State.setWave_invals (s : State) (core slot : Nat) (w : Wave) : (s.setWave core slot w).invals = s.invals := rfl
@[simp] theorem State.setWave_promoted (s : State) (core slot : Nat) (w : Wave) : (s.setWave core slot w).promoted = s.promoted := rfl
@[simp] theorem State.setWave_flashBad (s : State) (core slot : Nat) (w : Wave) : (s.setWave core slot w).flashBad = s.flashBad := rfl
@[simp] theorem State.setWave_ncLast (s : State) (core slot : Nat) (w : Wave) : (s.setWave core slot w).ncLast = s.ncLast := rfl
@[simp] theorem State.setWave_victims (s : State) (core slot : Nat) (w : Wave) : (s.setWave core slot w).victims = s.victims := rfl
@[simp] theorem State.setWave_walks (s : State) (core slot : Nat) (w : Wave) : (s.setWave core slot w).walks = s.walks := rfl
@[simp] theorem State.setWave_buckets (s : State) (core slot : Nat) (w : Wave) : (s.setWave core slot w).buckets = s.buckets := rfl
@[simp] theorem State.setWave_links (s : State) (core slot : Nat) (w : Wave) : (s.setWave core slot w).links = s.links := rfl
@[simp] theorem State.setWave_channels (s : State) (core slot : Nat) (w : Wave) : (s.setWave core slot w).channels = s.channels := rfl
@[simp] theorem State.setWave_deliveries (s : State) (core slot : Nat) (w : Wave) : (s.setWave core slot w).deliveries = s.deliveries := rfl
@[simp] theorem State.setWave_parts (s : State) (core slot : Nat) (w : Wave) : (s.setWave core slot w).parts = s.parts := rfl
@[simp] theorem State.setWave_launches (s : State) (core slot : Nat) (w : Wave) : (s.setWave core slot w).launches = s.launches := rfl
@[simp] theorem State.setWave_teams (s : State) (core slot : Nat) (w : Wave) : (s.setWave core slot w).teams = s.teams := rfl
@[simp] theorem State.setWave_dev (s : State) (core slot : Nat) (w : Wave) : (s.setWave core slot w).dev = s.dev := rfl
@[simp] theorem State.setWave_heads (s : State) (core slot : Nat) (w : Wave) : (s.setWave core slot w).heads = s.heads := rfl
@[simp] theorem State.setWave_gov (s : State) (core slot : Nat) (w : Wave) : (s.setWave core slot w).gov = s.gov := rfl

/-! ### Units read back -/

@[simp] theorem State.core_setCore_same (s : State) (c : Nat) (x : Core) : (s.setCore c x).core c = x :=
  Tab.get_put_same _ _ _ _

theorem State.core_setCore_ne (s : State) {c d : Nat} (x : Core) (h : d ≠ c) : (s.setCore c x).core d = s.core d :=
  Tab.get_put_ne _ _ _ h

@[simp] theorem State.part_setPart_same (s : State) (p : Nat) (x : Partition) : (s.setPart p x).part p = x :=
  Tab.get_put_same _ _ _ _

@[simp] theorem State.core_fresh (s : State) (c : Nat) : s.fresh.core c = s.core c := rfl
@[simp] theorem State.core_draw (s : State) (c : Nat) : s.draw.core c = s.core c := rfl
@[simp] theorem State.part_setWave (s : State) (core slot p : Nat) (w : Wave) : (s.setWave core slot w).part p = s.part p := rfl
@[simp] theorem State.part_setCore (s : State) (c p : Nat) (x : Core) : (s.setCore c x).part p = s.part p := rfl

/-- A wave that was written reads as written. -/
@[simp] theorem State.wave?_setWave_same (s : State) (core slot : Nat) (w : Wave) : (s.setWave core slot w).wave? core slot = some w := by
  simp [State.wave?, State.setWave, Tab.find_put_same]

/-- Writing a wave leaves every other wave of its core. -/
theorem State.wave?_setWave_ne (s : State) (core : Nat) {slot k : Nat} (w : Wave) (h : k ≠ slot) :
    (s.setWave core slot w).wave? core k = s.wave? core k := by
  simp [State.wave?, State.setWave, Tab.find_put_ne _ _ h]

/-- Writing a wave leaves the waves of other cores. -/
theorem State.wave?_setWave_core (s : State) {core d : Nat} (slot k : Nat) (w : Wave) (h : d ≠ core) :
    (s.setWave core slot w).wave? d k = s.wave? d k := by
  simp [State.wave?, State.setWave, State.core_setCore_ne _ _ h]

/-- What writing a wave leaves of its core. -/
theorem State.core_setWave (s : State) (core slot : Nat) (w : Wave) :
    (s.setWave core slot w).core core = { s.core core with waves := (s.core core).waves.put slot w } := by
  simp [State.setWave]

@[simp] theorem Tab.put_put {α : Type} (m : Tab α) (k : Nat) (x y : α) : Tab.put (Tab.put m k x) k y = Tab.put m k y := by
  induction m with
  | nil => simp [Tab.put]
  | cons e m ih =>
    obtain ⟨a, z⟩ := e
    simp only [Tab.put]
    split
    · simp [Tab.put]
    · split
      · simp [Tab.put]
      · rename_i h1 h2
        simp [Tab.put, h1, h2, ih]

/-- The last of two writes of a wave stands. -/
@[simp] theorem State.setWave_setWave (s : State) (core slot : Nat) (w v : Wave) :
    (s.setWave core slot w).setWave core slot v = s.setWave core slot v := by
  simp [State.setWave, State.setCore, State.core]

@[simp] theorem State.fresh_setWave (s : State) (core slot : Nat) (w : Wave) : (s.setWave core slot w).fresh = s.fresh.setWave core slot w := rfl

end Sys2Proof.Machine
end

