-- ==== Sys2Proof/Laws/Wave.lean ====
section
/-!
SUPPORT. Moving past a word: what `settle` and `nextWord` can do. Reconvergence and the overflow slot move fragments between
places and fuse them; no other field of the wave changes, and a wave that has a fragment keeps one.
-/
namespace Sys2Proof.Machine

/-- Two waves that differ at most in where their fragments stand, in the instruction buffer and in whether a turn has ended. -/
def Wave.SameButFragments (w v : Wave) : Prop :=
  v = { w with entries := v.entries, ovf := v.ovf, stack := v.stack, cur := v.cur, ibuf := v.ibuf, ended := v.ended }

theorem Wave.SameButFragments.refl (w : Wave) : w.SameButFragments w := rfl

theorem Wave.SameButFragments.trans {u v w : Wave} (h1 : u.SameButFragments v) (h2 : v.SameButFragments w) : u.SameButFragments w := by
  unfold Wave.SameButFragments at *
  rw [h2, h1]

theorem Wave.mapFragments_same (w : Wave) (g : Fragment → Fragment) : w.SameButFragments (w.mapFragments g) := rfl
theorem Wave.setFrag_same (w : Wave) (i : Nat) (f : Option Fragment) : w.SameButFragments (w.setFrag i f) := rfl
theorem Wave.modCur_same (w : Wave) (g : Fragment → Fragment) : w.SameButFragments (w.modCur g) := rfl

theorem Wave.placeFused_same (w : Wave) (d : Nat) (f : Fragment) : w.SameButFragments (w.placeFused d f) := by
  unfold Wave.placeFused
  split <;> rfl

theorem Wave.fuseTop_same (w : Wave) (n : Nat) : w.SameButFragments (w.fuseTop n) := by
  unfold Wave.fuseTop
  dsimp only
  split
  · rfl
  · exact w.placeFused_same _ _

theorem Wave.reconverge_same (n k : Nat) (w : Wave) : w.SameButFragments (Wave.reconverge n k w) := by
  induction k generalizing w with
  | zero => exact w.mapFragments_same _
  | succ k ih =>
    unfold Wave.reconverge
    dsimp only
    split
    · exact w.mapFragments_same _
    · split
      · exact (w.mapFragments_same _).trans ((Wave.fuseTop_same _ n).trans (ih _))
      · exact w.mapFragments_same _

theorem Wave.serve_same (n k : Nat) (w : Wave) : w.SameButFragments (Wave.serve n k w) := by
  induction k generalizing w with
  | zero => rfl
  | succ k ih =>
    unfold Wave.serve
    split
    · exact Wave.SameButFragments.trans (v := _) (by rfl) (ih _)
    · rfl

theorem Wave.yieldEntries_same (w old : Wave) (n : Nat) : w.SameButFragments (w.yieldEntries old n) := by
  unfold Wave.yieldEntries
  generalize List.range 8 = l
  induction l generalizing w with
  | nil => rfl
  | cons i l ih =>
    rw [List.foldl_cons]
    refine Wave.SameButFragments.trans ?_ (ih _)
    split
    · split <;> rfl
    · rfl

theorem Wave.mergeOvf_same (w : Wave) : w.SameButFragments w.mergeOvf := by
  unfold Wave.mergeOvf
  split <;> rfl

/-- Settling changes no field of a wave but the places of its fragments, the buffer and the end of a turn. -/
theorem Wave.settle_same (w : Wave) (n : Nat) : w.SameButFragments (w.settle n) := by
  have h := ((((w.reconverge_same n 9).trans (Wave.mergeOvf_same _)).trans (Wave.serve_same n 8 _)).trans
    (Wave.yieldEntries_same _ w n)).trans (Wave.mergeOvf_same _)
  unfold Wave.settle
  dsimp only
  generalize Wave.mergeOvf (Wave.yieldEntries _ _ _) = x at h ⊢
  exact h.trans (v := x) rfl

/-! ### A wave keeps a fragment -/

theorem Wave.frags_ne_nil_iff (w : Wave) : w.frags ≠ [] ↔ (∃ f, some f ∈ w.entries) ∨ w.ovf ≠ [] := by
  unfold Wave.frags
  rw [ne_eq, List.append_eq_nil_iff, not_and_or]
  refine or_congr ?_ Iff.rfl
  rw [List.filterMap_eq_nil_iff]
  push Not
  constructor
  · rintro ⟨a, ha, h⟩
    cases a with
    | none => exact absurd rfl h
    | some f => exact ⟨f, ha⟩
  · rintro ⟨f, hf⟩
    exact ⟨some f, hf, by simp⟩

theorem Wave.frag?_mem {w : Wave} {i : Nat} {f : Fragment} (h : w.frag? i = some f) : i < w.entries.length ∧ some f ∈ w.entries := by
  unfold Wave.frag? at h
  by_cases hi : i < w.entries.length
  · refine ⟨hi, ?_⟩
    rw [List.getD_eq_getElem _ _ hi] at h
    exact h ▸ List.getElem_mem hi
  · rw [List.getD_eq_default _ _ (by omega)] at h
    exact absurd h (by simp)

theorem Wave.setFrag_ne {w : Wave} {i : Nat} (f : Fragment) (h : i < w.entries.length) : (w.setFrag i (some f)).frags ≠ [] := by
  rw [Wave.frags_ne_nil_iff]
  exact .inl ⟨f, List.mem_iff_getElem.mpr ⟨i, by simpa [Wave.setFrag] using h, by simp [Wave.setFrag]⟩⟩

theorem Wave.modCur_ne {w : Wave} {f : Fragment} (g : Fragment → Fragment) (h : w.frag? w.cur = some f) : (w.modCur g).frags ≠ [] := by
  unfold Wave.modCur
  rw [h]
  exact Wave.setFrag_ne _ (Wave.frag?_mem h).1

theorem Wave.mapFragments_ne {w : Wave} (g : Fragment → Fragment) (h : w.frags ≠ []) : (w.mapFragments g).frags ≠ [] := by
  rw [Wave.frags_ne_nil_iff] at h ⊢
  rcases h with ⟨f, hf⟩ | h
  · exact .inl ⟨g f, List.mem_map.mpr ⟨some f, hf, rfl⟩⟩
  · exact .inr (by simpa [Wave.mapFragments] using h)

theorem Wave.placeFused_ne (w : Wave) (d : Nat) (f : Fragment) : (w.placeFused d f).frags ≠ [] := by
  unfold Wave.placeFused
  split
  · rename_i i hi
    have hi' := List.find?_some hi
    unfold Wave.holds at hi'
    split at hi'
    · rename_i g hg
      exact Wave.setFrag_ne (w := w.dropDepth d) f (by simpa [Wave.dropDepth] using (Wave.frag?_mem hg).1)
    · exact absurd hi' (by simp)
  · rw [Wave.frags_ne_nil_iff]
    exact .inr (by simp)

theorem Wave.fuseTop_ne {w : Wave} (n : Nat) (h : w.frags ≠ []) : (w.fuseTop n).frags ≠ [] := by
  unfold Wave.fuseTop
  dsimp only
  split
  · exact h
  · exact Wave.placeFused_ne _ _ _

theorem Wave.reconverge_ne (n k : Nat) {w : Wave} (h : w.frags ≠ []) : (Wave.reconverge n k w).frags ≠ [] := by
  induction k generalizing w with
  | zero => exact Wave.mapFragments_ne _ h
  | succ k ih =>
    unfold Wave.reconverge
    dsimp only
    split
    · exact Wave.mapFragments_ne _ h
    · split
      · exact ih (Wave.fuseTop_ne n (Wave.mapFragments_ne _ h))
      · exact Wave.mapFragments_ne _ h

theorem Wave.serve_ne (n k : Nat) {w : Wave} (h : w.frags ≠ []) : (Wave.serve n k w).frags ≠ [] := by
  induction k generalizing w with
  | zero => exact h
  | succ k ih =>
    unfold Wave.serve
    split
    · rename_i i _ hi
      refine ih (Wave.setFrag_ne (w := { w with ovf := _ }) _ ?_)
      have := List.mem_of_find?_eq_some hi
      simpa using this
    · exact h

theorem Wave.yieldEntries_ne (old : Wave) (n : Nat) {w : Wave} (h : w.frags ≠ []) : (w.yieldEntries old n).frags ≠ [] := by
  unfold Wave.yieldEntries
  generalize List.range 8 = l
  induction l generalizing w with
  | nil => exact h
  | cons i l ih =>
    rw [List.foldl_cons]
    refine ih ?_
    split
    · rename_i k g _ hi
      split
      · exact Wave.setFrag_ne (w := { w with ovf := _ }) _ (Wave.frag?_mem hi).1
      · exact h
    · exact h

theorem addOverflow_ne (l : List Fragment) (f : Fragment) : addOverflow l f ≠ [] := by
  unfold addOverflow
  split <;> simp
  rename_i h
  rintro rfl
  simp at h

theorem foldl_addOverflow_ne {a l : List Fragment} (h : a ≠ [] ∨ l ≠ []) : l.foldl addOverflow a ≠ [] := by
  induction l generalizing a with
  | nil => exact h.elim id fun h => absurd rfl h
  | cons f l ih => exact ih (.inl (addOverflow_ne a f))

theorem Wave.mergeOvf_ne {w : Wave} (h : w.frags ≠ []) : w.mergeOvf.frags ≠ [] := by
  unfold Wave.mergeOvf
  split
  · exact h
  · rename_i hl
    rw [Wave.frags_ne_nil_iff]
    refine .inr (foldl_addOverflow_ne (.inr ?_))
    rintro h0
    rw [h0] at hl
    exact hl (Nat.zero_le 1)

/-- A wave with a fragment keeps one when it settles. -/
theorem Wave.settle_ne {w : Wave} (n : Nat) (h : w.frags ≠ []) : (w.settle n).frags ≠ [] := by
  have h1 := Wave.mergeOvf_ne (Wave.yieldEntries_ne w n (Wave.serve_ne n 8 (Wave.mergeOvf_ne (Wave.reconverge_ne n 9 h))))
  unfold Wave.settle
  dsimp only
  generalize Wave.mergeOvf (Wave.yieldEntries _ _ _) = x at h1 ⊢
  exact h1

/-! ### Moving past a word -/

/-- Settling a wave that has a fragment. -/
theorem State.settle_eq {s : State} {core slot : Nat} {w : Wave} (hw : s.wave? core slot = some w) (h : w.frags ≠ []) :
    s.settle core slot = s.fresh.setWave core slot (w.settle s.uid) := by
  have hn := Wave.settle_ne s.uid h
  unfold State.settle
  rw [hw]
  simp [hn]

/-- All that `nextWord` does: the issuing fragment advances and the wave settles. -/
theorem State.nextWord_eq {s : State} {core slot : Nat} {w : Wave} {f : Fragment} (hw : s.wave? core slot = some w)
    (hf : w.frag? w.cur = some f) :
    s.nextWord core slot = s.fresh.setWave core slot ((w.modCur Fragment.advance).settle s.uid) := by
  unfold State.nextWord State.modWave
  rw [hw]
  rw [State.settle_eq (State.wave?_setWave_same _ _ _ _) (Wave.modCur_ne _ hf)]
  simp

/-- `nextWord` changes no memory, no register and no unit but the places of the wave's fragments and the stamp counter. -/
theorem State.nextWord_wave {s : State} {core slot : Nat} {w : Wave} {f : Fragment} (hw : s.wave? core slot = some w)
    (hf : w.frag? w.cur = some f) :
    ∃ v, w.SameButFragments v ∧ s.nextWord core slot = s.fresh.setWave core slot v :=
  ⟨_, (w.modCur_same _).trans (Wave.settle_same _ _), State.nextWord_eq hw hf⟩

end Sys2Proof.Machine
end

