-- ==== Sys2Proof/Laws/Lane.lean ====
section
/-!
SUPPORT. The instructions that compute thread by thread: one lemma says all that such a shape does.
-/
namespace Sys2Proof.Machine

/-! ### Masks -/

theorem Mask.foldr_testBit (f : Nat → Bool) (n : Nat) : ∀ j k, (((List.range' j n).foldr (fun t acc => 2 * acc + (f t).toNat) 0).testBit k) =
    (decide (k < n) && f (j + k)) := by
  induction n with
  | zero => intro j k; simp
  | succ n ih =>
    intro j k
    rw [List.range'_succ, List.foldr_cons]
    cases k with
    | zero => cases f j <;> simp [Nat.add_mod]
    | succ k =>
      have hb : (f j).toNat < 2 := by cases f j <;> decide
      rw [Nat.testBit_succ, show ∀ x, (2 * x + (f j).toNat) / 2 = x from fun x => by omega, ih]
      rw [show j + 1 + k = j + (k + 1) by omega]
      simp

/-- The mask of the threads that satisfy a test holds exactly those. -/
@[simp] theorem Mask.getLsbD_ofPred (f : Nat → Bool) (k : Nat) : (Mask.ofPred f).getLsbD k = (decide (k < 128) && f k) := by
  unfold Mask.ofPred
  rw [BitVec.getLsbD_ofNat, List.range_eq_range', Mask.foldr_testBit]
  simp

theorem Mask.lt_of_getLsbD {m : Mask} {k : Nat} (h : m.getLsbD k = true) : k < 128 := by
  by_contra hk
  rw [BitVec.getLsbD_of_ge _ _ (by omega)] at h
  exact absurd h (by simp)

theorem Mask.mem_threads {m : Mask} {k : Nat} : k ∈ m.threads ↔ m.getLsbD k = true := by
  simp only [Mask.threads, List.mem_filter, List.mem_range]
  exact ⟨fun h => h.2, fun h => ⟨Mask.lt_of_getLsbD h, h⟩⟩

theorem lanes_getD {act : Mask} (f : Nat → LaneOut) {k : Nat} (h : act.getLsbD k = true) : (lanes act f).getD k {} = f k := by
  have hk := Mask.lt_of_getLsbD h
  simp [lanes, List.getD_eq_getElem?_getD, hk, h]

/-! ### Registers -/

@[simp] theorem Wave.v_setV_same (w : Wave) (n : Nat) (r : VReg) : (w.setV n r).v n = r := Tab.get_put_same _ _ _ _
theorem Wave.v_setV_ne (w : Wave) {n m : Nat} (r : VReg) (h : m ≠ n) : (w.setV n r).v m = w.v m := Tab.get_put_ne _ _ _ h
@[simp] theorem Wave.s_setS_same (w : Wave) (n : Nat) (r : SReg) : (w.setS n r).s n = r := Tab.get_put_same _ _ _ _
theorem Wave.s_setS_ne (w : Wave) {n m : Nat} (r : SReg) (h : m ≠ n) : (w.setS n r).s m = w.s m := Tab.get_put_ne _ _ _ h
theorem Wave.p_setP_same (w : Wave) {n : Nat} (r : PReg) (h : n ≠ 7) : (w.setP n r).p n = r := by
  simp [Wave.setP, Wave.p, h]
theorem Wave.p_setP_ne (w : Wave) {n m : Nat} (r : PReg) (h : m ≠ n) : (w.setP n r).p m = w.p m := by
  unfold Wave.setP Wave.p
  split
  · rfl
  · split
    · rfl
    · exact Tab.get_put_ne _ _ _ h

/-- p7 reads as all true whatever is written (R39). -/
@[simp] theorem Wave.p_seven (w : Wave) : w.p 7 = ⟨BitVec.allOnes 128, 0, .fault⟩ := rfl

@[simp] theorem Wave.setV_vregs (w : Wave) (n : Nat) (r : VReg) : (w.setV n r).vregs = w.vregs.put n r := rfl
@[simp] theorem Wave.v_setP (w : Wave) (n m : Nat) (r : PReg) : (w.setP n r).v m = w.v m := by unfold Wave.setP; split <;> rfl
@[simp] theorem Wave.s_setP (w : Wave) (n m : Nat) (r : PReg) : (w.setP n r).s m = w.s m := by unfold Wave.setP; split <;> rfl
@[simp] theorem Wave.p_setV (w : Wave) (n m : Nat) (r : VReg) : (w.setV n r).p m = w.p m := rfl
@[simp] theorem Wave.p_setS (w : Wave) (n m : Nat) (r : SReg) : (w.setS n r).p m = w.p m := rfl

theorem Wave.setP_rest (w : Wave) (n : Nat) (r : PReg) : w.setP n r = { w with preds := (w.setP n r).preds } := by
  unfold Wave.setP; split <;> rfl

/-- A thread of the mask holds its new value. -/
theorem VReg.write_on (r : VReg) {act : Mask} (val : Nat → Word) (poison : Mask) (org : Origin) (tag : BitVec 5) {k : Nat}
    (h : act.getLsbD k = true) : (r.write act val poison org tag).vals.getD k 0 = val k := by
  have hk := Mask.lt_of_getLsbD h
  simp [VReg.write, List.getD_eq_getElem?_getD, hk, h]

/-- A thread outside the mask keeps its value. -/
theorem VReg.write_off (r : VReg) {act : Mask} (val : Nat → Word) (poison : Mask) (org : Origin) (tag : BitVec 5) {k : Nat}
    (hk : k < 128) (h : act.getLsbD k = false) : (r.write act val poison org tag).vals.getD k 0 = r.vals.getD k 0 := by
  have h' : act[k] = false := by rw [BitVec.getLsbD_eq_getElem hk] at h; exact h
  simp [VReg.write, List.getD_eq_getElem?_getD, hk, h']

theorem VReg.write_poison (r : VReg) {act : Mask} (val : Nat → Word) (poison : Mask) (org : Origin) (tag : BitVec 5) {k : Nat}
    (h : act.getLsbD k = true) : (r.write act val poison org tag).poison.getLsbD k = poison.getLsbD k := by
  simp [VReg.write, h]

theorem PReg.write_on (r : PReg) {act : Mask} (bits poison : Mask) (org : Origin) {k : Nat} (h : act.getLsbD k = true) :
    (r.write act bits poison org).bits.getLsbD k = bits.getLsbD k := by
  simp [PReg.write, h]

/-! ### The issuing fragment -/

/-- What the issuing fragment is. -/
theorem State.ctx?_eq {s : State} {c : Ctx} (h : s.ctx? = some c) :
    c.s = s ∧ s.focus = some ⟨c.core, c.slot⟩ ∧ s.wave? c.core c.slot = some c.w ∧ c.w.frag? c.w.cur = some c.f := by
  unfold State.ctx? at h
  split at h
  · exact absurd h (by simp)
  · rename_i r hr
    split at h
    · exact absurd h (by simp)
    · rename_i w hw
      split at h
      · exact absurd h (by simp)
      · rename_i f hf
        cases h
        exact ⟨rfl, hr, hw, hf⟩

theorem withCtx_eq {s : State} {c : Ctx} (h : s.ctx? = some c) (k : Ctx → State) : withCtx s k = .next (k c) := by
  simp [withCtx, h]

theorem State.upsets_eta {s : State} (h : s.upsets = []) : ({ s with upsets := [] } : State) = s := by
  cases s; simp_all

theorem Ctx.vector_runs {c : Ctx} {g : Guard} {us : List Use} {act : Mask} (h : c.RunsIn g us act) (k : Mask → State) :
    c.vector g us k = k act := by
  unfold Ctx.vector
  simp only [h.active, h.any, if_false, h.passes]

theorem Ctx.uniform_runs {c : Ctx} {g : Guard} {us : List Use} (h : c.RunsOnce g us) (k : State) : c.uniform g us k = k := by
  unfold Ctx.uniform Ctx.uniformOn
  simp only [h.guarded, if_false, h.passes, h.holds, if_true]

/-- Without an upset every issue of a checked launch agrees (R35). -/
theorem Ctx.voted_none {c : Ctx} (h : c.s.upsets = []) (act : Mask) (eff : Flip) (k : State → (Nat → Flip) → State) :
    c.voted act eff k = k c.s (fun _ => 0) := by
  unfold Ctx.voted
  simp only [State.vote, h, List.isEmpty_nil, Bool.true_or, if_true, State.upsets_eta h]

/-- A result that nothing flips stands. -/
theorem Result.flipped_none (r : Result) (act : Mask) : r.flipped act (fun _ => 0) = r := by
  unfold Result.flipped
  exact if_pos (by simp)

/-- The end of a vector instruction that is not long-latency. -/
theorem Ctx.commit_short {c : Ctx} (h : c.s.upsets = []) (dst : Opnd) (act : Mask) (r : Result) (hl : r.long = false) :
    c.commit dst act r =
      c.next ((c.s.setWave c.core c.slot
        (match r.pout with
        | some n => (c.w.putLanes dst r act fun t => (r.outs.getD t {}).val).setP n
            (((c.w.putLanes dst r act fun t => (r.outs.getD t {}).val).p n).write act
              (Mask.ofPred fun t => act.getLsbD t && (r.outs.getD t {}).p) r.poison r.origin)
        | none => c.w.putLanes dst r act fun t => (r.outs.getD t {}).val)).countAll c.core c.slot c.w.uid
        (r.evs.getD (tally (r.outs.map (·.exc)))) c.f.pc c.w.word) := by
  unfold Ctx.commit
  rw [Ctx.voted_none h, Result.flipped_none]
  unfold Ctx.writeResult
  simp only [hl, Bool.false_eq_true, if_false] <;> cases r.pout <;> rfl

theorem Wave.setP_pred (w : Wave) {n p : Nat} (r : PReg) (h : n ≠ p) : (w.setP n r).p p = w.p p := Wave.p_setP_ne w r h.symm

/-- What the results of a vector instruction leave in the vector registers. -/
theorem Wave.putLanes_rest (w : Wave) (dst : Opnd) (r : Result) (act : Mask) (val : Nat → Nat) (hs : r.scalar = none) :
    w.putLanes dst r act val = { w with vregs := (w.putLanes dst r act val).vregs } := by
  unfold Wave.putLanes
  split
  · dsimp only; split <;> rfl
  · simp [hs]
  · rfl

/-- The shared end of the vector form: the wave is as the shape leaves it. -/
theorem Ctx.lane_written (c : Ctx) (o : Ops) (pl : Plan) (act : Mask) (r : Result)
    (ho : r.outs = lanes act fun k => pl.run (c.laneIn o pl k)) (hp : r.poison = Mask.ofPred fun t => act.getLsbD t && c.lanePoison o pl t)
    (h64 : r.out64 = pl.out64) (ht : r.tagOut = pl.tagOut) (hq : r.pout = pl.pout) (hs : r.scalar = none) :
    LaneWritten c o pl act (match r.pout with
      | some n => (c.w.putLanes o.dst r act fun t => (r.outs.getD t {}).val).setP n
          (((c.w.putLanes o.dst r act fun t => (r.outs.getD t {}).val).p n).write act
            (Mask.ofPred fun t => act.getLsbD t && (r.outs.getD t {}).p) r.poison r.origin)
      | none => c.w.putLanes o.dst r act fun t => (r.outs.getD t {}).val) := by
  have hrest := Wave.putLanes_rest c.w o.dst r act (fun t => (r.outs.getD t {}).val) hs
  generalize hw : c.w.putLanes o.dst r act (fun t => (r.outs.getD t {}).val) = w1 at hrest
  have hv : ∀ m, (match r.pout with
      | some n => w1.setP n ((w1.p n).write act (Mask.ofPred fun t => act.getLsbD t && (r.outs.getD t {}).p) r.poison r.origin)
      | none => w1).v m = w1.v m := by intro m; cases r.pout <;> simp
  have hout : ∀ k, act.getLsbD k = true → r.outs.getD k {} = pl.run (c.laneIn o pl k) := by
    intro k hk; rw [ho, lanes_getD _ hk]
  have hlow : ∀ n, o.dst = .v n → (w1.v n.toNat) = (if pl.out64 = true then (c.w.v n.toNat).write act (fun t => BitVec.ofNat 32 (r.outs.getD t {}).val)
      r.poison r.origin (r.tagOut 0) else (c.w.v n.toNat).write act (fun t => BitVec.ofNat 32 (r.outs.getD t {}).val) r.poison r.origin (r.tagOut 0)) := by
    intro n hn
    rw [← hw, hn]
    simp only [Wave.putLanes, h64, ite_self]
    split
    · rw [Wave.v_setV_ne _ _ (by omega), Wave.v_setV_same]
    · rw [Wave.v_setV_same]
  have hkeep : ∀ m, (∀ n, o.dst = .v n → m ≠ n.toNat ∧ (pl.out64 = true → m ≠ n.toNat + 1)) → w1.v m = c.w.v m := by
    intro m hm
    rw [← hw]
    unfold Wave.putLanes
    split
    · rename_i n hn
      obtain ⟨h1, h2⟩ := hm n hn
      dsimp only
      split
      · rename_i h
        rw [Wave.v_setV_ne _ _ (h2 (h64 ▸ h)), Wave.v_setV_ne _ _ h1]
      · rw [Wave.v_setV_ne _ _ h1]
    · simp [hs]
    · rfl
  refine ⟨?_, fun m hm => (hv m).trans (hkeep m hm), ?_, ?_, ?_, ?_, ?_, ?_, ?_⟩
  · cases r.pout with
    | none => rw [hrest]
    | some n =>
      dsimp only
      rw [Wave.setP_rest, hrest]
  · intro n hn k hk
    rw [hv, hlow n hn, ite_self, VReg.write_on _ _ _ _ _ hk, hout k hk]
  · intro n hn h k hk
    rw [hv, ← hw, hn]
    simp only [Wave.putLanes, h64, h, if_true]
    rw [Wave.v_setV_same, VReg.write_on _ _ _ _ _ hk, hout k hk]
  · intro m k hk ha
    rw [hv, ← hw]
    unfold Wave.putLanes
    split
    · rename_i n hn
      have one : ∀ (w : Wave) (j m : Nat) (f : Nat → Word) (g : BitVec 5), (w.v m).vals.getD k 0 = (c.w.v m).vals.getD k 0 →
          (w.v j).vals.getD k 0 = (c.w.v j).vals.getD k 0 →
          ((w.setV j ((w.v j).write act f r.poison r.origin g)).v m).vals.getD k 0 = (c.w.v m).vals.getD k 0 := by
        intro w j m f g h1 h2
        by_cases hm : m = j
        · subst hm; rw [Wave.v_setV_same, VReg.write_off _ _ _ _ _ hk ha, h1]
        · rw [Wave.v_setV_ne _ _ hm, h1]
      dsimp only
      split
      · exact one _ _ _ _ _ (one _ _ _ _ _ rfl rfl) (one _ _ _ _ _ rfl rfl)
      · exact one _ _ _ _ _ rfl rfl
    · simp [hs]
    · rfl
  · intro n hn
    rw [hv, hlow n hn, ite_self, ← ht]
    exact ⟨rfl, rfl⟩
  · intro n hn k hk
    rw [hv, hlow n hn, ite_self, VReg.write_poison _ _ _ _ _ hk, hp, Mask.getLsbD_ofPred]
    simp [hk, Mask.lt_of_getLsbD hk]
  · intro p hne
    have hw1 : w1.p p = c.w.p p := by rw [hrest]; rfl
    rw [← hw1]
    rw [hq]
    cases hpo : pl.pout with
    | none => rfl
    | some n =>
      dsimp only
      exact Wave.setP_pred _ _ (fun e => hne (by rw [hpo, e]))
  · intro p hpo h7 k hk
    rw [hq, hpo]
    dsimp only
    rw [Wave.p_setP_same _ _ h7, PReg.write_on _ _ _ _ hk, Mask.getLsbD_ofPred, hout k hk]
    simp [hk, Mask.lt_of_getLsbD hk]

/-- All that the vector form of a shape does when its instruction runs. -/
theorem Ctx.runVector_result {c : Ctx} (h : c.s.upsets = []) (o : Ops) (pl : Plan) (act : Mask) (hl : pl.long = false) :
    ∃ v, LaneWritten c o pl act v ∧ c.runVector o pl act = c.next ((c.s.setWave c.core c.slot v).countAll c.core c.slot c.w.uid
      (tally ((lanes act fun k => pl.run (c.laneIn o pl k)).map (·.exc))) c.f.pc c.w.word) := by
  refine ⟨_, Ctx.lane_written c o pl act { outs := lanes act fun t => pl.run (c.laneIn o pl t)
                                           poison := Mask.ofPred fun t => act.getLsbD t && c.lanePoison o pl t
                                           origin := if (Mask.ofPred fun t => act.getLsbD t && c.lanePoison o pl t) = 0 then .fault
                                             else c.laneOrigin o pl act
                                           out64 := pl.out64, tagOut := pl.tagOut, pout := pl.pout, long := pl.long } rfl rfl rfl rfl rfl rfl, ?_⟩
  unfold Ctx.runVector
  dsimp only
  rw [Ctx.commit_short h _ _ _ hl]
  rfl

/-- Without an upset the uniform form ends with the result that the shape gives. -/
theorem Ctx.runUniform_calm {c : Ctx} (h : c.s.upsets = []) (o : Ops) (pl : Plan) :
    c.runUniform o pl = c.writeUniform o pl (pl.run (c.laneIn o pl c.uniThread)) (c.lanePoison o pl c.uniThread) := by
  unfold Ctx.runUniform Ctx.upsetOut
  simp only [h, List.isEmpty_nil, if_true, State.upsets_eta h]

/-- All that the uniform form of a shape does when its instruction runs. -/
theorem Ctx.runUniform_result {c : Ctx} (h : c.s.upsets = []) (o : Ops) (pl : Plan) (hl : pl.long = false) :
    ∃ v, OnceWritten c o pl v ∧ c.runUniform o pl = c.next ((c.s.setWave c.core c.slot v).countAll c.core c.slot c.w.uid
      ((pl.run (c.laneIn o pl c.uniThread)).exc.eraseDups.map fun k => (k, 1)) c.f.pc c.w.word) := by
  rw [Ctx.runUniform_calm h]
  unfold Ctx.writeUniform
  simp only [hl, Bool.false_eq_true, if_false]
  refine ⟨_, ?_, rfl⟩
  constructor
  · cases pl.pout <;> cases o.dst <;> first | rfl | (dsimp only; rw [Wave.setP_rest]; done) | (dsimp only; rw [Wave.setP_rest]; rfl)
  · intro m hm
    cases pl.pout <;> cases hd : o.dst <;> simp only [Wave.s_setP] <;> exact Wave.s_setS_ne _ _ (hm _ hd)
  · intro n hn
    cases pl.pout <;> simp [hn, SReg.write]
  · intro n hn
    cases pl.pout <;> simp [hn, SReg.write]
  · intro p hne
    cases hp : pl.pout with
    | none => cases o.dst <;> rfl
    | some n =>
      dsimp only
      rw [Wave.setP_pred _ _ (fun e => hne (by rw [hp, e]))]
      cases o.dst <;> rfl
  · intro p hp h7 k hk
    simp only [hp]
    rw [Wave.p_setP_same _ _ h7, PReg.write_on _ _ _ _ hk]
    split
    · rename_i h; rw [h]; exact hk
    · rename_i h; simp at h; simp [h]

/-- An instruction of a shape that is not long-latency has the result that the shape gives. -/
theorem lane_result {i : Instr} {o : Ops} {shape : Ctx → Plan} (he : ∀ s, exec i s = withCtx s fun c => c.alu o (shape c))
    (hl : ∀ c, (shape c).long = false) : LaneResult i o shape := by
  intro s c hc hu
  obtain ⟨rfl, -⟩ := State.ctx?_eq hc
  constructor
  · intro act hv hr
    obtain ⟨v, h1, h2⟩ := Ctx.runVector_result hu o (shape c) act (hl c)
    refine ⟨v, h1, ?_⟩
    rw [he, withCtx_eq hc, Ctx.alu, if_pos hv, Ctx.vector_runs hr, h2]
  · intro hv hr
    obtain ⟨v, h1, h2⟩ := Ctx.runUniform_result hu o (shape c) (hl c)
    refine ⟨v, h1, ?_⟩
    rw [he, withCtx_eq hc, Ctx.alu, if_neg (by simp [hv]), Ctx.uniform_runs hr, h2]

/-- The end of a vector special function. -/
theorem Ctx.commit_long {c : Ctx} (h : c.s.upsets = []) (dst : Opnd) (act : Mask) (r : Result) (hl : r.long = true) (_hp : r.pout = none) :
    c.commit dst act r = c.next ((c.s.addOps c.core [c.op (.value dst ((List.range 128).map fun t => BitVec.ofNat 32 (r.outs.getD t {}).val)
      act r.poison r.origin (r.evs.getD (tally (r.outs.map (·.exc)))) c.f.pc c.w.word)]).setWave c.core c.slot
        (match dst with | .v n => c.w.markEmpty (.v n) (r.tagOut 0) | _ => c.w)) := by
  unfold Ctx.commit
  rw [Ctx.voted_none h, Result.flipped_none]
  unfold Ctx.writeResult
  simp only [hl, if_true, State.addOps, Ctx.op]
  rfl

/-- The end of a uniform special function. -/
theorem Ctx.runUniform_long {c : Ctx} (h : c.s.upsets = []) (o : Ops) (pl : Plan) (hl : pl.long = true) :
    ∃ org, c.runUniform o pl = c.next ((c.s.addOps c.core [c.op (.value o.dst [BitVec.ofNat 32 (pl.run (c.laneIn o pl c.uniThread)).val] 1
      (if c.lanePoison o pl c.uniThread then 1 else 0) org ((pl.run (c.laneIn o pl c.uniThread)).exc.eraseDups.map fun k => (k, 1))
      c.f.pc c.w.word)]).setWave c.core c.slot (match o.dst with | .s n => c.w.markEmpty (.s n) 0 | _ => c.w)) := by
  rw [Ctx.runUniform_calm h]
  unfold Ctx.writeUniform
  simp only [hl, if_true, State.addOps, Ctx.op]
  exact ⟨_, rfl⟩

/-- A special function marks its destination empty and puts its operation under way. -/
theorem long_result {i : Instr} {o : Ops} {shape : Ctx → Plan} (he : ∀ s, exec i s = withCtx s fun c => c.alu o (shape c))
    (hl : ∀ c, (shape c).long = true) (hp : ∀ c, (shape c).pout = none) : LongResult i o shape := by
  intro s c hc hu
  obtain ⟨rfl, -⟩ := State.ctx?_eq hc
  constructor
  · intro act hv hr
    rw [he, withCtx_eq hc, Ctx.alu, if_pos hv, Ctx.vector_runs hr, Ctx.runVector, Ctx.commit_long hu _ _ _ (hl c) (hp c)]
    refine ⟨_, _, _, ?_, rfl⟩
    intro k hk
    have hk' := Mask.lt_of_getLsbD hk
    exact ⟨by simp [List.getD_eq_getElem?_getD, hk', lanes, hk], by rw [Mask.getLsbD_ofPred]; simp [hk, hk']⟩
  · intro hv hr
    obtain ⟨org, h⟩ := Ctx.runUniform_long hu o (shape c) (hl c)
    exact ⟨org, by rw [he, withCtx_eq hc, Ctx.alu, if_neg (by simp [hv]), Ctx.uniform_runs hr, h] <;> rfl⟩

/-! ### Exchanges between threads -/

/-- What the results of a vector instruction without a predicate leave of its wave. -/
theorem Wave.putLanes_written (c : Ctx) (dst : Opnd) (r : Result) (act : Mask) (val : Nat → Nat) (hs : ∀ n, dst ≠ .s n) :
    VecWritten c dst act r.out64 (r.tagOut 0) val (fun k => r.poison.getLsbD k) (c.w.putLanes dst r act val) := by
  cases dst with
  | v n =>
    have hlow : ∀ (f : Wave), ((f.setV n.toNat ((c.w.v n.toNat).write act (fun t => BitVec.ofNat 32 (val t)) r.poison r.origin (r.tagOut 0))).v n.toNat) =
        (c.w.v n.toNat).write act (fun t => BitVec.ofNat 32 (val t)) r.poison r.origin (r.tagOut 0) := fun f => Wave.v_setV_same _ _ _
    have hv : (c.w.putLanes (.v n) r act val).v n.toNat = (c.w.v n.toNat).write act (fun t => BitVec.ofNat 32 (val t)) r.poison r.origin (r.tagOut 0) := by
      simp only [Wave.putLanes]
      split
      · rw [Wave.v_setV_ne _ _ (by omega), hlow]
      · rw [hlow]
    refine ⟨?_, ?_, ?_, ?_, ?_, ?_, ?_⟩
    · simp only [Wave.putLanes]; split <;> rfl
    · intro m hm
      obtain ⟨h1, h2⟩ := hm n rfl
      simp only [Wave.putLanes]
      split
      · rename_i h; rw [Wave.v_setV_ne _ _ (h2 h), Wave.v_setV_ne _ _ h1]
      · rw [Wave.v_setV_ne _ _ h1]
    · rintro m ⟨⟩ k hk; rw [hv, VReg.write_on _ _ _ _ _ hk]
    · rintro m ⟨⟩ h k hk
      simp only [Wave.putLanes, h, if_true]
      rw [Wave.v_setV_same, VReg.write_on _ _ _ _ _ hk]
    · intro m k hk ha
      have one : ∀ (w : Wave) (j m : Nat) (f : Nat → Word) (g : BitVec 5), (w.v m).vals.getD k 0 = (c.w.v m).vals.getD k 0 →
          (w.v j).vals.getD k 0 = (c.w.v j).vals.getD k 0 →
          ((w.setV j ((w.v j).write act f r.poison r.origin g)).v m).vals.getD k 0 = (c.w.v m).vals.getD k 0 := by
        intro w j m f g h1 h2
        by_cases hm : m = j
        · subst hm; rw [Wave.v_setV_same, VReg.write_off _ _ _ _ _ hk ha, h1]
        · rw [Wave.v_setV_ne _ _ hm, h1]
      simp only [Wave.putLanes]
      split
      · exact one _ _ _ _ _ (one _ _ _ _ _ rfl rfl) (one _ _ _ _ _ rfl rfl)
      · exact one _ _ _ _ _ rfl rfl
    · rintro m ⟨⟩; rw [hv]; exact ⟨rfl, rfl⟩
    · rintro m ⟨⟩ k hk; rw [hv, VReg.write_poison _ _ _ _ _ hk]
  | s n => exact absurd rfl (hs n)
  | _ => exact ⟨rfl, fun _ _ => rfl, nofun, nofun, fun _ _ _ _ => rfl, nofun, nofun⟩

/-- Counting no events changes nothing. -/
@[simp] theorem State.countAll_nil (s : State) (core slot uid : Nat) (pc : DWord) (w : BitVec 96) : s.countAll core slot uid [] pc w = s := rfl

theorem State.countAll_zero (s : State) (core slot uid : Nat) (evs : List (XClass × Nat)) (pc : DWord) (w : BitVec 96)
    (h : ∀ e ∈ evs, e.2 = 0) : s.countAll core slot uid evs pc w = s := by
  unfold State.countAll
  induction evs generalizing s with
  | nil => rfl
  | cons e es ih =>
    rw [List.foldl_cons, show s.countOn core core slot uid e.1 e.2 pc w = s by simp [State.countOn, State.countFor, h e (by simp)]]
    exact ih s fun x hx => h x (by simp [hx])

/-- Threads that raise nothing count nothing. -/
theorem tally_zero {exc : List (List XClass)} (h : ∀ l ∈ exc, l = []) : ∀ e ∈ tally exc, e.2 = 0 := by
  intro e he
  simp only [tally, List.mem_map] at he
  obtain ⟨k, -, rfl⟩ := he
  simp only [List.length_eq_zero_iff, List.filter_eq_nil_iff]
  intro l hl
  simp [h l hl]

/-- An instruction whose vector form commits one result for each active thread. -/
theorem cross_result {i : Instr} {o : Ops} {us : Ctx → List Use} (r : Ctx → Mask → Result)
    (he : ∀ s, exec i s = withCtx s fun c => c.vector o.guard (us c) fun act => c.commit o.dst act (r c act))
    (hl : ∀ c act, (r c act).long = false) (hp : ∀ c act, (r c act).pout = none) {out64 : Bool} {tag : Ctx → BitVec 5}
    {val : Ctx → Mask → Nat → Nat} {bad : Ctx → Mask → Nat → Bool} {evs : Ctx → Mask → List (XClass × Nat)}
    (h64 : ∀ c act, (r c act).out64 = out64) (ht : ∀ c act, (r c act).tagOut 0 = tag c)
    (hv : ∀ c act k, act.getLsbD k = true → ((r c act).outs.getD k {}).val = val c act k)
    (hb : ∀ c act k, act.getLsbD k = true → (r c act).poison.getLsbD k = bad c act k)
    (hx : ∀ c act (s : State) core slot uid pc w,
      s.countAll core slot uid ((r c act).evs.getD (tally ((r c act).outs.map (·.exc)))) pc w = s.countAll core slot uid (evs c act) pc w) :
    CrossResult i o us out64 tag val bad evs := by
  intro s c act hc hu hr hn
  obtain ⟨rfl, -⟩ := State.ctx?_eq hc
  refine ⟨_, ?_, by rw [he, withCtx_eq hc, Ctx.vector_runs hr, Ctx.commit_short hu _ _ _ (hl c act), hp, hx]⟩
  obtain ⟨h1, h2, h3, h4, h5, h6, h7⟩ := Wave.putLanes_written c o.dst (r c act) act (fun t => ((r c act).outs.getD t {}).val) hn
  rw [h64] at h2 h4
  rw [ht] at h6
  refine ⟨h1, h2, fun n hd k hk => ?_, fun n hd h k hk => ?_, h5, h6, fun n hd k hk => ?_⟩
  · rw [h3 n hd k hk, hv c act k hk]
  · rw [h4 n hd h k hk, hv c act k hk]
  · rw [h7 n hd k hk, hb c act k hk]

/-- The same with a scalar destination. -/
theorem gather_result {i : Instr} {o : Ops} {us : Ctx → List Use} (r : Ctx → Mask → Result)
    (he : ∀ s, exec i s = withCtx s fun c => c.vector o.guard (us c) fun act => c.commit o.dst act (r c act))
    (hl : ∀ c act, (r c act).long = false) (hp : ∀ c act, (r c act).pout = none)
    {val : Ctx → Mask → Nat} {bad : Ctx → Mask → Bool} {evs : Ctx → Mask → List (XClass × Nat)}
    (hs : ∀ c act, (r c act).scalar = some (val c act, bad c act))
    (hx : ∀ c act n (s : State) core slot uid pc w, o.dst = .s n →
      s.countAll core slot uid ((r c act).evs.getD (tally ((r c act).outs.map (·.exc)))) pc w = s.countAll core slot uid (evs c act) pc w) :
    GatherResult i o us val bad evs := by
  intro s c act n hc hu hr hn
  obtain ⟨rfl, -⟩ := State.ctx?_eq hc
  refine ⟨(r c act).origin, ?_⟩
  rw [he, withCtx_eq hc, Ctx.vector_runs hr, Ctx.commit_short hu _ _ _ (hl c act), hp, hx c act n _ _ _ _ _ _ hn, hn]
  simp only [Wave.putLanes, hs]

/-- A uniform instruction does what its meaning does when it runs. -/
theorem doesOnce_of {i : Instr} {g : Guard} {us : List Use} {w : Ctx → Prop} {t : Ctx → State} (k : Ctx → State)
   (he : ∀ s, exec i s = withCtx s fun c => c.uniform g us (k c)) (h : ∀ c, w c → k c = t c) : DoesOnce i g us w t := by
  intro s c hc hr hw
  rw [he, withCtx_eq hc, Ctx.uniform_runs hr, h c hw]
/-- A vector instruction does what its meaning does when it runs. -/
theorem doesIn_of {i : Instr} {g : Guard} {us : List Use} {w : Ctx → Mask → Prop} {t : Ctx → Mask → State} (k : Ctx → Mask → State)
   (he : ∀ s, exec i s = withCtx s fun c => c.vector g us (k c)) (h : ∀ c a, w c a → k c a = t c a) : DoesIn i g us w t := by
  intro s c act hc hr hw
  rw [he, withCtx_eq hc, Ctx.vector_runs hr, h c act hw]

/-- An exchange is the commit of one result for each active thread. -/
theorem Ctx.cross_eq (dst act out64 tagOut) (f : Nat → CrossOut) (c : Ctx) : c.cross dst act out64 tagOut f = c.commit dst act
    { outs := lanes act fun t => (f t).out, poison := Mask.ofPred fun t => act.getLsbD t && badOf (f t).bad
      origin := originOfBad (((List.range 128).map fun t => if act.getLsbD t then f t else {}).flatMap (·.bad)), out64 := out64, tagOut := tagOut } := by
  have h1 : (((List.range 128).map fun t => if act.getLsbD t then f t else {}).map (·.out)) = lanes act fun t => (f t).out := by
    rw [lanes, List.map_map]
    apply List.map_congr_left
    intro t _
    simp only [Function.comp]
    split <;> rfl
  have h2 : (Mask.ofPred fun t => badOf ((((List.range 128).map fun t => if act.getLsbD t then f t else {}).getD t {}).bad)) =
      Mask.ofPred fun t => act.getLsbD t && badOf (f t).bad := by
    apply BitVec.eq_of_getLsbD_eq
    intro k hk
    rw [Mask.getLsbD_ofPred, Mask.getLsbD_ofPred]
    have : ((List.range 128).map fun t => if act.getLsbD t then f t else {}).getD k {} = if act.getLsbD k then f k else {} := by
      rw [List.getD_eq_getElem?_getD, List.getElem?_map, List.getElem?_range hk]; rfl
    rw [this]
    cases act.getLsbD k <;> simp [badOf]
  unfold Ctx.cross
  dsimp only
  rw [h1, h2]

/-- Threads whose results raise nothing count nothing. -/
theorem lanes_tally_zero (act : Mask) (f : Nat → LaneOut) (h : ∀ t, (f t).exc = []) : ∀ e ∈ tally ((lanes act f).map (·.exc)), e.2 = 0 := by
  apply tally_zero
  intro l hl
  simp only [lanes, List.map_map, List.mem_map, List.mem_range] at hl
  obtain ⟨t, -, rfl⟩ := hl
  simp only [Function.comp]
  split
  · exact h t
  · rfl

/-- An exchange between threads leaves the value and the poison that its source gives each thread. -/
theorem exchange_result {i : Instr} {o : Ops} {us : Ctx → List Use} {out64 : Bool} {tag : Ctx → Nat → BitVec 5} (f : Ctx → Mask → Nat → CrossOut)
    (he : ∀ s, exec i s = withCtx s fun c => c.vector o.guard (us c) fun act => c.cross o.dst act out64 (tag c) (f c act))
    {val : Ctx → Mask → Nat → Nat} {bad : Ctx → Mask → Nat → Bool}
    (hv : ∀ c act k, act.getLsbD k = true → (f c act k).out.val = val c act k)
    (hb : ∀ c act k, act.getLsbD k = true → badOf (f c act k).bad = bad c act k) :
    CrossResult i o us out64 (fun c => tag c 0) val bad (fun c act => tally ((lanes act fun k => (f c act k).out).map (·.exc))) := by
  refine cross_result (fun c act => { outs := lanes act fun t => (f c act t).out, poison := Mask.ofPred fun t => act.getLsbD t && badOf (f c act t).bad
                                      origin := originOfBad (((List.range 128).map fun t => if act.getLsbD t then f c act t else {}).flatMap (·.bad)), out64 := out64, tagOut := tag c })
    (fun s => ?_) (fun _ _ => rfl) (fun _ _ => rfl) (fun _ _ => rfl) (fun _ _ => rfl) ?_ ?_ ?_
  · rw [he]; exact congrArg (withCtx s) (funext fun c => congrArg (c.vector o.guard (us c)) (funext fun act => Ctx.cross_eq _ _ _ _ _ _))
  · intro c act k hk; exact (congrArg LaneOut.val (lanes_getD (fun t => (f c act t).out) hk)).trans (hv c act k hk)
  · intro c act k hk; show (Mask.ofPred _).getLsbD k = _; rw [Mask.getLsbD_ofPred, hk, hb c act k hk, decide_eq_true (Mask.lt_of_getLsbD hk)]; rfl
  · intros; rfl

/-- An exchange that raises nothing. -/
theorem cross_result_quiet {i : Instr} {o : Ops} {us : Ctx → List Use} {out64 : Bool} {tag : Ctx → BitVec 5} 
    {val : Ctx → Mask → Nat → Nat} {bad : Ctx → Mask → Nat → Bool} {evs}
    (h : CrossResult i o us out64 tag val bad evs) (hz : ∀ c act, ∀ e ∈ evs c act, e.2 = 0) : CrossResult i o us out64 tag val bad fun _ _ => [] := by
  intro s c act hc hu hr hn
  obtain ⟨v, h1, h2⟩ := h s c act hc hu hr hn
  refine ⟨v, h1, ?_⟩
  rw [h2, State.countAll_zero _ _ _ _ _ _ _ (hz c act)]; rfl

/-- A chosen thread's value raises nothing. -/
theorem Ctx.chosen_exc (c : Ctx) (o ty fill u t) : (c.chosen o ty fill u t).out.exc = [] := by
  unfold Ctx.chosen; dsimp only; split
  · rfl
  · split <;> rfl


end Sys2Proof.Machine
end

