-- ==== Sys2Proof/Laws/Access.lean ====
section
/-!
SUPPORT. What the shared frames of memory, engine, barrier and wave instructions do when nothing stops them: one lemma for each.
-/
namespace Sys2Proof.Machine

/-- An access that no acquire holds back issues. -/
theorem Ctx.memory_free {c : Ctx} (h : c.FreeOfAcquire) (k : State) : c.memory k = k := by
  unfold Ctx.memory; rw [h]

/-- What waits for the wave's earlier accesses goes on once they are performed. -/
theorem Ctx.drained_free {c : Ctx} (h : c.s.wavePending c.core c.w.uid true = false) (k : State) : c.drained k = k := by
  unfold Ctx.drained; simp [h]

/-- A queue with room takes the operation. -/
theorem Ctx.enqueue_room {c : Ctx} {q : Queue} (h : c.HasPlace q) (add : Core → Core) (after : State → State) :
    c.enqueue q add after = c.entered q add after := by
  unfold Ctx.enqueue Ctx.entered Ctx.HasPlace at *
  rw [if_neg (by omega)]; rfl

/-- Queue 1 with room takes the operation with its scoreboard entries. -/
theorem Ctx.enqueue1_room {c : Ctx} {sides : List Side} (h : c.HasPlace1 sides) (kind : Q1Kind) (after : State → State) :
    c.enqueue1 kind sides after = c.entered1 kind sides after := by
  unfold Ctx.enqueue1 Ctx.entered1
  rw [if_neg (by simp [h.2]), Ctx.enqueue_room h.1]; rfl

/-- A barrier instruction acts on the object at its address when that lies within the scratchpad at a multiple of 16. -/
theorem Ctx.barObj_ok {c : Ctx} {o : Ops} (h1 : bitOf (c.spAddr o 0) 31 = false) (h2 : (spTarget c.core (c.spAddr o 0) 16).isSome = true)
    (h3 : c.spAddr o 0 % 16 = 0) (k : Nat → State) : c.barObj o k = k (c.spAddr o 0 % 2 ^ 19) := by
  unfold Ctx.barObj
  rw [if_neg (by simp [h1, Option.isNone_iff_eq_none, Option.isSome_iff_ne_none] at *; exact h2), if_neg (by simp [h3])]

/-- A fold or a search over requests that all translate finds the bytes of each. -/
theorem Ctx.reach_all {c : Ctx} {addr : Nat → DWord} {offs : Nat → List Nat} {bad : DWord → Bool} {ts : List Nat} {ps : Nat → List Nat}
    (h : c.Reaches addr offs bad ts ps) :
    ((ts.map fun t => (t, addr t, offs t)).map fun a => (a.1, a.2.1, if bad a.2.1 then Reach.fault 3 a.2.1 else c.reach true a.2.1 a.2.2)) =
      ts.map fun t => (t, addr t, Reach.bytes (ps t)) := by
  rw [List.map_map]
  apply List.map_congr_left
  intro t ht
  obtain ⟨h1, h2⟩ := h t ht
  simp [h1, h2]

/-- A store or atomic whose threads all translate acts on the bytes that they reach. -/
theorem Ctx.reachAll_ok {c : Ctx} {o : Ops} {addr : Nat → DWord} {offs : Nat → List Nat} {bad : DWord → Bool} {ts : List Nat} {ps : Nat → List Nat}
    (h : c.Reaches addr offs bad ts ps) (k : Ctx → List (Nat × List Nat) → State) :
    c.reachAll o true (ts.map fun t => (t, addr t, offs t)) bad k = k c.translated (ts.map fun t => (t, ps t)) := by
  unfold Ctx.reachAll
  dsimp only
  rw [Ctx.reach_all h]
  split
  · rename_i hm
    refine absurd hm ?_
    simp [List.filterMap_map]
  · split
    · rename_i hf
      have := List.mem_of_find?_eq_some hf
      simp at this
    · rename_i hf
      have := List.mem_of_find?_eq_some hf
      simp at this
    · simp only [List.filterMap_map, Function.comp_def, List.filterMap_eq_map', Ctx.translated]

end Sys2Proof.Machine
end

