-- ==== Sys2Proof/Laws/Decode.lean ====
section
/-!
SUPPORT. The fields of a word survive packing and unpacking, and the common operands of an instruction survive encoding.
-/
namespace Sys2Proof.Laws

/-- A field of the low part of an append. -/
theorem extract_low {n m : Nat} (x : BitVec n) (y : BitVec m) {s k : Nat} (h : s + k ≤ m) :
    (x ++ y).extractLsb' s k = y.extractLsb' s k := by
  refine BitVec.eq_of_getLsbD_eq fun i hi => ?_
  rw [BitVec.getLsbD_extractLsb', BitVec.getLsbD_extractLsb', BitVec.getLsbD_append, if_pos (by omega)]

/-- A field of the high part of an append. -/
theorem extract_high {n m : Nat} (x : BitVec n) (y : BitVec m) {s k : Nat} (h : m ≤ s) :
    (x ++ y).extractLsb' s k = x.extractLsb' (s - m) k := by
  refine BitVec.eq_of_getLsbD_eq fun i hi => ?_
  rw [BitVec.getLsbD_extractLsb', BitVec.getLsbD_extractLsb', BitVec.getLsbD_append, if_neg (by omega)]
  congr 2; omega

/-- The whole of a value. -/
theorem extract_whole {n : Nat} (x : BitVec n) : x.extractLsb' 0 n = x := by simp

/-- Unpacking a packed word gives its fields. -/
theorem unpack_pack (r : RawWord) : RawWord.unpack (RawWord.pack r) = r := by
  simp (disch := decide) only [RawWord.unpack, RawWord.pack, extract_low, extract_high, extract_whole, Nat.reduceSub]

/-- A used operand survives its field. -/
theorem opnd_ofBits (x : Opnd) (h : x ≠ .unused) : Opnd.ofBits x.bits = some x := by
  cases x
  · exact absurd rfl h
  all_goals first | decide | (rename_i n; revert n; decide)

/-- A guard survives its field. -/
theorem guard_ofBits (g : Guard) : Guard.ofBits g.bits = g := by
  rcases g with ⟨n, p⟩; revert n p; decide

/-- A cross-lane modifier survives its fields. -/
theorem xl_ofBits (x : Xl) : Xl.ofBits x.bits.1 x.bits.2 = some x := by
  cases x
  · decide
  · rename_i k f; cases f <;> revert k <;> decide
  · rename_i k; revert k; decide
  · rename_i k; revert k; decide
  · rename_i n f; cases f <;> revert n <;> decide

/-- A type survives its code. -/
@[simp] theorem ty_ofCode (t : Ty) : Ty.ofCode t.code = some t := by cases t <;> decide

/-- The common operands survive the word's fields, where the entry uses the fields that they occupy. -/
theorem ops_raw (o : Ops) (op : BitVec 9) (md : BitVec 10) (im : BitVec 21) (d a b i : Bool)
    (hd : if d then o.dst ≠ .unused else o.dst = .unused) (ha : if a then o.a ≠ .unused else o.a = .unused)
    (hb : if b then o.b ≠ .unused else o.b = .unused) (hi : if i then im = o.imm else o.imm = 0) :
    (o.raw op md im).ops d a b i = some o := by
  have e4 : (if i then im else 0) = o.imm := by cases i <;> simp_all
  have e5 : ∀ fa fb fd : Bool, (BitVec.ofBool fd ++ BitVec.ofBool fb ++ BitVec.ofBool fa : BitVec 3).getLsbD 0 = fa ∧
      (BitVec.ofBool fd ++ BitVec.ofBool fb ++ BitVec.ofBool fa : BitVec 3).getLsbD 1 = fb ∧
      (BitVec.ofBool fd ++ BitVec.ofBool fb ++ BitVec.ofBool fa : BitVec 3).getLsbD 2 = fd := by decide
  obtain ⟨f1, f2, f3⟩ := e5 o.feA o.feB o.feD
  rcases o with ⟨g, ds, sa, sb, fa, fb, fd, xl, imm, hint⟩
  cases d <;> cases a <;> cases b <;>
    (simp only [if_true, if_false, Bool.false_eq_true] at hd ha hb
     simp only [RawWord.ops, Ops.raw, hd, ha, hb, opnd_ofBits, e4, xl_ofBits, guard_ofBits, f1, f2, f3, bind, Option.bind, if_true, if_false,
       Bool.false_eq_true, ne_eq, not_false_eq_true])

/-- An instruction whose fields build it again is what its word decodes to. -/
theorem decode_encode_of {i : Instr} {r : RawWord} (h : i.raw = some r) (hw : i.wf = true) (hb : r.build = some i) (w : BitVec 96)
    (he : encode i = some w) : decode w = some i := by
  have hp : w = r.pack := by simpa [encode, h] using he.symm
  unfold decode
  rw [hp, unpack_pack, hb]
  simp [hw, encode, h]

end Sys2Proof.Laws
end

