-- ==== Sys2Proof/Laws/Memory.lean ====
section
/-!
SUPPORT. Memory: what a write leaves, and that every memory operation keeps the canonical form.
-/
namespace Sys2Proof.Machine

/-- A write of a byte leaves every other byte alone. -/
theorem Memory.read_write_ne (m : Memory) {a b : Nat} (x : Byte) (h : b ≠ a) : Memory.read (Memory.write m a x) b = Memory.read m b := by
  induction m with
  | nil => simp only [Memory.write]; split <;> simp [Memory.read, h]
  | cons e m ih =>
    obtain ⟨k, y⟩ := e
    simp only [Memory.write]
    split
    · split <;> simp [Memory.read, h]
    · split
      · rename_i h1 h2
        subst h2
        split <;> simp [Memory.read, h]
      · simp [Memory.read, ih]

theorem Memory.read_above {lo : Nat} {m : Memory} (h : Memory.wfFrom (some lo) m = true) {a : Nat} (ha : a ≤ lo) :
    Memory.read m a = Memory.unlisted := by
  induction m generalizing lo with
  | nil => rfl
  | cons e m ih =>
    obtain ⟨k, y⟩ := e
    simp only [Memory.wfFrom, Bool.and_eq_true, decide_eq_true_eq] at h
    have : a ≠ k := by omega
    simp only [Memory.read, this, if_false]
    exact ih h.2 (by omega)

theorem Memory.read_write_from (m : Memory) (lo : Option Nat) (h : Memory.wfFrom lo m = true) (a : Nat) (x : Byte) :
    Memory.read (Memory.write m a x) a = x := by
  induction m generalizing lo with
  | nil => simp only [Memory.write]; split <;> simp_all [Memory.read]
  | cons e m ih =>
    obtain ⟨k, y⟩ := e
    have hm : Memory.wfFrom (some k) m = true := by
      simp only [Memory.wfFrom, Bool.and_eq_true] at h; exact h.2
    simp only [Memory.write]
    split
    · split
      · rename_i h1 h2
        have : a ≠ k := by omega
        simp only [Memory.read, this, if_false]
        rw [Memory.read_above hm (by omega), h2]
      · simp [Memory.read]
    · split
      · rename_i h1 h2
        subst h2
        split
        · rename_i h3
          rw [Memory.read_above hm (le_refl _), h3]
        · simp [Memory.read]
      · rename_i h1 h2
        simp only [Memory.read, h2, if_false]
        exact ih _ hm

/-- A written byte reads as written, in a memory in canonical form. -/
theorem Memory.read_write_same (m : Memory) (h : m.wf = true) (a : Nat) (x : Byte) : Memory.read (Memory.write m a x) a = x :=
  Memory.read_write_from m none h a x

theorem Memory.wfFrom_mono {lo lo' : Nat} {m : Memory} (h : Memory.wfFrom (some lo) m = true) (hl : lo' ≤ lo) :
    Memory.wfFrom (some lo') m = true := by
  cases m with
  | nil => rfl
  | cons e m =>
    obtain ⟨k, y⟩ := e
    simp only [Memory.wfFrom, Bool.and_eq_true, decide_eq_true_eq] at h ⊢
    exact ⟨⟨by omega, h.1.2⟩, h.2⟩

theorem Memory.wfFrom_write (m : Memory) (lo : Option Nat) (h : Memory.wfFrom lo m = true) (a : Nat) (x : Byte)
    (ha : ∀ l, lo = some l → l < a) : Memory.wfFrom lo (Memory.write m a x) = true := by
  induction m generalizing lo with
  | nil =>
    simp only [Memory.write]
    split
    · rfl
    · rename_i hx
      cases lo <;> simp_all [Memory.wfFrom]
  | cons e m ih =>
    obtain ⟨k, y⟩ := e
    simp only [Memory.wfFrom, Bool.and_eq_true] at h
    obtain ⟨⟨h1, h2⟩, h3⟩ := h
    simp only [Memory.write]
    split
    · rename_i hk
      split
      · simp [Memory.wfFrom, h1, h2, h3]
      · rename_i hx
        have hb : (x != Memory.unlisted) = true := by simpa using hx
        have hk' : (decide (a < k)) = true := by simpa using hk
        cases lo with
        | none => simp only [Memory.wfFrom, h2, h3, hb, hk', Bool.and_true]
        | some l => simp [Memory.wfFrom, h2, h3, hb, hk', ha l rfl]
    · rename_i hk
      split
      · rename_i he
        subst he
        split
        · cases lo with
          | none => cases m with
            | nil => rfl
            | cons e m => simp only [Memory.wfFrom, Bool.and_eq_true] at h3 ⊢; exact ⟨⟨trivial, h3.1.2⟩, h3.2⟩
          | some l => exact Memory.wfFrom_mono h3 (Nat.le_of_lt (ha l rfl))
        · rename_i hx
          simp only [Memory.wfFrom, h1, h3, Bool.and_true, Bool.true_and]
          simpa using hx
      · rename_i hne
        simp only [Memory.wfFrom, h1, h2, Bool.true_and]
        exact ih _ h3 (fun l hl => by cases hl; omega)

/-- A write keeps the canonical form. -/
theorem Memory.wf_write (m : Memory) (h : m.wf = true) (a : Nat) (x : Byte) : (Memory.write m a x).wf = true :=
  Memory.wfFrom_write m none h a x (fun _ hl => by cases hl)

/-- Writing consecutive bytes keeps the canonical form. -/
theorem Memory.wf_writeBytes (m : Memory) (h : m.wf = true) (a : Nat) (bs : List Byte) : (Memory.writeBytes m a bs).wf = true := by
  induction bs generalizing m a with
  | nil => exact h
  | cons b bs ih => exact ih _ (Memory.wf_write m h a b) _

/-- Writing consecutive bytes leaves every byte outside them alone. -/
theorem Memory.read_writeBytes_ne (m : Memory) (a : Nat) (bs : List Byte) {b : Nat} (h : b < a ∨ a + bs.length ≤ b) :
    Memory.read (Memory.writeBytes m a bs) b = Memory.read m b := by
  induction bs generalizing m a with
  | nil => rfl
  | cons x bs ih =>
    simp only [List.length_cons] at h
    rw [Memory.writeBytes, ih _ _ (by omega), Memory.read_write_ne _ _ (by omega)]

/-- A folded list of byte writes keeps the canonical form. -/
theorem Memory.wf_foldl {β : Type} (f : Memory → β → Memory) (hf : ∀ m b, Memory.wf m = true → Memory.wf (f m b) = true)
    (bs : List β) (m : Memory) (h : Memory.wf m = true) : Memory.wf (bs.foldl f m) = true := by
  induction bs generalizing m with
  | nil => exact h
  | cons b bs ih => exact ih _ (hf m b h)

theorem Memory.wfFrom_filter (p : Host.Cell → Bool) (m : Memory) (lo : Option Nat) (h : Memory.wfFrom lo m = true) :
    Memory.wfFrom lo (m.filter p) = true := by
  induction m generalizing lo with
  | nil => rfl
  | cons e m ih =>
    obtain ⟨k, y⟩ := e
    have h' := h
    simp only [Memory.wfFrom, Bool.and_eq_true] at h
    obtain ⟨⟨h1, h2⟩, h3⟩ := h
    simp only [List.filter_cons]
    split
    · simp only [Memory.wfFrom, h1, h2, Bool.true_and]
      exact ih _ h3
    · have := ih _ h3
      cases lo with
      | none =>
        revert this
        cases (m.filter p) with
        | nil => exact fun _ => rfl
        | cons e l => simp only [Memory.wfFrom, Bool.and_eq_true]; exact fun x => ⟨⟨trivial, x.1.2⟩, x.2⟩
      | some l => exact Memory.wfFrom_mono this (by simp only [decide_eq_true_eq] at h1; omega)

/-- Dropping entries keeps the canonical form. -/
theorem Memory.wf_filter (p : Host.Cell → Bool) (m : Memory) (h : m.wf = true) : Memory.wf (m.filter p) = true :=
  Memory.wfFrom_filter p m none h

end Sys2Proof.Machine
end

