-- ==== Sys2Proof/Laws/Step.lean ====
section
/-!
SUPPORT. What the issue of a fragment does: the fragment that the wave in focus prepares, and the word that it fetched.
-/
namespace Sys2Proof.Machine

/-- What the context of a state says of it. -/
theorem State.ctx_some {s : State} {c : Ctx} (h : s.ctx? = some c) : s.focus = some ⟨c.core, c.slot⟩ ∧ c.s = s ∧ s.wave? c.core c.slot = some c.w ∧ c.w.frag? c.w.cur = some c.f := by
  unfold State.ctx? at h
  cases hf : s.focus with
  | none => simp [hf] at h
  | some r =>
    simp only [hf] at h
    cases hw : s.wave? r.core r.slot with
    | none => simp [hw] at h
    | some w =>
      simp only [hw] at h
      cases hg : w.frag? w.cur with
      | none => simp [hg] at h
      | some f => simp only [hg, Option.some.injEq] at h; subst h; exact ⟨rfl, rfl, hw, hg⟩

/-- A fragment that issues as it stands is the one that the wave in focus prepares. -/
theorem State.prepare_issues {s : State} {c : Ctx} (h : s.ctx? = some c) (hn : c.IssuesNow) : s.prepare = c.prepare := by
  obtain ⟨hf, hs, hw, hg⟩ := State.ctx_some h
  subst hs
  have he : c.s.nextEntry c.core c.w = some c.w.cur := by simp [State.nextEntry, hn.goes, hg, hn.ready]
  unfold State.prepare
  rw [hf]; dsimp only; rw [hw]; dsimp only; rw [hn.runs, hn.turn]
  simp only [Bool.not_true, Bool.false_eq_true, if_false]
  rw [hw]; dsimp only; rw [he]; dsimp only
  simp [hn.goes, h]

/-- The word that is supplied is the one that issues. -/
theorem Ctx.prepare_supplied {c : Ctx} {word s ibuf} (hn : c.IssuesNow) (hw : c.Supplies word s ibuf) :
    c.prepare = ({ c with s := s } : Ctx).issueWord ibuf word := by
  unfold Ctx.prepare
  rw [hn.enters, hn.calm]; dsimp only; rw [if_neg (by simp [hn.placed])]
  rcases hw with ⟨hb, rfl, rfl⟩ | ⟨hb, hf, rfl, rfl⟩
  · rw [hb]
  · rw [hb]; dsimp only; rw [hf]

/-- A supplied word that decodes runs. -/
theorem Ctx.prepare_run {c : Ctx} {word s ibuf i stray} (hn : c.IssuesNow) (hw : c.Supplies word s ibuf)
    (hd : ({ c with s := s } : Ctx).decoded word = .inl (i, stray)) : c.prepare = .run i (c.issued s ibuf word stray) := by
  rw [Ctx.prepare_supplied hn hw]; unfold Ctx.issueWord; rw [hd]; rfl

/-- A supplied word that does not decode traps. -/
theorem Ctx.prepare_trap {c c1 : Ctx} {word s ibuf t} (hn : c.IssuesNow) (hw : c.Supplies word s ibuf)
    (hd : ({ c with s := s } : Ctx).decoded word = .inr t) (h1 : (c.issued s ibuf word none).ctx? = some c1) : c.prepare = .other (c1.trap t) := by
  rw [Ctx.prepare_supplied hn hw]; unfold Ctx.issueWord; rw [hd]
  have e : ({ c with s := s } : Ctx).put (({ c.w with word := word, ibuf := ibuf, stray := none } : Wave).modCur Fragment.issue) =
    c.issued s ibuf word none := rfl
  dsimp only at *
  rw [e, h1]

/-- The wave in focus issues the word that it is supplied with. -/
theorem issueFocus_run {s t : State} {c : Ctx} {word ibuf i stray} (h : s.ctx? = some c) (hn : c.IssuesNow) (hw : c.Supplies word t ibuf)
    (hd : ({ c with s := t } : Ctx).decoded word = .inl (i, stray)) : issueFocus s = issueOf i (c.issued t ibuf word stray) := by
  unfold issueFocus; rw [State.prepare_issues h hn, Ctx.prepare_run hn hw hd]; rfl

end Sys2Proof.Machine
end

