-- ==== Sys2Proof/Tests/Slice0.lean ====
section
/-!
SUPPORT. The author's tests: ill-formed terms that WellFormed refuses, words written out from the encoding tables, small runs
whose results the manual gives, and for each statement of Sys2Proof/Certificates/Slice0/Obligations.lean states and operands
that meet the hypotheses of its clauses.
-/
namespace Sys2Proof.Tests
set_option Elab.async false
open Sys2Proof Sys2Proof.Machine

/-! ### Helpers -/

/-- The fields of an unguarded word without full/empty bits, cross-lane modifier or hints. -/
def w (d a b : Opnd) (imm : BitVec 21 := 0) : Ops := ⟨Guard.always, d, a, b, false, false, false, .none, imm, 0⟩

/-- Every word of a list decodes to the instruction beside it. -/
def reads (l : List (BitVec 96 × Instr)) : Bool := l.all fun p => decode p.1 == some p.2

/-- One supervisor wave of 128 threads on core 0, about to issue. -/
def demo : State := State.reset.withFetchWord 96 0

/-- The same with its wave changed. -/
def demoW (f : Wave → Wave) : State := demo.modWave 0 0 f

/-- The same with scalar registers set. -/
def demoS (xs : List (Nat × DWord)) : State := demoW fun v => xs.foldl (fun v x => v.putS x.1 x.2) v

/-- A vector instruction runs in a state, and a condition holds of its threads. -/
def vecMet (s : State) (g : Guard) (us : Ctx → List Use) (when_ : Ctx → Mask → Bool := fun _ _ => true) : Bool :=
  s.ctx?.any fun c => c.active g != 0 && (c.check (c.active g) c.f.exec g (us c)).isNone && when_ c (c.active g)

/-- A uniform instruction runs in a state, and a condition holds there. -/
def onceMet (s : State) (g : Guard) (us : Ctx → List Use) (when_ : Ctx → Bool := fun _ => true) : Bool :=
  s.ctx?.any fun c => g != Guard.never && (c.check c.guardScope c.guardScope g (us c)).isNone && c.uniformRuns g && when_ c

/-- What `vecMet` says. -/
theorem vecMet_runs {s : State} {g : Guard} {us : Ctx → List Use} {p : Ctx → Mask → Bool} (h : vecMet s g us p = true) :
    ∃ c act, s.ctx? = some c ∧ c.RunsIn g (us c) act ∧ p c act = true := by
  simp only [vecMet, Option.any_eq_true, Bool.and_eq_true, Option.isNone_iff_eq_none, bne_iff_ne, ne_eq] at h
  obtain ⟨c, hc, ⟨hz, hn⟩, hp⟩ := h
  exact ⟨c, _, hc, ⟨rfl, hz, hn⟩, hp⟩

/-- What `onceMet` says. -/
theorem onceMet_runs {s : State} {g : Guard} {us : Ctx → List Use} {p : Ctx → Bool} (h : onceMet s g us p = true) :
    ∃ c, s.ctx? = some c ∧ c.RunsOnce g (us c) ∧ p c = true := by
  simp only [onceMet, Option.any_eq_true, Bool.and_eq_true, Option.isNone_iff_eq_none, bne_iff_ne, ne_eq] at h
  obtain ⟨c, hc, ⟨⟨hg, hn⟩, hu⟩, hp⟩ := h
  exact ⟨c, hc, ⟨hg, hn, hu⟩, hp⟩

/-- Shapes of thread-by-thread instructions, each with the operands of a vector form and of a uniform form: both run, and no
upset is pending. -/
def lanesMet (l : List (Ops × Ops × Plan)) : Bool :=
  demo.upsets.isEmpty && l.all fun x => x.1.anyV && vecMet demo x.1.guard (fun _ => x.2.2.uses x.1) &&
    !x.2.1.anyV && onceMet demo x.2.1.guard (fun _ => x.2.2.uses x.2.1)

/-- The vector and the uniform form of an instruction with three register operands, of two, and of one whose destination is a
predicate. -/
def regs3 (pl : Plan) : Ops × Ops × Plan := (w (.v 2) (.v 4) (.v 6), w (.s 2) (.s 4) (.s 6), pl)
def regs2 (pl : Plan) : Ops × Ops × Plan := (w (.v 2) (.v 4) .unused, w (.s 2) (.s 4) .unused, pl)
def regsP (pl : Plan) : Ops × Ops × Plan := (w (.p 1) (.v 4) (.v 6), w (.p 1) (.s 4) (.s 6), { pl with pout := some 1 })

/-! ### WellFormed refuses -/

/-- Ill-formed terms of the families that compute: a wrong type, class, pair, group, immediate, full/empty bit or modifier. -/
theorem test_wf_refuses_computing : (([
    .iadd (w (.v 1) (.v 2) (.v 3)) .b32 false,
    .iadd (w (.p 1) (.v 2) (.v 3)) .s32 false,
    .iadd (w (.v 1) (.p 2) (.v 3)) .s32 false,
    .iadd (w (.v 1) (.v 2) (.t 3)) .s32 false,
    .iadd (w (.s 1) (.v 2) (.v 3)) .s32 false,                                            -- a vector form with a scalar destination
    .iadd (w (.v 1) (.v 2) (.v 4)) .s64 false,                                            -- an odd pair, in each field
    .iadd (w (.v 2) (.v 3) (.v 4)) .s64 false,
    .iadd (w (.v 2) (.v 4) (.v 5)) .s64 false,
    .iadd (w (.v 1) .imm .imm 3) .s32 false,
    .iadd (w (.v 1) (.v 2) (.v 3) 1) .s32 false,
    .iadd { w (.v 1) .zero (.v 3) with feA := true } .s32 false,
    .iadd { w (.v 1) (.v 2) .imm with feB := true } .s32 false,
    .iadd { w (.v 1) (.v 2) (.v 3) with feD := true } .s32 false,
    .iadd { w (.v 1) (.s 2) (.v 3) with xl := .xor 1 } .s32 false,
    .iadd { w (.v 1) (.v 2) (.v 3) with xl := .rot 0 } .s32 false,
    .padd (w (.v 1) (.v 2) .imm (2 ^ 8)) .s8 .fpmode false,                               -- immediates too wide for their type
    .padd (w (.v 1) (.v 2) .imm (2 ^ 16)) .s16 .fpmode false,
    .padd (w (.v 1) (.v 2) .imm (2 ^ 4)) .e2m1 .fpmode false,
    .padd (w (.v 1) (.v 2) (.v 3)) .s8 .rne false,
    .icmp (w (.v 1) (.v 2) (.v 3)) .s32 .lt,
    .iabs (w (.v 1) (.v 2) (.v 3)) .s32 false,
    .and (w (.p 1) (.v 2) (.p 3)) .b32,
    .mov (w (.exec) (.v 2) .unused) .b32,
    .mov (w (.s 1) (.v 2) .unused) .b32,
    .movh (w (.v 1) .unused .unused (2 ^ 11)) .b32 .h0,
    .lea (w (.v 2) .imm (.v 5) 3) .s32 0,
    .fcmp (w (.p 1) (.v 2) (.v 3)) .f32 .lt true,
    .fcvt (w (.v 1) (.v 2) .unused) .f32 .rne false false .f16,
    .pcvt (w (.v 1) (.v 2) .unused) .f32 .fpmode false .f16 2 false false,
    .cbenc (w .zero (.v 2) (.v 3)) 0 0,
    .retag (w (.v 1) .unused .unused) 17,
    .shfli (w (.v 1) (.v 2) .unused 8) .b32 .idx true false,
    .redstep (w (.v 1) (.v 2) .unused) .f32 .and 1,
    .redstep (w (.v 1) (.v 2) .unused) .f32 .add 0,
    .scan (w (.s 1) (.v 2) .unused) .s32 .add false,
    .ballot (w (.v 1) (.p 2) .unused) false,
    .matchLanes (w (.v 1) (.v 3) .unused) .n64 false]) : List Instr).all (fun i => !i.wf) = true := by decide +kernel

/-- Ill-formed terms of the other families, and events of agents that do not exist. -/
theorem test_wf_refuses_the_rest : (([
    .bru (w .unused (.v 2) .unused) .z,
    .call (w .unused .unused .unused) false,
    .rep { w .unused .unused .unused with guard := ⟨false, 1⟩ } 1 0 0 0,
    .racq (w (.p 1) .unused .unused) 17,
    .rrel (w .unused .unused .unused) 0,
    .waitr (w .unused (.s 60) .unused) 4,
    .rdsr (w (.s 1) .unused .unused) 0x0B,
    .wrsr (w .unused (.s 1) .unused) 0x09,
    .ld (w (.v 1) (.v 3) .unused) .b32 false .x1 0,                                      -- an odd address pair
    .ld (w (.v 1) (.s 2) .unused) .b32 true .x1 0,
    .ld (w (.v 1) (.s 2) .unused) .e2m1 true .x1 2,
    .lds (w (.v 1) (.s 2) .unused) .e2m1 true .x1,
    .lds (w (.s 1) (.v 2) .unused) .b32 false .x1,
    .ldu (w (.s 62) (.s 2) .unused) .b32 .x4,
    .sts (w .unused (.s 2) (.v 4)) .b32 false .x1 true,
    .stm (w (.p 1) (.s 2) (.v 4)) true,
    .atom (w (.v 1) (.s 2) (.v 4)) .b32 .add,
    .cas (w .zero (.s 2) (.v 4)) .b32,
    .sc (w .zero (.s 2) .zero) .b32,
    .acq (w (.s 1) (.s 2) .unused) .wave,
    .barinit (w .unused (.s 2) .unused) 49,
    .barwait (w (.s 1) (.s 2) .zero),
    .tld (w (.v 1) (.s 2) (.s 3)) .f16 false,
    .vxm (w (.v 0) (.v 4) (.v 16)) .rne,
    .vxm (w (.v 8) (.v 8) (.v 16)) .rne,
    .boxt (w (.v 0) (.v 8) (.s 2) 0x40) false,
    .lathrun (w (.v 8) (.v 10) (.s 2)) 0 3,
    .gzarr (w (.v 1) (.v 2) (.v 5)),
    .gzrd (w (.v 4) (.v 2) .unused) false,
    .fcmt (w .unused (.s 1) (.s 2)),
    .emit (w .zero (.v 2) .unused) 0 0,
    .crrd (w (.s 1) (.v 2) .unused) 2,
    .crrd (w (.s 1) .zero .unused) 4,
    .tlbp (w .zero (.s 2) .unused) false,
    .loadCompletion 194 0, .blockGrant 0 3, .queueMarkerCompletion 0 2, .ageSweep 96, .matrixChunk 97, .fillerCreation 0 0 0, .pageTableWalk 3 0,
    .bucketMove 4096, .gddrLinkError 16, .launch 32 0, .launch 0 16, .functionLevelReset 256, .stage1 [96] [], .headEnable 4,
    .bandTeamStart 0 0 191]) : List Instr).all (fun i => !i.wf) = true := by decide +kernel

/-- Words of no instruction: one that names a reserved operand, and one whose reserved bits are set. -/
theorem test_decode_refuses : decode (2 ^ 96 - 1) = none ∧ decode 0 = none := by decide +kernel
theorem test_decode_integerWords : reads [
    (0x120000004600180A02007401, .iadd ⟨⟨true, 2⟩, (.v 3), (.v 4), (.v 5), true, true, false, .none, 0, 18⟩ .s32 true),
    (0x000000804E0004240300CE02, .isub (w (.v 6) (.v 6) .imm 0x10) .n32 true),
    (0x00000005CE00000801000E03, .iaddc (w (.v 0) (.v 2) (.v 4) 0) .n32 true 3 true),
    (0x000000000600020A02006E04, .imul (w (.v 3) (.v 4) (.s 5) 0) .s32 false),
    (0x000000001000020A82206E05, .imulh (w (.s 3) (.s 4) (.s 5) 0) .n64),
    (0x000000000600000A02004E06, .imulw (w (.v 2) (.v 4) (.v 5) 0) .s32),
    (0x000000000600200601002E07, .imad ⟨⟨false, 7⟩, (.v 1), (.v 2), (.v 3), false, false, true, .none, 0, 0⟩ .s32 false),
    (0x000000000E00042201002E08, .imin (w (.v 1) (.v 2) .zero 0) .n32),
    (0x000000000600000601002E09, .imax (w (.v 1) (.v 2) (.v 3) 0) .s32),
    (0x000000004600000001002E0A, .iabs (w (.v 1) (.v 2) .unused 0) .s32 true),
    (0x000000000800000002004E0B, .ineg (w (.v 2) (.v 4) .unused 0) .s64 false),
    (0x000000000600000601002E0C, .iaddmin (w (.v 1) (.v 2) (.v 3) 0) .s32 false),
    (0x000000004600000601002E0D, .iaddmax (w (.v 1) (.v 2) (.v 3) 0) .s32 true),
    (0x000000008600000601404E0E, .icmp (w (.p 2) (.v 2) (.v 3) 0) .s32 .lt),
    (0x000000000000000601002E0F, .and (w (.v 1) (.v 2) (.v 3) 0) .b32),
    (0x000000000000040701402E10, .or (w (.p 1) (.p 2) (.p 3) 0) .b32),
    (0x000000000018800601002E11, .xor ⟨⟨false, 7⟩, (.v 1), (.v 2), (.v 3), false, false, false, .xor 3, 0, 0⟩ .b32),
    (0x000000000000000601002E12, .andn (w (.v 1) (.v 2) (.v 3) 0) .b32),
    (0x000000000000000101402E13, .not (w (.p 1) (.p 2) .unused 0) .b32),
    (0x000000280000042401002E14, .shl (w (.v 1) (.v 2) .imm 5) .b32),
    (0x000000001000000C02004E15, .shr (w (.v 2) (.v 4) (.v 6) 0) .n64),
    (0x000000000000020681202E16, .sar (w (.s 1) (.s 2) (.s 3) 0) .b32),
    (0x000000000044400601002E17, .rot ⟨⟨false, 7⟩, (.v 1), (.v 2), (.v 3), false, false, false, .shift 8 .srcb, 0, 0⟩ .b32)] = true := by decide +kernel

theorem test_decode_bitsWords : reads [
    (0x000000000000000601002E18, .fshl (w (.v 1) (.v 2) (.v 3) 0)),
    (0x000000000000000601002E19, .fshr (w (.v 1) (.v 2) (.v 3) 0)),
    (0x000004280E00042401002E1A, .bfx (w (.v 1) (.v 2) .imm 0x85) .n32),
    (0x000000000000000601002E1B, .bfi (w (.v 1) (.v 2) (.v 3) 0)),
    (0x000000001000000001002E1C, .popc (w (.v 1) (.v 2) .unused 0) .n64),
    (0x000000000000000001002E1D, .clz (w (.v 1) (.v 2) .unused 0) .b32),
    (0x000000000000000001002E1E, .ctz (w (.v 1) (.v 2) .unused 0) .b32),
    (0x000000000000000001002E1F, .brev (w (.v 1) (.v 2) .unused 0) .b32),
    (0x000009180000042404012E20, .bperm (w (.v 9) (.v 8) .imm 0x123)),
    (0x000000068000000601002E21, .sel (w (.v 1) (.v 2) (.v 3) 0) .b32 5 true),
    (0x000000000000000101C20E22, .mov (w .exec (.p 3) .unused 0) .b32),
    (0x00FFFFF80E00000000002E23, .movi (w (.v 1) .unused .unused 0x1fffff) .n32),
    (0x00F807F85000000000004E24, .movh (w (.v 2) .unused .unused 0x1f00ff) .n64 .h1),
    (0x00000000CE00000C02004E25, .lea (w (.v 2) (.v 4) (.v 6) 0) .n32 3),
    (0x000000440000042402004E26, .iadd64 (w (.v 2) (.v 4) .imm 8) true),
    (0x000000008200000601002E27, .idp4 (w (.v 1) (.v 2) (.v 3) 0) .s8 false true),
    (0x000000004C00000601002E28, .idp2 (w (.v 1) (.v 2) (.v 3) 0) .n16 true false)] = true := by decide +kernel

theorem test_decode_floatWords : reads [
    (0x000000011200000601002E40, .fadd (w (.v 1) (.v 2) (.v 3) 0) .f32 .rne),
    (0x000000015400000601002E41, .fsub (w (.v 1) (.v 2) (.v 3) 0) .f16 .rtz),
    (0x000000019600000601002E42, .fmul (w (.v 1) (.v 2) (.v 3) 0) .bf16 .rup),
    (0x00000001D200000601002E43, .ffma (w (.v 1) (.v 2) (.v 3) 0) .f32 .rdn),
    (0x000000001200000601002E44, .fmin (w (.v 1) (.v 2) (.v 3) 0) .f32),
    (0x000000001200000601002E45, .fmax (w (.v 1) (.v 2) (.v 3) 0) .f32),
    (0x000000039400000601402E46, .fcmp (w (.p 1) (.v 2) (.v 3) 0) .f16 .ord true),
    (0x000000015200000001002E47, .frcp (w (.v 1) (.v 2) .unused 0) .rtz),
    (0x000000001200000001002E48, .frsq (w (.v 1) (.v 2) .unused 0)),
    (0x000000001200000001002E49, .fsqrt (w (.v 1) (.v 2) .unused 0) .fpmode),
    (0x000000001200000001002E4A, .fexp2 (w (.v 1) (.v 2) .unused 0)),
    (0x000000001200000001002E4B, .flog2 (w (.v 1) (.v 2) .unused 0)),
    (0x000000001200000001002E4C, .fsinpi (w (.v 1) (.v 2) .unused 0)),
    (0x000000001200000001002E4D, .fcospi (w (.v 1) (.v 2) .unused 0)),
    (0x000000001200000001002E4E, .ftanh (w (.v 1) (.v 2) .unused 0)),
    (0x00000001D200000001002E4F, .frnd (w (.v 1) (.v 2) .unused 0) .f32 .rdn),
    (0x0000001A1600042401402E50, .fclass (w (.p 1) (.v 2) .imm 3) .bf16 true),
    (0x000000001200000601002E51, .fscaleb (w (.v 1) (.v 2) (.v 3) 0) .f32 .fpmode),
    (0x000000001200000001002E52, .fexpt (w (.v 1) (.v 2) .unused 0)),
    (0x0000004D1400000601002E53, .fcvt (w (.v 1) (.v 2) (.v 3) 0) .f16 .rne false true .f32),
    (0x000000520600000001002E54, .fcvti (w (.v 1) (.v 2) .unused 0) .s32 .fpmode true .f16),
    (0x000000219200000001002E55, .icvtf (w (.v 1) (.v 2) .unused 0) .f32 .rup false .s64),
    (0x000000001600000601002E56, .fdot2 (w (.v 1) (.v 2) (.v 3) 0) .bf16 .fpmode)] = true := by decide +kernel

theorem test_decode_narrowWords : reads [
    (0x000000020200000601002E80, .padd (w (.v 1) (.v 2) (.v 3) 0) .s8 .fpmode true),
    (0x000000011800000601002E81, .pmul (w (.v 1) (.v 2) (.v 3) 0) .e4m3 .rne false),
    (0x000000000C00000601002E82, .pfma (w (.v 1) (.v 2) (.v 3) 0) .n16 .fpmode false),
    (0x000000002000000601002E83, .pmin (w (.v 1) (.v 2) (.v 3) 0) .e2m1),
    (0x000000001A00000601002E84, .pmax (w (.v 1) (.v 2) (.v 3) 0) .e5m2),
    (0x000005811200000001002E85, .pcvt (w (.v 1) (.v 2) .unused 0) .f32 .rne false .e2m1 5 false false),
    (0x000000021800000601002E86, .pdot4 (w (.v 1) (.v 2) (.v 3) 0) .e4m3 .fpmode true),
    (0x0000002C1600000001002E87, .cbdec (w (.v 1) (.v 2) .unused 0) 2 5),
    (0x000000322200042201002E88, .cbenc (w (.v 1) (.v 2) .zero 0) true 6),
    (0x000000480000000000606E89, .retag (w (.t 3) .unused .unused 0) 9)] = true := by decide +kernel

theorem test_decode_crossLaneWords : reads [
    (0x000000020000020601002E8A, .shfl (w (.v 1) (.v 2) (.s 3) 0) .b32 true),
    (0x00000011C00000000200AE8B, .shfli (w (.v 5) (.v 4) .unused 2) .b32 .xor true false),
    (0x00FFFFF80000020C05016E8C, .lsh (w (.v 11) (.v 10) (.s 6) 0x1fffff) .b32),
    (0x000000000000042401A18E8D, .bcast (w (.s 12) (.v 3) .imm 0) .b32),
    (0x000000381200000000804E8E, .redstep (w (.v 2) (.v 1) .unused 0) .f32 .add 7),
    (0x000000008E00000003208E8F, .reduce (w (.s 4) (.v 6) .unused 0) .n32 .max),
    (0x000000020E00000004012E90, .scan (w (.v 9) (.v 8) .unused 0) .n32 .add true),
    (0x000000020000000100A28E91, .ballot (w (.s 20) (.p 1) .unused 0) true),
    (0x000000004000000101408E92, .vote (w (.p 4) (.p 2) .unused 0) .all),
    (0x00000000000000000040AE93, .elect (w (.p 5) .unused .unused 0)),
    (0x00000002000000000601AE94, .matchLanes (w (.v 13) (.v 12) .unused 0) .b32 true)] = true := by decide +kernel

theorem test_decode_controlWords : reads [
    (0x00FFFFE800000000000016C0, .bra ⟨⟨true, 3⟩, .unused, .unused, .unused, false, false, false, .none, 2097149, 0⟩),
    (0x000000280400000081800EC1, .bru (w .unused (.s 3) .unused 5) .z),
    (0x000000280000000081800EC2, .brx (w .unused (.s 3) .unused 5)),
    (0x000000000200000081A12EC3, .call (w (.s 9) (.s 3) .unused 0) true),
    (0x000000000000000084800EC4, .ret (w .unused (.s 9) .unused 0)),
    (0x000000000000000000000EC5, .exit (w .unused .unused .unused 0)),
    (0x000000480000000000000EC6, .joinp (w .unused .unused .unused 9)),
    (0x000000387200000000000EC7, .rep (w .unused .unused .unused 0) 1 7 0 7),
    (0x000000000000000000000EC8, .yield (w .unused .unused .unused 0)),
    (0xFF0000000000000000000EC9, .nop ⟨⟨false, 7⟩, .unused, .unused, .unused, false, false, false, .none, 0, 255⟩),
    (0x000000780000000004000ECA, .waitr (w .unused (.v 8) .unused 0) 15),
    (0x000000000000000101402ECB, .execs (w (.p 1) (.p 2) .unused 0)),
    (0x000000000000000101000ECC, .execr (w .unused (.p 2) .unused 0)),
    (0x000000800000000000402ECD, .racq (w (.p 1) .unused .unused 0) 16),
    (0x000000080000000000000ECE, .rrel (w .unused .unused .unused 0) 1),
    (0x000000000000000000202ECF, .rqry (w (.s 1) .unused .unused 0)),
    (0x000001380000000000002ED0, .rdsr (w (.v 1) .unused .unused 0) 0x27),
    (0x000000500000000080800ED1, .wrsr (w .unused (.s 1) .unused 0) 0x0A),
    (0x000000300000000000422ED2, .xcnt (w .zero .unused .unused 0) .nanin),
    (0x0007FFF80000000000000ED3, .trap (w .unused .unused .unused 0) 0xFFFF),
    (0x000000180000000000000ED4, .bkpt (w .unused .unused .unused 0) 3),
    (0x000000000000000000202ED5, .cycle (w (.s 1) .unused .unused 0))] = true := by decide +kernel

theorem test_decode_memoryWords : reads [
    (0x000000026000000002010F00, .ld (w (.v 8) (.v 4) .unused 0) .e2m1 true .x1 1),
    (0x00FFFE010000000082010F01, .ldnc (w (.v 8) (.s 4) .unused 0x1fffc0) .b32 false .x4 0),
    (0x000000409200001002000F02, .st (w .unused (.v 4) (.v 8) 8) .f32 false .x2 0),
    (0x000000000A00042202000F03, .stnt (w .unused (.v 4) .zero 0) .n8 false .x1 0),
    (0x000000004000001082408F04, .stm (w (.p 4) (.s 4) (.v 8) 0) true),
    (0x000000809000000082210F05, .lds (w (.s 8) (.s 4) .unused 0x10) .n64 false .x2),
    (0x000000020000201002212F06, .sts ⟨⟨false, 7⟩, (.s 9), (.v 4), (.v 8), false, false, true, .none, 0, 0⟩ .b32 false .x1 true),
    (0x000000010E00000082210F07, .ldu (w (.s 8) (.s 4) .unused 0) .n32 .x4),
    (0x003FFF800000020A82210F08, .ldmc (w (.s 8) (.s 4) (.s 5) 0) 0x7FFF0),
    (0x000000218000000C02010F09, .atom (w (.v 8) (.v 4) (.v 6) 4) .b32 .exch),
    (0x000000205400000C02010F0A, .atomf (w (.v 8) (.v 4) (.v 6) 4) .f16 .min),
    (0x000000401000000C02010F0B, .cas (w (.v 8) (.v 4) (.v 6) 8) .n64),
    (0x000000208600000C02C22F0C, .atoms (w .zero (.v 5) (.v 6) 4) .s32 .max),
    (0x000000200000000002010F0D, .lr (w (.v 8) (.v 4) .unused 4) .b32),
    (0x000000200000000C02012F0E, .sc (w (.v 9) (.v 4) (.v 6) 4) .b32),
    (0x000004004000000002000F0F, .pref (w .unused (.v 4) .unused 0x80) true),
    (0x00000000C000020A82000F10, .thint (w .unused (.s 4) (.s 5) 0) .pin),
    (0x000000001800000000000F11, .fence (w .unused .unused .unused 0) .system true),
    (0x00FFFFC0080000008620AF12, .acq (w (.s 5) (.s 12) .unused 0x1ffff8) .system),
    (0x000000000600042286000F13, .rel (w .unused (.s 12) .zero 0) .device),
    (0x000000784000020681202F14, .bind (w (.s 1) (.s 2) (.s 3) 0) true 15)] = true := by decide +kernel

theorem test_decode_engineWords : reads [
    (0x000008006000000081000F40, .barinit (w .unused (.s 2) .unused 0x100) 48),
    (0x000008000000020E8120CF41, .bararr (w (.s 6) (.s 2) (.s 7) 0x100)),
    (0x000008000000020E81422F42, .barwait (w .zero (.s 2) (.s 7) 0x100)),
    (0x00000800000004228120CF43, .barsync (w (.s 6) (.s 2) .zero 0x100)),
    (0x00FFFF800000020E81000F44, .barexp (w .unused (.s 2) (.s 7) 0x1ffff0)),
    (0x000008000000020E8120CF45, .barq (w (.s 6) (.s 2) (.s 7) 0x100)),
    (0x000001000000000081000F46, .kick (w .unused (.s 2) .unused 0x20)),
    (0x000000383800000109000F47, .eqst (w .unused .imm .unused 7) .q4 3),
    (0x000000000400000000000B48, .eqgo ⟨⟨false, 5⟩, .unused, .unused, .unused, false, false, false, .none, 0, 0⟩ .q2),
    (0x000000F80000000000000F49, .eqfence (w .unused .unused .unused 0) 0x1F),
    (0x000001F80600000000202F4A, .eqwait (w (.s 1) .unused .unused 0) .q3 63),
    (0x000000805600021284602F4B, .tld (w (.t 1) (.s 8) (.s 9) 0x10) .bf16 true),
    (0x000000800000021284602F4C, .tst (w (.t 1) (.s 8) (.s 9) 0x10) false),
    (0x000000000000000181602F4D, .tcpy (w (.t 1) (.t 2) .unused 0)),
    (0x000000804000000084602F4E, .tcb (w (.t 1) (.s 8) .unused 0x10) true),
    (0x000000000000000000202F4F, .mxprg (w (.s 1) .unused .unused 0)),
    (0x000000014000000804050F50, .vxm (w (.v 40) (.v 8) (.v 4) 0) .rtz)] = true := by decide +kernel

theorem test_decode_traversalWords : reads [
    (0x000004004000000804020F80, .boxt (w (.v 16) (.v 8) (.v 4) 0x80) true),
    (0x000000800000020404008F81, .trit (w (.v 4) (.v 8) (.s 2) 0x10)),
    (0x000000800000000681402F82, .spush (w (.p 1) (.s 2) (.v 3) 0x10)),
    (0x000000830000000081006F83, .spop (w (.v 3) (.s 2) .unused 0x10) 6),
    (0x000000808000000081006F84, .speek (w (.v 3) (.s 2) .unused 0x10) 1),
    (0x000000000000000000000F85, .sclr (w .unused .unused .unused 0)),
    (0x000000004000000081000F86, .lathreq (w .unused (.s 2) .unused 0) true),
    (0x000000003E00020404020F87, .lathrun (w (.v 16) (.v 8) (.s 2) 0) 7 3),
    (0x000000000000000081202F88, .lathwait (w (.s 1) (.s 2) .unused 0)),
    (0x000000000000001404018F89, .gzarr (w (.v 12) (.v 8) (.v 10) 0)),
    (0x000000004000000081020F8A, .gzrd (w (.v 16) (.s 2) .unused 0) true),
    (0x000000000000000001000F8B, .gzclr (w .unused (.v 2) .unused 0) false),
    (0x000000000000020681000F8C, .gzrpl (w .unused (.s 2) (.s 3) 0)),
    (0x000000000000000000422F8D, .gzst (w .zero .unused .unused 0))] = true := by decide +kernel

theorem test_decode_graphWords : reads [
    (0x000000000000000000202F8E, .fget (w (.s 1) .unused .unused 0)),
    (0x000010000000002084000F8F, .fcmt (w .unused (.s 8) (.v 16) 0x200)),
    (0x000000004000000000000F90, .fpsn (w .unused .unused .unused 0) true),
    (0x000000000000000000000F91, .fend (w .unused .unused .unused 0)),
    (0x000000200000000081202F92, .gprobe (w (.s 1) (.s 2) .unused 4)),
    (0x000000400000042281000F93, .tgcond (w .unused (.s 2) .zero 8)),
    (0x000400080000000000000F94, .tgsig (w .unused .unused .unused 0) 0x8001),
    (0x000000800000000000000F95, .tgwait (w .unused .unused .unused 0) 0x10),
    (0x000007F00000000004402F96, .emit (w (.p 1) (.v 8) .unused 0) 62 3)] = true := by decide +kernel

theorem test_decode_systemWords : reads [
    (0x000000900000000000000FC0, .syscall (w .unused .unused .unused 0) 0x12),
    (0x000000000000000000000FC1, .eret (w .unused .unused .unused 0)),
    (0x000100200000000108A02FC2, .crrd (w (.s 1) .zero .unused 0) 0x2004),
    (0x000280380000020480800FC3, .crwr (w .unused (.s 1) (.s 2) 0) 0x5007),
    (0x000000000A00000000000FC4, .tlbi (w .unused .unused .unused 0) true .device),
    (0x000000000200000081202FC5, .tlbp (w (.s 1) (.s 2) .unused 0) true),
    (0x000000000000000081202FC6, .wkill (w (.s 1) (.s 2) .unused 0)),
    (0x000000000000000081202FC7, .wsusp (w (.s 1) (.s 2) .unused 0)),
    (0x000000000000000081422FC8, .wresm (w .zero (.s 2) .unused 0)),
    (0x000091A00000000000000FC9, .halt (w .unused .unused .unused 0) 0x1234)] = true := by decide +kernel
/-! ### Results -/

/-- The next state of an instruction or event. -/
def after (i : Instr) (s : State) : State := match exec i s with | .next t => t | _ => s

/-- Scalar register 8 after a uniform instruction, and bits 31:0 of it, with s4 to s7 as given. -/
def s8 (i : Instr) (xs : List DWord) : Option DWord :=
  ((after i (demoS (xs.zipIdx.map fun x => (4 + x.2, x.1)))).wave? 0 0).map fun v => (v.s 8).val
def w8 (i : Instr) (xs : List DWord) : Option Word := (s8 i xs).map fun x => x.setWidth 32

/-- The operands s8, s4, s5. -/
def o845 : Ops := w (.s 8) (.s 4) (.s 5)

/-- IADD wraps and saturates (R136). -/
theorem test_iadd_wraps : s8 (.iadd o845 .s32 false) [0x7FFFFFFF, 1] = some 0xFFFFFFFF80000000 := by decide +kernel
theorem test_iadd_saturates : s8 (.iadd o845 .s32 true) [0x7FFFFFFF, 1] = some 0x7FFFFFFF := by decide +kernel
/-- A source that is also the destination, and one that the subtraction reads first. -/
theorem test_isub_in_place : w8 (.isub (w (.s 8) (.s 8) (.s 4)) .n32 false) [1] = some 0xFFFFFFFF := by decide +kernel
theorem test_isub_saturates : w8 (.isub o845 .n32 true) [1, 2] = some 0 := by decide +kernel
/-- The high half of a product of 64 bits. -/
theorem test_imulh_n64 : s8 (.imulh o845 .n64) [0xFFFFFFFFFFFFFFFF, 0xFFFFFFFFFFFFFFFF] = some 0xFFFFFFFFFFFFFFFE := by decide +kernel
/-- Counts of the width or more do not wrap (R142). -/
theorem test_shl_past_the_width : w8 (.shl o845 .b32) [1, 32] = some 0 := by decide +kernel
theorem test_sar_past_the_width : w8 (.sar o845 .b32) [0x80000000, 40] = some 0xFFFFFFFF := by decide +kernel
/-- The manual's example: bits 7:3 of v4 (R144). -/
theorem test_bfx_example : w8 (.bfx o845 .n32) [0xFFFFFFA8, 0x0503] = some 0x15 := by decide +kernel
theorem test_bfx_sign : w8 (.bfx o845 .s32) [0xFFFFFFA8, 0x0503] = some 0xFFFFFFF5 := by decide +kernel
/-- The manual's example: reverse the bytes (R146). -/
theorem test_bperm_reverses : w8 (.bperm o845) [0x11223344, 0x0123] = some 0x44332211 := by decide +kernel
/-- One number against a NaN, and the two zeros (R156). -/
theorem test_fmin_nan : w8 (.fmin o845 .f32) [0x7FC00000, 0x40000000] = some 0x40000000 := by decide +kernel
theorem test_fmax_zeros : w8 (.fmax o845 .f32) [0x80000000, 0x00000000] = some 0 := by decide +kernel
/-- 1.5 + 2.5, and the square of the largest finite value, which rounds to infinity. -/
theorem test_fadd : w8 (.fadd o845 .f32 .rne) [0x3FC00000, 0x40200000] = some 0x40800000 := by decide +kernel
theorem test_fmul_overflows : w8 (.fmul o845 .f32 .rne) [0x7F7FFFFF, 0x7F7FFFFF] = some 0x7F800000 := by decide +kernel

/-- BRA goes to the instruction's address plus 4 × off, a signed offset (R185, R187), and EXIT of all of a wave's threads retires it. -/
theorem test_bra_back : ((after (.bra (w .unused .unused .unused 0x1FFFFE)) demo).ctx?.map fun c => c.f.pc) = (demo.ctx?.map fun c => c.f.pc - 8) := by
  decide +kernel
theorem test_exit : ((after (.exit (w .unused .unused .unused)) demo).wave? 0 0).isNone = true := by decide +kernel

/-- SYSCALL at user level enters the handler with its frame (R346 to R349): RESUME the next word, the cause and the code. -/
theorem test_syscall :
    (let s := demoS []
     let t := after (.syscall (w .unused .unused .unused) 0x12)
       ((s.modWave 0 0 fun v => v.modCur fun f => { f with level := .user }).setPart 0 { s.part 0 with tvec := 0x2001 })
     let off := s.frameOff 0 0
     t.ctx?.any fun c => c.f.pc == 0x2000 && c.f.level == .supervisor && t.spNat 0 off 8 == 0x1000C && t.spNat 0 (off + 8) 1 == 14 &&
       t.spNat 0 (off + 10) 2 == 0x12) = true := by decide +kernel
/-- At supervisor level the trap kills the wave (R347). -/
theorem test_syscall_supervisor : ((after (.syscall (w .unused .unused .unused) 0x12) demo).wave? 0 0).isNone = true := by decide +kernel

/-- A scratchpad store is read back in little-endian order (R64, R208). -/
theorem test_sts_bytes :
    (let t := after (.sts (w .unused (.s 5) (.s 4)) .b32 false .x1 false) (demoS [(4, 0x11223344), (5, 0x100)])
     [t.spNat 0 0x100 1, t.spNat 0 0x103 1, t.spNat 0 0x104 1] == [0x44, 0x11, 0]) = true := by decide +kernel

/-- BARINIT starts a phase 0 with its arrivals expected, and the last BARARR ends the phase (R221, R223). -/
theorem test_barrier_phase :
    (let t := after (.barinit (w .unused (.s 5) .unused) 1) (demoS [(5, 0x100)])
     let u := after (.bararr (w (.s 8) (.s 5) .zero)) t
     (t.bar 0 0x100).arrexp == 1 && (t.bar 0 0x100).phase == 0 && (u.bar 0 0x100).phase == 1 && (u.bar 0 0x100).arrived == 0 &&
       (u.wave? 0 0).any fun v => (v.s 8).val == 0) = true := by decide +kernel

/-! ### Witnesses: the hypotheses of the statements, clause by clause -/

theorem witness_IntegerArithmeticResults : lanesMet
    ([.s32, .n32, .s64, .n64].flatMap fun ty =>
      [regs3 (intPlan ty fun _ => {}), regs2 (intPlan ty fun _ => {}), regs3 { intPlan ty (fun _ => {}) with readD := true },
       regs3 { intPlan ty (fun _ => {}) with pin := some (3, false), pout := some 3 }, regs3 { intPlan ty (fun _ => {}) with out64 := true },
       regsP (intPlan ty fun _ => {})]) = true := by decide +kernel

theorem witness_IntegerBitAndMoveResults : lanesMet
    ([.b32, .n64].flatMap (fun ty =>
      [regs3 (bitPlan ty fun _ => {}), regs2 (bitPlan ty fun _ => {}), regs3 { bitPlan ty (fun _ => {}) with tyB := .b32 }, regs2 (countPlan ty id),
       regs3 { bitPlan ty (fun _ => {}) with pin := some (1, true), pick := true }, regsP (bitPlan ty fun _ => {})]) ++
      [regs3 { bitPlan .b32 (fun _ => {}) with readD := true }, regs3 (intPlan .n32 fun _ => {}),
       (w (.v 2) .unused .unused 5, w (.s 2) .unused .unused 5, intPlan .s64 fun _ => {}),
       (w (.v 2) .unused .unused 5, w (.s 2) .unused .unused 5, { intPlan .s64 (fun _ => {}) with readD := true }),
       regs3 { tyA := .n64, tyB := .s32, tagA := addrTags, tagB := fun _ => Ty.s32.tags, out64 := true, run := fun _ => {} },
       regs3 { tyA := .n64, tyB := .n64, tagA := addrTags, tagB := fun i => some [0, 1, 2, if i = 0 then 14 else 15], out64 := true, run := fun _ => {} },
       regs3 (dotPlan .s8 false true 4 8), regs3 (dotPlan .n16 true false 2 16)]) = true ∧
    -- MOV from a predicate to a vector register
    vecMet demo Guard.always (fun _ => (bitPlan .b32 fun _ => {}).uses (w (.v 1) (.p 1) .unused)) = true := by decide +kernel

theorem witness_FloatingPointResults : lanesMet
    ([.f32, .f16, .bf16].flatMap (fun ty =>
      [regs3 (floatPlan ty fun _ => {}), regs2 (floatPlan ty fun _ => {}), regs3 { floatPlan ty (fun _ => {}) with readD := true },
       regsP (floatPlan ty fun _ => {}), regsP { floatPlan ty (fun _ => {}) with tyB := .b32, tagB := fun _ => none },
       regs3 { floatPlan ty (fun _ => {}) with tyB := .s32, tagB := fun _ => Ty.s32.tags },
       regs3 { floatPlan ty (fun _ => {}) with tyD := .f32, tagD := fun _ => Ty.f32.tags, readD := true },
       regs2 { floatPlan ty (fun _ => {}) with out64 := true }]) ++
      [.s32, .n64].map (fun ty => regs3 { intPlan ty (fun _ => {}) with out64 := false, sext := false }) ++
      [regs2 (sfuPlan frsq)]) = true := by decide +kernel

theorem witness_PackedResults : lanesMet
    ([.s8, .n16, .e4m3, .e2m1].flatMap (fun ty => [regs3 (floatPlan ty fun _ => {}), regs3 { floatPlan ty (fun _ => {}) with readD := true }]) ++
      [regs3 { tyA := .b32, tagA := fun _ => some [0, (cvtTag .f32 false).toNat], tagB := fun _ => some [0, (cvtTag .f32 false).toNat]
               tagD := fun _ => some [0, (cvtTag .e2m1 false).toNat], readD := pcvtPartial .e2m1 .f32 false false, run := fun _ => {} },
       regs3 { floatPlan .e4m3 (fun _ => {}) with tyB := .e5m2, tagB := fun _ => Ty.e5m2.tags, tyD := .f32, tagD := fun _ => Ty.f32.tags, readD := true }])
    = true := by decide +kernel

theorem witness_PredicateAndExecResults :
    -- a logic instruction and MOV over predicates, MOV from exec
    onceMet demo Guard.always (fun _ => []) = true ∧
    -- MOV to exec, EXECS and EXECR
    (demo.ctx?.any fun c => (c.check c.f.live c.guardScope Guard.always (predUse (.p 2))).isNone && c.uniformRuns Guard.always) = true := by
  decide +kernel

theorem witness_CodebookAndTagResults :
    demo.upsets = [] ∧ (demo.tile 0 3).tag = 0 ∧
    vecMet demo Guard.always (fun _ => ({ tyA := .b32, tagA := fun _ => some [0, 9], run := fun _ => {} } : Plan).uses (w (.v 1) (.v 2) .unused)) = true ∧
    vecMet demo Guard.always (fun _ => ({ tyA := .b32, tagA := fun _ => some [0, 5], tagB := fun _ => some [0, 5], tagD := fun _ => some [0, 9]
                                          readD := true, run := fun _ => {} } : Plan).uses (w (.v 1) (.v 2) (.v 3))) = true ∧
    -- RETAG of the last register of the one block held, and of a tile register
    vecMet demo Guard.always (fun _ => []) (fun c _ => decide ((15 : BitVec 8).toNat < 16 * c.w.blocks)) = true ∧
    onceMet demo Guard.always (fun _ => []) = true := by decide +kernel

theorem witness_ExchangeResults :
    demo.upsets = [] ∧
    [Ty.b32, Ty.n64].all (fun ty =>
      vecMet demo Guard.always (fun _ => crossUses (w (.v 2) (.v 4) (.s 3)) ty.is64 (usesOf (.s 3) false false true false false fun _ => some [0, 1, 2])) &&
      vecMet demo Guard.always (fun _ => crossUses (w (.v 2) (.v 4) .unused 3) ty.is64 []) &&
      vecMet demo Guard.always (fun c => crossUses (w (.v 2) (.v 4) (.v 6) 0x1FFFFF) ty.is64 (usesOf (.v 6) ty.is64 false true false false fun i =>
        if c.tagOfA (w (.v 2) (.v 4) (.v 6)) i = 0 then none else some [0, (c.tagOfA (w (.v 2) (.v 4) (.v 6)) i).toNat])) &&
      [Opnd.v 2, Opnd.s 12].all fun d => vecMet demo Guard.always fun _ =>
        crossUses (w d (.v 4) .imm) ty.is64 (usesOf .imm false false true false false fun _ => none)) = true := by decide +kernel

theorem witness_ReductionResults :
    demo.upsets = [] ∧
    [Ty.s32, Ty.n32, Ty.f32, Ty.b32].all (fun ty => [Opnd.v 2, Opnd.s 4].all fun d =>
      vecMet demo Guard.always fun _ => reduceUses (w d (.v 6) .unused) ty) = true := by decide +kernel

theorem witness_VoteResults :
    onceMet demo Guard.always (fun _ => scalarDst (w (.s 20) (.p 1) .unused)) = true ∧ onceMet demo Guard.always (fun _ => []) = true ∧
    -- with exec zero ELECT still runs
    onceMet (demoW fun v => v.modCur fun f => { f with exec := 0 }) Guard.always (fun _ => []) = true ∧
    demo.upsets = [] ∧
    vecMet demo Guard.always (fun _ => usesOf (.v 12) true false true false false (fun _ => none) ++ scalarDst (w (.v 13) (.v 12) .unused)) = true := by
  decide +kernel

theorem witness_TheFragmentMovesOn :
    (demo.ctx?.any fun c => (c.w.frag? c.w.cur).isSome && c.w.stack == [] && c.w.ovf == []) = true := by decide +kernel

/-- The demo wave with predicate 1 true in threads 0 and 5. -/
def demoP : State := demoW fun v => v.setP 1 ((v.p 1).write v.all 0x21 0 .fault)

theorem witness_BranchAndExitResults :
    -- BRA with no thread taken, with all taken, and with some
    (demoP.ctx?.any fun c => [(Guard.mk false 0, 0), (Guard.always, 2), (Guard.mk false 1, 1)].all fun g =>
      g.1 != Guard.never && (c.check c.f.exec c.f.exec g.1 []).isNone &&
      (let taken := c.f.exec &&& c.w.guardBits g.1
       if taken = 0 then 0 else if taken = c.f.exec then 2 else 1) == g.2) = true ∧
    -- BRU, BRX and CALL
    onceMet demo Guard.always (fun _ => scalarUse (.s 3) false ++ scalarDst (w (.s 9) (.s 3) .unused)) = true ∧
    -- RET: outside a nest handler; within one through s63, with no repeat held and with one held, back to it
    onceMet demo Guard.always (fun _ => scalarUse (.s 9) false) (fun c => c.f.nest == none) = true ∧
    onceMet (demoW fun v => v.modCur fun f => { f with nest := some (none, .user) }) Guard.always (fun _ => scalarUse (.s 63) false)
      (fun c => c.f.nest == some (none, .user)) = true ∧
    onceMet (demoW fun v => (v.putS 63 0x10).modCur fun f => { f with nest := some (some ⟨0x10, 1, 3, 0, 0, 0⟩, .user) }) Guard.always
      (fun _ => scalarUse (.s 63) false) (fun c => c.f.nest.any fun r => r.1.any fun r => c.w.scalar (.s 63) == r.addr) = true ∧
    -- EXIT: unguarded, with exec zero, and guarded with threads left and with none
    demo.ctx?.isSome = true ∧
    ((demoW fun v => v.modCur fun f => { f with exec := 0 }).ctx?.any fun c => c.f.exec == 0) = true ∧
    (demoP.ctx?.any fun c => (c.check c.f.exec c.f.exec ⟨false, 1⟩ []).isNone && c.f.exec != 0 &&
      c.f.live &&& ~~~(c.f.exec &&& c.w.guardBits ⟨false, 1⟩) != 0) = true ∧
    (demoP.ctx?.any fun c => (c.check c.f.exec c.f.exec ⟨true, 0⟩ []).isNone && c.f.live &&& ~~~(c.f.exec &&& c.w.guardBits ⟨true, 0⟩) == 0) = true := by
  decide +kernel

theorem witness_SplitMakesSiblings :
    -- an empty stack; one of two addresses; the top the target 0x40; the top the next word
    ([[], [0x40000, 0x50000], [0x40], [0x1000C]] : List (List DWord)).all (fun st =>
      (demoW fun v => { v.modCur (fun f => { f with depth := st.length }) with stack := st }).ctx?.any fun c =>
        c.s.wave? c.core c.slot == some c.w && c.w.frag? c.w.cur == some c.f && !c.f.waiting && c.w.stack == st && c.w.ovf == [] &&
        c.f.pc == 0x10000 && !(c.w.stack.head? == some 0x40 && c.w.stack.head? == some (c.f.pc + 12)) &&
        (List.range c.w.entries.length).find? (fun k => ((c.w.setFrag c.w.cur (some c.f)).frag? k).isNone) == some 1) = true := by decide +kernel

theorem witness_JoinpPushesOrTraps :
    onceMet (demoW fun v => { v with stack := List.replicate 7 0x40 }) Guard.always (fun _ => []) (fun c => decide (c.w.stack.length < 8)) = true ∧
    onceMet (demoW fun v => { v with stack := List.replicate 8 0x40 }) Guard.always (fun _ => []) (fun c => decide (8 ≤ c.w.stack.length)) = true := by
  decide +kernel

/-- A REP of eight repeats, followed by IADD.s32 v1, v2, v3. -/
def demoRep : State :=
  let rep := leBytes 12 (0xC7 + 7 * 2 ^ 9 + 7 * 2 ^ 67)
  let add := leBytes 12 (0x001 + 7 * 2 ^ 9 + 1 * 2 ^ 13 + 2 * 2 ^ 23 + 3 * 2 ^ 33 + 3 * 2 ^ 57)
  { demo with mem := (demo.mem.writeBytes 0x10000 rep).writeBytes 0x1000C add }

theorem witness_SequencingAndBlockResults :
    (demoRep.ctx?.any fun c => match c.read (c.f.pc + 12) with | .word x => repFits c.core x (stepVal 1) (stepVal 7) (stepVal 0) | _ => false) = true ∧
    onceMet demo Guard.always (fun _ => []) = true ∧
    (demo.ctx?.any fun c => (c.check 0 c.guardScope Guard.always (runUses (.v 8) 8 false true false false fun _ => none)).isNone) = true ∧
    -- RACQ with a predicate; with zero where the blocks are free, and where the pool has none; RREL of one of two blocks; RQRY
    onceMet demo Guard.always (fun _ => []) (fun c => decide (c.w.blocks + 15 ≤ 16)) = true ∧
    onceMet demo Guard.always (fun _ => []) (fun c => decide (c.w.blocks + 1 ≤ 16 ∧ 1 ≤ (c.s.core c.core).freeIn c.w.pool) &&
      (c.s.blockWaits c.core c.w.pool).all (fun x => BlockWait.before ⟨c.s.effPrio c.w, c.w.uid, c.slot, 1⟩ x)) = true ∧
    onceMet (demo.setCore 0 { demo.core 0 with free := [] }) Guard.always (fun _ => [])
      (fun c => decide (c.w.blocks + 1 ≤ 16 ∧ (c.s.core c.core).freeIn c.w.pool < 1)) = true ∧
    onceMet (demoW fun v => { v with blocks := 2 }) Guard.always (fun _ => [])
      (fun c => decide (1 < c.w.blocks) && c.w.vregs.all fun e => decide (e.1 < 16 * (c.w.blocks - 1)) || e.2.full) = true ∧
    onceMet demo Guard.always (fun _ => scalarDst (w (.s 1) .unused .unused)) = true := by decide +kernel

theorem witness_StatusRegisterResults :
    onceMet demo Guard.always (fun _ => scalarDst (w (.s 1) .unused .unused)) = true ∧
    vecMet demo Guard.always (fun _ => scalarDst (w (.v 1) .unused .unused)) = true ∧
    onceMet demo Guard.always (fun _ => scalarUse (.s 1) false) = true := by decide +kernel

/-- The demo wave at user level, with a handler when `en`. -/
def demoU (en : Bool) : State :=
  let s := demoW fun v => v.modCur fun f => { f with level := .user }
  s.setPart 0 { s.part 0 with tvec := if en then 0x2001 else 0 }

theorem witness_SoftwareTrapsAndKills :
    onceMet demo Guard.always (fun _ => []) = true ∧
    -- a poisoned operand of origin DATA, a trap at supervisor level, one at user level without a handler, one of a scan wave
    (demo.ctx?.any fun c => c.s.wave? c.core c.slot == some c.w && c.f.level == .supervisor) = true ∧
    ((demoU true).ctx?.any fun c => c.s.wave? c.core c.slot == some c.w && bitOf c.part.tvec.toNat 0) = true ∧
    ((demoU false).ctx?.any fun c => c.s.wave? c.core c.slot == some c.w && c.f.level == .user && !bitOf c.part.tvec.toNat 0) = true ∧
    (({ demo with cores := [(192, demo.core 0)], focus := some ⟨192, 0⟩ } : State).ctx?.any fun c =>
      c.s.wave? c.core c.slot == some c.w && decide (Config.mainCores ≤ c.core)) = true := by decide +kernel

theorem witness_TrapEntersTheHandler :
    ((demoU true).ctx?.any fun c => c.s.wave? c.core c.slot == some c.w && c.w.frag? c.w.cur == some c.f && decide (c.core < Config.mainCores) &&
      c.f.level == .user && bitOf c.part.tvec.toNat 0 && !c.s.debugs c.w.part &&
      !c.s.spBlocked c.core (c.s.frameOff c.w.part c.slot) (c.s.frameOff c.w.part c.slot + 128) true &&
      (c.s.atomsOn c.core c.w.uid (fun _ => true) c.core (c.s.frameOff c.w.part c.slot) 128).isNone) = true := by decide +kernel

theorem witness_EretLeavesTheHandler :
    onceMet demo Guard.always (fun _ => []) (fun c => !c.f.handler) = true ∧
    onceMet (demoW fun v => v.modCur fun f => { f with handler := true }) Guard.always (fun _ => eretUses) (fun c =>
      c.f.handler && c.w.stack == [] && c.w.ovf == [] &&
      (let off := c.s.frameOff c.w.part c.slot
       !c.s.spBlocked c.core off (off + 128) false && (c.s.atomsOn c.core c.w.uid (fun _ => true) c.core off 128).isNone && !bitOf (c.s.spNat c.core (off + 12) 1) 6)) = true := by decide +kernel

/-- The demo wave with s4 = 0x20000, an address that its TLB maps, and predicate 1 true in threads 0 and 5. -/
def demoM : State := (demoS [(4, 0x20000), (5, 0x40), (6, 0x100)]).modWave 0 0 fun v => v.setP 1 ((v.p 1).write v.all 0x21 0 .fault)

/-- Predicate 1. -/
def g1 : Guard := ⟨false, 1⟩

/-- Every thread's bytes translate for a store, aligned. -/
def reachMet (o : Ops) (n : Nat) (c : Ctx) (act : Mask) : Bool :=
  c.acquiring.isNone && act.threads.all fun k => (c.globalAddr o o.a k).toNat % min n 16 == 0 &&
    (match c.spoil.reach true (c.spoil.globalAddr o o.a k) (List.range n) with | .bytes _ => true | _ => false)

/-- An image header. -/
def demoHdr : Header :=
  { checked := false, coresident := false, matrix := false, saved := false, filler := false, graph := false, scan := false, prio := 0
    regblk := 1, waves := 1, paired := false, nx := 1, ny := 1, nz := 1, nstage := 1, entry := 0x10000, scrOff := 0, scrLen := 0, graphOff := 0
    teamOff := 0, saveSize := 0 }

/-- A generator of 1 MiB at 8 MiB, in blocks of 512 bytes. -/
def demoGen : Gen :=
  { vbase := 0x800000, vlen := 0x100000, block := 512, vkeep := false, trap := false, image := 0, param := 0, srcBase := 0, srcLen := 0
    altBase := 0, handler := 0, hdr := { demoHdr with filler := true }, binds := [], closing := false }

theorem witness_LoadsAndHintsStart :
    -- LD, LDNC and LR of two threads, LDU
    vecMet demoM g1 (fun _ => loadUses (w (.v 8) (.s 4) .unused 16) .b32 4) (fun c _ => c.acquiring.isNone) = true ∧
    vecMet demoM g1 (fun _ => loadUses (w (.v 8) (.s 4) .unused 16) .n64 1) (fun c _ => c.acquiring.isNone) = true ∧
    onceMet demoM Guard.always (fun _ => loadUses (w (.s 8) (.s 4) .unused) .n64 1) (fun c => c.acquiring.isNone) = true ∧
    -- LDMC to cores 0 and 1, and to none
    [(3 : Nat), 0].all (fun mask => vecMet (demoS [(4, 0x20000), (5, BitVec.ofNat 64 (mask + 3 * 2 ^ 16 + 0x4F000 * 2 ^ 32))]) Guard.always
      (fun _ => usesOf (.s 4) true false true false true (fun _ => none) ++ usesOf (.s 5) true false true false true (fun _ => none) ++
        scalarDst (w (.s 8) (.s 4) (.s 5)))
      fun c _ =>
        let x := (c.w.scalar (.s 5)).toNat
        let cores := maskCores c.core (BitVec.ofNat 16 x)
        c.acquiring.isNone && decide ((c.w.scalar (.s 4)).toNat % 16 = 0 ∧ bitsOf x 50 32 % 16 = 0 ∧ bitsOf x 50 32 + 16 * (bitsOf x 27 16 + 1) ≤ 0x50000 ∧
          bitsOf x 31 28 = 0 ∧ bitsOf x 63 51 = 0 ∧ (0x4FFF0 : BitVec 19).toNat % 16 = 0 ∧ (0x4FFF0 : BitVec 19).toNat + 16 ≤ 0x50000) &&
        cores.all (fun d => c.part.hasCore d) && decide ((c.s.core c.core).sboard.length < 64) && (cores.isEmpty == decide (mask = 0))) = true ∧
    -- PREF in both forms
    vecMet demoM g1 (fun _ => baseUses (.v 4) false false) (fun c _ => c.acquiring.isNone) = true ∧
    onceMet demoM Guard.always (fun _ => baseUses (.s 4) false false) (fun c => c.acquiring.isNone) = true ∧
    -- THINT of 64 bytes, of none, and of 2^40
    [(0x40 : DWord), 0, 0x10000000000].all (fun len => onceMet (demoS [(4, 0x20000), (5, len)]) Guard.always
      (fun _ => usesOf (.s 4) true false true false false (fun _ => none) ++ usesOf (.s 5) true false true false false fun _ => none)
      fun c => decide (c.s.queueLen c.core .q2 < queueDepth .q2)) = true := by decide +kernel

theorem witness_StoresAreSent :
    vecMet demoM g1 (fun _ => storeUses (w .unused (.s 4) (.v 8) 16) .s32 false 4) (reachMet (w .unused (.s 4) (.v 8) 16) 16) = true ∧
    onceMet demoM Guard.always (fun _ => storeUses (w .unused (.s 4) (.s 8) 16) .n64 false 2)
      (fun c => reachMet (w .unused (.s 4) (.s 8) 16) 16 c 1) = true ∧
    vecMet demoM g1 (fun _ => baseUses (.s 4) false true ++ usesOf (.v 8) false false true false true (fun _ => none) ++
        stmMaskUses (w (.p 1) (.s 4) (.v 8) 3) false) (fun c act =>
      c.acquiring.isNone && act.threads.all fun k => c.spoil.stmMask (w (.p 1) (.s 4) (.v 8) 3) false k == 15 &&
        (match c.spoil.reach true (c.spoil.globalAddr (w (.p 1) (.s 4) (.v 8) 3) (.s 4) k) [0, 1, 2, 3] with | .bytes _ => true | _ => false)) = true ∧
    ([(0, []), (5, [])] : List (Nat × List ByteWrite)).Pairwise (fun a b => a.1 ≠ b.1) := by decide +kernel

/-- `demoM` with the addresses of threads 0 and 5 in v4 and v5, the first mapped; blocks 2 and the generator of `demoGen`. -/
def demoX (va : DWord) : State :=
  let s := demoM.modWave 0 0 fun v =>
    let at_ := fun (t : Nat) => if t = 5 then va else 0x20000
    ({ v with blocks := 2 }.setV 4 (({ v with blocks := 2 }.v 4).write v.all (fun t => (at_ t).setWidth 32) 0 .fault 0)).setV 5
      ((v.v 5).write v.all (fun t => ((at_ t) >>> 32).setWidth 32) 0 .fault 0)
  s.setPart 0 { s.part 0 with gens := [(1, demoGen)] }

/-- Thread 0's bytes translate, and thread 5's do not, one way for each of the three addresses. -/
def meetsBad (s : State) (g : Guard) (o : Ops) (us : Ctx → List Use) (offs : List Nat) (bad : DWord → Bool) (va : DWord) : Bool :=
  vecMet s g us fun c0 act =>
    let c := c0.spoil
    c0.acquiring.isNone && act.threads == [0, 5] && !bad (c.globalAddr o o.a 0) && c.globalAddr o o.a 5 == va &&
    (match c.reach true (c.globalAddr o o.a 0) offs with | .bytes _ => true | _ => false) &&
    (if va = 0x20001 then bad va else !bad va && match c.reach true va offs with
      | .fault _ _ => va == 0x4000000000000000 | .genro _ => va == 0x800000 | _ => false)

/-- Addresses for thread 5: misaligned, not canonical, and in a generated range. -/
def badVas : List DWord := [0x20001, 0x4000000000000000, 0x800000]

theorem witness_AccessChecksTrap :
    -- ST and STNT; ATOM, ATOMF and CAS; SC; STM, which has no alignment
    badVas.all (fun va =>
      meetsBad (demoX va) g1 (w .unused (.v 4) (.v 8)) (fun _ => storeUses (w .unused (.v 4) (.v 8)) .b32 false 4) (List.range 16)
        (fun x => misaligned .b32 false 16 x.toNat) va &&
      [true, false].all (fun cas => meetsBad (demoX va) g1 (w (.v 8) (.v 4) (.v 6))
        (fun _ => atomUses (w (.v 8) (.v 4) (.v 6)) .b32 (baseUses (.v 4) false true) cas) (List.range 4) (fun x => x.toNat % 4 != 0) va) &&
      meetsBad (demoX va) g1 (w (.v 9) (.v 4) (.v 6)) (fun _ => baseUses (.v 4) false true ++ usesOf (.v 6) false false true false true (fun _ => Ty.b32.tags) ++
        scalarDst (w (.v 9) (.v 4) (.v 6))) (List.range 4) (fun x => x.toNat % 4 != 0) va) = true ∧
    (badVas.drop 1).all (fun va => meetsBad (demoX va) g1 (w (.p 1) (.v 4) (.v 8))
      (fun _ => baseUses (.v 4) false true ++ usesOf (.v 8) false false true false true (fun _ => none) ++ stmMaskUses (w (.p 1) (.v 4) (.v 8)) false)
      (List.range 4) (fun _ => false) va) = true ∧
    -- the uniform forms and REL, the only thread at each of the three addresses
    badVas.all (fun va => onceMet ((demoX 0).modWave 0 0 fun v => v.putS 4 va) Guard.always (fun _ => storeUses (w .unused (.s 4) (.s 8)) .b32 false 1)
      fun c => c.acquiring.isNone && (misaligned .b32 false 4 va.toNat || match c.spoil.reach true va (List.range 4) with
        | .fault _ _ => va == 0x4000000000000000 | .genro _ => va == 0x800000 | _ => false)) = true ∧
    badVas.all (fun va => onceMet ((demoX 0).modWave 0 0 fun v => v.putS 4 va) Guard.always
      (fun _ => usesOf (.s 4) true false true false true (fun _ => none) ++ usesOf (.s 6) true false true false true fun _ => none)
      fun c => c.acquiring.isNone && (va.toNat % 8 != 0 || match c.reach true va (List.range 8) with
        | .fault _ _ => va == 0x4000000000000000 | .genro _ => va == 0x800000 | _ => false)) = true := by decide +kernel

/-- Threads 0 and 5 with scratchpad addresses in v4: the second outside the window, and misaligned; an object of a credit in s6 and a bad one in s7. -/
def demoY (a : BitVec 32) : State := demoM.modWave 0 0 fun v =>
  (({ v with blocks := 2 }.putS 7 8).setV 4 ((v.v 4).write v.all (fun t => if t = 5 then a else 0x40) 0 .fault 0))

theorem witness_AccessChecksTrap_scratchpad :
    [(0x4FFFD : BitVec 32), 0x42].all (fun a =>
      let met := fun (o : Ops) (us : List Use) => vecMet (demoY a) g1 (fun _ => us) fun c0 act =>
        let c := c0.spoil
        c0.acquiring.isNone && act.threads.all (fun k => !c.w.poisonAt o.a false k) &&
        (if a = 0x42 then (act.threads.all fun k => (spTarget c.core (c.spAddr o k) 4).isSome) && act.threads.find? (fun k => c.spAddr o k % min 4 16 != 0) == some 5
         else act.threads.find? (fun k => (spTarget c.core (c.spAddr o k) 4).isNone) == some 5)
      met (w (.v 8) (.v 4) .unused) (spUses (w (.v 8) (.v 4) .unused) false ++
        runUses (.v 8) (runLength (.v 8) .b32 1) false false true false fun _ => none) &&
      met (w (.s 6) (.v 4) (.v 8)) (spUses (w (.s 6) (.v 4) (.v 8)) true ++ runUses (.v 8) (runLength (.v 8) .b32 1) false true false true
        (fun _ => storeTags .b32 false) ++ usesOf (.s 6) false false true false true fun _ => none) &&
      met (w (.v 8) (.v 4) (.v 6)) (atomUses (w (.v 8) (.v 4) (.v 6)) .s32 (spUses (w (.v 8) (.v 4) (.v 6)) true) false)) = true ∧
    ((demoY 0x40).ctx?.any fun c => (c.w.scalar (.s 6)).toNat % 16 == 0 && (c.w.scalar (.s 7)).toNat % 16 != 0) = true := by decide +kernel

theorem witness_AtomicsStart :
    vecMet demoM g1 (fun _ => atomUses (w (.v 8) (.s 4) (.v 6) 4) .s32 (baseUses (.s 4) false true) false) (reachMet (w (.v 8) (.s 4) (.v 6) 4) 4) = true ∧
    onceMet demoM Guard.always (fun _ => atomUses (w (.s 8) (.s 4) (.s 6)) .n64 (baseUses (.s 4) false true) true)
      (fun c => reachMet (w (.s 8) (.s 4) (.s 6)) 8 c 1) = true ∧
    -- SC within the window of a reservation on its line, of one on another line, and of one whose LR has no value yet
    [some 0x400, some 0x401, none].all (fun line => vecMet (demoM.modWave 0 0 fun v => v.modCur fun f => { f with resv := [⟨0, 7, line, 16, true⟩] }) g1
      (fun _ => baseUses (.s 4) false true ++ usesOf (.v 6) false false true false true (fun _ => Ty.b32.tags) ++ scalarDst (w (.v 9) (.s 4) (.v 6)))
      (fun c act => reachMet (w (.v 9) (.s 4) (.v 6)) 4 c act &&
        c.f.resv.any (fun r => r.thread == 0 && (r.line == some 0x400 || r.line.isNone) && decide (r.issues ≤ 16) && r.plain) ==
          (line != some 0x401))) = true := by
  decide +kernel

/-- A thread's scratchpad place is clear. -/
def clearMet (o : Ops) (n : Nat) (out : Bool) (place : Nat × Nat) (c : Ctx) (act : Mask) : Bool :=
  c.acquiring.isNone && act.threads.all fun k => !c.w.poisonAt o.a false k && spTarget c.core (c.spAddr o k) n == some place &&
    c.spAddr o k % min n 16 == 0 && !c.s.spBlocked place.1 place.2 (place.2 + n) out && (c.spEarlier o.anyV ⟨k, place.1, place.2⟩ n).isNone

theorem witness_ScratchpadAccessesComplete :
    -- LDS of threads 0 and 5, and of a scalar
    vecMet demoM g1 (fun _ => spUses (w (.v 8) (.s 5) .unused) false ++ runUses (.v 8) (runLength (.v 8) .b32 4) false false true false fun _ => none)
      (clearMet (w (.v 8) (.s 5) .unused) 16 false (0, 0x40)) = true ∧
    onceMet demoM Guard.always (fun _ => spUses (w (.s 8) (.s 5) .unused) false ++ runUses (.s 8) (runLength (.s 8) .b32 1) false false true false fun _ => none)
      (fun c => clearMet (w (.s 8) (.s 5) .unused) 4 false (0, 0x40) c 1) = true ∧
    -- ATOMS in both forms
    vecMet demoM g1 (fun _ => atomUses (w (.v 8) (.s 5) (.v 6)) .s32 (spUses (w (.v 8) (.s 5) (.v 6)) true) false)
      (clearMet (w (.v 8) (.s 5) (.v 6)) 4 true (0, 0x40)) = true ∧
    onceMet demoM Guard.always (fun _ => atomUses (w (.s 8) (.s 5) (.s 7)) .s32 (spUses (w (.s 8) (.s 5) (.s 7)) true) false)
      (fun c => clearMet (w (.s 8) (.s 5) (.s 7)) 4 true (0, 0x40) c 1) = true ∧
    -- STS with a credit into its own scratchpad, and of another core
    [(0x40 : DWord), 0x80100040].all (fun a => vecMet (demoM.modWave 0 0 fun v => v.putS 5 a) g1
      (fun _ => spUses (w (.s 6) (.s 5) (.v 8)) true ++ runUses (.v 8) (runLength (.v 8) .b32 1) false true false true (fun _ => storeTags .b32 false) ++
        usesOf (.s 6) false false true false true fun _ => none)
      (fun c act => decide ((c.w.scalar (.s 6)).toNat % 16 = 0 ∧ (c.w.scalar (.s 6)).toNat < 0x50000) &&
        clearMet (w (.s 6) (.s 5) (.v 8)) 4 true (if a = 0x40 then 0 else 1, 0x40) c act)) = true ∧
    onceMet demoM Guard.always (fun _ => spUses (w .unused (.s 5) (.s 8)) true ++
        runUses (.s 8) (runLength (.s 8) .b32 1) false true false true fun _ => storeTags .b32 false)
      (fun c => clearMet (w .unused (.s 5) (.s 8)) 4 true (0, 0x40) c 1) = true ∧
    -- LDS with thread 5's address poisoned; STS with thread 0's bytes for the own core and thread 5's for core 1
    vecMet ((demoY 0x40).modWave 0 0 fun v => v.setV 4 { v.v 4 with poison := 0x20 }) g1
      (fun _ => spUses (w (.v 8) (.v 4) .unused) false ++ runUses (.v 8) (runLength (.v 8) .b32 1) false false true false fun _ => none)
      (fun c act => act.threads == [0, 5] && c.w.poisonAt (.v 4) false 5 && clearMet (w (.v 8) (.v 4) .unused) 4 false (0, 0x40) c 1) = true ∧
    vecMet (demoY 0x80100040) g1 (fun _ => spUses (w (.s 6) (.v 4) (.v 8)) true ++ runUses (.v 8) (runLength (.v 8) .b32 1) false true false true
        (fun _ => storeTags .b32 false) ++ usesOf (.s 6) false false true false true fun _ => none)
      (fun c _ => clearMet (w (.s 6) (.v 4) (.v 8)) 4 true (0, 0x40) c 1 && clearMet (w (.s 6) (.v 4) (.v 8)) 4 true (1, 0x40) c 0x20) = true := by
  decide +kernel

theorem witness_OrderingResults :
    onceMet demoM Guard.always (fun _ => []) (fun c => !c.spoil.s.wavePending c.core c.spoil.w.uid true) = true ∧
    onceMet demoM Guard.always (fun _ => usesOf (.s 4) true false true false true (fun _ => none) ++ scalarDst (w (.s 5) (.s 4) .unused 8))
      (fun c => c.acquiring.isNone && (c.globalAddr (w (.s 5) (.s 4) .unused 8) (.s 4) 0).toNat % 8 == 0 &&
        (c.s.genAt c.w.part (c.globalAddr (w (.s 5) (.s 4) .unused 8) (.s 4) 0).toNat).isNone &&
        (match c.reach false (c.globalAddr (w (.s 5) (.s 4) .unused 8) (.s 4) 0) (List.range 8) with | .bytes _ => true | _ => false)) = true ∧
    onceMet demoM Guard.always (fun _ => usesOf (.s 4) true false true false true (fun _ => none) ++ usesOf .zero true false true false true fun _ => none)
      (fun c => reachMet (w .unused (.s 4) .zero) 8 c 1 && !c.s.wavePending c.core c.w.uid true) = true ∧
    -- REL.team on one core with a store of the wave still to be performed
    onceMet (demoM.setCore 0 { demoM.core 0 with memq := [⟨5, (demo.ctx?.map fun c => c.w.uid).getD 0, 0, .user, 0, .store 0 [] false false, [], 0, false, 0, false⟩] }) Guard.always
      (fun _ => usesOf (.s 4) true false true false true (fun _ => none) ++ usesOf .zero true false true false true fun _ => none)
      (fun c => reachMet (w .unused (.s 4) .zero) 8 c 1 && !c.paired && !c.s.spPending c.core c.w.uid) = true ∧
    -- BIND of a barrier object, and clearing a slot
    [(16 : DWord), 0].all (fun len => onceMet (demoS [(1, 0x20000), (2, len), (3, 0x4FFF0)]) Guard.always
      (fun _ => usesOf (.s 2) true false true false false (fun _ => none) ++ usesOf (.s 3) true false true false false (fun _ => none) ++
        usesOf (.s 1) true false true false false fun _ => none)
      (fun c => decide ((c.w.scalar (.s 2)).toNat ≤ 2 ^ 32 ∧ ((c.w.scalar (.s 2)).toNat = 0 ∨
        ((c.w.scalar (.s 3)).toNat % 2 ^ 19 % 16 = 0 ∧ (c.w.scalar (.s 3)).toNat % 2 ^ 19 < 0x50000))))) = true := by decide +kernel

theorem witness_BarrierObjectUpdates :
    -- a phase that completes, and one that does not: arrivals or bytes at their boundary
    ((⟨2, 2, 7, 16, 16, false, 0⟩ : Bar).arrived = 2 ∧ (16 : Nat) ≤ 16 ∧ (0 : Nat) < 2) ∧
    ¬((2 : Nat) = 2 ∧ (17 : Nat) ≤ 16) ∧ ¬((0 : Nat) < 0 ∨ (0 : Nat) < 0) ∧
    ((63 : Nat) < 64 ∧ (65535 : Nat) < 2 ^ 16 ∧ (4294967295 : Nat) < 2 ^ 32 ∧ (7 : Nat) < 8) := by decide +kernel

/-- The demo wave with a barrier object of two arrivals, one of which has come, in phase 7 at 0x4FFF0, named by s2; s5, s6 and
s7 hold 0, 7 and 6. -/
def demoB : State := (demoS [(2, 0x4FFF0), (5, 0), (6, 7), (7, 6)]).spPut 0 0x4FFF0 (⟨2, 1, 7, 0, 0, false, 0⟩ : Bar).bytes

/-- The barrier object that s2 names can be reached. -/
def barMet (c : Ctx) : Bool :=
  let o := w .unused (.s 2) .unused
  !bitOf (c.spAddr o 0) 31 && (spTarget c.core (c.spAddr o 0) 16).isSome && c.spAddr o 0 % 16 == 0

theorem witness_BarrierResults :
    onceMet demoB Guard.always (fun _ => scalarUse (.s 2) false) (fun c => barMet c && !c.s.parkedOn c.barCore 0x4FFF0) = true ∧
    onceMet demoB Guard.always (fun _ => scalarUse (.s 2) false ++ scalarUse (.s 5) false ++ scalarDst (w (.s 8) (.s 2) (.s 5))) (fun c =>
      barMet c && !c.s.wavePending c.core c.w.uid true && (c.s.bar c.barCore 0x4FFF0).arrived != (c.s.bar c.barCore 0x4FFF0).arrexp &&
      c.wait? == none && !c.s.abandoned c.w) = true ∧
    -- BARQ and BARWAIT of the phase that runs and of one that has passed
    [(6 : BitVec 6), 7].all (fun t => onceMet demoB Guard.always
      (fun _ => scalarUse (.s 2) false ++ tokenUse (.s t) false ++ scalarDst (w (.s 8) (.s 2) (.s t)))
      (fun c => barMet c && c.wait? == none && ((c.s.barStatus c.w c.barCore 0x4FFF0 ((c.w.scalar (.s t)).toNat % 2 ^ 16) == 1) == (t == 6)))) = true ∧
    -- BARSYNC reissued after the phase that it waited for
    onceMet (demoB.modWave 0 0 fun v => v.modCur fun f => { f with synced := [⟨f.pc, 7, some true⟩] }) Guard.always
      (fun _ => scalarUse (.s 2) false ++ scalarUse (.s 5) false ++ scalarDst (w (.s 8) (.s 2) (.s 5)))
      (fun c => barMet c && (c.wait?.bind (·.done)) == some true) = true := by decide +kernel

/-- The demo wave with latches for a copy, a hint and a matrix operation, and the copy's descriptor at 0x100 of its scratchpad, named by s2. -/
def demoE : State :=
  let words : List DWord := [0x20000, 0x1000, 0x1F, 2 ^ 53]
  ((demoS [(2, 0x100), (8, 0x20000), (9, 0)]).modWave 0 0 fun v =>
    { v with latches := [(0, 0x0), (1, 0x1000), (3, 0x1203), (4, 0x20000), (5, 0x1000), (6, 0x1F), (7, 2 ^ 53), (8, 0x20000), (9, 0xFFFFFFFFFF), (10, 3)] }).spPut
    0 0x100 (words.flatMap fun x => leBytes 8 x.toNat)

theorem witness_EngineWindowResults :
    onceMet demoE Guard.always (fun _ => scalarUse .imm false) (fun c => decide (3 + (match c.f.rep with | some x => x.idx | none => 0) ≤ 3)) = true ∧
    onceMet demoE Guard.always (fun _ => []) (fun c => c.acquiring.isNone &&
      c.spoil.matrixOk (c.spoil.w.latch 0 0) (c.spoil.w.latch 0 1) (c.spoil.w.latch 0 2) (c.spoil.w.latch 0 3) &&
      decide (c.spoil.s.queueLen c.core .q0 < queueDepth .q0) && c.core % 2 == 0) = true ∧
    onceMet demoE Guard.always (fun _ => []) (fun c =>
      let d := copyDesc (c.w.latch 1 0) (c.w.latch 1 1) (c.w.latch 1 2) (c.w.latch 1 3)
      (d.bad c.core ((c.w.latch 1 3).toNat / 2 ^ 55)).isNone && decide (c.s.queueLen c.core .q1 < queueDepth .q1) &&
      (c.s.core c.core).hasRoom c.core (d.sides c.core)) = true ∧
    onceMet demoE Guard.always (fun _ => []) (fun c => hintOf (c.w.latch 2 2).toNat == some .pin && decide ((c.w.latch 2 1).toNat < 2 ^ 40) &&
      c.w.latch 2 3 == 0 && decide (c.s.queueLen c.core .q2 < queueDepth .q2)) = true ∧
    onceMet demoE Guard.always (fun _ => []) (fun c => c.acquiring.isNone && decide (c.spoil.s.queueLen c.core .q3 < queueDepth .q3) &&
      decide (c.spoil.s.queueLen c.core .q4 < queueDepth .q4)) = true ∧
    onceMet demoE Guard.always (fun _ => scalarUse (.s 2) false) (fun c =>
      let x := fun (i : Nat) => BitVec.ofNat 64 (c.s.spNat c.core (0x100 + 8 * i) 8)
      let d := copyDesc (x 0) (x 1) (x 2) (x 3)
      spTarget c.core (c.spAddr (w .unused (.s 2) .unused) 0) 32 == some (c.core, 0x100) && (d.bad c.core ((x 3).toNat / 2 ^ 55)).isNone &&
      decide (c.s.queueLen c.core .q1 < queueDepth .q1) && (c.s.core c.core).hasRoom c.core (d.sides c.core)) = true ∧
    -- a full queue
    ((demoE.setCore 0 { demoE.core 0 with q3 := List.replicate (queueDepth .q3) ((demoE.ctx?.map fun c => c.entry 3 false Q3Kind.marker).getD
      ⟨0, 0, 0, 0, .user, 0, 0, false, [], 0, 0, 0, [], [], .marker⟩) }).ctx?.any fun c => decide (queueDepth .q3 ≤ c.s.queueLen c.core .q3)) = true := by
  decide +kernel

/-- `demoE` with words in its latches and in the descriptor's place. -/
def demoEx (ls : List (Nat × DWord)) (words : List DWord) : State :=
  (demoE.modWave 0 0 fun v => { v with latches := ls.foldl (fun t x => t.put x.1 x.2) v.latches }).spPut 0 0x100 (words.flatMap fun x => leBytes 8 x.toNat)

theorem witness_EngineWindowResults_traps :
    -- EQST at latch 4, by its repeat index
    onceMet (demoE.modWave 0 0 fun v => v.modCur fun f => { f with rep := some ⟨0x10000, 3, 5, 0, 0, 0⟩ }) Guard.always (fun _ => scalarUse .imm false)
      (fun c => decide (3 < 1 + (match c.f.rep with | some x => x.idx | none => 0))) = true ∧
    -- a matrix operation with a misaligned operand; a copy with one, and one to a core of another cluster
    onceMet (demoEx [(0, 8)] []) Guard.always (fun _ => []) (fun c => c.acquiring.isNone &&
      !c.spoil.matrixOk (c.spoil.w.latch 0 0) (c.spoil.w.latch 0 1) (c.spoil.w.latch 0 2) (c.spoil.w.latch 0 3)) = true ∧
    [((0x1008 : DWord), 15), (0x8FF01000, 7)].all (fun x => onceMet (demoEx [(5, x.1)] []) Guard.always (fun _ => []) (fun c => c.acquiring.isNone &&
      (copyDesc (c.w.latch 1 0) (c.w.latch 1 1) (c.w.latch 1 2) (c.w.latch 1 3)).bad c.core ((c.w.latch 1 3).toNat / 2 ^ 55) == some x.2)) = true ∧
    -- no hint's number, 2^40 bytes, and a reserved word that is not zero
    [(10, (5 : DWord)), (9, 0x10000000000), (11, 1)].all (fun x => onceMet (demoEx [x] []) Guard.always (fun _ => []) (fun c => c.acquiring.isNone &&
      ((hintOf (c.w.latch 2 2).toNat).isNone || decide (2 ^ 40 ≤ (c.w.latch 2 1).toNat) || c.w.latch 2 3 != 0))) = true ∧
    -- KICK outside the window, of another core's scratchpad, misaligned, and of a descriptor that is no good
    onceMet (demoE.modWave 0 0 fun v => v.putS 2 0x4FFF0) Guard.always (fun _ => scalarUse (.s 2) false)
      (fun c => (spTarget c.core (c.spAddr (w .unused (.s 2) .unused) 0) 32).isNone) = true ∧
    onceMet (demoE.modWave 0 0 fun v => v.putS 2 0x80100100) Guard.always (fun _ => scalarUse (.s 2) false)
      (fun c => spTarget c.core (c.spAddr (w .unused (.s 2) .unused) 0) 32 == some (1, 0x100) && c.core == 0) = true ∧
    onceMet (demoE.modWave 0 0 fun v => v.putS 2 0x108) Guard.always (fun _ => scalarUse (.s 2) false)
      (fun c => spTarget c.core (c.spAddr (w .unused (.s 2) .unused) 0) 32 == some (c.core, 0x108)) = true ∧
    [((0x1008 : DWord), 15), (0x8FF01000, 7)].all (fun x => onceMet (demoEx [] [0x20000, x.1, 0x1F, 2 ^ 53]) Guard.always (fun _ => scalarUse (.s 2) false) (fun c =>
      let v := fun (i : Nat) => BitVec.ofNat 64 (c.s.spNat c.core (0x100 + 8 * i) 8)
      c.acquiring.isNone && (copyDesc (v 0) (v 1) (v 2) (v 3)).bad c.core ((v 3).toNat / 2 ^ 55) == some x.2)) = true := by decide +kernel

theorem witness_QueueWaitAndTileResults :
    onceMet demoE Guard.always (fun _ => []) = true ∧
    -- EQWAIT at the number outstanding, and above it
    [(2 : Nat), 1].all (fun n => onceMet (demoE.modWave 0 0 fun v => { v with qout := [(1, 2)] }) Guard.always (fun _ => scalarDst (w (.s 1) .unused .unused))
      (fun c => decide (c.w.qout.get 0 1 ≤ n) == decide (n = 2))) = true ∧
    onceMet demoE Guard.always (fun _ => scalarDst (w (.s 1) .unused .unused)) = true ∧
    -- TLD and TST of one row of 16 bytes at global memory and in the scratchpad; TCPY; TCB
    [false, true].all (fun sp => onceMet demoE Guard.always (fun _ => scalarUse (.s 8) false ++ scalarUse (.s 9) false) (fun c =>
      let o := w (.t 1) (.s 8) (.s 9)
      let span := shapeSpan (c.w.scalar (.s 9))
      c.acquiring.isNone && shapeOk (c.w.scalar (.s 9)) && tileType .bf16 &&
      (if sp then (spTarget c.core (c.spAddr o 0) span).isSome && c.spAddr o 0 % 16 == 0 else (c.globalAddr o o.a 0).toNat % 16 == 0) &&
      decide (c.s.queueLen c.core .q1 < queueDepth .q1) &&
      [true, false].all fun inbound => (c.s.core c.core).hasRoom c.core (if sp then (sideAt c.core (c.spAddr o 0) span inbound).toList else []))) = true := by
  decide +kernel

/-- `demoM` with two blocks. -/
def demoM2 : State := demoM.modWave 0 0 fun v => { v with blocks := 2 }

theorem witness_FetchingInstructionsStart :
    demo.upsets = [] ∧
    vecMet demoM2 g1 (fun _ => vxmUses (w (.v 16) (.v 8) (.v 4))) (fun c _ => c.acquiring.isNone) = true ∧
    vecMet demoM2 g1 (fun _ => testerUses (w (.v 16) (.v 8) (.v 4) 0x80) 8) (fun c _ => c.acquiring.isNone) = true ∧
    vecMet demoM2 g1 (fun _ => testerUses (w (.v 16) (.v 8) (.s 4) 0x10) 4) (fun c _ => c.acquiring.isNone) = true := by
  decide +kernel

/-- The demo wave with a traversal stack area at 0x1000, named by s5; threads 0 and 5 hold 32 entries and one. -/
def demoT : State := (demoM.modWave 0 0 fun v => { v.putS 5 0x1000 with tdepth := [(0, 32), (5, 1)] })

/-- The stack area can be reached, and so can the entries of some threads. -/
def areaMet (o : Ops) (out : Bool) (entries : List (Nat × Nat)) (c : Ctx) : Bool :=
  let a := c.spAddr o 0
  !bitOf a 31 && !bitOf a 19 && bitsOf a 30 28 == 0 && decide (a % 2 ^ 19 + 128 * c.w.width ≤ Config.scratchEnd c.core) && a % 16 == 0 &&
  entries.all fun e => !c.s.spBlocked c.core (stackEntry (a % 2 ^ 19) c.w.width e.1 e.2) (stackEntry (a % 2 ^ 19) c.w.width e.1 e.2 + 4) out &&
    (c.spEarlier true ⟨e.2, c.core, stackEntry (a % 2 ^ 19) c.w.width e.1 e.2⟩ 4).isNone

theorem witness_TraversalStackResults :
    vecMet demoT g1 (fun _ => spUses (w (.p 1) (.s 5) (.v 3)) true ++ usesOf (.v 3) false false true false true fun _ => none) (fun c act =>
      c.acquiring.isNone && areaMet (w (.p 1) (.s 5) (.v 3)) true ((act.threads.filter fun k => c.w.stackDepth k < 32).map fun k => (c.w.stackDepth k, k)) c) = true ∧
    vecMet demoT g1 (fun _ => topUses (w (.v 3) (.s 5) .unused)) (fun c act => c.acquiring.isNone && !c.w.poisonAt (.s 5) false 0 &&
      areaMet (w (.v 3) (.s 5) .unused) false ((act.threads.filter fun k => 0 < c.w.stackDepth k).map fun k => (c.w.stackDepth k - 1, k)) c) = true ∧
    vecMet demoT g1 (fun _ => []) = true := by decide +kernel

/-- The demo wave with s4 a multiple of 512 and s5 zero, the grid of its core holding the image at s4. -/
def demoL : State :=
  let s := demoM.modWave 0 0 fun v => { v.putS 5 0 with blocks := 2 }
  s.setCore 0 { s.core 0 with lath := ⟨some (0x20000, 0, [])⟩ }

theorem witness_LathAndGlazeResults :
    onceMet demoL Guard.always (fun _ => scalarUse (.s 4) false) (fun c => (c.w.scalar (.s 4)).toNat % 512 == 0 && c.acquiring.isNone &&
      decide (c.s.queueLen c.core .q3 < queueDepth .q3)) = true ∧
    vecMet demoL g1 (fun _ => lathUses (w (.v 16) (.v 8) (.s 4)) 8 4) (fun c _ => c.acquiring.isNone && c.f.lathErr.isNone &&
      (c.w.scalar (.s 4)).toNat % 512 == 0 && decide (c.s.queueLen c.core .q3 < queueDepth .q3)) = true ∧
    -- LATHRUN with poisoned inputs and a poisoned image address
    vecMet (demoL.modWave 0 0 fun v => (v.setS 4 (SReg.write 0x20008 true .data)).setV 8 { v.v 8 with poison := 1 }) g1
      (fun _ => lathUses (w (.v 16) (.v 8) (.s 4)) 8 4) (fun c _ => c.w.poisonAt (.s 4) true 0 && c.acquiring.isNone && c.f.lathErr.isNone &&
        decide (c.s.queueLen c.core .q3 < queueDepth .q3)) = true ∧
    onceMet demoL Guard.always (fun _ => tokenUse (.s 4) false ++ scalarDst (w (.s 1) (.s 4) .unused))
      (fun c => (c.s.core c.core).lathStatus c.w (c.w.scalar (.s 4)) == some 0) = true ∧
    -- GZARR, GZRD, GZCLR in its forms, GZRPL and GZST
    [[], usesOf (.v 10) false false true false false (fun _ => some [0, 2])].all (fun fill => vecMet demoL g1
      (fun _ => usesOf (.v 8) false false true false false (fun _ => some [0, 2]) ++ fill ++ runUses (.v 10) 2 false true false false (fun _ => some [0, 4]) ++
        usesOf (.v 12) false false true false false recordTags) (fun c act =>
      (act.threads.all fun k => decide (c.w.value c.f.exec (.v 12) .b32 0 k < 4096)) && decide (c.s.queueLen c.core .q4 < queueDepth .q4))) = true ∧
    vecMet demoL g1 (fun _ => usesOf (.v 12) false false true false false recordTags ++ runUses (.v 16) 8 false false true false fun _ => none) (fun c act =>
      (act.threads.all fun k => decide (c.w.value c.f.exec (.v 12) .b32 0 k < 4096)) && decide (c.s.queueLen c.core .q4 < queueDepth .q4)) = true ∧
    onceMet demoL Guard.always (fun _ => []) (fun c => decide (c.s.queueLen c.core .q4 < queueDepth .q4)) = true ∧
    vecMet demoL g1 (fun _ => usesOf (.v 2) false false true false false recordTags)
      (fun c act => act.threads.all fun k => decide (c.w.value c.f.exec (.v 2) .b32 0 k < 4096)) = true ∧
    onceMet demoL Guard.always (fun _ => usesOf (.s 5) false false true false true recordTags)
      (fun c => decide (c.w.value c.f.exec (.s 5) .b32 0 0 < 4096)) = true ∧
    onceMet demoL Guard.always (fun _ => scalarUse (.s 4) false ++ scalarUse (.s 5) false) (fun c => (c.w.scalar (.s 4)).toNat % 32 == 0 &&
      decide ((c.w.scalar (.s 5)).toNat < 2 ^ 24 ∧ (c.w.scalar (.s 5)).toNat ≤ (c.s.cluster (Config.clusterOf c.core)).logN.toNat)) = true ∧
    onceMet demoL Guard.always (fun _ => scalarDst (w (.s 1) .unused .unused)) (fun c => decide (c.s.queueLen c.core .q4 < queueDepth .q4)) = true := by
  decide +kernel

/-- A fill task of the generated block at 8 MiB. -/
def demoTask : Task := ⟨9, 0, 1, 0x800000, 1, 0, 0, true, true, true⟩

/-- The demo wave as a filler of depth 1 of generator 1, whose block at 8 MiB is FILLING, with task 9; s8 names the block. -/
def demoF (held bound : Option Nat) (tasks : List Task) : State :=
  let s := (demoS [(8, 0x800000)]).modWave 0 0 fun v => { v with depth := 1, gen := some 1, held := held, bound := bound }
  let s1 := s.setPart 0 { s.part 0 with gens := [(1, demoGen)], tasks := tasks }
  (List.range 4).foldl (fun s i => s.setGenLine 0 (0x10000 + i) (some ⟨.filling, [], .fault, 0⟩)) s1

theorem witness_FillerResults :
    -- FGET of the bound task, of a queued one, and of none
    [some 9, none].all (fun bound => onceMet (demoF none bound [demoTask]) Guard.always (fun _ => scalarDst (w (.s 1) .unused .unused)) (fun c =>
      c.w.depth != 0 && c.w.held.isNone && (match c.w.bound with | some id => c.part.tasks.find? fun x => x.id = id | none => c.nextTask) == some demoTask)) = true ∧
    onceMet (demoF none none []) Guard.always (fun _ => scalarDst (w (.s 1) .unused .unused)) (fun c =>
      c.w.depth != 0 && c.w.held.isNone && c.w.bound.isNone && c.nextTask == none) = true ∧
    vecMet (demoF (some 9) none [demoTask]) Guard.always (fun _ => scalarUse (.s 8) false ++ usesOf (.v 2) false false true false false fun _ => none) (fun c _ =>
      c.fillLines (c.fillAddr (w .unused (.s 8) (.v 2))) == some (demoTask, [0x10000, 0x10001, 0x10002, 0x10003]) && !c.s.wavePending c.core c.w.uid true) = true ∧
    onceMet (demoF (some 9) none [demoTask]) Guard.always (fun _ => scalarUse (.s 8) false) (fun c =>
      c.fillLines (c.fillAddr (w .unused (.s 8) .unused)) == some (demoTask, [0x10000, 0x10001, 0x10002, 0x10003])) = true ∧
    onceMet (demoF (some 9) none [demoTask]) Guard.always (fun _ => []) (fun c => c.w.depth != 0 && c.task == some (demoTask, demoGen) &&
      !c.s.wavePending c.core c.w.uid true && c.w.held == some 9) = true ∧
    onceMet (demoF (some 9) none [demoTask]) Guard.always (fun _ => scalarUse (.s 8) false ++ scalarDst (w (.s 1) (.s 8) .unused)) (fun c =>
      c.acquiring.isNone && canonical (c.fillAddr (w (.s 1) (.s 8) .unused))) = true := by decide +kernel

/-- A RECORD node: records of two words, a ring of four at 0x20000, recursion limit 3, with or without the trap bit. -/
def demoNode : Node := 5 + 3 * 2 ^ 48 + 0x20000 * 2 ^ 128 + 1 * 2 ^ 192 + 3 * 2 ^ 200

/-- The demo wave of recursion depth `d` on a core whose graph has that node. -/
def demoG (d : Nat) : State :=
  let s := demoM.modWave 0 0 fun v => { v with recDepth := d }
  s.setCore 0 { s.core 0 with
    flags := 1
    graph := some ⟨0, 0, [demoNode], 0, true, none, 0, 0, [], [], [], false, []⟩ }

theorem witness_GraphInstructionResults :
    onceMet demoM Guard.always (fun _ => scalarUse (.s 5) false ++ scalarUse .zero false) (fun c =>
      let o := w .unused (.s 5) .zero
      c.acquiring.isNone && !bitOf (c.spAddr o 0) 31 && (spTarget c.core (c.spAddr o 0) 4).isSome && c.spAddr o 0 % 4 == 0 &&
      !c.s.spBlocked c.core (c.spAddr o 0 % 2 ^ 19) (c.spAddr o 0 % 2 ^ 19 + 4) true && !c.spoil.s.wavePending c.core c.spoil.w.uid true) = true ∧
    -- TGWAIT for a flag that is set, and for two of which one is
    [(1 : BitVec 16), 3].all (fun m => onceMet (demoG 0) Guard.always (fun _ => []) (fun c => ((c.s.core c.core).flags &&& m == m) == (m == 1))) = true ∧
    -- EMIT at the recursion limit, and past it
    vecMet (demoG 2) g1 (fun _ => runUses (.v 8) 2 false true false true fun _ => none) (fun c act =>
      c.acquiring.isNone && (match (c.s.core c.core).graph with
        | some g => (match g.nodes[0]? with
          | some n => nodeKind n == 5 && nodeWords n == 2 && decide (c.w.recDepth + 1 ≤ nodeMaxDepth n) &&
            (act.threads.zipIdx.all fun x => match g.slotFor 0 n x.2 with
              | some p => (match c.reach true (ringAddr n p) (List.range 8) with | .bytes _ => true | _ => false)
              | none => false)
          | none => false)
        | none => false) && !c.s.wavePending c.core c.w.uid true) = true ∧
    vecMet (demoG 3) g1 (fun _ => runUses (.v 8) 2 false true false true fun _ => none) (fun c _ =>
      (match (c.s.core c.core).graph.bind fun g => g.nodes[0]? with
        | some n => nodeKind n == 5 && nodeWords n == 2 && decide (nodeMaxDepth n < c.w.recDepth + 1) && !bitOf n.toNat 15
        | none => false)) = true := by decide +kernel

theorem witness_ControlRegisterResults :
    -- GZ_TMIN of the own cluster and of cluster 47, read and written
    [(Opnd.zero, 0), (Opnd.s 1, 47)].all (fun x => onceMet (demoS [(1, 47), (2, 0)]) Guard.always
      (fun _ => scalarUse x.1 false ++ scalarUse (.s 2) false ++ scalarDst (w (.s 3) x.1 .unused)) (fun c =>
      !machineReg 0x2001 true && !machineReg 0x2001 false && c.s.instOwned c.w.part 0x2001 x.2 &&
      (match x.1 with
        | .s n => x.2 == (c.w.s n.toNat).val.toNat && decide (x.2 < 256) && !partBlock 0x2001 && instExists 0x2001 x.2
        | _ => x.2 == ownInst 0x2001 c.core c.w.part) && !c.spoil.s.wavePending c.core c.spoil.w.uid true)) = true ∧
    -- TLBI of no bytes and of 2^40 - 1
    [(0 : DWord), 0xFFFFFFFFFF].all (fun n => onceMet (demoS [(1, 0x20000), (2, n)]) Guard.always (fun _ => scalarUse (.s 1) false ++ scalarUse (.s 2) false)
      (fun c => decide ((c.w.scalar (.s 2)).toNat < 2 ^ 40))) = true ∧
    onceMet (demoS [(1, 0x20000)]) Guard.always (fun _ => scalarUse (.s 1) false ++ scalarDst (w (.s 3) (.s 1) .unused)) = true := by decide +kernel

/-- The demo wave with a second wave in slot 5 of the core's second quadrant, which s1 names; s2 names an empty slot. -/
def demoH (suspended : Bool) : State :=
  let s := demoS [(1, 0x1500), (2, 0x400)]
  s.setCore 0 { s.core 0 with waves := (s.core 0).waves.put 11 { bootWave 7 0x10000 with suspended := suspended } }

theorem witness_WaveControlResults :
    onceMet (demoH false) Guard.always (fun _ => scalarUse (.s 2) false ++ scalarDst (w (.s 3) (.s 2) .unused)) (fun c =>
      c.part.handleOk 0x400 && (c.w.scalar (.s 2)).toNat % 2 ^ 32 == 0x400 && c.s.handleOf c.core c.slot != 0x400 &&
      (c.s.findTarget c.w.part 0x400).isNone) = true ∧
    [false, true].all (fun x => onceMet (demoH x) Guard.always (fun _ => scalarUse (.s 1) false ++ scalarDst (w (.s 3) (.s 1) .unused)) (fun c =>
      c.part.handleOk 0x1500 && (c.w.scalar (.s 1)).toNat % 2 ^ 32 == 0x1500 && c.s.handleOf c.core c.slot != 0x1500 &&
      (match c.s.findTarget c.w.part 0x1500 with | some v => v.uid != c.w.uid && v.suspended == x | none => false))) = true ∧
    onceMet demo Guard.always (fun _ => []) = true := by decide +kernel

theorem witness_MisusedInstructionsTrap :
    -- FGET outside a filler and with a task held; FCMT and FEND outside a filler and without a task
    onceMet demo Guard.always (fun _ => scalarDst (w (.s 1) .unused .unused)) (fun c => c.w.depth == 0) = true ∧
    onceMet (demoF (some 9) none [demoTask]) Guard.always (fun _ => scalarDst (w (.s 1) .unused .unused)) (fun c => c.w.held.isSome) = true ∧
    [demo, demoF none none []].all (fun s => vecMet s Guard.always
      (fun _ => scalarUse (.s 8) false ++ usesOf (.v 2) false false true false false fun _ => none) (fun c _ => c.w.depth == 0 || c.w.held.isNone)) = true ∧
    [demo, demoF none none []].all (fun s => onceMet s Guard.always (fun _ => []) (fun c => c.w.depth == 0 || c.w.held.isNone)) = true ∧
    -- FCMT at an address that is no multiple of 512, of a block that is not held, and of one with a line that is not FILLING; FPSN at the first
    [((0x800080 : DWord), GenState.filling), (0x800200, .filling), (0x800000, .valid)].all (fun x =>
      let s := ((demoF (some 9) none [demoTask]).modWave 0 0 fun v => v.putS 8 x.1).setGenLine 0 0x10003 (some ⟨x.2, [], .fault, 0⟩)
      let strange := fun (c : Ctx) =>
        let a := (c.fillAddr (w .unused (.s 8) (.v 2))).toNat
        let n := 4 * c.w.width
        c.task == some (demoTask, demoGen) && (a % n != 0 || decide (a < demoTask.block) || decide (demoTask.block + demoGen.block < a + n) ||
          (List.range (n / 128)).any fun i => match c.s.genLine c.w.part (a / 128 + i) with | some x => x.state != .filling | none => true)
      vecMet s Guard.always (fun _ => scalarUse (.s 8) false ++ usesOf (.v 2) false false true false false fun _ => none) (fun c _ => strange c) &&
      onceMet s Guard.always (fun _ => scalarUse (.s 8) false) strange) = true ∧
    -- FPSN outside a filler and without a task
    [demo, demoF none none []].all (fun s => onceMet s Guard.always (fun _ => scalarUse (.s 8) false) (fun c => c.w.depth == 0 || c.w.held.isNone)) = true ∧
    -- CRWR of a register that is closed: at machine level and of a head of none; and by s1, of cluster 47, that the partition does not hold
    onceMet demo Guard.always (fun _ => scalarUse .zero false ++ scalarUse (.s 2) false) (fun c =>
      machineReg 2 true && machineReg 0x400B true && !c.s.instOwned c.w.part 0x4001 (ownInst 0x4001 c.core c.w.part)) = true ∧
    onceMet ((demoS [(1, 47)]).setPart 0 { demo.part 0 with clusters := 1 }) Guard.always
      (fun _ => scalarUse (.s 1) false ++ scalarUse (.s 2) false ++ scalarDst (w (.s 3) (.s 1) .unused)) (fun c =>
      decide ((c.w.s 1).val.toNat = 47) && !partBlock 0x2001 && instExists 0x2001 47 && !c.s.instOwned c.w.part 0x2001 47) = true ∧
    -- an instance of a partition block, and one that a block does not have
    onceMet (demoS [(1, 48)]) Guard.always (fun _ => scalarUse (.s 1) false ++ scalarUse (.s 2) false) (fun c =>
      partBlock 0x5001 && decide ((c.w.s 1).val.toNat = 48) && !instExists 0x2001 48) = true ∧
    -- a register of machine level, one of a head that another partition holds, and instance 256
    onceMet demo Guard.always (fun _ => scalarUse .zero false ++ scalarDst (w (.s 3) .zero .unused)) (fun c =>
      machineReg 2 false && !c.s.instOwned c.w.part 0x4001 (ownInst 0x4001 c.core c.w.part)) = true ∧
    onceMet (demoS [(1, 256)]) Guard.always (fun _ => scalarUse (.s 1) false ++ scalarDst (w (.s 3) (.s 1) .unused)) (fun c =>
      decide (256 ≤ (c.w.s 1).val.toNat)) = true := by decide +kernel

/-! ### Witnesses of the statements about events -/

/-- The next states of several. -/
def afterAll (l : List Instr) (s : State) : State := l.foldl (fun s i => after i s) s

/-- Threads 0 and 5 of the demo wave have issued an instruction whose operations are under way. -/
def under (i : Instr) (more : List Instr := []) : State := afterAll (i :: more) (demoM.modWave 0 0 fun v => { v with blocks := 2 })

/-- The same of thread 0 alone, whose accesses have only one order. -/
def under1 (i : Instr) : State :=
  after i (demoM.modWave 0 0 fun v => (v.setP 1 ((v.p 1).write v.all 1 0 .fault)))

/-- Operands under predicate 1. -/
def wg (d a b : Opnd) (imm : BitVec 21 := 0) : Ops := { w d a b imm with guard := g1 }

/-- The first operation of core 0, when it may take effect. -/
def first (s : State) : Option MemOp := ((s.core 0).memq.head?).filter fun m => !s.opHeld 0 0 m

/-- The line at 0x20000 comes from memory. -/
def fetched : List Instr := [.loadCompletion 0 0, .lowerTierRead (LineKey.phys 0x400).code none]

/-- A read of lanes is complete, its wave being there (`true`), or waits (`false`). -/
def lanesDone (s : State) (m : MemOp) (accs : List (Nat × Option DWord)) (n : Nat) (way : Option L1Way) (done : Bool) : Bool :=
  match s.readLanes (m.reader 0 (s.opPart 0 m)) accs n way with
  | .inr d => done && (d.s.wave? 0 m.slot).any fun v => v.uid == m.wave
  | .inl _ => !done

theorem witness_LoadsComplete :
    -- a load that waits, one whose line is at hand, a prefetch, LR, ACQ, a node fetch, VXM, a special function
    (let s := under (.ld (wg (.v 8) (.s 4) .unused) .b32 false .x1 0)
     (first s).any fun m => match m.kind with
       | .load (.v 8) _ _ _ _ nc false accs => lanesDone s m accs 4 (some ⟨nc, s.fencedOf 0 m⟩) false
       | _ => false) = true ∧
    (let s := under (.ld (wg (.v 8) (.s 4) .unused) .b32 false .x1 0) fetched
     (first s).any fun m => match m.kind with
       | .load (.v 8) _ _ _ _ nc false accs => lanesDone s m accs 4 (some ⟨nc, s.fencedOf 0 m⟩) true
       | _ => false) = true ∧
    (let s := under (.pref (w .unused (.s 4) .unused) false) fetched
     (first s).any fun m => match m.kind with
       | .load .zero _ _ _ _ nc false accs => lanesDone s m (s.prefetched 0 (s.opPart 0 m) m accs) 4 (some ⟨nc, s.fencedOf 0 m⟩) true &&
         !(s.prefetched 0 (s.opPart 0 m) m accs).isEmpty
       | _ => false) = true ∧
    -- a prefetch into the LLC whose page has gone since
    (let s0 := under (.pref (w .unused (.s 4) .unused) true)
     let s := ((s0.setCore 0 { s0.core 0 with tlb := [] }).setCluster 0 { s0.cluster 0 with tlb := [] }).setPart 0 { s0.part 0 with ptRoot := 0 }
     (first s).any fun m => match m.kind with
       | .load .unused _ _ _ _ _ false accs => lanesDone s m (s.prefetched 0 (s.opPart 0 m) m accs) 4 none true
       | _ => false) = true ∧
    (let s := under (.lr (wg (.v 8) (.s 4) .unused) .b32) fetched
     (first s).any fun m => match m.kind with
       | .load (.v 8) _ _ _ _ nc true accs => !nc && lanesDone s m accs 4 none true
       | _ => false) = true ∧
    (let s := under (.acq (w (.s 9) (.s 4) .unused) .device) fetched
     (first s).any fun m => match m.kind with
       | .acq _ addr _ => !s.passedStores 0 m && lanesDone s m [(0, some addr)] 8 none true
       | _ => false) = true ∧
    (let s := under (.boxt (wg (.v 16) (.v 8) (.s 4)) false) fetched
     (first s).any fun m => match m.kind with
       | .node _ false _ rays _ _ _ => lanesDone s m (rays.map fun x => (x.1, x.2.1)) 128 (some ⟨false, 0⟩) true
       | _ => false) = true ∧
    (let s := under (.vxm (wg (.v 16) (.v 8) (.v 4)) .rne)
     (first s).any fun m => match m.kind with
       | .vxm _ _ _ accs _ _ _ _ _ => lanesDone s m (accs.map fun x => (x.1, x.2.1)) 256 none true
       | _ => false) = true ∧
    (let s := under (.frcp (wg (.v 8) (.v 4) .unused) .rne)
     (first s).any fun m => (match m.kind with | .value .. => true | _ => false) && (s.wave? 0 m.slot).any fun v => v.uid == m.wave) = true ∧
    (let s := after (.fget (w (.s 1) .unused .unused)) (demoF none none [demoTask])
     (first s).any fun m => (match m.kind with | .task .. => true | _ => false) && (s.wave? 0 m.slot).any fun v => v.uid == m.wave) = true := by
  decide +kernel

/-- A store at the line at 0x20000 has come to it, which asks for the line; it comes. -/
def fetchedLine : List Instr := [.storePerformed 0 0, .lowerTierRead (LineKey.phys 0x400).code none]

theorem witness_StoresArePerformed :
    (let s := under1 (.st (wg .unused (.s 4) (.v 8)) .s32 false .x1 0)
     (first s).any fun m => match m.kind with
       | .store _ bytes _ _ => s.writableAll (s.opPart 0 m) m.stores && s.unchecked == [] && bytes.length == 4
       | _ => false) = true ∧
    (let s := afterAll fetchedLine (under1 (.atom (wg (.v 8) (.s 4) (.v 6)) .s32 .add))
     (first s).any fun m => match m.kind with
       | .atom _ _ addr ty op fop cmp data flush _ _ => (s.beforeAtom 0 m (addr / 128)).isNone && !s.wordPoisoned addr &&
         ((List.range (tyBits ty / 8)).all fun i => !s.chanFailed (addr + i)) &&
         (atomNew ty op fop cmp data flush (leNat (s.mem.readBytes addr (tyBits ty / 8)))).2 == [] && (s.wave? 0 m.slot).any fun v => v.uid == m.wave
       | _ => false) = true ∧
    -- SC that holds, and one that does not
    [[Instr.lr (wg (.v 8) (.s 4) .unused) .b32] ++ fetched ++ [.loadCompletion 0 0], []].all (fun l =>
      let s := afterAll (l ++ [.sc (wg (.v 9) (.s 4) (.v 6)) .b32] ++ if l.isEmpty then fetchedLine else []) (demoM.modWave 0 0 fun v => (v.setP 1 ((v.p 1).write v.all 1 0 .fault)))
      (first s).any fun m => match m.kind with
        | .sc _ _ addr ty _ held lr => (s.beforeAtom 0 m (addr / 128)).isNone && (held && lr.isNone) == !l.isEmpty &&
          (List.range (tyBits ty / 8)).all fun i => !s.chanFailed (addr + i)
        | _ => false) = true := by decide +kernel

/-- A store of threads 0 and 5 to core 1, with a credit to the object at 0x100. -/
def remoteStore : State := afterAll [.sts { wg (.s 6) (.s 5) (.v 8) with guard := g1 } .b32 false .x1 true] (demoM.modWave 0 0 fun v => v.putS 5 0x80100040)

theorem witness_ScratchpadEventsTakeEffect :
    ((remoteStore.core 0).memq.head?.any fun m => match m.kind with
      | .remote target off bytes _ credit => !(remoteStore.core 0).spHeld 0 m target off (off + bytes.length) &&
        !remoteStore.spStalls m target off (off + bytes.length) && credit == some 0x100
      | _ => false) = true ∧
    (let s := under1 (.atoms (wg (.v 8) (.s 5) (.v 6)) .s32 .add)
     (s.core 0).memq.head?.any fun m => match m.kind with
      | .atoms _ _ target off ty _ _ => !(s.core 0).spHeld 0 m target off (off + tyBits ty / 8) &&
        !s.spStalls m target off (off + tyBits ty / 8) && !((s.spRead target off (tyBits ty / 8)).any (·.2)) &&
        (s.wave? 0 m.slot).any fun v => v.uid == m.wave
      | _ => false) = true ∧
    ((after (.remoteScratchpadStore 0 0) remoteStore).core 1).credits[0]?.isSome = true ∧
    ((({ demo.core 0 with sboard := [⟨3, 1, 0, 16, true, true⟩] } : Core).sboard[0]?).any fun x => x.done) = true := by decide +kernel

/-- Several events at lines of memory that come in. -/
def come (lines : List Nat) : List Instr := lines.map fun l => .lowerTierRead (LineKey.phys l).code none

/-- Every part of a merge entry is at hand; a physical one stands as it is. -/
def mergeMet (s : State) (m : Merge) : Bool :=
  let r : Reader := ⟨m.reader.1, m.part, m.reader.2.1, m.reader.2.2, 0, false, true, m.bad, 0, none⟩
  (m.pieces.all fun x => match x.key with | .phys _ => true | _ => false) &&
    (s.readyAll r ((m.pieces.map (·.key)).eraseDups)).2.all fun x => x.2 != .wait

/-- A multicast load of the 16 bytes at 0x20000 to offset 0x100 of cores 0 and 1. -/
def cast : State :=
  after (.ldmc (w (.s 8) (.s 4) (.s 5)) 0x4FFF0) (demoS [(4, 0x20000), (5, BitVec.ofNat 64 (3 + 0x100 * 2 ^ 32))])

/-- Thread 0 has issued an LDNC of 0x20000, whose page is one that peers forward; core 1 has the line. -/
def forward : State :=
  let s := under1 (.ldnc (wg (.v 8) (.s 4) .unused) .b32 false .x1 0)
  let s1 := s.setCore 1 { s.core 1 with l1 := [⟨.phys 0x400, List.replicate 128 0, false, 0⟩] }
  s1.setCore 0 { s1.core 0 with
    tlb := (s.core 0).tlb.map fun e => { e with leaf := e.leaf ||| 64 }
    pred := [(Config.predictorHash (LineKey.phys 0x400).code % 256, some 0)] }

/-- The request of `cast` reaches its slice, and asks for its line, which comes; then its response leaves. -/
def gathered : State := afterAll (.multicastRequest 0 0 :: .mergedResponse (demo.home 0 (.phys 0x400)) 0 :: come [0x400]) cast
def answered : State := after (.mergedResponse (demo.home 0 (.phys 0x400)) 0) gathered
/-- The same request again joins the window. -/
def joined : State := afterAll [.ldmc (w (.s 9) (.s 4) (.s 5)) 0x4FFF0, .multicastRequest 0 1] answered
/-- The first merge entry at the line's home. -/
def entry (s : State) : Option Merge := (s.slice (demo.home 0 (.phys 0x400))).merges[0]?

theorem renewPiece_phys (s : State) (r : Reader) (src : DWord) (a l o : Nat) : s.renewPiece r src ⟨a, .phys l, o⟩ = (s, .inl (some ⟨a, .phys l, o⟩)) := rfl

/-- A reader that does not read at once leaves the state in which it finds its bytes as it was. -/
theorem locate_stays (s : State) (r : Reader) (write : Bool) (va : DWord) (n : Nat) (ls : List Loc) (h : r.now = false)
    (found : (s.locate r write va n).2 = .at_ ls) : s.locate r write va n = (s, .at_ ls) := by
  unfold State.locate at found ⊢
  simp only [h, Bool.false_eq_true, if_false] at found ⊢
  split at found
  · simp at found
  · rename_i miss
    rw [if_neg miss]
    split at found
    · simp at found
    · simp only [List.foldl_nil] at found ⊢
      split at found <;> simp_all

theorem witness_MulticastEventsTakeEffect :
    -- PEER_PROBE, the predictor naming the own cluster
    (forward.core 0).pred.get none (Config.predictorHash (LineKey.phys 0x400).code % 256) = some 0 ∧
    ((forward.core 0).memq[0]?.any fun m => (match m.kind with
      | .load (.v 8) .b32 false .x1 0 true false [(0, some va)] => va == 0x20000 && (linesOf va 4).eraseDups == [0x400]
      | _ => false) && (forward.wave? 0 m.slot).isSome && forward.forwards 0 0 0x20000 && forward.opPart 0 m == 0 &&
        ((forward.core 0).l1Hit true (forward.fencedOf 0 m) (.phys 0x400)).isNone &&
        (forward.peerCopy 0 0 (.phys 0x400) (forward.fencedOf 0 m)).isSome) = true ∧
    (forward.keysOf 0 0 0x400).eraseDups = [.phys 0x400] ∧
    -- MULTICAST_REQUEST
    ((cast.core 0).memq[0]?.any fun m => match m.kind with
      | .ldmc _ src len _ _ _ false _ => (List.range (len / 16)).all fun i =>
        match (cast.locate (m.reader 0 (cast.opPart 0 m)) false (src + BitVec.ofNat 64 (16 * i)) 16).2 with
        | .at_ (x :: _) => !cast.moving (cast.opPart 0 m) x.key && !cast.pieceNests (m.reader 0 (cast.opPart 0 m)) x.key
        | _ => false
      | _ => false) = true ∧
    -- MERGED_RESPONSE, its window, and a late joiner of the window
    ((entry gathered).any fun m => m.phase == .gathering && mergeMet gathered m) = true ∧
    ((entry answered).any fun m => m.phase == .window) = true ∧
    ((entry joined).any fun m => m.phase == .collecting && mergeMet joined m) = true ∧
    -- LDMC_DELIVERY
    ((answered.deliveries.get [] 1)[0]?.any fun x => x.from_.isSome &&
      decide ((answered.core 1).sboard.length + ((x.requests.map (·.2)).filter fun op => !(answered.core 1).hasEntry op).length ≤ 64)) = true := by
  refine ⟨?_, ?_, ?_, ?_, ?_, ?_, ?_, ?_⟩
  · unfold forward
    generalize under1 _ = s
    dsimp only
    rw [State.core_setCore_same]
    simp [Tab.get]
  all_goals decide +kernel

/-- An operation of the demo wave in an engine queue. -/
def qe {κ : Type} (k : κ) : QEntry κ := ⟨9, 0, 0, 0, .supervisor, 0, 0, false, [], 0, 0, 0, [], [], k⟩

/-- Core 0 with an operation in its queue 1. -/
def in1 (k : Q1Kind) : State := demo.setCore 0 { demo.core 0 with q1 := [qe k] }

/-- An operation of queue 1 at the head of core 0 may run. -/
def runs1 (k : Q1Kind) : Bool :=
  (((in1 k).core 0).q1.head?).any fun e => e == qe k && e.clear (in1 k) 0 && (e.unentered (in1 k) 0).isEmpty

/-- A copy of two rows of 32 bytes within the scratchpad of core 0, with a credit, and one to core 1. -/
def copyHere : CopyDesc := copyDesc 0x200 0x1000 (0x1F + 2 ^ 20 + 64 * 2 ^ 32) (64 + 0x100 * 2 ^ 32 + 2 ^ 51 + 2 ^ 52 + 2 ^ 53)
def copyThere : CopyDesc := copyDesc 0x200 0x80101000 0x1F (2 ^ 52 + 2 ^ 53)

/-- The shape of one row of 16 bytes. -/
def oneRow : DWord := 0

theorem witness_QueueOperationsComplete :
    (runs1 (.copy copyHere) && ((in1 (.copy copyHere)).moveCells ((qe (Q1Kind.copy copyHere)).reader 0) (copyHere.cells 0)).2.isSome) = true ∧
    ((((in1 (.copy copyThere)).core 0).q1.head?).any fun e => e.clear (in1 (.copy copyThere)) 0 && !(e.unentered (in1 (.copy copyThere)) 0).isEmpty) = true ∧
    (let k := Q1Kind.tld 1 .bf16 true 0x200 oneRow
     runs1 k && ((in1 k).readCells ((qe k).reader 0) (shapeCells 0 true 0x200 oneRow)).2.isSome) = true ∧
    (let k := Q1Kind.tst 1 true 0x200 oneRow
     runs1 k && !((in1 k).targetsOf ((qe k).reader 0)
       ((shapeCells 0 true 0x200 oneRow).map fun c => ({ c with src := .zeros, dst := c.src } : Cell))).2.any fun t => t == .genro || t == .wait) = true ∧
    runs1 (.tcpy 1 2) = true ∧
    (let k := Q1Kind.tcb 1 true 0x200
     runs1 k && ((in1 k).readCells ((qe k).reader 0) [⟨0, endOf 0 true 0x200, .zeros⟩, ⟨0, (endOf 0 true 0x200).plus 16, .zeros⟩]).2.isSome) = true ∧
    (let s := demo.setCore 0 { demo.core 0 with q4 := [qe .marker], q3 := [qe .marker], q2 := [qe ⟨.pin, 0x20000, 0x100, 0, false⟩] }
     (match (s.core 0).q4 with | e :: _ => e == qe .marker && e.clear s 0 | [] => false) &&
     (match (s.core 0).q3 with | e :: _ => e == qe .marker && e.clear s 0 | [] => false) &&
     (match (s.core 0).q2 with | e :: _ => e.kind.hint == .pin && e.clear s 0 | [] => false)) = true ∧
    -- hints of no bytes, and of a page that need not wait
    [(0 : Nat), 0x100].all (fun n =>
      let e := qe (HintOp.mk .pin 0x20000 n 0 false)
      let s := demo.setCore 0 { demo.core 0 with q2 := [e] }
      (s.core 0).q2 == [e] && e.clear s 0 && (n == 0 || !((List.range ((e.kind.base.toNat + e.kind.len + 4095) / 4096 -
        e.kind.base.toNat / 4096 - e.kind.at_)).foldl (fun (x : HintRun) _ => x.page (e.reader 0) e.kind.hint (e.kind.base.toNat / 4096))
          { s := s, at_ := e.kind.at_, refused := e.kind.refused }).wait)) = true := by decide +kernel

/-- The line at 0x20000 in the LLC. -/
def near : State := afterAll fetched (under1 (.ldnc (wg (.v 8) (.s 4) .unused) .b32 false .x1 0))

/-- Pair 0 with a matrix operation of BF16 operands all of whose rows are at 0x20000, with the latch word 3 given. -/
def mx (qd : DWord) : MxOp := MxOp.start 0 0x20000 0x20000 0 qd
def in0 (m : MxOp) : State := { near with pairs := [(0, ⟨[qe m]⟩)] }

/-- A matrix operation of one chunk that drains with the descriptor at 0x100 of the scratchpad, its chunk computed. -/
def mxDone : MxOp := { mx (2 ^ 16 + 0x100 * 2 ^ 32) with started := true, p := 1 }

theorem witness_MatrixEventsTakeEffect :
    -- MATRIX_CHUNK
    ((in0 (mx 0)).computing 0 == some (qe (mx 0)) && (qe (mx 0)).clear (in0 (mx 0)) 0 &&
      (let (s1, e1) := (in0 (mx 0)).startMx 0 (qe (mx 0))
       let m := e1.kind
       let n := m.chunk
       let ranges := (List.range 64).map (fun i => (m.qa + BitVec.ofNat 64 (i * (m.qc.toNat % 2 ^ 32) + m.p * (n * matBits m.aFmt / 8)), n * matBits m.aFmt / 8)) ++
         (List.range n).map fun k => (m.qb + BitVec.ofNat 64 ((m.p * n + k) * (m.qc.toNat / 2 ^ 32)), 4 * matBits m.bFmt)
       let reads := (s1.readRanges (e1.reader m.core 2) ranges).2
       !reads.contains .wait && (readsFault reads).isNone && !(in0 (mx 0)).hazard0 0 e1 ranges)) = true ∧
    -- EPILOGUE_DRAIN: a tile to stage, one with a malformed descriptor, one that is staged
    (mxDone.started && decide (mxDone.chunks ≤ mxDone.p) && mxDone.drains && !mxDone.staged && mxDone.desc.isNone &&
      (in0 mxDone).queue0 0 == [qe mxDone] &&
      ((in0 mxDone).core (mxDone.drainCore 0 0)).staging.isNone && ((in0 mxDone).core (mxDone.drainCore 0 1)).staging.isNone &&
      !epiOk (((in0 mxDone).spPut 0 0x100 (leBytes 16 (2 ^ 127))).epiDesc 0 0x100)) = true ∧
    (let m := { mxDone with staged := true, desc := some 0 }
     m.started && decide (m.chunks ≤ m.p) && m.drains && (in0 m).queue0 0 == [qe m]) = true := by decide +kernel
/-- Core 0 with a load of the image at 0x20000, of the version given, in queue 3, its lines at hand. -/
def lathAt (version : Byte) : State :=
  let s := demo.setCore 0 { demo.core 0 with q3 := [qe (.load 0x20000 false)] }
  afterAll (.lathImageLoad 0 :: come [0x400, 0x401, 0x402, 0x403]) { s with mem := s.mem.write 0x20000 version }

/-- An image of one input and one output, all of whose cells are idle. -/
def idleImage : List Byte := 1 :: List.replicate 511 0

/-- Core 0 with a run of the idle image in threads 0 and 5, and the image in its grid. -/
def lathRun : State :=
  demo.setCore 0 { demo.core 0 with
    q3 := [qe (.run (.v 8) 1 1 0x20000 [0, 5] [[3], [4]] [1, 0x21] [.fault, .data] false)], lath := ⟨some (0x20000, 0, idleImage)⟩ }

/-- Core 0 with an operation in queue 4. -/
def in4 (k : Q4Kind) : State := demo.setCore 0 { demo.core 0 with q4 := [qe k] }

/-- An operation of queue 4 at the head of core 0 may be performed. -/
def runs4 (k : Q4Kind) : Bool := (in4 k).head4 0 == some (qe k)

theorem witness_LathAndGlazeEventsTakeEffect :
    -- LATH_IMAGE_LOAD of a good image and of one of version 0
    [(1 : Byte), 0].all (fun v => (match ((lathAt v).core 0).q3 with
      | e :: _ => e == qe (.load 0x20000 false) && e.clear (lathAt v) 0 && !((lathAt v).core 0).holdsImage e.part 0x20000 &&
        (match ((lathAt v).readImage 0 e 0x20000).2 with | .image _ => v == 1 | .fail why => v == 0 && why == 8 | .wait => false)
      | [] => false)) = true ∧
    -- LATH_RUN_COMPLETION
    ((match (lathRun.core 0).q3, (lathRun.core 0).lath.image with
      | e :: _, some (_, _, img) => e.clear lathRun 0 && (lathRun.core 0).holdsImage e.part 0x20000 && imageIns img == 1 && imageOuts img == 1 &&
        (lathRun.wave? 0 e.slot).any fun w => w.uid == e.wave
      | _, _ => false) && lathRun.upsets.isEmpty) = true ∧
    -- GLAZE_ARRIVAL, GLAZE_READ, GLAZE_CLEAR, GLAZE_STATUS_READ and GLAZE_REPLAY
    (let k := Q4Kind.arrive [⟨4095, 5, [0, 0, 0], 0x3800, none⟩]
     runs4 k && (([⟨4095, 5, [0, 0, 0], 0x3800, none⟩] : List Arrival).foldl GzRun.arrive ((in4 k).startGz 0 (qe k))).wait.isNone) = true ∧
    (let k := Q4Kind.read (.v 8) false [(0, 4095), (5, 0)] 0 .fault
     runs4 k && (in4 k).upsets.isEmpty && ((in4 k).done4 0 (qe k) 0 0 0).findWave 0 == some (0, 0) && ((in4 k).wave? 0 0).isSome) = true ∧
    [Q4Kind.clear [0, 4095], .clearAll, .status (.s 3), .replay 0x20000 0].all runs4 = true ∧
    (((in4 (.status (.s 3))).done4 0 (qe (.status (.s 3))) 0 0 0).findWave 0 == some (0, 0)) = true := by decide +kernel
/-- A line of flash whose home slice holds a miss slot for it. -/
def askedFlash : State :=
  let l := 0x100000000000 / 128
  demo.setSlice (demo.home 0 (.phys l)) { demo.slice (demo.home 0 (.phys l)) with slots := [⟨0, 0, .line (.phys (copyNo 0 l))⟩] }

/-- Core 0 asks for the line at 0x20000. -/
def asked : State := after (.loadCompletion 0 0) (under1 (.ldnc (wg (.v 8) (.s 4) .unused) .b32 false .x1 0))

/-- A generated line's home slice holds a miss slot for it. -/
def askedGen : State :=
  let s := demo.setPart 0 { demo.part 0 with gens := [(1, demoGen)] }
  s.setSlice 7 { s.slice 7 with slots := [⟨0, 0, .line (.gen 0 0x10000)⟩] }

/-- Core 64 reads the page of 0x20000 through a leaf with W = 0. -/
def guestWanted : State :=
  near.setCore 64 { near.core 64 with tlb := (near.core 0).tlb.map fun e => { e with leaf := e.leaf &&& ~~~(8 : BitVec 256) } }

theorem witness_SliceEventsTakeEffect :
    (match asked.readersOf (.phys 0x400) with
      | [h] => !inFlash (copyLine 0x400 * 128) && (asked.makeRoom h.1 none).hasSpace h.1 (LineKey.phys 0x400).code
      | _ => false) = true ∧
    (match askedGen.readersOf (.gen 0 0x10000) with | [h] => askedGen.hasSpace h.1 (LineKey.gen 0 0x10000).code | _ => false) = true ∧
    (let l := 0x100000000000 / 128
     ((flashLines (0x100000000000 / 16384)).filter fun l => inFlash (l * 128) && (askedFlash.victimCopy 0 (.phys l)).isNone &&
       (askedFlash.slice (askedFlash.home 0 (.phys l))).holdsSlot (.line (.phys (copyNo 0 l)))) == [l] &&
     askedFlash.hasSpace (askedFlash.home 0 (.phys l)) (LineKey.phys (copyNo 0 l)).code) = true ∧
    (Tab.find (near.slice (near.home 0 (.phys 0x400))).lines 0x400).isSome = true ∧
    -- MISS_SLOT_GRANT of the one class-1 request that waits
    (let w : MissWait := ⟨1, 0, 0, .phys 0x401⟩
     let s := demo.setSlice 5 { demo.slice 5 with waiting := [w] }
     ((s.slice 5).waiting.filter fun x => x.depth = 1) == [w] && (s.slice 5).hasSlot 1 && s.hasSpace 5 (LineKey.phys (copyNo 0 0x401)).code &&
       (Tab.find (s.slice 5).lines (copyNo 0 0x401)).isNone && !(s.slice 5).holdsSlot (.line (.phys (copyNo 0 0x401)))) = true ∧
    -- GUEST_COPY_FILL of a line that core 64 reads, an AGE_SWEEP over the copy, and GUEST_INVALIDATION of it
    (let line := (LineKey.phys 0x400).code
     let copy := LineKey.ofCode line
     let s := guestWanted
     s.homeOf copy / 32 != 1 && s.holdsCopy copy && !s.moving (s.copyOf copy).1 (s.copyOf copy).2 && s.guestEligible copy 1 &&
       (Tab.find (s.slice (s.guestSlice copy 1)).guests line).isNone && !s.invals.contains (line, 1) && s.hasSpace (s.guestSlice copy 1) line &&
     (let t := after (.guestCopyFill line 1) s
      Tab.find (t.slice (s.guestSlice copy 1)).guests line == some 0 &&
      ({ t with invals := [(line, 1)] } : State).invals.contains (line, 1))) = true := by
  decide +kernel
/-- The demo machine with a walk request of sector 0 for a page, taken by a walker or waiting in the queue, and the third entry of the level-2 table
waiting for the host (SVC). -/
def walking (va : DWord) (by_ : Option Nat := some 0) : State :=
  { demo with
    walks := [(0, [⟨0, 7, 0, va.toNat / 4096, va, false, false, false, 0, none, false, none, by_⟩])]
    mem := demo.mem.writeBytes 0x3010 (leBytes 8 0x100) }

/-- Walker 0 walks for that request, and finds what is asked. -/
def walkFinds (s : State) (found : Walk → State → WalkOut → Bool) : Bool :=
  match (s.walksOf 0).filter fun x => x.walker = some 0 with
  | [w] => !s.walkWaits w.part w.va && w.req != ringReq &&
    found w (s.touchWalk w.part w.va) ((s.touchWalk w.part w.va).walk w.part ⟨w.write, w.fetch, w.user⟩ w.va)
  | _ => false

/-- A recoverable fault of a request is reported: it joins a token, waits for the ring, or its record can be written. -/
def reported (how : Nat) (w : Walk) (u : State) (out : WalkOut) : Bool :=
  let p := u.part w.part
  let pa := p.fqBase + 32 * (p.prod.toNat % 2 ^ p.fqLog2n)
  let full := decide (2 ^ p.fqLog2n ≤ (p.prod - p.cons).toNat)
  (match out with | .stop 1 true 2 0x100 _ _ => true | _ => false) && !p.migrating w.va && !u.walkDrops w &&
    match how with
    | 0 => (p.tokenFor w).isSome
    | 1 => (p.tokenFor w).isNone && full
    | _ => (p.tokenFor w).isNone && !full && !u.moving w.part (.phys (pa / 128)) && u.touchable w.part [pa / 128]

/-- The demo machine with a migration under way whose leaf is that at 0x3010. -/
def migrates (leaf : DWord) (stub : Bool) (done : Nat) : State :=
  let m : Migration := ⟨0x80000000, 0x3010, 0x200000, 0, leaf, stub, done⟩
  let s := walking 0x80000000
  s.setPart 0 { s.part 0 with migBusy := true, mig := some m }

theorem witness_TranslationEventsTakeEffect :
    -- REBALANCE_EPOCH, BUCKET_MOVE and BUCKET_MOVE_ABANDON of the last bucket of partition 0
    ((demo.bucket 15).valid && (demo.bucket 15).slice.toNat / 32 == 0) = true ∧
    (let s := { demo with buckets := demo.buckets.put 15 { demo.bucket 15 with moving := true, target := some 95 } }
     s.bucketOwner 15 == some 0 && (s.bucket 15).target == some 95 && (s.bucket 15).moving && s.drainedBucket 0 15 (s.bucket 15).slice.toNat &&
       ((s.copiesIn 0 15 (s.bucket 15).slice.toNat).all fun e => !s.pinnedLine (.phys e.1) && !s.reservedLine (copyLine e.1)) &&
       (s.genLines.get [] 0).all fun e => !s.inBucket 0 15 (.gen 0 e.1)) = true ∧
    -- PAGE_TABLE_WALK by a free walker, the queue holding a request
    (((walking 0x20000 none).walksOf 0).filter (fun x => x.walker = some 63) == [] && !((walking 0x20000 none).nextWalks 0).isEmpty) = true ∧
    -- PAGE_TABLE_WALK to a leaf, to one that maps nothing, and to an entry that waits for the host, in the three ways to report it
    walkFinds (walking 0x20000) (fun _ _ x => match x with | .leaf _ => true | _ => false) = true ∧
    walkFinds (walking 0x40000000) (fun _ _ x => match x with | .stop 1 false 2 0 _ _ => true | _ => false) = true ∧
    walkFinds ((walking 0x80000000).setPart 0 { demo.part 0 with tokens := [⟨0xFFFFFFFF, 0x80000, false, false⟩] }) (reported 0) = true ∧
    walkFinds ((walking 0x80000000).setPart 0 { demo.part 0 with prod := BitVec.ofNat 32 (2 ^ (demo.part 0).fqLog2n), cons := 0 }) (reported 1) = true ∧
    walkFinds (walking 0x80000000) (reported 2) = true ∧
    -- FAULT_RESUME and FAULT_ABORT of a token that a walk waits on
    (let s := demo.setPart 0 { demo.part 0 with tokens := [⟨0xFFFFFFFF, 0x80000, false, false⟩] }
     let s1 := { s with walks := [(0, [⟨0, 7, 0, 0x80000, 0x80000000, false, false, false, 0, some 0xFFFFFFFF, false, none, none⟩])] }
     ((s1.part 0).tokens.any fun x => x.id == 0xFFFFFFFF) && ((s1.walksOf 0)[0]?).any fun w => w.part == 0 && w.token == some 0xFFFFFFFF) = true ∧
    -- PAGE_MIGRATION: a descriptor that the partition does not own, one that it owns
    (let s := demo.setPart 0 { demo.part 0 with migBusy := true, migDesc := 0x1000000000 }
     (s.part 0).migBusy && (s.part 0).mig.isNone && !(s.part 0).ownsGddr 0x1000000000 0x100000003F) = true ∧
    (let s := demo.setPart 0 { demo.part 0 with migBusy := true, migDesc := 0x70000 }
     (s.part 0).migBusy && (s.part 0).mig.isNone && (s.part 0).ownsGddr 0x70000 0x7003F && !s.moving 0 (.phys (0x70000 / 128)) &&
       (s.touchLine? 0 (0x70000 / 128) id).isSome) = true ∧
    -- its leaf as it was read, or changed; and the stub in its place, with the page's 32 lines copied
    [((0x100 : DWord), false, 0), (0x101, false, 0), (0x100, true, 32)].all (fun x =>
      let s := migrates x.1 x.2.1 x.2.2
      (s.part 0).migBusy && !s.moving 0 (.phys (0x3010 / 128)) && s.touchable 0 [0x3010 / 128] && ((List.range 8).all fun i => !s.chanFailed (0x3010 + i)) &&
        (s.part 0).mig.any fun m => m.stub == x.2.1 && (m.stub == decide (pageBytes m.size / 128 ≤ m.done)) &&
          (decide (s.readD m.leafPa = m.leaf) == decide (x.1 = 0x100)) && !s.wordPoisoned m.leafPa) = true := by
  decide +kernel
/-- An image at 0x40000: one wave of one block, with the kind bits given. -/
def imageWord (kinds : Nat) : Nat := 0x5A4C0960 + 2 ^ 32 + kinds + 2 ^ 51 + 2 ^ 56 + 0x10000 * 2 ^ 128
def withImage (s : State) (kinds : Nat) : State := { s with mem := s.mem.writeBytes 0x40000 (leBytes 64 (imageWord kinds)) }

/-- An entry of a generator table: the range of `demoGen` in blocks of 512 bytes, with the image at 0x40000; its busy load as index 255. -/
def genWord : Nat := 0x800000 + 0x100000 * 2 ^ 64 + 2 ^ 107 + 0x40000 * 2 ^ 128
def genLoading (base : DWord) (op : Bool) (gens : Tab Gen) : State :=
  let s := withImage demo (2 ^ 44)
  ({ s with mem := s.mem.writeBytes (0x50000 + 64 * 255) (leBytes 64 genWord) }).setPart 0
    { s.part 0 with genIndex := 255, genBusy := true, genOp := op, genTbase := base, gens := gens }

/-- A launch of the demo image. -/
def demoLaunch : Launch :=
  { id := 3, part := 0, queue := 0, seq := 0, sub := [], image := 0x40000, save := 0, hdr := demoHdr, prio := 0, level := .supervisor
    phase := .placing, next := 0, alive := 0, spots := [], killed := 0, faulted := false, clipped := false, reads := [], writes := []
    binds := [], scratch := [], graph := none }

/-- Core 0 with a graph of one node, and its flag 0 set. -/
def demoGraph (n : Node) : Graph := ⟨3, 0, [n], 0, false, none, 0, 0, [], [], [], false, []⟩
def walker (g : Graph) : State :=
  { demo.setCore 0 { demo.core 0 with graph := some g, flags := 1 } with launches := [demoLaunch] }

/-- A COND node that waits for flag 0; an ENGINE node of queue 2 that hints a pin; a RECORD node whose image is at 0x40000. -/
def condNode : Node := 3 + 2 ^ 16
def hintNode : Node := 1 + 2 ^ 16 + 2 * 2 ^ 85
def recordNode : Node := 5 + 0x40000 * 2 ^ 64 + 0x30000 * 2 ^ 128 + 1 * 2 ^ 192 + 3 * 2 ^ 200

/-- The walker may start the node on its path. -/
def nodeMet (g : Graph) (kind : Nat) : Bool :=
  g.node.any fun n => nodeKind n == kind && !g.started && ((walker g).core 0).graph == some g && ((walker g).graphLaunch g).isSome &&
    ((walker g).core 0).flags &&& nodeWait n == nodeWait n

/-- The filler task of the block at 8 MiB has no filler yet. -/
def fillWanted : State := demo.setPart 0 { demo.part 0 with gens := [(1, demoGen)], tasks := [⟨9, 0, 1, 0x800000, 1, 0, 0, false, true, true⟩] }

theorem witness_GeneratorAndGraphEventsTakeEffect :
    -- GEN_LOAD at an address that the partition does not own, and of a good entry
    (let s := genLoading 0x1000000000 false []
     (s.part 0).genIndex == 255 && (s.part 0).genBusy && !(s.part 0).genOp && !(s.part 0).ownsGddr (0x1000000000 + 64 * 255) (0x1000000000 + 64 * 255 + 63)) = true ∧
    (let s := genLoading 0x50000 false [(0, { demoGen with vbase := 0x900000 })]
     let a := 0x50000 + 64 * 255
     let x := leNat (s.mem.readBytes a 64)
     (s.part 0).genTbase.toNat % 2 ^ 52 + 64 * 255 == a && (s.part 0).ownsGddr a (a + 63) && !s.moving 0 (.phys (a / 128)) && genOk x &&
     (match s.touchLine? 0 (a / 128) id with
      | none => false
      | some s0 => ((List.range 8).all fun j => !s0.wordPoisoned (a + 8 * j)) &&
     match s0.readLaunch (s0.frontReader 0 (2 ^ 21)) (BitVec.ofNat 64 (bitsOf x 191 128)) false with
      | (s1, .image im) => im.hdr.fills && !((s1.part 0).gens.any fun e => e.1 != 255 && decide (e.2.vbase < 0x900000 && 0x800000 < e.2.vbase + e.2.vlen))
      | _ => false)) = true ∧
    -- GEN_INVALIDATE and GEN_INVALIDATE_FINISH
    (let s := genLoading 0x50000 true [(255, demoGen)]
     (s.part 0).genIndex == 255 && (s.part 0).genBusy && (s.part 0).genOp && Tab.find (s.part 0).gens 255 == some demoGen) = true ∧
    (let g := { demoGen with closing := true }
     let s := genLoading 0x50000 true [(255, g)]
     Tab.find (s.part 0).gens 255 == some g && g.closing && !s.fillOwed 0 g.vbase (g.vbase + g.vlen) && (s.part 0).tasks.all fun t => t.gen != 255) = true ∧
    -- FILLER_CREATION
    ((fillWanted.firstTask 0 1).any fun t => Tab.find (fillWanted.part 0).gens t.gen == some demoGen &&
      (fillerCores (fillWanted.part 0) t.opener).find? (fun k => fillWanted.hasTurn 0 k && fillWanted.fillerRoom k 1 demoGen.hdr.regblk) == some 0 &&
      ((fillWanted.core 0).freeSlot 0).isSome) = true ∧
    -- GRAPH_NODE_START of a COND and of an ENGINE node; GRAPH_NODE_COMPLETION; RECORD_WAVE_LAUNCH; GRAPH_COMPLETION
    nodeMet (demoGraph condNode) 3 = true ∧
    (nodeMet (demoGraph hintNode) 1 &&
      match (walker (demoGraph hintNode)).startEngine 0 demoLaunch hintNode with | .going _ => true | _ => false) = true ∧
    [condNode, hintNode].all (fun n =>
      let g := { demoGraph n with started := true, op := some 77 }
      g.node == some n && g.started && ((walker g).core 0).graph == some g && !(walker g).opPending 0 77) = true ∧
    (let g := { demoGraph recordNode with at_ := 63, rings := [(0, [⟨1, 7⟩])] }
     let s := withImage (walker g) 0
     nodeKind recordNode == 5 && (s.core 0).graph == some g && (s.graphLaunch g).isSome && !(s.batch 0 g 0 recordNode).isEmpty &&
     match (s.readLaunch (s.frontReader 0 (walkerKey 0)) (nodeArg0 recordNode) false).2 with | .image _ => true | _ => false) = true ∧
    { demoGraph condNode with at_ := 63 }.finished = true := by decide +kernel
/-- A wave of core 0 asks for blocks. -/
def blockWait (n : Nat) (held : Nat) : State := demoW fun v => ({ v with blocks := held }).modCur fun f => { f with park := some (.blocks n) }

/-- A request to create a wave of two blocks, and one of another team. -/
def newWave (team : Nat) : NewWave :=
  { team := team, launch := 3, part := 0, source := .frontEnd, index := 0, entry := 0x10000, blocks := 2, prio := 0, level := .user, checked := false
    sregs := [], recDepth := 0, node := 0, ringPos := 0, ringCnt := 0, task := none, fillDepth := 0, gen := none }

/-- Launch 3 with its team 5 on core 0, the only one of four cores of the partition whose team a launch of higher priority may save. -/
def fullPart : State :=
  let t : Team := { id := 5, launch := 3, part := 0, core := some 0, paired := false, hdr := demoHdr, x := 0, y := 0, z := 0, stage := 0, alive := 0
                    abandoned := false, binds := [], owns := true, placed := 9, saved := none }
  let s := (List.range 4).foldl (fun (s : State) k => s.setCore k { s.core k with owner := some (5 + k), waves := [] }) demo
  { s.setPart 0 { s.part 0 with clusters := 1 } with teams := [t], launches := [{ demoLaunch with next := 1 }, { demoLaunch with id := 4, prio := 3 }] }

theorem witness_WaveAndTeamEventsTakeEffect :
    -- FAIRNESS_TIMER_EXPIRY
    ((demoW fun v => v.modCur fun f => { f with turn := 64, sinceLr := some 16 }).wave? 0 0).any Wave.turnOver = true ∧
    -- BLOCK_GRANT of 15 blocks beside one, and for a wave that would pass 16
    ((firstWait ((blockWait 15 1).blockWaits 0 0)).any fun x => decide (x.n ≤ ((blockWait 15 1).core 0).freeIn 0) &&
      ((blockWait 15 1).wave? 0 x.slot).all fun w => decide (w.blocks + x.n ≤ 16)) = true ∧
    ((firstWait ((blockWait 16 1).blockWaits 0 0)).any fun x => ((blockWait 16 1).wave? 0 x.slot).any fun w => decide (16 < w.blocks + x.n)) = true ∧
    -- WAVE_CREATION, alone and before a wave of another team
    [[], [newWave 6]].all (fun rest =>
      let s := demo.setCore 0 { demo.core 0 with newWaves := newWave 5 :: rest }
      (rest.head?.map (·.team)) != some 5 && (s.core 0).newWaves == newWave 5 :: rest && ((s.core 0).freeSlot 0).isSome && s.roomFor 0 1 2) = true ∧
    -- TEAM_PLACEMENT on the last core
    (let s := { demo.setPart 0 { demo.part 0 with clusters := 1 } with launches := [demoLaunch] }
     s.launches.find? (fun x => x.id = 3) == some demoLaunch && !demoLaunch.hdr.coresident &&
     !(s.launches.any fun u => u.part == demoLaunch.part && u.before demoLaunch && u.phase == .placing && s.wantsPlace u && (s.placesFor u).contains 3) &&
     s.wantsPlace demoLaunch && (s.placesFor demoLaunch).contains 3 && (s.savedOf demoLaunch).isEmpty) = true ∧
    -- TEAM_PREEMPTION
    ((fullPart.teams.find? fun u => u.id = 5).any fun x => !x.hdr.coresident &&
      (fullPart.launches.any fun l => l.part == x.part && fullPart.lacks l && ((fullPart.asTurn l.part).victimTeam l.part l.prio).map (·.id) == some 5) &&
      x.cores.all (fun c => fullPart.hasTurn x.part c && fullPart.quiet c) && (fullPart.launches.find? fun l => l.id = x.launch).any fun l => (fullPart.writeSave l).2) = true ∧
    -- GRID_COMPLETION
    (let l := { demoLaunch with next := 1 }
     { demo with launches := [l] }.gridOver l) = true ∧
    -- QUANTUM_EXPIRY and SHADOW_STORE_SWAP of a cluster that partitions 0 and 31 share
    (let s := demo.setCluster 0 { demo.cluster 0 with turn := some 0 }
     let s1 := (s.setCore 0 { s.core 0 with waves := [] }).setPart 31 { s.part 31 with valid := true, clusters := 1 }
     (s.cluster 0).turn == some 0 && (s.wave? 0 0).isSome && (s1.part 31).valid && (s1.cluster 0).turn == some 0 && (s1.part 31).clusters.getLsbD 0 &&
       ((List.range 48).all fun c => c == 0 || (s1.cluster c).turn != some 0) && (coresOf 0).all s1.calm) = true := by decide +kernel
/-- A packet with the tag of an index: TYPE, byte 9, and words at bytes 16 and 24. -/
def pktBytes (tag type b9 x y : Nat) : List Byte :=
  let body := leBytes 8 (type + 256 * b9) ++ leBytes 8 x ++ leBytes 8 y ++ List.replicate 32 0
  leBytes 4 tag ++ leBytes 4 (crc32c body) ++ body

/-- Queue 15 of partition 0, enabled: a ring of 16 units at 0x60000, its block at 0x62000, and what the function changes. -/
def queue (f : Fq → Fq) (s : State := demo) : State :=
  s.setPart 0 { s.part 0 with queues := [(15, f { Fq.reset with en := true, state := 0, base := 0x60000, cbase := 0x61000, wbbase := 0x62000 })] }

/-- The same with unit 0 of the ring in memory. -/
def ring (bytes : List Byte) (f : Fq → Fq) : State := queue f { demo with mem := demo.mem.writeBytes 0x60000 bytes }

/-- The unit at the head of the ring has been read. -/
def readUnit (s : State) : Option (State × List Byte) :=
  match s.frontRead (s.queueReader 0 15) ((s.fq 0 15).base + BitVec.ofNat 64 (64 * ((s.fq 0 15).next.toNat % 2 ^ (s.fq 0 15).log2n))) 64 with
  | (s1, .bytes bs) => some (s1, bs)
  | _ => none

/-- A packet of a type stands at the head of the queue, and its start has been written. -/
def headMet (bytes : List Byte) (type : Nat) (also : State → Bool := fun _ => true) (s : State := demo) : Bool :=
  let p : Packet := ⟨0, [], bytes, none⟩
  let s := queue (fun f => { f with ready := [p], acc := 1, next := 1, tail := 1 }) s
  let f := s.fq 0 15
  let s1 := s.writeBlock 0 15 f.acc (p.seq + 1) f.cmp
  !f.owes && f.head == some p && pktOk p.body f.supok && pktType p.body == type && f.allDone p && s.handlesFree f p.body && s1.2 &&
    also (s1.1.modFq 0 15 fun g => { g with iss := p.seq + 1 })

/-- The front end writes eight bytes. -/
def writes8 (s : State) (va : DWord) (x : Nat) : Bool := match (s.frontWrite (s.queueReader 0 15) va (leBytes 8 x)).2 with | .done => true | _ => false

theorem witness_PacketEventsTakeEffect :
    -- PACKET_ACCEPTANCE
    (let s := ring (pktBytes 0 6 0 0 0) fun f => { f with tail := 1 }
     let f := s.fq 0 15
     !f.owes && f.en && f.state == 0 && f.mayFetch && f.calls.isEmpty && f.rereads == 0 && f.next != f.tail && f.next == f.acc &&
     (readUnit s).any fun x => pktGood x.2 0 && x.1.fq 0 15 == f && (x.1.writeBlock 0 15 (f.next + 1) f.iss f.cmp).2 &&
       (x.1.writeBlock 0 15 (f.next + 1) f.iss f.cmp).1.fq 0 15 == f) = true ∧
    -- TORN_PACKET_REREAD of a good unit at an index that ACC has passed, and of a bad one, for the first and the last time
    (let s := ring (pktBytes 0 6 0 0 0) fun f => { f with tail := 1, rereads := 1, acc := 1 }
     let f := s.fq 0 15
     !f.owes && decide (f.rereads > 0) && f.en && f.ringMore && f.calls.isEmpty && f.next != f.acc &&
     (readUnit s).any fun x => pktGood x.2 0 && x.1.fq 0 15 == f) = true ∧
    [1, 8].all (fun n =>
      let s := ring (pktBytes 1 6 0 0 0) fun f => { f with tail := 1, rereads := n }
      let f := s.fq 0 15
      !f.owes && decide (f.rereads > 0) && f.en && f.ringMore && f.calls.isEmpty && (readUnit s).any fun x => !pktGood x.2 0 && x.1.fq 0 15 == f) = true ∧
    -- LAUNCH of a good image and of memory that holds none
    [1, 0].all (fun k => headMet (pktBytes 0 1 0 0x40000 0x70000) 1 (fun s =>
      match (s.readLaunch (s.queueReader 0 15) 0x40000 true).2 with
      | .image im => k == 1 && !im.hdr.filler && !im.hdr.scan && !im.hdr.coresident && im.saved.isEmpty
      | .bad => k == 0
      | .wait => false) (if k = 1 then withImage demo 0 else demo)) = true ∧
    -- SIGNAL that writes, and one that adds
    headMet (pktBytes 0 2 0 0x63000 5) 2 (fun s => writes8 s 0x63000 5) = true ∧
    headMet (pktBytes 0 2 1 0x63000 5) 2 (fun s => match s.frontRead (s.queueReader 0 15) 0x63000 8 with
      | (s1, .bytes bs) => writes8 s1 0x63000 ((leNat bs + 5) % 2 ^ 64)
      | _ => false) = true ∧
    -- WAIT; WAIT_CONDITION_HOLDS of the condition that the value is 0
    headMet (pktBytes 0 3 1 0x63000 0) 3 = true ∧
    (let r : Running := ⟨0, [], pktBytes 0 3 1 0x63000 0, none, none⟩
     let s := queue fun f => { f with running := [r] }
     !(s.fq 0 15).owes && (s.fq 0 15).running.find? (fun r => pktType r.body = 3 && r.status.isNone) == some r &&
     match (s.frontRead (s.queueReader 0 15) 0x63000 8).2 with | .bytes bs => waitHolds r.body (leNat bs) | _ => false) = true ∧
    -- CALL of 65,536 packets, JOIN, BARRIER and PRIORITY
    headMet (pktBytes 0 4 0 0x64000 65535) 4 = true ∧ headMet (pktBytes 0 5 0 0 0) 5 = true ∧ headMet (pktBytes 0 6 0 0 0) 6 = true ∧
    headMet (pktBytes 0 7 7 0 0) 7 = true := by decide +kernel
/-- The demo machine with its device changed. -/
def demoD (f : Device → Device) : State := { demo with dev := f demo.dev }

/-- A queue's tail write of one packet more than its ring holds. -/
theorem witness_QueueRegisterEventsTakeEffect :
    (let s := queue id
     (s.fq 0 15).en && (s.fq 0 15).recov != some none && decide (2 ^ (s.fq 0 15).log2n < ((17 : BitVec 32) - (s.fq 0 15).acc).toNat)) = true ∧
    ((queue Fq.recovering).fq 0 15).recov = some none ∧
    !(demo.fq 0 15).en = true ∧
    (let s := queue fun f => { f with en := false }
     !(s.fq 0 15).en && match ((s.modFq 0 15 Fq.recovering).frontRead (s.queueReader 0 15) (s.fq 0 15).wbbase 12).2 with | .bytes _ => true | _ => false) = true ∧
    [1, 3].all (fun n => let s := queue fun f => { f with state := n }
      (s.fq 0 15).en && decide (1 ≤ (s.fq 0 15).state ∧ (s.fq 0 15).state ≤ 3)) = true ∧
    (demo.setPart 0 { demo.part 0 with vfs := [255], vfMask := 1 }).partOfVf 255 = some 0 ∧
    (demoD fun d => { d with standby := true }).dev.standby = true ∧
    (demo.handleOf (handleCore 0) (handleSlot 0) == 0 && (demo.wave? (handleCore 0) (handleSlot 0)).isSome && demo.parts.all fun e => e.2.context.isNone) = true ∧
    -- machine-wide, partition and instance registers at the last instance
    (crAssigned 0 && partBlock 0 && decide (31 < 32) && crAssigned 0x2001 && !partBlock 0x2001 && instExists 0x2001 47) = true ∧
    (0x100000 ≤ 0x1FFFF8 ∧ 0x1FFFF8 + 8 ≤ 0x200000) := by decide +kernel

/-- A request by the physical function to a device that answers. -/
def demoReq : SpdmReq := ⟨.pf, 0, 7⟩
def answering : State := demoD fun d => { d with stage := 2 }
def demoToken (st : DebugState) : DebugToken := ⟨st, 31, 7, 0⟩

/-- The same within a session of the physical function. -/
def inside : State := demoD fun d => { d with stage := 2, sessions := [⟨.pf, 7, true⟩] }

/-- A state whose host link carries everything. -/
def linked (s : State) : Bool := s.dev.ideEnded.isEmpty && s.dev.power != .d3cold

theorem linked_carries (s : State) (addr : Nat) (h : linked s = true) : s.LinkCarries addr := by
  simp [linked, State.LinkCarries, State.linkDrops] at h ⊢
  exact ⟨fun e => absurd h.1 e, h.2⟩

theorem witness_ReliabilityAndSecurityEventsTakeEffect :
    -- SCRUB_READ of the last block of GDDR
    (inGddr 0xFFFFFFFC0 && !demo.blockPoisoned (0xFFFFFFFC0 / 64)) = true ∧
    -- links and channels that work, and have failed before
    [0, 3].all (fun n => !(({ demo with links := [(5, ⟨false, n⟩)] } : State).links.get ⟨false, 0⟩ 5).failed) = true ∧
    [0, 8].all (fun n => !(({ demo with channels := [(15, ⟨false, n⟩)] } : State).channels.get ⟨false, 0⟩ 15).failed) = true ∧
    -- HOST_LINK_ACCESS: a write of the last byte of GDDR, and a read of the last word
    (linked answering && decide (1 ≤ answering.dev.stage) && answering.touchable ((demo.gddrOwner 0xFFFFFFFFE).getD 0) [0xFFFFFFFFE / 128] &&
      !answering.chanFailed 0xFFFFFFFFE && inGddr 0xFFFFFFFFE && inGddr (0xFFFFFFFFE + 1) && ((List.range ((0xFFFFFFFFE % 128 + 1 + 127) / 128)).all fun i =>
      !demo.moving ((demo.gddrOwner 0xFFFFFFFFE).getD 0) (.phys (0xFFFFFFFFE / 128 + i)))) = true ∧
    (inGddr 0xFFFFFFFF8 && !answering.moving ((demo.gddrOwner 0xFFFFFFFF8).getD 0) (.phys (0xFFFFFFFF8 / 128)) &&
      (answering.touchLine? ((demo.gddrOwner 0xFFFFFFFF8).getD 0) (0xFFFFFFFF8 / 128) id).any fun s1 => !s1.wordPoisoned (0xFFFFFFFF8 / 8 * 8)) = true ∧
    -- of the host window's last words, of BAR0's last register and of the last four entries of the table
    (inHost (2 ^ 51) && inHost (2 ^ 51 + 8) && (8 : Nat) % 8 == 0 && decide ((2 ^ 52 - 8) % 8 = 0 ∧ 2 ^ 52 - 8 < 2 ^ 52) &&
      decide ((Config.buckets - 4) % 4 = 0 ∧ Config.buckets - 4 + 4 ≤ Config.buckets)) = true ∧
    -- the requests
    (decide (2 ≤ answering.dev.stage) && answering.requesterOk demoReq.from_ && demoReq.slot == 0) = true ∧
    -- in a session that is open, and in one whose keys are exchanged
    ((inside.sessionOf demoReq.from_).isSome && inside.inSession demoReq.from_ && !answering.inSession demoReq.from_) = true ∧
    ((demoD fun d => { d with stage := 2, sessions := [⟨.pf, 7, false⟩] }).sessionOf demoReq.from_).isSome = true ∧
    [DebugState.none, .trace, .invasive].all (fun st =>
      let s := demoD fun d => { d with stage := 2, sessions := [⟨.pf, 7, true⟩], security := .development }
      s.inSession .pf && s.tokenOk .pf (demoToken st)) = true ∧
    !(demoD fun d => { d with stage := 2, sessions := [⟨.pf, 8, true⟩] }).tokenOk .pf (demoToken .trace) = true ∧
    -- INVASIVE_DEBUG_ENTRY of the only partition
    (let s := demoD fun d => { d with pendingInvasive := some 0 }
     s.dev.pendingInvasive == some 0 && s.dev.pendingPower.isNone && s.dev.railOn && s.parts.all fun e => e.1 == 0 || !e.2.valid) = true ∧
    -- DEBUGGER_REQUEST, attached and not
    (let s := demoD fun d => { d with debug := .invasive, debugPart := some 0 }
     (s.wave? 0 0).any (fun w => s.debugs w.part) && (s.lustreBytes 0 0x20000 1).any (fun l => l.length == 1) && (s.writeVirt 0 0x20000 [5]).isSome) = true ∧
    ((demo.wave? 0 0).any fun w => !demo.debugs w.part && demo.dev.security != .development) = true ∧
    -- a vector register, a predicate and a tile of the attached partition; its wave traced, and its core's clocks
    (let s := demoD fun d => { d with debug := .invasive, debugPart := some 0 }
     (s.wave? 0 0).any (fun w => s.debugs w.part && decide ((15 : Nat) < 16 * w.blocks ∧ 127 < w.width)) && s.dev.debug == .invasive && s.debugsCore 0) = true ∧
    (let s := demoD fun d => { d with debug := .trace, debugPart := some 0 }
     ((s.wave? 0 0).any fun w => s.traces w.part && (w.frag? w.cur).isSome) && (s.partAt 0).any s.traces) = true := by decide +kernel

/-- A stream that has ended carries nothing. -/
theorem witness_linkDrops (addr : Nat) (h : Config.ideStream addr = some 3) : (demoD fun d => { d with ideEnded := [3] }).linkDrops addr = true := by
  simp [State.linkDrops, demoD, h]

/-- On a production device a token is accepted when its signature verifies and its nonce is the session's. -/
theorem witness_production_token (h : Config.sigValid (tokenCode (demoToken .invasive)) = true) :
    inside.tokenOk .pf (demoToken .invasive) = true := by
  simp [State.tokenOk, inside, demoD, State.sessionOf, demoToken] at h ⊢
  exact .inr h
/-- A descriptor: every cluster, VF 255, the last 16 buckets and the last MiB of GDDR. -/
def demoDesc : BitVec 512 :=
  BitVec.ofNat 512 (2 ^ 48 - 1 + 2 ^ 48 + 255 * 2 ^ 64 + 2 ^ 128 + 4080 * 2 ^ 144 + 0xFFFF00000 * 2 ^ 192 + 0x100000 * 2 ^ 256)

theorem witness_StartAndPartitionEventsTakeEffect :
    (demo.dev.railOn && demo.dev.pendingInvasive.isNone && (demoD fun d => { d with pendingInvasive := some 0 }).dev.pendingInvasive.isSome &&
      (demoD fun d => { d with power := .d3hot }).dev.power == .d3hot && (demoD fun d => { d with power := .d3cold }).dev.power == .d3cold) = true ∧
    (State.reset.dev.stage == 0 && State.reset.dev.railOn && State.reset.dev.power != .d3cold) = true ∧
    (demoD fun d => { d with stage := 1 }).dev.stage = 1 ∧
    -- commands that write, authenticate and erase slot B
    ((0x11 : DWord).toNat % 16 = 1 ∧ (0x12 : DWord).toNat % 16 = 2 ∧ (0x13 : DWord).toNat % 16 = 3) ∧
    (!demo.dev.rcvBusy && demo.dev.power != .d3cold) = true ∧
    -- each in progress, of slot B; and of slot A, which runs
    [(0x11 : DWord), 0x12, 0x13].all (fun cmd =>
      let s := demoD fun d => { d with stage := 2, rcvBusy := true, rcvCmd := cmd, upload := [(0, 5), (4095, 6)] }
      s.dev.rcvBusy && s.dev.rcvCmd.toNat % 16 == cmd.toNat - 0x10 && s.dev.power != .d3cold && !s.rcvActive && decide (s.dev.upload.map (·.1)).Nodup) = true ∧
    [(1 : DWord), 3].all (fun cmd => (demoD fun d => { d with stage := 2, rcvBusy := true, rcvCmd := cmd, activeSlot := false }).rcvActive) = true ∧
    -- an update before and after the import, its queues between packets
    [false, true].all (fun n =>
      let s := queue (fun f => { f with en := true }) (demoD fun d => { d with updating := true, newImage := n })
      s.dev.railOn && s.dev.updating && s.dev.newImage == n && s.parts.all fun e => e.2.queues.all fun q => q.2.quiescent) = true ∧
    -- JUNCTION_OVERTEMP with a partition and with none
    ((demo.parts.any fun e => e.2.valid) && ({ demo with parts := [] } : State).parts.all fun e => !e.2.valid) = true ∧
    -- GOVERNOR_INTERVAL above the limit, at the floor, and below nine tenths of it for the sixteenth time
    [({ demo.gov with limit := 100, level := 2, floor := 3 } : Gov)].all (fun g => decide (g.limit < 101 ∧ g.level < g.floor)) = true ∧
    [({ demo.gov with limit := 100, level := 3, floor := 3 } : Gov)].all (fun g => decide (g.limit < 101 ∧ g.floor ≤ g.level)) = true ∧
    [({ demo.gov with limit := 100, calm := 15 } : Gov)].all (fun g => decide (10 * 89 < 9 * g.limit ∧ g.calm = 15)) = true ∧
    -- PARTITION_DESCRIPTOR_WRITE of partition 31, accepted and refused for want of a cluster
    (let s := demoD fun d => { d with stage := 2 }
     let s1 := s.setPart 0 { s.part 0 with gddrLen := 0x100000 }
     bitOf demoDesc.toNat 48 && s1.descriptorOk 31 ((s1.part 31).describe demoDesc) && bitOf (2 ^ 48) 48 && !s1.descriptorOk 31 ((s1.part 31).describe (2 ^ 48))) = true ∧
    -- PARTITION_TEARDOWN and HEAD_GRANT of partition 0, VICTIM_STORE_SIZING beside it
    ((demo.part 0).valid && !(demo.endWork 0).busy 0) = true ∧
    (let s := (demoD fun d => { d with stage := 2 }).setPart 0 { demo.part 0 with gddrLen := 0x100000 }
     decide (2 ≤ s.dev.stage) && s.dev.railOn && decide (0xFFFF00000 + 0x100000 ≤ 0x1000000000) &&
     s.parts.all fun e => !e.2.valid || decide (0xFFFF00000 + 0x100000 ≤ e.2.gddrBase) || decide (e.2.gddrBase + e.2.gddrLen ≤ 0xFFFF00000)) = true := by
  decide +kernel

/-- Of two slots of which A alone passes stage 1 takes A; with two that fail it takes none. -/
theorem witness_select_one (d : Device) (ha : d.authenticate d.slotA = 0) (hb : d.authenticate d.slotB = 2) : d.select = some false := by
  simp [Device.select, ha, hb]
theorem witness_select_none (d : Device) (ha : d.authenticate d.slotA = 2) (hb : d.authenticate d.slotB = 2) : d.select = none := by
  simp [Device.select, ha, hb]

/-- An update whose image passes, of the same major version. -/
theorem witness_update (d : Device) (h : d.authenticate d.slotB = 0) (hm : Config.fwMajor d.slotB.header = Config.fwMajor d.slotA.header) :
    let e := { d with stage := 3, railOn := true, updating := false, standby := true, activeSlot := false }
    2 ≤ e.stage ∧ e.railOn = true ∧ e.updating = false ∧ e.standby = true ∧ e.authenticate (e.slot (!e.activeSlot)) = 0 ∧
      Config.fwMajor (e.slot (!e.activeSlot)).header = Config.fwMajor e.running.header := by
  simp [Device.slot, Device.running, Device.authenticate] at h ⊢
  exact ⟨h, hm⟩

/-- A recovery command in progress meets a flash error, or none. -/
theorem witness_flashFails (n : Nat) (x : Bool) (h : Config.flashFails n = x) :
    let s := { demoD fun d => { d with rcvBusy := true, rcvCmd := 0x11 } with freeCtr := n }
    s.RcvRuns 1 ∧ Config.flashFails s.freeCtr = x := by
  refine ⟨⟨rfl, ?_, ?_⟩, h⟩
  · show (0x11 : DWord).toNat % 16 = 1
    decide
  · show demo.dev.power ≠ .d3cold
    decide +kernel
/-- Head 3 of partition 0, on, of 480 lines of 640 pixels, with the kernel at 0x40000, at a line. -/
def lit (line : Nat) (f : Head → Head := id) : State :=
  { withImage demo (2 ^ 46) with heads := [(3, f { Head.reset with
      grant := some 0, en := true, hact := 639, vact := 479, vtotal := 499, lclk := 250, gazeLine := 499, poseLine := 499, frame := 1, line := line
      poseBase := 0x65000, image := some ({ demoHdr with scan := true }, []) })] }

/-- A mode of 640 by 480 with a compressed stream may start, when its connector's link carries it. -/
theorem witness_HeadEnable (h : Config.linkCarries 0 (639 + 479 * 2 ^ 13 + 499 * 2 ^ 26 + 250 * 2 ^ 39 + 1 * 2 ^ 55 + 0 * 2 ^ 56) = true) :
    let s := lit 0 fun x => { x with en := false, dsc := true }
    (s.head 3).en = false ∧ s.modeOk 3 (s.head 3) = true := by
  have hd : (lit 0 fun x => { x with en := false, dsc := true }).head 3 = { Head.reset with
      grant := some 0, hact := 639, vact := 479, vtotal := 499, lclk := 250, gazeLine := 499, poseLine := 499, frame := 1, dsc := true
      poseBase := 0x65000, image := some ({ demoHdr with scan := true }, []) } := rfl
  dsimp only
  rw [hd]
  refine ⟨rfl, ?_⟩
  unfold State.modeOk
  rw [Bool.and_eq_true]
  refine ⟨by decide +kernel, ?_⟩
  unfold Head.linkOk
  exact h

/-- The estimate of frame 1 is to be made between two presents of 16 by 16 pixels. -/
def estimating : State :=
  let d : List Byte := leBytes 8 0x66000 ++ leBytes 4 64 ++ leBytes 2 15 ++ leBytes 2 15 ++ List.replicate 48 0
  lit 7 fun x => { x with estimate := some 1, effect := some (64, d), previous := some (0, d), mvBase := 0x69000 }

theorem witness_LustreEventsTakeEffect :
    ((lit 0).head 3).en = true ∧
    -- SCAN_KERNEL_LOAD, PRESENT with and without one that waits
    (((lit 0).head 3).grant == some 0 && (0x40000 : DWord) &&& ~~~0xFFF#64 != 0 &&
      match ((lit 0).readLaunch ((lit 0).headReader 0 3 0) 0x40000 false).2 with | .image im => im.hdr.scans | _ => false) = true ∧
    (((lit 0).head 3).queued.isNone && ((lit 0 fun x => { x with queued := some 64 }).head 3).queued.isSome) = true ∧
    -- BAND_DISPATCH of the first band, in the frame before, and of the last
    (((lit 436).head 3).due (((lit 436).head 3).dispatchAt 0) == some 2 && ((lit 436).head 3).band? 0 2 == none) = true ∧
    (decide (29 < ((lit 400).head 3).bandCount) && ((lit 400).head 3).due (((lit 400).head 3).dispatchAt 29) == some 1 && ((lit 400).head 3).band? 29 1 == none) = true ∧
    -- BAND_TEAM_START on either scan core
    [192, 193].all (fun core =>
      let s := lit 0 fun x => { x with bands := [Band.new 0 1] }
      (s.head 3).bands.find? (fun y => y.index = 0 && s.bandWaits (s.head 3) y) == some (Band.new 0 1) && (s.head 3).image.isSome &&
        !s.bandAhead 3 (Band.new 0 1) && s.roomFor core demoHdr.waves (demoHdr.waves * demoHdr.regblk)) = true ∧
    -- BAND_DEADLINE of a band that is late, with a present and without
    [none, some ((64 : DWord), List.replicate 64 (0 : Byte)), some (64, List.replicate 64 1)].all (fun e => [none, some false].all fun it =>
      let s := lit 468 fun x => { x with effect := e, bands := [{ Band.new 0 2 with intime := it }] }
      let x := ((s.head 3).band? 0 2).getD (Band.new 0 2)
      (s.head 3).due (deadlineAt 0) == some 2 && !x.closed && x.intime != some true && ((s.head 3).presentFor 2).isNone == e.isNone) = true ∧
    -- and of one that is complete
    (let s := lit 468 fun x => { x with bands := [{ Band.new 0 2 with team := some 7, done := true, intime := some true }] }
     (s.head 3).due (deadlineAt 0) == some 2 && ((s.head 3).band? 0 2).any fun x => !x.closed && x.intime == some true) = true ∧
    -- GAZE_LATCH and POSE_LATCH at their line
    (let h := (lit 499).head 3
     h.en && h.line == h.gazeLine.toNat && h.latched % 2 == 0 && h.line == h.poseLine.toNat && decide (h.latched < 2) && h.grant == some 0 &&
     match ((lit 499).frontRead ((lit 499).headReader 0 3 0) (h.poseBase + 0) 28).2 with | .bytes bs => !(List.range 4).any fun i => isNan32 (pkt bs (4 * i) 4) | _ => false) = true ∧
    -- LINE_SCANOUT: an active line with a source and without, and a blank one; a head that stops; MOTION_ESTIMATION
    (let s := lit 7 fun x => { x with bands := [{ Band.new 0 1 with closed := true, source := some 0 }], lastLine := [] }
     !(s.head 3).stopping && (s.head 3).en && !(s.head 3).owes && decide ((s.head 3).line ≤ (s.head 3).vact.toNat) && (s.head 3).grant.isSome && ((s.headWork 3).lineSource 3 true).2.isSome && decide (((s.headWork 3).head 3).line ≤ ((s.headWork 3).head 3).vact.toNat) &&
     ((lit 7 fun x => { x with grant := none, bands := [{ Band.new 0 1 with closed := true, source := some 0 }] }).head 3).grant.isNone) = true ∧
    (let s := lit 7 fun x => { x with bands := [{ Band.new 0 1 with closed := true, source := some 3 }] }
     !(s.head 3).stopping && (s.head 3).en && !(s.head 3).owes && ((s.headWork 3).lineSource 3 true).2 == none && ((s.headWork 3).head 3).grant.isSome) = true ∧
    (let s := lit 498
     !(s.head 3).stopping && (s.head 3).en && !(s.head 3).owes && decide (((s.headWork 3).head 3).vact.toNat < ((s.headWork 3).head 3).line)) = true ∧
    ((lit 7 fun x => { x with stopping := true, en := false }).head 3).stopping = true ∧
    (let s := estimating
     let h := s.head 3
     h.estimate == some 1 && h.grant == some 0 && h.boundary.isNone && match h.effect, h.previous with
       | some new, some old =>
         let x := s.frontWrite (s.headReader 0 3 4) (h.motionAt new.2 + 64) (s.motionWords h new.2 old.2)
         x.2 != .wait && (x.1.frontWrite (s.headReader 0 3 4) (h.motionAt new.2) (leBytes 8 1)).2 != .wait
       | _, _ => false) = true ∧
    -- SCAN_KERNEL_LOAD of an image whose bucket is being moved
    (let s := { lit 0 with buckets := (List.range 16).foldl (fun t b => t.put b { demo.bucket b with moving := true, target := some 95 }) demo.buckets }
     (s.head 3).grant == some 0 && match (s.readLaunch (s.headReader 0 3 0) 0x40000 false).2 with | .wait => true | _ => false) = true := by decide +kernel
/-- The fragment in focus issues as it stands and fetches its word, which decodes as given. -/
def issueMet (s : State) (p : Sum (Instr × Option (BitVec 10)) Trap → Bool) : Bool :=
  s.ctx?.any fun c => c.w.runs && !c.w.turnOver && !c.w.ended && c.s.ready c.core c.w c.f && c.w.xlimit.isEmpty && c.f.entry.isNone &&
    c.f.pc.toNat % 4 == 0 && (c.w.buffered c.f.pc).isNone &&
    match c.fetch c.user c.f.pc with
    | .word word => p (({ c with s := c.touchWords ((c.f.pc, word) :: c.refill 7 (c.f.pc + 12) |>.map (·.1)) } : Ctx).decoded word)
    | _ => false

/-- The word of SYSCALL 0x12. -/
def callWord : Nat := 0x000000900000000000000FC0

theorem witness_StepRunsTheDecodedInstruction :
    -- a wave that the agenda names, with an instruction and with a word of none
    (let s := State.reset.withFetchWord 96 callWord
     s.agenda == [.issue 0 0] && issueMet { s with agenda := [], focus := some ⟨0, 0⟩ } fun x => match x with | .inl (.syscall _ _, none) => true | _ => false) = true ∧
    (let s := State.reset.withFetchWord 96 (2 ^ 96 - 1)
     issueMet { s with agenda := [], focus := some ⟨0, 0⟩ } fun x => x == .inr Trap.illegal) = true ∧
    -- the wave that its quad selects, with nothing due
    (let s := { State.reset.withFetchWord 96 callWord with agenda := [] }
     s.promptEvent.isNone && s.tick % 64 != 31 && s.nextWave.any fun u => issueMet { u with tick := u.tick + 1 } fun x =>
       match x with | .inl (.syscall _ _, none) => true | _ => false) = true ∧
    -- an event that the agenda names
    { demo with agenda := [.event (.lineScanout 0 true)] }.agenda = [.event (.lineScanout 0 true)] ∧
    -- the twelve bytes at a pc
    (demo.ctx?.any fun c => (List.range 12).all fun k =>
      match c.s.lookFor c.core c.w.part c.w.uid ⟨false, true, false⟩ (c.f.pc + BitVec.ofNat 64 k) with
      | .ok pa _ => !c.s.wordPoisoned pa && (c.flashMiss pa).isNone
      | _ => false) = true ∧
    (demo.ctx?.any fun c => c.f.rep.isNone) = true ∧ (191 < Config.mainCores) := by decide +kernel

/-- Words of each format, whose encodings are what they decode from; and a well-formed instruction that has a word. -/
theorem witness_DecodingUndoesEncoding :
    [Instr.fget (w (.s 63) .unused .unused), .barsync (w (.s 6) (.s 2) .zero 0x100)].all (fun i => i.wf && (encode i).isSome) = true := by decide +kernel

/-- A step from the state in which reset's first word stands goes on, and keeps memory canonical. -/
theorem witness_EveryStepKeepsMemoryCanonical :
    (match step (State.reset.withFetchWord 96 callWord) with | .next t => t.mem.wf | _ => false) = true ∧ (State.reset.withFetchWord 96 callWord).mem.wf = true := by
  decide +kernel

theorem witness_ComputingTouchesOnlyItsWave : demo.upsets = [] ∧ demo.Quiet 0 ∧
    lanesMet [regs3 (intPlan .s32 fun _ => {})] = true ∧ vecMet demo Guard.always (fun _ => (intPlan .s32 fun _ => {}).uses (w (.v 2) (.v 4) (.v 6))) = true :=
  ⟨by decide +kernel, by intro k; cases k <;> decide +kernel, by decide +kernel, by decide +kernel⟩

end Sys2Proof.Tests
end

section
/-!
SUPPORT. What the LLC, guest copies, poison, walks, error records and generated lines change lies outside the cores, and a core's
waves lose reservations at most: no slot of a core that was free is taken.
-/
namespace Sys2Proof

/-- A table whose values are mapped finds the mapped value. -/
theorem Tab.find_map {α : Type} (g : α → α) (m : Tab α) (k : Nat) : Tab.find (m.map fun e => (e.1, g e.2)) k = (Tab.find m k).map g := by
  simp [Tab.find, List.find?_map, Function.comp_def]

/-- An erased key is not listed. -/
@[simp] theorem Tab.find_erase {α : Type} (m : Tab α) (k : Nat) : Tab.find (Tab.erase m k) k = none := by
  simp [Tab.find, Tab.erase, List.find?_filter]

/-- A table whose values are mapped holds the mapped value, or at an unlisted key the default as before. -/
theorem Tab.get_map_or {α : Type} (d : α) (g : α → α) (m : Tab α) (k : Nat) :
    Tab.get d (m.map fun e => (e.1, g e.2)) k = g (Tab.get d m k) ∨ Tab.get d (m.map fun e => (e.1, g e.2)) k = Tab.get d m k := by
  induction m with
  | nil => exact .inr rfl
  | cons e m ih =>
    by_cases h : e.1 = k
    · exact .inl (by simp [Tab.get, h])
    · simpa [Tab.get, h] using ih

end Sys2Proof

namespace Sys2Proof.Machine

/-! ### Operations outside the cores -/

/-- A fold of operations that leave the cores leaves them. -/
theorem State.foldl_cores {α : Type} {f : State → α → State} (h : ∀ t a, (f t a).cores = t.cores) (l : List α) (s : State) :
    (l.foldl f s).cores = s.cores :=
  List.foldlRecOn l f (motive := fun t => t.cores = s.cores) rfl fun t ht a _ => (h t a).trans ht

@[simp] theorem State.markWords_cores (s : State) (ws : List Nat) (bad : Bool) : (s.markWords ws bad).cores = s.cores := rfl
@[simp] theorem State.irq_cores (s : State) (p vec : Nat) : (s.irq p vec).cores = s.cores := rfl
@[simp] theorem State.countRequest_cores (s : State) (p : Nat) (k : LineKey) : (s.countRequest p k).cores = s.cores := rfl
@[simp] theorem State.putLine_cores (s : State) (slice n : Nat) (x : Line) : (s.putLine slice n x).cores = s.cores := rfl
@[simp] theorem State.countInval_cores (s : State) (code : Nat) : (s.countInval code).cores = s.cores := rfl
@[simp] theorem State.freeSlot_cores (s : State) (slice : Nat) (key : SlotKey) : (s.freeSlot slice key).cores = s.cores := rfl

@[simp] theorem State.sealBlock_cores (s : State) (block : Nat) : (s.sealBlock block).cores = s.cores := by
  simp [State.sealBlock, apply_ite State.cores]

@[simp] theorem State.readBlock64_cores (s : State) (block : Nat) : (s.readBlock64 block).cores = s.cores := by
  simp [State.readBlock64, apply_ite State.cores]

@[simp] theorem State.readLine128_cores (s : State) (line : Nat) : (s.readLine128 line).cores = s.cores := by
  simp [State.readLine128]

@[simp] theorem State.writeBack_cores (s : State) (line : Nat) : (s.writeBack line).cores = s.cores := by
  simp [State.writeBack, apply_ite State.cores]

@[simp] theorem State.uncover_cores (s : State) (line : Nat) (dirty : Bool) : (s.uncover line dirty).cores = s.cores := by
  simp [State.uncover, apply_ite State.cores]

@[simp] theorem State.dropLine_cores (s : State) (slice n : Nat) : (s.dropLine slice n).cores = s.cores := by
  unfold State.dropLine
  split
  · rfl
  · simp [apply_ite State.cores]

@[simp] theorem State.victimPut_cores (s : State) (part : Nat) (k : LineKey) (data : List Byte) :
    (s.victimPut part k data).cores = s.cores := by
  simp [State.victimPut, apply_ite State.cores]

@[simp] theorem State.forgetGuests_cores (s : State) (code : Nat) : (s.forgetGuests code).cores = s.cores := by
  simp [State.forgetGuests, apply_ite State.cores]

@[simp] theorem State.evict_cores (s : State) (slice : Nat) (h : Held) : (s.evict slice h).cores = s.cores := by
  match h with
  | .line (.phys n) => exact State.dropLine_cores s slice n
  | .line (.gen p l) =>
    unfold State.evict
    dsimp only
    split <;> simp [apply_ite State.cores]
  | .guest c => rfl

theorem State.makeSpace?_cores {s t : State} {slice code : Nat} (h : s.makeSpace? slice code = some t) : t.cores = s.cores := by
  unfold State.makeSpace? at h
  split at h
  · obtain ⟨v, -, rfl⟩ := Option.map_eq_some_iff.mp h
    exact State.evict_cores s slice v
  · split at h
    · obtain ⟨v, -, rfl⟩ := Option.map_eq_some_iff.mp h
      exact State.evict_cores s slice v
    · cases h; rfl

@[simp] theorem State.modLine_cores (s : State) (slice n : Nat) (f : Line → Line) : (s.modLine slice n f).cores = s.cores := by
  unfold State.modLine; split <;> rfl

theorem State.enter_cores {s t : State} {slice part n : Nat} (h : s.enter slice part n = some t) : t.cores = s.cores := by
  obtain ⟨u, hu, rfl⟩ := Option.map_eq_some_iff.mp h
  simp [apply_ite State.cores, State.makeSpace?_cores hu]

theorem State.touchLine?_cores {s t : State} {p line : Nat} {f : Line → Line} (h : s.touchLine? p line f = some t) :
    t.cores = s.cores := by
  unfold State.touchLine? at h
  dsimp only at h
  split at h
  · cases h; simp
  · split at h
    · cases h; rfl
    · obtain ⟨u, hu, rfl⟩ := Option.map_eq_some_iff.mp h
      simp [State.enter_cores hu]

@[simp] theorem State.touchLine_cores (s : State) (p line : Nat) (f : Line → Line) : (s.touchLine p line f).cores = s.cores := by
  unfold State.touchLine
  cases h : s.touchLine? p line f with
  | none => rfl
  | some t => exact State.touchLine?_cores h

@[simp] theorem State.touchWalk_cores (s : State) (part : Nat) (va : DWord) : (s.touchWalk part va).cores = s.cores :=
  State.foldl_cores (fun t l => State.touchLine_cores t part l id) _ s

@[simp] theorem State.clearGuest_cores (s : State) (g : Nat × Nat) : (s.clearGuest g).cores = s.cores := by
  simp [State.clearGuest, apply_ite State.cores]

@[simp] theorem State.dropGuest_cores (s : State) (g : Nat × Nat) : (s.dropGuest g).cores = s.cores := by
  simp [State.dropGuest, apply_ite State.cores]

@[simp] theorem State.dropGuests_cores (s : State) (line : Nat) : (s.dropGuests line).cores = s.cores :=
  State.foldl_cores State.dropGuest_cores _ s

@[simp] theorem State.markLine_cores (s : State) (p line : Nat) (bs : List ByteWrite) (poisoned nt : Bool) :
    (s.markLine p line bs poisoned nt).cores = s.cores := by
  unfold State.markLine
  dsimp only
  split
  · split <;> simp
  · simp

@[simp] theorem State.dropWalks_cores (s : State) (core req : Nat) : (s.dropWalks core req).cores = s.cores := by
  simp [State.dropWalks, apply_ite State.cores]

@[simp] theorem State.requestWalk_cores (s : State) (core part req agent : Nat) (k : AccessKind) (va : DWord) :
    (s.requestWalk core part req agent k va).cores = s.cores := by
  simp [State.requestWalk, apply_ite State.cores]

@[simp] theorem State.deviceRecord_cores (s : State) (r : BitVec 256) : (s.deviceRecord r).cores = s.cores := by
  simp [State.deviceRecord, apply_ite State.cores]

@[simp] theorem State.settleSlot_cores (s : State) (t : Task) : (s.settleSlot t).cores = s.cores := by
  unfold State.settleSlot
  split
  · rfl
  · simp [apply_ite State.cores]

/-! ### Free slots stay free -/

/-- Every slot that holds no wave in `s` holds none in `t`. -/
def State.OpensNoSlot (s t : State) : Prop := ∀ core slot, s.wave? core slot = none → t.wave? core slot = none

theorem State.OpensNoSlot.trans {s t u : State} (h1 : s.OpensNoSlot t) (h2 : t.OpensNoSlot u) : s.OpensNoSlot u :=
  fun core slot h => h2 core slot (h1 core slot h)

theorem State.OpensNoSlot.of_cores {s t : State} (h : t.cores = s.cores) : s.OpensNoSlot t := by
  intro core slot hw
  rwa [State.wave?, State.core, h]

theorem State.OpensNoSlot.foldl {α : Type} {f : State → α → State} (h : ∀ t a, State.OpensNoSlot t (f t a)) (l : List α) (s : State) :
    s.OpensNoSlot (l.foldl f s) :=
  List.foldlRecOn l f (.of_cores rfl) fun t ht a _ => ht.trans (h t a)

/-- Writing a core whose waves stay leaves every slot. -/
theorem State.wave?_setCore (s : State) {c : Nat} {x : Core} (h : x.waves = (s.core c).waves) (core slot : Nat) :
    (s.setCore c x).wave? core slot = s.wave? core slot := by
  unfold State.wave?
  by_cases hc : core = c
  · rw [hc, State.core_setCore_same, h]
  · rw [State.core_setCore_ne _ _ hc]

/-- A change of every core that leaves each wave in its slot. -/
theorem State.mapCores_opensNoSlot (s : State) (g : Core → Core) (hg : ∀ c slot, c.waves.find slot = none → (g c).waves.find slot = none) :
    s.OpensNoSlot { s with cores := s.cores.map fun e => (e.1, g e.2) } := by
  intro core slot hw
  unfold State.wave? State.core
  rcases Tab.get_map_or (Core.reset core) g s.cores core with h | h
  · rw [h]
    exact hg _ _ hw
  · rw [h]
    exact hw

theorem Core.mapWaves_find (c : Core) (g : Wave → Wave) (slot : Nat) : (c.mapWaves g).waves.find slot = (c.waves.find slot).map g :=
  Tab.find_map g c.waves slot

/-- Reservations that end (R104) leave every wave in its slot. -/
theorem State.breakReservations_opensNoSlot (s : State) (line : Nat) (keep : Option (Nat × Nat)) :
    s.OpensNoSlot (s.breakReservations line keep) := by
  unfold State.breakReservations
  extract_lets one core
  exact State.mapCores_opensNoSlot s core fun c slot h => (c.mapWaves_find one slot).trans (congrArg (Option.map one) h)

theorem State.performWrites_opensNoSlot (s : State) (p : Nat) (bs : List ByteWrite) (poisoned nt : Bool) (keep : Option (Nat × Nat)) :
    s.OpensNoSlot (s.performWrites p bs poisoned nt keep) := by
  unfold State.performWrites
  refine .trans (.of_cores ?_) (.foldl (fun t l => State.breakReservations_opensNoSlot t l keep) _ _)
  simp [apply_ite State.cores, State.foldl_cores fun t l => State.markLine_cores t _ l _ _ _, State.foldl_cores State.sealBlock_cores]

theorem State.writePhys_opensNoSlot (s : State) (p pa : Nat) (bs : List Byte) (poisoned : Bool) :
    s.OpensNoSlot (s.writePhys p pa bs poisoned) := by
  refine .trans (.of_cores ?_) (State.performWrites_opensNoSlot _ p _ poisoned false none)
  simp [apply_ite State.cores, State.foldl_cores State.dropGuests_cores]

/-! ### Error records and fill tasks -/

/-- A write to a partition's ring that went through. -/
theorem State.writeRing_written {s t : State} {part : Nat} {va : DWord} {bs : List Byte} (h : s.writeRing part va bs = .written t) :
    s.OpensNoSlot t := by
  unfold State.writeRing at h
  dsimp only at h
  split at h
  · split at h
    · cases h
    · cases h
      exact .trans (.of_cores (by simp)) (State.writePhys_opensNoSlot _ part _ bs false)
  · cases h
  · cases h

/-- A write to a partition's ring that waits. -/
theorem State.writeRing_wait {s t : State} {part : Nat} {va : DWord} {bs : List Byte} (h : s.writeRing part va bs = .wait t) :
    t.cores = s.cores := by
  unfold State.writeRing at h
  dsimp only at h
  split at h
  · split at h
    · cases h; rfl
    · cases h
  · cases h; simp
  · cases h

theorem State.partRecord_opensNoSlot (s : State) (part : Nat) (r : BitVec 256) : s.OpensNoSlot (s.partRecord part r) := by
  unfold State.partRecord
  dsimp only
  split
  · split
    · rename_i h
      exact (State.writeRing_written h).trans (.of_cores (by simp [apply_ite State.cores]))
    · rename_i h
      exact .of_cores (by simp [apply_ite State.cores, State.writeRing_wait h])
    · exact .of_cores (by simp)
  · exact .of_cores (by simp [apply_ite State.cores])

theorem State.record_opensNoSlot (s : State) (r : ErrRec) : s.OpensNoSlot (s.record r) := by
  have hd : s.OpensNoSlot (s.deviceRecord (r.bits 0)) := .of_cores (s.deviceRecord_cores _)
  unfold State.record
  dsimp only
  split
  · exact hd.trans (State.partRecord_opensNoSlot _ _ _)
  · exact hd

theorem State.poisonLine_opensNoSlot (s : State) (part line : Nat) (o : Origin) : s.OpensNoSlot (s.poisonLine part line o) := by
  unfold State.poisonLine
  dsimp only
  split
  · exact .of_cores (by simp)
  · split
    · exact .of_cores (by simp)
    · exact .trans (.of_cores (by simp)) (State.record_opensNoSlot _ _)

theorem State.endTask_opensNoSlot (s : State) (part id : Nat) (o : Origin) : s.OpensNoSlot (s.endTask part id o) := by
  unfold State.endTask
  split
  · exact .of_cores rfl
  · rename_i t _
    refine .trans (.foldl (fun u l => ?_) _ s) (.of_cores (State.settleSlot_cores _ t))
    split
    · split
      · exact State.poisonLine_opensNoSlot u part l o
      · exact .of_cores rfl
    · exact .of_cores rfl

/-! ### The end of a wave -/

theorem State.endTeam_opensNoSlot (s : State) (t : Team) : s.OpensNoSlot (s.endTeam t) := by
  unfold State.endTeam
  have hstep : ∀ (u : State) (c : Nat), u.OpensNoSlot (u.setCore c { u.core c with
      owner := if (u.core c).owner = some t.id then none else (u.core c).owner }) :=
    fun u c core slot h => (State.wave?_setCore u (by rfl) core slot).trans h
  dsimp only
  split <;> exact .trans (.foldl hstep t.cores s) (.of_cores rfl)

/-- A slot is free once its wave has ended. -/
theorem State.wave?_endWave (s : State) (core slot : Nat) (killed : Bool) : (s.endWave core slot killed).wave? core slot = none := by
  unfold State.endWave
  split
  · assumption
  · rename_i w _
    extract_lets c keep given c1 s1 s2 s3
    have h1 : s1.wave? core slot = none := by
      refine State.OpensNoSlot.of_cores (State.dropWalks_cores _ _ _) core slot ?_
      rw [State.wave?, State.core_setCore_same]
      exact Tab.find_erase c.waves slot
    have h2 : s2.wave? core slot = none := by
      dsimp only [s2]
      split
      · exact State.endTask_opensNoSlot _ _ _ _ core slot h1
      · exact State.endTask_opensNoSlot _ _ _ _ core slot h1
      · exact h1
    have h3 : s3.wave? core slot = none := State.OpensNoSlot.of_cores rfl core slot h2
    split
    · split
      · exact State.endTeam_opensNoSlot _ _ core slot h3
      · exact h3
    · exact h3

/-- A wave that is killed leaves its slot (R38). -/
theorem State.wave?_killWave (s : State) (core slot : Nat) (r : ErrRec) : (s.killWave core slot r).wave? core slot = none := by
  unfold State.killWave
  split
  · assumption
  · exact State.wave?_endWave _ core slot true

/-! ### Taking a trap -/

@[simp] theorem Wave.putS_stack (w : Wave) (n : Nat) (x : DWord) : (w.putS n x).stack = w.stack := rfl
@[simp] theorem Wave.modCur_stack (w : Wave) (g : Fragment → Fragment) : (w.modCur g).stack = w.stack := rfl

/-- Entry into the handler, or the stall before it, keeps the wave in its slot with its reconvergence stack (R349). -/
theorem Ctx.enter_stack (c : Ctx) (t : Trap) (iaddr : DWord) (word : BitVec 96) :
    ∃ v, (c.enter t iaddr word).wave? c.core c.slot = some v ∧ v.stack = c.w.stack := by
  unfold Ctx.enter
  split <;> exact ⟨_, State.wave?_setWave_same _ _ _ _, by simp⟩

/-- A trap other than BKPT kills the wave or enters the handler (R347). -/
theorem Ctx.trapAt_kills_or_enters (c : Ctx) {t : Trap} (ht : t.cause ≠ 13) (iaddr : DWord) (word : BitVec 96) :
    (∃ r, c.trapAt t iaddr word = c.s.killWave c.core c.slot r) ∨ c.trapAt t iaddr word = c.enter t iaddr word := by
  unfold Ctx.trapAt
  dsimp only
  split
  · exact .inl ⟨_, rfl⟩
  · split
    · exact .inl ⟨_, rfl⟩
    · rw [if_neg (by simp [ht])]
      split
      · exact .inl ⟨_, rfl⟩
      · split
        · exact .inr rfl
        · exact .inl ⟨_, rfl⟩

/-- After a trap other than BKPT the wave, where it still holds its slot, has the reconvergence stack that it had. -/
theorem Ctx.trap_stack {c : Ctx} {t : Trap} {w : Wave} (ht : t.cause ≠ 13) (hw : (c.trap t).wave? c.core c.slot = some w) :
    w.stack = c.w.stack := by
  rcases Ctx.trapAt_kills_or_enters { c with s := c.s.dropWalks c.core c.w.uid } ht c.f.pc c.w.word with ⟨r, hr⟩ | he
  · rw [Ctx.trap, hr, State.wave?_killWave] at hw
    cases hw
  · obtain ⟨v, hv, hs⟩ := Ctx.enter_stack { c with s := c.s.dropWalks c.core c.w.uid } t c.f.pc c.w.word
    rw [Ctx.trap, he, hv] at hw
    cases hw
    exact hs

end Sys2Proof.Machine
end

section
/-!
JOINP (R17, R192).
-/
namespace Sys2Proof.Machine

/-- What JOINP answers where it runs: the two cases of R17. -/
theorem exec_joinp_runs {o : Ops} {s : State} {c : Ctx} (h : s.ctx? = some c) (hr : c.RunsOnce o.guard []) :
    exec (.joinp o) s = .next (if 8 ≤ c.w.stack.length then c.trap { cause := 10 }
      else c.done { c.w with stack := c.target o.imm :: c.w.stack }) := by
  show execJoinp o s = _
  rw [execJoinp, withCtx_eq h, Ctx.uniform_runs hr]

theorem exec_joinp_full {o : Ops} {s : State} {c : Ctx} (h : s.ctx? = some c) (hr : c.RunsOnce o.guard [])
    (hfull : 8 ≤ c.w.stack.length) : exec (.joinp o) s = .next (c.trap { cause := 10 }) := by
  rw [exec_joinp_runs h hr, if_pos hfull]

theorem exec_joinp_room {o : Ops} {s : State} {c : Ctx} (h : s.ctx? = some c) (hr : c.RunsOnce o.guard [])
    (hroom : c.w.stack.length < 8) :
    exec (.joinp o) s = .next (c.done { c.w with stack := c.target o.imm :: c.w.stack }) := by
  rw [exec_joinp_runs h hr, if_neg (by omega)]

/-- Settles O14: JOINP has the two cases of R17, and the trap of the second either takes the wave out of its slot or enters the
handler with the stack as it stands. -/
theorem joinpPushesOrTraps : Obligations.JoinpPushesOrTraps := by
  refine ⟨fun o s c h hr hroom => exec_joinp_room h hr hroom, fun o s c h hr hfull => exec_joinp_full h hr hfull, ?_⟩
  intro o s c t w h hr hfull ht hw
  rw [exec_joinp_full h hr hfull] at ht
  cases ht
  exact Ctx.trap_stack (by decide) hw

end Sys2Proof.Machine
end

section
/-!
MOV of a register pair in .n64 form (R45, R132, R148). The meaning checks each half of a vector source as .n32, since R132 lets only
the logic, shift, count, BREV and BPERM entries take any tag in .n64 form; the statement's shape of MOV asks for no tag.
-/
namespace Sys2Proof.Machine

/-! ### A vector instruction that a check stops -/

/-- A vector instruction with an active thread that fails a check of R54 does what the check says. -/
theorem Ctx.vector_stops {c : Ctx} {g : Guard} {us : List Use} {st : Stop} (ha : c.active g ≠ 0)
    (hs : c.check (c.active g) c.f.exec g us = some st) (k : Mask → State) : c.vector g us k = c.stop st := by
  unfold Ctx.vector
  simp only [if_neg ha, hs]

/-- The same for the vector form of a thread-by-thread instruction, by the uses of its shape. -/
theorem Ctx.alu_stops {c : Ctx} {o : Ops} {pl : Plan} {st : Stop} (hv : o.anyV = true) (ha : c.active o.guard ≠ 0)
    (hs : c.check (c.active o.guard) c.f.exec o.guard (pl.uses o) = some st) : c.alu o pl = c.stop st := by
  rw [Ctx.alu, if_pos hv, Ctx.vector_stops ha hs]

/-- A trap other than BKPT at supervisor level kills the wave (R347). -/
theorem Ctx.wave?_trap_supervisor {c : Ctx} {t : Trap} (ht : t.cause ≠ 13) (hu : c.user = false) :
    (c.trap t).wave? c.core c.slot = none := by
  have hsup : ({ c with s := c.s.dropWalks c.core c.w.uid } : Ctx).user = false := hu
  unfold Ctx.trap Ctx.trapAt
  dsimp only
  split
  · exact State.wave?_killWave _ _ _ _
  · split
    · exact State.wave?_killWave _ _ _ _
    · rw [if_neg (by simp [ht]), if_pos (by simp [hsup])]
      exact State.wave?_killWave _ _ _ _

/-! ### A thread-by-thread result keeps its wave -/

/-- After a vector instruction that has the result of a shape and raises no exception, its wave still holds its slot. -/
theorem LaneResult.keeps_wave {i : Instr} {o : Ops} {shape : Ctx → Plan} {s : State} {c : Ctx} {act : Mask} (h : LaneResult i o shape)
    (hx : ∀ x, ((shape c).run x).exc = []) (hc : s.ctx? = some c) (hu : s.upsets = []) (hv : o.anyV = true)
    (hr : c.RunsIn o.guard ((shape c).uses o) act) :
    ∃ t v, exec i s = .next t ∧ t.wave? c.core c.slot = some v := by
  obtain ⟨-, -, -, hf⟩ := State.ctx?_eq hc
  obtain ⟨v, hl, he⟩ := (h s c hc hu).1 act hv hr
  have hfv : v.frag? v.cur = some c.f := by rw [hl.rest]; exact hf
  refine ⟨_, (v.modCur Fragment.advance).settle s.uid, he, ?_⟩
  rw [State.countAll_zero _ _ _ _ _ _ _ (lanes_tally_zero act _ fun _ => hx _), Ctx.next,
    State.nextWord_eq (State.wave?_setWave_same _ _ _ _) hfv, State.wave?_setWave_same, State.setWave_uid]

/-! ### MOV between vector registers -/

/-- What MOV between vector registers runs: any tag in .b32 form, and each half of an .n64 pair checked as .n32. -/
theorem exec_mov_vectors {o : Ops} {ty : Ty} {s : State} {c : Ctx} {n m : BitVec 8} (hd : o.dst = .v n) (ha : o.a = .v m)
    (hc : s.ctx? = some c) : exec (.mov o ty) s = .next (c.alu o { movePlan ty (fun x => { val := x.a }) with
      tagOut := fun i => (c.w.tagHalf o.a i).getD (untagged ty) }) := by
  show execMov o ty s = _
  rw [execMov, withCtx_eq hc]
  simp only [hd, ha]

/-- MOV between vector registers at supervisor level kills its wave when a check stops it by the trap TAG. -/
theorem exec_mov_tag_kills {o : Ops} {ty : Ty} {s : State} {c : Ctx} {n m : BitVec 8} {oper : Nat} (hd : o.dst = .v n) (ha : o.a = .v m)
    (hc : s.ctx? = some c) (hact : c.active o.guard ≠ 0) (hu : c.user = false)
    (hk : c.check (c.active o.guard) c.f.exec o.guard ((movePlan ty fun x => { val := x.a }).uses o) =
      some (.trap { cause := 3, oper := oper })) :
    ∃ t, exec (.mov o ty) s = .next t ∧ t.wave? c.core c.slot = none := by
  have hv : o.anyV = true := by simp [Ops.anyV, hd, Opnd.isV]
  exact ⟨_, (exec_mov_vectors hd ha hc).trans (congrArg _ (Ctx.alu_stops hv hact hk)),
    Ctx.wave?_trap_supervisor (show 3 ≠ 13 by decide) hu⟩

/-! ### A pair that carries F32 -/

/-- `MOV.n64 v2, v4`. -/
def movPair : Ops := ⟨Guard.always, .v 2, .v 4, .unused, false, false, false, .none, 0, 0⟩

/-- The wave that issues first after reset, at supervisor level, with the tag F32 in v4. -/
def floatInV4 : State := (State.reset.withFetchWord 96 0).modWave 0 0 fun w => w.setV 4 { w.v 4 with tag := 3 }

/-- There the uses of the statement's shape pass every check, and those of the meaning's shape fail that of the tag. -/
theorem floatInV4_met : floatInV4.upsets = [] ∧ ∃ c, floatInV4.ctx? = some c ∧ c.user = false ∧
    c.RunsIn movPair.guard ((bitPlan .n64 fun x => { val := x.a }).uses movPair) (c.active movPair.guard) ∧
    c.check (c.active movPair.guard) c.f.exec movPair.guard ((movePlan .n64 fun x => { val := x.a }).uses movPair) =
      some (.trap { cause := 3, oper := (Opnd.v 4).bits.toNat }) := by
  have h : (floatInV4.upsets.isEmpty && floatInV4.ctx?.any fun c => !c.user && c.active movPair.guard != 0 &&
      (c.check (c.active movPair.guard) c.f.exec movPair.guard ((bitPlan .n64 fun x => { val := x.a }).uses movPair)).isNone &&
      c.check (c.active movPair.guard) c.f.exec movPair.guard ((movePlan .n64 fun x => { val := x.a }).uses movPair) ==
        some (.trap { cause := 3, oper := (Opnd.v 4).bits.toNat })) = true := by decide +kernel
  simp only [Bool.and_eq_true, Option.any_eq_true, List.isEmpty_iff, Bool.not_eq_true', bne_iff_ne, ne_eq, Option.isNone_iff_eq_none,
    beq_iff_eq] at h
  obtain ⟨hu, c, hc, ⟨⟨hl, ha⟩, hp⟩, ht⟩ := h
  exact ⟨hu, c, hc, hl, ⟨rfl, ha, hp⟩, ht⟩

/-- Refutes O3: its clause on MOV between registers lets an .n64 source pair carry any tag. Where v4 carries F32, `MOV.n64 v2, v4`
at supervisor level meets every hypothesis of the clause and raises TAG, which takes the wave out of its slot. -/
theorem not_integerBitAndMoveResults : ¬ Obligations.IntegerBitAndMoveResults := by
  rintro ⟨-, -, hmov, -⟩
  obtain ⟨hu, c, hc, hl, hr, ht⟩ := floatInV4_met
  have hlane := hmov movPair .n64 (by decide) rfl rfl
  obtain ⟨t, v, he, hw⟩ := hlane.keeps_wave (fun _ => rfl) hc hu rfl hr
  obtain ⟨t', he', hw'⟩ := exec_mov_tag_kills (n := 2) (m := 4) rfl rfl hc hr.any hl ht
  rw [he] at he'
  cases he'
  rw [hw] at hw'
  cases hw'

end Sys2Proof.Machine
end

section
/-!
BALLOT, VOTE, ELECT and MATCH (R173, R180 to R183). The first three are uniform instructions whose value is a function of the
contributing threads' predicate bits. MATCH commits a value to every thread of exec, while its checks and its comparison look at the
contributing threads.
-/
namespace Sys2Proof.Machine

/-! ### Predicates of the contributing threads -/

/-- BALLOT leaves in its scalar the half of the predicate that it names, over the contributing threads, with their poison. -/
theorem exec_ballot_runs {o : Ops} {hi : Bool} {n : BitVec 3} {d : BitVec 6} {s : State} {c : Ctx} (ha : o.a = .p n) (hd : o.dst = .s d)
    (hc : s.ctx? = some c) (hr : c.RunsOnce o.guard (scalarDst o)) :
    exec (.ballot o hi) s = .next (c.done (c.w.setS d.toNat (SReg.write
      (((c.w.p n.toNat).bits &&& c.contributing o.guard).extractLsb' (64 * hi.toNat) 64)
      (c.predBad n.toNat (c.contributing o.guard)).1 (c.predBad n.toNat (c.contributing o.guard)).2))) := by
  show execBallot o hi s = _
  rw [execBallot, withCtx_eq hc, Ctx.uniform_runs hr, ha, hd]
  rfl

/-- Whether a vote of a kind holds, where `bits` of the contributing threads `m` have the predicate true (R181). -/
def voteHolds (kind : VKind) (bits m : Mask) : Bool :=
  match kind with
  | .any => bits != 0
  | .all => bits == m
  | .uni => bits == 0 || bits == m

/-- VOTE gives every thread of the wave the outcome of the vote, with the contributing threads' poison. -/
theorem exec_vote_runs {o : Ops} {kind : VKind} {n d : BitVec 3} {s : State} {c : Ctx} (ha : o.a = .p n) (hd : o.dst = .p d)
    (hc : s.ctx? = some c) (hr : c.RunsOnce o.guard []) :
    exec (.vote o kind) s = .next (c.done (c.w.setP d.toNat ((c.w.p d.toNat).write c.w.all
      (if voteHolds kind ((c.w.p n.toNat).bits &&& c.contributing o.guard) (c.contributing o.guard) then c.w.all else 0)
      (if (c.predBad n.toNat (c.contributing o.guard)).1 then c.w.all else 0)
      (c.predBad n.toNat (c.contributing o.guard)).2))) := by
  show execVote o kind s = _
  rw [execVote, withCtx_eq hc, Ctx.uniform_runs hr, ha, hd]
  cases kind <;> rfl

/-- ELECT leaves its predicate true in the lowest contributing thread alone, unpoisoned. -/
theorem exec_elect_runs {o : Ops} {d : BitVec 3} {s : State} {c : Ctx} (hd : o.dst = .p d) (hc : s.ctx? = some c)
    (hr : c.RunsOnce o.guard []) :
    exec (.elect o) s = .next (c.done (c.w.setP d.toNat ((c.w.p d.toNat).write c.w.all
      (((Mask.lowest (c.contributing o.guard)).map Mask.one).getD 0) 0 .fault))) := by
  show execElect o s = _
  rw [execElect, withCtx_eq hc, Ctx.uniform_runs hr, hd]
  cases Mask.lowest (c.contributing o.guard) <;> rfl

/-! ### Results that raise nothing -/

/-- Of what an exchange leaves, only the values and the poison of the threads of its mask matter. -/
theorem VecWritten.congr {c : Ctx} {dst : Opnd} {act : Mask} {out64 : Bool} {tag : BitVec 5} {val val' : Nat → Nat} {bad bad' : Nat → Bool}
    {v : Wave} (h : VecWritten c dst act out64 tag val bad v) (hv : ∀ k, act.getLsbD k = true → val k = val' k)
    (hb : ∀ k, act.getLsbD k = true → bad k = bad' k) : VecWritten c dst act out64 tag val' bad' v where
  rest := h.rest
  keep := h.keep
  low n hd k hk := hv k hk ▸ h.low n hd k hk
  high n hd h64 k hk := hv k hk ▸ h.high n hd h64 k hk
  off := h.off
  full := h.full
  poison n hd k hk := hb k hk ▸ h.poison n hd k hk

/-- A commit of results that raise nothing leaves their values and poison in the threads of its mask, and no count changes. -/
theorem Ctx.commit_quiet {c : Ctx} {dst : Opnd} {act : Mask} {r : Result} {out64 : Bool} {tag : BitVec 5} {val : Nat → Nat} {bad : Nat → Bool}
    (hu : c.s.upsets = []) (hs : ∀ n, dst ≠ .s n) (h64 : r.out64 = out64) (ht : r.tagOut 0 = tag) (hl : r.long = false)
    (hp : r.pout = none) (he : r.evs = none) (hx : ∀ e ∈ tally (r.outs.map (·.exc)), e.2 = 0)
    (hv : ∀ k, act.getLsbD k = true → (r.outs.getD k {}).val = val k) (hb : ∀ k, act.getLsbD k = true → r.poison.getLsbD k = bad k) :
    ∃ v, VecWritten c dst act out64 tag val bad v ∧ c.commit dst act r = c.next (c.s.setWave c.core c.slot v) := by
  subst h64 ht
  refine ⟨_, (Wave.putLanes_written c dst r act (fun t => (r.outs.getD t {}).val) hs).congr hv hb, ?_⟩
  rw [Ctx.commit_short hu _ _ _ hl, hp, he, Option.getD_none, State.countAll_zero _ _ _ _ _ _ _ hx]

/-! ### MATCH -/

/-- The contributing threads `act` whose value of SRCA equals that of thread k (R183). -/
def Ctx.sameValue (c : Ctx) (o : Ops) (ty : Ty) (act : Mask) (k : Nat) : List Nat :=
  act.threads.filter fun u => c.w.value c.f.exec o.a ty 0 u == c.w.value c.f.exec o.a ty 0 k

/-- MATCH finds these threads in the list of the values of the register's threads. -/
theorem Ctx.sameValue_eq_filter (c : Ctx) (o : Ops) (ty : Ty) (act : Mask) {k : Nat} (hk : k < 128) :
    (act.threads.filter fun u => ((List.range 128).map fun t => c.w.value c.f.exec o.a ty 0 t).getD u 0 ==
      ((List.range 128).map fun t => c.w.value c.f.exec o.a ty 0 t).getD k 0) = c.sameValue o ty act k := by
  refine List.filter_congr fun u hu => ?_
  have hu' := Mask.lt_of_getLsbD (Mask.mem_threads.mp hu)
  simp [List.getD_eq_getElem?_getD, hk, hu']

/-- MATCH gives every thread of exec the leader, or the number, of the contributing threads that hold its value; the poison of any
contributing thread (R173) or the thread's own (assumption 136) poisons it. -/
theorem exec_match_runs {o : Ops} {ty : Ty} {cnt : Bool} {s : State} {c : Ctx} {act : Mask} (hc : s.ctx? = some c) (hu : s.upsets = [])
    (hr : c.RunsIn o.guard (usesOf o.a ty.is64 o.feA true false false (fun _ => ty.tags) ++ scalarDst o) act) (hd : ∀ n, o.dst ≠ .s n) :
    ∃ v, VecWritten c o.dst c.f.exec false 2
        (fun k => if cnt then (c.sameValue o ty act k).length else (c.sameValue o ty act k).headD c.w.width)
        (fun k => (act.threads.any fun u => c.w.poisonAt o.a ty.is64 u) || c.w.poisonAt o.a ty.is64 k) v ∧
      exec (.matchLanes o ty cnt) s = .next (c.next (s.setWave c.core c.slot v)) := by
  obtain ⟨rfl, -⟩ := State.ctx?_eq hc
  show ∃ v, _ ∧ execMatchLanes o ty cnt c.s = _
  rw [execMatchLanes, withCtx_eq hc, Ctx.vector_runs hr]
  simp only [Host.Outcome.next.injEq]
  refine Ctx.commit_quiet hu hd rfl rfl rfl rfl rfl ?_ (fun k hk => ?_) fun k hk => ?_
  · dsimp only
    exact lanes_tally_zero _ _ fun _ => rfl
  · dsimp only
    rw [lanes_getD _ hk, Ctx.sameValue_eq_filter c o ty act (Mask.lt_of_getLsbD hk)]
  · rw [Mask.getLsbD_ofPred, hk, decide_eq_true (Mask.lt_of_getLsbD hk)]
    simp [badOf, Wave.bad, List.any_map, Function.comp_def]

/-- Settles O10: each of the four answers, where it runs, the state that its rule names. -/
theorem voteResults : Obligations.VoteResults := by
  refine ⟨fun o hi n d ha hd s c hc hr _ => exec_ballot_runs ha hd hc hr, fun o kind n d ha hd s c hc hr _ => ?_,
    fun o d hd s c hc hr _ => ?_, fun o ty cnt s c act hc hu hr hd => exec_match_runs hc hu hr hd⟩
  · rw [exec_vote_runs ha hd hc hr]
    cases kind <;> rfl
  · rw [exec_elect_runs hd hc hr]
    dsimp only [Ctx.contributing]
    cases Mask.lowest (c.f.exec &&& c.w.guardBits o.guard) <;> rfl

end Sys2Proof.Machine
end

section
/-!
Traversal stacks (R256 to R259). In an open stack area SPUSH, SPOP and SPEEK act at once; a table written at several keys, and a list
with a value for each of its threads, give the depths and the entries read.
-/
namespace Sys2Proof

/-! ### Tables and lists with a value for each of several keys -/

/-- A table in which keys of a list are written holds the written values there and what it held elsewhere. -/
theorem Tab.get_foldl_put {α : Type} (d : α) (f : Nat → α) (l : List Nat) (m : Tab α) (k : Nat) :
    (l.foldl (fun m t => Tab.put m t (f t)) m).get d k = if k ∈ l then f k else m.get d k := by
  induction l generalizing m with
  | nil => simp
  | cons t l ih =>
    rw [List.foldl_cons, ih]
    by_cases hk : k = t
    · subst hk; simp
    · simp [hk, Tab.get_put_ne]

/-- In a list of keys with their values, a search for a key finds its value, or nothing for a key that is not of the list. -/
theorem find?_map_key {α : Type} (f : Nat → α) (l : List Nat) (k : Nat) :
    (l.map fun t => (t, f t)).find? (fun r => r.1 = k) = if k ∈ l then some (k, f k) else none := by
  induction l with
  | nil => rfl
  | cons t l ih =>
    by_cases hk : k = t
    · subst hk; simp
    · simp [ih, hk, Ne.symm hk]

/-- There, a test of the values at a key holds when the key is of the list and its value passes. -/
theorem any_map_key {α : Type} (f : Nat → α) (g : α → Bool) (l : List Nat) (k : Nat) :
    (l.map fun t => (t, f t)).any (fun r => r.1 = k && g r.2) = (decide (k ∈ l) && g (f k)) := by
  induction l with
  | nil => rfl
  | cons t l ih =>
    by_cases hk : k = t
    · subst hk; cases hg : g (f k) <;> simp [hg, ih]
    · simp [ih, hk, Ne.symm hk]

end Sys2Proof

namespace Sys2Proof.Machine

/-! ### What an access within the LR window leaves (R104) -/

@[simp] theorem Ctx.spoil_core (c : Ctx) : c.spoil.core = c.core := by unfold Ctx.spoil; split <;> rfl

/-- The reservations of the fragment are no register. -/
@[simp] theorem Ctx.spoil_poisonAt (c : Ctx) (x : Opnd) (is64 : Bool) (t : Nat) :
    c.spoil.w.poisonAt x is64 t = c.w.poisonAt x is64 t := by
  unfold Ctx.spoil
  split
  · rfl
  · cases x <;> rfl

/-- Writing a wave leaves the scratchpads. -/
@[simp] theorem State.spRead_setWave (s : State) (core slot : Nat) (w : Wave) (off n : Nat) :
    (s.setWave core slot w).spRead core off n = s.spRead core off n := by
  simp [State.spRead, State.core_setWave]

/-- The reservations of the fragment are no scratchpad byte. -/
@[simp] theorem Ctx.spoil_spRead (c : Ctx) (off n : Nat) : c.spoil.s.spRead c.core off n = c.s.spRead c.core off n := by
  unfold Ctx.spoil
  split
  · rfl
  · exact State.spRead_setWave ..

/-! ### The stack area (R256) -/

/-- A stack area in which the instruction touches its entries at once: it lies in the own core's scratchpad at a multiple of 16, and
nothing holds back an access of one of the entries. -/
def Ctx.StackOpen (c : Ctx) (o : Ops) (out : Bool) (entries : List (Nat × Nat)) : Prop :=
  let a := c.spAddr o 0
  bitOf a 31 = false ∧ bitOf a 19 = false ∧ bitsOf a 30 28 = 0 ∧ a % 2 ^ 19 + 128 * c.w.width ≤ Config.scratchEnd c.core ∧ a % 16 = 0 ∧
  ∀ e ∈ entries, c.s.spBlocked c.core (stackEntry (a % 2 ^ 19) c.w.width e.1 e.2) (stackEntry (a % 2 ^ 19) c.w.width e.1 e.2 + 4) out = false ∧
    c.spEarlier true ⟨e.2, c.core, stackEntry (a % 2 ^ 19) c.w.width e.1 e.2⟩ 4 = none

/-- An instruction with an open stack area goes on with the offset of the base. -/
theorem Ctx.stackArea_open {c : Ctx} {o : Ops} {out : Bool} {entries : List (Nat × Nat)} (h : c.StackOpen o out entries) (act : Mask)
    (k : Nat → State) : c.stackArea o act false out entries k = k (c.spAddr o 0 % 2 ^ 19) := by
  obtain ⟨hown, hhigh, hres, hend, halign, hfree⟩ := h
  have hunblocked : (entries.map fun e => (⟨e.2, c.core, stackEntry (c.spAddr o 0 % 2 ^ 19) c.w.width e.1 e.2⟩ : SpAcc)).find?
      (fun x => c.s.spBlocked c.core x.off (x.off + 4) out) = none := by
    exact List.find?_eq_none.mpr (List.forall_mem_map.mpr fun e he => Bool.not_eq_true _ ▸ (hfree e he).1)
  have hfirst : (entries.map fun e => (⟨e.2, c.core, stackEntry (c.spAddr o 0 % 2 ^ 19) c.w.width e.1 e.2⟩ : SpAcc)).findSome?
      (fun x => c.spEarlier true x 4) = none := by
    exact List.findSome?_eq_none_iff.mpr (List.forall_mem_map.mpr fun e he => (hfree e he).2)
  unfold Ctx.stackArea
  simp only [hown, hhigh, hres, halign, Nat.not_lt.mpr hend, hunblocked, hfirst, ne_eq, not_true_eq_false, decide_false,
    Bool.or_false, Bool.false_eq_true, if_false]

/-! ### SPOP and SPEEK (R258) -/

/-- The threads of a mask whose stack holds an entry. -/
def Wave.holders (w : Wave) (act : Mask) : List Nat := act.threads.filter fun t => 0 < w.stackDepth t

theorem Wave.mem_holders {w : Wave} {act : Mask} {k : Nat} : k ∈ w.holders act ↔ act.getLsbD k = true ∧ 0 < w.stackDepth k := by
  simp [Wave.holders, Mask.mem_threads]

/-- The wave with the entries read in its destination, with their poison, and the empty stacks reported in its predicate. -/
def Wave.reported (w : Wave) (n pe : Nat) (act : Mask) (val : Nat → Word) (rotten : Mask) (org : Origin) : Wave :=
  let w1 := w.setV n ((w.v n).write act val rotten org 0)
  w1.setP pe ((w1.p pe).write act (Mask.ofPred fun t => act.getLsbD t && !(w.holders act).contains t) rotten org)

/-- The wave that SPOP or SPEEK leaves: the first removes the entries that it read. -/
def Wave.topped (w : Wave) (n pe : Nat) (pop : Bool) (act : Mask) (val : Nat → Word) (rotten : Mask) (org : Origin) : Wave :=
  let w2 := w.reported n pe act val rotten org
  if pop then { w2 with tdepth := (w.holders act).foldl (fun d t => d.put t (w.stackDepth t - 1)) w2.tdepth } else w2

section
variable {w : Wave} {n pe : Nat} {pop : Bool} {act : Mask} {val : Nat → Word} {rotten : Mask} {org : Origin}

theorem Wave.reported_sregs : (w.reported n pe act val rotten org).sregs = w.sregs := by
  rw [Wave.reported, Wave.setP_rest]; rfl

theorem Wave.reported_tdepth : (w.reported n pe act val rotten org).tdepth = w.tdepth := by
  rw [Wave.reported, Wave.setP_rest]; rfl

theorem Wave.topped_v (m : Nat) :
    (w.topped n pe pop act val rotten org).v m = (w.setV n ((w.v n).write act val rotten org 0)).v m := by
  cases pop <;> exact Wave.v_setP ..

theorem Wave.topped_v_same : (w.topped n pe pop act val rotten org).v n = (w.v n).write act val rotten org 0 := by
  rw [Wave.topped_v, Wave.v_setV_same]

theorem Wave.topped_v_ne {m : Nat} (h : m ≠ n) : (w.topped n pe pop act val rotten org).v m = w.v m := by
  rw [Wave.topped_v, Wave.v_setV_ne _ _ h]

theorem Wave.topped_sregs : (w.topped n pe pop act val rotten org).sregs = w.sregs := by
  cases pop <;> exact Wave.reported_sregs

/-- The predicate reports the threads whose stack is empty. -/
theorem Wave.topped_empty (hp : pe ≠ 7) {k : Nat} (hk : act.getLsbD k = true) :
    ((w.topped n pe pop act val rotten org).p pe).bits.getLsbD k = decide (w.stackDepth k = 0) := by
  have hpred : (w.topped n pe pop act val rotten org).p pe =
      (w.p pe).write act (Mask.ofPred fun t => act.getLsbD t && !(w.holders act).contains t) rotten org := by
    cases pop <;> exact Wave.p_setP_same _ _ hp
  rw [hpred, PReg.write_on _ _ _ _ hk, Mask.getLsbD_ofPred, decide_eq_true (Mask.lt_of_getLsbD hk), hk]
  simp [Wave.mem_holders, hk, Nat.pos_iff_ne_zero]

/-- SPOP removes the entry of each active thread that has one. -/
theorem Wave.topped_stackDepth (k : Nat) : (w.topped n pe pop act val rotten org).stackDepth k =
    if pop = true ∧ act.getLsbD k = true then w.stackDepth k - 1 else w.stackDepth k := by
  cases pop with
  | false =>
    rw [if_neg (by simp)]
    exact congrArg (Tab.get 0 · k) Wave.reported_tdepth
  | true =>
    have hput : (w.topped n pe true act val rotten org).stackDepth k =
        if k ∈ w.holders act then w.stackDepth k - 1 else w.stackDepth k := by
      simp only [Wave.topped, if_true, Wave.reported_tdepth]
      exact Tab.get_foldl_put 0 (fun t => w.stackDepth t - 1) _ _ k
    rw [hput]
    by_cases hk : act.getLsbD k = true
    · by_cases hz : w.stackDepth k = 0 <;> simp [Wave.mem_holders, hk, hz, Nat.pos_iff_ne_zero]
    · simp [Wave.mem_holders, hk]

end

/-- The bytes, with their poison, of the top entry of a thread's stack at the base of an instruction. -/
def Ctx.topEntry (c : Ctx) (o : Ops) (t : Nat) : List (Byte × Bool) :=
  c.s.spRead c.core (stackEntry (c.spAddr o 0 % 2 ^ 19) c.w.width (c.w.stackDepth t - 1) t) 4

/-- What SPOP and SPEEK read for a thread: its top entry, or all ones. -/
def Ctx.topValue (c : Ctx) (o : Ops) (act : Mask) (t : Nat) : Word :=
  if t ∈ c.w.holders act then BitVec.ofNat 32 (leNat ((c.topEntry o t).map (·.1))) else 0xFFFFFFFF

/-- The threads that read a poisoned entry. -/
def Ctx.topRotten (c : Ctx) (o : Ops) (act : Mask) : Mask :=
  Mask.ofPred fun t => decide (t ∈ c.w.holders act) && (c.topEntry o t).any (·.2)

theorem Ctx.topValue_on (c : Ctx) (o : Ops) {act : Mask} {k : Nat} (hk : act.getLsbD k = true) : c.topValue o act k =
    if 0 < c.w.stackDepth k then BitVec.ofNat 32 (leNat ((c.topEntry o k).map (·.1))) else 0xFFFFFFFF := by
  simp only [Ctx.topValue, Wave.mem_holders, hk, true_and]

theorem Ctx.topRotten_on (c : Ctx) (o : Ops) {act : Mask} {k : Nat} (hk : act.getLsbD k = true) :
    (c.topRotten o act).getLsbD k = (decide (0 < c.w.stackDepth k) && (c.topEntry o k).any (·.2)) := by
  simp only [Ctx.topRotten, Mask.getLsbD_ofPred, Mask.lt_of_getLsbD hk, Wave.mem_holders, hk, true_and, decide_true, Bool.true_and]

/-- With an unpoisoned base and an open area, each thread reads its top entry with the entry's poison, or all ones. -/
theorem Ctx.top_open {c : Ctx} {o : Ops} {n : BitVec 8} {act : Mask} (hd : o.dst = .v n) (hb : c.w.poisonAt o.a false 0 = false)
    (hopen : c.StackOpen o false ((c.w.holders act).map fun t => (c.w.stackDepth t - 1, t))) (pe : Nat) (pop : Bool) :
    ∃ org, c.top o pe pop act =
      c.next ((c.put (c.w.topped n.toNat pe pop act (c.topValue o act) (c.topRotten o act) org)).draw) := by
  have hval : (fun t => match ((c.w.holders act).map fun t => (t, c.topEntry o t)).find? fun r => r.1 = t with
      | some r => BitVec.ofNat 32 (leNat (r.2.map (·.1)))
      | none => 0xFFFFFFFF) = c.topValue o act := by
    funext t
    rw [find?_map_key, Ctx.topValue]
    by_cases ht : t ∈ c.w.holders act
    · rw [if_pos ht, if_pos ht]
    · rw [if_neg ht, if_neg ht]
  have hrotten : (Mask.ofPred fun t => ((c.w.holders act).map fun t => (t, c.topEntry o t)).any fun r => r.1 = t && r.2.any (·.2)) =
      c.topRotten o act := congrArg Mask.ofPred (funext fun t => any_map_key _ (fun bs : List (Byte × Bool) => bs.any (·.2)) _ t)
  refine ⟨if c.topRotten o act = 0 then .fault else .data, ?_⟩
  rw [← hval, ← hrotten]
  unfold Ctx.top
  simp only [hb, hd, Bool.false_or, Bool.false_eq_true, if_false, decide_eq_true_eq]
  exact Ctx.stackArea_open hopen act _

/-- SPOP and SPEEK differ in whether they remove the entries. -/
theorem exec_top (o : Ops) (pe : BitVec 3) (pop : Bool) (s : State) : exec (if pop then .spop o pe else .speek o pe) s =
    withCtx s fun c => c.vector o.guard (topUses o) fun act => c.memory (c.spoil.top o pe.toNat pop act) := by
  cases pop <;> rfl

/-- SPOP and SPEEK, where they run with an unpoisoned base and an open area. -/
theorem exec_top_open {o : Ops} {n : BitVec 8} {s : State} {c : Ctx} {act : Mask} (hd : o.dst = .v n) (hc : s.ctx? = some c)
    (hr : c.RunsIn o.guard (topUses o) act) (hfree : c.FreeOfAcquire) (hb : c.w.poisonAt o.a false 0 = false)
    (hopen : c.spoil.StackOpen o false ((c.spoil.w.holders act).map fun t => (c.spoil.w.stackDepth t - 1, t)))
    (pe : BitVec 3) (pop : Bool) : ∃ org, exec (if pop then .spop o pe else .speek o pe) s = .next (c.spoil.next ((c.spoil.put
      (c.spoil.w.topped n.toNat pe.toNat pop act (c.spoil.topValue o act) (c.spoil.topRotten o act) org)).draw)) := by
  obtain ⟨org, htop⟩ := Ctx.top_open hd ((Ctx.spoil_poisonAt ..).trans hb) hopen pe.toNat pop
  exact ⟨org, by rw [exec_top, withCtx_eq hc, Ctx.vector_runs hr, Ctx.memory_free hfree, htop]⟩

/-! ### The obligation -/

/-- Settles O31: each stack instruction acts at once in an open area, and what SPOP and SPEEK leave is read off their wave. -/
theorem traversalStackResults : Obligations.TraversalStackResults := by
  refine ⟨fun o p hd => doesIn_of (fun c act => c.memory (c.spoil.push o act)) (fun _ => rfl) ?_, ?_,
    fun o => doesIn_of _ (fun _ => rfl) fun _ _ _ => rfl⟩
  · rintro c act ⟨hfree, hopen⟩
    rw [Ctx.memory_free hfree, Ctx.push, Ctx.stackArea_open hopen, hd]
    rfl
  intro o pe pop n s c act hd hc hr hfree hb hopen hp
  obtain ⟨rfl, -⟩ := State.ctx?_eq hc
  obtain ⟨org, he⟩ := exec_top_open hd hc hr hfree hb hopen pe pop
  have hwritten : pe.toNat ≠ 7 := fun h => hp (BitVec.eq_of_toNat_eq h)
  have hentry : c.spoil.topEntry o = fun k => c.s.spRead c.spoil.core
      (stackEntry (c.spoil.spAddr o 0 % 2 ^ 19) c.spoil.w.width (c.spoil.w.stackDepth k - 1) k) 4 := by
    funext k
    rw [Ctx.topEntry, Ctx.spoil_core, Ctx.spoil_spRead]
  refine ⟨_, he, fun k hk => ?_, fun k hk => ?_, ?_, ?_, fun k hk => Wave.topped_empty hwritten hk,
    Wave.topped_stackDepth, fun m hm => Wave.topped_v_ne hm, Wave.topped_sregs⟩
  · rw [Wave.topped_v_same, VReg.write_on _ _ _ _ _ hk, Ctx.topValue_on _ _ hk, hentry]
  · rw [Wave.topped_v_same, VReg.write_poison _ _ _ _ _ hk, Ctx.topRotten_on _ _ hk, hentry]
  · rw [Wave.topped_v_same]; rfl
  · rw [Wave.topped_v_same]; rfl

end Sys2Proof.Machine
end

section
/-!
Decoding undoes encoding (R115 to R129). The fields of MOD and IMM read back as they were written, a well-formed instruction uses
exactly the register fields that its entry reads, and so each entry builds the instruction again.
-/
namespace Sys2Proof

/-- The register fields of a word that an instruction uses. -/
def Ops.uses (o : Ops) (d a b : Bool) : Bool := (o.dst.isU != d) && (o.a.isU != a) && (o.b.isU != b)

/-- The same for an entry that keeps its own fields in IMM. -/
def Ops.usesOwn (o : Ops) (d a b : Bool) : Bool := o.uses d a b && o.imm == 0

end Sys2Proof

namespace Sys2Proof.Laws

/-! ### Fields of MOD and IMM -/

section
variable {n lo w s k : Nat}

@[simp] theorem extract_or (x y : BitVec n) : (x ||| y).extractLsb' s k = x.extractLsb' s k ||| y.extractLsb' s k :=
  BitVec.extractLsb'_or

@[simp] theorem extract_field (x : BitVec w) (h : lo + w ≤ n) : (fieldAt n lo x).extractLsb' lo w = x := by
  refine BitVec.eq_of_getLsbD_eq fun i hi => ?_
  simp [fieldAt, hi, show lo + i < n by omega]

/-- A field has no bit outside its place. -/
theorem getLsbD_field_ne (x : BitVec w) (h : k < lo ∨ lo + w ≤ k) : (fieldAt n lo x).getLsbD k = false := by
  simp only [fieldAt, BitVec.getLsbD_shiftLeft, BitVec.getLsbD_setWidth]
  rcases h with h | h
  · simp [h]
  · simp [BitVec.getLsbD_of_ge x (k - lo) (by omega)]

@[simp] theorem extract_field_ne (x : BitVec w) (h : s + k ≤ lo ∨ lo + w ≤ s) : (fieldAt n lo x).extractLsb' s k = 0 := by
  refine BitVec.eq_of_getLsbD_eq fun i hi => ?_
  rw [BitVec.getLsbD_extractLsb', getLsbD_field_ne x (by omega)]
  simp

@[simp] theorem getElem_field_ne (x : BitVec w) (hk : k < n) (h : k < lo ∨ lo + w ≤ k) : (fieldAt n lo x)[k] = false := by
  rw [← BitVec.getLsbD_eq_getElem, getLsbD_field_ne x h]

@[simp] theorem extract_bit (x : Bool) (h : s + k ≤ lo ∨ lo + 1 ≤ s) : (bitAt n lo x).extractLsb' s k = 0 :=
  extract_field_ne (BitVec.ofBool x) h

@[simp] theorem getElem_bit (x : Bool) (h : lo < n) : (bitAt n lo x)[lo] = x := by
  simp [bitAt]

@[simp] theorem getElem_bit_ne (x : Bool) (hk : k < n) (h : k ≠ lo) : (bitAt n lo x)[k] = false :=
  getElem_field_ne (BitVec.ofBool x) hk (by omega)

end

/-! ### Codes of the small fields (R125 and the encoding tables) -/

@[simp] theorem rnd_ofCode (x : Rnd) : Rnd.ofCode x.code = some x := by cases x <;> decide
@[simp] theorem iCond_ofCode (x : ICond) : ICond.ofCode x.code = some x := by cases x <;> decide
@[simp] theorem fCond_ofCode (x : FCond) : FCond.ofCode x.code = some x := by cases x <;> decide
@[simp] theorem hPart_ofCode (x : HPart) : HPart.ofCode x.code = some x := by cases x <;> decide
@[simp] theorem shflMode_ofCode (x : ShflMode) : ShflMode.ofCode x.code = some x := by cases x <;> decide
@[simp] theorem rOp_ofCode (x : ROp) : ROp.ofCode x.code = some x := by cases x <;> decide
@[simp] theorem vKind_ofCode (x : VKind) : VKind.ofCode x.code = some x := by cases x <;> decide
@[simp] theorem uCond_ofCode (x : UCond) : UCond.ofCode x.code = some x := by cases x <;> decide
@[simp] theorem xClass_ofCode (x : XClass) : XClass.ofCode x.code = some x := by cases x <;> decide
@[simp] theorem cnt_ofCode (x : Cnt) : Cnt.ofCode x.code = some x := by cases x <;> decide
@[simp] theorem aOp_ofCode (x : AOp) : AOp.ofCode x.code = some x := by cases x <;> decide
@[simp] theorem fAOp_ofCode (x : FAOp) : FAOp.ofCode x.code = some x := by cases x <;> decide
@[simp] theorem hint_ofCode (x : Hint) : Hint.ofCode x.code = some x := by cases x <;> decide
@[simp] theorem scope_ofCode (x : Scope) : Scope.ofCode x.code = some x := by cases x <;> decide
@[simp] theorem queue_ofCode (x : Queue) : Queue.ofCode x.code = some x := by cases x <;> decide
@[simp] theorem tScope_ofCode (x : TScope) : TScope.ofCode x.code = some x := by cases x <;> decide

theorem raw_op (o : Ops) (op : BitVec 9) (md : BitVec 10) (im : BitVec 21) : (o.raw op md im).op = op := rfl
@[simp] theorem raw_mod (o : Ops) (op : BitVec 9) (md : BitVec 10) (im : BitVec 21) : (o.raw op md im).mod = md := rfl
@[simp] theorem raw_imm (o : Ops) (op : BitVec 9) (md : BitVec 10) (im : BitVec 21) : (o.raw op md im).imm = im := rfl

/-! ### Operands: a used field is not the unused one -/

theorem isU_iff (x : Opnd) : x.isU = true ↔ x = .unused := by cases x <;> simp [Opnd.isU]

theorem isU_eq_false (x : Opnd)
    (h : x.isV = true ∨ x.isS = true ∨ x.isP = true ∨ x.isZ = true ∨ x.isI = true ∨ x.isT = true) : x.isU = false := by
  cases x <;> simp_all [Opnd.isU, Opnd.isV, Opnd.isS, Opnd.isP, Opnd.isZ, Opnd.isI, Opnd.isT]

/-- A field is unused exactly where its entry does not read it. -/
theorem isU_bne (x : Opnd) (d : Bool) : (x.isU != d) = true ↔ (if d then x ≠ .unused else x = .unused) := by
  cases d <;> simp [← isU_iff]

theorem ops_of_uses {o : Ops} {d a b : Bool} (h : o.uses d a b = true) (op : BitVec 9) (md : BitVec 10) :
    (o.raw op md o.imm).ops d a b true = some o := by
  simp only [Ops.uses, Bool.and_eq_true, isU_bne] at h
  exact ops_raw _ _ _ _ _ _ _ _ h.1.1 h.1.2 h.2 rfl

theorem ops_of_usesOwn {o : Ops} {d a b : Bool} (h : o.usesOwn d a b = true) (op : BitVec 9) (md : BitVec 10) (im : BitVec 21) :
    (o.raw op md im).ops d a b false = some o := by
  simp only [Ops.usesOwn, Ops.uses, Bool.and_eq_true, isU_bne, beq_iff_eq] at h
  exact ops_raw _ _ _ _ _ _ _ _ h.1.1.1 h.1.1.2 h.1.2 h.2

/-! ### The shared forms use the fields that their entries read -/

theorem alu_uses {o : Ops} {td ta tb : Ty} {ub three : Bool} (h : o.alu td ta tb ub three = true) : o.uses true true ub = true := by
  simp only [Ops.alu, Bool.and_eq_true] at h
  grind -ring -linarith -lia [Ops.uses, isU_eq_false, Opnd.stdD, Opnd.stdS]

theorem aluP_uses {o : Ops} {ta tb : Ty} {ub : Bool} (h : o.aluP ta tb ub = true) : o.uses true true ub = true := by
  simp only [Ops.aluP, Bool.and_eq_true] at h
  grind -ring -linarith -lia [Ops.uses, isU_eq_false, Opnd.stdS]

theorem logicP_uses {o : Ops} {ty : Ty} {ub : Bool} (h : logicP o ty ub = true) : o.uses true true ub = true := by
  simp only [logicP, Bool.and_eq_true] at h
  grind -ring -linarith -lia [Ops.uses, isU_eq_false]

theorem movForm_uses {o : Ops} {ty : Ty} (h : movForm o ty = true) : o.uses true true false = true := by
  obtain ⟨h, hm⟩ := Bool.and_eq_true_iff.mp h
  have hb : o.b.isU = true := by
    simp only [Bool.and_eq_true] at h
    exact h.1.1.1
  have hd : o.dst.isU = false := by
    cases hd : o.dst with
    | unused => rw [hd] at hm; generalize o.a = a at hm; cases ty <;> cases a <;> exact absurd hm Bool.false_ne_true
    | _ => rfl
  have ha : o.a.isU = false := by
    cases ha : o.a with
    | unused => rw [ha] at hm; generalize o.dst = d at hm; cases ty <;> cases d <;> exact absurd hm Bool.false_ne_true
    | _ => rfl
  simp [Ops.uses, hd, ha, hb]

theorem stm_uses {o : Ops} {quad : Bool} (h : (Instr.stm o quad).wf = true) : o.uses true true true = true := by
  dsimp only [Instr.wf] at h
  simp only [Bool.and_eq_true] at h
  have hd : o.dst.isU = false := by
    obtain ⟨⟨⟨h, -⟩, -⟩, -⟩ := h
    generalize o.dst = d at h
    cases d <;> cases quad <;> first | rfl | exact absurd h Bool.false_ne_true
  grind -ring -linarith -lia [Ops.uses, isU_eq_false, Opnd.globalBase]

/-- Without an immediate operand IMM is 0 (R119). -/
theorem alu_imm {o : Ops} {td ta tb : Ty} {ub three : Bool} (h : o.alu td ta tb ub three = true) (ha : o.a.isI = false)
    (hb : o.b.isI = false) : o.imm = 0 := by
  simp only [Ops.alu, Ops.immOk, Bool.and_eq_true, ha, hb] at h
  simpa using h.2

/-! ### Each entry builds its instruction again -/

/-- One field of an entry reads back, and the rest of the entry with it. -/
theorem bind_step {α β : Type} {x : Option α} {a : α} {f : α → Option β} {b : Option β} (h : x = some a) (hf : f a = b) :
    x.bind f = b := by
  subst h; exact hf

/-- The words of the integer instructions. -/
theorem build_raw_integer {i : Instr} {r : RawWord} (hr : i.raw = some r) (hw : i.wf = true) (hg : r.op.toNat / 64 = 0) :
    r.build = some i := by
  cases i with
  | iadd o ty sat | isub o ty sat | iaddc o ty ci pc sub | imul o ty sat | imulh o ty | imulw o ty | imad o ty sat | imin o ty
  | imax o ty | iaddmin o ty sat | iaddmax o ty sat | icmp o ty cond | and o ty | or o ty | xor o ty | andn o ty | shl o ty | shr o ty
  | sar o ty | rot o ty | bfx o ty | sel o ty ps neg | lea o ty scale | idp4 o ty sat mix | idp2 o ty sat mix =>
    cases hr
    have hu : o.uses true true true = true := by
      dsimp only [Instr.wf] at hw; grind -ring -linarith -lia [alu_uses, aluP_uses, logicP_uses, movForm_uses, Ops.uses, isU_eq_false, Opnd.stdD, Opnd.stdS, Opnd.globalBase, Opnd.spBase]
    exact bind_step (a := ty) (by simp) (by simp [ops_of_uses hu])
  | iabs o ty sat | ineg o ty sat | not o ty | popc o ty | clz o ty | ctz o ty | brev o ty | mov o ty =>
    cases hr
    have hu : o.uses true true false = true := by
      dsimp only [Instr.wf] at hw; grind -ring -linarith -lia [alu_uses, aluP_uses, logicP_uses, movForm_uses, Ops.uses, isU_eq_false, Opnd.stdD, Opnd.stdS, Opnd.globalBase, Opnd.spBase]
    exact bind_step (a := ty) (by simp) (by simp [ops_of_uses hu])
  | fshl o | fshr o | bfi o | bperm o | iadd64 o sub =>
    cases hr
    have hu : o.uses true true true = true := by
      dsimp only [Instr.wf] at hw; grind -ring -linarith -lia [alu_uses, aluP_uses, logicP_uses, movForm_uses, Ops.uses, isU_eq_false, Opnd.stdD, Opnd.stdS, Opnd.globalBase, Opnd.spBase]
    exact bind_step (ops_of_uses hu _ _) (by simp)
  | movi o ty | movh o ty part =>
    cases hr
    have hu : o.uses true false false = true := by
      dsimp only [Instr.wf] at hw; grind -ring -linarith -lia [alu_uses, aluP_uses, logicP_uses, movForm_uses, Ops.uses, isU_eq_false, Opnd.stdD, Opnd.stdS, Opnd.globalBase, Opnd.spBase]
    exact bind_step (a := ty) (by simp) (by simp [ops_of_uses hu])
  | _ => cases hr <;> simp [raw_op] at hg

/-- The words of the floating-point instructions. -/
theorem build_raw_float {i : Instr} {r : RawWord} (hr : i.raw = some r) (hw : i.wf = true) (hg : r.op.toNat / 64 = 1) :
    r.build = some i := by
  cases i with
  | fadd o ty rnd | fsub o ty rnd | fmul o ty rnd | ffma o ty rnd | fmin o ty | fmax o ty | fcmp o ty cond hi | fclass o ty hi
  | fscaleb o ty rnd | fdot2 o ty rnd =>
    cases hr
    have hu : o.uses true true true = true := by
      dsimp only [Instr.wf] at hw; grind -ring -linarith -lia [alu_uses, aluP_uses, alu_imm, Ops.uses, isU_eq_false, Opnd.stdD, Opnd.stdS, Opnd.globalBase, Opnd.spBase]
    exact bind_step (a := ty) (by simp) (by simp [ops_of_uses hu])
  | frcp o rnd | fsqrt o rnd =>
    cases hr
    have hu : o.uses true true false = true := by
      dsimp only [Instr.wf] at hw; grind -ring -linarith -lia [alu_uses, aluP_uses, alu_imm, Ops.uses, isU_eq_false, Opnd.stdD, Opnd.stdS, Opnd.globalBase, Opnd.spBase]
    exact bind_step (a := rnd) (by simp) (by simp [ops_of_uses hu])
  | frsq o | fexp2 o | flog2 o | fsinpi o | fcospi o | ftanh o | fexpt o =>
    cases hr
    have hu : o.uses true true false = true := by
      dsimp only [Instr.wf] at hw; grind -ring -linarith -lia [alu_uses, aluP_uses, alu_imm, Ops.uses, isU_eq_false, Opnd.stdD, Opnd.stdS, Opnd.globalBase, Opnd.spBase]
    exact bind_step (ops_of_uses hu _ _) (by simp)
  | frnd o ty rnd =>
    cases hr
    have hu : o.uses true true false = true := by
      dsimp only [Instr.wf] at hw; grind -ring -linarith -lia [alu_uses, aluP_uses, alu_imm, Ops.uses, isU_eq_false, Opnd.stdD, Opnd.stdS, Opnd.globalBase, Opnd.spBase]
    exact bind_step (a := ty) (by simp) (by simp [ops_of_uses hu])
  | fcvt o ty rnd hi sat sty | icvtf o ty rnd sat sty =>
    cases hr
    have hu : o.usesOwn true true (!decide (ty = .f32)) = true := by
      dsimp only [Instr.wf] at hw; grind -ring -linarith -lia [alu_uses, aluP_uses, alu_imm, Ops.usesOwn, Ops.uses, isU_eq_false, Opnd.stdD, Opnd.stdS, Opnd.globalBase, Opnd.spBase]
    exact bind_step (a := ty) (by simp) (by simp [ops_of_usesOwn hu])
  | fcvti o ty rnd hi sty =>
    cases hr
    have hu : o.usesOwn true true false = true := by
      dsimp only [Instr.wf] at hw; grind -ring -linarith -lia [alu_uses, aluP_uses, alu_imm, Ops.usesOwn, Ops.uses, isU_eq_false, Opnd.stdD, Opnd.stdS, Opnd.globalBase, Opnd.spBase]
    exact bind_step (a := ty) (by simp) (by simp [ops_of_usesOwn hu])
  | _ => cases hr <;> simp [raw_op] at hg

/-- The words of the packed and cross-lane instructions. -/
theorem build_raw_packedCross {i : Instr} {r : RawWord} (hr : i.raw = some r) (hw : i.wf = true) (hg : r.op.toNat / 64 = 2) :
    r.build = some i := by
  cases i with
  | padd o ty rnd sat | pmul o ty rnd sat | pfma o ty rnd sat | pmin o ty | pmax o ty | pdot4 o ty rnd mix | shfl o ty fill | lsh o ty
  | bcast o ty =>
    cases hr
    have hu : o.uses true true true = true := by
      dsimp only [Instr.wf] at hw; grind -ring -linarith -lia [alu_uses, alu_imm, Ops.uses, isU_eq_false, Opnd.stdD, Opnd.stdS, Opnd.globalBase, Opnd.spBase]
    exact bind_step (a := ty) (by simp) (by simp [ops_of_uses hu])
  | pcvt o ty rnd sat sty pick de8 se8 =>
    cases hr
    have hu : o.usesOwn true true (pcvtTakesB ty sty de8 se8) = true := by
      dsimp only [Instr.wf] at hw; grind -ring -linarith -lia [alu_uses, alu_imm, Ops.usesOwn, Ops.uses, isU_eq_false, Opnd.stdD, Opnd.stdS, Opnd.globalBase, Opnd.spBase]
    exact bind_step (a := ty) (by simp) (by simp [ops_of_usesOwn hu])
  | cbdec o pick tile =>
    cases hr
    have hu : o.usesOwn true true false = true := by
      dsimp only [Instr.wf] at hw; grind -ring -linarith -lia [alu_uses, alu_imm, Ops.usesOwn, Ops.uses, isU_eq_false, Opnd.stdD, Opnd.stdS, Opnd.globalBase, Opnd.spBase]
    exact bind_step (ops_of_usesOwn hu _ _ _) (by simp)
  | cbenc o h tile =>
    cases hr
    have hu : o.usesOwn true true true = true := by
      dsimp only [Instr.wf] at hw; grind -ring -linarith -lia [alu_uses, alu_imm, Ops.usesOwn, Ops.uses, isU_eq_false, Opnd.stdD, Opnd.stdS, Opnd.globalBase, Opnd.spBase]
    exact bind_step (ops_of_usesOwn hu _ _ _) (by simp)
  | retag o tag =>
    cases hr
    have hu : o.usesOwn true false false = true := by
      dsimp only [Instr.wf] at hw; grind -ring -linarith -lia [alu_uses, alu_imm, Ops.usesOwn, Ops.uses, isU_eq_false, Opnd.stdD, Opnd.stdS, Opnd.globalBase, Opnd.spBase]
    exact bind_step (ops_of_usesOwn hu _ _ _) (by simp)
  | shfli o ty mode wrel fill | reduce o ty op | scan o ty op excl | matchLanes o ty cnt =>
    cases hr
    have hu : o.uses true true false = true := by
      dsimp only [Instr.wf] at hw; grind -ring -linarith -lia [alu_uses, alu_imm, Ops.uses, isU_eq_false, Opnd.stdD, Opnd.stdS, Opnd.globalBase, Opnd.spBase]
    exact bind_step (a := ty) (by simp) (by simp [ops_of_uses hu])
  | redstep o ty op j =>
    cases hr
    have hu : o.usesOwn true true false = true := by
      dsimp only [Instr.wf] at hw; grind -ring -linarith -lia [alu_uses, alu_imm, Ops.usesOwn, Ops.uses, isU_eq_false, Opnd.stdD, Opnd.stdS, Opnd.globalBase, Opnd.spBase]
    exact bind_step (a := ty) (by simp) (by simp [ops_of_usesOwn hu])
  | ballot o hi =>
    cases hr
    have hu : o.uses true true false = true := by
      dsimp only [Instr.wf] at hw; grind -ring -linarith -lia [alu_uses, alu_imm, Ops.uses, isU_eq_false, Opnd.stdD, Opnd.stdS, Opnd.globalBase, Opnd.spBase]
    exact bind_step (ops_of_uses hu _ _) (by simp)
  | vote o kind =>
    cases hr
    have hu : o.uses true true false = true := by
      dsimp only [Instr.wf] at hw; grind -ring -linarith -lia [alu_uses, alu_imm, Ops.uses, isU_eq_false, Opnd.stdD, Opnd.stdS, Opnd.globalBase, Opnd.spBase]
    exact bind_step (a := kind) (by simp) (by simp [ops_of_uses hu])
  | elect o =>
    cases hr
    have hu : o.uses true false false = true := by
      dsimp only [Instr.wf] at hw; grind -ring -linarith -lia [alu_uses, alu_imm, Ops.uses, isU_eq_false, Opnd.stdD, Opnd.stdS, Opnd.globalBase, Opnd.spBase]
    exact bind_step (ops_of_uses hu _ _) (by simp)
  | _ => cases hr <;> simp [raw_op] at hg

/-- The words of the control instructions. -/
theorem build_raw_control {i : Instr} {r : RawWord} (hr : i.raw = some r) (hw : i.wf = true) (hg : r.op.toNat / 64 = 3) :
    r.build = some i := by
  cases i with
  | bra o | exit o | joinp o | yield o | nop o =>
    cases hr
    have hu : o.uses false false false = true := by
      dsimp only [Instr.wf] at hw; grind -ring -linarith -lia [Ops.uses, isU_eq_false, Opnd.stdD, Opnd.stdS, Opnd.globalBase, Opnd.spBase]
    exact bind_step (ops_of_uses hu _ _) (by simp)
  | bru o cond =>
    cases hr
    have hu : o.uses false (!decide (cond = .always)) false = true := by
      dsimp only [Instr.wf] at hw; grind -ring -linarith -lia [Ops.uses, isU_eq_false, Opnd.stdD, Opnd.stdS, Opnd.globalBase, Opnd.spBase]
    exact bind_step (a := cond) (by simp) (by simp [ops_of_uses hu])
  | brx o | ret o | execr o =>
    cases hr
    have hu : o.uses false true false = true := by
      dsimp only [Instr.wf] at hw; grind -ring -linarith -lia [Ops.uses, isU_eq_false, Opnd.stdD, Opnd.stdS, Opnd.globalBase, Opnd.spBase]
    exact bind_step (ops_of_uses hu _ _) (by simp)
  | call o ind =>
    cases hr
    have hu : o.uses true ind false = true := by
      dsimp only [Instr.wf] at hw; grind -ring -linarith -lia [Ops.uses, isU_eq_false, Opnd.stdD, Opnd.stdS, Opnd.globalBase, Opnd.spBase]
    exact bind_step (a := o) (by simp [ops_of_uses hu]) (by simp)
  | rep o dStep aStep bStep count | rrel o n | trap o code | bkpt o code =>
    cases hr
    have hu : o.usesOwn false false false = true := by
      dsimp only [Instr.wf] at hw; grind -ring -linarith -lia [Ops.usesOwn, Ops.uses, isU_eq_false, Opnd.stdD, Opnd.stdS, Opnd.globalBase, Opnd.spBase]
    exact bind_step (ops_of_usesOwn hu _ _ _) (by simp)
  | waitr o count | wrsr o num =>
    cases hr
    have hu : o.usesOwn false true false = true := by
      dsimp only [Instr.wf] at hw; grind -ring -linarith -lia [Ops.usesOwn, Ops.uses, isU_eq_false, Opnd.stdD, Opnd.stdS, Opnd.globalBase, Opnd.spBase]
    exact bind_step (ops_of_usesOwn hu _ _ _) (by simp)
  | execs o =>
    cases hr
    have hu : o.uses true true false = true := by
      dsimp only [Instr.wf] at hw; grind -ring -linarith -lia [Ops.uses, isU_eq_false, Opnd.stdD, Opnd.stdS, Opnd.globalBase, Opnd.spBase]
    exact bind_step (ops_of_uses hu _ _) (by simp)
  | racq o n | rdsr o num =>
    cases hr
    have hu : o.usesOwn true false false = true := by
      dsimp only [Instr.wf] at hw; grind -ring -linarith -lia [Ops.usesOwn, Ops.uses, isU_eq_false, Opnd.stdD, Opnd.stdS, Opnd.globalBase, Opnd.spBase]
    exact bind_step (ops_of_usesOwn hu _ _ _) (by simp)
  | rqry o | cycle o =>
    cases hr
    have hu : o.uses true false false = true := by
      dsimp only [Instr.wf] at hw; grind -ring -linarith -lia [Ops.uses, isU_eq_false, Opnd.stdD, Opnd.stdS, Opnd.globalBase, Opnd.spBase]
    exact bind_step (ops_of_uses hu _ _) (by simp)
  | xcnt o cls =>
    cases hr
    have hu : o.usesOwn true false false = true := by
      dsimp only [Instr.wf] at hw; grind -ring -linarith -lia [Ops.usesOwn, Ops.uses, isU_eq_false, Opnd.stdD, Opnd.stdS, Opnd.globalBase, Opnd.spBase]
    exact bind_step (a := cls) (by simp) (by simp [ops_of_usesOwn hu])
  | _ => cases hr <;> simp [raw_op] at hg

/-- The words of the memory instructions. -/
theorem build_raw_memory {i : Instr} {r : RawWord} (hr : i.raw = some r) (hw : i.wf = true) (hg : r.op.toNat / 64 = 4) :
    r.build = some i := by
  cases i with
  | stm o quad =>
    cases hr
    exact bind_step (ops_of_uses (stm_uses hw) _ _) (by simp)
  | ld o ty one cnt sub | ldnc o ty one cnt sub | lds o ty one cnt | ldu o ty cnt | lr o ty =>
    cases hr
    have hu : o.uses true true false = true := by
      dsimp only [Instr.wf] at hw; grind -ring -linarith -lia [Ops.uses, isU_eq_false, Opnd.stdD, Opnd.stdS, Opnd.globalBase, Opnd.spBase]
    exact bind_step (a := ty) (by simp) (by simp [ops_of_uses hu])
  | st o ty one cnt sub | stnt o ty one cnt sub =>
    cases hr
    have hu : o.uses false true true = true := by
      dsimp only [Instr.wf] at hw; grind -ring -linarith -lia [Ops.uses, isU_eq_false, Opnd.stdD, Opnd.stdS, Opnd.globalBase, Opnd.spBase]
    exact bind_step (a := ty) (by simp) (by simp [ops_of_uses hu])
  | sts o ty one cnt credit =>
    cases hr
    have hu : o.uses credit true true = true := by
      dsimp only [Instr.wf] at hw; grind -ring -linarith -lia [Ops.uses, isU_eq_false, Opnd.stdD, Opnd.stdS, Opnd.globalBase, Opnd.spBase]
    exact bind_step (a := ty) (by simp) (by simp [ops_of_uses hu])
  | ldmc o bar | bind o bar slot =>
    cases hr
    have hu : o.usesOwn true true true = true := by
      dsimp only [Instr.wf] at hw; grind -ring -linarith -lia [Ops.usesOwn, Ops.uses, isU_eq_false, Opnd.stdD, Opnd.stdS, Opnd.globalBase, Opnd.spBase]
    exact bind_step (ops_of_usesOwn hu _ _ _) (by simp)
  | atom o ty op | atomf o ty op | cas o ty | atoms o ty op | sc o ty =>
    cases hr
    have hu : o.uses true true true = true := by
      dsimp only [Instr.wf] at hw; grind -ring -linarith -lia [Ops.uses, isU_eq_false, Opnd.stdD, Opnd.stdS, Opnd.globalBase, Opnd.spBase]
    exact bind_step (a := ty) (by simp) (by simp [ops_of_uses hu])
  | pref o llc =>
    cases hr
    have hu : o.uses false true false = true := by
      dsimp only [Instr.wf] at hw; grind -ring -linarith -lia [Ops.uses, isU_eq_false, Opnd.stdD, Opnd.stdS, Opnd.globalBase, Opnd.spBase]
    exact bind_step (ops_of_uses hu _ _) (by simp)
  | thint o hint =>
    cases hr
    have hu : o.uses false true true = true := by
      dsimp only [Instr.wf] at hw; grind -ring -linarith -lia [Ops.uses, isU_eq_false, Opnd.stdD, Opnd.stdS, Opnd.globalBase, Opnd.spBase]
    exact bind_step (a := hint) (by simp) (by simp [ops_of_uses hu])
  | fence o scope seq =>
    cases hr
    have hu : o.uses false false false = true := by
      dsimp only [Instr.wf] at hw; grind -ring -linarith -lia [Ops.uses, isU_eq_false, Opnd.stdD, Opnd.stdS, Opnd.globalBase, Opnd.spBase]
    exact bind_step (a := scope) (by simp) (by simp [ops_of_uses hu])
  | acq o scope =>
    cases hr
    have hu : o.uses true true false = true := by
      dsimp only [Instr.wf] at hw; grind -ring -linarith -lia [Ops.uses, isU_eq_false, Opnd.stdD, Opnd.stdS, Opnd.globalBase, Opnd.spBase]
    exact bind_step (a := scope) (by simp) (by simp [ops_of_uses hu])
  | rel o scope =>
    cases hr
    have hu : o.uses false true true = true := by
      dsimp only [Instr.wf] at hw; grind -ring -linarith -lia [Ops.uses, isU_eq_false, Opnd.stdD, Opnd.stdS, Opnd.globalBase, Opnd.spBase]
    exact bind_step (a := scope) (by simp) (by simp [ops_of_uses hu])
  | _ => cases hr <;> simp [raw_op] at hg

/-- The words of the engine and barrier instructions. -/
theorem build_raw_barrier {i : Instr} {r : RawWord} (hr : i.raw = some r) (hw : i.wf = true) (hg : r.op.toNat / 64 = 5) :
    r.build = some i := by
  cases i with
  | barinit o arr | kick o =>
    cases hr
    have hu : o.uses false true false = true := by
      dsimp only [Instr.wf] at hw; grind -ring -linarith -lia [Ops.uses, isU_eq_false, Opnd.stdD, Opnd.stdS, Opnd.globalBase, Opnd.spBase]
    exact bind_step (ops_of_uses hu _ _) (by simp)
  | bararr o | barwait o | barsync o | barq o | tst o sp =>
    cases hr
    have hu : o.uses true true true = true := by
      dsimp only [Instr.wf] at hw; grind -ring -linarith -lia [Ops.uses, isU_eq_false, Opnd.stdD, Opnd.stdS, Opnd.globalBase, Opnd.spBase]
    exact bind_step (ops_of_uses hu _ _) (by simp)
  | barexp o =>
    cases hr
    have hu : o.uses false true true = true := by
      dsimp only [Instr.wf] at hw; grind -ring -linarith -lia [Ops.uses, isU_eq_false, Opnd.stdD, Opnd.stdS, Opnd.globalBase, Opnd.spBase]
    exact bind_step (ops_of_uses hu _ _) (by simp)
  | eqst o q reg =>
    cases hr
    have hu : o.uses false true false = true := by
      dsimp only [Instr.wf] at hw; grind -ring -linarith -lia [Ops.uses, isU_eq_false, Opnd.stdD, Opnd.stdS, Opnd.globalBase, Opnd.spBase]
    exact bind_step (a := q) (by simp) (by simp [ops_of_uses hu])
  | eqgo o q =>
    cases hr
    have hu : o.uses false false false = true := by
      dsimp only [Instr.wf] at hw; grind -ring -linarith -lia [Ops.uses, isU_eq_false, Opnd.stdD, Opnd.stdS, Opnd.globalBase, Opnd.spBase]
    exact bind_step (a := q) (by simp) (by simp [ops_of_uses hu])
  | eqfence o mask =>
    cases hr
    have hu : o.usesOwn false false false = true := by
      dsimp only [Instr.wf] at hw; grind -ring -linarith -lia [Ops.usesOwn, Ops.uses, isU_eq_false, Opnd.stdD, Opnd.stdS, Opnd.globalBase, Opnd.spBase]
    exact bind_step (ops_of_usesOwn hu _ _ _) (by simp)
  | eqwait o q n =>
    cases hr
    have hu : o.usesOwn true false false = true := by
      dsimp only [Instr.wf] at hw; grind -ring -linarith -lia [Ops.usesOwn, Ops.uses, isU_eq_false, Opnd.stdD, Opnd.stdS, Opnd.globalBase, Opnd.spBase]
    exact bind_step (a := q) (by simp) (by simp [ops_of_usesOwn hu])
  | tld o ty sp =>
    cases hr
    have hu : o.uses true true true = true := by
      dsimp only [Instr.wf] at hw; grind -ring -linarith -lia [Ops.uses, isU_eq_false, Opnd.stdD, Opnd.stdS, Opnd.globalBase, Opnd.spBase]
    exact bind_step (a := ty) (by simp) (by simp [ops_of_uses hu])
  | tcpy o | tcb o sp =>
    cases hr
    have hu : o.uses true true false = true := by
      dsimp only [Instr.wf] at hw; grind -ring -linarith -lia [Ops.uses, isU_eq_false, Opnd.stdD, Opnd.stdS, Opnd.globalBase, Opnd.spBase]
    exact bind_step (ops_of_uses hu _ _) (by simp)
  | mxprg o =>
    cases hr
    have hu : o.uses true false false = true := by
      dsimp only [Instr.wf] at hw; grind -ring -linarith -lia [Ops.uses, isU_eq_false, Opnd.stdD, Opnd.stdS, Opnd.globalBase, Opnd.spBase]
    exact bind_step (ops_of_uses hu _ _) (by simp)
  | vxm o rnd =>
    cases hr
    have hu : o.uses true true true = true := by
      dsimp only [Instr.wf] at hw; grind -ring -linarith -lia [Ops.uses, isU_eq_false, Opnd.stdD, Opnd.stdS, Opnd.globalBase, Opnd.spBase]
    exact bind_step (a := rnd) (by simp) (by simp [ops_of_uses hu])
  | _ => cases hr <;> simp [raw_op] at hg

/-- The words of the traversal, Glaze and generator instructions. -/
theorem build_raw_traversal {i : Instr} {r : RawWord} (hr : i.raw = some r) (hw : i.wf = true) (hg : r.op.toNat / 64 = 6) :
    r.build = some i := by
  cases i with
  | boxt o sort | trit o | spush o | lathrun o nin nout | gzarr o =>
    cases hr
    have hu : o.uses true true true = true := by
      dsimp only [Instr.wf] at hw; grind -ring -linarith -lia [Ops.uses, isU_eq_false, Opnd.stdD, Opnd.stdS, Opnd.globalBase, Opnd.spBase]
    exact bind_step (ops_of_uses hu _ _) (by simp)
  | spop o pe | speek o pe | lathwait o | gzrd o flush | gprobe o =>
    cases hr
    have hu : o.uses true true false = true := by
      dsimp only [Instr.wf] at hw; grind -ring -linarith -lia [Ops.uses, isU_eq_false, Opnd.stdD, Opnd.stdS, Opnd.globalBase, Opnd.spBase]
    exact bind_step (ops_of_uses hu _ _) (by simp)
  | sclr o | fend o =>
    cases hr
    have hu : o.uses false false false = true := by
      dsimp only [Instr.wf] at hw; grind -ring -linarith -lia [Ops.uses, isU_eq_false, Opnd.stdD, Opnd.stdS, Opnd.globalBase, Opnd.spBase]
    exact bind_step (ops_of_uses hu _ _) (by simp)
  | lathreq o reload =>
    cases hr
    have hu : o.uses false true false = true := by
      dsimp only [Instr.wf] at hw; grind -ring -linarith -lia [Ops.uses, isU_eq_false, Opnd.stdD, Opnd.stdS, Opnd.globalBase, Opnd.spBase]
    exact bind_step (ops_of_uses hu _ _) (by simp)
  | gzclr o all =>
    cases hr
    have hu : o.uses false (!all) false = true := by
      dsimp only [Instr.wf] at hw; grind -ring -linarith -lia [Ops.uses, isU_eq_false, Opnd.stdD, Opnd.stdS, Opnd.globalBase, Opnd.spBase]
    exact bind_step (a := o) (by simp [ops_of_uses hu]) (by simp)
  | gzrpl o | fcmt o | tgcond o =>
    cases hr
    have hu : o.uses false true true = true := by
      dsimp only [Instr.wf] at hw; grind -ring -linarith -lia [Ops.uses, isU_eq_false, Opnd.stdD, Opnd.stdS, Opnd.globalBase, Opnd.spBase]
    exact bind_step (ops_of_uses hu _ _) (by simp)
  | gzst o | fget o =>
    cases hr
    have hu : o.uses true false false = true := by
      dsimp only [Instr.wf] at hw; grind -ring -linarith -lia [Ops.uses, isU_eq_false, Opnd.stdD, Opnd.stdS, Opnd.globalBase, Opnd.spBase]
    exact bind_step (ops_of_uses hu _ _) (by simp)
  | fpsn o blk =>
    cases hr
    have hu : o.uses false (!blk) false = true := by
      dsimp only [Instr.wf] at hw; grind -ring -linarith -lia [Ops.uses, isU_eq_false, Opnd.stdD, Opnd.stdS, Opnd.globalBase, Opnd.spBase]
    exact bind_step (a := o) (by simp [ops_of_uses hu]) (by simp)
  | tgsig o mask | tgwait o mask =>
    cases hr
    have hu : o.usesOwn false false false = true := by
      dsimp only [Instr.wf] at hw; grind -ring -linarith -lia [Ops.usesOwn, Ops.uses, isU_eq_false, Opnd.stdD, Opnd.stdS, Opnd.globalBase, Opnd.spBase]
    exact bind_step (ops_of_usesOwn hu _ _ _) (by simp)
  | emit o node regs =>
    cases hr
    have hu : o.usesOwn true true false = true := by
      dsimp only [Instr.wf] at hw; grind -ring -linarith -lia [Ops.usesOwn, Ops.uses, isU_eq_false, Opnd.stdD, Opnd.stdS, Opnd.globalBase, Opnd.spBase]
    exact bind_step (ops_of_usesOwn hu _ _ _) (by simp)
  | _ => cases hr <;> simp [raw_op] at hg

/-- The words of the privileged instructions. -/
theorem build_raw_privileged {i : Instr} {r : RawWord} (hr : i.raw = some r) (hw : i.wf = true) (hg : r.op.toNat / 64 = 7) :
    r.build = some i := by
  cases i with
  | syscall o code | halt o code =>
    cases hr
    have hu : o.usesOwn false false false = true := by
      dsimp only [Instr.wf] at hw; grind -ring -linarith -lia [Ops.usesOwn, Ops.uses, isU_eq_false, Opnd.stdD, Opnd.stdS, Opnd.globalBase, Opnd.spBase]
    exact bind_step (ops_of_usesOwn hu _ _ _) (by simp)
  | eret o =>
    cases hr
    have hu : o.uses false false false = true := by
      dsimp only [Instr.wf] at hw; grind -ring -linarith -lia [Ops.uses, isU_eq_false, Opnd.stdD, Opnd.stdS, Opnd.globalBase, Opnd.spBase]
    exact bind_step (ops_of_uses hu _ _) (by simp)
  | crrd o num =>
    cases hr
    have hu : o.usesOwn true true false = true := by
      dsimp only [Instr.wf] at hw; grind -ring -linarith -lia [Ops.usesOwn, Ops.uses, isU_eq_false, Opnd.stdD, Opnd.stdS, Opnd.globalBase, Opnd.spBase]
    exact bind_step (ops_of_usesOwn hu _ _ _) (by simp)
  | crwr o num =>
    cases hr
    have hu : o.usesOwn false true true = true := by
      dsimp only [Instr.wf] at hw; grind -ring -linarith -lia [Ops.usesOwn, Ops.uses, isU_eq_false, Opnd.stdD, Opnd.stdS, Opnd.globalBase, Opnd.spBase]
    exact bind_step (ops_of_usesOwn hu _ _ _) (by simp)
  | tlbi o all scope =>
    cases hr
    have hu : o.uses false (!all) (!all) = true := by
      dsimp only [Instr.wf] at hw; grind -ring -linarith -lia [Ops.uses, isU_eq_false, Opnd.stdD, Opnd.stdS, Opnd.globalBase, Opnd.spBase]
    exact bind_step (a := scope) (by simp) (by simp [ops_of_uses hu])
  | tlbp o w | wkill o | wsusp o | wresm o =>
    cases hr
    have hu : o.uses true true false = true := by
      dsimp only [Instr.wf] at hw; grind -ring -linarith -lia [Ops.uses, isU_eq_false, Opnd.stdD, Opnd.stdS, Opnd.globalBase, Opnd.spBase]
    exact bind_step (ops_of_uses hu _ _) (by simp)
  | _ => cases hr <;> simp [raw_op] at hg


/-- The fields that encode a well-formed instruction build it. -/
theorem build_raw {i : Instr} {r : RawWord} (hr : i.raw = some r) (hw : i.wf = true) : r.build = some i := by
  have hlt : r.op.toNat / 64 < 8 := by have := r.op.isLt; omega
  generalize hg : r.op.toNat / 64 = g at hlt
  match g with
  | 0 => exact build_raw_integer hr hw hg
  | 1 => exact build_raw_float hr hw hg
  | 2 => exact build_raw_packedCross hr hw hg
  | 3 => exact build_raw_control hr hw hg
  | 4 => exact build_raw_memory hr hw hg
  | 5 => exact build_raw_barrier hr hw hg
  | 6 => exact build_raw_traversal hr hw hg
  | 7 => exact build_raw_privileged hr hw hg

/-- Settles O56: the fields of the word build the instruction again, entry by entry of the opcode map. -/
theorem decodingUndoesEncoding : Obligations.DecodingUndoesEncoding := by
  intro i w hw he
  cases hr : i.raw with
  | none => simp [encode, hr] at he
  | some r => exact decode_encode_of hr hw (build_raw hr hw) w he

end Sys2Proof.Laws
end

section
/-!
Thread-by-thread instructions (R136 to R140, R155 to R169): each is a shape of `Ctx.alu`, and a special function a long-latency one.
PCVT alone names its source tags otherwise than its statement: it accepts every tag that the statement accepts.
-/
namespace Sys2Proof.Machine

/-! ### Checks with looser tags -/

/-- Nothing stops an instruction exactly where each step of R54 passes. -/
theorem Ctx.check_none_iff {c : Ctx} {act gmask : Mask} {g : Guard} {us : List Use} : c.check act gmask g us = none ↔
    c.w.stray = none ∧ (∀ u ∈ us, c.w.outOfBlocks u = false) ∧ (∀ u ∈ us, c.w.tagFails u = false) ∧
    (∀ u ∈ us, c.w.isEmpty u.reg = false) ∧ (c.f.nest = none → ∀ u ∈ us, u.read = true → c.w.nestOf u.reg = none) ∧
    Mask.lowest (c.w.guardPoison g &&& gmask) = none ∧ ∀ u ∈ us, c.w.consumed act u = none := by
  constructor
  · intro h
    unfold Ctx.check at h
    dsimp only at h
    split at h
    · exact nomatch h
    rename_i hs
    split at h
    · exact nomatch h
    rename_i hb
    split at h
    · exact nomatch h
    rename_i ht
    split at h
    · split at h <;> exact nomatch h
    rename_i he
    split at h
    · exact nomatch h
    rename_i hn
    split at h
    · exact nomatch h
    rename_i hg
    split at h
    · exact nomatch h
    rename_i hc
    simp only [List.find?_eq_none, Bool.not_eq_true] at hb ht he
    simp only [List.findSome?_eq_none_iff, Option.map_eq_none_iff] at hc
    refine ⟨hs, hb, ht, he, fun hf u hu hr => ?_, hg, hc⟩
    simpa [hr] using (show _ from by simpa [hf] using hn : ∀ u ∈ us, u.read = true → c.w.nestOf u.reg = none) u hu
  · rintro ⟨hs, hb, ht, he, hn, hg, hc⟩
    have hb' : us.find? (fun u => c.w.outOfBlocks u) = none := by simpa using hb
    have ht' : us.find? (fun u => c.w.tagFails u) = none := by simpa using ht
    have he' : us.find? (fun u => c.w.isEmpty u.reg) = none := by simpa using he
    have hn' : (if c.f.nest.isNone then us.findSome? fun u => if u.read then (c.w.nestOf u.reg).map fun m => (m, u.reg) else none
        else none) = none := by
      split
      · rename_i hf
        simpa using hn (Option.isNone_iff_eq_none.mp hf)
      · rfl
    have hc' : (us.findSome? fun u => (c.w.consumed act u).map fun p => (u, p)) = none := by simpa using hc
    unfold Ctx.check
    dsimp only
    rw [hs, hb', ht', he', hn', hg, hc']

/-- A tag rule that accepts whatever another accepts (R45). -/
def TagsLooser (a b : Option (List Nat)) : Prop := ∀ ts, b = some ts → ∃ ts', a = some ts' ∧ ts' ⊆ ts

theorem TagsLooser.refl (a : Option (List Nat)) : TagsLooser a a := fun ts h => ⟨ts, h, List.Subset.refl ts⟩

/-- A use that differs from another by a looser tag rule. -/
def Use.Looser (u v : Use) : Prop := v = { u with tags := v.tags } ∧ TagsLooser u.tags v.tags

theorem Use.Looser.refl (u : Use) : u.Looser u := ⟨rfl, TagsLooser.refl _⟩

theorem Wave.tagFails_looser {w : Wave} {u v : Use} (h : u.Looser v) (hu : w.tagFails u = false) : w.tagFails v = false := by
  obtain ⟨he, ht⟩ := h
  unfold Wave.tagFails at hu ⊢
  split
  · rename_i n ts hr hts
    obtain ⟨ts', hts', hsub⟩ := ht ts hts
    rw [he] at hr ⊢
    simp only [show u.reg = .v n from hr, hts', Bool.and_eq_false_iff, Bool.not_eq_false', List.contains_iff_mem] at hu ⊢
    exact hu.imp_right fun h => hsub h
  · rfl

/-- What passes with some uses passes with uses of looser tag rules. -/
theorem Ctx.check_looser {c : Ctx} {act gmask : Mask} {g : Guard} {us vs : List Use} (h : ∀ v ∈ vs, ∃ u ∈ us, u.Looser v)
    (hc : c.check act gmask g us = none) : c.check act gmask g vs = none := by
  rw [Ctx.check_none_iff] at hc ⊢
  obtain ⟨hs, hb, ht, he, hn, hg, hp⟩ := hc
  refine ⟨hs, fun v hv => ?_, fun v hv => ?_, fun v hv => ?_, fun hf v hv => ?_, hg, fun v hv => ?_⟩ <;> obtain ⟨u, hu, hl⟩ := h v hv
  · rw [hl.1]; exact hb u hu
  · exact Wave.tagFails_looser hl (ht u hu)
  · rw [hl.1]; exact he u hu
  · rw [hl.1]; exact hn hf u hu
  · rw [hl.1]; exact hp u hu

theorem usesOf_looser {o : Opnd} {is64 fe read write consume : Bool} {s t : Nat → Option (List Nat)} (h : ∀ i, TagsLooser (s i) (t i)) :
    ∀ v ∈ usesOf o is64 fe read write consume t, ∃ u ∈ usesOf o is64 fe read write consume s, u.Looser v := by
  intro v hv
  unfold usesOf at hv ⊢
  cases o with
  | v n =>
    cases is64
    · simp only [Bool.false_eq_true, if_false, List.mem_singleton] at hv ⊢
      exact ⟨_, rfl, by rw [hv], by rw [hv]; exact h 0⟩
    · simp only [if_true, List.mem_cons, List.not_mem_nil, or_false] at hv ⊢
      rcases hv with rfl | rfl
      · exact ⟨_, .inl rfl, rfl, h 0⟩
      · exact ⟨_, .inr rfl, rfl, h 1⟩
  | s n => exact ⟨v, hv, Use.Looser.refl v⟩
  | p n => exact ⟨v, hv, Use.Looser.refl v⟩
  | _ => exact absurd hv List.not_mem_nil

/-- A shape whose sources accept more tags. -/
theorem Plan.uses_looser (pl : Plan) (o : Ops) {ta tb : Nat → Option (List Nat)} (ha : ∀ i, TagsLooser (pl.tagA i) (ta i))
    (hb : ∀ i, TagsLooser (pl.tagB i) (tb i)) :
    ∀ v ∈ ({ pl with tagA := ta, tagB := tb } : Plan).uses o, ∃ u ∈ pl.uses o, u.Looser v := by
  intro v hv
  unfold Plan.uses at hv ⊢
  simp only [List.mem_append] at hv ⊢
  rcases hv with ((hv | hv) | hv) | hv
  · obtain ⟨u, hu, hl⟩ := usesOf_looser ha v hv
    exact ⟨u, .inl (.inl (.inl hu)), hl⟩
  · obtain ⟨u, hu, hl⟩ := usesOf_looser hb v hv
    exact ⟨u, .inl (.inl (.inr hu)), hl⟩
  · split at hv
    · obtain ⟨u, hu, hl⟩ := usesOf_looser ha v hv
      exact ⟨u, .inl (.inr hu), hl⟩
    · obtain ⟨u, hu, hl⟩ := usesOf_looser ha v hv
      exact ⟨u, .inl (.inr hu), hl⟩
    · exact absurd hv List.not_mem_nil
  · exact ⟨v, .inr hv, Use.Looser.refl v⟩

/-- An instruction has the result of a shape also where it accepts more tags than the shape. -/
theorem LaneResult.of_looser {i : Instr} {o : Ops} {shape : Ctx → Plan} {ta tb : Nat → Option (List Nat)}
    (ha : ∀ c i, TagsLooser ((shape c).tagA i) (ta i)) (hb : ∀ c i, TagsLooser ((shape c).tagB i) (tb i))
    (h : LaneResult i o fun c => { shape c with tagA := ta, tagB := tb }) : LaneResult i o shape := by
  intro s c hc hu
  obtain ⟨hv, hs⟩ := h s c hc hu
  refine ⟨fun act hany hr => ?_, fun hany hr => ?_⟩
  · obtain ⟨v, h1, he⟩ := hv act hany ⟨hr.active, hr.any, Ctx.check_looser (Plan.uses_looser _ o (ha c) (hb c)) hr.passes⟩
    exact ⟨v, ⟨h1.rest, h1.keep, h1.low, h1.high, h1.off, h1.tag, h1.poison, h1.preds, h1.pred⟩, he⟩
  · obtain ⟨v, h1, he⟩ := hs hany ⟨hr.guarded, Ctx.check_looser (Plan.uses_looser _ o (ha c) (hb c)) hr.passes, hr.holds⟩
    exact ⟨v, ⟨h1.rest, h1.keep, h1.value, h1.full, h1.preds, h1.pred⟩, he⟩

/-- A source of PCVT may carry every tag that its own tag rule lists (R45, R168). -/
theorem cvtTag_looser (ty : Ty) (e8 : Bool) : TagsLooser (some [0, (cvtTag ty e8).toNat]) (if e8 then some [0, 16] else ty.tags) := by
  intro ts h
  refine ⟨_, rfl, ?_⟩
  cases e8 <;> cases ty <;> cases h <;> decide

/-! ### The obligations -/

/-- Settles O2: each is a shape of `Ctx.alu`. -/
theorem integerArithmeticResults : Obligations.IntegerArithmeticResults := by
  refine ⟨?_, ?_, ?_, ?_, ?_, ?_, ?_, ?_, ?_, ?_, ?_, ?_, ?_, ?_⟩ <;> intros <;> exact lane_result (fun _ => rfl) fun _ => rfl

/-- Settles O5: each is a shape of `Ctx.alu`, and the special functions are long-latency ones. -/
theorem floatingPointResults : Obligations.FloatingPointResults := by
  constructor
  · refine ⟨?_, ?_, ?_, ?_, ?_, ?_, ?_, ?_, ?_, ?_, ?_, ?_, ?_, ?_, ?_⟩ <;> intros <;> exact lane_result (fun _ => rfl) fun _ => rfl
  · refine ⟨?_, ?_, ?_, ?_, ?_, ?_, ?_, ?_⟩ <;> intros <;> exact long_result (fun _ => rfl) (fun _ => rfl) fun _ => rfl

/-- Settles O6: each is a shape of `Ctx.alu`; PCVT accepts more tags than its shape. -/
theorem packedResults : Obligations.PackedResults := by
  refine ⟨?_, ?_, ?_, ?_, ?_, fun o ty rnd sat sty pick de8 se8 => ?_, ?_⟩
  case refine_6 =>
    exact LaneResult.of_looser (ta := fun _ => if se8 then some [0, 16] else sty.tags) (tb := fun _ => if se8 then some [0, 16] else sty.tags)
      (fun _ _ => cvtTag_looser sty se8) (fun _ _ => cvtTag_looser sty se8) (lane_result (fun _ => rfl) fun _ => rfl)
  all_goals intros; exact lane_result (fun _ => rfl) fun _ => rfl

end Sys2Proof.Machine
end

section
/-!
Exchanges between threads and reductions (R174 to R179): each commits one result for each active thread.
-/
namespace Sys2Proof.Machine

/-! ### A chosen thread's value and poison -/

section
variable (c : Ctx) (o : Ops) (ty : Ty) (fill : Bool) (u : Int) (t : Nat)

theorem Ctx.chosen_val : (c.chosen o ty fill u t).out.val =
    if 0 ≤ u ∧ u < c.w.width then c.w.value c.f.exec o.a ty 0 u.toNat else if fill then 0 else c.w.value c.f.exec o.a ty 0 t := by
  unfold Ctx.chosen
  simp only [Bool.and_eq_true, decide_eq_true_eq]
  split
  · rfl
  · split <;> rfl

theorem Ctx.chosen_bad : badOf (c.chosen o ty fill u t).bad =
    if 0 ≤ u ∧ u < c.w.width then c.w.poisonAt o.a ty.is64 u.toNat else if fill then false else c.w.poisonAt o.a ty.is64 t := by
  unfold Ctx.chosen
  simp only [Bool.and_eq_true, decide_eq_true_eq]
  split
  · simp [badOf, Wave.bad]
  · split <;> simp [badOf, Wave.bad]

end

/-- A thread that a natural number names. -/
theorem nat_in_width {u w : Nat} : (0 ≤ (u : Int) ∧ (u : Int) < w) ↔ u < w := by omega

theorem badOf_cons (x : Bool × Origin) (l : List (Bool × Origin)) : badOf (x :: l) = (x.1 || badOf l) := rfl

/-- SHFL takes the thread that SRCB names. -/
def Ctx.named (c : Ctx) (o : Ops) (ty : Ty) (fill : Bool) (t : Nat) : CrossOut :=
  let x := c.chosen o ty fill (c.w.value c.f.exec o.b .b32 o.imm t % 2 ^ 32 : Nat) t
  { x with bad := c.w.bad o.b false t :: x.bad }

/-- Poison of every thread of a mask or of none. -/
theorem getLsbD_all_or_none {act : Mask} {k : Nat} (b : Bool) (h : act.getLsbD k = true) : (if b then act else 0).getLsbD k = b := by
  cases b
  · simp
  · exact h

/-- LSH takes the thread at its distance, or SRCB where that lies outside the wave. -/
def Ctx.shifted (c : Ctx) (o : Ops) (ty : Ty) (t : Nat) : CrossOut :=
  let u : Int := (t : Int) - o.imm.toInt
  if 0 ≤ u && u < c.w.width then c.chosen o ty true u t
  else { out := { val := c.w.value c.f.exec o.b ty 0 t }, bad := [c.w.bad o.b ty.is64 t] }

theorem Ctx.shifted_exc (c : Ctx) (o : Ops) (ty : Ty) (t : Nat) : (c.shifted o ty t).out.exc = [] := by
  unfold Ctx.shifted
  dsimp only
  split
  · exact Ctx.chosen_exc ..
  · rfl

theorem Ctx.shifted_val (c : Ctx) (o : Ops) (ty : Ty) (t : Nat) : (c.shifted o ty t).out.val =
    if 0 ≤ (t : Int) - o.imm.toInt ∧ (t : Int) - o.imm.toInt < c.w.width then c.w.value c.f.exec o.a ty 0 ((t : Int) - o.imm.toInt).toNat
    else c.w.value c.f.exec o.b ty 0 t := by
  unfold Ctx.shifted
  simp only [Bool.and_eq_true, decide_eq_true_eq]
  split
  · rename_i h; rw [Ctx.chosen_val, if_pos h]
  · rfl

theorem Ctx.shifted_bad (c : Ctx) (o : Ops) (ty : Ty) (t : Nat) : badOf (c.shifted o ty t).bad =
    if 0 ≤ (t : Int) - o.imm.toInt ∧ (t : Int) - o.imm.toInt < c.w.width then c.w.poisonAt o.a ty.is64 ((t : Int) - o.imm.toInt).toNat
    else c.w.poisonAt o.b ty.is64 t := by
  unfold Ctx.shifted
  simp only [Bool.and_eq_true, decide_eq_true_eq]
  split
  · rename_i h; rw [Ctx.chosen_bad, if_pos h]
  · simp [badOf, Wave.bad]

/-- An exchange whose threads raise nothing counts nothing. -/
theorem exchange_quiet {i : Instr} {o : Ops} {us : Ctx → List Use} {out64 : Bool} {tag : Ctx → Nat → BitVec 5} (f : Ctx → Mask → Nat → CrossOut)
    (he : ∀ s, exec i s = withCtx s fun c => c.vector o.guard (us c) fun act => c.cross o.dst act out64 (tag c) (f c act))
    (hx : ∀ c act t, (f c act t).out.exc = []) {val : Ctx → Mask → Nat → Nat} {bad : Ctx → Mask → Nat → Bool}
    (hv : ∀ c act k, act.getLsbD k = true → (f c act k).out.val = val c act k)
    (hb : ∀ c act k, act.getLsbD k = true → badOf (f c act k).bad = bad c act k) :
    CrossResult i o us out64 (fun c => tag c 0) val bad fun _ _ => [] :=
  cross_result_quiet (exchange_result f he hv hb) fun c act => lanes_tally_zero act _ (hx c act)

/-- The result of BCAST. -/
def Ctx.bcastResult (c : Ctx) (o : Ops) (ty : Ty) (act : Mask) : Result :=
  let u := c.w.value c.f.exec o.b .b32 o.imm 0 % 2 ^ 32 % c.w.width
  let x : CrossOut := { out := { val := c.w.value c.f.exec o.a ty 0 u }, bad := [c.w.bad o.a ty.is64 u, c.w.bad o.b false 0] }
  { outs := lanes act fun _ => x.out, poison := if badOf x.bad then act else 0, origin := originOfBad x.bad
    out64 := ty.is64, tagOut := c.tagOfA o, scalar := some (x.out.val, badOf x.bad) }

theorem bcastResult_quiet (c : Ctx) (o : Ops) (ty : Ty) (act : Mask) (s : State) (core slot uid : Nat) (pc : DWord) (w : BitVec 96) :
    s.countAll core slot uid ((c.bcastResult o ty act).evs.getD (tally ((c.bcastResult o ty act).outs.map (·.exc)))) pc w = s :=
  State.countAll_zero _ _ _ _ _ _ _ (lanes_tally_zero act (fun _ => { val := _ }) fun _ => rfl)

/-- Settles O8: the source thread and the fill of each exchange are those of a chosen thread. -/
theorem exchangeResults : Obligations.ExchangeResults := by
  refine ⟨fun o ty fill => ?_, fun o ty mode wrel fill => ?_, fun o ty => ?_, fun o ty => ⟨?_, ?_⟩⟩
  · refine exchange_quiet (fun c _ t => c.named o ty fill t) (fun _ => rfl) (fun c act t => Ctx.chosen_exc ..) (fun c act k _ => ?_) fun c act k _ => ?_
    · simp only [Ctx.named, Ctx.chosen_val, nat_in_width, Int.toNat_natCast]
    · simp only [Ctx.named, badOf_cons, Ctx.chosen_bad, nat_in_width, Int.toNat_natCast, Wave.bad]
  · refine exchange_quiet (fun c _ t => c.chosen o ty fill (shfliSource mode (shfliValue c.w.width wrel o.imm) t) t) (fun _ => rfl)
      (fun c act t => Ctx.chosen_exc ..) (fun c act k _ => ?_) fun c act k _ => ?_
    · simp only [Ctx.chosen_val, shfliValue]
    · simp only [Ctx.chosen_bad, shfliValue]
  · exact exchange_quiet (fun c _ t => c.shifted o ty t) (fun _ => rfl) (fun c _ t => c.shifted_exc o ty t)
      (fun c _ k _ => c.shifted_val o ty k) fun c _ k _ => c.shifted_bad o ty k
  · refine cross_result (fun c act => c.bcastResult o ty act) (fun _ => rfl) (fun _ _ => rfl) (fun _ _ => rfl) (fun _ _ => rfl) (fun _ _ => rfl)
      (fun c act k hk => ?_) (fun c act k hk => ?_) fun c act s core slot uid pc w => bcastResult_quiet c o ty act s core slot uid pc w
    · simp only [Ctx.bcastResult, lanes_getD _ hk]
    · refine (getLsbD_all_or_none _ hk).trans ?_
      simp [badOf, Wave.bad]
  · refine gather_result (fun c act => c.bcastResult o ty act) (fun _ => rfl) (fun _ _ => rfl) (fun _ _ => rfl) (fun c act => ?_)
      fun c act n s core slot uid pc w _ => bcastResult_quiet c o ty act s core slot uid pc w
    simp [Ctx.bcastResult, Wave.bad, badOf]

/-! ### Reductions -/

/-- The result of REDUCE. -/
def Ctx.reduceResult (c : Ctx) (o : Ops) (ty : Ty) (op : ROp) (act : Mask) : Result :=
  let x := (reduceTree c.w.width (CrossOut.combine op ty (c.mode .fpmode)) (c.leaves o op ty act)).headD {}
  let n := match o.dst with | .v _ => act.threads.length | .s _ => 1 | _ => 0
  { outs := lanes act fun _ => x.out, poison := if badOf x.bad then act else 0, origin := originOfBad x.bad
    tagOut := fun _ => ty.tag, scalar := some (x.out.val, badOf x.bad)
    evs := some ((allClasses.filter fun k => x.out.exc.contains k).map fun k => (k, n)) }

/-- Settles O9: REDSTEP and SCAN are exchanges of combinations; REDUCE commits one combination to every thread, or to a scalar. -/
theorem reductionResults : Obligations.ReductionResults := by
  refine ⟨fun o ty op j => ?_, fun o ty op => ⟨?_, ?_⟩, fun o ty op excl => ?_⟩
  · intro pair
    exact exchange_result (i := .redstep o ty op j) (o := o) (fun c _ t => (c.chosen o ty true t t).combine op ty (c.mode .fpmode)
      (c.chosen o ty true (t ^^^ (c.w.width >>> j.toNat) : Nat) t)) (fun _ => rfl) (fun _ _ _ _ => rfl) fun _ _ _ _ => rfl
  · rintro ⟨n, hd⟩
    refine cross_result (fun c act => c.reduceResult o ty op act) (fun _ => rfl) (fun _ _ => rfl) (fun _ _ => rfl) (fun _ _ => rfl)
      (fun _ _ => rfl) (fun c act k hk => ?_) (fun c act k hk => ?_) fun c act s core slot uid pc w => ?_
    · simp only [Ctx.reduceResult, lanes_getD _ hk]
    · exact getLsbD_all_or_none _ hk
    · simp only [Ctx.reduceResult, hd]
      rfl
  · refine gather_result (fun c act => c.reduceResult o ty op act) (fun _ => rfl) (fun _ _ => rfl) (fun _ _ => rfl) (fun c act => rfl)
      fun c act n s core slot uid pc w hd => ?_
    simp only [Ctx.reduceResult, hd]
    rfl
  · intro prefixes at_
    exact exchange_result (i := .scan o ty op excl) (o := o) (fun c act t =>
      let xs := scanTree c.w.width (CrossOut.combine op ty (c.mode .fpmode)) (c.leaves o op ty act)
      if excl then (if t = 0 then { out := { val := identityOf op ty } } else xs.getD (t - 1) {}) else xs.getD t {})
      (fun _ => rfl) (fun _ _ _ _ => rfl) fun _ _ _ _ => rfl

end Sys2Proof.Machine
end

section
/-!
PROOF. Where the fragments of a wave stand: moving past a word, jumping, splitting, branching and leaving.
-/
namespace Sys2Proof.Machine

/-! ### A wave without reconvergence entries and overflow fragments settles as it stands -/

theorem Wave.arrive_of_stack_nil {w : Wave} (h : w.stack = []) (f : Fragment) : w.arrive f = f := by
  simp [Wave.arrive, Wave.ownAddr, h]

theorem Wave.mapFragments_id {w : Wave} {g : Fragment → Fragment} (h : ∀ f, g f = f) : w.mapFragments g = w := by
  have hg : g = id := funext h
  simp [Wave.mapFragments, hg]

theorem Wave.reconverge_of_stack_nil {w : Wave} (h : w.stack = []) (n k : Nat) : Wave.reconverge n k w = w := by
  have hm : w.mapFragments w.arrive = w := Wave.mapFragments_id (Wave.arrive_of_stack_nil h)
  cases k with
  | zero => exact hm
  | succ k => simp [Wave.reconverge, hm, h]

theorem Wave.mergeOvf_of_ovf_nil {w : Wave} (h : w.ovf = []) : w.mergeOvf = w := by
  simp [Wave.mergeOvf, h]

theorem Wave.servable_of_ovf_nil {w : Wave} (h : w.ovf = []) : w.servable = none := by
  simp [Wave.servable, h]

theorem Wave.serve_of_ovf_nil {w : Wave} (h : w.ovf = []) (n k : Nat) : Wave.serve n k w = w := by
  cases k with
  | zero => rfl
  | succ k => simp [Wave.serve, Wave.servable_of_ovf_nil h]

theorem Wave.yieldEntries_of_ovf_nil {w : Wave} (h : w.ovf = []) (old : Wave) (n : Nat) : w.yieldEntries old n = w := by
  have hs := Wave.servable_of_ovf_nil h
  unfold Wave.yieldEntries
  generalize List.range 8 = l
  induction l with
  | nil => rfl
  | cons i l ih => simpa [hs] using ih

/-- With an empty overflow slot after reconvergence, settling does no more than reconvergence: it only ends the turn and empties the
buffer besides. -/
theorem Wave.settle_of_ovf_nil {w : Wave} (n : Nat) (h : (Wave.reconverge n 9 w).ovf = []) :
    w.settle n = { Wave.reconverge n 9 w with
      ended := (Wave.reconverge n 9 w).ended || Wave.curLeft w (Wave.reconverge n 9 w)
      ibuf := if Wave.curChanged w (Wave.reconverge n 9 w) then [] else (Wave.reconverge n 9 w).ibuf } := by
  unfold Wave.settle
  simp only [Wave.mergeOvf_of_ovf_nil h, Wave.serve_of_ovf_nil h, Wave.yieldEntries_of_ovf_nil h]

theorem Wave.settle_plain {w : Wave} {f : Fragment} (n : Nat) (hs : w.stack = []) (ho : w.ovf = []) (hf : w.frag? w.cur = some f)
    (hw : f.waiting = false) : w.settle n = w := by
  have hr := Wave.reconverge_of_stack_nil hs n 9
  rw [Wave.settle_of_ovf_nil n (by rw [hr, ho]), hr]
  have hl : Wave.curLeft w w = false := by simp [Wave.curLeft, hf, hw]
  have hc : Wave.curChanged w w = false := by simp [Wave.curChanged]
  simp [hl, hc]

theorem Wave.frag?_setFrag_same {w : Wave} {i : Nat} (h : i < w.entries.length) (f : Option Fragment) : (w.setFrag i f).frag? i = f := by
  simp [Wave.setFrag, Wave.frag?, h]

theorem Wave.frag?_setFrag_ne {w : Wave} {i j : Nat} (h : j ≠ i) (f : Option Fragment) : (w.setFrag i f).frag? j = w.frag? j := by
  simp [Wave.setFrag, Wave.frag?, List.getElem?_set_ne h.symm]

/-- A wave whose issuing fragment goes on without waiting, where nothing can be fused or served. -/
theorem Wave.settle_modCur_plain {w : Wave} {f : Fragment} (n : Nat) {g : Fragment → Fragment} (hf : w.frag? w.cur = some f)
    (hs : w.stack = []) (ho : w.ovf = []) (hg : (g f).waiting = false) : (w.modCur g).settle n = w.setFrag w.cur (some (g f)) := by
  have hm : w.modCur g = w.setFrag w.cur (some (g f)) := by simp [Wave.modCur, hf]
  rw [hm]
  exact Wave.settle_plain n hs ho (Wave.frag?_setFrag_same (Wave.frag?_mem hf).1 _) hg

theorem Fragment.advance_waiting (f : Fragment) : f.advance.waiting = f.waiting := by
  unfold Fragment.advance
  split
  · split <;> rfl
  · rfl

theorem Fragment.advance_cases (f : Fragment) : f.advance = match f.rep with
    | none => { f with pc := f.pc + 12 }
    | some r => if r.idx + 1 < r.count then { f with rep := some { r with idx := r.idx + 1 } } else { f with rep := none, pc := f.pc + 12 } := by
  unfold Fragment.advance
  cases f.rep <;> rfl

/-- Settles O11: with no reconvergence entry and no overflow fragment, settling a wave is the identity; in general it only moves
fragments. -/
theorem theFragmentMovesOn : Obligations.TheFragmentMovesOn := by
  refine ⟨?_, ?_, ?_⟩
  · intro s core slot w f hw hf hs ho hwait
    refine ⟨f.advance, ?_, f.advance_cases⟩
    rw [State.nextWord_eq hw hf, Wave.settle_modCur_plain _ hf hs ho (by rw [Fragment.advance_waiting, hwait])]
    rfl
  · intro c w f target hf hs ho hwait
    unfold Ctx.goTo Ctx.put
    rw [State.settle_eq (State.wave?_setWave_same _ _ _ _) (Wave.modCur_ne _ hf), Wave.settle_modCur_plain _ hf hs ho (by exact hwait)]
    simp
    rfl
  · intro s core slot w f hw hf
    obtain ⟨v, hv, hn⟩ := State.nextWord_wave hw hf
    exact ⟨v, hn, hv⟩

/-! ### Branches, calls, returns and EXIT -/

theorem bra_result (o : Ops) (s : State) (c : Ctx) (hc : s.ctx? = some c) (hg : o.guard ≠ Guard.never)
    (hk : c.check c.f.exec c.f.exec o.guard [] = none) : exec (.bra o) s = .next (
      if c.f.exec &&& c.w.guardBits o.guard = 0 then c.next c.s
      else if c.f.exec &&& c.w.guardBits o.guard = c.f.exec then c.goTo c.w (c.target o.imm)
      else c.split (c.f.exec &&& c.w.guardBits o.guard) (c.target o.imm)) := by
  show execBra o s = _
  unfold execBra
  rw [withCtx_eq hc, if_neg hg, hk]

theorem exit_result (o : Ops) (s : State) (c : Ctx) (hc : s.ctx? = some c) (hg : o.guard ≠ Guard.never) :
    exec (.exit o) s = .next (if o.guard = Guard.always || c.f.exec = 0 then c.retire
      else match c.check c.f.exec c.f.exec o.guard [] with
        | some st => c.stop st
        | none => if c.f.live &&& ~~~(c.f.exec &&& c.w.guardBits o.guard) = 0 then c.retire
          else c.done (c.w.modCur fun f => { f with
            live := c.f.live &&& ~~~(c.f.exec &&& c.w.guardBits o.guard), exec := f.exec &&& ~~~(c.f.exec &&& c.w.guardBits o.guard)
            resv := f.resv.filter fun r => (c.f.live &&& ~~~(c.f.exec &&& c.w.guardBits o.guard)).getLsbD r.thread })) := by
  show execExit o s = _
  unfold execExit
  rw [withCtx_eq hc, if_neg hg] <;> rfl

/-- Settles O12: each clause is one branch of the instruction's meaning. -/
theorem branchAndExitResults : Obligations.BranchAndExitResults := by
  refine ⟨?bra, ⟨?bru, ?brx, ?call, ?ret, ?retNest⟩, ?exitWhole, ?exitSome⟩
  case bra =>
    intro o s c hc hg hk taken target
    rw [bra_result o s c hc hg hk]
    refine ⟨fun h0 => ?_, fun h0 h1 => ?_, fun h0 h1 => ?_⟩
    · rw [if_pos h0, (State.ctx_some hc).2.1]
    · rw [if_neg h0, if_pos h1]; rfl
    · rw [if_neg h0, if_neg h1]; rfl
  case bru =>
    intro o cond
    exact doesOnce_of _ (fun _ => rfl) fun c _ => by cases cond <;> rfl
  case brx => exact fun o => doesOnce_of _ (fun _ => rfl) fun c _ => rfl
  case call => exact fun o ind => doesOnce_of _ (fun _ => rfl) fun c _ => rfl
  case ret =>
    intro o
    refine doesOnce_of _ (fun _ => rfl) fun c h => ?_
    rcases h with h | h
    · simp [h]
    · split
      · rename_i _ _ _ h2; exact absurd h2 h
      · rfl
  case retNest =>
    intro o held ha
    refine doesOnce_of _ (fun _ => rfl) fun c h => ?_
    generalize c.w.scalar o.a = target
    rw [h, ha]
    show c.leaveNest held target = _
    obtain ⟨rep, level⟩ := held
    cases rep with
    | none => rfl
    | some r =>
      by_cases hr : target = r.addr
      · rw [hr]; rfl
      · exact (if_neg hr).trans (if_neg hr).symm
  case exitWhole =>
    intro o s c hc hg hn
    rw [exit_result o s c hc hn, if_pos (by simpa using hg)]
  case exitSome =>
    intro o s c hc hg hn he hk gone
    rw [exit_result o s c hc hn, if_neg (by simpa [hg] using he), hk]
    refine ⟨fun h => ?_, fun h => ?_⟩
    · exact congrArg _ (if_pos h)
    · exact congrArg _ (if_neg h)

/-! ### Splitting -/

theorem State.modWave_eq {s : State} {core slot : Nat} {w : Wave} (h : s.wave? core slot = some w) (g : Wave → Wave) :
    s.modWave core slot g = s.setWave core slot (g w) := by
  unfold State.modWave
  rw [h]

theorem State.wave?_modWave {s : State} {core slot : Nat} {w : Wave} (h : s.wave? core slot = some w) (g : Wave → Wave) :
    (s.modWave core slot g).wave? core slot = some (g w) := by
  rw [State.modWave_eq h]
  exact State.wave?_setWave_same _ _ _ _

/-- What `abortOps` takes back leaves the wave its fragments, its stack and its overflow slot. -/
theorem State.wave?_abortOps {s : State} {core slot : Nat} {w : Wave} (h : s.wave? core slot = some w) (ids : List Nat) :
    ∃ q, (s.abortOps core slot ids).wave? core slot = some { w with qout := q } := by
  unfold State.abortOps
  dsimp only
  split
  · exact ⟨w.qout, h⟩
  · have hk : ∀ x : Core, x.waves = (s.core core).waves → (s.setCore core x).wave? core slot = some w := by
      intro x hx
      rw [← h]
      simp [State.wave?, hx]
    refine ⟨_, State.wave?_modWave ?_ _⟩
    exact hk _ rfl

theorem Wave.arrive_side {w : Wave} {f : Fragment} {live exec : Mask} {pc : DWord} {age : Nat} (hw : f.waiting = false) :
    (w.arrive (f.side live exec pc w.stack.length age)).waiting = decide (w.stack.head? = some pc) := by
  unfold Wave.arrive Wave.ownAddr Fragment.side
  cases hs : w.stack with
  | nil => simp [hw]
  | cons x xs =>
    by_cases hx : x = pc
    · simp [hw, hx]
    · simp [hw, hx]

/-- Arriving marks a fragment as waiting, and changes neither its threads nor its place. -/
theorem Wave.arrive_keeps (w : Wave) (f : Fragment) : (w.arrive f).live = f.live ∧ (w.arrive f).exec = f.exec ∧
    (w.arrive f).pc = f.pc ∧ (w.arrive f).depth = f.depth := by
  unfold Wave.arrive
  split <;> exact ⟨rfl, rfl, rfl, rfl⟩

theorem Wave.frag?_mapFragments (w : Wave) (g : Fragment → Fragment) (i : Nat) : (w.mapFragments g).frag? i = (w.frag? i).map g := by
  unfold Wave.frag? Wave.mapFragments
  cases h : w.entries[i]? <;> simp [h]

/-- Reconvergence does no more than mark arrivals where a sibling under the top of the stack does not wait. -/
theorem Wave.reconverge_of_sibling {w : Wave} {f : Fragment} {i : Nat} (n k : Nat) (hf : w.frag? i = some f)
    (hd : (w.arrive f).depth = w.stack.length) (hw : (w.arrive f).waiting = false) :
    Wave.reconverge n k w = w.mapFragments w.arrive := by
  cases k with
  | zero => rfl
  | succ k =>
    have hm : w.arrive f ∈ (w.mapFragments w.arrive).siblings w.stack.length := by
      have h1 : (w.mapFragments w.arrive).frag? i = some (w.arrive f) := by rw [Wave.frag?_mapFragments, hf]; rfl
      have h2 := (Wave.frag?_mem h1).2
      simp only [Wave.siblings, Wave.frags, List.mem_filter, List.mem_append, List.mem_filterMap]
      exact ⟨.inl ⟨_, h2, rfl⟩, by simpa using hd⟩
    have hall : (((w.mapFragments w.arrive).siblings w.stack.length).all fun f => f.waiting) = false :=
      List.all_eq_false.2 ⟨_, hm, by simp [hw]⟩
    unfold Wave.reconverge
    dsimp only
    split
    · rfl
    · have hs : (w.mapFragments w.arrive).stack = w.stack := rfl
      rw [hs, hall]
      rfl

/-- Settles O13: the two sides stand in their entries, and reconvergence marks the one that stands at the top's address. -/
theorem splitMakesSiblings : Obligations.SplitMakesSiblings := by
  intro c taken target i hw hf hwait hovf hboth hi
  have hcur : c.w.cur < c.w.entries.length := (Wave.frag?_mem hf).1
  let one := c.f.side taken taken target c.w.stack.length c.f.age
  let two : Fragment := { c.f.side (c.f.live &&& ~~~taken) (c.f.exec &&& ~~~taken) (c.f.pc + 12) c.w.stack.length c.s.uid with turn := 0 }
  let w0 := c.w.setFrag c.w.cur (some one)
  have hother : (c.w.setFrag c.w.cur (some c.f)).frag? i = none := by simpa using List.find?_some hi
  have hne : i ≠ c.w.cur := by
    rintro rfl
    rw [Wave.frag?_setFrag_same hcur] at hother
    cases hother
  have hilt : i < c.w.entries.length := by simpa using List.mem_of_find?_eq_some hi
  have hfree : w0.freeEntry = some i := by
    have : ∀ k, (w0.frag? k).isNone = ((c.w.setFrag c.w.cur (some c.f)).frag? k).isNone := by
      intro k
      by_cases hk : k = c.w.cur
      · subst hk; simp only [w0, Wave.frag?_setFrag_same hcur, Option.isNone_some]
      · simp only [w0, Wave.frag?_setFrag_ne hk]
    unfold Wave.freeEntry
    simp only [this]
    simpa [w0, Wave.setFrag] using hi
  let w1 := w0.setFrag i (some two)
  have hplace : w0.place two = w1 := by unfold Wave.place; rw [hfree]
  obtain ⟨q, hq⟩ := State.wave?_abortOps (s := c.s.fresh.setWave c.core c.slot w1) (State.wave?_setWave_same _ _ _ _)
    ((c.w.frags.flatMap Fragment.stalledAt).filter fun id => !(w1.frags.flatMap Fragment.stalledAt).contains id)
  let w2 : Wave := { w1 with qout := q }
  have hone : w2.frag? c.w.cur = some one := by
    show w1.frag? _ = _
    rw [Wave.frag?_setFrag_ne hne.symm, Wave.frag?_setFrag_same hcur]
  have htwo : w2.frag? i = some two := Wave.frag?_setFrag_same (by simpa [w0, Wave.setFrag] using hilt) _
  have hone_waits : (w2.arrive one).waiting = decide (c.w.stack.head? = some target) := Wave.arrive_side (w := w2) hwait
  have htwo_waits : (w2.arrive two).waiting = decide (c.w.stack.head? = some (c.f.pc + 12)) :=
    Wave.arrive_side (w := w2) (f := { c.f with turn := 0 }) (live := c.f.live &&& ~~~taken) (exec := c.f.exec &&& ~~~taken)
      (pc := c.f.pc + 12) (age := c.s.uid) hwait
  obtain ⟨h1l, h1e, h1p, h1d⟩ := w2.arrive_keeps one
  obtain ⟨h2l, h2e, h2p, h2d⟩ := w2.arrive_keeps two
  have hrec : ∀ n, Wave.reconverge n 9 w2 = w2.mapFragments w2.arrive := by
    intro n
    by_cases ht : c.w.stack.head? = some target
    · exact Wave.reconverge_of_sibling n 9 htwo h2d (by rw [htwo_waits]; exact decide_eq_false fun h => hboth ⟨ht, h⟩)
    · exact Wave.reconverge_of_sibling n 9 hone h1d (by rw [hone_waits]; exact decide_eq_false ht)
  have hframe : ∀ n, ∃ e b, w2.settle n = { w2.mapFragments w2.arrive with ended := e, ibuf := b } := by
    intro n
    rw [Wave.settle_of_ovf_nil n (by rw [hrec]; simp [Wave.mapFragments, w2, w1, w0, Wave.setFrag, hovf]), hrec]
    exact ⟨_, _, rfl⟩
  have hfrags : w2.frags ≠ [] := by
    rw [Wave.frags_ne_nil_iff]
    exact .inl ⟨_, (Wave.frag?_mem hone).2⟩
  have hsplit : c.split taken target = ((c.s.fresh.setWave c.core c.slot w1).abortOps c.core c.slot
      ((c.w.frags.flatMap Fragment.stalledAt).filter fun id => !(w1.frags.flatMap Fragment.stalledAt).contains id)).settle c.core c.slot := by
    rw [← hplace]; rfl
  rw [hsplit, State.settle_eq hq hfrags, State.wave?_setWave_same]
  obtain ⟨e, b, hs⟩ := hframe ((c.s.fresh.setWave c.core c.slot w1).abortOps c.core c.slot
      ((c.w.frags.flatMap Fragment.stalledAt).filter fun id => !(w1.frags.flatMap Fragment.stalledAt).contains id)).uid
  refine ⟨_, w2.arrive one, w2.arrive two, congrArg some hs, ?_, ?_, rfl, h1l, h1e, h1p, h1d, ?_, h2l, h2e, h2p, h2d, ?_⟩
  · show (w2.mapFragments w2.arrive).frag? c.w.cur = _
    rw [Wave.frag?_mapFragments, hone]; rfl
  · show (w2.mapFragments w2.arrive).frag? i = _
    rw [Wave.frag?_mapFragments, htwo]; rfl
  · rw [hone_waits, decide_eq_true_iff]
  · rw [htwo_waits, decide_eq_true_iff]

end Sys2Proof.Machine
end

section
/-!
PROOF. Predicates and the execute mask, sequencing, register blocks, status registers, and the traps that software takes.
-/
namespace Sys2Proof.Machine

/-! ### Logic over predicates, and exec -/

theorem Ctx.uniformOn_runs {c : Ctx} {g : Guard} {us : List Use} {act : Mask} (hg : g ≠ Guard.never)
    (hk : c.check act c.guardScope g us = none) (hr : c.uniformRuns g = true) (k : State) : c.uniformOn g act us k = k := by
  unfold Ctx.uniformOn
  rw [if_neg hg, hk, hr]
  rfl

/-- An instruction that reads predicates in the live threads does what its meaning does when it runs. -/
theorem exec_runsLive {i : Instr} {g : Guard} {us : List Use} {s : State} {c : Ctx} (k : Ctx → State)
    (he : exec i s = withCtx s fun c => c.uniformOn g c.f.live us (k c)) (hc : s.ctx? = some c) (hr : c.RunsLive g us) :
    exec i s = .next (k c) := by
  rw [he, withCtx_eq hc, Ctx.uniformOn_runs hr.guarded hr.passes hr.holds]

theorem Ctx.logic_pred (c : Ctx) {o : Ops} (h : o.dst.isP = true) (ty : Ty) (f : Nat → Nat → Nat) (g : Mask → Mask → Mask) :
    c.logic o ty f g = c.predOp o g := by
  unfold Ctx.logic
  rw [if_pos h]

/-- MOV to a predicate from another operand than exec or a vector register is a predicate operation. -/
theorem execMov_pred {o : Ops} (h : o.dst.isP = true) (hx : o.a ≠ .exec) (hv : o.a.isV = false) (ty : Ty) (s : State) :
    execMov o ty s = withCtx s fun c => c.predOp o fun a _ => a := by
  unfold execMov
  congr 1
  funext c
  cases hd : o.dst <;> simp [hd, Opnd.isP] at h
  cases ha : o.a <;> simp [ha, Opnd.isV] at hx hv ⊢

/-- Settles O4: the predicate forms are one shared operation; the instructions on exec write it within the live threads. -/
theorem predicateAndExecResults : Obligations.PredicateAndExecResults := by
  refine ⟨?_, ?_⟩
  · intro does
    refine ⟨fun o ty h => ?_, fun o ty h => ?_, fun o ty h => ?_, fun o ty h => ?_, fun o ty h => ?_, fun o ty h hx hv => ?_⟩
    case' refine_6 => refine doesOnce_of _ (fun s => (execMov_pred h hx hv ty s).trans rfl) fun c _ => rfl
    all_goals exact doesOnce_of _ (fun s => congrArg (withCtx s) (funext fun c => c.logic_pred h ty _ _)) fun c _ => rfl
  · refine ⟨fun o ty n hd ha => ?_, fun o ty s c hd hc hr => ?_, fun o n m s c hd ha hc hr => ?_, fun o m s c ha hc hr => ?_⟩
    · refine doesOnce_of (fun c => c.done (c.w.setP n.toNat ((c.w.p n.toNat).write c.w.all c.f.exec 0 .fault))) (fun s => ?_) fun c _ => rfl
      show execMov o ty s = _
      unfold execMov Ctx.movFromExec
      rw [hd, ha]
      rfl
    · refine exec_runsLive (fun c => c.done (c.w.modCur fun f => { f with exec := c.w.predBits o o.a &&& f.live })) ?_ hc hr
      show execMov o ty s = _
      unfold execMov
      rw [hd]
      rfl
    · refine (exec_runsLive _ rfl hc hr).trans ?_
      rw [hd, ha]
      rfl
    · refine (exec_runsLive _ rfl hc hr).trans ?_
      rw [ha]
      rfl

/-! ### Sequencing and register blocks -/

/-- RREL finds no empty register among the blocks that it returns. -/
theorem Wave.none_empty_above {w : Wave} {low : Nat} (h : w.vregs.all (fun e => decide (e.1 < low) || e.2.full) = true) :
    w.vregs.filter (fun e => low ≤ e.1 && !e.2.full) = [] := by
  rw [List.filter_eq_nil_iff]
  intro e he
  have := List.all_eq_true.1 h e he
  simp only [Bool.or_eq_true, decide_eq_true_eq] at this
  rcases this with h1 | h1
  · simp; omega
  · simp [h1]

/-- Settles O15: each clause is one branch of the instruction's meaning. -/
theorem sequencingAndBlockResults : Obligations.SequencingAndBlockResults := by
  refine ⟨⟨?rep, ?yield, ?nop, ?waitr⟩, ?racqInto, ?racq, ?racqParks, ?rrel, ?rqry⟩
  case rep =>
    intro o d a b n s c word hc hg hw hfit
    show execRep o d a b n s = _
    unfold execRep
    rw [withCtx_eq hc]
    simp only [hw, hg, hfit, decide_true, Bool.and_self, if_true]
    rfl
  case yield => exact fun o => doesOnce_of _ (fun _ => rfl) fun c _ => rfl
  case nop => exact fun o => doesOnce_of _ (fun _ => rfl) fun c _ => rfl
  case waitr =>
    intro o n s c hc hg hk
    show execWaitr o n s = _
    unfold execWaitr
    rw [withCtx_eq hc, if_neg hg, hk, (State.ctx_some hc).2.1]
  case racqInto =>
    intro o n p hd
    refine doesOnce_of _ (fun _ => rfl) fun c h => ?_
    rw [if_neg (by omega), hd]
  case racq =>
    intro o n hd
    refine doesOnce_of _ (fun _ => rfl) fun c ⟨h, hfit, hfirst⟩ => ?_
    rw [if_neg (by omega), hd]
    exact if_pos (by simp [hfit, hfirst])
  case racqParks =>
    intro o n hd
    refine doesOnce_of _ (fun _ => rfl) fun c ⟨h, hfit⟩ => ?_
    rw [if_neg (by omega), hd]
    exact if_neg (by simp [hfit])
  case rrel =>
    intro o n
    refine doesOnce_of _ (fun _ => rfl) fun c ⟨h, hfull⟩ => ?_
    rw [if_neg (by omega), Wave.none_empty_above hfull]
    rfl
  case rqry => exact fun o => doesOnce_of _ (fun _ => rfl) fun c _ => rfl

/-! ### Status registers -/

theorem execRdsr_scalar {o : Ops} (h : o.dst.isV = false) (num : BitVec 8) (s : State) :
    execRdsr o num s = withCtx s fun c => c.uniform o.guard (scalarDst o) (c.done (c.w.putDst o.dst (c.readSr num.toNat c.uniThread))) := by
  unfold execRdsr
  cases hd : o.dst <;> simp [hd, Opnd.isV] at h ⊢

/-- Settles O16: each clause is one branch of the instruction's meaning. -/
theorem statusRegisterResults : Obligations.StatusRegisterResults := by
  refine ⟨?rdsr, ?rdsrV, ?fpmode, ?xk, ?threshold, ?xcnt, ?cycle⟩
  case rdsr =>
    exact fun o num h => doesOnce_of _ (fun s => execRdsr_scalar h num s) fun c _ => rfl
  case rdsrV =>
    intro o num n hd
    refine doesIn_of (fun c act => c.done (c.w.setV n.toNat ((c.w.v n.toNat).write act (fun t => (c.readSr num.toNat t).setWidth 32) 0 .fault 2)))
      (fun s => ?_) fun c act _ => rfl
    show execRdsr o num s = _
    unfold execRdsr
    rw [hd]
  case fpmode => exact fun o => doesOnce_of _ (fun _ => rfl) fun c _ => rfl
  case xk => exact fun o => doesOnce_of _ (fun _ => rfl) fun c _ => rfl
  case threshold =>
    intro o num h1 h2
    refine doesOnce_of _ (fun _ => rfl) fun c _ => ?_
    unfold Ctx.writeSr
    rw [if_neg (by omega), if_neg (by omega)]
  case xcnt => exact fun o cls => doesOnce_of _ (fun _ => rfl) fun c _ => rfl
  case cycle => exact fun o => doesOnce_of _ (fun _ => rfl) fun c _ => rfl

/-! ### Traps that kill -/

@[simp] theorem State.dropWalks_parts (s : State) (core req : Nat) : (s.dropWalks core req).parts = s.parts := by
  unfold State.dropWalks
  dsimp only
  split <;> rfl

@[simp] theorem State.dropWalks_dev (s : State) (core req : Nat) : (s.dropWalks core req).dev = s.dev := by
  unfold State.dropWalks
  dsimp only
  split <;> rfl

@[simp] theorem State.dropWalks_mem (s : State) (core req : Nat) : (s.dropWalks core req).mem = s.mem := by
  unfold State.dropWalks
  dsimp only
  split <;> rfl

@[simp] theorem State.dropWalks_part (s : State) (core req p : Nat) : (s.dropWalks core req).part p = s.part p := by
  simp [State.part]

@[simp] theorem State.dropWalks_core (s : State) (core req k : Nat) : (s.dropWalks core req).core k = s.core k := by
  simp [State.core]

@[simp] theorem State.dropWalks_wave? (s : State) (core req k slot : Nat) : (s.dropWalks core req).wave? k slot = s.wave? k slot := by
  simp [State.wave?]

/-- Where R347 kills, the wave is gone from its slot. -/
theorem Ctx.trapAt_kills (c : Ctx) (t : Trap) (iaddr : DWord) (word : BitVec 96)
    (h : (t.cause = 5 ∧ t.origin = .data) ∨ Config.mainCores ≤ c.core ∨
      (¬(t.cause = 13 ∧ c.s.debugs c.w.part = true) ∧ (c.f.level = .supervisor ∨ bitOf c.part.tvec.toNat 0 = false))) :
    (c.trapAt t iaddr word).wave? c.core c.slot = none := by
  unfold Ctx.trapAt
  dsimp only
  split
  · exact State.wave?_killWave _ _ _ _
  next hdata =>
    split
    · exact State.wave?_killWave _ _ _ _
    next hmain =>
      obtain h | h | ⟨hdebug, hlevel⟩ := h
      · exact absurd h (by simpa using hdata)
      · exact absurd h hmain
      · rw [if_neg (by simpa using hdebug)]
        split
        · exact State.wave?_killWave _ _ _ _
        next huser =>
          rcases hlevel with hlevel | hvec
          · simp [Ctx.user, hlevel] at huser
          · rw [if_neg (by simp [hvec])]
            exact State.wave?_killWave _ _ _ _

/-- Settles O17: software traps are the traps of their codes, and the four conditions of R347 kill. -/
theorem softwareTrapsAndKills : Obligations.SoftwareTrapsAndKills := by
  refine ⟨⟨fun o code => ?_, fun o code => ?_, fun o code => ?_⟩, fun c t _ h => ?_⟩
  · exact doesOnce_of _ (fun _ => rfl) fun c _ => rfl
  · exact doesOnce_of _ (fun _ => rfl) fun c _ => rfl
  · exact doesOnce_of _ (fun _ => rfl) fun c _ => rfl
  · refine Ctx.trapAt_kills { c with s := c.s.dropWalks c.core c.w.uid } t c.f.pc c.w.word ?_
    simpa [Ctx.part, State.debugs] using h

end Sys2Proof.Machine
end

section
/-!
PROOF. Little-endian bytes, bytes of a scratchpad, and the frame of a trap: entry to the handler and the return from it.
-/
namespace Sys2Proof

/-! ### Little-endian bytes -/

@[simp] theorem leBytes_length (n x : Nat) : (leBytes n x).length = n := by
  induction n generalizing x with
  | zero => rfl
  | succ n ih => simp [leBytes, ih]

@[simp] theorem leNat_nil : leNat [] = 0 := rfl

theorem leNat_leBytes (n x : Nat) : leNat (leBytes n x) = x % 2 ^ (8 * n) := by
  induction n generalizing x with
  | zero => simp [leBytes, Nat.mod_one]
  | succ n ih =>
    have h : leNat (leBytes (n + 1) x) = x % 2 ^ 8 + 2 ^ 8 * leNat (leBytes n (x / 2 ^ 8)) := by
      simp [leBytes, leNat]
    have hp : 2 ^ (8 * (n + 1)) = 2 ^ 8 * 2 ^ (8 * n) := by rw [← pow_add]; congr 1; omega
    rw [h, ih, hp, Nat.mod_mul]

/-- The bytes of fields laid side by side, each a width and a value. -/
def fieldBytes (l : List (Nat × Nat)) : List Byte := l.flatMap fun x => leBytes x.1 x.2

@[simp] theorem fieldBytes_length (l : List (Nat × Nat)) : (fieldBytes l).length = (l.map Prod.fst).sum := by
  simp [fieldBytes, List.length_flatMap]

/-- A field among others is read at its place, within its width. -/
theorem leNat_field (l : List (Nat × Nat)) (k i n x : Nat) (hk : l[k]? = some (n, x)) (hi : ((l.take k).map Prod.fst).sum = i) :
    leNat (((fieldBytes l).drop i).take n) = x % 2 ^ (8 * n) := by
  obtain ⟨hlt, hx⟩ := List.getElem?_eq_some_iff.1 hk
  have hl : l = l.take k ++ (n, x) :: l.drop (k + 1) := by rw [← hx]; simp
  have hb : fieldBytes l = fieldBytes (l.take k) ++ (leBytes n x ++ fieldBytes (l.drop (k + 1))) := by
    conv_lhs => rw [hl]
    simp [fieldBytes]
  rw [hb, ← hi, ← fieldBytes_length, List.drop_left, ← leNat_leBytes]
  congr 1
  exact List.take_left' (by simp)

namespace Machine

/-! ### Bytes written into a scratchpad -/

/-- A table into which whole bytes are written from an address on. -/
theorem get_foldl_wholeBytes (off : Nat) (bs : List Byte) (n : Nat) (m : Tab Byte) (i : Nat) :
    (((bs.map fun b => (b, (0xFF : Byte))).zipIdx n).foldl (fun (m : Tab Byte) x =>
      m.put (off + x.2) ((m.get 0 (off + x.2) &&& ~~~x.1.2) ||| (x.1.1 &&& x.1.2))) m).get 0 (off + i) =
      if n ≤ i ∧ i < n + bs.length then bs.getD (i - n) 0 else m.get 0 (off + i) := by
  induction bs generalizing n m with
  | nil => rw [if_neg (by simp)]; rfl
  | cons b bs ih =>
    have hff : ∀ x y : Byte, (x &&& ~~~0xFF) ||| (y &&& 0xFF) = y := by
      intro x y
      rw [show (0xFF : Byte) = BitVec.allOnes 8 from rfl, BitVec.not_allOnes, BitVec.and_zero, BitVec.zero_or, BitVec.and_allOnes]
    rw [List.map_cons, List.zipIdx_cons, List.foldl_cons, ih]
    dsimp only
    rw [hff]
    by_cases hi : i = n
    · subst hi
      rw [if_neg (by omega), Tab.get_put_same, if_pos ⟨le_refl _, by simp⟩]
      simp
    · rw [Tab.get_put_ne _ _ _ (by omega)]
      by_cases h : n + 1 ≤ i ∧ i < n + 1 + bs.length
      · rw [if_pos h, if_pos (by simp; omega)]
        obtain ⟨k, rfl⟩ : ∃ k, i = n + (k + 1) := ⟨i - n - 1, by omega⟩
        simp [show n + (k + 1) - (n + 1) = k by omega]
      · rw [if_neg h, if_neg (by simp; omega)]

/-- A byte written whole into a scratchpad is read there. -/
theorem State.spPut_scratch (s : State) (core off : Nat) (bs : List Byte) {i : Nat} (h : i < bs.length) :
    ((s.spPut core off bs).core core).scratch.get 0 (off + i) = bs.getD i 0 := by
  unfold State.spPut
  rw [State.core_setCore_same]
  exact (get_foldl_wholeBytes off bs 0 _ i).trans (if_pos ⟨Nat.zero_le _, by omega⟩)

/-! ### The fields of a frame -/

/-- The fields of a frame in the order of their places. -/
def frameFields (resume : DWord) (t : Trap) (idx : Nat) (repV : Bool) (iaddr : DWord) (word : BitVec 96) (handle : Nat)
    (exec : Mask) (a b c d : DWord) : List (Nat × Nat) :=
  [(8, resume.toNat), (1, t.cause), (1, t.detail), (2, t.code), (1, idx % 64 + 64 * repV.toNat), (1, t.thread % 128), (2, t.oper % 1024),
    (8, iaddr.toNat), (12, word.toNat), (4, 0), (8, t.addr.toNat), (4, handle), (4, 0), (16, exec.toNat), (8, a.toNat), (8, b.toNat),
    (8, c.toNat), (8, d.toNat), (24, 0)]

theorem frameBytes_eq (resume : DWord) (t : Trap) (idx : Nat) (repV : Bool) (iaddr : DWord) (word : BitVec 96) (handle : Nat)
    (exec : Mask) (a b c d : DWord) : frameBytes resume t idx repV iaddr word handle exec [a, b, c, d] =
      fieldBytes (frameFields resume t idx repV iaddr word handle exec a b c d) := by
  simp [frameBytes, fieldBytes, frameFields]

theorem frameBytes_length (resume : DWord) (t : Trap) (idx : Nat) (repV : Bool) (iaddr : DWord) (word : BitVec 96) (handle : Nat)
    (exec : Mask) (a b c d : DWord) : (frameBytes resume t idx repV iaddr word handle exec [a, b, c, d]).length = 128 := by
  simp [frameBytes_eq, frameFields]

/-- Each field of a frame stands at its place (R346). -/
theorem frameBytes_fields (resume : DWord) (t : Trap) (idx : Nat) (repV : Bool) (iaddr : DWord) (word : BitVec 96) (handle : Nat)
    (exec : Mask) (a b c d : DWord) :
    let fr := frameBytes resume t idx repV iaddr word handle exec [a, b, c, d]
    let field := fun (i n : Nat) => leNat ((fr.drop i).take n)
    field 0 8 = resume.toNat ∧ field 8 1 = t.cause % 2 ^ 8 ∧ field 9 1 = t.detail % 2 ^ 8 ∧ field 10 2 = t.code % 2 ^ 16 ∧
      field 12 1 = idx % 64 + 64 * repV.toNat ∧ field 13 1 = t.thread % 128 ∧ field 14 2 = t.oper % 1024 ∧ field 16 8 = iaddr.toNat ∧
      field 24 12 = word.toNat ∧ field 36 4 = 0 ∧ field 40 8 = t.addr.toNat ∧ field 48 4 = handle % 2 ^ 32 ∧ field 52 4 = 0 ∧
      field 56 16 = exec.toNat ∧ field 72 8 = a.toNat ∧ field 80 8 = b.toNat ∧ field 88 8 = c.toNat ∧ field 96 8 = d.toNat ∧
      field 104 24 = 0 := by
  intro fr field
  have hf : ∀ (k i n x : Nat), (frameFields resume t idx repV iaddr word handle exec a b c d)[k]? = some (n, x) →
      (((frameFields resume t idx repV iaddr word handle exec a b c d).take k).map Prod.fst).sum = i → field i n = x % 2 ^ (8 * n) := by
    intro k i n x hk hi
    show leNat ((fr.drop i).take n) = _
    rw [show fr = fieldBytes (frameFields resume t idx repV iaddr word handle exec a b c d) from frameBytes_eq ..]
    exact leNat_field _ k i n x hk hi
  have hw : ∀ {v : Nat} (k i n : Nat) (x : BitVec v), v = 8 * n → (frameFields resume t idx repV iaddr word handle exec a b c d)[k]? = some (n, x.toNat) →
      (((frameFields resume t idx repV iaddr word handle exec a b c d).take k).map Prod.fst).sum = i → field i n = x.toNat :=
    fun k i n x hv hk hi => (hf k i n _ hk hi).trans (Nat.mod_eq_of_lt (hv ▸ x.isLt))
  refine ⟨hw 0 0 8 resume rfl ?_ ?_, hf 1 8 1 t.cause ?_ ?_, hf 2 9 1 t.detail ?_ ?_, hf 3 10 2 t.code ?_ ?_,
    (hf 4 12 1 (idx % 64 + 64 * repV.toNat) ?_ ?_).trans (Nat.mod_eq_of_lt ?_), (hf 5 13 1 (t.thread % 128) ?_ ?_).trans (Nat.mod_eq_of_lt ?_),
    (hf 6 14 2 (t.oper % 1024) ?_ ?_).trans (Nat.mod_eq_of_lt ?_), hw 7 16 8 iaddr rfl ?_ ?_, hw 8 24 12 word rfl ?_ ?_, hf 9 36 4 0 ?_ ?_,
    hw 10 40 8 t.addr rfl ?_ ?_, hf 11 48 4 handle ?_ ?_, hf 12 52 4 0 ?_ ?_, hw 13 56 16 exec rfl ?_ ?_, hw 14 72 8 a rfl ?_ ?_,
    hw 15 80 8 b rfl ?_ ?_, hw 16 88 8 c rfl ?_ ?_, hw 17 96 8 d rfl ?_ ?_, hf 18 104 24 0 ?_ ?_⟩
  case' refine_11 => cases repV <;> simp <;> omega
  case' refine_14 => omega
  case' refine_17 => omega
  all_goals simp [frameFields]

/-! ### Entry to the handler -/

theorem Ctx.enter_open {c : Ctx} {off : Nat} (hoff : off = c.s.frameOff c.w.part c.slot) (hb : c.s.spBlocked c.core off (off + 128) true = false)
    (ha : c.s.atomsOn c.core c.w.uid (fun _ => true) c.core off 128 = none) : c.frameBusy true = none := by
  unfold Ctx.frameBusy
  dsimp only
  rw [← hoff, hb, ha]
  rfl

/-- A trap that enters the handler. -/
theorem Ctx.trapAt_enters {c : Ctx} {t : Trap} (hcore : c.core < Config.mainCores) (hu : c.f.level = .user)
    (hv : bitOf c.part.tvec.toNat 0 = true) (hd : ¬(t.cause = 5 ∧ t.origin = .data)) (hb : ¬(t.cause = 13 ∧ c.s.debugs c.w.part = true))
    (iaddr : DWord) (word : BitVec 96) : c.trapAt t iaddr word = c.enter t iaddr word := by
  unfold Ctx.trapAt
  dsimp only
  rw [if_neg (by simpa using hd), if_neg (by omega), if_neg (by simpa using hb), if_neg (by simp [Ctx.user, hu]), if_pos hv]

/-- A wave with other scalars. -/
def Wave.withS (w : Wave) (r : Tab SReg) : Wave := { w with sregs := r }

/-- A scalar as the handler finds it: full and not poisoned. -/
def SReg.set (x : DWord) : SReg := ⟨x, true, false, .fault, none⟩

theorem Wave.putS_eq (w : Wave) (n : Nat) (x : DWord) : w.putS n x = w.withS (w.sregs.put n (.set x)) := rfl
theorem Wave.putS_withS (w : Wave) (r : Tab SReg) (n : Nat) (x : DWord) : (w.withS r).putS n x = w.withS (r.put n (.set x)) := rfl
theorem Wave.setS_eq (w : Wave) (n : Nat) (x : SReg) : w.setS n x = w.withS (w.sregs.put n x) := rfl
theorem Wave.setS_withS (w : Wave) (r : Tab SReg) (n : Nat) (x : SReg) : (w.withS r).setS n x = w.withS (r.put n x) := rfl

theorem Wave.putS_s60 (w : Wave) (a b c d : DWord) : (((w.putS 63 a).putS 62 b).putS 61 c).putS 60 d =
    w.withS ((((w.sregs.put 63 (.set a)).put 62 (.set b)).put 61 (.set c)).put 60 (.set d)) := by
  rw [Wave.putS_eq w, Wave.putS_withS, Wave.putS_withS, Wave.putS_withS]

/-- The scalars that the handler finds. -/
def Ctx.handlerScalars (c : Ctx) (t : Trap) (bs : List Byte) : Tab SReg :=
  (((c.w.sregs.put 63 (.set (BitVec.ofNat 64 (c.s.frameOff c.w.part c.slot)))).put 62
    (.set (BitVec.ofNat 64 (leNat ((bs.drop 8).take 8))))).put 61 (.set t.addr)).put 60 (.set (c.f.resume t).1)

/-- The wave that the entry leaves. -/
def Ctx.inHandler (c : Ctx) (t : Trap) (bs : List Byte) : Wave :=
  { (c.w.withS (c.handlerScalars t bs)).modCur fun f => { f.jump (c.part.tvec &&& ~~~3#64) with
      level := .supervisor, handler := true, park := none, waiting := false, entry := none }
    with alone := true, ibuf := [] }

/-- The frame that the entry writes. -/
def Ctx.frame (c : Ctx) (t : Trap) (iaddr : DWord) (word : BitVec 96) : List Byte :=
  frameBytes (c.f.resume t).1 t (c.f.resume t).2.1 (c.f.resume t).2.2 iaddr word (c.s.handleOf c.core c.slot) c.f.exec
    [(c.w.s 60).val, (c.w.s 61).val, (c.w.s 62).val, (c.w.s 63).val]

theorem Ctx.enter_result {c : Ctx} (h : c.frameBusy true = none) (t : Trap) (iaddr : DWord) (word : BitVec 96) :
    c.enter t iaddr word = (c.s.spPut c.core (c.s.frameOff c.w.part c.slot) (c.frame t iaddr word)).setWave c.core c.slot
      (c.inHandler t (c.frame t iaddr word)) := by
  unfold Ctx.enter
  dsimp only
  rw [h]
  dsimp only
  rw [Wave.putS_s60]
  rfl

/-- A table of scalars in which s60 to s63 are written. -/
theorem Tab.get_put_s60 {α : Type} (x : α) (m : Tab α) (a b c d : α) :
    let v := (((Tab.put m 63 a).put 62 b).put 61 c).put 60 d
    v.get x 63 = a ∧ v.get x 62 = b ∧ v.get x 61 = c ∧ v.get x 60 = d ∧ ∀ k, k < 60 → v.get x k = m.get x k := by
  refine ⟨?_, ?_, ?_, ?_, fun k hk => ?_⟩
  · rw [Tab.get_put_ne _ _ _ (by decide), Tab.get_put_ne _ _ _ (by decide), Tab.get_put_ne _ _ _ (by decide), Tab.get_put_same]
  · rw [Tab.get_put_ne _ _ _ (by decide), Tab.get_put_ne _ _ _ (by decide), Tab.get_put_same]
  · rw [Tab.get_put_ne _ _ _ (by decide), Tab.get_put_same]
  · rw [Tab.get_put_same]
  · rw [Tab.get_put_ne _ _ _ (by omega), Tab.get_put_ne _ _ _ (by omega), Tab.get_put_ne _ _ _ (by omega), Tab.get_put_ne _ _ _ (by omega)]

theorem Wave.frag?_modCur {w : Wave} {f : Fragment} (h : w.frag? w.cur = some f) (g : Fragment → Fragment) :
    (w.modCur g).frag? w.cur = some (g f) := by
  unfold Wave.modCur
  rw [Wave.frag?_setFrag_same (Wave.frag?_mem h).1, h]
  rfl

theorem Wave.frag?_congr {v w : Wave} (h : v.entries = w.entries) (i : Nat) : v.frag? i = w.frag? i := by
  unfold Wave.frag?
  rw [h]

/-- Where the fragment stands that has entered the handler. -/
theorem Ctx.frag?_inHandler {c : Ctx} (h : c.w.frag? c.w.cur = some c.f) (t : Trap) (bs : List Byte) :
    (c.inHandler t bs).frag? (c.inHandler t bs).cur = some { c.f.jump (c.part.tvec &&& ~~~3#64) with
      level := .supervisor, handler := true, park := none, waiting := false, entry := none } := by
  have hw : (c.w.withS (c.handlerScalars t bs)).frag? (c.w.withS (c.handlerScalars t bs)).cur = some c.f := h
  exact (Wave.frag?_congr rfl _).trans (Wave.frag?_modCur hw _)

/-- The scalars of the wave that has entered the handler. -/
theorem Ctx.s_inHandler (c : Ctx) (t : Trap) (bs : List Byte) :
    (c.inHandler t bs).s 63 = ⟨BitVec.ofNat 64 (c.s.frameOff c.w.part c.slot), true, false, .fault, none⟩ ∧
      (c.inHandler t bs).s 62 = ⟨BitVec.ofNat 64 (leNat ((bs.drop 8).take 8)), true, false, .fault, none⟩ ∧
      (c.inHandler t bs).s 61 = ⟨t.addr, true, false, .fault, none⟩ ∧ (c.inHandler t bs).s 60 = ⟨(c.f.resume t).1, true, false, .fault, none⟩ ∧
      ∀ m, m < 60 → (c.inHandler t bs).s m = c.w.s m := by
  have h : ∀ m, (c.inHandler t bs).s m = (c.handlerScalars t bs).get SReg.fresh m := fun _ => rfl
  simp only [h]
  exact Tab.get_put_s60 SReg.fresh c.w.sregs _ _ _ _

theorem Ctx.inHandler_rest (c : Ctx) (t : Trap) (bs : List Byte) : (c.inHandler t bs).alone = true ∧
    (c.inHandler t bs).vregs = c.w.vregs ∧ (c.inHandler t bs).preds = c.w.preds := ⟨rfl, rfl, rfl⟩

/-- Settles O18: nothing blocks the frame, so the trap is the entry; the frame's fields lie side by side. -/
theorem trapEntersTheHandler : Obligations.TrapEntersTheHandler := by
  refine ⟨?_, ?_⟩
  · intro c t hw hf hcore hu hv hd hb off hblk hat back frame
    let c1 : Ctx := { c with s := c.s.dropWalks c.core c.w.uid }
    have hoff : c1.s.frameOff c1.w.part c1.slot = off := by simp [c1, off, State.frameOff]
    have hfree : c1.frameBusy true = none := Ctx.enter_open hoff.symm (by simpa [c1, State.spBlocked] using hblk)
      (by simpa [c1, State.atomsOn] using hat)
    have hframe : c1.frame t c.f.pc c.w.word = frame := by simp [c1, Ctx.frame, frame, back, State.handleOf]
    have htrap : c.trap t = (c1.s.spPut c.core off frame).setWave c.core c.slot (c1.inHandler t frame) := by
      have h1 : c.trap t = c1.enter t c.f.pc c.w.word := Ctx.trapAt_enters (c := c1) hcore hu (by simpa [c1, Ctx.part] using hv) hd
        (by simpa [c1, State.debugs] using hb) _ _
      rw [h1, Ctx.enter_result hfree, hframe, hoff]
    obtain ⟨h63, h62, h61, h60, hlow⟩ := c1.s_inHandler t frame
    rw [hoff] at h63
    have hpart : c1.part = c.part := by simp [c1, Ctx.part]
    have hfrag := Ctx.frag?_inHandler (c := c1) hf t frame
    rw [hpart] at hfrag
    rw [htrap]
    obtain ⟨halone, hvregs, hpreds⟩ := c1.inHandler_rest t frame
    refine ⟨c1.inHandler t frame, _, State.wave?_setWave_same _ _ _ _, hfrag, halone, rfl, rfl, rfl, rfl, rfl, h63, h62, h61, h60, hlow, hvregs, hpreds, ?_, ?_⟩
    · simp [c1, State.spPut]
    · intro i hi
      rw [State.core_setWave]
      exact State.spPut_scratch _ _ _ _ (by simpa [frame, frameBytes_length] using hi)
  · intro resume t idx repV iaddr word handle exec_ a b c d fr field
    exact ⟨frameBytes_length .., frameBytes_fields ..⟩

/-! ### The return from the handler -/

/-- A scalar of a frame, and whether it is poisoned. -/
def Ctx.frameScalar (c : Ctx) (i : Nat) : SReg :=
  SReg.write (BitVec.ofNat 64 (c.s.spNat c.core (c.s.frameOff c.w.part c.slot + (72 + 8 * i)) 8))
    ((c.s.spRead c.core (c.s.frameOff c.w.part c.slot + (72 + 8 * i)) 8).any (·.2)) .data

/-- The scalars with s60 to s63 as the frame holds them. -/
def Ctx.scalarsBack (c : Ctx) : Tab SReg :=
  (((c.w.sregs.put 60 (c.frameScalar 0)).put 61 (c.frameScalar 1)).put 62 (c.frameScalar 2)).put 63 (c.frameScalar 3)

theorem Ctx.foldl_scalarsBack (c : Ctx) :
    (List.range 4).foldl (fun (w : Wave) i => w.setS (60 + i) (c.frameScalar i)) c.w = c.w.withS c.scalarsBack := by
  show ((((c.w.setS 60 (c.frameScalar 0)).setS 61 (c.frameScalar 1)).setS 62 (c.frameScalar 2)).setS 63 (c.frameScalar 3)) = _
  rw [Wave.setS_eq c.w, Wave.setS_withS, Wave.setS_withS, Wave.setS_withS]
  rfl

theorem Ctx.scalarsBack_back (c : Ctx) {i : Nat} (h : i < 4) : c.scalarsBack.get SReg.fresh (60 + i) = c.frameScalar i := by
  unfold Ctx.scalarsBack
  obtain rfl | rfl | rfl | rfl : i = 0 ∨ i = 1 ∨ i = 2 ∨ i = 3 := by omega
  · rw [Tab.get_put_ne _ _ _ (by decide), Tab.get_put_ne _ _ _ (by decide), Tab.get_put_ne _ _ _ (by decide), Tab.get_put_same]
  · rw [Tab.get_put_ne _ _ _ (by decide), Tab.get_put_ne _ _ _ (by decide), Tab.get_put_same]
  · rw [Tab.get_put_ne _ _ _ (by decide), Tab.get_put_same]
  · rw [Tab.get_put_same]

theorem Ctx.scalarsBack_low (c : Ctx) {m : Nat} (h : m < 60) : c.scalarsBack.get SReg.fresh m = c.w.s m := by
  unfold Ctx.scalarsBack
  rw [Tab.get_put_ne _ _ _ (by omega), Tab.get_put_ne _ _ _ (by omega), Tab.get_put_ne _ _ _ (by omega), Tab.get_put_ne _ _ _ (by omega)]
  rfl

/-- The fragment that ERET leaves where no repeat was pending. -/
def Ctx.returned (c : Ctx) (f : Fragment) : Fragment :=
  let resume : DWord := BitVec.ofNat 64 (c.s.spNat c.core (c.s.frameOff c.w.part c.slot + 0) 8)
  { ({ f with exec := BitVec.ofNat 128 (c.s.spNat c.core (c.s.frameOff c.w.part c.slot + 56) 16) &&& f.live, level := .user, handler := false } :
      Fragment).jump resume with synced := f.synced.filter fun x => x.pc = resume }

/-- The wave that ERET leaves where no repeat was pending. -/
def Ctx.outOfHandler (c : Ctx) : Wave := { (c.w.withS c.scalarsBack).modCur c.returned with alone := false, ibuf := [] }

theorem Ctx.frag?_outOfHandler {c : Ctx} (h : c.w.frag? c.w.cur = some c.f) :
    c.outOfHandler.frag? c.outOfHandler.cur = some (c.returned c.f) := by
  have hw : (c.w.withS c.scalarsBack).frag? (c.w.withS c.scalarsBack).cur = some c.f := h
  exact (Wave.frag?_congr rfl _).trans (Wave.frag?_modCur hw _)

theorem Ctx.eret_result {c : Ctx} (hh : c.f.handler = true) (hb : c.frameBusy false = none)
    (hr : bitOf (c.s.spNat c.core (c.s.frameOff c.w.part c.slot + 12) 1) 6 = false) :
    c.eret = ((c.s.dropWalks c.core c.w.uid).setWave c.core c.slot c.outOfHandler).settle c.core c.slot := by
  have hback := c.foldl_scalarsBack
  dsimp only [Ctx.frameScalar] at hback
  unfold Ctx.eret
  simp only [hh, hb, hr, Bool.not_true, Bool.false_and, hback]
  rfl

/-- A wave without reconvergence entries and overflow fragments settles: it only ends the turn and empties the buffer. -/
theorem Wave.settle_of_nil {w : Wave} (n : Nat) (hs : w.stack = []) (ho : w.ovf = []) :
    ∃ e b, w.settle n = { w with ended := e, ibuf := b } := by
  have hr := Wave.reconverge_of_stack_nil hs n 9
  rw [Wave.settle_of_ovf_nil n (by rw [hr, ho]), hr]
  exact ⟨_, _, rfl⟩

/-- Settles O19: the frame is free and no repeat was pending, so the fragment resumes where the frame says. -/
theorem eretLeavesTheHandler : Obligations.EretLeavesTheHandler := by
  refine ⟨fun o s c hc hr hh => ?_, ?_⟩
  · show execEret o s = _
    unfold execEret
    rw [withCtx_eq hc]
    simp only [hh, Bool.false_eq_true, if_false]
    rw [Ctx.uniform_runs hr]
    unfold Ctx.eret
    rw [hh]
    rfl
  · intro o s c hc hr hh hstack hovf off field hblk hat hrep
    obtain ⟨-, hs, hw, hf⟩ := State.ctx_some hc
    subst hs
    have hfree : c.frameBusy false = none := by
      unfold Ctx.frameBusy
      dsimp only
      rw [hblk, hat]
      rfl
    have hexec : exec (.eret o) c.s = .next c.eret := by
      show execEret o c.s = _
      unfold execEret
      rw [withCtx_eq hc, hh, if_pos rfl, Ctx.uniform_runs hr]
    have hfrag := Ctx.frag?_outOfHandler hf
    have hne : c.outOfHandler.frags ≠ [] := by
      rw [Wave.frags_ne_nil_iff]
      exact .inl ⟨_, (Wave.frag?_mem hfrag).2⟩
    rw [hexec, Ctx.eret_result hh hfree hrep, State.settle_eq (State.wave?_setWave_same _ _ _ _) hne]
    obtain ⟨e, b, hset⟩ := Wave.settle_of_nil (w := c.outOfHandler) ((c.s.dropWalks c.core c.w.uid).setWave c.core c.slot c.outOfHandler).uid
      hstack hovf
    rw [hset]
    refine ⟨_, { c.outOfHandler with ended := e, ibuf := b }, c.returned c.f, rfl, State.wave?_setWave_same _ _ _ _, ?_, rfl, rfl, rfl, rfl, rfl, rfl,
      fun i hi => ?_, fun m hm => ?_, ?_, ?_, ?_⟩
    · exact (Wave.frag?_congr rfl _).trans hfrag
    · show (c.scalarsBack.get SReg.fresh (60 + i)).val = _ ∧ (c.scalarsBack.get SReg.fresh (60 + i)).full = true
      rw [c.scalarsBack_back hi]
      exact ⟨rfl, rfl⟩
    · exact c.scalarsBack_low hm
    · rfl
    · rfl
    · simp

end Machine
end Sys2Proof
end

section
/-!
SUPPORT. What reading memory leaves: translation, the LLC, miss slots and generated lines change neither the bytes of memory nor the
upsets that wait for the next issue.
-/
namespace Sys2Proof.Machine

/-- A partition without its tasks and what it has reported of them. -/
def Partition.still (p : Partition) : Partition := { p with tasks := [], reported := [] }

/-- What reading leaves: the bytes of memory, the upsets that wait for the next issue, the device, the heads, the teams, the deliveries, the clusters, the stamps of the
launches, the links and the channels; of each slice the multicast requests and their count; each partition, but for its tasks. -/
def State.data (s : State) : ((Memory × List Upset) × Device × Tab Head × List Team × Tab (List Delivery) × Tab Cluster × List Nat × Tab Link × Tab Channel) × (Nat → List Merge × BitVec 32) × (Nat → Partition) :=
  (((s.mem, s.upsets), s.dev, s.heads, s.teams, s.deliveries, s.clusters, s.launches.map (·.id), s.links, s.channels), (fun h => ((s.slice h).merges, (s.slice h).followup)), fun p => (s.part p).still)

theorem State.data_mem {s t : State} (h : s.data = t.data) : s.mem = t.mem := congrArg (·.1.1.1) h
theorem State.data_upsets {s t : State} (h : s.data = t.data) : s.upsets = t.upsets := congrArg (·.1.1.2) h
theorem State.data_dev {s t : State} (h : s.data = t.data) : s.dev = t.dev := congrArg (·.1.2.1) h
theorem State.data_heads {s t : State} (h : s.data = t.data) : s.heads = t.heads := congrArg (·.1.2.2.1) h
theorem State.data_teams {s t : State} (h : s.data = t.data) : s.teams = t.teams := congrArg (·.1.2.2.2.1) h
theorem State.data_clusters {s t : State} (h : s.data = t.data) : s.clusters = t.clusters := congrArg (·.1.2.2.2.2.2.1) h
theorem State.data_launches {s t : State} (h : s.data = t.data) : s.launches.map (·.id) = t.launches.map (·.id) := congrArg (·.1.2.2.2.2.2.2.1) h
theorem State.data_channels {s t : State} (h : s.data = t.data) : s.channels = t.channels := congrArg (·.1.2.2.2.2.2.2.2.2) h
theorem State.data_merges {s t : State} (h : s.data = t.data) (slice : Nat) : (s.slice slice).merges = (t.slice slice).merges :=
  congrArg (fun d => (d.2.1 slice).1) h
theorem State.data_followup {s t : State} (h : s.data = t.data) (slice : Nat) : (s.slice slice).followup = (t.slice slice).followup :=
  congrArg (fun d => (d.2.1 slice).2) h
theorem State.data_part {s t : State} (h : s.data = t.data) (p : Nat) : (s.part p).still = (t.part p).still := congrArg (fun d => d.2.2 p) h

/-- A fold of operations that leave them leaves them. -/
theorem State.foldl_data {α : Type} {f : State → α → State} (h : ∀ t a, (f t a).data = t.data) (l : List α) (s : State) :
    (l.foldl f s).data = s.data :=
  List.foldlRecOn l f (motive := fun t => t.data = s.data) rfl fun t ht a _ => (h t a).trans ht

/-- The same of a fold in which each operation may find no place. -/
theorem State.foldl_bind_data {α : Type} {f : State → α → Option State} (h : ∀ {t u a}, f t a = some u → u.data = t.data) (l : List α)
    {s t : State} (ht : l.foldl (fun (st : Option State) a => st.bind fun x => f x a) (some s) = some t) : t.data = s.data := by
  induction l generalizing s with
  | nil => cases ht; rfl
  | cons a l ih =>
    rw [List.foldl_cons, Option.bind_some] at ht
    cases hf : f s a with
    | none =>
      have hn : ∀ l : List α, l.foldl (fun (st : Option State) a => st.bind fun x => f x a) none = none := by
        intro l
        induction l with
        | nil => rfl
        | cons b l ihn => exact ihn
      rw [hf, hn] at ht
      cases ht
    | some u =>
      rw [hf] at ht
      exact (ih ht).trans (h hf)

/-! ### Writing one unit -/

@[simp] theorem State.setCore_data (s : State) (k : Nat) (x : Core) : (s.setCore k x).data = s.data := rfl
/-- A slice whose multicast requests stay as they are. -/
theorem State.setSlice_data (s : State) {k : Nat} {x : Slice} (hm : x.merges = (s.slice k).merges) (hf : x.followup = (s.slice k).followup) :
    (s.setSlice k x).data = s.data := by
  refine Prod.ext rfl (Prod.ext (funext fun h => ?_) rfl)
  dsimp only [State.data, State.slice, State.setSlice]
  by_cases hk : h = k
  · rw [hk, Tab.get_put_same, hm, hf]
    rfl
  · rw [Tab.get_put_ne _ _ _ hk]

/-- A change of every slice that leaves its multicast requests. -/
theorem State.mapSlices_data (s : State) (g : Slice → Slice) (hm : ∀ x, (g x).merges = x.merges) (hf : ∀ x, (g x).followup = x.followup) :
    State.data { s with slices := s.slices.map fun e => (e.1, g e.2) } = s.data := by
  refine Prod.ext rfl (Prod.ext (funext fun h => ?_) rfl)
  dsimp only [State.data, State.slice]
  rcases Tab.get_map_or Slice.reset g s.slices h with hs | hs
  · rw [hs, hm, hf]
  · rw [hs]

/-- A partition of which only the tasks change. -/
theorem State.setPart_data (s : State) {k : Nat} {x : Partition} (h : x.still = (s.part k).still) : (s.setPart k x).data = s.data := by
  refine Prod.ext rfl (Prod.ext rfl (funext fun p => ?_))
  dsimp only [State.data, State.part, State.setPart]
  by_cases hp : p = k
  · rw [hp, Tab.get_put_same, h]
    rfl
  · rw [Tab.get_put_ne _ _ _ hp]
@[simp] theorem State.setWalks_data (s : State) (k : Nat) (l : List Walk) : (s.setWalks k l).data = s.data := rfl
@[simp] theorem State.setGenLine_data (s : State) (p line : Nat) (g : Option GenLine) : (s.setGenLine p line g).data = s.data := rfl
@[simp] theorem State.setWave_data (s : State) (core slot : Nat) (w : Wave) : (s.setWave core slot w).data = s.data := rfl
@[simp] theorem State.fresh_data (s : State) : s.fresh.data = s.data := rfl
@[simp] theorem State.draw_data (s : State) : s.draw.data = s.data := rfl
@[simp] theorem State.markWords_data (s : State) (ws : List Nat) (bad : Bool) : (s.markWords ws bad).data = s.data := rfl
@[simp] theorem State.countRequest_data (s : State) (p : Nat) (k : LineKey) : (s.countRequest p k).data = s.data := rfl
@[simp] theorem State.putLine_data (s : State) (slice n : Nat) (x : Line) : (s.putLine slice n x).data = s.data :=
  State.setSlice_data s rfl rfl
@[simp] theorem State.takeSlot_data (s : State) (slice : Nat) (x : MissSlot) : (s.takeSlot slice x).data = s.data :=
  State.setSlice_data s rfl rfl
@[simp] theorem State.markWaiting_data (s : State) (part : Nat) (ls : List Nat) : (s.markWaiting part ls).data = s.data := rfl
@[simp] theorem State.touchGuest_data (s : State) (core part : Nat) (k : LineKey) : (s.touchGuest core part k).data = s.data :=
  State.setSlice_data s rfl rfl
@[simp] theorem State.setTile_data (s : State) (core n : Nat) (t : Tile) : (s.setTile core n t).data = s.data := rfl

/-! ### Lines of the LLC -/

@[simp] theorem State.sealBlock_data (s : State) (block : Nat) : (s.sealBlock block).data = s.data := by
  unfold State.sealBlock
  split <;> rfl

@[simp] theorem State.readBlock64_data (s : State) (block : Nat) : (s.readBlock64 block).data = s.data := by
  have hu : ∀ (st : State) (l : List Nat), ({ st with latent := l } : State).data = st.data := fun _ _ => rfl
  have hs : (({ s.sealBlock block with due := s.due ++ [.tag block] } : State).markWords ((List.range 8).map fun i => 8 * block + i) true).data =
      s.data := State.sealBlock_data s block
  unfold State.readBlock64
  simp only [apply_ite State.data, hu, hs, ite_self]

@[simp] theorem State.readLine128_data (s : State) (line : Nat) : (s.readLine128 line).data = s.data := by
  simp [State.readLine128]

@[simp] theorem State.writeBack_data (s : State) (line : Nat) : (s.writeBack line).data = s.data := by
  unfold State.writeBack
  split
  · rfl
  · refine State.foldl_data (fun t b => ?_) _ s
    dsimp only
    split <;> rfl

@[simp] theorem State.uncover_data (s : State) (line : Nat) (dirty : Bool) : (s.uncover line dirty).data = s.data := by
  unfold State.uncover
  dsimp only
  split
  · rfl
  · split <;> rfl

@[simp] theorem State.dropLine_data (s : State) (slice n : Nat) : (s.dropLine slice n).data = s.data := by
  unfold State.dropLine
  split
  · rfl
  · extract_lets line s1 sl
    have h1 : s1.data = s.data := by simp [s1, apply_ite State.data]
    exact (State.setSlice_data s1 (by rfl) (by rfl)).trans h1

@[simp] theorem State.victimPut_data (s : State) (part : Nat) (k : LineKey) (bytes : List Byte) : (s.victimPut part k bytes).data = s.data := by
  unfold State.victimPut
  dsimp only
  split
  · rfl
  · split <;> rfl

@[simp] theorem State.forgetGuests_data (s : State) (code : Nat) : (s.forgetGuests code).data = s.data := by
  unfold State.forgetGuests
  split
  · exact State.mapSlices_data s (fun x => { x with guests := Tab.erase x.guests code }) (fun _ => rfl) fun _ => rfl
  · rfl

@[simp] theorem State.evict_data (s : State) (slice : Nat) (h : Held) : (s.evict slice h).data = s.data := by
  match h with
  | .line (.phys n) => exact State.dropLine_data s slice n
  | .line (.gen p l) =>
    unfold State.evict
    dsimp only
    split <;> simp [apply_ite State.data]
  | .guest c => exact State.setSlice_data s rfl rfl

theorem State.makeSpace?_data {s t : State} {slice code : Nat} (h : s.makeSpace? slice code = some t) : t.data = s.data := by
  unfold State.makeSpace? at h
  split at h
  · obtain ⟨v, -, rfl⟩ := Option.map_eq_some_iff.mp h
    exact State.evict_data s slice v
  · split at h
    · obtain ⟨v, -, rfl⟩ := Option.map_eq_some_iff.mp h
      exact State.evict_data s slice v
    · cases h; rfl

@[simp] theorem State.modLine_data (s : State) (slice n : Nat) (f : Line → Line) : (s.modLine slice n f).data = s.data := by
  unfold State.modLine
  split
  · exact State.putLine_data ..
  · rfl

theorem State.enter_data {s t : State} {slice part n : Nat} (h : s.enter slice part n = some t) : t.data = s.data := by
  obtain ⟨u, hu, rfl⟩ := Option.map_eq_some_iff.mp h
  simp [apply_ite State.data, State.makeSpace?_data hu]

theorem State.touchLine?_data {s t : State} {p line : Nat} {f : Line → Line} (h : s.touchLine? p line f = some t) : t.data = s.data := by
  unfold State.touchLine? at h
  dsimp only at h
  split at h
  · cases h; simp
  · split at h
    · cases h; rfl
    · obtain ⟨u, hu, rfl⟩ := Option.map_eq_some_iff.mp h
      simp [State.enter_data hu]

@[simp] theorem State.touchLine_data (s : State) (p line : Nat) (f : Line → Line) : (s.touchLine p line f).data = s.data := by
  unfold State.touchLine
  cases h : s.touchLine? p line f with
  | none => rfl
  | some t => exact State.touchLine?_data h

@[simp] theorem State.noteLines_data (s : State) (part : Nat) (launch : Option Nat) (ks : List LineKey) :
    (s.noteLines part launch ks).data = s.data := by
  unfold State.noteLines
  split
  · rfl
  next l =>
    have hids : (s.launches.map fun x => if x.id = l then { x with faulted := true } else x).map (·.id) = s.launches.map (·.id) := by
      rw [List.map_map]
      refine List.map_congr_left fun x _ => ?_
      simp only [Function.comp_apply, apply_ite Launch.id, ite_self]
    split
    · exact Prod.ext (congrArg (fun ids : List Nat => ((s.mem, s.upsets), s.dev, s.heads, s.teams, s.deliveries, s.clusters, ids, s.links, s.channels)) hids) rfl
    · rfl

/-! ### Walks -/

@[simp] theorem State.touchWalk_data (s : State) (part : Nat) (va : DWord) : (s.touchWalk part va).data = s.data :=
  State.foldl_data (fun t l => State.touchLine_data t part l id) _ s

@[simp] theorem State.noteWalk_data (s : State) (part : Nat) (k : AccessKind) (va : DWord) : (s.noteWalk part k va).data = s.data := by
  unfold State.noteWalk
  split <;> rfl

@[simp] theorem State.failWalk_data (s : State) (r : Reader) (k : AccessKind) (va : DWord) (cls : Nat) :
    (s.failWalk r k va cls).data = s.data := by
  unfold State.failWalk
  split
  · simp
  · rfl

@[simp] theorem State.requestWalk_data (s : State) (core part req agent : Nat) (k : AccessKind) (va : DWord) :
    (s.requestWalk core part req agent k va).data = s.data := by
  unfold State.requestWalk
  dsimp only
  split <;> rfl

@[simp] theorem State.locate_data (s : State) (r : Reader) (write : Bool) (va : DWord) (n : Nat) : (s.locate r write va n).1.data = s.data := by
  have hwalk : ∀ us : List DWord, (us.foldl (fun st u => st.touchWalk r.part u) s).data = s.data :=
    fun us => State.foldl_data (fun t u => State.touchWalk_data t r.part u) us s
  unfold State.locate
  extract_lets k o us looks walks misses walked
  clear_value looks walks misses
  split
  · rfl
  · split
    · exact State.foldl_data (fun t u => State.requestWalk_data t _ _ _ _ _ u) _ s
    · split
      · dsimp only
        split
        · exact (State.failWalk_data _ _ _ _ _).trans (hwalk _)
        · exact hwalk _
      · exact hwalk _

/-! ### Miss slots and generated lines -/

theorem State.askSlot_data {s : State} {slice : Nat} {me : MissWait} {grant : State → Option State}
    (h : ∀ t, grant s = some t → t.data = s.data) : (s.askSlot slice me grant).data = s.data := by
  have hwait : (if (s.slice slice).waiting.contains me then s else
      s.setSlice slice { s.slice slice with waiting := (s.slice slice).waiting ++ [me] }).data = s.data := by
    split
    · rfl
    · exact State.setSlice_data s rfl rfl
  unfold State.askSlot
  dsimp only
  split
  · cases hg : grant s with
    | none => exact hwait
    | some t => exact h t hg
  · exact hwait

theorem State.readSlot_data {s t : State} {slice : Nat} {x : MissSlot} {copy : LineKey} (h : s.readSlot slice x copy = some t) :
    t.data = s.data := by
  unfold State.readSlot at h
  split at h
  · cases h; exact State.takeSlot_data ..
  · cases h

theorem State.placeGen_data {s t : State} {slice part line : Nat} {x : GenLine} (h : s.placeGen slice part line x = some t) :
    t.data = s.data := by
  obtain ⟨u, hu, rfl⟩ := Option.map_eq_some_iff.mp h
  exact (State.setGenLine_data u _ _ _).trans (State.makeSpace?_data hu)

theorem State.openTask_data {s t : State} {core part gi : Nat} {g : Gen} {block d : Nat} (h : s.openTask core part gi g block d = some t) :
    t.data = s.data := by
  obtain ⟨u, hu, rfl⟩ := Option.map_eq_some_iff.mp h
  have hp := State.foldl_bind_data
    (f := fun (x : State) l => x.placeGen (s.home part (.gen part (block / 128))) part l ⟨.filling, List.replicate 128 0, .fault, 0⟩)
    (fun {t u a} => State.placeGen_data) _ hu
  exact (State.setPart_data u (by rfl)).trans (hp.trans (State.takeSlot_data ..))

@[simp] theorem State.wantCopy_data (s : State) (part uid d line : Nat) : (s.wantCopy part uid d line).data = s.data := by
  unfold State.wantCopy
  dsimp only
  split
  · rfl
  · exact State.askSlot_data fun t h => State.readSlot_data h

@[simp] theorem State.touchGen_data (s : State) (core part uid d line : Nat) : (s.touchGen core part uid d line).1.data = s.data := by
  unfold State.touchGen
  split
  · rfl
  · split
    · split
      · split
        · rfl
        · exact State.setPart_data s (by rfl)
      · rfl
    · split
      · rfl
      · split
        · rfl
        · next gi g _ _ =>
          generalize (s.victims.filter fun v => v.part = part && v.key = .gen part line && !s.victimGood v) = bad
          have hv : ∀ s1 : State, s1 = (if bad.isEmpty then s else { s with victims := s.victims.filter fun v => !bad.contains v }) →
              s1.data = s.data := by rintro s1 rfl; split <;> rfl
          dsimp only
          generalize hs1 : (if bad.isEmpty then s else { s with victims := s.victims.filter fun v => !bad.contains v } : State) = s1
          rw [← hv s1 hs1.symm]
          split
          · exact State.wantCopy_data _ _ _ _ _
          · split
            · rfl
            · exact State.askSlot_data fun t h => State.openTask_data h

@[simp] theorem State.wantLine_data (s : State) (r : Reader) (line : Nat) : (s.wantLine r line).data = s.data := by
  unfold State.wantLine
  dsimp only
  split
  · rfl
  · exact State.askSlot_data fun t h => State.readSlot_data h

/-! ### Reading -/

@[simp] theorem State.lineReady_data (s : State) (r : Reader) (k : LineKey) : (s.lineReady r k).1.data = s.data := by
  rw [← State.noteLines_data s r.part r.launch [k]]
  unfold State.lineReady
  dsimp only
  generalize s.noteLines r.part r.launch [k] = s1
  split
  · rfl
  · split
    · exact State.touchGuest_data ..
    · split
      · next p line _ _ =>
        have h := State.touchGen_data s1 r.core p r.uid r.depth line
        split <;> rename_i heq <;> rw [heq] at h
        · exact h
        · exact h
        · exact h
      · next line _ _ =>
        split
        · rfl
        · split
          · split
            · next t ht => exact State.touchLine?_data ht
            · rfl
          · exact State.wantLine_data _ _ _

@[simp] theorem State.readyAll_data (s : State) (r : Reader) (ks : List LineKey) : (s.readyAll r ks).1.data = s.data :=
  List.foldlRecOn ks _ (motive := fun x : State × List (LineKey × LineOut) => x.1.data = s.data) rfl
    fun x hx k _ => (State.lineReady_data x.1 r k).trans hx

@[simp] theorem State.readGlobal_data (s : State) (r : Reader) (va : DWord) (n : Nat) : (s.readGlobal r va n).1.data = s.data := by
  have h := State.locate_data s r false va n
  unfold State.readGlobal
  split <;> rename_i heq <;> rw [heq] at h
  · exact h
  · exact h
  · next s1 ls =>
    have h2 := State.readyAll_data s1 r (keysOfLocs ls)
    dsimp only
    split
    · exact h2.trans h
    · split
      · exact h2.trans h
      · exact h2.trans h

@[simp] theorem State.readCell_data (s : State) (r : Reader) (c : Cell) : (s.readCell r c).1.data = s.data := by
  unfold State.readCell
  split
  · rfl
  · rfl
  · next va _ =>
    have h := State.readGlobal_data s r va 16
    split <;> rename_i heq <;> rw [heq] at h <;> exact h

@[simp] theorem State.readCells_data (s : State) (r : Reader) (cs : List Cell) : (s.readCells r cs).1.data = s.data :=
  List.foldlRecOn cs _ (motive := fun x : State × Option (List CellIn) => x.1.data = s.data) rfl fun x hx c _ => by
    have h := State.readCell_data x.1 r c
    split <;> rename_i heq <;> rw [heq] at h <;> exact h.trans hx

theorem State.loading_data {s s1 : State} {core n : Nat} {e : QEntry Q1Kind} {t : Tile} (h : s.loading core n = some (e, s1, t)) :
    s1.data = s.data := by
  unfold State.loading at h
  split at h
  · cases h
  · split at h
    · split at h
      · cases h
      · split at h
        · next heq =>
          cases h
          have := State.readCells_data s (QEntry.reader e core) ‹_›
          rw [heq] at this
          exact this
        · cases h
    · cases h

/-- The state in which a codebook instruction acts. -/
@[simp] theorem Ctx.tabled_data (c : Ctx) (n : Nat) : (c.tabled n).data = c.s.data := by
  unfold Ctx.tabled
  split
  · next heq =>
    have h := State.loading_data heq
    exact h
  · rfl

end Sys2Proof.Machine
end

section
/-!
PROOF. Codebook decoding and encoding, and RETAG.
-/
namespace Sys2Proof.Machine

/-- An instruction against a tile that carries BF16X2 or RAW does what its meaning does when it runs. -/
theorem Ctx.withTile_runs {c : Ctx} {o : Ops} {us : List Use} {n : Nat} {act : Mask} (hv : o.anyV = true)
    (ht : (c.s.tile c.core n).tag = 5 ∨ (c.s.tile c.core n).tag = 0) (hr : c.RunsIn o.guard us act) (k : Mask → State) :
    c.withTile o us n k = k act := by
  unfold Ctx.withTile
  dsimp only
  rw [if_neg (by rcases ht with h | h <;> simp [h]), if_pos hv, Ctx.vector_runs hr]

/-- What `runTable` commits. -/
def Ctx.tableResult (c : Ctx) (o : Ops) (pl : Plan) (n : Nat) (bad : Nat → Bool) (act : Mask) : Result :=
  let own := Mask.ofPred fun t => act.getLsbD t && c.lanePoison o pl t
  let far := Mask.ofPred fun t => act.getLsbD t && bad t
  { outs := lanes act fun t => pl.run (c.laneIn o pl t), poison := own ||| far
    origin := if (far ≠ 0 && (c.table n).tableOrigin == .data) || (own ≠ 0 && c.laneOrigin o pl act == .data) then .data else .fault
    tagOut := pl.tagOut }

theorem Ctx.runTable_eq (c : Ctx) (o : Ops) (pl : Plan) (n : Nat) (bad : Nat → Bool) (act : Mask) :
    c.runTable o pl n bad act = ({ c with s := (c.tabled n).draw } : Ctx).commit o.dst act (c.tableResult o pl n bad act) := rfl

/-- The commit of a result that writes no predicate and counts once for each thread. -/
theorem Ctx.commit_plain {c : Ctx} (h : c.s.upsets = []) {dst : Opnd} {act : Mask} {r : Result} (hl : r.long = false) (hp : r.pout = none)
    (he : r.evs = none) : c.commit dst act r =
      c.next ((c.s.setWave c.core c.slot (c.w.putLanes dst r act fun t => (r.outs.getD t {}).val)).countAll c.core c.slot c.w.uid
        (tally (r.outs.map (·.exc))) c.f.pc c.w.word) := by
  rw [Ctx.commit_short h _ _ _ hl, hp, he]
  rfl

/-- What an instruction that reads a table leaves: each active thread's value, its poison, and that of the table. -/
theorem Ctx.runTable_result {c : Ctx} (hu : c.s.upsets = []) {o : Ops} (hs : ∀ n, o.dst ≠ .s n) (pl : Plan) (n : Nat) (bad : Nat → Bool)
    (act : Mask) :
    ∃ v, VecWritten c o.dst act false (pl.tagOut 0) (fun k => (pl.run (c.laneIn o pl k)).val) (fun k => c.lanePoison o pl k || bad k) v ∧
      c.runTable o pl n bad act = c.next (((c.tabled n).draw.setWave c.core c.slot v).countAll c.core c.slot c.w.uid
        (tally ((lanes act fun k => pl.run (c.laneIn o pl k)).map (·.exc))) c.f.pc c.w.word) := by
  have hu1 : ({ c with s := (c.tabled n).draw } : Ctx).s.upsets = [] := (State.data_upsets (c.tabled_data n)).trans hu
  rw [Ctx.runTable_eq, Ctx.commit_plain hu1 rfl rfl rfl]
  refine ⟨_, (Wave.putLanes_written c o.dst (c.tableResult o pl n bad act) act _ hs).congr (fun k hk => ?_) (fun k hk => ?_), rfl⟩
  · show ((lanes act fun k => pl.run (c.laneIn o pl k)).getD k {}).val = _
    rw [lanes_getD _ hk]
  · show ((Mask.ofPred fun t => act.getLsbD t && c.lanePoison o pl t) ||| (Mask.ofPred fun t => act.getLsbD t && bad t)).getLsbD k = _
    rw [BitVec.getLsbD_or, Mask.getLsbD_ofPred, Mask.getLsbD_ofPred, hk, decide_eq_true (Mask.lt_of_getLsbD hk)]
    rfl

theorem is64_b32 : Ty.b32.is64 = false := rfl

/-- Settles O7: both conversions commit one result for each thread against the table as it stands; RETAG writes a tag alone. -/
theorem codebookAndTagResults : Obligations.CodebookAndTagResults := by
  refine ⟨?cbdec, ?cbenc, ?retagV, ?retagT⟩
  case cbdec =>
    intro o pick tile s c act hc hu hv hs hr ht entry
    obtain ⟨rfl, -⟩ := State.ctx?_eq hc
    let pl : Plan := {
      tyA := .b32, tagA := fun _ => some [0, 9], tagOut := fun _ => 5
      run := fun x => { val := (((c.table tile.toNat).codebook.getD (decCode pick.toNat x.a 0) (0, false)).1).toNat +
        2 ^ 16 * (((c.table tile.toNat).codebook.getD (decCode pick.toNat x.a 1) (0, false)).1).toNat } }
    obtain ⟨v, hw, he⟩ := Ctx.runTable_result hu hs pl tile.toNat (fun k => (entry k 0).2 || (entry k 1).2) act
    refine ⟨v, hw.congr (fun _ _ => rfl) (fun k _ => by simp [Ctx.lanePoison, pl, is64_b32, Bool.or_assoc]), ?_⟩
    rw [State.countAll_zero _ _ _ _ _ _ _ (lanes_tally_zero act _ fun _ => rfl)] at he
    rw [← he]
    show execCbdec o pick tile c.s = _
    unfold execCbdec
    rw [withCtx_eq hc]
    exact congrArg _ (Ctx.withTile_runs hv ht hr _)
  case cbenc =>
    intro o h tile s c act hc hu hv hs hr ht book codes half d
    obtain ⟨rfl, -⟩ := State.ctx?_eq hc
    let pl : Plan := {
      tyA := .b32, tagA := fun _ => some [0, 5], tagB := fun _ => some [0, 5], tagD := fun _ => some [0, 9], readD := true, tagOut := fun _ => 9
      run := fun x =>
        let rs := [elem 16 x.a 0, elem 16 x.a 1, elem 16 x.b 0, elem 16 x.b 1].map fun v => encodeCode book (bf16.flushed c.flush v)
        let half := rs.foldr (fun r acc => r.bits + 16 * acc) 0
        { val := if h then x.d % 2 ^ 16 + 2 ^ 16 * half else x.d / 2 ^ 16 * 2 ^ 16 + half, exc := rs.flatMap (·.exc) } }
    obtain ⟨v, hw, he⟩ := Ctx.runTable_result hu hs pl tile.toNat (fun _ => (c.table tile.toNat).poison.any fun p => p.1 < 8) act
    refine ⟨v, hw.congr (fun _ _ => rfl) (fun k _ => by simp [Ctx.lanePoison, pl, is64_b32, Bool.or_assoc]), ?_⟩
    have hexc : (lanes act fun k => pl.run (c.laneIn o pl k)).map (·.exc) =
        (lanes act fun k => { val := 0, exc := (codes k).flatMap (·.exc) }).map (·.exc) := by
      simp only [lanes, List.map_map]
      refine List.map_congr_left fun k _ => ?_
      by_cases hk : act.getLsbD k = true
      · simp only [Function.comp_apply, hk, if_true]; rfl
      · simp [hk]
    rw [hexc] at he
    rw [← he]
    show execCbenc o h tile c.s = _
    unfold execCbenc
    rw [withCtx_eq hc]
    exact congrArg _ (Ctx.withTile_runs hv ht hr _)
  case retagV =>
    intro o n tag hd s c act hc hr hn
    have hb : c.w.outOfBlocks { reg := o.dst, field := o.dst } = false := by
      rw [hd]
      simpa [Wave.outOfBlocks] using hn
    show execRetag o tag s = _
    unfold execRetag
    rw [withCtx_eq hc, hd]
    dsimp only
    unfold Ctx.retagVector
    rw [hr.active, if_neg hr.any, if_neg (by simp [hb]), Ctx.vector_runs hr]
  case retagT =>
    intro o n tag hd
    refine doesOnce_of (fun c => c.next (c.s.setCore c.core { c.s.core c.core with
        tiles := (c.s.core c.core).tiles.put n.toNat { (c.s.core c.core).tiles.get Tile.fresh n.toNat with tag := tag } })) (fun s => ?_) fun c _ => rfl
    show execRetag o tag s = _
    unfold execRetag
    rw [hd]

end Sys2Proof.Machine
end

section
/-!
PROOF. Fitting into integer types, the word that a step runs, words of the encoding, and the values after reset.
-/
namespace Sys2Proof.Machine

/-! ### Fitting a value into a type -/

theorem wrapN_cast (n : Nat) (y : Int) : (wrapN n y : Int) = y % 2 ^ n := by
  unfold wrapN
  rw [Int.toNat_of_nonneg (Int.emod_nonneg _ (by positivity))]
  push_cast
  rfl

/-- The value of a wrapped integer that the type can hold. -/
theorem tyVal_wrapN (ty : Ty) {y : Int} (hlo : (intRange (tySigned ty) (tyBits ty)).1 ≤ y) (hhi : y ≤ (intRange (tySigned ty) (tyBits ty)).2) :
    tyVal ty (wrapN (tyBits ty) y) = y := by
  have hw := wrapN_cast (tyBits ty) y
  have hb : tyBits ty = 32 ∨ tyBits ty = 64 := by
    unfold tyBits
    split
    · exact .inr rfl
    · exact .inl rfl
  unfold tyVal sVal intRange at *
  generalize wrapN (tyBits ty) y = x at hw ⊢
  generalize tySigned ty = signed at *
  cases signed <;> rcases hb with hb | hb <;> rw [hb] at hw hlo hhi ⊢ <;> simp only [Bool.false_eq_true, if_false, if_true] at * <;> omega

/-- Every integer type holds a value. -/
theorem intRange_le (signed : Bool) (n : Nat) : (intRange signed n).1 ≤ (intRange signed n).2 := by
  have h1 : 1 ≤ 2 ^ (n - 1) := Nat.one_le_two_pow
  have h2 : 1 ≤ 2 ^ n := Nat.one_le_two_pow
  unfold intRange
  cases signed
  · show (0 : Int) ≤ ((2 ^ n : Nat) : Int) - 1
    omega
  · show -((2 ^ (n - 1) : Nat) : Int) ≤ ((2 ^ (n - 1) : Nat) : Int) - 1
    omega

/-- Settles O1: the three branches of the clamp. -/
theorem fittingWrapsOrClamps : Obligations.FittingWrapsOrClamps := by
  intro ty y
  refine ⟨rfl, wrapN_cast _ _, ?_⟩
  intro lo hi
  have hle : lo ≤ hi := intRange_le _ _
  have hfit : fit ty true y = if y < lo then { val := wrapN (tyBits ty) lo, exc := [.sat] }
      else if hi < y then { val := wrapN (tyBits ty) hi, exc := [.sat] } else { val := wrapN (tyBits ty) y } := by
    simp only [fit, fitIn, Bool.true_and, decide_eq_true_eq, lo, hi]
  rw [hfit]
  by_cases h1 : y < lo
  · rw [if_pos h1]
    exact ⟨(tyVal_wrapN ty le_rfl hle).trans (by omega), by simp [h1], by simp; omega⟩
  · rw [if_neg h1]
    by_cases h2 : hi < y
    · rw [if_pos h2]
      exact ⟨(tyVal_wrapN ty hle le_rfl).trans (by omega), by simp [h2], by simp; omega⟩
    · rw [if_neg h2]
      exact ⟨(tyVal_wrapN ty (not_lt.1 h1) (not_lt.1 h2)).trans (by omega), by simp; omega, by simp; omega⟩

/-! ### What a step runs -/

/-- A byte of an instruction at an address that translates. -/
theorem Ctx.fetchByte_ok {c : Ctx} {user : Bool} {va : DWord} {pa : Nat} {e}
    (h : c.s.lookFor c.core c.w.part c.w.uid ⟨false, true, user⟩ va = .ok pa e) :
    c.fetchByte user va = (.ok pa e, c.s.mem.read pa, c.s.wordPoisoned pa) := by
  unfold Ctx.fetchByte
  rw [h]

/-- The fetch of twelve bytes that are at hand (R115). -/
theorem Ctx.fetch_word (c : Ctx) (user : Bool) (pc : DWord) (bytes : List Byte) (hl : bytes.length = 12)
    (h : ∀ k, k < 12 → ∃ pa e, c.s.lookFor c.core c.w.part c.w.uid ⟨false, true, user⟩ (pc + BitVec.ofNat 64 k) = .ok pa e ∧
      c.s.mem.read pa = bytes.getD k 0 ∧ c.s.wordPoisoned pa = false ∧ c.flashMiss pa = none) :
    c.fetch user pc = .word (wordOfBytes bytes) := by
  have hb : ∀ k ∈ List.range 12, ∃ pa e, c.fetchByte user (pc + BitVec.ofNat 64 k) = (.ok pa e, bytes.getD k 0, false) ∧ c.flashMiss pa = none := by
    intro k hk
    obtain ⟨pa, e, hlook, hread, hpoison, hflash⟩ := h k (List.mem_range.1 hk)
    exact ⟨pa, e, by rw [Ctx.fetchByte_ok hlook, hread, hpoison], hflash⟩
  have hlook : ∀ x ∈ (List.range 12).map fun i => (pc + BitVec.ofNat 64 i, c.fetchByte user (pc + BitVec.ofNat 64 i)),
      ∃ pa e, x.2.1 = .ok pa e ∧ c.flashMiss pa = none ∧ x.2.2.2 = false := by
    intro x hx
    obtain ⟨k, hk, rfl⟩ := List.mem_map.1 hx
    obtain ⟨pa, e, hk, hf⟩ := hb k hk
    exact ⟨pa, e, by rw [hk], hf, by rw [hk]⟩
  have hbytes : ((List.range 12).map fun i => (pc + BitVec.ofNat 64 i, c.fetchByte user (pc + BitVec.ofNat 64 i))).map (fun b => b.2.2.1) = bytes := by
    rw [List.map_map]
    refine List.ext_getElem (by simp [hl]) fun k h1 h2 => ?_
    obtain ⟨pa, e, hk, -⟩ := hb k (by simpa using h1)
    simp [hk, h2]
  unfold Ctx.fetch
  dsimp only
  split
  · next heq =>
    obtain ⟨pa, e, hk, -⟩ := hlook _ (List.mem_of_find?_eq_some heq)
    cases hk
  · next heq =>
    obtain ⟨pa, e, hk, -⟩ := hlook _ (List.mem_of_find?_eq_some heq)
    cases hk
  · split
    · next l heq =>
      obtain ⟨x, hx, hl⟩ := List.exists_of_findSome?_eq_some heq
      obtain ⟨pa, e, hk, hf, -⟩ := hlook x hx
      rw [hk] at hl
      exact absurd (hf.symm.trans hl) nofun
    · rw [if_neg, hbytes]
      rw [List.any_eq_true]
      rintro ⟨x, hx, hp⟩
      obtain ⟨pa, e, -, -, hk⟩ := hlook x hx
      rw [hk] at hp
      cases hp

/-- Settles O54: the agenda, or the scheduler, names the wave in focus, and `issueFocus` runs what its word decodes to. -/
theorem stepRunsTheDecodedInstruction : Obligations.StepRunsTheDecodedInstruction := by
  refine ⟨?agenda, ?scheduler, ?trap, ?event, Ctx.fetch_word, ?decoded, ?main⟩
  case agenda =>
    intro s t core slot rest c word ibuf i stray ha hc hn hw hd
    unfold step
    rw [ha]
    exact congrArg closeStep (issueFocus_run hc hn hw hd)
  case scheduler =>
    intro s t u c word ibuf i stray ha hp ht hnext hc hn hw hd
    unfold step
    rw [ha]
    show closeStep (idle s) = _
    unfold idle issueAny
    rw [hp, if_neg ht, hnext]
    exact congrArg closeStep (issueFocus_run hc hn hw hd)
  case trap =>
    intro s t core slot rest c c1 word ibuf tr ha hc hn hw hd h1
    unfold step
    rw [ha]
    show closeStep (issueFocus _) = _
    unfold issueFocus
    rw [State.prepare_issues hc hn, Ctx.prepare_trap hn hw hd h1]
    rfl
  case event =>
    intro s i rest ha
    unfold step
    rw [ha]
  case decoded =>
    intro c word hr
    unfold Ctx.decoded
    simp only [hr, Bool.not_true, Bool.false_eq_true, if_false]
    refine ⟨fun h => ?_, fun i h => ?_⟩
    · rw [h]
    · simp only [h, Bool.and_eq_true]
  case main =>
    intro core word h
    unfold decodeOn
    have : decide (core ≥ Config.mainCores) = false := decide_eq_false (by omega)
    cases decode word <;> simp [this]

/-! ### Words of the encoding, and the values after reset -/

/-- Settles O55. -/
theorem decodeWords : Obligations.DecodeWords := by
  refine ⟨?_, ?_, ?_, ?_, ?_, ?_, ?_, ?_⟩ <;> decide +kernel

/-- Settles O58: after reset memory holds no cell. -/
theorem resetMemoryIsCanonical : Obligations.ResetMemoryIsCanonical := rfl

/-- Settles O59: nothing is listed after reset, so every unit holds its own reset value. -/
theorem resetValues : Obligations.ResetValues := by
  refine ⟨fun core k => ⟨?_, rfl, rfl, rfl⟩, fun core h => ?_, fun k => ⟨rfl, rfl, rfl, ?_⟩,
    fun p => ⟨rfl, rfl, rfl, rfl, rfl, rfl, rfl, rfl, rfl⟩, fun p q => ⟨rfl, rfl, ?_⟩, fun h => ⟨?_, ?_⟩, rfl, rfl, rfl, rfl⟩
  · simp [Core.threshold, State.reset, State.core, Tab.get, Core.reset, bitsOf]
  · have hmain : core < Config.mainCores := h
    show (Core.reset core).free = _
    unfold Core.reset
    rw [if_pos hmain]
  · show 0 + 0 * 2 ^ 24 + 0 * 2 ^ 25 + 0 * 2 ^ 26 + 0 % 2 ^ 13 * 2 ^ 32 = _
    norm_num
  · show 5 + 0 * 2 ^ 32 = _
    norm_num
  · simp [State.headReg, State.head, State.reset, Tab.get, Head.reset]
  · simp [State.headReg, State.reset]

end Sys2Proof.Machine
end

section
/-!
PROOF. Loads, hints and stores as they issue, and what a sent store carries.
-/
namespace Sys2Proof.Machine

/-! ### Loads and hints -/

/-- A vector access that no acquire holds back does what its meaning does, an access between LR and SC (R104). -/
theorem doesIn_memory {i : Instr} {g : Guard} {us : List Use} {w : Ctx → Mask → Prop} {t : Ctx → Mask → State} (k : Ctx → Mask → State)
    (he : ∀ s, exec i s = withCtx s fun c => c.vector g us fun act => c.memory (k c act)) (hf : ∀ c act, w c act → c.FreeOfAcquire)
    (h : ∀ c act, w c act → k c act = t c act) : DoesIn i g us w t :=
  doesIn_of (fun c act => c.memory (k c act)) he fun c act hw => (Ctx.memory_free (hf c act hw) _).trans (h c act hw)

/-- The same in an instruction with a vector and a uniform form. -/
theorem doesEither_memory {i : Instr} {o : Ops} {us : List Use} {w : Ctx → Mask → Prop} {t : Ctx → Mask → State} (k : Ctx → Mask → State)
    (he : ∀ s, exec i s = withCtx s fun c => c.either o us fun act => c.memory (k c act)) (hf : ∀ c act, w c act → c.FreeOfAcquire)
    (h : ∀ c act, w c act → k c act = t c act) : DoesEither i o us w t := by
  refine ⟨fun hv => doesIn_memory k (fun s => ?_) hf h, fun hv => ?_⟩
  · rw [he]
    congr 1
    funext c
    exact if_pos hv
  · refine doesOnce_of (fun c => c.memory (k c 1)) (fun s => ?_) fun c hw => (Ctx.memory_free (hf c 1 hw) _).trans (h c 1 hw)
    rw [he]
    congr 1
    funext c
    exact if_neg (by simp [hv])

/-- The values of an LDMC that keeps its rules. -/
theorem Ctx.startLdmc_ok {c : Ctx} {o : Ops} {bar : Nat} (h1 : (c.w.scalar o.a).toNat % 16 = 0) (h2 : bitsOf (c.w.scalar o.b).toNat 50 32 % 16 = 0)
    (h3 : bitsOf (c.w.scalar o.b).toNat 50 32 + 16 * (bitsOf (c.w.scalar o.b).toNat 27 16 + 1) ≤ 0x50000)
    (h4 : bitsOf (c.w.scalar o.b).toNat 31 28 = 0) (h5 : bitsOf (c.w.scalar o.b).toNat 63 51 = 0) (h6 : bar % 16 = 0) (h7 : bar + 16 ≤ 0x50000)
    (h8 : ∀ d ∈ maskCores c.core (BitVec.ofNat 16 (c.w.scalar o.b).toNat), c.part.hasCore d = true)
    (h9 : c.core ∈ maskCores c.core (BitVec.ofNat 16 (c.w.scalar o.b).toNat) → (c.s.core c.core).sboard.length < 64) :
    c.startLdmc o bar =
      let x := (c.w.scalar o.b).toNat
      let cores := maskCores c.core (BitVec.ofNat 16 x)
      let len := 16 * (bitsOf x 27 16 + 1)
      let off := bitsOf x 50 32
      let k := c.s.core c.core
      let s1 := c.s.setCore c.core (if cores.contains c.core then { k with sboard := k.sboard ++ [⟨c.s.uid, c.w.uid, off, off + len, true, false⟩] } else k)
      if cores.isEmpty then c.next (s1.setWave c.core c.slot (c.w.putDst o.dst 0))
      else c.next (((s1.setWave c.core c.slot (c.w.markEmpty o.dst 0)).addOps c.core
          [c.op (.ldmc o.dst (c.w.scalar o.a) len off bar (BitVec.ofNat 16 x) false none)]).touchAccs c.core c.w.part c.w.uid c.w.depth (fun _ => false)
        ((linesOf (c.w.scalar o.a) len).map fun l => (BitVec.ofNat 64 (l * 128), 1))) := by
  have hown : ((maskCores c.core (BitVec.ofNat 16 (c.w.scalar o.b).toNat)).contains c.core && decide ((c.s.core c.core).sboard.length ≥ 64)) = false := by
    by_cases hc : c.core ∈ maskCores c.core (BitVec.ofNat 16 (c.w.scalar o.b).toNat)
    · have := h9 hc
      simp [this]
    · rw [List.contains_eq_mem, decide_eq_false hc, Bool.false_and]
  have hcores : ((maskCores c.core (BitVec.ofNat 16 (c.w.scalar o.b).toNat)).any fun d => !c.part.hasCore d) = false := by
    rw [List.any_eq_false]
    intro d hd
    simp [h8 d hd]
  unfold Ctx.startLdmc
  dsimp only
  rw [if_neg (by simp [h1]), if_neg (by simp [h2, h4, h5]; omega), if_neg (by simp [h6]; omega), if_neg (by rw [hcores]; simp),
    if_neg (by rw [hown]; simp)]

/-- Settles O20: nothing holds the accesses back, so each is what it starts. -/
theorem loadsAndHintsStart : Obligations.LoadsAndHintsStart := by
  refine ⟨?loads, ?ldmc, ?pref, ?thint⟩
  case loads =>
    intro started
    have hstart : ∀ (o : Ops) ty one cnt (sub : BitVec 2) nc lr (c : Ctx) act,
        c.spoil.startLoad o ty one cnt sub.toNat nc lr act = started o ty one cnt sub nc lr c act := by
      intro o ty one cnt sub nc lr c act
      unfold Ctx.startLoad
      rw [BitVec.ofNat_toNat, BitVec.setWidth_eq]
      rfl
    refine ⟨fun o ty one cnt sub => ?_, fun o ty one cnt sub => ?_, fun o ty cnt => ?_, fun o ty => ?_⟩
    · exact doesIn_memory _ (fun _ => rfl) (fun _ _ h => h) fun c act _ => hstart o ty one cnt sub false false c act
    · exact doesIn_memory _ (fun _ => rfl) (fun _ _ h => h) fun c act _ => hstart o ty one cnt sub true false c act
    · exact doesOnce_of _ (fun _ => rfl) fun c h => (Ctx.memory_free h _).trans (hstart o ty false cnt 0 false false c 1)
    · exact doesIn_memory _ (fun _ => rfl) (fun _ _ h => h) fun c act _ => hstart o ty false .x1 0 false true c act
  case ldmc =>
    intro o bar
    refine doesIn_memory (fun c _ => c.spoil.startLdmc o bar.toNat) (fun _ => rfl) (fun c _ h => h.1) fun c0 act h => ?_
    obtain ⟨-, h1, h2, h3, h4, h5, h6, h7, h8, h9⟩ := h
    rw [Ctx.startLdmc_ok h1 h2 h3 h4 h5 h6 h7 h8 h9]
    simp only [List.isEmpty_iff]
  case pref =>
    exact fun o llc => doesEither_memory (fun c act => c.prefetch o llc act) (fun _ => rfl) (fun _ _ h => h) fun c act _ => rfl
  case thint =>
    intro o hint
    refine doesOnce_of _ (fun _ => rfl) fun c h => ?_
    dsimp only
    rw [Ctx.enqueue_room h]
    simp only [Bool.or_eq_true, decide_eq_true_eq, ge_iff_le]

/-! ### Stores -/

/-- In a list with an entry for each thread, the entries found for the threads are theirs. -/
theorem filterMap_find?_self {α β γ : Type} (f : Nat → α) (p : Nat → β) (g : Nat → β → α → γ) (ts : List Nat) :
    (ts.map fun t => (t, p t)).filterMap (fun x => ((ts.map fun t => (t, f t)).find? fun y => y.1 = x.1).map fun y => g x.1 x.2 y.2) =
      ts.map fun t => g t (p t) (f t) := by
  rw [List.filterMap_map]
  refine (List.filterMap_congr (g := some ∘ fun t => g t (p t) (f t)) fun t ht => ?_).trans (by rw [List.filterMap_eq_map])
  show Option.map _ (List.find? (fun y => decide (y.1 = t)) (ts.map fun t => (t, f t))) = _
  rw [find?_map_key, if_pos ht]
  rfl

/-- The stores of threads whose bytes all translate. -/
theorem Ctx.store_sent {c : Ctx} {o : Ops} {ty : Ty} {one : Bool} {cnt sub : Nat} {nt : Bool} {act : Mask} {ps : Nat → List Nat}
    (h : c.Reaches (c.globalAddr o o.a) (fun _ => List.range (regBytes ty one * cnt))
      (fun va => misaligned ty one (regBytes ty one * cnt) va.toNat) act.threads ps) :
    c.store o ty one cnt sub nt act =
      let out := fun (k : Nat) => storeAll ty one sub (c.mode .fpmode) ((List.range cnt).map fun i => c.w.dataAt o.b ty i k)
      c.next ((c.translated.sendStores (act.threads.map fun k => (k, placeBytes (out k).bytes (ps k))) nt).countAll c.core c.slot c.w.uid
        (tally (act.threads.map fun k => (out k).exc)) c.f.pc c.w.word) := by
  unfold Ctx.store
  dsimp only
  rw [List.map_map, List.map_map]
  refine (Ctx.reachAll_ok h _).trans ?_
  rw [filterMap_find?_self (fun t => storeAll ty one sub (c.mode .fpmode) ((List.range cnt).map fun i => c.w.dataAt o.b ty i t)) ps
    (fun t p x => (t, placeBytes x.bytes p))]
  rfl

/-- The threads of a masked store and the bytes that each enables. -/
theorem Ctx.stmThreads (c : Ctx) (o : Ops) (quad : Bool) (act : Mask) :
    (act.threads.filterMap fun t => if c.stmMask o quad t = 0 then none
      else some (t, (List.range 4).filter fun i => bitOf (c.stmMask o quad t) i)) =
    (act.threads.filter fun k => c.stmMask o quad k != 0).map fun t => (t, (List.range 4).filter fun i => bitOf (c.stmMask o quad t) i) := by
  rw [← List.filterMap_eq_map, ← List.filterMap_eq_filter, List.filterMap_filterMap]
  refine List.filterMap_congr fun t _ => ?_
  by_cases h0 : c.stmMask o quad t = 0 <;> simp [h0, Option.guard]

/-- The stores of the masked bytes of a word, where all translate. -/
theorem Ctx.storeMasked_sent {c : Ctx} {o : Ops} {quad : Bool} {act : Mask} {ps : Nat → List Nat}
    (h : c.Reaches (c.globalAddr o o.a) (fun k => (List.range 4).filter fun i => bitOf (c.stmMask o quad k) i) (fun _ => false)
      (act.threads.filter fun k => c.stmMask o quad k != 0) ps) :
    c.storeMasked o quad act = c.next (c.translated.sendStores ((act.threads.filter fun k => c.stmMask o quad k != 0).map fun k =>
      (k, placeBytes (((List.range 4).filter fun i => bitOf (c.stmMask o quad k) i).map fun i =>
        (BitVec.ofNat 8 (c.w.value c.f.exec o.b .b32 0 k / 2 ^ (8 * i)), 0xFF)) (ps k))) false) := by
  unfold Ctx.storeMasked
  dsimp only
  rw [c.stmThreads o quad act, List.map_map]
  refine (Ctx.reachAll_ok h _).trans ?_
  rw [filterMap_find?_self (fun t => (List.range 4).filter fun i => bitOf (c.stmMask o quad t) i) ps
    (fun t p x => (t, placeBytes (x.map fun i => (BitVec.ofNat 8 (c.w.value c.f.exec o.b .b32 0 t / 2 ^ (8 * i)), 0xFF)) p))]

/-! ### What a sent store carries -/

/-- Every thread keeps its place among those of an instruction, whatever their order. -/
theorem threadOrder_perm (free : Nat) (overlap : Bool) (ts : List Nat) : (threadOrder free overlap ts).Perm ts := by
  unfold threadOrder
  split
  · exact List.Perm.refl _
  · have hstep : ∀ (ts l : List Nat), (ts.foldl (fun l t => (l.filter fun u => Config.atomRank (free * 128 + u) ≤ Config.atomRank (free * 128 + t)) ++
        t :: l.filter fun u => Config.atomRank (free * 128 + u) > Config.atomRank (free * 128 + t)) l).Perm (ts ++ l) := by
      intro ts
      induction ts with
      | nil => exact List.Perm.refl
      | cons t ts ih =>
        intro l
        refine (ih _).trans (List.Perm.trans (List.Perm.append_left ts (List.perm_middle.trans ?_)) List.perm_middle)
        refine List.Perm.cons t ?_
        have h := List.filter_append_perm (fun u => decide (Config.atomRank (free * 128 + u) ≤ Config.atomRank (free * 128 + t))) l
        simp only [← decide_not, not_le] at h
        exact h
    simpa using hstep ts []

/-- The accesses of some threads, in another order. -/
theorem mem_reordered {α : Type} {key : α → Nat} {xs : List α} (hp : xs.Pairwise fun a b => key a ≠ key b) {order : List Nat}
    (ho : ∀ k, k ∈ order ↔ k ∈ xs.map key) (x : α) : x ∈ order.filterMap (fun t => xs.find? fun y => key y = t) ↔ x ∈ xs := by
  rw [List.mem_filterMap]
  constructor
  · rintro ⟨t, -, h⟩
    exact List.mem_of_find?_eq_some h
  · intro hx
    refine ⟨key x, (ho _).2 (List.mem_map_of_mem hx), ?_⟩
    obtain ⟨y, hy⟩ : ∃ y, xs.find? (fun y => key y = key x) = some y := by
      rw [← Option.isSome_iff_exists, List.find?_isSome]
      exact ⟨x, hx, by simp⟩
    have hy1 : key y = key x := by simpa using List.find?_some hy
    rw [hy, List.inj_on_of_nodup_map (List.pairwise_map.2 hp) (List.mem_of_find?_eq_some hy) hx hy1]

/-- A line that is covered whole with zeros: each of its bytes is written as an enabled zero, and no byte of it otherwise. -/
theorem mem_zeroLines {xs : List (Nat × List ByteWrite)} {l : Nat} (h : l ∈ zeroLines xs) :
    (∀ x ∈ xs, ∀ b ∈ x.2, b.addr / 128 = l → b = ⟨b.addr, 0, 0xFF⟩) ∧
      ∀ i, i < 128 → ∃ x ∈ xs, (⟨l * 128 + i, 0, 0xFF⟩ : ByteWrite) ∈ x.2 := by
  unfold zeroLines at h
  dsimp only at h
  split at h
  · cases h
  · obtain ⟨-, h⟩ := List.mem_filter.1 h
    rw [Bool.and_eq_true] at h
    obtain ⟨hall, hany⟩ := h
    have hzero : ∀ x ∈ xs, ∀ b ∈ x.2, b.addr / 128 = l → b = ⟨b.addr, 0, 0xFF⟩ := by
      intro x hx b hb hl
      have := List.all_eq_true.1 hall b (List.mem_filter.2 ⟨List.mem_flatMap.2 ⟨x, hx, hb⟩, by simpa using hl⟩)
      obtain ⟨a, v, e⟩ := b
      simp only [Bool.and_eq_true, beq_iff_eq] at this
      rw [this.1, this.2]
    refine ⟨hzero, fun i hi => ?_⟩
    obtain ⟨b, hb, hba⟩ := List.any_eq_true.1 (List.all_eq_true.1 hany i (List.mem_range.2 hi))
    obtain ⟨hb, hbl⟩ := List.mem_filter.1 hb
    obtain ⟨x, hx, hb⟩ := List.mem_flatMap.1 hb
    have ha : b.addr = l * 128 + i := by simpa using hba
    have := hzero x hx b hb (by simpa using hbl)
    rw [ha] at this
    exact ⟨x, hx, this ▸ hb⟩

/-- Gathering zero lines loses no byte and adds none. -/
theorem mem_gatherZeros (xs : List (Nat × List ByteWrite)) (b : ByteWrite) :
    (∃ x ∈ gatherZeros xs, b ∈ x.2) ↔ ∃ x ∈ xs, b ∈ x.2 := by
  unfold gatherZeros
  dsimp only
  split
  · rfl
  · constructor
    · rintro ⟨x, hx, hb⟩
      rcases List.mem_append.1 hx with hx | hx
      · obtain ⟨y, hy, rfl⟩ := List.mem_map.1 (List.mem_filter.1 hx).1
        exact ⟨y, hy, (List.mem_filter.1 hb).1⟩
      · obtain ⟨l, hl, rfl⟩ := List.mem_map.1 hx
        obtain ⟨i, hi, rfl⟩ := List.mem_map.1 hb
        exact (mem_zeroLines hl).2 i (List.mem_range.1 hi)
    · rintro ⟨x, hx, hb⟩
      by_cases hz : b.addr / 128 ∈ zeroLines xs
      · refine ⟨_, List.mem_append_right _ (List.mem_map_of_mem hz), List.mem_map.2 ⟨b.addr % 128, List.mem_range.2 (Nat.mod_lt _ (by decide)), ?_⟩⟩
        rw [(mem_zeroLines hz).1 x hx b hb rfl, Nat.div_add_mod']
      · have hk : b ∈ x.2.filter fun b => !(zeroLines xs).contains (b.addr / 128) := List.mem_filter.2 ⟨hb, by simpa using hz⟩
        refine ⟨_, List.mem_append_left _ (List.mem_filter.2 ⟨List.mem_map_of_mem hx, ?_⟩), hk⟩
        simpa using List.ne_nil_of_mem hk

/-- Updating the L1 leaves the operations under way. -/
theorem Core.foldl_memq {α : Type} {f : Core → α → Core} (h : ∀ k a, (f k a).memq = k.memq) (l : List α) (k : Core) :
    (l.foldl f k).memq = k.memq :=
  List.foldlRecOn l f (motive := fun t => t.memq = k.memq) rfl fun t ht a _ => (h t a).trans ht

/-- Operations added to those under way come after them. -/
theorem State.memq_addOps (s : State) (core : Nat) (ops : List MemOp) : ((s.addOps core ops).core core).memq = (s.core core).memq ++ ops := by
  unfold State.addOps
  show ((s.setCore core _).core core).memq = _
  rw [State.core_setCore_same]

/-- What a store leaves of the operations under way: those of its threads come after them. -/
theorem Ctx.sendStores_memq (c : Ctx) (xs : List (Nat × List ByteWrite)) (nt : Bool) :
    ((c.sendStores xs nt).core c.core).memq = (c.s.core c.core).memq ++
      (gatherZeros ((threadOrder c.s.freeCtr (overlaps (xs.map fun x => x.2.map (·.addr))) (xs.map (·.1))).filterMap fun t =>
        xs.find? fun x => x.1 = t)).map fun x => c.op (.store x.1 x.2 false nt) := by
  unfold Ctx.sendStores
  extract_lets lap order sorted k busy free k1
  rw [State.memq_addOps]
  congr 1
  show ((c.s.setCore c.core k1).core c.core).memq = _
  rw [State.core_setCore_same]
  dsimp only [k1]
  split
  · rfl
  · refine Core.foldl_memq (fun k x => ?_) _ _
    split
    · exact Core.foldl_memq (f := fun k l => k.l1Drop (.phys l)) (fun _ _ => rfl) _ _
    · split <;> rfl

/-- Settles O21: the threads' bytes are what is sent; a sent store is an operation under way for each thread or zero line. -/
theorem storesAreSent : Obligations.StoresAreSent := by
  refine ⟨?sent, ?carries⟩
  case sent =>
    intro stored reaches
    refine ⟨fun o ty one cnt sub ps => ?_, fun o ty one cnt sub ps => ?_, fun o quad ps => ?_⟩
    · exact doesEither_memory (fun c act => c.spoil.store o ty one cnt.num sub.toNat false act) (fun _ => rfl) (fun _ _ h => h.1)
        fun c act h => Ctx.store_sent h.2
    · exact doesEither_memory (fun c act => c.spoil.store o ty one cnt.num sub.toNat true act) (fun _ => rfl) (fun _ _ h => h.1)
        fun c act h => Ctx.store_sent h.2
    · exact doesIn_memory (fun c act => c.spoil.storeMasked o quad act) (fun _ => rfl) (fun _ _ h => h.1) fun c act h => Ctx.storeMasked_sent h.2
  case carries =>
    intro c xs nt hp
    refine ⟨rfl, ?_⟩
    let order := threadOrder c.s.freeCtr (overlaps (xs.map fun x => x.2.map (·.addr))) (xs.map (·.1))
    let sorted := order.filterMap fun t => xs.find? fun x => x.1 = t
    have hsorted : ∀ x, x ∈ sorted ↔ x ∈ xs := mem_reordered hp fun k => (threadOrder_perm _ _ _).mem_iff
    refine ⟨(gatherZeros sorted).map fun x => c.op (.store x.1 x.2 false nt), ?_, ?_, ?_⟩
    · exact c.sendStores_memq xs nt
    · rintro m hm
      obtain ⟨x, hx, rfl⟩ := List.mem_map.1 hm
      refine ⟨rfl, x.1, x.2, rfl, fun b hb => ?_⟩
      obtain ⟨y, hy, hb⟩ := (mem_gatherZeros sorted b).1 ⟨x, hx, hb⟩
      exact ⟨y, (hsorted y).1 hy, hb⟩
    · intro x hx b hb
      obtain ⟨y, hy, hb⟩ := (mem_gatherZeros sorted b).2 ⟨x, (hsorted x).2 hx, hb⟩
      exact ⟨_, List.mem_map_of_mem hy, y.1, y.2, rfl, hb⟩

end Sys2Proof.Machine
end

section
/-!
PROOF. The checks of an access before any data is sent: each names the lowest thread that breaks the rule.
-/
namespace Sys2Proof.Machine

/-- An instruction with a vector and a uniform form runs in the threads of its active mask, or once, as thread 0. -/
theorem Ctx.either_runs {c : Ctx} {o : Ops} {us : List Use} {act : Mask}
    (h : (o.anyV = true ∧ c.RunsIn o.guard us act) ∨ (o.anyV = false ∧ act = 1 ∧ c.RunsOnce o.guard us)) (k : Mask → State) :
    c.either o us k = k act := by
  unfold Ctx.either
  rcases h with ⟨hv, hr⟩ | ⟨hv, rfl, hr⟩
  · rw [if_pos hv, Ctx.vector_runs hr]
  · rw [if_neg (by simp [hv]), Ctx.uniform_runs hr]

/-- Such an instruction, where no acquire holds back an access. -/
theorem Ctx.either_memory {s : State} {c : Ctx} {o : Ops} {us : List Use} {act : Mask} (hc : s.ctx? = some c) (hf : c.FreeOfAcquire)
    (h : (o.anyV = true ∧ c.RunsIn o.guard us act) ∨ (o.anyV = false ∧ act = 1 ∧ c.RunsOnce o.guard us)) (k : Ctx → Mask → State) :
    (withCtx s fun c => c.either o us fun act => c.memory (k c act)) = .next (k c act) := by
  rw [withCtx_eq hc, Ctx.either_runs h, Ctx.memory_free hf]

/-! ### Translation -/

/-- What the translation of one access finds, a misaligned address first. -/
def Ctx.found (c : Ctx) (bad : DWord → Bool) (a : Nat × DWord × List Nat) : Reach :=
  if bad a.2.1 then .fault 3 a.2.1 else c.reach true a.2.1 a.2.2

/-- A search passes over what fails its test. -/
theorem find?_append_cons {α : Type} {p : α → Bool} {before : List α} {a : α} (after : List α) (hb : ∀ x ∈ before, p x = false) (ha : p a = true) :
    (before ++ a :: after).find? p = some a := by
  rw [List.find?_append, List.find?_eq_none.2 fun x hx => by simp [hb x hx], Option.none_or, List.find?_cons_of_pos ha]

/-- With no miss, the translation stops at the first access that does not reach its bytes. -/
theorem Ctx.reachAll_stops {c : Ctx} {bad : DWord → Bool} {before : List (Nat × DWord × List Nat)} {a : Nat × DWord × List Nat}
    {after : List (Nat × DWord × List Nat)} (hb : ∀ x ∈ before, bad x.2.1 = false ∧ ∃ ps, c.reach true x.2.1 x.2.2 = .bytes ps)
    (hm : ∀ x ∈ a :: after, bad x.2.1 = true ∨ ∀ va, c.reach true x.2.1 x.2.2 ≠ .miss va) (o : Ops)
    (k : Ctx → List (Nat × List Nat) → State) :
    (∀ cls va, c.found bad a = .fault cls va → c.reachAll o true (before ++ a :: after) bad k =
      c.trap { cause := 8, detail := cls, thread := if o.anyV then a.1 else 0, oper := o.a.bits.toNat, addr := va }) ∧
    (∀ va, c.found bad a = .genro va → c.reachAll o true (before ++ a :: after) bad k =
      c.trap { cause := 9, detail := 5, thread := if o.anyV then a.1 else 0, oper := o.a.bits.toNat, addr := va }) := by
  have hbytes : ∀ x ∈ before, ∃ ps, c.found bad x = .bytes ps := fun x hx => by
    obtain ⟨h1, ps, h2⟩ := hb x hx
    exact ⟨ps, by rw [Ctx.found, h1]; exact h2⟩
  have hmiss : ∀ x ∈ before ++ a :: after, ∀ va, c.found bad x ≠ .miss va := fun x hx va h => by
    rcases List.mem_append.1 hx with hx | hx
    · obtain ⟨ps, hp⟩ := hbytes x hx
      rw [hp] at h
      cases h
    · unfold Ctx.found at h
      split at h
      · cases h
      · rename_i hbad
        exact (hm x hx).elim hbad fun h' => h' va h
  have hnone : (((before ++ a :: after).map fun x => (x.1, x.2.1, c.found bad x)).filterMap fun r =>
      match r.2.2 with | .miss va => some va | _ => none) = [] := by
    rw [List.filterMap_map, List.filterMap_eq_nil_iff]
    intro x hx
    have := hmiss x hx
    show (match c.found bad x with | .miss va => some va | _ => none) = none
    split
    · rename_i va h
      exact absurd h (this va)
    · rfl
  have hfind : ∀ r, c.found bad a = r → (∀ ps, r ≠ .bytes ps) →
      ((before ++ a :: after).map fun x => (x.1, x.2.1, c.found bad x)).find? (fun r => match r.2.2 with | .bytes _ => false | _ => true) =
        some (a.1, a.2.1, r) := by
    rintro r rfl hr
    rw [List.map_append, List.map_cons]
    refine find?_append_cons _ (fun y hy => ?_) ?_
    · obtain ⟨x, hx, rfl⟩ := List.mem_map.1 hy
      obtain ⟨ps, hp⟩ := hbytes x hx
      simp only [hp]
    · dsimp only
      split
      · rename_i ps h
        exact absurd h (hr ps)
      · rfl
  unfold Ctx.reachAll
  dsimp only
  refine ⟨fun cls va h => ?_, fun va h => ?_⟩
  · split
    · rename_i hn
      exact absurd (hn.symm.trans (congrArg (fun l => !l.isEmpty) hnone)) (by simp)
    · have := hfind _ h (by simp)
      split
      · rename_i t x cls' va' hf
        cases this.symm.trans hf
        rfl
      · rename_i hf
        cases this.symm.trans hf
      · rename_i hf hg
        exact (hf _ _ _ _ this).elim
  · split
    · rename_i hn
      exact absurd (hn.symm.trans (congrArg (fun l => !l.isEmpty) hnone)) (by simp)
    · have := hfind _ h (by simp)
      split
      · rename_i hf
        cases this.symm.trans hf
      · rename_i t x va' hf
        cases this.symm.trans hf
        rfl
      · rename_i hf hg
        exact (hg _ _ _ this).elim

/-- The traps of an instruction that translates its accesses and acts on what they reach. -/
theorem Ctx.reachAll_traps {c : Ctx} {bad : DWord → Bool} {before : List (Nat × DWord × List Nat)} {a : Nat × DWord × List Nat}
    {after : List (Nat × DWord × List Nat)} {o : Ops} {r : Host.Outcome State Fault Refusal} {k : Ctx → List (Nat × List Nat) → State}
    (hr : r = .next (c.reachAll o true (before ++ a :: after) bad k))
    (hb : ∀ x ∈ before, bad x.2.1 = false ∧ ∃ ps, c.reach true x.2.1 x.2.2 = .bytes ps)
    (hm : ∀ x ∈ a :: after, bad x.2.1 = true ∨ ∀ va, c.reach true x.2.1 x.2.2 ≠ .miss va) :
    let thread := if o.anyV then a.1 else 0
    (bad a.2.1 = true → r = .next (c.trap { cause := 8, detail := 3, thread := thread, oper := o.a.bits.toNat, addr := a.2.1 })) ∧
    (∀ cls va, bad a.2.1 = false → c.reach true a.2.1 a.2.2 = .fault cls va → r =
      .next (c.trap { cause := 8, detail := cls, thread := thread, oper := o.a.bits.toNat, addr := va })) ∧
    (∀ va, bad a.2.1 = false → c.reach true a.2.1 a.2.2 = .genro va → r =
      .next (c.trap { cause := 9, detail := 5, thread := thread, oper := o.a.bits.toNat, addr := va })) := by
  obtain ⟨hfault, hgen⟩ := Ctx.reachAll_stops hb hm o k
  rw [hr]
  refine ⟨fun h => ?_, fun cls va h hx => ?_, fun va h hx => ?_⟩
  · rw [hfault 3 a.2.1 (by simp [Ctx.found, h])]
  · rw [hfault cls va (by simp [Ctx.found, h, hx])]
  · rw [hgen va (by simp [Ctx.found, h, hx])]

/-! ### The windows of the scratchpad -/

/-- The threads of a mask outside another. -/
theorem Mask.threads_without (act : Mask) (skip : Nat → Bool) :
    (act &&& ~~~(Mask.ofPred fun k => act.getLsbD k && skip k)).threads = act.threads.filter fun k => !skip k := by
  unfold Mask.threads
  rw [List.filter_filter]
  refine List.filter_congr fun k hk => ?_
  have hk : k < 128 := List.mem_range.1 hk
  rw [BitVec.getLsbD_and, BitVec.getLsbD_not, Mask.getLsbD_ofPred]
  cases act.getLsbD k <;> simp [hk]

/-- No thread is left out. -/
theorem Mask.threads_without_none (act : Mask) : (act &&& ~~~(0 : Mask)).threads = act.threads := by
  congr 1
  exact BitVec.and_allOnes

/-- WINDOW, and where every thread lies in its window MISALIGN (R75), at the lowest thread. -/
theorem Ctx.spCheck_traps {c : Ctx} {o : Ops} {act skip : Mask} {ts : List Nat} (hts : (act &&& ~~~skip).threads = ts) {n t : Nat} {align out : Bool}
    {k : List SpAcc → State} :
    (ts.find? (fun k => (spTarget c.core (c.spAddr o k) n).isNone) = some t → c.spCheck o act skip n align out k =
      c.trap { cause := 7, thread := if o.anyV then t else 0, oper := o.a.bits.toNat, addr := BitVec.ofNat 64 (c.spAddr o t) }) ∧
    ((∀ u ∈ ts, (spTarget c.core (c.spAddr o u) n).isSome = true) → align = true → ts.find? (fun k => c.spAddr o k % min n 16 != 0) = some t →
      c.spCheck o act skip n align out k =
      c.trap { cause := 6, thread := if o.anyV then t else 0, oper := o.a.bits.toNat, addr := BitVec.ofNat 64 (c.spAddr o t) }) := by
  subst hts
  unfold Ctx.spCheck
  refine ⟨fun h => ?_, fun hw ha h => ?_⟩
  · dsimp only
    rw [h]
  · have hnone : (act &&& ~~~skip).threads.find? (fun k => (spTarget c.core (c.spAddr o k) n).isNone) = none := by
      refine List.find?_eq_none.2 fun u hu => ?_
      simpa [Option.isSome_iff_ne_none] using hw u hu
    subst ha
    dsimp only
    rw [hnone]
    simp only [Bool.true_and, h]

/-- The scalars of a wave are no reservation. -/
@[simp] theorem Ctx.spoil_scalar (c : Ctx) (x : Opnd) : c.spoil.w.scalar x = c.w.scalar x := by
  unfold Ctx.spoil
  split
  · rfl
  · cases x <;> rfl

/-- The bits of a credit's object: a multiple of 16 below the scratchpad's end. -/
theorem Ctx.storeSp_window {c : Ctx} {o : Ops} (h : (c.w.scalar o.dst).toNat % 16 ≠ 0 ∨ 0x50000 ≤ (c.w.scalar o.dst).toNat) (ty : Ty) (one : Bool)
    (cnt : Nat) (act : Mask) : c.storeSp o ty one cnt true act = c.trap { cause := 7, oper := o.dst.bits.toNat } := by
  unfold Ctx.storeSp
  dsimp only
  rw [if_pos (by simpa using h)]

/-- A store whose credit's object stands in the scratchpad is checked as any other. -/
theorem Ctx.storeSp_checked {c : Ctx} {o : Ops} {credit : Bool}
    (h : credit = true → (c.w.scalar o.dst).toNat % 16 = 0 ∧ (c.w.scalar o.dst).toNat < 0x50000) (ty : Ty) (one : Bool) (cnt : Nat) (act : Mask) :
    ∃ k, c.storeSp o ty one cnt credit act = c.spCheck o act 0 (regBytes ty one * cnt) (needsAlign ty one) true k := by
  unfold Ctx.storeSp
  dsimp only
  refine ⟨_, if_neg ?_⟩
  cases credit
  · simp
  · obtain ⟨h1, h2⟩ := h rfl
    simp [h1, h2]

/-- A scratchpad load is checked in the threads with an unpoisoned address (R52). -/
theorem Ctx.loadSp_checked (c : Ctx) (o : Ops) (ty : Ty) (one : Bool) (cnt : Nat) (act : Mask) :
    ∃ k, c.loadSp o ty one cnt act = c.spCheck o act (Mask.ofPred fun t => act.getLsbD t && c.w.poisonAt o.a false t) (regBytes ty one * cnt)
      (needsAlign ty one) false k := by
  unfold Ctx.loadSp
  exact ⟨_, rfl⟩

/-- A scratchpad atomic is checked in all its threads. -/
theorem Ctx.startAtoms_checked (c : Ctx) (o : Ops) (ty : Ty) (op : AOp) (act : Mask) :
    ∃ k, c.startAtoms o ty op act = c.spCheck o act 0 (regBytes ty false) true true k := by
  unfold Ctx.startAtoms
  exact ⟨_, rfl⟩

/-- Settles O22: the frames of translation and of scratchpad access stop at the lowest thread that breaks a rule. -/
theorem accessChecksTrap : Obligations.AccessChecksTrap := by
  refine ⟨?memory, ?scratchpad⟩
  case memory =>
    intro traps either whole lockUses
    refine ⟨?st, ?stm, ?atom, ?sc, ?rel, ?lock⟩
    case st =>
      intro i o ty one cnt sub hi s c0 act before a after hc hf hr c haccs hb hm
      have hstore : ∀ nt, ∃ k, c.store o ty one cnt.num sub.toNat nt act =
          c.reachAll o true (before ++ a :: after) (fun va => misaligned ty one (regBytes ty one * cnt.num) va.toNat) k := by
        intro nt
        rw [← haccs]
        unfold Ctx.store
        dsimp only
        rw [List.map_map]
        exact ⟨_, rfl⟩
      rcases hi with rfl | rfl
      · obtain ⟨k, hk⟩ := hstore false
        exact Ctx.reachAll_traps ((Ctx.either_memory hc hf hr fun c act => c.spoil.store o ty one cnt.num sub.toNat false act).trans
          (congrArg _ hk)) hb hm
      · obtain ⟨k, hk⟩ := hstore true
        exact Ctx.reachAll_traps ((Ctx.either_memory hc hf hr fun c act => c.spoil.store o ty one cnt.num sub.toNat true act).trans
          (congrArg _ hk)) hb hm
    case stm =>
      intro o quad s c0 act before a after hc hf hr c haccs hb hm
      have hstore : ∃ k, c.storeMasked o quad act = c.reachAll o true (before ++ a :: after) (fun _ => false) k := by
        rw [← haccs]
        unfold Ctx.storeMasked
        dsimp only
        rw [c.stmThreads o quad act, List.map_map]
        exact ⟨_, rfl⟩
      obtain ⟨k, hk⟩ := hstore
      refine Ctx.reachAll_traps (bad := fun _ => false) (k := k) ?_ hb hm
      rw [← hk]
      show withCtx s _ = _
      rw [withCtx_eq hc, Ctx.vector_runs hr, Ctx.memory_free hf]
    case atom =>
      intro i o ty cas hi s c0 act before a after hc hf hr c haccs hb hm
      have hatom : ∀ op fop, ∃ k, c.startAtom o ty op fop cas act =
          c.reachAll o true (before ++ a :: after) (fun va => va.toNat % regBytes ty false != 0) k := by
        intro op fop
        rw [← haccs]
        unfold Ctx.startAtom
        exact ⟨_, rfl⟩
      rcases hi with ⟨⟨op, rfl⟩, rfl⟩ | ⟨⟨op, rfl⟩, rfl⟩ | ⟨rfl, rfl⟩
      · obtain ⟨k, hk⟩ := hatom (some op) none
        exact Ctx.reachAll_traps ((Ctx.either_memory hc hf hr fun c act => c.spoil.startAtom o ty (some op) none false act).trans (congrArg _ hk)) hb hm
      · obtain ⟨k, hk⟩ := hatom none (some op)
        exact Ctx.reachAll_traps ((Ctx.either_memory hc hf hr fun c act => c.spoil.startAtom o ty none (some op) false act).trans (congrArg _ hk)) hb hm
      · obtain ⟨k, hk⟩ := hatom none none
        exact Ctx.reachAll_traps ((Ctx.either_memory hc hf hr fun c act => c.spoil.startAtom o ty none none true act).trans (congrArg _ hk)) hb hm
    case sc =>
      intro o ty s c0 act before a after hc hf hr c haccs hb hm
      have hsc : ∃ k, c.startSc o ty act = c.reachAll o true (before ++ a :: after) (fun va => va.toNat % regBytes ty false != 0) k := by
        rw [← haccs]
        unfold Ctx.startSc
        exact ⟨_, rfl⟩
      obtain ⟨k, hk⟩ := hsc
      refine Ctx.reachAll_traps (bad := fun va => va.toNat % regBytes ty false != 0) (k := k) ?_ hb hm
      rw [← hk]
      show withCtx s _ = _
      rw [withCtx_eq hc, Ctx.vector_runs hr, Ctx.memory_free hf]
      rfl
    case rel =>
      rintro o scope s c0 act before a after hc hf ⟨rfl, hr, halign⟩ c haccs hb hm
      have hlock : ∀ gen k, ∃ k', c.lockWord o true gen k = c.reachAll o true (before ++ a :: after) (fun _ => false) k' := by
        intro gen k
        rw [← haccs]
        unfold Ctx.lockWord
        dsimp only
        rw [if_neg fun h => h halign, if_neg (by simp)]
        exact ⟨_, rfl⟩
      obtain ⟨k, hk⟩ := hlock c.s fun c1 ps => c1.releases scope fun c2 =>
        c.next (c2.sendStores [(0, placeBytes (wholeBytes 8 (c.w.scalar o.b).toNat) ps)] false)
      refine Ctx.reachAll_traps (bad := fun _ => false) (k := k) ?_ hb hm
      rw [← hk]
      show withCtx s _ = _
      rw [withCtx_eq hc, Ctx.uniform_runs hr, Ctx.memory_free hf]
      rfl
    case lock =>
      intro o scope
      refine doesOnce_of _ (fun _ => rfl) fun c ⟨hf, h⟩ => ?_
      rw [Ctx.memory_free hf]
      unfold Ctx.lockWord
      exact if_pos h
  case scratchpad =>
    intro traps stsUses
    refine ⟨?lds, ?sts, ?atoms, ?credit⟩
    case lds =>
      intro o ty one cnt s c0 act t hc hf _ hr c ts trap
      have hts : (act &&& ~~~(Mask.ofPred fun t => act.getLsbD t && c.w.poisonAt o.a false t)).threads = ts := Mask.threads_without act _
      obtain ⟨k, hk⟩ := c.loadSp_checked o ty one cnt.num act
      have hx := (Ctx.either_memory hc hf hr fun c act => c.spoil.loadSp o ty one cnt.num act).trans (congrArg _ hk)
      obtain ⟨h7, h6⟩ := Ctx.spCheck_traps (c := c) (o := o) (out := false) (align := needsAlign ty one) (n := regBytes ty one * cnt.num) (t := t) hts
      exact ⟨fun h => hx.trans (congrArg _ (h7 h)), fun hw ha h => hx.trans (congrArg _ (h6 hw ha h))⟩
    case sts =>
      intro o ty one cnt credit s c0 act t hc hf hw hr c ts trap
      have hts : (act &&& ~~~(0 : Mask)).threads = ts := (Mask.threads_without_none act).trans (by simp [ts])
      obtain ⟨k, hk⟩ := Ctx.storeSp_checked (c := c) (o := o) (credit := credit) (by simpa [c] using hw) ty one cnt.num act
      have hx := (Ctx.either_memory hc hf hr fun c act => c.spoil.storeSp o ty one cnt.num credit act).trans (congrArg _ hk)
      obtain ⟨h7, h6⟩ := Ctx.spCheck_traps (c := c) (o := o) (out := true) (align := needsAlign ty one) (n := regBytes ty one * cnt.num) (t := t) hts
      exact ⟨fun h => hx.trans (congrArg _ (h7 h)), fun hw ha h => hx.trans (congrArg _ (h6 hw ha h))⟩
    case atoms =>
      intro o ty op s c0 act t hc hf _ hr c ts trap
      have hts : (act &&& ~~~(0 : Mask)).threads = ts := (Mask.threads_without_none act).trans (by simp [ts])
      obtain ⟨k, hk⟩ := c.startAtoms_checked o ty op act
      have hx := (Ctx.either_memory hc hf hr fun c act => c.spoil.startAtoms o ty op act).trans (congrArg _ hk)
      obtain ⟨h7, h6⟩ := Ctx.spCheck_traps (c := c) (o := o) (out := true) (align := true) (n := regBytes ty false) (t := t) hts
      exact ⟨fun h => hx.trans (congrArg _ (h7 h)), fun hw ha h => hx.trans (congrArg _ (h6 hw ha h))⟩
    case credit =>
      intro o ty one cnt
      exact doesEither_memory (fun c act => c.spoil.storeSp o ty one cnt.num true act) (fun _ => rfl) (fun _ _ h => h.1)
        fun c act h => Ctx.storeSp_window (by simpa using h.2) ty one cnt.num act

end Sys2Proof.Machine
end

section
/-!
PROOF. Atomics and store-conditionals as they start, and the accesses of the scratchpads.
-/
namespace Sys2Proof.Machine

/-! ### What starting operations leaves -/

@[simp] theorem Ctx.spoil_mem (c : Ctx) : c.spoil.s.mem = c.s.mem := by unfold Ctx.spoil; split <;> rfl

@[simp] theorem Ctx.spoil_memq (c : Ctx) : (c.spoil.s.core c.core).memq = (c.s.core c.core).memq := by
  unfold Ctx.spoil
  split
  · rfl
  · show ((c.s.setWave c.core c.slot _).core c.core).memq = _
    rw [State.core_setWave]

/-- Operations under way are no wave. -/
theorem State.wave?_addOps (s : State) (core : Nat) (ops : List MemOp) (k slot : Nat) : (s.addOps core ops).wave? k slot = s.wave? k slot :=
  State.wave?_setCore s (c := core) (x := { s.core core with memq := (s.core core).memq ++ ops }) rfl k slot

/-- Starting operations with the wave's destinations marked and the L1 told: what memory, the wave and the operations under way are. -/
theorem State.start_ops (s : State) (core slot : Nat) (k : Core) (hk : k.memq = (s.core core).memq) (w : Wave) (ops : List MemOp) :
    (((s.setCore core k).setWave core slot w).draw.addOps core ops).mem = s.mem ∧
    (((s.setCore core k).setWave core slot w).draw.addOps core ops).wave? core slot = some w ∧
    ((((s.setCore core k).setWave core slot w).draw.addOps core ops).core core).memq = (s.core core).memq ++ ops := by
  refine ⟨rfl, ?_, ?_⟩
  · exact (State.wave?_addOps _ core ops core slot).trans (State.wave?_setWave_same ..)
  · rw [State.memq_addOps, State.core_draw, State.core_setWave, State.core_setCore_same, hk]

/-- The accesses of an instruction's threads in the order in which they act: each of them, and no other. -/
theorem sorted_accesses {α : Type} {key : α → Nat} {xs : List α} (hp : xs.Pairwise fun a b => key a ≠ key b) (free : Nat) (overlap : Bool) :
    ((threadOrder free overlap (xs.map key)).filterMap fun t => xs.find? fun x => key x = t).length = xs.length ∧
      ∀ x ∈ xs, x ∈ (threadOrder free overlap (xs.map key)).filterMap fun t => xs.find? fun x => key x = t := by
  have hperm := threadOrder_perm free overlap (xs.map key)
  refine ⟨?_, fun x hx => (mem_reordered hp (fun _ => hperm.mem_iff) x).2 hx⟩
  have hsome : ∀ t ∈ threadOrder free overlap (xs.map key), (xs.find? fun x => key x = t).isSome = true := fun t ht => by
    obtain ⟨x, hx, rfl⟩ := List.mem_map.1 (hperm.mem_iff.1 ht)
    exact List.find?_isSome.2 ⟨x, hx, by simp⟩
  rw [List.filterMap_length_eq_length.2 hsome, hperm.length_eq, List.length_map]

/-- An access for each thread of a mask. -/
theorem Mask.pairwise_accesses {α : Type} {key : α → Nat} {f : Nat → α} (h : ∀ k, key (f k) = k) (m : Mask) :
    (m.threads.map f).Pairwise fun a b => key a ≠ key b := by
  rw [List.pairwise_map]
  simp only [h]
  exact List.nodup_range.filter _

/-! ### Atomics -/

/-- An atomic whose threads' places all translate: each thread's operation is under way. -/
theorem Ctx.startAtom_ops {c : Ctx} {o : Ops} {ty : Ty} {act : Mask} {ps : Nat → List Nat}
    (h : c.Reaches (c.globalAddr o o.a) (fun _ => List.range (regBytes ty false)) (fun va => va.toNat % regBytes ty false != 0) act.threads ps)
    (op : Option AOp) (fop : Option FAOp) (cas : Bool) :
    ∃ t ops, c.startAtom o ty op fop cas act = c.next t ∧ t.mem = c.s.mem ∧
      t.wave? c.core c.slot = some ((accessRegs o.dst ty 1).foldl (fun w r => w.markEmpty r ty.tag) c.w) ∧
      (t.core c.core).memq = (c.s.core c.core).memq ++ ops ∧ ops.length = act.threads.length ∧
      ∀ k, act.getLsbD k = true → ∃ m ∈ ops, m.wave = c.w.uid ∧
        m.kind = .atom o.dst k ((ps k).headD 0) ty op fop (if cas then some (BitVec.ofNat 64 (c.w.value c.f.exec o.dst ty 0 k)) else none)
          (BitVec.ofNat 64 (c.w.value c.f.exec o.b ty 0 k)) (c.flushes ty) c.f.pc c.w.word := by
  have hplaces : ((act.threads.map fun t => (t, ps t)).map fun p => (p.1, p.2.headD 0)) = act.threads.map fun t => (t, (ps t).headD 0) := by
    rw [List.map_map]
    rfl
  have hstart := (Ctx.startAtom.eq_1 c o ty op fop cas act).trans (Ctx.reachAll_ok h _)
  dsimp only at hstart
  rw [hplaces] at hstart
  have hp := Mask.pairwise_accesses (key := Prod.fst) (f := fun t => (t, (ps t).headD 0)) (fun _ => rfl) act
  obtain ⟨hlen, hmem⟩ := sorted_accesses hp c.translated.s.freeCtr (overlaps ((act.threads.map fun t => (t, (ps t).headD 0)).map fun p => [p.2]))
  obtain ⟨h1, h2, h3⟩ := State.start_ops c.translated.s c.core c.slot _
    (Core.foldl_memq (f := fun (k : Core) (p : Nat × Nat) => k.l1Drop (.phys (p.2 / 128))) (fun _ _ => rfl) _ _)
    ((accessRegs o.dst ty 1).foldl (fun w r => w.markEmpty r ty.tag) c.w) _
  refine ⟨_, _, hstart, h1.trans (State.dropWalks_mem ..), h2, h3.trans (by rw [Ctx.translated, State.dropWalks_core]), ?_, fun k hk => ?_⟩
  · rw [List.length_map]
    exact hlen.trans (List.length_map ..)
  · exact ⟨_, List.mem_map_of_mem (hmem _ (List.mem_map_of_mem (Mask.mem_threads.2 hk))), rfl, rfl⟩

/-- Without a reservation of the thread on the line an SC fails (R104). -/
theorem Ctx.scHolds_none (c : Ctx) {k line : Nat} (h : ∀ r ∈ c.f.resv, ¬(r.thread = k ∧ (r.line = some line ∨ r.line = none))) :
    c.scHolds k line = (false, none) := by
  have hfind : c.f.resv.find? (fun r => r.thread = k && (r.line == some line || r.line.isNone)) = none := by
    refine List.find?_eq_none.2 fun r hr hx => h r hr ?_
    simpa using hx
  unfold Ctx.scHolds
  rw [hfind]

/-- Settles O23: where every place translates, the operation of each thread is under way with the thread's operands. -/
theorem atomicsStart : Obligations.AtomicsStart := by
  refine ⟨?atomics, ?sc⟩
  case atomics =>
    intro starts
    have hstarts : ∀ (i : Instr) (o : Ops) ty us op fop cas,
        (∀ s, exec i s = withCtx s fun c => c.either o us fun act => c.memory (c.spoil.startAtom o ty op fop cas act)) →
        starts i o ty us op fop cas := by
      intro i o ty us op fop cas he s c0 act ps hc hf hr h c
      have hs : c0.s = s := (State.ctx_some hc).2.1
      obtain ⟨t, ops, h1, h2, h3, h4, h5⟩ := Ctx.startAtom_ops h op fop cas
      refine ⟨t, ops, ?_, h2.trans (by rw [Ctx.spoil_mem, hs]), h3, h4.trans ?_, h5⟩
      · rw [he, Ctx.either_memory hc hf hr fun c act => c.spoil.startAtom o ty op fop cas act, h1]
      · show ((c0.spoil.s.core c0.spoil.core).memq ++ ops) = ((s.core c0.spoil.core).memq ++ ops)
        rw [Ctx.spoil_core, Ctx.spoil_memq, hs]
    exact ⟨fun o ty op => hstarts _ o ty _ _ _ _ fun _ => rfl, fun o ty op => hstarts _ o ty _ _ _ _ fun _ => rfl,
      fun o ty => hstarts _ o ty _ _ _ _ fun _ => rfl⟩
  case sc =>
    intro o ty s c act ps hc hf hr h
    have hs : c.s = s := (State.ctx_some hc).2.1
    have hexec : exec (.sc o ty) s = .next (c.startSc o ty act) := by
      show withCtx s _ = _
      rw [withCtx_eq hc, Ctx.vector_runs hr, Ctx.memory_free hf]
    have hstart := hexec.trans (congrArg _ ((Ctx.startSc.eq_1 c o ty act).trans (Ctx.reachAll_ok h _)))
    dsimp only at hstart
    obtain ⟨h1, h2, h3⟩ := State.start_ops c.translated.s c.core c.slot _
      (Core.foldl_memq (f := fun (k : Core) (p : Nat × List Nat) => k.l1Drop (.phys (p.2.headD 0 / 128))) (fun _ _ => rfl) _ _)
      (((accessRegs o.dst .b32 1).foldl (fun w r => w.markEmpty r 2) c.w).modCur fun f =>
        { f with resv := (f.resv.filter fun r => !act.getLsbD r.thread).map fun r => { r with plain := false } }) _
    refine ⟨_, _, hstart, h1.trans ((State.dropWalks_mem ..).trans (by rw [hs])), h2, h3.trans (by rw [Ctx.translated, State.dropWalks_core, hs]), ?_,
      fun k hk => ⟨_, List.mem_map_of_mem (List.mem_map_of_mem (Mask.mem_threads.2 hk)), _, _, rfl, ?_, ?_⟩⟩
    · rw [List.length_map, List.length_map]
    · intro hnone
      rw [c.scHolds_none hnone]
    · intro r hr
      unfold Ctx.scHolds
      rw [hr]
      exact ⟨rfl, fun hi hp => by simp [hi, hp]⟩

end Sys2Proof.Machine
end

section
/-!
PROOF. The accesses of the scratchpads.
-/
namespace Sys2Proof.Machine

/-- Where each thread lies in its window, aligned and not held back, the access goes on at the threads' places. -/
theorem Ctx.spCheck_clear {c : Ctx} {o : Ops} {act skip : Mask} {ts : List Nat} (hts : (act &&& ~~~skip).threads = ts) {n : Nat} {align out : Bool}
    {place : Nat → Nat × Nat}
    (h : ∀ t ∈ ts, spTarget c.core (c.spAddr o t) n = some (place t) ∧ (align = true → c.spAddr o t % min n 16 = 0) ∧
      c.s.spBlocked (place t).1 (place t).2 ((place t).2 + n) out = false ∧ c.spEarlier o.anyV ⟨t, (place t).1, (place t).2⟩ n = none)
    (k : List SpAcc → State) :
    c.spCheck o act skip n align out k = k (ts.map fun t => ⟨t, (place t).1, (place t).2⟩) := by
  subst hts
  have hwin : (act &&& ~~~skip).threads.find? (fun t => (spTarget c.core (c.spAddr o t) n).isNone) = none :=
    List.find?_eq_none.2 fun t ht => by simp [(h t ht).1]
  have halign : (act &&& ~~~skip).threads.find? (fun t => align && c.spAddr o t % min n 16 != 0) = none :=
    List.find?_eq_none.2 fun t ht => by
      cases ha : align
      · simp
      · simp [(h t ht).2.1 ha]
  have haccs : (act &&& ~~~skip).threads.filterMap (fun t => (spTarget c.core (c.spAddr o t) n).map fun x => (⟨t, x.1, x.2⟩ : SpAcc)) =
      (act &&& ~~~skip).threads.map fun t => ⟨t, (place t).1, (place t).2⟩ := by
    rw [← List.filterMap_eq_map]
    exact List.filterMap_congr fun t ht => by simp [(h t ht).1]
  have hfree : ((act &&& ~~~skip).threads.map fun t => (⟨t, (place t).1, (place t).2⟩ : SpAcc)).find?
      (fun a => c.s.spBlocked a.target a.off (a.off + n) out) = none := by
    refine List.find?_eq_none.2 fun a ha => ?_
    obtain ⟨t, ht, rfl⟩ := List.mem_map.1 ha
    simp [(h t ht).2.2.1]
  have hlate : ((act &&& ~~~skip).threads.map fun t => (⟨t, (place t).1, (place t).2⟩ : SpAcc)).findSome? (fun a => c.spEarlier o.anyV a n) = none := by
    refine List.findSome?_eq_none_iff.2 fun a ha => ?_
    obtain ⟨t, ht, rfl⟩ := List.mem_map.1 ha
    exact (h t ht).2.2.2
  unfold Ctx.spCheck
  dsimp only
  rw [hwin]
  dsimp only
  rw [halign]
  dsimp only
  rw [haccs, hfree]
  dsimp only
  rw [hlate]

/-! ### Loads -/

/-- What a scratchpad load leaves when the words of each thread, and the threads that read a poisoned byte, are known. -/
def Ctx.loadedSp (c : Ctx) (o : Ops) (ty : Ty) (one : Bool) (cnt : Nat) (act : Mask) (word : Nat → Nat → BitVec 32) (rotten : Mask) : State :=
  let bad := Mask.ofPred fun t => act.getLsbD t && c.w.poisonAt o.a false t
  let org : Origin := if rotten = 0 then .fault else .data
  let w1 := (accessRegs o.dst ty cnt).zipIdx.foldl (fun (w : Wave) r => match r.1 with
    | .v k => w.setV k.toNat ((w.v k.toNat).write act (word r.2) (bad ||| rotten) org (loadTag ty one))
    | .s k =>
      let x := if ty.is64 then BitVec.ofNat 64 ((word (2 * r.2) 0).toNat + 2 ^ 32 * (word (2 * r.2 + 1) 0).toNat)
        else c.s.scalarOf ty one (word r.2 0)
      w.setS k.toNat (SReg.write x ((bad ||| rotten).getLsbD 0) org)
    | _ => w) c.w
  c.next ((c.put w1).draw)

/-- The words that a thread has among those read. -/
def Ctx.readWord (c : Ctx) (words : List (Nat × List (BitVec 32))) (i t : Nat) : BitVec 32 := match words.find? fun x => x.1 = t with
  | some x => x.2.getD i 0
  | none => Config.poisonedBits (c.s.freeCtr * 128 + t)

/-- A load that no check stops writes what its threads read. -/
theorem Ctx.loadSp_eq (c : Ctx) (o : Ops) (ty : Ty) (one : Bool) (cnt : Nat) (act : Mask) :
    c.loadSp o ty one cnt act =
      c.spCheck o act (Mask.ofPred fun t => act.getLsbD t && c.w.poisonAt o.a false t) (regBytes ty one * cnt) (needsAlign ty one) false fun accs =>
        let reads := accs.map fun a => (a.t, c.s.spRead a.target a.off (regBytes ty one * cnt))
        c.loadedSp o ty one cnt act (c.readWord (reads.map fun r => (r.1, loadAll ty one 0 cnt (r.2.map (·.1)))))
          (Mask.ofPred fun t => reads.any fun r => r.1 = t && r.2.any (·.2)) := rfl

/-- The words of the threads that a load reads for. -/
theorem Ctx.readWord_map (c : Ctx) (ts : List Nat) (f : Nat → List (BitVec 32)) (i k : Nat) :
    c.readWord (ts.map fun t => (t, f t)) i k = if k ∈ ts then (f k).getD i 0 else Config.poisonedBits (c.s.freeCtr * 128 + k) := by
  unfold Ctx.readWord
  rw [find?_map_key]
  by_cases hk : k ∈ ts <;> simp [hk]

/-- The words and the poison that a scratchpad load finds at its threads' places. -/
theorem Ctx.loadSp_clear {c : Ctx} {o : Ops} {ty : Ty} {one : Bool} {cnt : Nat} {act : Mask} {place : Nat → Nat × Nat}
    (h : ∀ t, act.getLsbD t = true → c.w.poisonAt o.a false t = false →
      spTarget c.core (c.spAddr o t) (regBytes ty one * cnt) = some (place t) ∧
      (needsAlign ty one = true → c.spAddr o t % min (regBytes ty one * cnt) 16 = 0) ∧
      c.s.spBlocked (place t).1 (place t).2 ((place t).2 + regBytes ty one * cnt) false = false ∧
      c.spEarlier o.anyV ⟨t, (place t).1, (place t).2⟩ (regBytes ty one * cnt) = none) :
    let good := fun (k : Nat) => act.getLsbD k && !c.w.poisonAt o.a false k
    let read := fun (k : Nat) => c.s.spRead (place k).1 (place k).2 (regBytes ty one * cnt)
    c.loadSp o ty one cnt act = c.loadedSp o ty one cnt act
      (fun i k => if good k then (loadAll ty one 0 cnt ((read k).map (·.1))).getD i 0 else Config.poisonedBits (c.s.freeCtr * 128 + k))
      (Mask.ofPred fun k => good k && (read k).any (·.2)) := by
  intro good read
  have hmem : ∀ k, k ∈ act.threads.filter (fun k => !c.w.poisonAt o.a false k) ↔ good k = true := by
    intro k
    rw [List.mem_filter, Mask.mem_threads, Bool.and_eq_true]
  rw [c.loadSp_eq, Ctx.spCheck_clear (Mask.threads_without act _) (place := place) fun t ht => by
    rw [List.mem_filter, Mask.mem_threads] at ht
    exact h t ht.1 (by simpa using ht.2)]
  dsimp only
  refine congrArg₂ (c.loadedSp o ty one cnt act) ?_ ?_
  · funext i k
    simp only [List.map_map, Function.comp_def]
    rw [c.readWord_map _ (fun k => loadAll ty one 0 cnt ((read k).map (·.1)))]
    simp only [hmem]
  · congr 1
    funext k
    rw [Bool.eq_iff_iff, List.any_eq_true, Bool.and_eq_true, ← hmem]
    constructor
    · rintro ⟨_, hx, hb⟩
      obtain ⟨a, ha, rfl⟩ := List.mem_map.1 hx
      obtain ⟨t, ht, rfl⟩ := List.mem_map.1 ha
      rw [Bool.and_eq_true, decide_eq_true_eq] at hb
      obtain ⟨rfl, hb⟩ := hb
      exact ⟨ht, hb⟩
    · rintro ⟨hk, hb⟩
      refine ⟨_, List.mem_map_of_mem (List.mem_map_of_mem hk), ?_⟩
      rw [Bool.and_eq_true, decide_eq_true_eq]
      exact ⟨rfl, hb⟩

/-! ### Atomics and stores -/

/-- A scratchpad atomic that no check stops: the operation of each thread is under way. -/
theorem Ctx.startAtoms_ops {c : Ctx} {o : Ops} {ty : Ty} {act : Mask} {place : Nat → Nat × Nat}
    (h : ∀ t, act.getLsbD t = true → spTarget c.core (c.spAddr o t) (regBytes ty false) = some (place t) ∧
      (true = true → c.spAddr o t % min (regBytes ty false) 16 = 0) ∧
      c.s.spBlocked (place t).1 (place t).2 ((place t).2 + regBytes ty false) true = false ∧
      c.spEarlier o.anyV ⟨t, (place t).1, (place t).2⟩ (regBytes ty false) = none) (op : AOp) :
    ∃ t ops, c.startAtoms o ty op act = c.next t ∧ t.mem = c.s.mem ∧
      t.wave? c.core c.slot = some ((accessRegs o.dst ty 1).foldl (fun w r => w.markEmpty r ty.tag) c.w) ∧
      (t.core c.core).memq = (c.s.core c.core).memq ++ ops ∧ ops.length = act.threads.length ∧
      ∀ k, act.getLsbD k = true → ∃ m ∈ ops,
        m.kind = .atoms o.dst (if o.anyV then k else 128) (place k).1 (place k).2 ty op (BitVec.ofNat 64 (c.w.value c.f.exec o.b ty 0 k)) := by
  have hstart := (Ctx.startAtoms.eq_1 c o ty op act).trans
    (Ctx.spCheck_clear (place := place) (Mask.threads_without_none act) (fun t ht => h t (Mask.mem_threads.1 ht)) _)
  have hp := Mask.pairwise_accesses (key := SpAcc.t) (f := fun t => (⟨t, (place t).1, (place t).2⟩ : SpAcc)) (fun _ => rfl) act
  obtain ⟨hlen, hmem⟩ := sorted_accesses hp c.s.freeCtr
    (overlaps ((act.threads.map fun t => (⟨t, (place t).1, (place t).2⟩ : SpAcc)).map fun a => [a.target * 2 ^ 20 + a.off]))
  have hleft : ∀ w1 ops, ((c.put w1).draw.addOps c.core ops).mem = c.s.mem ∧ ((c.put w1).draw.addOps c.core ops).wave? c.core c.slot = some w1 ∧
      (((c.put w1).draw.addOps c.core ops).core c.core).memq = (c.s.core c.core).memq ++ ops := by
    intro w1 ops
    refine ⟨rfl, (State.wave?_addOps ..).trans (State.wave?_setWave_same ..), ?_⟩
    rw [State.memq_addOps, State.core_draw]
    show ((c.s.setWave c.core c.slot w1).core c.core).memq ++ ops = _
    rw [State.core_setWave]
  obtain ⟨hmem', hwave, hmemq⟩ := hleft _ _
  refine ⟨_, _, hstart, hmem', hwave, hmemq, ?_, fun k hk => ?_⟩
  · rw [List.length_map]
    exact hlen.trans (List.length_map ..)
  · exact ⟨_, List.mem_map_of_mem (hmem _ (List.mem_map_of_mem (Mask.mem_threads.2 hk))), rfl⟩

/-- The bytes and exceptions of a thread's scratchpad store. -/
def Ctx.spOut (c : Ctx) (o : Ops) (ty : Ty) (one : Bool) (cnt k : Nat) : StoreOut :=
  storeAll ty one 0 (c.mode .fpmode) ((List.range cnt).map fun i => c.w.dataAt o.b ty i k)

/-- What a scratchpad store leaves when no check stops it, from the bytes of its threads. -/
def Ctx.storeOuts (c : Ctx) (o : Ops) (credit : Bool) (outs : List (SpAcc × StoreOut)) : State :=
  let obj := (c.w.scalar o.dst).toNat
  let s1 := outs.foldl (fun (st : State) x =>
    if x.1.target = c.core then
      let st1 := st.setCore c.core ((st.core c.core).spWrite x.1.off x.2.bytes false)
      if credit then st1.sendCredit c.core obj x.2.bytes.length none else st1
    else st) c.s
  let far := outs.filter fun x => x.1.target ≠ c.core
  let s2 := s1.countAll c.core c.slot c.w.uid (tally (outs.map fun x => x.2.exc)) c.f.pc c.w.word
  if far.isEmpty then c.next s2
  else
    let id := s2.uid
    let ops := far.map fun x =>
      ({ (c.op (.remote x.1.target x.1.off x.2.bytes false (if credit then some obj else none))) with id := id } : MemOp)
    let s3 := s2.addOps c.core ops
    (s3.modWave c.core c.slot fun w =>
      { w.modCur (fun f => { f.advance with park := some (.op id) }) with ended := true }).settle c.core c.slot

/-- A scratchpad store looks at its credit's object, then at its threads' places. -/
theorem Ctx.storeSp_eq (c : Ctx) (o : Ops) (ty : Ty) (one : Bool) (cnt : Nat) (credit : Bool) (act : Mask) :
    c.storeSp o ty one cnt credit act =
      if credit && ((c.w.scalar o.dst).toNat % 16 ≠ 0 || (c.w.scalar o.dst).toNat ≥ 0x50000) then c.trap { cause := 7, oper := o.dst.bits.toNat }
      else c.spCheck o act 0 (regBytes ty one * cnt) (needsAlign ty one) true fun accs =>
        c.storeOuts o credit (accs.map fun a => (a, c.spOut o ty one cnt a.t)) := rfl

/-- What a scratchpad store does at once: the bytes of the threads that write to their own core, each with its credit. -/
def Ctx.storedSp (c : Ctx) (o : Ops) (credit : Bool) (place : Nat → Nat × Nat) (out : Nat → StoreOut) (ts : List Nat) : State :=
  let s1 := (ts.filter fun k => (place k).1 = c.core).foldl (fun (st : State) k =>
    let st1 := st.setCore c.core ((st.core c.core).spWrite (place k).2 (out k).bytes false)
    if credit then st1.sendCredit c.core (c.w.scalar o.dst).toNat (out k).bytes.length none else st1) c.s
  s1.countAll c.core c.slot c.w.uid (tally (ts.map fun k => (out k).exc)) c.f.pc c.w.word

/-- The operations that a scratchpad store sends to other cores. -/
def Ctx.farSp (c : Ctx) (o : Ops) (credit : Bool) (place : Nat → Nat × Nat) (out : Nat → StoreOut) (ts : List Nat) (id : Nat) : List MemOp :=
  (ts.filter fun k => (place k).1 ≠ c.core).map fun k =>
    { c.op (.remote (place k).1 (place k).2 (out k).bytes false (if credit then some (c.w.scalar o.dst).toNat else none)) with id := id }

/-- A store by threads, of which some write to another core. -/
theorem Ctx.storeOuts_threads (c : Ctx) (o : Ops) (credit : Bool) (place : Nat → Nat × Nat) (out : Nat → StoreOut) (ts : List Nat) :
    c.storeOuts o credit (ts.map fun k => (⟨k, (place k).1, (place k).2⟩, out k)) =
      let s2 := c.storedSp o credit place out ts
      if (ts.filter fun k => (place k).1 ≠ c.core) = [] then c.next s2
      else ((s2.addOps c.core (c.farSp o credit place out ts s2.uid)).modWave c.core c.slot fun w =>
        { w.modCur (fun f => { f.advance with park := some (.op s2.uid) }) with ended := true }).settle c.core c.slot := by
  unfold Ctx.storeOuts Ctx.storedSp Ctx.farSp
  simp only [List.map_map, List.foldl_map, List.filter_map, List.isEmpty_iff, List.map_eq_nil_iff, List.foldl_filter, Function.comp_def,
    decide_eq_true_eq]

/-- A scratchpad store that no check stops. -/
theorem Ctx.storeSp_clear {c : Ctx} {o : Ops} {ty : Ty} {one : Bool} {cnt : Nat} {credit : Bool} {act : Mask} {place : Nat → Nat × Nat}
    (hcredit : credit = true → (c.w.scalar o.dst).toNat % 16 = 0 ∧ (c.w.scalar o.dst).toNat < 0x50000)
    (h : ∀ t, act.getLsbD t = true → spTarget c.core (c.spAddr o t) (regBytes ty one * cnt) = some (place t) ∧
      (needsAlign ty one = true → c.spAddr o t % min (regBytes ty one * cnt) 16 = 0) ∧
      c.s.spBlocked (place t).1 (place t).2 ((place t).2 + regBytes ty one * cnt) true = false ∧
      c.spEarlier o.anyV ⟨t, (place t).1, (place t).2⟩ (regBytes ty one * cnt) = none) :
    c.storeSp o ty one cnt credit act =
      let s2 := c.storedSp o credit place (c.spOut o ty one cnt) act.threads
      if (act.threads.filter fun k => (place k).1 ≠ c.core) = [] then c.next s2
      else ((s2.addOps c.core (c.farSp o credit place (c.spOut o ty one cnt) act.threads s2.uid)).modWave c.core c.slot fun w =>
        { w.modCur (fun f => { f.advance with park := some (.op s2.uid) }) with ended := true }).settle c.core c.slot := by
  rw [c.storeSp_eq, if_neg (by cases credit <;> simp_all),
    Ctx.spCheck_clear (place := place) (Mask.threads_without_none act) fun t ht => h t (Mask.mem_threads.1 ht), List.map_map]
  exact c.storeOuts_threads o credit place _ act.threads

/-- Settles O24: the checks pass, so the threads' accesses act at their places. -/
theorem scratchpadAccessesComplete : Obligations.ScratchpadAccessesComplete := by
  refine ⟨?reads, ?stores⟩
  case reads =>
    intro clear
    refine ⟨?lds, ?atoms⟩
    case lds =>
      intro o ty one cnt place
      refine doesEither_memory (fun c act => c.spoil.loadSp o ty one cnt.num act) (fun _ => rfl) (fun _ _ h => h.1) fun c0 act ⟨_, h⟩ => ?_
      exact Ctx.loadSp_clear (place := place) fun t ht hp => h t ht (by rwa [Ctx.spoil_poisonAt] at hp)
    case atoms =>
      intro o ty op s c0 act place hc hf hr h c
      have hs : c0.s = s := (State.ctx_some hc).2.1
      obtain ⟨t, ops, h1, h2, h3, h4, h5⟩ := Ctx.startAtoms_ops h op
      refine ⟨t, ops, ?_, h2.trans (by rw [Ctx.spoil_mem, hs]), h3, h4.trans ?_, h5⟩
      · refine (Ctx.either_memory hc hf hr fun c act => c.spoil.startAtoms o ty op act).trans ?_
        rw [h1]
      · show ((c0.spoil.s.core c0.spoil.core).memq ++ ops) = ((s.core c0.spoil.core).memq ++ ops)
        rw [Ctx.spoil_core, Ctx.spoil_memq, hs]
  case stores =>
    intro ready us out own
    refine ⟨fun o ty one cnt credit place => ?_, fun o ty one cnt credit place => ?_⟩
    · refine doesEither_memory (fun c act => c.spoil.storeSp o ty one cnt.num credit act) (fun _ => rfl) (fun _ _ h => h.1)
        fun c0 act ⟨_, hready, hown⟩ => (Ctx.storeSp_clear hready.1 hready.2).trans (if_pos ?_)
      refine List.filter_eq_nil_iff.2 fun k hk => ?_
      simpa using hown k (Mask.mem_threads.1 hk)
    · refine doesEither_memory (fun c act => c.spoil.storeSp o ty one cnt.num credit act) (fun _ => rfl) (fun _ _ h => h.1)
        fun c0 act ⟨_, hready, k, hk, hfar⟩ => (Ctx.storeSp_clear hready.1 hready.2).trans (if_neg ?_)
      exact List.ne_nil_of_mem (List.mem_filter.2 ⟨Mask.mem_threads.2 hk, by simpa using hfar⟩)

end Sys2Proof.Machine
end

section
/-!
PROOF. Fences, acquires, releases and binds; barrier objects and the instructions on them.
-/
namespace Sys2Proof.Machine

/-! ### Ordering -/

/-- One access whose bytes translate. -/
theorem Ctx.reachAll_one {c : Ctx} {write : Bool} {t : Nat} {va : DWord} {offs ps : List Nat} (h : c.reach write va offs = .bytes ps) (o : Ops)
    (k : Ctx → List (Nat × List Nat) → State) : c.reachAll o write [(t, va, offs)] (fun _ => false) k = k c.translated [(t, ps)] := by
  unfold Ctx.reachAll
  simp [h, Ctx.translated]

/-- A lock word at a multiple of 8 whose bytes translate. -/
theorem Ctx.lockWord_ok {c : Ctx} {o : Ops} {write : Bool} {pa : List Nat} (h8 : (c.globalAddr o o.a 0).toNat % 8 = 0)
    (hgen : write = true ∨ c.s.genAt c.w.part (c.globalAddr o o.a 0).toNat = none)
    (h : c.reach write (c.globalAddr o o.a 0) (List.range 8) = .bytes pa) (gen : State) (k : Ctx → List Nat → State) :
    c.lockWord o write gen k = k c.translated pa := by
  unfold Ctx.lockWord
  dsimp only
  rw [if_neg (not_not.2 h8), if_neg (by rcases hgen with hw | hg <;> simp [*]), Ctx.reachAll_one h]
  rfl

/-- A release beyond one core goes on once every earlier access is performed. -/
theorem Ctx.releases_drained {c : Ctx} {scope : Scope} (h : scope ≠ .team ∨ c.paired = true) (hd : c.s.wavePending c.core c.w.uid true = false)
    (k : Ctx → State) : c.releases scope k = k c := by
  have hwide : c.localRelease scope = false := by
    unfold Ctx.localRelease
    rcases h with h | h <;> simp [h]
  unfold Ctx.releases
  rw [if_pos (by simp [hwide]), Ctx.drained_free hd]

/-- A release to the team on one core goes on once the earlier accesses of the scratchpad are performed; the others are marked as passed. -/
theorem Ctx.releases_local {c : Ctx} (h : c.paired = false) (hs : c.s.spPending c.core c.w.uid = false) (k : Ctx → State) :
    c.releases .team k = k { c with s := c.s.setCore c.core { c.s.core c.core with
      memq := (c.s.core c.core).memq.map fun m => if m.wave = c.w.uid then { m with released := true } else m } } := by
  have hlocal : c.localRelease .team = true := by simp [Ctx.localRelease, h]
  unfold Ctx.releases
  rw [if_neg (by simp [hlocal]), if_neg (by simp [hs])]

/-- Dropping walks leaves the waves' operations under way. -/
@[simp] theorem State.dropWalks_wavePending (s : State) (core req k uid : Nat) (sp : Bool) :
    (s.dropWalks core req).wavePending k uid sp = s.wavePending k uid sp := by
  simp [State.wavePending]

@[simp] theorem State.dropWalks_spPending (s : State) (core req k uid : Nat) : (s.dropWalks core req).spPending k uid = s.spPending k uid := by
  simp [State.spPending]

/-- Translating leaves the team. -/
theorem Ctx.translated_paired (c : Ctx) : c.translated.paired = c.paired := by
  have ht : (c.s.dropWalks c.core c.w.uid).teams = c.s.teams := by
    unfold State.dropWalks
    dsimp only
    split <;> rfl
  show (match (c.s.dropWalks c.core c.w.uid).teams.find? _ with | some t => t.paired | none => false) = _
  rw [ht]
  rfl

/-- Settles O25: each waits for nothing more under its hypotheses, and does what its meaning says. -/
theorem orderingResults : Obligations.OrderingResults := by
  refine ⟨?fence, ?acq, ?rel, ?relTeam, ?bind⟩
  case fence =>
    intro o scope seq
    refine doesOnce_of _ (fun _ => rfl) fun c h => (Ctx.drained_free (c.spoil_core ▸ h) _).trans ?_
    cases scope <;> rfl
  case acq =>
    intro o scope pa
    refine doesOnce_of _ (fun _ => rfl) fun c ⟨hf, h8, hg, h⟩ => (Ctx.memory_free hf _).trans ?_
    exact Ctx.lockWord_ok h8 (.inr hg) h _ _
  case rel =>
    intro o scope pa
    refine doesOnce_of _ (fun _ => rfl) fun c ⟨hf, h8, h, hs, hd⟩ => (Ctx.memory_free hf _).trans ((Ctx.lockWord_ok h8 (.inl rfl) h _ _).trans ?_)
    exact Ctx.releases_drained (c := c.translated) (c.translated_paired.symm ▸ hs) ((State.dropWalks_wavePending ..).trans hd) _
  case relTeam =>
    intro o pa
    refine doesOnce_of _ (fun _ => rfl) fun c ⟨hf, h8, h, hs, hd⟩ => (Ctx.memory_free hf _).trans ((Ctx.lockWord_ok h8 (.inl rfl) h _ _).trans ?_)
    refine (Ctx.releases_local (c := c.translated) (c.translated_paired.trans hs) ((State.dropWalks_spPending ..).trans hd) _).trans ?_
    rw [Ctx.translated, State.dropWalks_core]
  case bind =>
    intro o bar slot
    refine doesOnce_of _ (fun _ => rfl) fun c ⟨hlen, hobj⟩ => ?_
    dsimp only at hlen hobj ⊢
    rw [if_neg (not_lt.2 hlen)]
    by_cases h0 : (c.w.scalar o.a).toNat = 0
    · simp only [h0, if_true]
      rfl
    · have hobj := hobj.resolve_left h0
      simp only [h0, if_false]
      cases bar
      · rw [if_neg (by simp), if_neg (by simpa using hobj)]
        rfl
      · obtain ⟨h16, hlt⟩ := (if_pos rfl).mp hobj
        rw [if_neg (by simp; omega), if_neg (by simp)]
        rfl

/-! ### Barrier objects -/

/-- What is written over bytes of a scratchpad is what is read as a number. -/
theorem State.spNat_spPut (s : State) (core off n x : Nat) (h : x < 2 ^ (8 * n)) : (s.spPut core off (leBytes n x)).spNat core off n = x := by
  have hbytes : ((s.spPut core off (leBytes n x)).spRead core off n).map (·.1) = leBytes n x := by
    unfold State.spRead
    rw [List.map_map]
    refine List.ext_getElem (by simp) fun i h1 h2 => ?_
    simp only [List.getElem_map, List.getElem_range, Function.comp_apply]
    rw [State.spPut_scratch s core off _ h2]
    exact (List.getElem_eq_getD 0).symm
  unfold State.spNat
  rw [hbytes, leNat_leBytes, Nat.mod_eq_of_lt h]

/-- Settles O26: the two cases of the completion condition; the fields stand in the object's bytes at their places. -/
theorem barrierObjectUpdates : Obligations.BarrierObjectUpdates := by
  refine ⟨fun b => ?_, fun s core off b h1 h2 h3 h4 h5 h6 => ?_⟩
  · intro complete
    have hc : (decide (b.arrived = b.arrexp) && decide (b.inrcvd ≥ b.inexp) && (decide (b.arrexp > 0) || decide (b.inexp > 0))) = true ↔ complete := by
      simp [complete, and_assoc]
    refine ⟨fun h => ?_, fun h => ?_⟩
    · exact if_pos (hc.2 h)
    · exact if_neg fun hx => h (hc.1 hx)
  · obtain ⟨arrexp, arrived, phase, inexp, inrcvd, fault, fclass⟩ := b
    dsimp only at h1 h2 h3 h4 h5 h6
    have hfault : fault.toNat < 2 := Bool.toNat_lt fault
    unfold State.bar Bar.bytes
    dsimp only
    rw [State.spNat_spPut _ _ _ _ _ (by omega)]
    have hbit : (fault.toNat == 1) = fault := by cases fault <;> rfl
    unfold bitsOf bitOf
    rw [Bar.mk.injEq]
    refine ⟨?_, ?_, ?_, ?_, ?_, ?_, ?_⟩
    case refine_6 =>
      conv_rhs => rw [← hbit]
      congr 1
      omega
    all_goals omega

/-! ### Barrier instructions -/

/-- A barrier instruction on an object within the scratchpad. -/
theorem doesOnce_barrier {i : Instr} {o : Ops} {us : List Use} {w : Ctx → Prop} {t : Ctx → State} (k : Ctx → Nat → State)
    (he : ∀ s, exec i s = withCtx s fun c => c.uniform o.guard us (c.barObj o (k c)))
    (hat : ∀ c, w c → bitOf (c.spAddr o 0) 31 = false ∧ (spTarget c.core (c.spAddr o 0) 16).isSome = true ∧ c.spAddr o 0 % 16 = 0)
    (h : ∀ c, w c → k c (c.spAddr o 0 % 2 ^ 19) = t c) : DoesOnce i o.guard us w t := by
  refine doesOnce_of (fun c => c.barObj o (k c)) he fun c hw => ?_
  obtain ⟨h1, h2, h3⟩ := hat c hw
  exact (Ctx.barObj_ok h1 h2 h3 _).trans (h c hw)

/-- A wait that has not begun reports a phase that has passed. -/
theorem Ctx.reportOrPark_passed {c : Ctx} {o : Ops} {off token : Nat} (hw : c.wait? = none) (h : c.s.barStatus c.w c.barCore off token ≠ 1) :
    c.reportOrPark o off token = c.report o off (c.s.barStatus c.w c.barCore off token) := by
  unfold Ctx.reportOrPark
  rw [hw]
  exact if_pos h

/-- Changing the current fragment is changing the one that stands there. -/
theorem Wave.modCur_congr {w : Wave} {f : Fragment} (h : w.frag? w.cur = some f) {g g' : Fragment → Fragment} (hg : g f = g' f) :
    w.modCur g = w.modCur g' := by
  unfold Wave.modCur
  rw [h, Option.map_some, Option.map_some, hg]

/-- A wait that has not begun parks on a phase that has not passed. -/
theorem Ctx.reportOrPark_pending {c : Ctx} {o : Ops} {off token : Nat} (hf : c.w.frag? c.w.cur = some c.f) (hw : c.wait? = none)
    (h : c.s.barStatus c.w c.barCore off token = 1) :
    c.reportOrPark o off token = c.put { c.w.modCur (fun f => { f.addSync ⟨c.f.pc, BitVec.ofNat 16 token, none⟩ with
      park := some (.barrier c.barCore off (BitVec.ofNat 16 token)) }) with ended := true } := by
  unfold Ctx.reportOrPark
  rw [hw]
  exact (if_neg (not_not.2 h)).trans (congrArg (fun m : Wave => c.put { m with ended := true }) (Wave.modCur_congr hf rfl))

/-- A phase that completed during the wait ends it. -/
theorem Ctx.reportOrPark_done {c : Ctx} {o : Ops} {off token : Nat} {x : Sync} {fault : Bool} (hw : c.wait? = some x) (h : x.done = some fault) :
    c.reportOrPark o off token = c.report o off (if c.s.abandoned c.w then 3 else if fault then 2 else 0) := by
  unfold Ctx.reportOrPark
  rw [hw, Option.bind_some, h]

/-- Settles O27: on an object in its place each instruction does what its meaning says; the branches are those of the hypotheses. -/
theorem barrierResults : Obligations.BarrierResults := by
  unfold Obligations.BarrierResults
  intro at_ off add token
  refine ⟨fun o arr => ?_, fun o => ?_, fun o => ?_, fun o => ?_, fun o => ?_, fun o => ?_, fun o => ?_, fun o fault x => ?_⟩
  · exact doesOnce_barrier _ (fun _ => rfl) (fun _ h => h.1) fun c h => if_neg (Bool.eq_false_iff.1 h.2)
  · refine doesOnce_barrier _ (fun _ => rfl) (fun _ h => h.1) fun c ⟨_, hd, hne⟩ => (Ctx.drained_free hd _).trans ?_
    exact if_neg hne
  · exact doesOnce_barrier _ (fun _ => rfl) (fun _ h => h) fun c h => rfl
  · exact doesOnce_barrier _ (fun _ => rfl) (fun _ h => h) fun c h => rfl
  · exact doesOnce_barrier _ (fun _ => rfl) (fun _ h => h.1) fun c h => Ctx.reportOrPark_passed h.2.1 h.2.2
  · intro s c hc hr ⟨⟨h1, h2, h3⟩, hw, hs⟩
    obtain ⟨-, -, -, hf⟩ := State.ctx_some hc
    show withCtx s _ = _
    rw [withCtx_eq hc, Ctx.uniform_runs hr, Ctx.barObj_ok h1 h2 h3, Ctx.reportOrPark_pending hf hw hs]
  · refine doesOnce_barrier _ (fun _ => rfl) (fun _ h => h.1) fun c ⟨_, hw, ha, hd, hne⟩ => ?_
    dsimp only
    rw [hw]
    dsimp only
    rw [if_neg (by simp [ha]), Ctx.drained_free hd]
    exact if_neg hne
  · refine doesOnce_barrier _ (fun _ => rfl) (fun _ h => h.1) fun c ⟨_, hw, hx⟩ => ?_
    dsimp only
    rw [hw]
    exact Ctx.reportOrPark_done hw hx

end Sys2Proof.Machine
end

section
/-!
PROOF. The engine window, waits on queues, tile operations, and the instructions that fetch a block for each thread.
-/
namespace Sys2Proof.Machine

/-- A uniform access that no acquire holds back does what its meaning does. -/
theorem doesOnce_memory {i : Instr} {g : Guard} {us : List Use} {w : Ctx → Prop} {t : Ctx → State} (k : Ctx → State)
    (he : ∀ s, exec i s = withCtx s fun c => c.uniform g us (c.memory (k c))) (hf : ∀ c, w c → c.FreeOfAcquire)
    (h : ∀ c, w c → k c = t c) : DoesOnce i g us w t :=
  doesOnce_of (fun c => c.memory (k c)) he fun c hw => (Ctx.memory_free (hf c hw) _).trans (h c hw)

/-! ### The engine window -/

@[simp] theorem Ctx.spoil_latch (c : Ctx) (q r : Nat) : c.spoil.w.latch q r = c.w.latch q r := by unfold Ctx.spoil; split <;> rfl

/-- A copy whose descriptor breaks a rule (R235). -/
theorem Ctx.startCopy_bad {c : Ctx} {w0 w1 w2 w3 : DWord} {cause : Nat} (h : (copyDesc w0 w1 w2 w3).bad c.core (w3.toNat / 2 ^ 55) = some cause)
    (field : Opnd) : c.startCopy field w0 w1 w2 w3 = c.trap { cause := cause, oper := field.bits.toNat } := by
  unfold Ctx.startCopy
  dsimp only
  rw [h]

/-- A copy whose descriptor keeps the rules, with room (R231). -/
theorem Ctx.startCopy_ok {c : Ctx} {w0 w1 w2 w3 : DWord} (h : (copyDesc w0 w1 w2 w3).bad c.core (w3.toNat / 2 ^ 55) = none)
    (hp : c.HasPlace1 ((copyDesc w0 w1 w2 w3).sides c.core)) (field : Opnd) :
    c.startCopy field w0 w1 w2 w3 = c.entered1 (.copy (copyDesc w0 w1 w2 w3)) ((copyDesc w0 w1 w2 w3).sides c.core) id := by
  unfold Ctx.startCopy
  dsimp only
  rw [h]
  exact Ctx.enqueue1_room hp _ _

/-- A hint that breaks a rule (R230). -/
theorem Ctx.startHint_bad {c : Ctx} {qa qb qc qd : DWord} (h : hintOf qc.toNat = none ∨ 2 ^ 40 ≤ qb.toNat ∨ qd ≠ 0) :
    c.startHint qa qb qc qd = c.trap { cause := 15 } := by
  unfold Ctx.startHint
  split
  · rename_i hint hh
    rw [hh] at h
    exact if_pos (by simpa using h)
  · rfl

/-- A hint that keeps the rules, with room. -/
theorem Ctx.startHint_ok {c : Ctx} {qa qb qc qd : DWord} {h : Hint} (hh : hintOf qc.toNat = some h) (hb : qb.toNat < 2 ^ 40) (hd : qd = 0)
    (hp : c.HasPlace .q2) : c.startHint qa qb qc qd =
      c.entered .q2 (fun k => { k with q2 := k.q2 ++ [c.entry 2 false ⟨h, qa, qb.toNat, 0, false⟩] }) id := by
  unfold Ctx.startHint
  rw [hh]
  exact (if_neg (by simp [hd]; omega)).trans (Ctx.enqueue_room hp _ _)

/-- A full queue parks (R231). -/
theorem Ctx.enqueue_full {c : Ctx} {q : Queue} (h : queueDepth q ≤ c.s.queueLen c.core q) (add : Core → Core) (after : State → State) :
    c.enqueue q add after = c.park (.room q) := by
  unfold Ctx.enqueue
  exact if_pos h

/-- A chain of checks of which the last alone answers 7. -/
theorem check_chain {p : Prop} [Decidable p] {b1 b2 b3 : Bool} {cause : Nat}
    (h : (if p then some 15 else if b1 then some 15 else if b2 then some 15 else if b3 then some 7 else none) = some cause) :
    (cause = 15 ∨ cause = 7) ∧ (cause = 7 → ¬p ∧ b1 = false) := by
  by_cases hp : p
  · rw [if_pos hp] at h
    cases h
    exact ⟨.inl rfl, by simp⟩
  · rw [if_neg hp] at h
    cases b1
    · refine ⟨?_, fun _ => ⟨hp, rfl⟩⟩
      cases b2 <;> cases b3 <;> simp_all
    · cases h
      exact ⟨.inl rfl, by simp⟩

/-- What a copy's trap says of its descriptor (R235): WINDOW comes after the alignments. -/
theorem CopyDesc.bad_cause {d : CopyDesc} {core reserved cause : Nat} (h : d.bad core reserved = some cause) :
    (cause = 15 ∨ cause = 7) ∧ (cause = 7 → reserved = 0 ∧ d.rowBytes % 16 = 0 ∧ d.spitch % 16 = 0 ∧ d.dpitch % 16 = 0 ∧ d.dst.toNat % 16 = 0) := by
  unfold CopyDesc.bad at h
  obtain ⟨hcause, hseven⟩ := check_chain h
  refine ⟨hcause, fun h7 => ?_⟩
  obtain ⟨hres, hodd⟩ := hseven h7
  simp only [Bool.or_eq_false_iff, bne_eq_false_iff_eq] at hodd
  obtain ⟨⟨⟨⟨⟨h1, h2⟩, h3⟩, h4⟩, -⟩, -⟩ := hodd
  exact ⟨not_not.1 hres, h1, h2, h3, h4⟩

/-- Settles O28: the descriptor's rules decide whether the operation enters its queue. -/
theorem engineWindowResults : Obligations.EngineWindowResults := by
  refine ⟨?eqst, ?eqstBad, ?mxBad, ?copyBad, ?hintBad, ?kickWindow, ?kickAlign, ?kickBad, fun d core reserved cause h => d.bad_cause h, ?mx, ?copy,
    ?hint, ?q3, ?q4, ?kick, fun c q add after h => Ctx.enqueue_full h add after⟩
  case eqst => exact fun o q reg => doesOnce_of _ (fun _ => rfl) fun c h => if_neg (not_lt.2 h)
  case eqstBad => exact fun o q reg => doesOnce_of _ (fun _ => rfl) fun c h => if_pos h
  case mxBad =>
    intro o
    refine doesOnce_memory _ (fun _ => rfl) (fun _ h => h.1) fun c h => ?_
    unfold Ctx.startMatrix
    exact if_pos (by simpa [Queue.num] using h.2)
  case copyBad =>
    intro o cause
    refine doesOnce_memory _ (fun _ => rfl) (fun _ h => h.1) fun c h => Ctx.startCopy_bad h.2 _
  case hintBad =>
    intro o
    refine doesOnce_memory _ (fun _ => rfl) (fun _ h => h.1) fun c h => Ctx.startHint_bad ?_
    simpa [Queue.num] using h.2
  case kickWindow =>
    intro o
    refine doesOnce_of _ (fun _ => rfl) fun c h => ?_
    dsimp only
    rcases h with h | ⟨k, off, h, hk⟩
    · rw [h]
    · rw [h]
      exact if_pos hk
  case kickAlign =>
    intro o off
    refine doesOnce_of _ (fun _ => rfl) fun c ⟨h, h16⟩ => ?_
    dsimp only
    rw [h]
    exact (if_neg (by simp)).trans (if_pos h16)
  case kickBad =>
    intro o off cause
    refine doesOnce_of _ (fun _ => rfl) fun c ⟨hf, h, h16, hbad⟩ => ?_
    dsimp only
    rw [h]
    exact (if_neg (by simp)).trans ((if_neg (not_not.2 h16)).trans ((Ctx.memory_free hf _).trans (Ctx.startCopy_bad (by rwa [Ctx.spoil_core]) _)))
  case mx =>
    intro o
    refine doesOnce_memory _ (fun _ => rfl) (fun _ h => h.1) fun c ⟨hf, hok, hp, hq⟩ => ?_
    have hlead : (decide (c.spoil.core < Config.mainCores) && decide (c.spoil.core % 2 = 1) &&
        !(c.spoil.s.pairs.get ⟨[]⟩ (Config.pairOf c.spoil.core)).q0.isEmpty) = false := by
      rcases hq with h | h | h
      · rw [h]
        simp
      · rw [decide_eq_false (not_lt.2 h), Bool.false_and, Bool.false_and]
      · rw [h]
        simp
    unfold Ctx.startMatrix
    exact (if_neg (by simpa [Queue.num] using hok)).trans ((if_neg (Bool.eq_false_iff.1 hlead)).trans (Ctx.enqueue_room hp _ _))
  case copy =>
    intro o
    exact doesOnce_memory _ (fun _ => rfl) (fun _ h => h.1) fun c ⟨_, h, hp⟩ => Ctx.startCopy_ok h hp _
  case hint =>
    intro o h
    refine doesOnce_memory _ (fun _ => rfl) (fun _ h => h.1) fun c ⟨_, hh, hb, hd, hp⟩ => ?_
    rw [← c.spoil_latch] at hh hb hd
    refine (Ctx.startHint_ok hh hb hd hp).trans ?_
    simp only [Ctx.spoil_latch]
    rfl
  case q3 => exact fun o => doesOnce_memory _ (fun _ => rfl) (fun _ h => h.1) fun c h => Ctx.enqueue_room h.2 _ _
  case q4 => exact fun o => doesOnce_memory _ (fun _ => rfl) (fun _ h => h.1) fun c h => Ctx.enqueue_room h.2 _ _
  case kick =>
    intro o off
    refine doesOnce_of _ (fun _ => rfl) fun c ⟨hf, h, h16, hok, hp⟩ => ?_
    rw [Ctx.spoil_core] at h hok hp
    dsimp only
    rw [h]
    refine (if_neg (by simp)).trans ((if_neg (not_not.2 h16)).trans ((Ctx.memory_free hf _).trans ?_))
    refine (Ctx.startCopy_ok (by rwa [Ctx.spoil_core]) (by rwa [Ctx.spoil_core]) _).trans ?_
    rw [Ctx.spoil_core]

/-! ### Waits and tile operations -/

/-- A tile operation at a base that keeps the rules (R75, R244). -/
theorem Ctx.tileBase_ok {c : Ctx} {o : Ops} {sp : Bool} {span : Nat}
    (h : if sp then (spTarget c.core (c.spAddr o 0) span).isSome = true ∧ c.spAddr o 0 % 16 = 0 else (c.globalAddr o o.a 0).toNat % 16 = 0)
    (inbound : Bool) (k : DWord → List Side → State) :
    c.tileBase o sp inbound span k = k (if sp then BitVec.ofNat 64 (c.spAddr o 0) else c.globalAddr o o.a 0)
      (if sp then (sideAt c.core (c.spAddr o 0) span inbound).toList else []) := by
  unfold Ctx.tileBase
  cases sp
  · exact if_neg (not_not.2 h)
  · obtain ⟨hw, h16⟩ := h
    exact (if_pos rfl).trans ((if_neg (by rw [← Option.not_isSome, hw]; simp)).trans (if_neg (not_not.2 h16)))

/-- Settles O29: the waits' branches; a tile operation whose values keep the rules enters queue 1. -/
theorem queueWaitAndTileResults : Obligations.QueueWaitAndTileResults := by
  refine ⟨⟨?eqfence, ?eqwait, ?eqwaits, ?mxprg⟩, ?tiles⟩
  case eqfence => exact fun o mask => doesOnce_of _ (fun _ => rfl) fun c _ => rfl
  case eqwait => exact fun o q n => doesOnce_of _ (fun _ => rfl) fun c h => if_neg (not_lt.2 h)
  case eqwaits => exact fun o q n => doesOnce_of _ (fun _ => rfl) fun c h => if_pos h
  case mxprg => exact fun o => doesOnce_of _ (fun _ => rfl) fun c _ => rfl
  case tiles =>
    intro base addr sides
    refine ⟨fun o ty sp n hn => ?_, fun o sp n hn => ?_, fun o n m hn hm => ?_, fun o sp n hn => ?_⟩
    · refine doesOnce_memory _ (fun _ => rfl) (fun _ h => h.1) fun c ⟨_, hs, ht, hb, hp⟩ => ?_
      have hnum : tileNum o.dst = n.toNat := by rw [hn]; rfl
      dsimp only
      rw [if_neg (by simp [hs, ht]), Ctx.tileBase_ok hb, hnum]
      exact Ctx.enqueue1_room hp _ _
    · refine doesOnce_memory _ (fun _ => rfl) (fun _ h => h.1) fun c ⟨_, hs, hb, hp⟩ => ?_
      have hnum : tileNum o.dst = n.toNat := by rw [hn]; rfl
      dsimp only
      rw [if_neg (by simp [hs]), Ctx.tileBase_ok hb, hnum]
      exact Ctx.enqueue1_room hp _ _
    · refine doesOnce_memory _ (fun _ => rfl) (fun _ h => h.1) fun c ⟨_, hp⟩ => ?_
      have hnum : tileNum o.dst = n.toNat := by rw [hn]; rfl
      have hnum' : tileNum o.a = m.toNat := by rw [hm]; rfl
      dsimp only
      rw [hnum, hnum']
      exact Ctx.enqueue1_room hp _ _
    · refine doesOnce_memory _ (fun _ => rfl) (fun _ h => h.1) fun c ⟨_, hb, hp⟩ => ?_
      have hnum : tileNum o.dst = n.toNat := by rw [hn]; rfl
      rw [Ctx.tileBase_ok hb, hnum]
      exact Ctx.enqueue1_room hp _ _

/-! ### Fetches -/

@[simp] theorem Ctx.spoil_upsets (c : Ctx) : c.spoil.s.upsets = c.s.upsets := by unfold Ctx.spoil; split <;> rfl

/-- With no upset no thread's result is flipped (R35). -/
theorem flips_none (ts : List Nat) : (ts.filterMap fun t => if (fun _ => (0 : Flip)) t = 0 then none else some (t, (fun _ => (0 : Flip)) t)) = [] := by
  simp

/-- The pointer of a thread of a fetch, if it has one: not poisoned, aligned and canonical. -/
def Ctx.fetchPtr (c : Ctx) (o : Ops) (align : Nat) (p : DWord) (k : Nat) : Option DWord :=
  if c.w.poisonAt o.b true k || decide (p.toNat % align ≠ 0) || !canonical p then none else some p

/-- The words of eight registers in a thread. -/
def Ctx.eightWords (c : Ctx) (x : Opnd) (k : Nat) : List (BitVec 32) :=
  (List.range 8).map fun i => BitVec.ofNat 32 (c.w.value c.f.exec (x.plus i) .b32 0 k)

/-- Whether one of eight registers is poisoned in a thread. -/
def Ctx.eightPoison (c : Ctx) (x : Opnd) (k : Nat) : Bool := (List.range 8).any fun i => c.w.poisonAt (x.plus i) false k

/-- What the threads of a VXM fetch: a pointer of 0 is none. -/
def Ctx.vxmAccs (c : Ctx) (o : Ops) (act : Mask) : List (Nat × Option DWord × List (BitVec 32) × List (BitVec 32)) :=
  let p := fun (k : Nat) => (BitVec.ofNat 64 (c.w.value c.f.exec o.b .n64 0 k) : DWord)
  act.threads.map fun k => (k, (if p k = 0 then none else c.fetchPtr o 256 (p k) k), c.eightWords o.a k, c.eightWords o.dst k)

/-- A VXM as it starts, from what its threads fetch, with the origin of its poison and the flips of its results. -/
def Ctx.vxmStarted (c : Ctx) (o : Ops) (rnd : Rnd) (act : Mask) (accs : List (Nat × Option DWord × List (BitVec 32) × List (BitVec 32)))
    (org : Origin) (flips : Tab Flip) : State :=
  let poison := Mask.ofPred fun t => act.getLsbD t && (c.eightPoison o.a t || c.eightPoison o.dst t)
  c.next (((c.put ((accessRegs o.dst .b32 8).foldl (fun w r => w.markEmpty r 3) c.w)).addOps c.core
    [c.op (.vxm o.dst (c.mode rnd) c.flush accs poison org flips c.f.pc c.w.word)]).touchAccs c.core c.w.part c.w.uid c.w.depth
    (fun _ => false) (accs.filterMap fun a => a.2.1.map fun p => (p, 256)))

/-- The origin of the poison of a VXM: DATA where a poisoned operand has it. -/
def Ctx.vxmOrigin (c : Ctx) (o : Ops) (act : Mask) : Origin :=
  if (List.range 8).any fun i => act.threads.any fun t => (c.w.poisonAt (o.a.plus i) false t && c.w.originOf (o.a.plus i) == .data) ||
    (c.w.poisonAt (o.dst.plus i) false t && c.w.originOf (o.dst.plus i) == .data) then .data else .fault

/-- A VXM without an upset. -/
theorem Ctx.startVxm_eq {c : Ctx} (h : c.s.upsets = []) (o : Ops) (rnd : Rnd) (act : Mask) :
    c.startVxm o rnd act = c.vxmStarted o rnd act (c.vxmAccs o act) (c.vxmOrigin o act) [] := by
  have haccs : (act.threads.map fun t => (t,
      (if BitVec.ofNat 64 (c.w.value c.f.exec o.b .n64 0 t) = (0 : DWord) || c.w.poisonAt o.b true t ||
        (BitVec.ofNat 64 (c.w.value c.f.exec o.b .n64 0 t) : DWord).toNat % 256 ≠ 0 || !canonical (BitVec.ofNat 64 (c.w.value c.f.exec o.b .n64 0 t))
        then none else some (BitVec.ofNat 64 (c.w.value c.f.exec o.b .n64 0 t))), c.eightWords o.a t, c.eightWords o.dst t)) = c.vxmAccs o act := by
    refine List.map_congr_left fun t _ => ?_
    unfold Ctx.fetchPtr
    by_cases h0 : BitVec.ofNat 64 (c.w.value c.f.exec o.b .n64 0 t) = (0 : DWord)
    · rw [if_pos (by rw [decide_eq_true h0]; simp only [Bool.true_or]), if_pos h0]
    · rw [if_neg h0, decide_eq_false h0, Bool.false_or]
  refine (Ctx.startVxm.eq_1 c o rnd act).trans ((Ctx.voted_none h _ _ _).trans ?_)
  rw [← haccs, ← flips_none act.threads]
  rfl

/-- A node or triangle fetch as it starts, with the origin of its poison and the flips of its results. -/
def Ctx.testerStarted (c : Ctx) (o : Ops) (tri sort : Bool) (act : Mask) (tagOf : Nat → BitVec 5) (org : Origin) (flips : Tab Flip) : State :=
  let rays := act.threads.map fun k => (k, c.fetchPtr o (if tri then 16 else 128) (c.globalAddr o o.b k) k, c.eightWords o.a k)
  let poison := Mask.ofPred fun t => act.getLsbD t && c.eightPoison o.a t
  c.next (((c.put ((accessRegs o.dst .b32 (if tri then 4 else 8)).zipIdx.foldl (fun w r => w.markEmpty r.1 (tagOf r.2)) c.w)).addOps c.core
    [c.op (.node o.dst tri sort rays poison org flips)]).touchAccs c.core c.w.part c.w.uid c.w.depth
    (fun k => ((c.s.core c.core).l1Hit false 0 k).isSome) (rays.filterMap fun a => a.2.1.map fun p => (p, if tri then 48 else 128)))

/-- The tags of a tester's results (R249). -/
def testerTag (tri : Bool) (i : Nat) : BitVec 5 := (if tri then [3, 3, 3, 2] else [3, 3, 3, 3, 2, 2, 2, 2] : List (BitVec 5)).getD i 2

/-- The origin of the poison of a tester's rays. -/
def Ctx.testerOrigin (c : Ctx) (o : Ops) (act : Mask) : Origin :=
  if (List.range 8).any fun i => c.w.originOf (o.a.plus i) == .data && act.threads.any fun t => c.w.poisonAt (o.a.plus i) false t then .data else .fault

/-- A node or triangle fetch without an upset. -/
theorem Ctx.startTester_eq {c : Ctx} (h : c.s.upsets = []) (o : Ops) (tri sort : Bool) (act : Mask) :
    c.startTester o tri sort act = c.testerStarted o tri sort act (testerTag tri) (c.testerOrigin o act) [] := by
  have htag : (fun i => if i < (if tri then 4 else 8) - (if tri then 4 else 8) / 2 + (if tri then 1 else 0) then (3 : BitVec 5) else 2) = testerTag tri := by
    funext i
    unfold testerTag
    cases tri
    · by_cases hi : i < 8
      · interval_cases i <;> rfl
      · rw [List.getD_eq_default _ _ (by simpa using not_lt.1 hi)]
        exact if_neg (by simp; omega)
    · by_cases hi : i < 4
      · interval_cases i <;> rfl
      · rw [List.getD_eq_default _ _ (by simpa using not_lt.1 hi)]
        exact if_neg (by simp; omega)
  refine (Ctx.startTester.eq_1 c o tri sort act).trans ((Ctx.voted_none h _ _ _).trans ?_)
  rw [← htag, ← flips_none act.threads]
  rfl

/-- Settles O30: with no upset the one issue stands, and nothing is flipped. -/
theorem fetchingInstructionsStart : Obligations.FetchingInstructionsStart := by
  refine ⟨?vxm, ?tester⟩
  case vxm =>
    intro o rnd s c0 act hc hu hr hf c p accs
    have hup : c.s.upsets = [] := by rw [Ctx.spoil_upsets, (State.ctx_some hc).2.1, hu]
    have hexec : exec (.vxm o rnd) s = .next (c.startVxm o rnd act) := by
      show withCtx s _ = _
      rw [withCtx_eq hc, Ctx.vector_runs hr, Ctx.memory_free hf]
    refine ⟨_, _, hexec.trans (congrArg _ (Ctx.startVxm_eq hup o rnd act)), fun k hk => ?_⟩
    rw [Mask.getLsbD_ofPred, hk, decide_eq_true (Mask.lt_of_getLsbD hk)]
    simp only [Ctx.eightPoison, Bool.true_and]
    rw [Bool.eq_iff_iff]
    simp only [Bool.or_eq_true, List.any_eq_true, and_or_left, exists_or]
  case tester =>
    intro o tri sort s c0 act hc hu hr hf c rays tags
    have hup : c.s.upsets = [] := by rw [Ctx.spoil_upsets, (State.ctx_some hc).2.1, hu]
    have hexec : exec (if tri then .trit o else .boxt o sort) s = .next (c.startTester o tri (if tri then false else sort) act) := by
      cases tri
      · exact (withCtx_eq hc _).trans (congrArg _ ((Ctx.vector_runs hr _).trans (Ctx.memory_free hf _)))
      · exact (withCtx_eq hc _).trans (congrArg _ ((Ctx.vector_runs hr _).trans (Ctx.memory_free hf _)))
    refine ⟨_, _, hexec.trans (congrArg _ (Ctx.startTester_eq hup o tri (if tri then false else sort) act)), fun k hk => ?_⟩
    rw [Mask.getLsbD_ofPred, hk, decide_eq_true (Mask.lt_of_getLsbD hk)]
    rfl

end Sys2Proof.Machine
end

section
/-!
PROOF. Lath, Glaze and filler instructions as they issue.
-/
namespace Sys2Proof.Machine

/-- An instruction with a vector and a uniform form does in both what its meaning does. -/
theorem doesEither_of {i : Instr} {o : Ops} {us : List Use} {w : Ctx → Mask → Prop} {t : Ctx → Mask → State} (k : Ctx → Mask → State)
    (he : ∀ s, exec i s = withCtx s fun c => c.either o us fun act => k c act) (h : ∀ c act, w c act → k c act = t c act) : DoesEither i o us w t := by
  refine ⟨fun hv => doesIn_of k (fun s => ?_) h, fun hv => doesOnce_of (fun c => k c 1) (fun s => ?_) fun c hw => h c 1 hw⟩
  · rw [he]
    congr 1
    funext c
    exact if_pos hv
  · rw [he]
    congr 1
    funext c
    exact if_neg (by simp [hv])

/-! ### Lath and Glaze -/

/-- Record numbers below 4096 are taken as they are (R277). -/
theorem Ctx.recordNumbers_ok {c : Ctx} {x : Opnd} {act : Mask} (h : ∀ k, act.getLsbD k = true → c.w.value c.f.exec x .b32 0 k < 4096) (o : Ops)
    (k : List (Nat × Nat) → State) :
    c.recordNumbers o x act.threads k = k (act.threads.map fun t => (t, c.w.value c.f.exec x .b32 0 t)) := by
  have hnone : act.threads.find? (fun t => decide (c.w.value c.f.exec x .b32 0 t ≥ 4096)) = none :=
    List.find?_eq_none.2 fun t ht => by simpa using h t (Mask.mem_threads.1 ht)
  unfold Ctx.recordNumbers
  dsimp only
  rw [hnone]

/-- With room, an operation of queue 4 at which the fragment stalls enters its queue. -/
theorem Ctx.stall4_room {c : Ctx} (h : c.s.queueLen c.core .q4 < queueDepth .q4) (kind : Q4Kind) :
    c.stall4 kind = ((c.s.setCore c.core { c.s.core c.core with q4 := (c.s.core c.core).q4 ++ [c.entry 4 false kind] }).fresh).modWave c.core c.slot
      fun w => { (w.outstanding 4).modCur (fun f => { f with park := some (.op c.s.uid) }) with ended := true } := by
  unfold Ctx.stall4
  exact if_neg (not_le.2 h)

/-- Settles O32: the values keep the rules and the queues have room, so each operation enters its queue. -/
theorem lathAndGlazeResults : Obligations.LathAndGlazeResults := by
  refine ⟨⟨?req, ?run, ?wait⟩, ?glaze⟩
  case req =>
    intro o reload
    exact doesOnce_of _ (fun _ => rfl) fun c ⟨h, hf, hp⟩ =>
      (if_neg (not_not.2 h)).trans ((Ctx.memory_free hf _).trans (Ctx.enqueue_room hp _ _))
  case run =>
    intro o nin nout s c act hc hr hf herr hp e
    have hs : c.s = s := (State.ctx_some hc).2.1
    show withCtx s _ = _
    rw [withCtx_eq hc, Ctx.vector_runs hr, Ctx.memory_free hf]
    unfold Ctx.startRun
    rw [herr]
    dsimp only
    rw [if_neg (by rw [hs]; exact not_le.2 hp), hs]
  case wait =>
    intro o x
    refine doesOnce_of _ (fun _ => rfl) fun c h => ?_
    dsimp only
    rw [h] <;> rfl
  case glaze =>
    intro numbers recs queued stalled keyFill
    refine ⟨fun o => ?_, fun o flush => ?_, fun o => ?_, fun o => ?_, fun o => ?_, fun o => ?_⟩
    · refine doesIn_of (fun c act => c.recordNumbers o o.dst act.threads fun recs => c.enqueue4 (.arrive (recs.map fun x => c.arrivalOf o x.1 x.2)))
        (fun s => ?_) fun c act ⟨hn, hp⟩ => ?_
      · show execGzarr o s = _
        unfold execGzarr keyFill
        dsimp only <;> rfl
      exact (Ctx.recordNumbers_ok hn o _).trans (Ctx.enqueue_room hp _ _)
    · refine doesIn_of _ (fun _ => rfl) fun c act ⟨hn, hp⟩ => ?_
      exact (Ctx.recordNumbers_ok hn o _).trans (Ctx.stall4_room hp _)
    · exact doesOnce_of _ (fun _ => rfl) fun c hp => Ctx.enqueue_room hp _ _
    · refine doesEither_of (fun c act => c.recordNumbers o o.a act.threads fun recs => c.enqueue4 (.clear (recs.map (·.2)))) (fun s => ?_)
        fun c act ⟨hn, hp⟩ => ?_
      · show execGzclr o false s = _
        unfold execGzclr
        simp only [Bool.false_eq_true, if_false]
      · rw [Ctx.recordNumbers_ok hn]
        exact Ctx.enqueue_room hp _ _
    · refine doesOnce_of _ (fun _ => rfl) fun c ⟨h32, h24, hlog, hf, hp⟩ => ?_
      exact (if_neg (not_not.2 h32)).trans ((if_neg (by simp; omega)).trans ((Ctx.memory_free hf _).trans (Ctx.enqueue_room hp _ _)))
    · exact doesOnce_of _ (fun _ => rfl) fun c hp => Ctx.stall4_room hp _

/-! ### Fillers -/

/-- Settles O33: the task and the lines that the hypotheses name are those that the instruction finds. -/
theorem fillerResults : Obligations.FillerResults := by
  refine ⟨?get, ?getNone, ?commit, ?poison, ?poisonBlock, ?end_, ?probe⟩
  case get =>
    intro o t
    refine doesOnce_of _ (fun _ => rfl) fun c ⟨hd, hh, ht⟩ => (if_neg (by simp [hd, hh])).trans ?_
    cases hb : c.w.bound with
    | none =>
      rw [hb] at ht
      dsimp only at ht ⊢
      rw [ht]
      rfl
    | some id =>
      rw [hb] at ht
      dsimp only at ht ⊢
      rw [ht]
      rfl
  case getNone =>
    intro o
    refine doesOnce_of _ (fun _ => rfl) fun c ⟨hd, hh, hb, ht⟩ => (if_neg (by simp [hd, hh])).trans ?_
    rw [hb]
    dsimp only
    rw [ht]
    rfl
  case commit =>
    intro o n t lines hb
    refine doesIn_of _ (fun _ => rfl) fun c act ⟨hl, hd⟩ => ?_
    dsimp only
    rw [hl, hb]
    exact Ctx.drained_free hd _
  case poison =>
    intro o t lines
    refine doesOnce_of (fun c => match c.fillLines (c.fillAddr o) with
      | some (t, lines) => c.drained (c.next ((lines.foldl (fun (st : State) l => st.poisonLine c.w.part l .data) c.s).settleSlot t))
      | none => c.trap (Trap.fill o.a (c.fillAddr o))) (fun _ => rfl) fun c ⟨hl, hd⟩ => ?_
    rw [hl]
    exact Ctx.drained_free hd _
  case poisonBlock =>
    intro o t g
    refine doesOnce_of (fun c => match (if c.w.depth = 0 then none else c.task.map fun x => (x.1, (blockLines x.1.block x.2.block).filter fun l =>
          match c.s.genLine c.w.part l with | some g => g.state == .filling | none => false)) with
      | some (t, lines) => c.drained (c.next ((lines.foldl (fun (st : State) l => st.poisonLine c.w.part l .data) c.s).settleSlot t))
      | none => c.trap (Trap.fill o.a 0)) (fun _ => rfl) fun c ⟨hdepth, ht, hd⟩ => ?_
    rw [if_neg hdepth, ht]
    exact Ctx.drained_free hd _
  case end_ =>
    intro o id
    refine doesOnce_of _ (fun _ => rfl) fun c ⟨hh, hd⟩ => ?_
    rw [hh]
    exact if_neg hd
  case probe => exact fun o => doesOnce_memory _ (fun _ => rfl) (fun _ h => h.1) fun c h => if_neg (by simp [h.2])

end Sys2Proof.Machine
end

section
/-!
PROOF. Control registers, translations and other waves by privileged instructions, and the traps of filler and control-register
instructions outside their rights.
-/
namespace Sys2Proof.Machine

@[simp] theorem Ctx.spoil_slot (c : Ctx) : c.spoil.slot = c.slot := by unfold Ctx.spoil; split <;> rfl

/-- The fragment's place is the same in both states. -/
@[simp] theorem Ctx.spoil_next (c : Ctx) (s : State) : c.spoil.next s = c.next s := by unfold Ctx.spoil; split <;> rfl

/-! ### Control registers -/

/-- A scalar instance outside the block raises WINDOW (R344). -/
theorem Ctx.crAccess_window {c : Ctx} {o : Ops} {num : Nat} {n : BitVec 6} (ha : o.a = .s n)
    (h : 256 ≤ (c.w.s n.toNat).val.toNat ∨ partBlock num = true ∨ instExists num (c.w.s n.toNat).val.toNat = false) (write : Bool) (k : Nat → State) :
    c.crAccess o num write k = c.trap { cause := 7, oper := o.a.bits.toNat } := by
  have hx : (decide ((c.w.s n.toNat).val.toNat / 256 ≠ 0) || partBlock num || !instExists num (c.w.s n.toNat).val.toNat) = true := by
    rcases h with h | h | h
    · rw [decide_eq_true (by omega)]
      rfl
    · simp [h]
    · simp [h]
  unfold Ctx.crAccess
  rw [ha]
  exact if_pos hx

/-- The instance that an access names: a scalar's within the block, or the wave's own. -/
theorem Ctx.crAccess_named {c : Ctx} {o : Ops} {num inst : Nat}
    (h : match o.a with
      | .s n => inst = (c.w.s n.toNat).val.toNat ∧ inst < 256 ∧ partBlock num = false ∧ instExists num inst = true
      | _ => inst = ownInst num c.core c.w.part) (write : Bool) (k : Nat → State) :
    c.crAccess o num write k = if machineReg num write || !c.s.instOwned c.w.part num inst then c.trap Trap.priv else k inst := by
  unfold Ctx.crAccess
  dsimp only
  split
  · rename_i n ha
    rw [ha] at h
    obtain ⟨rfl, hlt, hblock, hexists⟩ := h
    exact if_neg (by rw [hblock, hexists, decide_eq_false (by omega)]; simp)
  · rename_i hne
    split at h
    · rename_i n ha
      exact absurd ha (hne n)
    · rw [h]

/-- An access of a register at machine level, or of another's instance, raises PRIV. -/
theorem Ctx.crAccess_closed {c : Ctx} {num inst : Nat} {write : Bool} (h : machineReg num write = true ∨ c.s.instOwned c.w.part num inst = false)
    (k : State) : (if machineReg num write || !c.s.instOwned c.w.part num inst then c.trap Trap.priv else k) = c.trap Trap.priv :=
  if_pos (by rcases h with h | h <;> simp [h])

/-- Settles O35: an access within its rights reaches the register; the others are as their meanings say. -/
theorem controlRegisterResults : Obligations.ControlRegisterResults := by
  unfold Obligations.ControlRegisterResults
  intro own
  have hopen : ∀ {o : Ops} {num inst : Nat} {write : Bool} {c : Ctx}, own o num write inst c → ∀ k : Nat → State, c.crAccess o num write k = k inst := by
    rintro o num inst write c ⟨hm, ho, hn⟩ k
    rw [Ctx.crAccess_named (inst := inst) (by revert hn; cases o.a <;> exact id)]
    exact if_neg (by simp [hm, ho])
  refine ⟨fun o num inst => ?_, fun o num inst => ?_, fun o scope => ?_, fun o scope => ?_, fun o w => ?_⟩
  · exact doesOnce_of _ (fun _ => rfl) fun c h => hopen h _
  · refine doesOnce_of _ (fun _ => rfl) fun c ⟨h, hd⟩ => (hopen h _).trans ((Ctx.drained_free (c.spoil_core ▸ hd) _).trans ?_)
    dsimp only
    rw [c.spoil_next, c.spoil_core, c.spoil_slot]
  · exact doesOnce_of _ (fun _ => rfl) fun c _ => rfl
  · refine doesOnce_of _ (fun _ => rfl) fun c h => (if_neg (by simp)).trans ((if_neg ?_).trans rfl)
    rw [Nat.div_eq_of_lt h]
    simp
  · exact doesOnce_of _ (fun _ => rfl) fun c _ => rfl

/-! ### Other waves -/

/-- An instruction on a handle that can name a wave of its partition. -/
theorem doesOnce_handle {i : Instr} {o : Ops} {own : Bool} {w : Ctx → Prop} {t : Ctx → State} (k : Ctx → Nat → Option Wave → State)
    (he : ∀ s, exec i s = withCtx s fun c => c.onHandle o own (k c))
    (hok : ∀ c, w c → c.part.handleOk ((c.w.scalar o.a).toNat % 2 ^ 32) = true ∧
      (own = true → (c.w.scalar o.a).toNat % 2 ^ 32 ≠ c.s.handleOf c.core c.slot))
    (h : ∀ c, w c → k c ((c.w.scalar o.a).toNat % 2 ^ 32) (c.s.findTarget c.w.part ((c.w.scalar o.a).toNat % 2 ^ 32)) = t c) :
    DoesOnce i o.guard (scalarUse o.a o.feA ++ scalarDst o) w t := by
  refine doesOnce_of (fun c => _) he fun c hw => ?_
  obtain ⟨h1, h2⟩ := hok c hw
  refine (if_neg ?_).trans (h c hw)
  rw [h1]
  cases own
  · simp
  · rw [decide_eq_false (h2 rfl)]
    simp

/-- Settles O36: the handle names a wave or none, and the wave is suspended or not. -/
theorem waveControlResults : Obligations.WaveControlResults := by
  unfold Obligations.WaveControlResults
  intro h us ok answer
  refine ⟨?none, ?kill, ?susp, ?resm, ?halt⟩
  case none =>
    rintro i o own (⟨rfl, rfl⟩ | ⟨rfl, rfl⟩ | ⟨rfl, rfl⟩)
    · refine doesOnce_handle _ (fun _ => rfl) (fun _ h => h.1) fun c hc => ?_
      rw [hc.2]
      rfl
    · refine doesOnce_handle _ (fun _ => rfl) (fun _ h => h.1) fun c hc => ?_
      rw [hc.2]
      rfl
    · refine doesOnce_handle _ (fun _ => rfl) (fun _ h => h.1) fun c hc => ?_
      rw [hc.2]
      rfl
  case kill =>
    intro o w
    refine doesOnce_handle _ (fun _ => rfl) (fun _ h => h.1) fun c hc => ?_
    rw [hc.2.1]
    exact if_neg hc.2.2
  case susp =>
    intro o w
    refine doesOnce_handle _ (fun _ => rfl) (fun _ h => h.1) fun c hc => ?_
    rw [hc.2]
    rfl
  case resm =>
    intro o w
    refine doesOnce_handle _ (fun _ => rfl) (fun _ h => h.1) fun c hc => ?_
    rw [hc.2]
    rfl
  case halt => exact fun o code => doesOnce_of _ (fun _ => rfl) fun c _ => rfl

/-! ### Traps -/

/-- No run is found outside a filler or without a held task. -/
theorem Ctx.fillLines_none {c : Ctx} (h : c.w.depth = 0 ∨ c.w.held = none) (a : DWord) : c.fillLines a = none := by
  unfold Ctx.fillLines
  rcases h with h | h
  · split
    · rfl
    · exact if_pos (by simp [h])
  · rw [show c.task = none by unfold Ctx.task; rw [h]]

/-- No run is found at an address that is no multiple of a word for each thread, at one outside the held block, or where a line is not FILLING
(R307, R308). -/
theorem Ctx.fillLines_strange {c : Ctx} {t : Task} {g : Gen} {a : DWord} (ht : c.task = some (t, g))
    (h : a.toNat % (4 * c.w.width) ≠ 0 ∨ a.toNat < t.block ∨ t.block + g.block < a.toNat + 4 * c.w.width ∨
      ∃ i < 4 * c.w.width / 128, ∀ x, c.s.genLine c.w.part (a.toNat / 128 + i) = some x → x.state ≠ .filling) : c.fillLines a = none := by
  unfold Ctx.fillLines
  rw [ht]
  refine if_pos ?_
  rcases h with h | h | h | ⟨i, hi, h⟩
  · rw [decide_eq_true h]
    simp
  · rw [decide_eq_true h]
    simp
  · rw [decide_eq_true (show _ > _ from h)]
    simp
  · have hno : (((List.range (4 * c.w.width / 128)).map fun i => a.toNat / 128 + i).all fun l =>
        match c.s.genLine c.w.part l with | some x => x.state == .filling | none => false) = false := by
      refine List.all_eq_false.2 ⟨_, List.mem_map_of_mem (List.mem_range.2 hi), ?_⟩
      cases hg : c.s.genLine c.w.part (a.toNat / 128 + i) with
      | none => simp
      | some x => simpa using h x hg
    exact (Bool.or_eq_true _ _).mpr (.inr (congrArg not hno))

/-- Settles O37: each trap's check fails. -/
theorem misusedInstructionsTrap : Obligations.MisusedInstructionsTrap := by
  have hpoison : ∀ (o : Ops) (w : Ctx → Prop), (∀ c, w c → c.fillLines (c.fillAddr o) = none) → DoesOnce (.fpsn o false) o.guard (scalarUse o.a o.feA) w
      fun c => c.trap { cause := 19, oper := o.a.bits.toNat, addr := c.fillAddr o } := by
    intro o w hnone
    refine doesOnce_of (fun c => match c.fillLines (c.fillAddr o) with
      | some (t, lines) => c.drained (c.next ((lines.foldl (fun (st : State) l => st.poisonLine c.w.part l .data) c.s).settleSlot t))
      | none => c.trap (Trap.fill o.a (c.fillAddr o))) (fun _ => rfl) fun c h => ?_
    rw [hnone c h]
    rfl
  refine ⟨⟨?get, ?commit, ?end_, ?block, ?poison, ?strange⟩, ?registers⟩
  case get =>
    intro o
    refine doesOnce_of _ (fun _ => rfl) fun c h => if_pos ?_
    rcases h with h | h <;> simp [h]
  case commit =>
    intro o
    refine doesIn_of _ (fun _ => rfl) fun c act h => ?_
    dsimp only
    rw [Ctx.fillLines_none h]
    rfl
  case end_ =>
    intro o
    refine doesOnce_of _ (fun _ => rfl) fun c h => ?_
    cases hh : c.w.held with
    | none => rfl
    | some id => exact if_pos (h.resolve_right (by simp [hh]))
  case block =>
    intro o
    refine doesOnce_of (fun c => match (if c.w.depth = 0 then none else c.task.map fun x => (x.1, (blockLines x.1.block x.2.block).filter fun l =>
          match c.s.genLine c.w.part l with | some g => g.state == .filling | none => false)) with
      | some (t, lines) => c.drained (c.next ((lines.foldl (fun (st : State) l => st.poisonLine c.w.part l .data) c.s).settleSlot t))
      | none => c.trap (Trap.fill o.a 0)) (fun _ => rfl) fun c h => ?_
    by_cases hd : c.w.depth = 0
    · rw [if_pos hd]
      rfl
    · rw [if_neg hd, show c.task = none by unfold Ctx.task; rw [h.resolve_left hd]]
      rfl
  case poison =>
    intro o
    refine hpoison o _ fun c h => Ctx.fillLines_none h _
  case strange =>
    intro strange
    refine ⟨fun o => ?_, fun o => ?_⟩
    · refine doesIn_of _ (fun _ => rfl) fun c act ⟨t, g, ht, h⟩ => ?_
      dsimp only
      rw [Ctx.fillLines_strange ht h]
      rfl
    · exact hpoison o _ fun c ⟨t, g, ht, h⟩ => Ctx.fillLines_strange ht h
  case registers =>
    intro closed outside traps
    have htraps : ∀ (i : Instr) (o : Ops) us num write (k : Ctx → Nat → State),
        (∀ s, exec i s = withCtx s fun c => c.uniform o.guard us (c.crAccess o num write (k c))) → traps i o us num write := by
      intro i o us num write k he
      refine ⟨fun ha => ?_, fun n ha => ?_, fun n ha => ?_⟩
      · refine doesOnce_of _ he fun c h => (Ctx.crAccess_named (inst := ownInst num c.core c.w.part) ?_ write _).trans (Ctx.crAccess_closed h _)
        rw [ha]
      · refine doesOnce_of _ he fun c ⟨hin, h⟩ =>
          (Ctx.crAccess_named (inst := (c.w.s n.toNat).val.toNat) ?_ write _).trans (Ctx.crAccess_closed h _)
        rw [ha]
        simp only [outside, not_or, not_le, Bool.not_eq_true, Bool.not_eq_false] at hin
        exact ⟨rfl, hin⟩
      · exact doesOnce_of _ he fun c h => Ctx.crAccess_window ha h write _
    exact ⟨fun o num => htraps _ o _ _ _ _ fun _ => rfl, fun o num => htraps _ o _ _ _ _ fun _ => rfl⟩

end Sys2Proof.Machine
end

section
/-!
PROOF. Condition words, flags and emitted records of a core task graph.
-/
namespace Sys2Proof.Machine

@[simp] theorem Ctx.spoil_recDepth (c : Ctx) : c.spoil.w.recDepth = c.w.recDepth := by unfold Ctx.spoil; split <;> rfl

@[simp] theorem State.dropWalks_uid (s : State) (core req : Nat) : (s.dropWalks core req).uid = s.uid := by
  unfold State.dropWalks
  dsimp only
  split <;> rfl

/-- An EMIT to a RECORD node of the core's graph with records of its size runs (R317). -/
theorem exec_emit {s : State} {c : Ctx} {o : Ops} {node : BitVec 6} {regs : BitVec 4} {act : Mask} {g : Graph} {n : Node} (hc : s.ctx? = some c)
    (hr : c.RunsIn o.guard (runUses o.a (regs.toNat + 1) o.feA true false true fun _ => none) act) (hf : c.FreeOfAcquire)
    (hg : (c.s.core c.core).graph = some g) (hn : g.nodes[node.toNat]? = some n) (hkind : nodeKind n = 5) (hwords : nodeWords n = regs.toNat + 1) :
    exec (.emit o node regs) s = .next (c.spoil.emit o g node.toNat n act) := by
  show withCtx s _ = _
  rw [withCtx_eq hc]
  dsimp only
  rw [if_neg (by rw [hr.active]; exact hr.any), hg]
  dsimp only
  rw [hn]
  dsimp only
  rw [if_pos (by simp [hkind, hwords])]
  exact congrArg _ ((Ctx.vector_runs hr _).trans (Ctx.memory_free hf _))

/-- With a free ring position for each thread and nothing to wait for, the records are queued. -/
theorem Ctx.emit_places {c : Ctx} {o : Ops} {g : Graph} {node : Nat} {n : Node} {act : Mask} {place : Nat → Nat} (hd : c.w.recDepth + 1 ≤ nodeMaxDepth n)
    (hp : ∀ x ∈ act.threads.zipIdx, g.slotFor node n x.2 = some (place x.1)) (hw : c.s.wavePending c.core c.w.uid true = false) :
    c.emit o g node n act = c.queueRecords o g node n act (act.threads.map fun k => (k, place k)) := by
  have hslots : (act.threads.zipIdx.map fun x => (x.1, g.slotFor node n x.2)) = act.threads.zipIdx.map fun x => (x.1, some (place x.1)) :=
    List.map_congr_left fun x hx => by rw [hp x hx]
  have hfree : (act.threads.zipIdx.map fun x => (x.1, some (place x.1))).find? (fun x => x.2.isNone) = none := by
    refine List.find?_eq_none.2 fun x hx => ?_
    obtain ⟨y, -, rfl⟩ := List.mem_map.1 hx
    simp
  have hplaces : (act.threads.zipIdx.map fun x => (x.1, some (place x.1))).filterMap (fun x => x.2.map fun p => (x.1, p)) =
      act.threads.map fun k => (k, place k) := by
    rw [List.filterMap_map]
    calc act.threads.zipIdx.filterMap (fun x => some (x.1, place x.1))
        = act.threads.zipIdx.map (fun x => (x.1, place x.1)) := congrFun List.filterMap_eq_map' _
      _ = (act.threads.zipIdx.map Prod.fst).map fun k => (k, place k) := by rw [List.map_map]; rfl
      _ = act.threads.map fun k => (k, place k) := by rw [List.zipIdx_map_fst]
  unfold Ctx.emit
  dsimp only
  rw [if_neg (not_lt.2 hd), hslots, hfree]
  dsimp only
  rw [Ctx.drained_free hw, hplaces]

/-- Records sent: the words of their threads as stores, the ring's queue, and the predicate of the threads. -/
def Ctx.sendRecords (c c1 : Ctx) (o : Ops) (g : Graph) (node : Nat) (act : Mask) (queued : List Record) (xs : List (Nat × List ByteWrite)) : State :=
  let s1 := c1.sendStores xs false
  c.next ((s1.setCore c.core { s1.core c.core with graph := some { g with rings := Tab.put g.rings node (Tab.get [] g.rings node ++ queued) } }).modWave
    c.core c.slot fun w => w.setP (Opnd.predNum o.dst) ((w.p (Opnd.predNum o.dst)).write act act 0 .fault))

/-- The bytes of a thread's record. -/
def Ctx.recordBytes (c : Ctx) (o : Ops) (n : Node) (k : Nat) : List (Byte × Byte) :=
  (List.range (nodeWords n)).flatMap fun i => wholeBytes 4 (c.w.value c.f.exec (o.a.plus i) .b32 0 k)

/-- Queueing records translates their places and sends them. -/
theorem Ctx.queueRecords_eq (c : Ctx) (o : Ops) (g : Graph) (node : Nat) (n : Node) (act : Mask) (places : List (Nat × Nat)) :
    c.queueRecords o g node n act places =
      c.reachAll o true (places.map fun x => (x.1, ringAddr n x.2, List.range (4 * nodeWords n))) (fun _ => false) fun c1 ps =>
        c.sendRecords c1 o g node act (places.map fun _ => ⟨c.w.recDepth + 1, c1.s.uid⟩) (ps.map fun p => (p.1, placeBytes (c.recordBytes o n p.1) p.2)) :=
  rfl

/-- The records whose words reach the ring. -/
theorem Ctx.queueRecords_ok {c : Ctx} {n : Node} {act : Mask} {place : Nat → Nat} {ps : Nat → List Nat}
    (h : c.Reaches (fun k => ringAddr n (place k)) (fun _ => List.range (4 * nodeWords n)) (fun _ => false) act.threads ps) (o : Ops) (g : Graph)
    (node : Nat) :
    c.queueRecords o g node n act (act.threads.map fun k => (k, place k)) =
      c.sendRecords c.translated o g node act (act.threads.map fun _ => ⟨c.w.recDepth + 1, c.s.uid⟩)
        (act.threads.map fun k => (k, placeBytes (c.recordBytes o n k) (ps k))) := by
  have huid : c.translated.s.uid = c.s.uid := State.dropWalks_uid ..
  rw [c.queueRecords_eq, List.map_map]
  refine (Ctx.reachAll_ok h _).trans ?_
  rw [List.map_map, List.map_map, huid]
  rfl

/-- Settles O34: the hypotheses choose each instruction's branch; the records' words are what is sent. -/
theorem graphInstructionResults : Obligations.GraphInstructionResults := by
  refine ⟨⟨?cond, ?sig, ?wait, ?park⟩, ?emit, ?clip⟩
  case cond =>
    intro o
    refine doesOnce_memory _ (fun _ => rfl) (fun _ h => h.1) fun c ⟨_, h31, hw, h4, hb, hd⟩ => ?_
    dsimp only
    rw [if_neg (by rw [h31, ← Option.not_isSome, hw]; simp), if_neg (not_not.2 h4), if_neg (by rw [hb]; simp), Ctx.drained_free (c.spoil_core ▸ hd), Ctx.spoil_next]
  case sig =>
    intro o mask
    refine doesOnce_of _ (fun _ => rfl) fun c h => ?_
    by_cases hm : mask = 0
    · exact (if_pos hm).trans (if_pos hm).symm
    · exact (if_neg hm).trans ((Ctx.drained_free (h.resolve_left hm) _).trans (if_neg hm).symm)
  case wait =>
    intro o mask
    refine doesOnce_of _ (fun _ => rfl) fun c h => ?_
    dsimp only
    rw [if_pos h]
  case park =>
    intro o mask
    refine doesOnce_of _ (fun _ => rfl) fun c h => ?_
    refine (if_neg ?_).trans (if_neg h)
    rintro rfl
    exact h BitVec.and_zero
  case emit =>
    intro o node regs g n place ps s c act hc hr ⟨hf, hg, hn, hk, hw, hd, hp, hpend, hreach⟩
    rw [exec_emit hc hr hf hg hn hk hw, Ctx.emit_places (by rwa [Ctx.spoil_recDepth] at hd ⊢) hp (c.spoil_core ▸ hpend), Ctx.queueRecords_ok hreach]
    rfl
  case clip =>
    intro o node regs g n s c act hc hr ⟨hf, hg, hn, hk, hw, hd, hb⟩
    rw [exec_emit hc hr hf hg hn hk hw]
    exact congrArg _ ((if_pos (by rw [Ctx.spoil_recDepth]; exact hd)).trans (if_neg (by simp [hb])))

end Sys2Proof.Machine
end

section
/-!
SUPPORT. What the bookkeeping behind an event leaves of the waves: reservations that end, records that are sent and exceptions that are
counted change no register, no predicate and no live thread of a wave, and take no operation away.
-/
namespace Sys2Proof.Machine

/-- What those leave of a wave. -/
def Wave.kept (w : Wave) : Nat × Tab VReg × Tab SReg × Tab PReg × Mask × Nat := (w.uid, w.vregs, w.sregs, w.preds, w.lives, w.blocks)

/-- The engines of a core: its queues, its grid, its accumulators and its tile registers. -/
def Core.engines (c : Core) : (List (QEntry Q1Kind) × List (QEntry HintOp) × List (QEntry Q3Kind) × List (QEntry Q4Kind)) × Lath × Tab Acc × Tab Tile :=
  ((c.q1, c.q2, c.q3, c.q4), c.lath, c.accs, c.tiles)

/-- What they leave of each core: of its waves, the number of its operations under way, and its engines. -/
def State.kept (s : State) (core : Nat) : (Nat → Option (Nat × Tab VReg × Tab SReg × Tab PReg × Mask × Nat)) × Nat ×
    (List (QEntry Q1Kind) × List (QEntry HintOp) × List (QEntry Q3Kind) × List (QEntry Q4Kind)) × Lath × Tab Acc × Tab Tile :=
  (fun slot => (s.wave? core slot).map Wave.kept, (s.core core).memq.length, (s.core core).engines)

theorem State.kept_of_cores {s t : State} (h : t.cores = s.cores) : t.kept = s.kept := by
  unfold State.kept State.wave? State.core
  rw [h]

theorem State.foldl_kept {α : Type} {f : State → α → State} (h : ∀ t a, (f t a).kept = t.kept) (l : List α) (s : State) :
    (l.foldl f s).kept = s.kept :=
  List.foldlRecOn l f (motive := fun t => t.kept = s.kept) rfl fun t ht a _ => (h t a).trans ht

/-- The wave in a slot has what it had. -/
theorem State.wave?_of_kept {s t : State} (h : t.kept = s.kept) {core slot : Nat} {w : Wave} (hw : s.wave? core slot = some w) :
    ∃ v, t.wave? core slot = some v ∧ v.kept = w.kept := by
  have hslot : (t.wave? core slot).map Wave.kept = (s.wave? core slot).map Wave.kept := congrFun (congrArg Prod.fst (congrFun h core)) slot
  rw [hw] at hslot
  exact Option.map_eq_some_iff.1 hslot

theorem State.memq_length_of_kept {s t : State} (h : t.kept = s.kept) (core : Nat) : (t.core core).memq.length = (s.core core).memq.length :=
  congrArg (·.2.1) (congrFun h core)

theorem State.engines_of_kept {s t : State} (h : t.kept = s.kept) (core : Nat) : (t.core core).engines = (s.core core).engines :=
  congrArg (·.2.2) (congrFun h core)

/-- Fragments that keep their live threads leave the wave what it has. -/
theorem Wave.mapFragments_kept (w : Wave) {g : Fragment → Fragment} (hg : ∀ f, (g f).live = f.live) : (w.mapFragments g).kept = w.kept := by
  have hlives : (w.mapFragments g).lives = w.lives := by
    have hfrags : (w.mapFragments g).frags = w.frags.map g := by
      unfold Wave.mapFragments Wave.frags
      rw [List.map_append, List.filterMap_map, List.map_filterMap]
      congr 1
    unfold Wave.lives
    rw [hfrags, List.foldl_map]
    simp only [hg]
  unfold Wave.kept
  rw [hlives]
  rfl

/-- A change of every core that leaves each wave what it has. -/
theorem State.mapCores_kept (s : State) (g : Core → Core)
    (hw : ∀ c slot, ((g c).waves.find slot).map Wave.kept = (c.waves.find slot).map Wave.kept) (hq : ∀ c, (g c).memq.length = c.memq.length)
    (he : ∀ c, (g c).engines = c.engines) :
    State.kept { s with cores := s.cores.map fun e => (e.1, g e.2) } = s.kept := by
  funext core
  unfold State.kept State.wave? State.core
  rcases Tab.get_map_or (Core.reset core) g s.cores core with h | h
  · rw [h]
    simp only [hw, hq, he]
  · rw [h]

@[simp] theorem State.irq_kept (s : State) (p vec : Nat) : (s.irq p vec).kept = s.kept := rfl

@[simp] theorem State.breakReservations_kept (s : State) (line : Nat) (keep : Option (Nat × Nat)) : (s.breakReservations line keep).kept = s.kept := by
  unfold State.breakReservations
  extract_lets one core
  refine State.mapCores_kept s core (fun c slot => ?_) (fun c => List.length_map ..) fun _ => rfl
  refine (congrArg (Option.map Wave.kept) (c.mapWaves_find one slot)).trans ?_
  cases c.waves.find slot with
  | none => rfl
  | some w => exact congrArg some (w.mapFragments_kept fun _ => rfl)

@[simp] theorem State.performWrites_kept (s : State) (p : Nat) (bs : List ByteWrite) (poisoned nt : Bool) (keep : Option (Nat × Nat)) :
    (s.performWrites p bs poisoned nt keep).kept = s.kept := by
  unfold State.performWrites
  refine (State.foldl_kept (fun t l => State.breakReservations_kept t l keep) _ _).trans (State.kept_of_cores ?_)
  simp [apply_ite State.cores, State.foldl_cores fun t l => State.markLine_cores t _ l _ _ _, State.foldl_cores State.sealBlock_cores]

@[simp] theorem State.writePhys_kept (s : State) (p pa : Nat) (bs : List Byte) (poisoned : Bool) : (s.writePhys p pa bs poisoned).kept = s.kept := by
  refine (State.performWrites_kept _ p _ poisoned false none).trans (State.kept_of_cores ?_)
  simp [apply_ite State.cores, State.foldl_cores State.dropGuests_cores]

theorem State.writeRing_kept {s t : State} {part : Nat} {va : DWord} {bs : List Byte} (h : s.writeRing part va bs = .written t) : t.kept = s.kept := by
  unfold State.writeRing at h
  dsimp only at h
  split at h
  · split at h
    · cases h
    · cases h
      exact (State.writePhys_kept _ part _ bs false).trans (State.kept_of_cores (by simp))
  · cases h
  · cases h

@[simp] theorem State.partRecord_kept (s : State) (part : Nat) (r : BitVec 256) : (s.partRecord part r).kept = s.kept := by
  unfold State.partRecord
  dsimp only
  split
  · split
    · rename_i h
      exact (State.kept_of_cores (by simp [apply_ite State.cores])).trans (State.writeRing_kept h)
    · rename_i h
      exact State.kept_of_cores (by simp [apply_ite State.cores, State.writeRing_wait h])
    · exact State.kept_of_cores (by simp)
  · exact State.kept_of_cores (by simp [apply_ite State.cores])

@[simp] theorem State.record_kept (s : State) (r : ErrRec) : (s.record r).kept = s.kept := by
  have hd : (s.deviceRecord (r.bits 0)).kept = s.kept := State.kept_of_cores (s.deviceRecord_cores _)
  unfold State.record
  dsimp only
  split
  · exact (State.partRecord_kept _ _ _).trans hd
  · exact hd

/-- Writing a core whose waves and operations stay. -/
theorem State.setCore_kept (s : State) {c : Nat} {x : Core} (hw : x.waves = (s.core c).waves) (hq : x.memq.length = (s.core c).memq.length)
    (he : x.engines = (s.core c).engines) :
    (s.setCore c x).kept = s.kept := by
  funext core
  unfold State.kept
  refine Prod.ext (funext fun slot => congrArg (Option.map Wave.kept) (State.wave?_setCore s hw core slot)) ?_
  dsimp only
  by_cases h : core = c
  · rw [h, State.core_setCore_same, hq, he]
  · rw [State.core_setCore_ne _ _ h]

/-- Writing a wave that has what the one in its slot had. -/
theorem State.setWave_kept {s : State} {core slot : Nat} {w v : Wave} (hw : s.wave? core slot = some w) (hv : v.kept = w.kept) :
    (s.setWave core slot v).kept = s.kept := by
  funext c
  unfold State.kept
  refine Prod.ext (funext fun k => ?_) ?_
  · dsimp only
    by_cases hc : c = core
    · subst hc
      by_cases hk : k = slot
      · subst hk
        rw [State.wave?_setWave_same, hw]
        exact congrArg some hv
      · rw [State.wave?_setWave_ne _ _ _ hk]
    · rw [State.wave?_setWave_core _ _ _ _ hc]
  · dsimp only
    by_cases hc : c = core
    · rw [hc, State.core_setWave]
      rfl
    · unfold State.setWave
      rw [State.core_setCore_ne _ _ hc]

theorem State.modWave_kept (s : State) (core slot : Nat) {g : Wave → Wave} (hg : ∀ w, (g w).kept = w.kept) : (s.modWave core slot g).kept = s.kept := by
  unfold State.modWave
  split
  · rename_i w hw
    exact State.setWave_kept hw (hg w)
  · rfl

@[simp] theorem State.countFor_kept (s : State) (traps : Bool) (core wc slot uid : Nat) (k : XClass) (n : Nat) (iaddr : DWord) (word : BitVec 96) :
    (s.countFor traps core wc slot uid k n iaddr word).kept = s.kept := by
  unfold State.countFor
  split
  · rfl
  · have hcore : ∀ xw xc xr, (s.setCore core { s.core core with xwin := xw, xcum := xc, xran := xr }).kept = s.kept :=
      fun _ _ _ => State.setCore_kept s rfl rfl rfl
    have hlimit : ∀ t : State, (t.modWave wc slot fun w => if w.uid = uid then { w with xlimit := w.xlimit ++ [(k, iaddr, word)] } else w).kept = t.kept :=
      fun t => State.modWave_kept t wc slot fun w => by split <;> rfl
    simp only [apply_ite State.kept, State.irq_kept, State.record_kept, hlimit, hcore, ite_self]

@[simp] theorem State.countAll_kept (s : State) (core slot uid : Nat) (evs : List (XClass × Nat)) (iaddr : DWord) (word : BitVec 96) :
    (s.countAll core slot uid evs iaddr word).kept = s.kept :=
  State.foldl_kept (f := fun (t : State) (e : XClass × Nat) => t.countOn core core slot uid e.1 e.2 iaddr word)
    (fun t e => State.countFor_kept t true core core slot uid e.1 e.2 iaddr word) evs s

end Sys2Proof.Machine
end

section
/-!
PROOF. Loads, fetches and special functions complete.
-/
namespace Sys2Proof.Machine

/-! ### The end of an operation -/

@[simp] theorem State.noteLines_cores (s : State) (part : Nat) (launch : Option Nat) (ks : List LineKey) : (s.noteLines part launch ks).cores = s.cores := by
  unfold State.noteLines
  split
  · rfl
  · split <;> rfl

@[simp] theorem State.noteChannel_cores (s : State) (core : Nat) (m : MemOp) : (s.noteChannel core m).cores = s.cores := by
  unfold State.noteChannel
  split
  · exact State.noteLines_cores ..
  · rfl

@[simp] theorem State.noteChannel_core (s : State) (core : Nat) (m : MemOp) (k : Nat) : (s.noteChannel core m).core k = s.core k := by
  simp [State.core]

/-- An operation that has ended is gone. -/
theorem State.endOp_gone (s : State) (core : Nat) (m : MemOp) : (s.endOp core m).OpGone core m.id := by
  intro x hx
  unfold State.endOp at hx
  dsimp only at hx
  rw [State.dropWalks_core, State.core_setCore_same] at hx
  simpa using (List.mem_filter.1 hx).2

/-- It leaves every wave. -/
@[simp] theorem State.wave?_endOp (s : State) (core : Nat) (m : MemOp) (k slot : Nat) : (s.endOp core m).wave? k slot = s.wave? k slot := by
  unfold State.endOp
  dsimp only
  rw [State.dropWalks_wave?]
  refine (State.wave?_setCore _ (by rfl) _ _).trans ?_
  unfold State.wave?
  rw [State.noteChannel_core]

@[simp] theorem State.wave?_wokenL1 (s : State) (core : Nat) (m : MemOp) (k slot : Nat) : (s.wokenL1 core m).wave? k slot = s.wave? k slot := by
  unfold State.wokenL1
  split
  · exact State.wave?_setCore _ (by rfl) _ _
  · rfl

/-- The wave of an operation takes what it writes. -/
theorem State.modOpWave_eq {s : State} {core : Nat} {m : MemOp} {w : Wave} (hw : s.wave? core m.slot = some w) (hu : w.uid = m.wave) (g : Wave → Wave) :
    s.modOpWave core m g = s.setWave core m.slot (g w) := by
  unfold State.modOpWave
  rw [hw]
  exact if_pos hu

/-! ### LOAD_COMPLETION -/

/-- The operation of the event may act: a load finishes. -/
theorem State.loadDone_load {s : State} {core k : Nat} {m : MemOp} {dst : Opnd} {ty : Ty} {one : Bool} {cnt : Cnt} {sub : BitVec 2} {nc lr : Bool}
    {accs : List (Nat × Option DWord)} (hk : m.kind = .load dst ty one cnt sub nc lr accs) (h : s.MayPerform core k m) :
    s.loadDone core k = s.finishLoad core (s.opPart core m) m dst ty one cnt.num sub.toNat nc lr accs := by
  unfold State.loadDone
  rw [h.1]
  exact (if_neg (Bool.eq_false_iff.1 h.2)).trans (by rw [hk])

/-- The read of an ACQ finishes. -/
theorem State.loadDone_acq {s : State} {core k : Nat} {m : MemOp} {dst : Opnd} {addr : DWord} {scope : Scope} (hk : m.kind = .acq dst addr scope)
    (h : s.MayPerform core k m) : s.loadDone core k = s.finishAcq core (s.opPart core m) m dst addr scope := by
  unfold State.loadDone
  rw [h.1]
  exact (if_neg (Bool.eq_false_iff.1 h.2)).trans (by rw [hk])

/-- A node or triangle fetch finishes. -/
theorem State.loadDone_node {s : State} {core k : Nat} {m : MemOp} {dst : Opnd} {tri sort : Bool} {rays : List (Nat × Option DWord × List Word)}
    {poison : Mask} {org : Origin} {flips : Tab Flip} (hk : m.kind = .node dst tri sort rays poison org flips) (h : s.MayPerform core k m) :
    s.loadDone core k = s.finishNode core (s.opPart core m) m dst tri sort rays poison org flips := by
  unfold State.loadDone
  rw [h.1]
  exact (if_neg (Bool.eq_false_iff.1 h.2)).trans (by rw [hk])

/-- A VXM finishes. -/
theorem State.loadDone_vxm {s : State} {core k : Nat} {m : MemOp} {dst : Opnd} {rnd : Nat} {flush : Bool}
    {accs : List (Nat × Option DWord × List Word × List Word)} {poison : Mask} {org : Origin} {flips : Tab Flip} {iaddr : DWord} {word : BitVec 96}
    (hk : m.kind = .vxm dst rnd flush accs poison org flips iaddr word) (h : s.MayPerform core k m) :
    s.loadDone core k = s.finishVxm core (s.opPart core m) m dst rnd flush accs poison org flips iaddr word := by
  unfold State.loadDone
  rw [h.1]
  exact (if_neg (Bool.eq_false_iff.1 h.2)).trans (by rw [hk])

/-- What a wave reads and writes: its registers and predicates. -/
def Wave.regFiles (w : Wave) : Tab VReg × Tab SReg × Tab PReg := (w.vregs, w.sregs, w.preds)

/-- Writing the wave of an operation, drawing a choice and ending the operation. -/
theorem State.putAndEnd {s : State} {core : Nat} {m : MemOp} {w : Wave} (hw : s.wave? core m.slot = some w) (hu : w.uid = m.wave) (g : Wave → Wave) :
    ((s.modOpWave core m g).draw.endOp core m).OpGone core m.id ∧ ((s.modOpWave core m g).draw.endOp core m).wave? core m.slot = some (g w) := by
  refine ⟨State.endOp_gone _ _ _, ?_⟩
  rw [State.wave?_endOp, State.modOpWave_eq hw hu]
  exact State.wave?_setWave_same ..

/-- A load with a register to write is no PREF. -/
theorem State.not_prefetches {m : MemOp} {dst : Opnd} {ty : Ty} {one : Bool} {cnt : Cnt} {sub : BitVec 2} {nc lr : Bool} {accs : List (Nat × Option DWord)}
    (hk : m.kind = .load dst ty one cnt sub nc lr accs) (hz : dst ≠ .zero) (hn : dst ≠ .unused) : m.kind.prefetches = false := by
  rw [hk]
  unfold MemKind.prefetches
  split <;> simp_all

/-- Changing the wave of an operation in nothing that is kept. -/
theorem State.modOpWave_kept (s : State) (core : Nat) (m : MemOp) {g : Wave → Wave} (hg : ∀ w, (g w).kept = w.kept) :
    (s.modOpWave core m g).kept = s.kept := by
  unfold State.modOpWave
  split
  · rename_i w hw
    split
    · exact State.setWave_kept hw (hg w)
    · rfl
  · rfl

/-- A run of vector registers leaves the scalars and the predicates. -/
theorem Wave.putRun_files (w : Wave) (dst : Opnd) (n : Nat) (xs : List (Nat × List (Word × Option Origin))) (mark : Option NestMark) :
    (w.putRun dst n xs mark).sregs = w.sregs ∧ (w.putRun dst n xs mark).preds = w.preds := by
  unfold Wave.putRun
  refine List.foldlRecOn _ _ (motive := fun v : Wave => v.sregs = w.sregs ∧ v.preds = w.preds) ⟨rfl, rfl⟩ fun v hv r _ => ?_
  split
  · exact hv
  · exact hv

/-- A load of LD, LDNC or LDU whose lines are at hand. -/
theorem State.finishLoad_done {s : State} {core part : Nat} {m : MemOp} {dst : Opnd} {ty : Ty} {one : Bool} {cnt : Cnt} {sub : BitVec 2} {nc : Bool}
    {accs : List (Nat × Option DWord)} {d : ReadDone} {w : Wave} (hk : m.kind = .load dst ty one cnt sub nc false accs) (hz : dst ≠ .zero) (hn : dst ≠ .unused)
    (hu : w.uid = m.wave) (hr : s.readLanes (m.reader core part) accs (regBytes ty one * cnt.num) (some ⟨nc, s.fencedOf core m⟩) = .inr d)
    (hw : d.s.wave? core m.slot = some w) :
    (s.finishLoad core part m dst ty one cnt.num sub.toNat nc false accs).OpGone core m.id ∧
    (s.finishLoad core part m dst ty one cnt.num sub.toNat nc false accs).wave? core m.slot =
      some ((d.s.wokenL1 core m).putLoad w dst ty one cnt.num sub.toNat d) := by
  have hpre := State.not_prefetches hk hz hn
  have heq : s.finishLoad core part m dst ty one cnt.num sub.toNat nc false accs =
      (((d.s.wokenL1 core m).modOpWave core m fun w => (d.s.wokenL1 core m).putLoad w dst ty one cnt.num sub.toNat d).draw).endOp core m := by
    unfold State.finishLoad
    dsimp only
    rw [if_neg (by simp [hpre]), if_neg (by simp [hn]), hr]
    exact (if_neg (by simp [hz, hn])).trans rfl
  rw [heq]
  exact State.putAndEnd ((State.wave?_wokenL1 ..).trans hw) hu _

/-- A PREF, whose threads that may read have been picked. -/
theorem State.finishLoad_pref {s : State} {core part : Nat} {m : MemOp} {dst : Opnd} {ty : Ty} {one : Bool} {cnt : Cnt} {sub : BitVec 2} {nc : Bool}
    {accs : List (Nat × Option DWord)} {d : ReadDone} (hk : m.kind = .load dst ty one cnt sub nc false accs) (hd : dst = .zero ∨ dst = .unused)
    (hr : s.readLanes (m.reader core part) (s.prefetched core part m accs) (regBytes ty one * cnt.num) (if dst = .unused then none else some ⟨nc, s.fencedOf core m⟩) = .inr d) :
    s.finishLoad core part m dst ty one cnt.num sub.toNat nc false accs = d.s.endOp core m := by
  have hpre : m.kind.prefetches = true := by
    rw [hk]
    rcases hd with rfl | rfl <;> rfl
  have hq : ∀ x : L1Way, (if (false || decide (dst = .unused)) = true then none else some x) = if dst = .unused then none else some x := fun x => by simp
  unfold State.finishLoad
  dsimp only
  rw [if_pos hpre, hq, hr]
  exact if_pos (by simpa using hd)

/-- A load that must wait has made its requests. -/
theorem State.finishLoad_waits {s s1 : State} {core part : Nat} {m : MemOp} {dst : Opnd} {ty : Ty} {one : Bool} {cnt : Cnt} {sub : BitVec 2} {nc : Bool}
    {accs : List (Nat × Option DWord)} (hk : m.kind = .load dst ty one cnt sub nc false accs) (hz : dst ≠ .zero) (hn : dst ≠ .unused)
    (hr : s.readLanes (m.reader core part) accs (regBytes ty one * cnt.num) (some ⟨nc, s.fencedOf core m⟩) = .inl s1) :
    s.finishLoad core part m dst ty one cnt.num sub.toNat nc false accs = s1 := by
  unfold State.finishLoad
  dsimp only
  rw [if_neg (by simp [State.not_prefetches hk hz hn]), if_neg (by simp [hn]), hr]

/-- Reserving the lines of an LR leaves each wave what it has. -/
theorem State.reserve_kept (s : State) (core : Nat) (m : MemOp) (lines : List (Nat × Nat)) : (s.reserve core m lines).kept = s.kept := by
  unfold State.reserve
  extract_lets line bind s1 c
  refine (State.setCore_kept s1 ?_ ?_ ?_).trans ?_
  · rfl
  · exact List.length_map ..
  · rfl
  · exact State.modOpWave_kept s core m fun w => w.mapFragments_kept fun _ => rfl

theorem State.dropLines_kept {α : Type} (s : State) (core : Nat) (key : α → LineKey) (xs : List α) :
    (s.setCore core (xs.foldl (fun (c : Core) x => c.l1Drop (key x)) (s.core core))).kept = s.kept := by
  have h : ∀ c : Core, let x := xs.foldl (fun (c : Core) x => c.l1Drop (key x)) c
      x.waves = c.waves ∧ x.memq = c.memq ∧ x.engines = c.engines := fun c =>
    List.foldlRecOn xs _ (motive := fun x : Core => x.waves = c.waves ∧ x.memq = c.memq ∧ x.engines = c.engines) ⟨rfl, rfl, rfl⟩ fun x hx _ _ => hx
  obtain ⟨hw, hq, he⟩ := h (s.core core)
  exact State.setCore_kept s hw (congrArg _ hq) he

/-- An LR, whose lines are at hand. -/
theorem State.finishLoad_lr {s : State} {core part : Nat} {m : MemOp} {dst : Opnd} {ty : Ty} {one : Bool} {cnt : Cnt} {sub : BitVec 2} {nc : Bool}
    {accs : List (Nat × Option DWord)} {d : ReadDone} (hk : m.kind = .load dst ty one cnt sub nc true accs) (hz : dst ≠ .zero) (hn : dst ≠ .unused)
    (hr : s.readLanes (m.reader core part) accs (regBytes ty one * cnt.num) none = .inr d) :
    ∃ s3 : State, s.finishLoad core part m dst ty one cnt.num sub.toNat nc true accs = s3.draw.endOp core m ∧
      s3.kept = ((d.s.wokenL1 core m).modOpWave core m fun w => (d.s.wokenL1 core m).putLoad w dst ty one cnt.num sub.toNat d).kept := by
  unfold State.finishLoad
  extract_lets r n quiet accs'
  have ha : accs' = accs := if_neg (by simp [State.not_prefetches hk hz hn])
  rw [ha, if_pos (by rfl), hr]
  dsimp only
  rw [if_neg (by simp [hz, hn]), if_pos rfl]
  exact ⟨_, rfl, (State.reserve_kept ..).trans (State.dropLines_kept ..)⟩

/-- An acquire leaves each wave what it has. -/
theorem State.acquire_kept (s : State) (core : Nat) (w : Wave) (bar : Bool) (obj : DWord) : (s.acquire core w bar obj).kept = s.kept := by
  unfold State.acquire
  extract_lets k
  split
  · rfl
  · extract_lets regions lines keys
    split
    · rfl
    · exact State.setCore_kept s rfl rfl rfl

theorem State.fenceWave_kept (s : State) (core slot : Nat) : (s.fenceWave core slot).kept = s.kept :=
  State.modWave_kept s core slot fun _ => rfl

/-- The read of an ACQ whose line is at hand, with no passed store before it. -/
theorem State.finishAcq_done {s : State} {core part : Nat} {m : MemOp} {dst : Opnd} {addr : DWord} {scope : Scope} {d : ReadDone}
    (hp : s.passedStores core m = false) (hr : s.readLanes (m.reader core part) [(0, some addr)] 8 none = .inr d) :
    ∃ s3 : State, s.finishAcq core part m dst addr scope = s3.draw.endOp core m ∧
      s3.kept = ((d.s.wokenL1 core m).modOpWave core m fun w => (d.s.wokenL1 core m).putLoad w dst .n64 false 1 0 d).kept := by
  unfold State.finishAcq
  rw [if_neg (Bool.eq_false_iff.1 hp), hr]
  refine ⟨_, rfl, ?_⟩
  rw [apply_ite State.kept, State.fenceWave_kept, ite_self]
  split
  · rw [apply_ite State.kept, State.acquire_kept, ite_self]
  · rfl

/-- A node or triangle fetch whose lines are at hand. -/
theorem State.finishNode_done {s : State} {core part : Nat} {m : MemOp} {dst : Opnd} {tri sort : Bool} {rays : List (Nat × Option DWord × List Word)}
    {poison : Mask} {org : Origin} {flips : Tab Flip} {d : ReadDone}
    (hr : s.readLanes (m.reader core part) (rays.map fun x => (x.1, x.2.1)) (if tri then 48 else 128) (some ⟨false, 0⟩) = .inr d) :
    s.finishNode core part m dst tri sort rays poison org flips =
      ((d.s.wokenL1 core m).modOpWave core m fun w => w.putRun dst (if tri then 4 else 8)
        (nodeRegs tri sort rays poison org flips (d.s.wokenL1 core m).freeCtr d) ((d.s.wokenL1 core m).nestMark w d.nests)).draw.endOp core m := by
  unfold State.finishNode
  rw [hr]

/-! ### VXM -/

/-- The eight sums of a thread and their poison; a free value, poisoned with origin FAULT, where its block could not be read. -/
def vxmWords (rnd : Nat) (flush : Bool) (poison : Mask) (org : Origin) (d : ReadDone) (free : Nat)
    (x : Nat × Option DWord × List Word × List Word) : List Word × Option Origin :=
  let own := if poison.getLsbD x.1 then some org else none
  match (d.lanes.find? fun l => l.1 = x.1).bind (·.2) with
  | some bs => ((vxmResult rnd flush x.2.2.1 x.2.2.2 (valuesOf bs)).map fun (r : FRes) => BitVec.ofNat 32 r.bits, joinOrigin own (poisonOf bs))
  | none => (List.replicate 8 (Config.poisonedBits (free * 128 + x.1)), joinOrigin own (some .fault))

/-- What a VXM writes in each thread, with its upsets. -/
def vxmSums (rnd : Nat) (flush : Bool) (accs : List (Nat × Option DWord × List Word × List Word)) (poison : Mask) (org : Origin) (flips : Tab Flip)
    (d : ReadDone) (free : Nat) : List (Nat × List (Word × Option Origin)) :=
  accs.map fun x => (x.1, (vxmWords rnd flush poison org d free x).1.zipIdx.map fun y =>
    (y.1 ^^^ BitVec.ofNat 32 ((Tab.get 0 flips x.1 : Flip).word y.2), (Tab.get 0 flips x.1 : Flip).poisons (vxmWords rnd flush poison org d free x).2))

/-- A VXM whose lines are at hand. -/
theorem State.finishVxm_done {s : State} {core part : Nat} {m : MemOp} {dst : Opnd} {rnd : Nat} {flush : Bool}
    {accs : List (Nat × Option DWord × List Word × List Word)} {poison : Mask} {org : Origin} {flips : Tab Flip} {iaddr : DWord} {word : BitVec 96}
    {d : ReadDone} (hr : s.readLanes (m.reader core part) (accs.map fun x => (x.1, x.2.1)) 256 none = .inr d) :
    ∃ s3 : State, s.finishVxm core part m dst rnd flush accs poison org flips iaddr word = s3.draw.endOp core m ∧
      s3.kept = ((d.s.wokenL1 core m).modOpWave core m fun w => w.putRun dst 8
        (vxmSums rnd flush accs poison org flips d (d.s.wokenL1 core m).freeCtr) ((d.s.wokenL1 core m).nestMark w d.nests)).kept := by
  unfold State.finishVxm
  rw [hr]
  dsimp -zeta only
  extract_lets s1 outs s2
  have houts : outs.map (fun x => (x.1, x.2.1)) = vxmSums rnd flush accs poison org flips d s1.freeCtr := by
    unfold outs vxmSums vxmWords
    rw [List.map_map]
    refine List.map_congr_left fun x _ => ?_
    dsimp only [Function.comp]
    cases (d.lanes.find? fun l => l.1 = x.1).bind (·.2) <;> rfl
  have hs2 : s2 = s1.modOpWave core m fun w => w.putRun dst 8 (vxmSums rnd flush accs poison org flips d s1.freeCtr) (s1.nestMark w d.nests) := by
    unfold s2
    rw [houts]
  exact ⟨_, rfl, (State.countAll_kept ..).trans (congrArg State.kept hs2)⟩

@[simp] theorem State.wokenL1_freeCtr (s : State) (core : Nat) (m : MemOp) : (s.wokenL1 core m).freeCtr = s.freeCtr := by
  unfold State.wokenL1
  split <;> rfl

/-- What stands in the slot of an operation that has ended, if the bookkeeping before its end has kept the waves. -/
theorem State.endOp_wave_of_kept {s s3 : State} {core : Nat} {m : MemOp} {w : Wave} {g : Wave → Wave} (hw : s.wave? core m.slot = some w)
    (hu : w.uid = m.wave) (h3 : s3.kept = ((s.wokenL1 core m).modOpWave core m g).kept) :
    ∃ v, (s3.draw.endOp core m).wave? core m.slot = some v ∧ v.kept = (g w).kept := by
  have hmod : ((s.wokenL1 core m).modOpWave core m g).wave? core m.slot = some (g w) := by
    rw [State.modOpWave_eq ((State.wave?_wokenL1 ..).trans hw) hu]
    exact State.wave?_setWave_same ..
  obtain ⟨v, hv, hvw⟩ := State.wave?_of_kept h3 hmod
  exact ⟨v, (State.wave?_endOp ..).trans hv, hvw⟩

/-- Waves that are kept have the registers that they had. -/
theorem Wave.kept_eq {v w : Wave} (h : v.kept = w.kept) : v.vregs = w.vregs ∧ v.sregs = w.sregs ∧ v.preds = w.preds :=
  ⟨congrArg (·.2.1) h, congrArg (·.2.2.1) h, congrArg (·.2.2.2.1) h⟩

/-- Settles O38: once the lines are at hand the operation's registers are written, and the operation is gone. -/
theorem loadsComplete : Obligations.LoadsComplete := by
  refine ⟨?load, ?pref, ?wait, ?lr, ?acq, ?node, ?vxm, ?value, ?task⟩
  case load =>
    intro core k m dst ty one cnt sub nc accs d w hk hz hn hu s ⟨hm, hr, hw⟩
    exact ⟨_, congrArg Host.Outcome.next (State.loadDone_load hk hm), State.finishLoad_done hk hz hn hu hr hw⟩
  case pref =>
    intro core k m dst ty one cnt sub nc accs d hk hd s ⟨hm, hr⟩
    exact ⟨_, congrArg Host.Outcome.next ((State.loadDone_load hk hm).trans (State.finishLoad_pref hk hd hr)), State.endOp_gone _ _ _, State.wave?_endOp _ _ _⟩
  case wait =>
    intro core k m dst ty one cnt sub nc accs s1 hk hz hn s ⟨hm, hr⟩
    exact congrArg Host.Outcome.next ((State.loadDone_load hk hm).trans (State.finishLoad_waits hk hz hn hr))
  case lr =>
    intro core k m dst ty one cnt sub nc accs d w hk hz hn hu s ⟨hm, hr, hw⟩
    obtain ⟨s3, hs3, h3⟩ := State.finishLoad_lr hk hz hn hr
    obtain ⟨v, hv, hvw⟩ := State.endOp_wave_of_kept hw hu h3
    have hregs := Wave.kept_eq hvw
    exact ⟨_, congrArg Host.Outcome.next ((State.loadDone_load hk hm).trans hs3), State.endOp_gone _ _ _, v, hv, hregs.1, hregs.2.1⟩
  case acq =>
    intro core k m dst addr scope d w hk hu s ⟨hm, hp, hr, hw⟩
    obtain ⟨s3, hs3, h3⟩ := State.finishAcq_done hp hr
    obtain ⟨v, hv, hvw⟩ := State.endOp_wave_of_kept hw hu h3
    exact ⟨_, congrArg Host.Outcome.next ((State.loadDone_acq hk hm).trans hs3), State.endOp_gone _ _ _, v, hv, (Wave.kept_eq hvw).2.1⟩
  case node =>
    intro core k m dst tri sort rays poison org flips d w hk hu s ⟨hm, hr, hw⟩
    refine ⟨_, congrArg Host.Outcome.next ((State.loadDone_node hk hm).trans (State.finishNode_done hr)), ?_⟩
    rw [State.wokenL1_freeCtr]
    exact State.putAndEnd ((State.wave?_wokenL1 ..).trans hw) hu _
  case vxm =>
    intro core k m dst rnd flush accs poison org flips iaddr word d w hk hu s ⟨hm, hr, hw⟩
    obtain ⟨s3, hs3, h3⟩ := State.finishVxm_done hr
    obtain ⟨v, hv, hvw⟩ := State.endOp_wave_of_kept hw hu h3
    rw [State.wokenL1_freeCtr] at hvw
    obtain ⟨hv1, hv2, hv3⟩ := Wave.kept_eq hvw
    refine ⟨_, congrArg Host.Outcome.next ((State.loadDone_vxm hk hm).trans hs3), ?_⟩
    extract_lets own flip words sums
    have hsums : sums = vxmSums rnd flush accs poison org flips d d.s.freeCtr := rfl
    exact ⟨State.endOp_gone _ _ _, v, hv, hsums ▸ hv1, hv2.trans (Wave.putRun_files w dst 8 _ _).1, hv3.trans (Wave.putRun_files w dst 8 _ _).2⟩
  case value =>
    intro core k m dst vals act poison org exc iaddr word w hk hu s ⟨hm, hw⟩
    show Host.Outcome.next _ = _
    rw [hm]
    dsimp only
    rw [hk]
    dsimp only
    rw [State.modOpWave_eq hw hu]
  case task =>
    intro core k m dst x w hk hu s ⟨hm, hw⟩
    show Host.Outcome.next _ = _
    rw [hm]
    dsimp only
    rw [hk]
    dsimp only
    rw [State.modOpWave_eq hw hu]

end Sys2Proof.Machine
end

section
/-!
PROOF. Stores, atomics and store-conditionals are performed.
-/
namespace Sys2Proof.Machine

/-! ### The bytes that a write performs -/

/-- A byte written under its enable. -/
def Memory.put (m : Memory) (b : ByteWrite) : Memory := m.write b.addr ((m.read b.addr &&& ~~~b.en) ||| (b.val &&& b.en))

/-- A byte that is not written stays. -/
theorem Memory.read_foldl_put (bs : List ByteWrite) (m : Memory) {a : Nat} (h : ∀ b ∈ bs, b.addr ≠ a) :
    (bs.foldl Memory.put m).read a = m.read a :=
  List.foldlRecOn bs Memory.put (motive := fun x : Memory => x.read a = m.read a) rfl
    fun _ hx b hb => (Memory.read_write_ne _ _ (h b hb).symm).trans hx

/-- The writes of whole bytes from an address on. -/
def wholeWrites (addr : Nat) (bs : List Byte) : List ByteWrite := bs.zipIdx.map fun (b : Byte × Nat) => ⟨addr + b.2, b.1, 0xFF⟩

theorem Memory.put_whole (m : Memory) (addr : Nat) (b : Byte) : m.put ⟨addr, b, 0xFF⟩ = m.write addr b := by
  have hb : (m.read addr &&& ~~~(0xFF : Byte)) ||| (b &&& 0xFF) = b := by
    have h0 : ~~~(0xFF : Byte) = 0#8 := rfl
    have h1 : (0xFF : Byte) = BitVec.allOnes 8 := rfl
    rw [h0, h1, BitVec.and_zero, BitVec.and_allOnes, BitVec.zero_or]
  exact congrArg (m.write addr) hb

/-- Performing whole bytes writes them in order. -/
theorem Memory.foldl_put_whole (bs : List Byte) (m : Memory) (addr : Nat) : (wholeWrites addr bs).foldl Memory.put m = m.writeBytes addr bs := by
  have h : ∀ (bs : List Byte) (m : Memory) (k : Nat),
      ((bs.zipIdx k).map fun (b : Byte × Nat) => (⟨addr + b.2, b.1, 0xFF⟩ : ByteWrite)).foldl Memory.put m = m.writeBytes (addr + k) bs := by
    intro bs
    induction bs with
    | nil => exact fun _ _ => rfl
    | cons b bs ih =>
      intro m k
      rw [List.zipIdx_cons, List.map_cons, List.foldl_cons, ih, Memory.put_whole]
      rfl
  exact h bs m 0

theorem leBytes_length (n x : Nat) : (leBytes n x).length = n := by
  induction n generalizing x with
  | zero => rfl
  | succ n ih => exact congrArg (· + 1) (ih _)

/-! ### What performing writes does to memory -/

@[simp] theorem State.markLine_data (s : State) (p line : Nat) (bs : List ByteWrite) (poisoned nt : Bool) : (s.markLine p line bs poisoned nt).data = s.data := by
  unfold State.markLine
  extract_lets covered s1 n h
  have h1 : s1.data = s.data := State.touchLine_data ..
  split
  · split
    · exact (State.putLine_data ..).trans h1
    · exact h1
  · exact h1

/-- No channel that is not failed discards a byte. -/
theorem State.chanFailed_none {s : State} (h : s.channels.isEmpty = true) (a : Nat) : s.chanFailed a = false := by
  unfold State.chanFailed
  rw [List.isEmpty_iff.1 h]
  simp

/-- The writes that no failed channel discards. -/
def State.landing (s : State) (bs : List ByteWrite) : List ByteWrite := bs.filter fun b => !s.chanFailed b.addr

/-- The bytes that land are in memory, in order. -/
theorem State.performWrites_mem (s : State) (p : Nat) (bs : List ByteWrite) (poisoned nt : Bool) (keep : Option (Nat × Nat)) :
    (s.performWrites p bs poisoned nt keep).mem = (s.landing bs).foldl Memory.put s.mem := by
  unfold State.performWrites
  extract_lets bs' lines s0 s1 s2 words s3 hosts s4
  have hbs : bs' = s.landing bs := by
    unfold bs' State.landing
    split
    · rename_i h
      exact (List.filter_eq_self.2 fun b _ => by rw [State.chanFailed_none h]; rfl).symm
    · rfl
  have h0 : s0.data = s.data := by
    unfold s0
    split
    · rfl
    · exact State.foldl_data State.sealBlock_data _ _
  have h1 : s1.mem = s.mem := State.data_mem ((State.foldl_data (fun t l => State.markLine_data t p l _ poisoned nt) lines s0).trans h0)
  have h3 : s3.mem = s2.mem := by
    unfold s3
    split
    · rfl
    · split <;> rfl
  have h4 : s4.mem = s3.mem := by
    unfold s4
    split <;> rfl
  have hbreak : ∀ (l : List Nat) (t : State), (l.foldl (fun st line => State.breakReservations st line keep) t).mem = t.mem := fun l t =>
    List.foldlRecOn l _ (motive := fun u : State => u.mem = t.mem) rfl fun _ hu _ _ => hu
  rw [hbreak, h4, h3]
  show bs'.foldl Memory.put s1.mem = _
  rw [h1, hbs]

/-- Whole bytes of which none lies in a failed channel are all written. -/
theorem State.performWrites_whole (s : State) (p addr n x : Nat) (poisoned nt : Bool) (keep : Option (Nat × Nat)) (h : ∀ i < n, s.chanFailed (addr + i) = false) :
    (s.performWrites p (wholeWrites addr (leBytes n x)) poisoned nt keep).mem = s.mem.writeBytes addr (leBytes n x) := by
  have hland : s.landing (wholeWrites addr (leBytes n x)) = wholeWrites addr (leBytes n x) := by
    refine List.filter_eq_self.2 fun b hb => ?_
    obtain ⟨y, hy, rfl⟩ := List.mem_map.1 hb
    have hi := (List.mem_zipIdx' hy).1
    rw [leBytes_length] at hi
    simp [h y.2 hi]
  rw [State.performWrites_mem, hland, Memory.foldl_put_whole]

/-! ### The end of a write -/

@[simp] theorem State.noteChannel_mem (s : State) (core : Nat) (m : MemOp) : (s.noteChannel core m).mem = s.mem := by
  unfold State.noteChannel
  split
  · exact State.data_mem (State.noteLines_data ..)
  · rfl

@[simp] theorem State.dropOp_mem (s : State) (core k : Nat) : (s.dropOp core k).mem = s.mem := by
  unfold State.dropOp
  dsimp only
  rw [State.setCore_mem]
  split
  · exact State.noteChannel_mem ..
  · rfl

/-- An operation that ends leaves the queue of its core. -/
theorem State.dropOp_memq (s : State) (core k : Nat) : ((s.dropOp core k).core core).memq = (s.core core).memq.eraseIdx k := by
  unfold State.dropOp
  extract_lets s0 c
  have hc : c = s.core core := by
    unfold c s0
    split
    · exact State.noteChannel_core ..
    · rfl
  rw [State.core_setCore_same, hc]

@[simp] theorem State.wave?_dropOp (s : State) (core k c slot : Nat) : (s.dropOp core k).wave? c slot = s.wave? c slot := by
  unfold State.dropOp
  extract_lets s0 x
  refine (State.wave?_setCore s0 (by rfl) _ _).trans ?_
  unfold State.wave? s0
  split
  · rw [State.noteChannel_core]
  · rfl

theorem Core.l1_foldl_memq {α : Type} (xs : List α) (key : α → LineKey) (c : Core) :
    (xs.foldl (fun (k : Core) x => k.l1Drop (key x)) c).memq = c.memq ∧ (xs.foldl (fun (k : Core) x => k.l1Drop (key x)) c).waves = c.waves :=
  List.foldlRecOn xs _ (motive := fun x : Core => x.memq = c.memq ∧ x.waves = c.waves) ⟨rfl, rfl⟩ fun _ hx _ _ => hx

@[simp] theorem State.settleL1_mem (s : State) (core : Nat) (bytes : List ByteWrite) (nt : Bool) : (s.settleL1 core bytes nt).mem = s.mem := by
  unfold State.settleL1
  dsimp only
  split
  · rfl
  · split <;> rfl

@[simp] theorem State.settleL1_memq (s : State) (core : Nat) (bytes : List ByteWrite) (nt : Bool) :
    ((s.settleL1 core bytes nt).core core).memq = (s.core core).memq := by
  unfold State.settleL1
  dsimp only
  split
  · rfl
  · split
    · rw [State.core_setCore_same]
      exact (Core.l1_foldl_memq _ _ _).1
    · rw [State.core_setCore_same]
      rfl

/-! ### STORE_PERFORMED -/

/-- A store whose lines can be written is performed. -/
theorem State.storeDone_store {s : State} {core k : Nat} {m : MemOp} {thread : Nat} {bytes : List ByteWrite} {poisoned nt : Bool}
    (hk : m.kind = .store thread bytes poisoned nt) (h : s.MayPerform core k m) (hw : s.writableAll (s.opPart core m) m.stores = true) (hu : s.unchecked = []) :
    s.storeDone core k = ((s.performWrites (s.opPart core m) bytes poisoned nt (some (m.wave, thread))).dropOp core k).settleL1 core bytes nt := by
  have hcross : s.crossStore bytes = (s, bytes) := if_pos (by rw [hu]; rfl)
  unfold State.storeDone
  rw [h.1]
  refine (if_neg (Bool.eq_false_iff.1 h.2)).trans ?_
  rw [hk]
  refine (if_pos hw).trans ?_
  rw [hcross]

/-- An atomic that may act. -/
theorem State.storeDone_atom {s : State} {core k : Nat} {m : MemOp} {dst : Opnd} {thread addr : Nat} {ty : Ty} {op : Option AOp} {fop : Option FAOp}
    {cmp : Option DWord} {data : DWord} {flush : Bool} {iaddr : DWord} {word : BitVec 96}
    (hk : m.kind = .atom dst thread addr ty op fop cmp data flush iaddr word) (h : s.MayPerform core k m) (hb : s.beforeAtom core m (addr / 128) = none) :
    s.storeDone core k = (s.dropL1 core (addr / 128)).performAtom core (s.opPart core m) k m dst thread addr ty op fop cmp data flush iaddr word := by
  unfold State.storeDone
  rw [h.1]
  refine (if_neg (Bool.eq_false_iff.1 h.2)).trans ?_
  rw [hk]
  dsimp only
  rw [hb]

/-- What an SC writes: where its reservation held. -/
def State.scWrites (s : State) (core : Nat) (m : MemOp) (thread addr : Nat) (ty : Ty) (data : DWord) (holds : Bool) : State :=
  if holds then s.performWrites (s.opPart core m) (wholeWrites addr (leBytes (tyBits ty / 8) data.toNat)) false false (some (m.wave, thread)) else s

/-- An SC that may act. -/
theorem State.storeDone_sc {s : State} {core k : Nat} {m : MemOp} {dst : Opnd} {thread addr : Nat} {ty : Ty} {data : DWord} {held : Bool} {lr : Option Nat}
    (hk : m.kind = .sc dst thread addr ty data held lr) (h : s.MayPerform core k m) (hb : s.beforeAtom core m (addr / 128) = none) :
    s.storeDone core k = (((s.scWrites core m thread addr ty data (held && lr.isNone)).dropL1 core (addr / 128)).modOpWave core m fun w =>
      w.putLane dst .b32 thread (if (held && lr.isNone) = true then 1 else 0) 0 none ((s.core core).lastOf k m.id)).dropOp core k := by
  unfold State.storeDone
  rw [h.1]
  refine (if_neg (Bool.eq_false_iff.1 h.2)).trans ?_
  rw [hk]
  dsimp only
  rw [hb]
  rfl

/-- What an atomic writes: its new value, if it has one. -/
def State.atomWrites (s : State) (part : Nat) (m : MemOp) (t addr n : Nat) (new : Option Nat) : State :=
  match new with
  | some x => s.performWrites part (wholeWrites addr (leBytes n x)) false false (some (m.wave, t))
  | none => s.touchLine part (addr / 128) id

/-- An atomic on a word that is not poisoned, with no exception. -/
theorem State.performAtom_good {s : State} {core part k : Nat} {m : MemOp} {dst : Opnd} {t addr : Nat} {ty : Ty} {op : Option AOp} {fop : Option FAOp}
    {cmp : Option DWord} {data : DWord} {flush : Bool} {iaddr : DWord} {word : BitVec 96} {old : Nat} {new : Option Nat}
    (hp : s.wordPoisoned addr = false) (ho : leNat (s.mem.readBytes addr (tyBits ty / 8)) = old) (hn : atomNew ty op fop cmp data flush old = (new, [])) :
    s.performAtom core part k m dst t addr ty op fop cmp data flush iaddr word =
      ((((s.atomWrites part m t addr (tyBits ty / 8) new).modOpWave core m fun w => w.putLane dst ty t (BitVec.ofNat 64 old)
        (if highOpen ty false then Config.scalarHigh s.freeCtr else 0) none ((s.core core).lastOf k m.id)).countAll core m.slot m.wave (tally [[]]) iaddr word).draw).dropOp core k := by
  subst ho
  unfold State.performAtom
  dsimp only
  rw [hp, if_neg Bool.false_ne_true, hn]
  cases new <;> rfl

/-- The same register is written in waves that hold the same ones. -/
theorem Wave.setV_kept {v w : Wave} (h : v.kept = w.kept) (n : Nat) (r : Mask → VReg → VReg) :
    (v.setV n (r v.lives (v.v n))).kept = (w.setV n (r w.lives (w.v n))).kept := by
  have hset : ∀ (u : Wave) (x : VReg), (u.setV n x).kept = (u.kept.1, u.kept.2.1.put n x, u.kept.2.2) := fun _ _ => rfl
  have hl : v.lives = w.lives := congrArg (·.2.2.2.2.1) h
  have hv : v.v n = w.v n := congrArg (fun k : Nat × Tab VReg × Tab SReg × Tab PReg × Mask × Nat => Tab.get VReg.fresh k.2.1 n) h
  rw [hset, hset, hl, hv, h]

theorem Wave.setS_kept {v w : Wave} (h : v.kept = w.kept) (n : Nat) (r : SReg) : (v.setS n r).kept = (w.setS n r).kept := by
  have hset : ∀ u : Wave, (u.setS n r).kept = (u.kept.1, u.kept.2.1, u.kept.2.2.1.put n r, u.kept.2.2.2) := fun _ => rfl
  rw [hset, hset, h]

/-- A lane of a register, with the bits given. -/
def laneWrite (t : Nat) (x : Word) (bad : Option Origin) (last : Bool) (live : Mask) (r : VReg) : VReg :=
  { r.write (Mask.one t &&& live) (fun _ => x) (if bad.isSome then Mask.one t else 0) (bad.getD .fault) r.tag with full := last }

/-- A lane goes to the same registers in waves that hold the same ones. -/
theorem Wave.putLane_kept {v w : Wave} (h : v.kept = w.kept) (dst : Opnd) (ty : Ty) (t : Nat) (x : DWord) (high : Word) (bad : Option Origin) (last : Bool) :
    (v.putLane dst ty t x high bad last).kept = (w.putLane dst ty t x high bad last).kept := by
  unfold Wave.putLane
  split
  · rename_i n
    have hlow := Wave.setV_kept h (n.toNat + 0) (laneWrite t (x.setWidth 32) bad last)
    dsimp only
    split
    · exact Wave.setV_kept hlow (n.toNat + 1) (laneWrite t ((x >>> 32).setWidth 32) bad last)
    · exact hlow
  · exact Wave.setS_kept h _ _
  · exact h

/-- The wave of an operation whose write is performed holds what its lane takes. -/
theorem State.modOpWave_lane {s t : State} (h : t.kept = s.kept) {core : Nat} {m : MemOp} {w : Wave} (hw : s.wave? core m.slot = some w) (hu : w.uid = m.wave)
    (dst : Opnd) (ty : Ty) (thread : Nat) (x : DWord) (high : Word) (last : Bool) :
    ∃ v, (t.modOpWave core m fun w => w.putLane dst ty thread x high none last).wave? core m.slot = some v ∧
      v.vregs = (w.putLane dst ty thread x high none last).vregs ∧ v.sregs = (w.putLane dst ty thread x high none last).sregs := by
  obtain ⟨v, hv, hvw⟩ := State.wave?_of_kept h hw
  have huid : v.uid = m.wave := (congrArg (·.1) hvw).trans hu
  have hregs := Wave.kept_eq (Wave.putLane_kept hvw dst ty thread x high none last)
  refine ⟨_, ?_, hregs.1, hregs.2.1⟩
  rw [State.modOpWave_eq hv huid]
  exact State.wave?_setWave_same ..

@[simp] theorem State.modOpWave_mem (s : State) (core : Nat) (m : MemOp) (g : Wave → Wave) : (s.modOpWave core m g).mem = s.mem := by
  unfold State.modOpWave
  split
  · split <;> rfl
  · rfl

theorem State.dropL1_kept (s : State) (core line : Nat) : (s.dropL1 core line).kept = s.kept := State.setCore_kept s rfl rfl rfl

theorem State.atomWrites_kept (s : State) (part : Nat) (m : MemOp) (t addr n : Nat) (new : Option Nat) : (s.atomWrites part m t addr n new).kept = s.kept := by
  unfold State.atomWrites
  split
  · exact State.performWrites_kept ..
  · exact State.kept_of_cores (State.touchLine_cores ..)

theorem State.scWrites_kept (s : State) (core : Nat) (m : MemOp) (thread addr : Nat) (ty : Ty) (data : DWord) (holds : Bool) :
    (s.scWrites core m thread addr ty data holds).kept = s.kept := by
  unfold State.scWrites
  split
  · exact State.performWrites_kept ..
  · rfl

/-- Settles O39: what is performed writes the enabled bytes, in order, and the register of an atomic takes the old value. -/
theorem storesArePerformed : Obligations.StoresArePerformed := by
  refine ⟨?store, ?atom, ?sc⟩
  case store =>
    intro core k m thread bytes poisoned nt hk s ⟨hm, hw, hu⟩
    refine ⟨_, congrArg Host.Outcome.next (State.storeDone_store hk hm hw hu), ?_, fun a ha => ?_, ?_⟩
    · rw [State.settleL1_mem, State.dropOp_mem]
      exact State.performWrites_mem ..
    · rw [State.settleL1_mem, State.dropOp_mem, State.performWrites_mem]
      exact Memory.read_foldl_put _ _ fun b hb => ha b (List.mem_filter.1 hb).1
    · have hlt : k < (s.core core).memq.length := (List.getElem?_eq_some_iff.1 hm.1).1
      have hlen := State.memq_length_of_kept (State.performWrites_kept s (s.opPart core m) bytes poisoned nt (some (m.wave, thread))) core
      rw [State.settleL1_memq, State.dropOp_memq, List.length_eraseIdx_of_lt (by omega)]
      omega
  case atom =>
    intro core k m dst thread addr ty op fop cmp data flush iaddr word hk old new hn s ⟨hm, hb, hp, hc, ho⟩
    have heq := (State.storeDone_atom hk hm hb).trans (State.performAtom_good (s := s.dropL1 core (addr / 128)) hp ho hn)
    rw [State.countAll_zero _ _ _ _ _ _ _ (by decide)] at heq
    refine ⟨_, congrArg Host.Outcome.next heq, ?_, fun w hw hu => ?_⟩
    · rw [State.dropOp_mem, State.draw_mem, State.modOpWave_mem]
      cases new with
      | some x => exact State.performWrites_whole (s.dropL1 core (addr / 128)) _ addr _ x false false _ hc
      | none => exact State.data_mem (State.touchLine_data ..)
    · have hkept := (State.atomWrites_kept (s.dropL1 core (addr / 128)) (s.opPart core m) m thread addr (tyBits ty / 8) new).trans (State.dropL1_kept ..)
      have hlast : ((s.dropL1 core (addr / 128)).core core).lastOf k m.id = (s.core core).lastOf k m.id := by
        unfold State.dropL1
        rw [State.core_setCore_same]
        rfl
      rw [hlast]
      obtain ⟨v, hv, hregs⟩ := State.modOpWave_lane hkept hw hu dst ty thread (BitVec.ofNat 64 old)
        (if highOpen ty false then Config.scalarHigh (s.dropL1 core (addr / 128)).freeCtr else 0) ((s.core core).lastOf k m.id)
      exact ⟨v, _, (State.wave?_dropOp ..).trans hv, hregs⟩
  case sc =>
    intro core k m dst thread addr ty data held lr holds hk hh s ⟨hm, hb, hc⟩
    have heq := State.storeDone_sc hk hm hb
    rw [← hh] at heq
    refine ⟨_, congrArg Host.Outcome.next heq, ?_, fun w hw hu => ?_⟩
    · rw [State.dropOp_mem, State.modOpWave_mem]
      show (s.scWrites core m thread addr ty data holds).mem = _
      unfold State.scWrites
      split
      · exact State.performWrites_whole s _ addr _ _ false false _ hc
      · rfl
    · have hkept := (State.dropL1_kept (s.scWrites core m thread addr ty data holds) core (addr / 128)).trans (State.scWrites_kept ..)
      obtain ⟨v, hv, hregs⟩ := State.modOpWave_lane hkept hw hu dst .b32 thread (if holds = true then 1 else 0) 0 ((s.core core).lastOf k m.id)
      exact ⟨v, (State.wave?_dropOp ..).trans hv, hregs⟩

end Sys2Proof.Machine
end

section
/-!
PROOF. Scratchpad operations on their way, credits and scoreboard releases.
-/
namespace Sys2Proof.Machine

/-! ### What the end of an operation and the write of its register leave of the cores -/

/-- The k-th operation of a core has left; the core keeps the rest. -/
theorem State.dropOp_core_same (s : State) (core k : Nat) : (s.dropOp core k).core core = { s.core core with memq := (s.core core).memq.eraseIdx k } := by
  unfold State.dropOp
  extract_lets s0 c
  have hc : c = s.core core := by
    unfold c s0
    split
    · exact State.noteChannel_core ..
    · rfl
  rw [State.core_setCore_same, hc]

theorem State.dropOp_core_ne (s : State) {core c : Nat} (k : Nat) (h : c ≠ core) : (s.dropOp core k).core c = s.core c := by
  unfold State.dropOp
  extract_lets s0 x
  rw [State.core_setCore_ne _ _ h]
  unfold s0
  split
  · exact State.noteChannel_core ..
  · rfl

/-- The scratchpad of a core and the credits on their way to it. -/
def Core.pad (c : Core) : Tab Byte × List Nat × List Credit := (c.scratch, c.spoison, c.credits)

theorem State.dropOp_pad (s : State) (core k c : Nat) : ((s.dropOp core k).core c).pad = (s.core c).pad := by
  by_cases h : c = core
  · rw [h, State.dropOp_core_same]
    rfl
  · rw [State.dropOp_core_ne _ _ h]

/-- The wave of an operation, in its core. -/
theorem State.modOpWave_core (s : State) (core : Nat) (m : MemOp) (g : Wave → Wave) (c : Nat) :
    ((s.modOpWave core m g).core c).pad = (s.core c).pad ∧ ((s.modOpWave core m g).core c).memq = (s.core c).memq := by
  unfold State.modOpWave
  split
  · split
    · by_cases h : c = core
      · rw [h, State.core_setWave]
        exact ⟨rfl, rfl⟩
      · unfold State.setWave
        rw [State.core_setCore_ne _ _ h]
        exact ⟨rfl, rfl⟩
    · exact ⟨rfl, rfl⟩
  · exact ⟨rfl, rfl⟩

/-- A core that is written with its waves as they were. -/
theorem State.setPad_memq (s : State) {target : Nat} {x : Core} (h : x.memq = (s.core target).memq) (c : Nat) :
    ((s.setCore target x).core c).memq = (s.core c).memq := by
  by_cases hc : c = target
  · rw [hc, State.core_setCore_same, h]
  · rw [State.core_setCore_ne _ _ hc]

/-! ### REMOTE_SCRATCHPAD_STORE -/

/-- A store that reaches its scratchpad, with its credit. -/
def State.remoteStored (s : State) (core k target off : Nat) (bytes : List (Byte × Byte)) (poisoned : Bool) (credit : Option Nat) : State :=
  let s1 := s.dropOp core k
  let s2 := s1.setCore target ((s1.core target).spWrite off bytes poisoned)
  match credit with
  | some obj => s2.sendCredit target obj bytes.length none
  | none => s2

theorem State.remoteDone_store {s : State} {core k : Nat} {m : MemOp} {target off : Nat} {bytes : List (Byte × Byte)} {poisoned : Bool} {credit : Option Nat}
    (hk : m.kind = .remote target off bytes poisoned credit) (hm : (s.core core).memq[k]? = some m)
    (hh : (s.core core).spHeld k m target off (off + bytes.length) = false) (hs : s.spStalls m target off (off + bytes.length) = false) :
    s.remoteDone core k = s.remoteStored core k target off bytes poisoned credit := by
  unfold State.remoteDone
  rw [hm]
  dsimp only
  rw [hk]
  dsimp only
  rw [hh, hs]
  rfl

/-- What the target core then holds. -/
theorem State.remoteStored_pad (s : State) (core k target off : Nat) (bytes : List (Byte × Byte)) (poisoned : Bool) (credit : Option Nat) :
    ((s.remoteStored core k target off bytes poisoned credit).core target).pad =
      (((s.core target).spWrite off bytes poisoned).scratch, ((s.core target).spWrite off bytes poisoned).spoison,
        (s.core target).credits ++ (credit.map fun obj => (⟨obj, bytes.length, none⟩ : Credit)).toList) := by
  have hpad := s.dropOp_pad core k target
  have hsc : ((s.dropOp core k).core target).scratch = (s.core target).scratch := congrArg (·.1) hpad
  have hsp : ((s.dropOp core k).core target).spoison = (s.core target).spoison := congrArg (·.2.1) hpad
  have hcr : ((s.dropOp core k).core target).credits = (s.core target).credits := congrArg (·.2.2) hpad
  have hw : (((s.dropOp core k).core target).spWrite off bytes poisoned).pad =
      (((s.core target).spWrite off bytes poisoned).scratch, ((s.core target).spWrite off bytes poisoned).spoison, (s.core target).credits) := by
    unfold Core.pad Core.spWrite
    rw [hsc, hsp, hcr]
  unfold State.remoteStored
  cases credit with
  | none =>
    dsimp only
    rw [State.core_setCore_same, hw]
    simp
  | some obj =>
    dsimp only
    unfold State.sendCredit
    dsimp only
    rw [State.core_setCore_same, State.core_setCore_same]
    exact congrArg (fun p : Tab Byte × List Nat × List Credit => (p.1, p.2.1, p.2.2 ++ [⟨obj, bytes.length, none⟩])) hw

theorem State.remoteStored_memq (s : State) (core k target off : Nat) (bytes : List (Byte × Byte)) (poisoned : Bool) (credit : Option Nat) :
    ((s.remoteStored core k target off bytes poisoned credit).core core).memq = (s.core core).memq.eraseIdx k := by
  have hstored := (State.setPad_memq (s.dropOp core k) (x := ((s.dropOp core k).core target).spWrite off bytes poisoned) rfl core).trans
    (State.dropOp_memq s core k)
  unfold State.remoteStored
  cases credit with
  | none => exact hstored
  | some obj => exact (State.setPad_memq _ (by rfl) core).trans hstored

/-- The register of an operation is written, and the operation leaves. -/
theorem State.putAndDrop {s : State} {core : Nat} {m : MemOp} {w : Wave} (hw : s.wave? core m.slot = some w) (hu : w.uid = m.wave) (k : Nat) (g : Wave → Wave) :
    ((s.modOpWave core m g).draw.dropOp core k).wave? core m.slot = some (g w) := by
  rw [State.wave?_dropOp, State.modOpWave_eq hw hu]
  exact State.wave?_setWave_same ..

theorem State.putAndDrop_pad (s : State) (core k : Nat) (m : MemOp) (g : Wave → Wave) (c : Nat) :
    (((s.modOpWave core m g).draw.dropOp core k).core c).pad = (s.core c).pad :=
  (State.dropOp_pad (s.modOpWave core m g).draw core k c).trans (State.modOpWave_core s core m g c).1

theorem State.putAndDrop_memq (s : State) (core k : Nat) (m : MemOp) (g : Wave → Wave) :
    (((s.modOpWave core m g).draw.dropOp core k).core core).memq = (s.core core).memq.eraseIdx k :=
  (State.dropOp_memq (s.modOpWave core m g).draw core k).trans (congrArg (·.eraseIdx k) (State.modOpWave_core s core m g core).2)

/-- An ATOMS on unpoisoned bytes. -/
theorem State.remoteDone_atoms {s : State} {core k : Nat} {m : MemOp} {dst : Opnd} {thread target off : Nat} {ty : Ty} {op : AOp} {data : DWord}
    (hk : m.kind = .atoms dst thread target off ty op data) (hm : (s.core core).memq[k]? = some m)
    (hh : (s.core core).spHeld k m target off (off + tyBits ty / 8) = false) (hs : s.spStalls m target off (off + tyBits ty / 8) = false)
    (hp : (s.spRead target off (tyBits ty / 8)).any (·.2) = false) :
    s.remoteDone core k =
      (((s.setCore target ((s.core target).spWrite off (wholeBytes (tyBits ty / 8)
        (atomInt op ty (leNat ((s.spRead target off (tyBits ty / 8)).map (·.1))) (data.toNat % 2 ^ tyBits ty))) false)).modOpWave core m fun w =>
          w.putLane dst ty thread (BitVec.ofNat 64 (leNat ((s.spRead target off (tyBits ty / 8)).map (·.1))))
            (if highOpen ty false then Config.scalarHigh s.freeCtr else 0) none ((s.core core).lastOf k m.id)).draw).dropOp core k := by
  unfold State.remoteDone
  rw [hm]
  dsimp only
  rw [hk]
  dsimp only
  rw [hh, hs, hp]
  rfl

/-! ### INBOUND_CREDIT -/

/-- A barrier object stands in the scratchpad alone. -/
theorem State.bar_setCore {s : State} {core : Nat} {x : Core} (h : x.scratch = (s.core core).scratch) (off : Nat) :
    (s.setCore core x).bar core off = s.bar core off := by
  have hnat : (s.setCore core x).spNat core off 16 = s.spNat core off 16 := by
    unfold State.spNat State.spRead
    rw [State.core_setCore_same]
    dsimp only
    rw [h, List.map_map, List.map_map]
    rfl
  unfold State.bar
  rw [hnat]

/-- Settles O40: each operation acts on the scratchpad of its core, and a finished entry leaves. -/
theorem scratchpadEventsTakeEffect : Obligations.ScratchpadEventsTakeEffect := by
  refine ⟨?remote, ?atoms, ?credit, ?entry⟩
  case remote =>
    intro core k m target off bytes poisoned credit hk s ⟨hm, hh, hs⟩
    have hpad := s.remoteStored_pad core k target off bytes poisoned credit
    exact ⟨_, congrArg Host.Outcome.next (State.remoteDone_store hk hm hh hs), congrArg (·.1) hpad, congrArg (·.2.1) hpad, congrArg (·.2.2) hpad,
      State.remoteStored_memq ..⟩
  case atoms =>
    intro core k m dst thread target off ty op data hk s ⟨hm, hh, hs, hp⟩
    refine ⟨_, congrArg Host.Outcome.next (State.remoteDone_atoms hk hm hh hs hp), ?_, ?_, fun w hw hu => ⟨if highOpen ty false then Config.scalarHigh s.freeCtr else 0, ?_⟩⟩
    · exact congrArg (·.1) ((State.putAndDrop_pad _ core k m _ target).trans (congrArg Core.pad (State.core_setCore_same s target _)))
    · exact (State.putAndDrop_memq _ core k m _).trans (congrArg (·.eraseIdx k) (State.setPad_memq s (by rfl) core))
    · exact State.putAndDrop ((State.wave?_setCore s (by rfl) _ _).trans hw) hu k _
  case credit =>
    intro core k x s hx
    refine congrArg Host.Outcome.next ?_
    show (match (s.core core).credits[k]? with | some x => _ | none => s) = _
    rw [hx]
    dsimp only
    rw [State.bar_setCore (by rfl) x.off]
  case entry =>
    intro core k x s ⟨hx, hd⟩
    show Host.Outcome.next _ = _
    rw [hx]
    exact congrArg Host.Outcome.next (if_pos hd)

end Sys2Proof.Machine
end

section
/-!
PROOF. Peer probes and multicast: the request, its merge entries, and the delivery.
-/
namespace Sys2Proof.Machine

/-! ### PEER_PROBE -/

/-- A probe of one line that finds a peer's copy fills it into the core's L1. -/
theorem State.peerProbe_fills {s : State} {core k : Nat} {m : MemOp} {dst : Opnd} {ty : Ty} {one : Bool} {cnt : Cnt} {sub : BitVec 2} {lr : Bool}
    {thread l : Nat} {va : DWord} {key : LineKey} {cl : Nat} (hk : m.kind = .load dst ty one cnt sub true lr [(thread, some va)])
    (hl : (linesOf va (regBytes ty one * cnt.num)).eraseDups = [l]) (hm : (s.core core).memq[k]? = some m)
    (hf : s.forwards core (s.opPart core m) (BitVec.ofNat 64 (l * 128)) = true) (hkeys : (s.keysOf core (s.opPart core m) l).eraseDups = [key])
    (hmiss : (s.core core).l1Hit true (s.fencedOf core m) key = none) (hpred : (s.core core).pred.get none (Config.predictorHash key.code % 256) = some cl)
    (hcopy : (s.peerCopy (s.opPart core m) cl key (s.fencedOf core m)).isSome = true) :
    ∃ (data : List Byte) (at_ : Nat), s.peerProbe core k = (s.setCore core ((s.core core).l1Fill core s.freeCtr ⟨key, data, true, at_⟩)).draw := by
  obtain ⟨x, hx⟩ := Option.isSome_iff_exists.1 hcopy
  unfold State.peerProbe
  rw [hm]
  dsimp only
  rw [hk]
  dsimp only
  rw [List.flatMap_cons, List.flatMap_nil, List.append_nil]
  dsimp only
  rw [hl, List.foldl_cons, List.foldl_nil, hf]
  rw [if_neg (by simp), hkeys, List.foldl_cons, List.foldl_nil, hmiss, hpred]
  dsimp only
  rw [hx]
  exact ⟨_, _, rfl⟩

/-- A line that has been filled is found. -/
theorem Core.l1Find_l1Fill (c : Core) (core free : Nat) (l : L1Line) : (c.l1Fill core free l).l1Find l.key = some l :=
  List.find?_cons_of_pos (by simp)

/-! ### MULTICAST_REQUEST -/

/-- Whether a slice has a merge entry that a request has joined. -/
def State.hasJoined (s : State) (slice : Nat) (req : Nat × Nat × BitVec 16) : Prop := ∃ e ∈ (s.slice slice).merges, req ∈ e.joined

@[simp] theorem State.slice_setSlice_same (s : State) (h : Nat) (x : Slice) : (s.setSlice h x).slice h = x := Tab.get_put_same ..

theorem State.slice_setSlice_ne (s : State) {h k : Nat} (x : Slice) (hk : k ≠ h) : (s.setSlice h x).slice k = s.slice k := Tab.get_put_ne _ _ _ hk

/-- What joining does to an entry. -/
def Merge.join (x m : Merge) : Merge :=
  match x.phase with
  | .gathering => { x with joined := x.joined ++ m.joined }
  | .window => { x with phase := .collecting, joined := m.joined }
  | .collecting => { x with joined := x.joined ++ m.joined }

theorem Merge.mem_join {x m : Merge} {req : Nat × Nat × BitVec 16} (h : req ∈ m.joined) : req ∈ (x.join m).joined := by
  unfold Merge.join
  split
  · exact List.mem_append_right _ h
  · exact h
  · exact List.mem_append_right _ h

/-- A request that a slice merges stands in an entry there, and what has stood there does so still. -/
theorem State.mergeAt_hasJoined (s : State) (slice : Nat) (m : Merge) {req : Nat × Nat × BitVec 16} (h : req ∈ m.joined) :
    (s.mergeAt slice m).hasJoined slice req := by
  unfold State.mergeAt State.hasJoined
  extract_lets sl same
  split
  · rw [State.slice_setSlice_same]
    exact ⟨m, List.mem_append_right _ (List.mem_singleton.2 rfl), h⟩
  · rename_i i hi
    have hlt : i < sl.merges.length := (List.findIdx?_eq_some_iff_getElem.1 hi).1
    rw [State.slice_setSlice_same]
    refine ⟨(sl.merges[i]).join m, List.mem_map.2 ⟨(sl.merges[i], i), List.mk_mem_zipIdx_iff_getElem?.2 (List.getElem?_eq_getElem hlt), ?_⟩, Merge.mem_join h⟩
    exact if_pos rfl

theorem State.mergeAt_keeps (s : State) (slice : Nat) (m : Merge) {req : Nat × Nat × BitVec 16} (h : req ∈ m.joined) {k : Nat}
    (hk : s.hasJoined k req) : (s.mergeAt slice m).hasJoined k req := by
  by_cases heq : k = slice
  · rw [heq]
    exact State.mergeAt_hasJoined s slice m h
  · have hslice : (s.mergeAt slice m).slice k = s.slice k := by
      unfold State.mergeAt
      dsimp only
      split
      · exact State.slice_setSlice_ne s _ heq
      · exact State.slice_setSlice_ne s _ heq
    unfold State.hasJoined
    rw [hslice]
    exact hk

@[simp] theorem State.mergeAt_cores (s : State) (slice : Nat) (m : Merge) : (s.mergeAt slice m).cores = s.cores := by
  unfold State.mergeAt
  dsimp only
  split <;> rfl

/-- Every slice to which a request is sent has an entry for it. -/
theorem State.foldl_mergeAt_hasJoined (hs : List Nat) (f : Nat → Merge) {req : Nat × Nat × BitVec 16} (hf : ∀ h, req ∈ (f h).joined) (s : State) {k : Nat}
    (hk : k ∈ hs ∨ s.hasJoined k req) : (hs.foldl (fun st h => st.mergeAt h (f h)) s).hasJoined k req := by
  induction hs generalizing s with
  | nil => exact hk.resolve_left (by simp)
  | cons h hs ih =>
    refine ih _ ?_
    rcases hk with hmem | hjoined
    · rcases List.mem_cons.1 hmem with rfl | hmem
      · exact .inr (State.mergeAt_hasJoined s _ _ (hf _))
      · exact .inl hmem
    · exact .inr (State.mergeAt_keeps s _ _ (hf _) hjoined)

/-- The units of an LDMC that are located without a change are found in order. -/
theorem State.foldl_locate (s : State) (r : Reader) (src : DWord) (units : List Nat) (acc : List (Nat × Found))
    (h : ∀ i ∈ units, (s.locate r false (src + BitVec.ofNat 64 i) 16).1 = s) :
    units.foldl (fun (acc : State × List (Nat × Found)) i =>
      ((acc.1.locate r false (src + BitVec.ofNat 64 i) 16).1, acc.2 ++ [(i, (acc.1.locate r false (src + BitVec.ofNat 64 i) 16).2)])) (s, acc) =
    (s, acc ++ units.map fun i => (i, (s.locate r false (src + BitVec.ofNat 64 i) 16).2)) := by
  induction units generalizing acc with
  | nil => simp
  | cons i units ih =>
    rw [List.foldl_cons]
    dsimp only
    rw [h i List.mem_cons_self, ih _ fun j hj => h j (List.mem_cons_of_mem _ hj)]
    simp

/-- A piece of an LDMC: where its bytes come from, once they are located. -/
def pieceOf (x : Nat × Found) : Option Piece :=
  match x.2 with
  | .at_ (l :: _) => some ⟨x.1, l.key, l.off⟩
  | _ => none

/-- The pieces of a request, with the entries that they join. -/
def State.sendPieces (s : State) (core k : Nat) (m : MemOp) (kind : MemKind) (src : DWord) (len off bar : Nat) (mask : BitVec 16) (pieces : List Piece) : State :=
  let s3 := s.modOp core k fun o => { o with kind := kind }
  ((pieces.map fun x => s3.home (s.opPart core m) x.key).eraseDups).foldl (fun (st : State) h =>
    st.mergeAt h ⟨s.opPart core m, core / 16, src, len, off, bar, pieces.filter (fun x => s3.home (s.opPart core m) x.key = h), .gathering,
      [(core, m.id, mask)], (core, m.wave, m.depth), []⟩) s3

/-- A request whose lines all translate, with none to wait for, is sent whole. -/
theorem State.multicast_sends {s : State} {core k : Nat} {m : MemOp} {dst : Opnd} {src : DWord} {len off bar : Nat} {mask : BitVec 16}
    {fail : Option (Nat × Nat)} (hk : m.kind = .ldmc dst src len off bar mask false fail) (hm : (s.core core).memq[k]? = some m)
    (hfirst : ∀ x ∈ (s.core core).memq.take k, x.wave = m.wave → ∃ a b c d e f g h, x.kind = .ldmc a b c d e f g h)
    (hunits : ∀ i < len / 16, ∃ x xs, s.locate (m.reader core (s.opPart core m)) false (src + BitVec.ofNat 64 (16 * i)) 16 = (s, .at_ (x :: xs)) ∧
      s.moving (s.opPart core m) x.key = false ∧ s.pieceNests (m.reader core (s.opPart core m)) x.key = false) :
    ∃ pieces : List Piece, s.multicast core k = s.sendPieces core k m (.ldmc dst src len off bar mask true fail) src len off bar mask pieces ∧
      ∀ i < len / 16, ∀ x xs, s.locate (m.reader core (s.opPart core m)) false (src + BitVec.ofNat 64 (16 * i)) 16 = (s, .at_ (x :: xs)) →
        ∃ p ∈ pieces, p.key = x.key := by
  have hfold := s.foldl_locate (m.reader core (s.opPart core m)) src ((List.range (len / 16)).map fun i => 16 * i) [] fun i hi => by
    obtain ⟨j, hj, rfl⟩ := List.mem_map.1 hi
    obtain ⟨x, xs, hx, -⟩ := hunits j (List.mem_range.1 hj)
    rw [hx]
  have hfound : ∀ y ∈ ((List.range (len / 16)).map fun i => 16 * i).map fun i => (i, (s.locate (m.reader core (s.opPart core m)) false (src + BitVec.ofNat 64 i) 16).2),
      ∃ x xs, y.2 = .at_ (x :: xs) ∧ s.moving (s.opPart core m) x.key = false ∧ s.pieceNests (m.reader core (s.opPart core m)) x.key = false := by
    intro y hy
    rw [List.map_map] at hy
    obtain ⟨j, hj, rfl⟩ := List.mem_map.1 hy
    obtain ⟨x, xs, hx, hrest⟩ := hunits j (List.mem_range.1 hj)
    exact ⟨x, xs, congrArg Prod.snd hx, hrest⟩
  generalize hF : (((List.range (len / 16)).map fun i => 16 * i).map fun i =>
    (i, (s.locate (m.reader core (s.opPart core m)) false (src + BitVec.ofNat 64 i) 16).2)) = found at hfold hfound
  have hpieces : ∀ p ∈ found.filterMap pieceOf, s.moving (s.opPart core m) p.key = false ∧ s.pieceNests (m.reader core (s.opPart core m)) p.key = false := by
    intro p hp
    obtain ⟨y, hy, hyp⟩ := List.mem_filterMap.1 hp
    obtain ⟨x, xs, hx, hrest⟩ := hfound y hy
    unfold pieceOf at hyp
    rw [hx] at hyp
    cases hyp
    exact hrest
  refine ⟨found.filterMap pieceOf, ?_, fun i hi x xs hx => ?_⟩
  · unfold State.multicast
    rw [hm]
    dsimp only
    rw [hk]
    dsimp only
    refine (if_neg ?_).trans ?_
    · intro h
      obtain ⟨x, hx, hboth⟩ := List.any_eq_true.1 h
      rw [Bool.and_eq_true, decide_eq_true_eq] at hboth
      obtain ⟨a, b, c, d, e, f, g, h, hkind⟩ := hfirst x hx hboth.1
      rw [hkind] at hboth
      cases hboth.2
    · rw [hfold, List.nil_append]
      dsimp only
      refine (if_neg ?_).trans ?_
      · intro h
        obtain ⟨y, hy, hw⟩ := List.any_eq_true.1 h
        obtain ⟨x, xs, hx, -⟩ := hfound y hy
        rw [hx] at hw
        cases hw
      · generalize hP : List.filterMap _ found = placed
        generalize hQ : List.filterMap _ found = faulted
        have hplaced : found.filterMap pieceOf = placed := hP
        rw [hplaced] at hpieces ⊢
        have hgood : placed.filter (fun x => !s.pieceNests (m.reader core (s.opPart core m)) x.key) = placed :=
          List.filter_eq_self.2 fun p hp => by rw [(hpieces p hp).2]; rfl
        have hnests : placed.filter (fun x => s.pieceNests (m.reader core (s.opPart core m)) x.key) = [] :=
          List.filter_eq_nil_iff.2 fun p hp => Bool.eq_false_iff.1 (hpieces p hp).2
        have hfaulted : faulted = [] := by
          rw [← hQ]
          refine List.filterMap_eq_nil_iff.2 fun y hy => ?_
          obtain ⟨x, xs, hx, -⟩ := hfound y hy
          rw [hx]
        refine (if_neg ?_).trans ?_
        · intro h
          obtain ⟨p, hp, hmoves⟩ := List.any_eq_true.1 h
          exact Bool.eq_false_iff.1 (hpieces p hp).1 hmoves
        · rw [hgood, hnests, hfaulted]
          rfl
  · refine ⟨⟨16 * i, x.key, x.off⟩, List.mem_filterMap.2 ⟨(16 * i, .at_ (x :: xs)), ?_, rfl⟩, rfl⟩
    rw [← hF, List.map_map]
    refine List.mem_map.2 ⟨i, List.mem_range.2 hi, ?_⟩
    dsimp only [Function.comp]
    rw [hx]

/-- It has been sent, and every slice that is home to a piece has an entry for it. -/
theorem State.sendPieces_joined (s : State) (core k : Nat) (m : MemOp) (kind : MemKind) (src : DWord) (len off bar : Nat) (mask : BitVec 16)
    (pieces : List Piece) {p : Piece} (hp : p ∈ pieces) :
    (s.sendPieces core k m kind src len off bar mask pieces).hasJoined (s.home (s.opPart core m) p.key) (core, m.id, mask) :=
  State.foldl_mergeAt_hasJoined _ _ (fun _ => List.mem_singleton.2 rfl) _ (.inl (List.mem_eraseDups.2 (List.mem_map.2 ⟨p, hp, rfl⟩)))

theorem State.sendPieces_memq {s : State} {core k : Nat} {m : MemOp} (hm : (s.core core).memq[k]? = some m) (kind : MemKind) (src : DWord)
    (len off bar : Nat) (mask : BitVec 16) (pieces : List Piece) :
    ((s.sendPieces core k m kind src len off bar mask pieces).core core).memq[k]? = some { m with kind := kind } := by
  unfold State.sendPieces
  extract_lets s3
  have hcores : ∀ (hs : List Nat) (f : Nat → Merge) (t : State), (hs.foldl (fun st h => st.mergeAt h (f h)) t).cores = t.cores := fun hs f t =>
    State.foldl_cores (fun t h => State.mergeAt_cores t h (f h)) hs t
  unfold State.core
  rw [hcores]
  show (s3.core core).memq[k]? = _
  unfold s3 State.modOp
  rw [State.core_setCore_same]
  dsimp only
  rw [List.getElem?_map, List.getElem?_zipIdx, hm]
  simp

/-! ### MERGED_RESPONSE and FOLLOWUP_TRANSMISSION -/

@[simp] theorem State.transmit_slices (s : State) (from_ : Option Nat) (quad off bar : Nat) (pieces : List (Nat × List Byte × Bool × Nat))
    (reqs : List (Nat × Nat × BitVec 16)) : (s.transmit from_ quad off bar pieces reqs).slices = s.slices := by
  unfold State.transmit
  exact List.foldlRecOn _ _ (motive := fun t : State => t.slices = s.slices) rfl fun _ ht _ _ => ht

/-- Pieces that stand as they stood. -/
theorem State.foldl_renewPiece (s : State) (r : Reader) (src : DWord) (pieces : List Piece) (acc : List (Nat × Sum (Option Piece) Nat))
    (h : ∀ x ∈ pieces, s.renewPiece r src x = (s, .inl (some x))) :
    pieces.foldl (fun (acc : State × List (Nat × Sum (Option Piece) Nat)) x =>
      ((acc.1.renewPiece r src x).1, acc.2 ++ [(x.at_, (acc.1.renewPiece r src x).2)])) (s, acc) =
    (s, acc ++ pieces.map fun x => (x.at_, .inl (some x))) := by
  induction pieces generalizing acc with
  | nil => simp
  | cons x pieces ih =>
    rw [List.foldl_cons, h x List.mem_cons_self, ih _ fun y hy => h y (List.mem_cons_of_mem _ hy)]
    simp

/-- The entry that has sent. -/
def openWindow (k : Nat) (x : Merge × Nat) : Merge := if x.2 = k then { x.1 with phase := .window, joined := [] } else x.1

/-- An entry whose lines are all at hand sends what they hold, and its late-joiner window opens. -/
theorem State.sendMerge_sends {s : State} {slice k : Nat} {m : Merge} {phase : MergePhase} {count : Slice → Slice} {r : Reader}
    (hr : r = ⟨m.reader.1, m.part, m.reader.2.1, m.reader.2.2, 0, false, true, m.bad, 0, none⟩) (hm : (s.slice slice).merges[k]? = some m)
    (hph : m.phase = phase) (hpieces : ∀ x ∈ m.pieces, s.renewPiece r m.src x = (s, .inl (some x)))
    (hready : ∀ x ∈ (s.readyAll r ((m.pieces.map (·.key)).eraseDups)).2, x.2 ≠ .wait) :
    ∃ (s1 : State) (sl : Slice) (sent : List (Nat × List Byte × Bool × Nat)),
      s.sendMerge slice k phase count = (s1.setSlice slice sl).transmit (some slice) m.quad m.off m.bar sent m.joined ∧ s1.data = s.data ∧
        sl.merges = (count (s1.slice slice)).merges.zipIdx.map (openWindow k) ∧ sl.followup = (count (s1.slice slice)).followup := by
  have hnews : m.pieces.foldl (fun (acc : State × List (Nat × Sum (Option Piece) Nat)) x =>
      ((acc.1.renewPiece r m.src x).1, acc.2 ++ [(x.at_, (acc.1.renewPiece r m.src x).2)])) (s, []) = (s, m.pieces.map fun x => (x.at_, .inl (some x))) := by
    rw [State.foldl_renewPiece s r m.src m.pieces [] hpieces]
    rfl
  unfold State.sendMerge
  rw [hm]
  dsimp only
  rw [if_neg (not_not.2 hph), ← hr, hnews]
  dsimp only
  have hkept : List.filterMap (fun x : Nat × Sum (Option Piece) Nat => match x.2 with | .inl p => p | .inr _ => none)
      (m.pieces.map fun x => (x.at_, .inl (some x))) = m.pieces := by
    rw [List.filterMap_map]
    exact List.filterMap_some
  generalize hP : List.filterMap _ (m.pieces.map fun x => ((x.at_, .inl (some x)) : Nat × Sum (Option Piece) Nat)) = pieces
  have hpieces' : pieces = m.pieces := hP.symm.trans hkept
  subst hpieces'
  rw [if_neg ?waits]
  case waits =>
    intro h
    rw [Bool.or_eq_true, List.any_eq_true, List.any_eq_true] at h
    rcases h with ⟨y, hy, hnone⟩ | ⟨y, hy, hwait⟩
    · obtain ⟨x, -, rfl⟩ := List.mem_map.1 hy
      cases hnone
    · exact hready y hy (eq_of_beq hwait)
  exact ⟨_, _, _, rfl, State.readyAll_data _ _ _, rfl, rfl⟩

/-- The entry has an open window and no request left, and its slice has counted what it counts. -/
theorem State.sendMerge_opens {s : State} {slice k : Nat} {m : Merge} {phase : MergePhase} {count : Slice → Slice} {r : Reader}
    (hr : r = ⟨m.reader.1, m.part, m.reader.2.1, m.reader.2.2, 0, false, true, m.bad, 0, none⟩) (hm : (s.slice slice).merges[k]? = some m)
    (hph : m.phase = phase) (hcount : ∀ x, (count x).merges = x.merges) (hpieces : ∀ x ∈ m.pieces, s.renewPiece r m.src x = (s, .inl (some x)))
    (hready : ∀ x ∈ (s.readyAll r ((m.pieces.map (·.key)).eraseDups)).2, x.2 ≠ .wait) :
    (∃ e, ((s.sendMerge slice k phase count).slice slice).merges[k]? = some e ∧ e.phase = .window ∧ e.joined = []) ∧
    ∃ s1 : State, s1.data = s.data ∧ ((s.sendMerge slice k phase count).slice slice).followup = (count (s1.slice slice)).followup := by
  obtain ⟨s1, sl, sent, heq, h1, hmerges, hfollow⟩ := State.sendMerge_sends (count := count) hr hm hph hpieces hready
  have hslice : (s.sendMerge slice k phase count).slice slice = sl := by
    rw [heq]
    unfold State.slice
    rw [State.transmit_slices]
    exact State.slice_setSlice_same ..
  rw [hslice]
  refine ⟨⟨openWindow k (m, k), ?_, ?_⟩, s1, h1, hfollow⟩
  · rw [hmerges, hcount, State.data_merges h1, List.getElem?_map, List.getElem?_zipIdx, hm]
    simp
  · unfold openWindow
    rw [if_pos rfl]
    exact ⟨rfl, rfl⟩

/-! ### LDMC_DELIVERY -/

/-- What a delivery changes and the end of a request leaves: the deliveries and the scratchpads with their credits. -/
def State.pads (s : State) : Tab (List Delivery) × (Nat → Tab Byte × List Nat × List Credit) := (s.deliveries, fun c => (s.core c).pad)

theorem State.setCore_pads (s : State) {c : Nat} {x : Core} (h : x.pad = (s.core c).pad) : (s.setCore c x).pads = s.pads := by
  refine Prod.ext rfl (funext fun k => ?_)
  dsimp only [State.pads]
  by_cases hk : k = c
  · rw [hk, State.core_setCore_same, h]
  · rw [State.core_setCore_ne _ _ hk]

theorem State.pads_of {s t : State} (hd : t.deliveries = s.deliveries) (hc : t.cores = s.cores) : t.pads = s.pads := by
  unfold State.pads State.core
  rw [hd, hc]

@[simp] theorem State.noteChannel_pads (s : State) (core : Nat) (m : MemOp) : (s.noteChannel core m).pads = s.pads := by
  refine State.pads_of ?_ (State.noteChannel_cores s core m)
  unfold State.noteChannel State.noteLines
  split
  · split
    · rfl
    · split <;> rfl
  · rfl

theorem State.endOp_pads (s : State) (core : Nat) (m : MemOp) : (s.endOp core m).pads = s.pads := by
  unfold State.endOp
  extract_lets s0 c
  have hdrop : ∀ t : State, (t.dropWalks core m.id).pads = t.pads := fun t => State.pads_of (by unfold State.dropWalks; dsimp only; split <;> rfl) (by simp)
  exact (hdrop _).trans ((State.setCore_pads s0 (by rfl)).trans (State.noteChannel_pads s core m))

theorem State.modOpWave_pads (s : State) (core : Nat) (m : MemOp) (g : Wave → Wave) : (s.modOpWave core m g).pads = s.pads := by
  refine Prod.ext ?_ (funext fun c => (State.modOpWave_core s core m g c).1)
  unfold State.pads State.modOpWave
  dsimp only
  split
  · split <;> rfl
  · rfl

theorem State.ldmcFail_pads (s : State) (core op : Nat) (f : Option (Nat × Nat)) : (s.ldmcFail core op f).pads = s.pads := by
  unfold State.ldmcFail
  split
  · rfl
  · exact State.setCore_pads s rfl

theorem State.ldmcEnd_pads (s : State) (core op d : Nat) : (s.ldmcEnd core op d).pads = s.pads := by
  unfold State.ldmcEnd
  extract_lets c s1
  have h1 : s1.pads = s.pads := by
    unfold s1
    split
    · rfl
    · exact State.setCore_pads s rfl
  rw [← h1]
  split
  · rfl
  · split
    · rfl
    · split
      · extract_lets cls s2
        refine (State.endOp_pads ..).trans ?_
        have h2 : s2.pads = s1.pads := State.modOpWave_pads s1 core _ _
        rw [← h2]
        split
        · rfl
        · exact State.pads_of rfl rfl
      · rfl

/-- A credit of a delivery is on its way to the object. -/
theorem State.sendCredit_pads (s : State) (core off n : Nat) (fault : Option Nat) :
    (s.sendCredit core off n fault).deliveries = s.deliveries ∧ ((s.sendCredit core off n fault).core core).scratch = (s.core core).scratch ∧
      ((s.sendCredit core off n fault).core core).credits.length = (s.core core).credits.length + 1 := by
  unfold State.sendCredit
  dsimp only
  rw [State.core_setCore_same]
  exact ⟨rfl, rfl, List.length_append⟩

/-- Each request of a delivery is credited; nothing else happens to the scratchpad. -/
theorem State.foldl_credits (d bar n : Nat) (fault : Option (Nat × Nat)) (reqs : List (Nat × Nat)) (s : State) :
    let t := reqs.foldl (fun (st : State) r => ((st.sendCredit d bar n (fault.map (·.2))).ldmcFail r.1 r.2 fault).ldmcEnd r.1 r.2 d) s
    t.deliveries = s.deliveries ∧ (t.core d).scratch = (s.core d).scratch ∧ (t.core d).credits.length = (s.core d).credits.length + reqs.length := by
  induction reqs generalizing s with
  | nil => exact ⟨rfl, rfl, rfl⟩
  | cons r reqs ih =>
    have hpads := (State.ldmcEnd_pads ((s.sendCredit d bar n (fault.map (·.2))).ldmcFail r.1 r.2 fault) r.1 r.2 d).trans (State.ldmcFail_pads _ r.1 r.2 fault)
    obtain ⟨hd, hs, hc⟩ := State.sendCredit_pads s d bar n (fault.map (·.2))
    obtain ⟨ihd, ihs, ihc⟩ := ih (((s.sendCredit d bar n (fault.map (·.2))).ldmcFail r.1 r.2 fault).ldmcEnd r.1 r.2 d)
    have hpad := congrFun (congrArg Prod.snd hpads) d
    refine ⟨ihd.trans ((congrArg Prod.fst hpads).trans hd), ihs.trans ((congrArg (·.1) hpad).trans hs), ?_⟩
    have hlen := congrArg (fun p => p.2.2.length) hpad
    rw [List.foldl_cons, ihc, List.length_cons]
    dsimp only [State.pads, Core.pad] at hlen
    omega

/-- The pieces of a delivery, written into a core's scratchpad. -/
def Core.takePieces (off : Nat) (pieces : List (Nat × List Byte × Bool × Nat)) (c : Core) : Core :=
  pieces.foldl (fun (c : Core) p => if p.2.1.isEmpty then c else c.spWrite (off + p.1) (p.2.1.map fun b => (b, 0xFF)) p.2.2.1) c

theorem Core.takePieces_pad (off : Nat) (pieces : List (Nat × List Byte × Bool × Nat)) {c x : Core} (h : x.pad = c.pad) :
    (x.takePieces off pieces).pad = (c.takePieces off pieces).pad ∧ (c.takePieces off pieces).credits = c.credits := by
  have hwrite : ∀ {c x : Core} (a : Nat) (bs : List (Byte × Byte)) (bad : Bool), x.pad = c.pad → (x.spWrite a bs bad).pad = (c.spWrite a bs bad).pad := by
    intro c x a bs bad h
    unfold Core.pad Core.spWrite
    rw [show x.scratch = c.scratch from congrArg (·.1) h, show x.spoison = c.spoison from congrArg (·.2.1) h,
      show x.credits = c.credits from congrArg (·.2.2) h]
  induction pieces generalizing c x with
  | nil => exact ⟨h, rfl⟩
  | cons p pieces ih =>
    unfold Core.takePieces
    rw [List.foldl_cons, List.foldl_cons]
    split
    · exact ih h
    · exact ⟨(ih (hwrite _ _ _ h)).1, (ih (hwrite _ _ _ h)).2⟩

/-- Writing them one by one writes them all. -/
theorem State.foldl_pieces (d off : Nat) (pieces : List (Nat × List Byte × Bool × Nat)) (s : State) :
    (pieces.foldl (fun (st : State) p => if p.2.1.isEmpty then st
      else st.setCore d ((st.core d).spWrite (off + p.1) (p.2.1.map fun b => (b, 0xFF)) p.2.2.1)) s).core d = (s.core d).takePieces off pieces := by
  induction pieces generalizing s with
  | nil => rfl
  | cons p pieces ih =>
    unfold Core.takePieces
    rw [List.foldl_cons, List.foldl_cons, ih]
    split
    · rfl
    · rw [State.core_setCore_same]
      rfl

/-- A delivery that nothing of its slice precedes, with room in the scoreboard: its pieces are written, and then each request is credited. -/
theorem State.deliver_writes {s : State} {d k : Nat} {x : Delivery} (hx : (s.deliveries.get [] d)[k]? = some x)
    (hbehind : ∀ y ∈ (s.deliveries.get [] d).take k, x.from_ = none ∨ y.from_ ≠ x.from_)
    (hroom : (s.core d).sboard.length + ((x.requests.map (·.2)).filter fun op => !(s.core d).hasEntry op).length ≤ 64) :
    ∃ (fault : Option (Nat × Nat)) (s3 : State), s.deliver d k = x.requests.foldl (fun (st : State) r =>
        ((st.sendCredit d x.bar (16 * x.pieces.length) (fault.map (·.2))).ldmcFail r.1 r.2 fault).ldmcEnd r.1 r.2 d) s3 ∧
      s3.deliveries = s.deliveries.put d ((s.deliveries.get [] d).eraseIdx k) ∧ (s3.core d).pad = ((s.core d).takePieces x.off x.pieces).pad := by
  have hgo : ¬(((s.deliveries.get [] d).take k).any (fun y => y.from_ == x.from_ && x.from_.isSome) ||
      decide ((s.core d).sboard.length + ((x.requests.map (·.2)).filter fun op => !(s.core d).hasEntry op).length > 64)) = true := by
    intro h
    rw [Bool.or_eq_true, List.any_eq_true, decide_eq_true_eq] at h
    rcases h with ⟨y, hy, hfrom⟩ | h
    · rw [Bool.and_eq_true] at hfrom
      rcases hbehind y hy with h0 | h0
      · rw [h0] at hfrom
        cases hfrom.2
      · exact h0 (eq_of_beq hfrom.1)
    · omega
  unfold State.deliver
  rw [hx]
  dsimp -zeta only
  extract_lets c news behind wave entry added s1 s2 fault s3
  have h1 : (s1.core d).pad = c.pad := by
    unfold s1
    rw [State.core_setCore_same]
    rfl
  have h2 : (s2.core d).pad = (c.takePieces x.off x.pieces).pad :=
    (congrArg Core.pad (State.foldl_pieces d x.off x.pieces s1)).trans (Core.takePieces_pad x.off x.pieces h1).1
  have hdel : s2.deliveries = s.deliveries :=
    List.foldlRecOn x.pieces _ (motive := fun t : State => t.deliveries = s.deliveries) rfl fun t ht _ _ => by split <;> exact ht
  refine ⟨fault, s3, if_neg hgo, ?_, h2⟩
  show s2.deliveries.put d ((s2.deliveries.get [] d).eraseIdx k) = _
  rw [hdel]

/-- Settles O41: each event of a multicast, and a peer probe, does what it is due to do. -/
theorem multicastEventsTakeEffect : Obligations.MulticastEventsTakeEffect := by
  refine ⟨?probe, ?request, ?response, ?close, ?delivery⟩
  case probe =>
    intro core k m dst ty one cnt sub lr thread va l key cl w hk hl s ⟨hm, hw, hf, hkeys, hmiss, hpred, hcopy⟩
    obtain ⟨data, at_, heq⟩ := State.peerProbe_fills hk hl hm hf hkeys hmiss hpred hcopy
    refine ⟨_, congrArg Host.Outcome.next heq, ?_, rfl, (State.wave?_setCore s (by rfl) _ _).trans hw⟩
    show (((s.setCore core ((s.core core).l1Fill core s.freeCtr ⟨key, data, true, at_⟩)).core core).l1Find key).isSome = true
    rw [State.core_setCore_same, Core.l1Find_l1Fill (l := ⟨key, data, true, at_⟩)]
    rfl
  case request =>
    intro core k m dst src len off bar mask fail hk s ⟨hm, hfirst, hunits⟩
    obtain ⟨pieces, heq, hpieces⟩ := State.multicast_sends hk hm hfirst hunits
    refine ⟨_, congrArg Host.Outcome.next heq, State.sendPieces_memq hm _ _ _ _ _ _ _, fun i hi x xs hx => ?_⟩
    obtain ⟨p, hp, hkey⟩ := hpieces i hi x xs hx
    rw [← hkey]
    exact State.sendPieces_joined s core k m _ src len off bar mask pieces hp
  case response =>
    intro slice k m r hr
    refine ⟨fun hph s ⟨hm, hpieces, hready⟩ => ⟨_, rfl, (State.sendMerge_opens hr hm hph (fun _ => rfl) hpieces hready).1⟩,
      fun hph s ⟨hm, hpieces, hready⟩ => ?_⟩
    obtain ⟨hopen, s1, h1, hfollow⟩ := State.sendMerge_opens (count := fun sl => { sl with followup := sat32 sl.followup }) hr hm hph (fun _ => rfl) hpieces hready
    exact ⟨_, rfl, hopen, hfollow.trans (congrArg sat32 (State.data_followup h1 slice))⟩
  case close =>
    intro slice k m hph s hm
    show Host.Outcome.next _ = _
    dsimp only
    rw [hm]
    exact congrArg Host.Outcome.next (if_pos hph)
  case delivery =>
    intro core k x s ⟨hx, hbehind, hroom⟩
    obtain ⟨fault, s3, heq, hdel, hpad⟩ := State.deliver_writes hx hbehind hroom
    obtain ⟨ht, hs, hc⟩ := State.foldl_credits core x.bar (16 * x.pieces.length) fault x.requests s3
    refine ⟨_, congrArg Host.Outcome.next heq, ?_, hs.trans (congrArg (·.1) hpad), hc.trans ?_⟩
    · rw [ht, hdel, Tab.get_put_same]
    · rw [show (s3.core core).credits = (s.core core).credits from (congrArg (·.2.2) hpad).trans (Core.takePieces_pad x.off x.pieces rfl).2]

end Sys2Proof.Machine
end

section
/-!
PROOF. Operations that leave their queues: a marker of queue 4 waits while a replay of the cluster runs.
-/
namespace Sys2Proof.Machine

/-- A marker, with nothing before it. -/
def loneMarker : QEntry Q4Kind :=
  { id := 0, wave := 0, slot := 0, part := 0, level := .user, depth := 0, rmode := 0, killed := false, after := [], launch := 0, iaddr := 0, word := 0
    bad := [], got := [], kind := .marker }

/-- Core 0 has a marker at the head of its queue 4, while a replay runs in the Glaze unit of its cluster. -/
def markerBehindReplay : State :=
  { State.reset with
    cores := [(0, { Core.reset 0 with q4 := [loneMarker] })]
    clusters := [(0, { Cluster.reset with rpl := some ⟨0, 0, 1, [], none⟩ })] }

/-- Refutes O42: the clause of QUEUE_MARKER_COMPLETION on queue 4 leaves out that a replay of the cluster must not be running; with core 0's marker
behind one, the event leaves the marker in its queue. -/
theorem not_queueOperationsComplete : ¬ Obligations.QueueOperationsComplete := by
  intro h
  obtain ⟨-, -, -, -, -, -, hmarker, -⟩ := h
  have hstays : exec (.queueMarkerCompletion 0 4) markerBehindReplay = .next markerBehindReplay := rfl
  have hleaves := hmarker 0 loneMarker [] rfl markerBehindReplay ⟨rfl, rfl⟩
  have hsame := Host.Outcome.next.inj (hstays.symm.trans hleaves)
  have hq : [loneMarker] = ([] : List (QEntry Q4Kind)) := congrArg (fun s : State => (s.core 0).q4) hsame
  cases hq

end Sys2Proof.Machine
end

section
/-!
PROOF. Chunks of matrix operations and the drain of a finished tile.
-/
namespace Sys2Proof.Machine

/-- The rows of A and the columns of B that a chunk reads (R240). -/
def MxOp.ranges (m : MxOp) : List (DWord × Nat) :=
  (List.range 64).map (fun i => (m.qa + BitVec.ofNat 64 (i * (m.qc.toNat % 2 ^ 32) + m.p * (m.chunk * matBits m.aFmt / 8)), m.chunk * matBits m.aFmt / 8)) ++
    (List.range m.chunk).map fun k => (m.qb + BitVec.ofNat 64 ((m.p * m.chunk + k) * (m.qc.toNat / 2 ^ 32)), 4 * matBits m.bFmt)

/-- A chunk whose operands are all at hand is computed. -/
theorem exec_matrixChunk {pair : Nat} {s s1 s2 : State} {e e1 : QEntry MxOp} {reads : List ReadOut} (hwait : ReadOut.wait ∉ reads)
    (hfault : readsFault reads = none) (he : s.computing pair = some e) (hclear : e.clear s e.kind.core = true)
    (hstart : (if e.kind.started then (s, e) else s.startMx pair e) = (s1, e1))
    (hread : s1.readRanges (e1.reader e1.kind.core 2) e1.kind.ranges = (s2, reads)) (hhazard : s.hazard0 pair e1 e1.kind.ranges = false) :
    exec (.matrixChunk pair) s = .next ((s2.computeChunk pair e1 reads).settleMx pair) := by
  show execMatrixChunk pair s = _
  unfold execMatrixChunk
  rw [he]
  dsimp only
  rw [if_neg (by simp [hclear]), hstart]
  dsimp only
  unfold MxOp.ranges at hread hhazard
  rw [hread]
  dsimp only
  rw [if_neg (Bool.eq_false_iff.1 hhazard), if_neg (by simpa using hwait), hfault]

/-- The drain of an operation whose chunks are done: it is staged, then its rows are stored. -/
theorem exec_epilogueDrain {pair : Nat} {s : State} {e : QEntry MxOp} {rest : List (QEntry MxOp)} (hq : s.queue0 pair = e :: rest)
    (hstart : e.kind.started = true) (hdone : e.kind.chunks ≤ e.kind.p) (hdrains : e.kind.drains = true) :
    exec (.epilogueDrain pair) s = .next (if !e.kind.staged then s.stageMx pair e else
      (State.storeRows pair (match e.kind.desc with | some x => x.toNat | none => 0)
        ((epiType (bitsOf (match e.kind.desc with | some x => x.toNat | none => 0) 100 96)).getD .f32) 65 e s).settleMx pair) := by
  show execEpilogueDrain pair s = _
  unfold execEpilogueDrain
  rw [hq]
  refine congrArg Host.Outcome.next (if_neg ?_)
  simp [hstart, hdrains, hdone]

/-- A descriptor that is malformed, or written too late, ends its operation (R239, R241). -/
theorem State.stageMx_refuses {s : State} {pair : Nat} {e : QEntry MxOp} (hdesc : e.kind.desc = none)
    (hfree : ∀ h < 2, (s.core (e.kind.drainCore pair h)).staging = none)
    (hbad : s.descLate e.kind.core e.kind.epi = true ∨ epiOk (s.epiDesc e.kind.core e.kind.epi) = false) :
    s.stageMx pair e = s.finish0 pair e 4 0 0 true := by
  have hnone : ¬(([0, 1].map (e.kind.drainCore pair)).any fun k => (s.core k).staging.isSome) = true := by
    simp [hfree 0 (by decide), hfree 1 (by decide)]
  unfold State.stageMx
  dsimp only
  rw [if_neg hnone, hdesc]
  refine if_pos ?_
  rcases hbad with h | h <;> simp [h]

/-- Settles O43: a chunk with its operands is computed, and a finished tile is staged, refused or stored. -/
theorem matrixEventsTakeEffect : Obligations.MatrixEventsTakeEffect := by
  refine ⟨?chunk, ?drain⟩
  case chunk =>
    intro pair e s1 e1 s2 reads m n ranges hwait hfault s ⟨he, hclear, hstart, hread, hhazard⟩
    exact exec_matrixChunk hwait hfault he hclear hstart hread hhazard
  case drain =>
    intro pair e rest hstart hdone hdrains
    refine ⟨fun hst s hq => ?_, fun hst hdesc s ⟨hq, hfree, hbad⟩ => ?_, fun hst d hdesc s hq => ?_⟩
    · exact (exec_epilogueDrain hq hstart hdone hdrains).trans (congrArg Host.Outcome.next (if_pos (by simp [hst])))
    · exact (exec_epilogueDrain hq hstart hdone hdrains).trans
        (congrArg Host.Outcome.next ((if_pos (by simp [hst])).trans (State.stageMx_refuses hdesc hfree hbad)))
    · refine (exec_epilogueDrain hq hstart hdone hdrains).trans (congrArg Host.Outcome.next ((if_neg (by simp [hst])).trans ?_))
      rw [hdesc]

end Sys2Proof.Machine
end

section
/-!
SUPPORT. What is left when an operation of an engine ends and its fragment goes on: the engines of the cores, the clusters, and the registers
of the waves that stay.
-/
namespace Sys2Proof.Machine

/-! ### Records change no cluster -/

@[simp] theorem State.clearGuest_data (s : State) (g : Nat × Nat) : (s.clearGuest g).data = s.data := by
  unfold State.clearGuest
  extract_lets h sl s1
  have h1 : s1.data = s.data := by
    unfold s1
    split
    · exact State.setSlice_data s rfl rfl
    · rfl
  exact h1

@[simp] theorem State.dropGuest_data (s : State) (g : Nat × Nat) : (s.dropGuest g).data = s.data := by
  have hcount : ∀ code, (s.countInval code).data = s.data := fun code => State.setSlice_data s rfl rfl
  unfold State.dropGuest
  split
  · rfl
  · rw [State.clearGuest_data]
    split
    · rfl
    · exact hcount _

@[simp] theorem State.dropGuests_data (s : State) (line : Nat) : (s.dropGuests line).data = s.data := State.foldl_data State.dropGuest_data _ s

@[simp] theorem State.performWrites_clusters (s : State) (p : Nat) (bs : List ByteWrite) (poisoned nt : Bool) (keep : Option (Nat × Nat)) :
    (s.performWrites p bs poisoned nt keep).clusters = s.clusters := by
  unfold State.performWrites
  extract_lets bs' lines s0 s1 s2 words s3 hosts s4
  have h1 : s1.clusters = s.clusters := State.data_clusters ((State.foldl_data (fun t l => State.markLine_data t p l _ poisoned nt) lines s0).trans (by
    unfold s0
    split
    · rfl
    · exact State.foldl_data State.sealBlock_data _ _))
  have h3 : s3.clusters = s1.clusters := by
    unfold s3
    split
    · rfl
    · split <;> rfl
  have h4 : s4.clusters = s3.clusters := by
    unfold s4
    split <;> rfl
  rw [← h1, ← h3, ← h4]
  exact List.foldlRecOn lines _ (motive := fun t : State => t.clusters = s4.clusters) rfl fun _ ht _ _ => ht

@[simp] theorem State.writePhys_clusters (s : State) (p pa : Nat) (bs : List Byte) (poisoned : Bool) : (s.writePhys p pa bs poisoned).clusters = s.clusters := by
  unfold State.writePhys
  dsimp only
  rw [State.performWrites_clusters]
  split
  · rfl
  · exact State.data_clusters (State.foldl_data State.dropGuests_data _ s)

@[simp] theorem State.dropWalks_clusters (s : State) (core req : Nat) : (s.dropWalks core req).clusters = s.clusters := by
  unfold State.dropWalks
  dsimp only
  split <;> rfl

@[simp] theorem State.deviceRecord_clusters (s : State) (r : BitVec 256) : (s.deviceRecord r).clusters = s.clusters := by
  simp [State.deviceRecord, apply_ite State.clusters, State.irq]

theorem State.writeRing_clusters (s : State) (part : Nat) (va : DWord) (bs : List Byte) :
    (∀ t, s.writeRing part va bs = .written t → t.clusters = s.clusters) ∧ ∀ t, s.writeRing part va bs = .wait t → t.clusters = s.clusters := by
  unfold State.writeRing
  extract_lets core k
  split
  · split
    · exact ⟨fun t h => (by cases h), fun t h => (by cases h; rfl)⟩
    · refine ⟨fun t h => ?_, fun t h => by cases h⟩
      cases h
      rw [State.writePhys_clusters, State.data_clusters (State.touchWalk_data ..), State.dropWalks_clusters]
  · exact ⟨fun t h => (by cases h), fun t h => by cases h; exact State.data_clusters (State.requestWalk_data ..)⟩
  · exact ⟨fun t h => (by cases h), fun t h => by cases h⟩

@[simp] theorem State.partRecord_clusters (s : State) (part : Nat) (r : BitVec 256) : (s.partRecord part r).clusters = s.clusters := by
  unfold State.partRecord
  extract_lets p lost hold x va
  have hlost : ∀ t, (lost t).clusters = t.clusters := fun _ => rfl
  have hhold : ∀ t, (hold t).clusters = t.clusters := fun t => by
    unfold hold
    split
    · rfl
    · exact hlost t
  split
  · split
    · rename_i s1 h
      refine Eq.trans ?_ ((State.writeRing_clusters ..).1 s1 h)
      extract_lets s2
      split <;> rfl
    · rename_i s1 h
      exact (hhold s1).trans ((State.writeRing_clusters ..).2 s1 h)
    · exact (hlost _).trans (State.dropWalks_clusters ..)
  · exact hhold s

@[simp] theorem State.record_clusters (s : State) (r : ErrRec) : (s.record r).clusters = s.clusters := by
  unfold State.record
  dsimp only
  split
  · rw [State.partRecord_clusters, State.deviceRecord_clusters]
  · exact State.deviceRecord_clusters ..

/-! ### What such a change leaves -/

/-- The engines of the cores and the clusters stay, and every wave that is still there has its registers. -/
structure State.Leaves (s t : State) : Prop where
  engines : ∀ c, (t.core c).engines = (s.core c).engines
  clusters : t.clusters = s.clusters
  waves : ∀ c k v, t.wave? c k = some v → ∃ w, s.wave? c k = some w ∧ v.regFiles = w.regFiles

theorem State.Leaves.refl (s : State) : s.Leaves s := ⟨fun _ => rfl, rfl, fun _ _ v hv => ⟨v, hv, rfl⟩⟩

theorem State.Leaves.trans {s t u : State} (h1 : s.Leaves t) (h2 : t.Leaves u) : s.Leaves u := by
  refine ⟨fun c => (h2.engines c).trans (h1.engines c), h2.clusters.trans h1.clusters, fun c k v hv => ?_⟩
  obtain ⟨w, hw, hvw⟩ := h2.waves c k v hv
  obtain ⟨x, hx, hwx⟩ := h1.waves c k w hw
  exact ⟨x, hx, hvw.trans hwx⟩

/-- Bookkeeping that keeps the waves and the engines. -/
theorem State.Leaves.of_kept {s t : State} (hk : t.kept = s.kept) (hc : t.clusters = s.clusters) : s.Leaves t := by
  refine ⟨State.engines_of_kept hk, hc, fun c k v hv => ?_⟩
  obtain ⟨w, hw, hvw⟩ := State.wave?_of_kept hk.symm hv
  have hregs := Wave.kept_eq hvw
  exact ⟨w, hw, by unfold Wave.regFiles; rw [hregs.1, hregs.2.1, hregs.2.2]⟩

theorem State.Leaves.of_cores {s t : State} (hk : t.cores = s.cores) (hc : t.clusters = s.clusters) : s.Leaves t :=
  .of_kept (State.kept_of_cores hk) hc

theorem State.Leaves.foldl {α : Type} {f : State → α → State} (h : ∀ (u : State) (a : α), u.Leaves (f u a)) (l : List α) (s : State) : s.Leaves (l.foldl f s) :=
  List.foldlRecOn l f (motive := s.Leaves) (.refl s) fun u hu a _ => hu.trans (h u a)

/-- A core that is written with its engines as they were and no wave that it had not. -/
theorem State.Leaves.setCore {s : State} {c : Nat} {x : Core} (he : x.engines = (s.core c).engines)
    (hw : ∀ k v, x.waves.find k = some v → (s.core c).waves.find k = some v) : s.Leaves (s.setCore c x) := by
  refine ⟨fun d => ?_, rfl, fun d k v hv => ⟨v, ?_, rfl⟩⟩
  · by_cases h : d = c
    · rw [h, State.core_setCore_same, he]
    · rw [State.core_setCore_ne _ _ h]
  · unfold State.wave? at hv ⊢
    by_cases h : d = c
    · rw [h] at hv ⊢
      rw [State.core_setCore_same] at hv
      exact hw k v hv
    · rw [State.core_setCore_ne _ _ h] at hv
      exact hv

/-- A wave that is written with the registers of the one in its slot. -/
theorem State.Leaves.setWave {s : State} {core slot : Nat} {w v : Wave} (hw : s.wave? core slot = some w) (hv : v.regFiles = w.regFiles) :
    s.Leaves (s.setWave core slot v) := by
  refine ⟨fun c => ?_, rfl, fun c k x hx => ?_⟩
  · by_cases h : c = core
    · rw [h, State.core_setWave]
      rfl
    · unfold State.setWave
      rw [State.core_setCore_ne _ _ h]
  · by_cases h : c = core
    · subst h
      by_cases hk : k = slot
      · subst hk
        rw [State.wave?_setWave_same] at hx
        cases hx
        exact ⟨w, hw, hv⟩
      · rw [State.wave?_setWave_ne _ _ _ hk] at hx
        exact ⟨x, hx, rfl⟩
    · rw [State.wave?_setWave_core _ _ _ _ h] at hx
      exact ⟨x, hx, rfl⟩

theorem State.Leaves.modWave {s : State} {core slot : Nat} {g : Wave → Wave} (hg : ∀ w, (g w).regFiles = w.regFiles) : s.Leaves (s.modWave core slot g) := by
  unfold State.modWave
  split
  · rename_i w hw
    exact .setWave hw (hg w)
  · exact .refl s

theorem State.record_leaves (s : State) (r : ErrRec) : s.Leaves (s.record r) := .of_kept (State.record_kept s r) (State.record_clusters s r)

/-! ### The end of a wave -/

theorem State.poisonLine_leaves (s : State) (part line : Nat) (o : Origin) : s.Leaves (s.poisonLine part line o) := by
  unfold State.poisonLine
  dsimp only
  split
  · exact .of_cores rfl rfl
  · split
    · exact .of_cores rfl rfl
    · refine .trans ?_ (State.record_leaves _ _)
      exact .of_cores rfl rfl

theorem State.endTask_leaves (s : State) (part id : Nat) (o : Origin) : s.Leaves (s.endTask part id o) := by
  have hslot : ∀ (u : State) (t : Task), u.Leaves (u.settleSlot t) := fun u t => by
    refine .of_cores (State.settleSlot_cores u t) ?_
    unfold State.settleSlot
    split
    · rfl
    · split <;> rfl
  unfold State.endTask
  split
  · exact .refl s
  · rename_i t _
    refine .trans (.foldl (fun u l => ?_) _ s) (.trans (hslot _ t) (.of_cores rfl rfl))
    split
    · split
      · exact State.poisonLine_leaves u part l o
      · exact .refl u
    · exact .refl u

theorem State.endTeam_leaves (s : State) (t : Team) : s.Leaves (s.endTeam t) := by
  have hstep : ∀ (u : State) (c : Nat), u.Leaves (u.setCore c { u.core c with
      owner := if (u.core c).owner = some t.id then none else (u.core c).owner }) := fun u c => .setCore rfl fun _ _ h => h
  unfold State.endTeam
  dsimp only
  split <;> exact .trans (.foldl hstep t.cores s) (.of_cores rfl rfl)

theorem Tab.find_of_erase {α : Type} {m : Tab α} {k j : Nat} {x : α} (h : (Tab.erase m k).find j = some x) : m.find j = some x := by
  by_cases hj : j = k
  · rw [hj, Tab.find_erase] at h
    cases h
  · have hfind : Tab.find (Tab.erase m k) j = Tab.find m j := by
      simp only [Tab.find, Tab.erase, List.find?_filter]
      congr 1
      refine congrArg (fun p => List.find? p m) (funext fun e => ?_)
      by_cases he : e.1 = j
      · simp [he, hj]
      · simp [he]
    rwa [hfind] at h

theorem State.endWave_leaves (s : State) (core slot : Nat) (killed : Bool) : s.Leaves (s.endWave core slot killed) := by
  unfold State.endWave
  split
  · exact .refl s
  · rename_i w _
    extract_lets c keep given c1 s1 s2 s3
    have h1 : s.Leaves s1 := .trans (.setCore (x := c1) rfl fun k v hv => Tab.find_of_erase hv) (.of_cores (State.dropWalks_cores ..) (State.dropWalks_clusters ..))
    have h2 : s1.Leaves s2 := by
      unfold s2
      split
      · exact State.endTask_leaves ..
      · exact State.endTask_leaves ..
      · exact .refl s1
    have h3 : s2.Leaves s3 := .of_cores rfl rfl
    refine h1.trans (h2.trans (h3.trans ?_))
    split
    · split
      · exact State.endTeam_leaves ..
      · exact .refl s3
    · exact .refl s3

/-! ### Going on -/

theorem State.settle_leaves (s : State) (core slot : Nat) : s.Leaves (s.settle core slot) := by
  unfold State.settle
  split
  · exact .refl s
  · rename_i w hw
    have hregs : (w.settle s.uid).regFiles = w.regFiles := by
      have h := Wave.settle_same w s.uid
      generalize w.settle s.uid = v at h ⊢
      rw [h]
      rfl
    have hset : s.Leaves (s.fresh.setWave core slot (w.settle s.uid)) := .trans (.of_cores (t := s.fresh) rfl rfl) (.setWave hw hregs)
    dsimp only
    split
    · exact hset.trans (State.endWave_leaves ..)
    · exact hset

theorem State.release_leaves (s : State) (uid id : Nat) (g : Fragment → Fragment) : s.Leaves (s.release uid id g) := by
  unfold State.release
  split
  · exact .refl s
  · dsimp only
    refine .trans ?_ (State.settle_leaves ..)
    exact .modWave fun _ => rfl

theorem State.countFor_clusters (s : State) (traps : Bool) (core wc slot uid : Nat) (k : XClass) (n : Nat) (iaddr : DWord) (word : BitVec 96) :
    (s.countFor traps core wc slot uid k n iaddr word).clusters = s.clusters := by
  have hmod : ∀ (t : State) (g : Wave → Wave), (t.modWave wc slot g).clusters = t.clusters := fun t g => by
    unfold State.modWave
    split <;> rfl
  have hirq : ∀ (t : State) (p vec : Nat), (t.irq p vec).clusters = t.clusters := fun _ _ _ => rfl
  have hcore : ∀ x, (s.setCore core x).clusters = s.clusters := fun _ => rfl
  unfold State.countFor
  split
  · rfl
  · simp only [apply_ite State.clusters, hirq, State.record_clusters, hmod, hcore, ite_self]

theorem State.countAll_leaves (s : State) (core slot uid : Nat) (evs : List (XClass × Nat)) (iaddr : DWord) (word : BitVec 96) :
    s.Leaves (s.countAll core slot uid evs iaddr word) := by
  refine .of_kept (State.countAll_kept ..) ?_
  exact List.foldlRecOn evs _ (motive := fun t : State => t.clusters = s.clusters) rfl fun t ht e _ => (State.countFor_clusters t ..).trans ht

end Sys2Proof.Machine
end

section
/-!
PROOF. Images, runs, and the operations of the Glaze unit.
-/
namespace Sys2Proof.Machine

/-! ### The end of an operation of queue 3 or 4 -/

theorem State.modWave_engines (s : State) (core slot : Nat) (g : Wave → Wave) (c : Nat) : ((s.modWave core slot g).core c).engines = (s.core c).engines := by
  unfold State.modWave
  split
  · by_cases h : c = core
    · rw [h, State.core_setWave]
      rfl
    · unfold State.setWave
      rw [State.core_setCore_ne _ _ h]
  · rfl

@[simp] theorem State.modWave_clusters (s : State) (core slot : Nat) (g : Wave → Wave) : (s.modWave core slot g).clusters = s.clusters := by
  unfold State.modWave
  split <;> rfl

theorem State.opDone_kept (s : State) (uid launch q status cls row : Nat) (epi : Bool) : (s.opDone uid launch q status cls row epi).kept = s.kept := by
  unfold State.opDone
  extract_lets s1
  have h1 : s1.kept = s.kept := by
    unfold s1
    split
    · exact State.kept_of_cores rfl
    · rfl
  split
  · exact h1
  · refine (State.modWave_kept _ _ _ ?_).trans h1
    exact fun _ => rfl

@[simp] theorem State.opDone_clusters (s : State) (uid launch q status cls row : Nat) (epi : Bool) :
    (s.opDone uid launch q status cls row epi).clusters = s.clusters := by
  unfold State.opDone
  extract_lets s1
  have h1 : s1.clusters = s.clusters := by
    unfold s1
    split <;> rfl
  split
  · exact h1
  · exact (State.modWave_clusters ..).trans h1

/-- A core without one operation of its queue 3. -/
def Core.drop3 (c : Core) (id : Nat) : Core := { c with q3 := c.q3.filter fun x => x.id ≠ id }
/-- A core without one operation of its queue 4. -/
def Core.drop4 (c : Core) (id : Nat) : Core := { c with q4 := c.q4.filter fun x => x.id ≠ id }

theorem State.done3_kept (s : State) (core : Nat) (e : QEntry Q3Kind) : (s.done3 core e).kept = (s.setCore core ((s.core core).drop3 e.id)).kept :=
  (State.opDone_kept ..).trans (State.kept_of_cores (State.dropWalks_cores ..))

theorem State.done4_kept (s : State) (core : Nat) (e : QEntry Q4Kind) (status cls row : Nat) :
    (s.done4 core e status cls row).kept = (s.setCore core ((s.core core).drop4 e.id)).kept :=
  (State.opDone_kept ..).trans (State.kept_of_cores (State.dropWalks_cores ..))

@[simp] theorem State.done4_clusters (s : State) (core : Nat) (e : QEntry Q4Kind) (status cls row : Nat) :
    (s.done4 core e status cls row).clusters = s.clusters :=
  (State.opDone_clusters ..).trans (State.dropWalks_clusters ..)

/-- The operation has left its queue; the grid stays. -/
theorem State.done3_engines (s : State) (core : Nat) (e : QEntry Q3Kind) :
    (((s.done3 core e).core core).q3 = (s.core core).q3.filter fun x => x.id ≠ e.id) ∧ ((s.done3 core e).core core).lath = (s.core core).lath := by
  have h := (State.engines_of_kept (s.done3_kept core e) core).trans (congrArg Core.engines (State.core_setCore_same ..))
  exact ⟨congrArg (·.1.2.2.1) h, congrArg (·.2.1) h⟩

theorem State.done4_engines (s : State) (core : Nat) (e : QEntry Q4Kind) (status cls row : Nat) :
    ((s.done4 core e status cls row).core core).q4 = (s.core core).q4.filter fun x => x.id ≠ e.id :=
  congrArg (·.1.2.2.2) ((State.engines_of_kept (s.done4_kept core e status cls row) core).trans (congrArg Core.engines (State.core_setCore_same ..)))

theorem QEntry.gone_of_filter {κ : Type} {q r : List (QEntry κ)} {id : Nat} (h : q = r.filter fun x => x.id ≠ id) : ∀ x ∈ q, x.id ≠ id := by
  intro x hx
  rw [h] at hx
  simpa using (List.mem_filter.1 hx).2

/-- Every wave has what it had. -/
theorem State.done3_wave? {s : State} {core : Nat} (e : QEntry Q3Kind) {c slot : Nat} {w : Wave} (hw : s.wave? c slot = some w) :
    ∃ v, (s.done3 core e).wave? c slot = some v ∧ v.kept = w.kept :=
  State.wave?_of_kept (s.done3_kept core e) ((State.wave?_setCore s (by rfl) _ _).trans hw)

theorem State.done4_wave? {s : State} {core : Nat} (e : QEntry Q4Kind) (status cls row : Nat) {c slot : Nat} {w : Wave} (hw : s.wave? c slot = some w) :
    ∃ v, (s.done4 core e status cls row).wave? c slot = some v ∧ v.kept = w.kept :=
  State.wave?_of_kept (s.done4_kept core e status cls row) ((State.wave?_setCore s (by rfl) _ _).trans hw)

/-! ### LATH_IMAGE_LOAD -/

theorem State.noteLoad_kept (s : State) (uid : Nat) (image : DWord) (why : Option Nat) : (s.noteLoad uid image why).kept = s.kept := by
  unfold State.noteLoad
  split
  · rfl
  · refine State.modWave_kept _ _ _ ?_
    exact fun _ => rfl

/-- The grid holds what a load has brought. -/
theorem State.setGrid_lath (s : State) (core : Nat) (e : QEntry Q3Kind) (image : DWord) (r : Sum Nat (List Byte)) :
    ((s.setGrid core e image r).core core).lath = ⟨match r with | .inr bs => some (image, e.part, bs) | .inl _ => none⟩ := by
  unfold State.setGrid
  extract_lets k
  split
  · exact (congrArg (·.2.1) (State.engines_of_kept (State.noteLoad_kept ..) core)).trans (congrArg Core.lath (State.core_setCore_same ..))
  · exact (congrArg (·.2.1) (State.engines_of_kept (State.noteLoad_kept ..) core)).trans (congrArg Core.lath (State.core_setCore_same ..))

/-- A load at the head of queue 3 that must read its image. -/
theorem State.imageLoad_reads {s : State} {core : Nat} {e : QEntry Q3Kind} {rest : List (QEntry Q3Kind)} {image : DWord} {reload : Bool}
    (hk : e.kind = .load image reload) (hq : (s.core core).q3 = e :: rest) (hclear : e.clear s core = true)
    (hload : (s.core core).holdsImage e.part image = false ∨ reload = true) :
    s.imageLoad core = (match s.readImage core e image with
      | (s1, .wait) => s1
      | (s1, .fail why) => (s1.setGrid core e image (.inl why)).done3 core e
      | (s1, .image bs) => (s1.setGrid core e image (.inr bs)).done3 core e) := by
  unfold State.imageLoad
  rw [hq]
  dsimp only
  rw [if_neg (by simp [hclear]), hk]
  refine (if_neg ?_).trans ?_
  · rcases hload with h | h <;> simp [h]
  · rfl

/-! ### LATH_RUN_COMPLETION -/

/-- A fold over waves that keep the same. -/
theorem Wave.foldl_kept {α : Type} {f : Wave → α → Wave} (hf : ∀ (v w : Wave) (a : α), v.kept = w.kept → (f v a).kept = (f w a).kept) (l : List α)
    {v w : Wave} (h : v.kept = w.kept) : (l.foldl f v).kept = (l.foldl f w).kept := by
  induction l generalizing v w with
  | nil => exact h
  | cons a l ih => exact ih (hf v w a h)

/-- Outputs go to the same registers in waves that hold the same ones. -/
theorem Wave.putOutputs_kept {v w : Wave} (h : v.kept = w.kept) (dst : Opnd) (hdr nout : Nat) (ts : List Nat) (outs : List (List CellVal)) (flip : Nat → Flip) :
    (v.putOutputs dst hdr nout ts outs flip).kept = (w.putOutputs dst hdr nout ts outs flip).kept := by
  have hl : v.lives = w.lives := congrArg (·.2.2.2.2.1) h
  unfold Wave.putOutputs
  rw [hl]
  refine Wave.foldl_kept (fun x y o hxy => ?_) _ h
  have hb : x.blocks = y.blocks := congrArg (·.2.2.2.2.2) hxy
  dsimp only
  split
  · rw [hb]
    split
    · exact hxy
    · exact Wave.setV_kept hxy _ fun _ r => r.write _ _ _ _ _
  · exact hxy

/-- So do records. -/
theorem Wave.putRecords_kept {v w : Wave} (h : v.kept = w.kept) (dst : Opnd) (all : List (Nat × GzRec)) (poison : Mask) (org : Origin) :
    (v.putRecords dst all poison org).kept = (w.putRecords dst all poison org).kept := by
  have hl : v.lives = w.lives := congrArg (·.2.2.2.2.1) h
  unfold Wave.putRecords
  rw [hl]
  refine Wave.foldl_kept (fun x y o hxy => ?_) _ h
  have hb : x.blocks = y.blocks := congrArg (·.2.2.2.2.2) hxy
  dsimp only
  split
  · rw [hb]
    split
    · exact hxy
    · exact Wave.setV_kept hxy _ fun _ r => r.write _ _ _ _ _
  · exact hxy

/-- And a scalar. -/
theorem Wave.putDst_kept {v w : Wave} (h : v.kept = w.kept) (dst : Opnd) (x : DWord) : (v.putDst dst x).kept = (w.putDst dst x).kept := by
  unfold Wave.putDst
  split
  · exact Wave.setS_kept h _ _
  · exact h

/-- The values that a run's passes take from its inputs, with their poison. -/
def runInputs (ts : List Nat) (ins : List (List Word)) (poison : List Mask) (org : List Origin) : List (List CellVal) :=
  (ts.zip ins).map fun x => x.2.zipIdx.map fun y => (y.1.toNat, if (poison.getD y.2 0).getLsbD x.1 then some (org.getD y.2 .fault) else none)

/-- What a run leaves in its threads, poisoned where the address that named its image was. -/
def runOutputs (img : List Byte) (nin : Nat) (ts : List Nat) (ins : List (List Word)) (poison : List Mask) (org : List Origin) : List (List CellVal) :=
  (runImage img (runInputs ts ins poison org)).1.map fun l => l.map fun x =>
    (x.1, joinOrigin x.2 (if poison.getD nin 0 = 0 then none else some (org.getD nin .fault)))

/-- A run whose image the grid holds, undisturbed: its outputs are written and its fragment goes on. -/
theorem State.runDone_writes {s : State} {core : Nat} {e : QEntry Q3Kind} {rest : List (QEntry Q3Kind)} {dst : Opnd} {nin nout : Nat} {image : DWord}
    {ts : List Nat} {ins : List (List Word)} {poison : List Mask} {org : List Origin} {sp : Bool} {a : DWord} {p : Nat} {img : List Byte} {w : Wave}
    (hk : e.kind = .run dst nin nout image ts ins poison org sp) (hin : imageIns img = nin) (hout : imageOuts img = nout) (hu : w.uid = e.wave)
    (hq : (s.core core).q3 = e :: rest) (hlath : (s.core core).lath.image = some (a, p, img)) (hclear : e.clear s core = true)
    (hholds : (s.core core).holdsImage e.part image = true) (hw : s.wave? core e.slot = some w) (hup : s.upsets = []) :
    ∃ evs, s.runDone core = ((((({ s with upsets := [] } : State).done3 core e).modWave core e.slot fun w =>
      w.putOutputs dst (imageHeader img) nout ts (runOutputs img nin ts ins poison org) fun _ => 0).countAll core e.slot e.wave evs e.iaddr e.word).release
        e.wave e.id Fragment.advance) := by
  have hvote : ∀ (chk : Bool) (act : Mask) (eff : Flip), s.vote chk act eff = .use 0 := fun chk act eff => if_pos (by simp [hup])
  unfold State.runDone
  rw [hq, hlath]
  dsimp only
  rw [hk]
  dsimp only
  rw [if_neg (by simp [hclear, hholds]), if_neg (by simp [hin, hout]), hw]
  dsimp only
  rw [if_neg (not_not.2 hu), hvote]
  dsimp only
  rw [hup]
  exact ⟨_, rfl⟩

/-- A change that leaves engines and registers, after a wave was written. -/
theorem State.Leaves.after_modWave {s t : State} {core slot : Nat} {g : Wave → Wave} {v : Wave} (h : (s.modWave core slot g).Leaves t)
    (hv : s.wave? core slot = some v) : ∀ x, t.wave? core slot = some x → x.regFiles = (g v).regFiles := by
  intro x hx
  obtain ⟨y, hy, hxy⟩ := h.waves core slot x hx
  have hmod : s.modWave core slot g = s.setWave core slot (g v) := by
    unfold State.modWave
    rw [hv]
  rw [hmod, State.wave?_setWave_same] at hy
  cases hy
  exact hxy

/-! ### The Glaze unit -/

/-- A read without FLUSH, or a status read: the operation ends, and what it has read goes to its wave, whose fragment goes on. -/
def State.readBack (s : State) (core : Nat) (e : QEntry Q4Kind) (g : Wave → Wave) : State :=
  match (s.done4 core e 0 0 0).findWave e.wave with
  | some (c, slot) => ((s.done4 core e 0 0 0).modWave c slot g).release e.wave e.id Fragment.advance
  | none => s.done4 core e 0 0 0

theorem State.readBack_engines (s : State) (core : Nat) (e : QEntry Q4Kind) (g : Wave → Wave) :
    ((s.readBack core e g).core core).q4 = ((s.core core).q4.filter fun x => x.id ≠ e.id) ∧ (s.readBack core e g).clusters = s.clusters := by
  unfold State.readBack
  split
  · rename_i c slot _
    have hrel := State.release_leaves ((s.done4 core e 0 0 0).modWave c slot g) e.wave e.id Fragment.advance
    refine ⟨?_, hrel.clusters.trans ((State.modWave_clusters ..).trans (State.done4_clusters ..))⟩
    exact (congrArg (·.1.2.2.2) ((hrel.engines core).trans (State.modWave_engines ..))).trans (State.done4_engines ..)
  · exact ⟨State.done4_engines .., State.done4_clusters ..⟩

/-- The wave of the operation holds what was read. -/
theorem State.readBack_wave {s : State} {core : Nat} {e : QEntry Q4Kind} {g : Wave → Wave} (hg : ∀ {v w : Wave}, v.kept = w.kept → (g v).kept = (g w).kept)
    {w : Wave} (hfind : (s.done4 core e 0 0 0).findWave e.wave = some (core, e.slot)) (hw : s.wave? core e.slot = some w) :
    ∀ v, (s.readBack core e g).wave? core e.slot = some v → v.regFiles = (g w).regFiles := by
  intro v hv
  obtain ⟨x, hx, hxw⟩ := State.done4_wave? (core := core) e 0 0 0 hw
  unfold State.readBack at hv
  rw [hfind] at hv
  have hregs := (State.release_leaves ((s.done4 core e 0 0 0).modWave core e.slot g) e.wave e.id Fragment.advance).after_modWave hx v hv
  have hsame := Wave.kept_eq (hg hxw)
  rw [hregs]
  unfold Wave.regFiles
  rw [hsame.1, hsame.2.1, hsame.2.2]

theorem State.glazeRead_noFlush {s : State} {core : Nat} {e : QEntry Q4Kind} {dst : Opnd} {recs : List (Nat × Nat)} {poison : Mask} {org : Origin}
    (hup : s.upsets = []) : s.glazeRead core e dst false recs poison org =
      s.readBack core e fun w => w.putRecords dst (recs.map fun x => (x.1, (s.cluster (Config.clusterOf core)).record x.2)) poison org := by
  have hs : ({ s with upsets := [] } : State) = s := by
    have h : ∀ u, s.upsets = u → ({ s with upsets := u } : State) = s := fun u hu => by subst hu; rfl
    exact h [] hup
  unfold State.glazeRead State.startGz State.readBack
  rw [hs]
  rfl

theorem State.cluster_done4 (s : State) (k : Nat) (x : Cluster) (core : Nat) (e : QEntry Q4Kind) (status cls row : Nat) :
    ((s.setCluster k x).done4 core e status cls row).cluster k = x := by
  unfold State.cluster
  rw [State.done4_clusters]
  exact Tab.get_put_same ..

/-- Settles O44: loads fill the grid, runs leave their outputs, and the Glaze unit performs the head of its queue. -/
theorem lathAndGlazeEventsTakeEffect : Obligations.LathAndGlazeEventsTakeEffect := by
  refine ⟨?load, ?fail, ?run, ?arrive, ?read, ?clear, ?clearAll, ?status, ?replay⟩
  case load =>
    intro core e rest image reload s1 bs hk s ⟨hq, hclear, hload, hread⟩
    have heq := State.imageLoad_reads hk hq hclear hload
    rw [hread] at heq
    have hdone := State.done3_engines (s1.setGrid core e image (.inr bs)) core e
    exact ⟨_, congrArg Host.Outcome.next heq, by rw [hdone.2, State.setGrid_lath], QEntry.gone_of_filter hdone.1⟩
  case fail =>
    intro core e rest image reload s1 why hk s ⟨hq, hclear, hload, hread⟩
    have heq := State.imageLoad_reads hk hq hclear hload
    rw [hread] at heq
    have hdone := State.done3_engines (s1.setGrid core e image (.inl why)) core e
    exact ⟨_, congrArg Host.Outcome.next heq, by rw [hdone.2, State.setGrid_lath], QEntry.gone_of_filter hdone.1⟩
  case run =>
    intro core e rest dst nin nout image ts ins poison org sp a p img w hk hin hout hu s ⟨hq, hlath, hclear, hholds, hw, hup⟩
    obtain ⟨evs, heq⟩ := State.runDone_writes hk hin hout hu hq hlath hclear hholds hw hup
    obtain ⟨x, hx, hxw⟩ := State.done3_wave? (s := { s with upsets := [] }) (core := core) e hw
    have hleaves := (State.countAll_leaves ((({ s with upsets := [] } : State).done3 core e).modWave core e.slot fun w =>
      w.putOutputs dst (imageHeader img) nout ts (runOutputs img nin ts ins poison org) fun _ => 0) core e.slot e.wave evs e.iaddr e.word).trans
      (State.release_leaves _ e.wave e.id Fragment.advance)
    refine ⟨_, congrArg Host.Outcome.next heq, ?_, fun v hv => ?_⟩
    · refine QEntry.gone_of_filter ((congrArg (·.1.2.2.1) ((hleaves.engines core).trans (State.modWave_engines ..))).trans (State.done3_engines ..).1)
    · exact (congrArg (·.1) (hleaves.after_modWave hx v hv)).trans (Wave.kept_eq (Wave.putOutputs_kept hxw ..)).1
  case arrive =>
    intro core e as hk s ⟨hhead, hwait⟩
    show execGlazeArrival core s = _
    unfold execGlazeArrival
    rw [hhead]
    dsimp only
    rw [hk]
    dsimp only
    unfold GzRun.end_
    rw [hwait]
  case read =>
    intro core e dst flush recs poison org hk s ⟨hhead, hflush, hup⟩
    subst hflush
    have heq : exec (.glazeRead core) s = .next (s.readBack core e fun w =>
        w.putRecords dst (recs.map fun x => (x.1, (s.cluster (Config.clusterOf core)).record x.2)) poison org) := by
      show execGlazeRead core s = _
      unfold execGlazeRead
      rw [hhead]
      dsimp only
      rw [hk]
      exact congrArg Host.Outcome.next (State.glazeRead_noFlush hup)
    have hback := State.readBack_engines s core e fun w =>
      w.putRecords dst (recs.map fun x => (x.1, (s.cluster (Config.clusterOf core)).record x.2)) poison org
    refine ⟨_, heq, QEntry.gone_of_filter hback.1, ?_, fun w hfind hw v hv => ?_⟩
    · exact congrArg (fun cs => (Tab.get Cluster.reset cs (Config.clusterOf core)).records) hback.2
    · exact congrArg (·.1) (State.readBack_wave (fun h => Wave.putRecords_kept h ..) hfind hw v hv)
  case clear =>
    intro core e recs hk s hhead
    show execGlazeClear core s = _
    unfold execGlazeClear
    rw [hhead]
    dsimp only
    rw [hk]
  case clearAll =>
    intro core e hk s hhead
    have heq : exec (.glazeClear core) s = .next ((s.setCluster (Config.clusterOf core) { s.cluster (Config.clusterOf core) with
        records := [], logN := 0, logOvf := false, logFlt := false, nret := 0 }).done4 core e 0 0 0) := by
      show execGlazeClear core s = _
      unfold execGlazeClear
      rw [hhead]
      dsimp only
      rw [hk]
    refine ⟨_, heq, ?_⟩
    dsimp only
    rw [State.cluster_done4]
    exact ⟨rfl, rfl, rfl, rfl, rfl, QEntry.gone_of_filter (State.done4_engines ..)⟩
  case status =>
    intro core e dst hk s hhead
    have heq : exec (.glazeStatusRead core) s = .next (s.readBack core e fun w => w.putDst dst (s.cluster (Config.clusterOf core)).gzStat) := by
      show execGlazeStatusRead core s = _
      unfold execGlazeStatusRead
      rw [hhead]
      dsimp only
      rw [hk]
      rfl
    refine ⟨_, heq, QEntry.gone_of_filter (State.readBack_engines ..).1, fun w hfind hw v hv => ?_⟩
    exact congrArg (·.2.1) (State.readBack_wave (fun h => Wave.putDst_kept h ..) hfind hw v hv)
  case replay =>
    intro core e out n hk s hhead
    show execGlazeReplay core s = _
    unfold execGlazeReplay
    rw [hhead]
    dsimp only
    rw [hk]

end Sys2Proof.Machine
end

section
/-!
PROOF. Start-up and power states: the entry to D3HOT ends debug, and the record of that change goes to the device ring in host memory.
-/
namespace Sys2Proof.Machine

/-- A device whose debug state is TRACE. -/
def tracedDevice : State := { State.reset with dev := { Device.reset with debug := .trace } }

/-- The entry to D3HOT writes the record of the end of debug, whose SOURCE of 21 stands in its fifth byte. -/
theorem enterHot_writes_record : (tracedDevice.enterHot.mem.read (0x8000000000000 + 4)) = 21 := by decide

/-- Refutes O52: D3HOT_ENTRY ends the debug state (R426), which sends a record (R425), so that memory is not what it was: on a device in TRACE
the record's SOURCE stands in the device ring afterwards. -/
theorem not_startAndPartitionEventsTakeEffect : ¬ Obligations.StartAndPartitionEventsTakeEffect := by
  intro h
  obtain ⟨-, hhot, -⟩ := h
  obtain ⟨t, hexec, -, -, -, hmem, -⟩ := hhot tracedDevice ⟨rfl, rfl⟩
  have hruns : exec .d3hotEntry tracedDevice = .next tracedDevice.enterHot := rfl
  have ht : t = tracedDevice.enterHot := (Host.Outcome.next.inj (hruns.symm.trans hexec)).symm
  have hread : tracedDevice.mem.read (0x8000000000000 + 4) = 21 := by rw [← hmem, ht]; exact enterHot_writes_record
  exact absurd hread (by decide)

end Sys2Proof.Machine
end

section
/-!
PROOF. Errors of the links, accesses over the host link, attestation and debug.
-/
namespace Sys2Proof.Machine

/-! ### Records of the device -/

/-- A record of the device changes memory and the device's ring, buffer, LOST and interrupts, and nothing else. -/
theorem State.deviceRecord_only (s : State) (r : BitVec 256) : ∃ m ring prod buf lost irqs, s.deviceRecord r =
    { s with mem := m, dev := { s.dev with errRing := ring, errProd := prod, errBuf := buf, errLost := lost, irqs := irqs } } := by
  unfold State.deviceRecord State.irq
  dsimp only
  split
  · split
    · exact ⟨_, _, _, _, _, _, rfl⟩
    · exact ⟨_, _, _, _, _, _, rfl⟩
  · split
    · exact ⟨_, _, _, _, _, _, rfl⟩
    · exact ⟨_, _, _, _, _, _, rfl⟩

/-- So does an error record that names no partition. -/
theorem State.record_only (s : State) (r : ErrRec) (h : r.part = none) : ∃ m ring prod buf lost irqs, s.record r =
    { s with mem := m, dev := { s.dev with errRing := ring, errProd := prod, errBuf := buf, errLost := lost, irqs := irqs } } := by
  obtain ⟨m, ring, prod, buf, lost, irqs, hrec⟩ := s.deviceRecord_only (r.bits 0)
  refine ⟨m, ring, prod, buf, lost, irqs, ?_⟩
  unfold State.record
  rw [h]
  exact hrec

theorem State.record_parts (s : State) (r : ErrRec) (h : r.part = none) : (s.record r).parts = s.parts := by
  obtain ⟨m, ring, prod, buf, lost, irqs, hrec⟩ := s.record_only r h
  rw [hrec]

/-! ### Scrubbing -/

theorem State.scrubGddr_clean (s : State) (addr : Nat) : s.scrubGddr addr .clean = s := by
  unfold State.scrubGddr
  dsimp only
  split
  · rfl
  · rfl

theorem State.scrubGddr_found (s : State) (addr : Nat) (finding : Finding) (source sev : Nat)
    (hf : (finding, source, sev) ∈ [(Finding.corrected, 11, 0), (.uncorrectable, 6, 1), (.tagMismatch, 7, 1)])
    (hin : inGddr addr = true) (hgood : s.blockPoisoned (addr / 64) = false) : s.scrubGddr addr finding =
      let u := s.record { source := source, sev := sev, unit := Config.channelOf addr % 16, part := s.gddrOwner addr, addr := addr / 64 * 64 }
      if finding = .corrected then u else u.poisonBlock (addr / 64) := by
  unfold State.scrubGddr
  dsimp only
  rw [hin, hgood, if_neg (by simp)]
  simp only [List.mem_cons, Prod.mk.injEq, List.not_mem_nil, or_false] at hf
  obtain ⟨rfl, rfl, rfl⟩ | ⟨rfl, rfl, rfl⟩ | ⟨rfl, rfl, rfl⟩ := hf
  · rfl
  · rfl
  · rfl

/-! ### Links -/

theorem ringPacketError_brings (link : Nat) (x : Link) (hx : x.failed = false) :
    Brings (.ringPacketError link) (fun s => s.links.get ⟨false, 0⟩ link = x) fun s t =>
      let n := s.failures x.retries
      t.links.get ⟨false, 0⟩ link = if 4 ≤ n then ⟨true, 0⟩ else ⟨false, n⟩ := by
  intro s hs
  refine ⟨_, rfl, ?_⟩
  dsimp only
  rw [hs, hx, if_neg (by simp)]
  split
  next =>
    obtain ⟨m, ring, prod, buf, lost, irqs, hrec⟩ := State.record_only
      ({ s with links := s.links.put link ⟨true, 0⟩ } : State) { source := 2, sev := 4, unit := link } rfl
    rw [hrec]
    exact Tab.get_put_same _ _ _ _
  next => exact Tab.get_put_same _ _ _ _

@[simp] theorem State.noteChannel_channels (s : State) (core : Nat) (m : MemOp) : (s.noteChannel core m).channels = s.channels := by
  unfold State.noteChannel State.noteLines
  split
  · dsimp only
    split
    · rfl
    · rfl
  · rfl

theorem State.faultTouching_channels (s : State) : s.faultTouching.channels = s.channels := by
  unfold State.faultTouching
  refine List.foldlRecOn _ _ (motive := fun t : State => t.channels = s.channels) rfl fun t ht e _ => ?_
  exact List.foldlRecOn _ _ (motive := fun u : State => u.channels = s.channels) ht fun u hu m _ => (u.noteChannel_channels _ m).trans hu

theorem gddrLinkError_brings (chan : Nat) (x : Channel) (hx : x.failed = false) :
    Brings (.gddrLinkError chan) (fun s => s.channels.get ⟨false, 0⟩ chan = x) fun s t =>
      let n := s.failures x.retries
      t.channels.get ⟨false, 0⟩ chan = if 9 ≤ n then ⟨true, 0⟩ else ⟨false, n⟩ := by
  intro s hs
  refine ⟨_, rfl, ?_⟩
  dsimp only
  rw [hs, hx, if_neg (by simp)]
  split
  next =>
    obtain ⟨m, ring, prod, buf, lost, irqs, hrec⟩ := State.record_only
      ({ s with channels := s.channels.put chan ⟨true, 0⟩ } : State) { source := 9, sev := 4, unit := chan } rfl
    rw [State.draw_channels, State.faultTouching_channels, hrec]
    exact Tab.get_put_same _ _ _ _
  next =>
    obtain ⟨m, ring, prod, buf, lost, irqs, hrec⟩ := State.record_only
      ({ s with channels := s.channels.put chan ⟨false, s.failures x.retries⟩ } : State) { source := 8, sev := 0, unit := chan } rfl
    rw [hrec]
    exact Tab.get_put_same _ _ _ _

theorem ideIntegrityFailure_brings (stream : Nat) :
    Brings (.ideIntegrityFailure stream) (fun _ => True) fun _ t => stream ∈ t.dev.ideEnded := by
  intro s _
  refine ⟨_, rfl, ?_⟩
  split
  next h => simpa using h
  next h =>
    obtain ⟨m, ring, prod, buf, lost, irqs, hrec⟩ := State.record_only
      ({ s with dev := { s.dev with ideEnded := s.dev.ideEnded ++ [stream] } } : State) { source := 1, sev := 1 } rfl
    rw [hrec]
    simp

theorem pcieLinkError_brings : Brings (.pcieLinkError false) (fun _ => True) fun s t => t.dev.linkRetrains = s.dev.linkRetrains + 1 := by
  intro s _
  refine ⟨_, rfl, ?_⟩
  rw [if_neg (by simp)]
  obtain ⟨m, ring, prod, buf, lost, irqs, hrec⟩ := State.record_only
    ({ s with dev := { s.dev with linkRetrains := s.dev.linkRetrains + 1 } } : State) { source := 0, sev := 1 } rfl
  rw [hrec]

end Sys2Proof.Machine
end

section
/-!
PROOF. Accesses over the host link: memory of the device and of the host, and BAR0 of the functions.
-/
namespace Sys2Proof.Machine

/-! ### Writes of whole bytes -/

@[simp] theorem State.clearGuest_channels (s : State) (g : Nat × Nat) : (s.clearGuest g).channels = s.channels := by
  unfold State.clearGuest
  dsimp only
  split
  · rfl
  · rfl

@[simp] theorem State.dropGuest_channels (s : State) (g : Nat × Nat) : (s.dropGuest g).channels = s.channels := by
  unfold State.dropGuest
  split
  · rfl
  · split
    · exact State.clearGuest_channels _ _
    · exact State.clearGuest_channels _ _

/-- The lines whose guest copies a write sends away. -/
def State.guestsGone (s : State) (pa n : Nat) : State :=
  if s.guests.isEmpty then s
  else ((List.range ((pa % 128 + n + 127) / 128)).map fun i => pa / 128 + i).foldl (fun (st : State) l => st.dropGuests l) s

theorem State.writePhys_eq (s : State) (p pa : Nat) (bs : List Byte) (poisoned : Bool) :
    s.writePhys p pa bs poisoned = (s.guestsGone pa bs.length).performWrites p (wholeWrites pa bs) poisoned false none := rfl

theorem State.guestsGone_data (s : State) (pa n : Nat) : (s.guestsGone pa n).data = s.data := by
  unfold State.guestsGone
  split
  · rfl
  · exact State.foldl_data State.dropGuests_data _ _

theorem State.guestsGone_channels (s : State) (pa n : Nat) : (s.guestsGone pa n).channels = s.channels := by
  unfold State.guestsGone
  split
  · rfl
  · refine List.foldlRecOn _ _ (motive := fun t : State => t.channels = s.channels) rfl fun t ht l _ => ?_
    exact List.foldlRecOn _ _ (motive := fun u : State => u.channels = s.channels) ht fun u hu g _ => (u.dropGuest_channels g).trans hu

theorem State.chanFailed_of_channels {s t : State} (h : t.channels = s.channels) (pa : Nat) : t.chanFailed pa = s.chanFailed pa := by
  unfold State.chanFailed
  rw [h]

/-- Bytes of which none lies in a failed channel are all in memory. -/
theorem State.writePhys_mem (s : State) (p pa : Nat) (bs : List Byte) (poisoned : Bool) (h : ∀ i < bs.length, s.chanFailed (pa + i) = false) :
    (s.writePhys p pa bs poisoned).mem = s.mem.writeBytes pa bs := by
  have hland : (s.guestsGone pa bs.length).landing (wholeWrites pa bs) = wholeWrites pa bs := by
    refine List.filter_eq_self.2 fun b hb => ?_
    obtain ⟨y, hy, rfl⟩ := List.mem_map.1 hb
    rw [State.chanFailed_of_channels (s.guestsGone_channels pa bs.length), h y.2 (List.mem_zipIdx' hy).1]
    rfl
  rw [State.writePhys_eq, State.performWrites_mem, hland, Memory.foldl_put_whole, State.data_mem (s.guestsGone_data pa bs.length)]

/-! ### What the link carries -/

theorem State.LinkCarries.passes {s : State} {addr : Nat} (h : s.LinkCarries addr) : (s.linkDrops addr || s.dev.power = .d3cold) = false := by
  obtain ⟨hdrops, hpower⟩ := h
  rw [hdrops, decide_eq_false hpower]
  rfl

theorem hostLinkAccess_write {s : State} {addr : Nat} (h : s.LinkCarries addr) (hlow : addr < 2 ^ 52) (bs : List Byte) :
    exec (.hostLinkAccess addr (some bs)) s = .next (s.hostWrite addr bs) := by
  show execHostLinkAccess addr (some bs) s = _
  unfold execHostLinkAccess
  rw [h.passes, if_neg Bool.false_ne_true]
  exact congrArg _ (if_pos hlow)

theorem hostLinkAccess_read {s : State} {addr : Nat} (h : s.LinkCarries addr) (hlow : addr < 2 ^ 52) :
    exec (.hostLinkAccess addr none) s = .next (s.hostRead addr) := by
  show execHostLinkAccess addr none s = _
  unfold execHostLinkAccess
  rw [h.passes, if_neg Bool.false_ne_true]
  exact congrArg _ (if_pos hlow)

theorem hostLinkAccess_barWrite {s : State} {addr : Nat} (h : s.LinkCarries addr) (hhigh : ¬ addr < 2 ^ 52) (bs : List Byte) :
    exec (.hostLinkAccess addr (some bs)) s = .next (s.barWrite (addr / 2 ^ 52 - 1) (addr % 2 ^ 52) bs) := by
  show execHostLinkAccess addr (some bs) s = _
  unfold execHostLinkAccess
  rw [h.passes, if_neg Bool.false_ne_true]
  exact congrArg _ (if_neg hhigh)

theorem hostLinkAccess_barRead {s : State} {addr : Nat} (h : s.LinkCarries addr) (hhigh : ¬ addr < 2 ^ 52) :
    exec (.hostLinkAccess addr none) s = .next (s.barRead (addr / 2 ^ 52 - 1) (addr % 2 ^ 52 / 8 * 8)) := by
  show execHostLinkAccess addr none s = _
  unfold execHostLinkAccess
  rw [h.passes, if_neg Bool.false_ne_true]
  exact congrArg _ (if_neg hhigh)

/-! ### Memory of the device -/

theorem inGddr_lt {pa : Nat} (h : inGddr pa = true) : pa < 0x1000000000 := by simpa [inGddr] using h

theorem inHost_of_inGddr {pa : Nat} (h : inGddr pa = true) : inHost pa = false := by
  have := inGddr_lt h
  simp [inHost]
  omega

/-- A write to GDDR, of which no line's bucket moves and each line finds space. -/
theorem State.hostWrite_gddr {s : State} {addr : Nat} {bs : List Byte} (hin : inGddr addr = true) (hend : inGddr (addr + bs.length) = true)
    (hstage : 1 ≤ s.dev.stage)
    (hmoving : ∀ l ∈ (List.range ((addr % 128 + bs.length + 127) / 128)).map fun i => addr / 128 + i,
      s.moving ((s.gddrOwner addr).getD 0) (.phys l) = false)
    (htouch : s.touchable ((s.gddrOwner addr).getD 0) ((List.range ((addr % 128 + bs.length + 127) / 128)).map fun i => addr / 128 + i) = true) :
    s.hostWrite addr bs = s.writePhys ((s.gddrOwner addr).getD 0) addr bs false := by
  have hany : (((List.range ((addr % 128 + bs.length + 127) / 128)).map fun i => addr / 128 + i).any
      fun l => s.moving ((s.gddrOwner addr).getD 0) (.phys l)) = false := List.any_eq_false.2 fun l hl => by rw [hmoving l hl]; simp
  unfold State.hostWrite
  dsimp only
  rw [inHost_of_inGddr hin, Bool.false_and, if_neg Bool.false_ne_true, hany, htouch, hin, hend, decide_eq_false (Nat.not_lt.2 hstage)]
  rfl

theorem hostWrite_gddr_brings (addr : Nat) (bs : List Byte) (hin : inGddr addr = true) (hend : inGddr (addr + bs.length) = true) :
    Brings (.hostLinkAccess addr (some bs))
      (fun s => let lines := (List.range ((addr % 128 + bs.length + 127) / 128)).map fun i => addr / 128 + i
        s.LinkCarries addr ∧ 1 ≤ s.dev.stage ∧ (∀ l ∈ lines, s.moving ((s.gddrOwner addr).getD 0) (.phys l) = false) ∧
        s.touchable ((s.gddrOwner addr).getD 0) lines = true ∧ ∀ i < bs.length, s.chanFailed (addr + i) = false)
      fun s t => t.mem = s.mem.writeBytes addr bs := by
  intro s ⟨hlink, hstage, hmoving, htouch, hchan⟩
  have hlow : addr < 2 ^ 52 := Nat.lt_trans (inGddr_lt hin) (by decide)
  refine ⟨_, hostLinkAccess_write hlink hlow bs, ?_⟩
  rw [State.hostWrite_gddr hin hend hstage hmoving htouch]
  exact State.writePhys_mem _ _ _ _ _ hchan

/-! ### Memory of the host -/

@[simp] theorem State.markWords_mem (s : State) (ws : List Nat) (bad : Bool) : (s.markWords ws bad).mem = s.mem := rfl

theorem hostWrite_host_brings (addr : Nat) (bs : List Byte) (hin : inHost addr = true) (hend : inHost (addr + bs.length) = true)
    (hlow : addr < 2 ^ 52) :
    Brings (.hostLinkAccess addr (some bs)) (fun s => s.LinkCarries addr) fun s t => t.mem = s.mem.writeBytes addr bs := by
  intro s hlink
  refine ⟨_, hostLinkAccess_write hlink hlow bs, ?_⟩
  unfold State.hostWrite
  extract_lets p lines ws s1
  rw [hin, hend, Bool.true_and, if_pos rfl]
  refine List.foldlRecOn lines _ (motive := fun t : State => t.mem = s.mem.writeBytes addr bs) ?_ fun t ht l _ => ht
  split
  · rfl
  · rfl

/-! ### Reads -/

theorem hostRead_brings (addr : Nat) (s1 : State) (hin : inGddr addr = true) : Brings (.hostLinkAccess addr none)
    (fun s => s.LinkCarries addr ∧ 1 ≤ s.dev.stage ∧ s.moving ((s.gddrOwner addr).getD 0) (.phys (addr / 128)) = false ∧
      s.touchLine? ((s.gddrOwner addr).getD 0) (addr / 128) id = some s1 ∧ s1.wordPoisoned (addr / 8 * 8) = false)
    fun s t => t.dev.linkAnswer = s.mem.readBytes (addr / 8 * 8) 8 ∧ t.mem = s.mem := by
  intro s ⟨hlink, hstage, hmoving, htouch, hpoison⟩
  have hlow : addr < 2 ^ 52 := Nat.lt_trans (inGddr_lt hin) (by decide)
  have hmem : s1.mem = s.mem := State.data_mem (State.touchLine?_data htouch)
  refine ⟨_, hostLinkAccess_read hlink hlow, ?_⟩
  unfold State.hostRead
  dsimp only
  rw [hmoving, hin, decide_eq_false (Nat.not_lt.2 hstage), if_neg (by simp), htouch]
  dsimp only
  rw [hpoison, if_neg Bool.false_ne_true]
  exact ⟨congrArg (fun m : Memory => m.readBytes (addr / 8 * 8) 8) hmem, hmem⟩

/-! ### BAR0 -/

theorem barWrite_happens (off : Nat) (bs : List Byte) (hlen : bs.length = 8) (halign : off % 8 = 0) (hoff : off < 2 ^ 52) :
    Happens (.hostLinkAccess (2 ^ 52 + off) (some bs)) (fun s => s.LinkCarries (2 ^ 52 + off)) fun s => s.pfWrite off (BitVec.ofNat 64 (leNat bs)) := by
  intro s hlink
  rw [hostLinkAccess_barWrite hlink (by omega), show (2 ^ 52 + off) / 2 ^ 52 - 1 = 0 by omega, show (2 ^ 52 + off) % 2 ^ 52 = off by omega]
  unfold State.barWrite
  dsimp only
  rw [hlen, halign]
  rfl

/-- The mailbox answers four entries of the indirection table. -/
theorem barRead_mailbox_brings (b : Nat) (halign : b % 4 = 0) (hend : b + 4 ≤ Config.buckets) : Brings (.hostLinkAccess (2 ^ 52 * 258 + 2 * b) none)
    (fun s => s.LinkCarries (2 ^ 52 * 258 + 2 * b) ∧ 2 ≤ s.dev.stage)
    fun s t => t.dev.linkAnswer = (List.range 4).flatMap fun i => leBytes 2 (s.bucket (b + i)).entry := by
  intro s ⟨hlink, hstage⟩
  have hbuckets : b + 4 ≤ 4096 := hend
  refine ⟨_, hostLinkAccess_barRead hlink (by omega), ?_⟩
  rw [show (2 ^ 52 * 258 + 2 * b) / 2 ^ 52 - 1 = 257 by omega, show (2 ^ 52 * 258 + 2 * b) % 2 ^ 52 / 8 * 8 = 2 * b by omega]
  show s.mailboxRead (2 * b) = _
  unfold State.mailboxRead
  rw [decide_eq_false (Nat.not_lt.2 hstage), decide_eq_false (by omega), if_neg (by simp), show 2 * b / 2 = b by omega]

end Sys2Proof.Machine
end

section
/-!
SUPPORT. What the accesses of the front end, writes at the slices, and error records leave.
-/
namespace Sys2Proof.Machine

/-! ### Writes -/

/-- What reading leaves, but for the bytes of memory: writing leaves it too. -/
def State.rest (s : State) := ({ s with mem := [] } : State).data

theorem State.rest_of_data {s t : State} (h : s.data = t.data) : s.rest = t.rest :=
  congrArg (fun d => ((([], d.1.1.2), d.1.2), d.2)) h

theorem State.rest_dev {s t : State} (h : s.rest = t.rest) : s.dev = t.dev :=
  State.data_dev (s := { s with mem := [] }) (t := { t with mem := [] }) h
theorem State.rest_heads {s t : State} (h : s.rest = t.rest) : s.heads = t.heads :=
  State.data_heads (s := { s with mem := [] }) (t := { t with mem := [] }) h
theorem State.rest_launches {s t : State} (h : s.rest = t.rest) : s.launches.map (·.id) = t.launches.map (·.id) :=
  State.data_launches (s := { s with mem := [] }) (t := { t with mem := [] }) h
theorem State.rest_part {s t : State} (h : s.rest = t.rest) (p : Nat) : (s.part p).still = (t.part p).still := State.data_part h p

@[simp] theorem State.dropWalks_data (s : State) (core req : Nat) : (s.dropWalks core req).data = s.data := by
  unfold State.dropWalks
  dsimp only
  split
  · rfl
  · rfl

@[simp] theorem State.performWrites_rest (s : State) (p : Nat) (bs : List ByteWrite) (poisoned nt : Bool) (keep : Option (Nat × Nat)) :
    (s.performWrites p bs poisoned nt keep).rest = s.rest := by
  unfold State.performWrites
  extract_lets bs' lines s0 s1 s2 words s3 hosts s4
  have h0 : s0.data = s.data := by
    unfold s0
    split
    · rfl
    · exact State.foldl_data State.sealBlock_data _ _
  have h1 : s1.rest = s.rest := State.rest_of_data ((State.foldl_data (fun t l => State.markLine_data t p l _ poisoned nt) lines s0).trans h0)
  have h3 : s3.rest = s1.rest := by
    unfold s3
    split
    · rfl
    · split
      · rfl
      · rfl
  have h4 : s4.rest = s3.rest := by
    unfold s4
    split
    · rfl
    · rfl
  rw [← h1, ← h3, ← h4]
  exact List.foldlRecOn lines _ (motive := fun t : State => t.rest = s4.rest) rfl fun _ ht _ _ => ht

@[simp] theorem State.writePhys_rest (s : State) (p pa : Nat) (bs : List Byte) (poisoned : Bool) : (s.writePhys p pa bs poisoned).rest = s.rest := by
  rw [State.writePhys_eq, State.performWrites_rest]
  exact State.rest_of_data (s.guestsGone_data pa bs.length)

/-! ### Accesses of the front end -/

@[simp] theorem State.frontLine_data (s : State) (r : Reader) (k : LineKey) : (s.frontLine r k).1.data = s.data := by
  unfold State.frontLine
  split
  next l =>
    split
    · exact State.lineReady_data s r _
    · split
      · rfl
      · split
        next s1 h => exact State.touchLine?_data h
        next => rfl
  next => exact State.lineReady_data s r _

@[simp] theorem State.frontRead_data (s : State) (r : Reader) (va : DWord) (n : Nat) : (s.frontRead r va n).1.data = s.data := by
  have hloc := State.locate_data s r false va n
  unfold State.frontRead
  split
  next s1 h => rw [h] at hloc; exact hloc
  next s1 cls _ h => rw [h] at hloc; exact (State.dropWalks_data ..).trans hloc
  next s1 ls h =>
    rw [h] at hloc
    have hfold : ∀ (rd : Reader) (keys : List LineKey) (acc : State × List LineOut),
        (keys.foldl (fun acc k => ((acc.1.frontLine rd k).1, acc.2 ++ [(acc.1.frontLine rd k).2])) acc).1.data = acc.1.data := fun rd keys acc =>
      List.foldlRecOn keys _ (motive := fun x : State × List LineOut => x.1.data = acc.1.data) rfl fun x hx k _ => (State.frontLine_data ..).trans hx
    dsimp only
    split
    · exact (hfold ..).trans hloc
    · split
      · exact (State.dropWalks_data ..).trans ((hfold ..).trans hloc)
      · exact (State.dropWalks_data ..).trans ((hfold ..).trans hloc)

@[simp] theorem State.frontWrite_rest (s : State) (r : Reader) (va : DWord) (bs : List Byte) : (s.frontWrite r va bs).1.rest = s.rest := by
  have hloc := State.rest_of_data (State.locate_data s r true va bs.length)
  have hdrop : ∀ t : State, (t.dropWalks r.core r.op).rest = t.rest := fun t => State.rest_of_data (State.dropWalks_data ..)
  unfold State.frontWrite
  split
  next s1 h => rw [h] at hloc; exact hloc
  next s1 cls _ h => rw [h] at hloc; exact (hdrop s1).trans hloc
  next s1 ls h =>
    rw [h] at hloc
    dsimp only
    split
    · exact (hdrop s1).trans hloc
    · split
      · exact hloc
      · exact (State.performWrites_rest ..).trans ((State.rest_of_data (State.foldl_data State.dropGuests_data _ _)).trans ((hdrop s1).trans hloc))

/-! ### Error records -/

/-- The device without its error ring and the interrupts that it has raised. -/
def Device.quiet (d : Device) : Device := { d with errRing := [], errProd := 0, errBuf := [], errLost := 0, irqs := [] }

@[simp] theorem State.irq_quiet (s : State) (p vec : Nat) : (s.irq p vec).dev.quiet = s.dev.quiet := rfl

@[simp] theorem State.deviceRecord_quiet (s : State) (r : BitVec 256) : (s.deviceRecord r).dev.quiet = s.dev.quiet := by
  obtain ⟨m, ring, prod, buf, lost, irqs, h⟩ := s.deviceRecord_only r
  rw [h]
  rfl

theorem State.writeRing_dev (s : State) (part : Nat) (va : DWord) (bs : List Byte) :
    (∀ t, s.writeRing part va bs = .written t → t.dev = s.dev) ∧ ∀ t, s.writeRing part va bs = .wait t → t.dev = s.dev := by
  unfold State.writeRing
  extract_lets core k
  split
  · split
    · exact ⟨fun t h => (by cases h), fun t h => (by cases h; rfl)⟩
    · refine ⟨fun t h => ?_, fun t h => by cases h⟩
      cases h
      exact (State.rest_dev (State.writePhys_rest ..)).trans ((State.data_dev (State.touchWalk_data ..)).trans (State.dropWalks_dev ..))
  · exact ⟨fun t h => (by cases h), fun t h => by cases h; exact State.data_dev (State.requestWalk_data ..)⟩
  · exact ⟨fun t h => (by cases h), fun t h => by cases h⟩

@[simp] theorem State.partRecord_quiet (s : State) (part : Nat) (r : BitVec 256) : (s.partRecord part r).dev.quiet = s.dev.quiet := by
  unfold State.partRecord
  extract_lets p lost hold x va
  have hlost : ∀ t, (lost t).dev = t.dev := fun _ => rfl
  have hhold : ∀ t, (hold t).dev = t.dev := fun t => by
    unfold hold
    split
    · rfl
    · exact hlost t
  split
  · split
    next s1 h =>
      refine Eq.trans ?_ (congrArg Device.quiet ((State.writeRing_dev ..).1 s1 h))
      extract_lets s2
      split
      · rfl
      · rfl
    next s1 h => exact congrArg Device.quiet ((hhold s1).trans ((State.writeRing_dev ..).2 s1 h))
    next h => exact congrArg Device.quiet ((hlost _).trans (State.dropWalks_dev ..))
  · exact congrArg Device.quiet (hhold s)

@[simp] theorem State.record_quiet (s : State) (r : ErrRec) : (s.record r).dev.quiet = s.dev.quiet := by
  unfold State.record
  dsimp only
  split
  · exact (State.partRecord_quiet ..).trans (State.deviceRecord_quiet ..)
  · exact State.deviceRecord_quiet ..

end Sys2Proof.Machine
end

section
/-!
PROOF. Attestation, debug tokens, and what an attached debugger reaches; errors of links, host accesses and security events as a whole.
-/
namespace Sys2Proof.Machine

/-! ### The responder -/

theorem State.respond_of_answers {s : State} {r : SpdmReq} (h : s.Answers r) (a : SpdmAnswer) : s.respond r a = s.answered a := by
  obtain ⟨hstage, hfrom⟩ := h
  unfold State.respond
  rw [hfrom, decide_eq_true hstage]
  rfl

theorem State.bothFailed_of_answers {s : State} {r : SpdmReq} (h : s.Answers r) : s.bothFailed = false := by
  have hstage : (s.dev.stage == 0) = false := beq_eq_false_iff_ne.2 fun h0 => by
    have := h.1
    omega
  unfold State.bothFailed
  rw [hstage]
  rfl

theorem State.respondAlways_of_answers {s : State} {r : SpdmReq} (h : s.Answers r) (a : SpdmAnswer) : s.respondAlways r a = s.answered a := by
  unfold State.respondAlways
  rw [State.bothFailed_of_answers h]
  exact State.respond_of_answers h a

theorem State.Answers.gate {s : State} {r : SpdmReq} (h : s.Answers r) : (decide (s.dev.stage ≥ 2) && s.requesterOk r.from_) = true := by
  rw [h.2, Bool.and_true]
  exact decide_eq_true h.1

theorem State.requesterOk_of_parts {s t : State} (h : t.parts = s.parts) (r : Requester) : t.requesterOk r = s.requesterOk r := by
  cases r with
  | pf => rfl
  | vf n => exact congrArg (fun l : Tab Partition => ((l.find? fun p => p.2.valid && (List.range 8).any fun i =>
      p.2.vfMask.getLsbD i && (p.2.vfs.getD i 0).toNat = n).map (·.1)).isSome) h

/-! ### The debug state -/

theorem State.setDebug_quiet (s : State) (d : DebugState) (part : Option Nat) :
    (s.setDebug d part).dev.quiet = ({ s.dev with debug := d, debugPart := part } : Device).quiet := by
  unfold State.setDebug
  dsimp only
  split
  · rfl
  · exact State.record_quiet _ _

theorem Device.quiet_congr {α : Type} {d e : Device} (h : d.quiet = e.quiet) (f : Device → α) (hf : ∀ x : Device, f x.quiet = f x) : f d = f e := by
  rw [← hf d, h, hf e]

theorem State.endDebug_quiet (s : State) : s.endDebug.dev.quiet =
    ({ s.dev with debugFrom := none, pendingInvasive := none, debug := .none, debugPart := none } : Device).quiet :=
  State.setDebug_quiet _ _ _

theorem State.endDebug_parts (s : State) : s.endDebug.parts = s.parts := by
  unfold State.endDebug State.setDebug
  dsimp only
  split
  · rfl
  · exact State.record_parts _ _ rfl

/-! ### Sessions -/

/-- The sessions of a list that are not a requester's. -/
def otherSessions (l : List Session) (r : Requester) : List Session := l.filter fun x => x.from_ ≠ r

theorem otherSessions_same (l : List Session) (r : Requester) : (otherSessions l r).find? (fun x => x.from_ = r) = none := by
  refine List.find?_eq_none.2 fun x hx => ?_
  simpa using (List.mem_filter.1 hx).2

theorem otherSessions_ne (l : List Session) {r q : Requester} (h : q ≠ r) :
    (otherSessions l r).find? (fun x => x.from_ = q) = l.find? fun x => x.from_ = q := by
  unfold otherSessions
  rw [List.find?_filter]
  refine congrArg (fun p => l.find? p) (funext fun x => ?_)
  by_cases hx : x.from_ = q
  · simp [hx, h]
  · simp [hx]

theorem State.endSession_dev (s : State) (r : Requester) {α : Type} (f : Device → α) (hf : ∀ x : Device, f x.quiet = f x)
    (hd : ∀ (d : Device), f { d with debugFrom := none, pendingInvasive := none, debug := .none, debugPart := none } = f d) :
    f (s.endSession r).dev = f { s.dev with sessions := otherSessions s.dev.sessions r } := by
  unfold State.endSession
  dsimp only
  split
  · exact (Device.quiet_congr (State.endDebug_quiet _) f hf).trans (hd _)
  · rfl

theorem State.endSession_parts (s : State) (r : Requester) : (s.endSession r).parts = s.parts := by
  unfold State.endSession
  dsimp only
  split
  · exact State.endDebug_parts _
  · rfl

/-- The debug state that was asked for in a session ends with it. -/
theorem State.endSession_debug {s : State} {r : Requester} (h : s.dev.debugFrom = some r) :
    (s.endSession r).dev.debug = .none ∧ (s.endSession r).dev.debugPart = none := by
  unfold State.endSession
  dsimp only
  rw [if_pos h]
  exact ⟨Device.quiet_congr (State.endDebug_quiet _) Device.debug fun _ => rfl, Device.quiet_congr (State.endDebug_quiet _) Device.debugPart fun _ => rfl⟩

theorem State.endSession_sessions (s : State) (r : Requester) : (s.endSession r).dev.sessions = otherSessions s.dev.sessions r :=
  s.endSession_dev r Device.sessions (fun _ => rfl) fun _ => rfl

theorem State.endSession_answers (s : State) (r : Requester) : (s.endSession r).dev.answers = s.dev.answers :=
  s.endSession_dev r Device.answers (fun _ => rfl) fun _ => rfl

theorem State.Answers.endSession {s : State} {req : SpdmReq} (h : s.Answers req) (r : Requester) : (s.endSession r).Answers req := by
  refine ⟨?_, (State.requesterOk_of_parts (s.endSession_parts r) _).trans h.2⟩
  rw [s.endSession_dev r Device.stage (fun _ => rfl) fun _ => rfl]
  exact h.1

theorem keyExchange_brings (req : SpdmReq) : Brings (.keyExchange req) (fun s => s.Answers req)
    fun s t => ∃ n, t.sessionOf req.from_ = some ⟨req.from_, n, false⟩ ∧ t.dev.answers = s.dev.answers ++ [.session n] ∧
      (∀ r, r ≠ req.from_ → t.sessionOf r = s.sessionOf r) ∧
      (s.dev.debugFrom = some req.from_ → t.dev.debug = .none ∧ t.dev.debugPart = none) := by
  intro s h
  refine ⟨_, rfl, Config.random s.freeCtr, ?_⟩
  have hanswers : State.Answers { s.endSession req.from_ with dev := { (s.endSession req.from_).dev with
      sessions := (s.endSession req.from_).dev.sessions ++ [⟨req.from_, Config.random s.freeCtr, false⟩] } } req := h.endSession req.from_
  dsimp only
  rw [if_pos h.gate, State.respond_of_answers hanswers]
  have hfind : ∀ r, ((s.endSession req.from_).dev.sessions ++ [(⟨req.from_, Config.random s.freeCtr, false⟩ : Session)]).find? (fun x => x.from_ = r) =
      ((otherSessions s.dev.sessions req.from_).find? (fun x => x.from_ = r)).or (if req.from_ = r then some (⟨req.from_, Config.random s.freeCtr, false⟩ : Session) else none) := by
    intro r
    rw [State.endSession_sessions, List.find?_append]
    refine congrArg _ ?_
    by_cases hr : req.from_ = r
    · simp [hr]
    · simp [hr]
  refine ⟨(hfind _).trans ?_, congrArg (· ++ _) (s.endSession_answers _), fun r hr => (hfind r).trans ?_, fun hdebug => State.endSession_debug hdebug⟩
  · rw [otherSessions_same, if_pos rfl]
    rfl
  · rw [otherSessions_ne _ hr, if_neg (Ne.symm hr), Option.or_none]
    rfl

theorem finish_brings (req : SpdmReq) : Brings (.finish req) (fun s => s.Answers req ∧ (s.sessionOf req.from_).isSome = true)
    fun s t => t.inSession req.from_ = true ∧ t.dev.answers = s.dev.answers ++ [.finished] ∧ ∀ r, r ≠ req.from_ → t.sessionOf r = s.sessionOf r := by
  intro s ⟨h, hsession⟩
  refine ⟨_, rfl, ?_⟩
  have hanswers : State.Answers { s with dev := { s.dev with
      sessions := s.dev.sessions.map fun x => if x.from_ = req.from_ then { x with ready := true } else x } } req := h
  dsimp only
  rw [if_pos h.gate, if_pos hsession, State.respond_of_answers hanswers]
  have hfind : ∀ r, (s.dev.sessions.map fun x => if x.from_ = req.from_ then { x with ready := true } else x).find? (fun x => x.from_ = r) =
      (s.dev.sessions.find? fun x => x.from_ = r).map fun x => if x.from_ = req.from_ then { x with ready := true } else x := by
    intro r
    rw [List.find?_map]
    refine congrArg (fun p => (s.dev.sessions.find? p).map _) (funext fun x => ?_)
    simp only [Function.comp_apply, apply_ite Session.from_, ite_self]
  refine ⟨?_, rfl, fun r hr => (hfind r).trans ?_⟩
  · obtain ⟨x, hx⟩ := Option.isSome_iff_exists.1 hsession
    have hfrom : x.from_ = req.from_ := by simpa using List.find?_some hx
    show ((s.dev.sessions.map _).find? _).any _ = true
    rw [hfind req.from_, show s.dev.sessions.find? (fun x => x.from_ = req.from_) = some x from hx]
    simp [hfrom]
  · show (s.sessionOf r).map _ = s.sessionOf r
    cases hx : s.sessionOf r with
    | none => rfl
    | some x =>
      have hfrom : x.from_ = r := by simpa using List.find?_some hx
      simp [hfrom, hr]

theorem endSession_brings (req : SpdmReq) : Brings (.endSession req) (fun s => s.Answers req ∧ s.inSession req.from_ = true)
    fun s t => t.sessionOf req.from_ = none ∧ t.dev.answers = s.dev.answers ++ [.ended] ∧ (∀ r, r ≠ req.from_ → t.sessionOf r = s.sessionOf r) ∧
      (s.dev.debugFrom = some req.from_ → t.dev.debug = .none ∧ t.dev.debugPart = none) := by
  intro s ⟨h, hsession⟩
  refine ⟨_, rfl, ?_⟩
  rw [h.gate, hsession, if_pos (by rfl), State.respond_of_answers (h.endSession req.from_)]
  have hfind : ∀ r, ((s.endSession req.from_).answered .ended).sessionOf r = (otherSessions s.dev.sessions req.from_).find? fun x => x.from_ = r :=
    fun r => congrArg (fun l : List Session => l.find? fun x : Session => x.from_ = r) (s.endSession_sessions req.from_)
  exact ⟨(hfind _).trans (otherSessions_same _ _), congrArg (· ++ _) (s.endSession_answers _), fun r hr => (hfind r).trans (otherSessions_ne _ hr),
    fun hdebug => State.endSession_debug hdebug⟩

end Sys2Proof.Machine
end

section
/-!
PROOF. Debug tokens and the debugger; errors of links, host accesses, attestation and debug as a whole.
-/
namespace Sys2Proof.Machine

/-! ### Debug tokens -/

/-- The device once it has taken a token of a requester, but for the debug state. -/
def Device.tokened (d : Device) (r : Requester) : Device :=
  { d with
    debugged := true, security := if d.security == .development then .development else .debugAuthorised, debugFrom := some r
    pendingInvasive := none }

/-- A token of NONE or TRACE, or one of INVASIVE on a development device, sets the debug state. -/
theorem State.takeToken_sets {s : State} {r : Requester} {t : DebugToken} (h : t.state = .invasive → s.dev.security = .development) :
    (s.takeToken r t).dev.quiet = ({ s.dev.tokened r with
      debug := t.state, debugPart := if t.state = .none then none else some t.part } : Device).quiet := by
  unfold State.takeToken
  dsimp only
  cases hstate : t.state with
  | none => exact State.setDebug_quiet _ _ _
  | trace => exact State.setDebug_quiet _ _ _
  | invasive =>
    dsimp only
    rw [if_pos (beq_iff_eq.2 (h hstate))]
    exact State.setDebug_quiet _ _ _

/-- Otherwise a token of INVASIVE waits. -/
theorem State.takeToken_waits {s : State} {r : Requester} {t : DebugToken} (h : t.state = .invasive) (hdev : s.dev.security ≠ .development) :
    (s.takeToken r t).dev = { s.dev.tokened r with pendingInvasive := some t.part } := by
  unfold State.takeToken
  dsimp only
  rw [h]
  dsimp only
  rw [if_neg (by simpa using hdev)]
  rfl

theorem State.respond_dev (s : State) (r : SpdmReq) (a : SpdmAnswer) {α : Type} (f : Device → α) (hf : ∀ (d : Device) l, f { d with answers := l } = f d) :
    f (s.respond r a).dev = f s.dev := by
  unfold State.respond
  split
  · exact hf _ _
  · rfl

theorem State.Answers.opens {s : State} {r : SpdmReq} (h : s.Answers r) : (decide (s.dev.stage < 2) || !s.requesterOk r.from_) = false := by
  rw [h.2, decide_eq_false (Nat.not_lt.2 h.1)]
  rfl

theorem vendorDefinedRequest_accepts {req : SpdmReq} {token : DebugToken} {s : State} (h : s.Answers req) (hsession : s.inSession req.from_ = true)
    (htoken : s.tokenOk req.from_ token = true) :
    exec (.vendorDefinedRequest req token) s = .next ((s.takeToken req.from_ token).respond req .tokenAccepted) := by
  show execVendorDefinedRequest req token s = _
  unfold execVendorDefinedRequest
  rw [if_neg (Bool.eq_false_iff.1 h.opens), hsession, htoken, if_pos (by rfl)]

theorem vendorDefinedRequest_brings (req : SpdmReq) (token : DebugToken) : Brings (.vendorDefinedRequest req token)
    (fun s => s.Answers req ∧ s.inSession req.from_ = true ∧ s.tokenOk req.from_ token = true)
    fun s t => t.dev.debugged = true ∧ t.dev.debugFrom = some req.from_ ∧ (token.state = .none → t.dev.debug = .none) ∧
      (token.state = .trace → t.dev.debug = .trace ∧ t.dev.debugPart = some token.part) ∧
      (token.state = .invasive → s.dev.security ≠ .development → t.dev.debug = s.dev.debug ∧ t.dev.pendingInvasive = some token.part) := by
  intro s ⟨h, hsession, htoken⟩
  refine ⟨_, vendorDefinedRequest_accepts h hsession htoken, ?_⟩
  have hdev := fun {α : Type} => @State.respond_dev (s.takeToken req.from_ token) req .tokenAccepted α
  by_cases hwaits : token.state = .invasive ∧ s.dev.security ≠ .development
  · have htake := State.takeToken_waits (r := req.from_) hwaits.1 hwaits.2
    refine ⟨(hdev Device.debugged fun _ _ => rfl).trans (congrArg _ htake), (hdev Device.debugFrom fun _ _ => rfl).trans (congrArg _ htake), fun hs => ?_,
      fun hs => ?_, fun _ _ => ⟨(hdev Device.debug fun _ _ => rfl).trans ((congrArg Device.debug htake).trans rfl),
        (hdev Device.pendingInvasive fun _ _ => rfl).trans ((congrArg Device.pendingInvasive htake).trans rfl)⟩⟩
    · rw [hwaits.1] at hs
      cases hs
    · rw [hwaits.1] at hs
      cases hs
  · have hq := fun {α : Type} => @Device.quiet_congr α _ _ (State.takeToken_sets (r := req.from_) (t := token) fun hs =>
      Classical.byContradiction fun hne => hwaits ⟨hs, hne⟩)
    refine ⟨(hdev Device.debugged fun _ _ => rfl).trans (hq _ fun _ => rfl), (hdev Device.debugFrom fun _ _ => rfl).trans (hq _ fun _ => rfl),
      fun hs => ((hdev Device.debug fun _ _ => rfl).trans (hq _ fun _ => rfl)).trans hs,
      fun hs => ⟨((hdev Device.debug fun _ _ => rfl).trans (hq _ fun _ => rfl)).trans hs,
        ((hdev Device.debugPart fun _ _ => rfl).trans (hq _ fun _ => rfl)).trans (if_neg (by rw [hs]; decide))⟩,
      fun hs hne => absurd ⟨hs, hne⟩ hwaits⟩

theorem vendorDefinedRequest_refuses (req : SpdmReq) (token : DebugToken) : Happens (.vendorDefinedRequest req token)
    (fun s => s.Answers req ∧ (s.inSession req.from_ = false ∨ s.tokenOk req.from_ token = false)) fun s => s.answered .error := by
  intro s ⟨h, hno⟩
  have hbad : (s.inSession req.from_ && s.tokenOk req.from_ token) = false := by
    obtain hs | ht := hno
    · rw [hs, Bool.false_and]
    · rw [ht, Bool.and_false]
  show execVendorDefinedRequest req token s = _
  unfold execVendorDefinedRequest
  rw [if_neg (Bool.eq_false_iff.1 h.opens), if_neg (Bool.eq_false_iff.1 hbad), State.respond_of_answers h]

/-! ### INVASIVE -/

/-- With every other partition gone, the token takes effect, and a power state that waits is entered. -/
theorem State.enterInvasive_alone {s : State} {p : Nat} (hp : s.dev.pendingInvasive = some p) (halone : ∀ e ∈ s.parts, e.1 ≠ p → e.2.valid = false) :
    s.enterInvasive =
      let s2 := ({ s with dev := { s.dev with pendingInvasive := none, pendingPower := none } } : State).setDebug .invasive (some p)
      match s.dev.pendingPower with
      | some x => s2.enterPower x
      | none => s2 := by
  have hnone : s.parts.filter (fun e => e.1 ≠ p && e.2.valid) = [] := by
    refine List.filter_eq_nil_iff.2 fun e he => ?_
    by_cases hep : e.1 = p
    · simp [hep]
    · simp [halone e he hep]
  unfold State.enterInvasive
  rw [hp]
  simp only [hnone, List.map_nil, List.foldl_nil, List.isEmpty_nil, Bool.not_true, Bool.false_eq_true, if_false]
    <;> rfl

theorem invasiveDebugEntry_brings (p : Nat) : Brings .invasiveDebugEntry
    (fun s => s.dev.pendingInvasive = some p ∧ s.dev.pendingPower = none ∧ ∀ e ∈ s.parts, e.1 ≠ p → e.2.valid = false)
    fun _ t => t.dev.debug = .invasive ∧ t.dev.debugPart = some p ∧ t.dev.pendingInvasive = none := by
  intro s ⟨hp, hpower, halone⟩
  refine ⟨_, rfl, ?_⟩
  rw [State.enterInvasive_alone hp halone, hpower]
  have hq := fun {α : Type} => @Device.quiet_congr α _ _ (State.setDebug_quiet ({ s with dev := { s.dev with
    pendingInvasive := none, pendingPower := none } } : State) .invasive (some p))
  exact ⟨hq Device.debug fun _ => rfl, hq Device.debugPart fun _ => rfl, hq Device.pendingInvasive fun _ => rfl⟩

/-- D3HOT with debug in use: the device without its ring. -/
theorem State.enterHot_quiet {s : State} (h : s.dev.debug ≠ .none) : s.enterHot.dev.quiet = ({ s.dev with
    sessions := [], power := .d3hot, debugFrom := none, pendingInvasive := none, debug := .none, debugPart := none } : Device).quiet := by
  unfold State.enterHot
  rw [if_neg h]
  exact State.endDebug_quiet _

theorem invasiveDebugEntry_enters_d3hot (p : Nat) : Brings .invasiveDebugEntry
    (fun s => s.dev.pendingInvasive = some p ∧ s.dev.pendingPower = some .d3hot ∧ s.dev.railOn = true ∧ ∀ e ∈ s.parts, e.1 ≠ p → e.2.valid = false)
    fun _ t => t.dev.power = .d3hot ∧ t.dev.debug = .none ∧ t.dev.sessions = [] ∧ t.dev.pendingInvasive = none ∧ t.dev.pendingPower = none := by
  intro s ⟨hp, hpower, hrail, halone⟩
  refine ⟨_, rfl, ?_⟩
  rw [State.enterInvasive_alone hp halone, hpower]
  dsimp only
  generalize hs2 : ({ s with dev := { s.dev with pendingInvasive := none, pendingPower := none } } : State).setDebug .invasive (some p) = s2
  have hq := fun {α : Type} => @Device.quiet_congr α _ _ (hs2 ▸ State.setDebug_quiet ({ s with dev := { s.dev with
    pendingInvasive := none, pendingPower := none } } : State) .invasive (some p))
  have hdebug : s2.dev.debug ≠ .none := by
    rw [hq Device.debug fun _ => rfl]
    show DebugState.invasive ≠ .none
    decide
  have henter : s2.enterPower .d3hot = s2.enterHot := by
    unfold State.enterPower
    rw [show s2.dev.railOn = true from (hq Device.railOn fun _ => rfl).trans hrail, hq Device.pendingInvasive fun _ => rfl]
    rfl
  rw [henter]
  have hh := fun {α : Type} => @Device.quiet_congr α _ _ (State.enterHot_quiet hdebug)
  exact ⟨hh Device.power fun _ => rfl, hh Device.debug fun _ => rfl, hh Device.sessions fun _ => rfl, hh Device.pendingInvasive fun _ => rfl,
    (hh Device.pendingPower fun _ => rfl).trans (hq Device.pendingPower fun _ => rfl)⟩

/-! ### The debugger -/

theorem debuggerRequest_eq (req : DebugReq) (s : State) : exec (.debuggerRequest req) s = .next ((s.debugBy req).debugged req) := rfl

/-- A request of INVASIVE, in that state or on a device that is no development device. -/
theorem State.debugBy_invasive {s : State} {req : DebugReq} (hreq : tracing req = false) (h : s.dev.security ≠ .development ∨ s.dev.debug = .invasive) :
    s.debugBy req = s := by
  unfold State.debugBy
  rw [hreq]
  split
  · rfl
  next hdev =>
    rw [if_neg Bool.false_ne_true]
    exact if_pos (h.resolve_left hdev)

theorem State.debugBy_trace {s : State} {req : DebugReq} (hreq : tracing req = true) (h : s.dev.debug = .trace) : s.debugBy req = s := by
  unfold State.debugBy
  rw [hreq, if_pos rfl, if_pos h, ite_self]

theorem State.debugs_invasive {s : State} {part : Nat} (h : s.debugs part = true) : s.dev.debug = .invasive :=
  beq_iff_eq.1 (Bool.and_eq_true_iff.1 h).1

theorem State.traces_trace {s : State} {part : Nat} (h : s.traces part = true) : s.dev.debug = .trace :=
  beq_iff_eq.1 (Bool.and_eq_true_iff.1 h).1

/-- A request that acts on a wave that the debugger reaches. -/
theorem debuggerRequest_wave {req : DebugReq} {core slot : Nat} {g : Wave → Wave} (hreq : tracing req = false)
    (hact : ∀ s : State, s.debugged req = s.debugWave core slot g) {s : State} {w : Wave} (hw : s.wave? core slot = some w) (h : s.debugs w.part = true) :
    exec (.debuggerRequest req) s = .next (s.setWave core slot (g w)) := by
  rw [debuggerRequest_eq, State.debugBy_invasive hreq (.inr (State.debugs_invasive h)), hact]
  unfold State.debugWave
  rw [State.modWave_eq hw, if_pos h]

/-- A request that reads something of such a wave. -/
theorem debuggerRequest_reads {req : DebugReq} {core slot : Nat} {g : Wave → Option Nat} (hreq : tracing req = false)
    (hact : ∀ s : State, s.debugged req = s.debugRead core slot g) {s : State} {w : Wave} {x : Nat} (hw : s.wave? core slot = some w)
    (h : s.debugs w.part = true) (hx : g w = some x) : exec (.debuggerRequest req) s = .next (s.debugData x) := by
  rw [debuggerRequest_eq, State.debugBy_invasive hreq (.inr (State.debugs_invasive h)), hact]
  unfold State.debugRead
  rw [hw]
  dsimp only
  rw [if_pos h, hx]
  rfl

/-- A halt of a wave that the debugger does not reach leaves it. -/
theorem debuggerRequest_unreached (core slot : Nat) (w : Wave) : Happens (.debuggerRequest (.halt core slot))
    (fun s => s.dev.security ≠ .development ∧ s.wave? core slot = some w ∧ s.debugs w.part = false) fun s => s.setWave core slot w := by
  intro s ⟨hdev, hw, h⟩
  rw [debuggerRequest_eq, State.debugBy_invasive rfl (.inl hdev)]
  show Host.Outcome.next (s.debugWave core slot _) = _
  unfold State.debugWave
  rw [State.modWave_eq hw, if_neg (by simp [h])]

theorem debuggerRequest_readMem (part : Nat) (va : DWord) (b : Byte) : Happens (.debuggerRequest (.readMem part va))
    (fun s => s.debugs part = true ∧ s.lustreBytes part va 1 = some [b]) fun s => { s with dev := { s.dev with dbgData := BitVec.ofNat 64 b.toNat } } := by
  intro s ⟨h, hb⟩
  rw [debuggerRequest_eq, State.debugBy_invasive rfl (.inr (State.debugs_invasive h))]
  show Host.Outcome.next (if s.debugs part then _ else s) = _
  rw [if_pos h, hb]
  rfl

theorem debuggerRequest_writeMem (part : Nat) (va : DWord) (b : Byte) (s1 : State) : Happens (.debuggerRequest (.writeMem part va b))
    (fun s => s.debugs part = true ∧ s.writeVirt part va [b] = some s1) fun _ => s1 := by
  intro s ⟨h, hw⟩
  rw [debuggerRequest_eq, State.debugBy_invasive rfl (.inr (State.debugs_invasive h))]
  show Host.Outcome.next (if s.debugs part then _ else s) = _
  rw [if_pos h, hw]
  rfl

theorem debuggerRequest_readTile (core : Nat) (n : BitVec 3) (byte : BitVec 13) : Happens (.debuggerRequest (.readTile core n byte))
    (fun s => s.dev.debug = .invasive ∧ s.debugsCore core = true)
    fun s => s.debugData ((s.tile core n.toNat).bytes.get 0 byte.toNat).toNat := by
  intro s ⟨hdebug, h⟩
  rw [debuggerRequest_eq, State.debugBy_invasive rfl (.inr hdebug)]
  exact congrArg _ (if_pos h)

theorem debuggerRequest_writeTile (core : Nat) (n : BitVec 3) (byte : BitVec 13) (v : Byte) : Brings (.debuggerRequest (.writeTile core n byte v))
    (fun s => s.dev.debug = .invasive ∧ s.debugsCore core = true)
    fun s t => (t.tile core n.toNat).bytes.get 0 byte.toNat = v ∧ ∀ j, j ≠ byte.toNat →
      (t.tile core n.toNat).bytes.get 0 j = (s.tile core n.toNat).bytes.get 0 j := by
  intro s ⟨hdebug, h⟩
  refine ⟨_, debuggerRequest_eq _ s, ?_⟩
  rw [State.debugBy_invasive rfl (.inr hdebug)]
  have hacts : s.debugged (.writeTile core n byte v) = s.setCore core { s.core core with
      tiles := (s.core core).tiles.put n.toNat { s.tile core n.toNat with bytes := (s.tile core n.toNat).bytes.put byte.toNat v } } := if_pos h
  have htile : (s.debugged (.writeTile core n byte v)).tile core n.toNat =
      { s.tile core n.toNat with bytes := (s.tile core n.toNat).bytes.put byte.toNat v } := by
    rw [hacts]
    unfold State.tile
    rw [State.core_setCore_same]
    exact Tab.get_put_same _ _ _ _
  dsimp only
  rw [htile]
  exact ⟨Tab.get_put_same _ _ _ _, fun j hj => Tab.get_put_ne _ _ _ hj⟩

theorem debuggerRequest_trace (core slot : Nat) (w : Wave) (f : Fragment) : Happens (.debuggerRequest (.trace core slot))
    (fun s => s.wave? core slot = some w ∧ s.traces w.part = true ∧ w.frag? w.cur = some f) fun s => s.debugData f.pc.toNat := by
  intro s ⟨hw, h, hf⟩
  rw [debuggerRequest_eq, State.debugBy_trace rfl (State.traces_trace h)]
  unfold State.debugged
  dsimp only
  rw [hw]
  dsimp only
  rw [if_pos h, hf]
  rfl

theorem debuggerRequest_count (core p : Nat) : Happens (.debuggerRequest (.count core))
    (fun s => s.partAt core = some p ∧ s.traces p = true) fun s => s.debugData (s.core core).cycles.toNat := by
  intro s ⟨hp, h⟩
  rw [debuggerRequest_eq, State.debugBy_trace rfl (State.traces_trace h)]
  unfold State.debugged
  exact congrArg _ (if_pos (by rw [hp]; exact h))

/-! ### As a whole -/

/-- Settles O51: the errors of links and memory, the accesses of the host, and the requests of a requester and of a debugger, one by one. -/
theorem reliabilityAndSecurityEventsTakeEffect : Obligations.ReliabilityAndSecurityEventsTakeEffect := by
  refine ⟨fun addr s _ => congrArg Host.Outcome.next (s.scrubGddr_clean addr),
    fun addr finding source sev hf s h => congrArg Host.Outcome.next (s.scrubGddr_found addr finding source sev hf h.1 h.2),
    fun core s _ => ⟨_, rfl, by rw [State.core_setCore_same], by rw [State.core_setCore_same]⟩,
    fun link x hx => ringPacketError_brings link x hx, fun link s _ => rfl, fun chan x hx => gddrLinkError_brings chan x hx,
    ideIntegrityFailure_brings, fun s _ => rfl, pcieLinkError_brings,
    fun addr bs hin hend => hostWrite_gddr_brings addr bs hin hend, fun addr bs hin hend hlow => hostWrite_host_brings addr bs hin hend hlow,
    fun addr s1 hin => hostRead_brings addr s1 hin, fun off bs hlen halign hoff => barWrite_happens off bs hlen halign hoff,
    fun b halign hend => barRead_mailbox_brings b halign hend, ?drops,
    fun req s h => congrArg Host.Outcome.next (State.respond_of_answers h _), fun req s h => congrArg Host.Outcome.next (State.respond_of_answers h _),
    fun req s h => congrArg Host.Outcome.next (State.respond_of_answers h _), fun req s h => congrArg Host.Outcome.next (State.respondAlways_of_answers h _),
    ?certificate, fun req s h => congrArg Host.Outcome.next (State.respondAlways_of_answers h _), ?measurements,
    keyExchange_brings, finish_brings, endSession_brings, vendorDefinedRequest_brings, vendorDefinedRequest_refuses, invasiveDebugEntry_brings,
    invasiveDebugEntry_enters_d3hot, fun core slot w s h => debuggerRequest_wave (g := fun w => { w with debugHalt := true }) rfl (fun _ => rfl) h.1 h.2,
    fun core slot w s h => debuggerRequest_wave (g := fun w => { w with debugHalt := false }) rfl (fun _ => rfl) h.1 h.2, ?readScalar,
    fun core slot n v w s h => debuggerRequest_wave (g := fun w => w.putS n.toNat v) rfl (fun _ => rfl) h.1 h.2, debuggerRequest_readMem,
    debuggerRequest_writeMem,
    fun core slot n x w s h => debuggerRequest_reads rfl (fun _ => rfl) h.1 h.2.1 (if_pos h.2.2), ?writeVector,
    fun core slot n w hn s h => debuggerRequest_reads rfl (fun _ => rfl) h.1 h.2 (if_pos hn), ?writePred,
    debuggerRequest_readTile, debuggerRequest_writeTile, debuggerRequest_trace, debuggerRequest_count, debuggerRequest_unreached⟩
  case drops =>
    intro addr data s h
    show execHostLinkAccess addr data s = _
    unfold execHostLinkAccess
    rw [h, Bool.true_or, if_pos rfl]
  case certificate =>
    intro req hslot s h
    show Host.Outcome.next (s.respondAlways req (if req.slot = 0 then _ else _)) = _
    rw [if_pos hslot, State.respondAlways_of_answers h]
  case measurements =>
    intro req s h
    show Host.Outcome.next (s.respondAlways req (.measurements _ (if s.bothFailed then _ else _) _)) = _
    rw [State.bothFailed_of_answers h, if_neg Bool.false_ne_true, State.respondAlways_of_answers h]
  case readScalar =>
    intro core slot n w s h
    refine (debuggerRequest_reads (g := fun w => some (w.s n.toNat).val.toNat) rfl (fun _ => rfl) h.1 h.2 rfl).trans ?_
    unfold State.debugData
    rw [BitVec.ofNat_toNat, BitVec.setWidth_eq]
  case writeVector =>
    intro core slot n x v w s ⟨hw, h, hn, hx⟩
    refine (debuggerRequest_wave (g := fun w => if n.toNat < 16 * w.blocks && x.toNat < w.width then
      w.setV n.toNat { w.v n.toNat with vals := (w.v n.toNat).vals.set x.toNat v } else w) rfl (fun _ => rfl) hw h).trans (congrArg (fun v => Host.Outcome.next (s.setWave core slot v)) (if_pos ?_))
    rw [decide_eq_true hn, decide_eq_true hx]
    rfl
  case writePred =>
    intro core slot n v w hn s h
    exact (debuggerRequest_wave (g := fun w => if n.toNat < 7 then w.setP n.toNat { w.p n.toNat with bits := v } else w)
      rfl (fun _ => rfl) h.1 h.2).trans (congrArg (fun v => Host.Outcome.next (s.setWave core slot v)) (if_pos hn))

end Sys2Proof.Machine
end

section
/-!
PROOF. Packets: what the queues hold as their records are written, and the events of R358 to R362.
-/
namespace Sys2Proof.Machine

/-! ### Reading and writing a queue -/

theorem State.fq_of_still {s t : State} {part : Nat} (h : (t.part part).still = (s.part part).still) (q : Nat) : t.fq part q = s.fq part q := by
  have hq := congrArg (fun p : Partition => p.queues.get Fq.reset q) h
  exact hq

theorem State.fq_of_rest {s t : State} (h : t.rest = s.rest) (part q : Nat) : t.fq part q = s.fq part q := State.fq_of_still (State.rest_part h part) q

@[simp] theorem State.fq_setFq_same (s : State) (part q : Nat) (f : Fq) : (s.setFq part q f).fq part q = f := by
  unfold State.fq State.setFq
  dsimp only
  rw [State.part_setPart_same]
  exact Tab.get_put_same _ _ _ _

@[simp] theorem State.fq_modFq_same (s : State) (part q : Nat) (g : Fq → Fq) : (s.modFq part q g).fq part q = g (s.fq part q) := State.fq_setFq_same ..

/-! ### Records and the write-back block leave EN, ACC, ISS and DPRIO -/

/-- What writing records and CMP leaves of a queue: EN, ACC, ISS and DPRIO. -/
def Fq.held (f : Fq) : Bool × BitVec 32 × BitVec 32 × Nat := (f.en, f.acc, f.iss, f.dprio)

theorem State.modFq_held (s : State) (part q : Nat) {g : Fq → Fq} (hg : ∀ f, (g f).held = f.held) :
    ((s.modFq part q g).fq part q).held = (s.fq part q).held := by
  rw [State.fq_modFq_same, hg]

@[simp] theorem State.writeBlock_rest (s : State) (part q : Nat) (acc iss cmp : BitVec 32) : (s.writeBlock part q acc iss cmp).1.rest = s.rest :=
  State.frontWrite_rest ..

theorem State.putRecord_held (s : State) (part q : Nat) (seq : BitVec 32) (status detail subidx : Nat) :
    ((s.putRecord part q seq status detail subidx).1.fq part q).held = (s.fq part q).held := by
  have hw := State.frontWrite_rest s (s.queueReader part q) ((s.fq part q).recordAddr seq) (recordBytes seq.toNat status detail subidx)
  unfold State.putRecord
  split
  next s1 h =>
    rw [h] at hw
    exact congrArg _ (State.fq_of_rest hw part q)
  next s1 _ _ h =>
    rw [h] at hw
    exact (s1.modFq_held part q (g := fun f => { f with cmpDue := some (seq + 1) }) fun _ => rfl).trans (congrArg _ (State.fq_of_rest hw part q))

theorem State.putCmp_held (s : State) (part q : Nat) : ((s.putCmp part q).1.fq part q).held = (s.fq part q).held := by
  unfold State.putCmp
  dsimp only
  split
  · rfl
  next x _ =>
    have hw := State.writeBlock_rest s part q (s.fq part q).acc (s.fq part q).iss x
    split
    next s1 h =>
      rw [h] at hw
      exact congrArg _ (State.fq_of_rest hw part q)
    next s1 h =>
      rw [h] at hw
      exact (s1.modFq_held part q (g := fun g => { g with cmp := x, cmpDue := none }) fun _ => rfl).trans (congrArg _ (State.fq_of_rest hw part q))

theorem State.flush_held (s : State) (part q n : Nat) : ((s.flush part q n).fq part q).held = (s.fq part q).held := by
  induction n generalizing s with
  | zero => rfl
  | succ n ih =>
    have hcmp := s.putCmp_held part q
    rw [State.flush]
    split
    next s1 h => rw [h] at hcmp; exact hcmp
    next s1 h =>
      rw [h] at hcmp
      split
      · exact hcmp
      next seq status detail subidx _ =>
        have hrec := s1.putRecord_held part q seq status detail subidx
        split
        next s2 h2 => rw [h2] at hrec; exact hrec.trans hcmp
        next s2 h2 =>
          rw [h2] at hrec
          exact (ih _).trans ((s2.modFq_held part q (g := fun g => { g with running := g.running.filter fun x => x.seq ≠ seq }) fun _ => rfl).trans
            (hrec.trans hcmp))

theorem State.flushAll_held (s : State) (part q : Nat) : ((s.flushAll part q).fq part q).held = (s.fq part q).held := s.flush_held part q _

theorem State.completeHead_held (s : State) (part q status detail : Nat) : ((s.completeHead part q status detail).fq part q).held = (s.fq part q).held := by
  refine (State.flushAll_held ..).trans (s.modFq_held part q fun f => ?_)
  split
  · rfl
  · rfl

/-! ### Reaching the packet at the head -/

theorem State.catchUp_idle {s : State} {part q : Nat} (h : (s.fq part q).owes = false) : s.catchUp part q = s := by
  unfold State.catchUp
  rw [h]
  rfl

theorem Fq.ready_of_head {f : Fq} {p : Packet} (h : f.head = some p) : ∃ rest, f.ready = p :: rest := by
  unfold Fq.head at h
  split at h
  · cases h
  · exact List.head?_eq_some_iff.1 h

theorem State.AtHead.ready {s : State} {part q type : Nat} {p : Packet} (h : s.AtHead part q type p) : ∃ rest, (s.fq part q).ready = p :: rest :=
  Fq.ready_of_head h.2.1

/-- The packet at the head is run by its TYPE. -/
theorem State.atHead_eq {s : State} {part q type : Nat} {p : Packet} (h : s.AtHead part q type p) (k : State → Packet → State) :
    s.atHead part q type k = k s p := by
  obtain ⟨howes, hhead, hfail, hok, htype⟩ := h
  unfold State.atHead
  rw [State.catchUp_idle howes]
  dsimp only
  rw [hhead]
  dsimp only
  rw [hfail, hok, if_neg (by simp), if_neg (by simp), if_pos htype]

/-- It starts once ISS is written. -/
theorem State.startHead_eq {s s0 : State} {part q : Nat} {p : Packet} {rest : List Packet} (hready : (s.fq part q).ready = p :: rest)
    (h : s.Starts part q p s0) (k : State → State) : s.startHead part q k = k s0 := by
  unfold State.startHead
  dsimp only
  rw [hready]
  dsimp only
  unfold State.Starts at h
  dsimp only at h
  split at h
  next hc => rw [if_pos hc, h]
  next hc =>
    obtain ⟨s1, hw, hs0⟩ := h
    rw [if_neg hc, hw]
    dsimp only
    rw [hs0]

theorem State.finishHead_eq {s s0 : State} {part q : Nat} {p : Packet} {rest : List Packet} (hready : (s.fq part q).ready = p :: rest)
    (h : s.Starts part q p s0) (status detail : Nat) : s.finishHead part q status detail = s0.completeHead part q status detail :=
  State.startHead_eq hready h _

/-! ### Acceptance and rereads -/

theorem packetAcceptance_brings (part q : Nat) (s1 s2 : State) (bs : List Byte) : Brings (.packetAcceptance part q)
    (fun s => (s.fq part q).owes = false ∧ (s.fq part q).en = true ∧ (s.fq part q).state = 0 ∧ (s.fq part q).mayFetch = true ∧ (s.fq part q).calls = [] ∧
      (s.fq part q).rereads = 0 ∧ (s.fq part q).next ≠ (s.fq part q).tail ∧
      s.frontRead (s.queueReader part q)
        ((s.fq part q).base + BitVec.ofNat 64 (64 * ((s.fq part q).next.toNat % 2 ^ (s.fq part q).log2n))) 64 = (s1, .bytes bs) ∧
      pktGood bs (s.fq part q).next.toNat = true ∧ s1.fq part q = s.fq part q ∧
      (if (s.fq part q).next = (s.fq part q).acc then s1.writeBlock part q ((s.fq part q).next + 1) (s.fq part q).iss (s.fq part q).cmp
        else (s1, true)) = (s2, true) ∧ s2.fq part q = s.fq part q)
    fun s t => (t.fq part q).next = (s.fq part q).next + 1 ∧ (t.fq part q).ready = (s.fq part q).ready ++ [⟨(s.fq part q).next, [], bs, none⟩] ∧
      ((s.fq part q).next = (s.fq part q).acc → (t.fq part q).acc = (s.fq part q).next + 1) := by
  intro s ⟨howes, hen, hstate, hmay, hcalls, hre, hnext, hread, hgood, hf1, hacc, hf2⟩
  have hmore : (s.fq part q).ringMore = true := by
    unfold Fq.ringMore
    rw [hen, hstate, decide_eq_true hnext]
    split
    · rfl
    · rfl
  refine ⟨_, rfl, ?_⟩
  rw [State.catchUp_idle howes]
  dsimp only
  rw [hmore, hmay, hcalls, hre, if_pos (by rfl)]
  unfold State.fetchPacket
  dsimp only
  rw [hcalls]
  dsimp only
  rw [hread]
  dsimp only
  rw [if_pos hgood]
  unfold State.acceptRing
  dsimp only
  rw [hf1, hacc]
  dsimp only
  rw [State.fq_modFq_same, hf2]
  exact ⟨rfl, rfl, fun h => if_pos h⟩

theorem tornPacketReread_brings (part q : Nat) (s1 : State) (bs : List Byte) : Brings (.tornPacketReread part q)
    (fun s => (s.fq part q).owes = false ∧ (s.fq part q).rereads > 0 ∧ (s.fq part q).en = true ∧ (s.fq part q).ringMore = true ∧
      (s.fq part q).calls = [] ∧
      s.frontRead (s.queueReader part q)
        ((s.fq part q).base + BitVec.ofNat 64 (64 * ((s.fq part q).next.toNat % 2 ^ (s.fq part q).log2n))) 64 = (s1, .bytes bs) ∧
      s1.fq part q = s.fq part q)
    fun s t => (pktGood bs (s.fq part q).next.toNat = true → (s.fq part q).next ≠ (s.fq part q).acc →
        (t.fq part q).next = (s.fq part q).next + 1 ∧ (t.fq part q).rereads = 0) ∧
      (pktGood bs (s.fq part q).next.toNat = false → (s.fq part q).rereads < 8 → (t.fq part q).rereads = (s.fq part q).rereads + 1) ∧
      (pktGood bs (s.fq part q).next.toNat = false → 8 ≤ (s.fq part q).rereads →
        (t.fq part q).state = 1 ∧ (t.fq part q).stall = (s.fq part q).next) := by
  intro s ⟨howes, hre, hen, hmore, hcalls, hread, hf1⟩
  refine ⟨_, rfl, ?_⟩
  rw [State.catchUp_idle howes]
  dsimp only
  rw [hmore, hcalls, decide_eq_true hre, if_pos (by rfl)]
  unfold State.fetchPacket
  dsimp only
  rw [hcalls]
  dsimp only
  rw [hread]
  dsimp only
  refine ⟨fun hgood hne => ?_, fun hbad hlt => ?_, fun hbad hge => ?_⟩
  · rw [if_pos hgood]
    unfold State.acceptRing
    dsimp only
    rw [hf1, if_neg hne]
    dsimp only
    rw [State.fq_modFq_same, hf1]
    exact ⟨rfl, rfl⟩
  · rw [if_neg (Bool.eq_false_iff.1 hbad), if_neg (by simp; omega), State.fq_modFq_same, hf1]
  · rw [if_neg (Bool.eq_false_iff.1 hbad), if_pos (by simp; omega)]
    unfold State.stallQueue
    rw [State.fq_modFq_same, hf1, if_pos hen]
    exact ⟨rfl, rfl⟩

/-! ### LAUNCH -/

theorem launch_eq {s s0 : State} {part q : Nat} {p : Packet} (h : s.AtHead part q 1 p) (hfree : s.handlesFree (s.fq part q) p.body = true)
    (hstarts : s.Starts part q p s0) : exec (.launch part q) s = .next (
      match s0.readLaunch (s0.queueReader part q) (BitVec.ofNat 64 (pkt p.body 16 8)) true with
      | (s1, .wait) => s1
      | (s1, .bad) => s1.completeHead part q 4 0
      | (s1, .image i) =>
        if i.hdr.filler || i.hdr.scan then s1.completeHead part q 4 0
        else
          let l := newLaunch s1.uid part q p i (s1.fq part q).dprio
          if l.hdr.coresident && !({ s1 with launches := s1.launches ++ [l] } : State).gridFits l then s1.completeHead part q 3 0
          else s1.enterLaunch part q p l i.saved) := by
  obtain ⟨rest, hready⟩ := h.ready
  show Host.Outcome.next (s.atHead part q 1 fun s1 => s1.startLaunch part q) = _
  rw [State.atHead_eq h]
  unfold State.startLaunch
  rw [hfree, if_neg (by simp), State.startHead_eq hready hstarts]
    <;> rfl

theorem launch_brings (part q : Nat) (p : Packet) (s0 s1 : State) (im : Image) (hfiller : im.hdr.filler = false) (hscan : im.hdr.scan = false)
    (hcores : im.hdr.coresident = false) (hsaved : im.saved = []) : Brings (.launch part q)
      (fun s => s.AtHead part q 1 p ∧ s.handlesFree (s.fq part q) p.body = true ∧ s.Starts part q p s0 ∧
        s0.readLaunch (s0.queueReader part q) (BitVec.ofNat 64 (pkt p.body 16 8)) true = (s1, .image im))
      fun _ t => t.launches = s1.launches ++ [newLaunch s1.uid part q p im (s1.fq part q).dprio] := by
  intro s ⟨h, hfree, hstarts, hread⟩
  refine ⟨_, launch_eq h hfree hstarts, ?_⟩
  rw [hread]
  dsimp only
  rw [hfiller, hscan, if_neg (by simp), show (newLaunch s1.uid part q p im (s1.fq part q).dprio).hdr.coresident = false from hcores, if_neg (by simp)]
  unfold State.enterLaunch State.addSaved
  rw [hsaved]
  rfl

theorem launch_refuses (part q : Nat) (p : Packet) (s0 s1 : State) : Happens (.launch part q)
    (fun s => s.AtHead part q 1 p ∧ s.handlesFree (s.fq part q) p.body = true ∧ s.Starts part q p s0 ∧
      s0.readLaunch (s0.queueReader part q) (BitVec.ofNat 64 (pkt p.body 16 8)) true = (s1, .bad))
    fun _ => s1.completeHead part q 4 0 := by
  intro s ⟨h, hfree, hstarts, hread⟩
  rw [launch_eq h hfree hstarts, hread]

/-! ### SIGNAL and WAIT -/

theorem signal_writes (part q : Nat) (p : Packet) (s0 s1 : State) (hset : pkt p.body 9 1 = 0) : Happens (.signal part q)
    (fun s => s.AtHead part q 2 p ∧ (s.fq part q).allDone p = true ∧ s.Starts part q p s0 ∧
      s0.frontWrite (s0.queueReader part q) (BitVec.ofNat 64 (pkt p.body 16 8)) (leBytes 8 (pkt p.body 24 8)) = (s1, .done))
    fun _ => s1.completeHead part q 0 0 := by
  intro s ⟨h, hdone, hstarts, hwrite⟩
  obtain ⟨rest, hready⟩ := h.ready
  show Host.Outcome.next (s.atHead part q 2 fun s1 => s1.startSignal part q) = _
  rw [State.atHead_eq h]
  unfold State.startSignal
  rw [hdone, if_neg (by simp), State.startHead_eq hready hstarts]
  dsimp only
  rw [if_pos hset, hwrite]

theorem signal_adds (part q : Nat) (p : Packet) (s0 s1 s2 : State) (bs : List Byte) (hadd : pkt p.body 9 1 = 1) : Happens (.signal part q)
    (fun s => s.AtHead part q 2 p ∧ (s.fq part q).allDone p = true ∧ s.Starts part q p s0 ∧
      s0.frontRead (s0.queueReader part q) (BitVec.ofNat 64 (pkt p.body 16 8)) 8 = (s1, .bytes bs) ∧
      s1.frontWrite (s0.queueReader part q) (BitVec.ofNat 64 (pkt p.body 16 8)) (leBytes 8 ((leNat bs + pkt p.body 24 8) % 2 ^ 64)) = (s2, .done))
    fun _ => s2.completeHead part q 0 0 := by
  intro s ⟨h, hdone, hstarts, hread, hwrite⟩
  obtain ⟨rest, hready⟩ := h.ready
  show Host.Outcome.next (s.atHead part q 2 fun s1 => s1.startSignal part q) = _
  rw [State.atHead_eq h]
  unfold State.startSignal
  rw [hdone, if_neg (by simp), State.startHead_eq hready hstarts]
  dsimp only
  rw [if_neg (by rw [hadd]; decide), hread]
  dsimp only
  rw [hwrite]

theorem waitConditionHolds_completes (part q : Nat) (r : Running) (s1 : State) (bs : List Byte) : Happens (.waitConditionHolds part q)
    (fun s => (s.fq part q).owes = false ∧ (s.fq part q).running.find? (fun r => pktType r.body = 3 && r.status.isNone) = some r ∧
      s.frontRead (s.queueReader part q) (BitVec.ofNat 64 (pkt r.body 16 8)) 8 = (s1, .bytes bs) ∧ waitHolds r.body (leNat bs) = true)
    fun _ => (s1.modFq part q fun f => { f with
      running := f.running.map fun y => if y = r then { y with status := some (0, 0) } else y }).flushAll part q := by
  intro s ⟨howes, hfind, hread, hholds⟩
  show Host.Outcome.next ((s.catchUp part q).pollWait part q) = _
  rw [State.catchUp_idle howes]
  unfold State.pollWait
  rw [hfind]
  dsimp only
  rw [hread]
  dsimp only
  rw [if_pos hholds]

/-! ### CALL -/

theorem callPacket_starts (part q : Nat) (p : Packet) (s0 : State) (hsub : p.sub = []) : Happens (.callPacket part q)
    (fun s => s.AtHead part q 4 p ∧ s.Starts part q p s0) fun _ => (s0.takeHead part q none).flushAll part q := by
  intro s ⟨h, hstarts⟩
  obtain ⟨rest, hready⟩ := h.ready
  obtain ⟨howes, hhead, hfail, hok, htype⟩ := h
  refine congrArg Host.Outcome.next ((if_pos ?_).trans ?_)
  · rw [hhead]
    dsimp only
    rw [hfail, hok, decide_eq_true htype]
    rfl
  · rw [State.atHead_eq ⟨howes, hhead, hfail, hok, htype⟩, hsub, if_pos (by rfl), State.startHead_eq hready hstarts]

/-! ### As a whole -/

/-- Settles O49: each packet runs at the head once its queue has nothing left to write and ISS is written. -/
theorem packetEventsTakeEffect : Obligations.PacketEventsTakeEffect := by
  refine ⟨packetAcceptance_brings, tornPacketReread_brings, launch_brings, launch_refuses, signal_writes, signal_adds, ?wait, waitConditionHolds_completes,
    callPacket_starts, ?join, ?barrier, ?priority⟩
  case wait =>
    intro part q p s0 s ⟨h, hstarts⟩
    obtain ⟨rest, hready⟩ := h.ready
    show Host.Outcome.next (s.atHead part q 3 _) = _
    rw [State.atHead_eq h, State.startHead_eq hready hstarts]
  case join =>
    intro part q p s0 s ⟨h, hdone, hstarts⟩
    obtain ⟨rest, hready⟩ := h.ready
    show Host.Outcome.next (s.atHead part q 5 _) = _
    rw [State.atHead_eq h, if_pos hdone, State.startHead_eq hready hstarts]
  case barrier =>
    intro part q p s0 s ⟨h, hdone, hstarts⟩
    obtain ⟨rest, hready⟩ := h.ready
    show Host.Outcome.next (s.atHead part q 6 _) = _
    rw [State.atHead_eq h, if_pos hdone, State.finishHead_eq hready hstarts]
  case priority =>
    intro part q p s0 s ⟨h, hstarts⟩
    obtain ⟨rest, hready⟩ := h.ready
    refine ⟨_, rfl, ?_⟩
    rw [State.atHead_eq h, State.startHead_eq hready hstarts]
    have hheld := State.completeHead_held (s0.modFq part q fun f => { f with dprio := pkt p.body 9 1 % 8 }) part q 0 0
    rw [State.fq_modFq_same] at hheld
    exact congrArg (·.2.2.2) hheld

end Sys2Proof.Machine
end

section
/-!
PROOF. Queue registers, recovery, resets of functions and control complexes, and register writes from outside.
-/
namespace Sys2Proof.Machine

/-! ### Recovery -/

theorem State.abortStarted_held (s : State) (part q n : Nat) : ((s.abortStarted part q n).fq part q).held = (s.fq part q).held := by
  induction n generalizing s with
  | zero => rfl
  | succ n ih =>
    have hcmp := s.putCmp_held part q
    rw [State.abortStarted]
    split
    next s1 h => rw [h] at hcmp; exact hcmp
    next s1 h =>
      rw [h] at hcmp
      dsimp only
      split
      next i _ =>
        split
        · refine Eq.trans ?_ hcmp
          rw [State.fq_setFq_same]
          rfl
        · have hread := State.frontRead_data s1 (s1.queueReader part q) ((s1.fq part q).recordAddr i) 4
          split
          next s2 h2 =>
            rw [h2] at hread
            exact (congrArg _ (State.fq_of_rest (State.rest_of_data hread) part q)).trans hcmp
          next s2 x _ h2 =>
            rw [h2] at hread
            have h2held := (congrArg Fq.held (State.fq_of_rest (State.rest_of_data hread) part q)).trans hcmp
            have hrec : ∀ held : Bool, (((if held then (s2.modFq part q fun g => { g with cmpDue := some (i + 1) }, true)
                else s2.putRecord part q i 7 0 0).1).fq part q).held = (s.fq part q).held := by
              intro held
              split
              · exact (s2.modFq_held part q (g := fun g => { g with cmpDue := some (i + 1) }) fun _ => rfl).trans h2held
              · exact (s2.putRecord_held part q i 7 0 0).trans h2held
            split
            next s3 h3 => exact (congrArg (fun y : State × Bool => (y.1.fq part q).held) h3).symm.trans (hrec _)
            next s3 h3 =>
              refine (ih _).trans ((s3.modFq_held part q (g := fun g => { g with recov := some (some (i + 1)) }) fun _ => rfl).trans ?_)
              exact (congrArg (fun y : State × Bool => (y.1.fq part q).held) h3).symm.trans (hrec _)
      next => exact hcmp

/-- A queue that recovers takes its indices from the write-back block. -/
theorem State.readBlock_recovering {s s1 : State} {part q : Nat} {bs : List Byte}
    (h : (s.modFq part q Fq.recovering).frontRead ((s.modFq part q Fq.recovering).queueReader part q) (s.fq part q).wbbase 12 = (s1, .bytes bs)) :
    (((s.modFq part q Fq.recovering).readBlock part q).fq part q).held =
      (true, BitVec.ofNat 32 (pkt bs 0 4), BitVec.ofNat 32 (pkt bs 4 4), (s.fq part q).dprio) := by
  have hf : (s.modFq part q Fq.recovering).fq part q = (s.fq part q).recovering := State.fq_modFq_same ..
  unfold State.readBlock
  dsimp only
  rw [hf, if_neg (by simp [Fq.recovering]), show (s.fq part q).recovering.wbbase = (s.fq part q).wbbase from rfl, h]
  dsimp only
  rw [State.fq_setFq_same]
  rfl

theorem State.queueReader_modFq (s : State) (part q : Nat) (g : Fq → Fq) (r : Nat) : (s.modFq part q g).queueReader part r = s.queueReader part r := by
  unfold State.queueReader State.frontReader State.modFq State.setFq
  dsimp only
  rw [State.part_setPart_same]
  rfl

theorem queueRecover_brings (part q : Nat) (s1 : State) (bs : List Byte) : Brings (.queueRecover part q)
    (fun s => (s.fq part q).en = false ∧
      (s.modFq part q Fq.recovering).frontRead (s.queueReader part q) (s.fq part q).wbbase 12 = (s1, .bytes bs))
    fun _ t => (t.fq part q).en = true ∧ (t.fq part q).acc = BitVec.ofNat 32 (pkt bs 0 4) ∧ (t.fq part q).iss = BitVec.ofNat 32 (pkt bs 4 4) := by
  intro s ⟨hen, hread⟩
  refine ⟨_, rfl, ?_⟩
  rw [← State.queueReader_modFq s part q Fq.recovering] at hread
  have howes : ((s.modFq part q Fq.recovering).fq part q).owes = true := by
    rw [State.fq_modFq_same]
    rfl
  have hheld : (((s.modFq part q Fq.recovering).catchUp part q).fq part q).held =
      (true, BitVec.ofNat 32 (pkt bs 0 4), BitVec.ofNat 32 (pkt bs 4 4), (s.fq part q).dprio) := by
    unfold State.catchUp
    rw [howes, if_neg (by simp)]
    exact (State.flushAll_held ..).trans ((State.abortStarted_held ..).trans (State.readBlock_recovering hread))
  unfold State.recoverQueue
  rw [if_neg (by rw [hen]; simp)]
  exact ⟨congrArg (·.1) hheld, congrArg (·.2.1) hheld, congrArg (·.2.2.1) hheld⟩

/-! ### TAIL -/

theorem State.stallQueue_fq {s : State} {part q : Nat} (hen : (s.fq part q).en = true) (state : Nat) (n : BitVec 32) :
    (s.stallQueue part q state n).fq part q = { s.fq part q with state := state, stall := n, rereads := 0 } := by
  unfold State.stallQueue
  rw [State.fq_modFq_same, if_pos hen]

/-- TAIL is what is written, whatever else follows from it. -/
theorem State.writeTail_tail (s : State) (part q : Nat) (tail : BitVec 32) : ((s.writeTail part q tail).fq part q).tail = tail := by
  unfold State.writeTail
  dsimp only
  split
  · rw [State.fq_setFq_same]
  · split
    next h =>
      rw [State.stallQueue_fq (by rw [State.fq_setFq_same]; exact (Bool.and_eq_true_iff.1 h).1), State.fq_setFq_same]
    next => rw [State.fq_setFq_same]

theorem queueTailWrite_brings (part q : Nat) (tail : BitVec 32) : Brings (.queueTailWrite part q tail) (fun _ => True)
    fun s t => (t.fq part q).tail = tail ∧ ((s.fq part q).recov = some none → (t.fq part q).tailDue = true ∧ (t.fq part q).state = (s.fq part q).state) ∧
      ((s.fq part q).recov ≠ some none → (s.fq part q).en = true → 2 ^ (s.fq part q).log2n < (tail - (s.fq part q).acc).toNat →
      (t.fq part q).state = 3 ∧ (t.fq part q).stall = (s.fq part q).next) := by
  intro s _
  refine ⟨_, rfl, s.writeTail_tail part q tail, fun hrec => ?_, fun hrec hen hover => ?_⟩
  · unfold State.writeTail
    dsimp only
    rw [if_pos hrec, State.fq_setFq_same]
    exact ⟨rfl, rfl⟩
  · have hen' : ((s.setFq part q { s.fq part q with tail := tail }).fq part q).en = true := by
      rw [State.fq_setFq_same]
      exact hen
    have hgoes : ((s.fq part q).en && ({ s.fq part q with tail := tail } : Fq).overrun) = true := by
      rw [hen]
      exact decide_eq_true hover
    unfold State.writeTail
    dsimp only
    rw [if_neg hrec, if_pos hgoes, State.stallQueue_fq hen']
    exact ⟨rfl, rfl⟩

/-! ### Handles and register writes -/

/-- What holds of a table's default and of each of its entries holds of what is read from it. -/
theorem Tab.get_of_forall {α : Type} {d : α} {m : Tab α} {P : α → Prop} (hd : P d) (hm : ∀ e ∈ m, P e.2) (k : Nat) : P (m.get d k) := by
  induction m with
  | nil => exact hd
  | cons e m ih =>
    rw [Tab.get]
    split
    · exact hm e List.mem_cons_self
    · exact ih fun x hx => hm x (List.mem_cons_of_mem e hx)

theorem resumeCommand_brings (handle : BitVec 32) (w : Wave) : Brings (.resumeCommand handle)
    (fun s => s.handleOf (handleCore handle.toNat) (handleSlot handle.toNat) = handle.toNat ∧
      s.wave? (handleCore handle.toNat) (handleSlot handle.toNat) = some w ∧ ∀ e ∈ s.parts, e.2.context = none)
    fun _ t => t.wave? (handleCore handle.toNat) (handleSlot handle.toNat) = some { w with suspended := false } := by
  intro s ⟨hhandle, hw, hcontext⟩
  refine ⟨_, rfl, ?_⟩
  have hnone : ∀ (p : Nat) (u : State), u.parts = s.parts → (u.part p).context = none := by
    intro p u hu
    unfold State.part
    rw [hu]
    exact Tab.get_of_forall (P := fun x : Partition => x.context = none) rfl hcontext p
  dsimp only
  rw [if_pos hhandle, State.modWave_eq hw]
  refine Eq.trans (congrArg (fun u : State => u.wave? _ _) ?_) (State.wave?_setWave_same s _ _ { w with suspended := false })
  refine List.foldlRecOn _ _ (motive := fun u : State => u = s.setWave (handleCore handle.toNat) (handleSlot handle.toNat) { w with suspended := false })
    rfl fun u hu p _ => ?_
  unfold State.inContext
  rw [hnone p u (by rw [hu]; rfl)]
  exact hu

theorem Tab.get_foldl_zipIdx {α : Type} (d : α) (base : Nat) (l : List α) (m : Tab α) (i : Nat) (hi : i < l.length) :
    (l.zipIdx.foldl (fun (t : Tab α) (b : α × Nat) => t.put (base + b.2) b.1) m).get d (base + i) = l[i] := by
  induction l using List.reverseRecOn with
  | nil => cases hi
  | append_singleton l a ih =>
    rw [List.zipIdx_append, List.foldl_append]
    by_cases h : i = l.length
    · subst h
      simp
    · have hlt : i < l.length := by
        rw [List.length_append, List.length_singleton] at hi
        omega
      rw [List.getElem_append_left hlt, ← ih hlt]
      exact Tab.get_put_ne _ _ _ (by simp; omega)

theorem leBytes_getElem (n x i : Nat) (hi : i < (leBytes n x).length) : (leBytes n x)[i] = BitVec.ofNat 8 (x / 2 ^ (8 * i)) := by
  induction n generalizing x i with
  | zero => cases hi
  | succ n ih =>
    cases i with
    | zero => simp [leBytes]
    | succ i =>
      have hlt : i < (leBytes n (x / 256)).length := Nat.lt_of_succ_lt_succ hi
      show (leBytes n (x / 256))[i] = _
      rw [ih, Nat.div_div_eq_div_mul, show (256 : Nat) = 2 ^ 8 from rfl, ← Nat.pow_add, show 8 + 8 * i = 8 * (i + 1) by omega]

theorem uploadWrite_brings (off : Nat) (v : DWord) (hlow : 0x100000 ≤ off) (hhigh : off + 8 ≤ 0x200000) :
    Brings (.controlRegisterWrite .pf 0 off v) (fun _ => True)
      fun _ t => ∀ i < 8, t.dev.upload.get 0 (off - 0x100000 + i) = BitVec.ofNat 8 (v.toNat / 2 ^ (8 * i)) := by
  intro s _
  refine ⟨_, rfl, fun i hi => ?_⟩
  have hbytes : i < (leBytes 8 v.toNat).length := by
    rw [leBytes_length]
    exact hi
  unfold State.pfWrite
  dsimp only
  rw [if_neg (by omega), if_neg (by simp; omega), if_pos (by simp; omega), ← leBytes_getElem 8 v.toNat i hbytes]
  exact Tab.get_foldl_zipIdx 0 (off - 0x100000) (leBytes 8 v.toNat) s.dev.upload i hbytes

/-- A queue's TAIL through BAR0 of a virtual function of its partition. -/
theorem vfTail_brings (vf p : Nat) (v : DWord) : Brings (.controlRegisterWrite (.vf vf) 0x102 0 v) (fun s => s.partOfVf vf = some p)
    fun _ t => (t.fq p 0).tail = BitVec.ofNat 32 v.toNat := by
  intro s hp
  refine ⟨_, rfl, ?_⟩
  dsimp only
  unfold State.vfWrite
  rw [hp]
  exact s.writeTail_tail p 0 (BitVec.ofNat 32 v.toNat)

/-! ### As a whole -/

/-- Settles O50: the registers of the queues, a recovery from the write-back block, resets, and register writes from outside. -/
theorem queueRegisterEventsTakeEffect : Obligations.QueueRegisterEventsTakeEffect := by
  refine ⟨queueTailWrite_brings, ?enable, queueRecover_brings, ?disable, ?retry, ?reset, ?failure, resumeCommand_brings, ?tvec, ?machine, vfTail_brings,
    uploadWrite_brings⟩
  case enable =>
    intro part q s hen
    refine ⟨_, rfl, ?_⟩
    unfold State.enableQueue
    dsimp only
    rw [if_neg (by rw [hen]; simp), State.fq_setFq_same]
    exact ⟨rfl, rfl, rfl, rfl, rfl⟩
  case disable =>
    intro part q s _
    refine ⟨_, rfl, ?_⟩
    unfold State.disableQueue
    dsimp only
    rw [State.fq_modFq_same]
    exact ⟨rfl, rfl⟩
  case retry =>
    intro part q s ⟨hen, hlow, hhigh⟩
    refine ⟨_, rfl, ?_⟩
    unfold State.retryQueue
    dsimp only
    rw [State.fq_modFq_same, if_pos (by simp [hen]; omega)]
    exact ⟨rfl, hen⟩
  case reset =>
    intro vf p s hp
    show execFunctionLevelReset vf s = _
    unfold execFunctionLevelReset
    rw [hp]
  case failure =>
    intro s hstandby
    refine ⟨_, rfl, ?_⟩
    rw [if_pos hstandby]
    exact ⟨rfl, rfl, rfl, rfl, rfl⟩
  case tvec =>
    intro inst v hinst s _
    exact congrArg Host.Outcome.next (if_pos (by simp [crAssigned, partBlock, hinst]))
  case machine =>
    intro num inst v hassigned hinst s _
    exact congrArg Host.Outcome.next (if_pos (by rw [hassigned, hinst]; rfl))

end Sys2Proof.Machine
end

section
/-!
PROOF. Heads: modes, kernels, presents, bands, latches, scan-out and motion estimation.
-/
namespace Sys2Proof.Machine

/-! ### Reading and writing a head -/

@[simp] theorem State.head_setHead_same (s : State) (h : Nat) (x : Head) : (s.setHead h x).head h = x := Tab.get_put_same _ _ _ _

@[simp] theorem State.head_modHead_same (s : State) (h : Nat) (g : Head → Head) : (s.modHead h g).head h = g (s.head h) := State.head_setHead_same ..

theorem State.head_of_heads {s t : State} (h : t.heads = s.heads) (k : Nat) : t.head k = s.head k := congrArg (fun m : Tab Head => m.get Head.reset k) h

theorem State.frontRead_head (s : State) (r : Reader) (va : DWord) (n k : Nat) : (s.frontRead r va n).1.head k = s.head k :=
  State.head_of_heads (State.data_heads (State.frontRead_data ..)) k

theorem State.frontWrite_head (s : State) (r : Reader) (va : DWord) (bs : List Byte) (k : Nat) : (s.frontWrite r va bs).1.head k = s.head k :=
  State.head_of_heads (State.rest_heads (State.frontWrite_rest ..)) k

theorem State.modHead_preserves (s : State) (k : Nat) {g : Head → Head} {α : Type} (f : Head → α) (hg : ∀ h, f (g h) = f h) :
    f ((s.modHead k g).head k) = f (s.head k) := by
  rw [State.head_modHead_same, hg]

/-! ### What the work at a line leaves of a head -/

/-- Writing latch records changes LATCHREC and the records that are due, and nothing else of the head. -/
theorem State.putRecords_head (s : State) (k n : Nat) {α : Type} (f : Head → α) (hf : ∀ (h : Head) l rs, f { h with latchRec := l, records := rs } = f h) :
    f ((s.putRecords k n).head k) = f (s.head k) := by
  induction n generalizing s with
  | zero => rfl
  | succ n ih =>
    rw [State.putRecords]
    dsimp only
    split
    next frame body rest p _ _ =>
      have h1 := State.frontWrite_head s (s.headReader p k 3) ((s.head k).latchBase + BitVec.ofNat 64 (64 * (frame % 4)) + 8) body k
      split
      next s1 hw =>
        rw [hw] at h1
        rw [h1]
      next s1 _ _ hw =>
        rw [hw] at h1
        have h2 := State.frontWrite_head s1 (s.headReader p k 3) ((s.head k).latchBase + BitVec.ofNat 64 (64 * (frame % 4))) (leBytes 8 frame) k
        split
        next s2 hw2 =>
          rw [hw2] at h2
          rw [h2, h1]
        next s2 _ _ hw2 =>
          rw [hw2] at h2
          rw [ih, s2.modHead_preserves k f fun h => hf h _ rest, h2, h1]
    · rfl

theorem State.flushRecords_head (s : State) (k : Nat) {α : Type} (f : Head → α) (hf : ∀ (h : Head) l rs, f { h with latchRec := l, records := rs } = f h) :
    f ((s.flushRecords k).head k) = f (s.head k) := s.putRecords_head k _ f hf

/-- A latch record that is due is added; the rest of the head stays. -/
theorem State.writeLatch_head (s : State) (k : Nat) {α : Type} (f : Head → α) (hf : ∀ (h : Head) l rs, f { h with latchRec := l, records := rs } = f h) :
    f ((s.writeLatch k).head k) = f (s.head k) := by
  unfold State.writeLatch
  dsimp only
  split
  · rfl
  · rw [State.flushRecords_head _ _ f hf, State.head_setHead_same]
    exact hf (s.head k) (s.head k).latchRec _

/-- The pose latch changes the latch and its count, LATCHREC and the records. -/
theorem State.latchPose_head (s : State) (k : Nat) {α : Type} (f : Head → α) (hf : ∀ (h : Head) l rs, f { h with latchRec := l, records := rs } = f h)
    (hp : ∀ (h : Head) p n, f { h with poseLatch := p, latched := n } = f h) : f ((s.latchPose k).head k) = f (s.head k) := by
  unfold State.latchPose
  extract_lets h at_ keep none_
  have hkeep : ∀ (t : State) bs ok, t.head k = s.head k → f ((keep t bs ok).head k) = f (s.head k) := by
    intro t bs ok ht
    unfold keep
    rw [State.writeLatch_head _ _ f hf, t.modHead_preserves k f fun h => hp h _ _, ht]
  have hnone : ∀ t : State, t.head k = s.head k → f ((none_ t).head k) = f (s.head k) := fun t ht => hkeep t _ _ ht
  split
  · rfl
  · split
    · exact hnone s rfl
    next p _ =>
      have hread := State.frontRead_head s (s.headReader p k 0) at_ 28 k
      split
      next s1 bs hr => rw [hr] at hread; exact hkeep s1 _ _ hread
      next s1 _ _ hr => rw [hr] at hread; exact hnone s1 hread

/-- The reading of a frame's pixels changes the boundary and the new frame. -/
theorem State.readPixels_bands (s : State) (k part : Nat) (d : List Byte) (n i : Nat) : ((s.readPixels k part d n i).head k).bands = (s.head k).bands := by
  induction n generalizing s i with
  | zero => exact s.modHead_preserves k Head.bands fun _ => rfl
  | succ n ih =>
    rw [State.readPixels]
    dsimp only
    have hread := State.frontRead_head s (s.headReader part k 1)
      (BitVec.ofNat 64 (pkt d 0 8 + i / presentW d * pkt d 8 4 + i % presentW d * pixelSize d)) (pixelSize d) k
    split
    next s1 hr => rw [hr] at hread; rw [hread]
    next s1 _ hr =>
      rw [hr] at hread
      refine (ih _ _).trans (Eq.trans (s1.modHead_preserves k Head.bands ?_) (congrArg Head.bands hread))
      exact fun _ => rfl
    next s1 bs hr =>
      rw [hr] at hread
      refine (ih _ _).trans (Eq.trans (s1.modHead_preserves k Head.bands ?_) (congrArg Head.bands hread))
      exact fun _ => rfl

theorem State.readFrame_bands (s : State) (k : Nat) : ((s.readFrame k).head k).bands = (s.head k).bands := by
  unfold State.readFrame
  dsimp only
  split
  · exact State.readPixels_bands ..
  · rfl

/-- A frame boundary leaves the bands. -/
theorem State.takePresent_bands (s : State) (k : Nat) : ((s.takePresent k).head k).bands = (s.head k).bands := by
  unfold State.takePresent
  extract_lets h drop
  have hdrop : ∀ t : State, ((drop t).head k).bands = (t.head k).bands := fun t => t.modHead_preserves k Head.bands fun _ => rfl
  split
  next frame d p _ _ _ =>
    split
    · exact State.readFrame_bands ..
    · have hread := State.frontRead_head s (s.headReader p k 0) d 64 k
      split
      next s1 hr => rw [hr] at hread; rw [hread]
      next s1 _ hr => rw [hr] at hread; rw [hdrop, hread]
      next s1 bs hr =>
        rw [hr] at hread
        split
        · refine (State.readFrame_bands ..).trans (Eq.trans (s1.modHead_preserves k Head.bands ?_) (congrArg Head.bands hread))
          exact fun _ => rfl
        · rw [hdrop, hread]
  · split
    · exact State.readFrame_bands ..
    · exact s.modHead_preserves k Head.bands fun _ => rfl
  · rfl

end Sys2Proof.Machine
end

section
/-!
PROOF. The events of the heads, one by one.
-/
namespace Sys2Proof.Machine

/-! ### Enabling, kernels and presents -/

theorem headEnable_brings (head : Nat) (hhead : head < 4) : Brings (.headEnable head) (fun s => (s.head head).en = false ∧ s.modeOk head (s.head head) = true)
    fun _ t => (t.head head).en = true ∧ (t.head head).line = 0 ∧ (t.head head).frame = 1 := by
  intro s ⟨hen, hmode⟩
  refine ⟨_, rfl, ?_⟩
  rw [if_pos hhead]
  unfold State.enableHead
  dsimp only
  rw [hen, hmode, if_neg (by simp), State.head_setHead_same]
  exact ⟨rfl, rfl, rfl⟩

theorem headDisable_brings (head : Nat) : Brings (.headDisable head) (fun s => (s.head head).en = true)
    fun _ t => (t.head head).en = false ∧ (t.head head).stopping = true := by
  intro s hen
  refine ⟨_, rfl, ?_⟩
  unfold State.disableHead
  dsimp only
  rw [State.head_modHead_same, if_pos hen]
  exact ⟨rfl, rfl⟩

theorem scanKernelLoad_loads (head : Nat) (v : DWord) (p : Nat) (s1 : State) (im : Image) (hhead : head < 4) (hv : v &&& ~~~0xFFF#64 ≠ 0)
    (hscans : im.hdr.scans = true) : Brings (.scanKernelLoad head v)
      (fun s => (s.head head).grant = some p ∧ s.readLaunch (s.headReader p head 0) (v &&& ~~~0xFFF#64) false = (s1, .image im))
      fun _ t => (t.head head).image = some (im.hdr, im.binds) ∧ (t.head head).kernel = v &&& ~~~0xFFF#64 ∧ (t.head head).kbad = false ∧
        (t.head head).kernelDue = false := by
  intro s ⟨hgrant, hread⟩
  refine ⟨_, rfl, ?_⟩
  rw [if_pos hhead]
  unfold State.loadKernel
  dsimp only
  rw [hgrant]
  dsimp only
  rw [if_neg hv, hread]
  dsimp only
  rw [if_pos hscans, State.head_modHead_same]
  exact ⟨rfl, rfl, rfl, rfl⟩

theorem scanKernelLoad_waits (head : Nat) (v : DWord) (p : Nat) (s1 : State) (hhead : head < 4) (hv : v &&& ~~~0xFFF#64 ≠ 0) :
    Brings (.scanKernelLoad head v)
      (fun s => (s.head head).grant = some p ∧ s.readLaunch (s.headReader p head 0) (v &&& ~~~0xFFF#64) false = (s1, .wait))
      fun _ t => (t.head head).image = none ∧ (t.head head).kernel = v &&& ~~~0xFFF#64 ∧ (t.head head).kernelDue = true := by
  intro s ⟨hgrant, hread⟩
  refine ⟨_, rfl, ?_⟩
  rw [if_pos hhead]
  unfold State.loadKernel
  dsimp only
  rw [hgrant]
  dsimp only
  rw [if_neg hv, hread]
  dsimp only
  rw [State.head_modHead_same]
  exact ⟨rfl, rfl, rfl⟩

theorem present_brings (head : Nat) (v : DWord) (hhead : head < 4) : Brings (.present head v) (fun _ => True)
    fun s t => (t.head head).queued = some (v &&& ~~~0x3F#64) ∧
      (t.head head).pdrop = if (s.head head).queued.isSome then sat16 (s.head head).pdrop else (s.head head).pdrop := by
  intro s _
  refine ⟨_, rfl, ?_⟩
  rw [if_pos hhead]
  unfold State.present
  dsimp only
  rw [State.head_modHead_same]
  exact ⟨rfl, rfl⟩

/-! ### Bands -/

theorem bandDispatch_brings (head b f : Nat) : Brings (.bandDispatch head b)
    (fun s => (s.head head).en = true ∧ b < (s.head head).bandCount ∧ (s.head head).due ((s.head head).dispatchAt b) = some f ∧
      (s.head head).band? b f = none)
    fun s t => (t.head head).bands = (s.head head).bands ++ [Band.new b f] := by
  intro s ⟨hen, hb, hdue, hnone⟩
  refine ⟨_, rfl, ?_⟩
  unfold State.dispatch
  dsimp only
  rw [hen, if_neg (by simp; omega), hdue]
  dsimp only
  rw [hnone, if_neg (by simp)]
  have hadd : ((s.modHead head fun x => { x with bands := x.bands ++ [Band.new b f] }).head head).bands = (s.head head).bands ++ [Band.new b f] := by
    rw [State.head_modHead_same]
  split
  · refine (State.takePresent_bands ..).trans (Eq.trans (State.modHead_preserves _ head Head.bands ?_) hadd)
    exact fun _ => rfl
  · exact hadd

theorem State.createMany_heads (s : State) (core : Nat) (ns : List NewWave) : (s.createMany core ns).heads = s.heads := by
  refine List.foldlRecOn ns _ (motive := fun t : State => t.heads = s.heads) rfl fun t ht n _ => ?_
  split
  · exact ht
  · exact ht

theorem bandTeamStart_brings (head b core : Nat) (x : Band) (hdr : Header) (binds : Tab BindSlot) (hcore : core = 192 ∨ core = 193) :
    Brings (.bandTeamStart head b core)
      (fun s => (s.head head).bands.find? (fun y => y.index = b && s.bandWaits (s.head head) y) = some x ∧ (s.head head).image = some (hdr, binds) ∧
        s.bandAhead head x = false ∧ s.roomFor core hdr.waves (hdr.waves * hdr.regblk) = true)
      fun s t => ∃ y ∈ (t.head head).bands, y.index = b ∧ y.frame = x.frame ∧ y.team = some s.uid := by
  intro s ⟨hfind, himage, hahead, hroom⟩
  have hx : x.index = b ∧ s.bandWaits (s.head head) x = true := by simpa using List.find?_some hfind
  have hmem : x ∈ (s.head head).bands := List.mem_of_find?_eq_some hfind
  have hgrant : (s.head head).grant.isSome = true := by
    have hw := hx.2
    unfold State.bandWaits at hw
    simp only [Bool.and_eq_true] at hw
    exact hw.1.1.2
  obtain ⟨p, hp⟩ := Option.isSome_iff_exists.1 hgrant
  refine ⟨_, rfl, ?_⟩
  unfold State.startBand
  dsimp only
  rw [hfind]
  dsimp only
  rw [himage, hp]
  dsimp only
  rw [hahead, hroom, if_neg (by obtain rfl | rfl := hcore <;> simp), State.head_modHead_same, State.head_of_heads (State.createMany_heads ..)]
  refine ⟨{ x with team := some s.uid }, List.mem_map.2 ⟨x, hmem, ?_⟩, hx.1, rfl, rfl⟩
  rw [if_pos (by simp [hx.1])]

/-! ### Latches -/

theorem gazeLatch_brings (head : Nat) : Brings (.gazeLatch head)
    (fun s => (s.head head).en = true ∧ (s.head head).line = (s.head head).gazeLine.toNat ∧ (s.head head).latched % 2 = 0)
    fun s t => (t.head head).gazeLatch = some (s.head head).gaze ∧ (t.head head).gazeLevel = s.gov.level ∧
      (t.head head).latched = (s.head head).latched + 1 := by
  intro s ⟨hen, hline, hlatched⟩
  refine ⟨_, rfl, ?_⟩
  dsimp only
  rw [hen, decide_eq_true hline, decide_eq_true hlatched, if_pos (by rfl)]
  have hw := fun (h : Head) {α : Type} (f : Head → α) => State.writeLatch_head (s.setHead head h) head f
  refine ⟨(hw _ Head.gazeLatch fun _ _ _ => rfl).trans ?_, (hw _ Head.gazeLevel fun _ _ _ => rfl).trans ?_, (hw _ Head.latched fun _ _ _ => rfl).trans ?_⟩
  · rw [State.head_setHead_same]
  · rw [State.head_setHead_same]
  · rw [State.head_setHead_same]

theorem poseLatch_brings (head p : Nat) (s1 : State) (bs : List Byte) : Brings (.poseLatch head)
    (fun s => (s.head head).en = true ∧ (s.head head).line = (s.head head).poseLine.toNat ∧ (s.head head).latched < 2 ∧
      (s.head head).grant = some p ∧
      s.frontRead (s.headReader p head 0) ((s.head head).poseBase + (if (s.head head).poseSel then 64 else 0)) 28 = (s1, .bytes bs))
    fun s t => (t.head head).poseLatch =
      some (bs, (s.head head).poseValid && !((List.range 4).any fun i => isNan32 (pkt bs (4 * i) 4))) := by
  intro s ⟨hen, hline, hlatched, hgrant, hread⟩
  refine ⟨_, rfl, ?_⟩
  unfold State.latchPose
  dsimp only
  rw [hen, if_neg (by simp [hline]; omega), hgrant]
  dsimp only
  rw [hread]
  refine (State.writeLatch_head _ head Head.poseLatch fun _ _ _ => rfl).trans ?_
  rw [State.head_modHead_same]

/-! ### BAND_DEADLINE -/

/-- The path by which a late band is sent. -/
def Head.pathOf (h : Head) (f : Nat) (x : Band) : Nat :=
  if x.intime = some true then 0
  else if (match (h.presentFor f).map (·.2) with | some d => bitOf (pkt d 17 1) 0 | none => false) &&
      (match h.poseLatch with | some l => l.2 | none => false) then 1
  else if ((h.presentFor f).map (·.2)).isSome then 2 else 3

/-- A band at its deadline: closed, with its source. -/
def Head.closedBand (h : Head) (f : Nat) (x : Band) : Band :=
  { x with closed := true, source := some (h.pathOf f x), present := (h.presentFor f).map (·.2), pose := (h.poseLatch.map (·.1)).getD [] }

/-- A head that closes a band. -/
def Head.closes (h : Head) (b f : Nat) (x : Band) : Head :=
  if (h.band? b f).isSome then h.modBand b f fun _ => h.closedBand f x else { h with bands := h.bands ++ [h.closedBand f x] }

/-- A head that closes a band and counts the path that it fell back to. -/
def Head.closesAndCounts (h : Head) (b f : Nat) (x : Band) : Head :=
  if h.pathOf f x = 1 then { h.closes b f x with fb1 := sat16 (h.closes b f x).fb1 }
  else if h.pathOf f x = 2 then { h.closes b f x with fb2 := sat16 (h.closes b f x).fb2 } else h.closes b f x

theorem Head.closesAndCounts_bands (h : Head) (b f : Nat) (x : Band) : (h.closesAndCounts b f x).bands = (h.closes b f x).bands := by
  unfold Head.closesAndCounts
  split
  · rfl
  · split
    · rfl
    · rfl

/-- BAND_DEADLINE in terms of the head that closes its band. -/
theorem State.deadline_def (s0 : State) (head b : Nat) :
    s0.deadline head b =
      let s := if ((s0.head head).due (deadlineAt b)).isSome then s0.latchPose head else s0
      if !(s.head head).en || b ≥ (s.head head).bandCount then s0
      else match (s.head head).due (deadlineAt b) with
        | none => s0
        | some f =>
          if (((s.head head).band? b f).getD (Band.new b f)).closed then s0
          else s.setHead head ((s.head head).closesAndCounts b f (((s.head head).band? b f).getD (Band.new b f))) := rfl

theorem State.deadline_eq {s : State} {head b f : Nat} {x : Band} (hdue0 : (s.head head).due (deadlineAt b) = some f)
    (hen : ((s.latchPose head).head head).en = true) (hb : b < ((s.latchPose head).head head).bandCount)
    (hdue : ((s.latchPose head).head head).due (deadlineAt b) = some f) (hx : (((s.latchPose head).head head).band? b f).getD (Band.new b f) = x)
    (hopen : x.closed = false) :
    s.deadline head b = (s.latchPose head).setHead head (((s.latchPose head).head head).closesAndCounts b f x) := by
  have hs : (if ((s.head head).due (deadlineAt b)).isSome then s.latchPose head else s) = s.latchPose head := by
    rw [hdue0]
    rfl
  rw [State.deadline_def]
  dsimp only
  rw [hs, hen, if_neg (by simpa using hb : ¬ (!true || decide (((s.latchPose head).head head).bandCount ≤ b)) = true), hdue]
  dsimp only
  rw [hx]
  exact if_neg (by simp [hopen])

/-- The closed band is the one that is found. -/
theorem Head.band?_closes {h : Head} {b f : Nat} {x : Band} (hx : x = (h.band? b f).getD (Band.new b f)) :
    (h.closes b f x).band? b f = some (h.closedBand f x) := by
  unfold Head.closes
  cases hfind : h.band? b f with
  | none =>
    rw [hfind] at hx
    rw [if_neg (by simp)]
    unfold Head.band? at hfind ⊢
    rw [List.find?_append, hfind, hx]
    simp [Head.closedBand, Band.new]
  | some y =>
    rw [hfind] at hx
    have hy : y.index = b ∧ y.frame = f := by simpa using List.find?_some hfind
    have hxy : x = y := hx
    rw [if_pos (by rfl)]
    unfold Head.band? Head.modBand at *
    rw [List.find?_map]
    have hp : ((fun x : Band => decide (x.index = b) && decide (x.frame = f)) ∘ fun z => if z.index = b && z.frame = f then h.closedBand f x else z) =
        fun x => decide (x.index = b) && decide (x.frame = f) := by
      funext z
      dsimp only [Function.comp_apply]
      split
      next hz => rw [hz, hxy]; simp [Head.closedBand, hy]
      next => rfl
    rw [hp, hfind]
    simp [hy]

theorem bandDeadline_brings (head b f : Nat) (x : Band) : Brings (.bandDeadline head b)
    (fun s => (s.head head).en = true ∧ b < (s.head head).bandCount ∧ (s.head head).due (deadlineAt b) = some f ∧
      x = ((s.head head).band? b f).getD (Band.new b f) ∧ x.closed = false)
    fun s t => ∃ y, (t.head head).band? b f = some y ∧ y.closed = true ∧
      (x.intime = some true → y.source = some 0) ∧
      (x.intime ≠ some true → ((s.head head).presentFor f).isNone = true → y.source = some 3) ∧
      (x.intime ≠ some true → ∀ d, (s.head head).presentFor f = some d →
        y.source = some (if bitOf (pkt d.2 17 1) 0 && (match ((s.latchPose head).head head).poseLatch with | some l => l.2 | none => false) then 1 else 2)) := by
  intro s ⟨hen, hb, hdue, hx, hopen⟩
  have hsame := fun {α : Type} (f : Head → α) => s.latchPose_head head f
  have hbands := hsame Head.bands (fun _ _ _ => rfl) fun _ _ _ => rfl
  have hband : ((s.latchPose head).head head).band? b f = (s.head head).band? b f := by
    unfold Head.band?
    rw [hbands]
  have hpresent : ((s.latchPose head).head head).presentFor f = (s.head head).presentFor f :=
    hsame (fun h => h.presentFor f) (fun _ _ _ => rfl) fun _ _ _ => rfl
  have hdead := State.deadline_eq hdue ((hsame Head.en (fun _ _ _ => rfl) fun _ _ _ => rfl).trans hen)
    ((hsame Head.bandCount (fun _ _ _ => rfl) fun _ _ _ => rfl).symm ▸ hb)
    ((hsame (fun h => h.due (deadlineAt b)) (fun _ _ _ => rfl) fun _ _ _ => rfl).trans hdue) (by rw [hband]; exact hx.symm) hopen
  have hfound : (((s.latchPose head).head head).closesAndCounts b f x).band? b f = some (((s.latchPose head).head head).closedBand f x) := by
    have hc := Head.band?_closes (h := (s.latchPose head).head head) (b := b) (f := f) (x := x) (by rw [hband]; exact hx)
    unfold Head.band? at hc ⊢
    rw [Head.closesAndCounts_bands]
    exact hc
  refine ⟨_, rfl, ((s.latchPose head).head head).closedBand f x, ?_, rfl, fun hin => ?_, fun hlate hnone => ?_, fun hlate d hd => ?_⟩
  · rw [hdead, State.head_setHead_same]
    exact hfound
  · exact congrArg some (if_pos hin)
  · rw [Option.isNone_iff_eq_none] at hnone
    refine congrArg some ?_
    unfold Head.pathOf
    rw [if_neg hlate, hpresent, hnone]
    rfl
  · refine congrArg some ?_
    unfold Head.pathOf
    rw [if_neg hlate, hpresent, hd]
    rfl

/-! ### LINE_SCANOUT -/

theorem State.nextLine_line (s : State) (h : Head) : (s.nextLine h).line = if h.line < h.vtotal.toNat then h.line + 1 else 0 := by
  unfold State.nextLine State.judge
  dsimp only
  split
  · rfl
  · rfl

theorem State.nextLine_out (s : State) (h : Head) : (s.nextLine h).out = h.out := by
  unfold State.nextLine State.judge
  dsimp only
  split
  · rfl
  · rfl

theorem State.nextLine_fb3 (s : State) (h : Head) : (s.nextLine h).fb3 = h.fb3 := by
  unfold State.nextLine State.judge
  dsimp only
  split
  · rfl
  · rfl

/-- Reading the source of a line changes no head. -/
theorem State.lineSource_head (s : State) (k : Nat) (ready : Bool) : (s.lineSource k ready).1.head k = s.head k := by
  unfold State.lineSource
  dsimp only
  split
  next x p _ _ =>
    split
    · unfold State.slotLine
      dsimp only
      have hread := State.frontRead_head s (s.headReader p k 2)
        ((s.head k).slotOf x.index + BitVec.ofNat 64 ((s.head k).line % 16 * (s.head k).pitch)) (4 * ((s.head k).hact.toNat + 1)) k
      split
      next s1 _ hr => rw [hr] at hread; exact hread
      next s1 _ _ hr => rw [hr] at hread; exact hread
    · rfl
    · rfl
    · rfl
  · rfl

/-- What a line that is sent leaves of its head. -/
def Head.sentAs (h : Head) (n : Nat) (src : Option (List Word)) : Head :=
  match src with
  | some l => { h with out := h.wire n l, lastLine := l, sent := true }
  | none => { h with out := h.wire n (if h.sent then h.lastLine else List.replicate (h.hact.toNat + 1) 0), fb3 := sat16 h.fb3 }

/-- The head after LINE_SCANOUT, by where the line lies and who holds the head. -/
theorem State.scanLine_head {s : State} {k : Nat} {ready : Bool} (hstop : (s.head k).stopping = false) (hen : (s.head k).en = true)
    (howes : (s.head k).owes = false) : ∃ v : State,
      (s.scanLine k ready).head k = v.nextLine (
        if ((s.headWork k).head k).line > ((s.headWork k).head k).vact.toNat then { (s.headWork k).head k with out := [] }
        else if ((s.headWork k).head k).grant.isNone then
          { (s.headWork k).head k with
            out := ((s.headWork k).head k).wire (s.headWork k).freeCtr (List.replicate (((s.headWork k).head k).hact.toNat + 1) 0) }
        else ((s.headWork k).head k).sentAs (s.headWork k).freeCtr ((s.headWork k).lineSource k ready).2) := by
  unfold State.scanLine
  dsimp only
  rw [hstop, if_neg (by simp), hen, howes, if_neg (by simp)]
  split
  · exact ⟨_, State.head_setHead_same ..⟩
  · split
    · exact ⟨_, State.head_setHead_same ..⟩
    · have hsrc := (s.headWork k).lineSource_head k ready
      split
      next s1 l hl =>
        rw [hl] at hsrc
        refine ⟨s1, (State.head_setHead_same ..).trans ?_⟩
        rw [hl, hsrc]
        rfl
      next s1 hl =>
        rw [hl] at hsrc
        refine ⟨s1, (State.head_setHead_same ..).trans ?_⟩
        rw [hl, hsrc]
        rfl

theorem lineScanout_brings (head : Nat) (ready : Bool) : Brings (.lineScanout head ready)
    (fun s => (s.head head).stopping = false ∧ (s.head head).en = true ∧ (s.head head).owes = false)
    fun s t =>
      let u := s.headWork head
      let h := u.head head
      let black := List.replicate (h.hact.toNat + 1) (0 : Word)
      ((t.head head).line = if h.line < h.vtotal.toNat then h.line + 1 else 0) ∧
      (h.vact.toNat < h.line → (t.head head).out = []) ∧
      (h.line ≤ h.vact.toNat → h.grant = none → (t.head head).out = h.wire u.freeCtr black) ∧
      (h.line ≤ h.vact.toNat → h.grant ≠ none → ∀ l, (u.lineSource head ready).2 = some l → (t.head head).out = h.wire u.freeCtr l) ∧
      (h.line ≤ h.vact.toNat → h.grant ≠ none → (u.lineSource head ready).2 = none →
        (t.head head).fb3 = sat16 h.fb3 ∧ (t.head head).out = h.wire u.freeCtr (if h.sent then h.lastLine else black)) := by
  intro s ⟨hstop, hen, howes⟩
  obtain ⟨v, hv⟩ := State.scanLine_head (ready := ready) hstop hen howes
  refine ⟨_, rfl, ?_⟩
  dsimp only
  rw [hv, State.nextLine_line, State.nextLine_out, State.nextLine_fb3]
  refine ⟨?_, fun hblank => ?_, fun hact hgrant => ?_, fun hact hgrant l hl => ?_, fun hact hgrant hl => ?_⟩
  · split
    · rfl
    · split
      · rfl
      · unfold Head.sentAs
        split
        · rfl
        · rfl
  · rw [if_pos hblank]
  · rw [if_neg (Nat.not_lt.2 hact), if_pos (by rw [hgrant]; rfl)]
  · rw [if_neg (Nat.not_lt.2 hact), if_neg (by simpa using hgrant), hl]
    rfl
  · rw [if_neg (Nat.not_lt.2 hact), if_neg (by simpa using hgrant), hl]
    exact ⟨rfl, rfl⟩

/-! ### Motion estimation, and the heads as a whole -/

theorem motionEstimation_brings (head f : Nat) (new old : DWord × List Byte) (p : Nat) (s1 : State) (o1 : FrontWrite) (s2 : State) (o2 : FrontWrite)
    (ho1 : o1 ≠ .wait) (ho2 : o2 ≠ .wait) : Brings (.motionEstimation head)
    (fun s => let h := s.head head
      h.estimate = some f ∧ h.effect = some new ∧ h.previous = some old ∧ h.grant = some p ∧ h.boundary = none ∧
      s.frontWrite (s.headReader p head 4) (h.motionAt new.2 + 64) (s.motionWords h new.2 old.2) = (s1, o1) ∧
      s1.frontWrite (s.headReader p head 4) (h.motionAt new.2) (leBytes 8 f) = (s2, o2))
    fun _ t => (t.head head).estimate = none ∧ t.mem = s2.mem := by
  intro s ⟨hestimate, heffect, hprevious, hgrant, hboundary, hw1, hw2⟩
  refine ⟨_, rfl, ?_⟩
  have hends : s.estimateMotion head = (s2.modHead head fun x => { x with estimate := none }).draw := by
    unfold State.estimateMotion
    dsimp only
    rw [hestimate, heffect, hprevious, hgrant]
    dsimp only
    rw [hboundary, if_neg (by simp), hw1]
    cases o1 with
    | wait => exact absurd rfl ho1
    | fault _ =>
      dsimp only
      rw [hw2]
      cases o2 with
      | wait => exact absurd rfl ho2
      | fault _ => rfl
      | done => rfl
    | done =>
      dsimp only
      rw [hw2]
      cases o2 with
      | wait => exact absurd rfl ho2
      | fault _ => rfl
      | done => rfl
  rw [hends]
  exact ⟨congrArg Head.estimate (State.head_modHead_same s2 head fun x => { x with estimate := none }), rfl⟩

/-- Settles O53: each event of a head, with what its reads and writes on the way leave of the head. -/
theorem lustreEventsTakeEffect : Obligations.LustreEventsTakeEffect := by
  refine ⟨headEnable_brings, headDisable_brings, scanKernelLoad_loads, scanKernelLoad_waits, present_brings, bandDispatch_brings, bandTeamStart_brings,
    bandDeadline_brings, gazeLatch_brings, poseLatch_brings, lineScanout_brings, ?stops, motionEstimation_brings⟩
  intro head s hstop
  refine ⟨_, rfl, ?_⟩
  unfold State.scanLine
  dsimp only
  rw [if_pos hstop, State.head_setHead_same]
  exact ⟨rfl, rfl⟩

end Sys2Proof.Machine
end


section
/-!
SUPPORT. What evictions and writes at the slices leave: the miss slots, the walk requests and, of an eviction, the buckets.
-/
namespace Sys2Proof.Machine

/-- What writes at the slices leave: the slots of each slice, and the walk requests. -/
def State.asks (s : State) : (Nat → List MissSlot) × Tab (List Walk) := (fun k => (s.slice k).slots, s.walks)

/-- What evictions leave besides: the buckets. -/
def State.places (s : State) : Tab Bucket × (Nat → List MissSlot) × Tab (List Walk) := (s.buckets, s.asks)

theorem State.asks_slots {s t : State} (h : s.asks = t.asks) (k : Nat) : (s.slice k).slots = (t.slice k).slots := congrArg (fun a => a.1 k) h
theorem State.asks_walks {s t : State} (h : s.asks = t.asks) : s.walks = t.walks := congrArg (·.2) h
theorem State.places_asks {s t : State} (h : s.places = t.places) : s.asks = t.asks := congrArg (·.2) h
theorem State.places_buckets {s t : State} (h : s.places = t.places) : s.buckets = t.buckets := congrArg (·.1) h

theorem State.foldl_places {α : Type} {f : State → α → State} (h : ∀ t a, (f t a).places = t.places) (l : List α) (s : State) :
    (l.foldl f s).places = s.places :=
  List.foldlRecOn l f (motive := fun t => t.places = s.places) rfl fun t ht a _ => (h t a).trans ht

theorem State.foldl_asks {α : Type} {f : State → α → State} (h : ∀ t a, (f t a).asks = t.asks) (l : List α) (s : State) :
    (l.foldl f s).asks = s.asks :=
  List.foldlRecOn l f (motive := fun t => t.asks = s.asks) rfl fun t ht a _ => (h t a).trans ht

/-! ### Evictions -/

/-- A slice whose slots stay as they are. -/
theorem State.setSlice_places (s : State) {k : Nat} {x : Slice} (h : x.slots = (s.slice k).slots) : (s.setSlice k x).places = s.places := by
  refine Prod.ext rfl (Prod.ext (funext fun j => ?_) rfl)
  by_cases hj : j = k
  · rw [hj]
    exact (congrArg Slice.slots (State.slice_setSlice_same s k x)).trans h
  · exact congrArg Slice.slots (State.slice_setSlice_ne s x hj)

/-- A change of every slice that leaves its slots. -/
theorem State.mapSlices_places (s : State) (g : Slice → Slice) (h : ∀ x, (g x).slots = x.slots) :
    State.places { s with slices := s.slices.map fun e => (e.1, g e.2) } = s.places := by
  refine Prod.ext rfl (Prod.ext (funext fun j => ?_) rfl)
  show (Tab.get Slice.reset (s.slices.map fun e => (e.1, g e.2)) j).slots = (s.slices.get Slice.reset j).slots
  rcases Tab.get_map_or Slice.reset g s.slices j with hs | hs
  · rw [hs, h]
  · rw [hs]

@[simp] theorem State.markWords_places (s : State) (ws : List Nat) (bad : Bool) : (s.markWords ws bad).places = s.places := rfl
@[simp] theorem State.setGenLine_places (s : State) (p line : Nat) (g : Option GenLine) : (s.setGenLine p line g).places = s.places := rfl
@[simp] theorem State.putLine_places (s : State) (slice n : Nat) (x : Line) : (s.putLine slice n x).places = s.places :=
  State.setSlice_places s rfl

@[simp] theorem State.sealBlock_places (s : State) (block : Nat) : (s.sealBlock block).places = s.places := by
  unfold State.sealBlock
  split
  · rfl
  · rfl

@[simp] theorem State.readBlock64_places (s : State) (block : Nat) : (s.readBlock64 block).places = s.places := by
  have hu : ∀ (st : State) (l : List Nat), ({ st with latent := l } : State).places = st.places := fun _ _ => rfl
  have hs : (({ s.sealBlock block with due := s.due ++ [.tag block] } : State).markWords ((List.range 8).map fun i => 8 * block + i) true).places =
      s.places := State.sealBlock_places s block
  unfold State.readBlock64
  simp only [apply_ite State.places, hu, hs, ite_self]

@[simp] theorem State.readLine128_places (s : State) (line : Nat) : (s.readLine128 line).places = s.places := by
  simp [State.readLine128]

@[simp] theorem State.writeBack_places (s : State) (line : Nat) : (s.writeBack line).places = s.places := by
  unfold State.writeBack
  split
  · rfl
  · refine State.foldl_places (fun t b => ?_) _ s
    dsimp only
    split
    · rfl
    · rfl

@[simp] theorem State.uncover_places (s : State) (line : Nat) (dirty : Bool) : (s.uncover line dirty).places = s.places := by
  unfold State.uncover
  dsimp only
  split
  · rfl
  · split
    · rfl
    · rfl

@[simp] theorem State.dropLine_places (s : State) (slice n : Nat) : (s.dropLine slice n).places = s.places := by
  unfold State.dropLine
  split
  · rfl
  · extract_lets line s1 sl
    have h1 : s1.places = s.places := by simp [s1, apply_ite State.places]
    exact (State.setSlice_places s1 (by rfl)).trans h1

@[simp] theorem State.victimPut_places (s : State) (part : Nat) (k : LineKey) (bytes : List Byte) : (s.victimPut part k bytes).places = s.places := by
  unfold State.victimPut
  dsimp only
  split
  · rfl
  · split
    · rfl
    · rfl

@[simp] theorem State.forgetGuests_places (s : State) (code : Nat) : (s.forgetGuests code).places = s.places := by
  unfold State.forgetGuests
  split
  · exact State.mapSlices_places s (fun x => { x with guests := Tab.erase x.guests code }) fun _ => rfl
  · rfl

@[simp] theorem State.evict_places (s : State) (slice : Nat) (h : Held) : (s.evict slice h).places = s.places := by
  match h with
  | .line (.phys n) => exact State.dropLine_places s slice n
  | .line (.gen p l) =>
    unfold State.evict
    dsimp only
    split
    · simp [apply_ite State.places]
    · simp
  | .guest c => exact State.setSlice_places s rfl

theorem State.makeSpace?_places {s t : State} {slice code : Nat} (h : s.makeSpace? slice code = some t) : t.places = s.places := by
  unfold State.makeSpace? at h
  split at h
  · obtain ⟨v, -, rfl⟩ := Option.map_eq_some_iff.mp h
    exact State.evict_places s slice v
  · split at h
    · obtain ⟨v, -, rfl⟩ := Option.map_eq_some_iff.mp h
      exact State.evict_places s slice v
    · cases h
      rfl

theorem State.placeGen_places {s t : State} {slice part line : Nat} {x : GenLine} (h : s.placeGen slice part line x = some t) :
    t.places = s.places := by
  obtain ⟨u, hu, rfl⟩ := Option.map_eq_some_iff.mp h
  exact (State.setGenLine_places u _ _ _).trans (State.makeSpace?_places hu)

@[simp] theorem State.modLine_places (s : State) (slice n : Nat) (f : Line → Line) : (s.modLine slice n f).places = s.places := by
  unfold State.modLine
  split
  · exact State.putLine_places ..
  · rfl

theorem State.enter_places {s t : State} {slice part n : Nat} (h : s.enter slice part n = some t) : t.places = s.places := by
  obtain ⟨u, hu, rfl⟩ := Option.map_eq_some_iff.mp h
  simp [apply_ite State.places, State.makeSpace?_places hu]

@[simp] theorem State.countInval_places (s : State) (code : Nat) : (s.countInval code).places = s.places := State.setSlice_places s rfl

@[simp] theorem State.clearGuest_places (s : State) (g : Nat × Nat) : (s.clearGuest g).places = s.places := by
  have hgone : ∀ (t : State) (gs is : List (Nat × Nat)), ({ t with guests := gs, invals := is } : State).places = t.places := fun _ _ _ => rfl
  unfold State.clearGuest
  dsimp only
  rw [hgone]
  split
  · exact State.setSlice_places s rfl
  · rfl

@[simp] theorem State.dropGuest_places (s : State) (g : Nat × Nat) : (s.dropGuest g).places = s.places := by
  unfold State.dropGuest
  split
  · rfl
  · simp [apply_ite State.places]

@[simp] theorem State.dropGuests_places (s : State) (line : Nat) : (s.dropGuests line).places = s.places :=
  State.foldl_places State.dropGuest_places _ s

@[simp] theorem State.dropCopies_places (s : State) (k : LineKey) : (s.dropCopies k).places = s.places :=
  State.foldl_places State.dropGuest_places _ s

/-! ### Writes at the slices -/

@[simp] theorem State.countRequest_asks (s : State) (p : Nat) (k : LineKey) : (s.countRequest p k).asks = s.asks := rfl

theorem State.touchLine?_asks {s t : State} {p line : Nat} {f : Line → Line} (h : s.touchLine? p line f = some t) : t.asks = s.asks := by
  unfold State.touchLine? at h
  dsimp only at h
  split at h
  · cases h
    exact (State.places_asks (State.modLine_places ..)).trans (State.countRequest_asks ..)
  · split at h
    · cases h
      rfl
    · obtain ⟨u, hu, rfl⟩ := Option.map_eq_some_iff.mp h
      exact (State.places_asks ((State.modLine_places ..).trans (State.enter_places hu))).trans (State.countRequest_asks ..)

@[simp] theorem State.touchLine_asks (s : State) (p line : Nat) (f : Line → Line) : (s.touchLine p line f).asks = s.asks := by
  unfold State.touchLine
  cases h : s.touchLine? p line f with
  | none => rfl
  | some t => exact State.touchLine?_asks h

@[simp] theorem State.touchWalk_asks (s : State) (part : Nat) (va : DWord) : (s.touchWalk part va).asks = s.asks :=
  State.foldl_asks (fun t l => State.touchLine_asks t part l id) _ s

@[simp] theorem State.markLine_asks (s : State) (p line : Nat) (bs : List ByteWrite) (poisoned nt : Bool) :
    (s.markLine p line bs poisoned nt).asks = s.asks := by
  unfold State.markLine
  extract_lets covered s1 n h
  have h1 : s1.asks = s.asks := State.touchLine_asks ..
  split
  · split
    · exact (State.places_asks (State.putLine_places ..)).trans h1
    · exact h1
  · exact h1

@[simp] theorem State.performWrites_asks (s : State) (p : Nat) (bs : List ByteWrite) (poisoned nt : Bool) (keep : Option (Nat × Nat)) :
    (s.performWrites p bs poisoned nt keep).asks = s.asks := by
  unfold State.performWrites
  extract_lets bs' lines s0 s1 s2 words s3 hosts s4
  have h0 : s0.asks = s.asks := by
    unfold s0
    split
    · rfl
    · exact State.foldl_asks (fun t b => State.places_asks (t.sealBlock_places b)) _ _
  have h1 : s1.asks = s.asks := (State.foldl_asks (fun t l => State.markLine_asks t p l _ poisoned nt) lines s0).trans h0
  have h3 : s3.asks = s1.asks := by
    unfold s3
    split
    · rfl
    · split
      · rfl
      · rfl
  have h4 : s4.asks = s3.asks := by
    unfold s4
    split
    · rfl
    · rfl
  rw [← h1, ← h3, ← h4]
  exact State.foldl_asks (f := fun st line => st.breakReservations line keep) (fun _ _ => rfl) lines s4

@[simp] theorem State.writePhys_asks (s : State) (p pa : Nat) (bs : List Byte) (poisoned : Bool) : (s.writePhys p pa bs poisoned).asks = s.asks := by
  unfold State.writePhys
  dsimp only
  rw [State.performWrites_asks]
  split
  · rfl
  · exact State.foldl_asks (fun t l => State.places_asks (t.dropGuests_places l)) _ s

/-! ### Error records -/

/-- What records leave of the slots and the walk requests: the slots, and the requests of others than the rings. -/
def State.asksOfOthers (s : State) : (Nat → List MissSlot) × (Nat → List Walk) :=
  (s.asks.1, fun k => (s.walksOf k).filter fun w => w.req ≠ ringReq)

theorem State.asksOfOthers_of_asks {s t : State} (h : s.asks = t.asks) : s.asksOfOthers = t.asksOfOthers := by
  unfold State.asksOfOthers State.walksOf
  rw [State.asks_walks h, h]

theorem State.deviceRecord_asks (s : State) (r : BitVec 256) : (s.deviceRecord r).asks = s.asks := by
  obtain ⟨m, ring, prod, buf, lost, irqs, h⟩ := s.deviceRecord_only r
  rw [h]
  rfl

theorem State.setWalks_asksOfOthers {s : State} {k : Nat} {l : List Walk}
    (h : l.filter (fun w => w.req ≠ ringReq) = (s.walksOf k).filter fun w => w.req ≠ ringReq) : (s.setWalks k l).asksOfOthers = s.asksOfOthers := by
  refine Prod.ext rfl (funext fun j => ?_)
  dsimp only [State.asksOfOthers, State.walksOf, State.setWalks]
  by_cases hj : j = k
  · rw [hj, Tab.get_put_same]
    exact h
  · rw [Tab.get_put_ne _ _ _ hj]

theorem State.dropWalks_asksOfOthers (s : State) (core : Nat) : (s.dropWalks core ringReq).asksOfOthers = s.asksOfOthers := by
  unfold State.dropWalks
  dsimp only
  split
  · refine State.setWalks_asksOfOthers ?_
    rw [List.filter_filter]
    refine List.filter_congr fun w _ => ?_
    simp
  · rfl

theorem State.requestWalk_asksOfOthers (s : State) (core part agent : Nat) (k : AccessKind) (va : DWord) :
    (s.requestWalk core part ringReq agent k va).asksOfOthers = s.asksOfOthers := by
  unfold State.requestWalk
  dsimp only
  split
  · rfl
  · refine State.setWalks_asksOfOthers ?_
    simp

theorem State.writeRing_asks (s : State) (part : Nat) (va : DWord) (bs : List Byte) :
    (∀ t, s.writeRing part va bs = .written t → t.asksOfOthers = s.asksOfOthers) ∧
      ∀ t, s.writeRing part va bs = .wait t → t.asksOfOthers = s.asksOfOthers := by
  unfold State.writeRing
  extract_lets core k
  split
  · split
    · exact ⟨fun t h => (by cases h), fun t h => (by cases h; rfl)⟩
    · refine ⟨fun t h => ?_, fun t h => by cases h⟩
      cases h
      exact (State.asksOfOthers_of_asks ((State.writePhys_asks ..).trans (State.touchWalk_asks ..))).trans (State.dropWalks_asksOfOthers ..)
  · exact ⟨fun t h => (by cases h), fun t h => by cases h; exact State.requestWalk_asksOfOthers ..⟩
  · exact ⟨fun t h => (by cases h), fun t h => by cases h⟩

theorem State.partRecord_asksOfOthers (s : State) (part : Nat) (r : BitVec 256) : (s.partRecord part r).asksOfOthers = s.asksOfOthers := by
  unfold State.partRecord
  extract_lets p lost hold x va
  have hlost : ∀ t, (lost t).asksOfOthers = t.asksOfOthers := fun _ => rfl
  have hhold : ∀ t, (hold t).asksOfOthers = t.asksOfOthers := fun t => by
    unfold hold
    split
    · rfl
    · rfl
  obtain ⟨hwritten, hwait⟩ := s.writeRing_asks part va (leBytes 32 x.toNat)
  split
  · split
    next t h =>
      dsimp only
      split
      · exact hwritten t h
      · exact hwritten t h
    next t h => exact (hhold t).trans (hwait t h)
    next => exact (hlost _).trans (State.dropWalks_asksOfOthers ..)
  · exact hhold s

theorem State.record_asksOfOthers (s : State) (r : ErrRec) : (s.record r).asksOfOthers = s.asksOfOthers := by
  unfold State.record
  dsimp only
  split
  · exact (State.partRecord_asksOfOthers ..).trans (State.asksOfOthers_of_asks (State.deviceRecord_asks ..))
  · exact State.asksOfOthers_of_asks (State.deviceRecord_asks ..)

/-- A record leaves the slots of every slice. -/
theorem State.record_slots (s : State) (r : ErrRec) (k : Nat) : ((s.record r).slice k).slots = (s.slice k).slots :=
  congrArg (fun a => a.1 k) (s.record_asksOfOthers r)

/-- A record leaves the walk requests of all but the rings. -/
theorem State.mem_walksOf_record {s : State} {r : ErrRec} {k : Nat} {w : Walk} (hw : w ∈ s.walksOf k) (hreq : w.req ≠ ringReq) :
    w ∈ (s.record r).walksOf k := by
  have h : w ∈ ((s.record r).walksOf k).filter fun w => w.req ≠ ringReq := by
    have hkeep : ((s.record r).walksOf k).filter (fun w => w.req ≠ ringReq) = (s.walksOf k).filter fun w => w.req ≠ ringReq :=
      congrArg (fun a => a.2 k) (s.record_asksOfOthers r)
    rw [hkeep]
    exact List.mem_filter.2 ⟨hw, by simpa using hreq⟩
  exact List.mem_of_mem_filter h

end Sys2Proof.Machine
end


section
/-!
Obligation O45: the events of a slice.
-/
namespace Sys2Proof.Machine

/-! ### Codes of lines -/

theorem LineKey.ofCode_code_phys (n : Nat) : LineKey.ofCode (LineKey.phys n).code = .phys n := by
  unfold LineKey.ofCode LineKey.code
  dsimp only
  rw [if_pos (by omega), Nat.mul_div_cancel_left n (by omega)]

theorem LineKey.ofCode_code_gen {p : Nat} (l : Nat) (hp : p < 32) : LineKey.ofCode (LineKey.gen p l).code = .gen p l := by
  unfold LineKey.ofCode LineKey.code
  dsimp only
  rw [if_neg (by omega)]
  congr 1
  · omega
  · omega

theorem LineKey.code_ofCode (n : Nat) : (LineKey.ofCode n).code = n := by
  unfold LineKey.ofCode
  split
  · unfold LineKey.code
    dsimp only
    omega
  · unfold LineKey.code
    dsimp only
    omega

/-! ### Whether a slice has space -/

/-- A slice has space for a line when nothing is full, or something that may leave is in the way. -/
theorem State.hasSpace_eq (s : State) (slice code : Nat) : s.hasSpace slice code =
    if s.setFull slice code then (s.oldestOf slice (s.setOf slice code)).isSome
    else if s.sliceFull slice then (s.oldestOf slice (s.heldAt slice)).isSome else true := by
  unfold State.hasSpace State.makeSpace?
  split
  · exact Option.isSome_map
  · split
    · exact Option.isSome_map
    · rfl

theorem State.home_congr {s t : State} (hparts : t.parts = s.parts) (hbuckets : t.buckets = s.buckets) (p : Nat) (k : LineKey) :
    t.home p k = s.home p k := by
  unfold State.home State.bucketOf State.hashBits State.genAt State.bucket State.part
  rw [hparts, hbuckets]

/-- Two states with one view of a slice: the same lines and guest copies there, and the same waves, partitions, buckets and generated lines. -/
structure State.SameSlice (s t : State) (slice : Nat) : Prop where
  cores : t.cores = s.cores
  parts : t.parts = s.parts
  buckets : t.buckets = s.buckets
  genLines : t.genLines = s.genLines
  lines : (t.slice slice).lines = (s.slice slice).lines
  guests : (t.slice slice).guests = (s.slice slice).guests

theorem State.SameSlice.heldAt {s t : State} {slice : Nat} (h : s.SameSlice t slice) : t.heldAt slice = s.heldAt slice := by
  unfold State.heldAt
  simp only [State.home_congr h.parts h.buckets, h.genLines, h.lines, h.guests]

theorem State.SameSlice.evictable {s t : State} {slice : Nat} (h : s.SameSlice t slice) (x : Held) : t.evictable slice x = s.evictable slice x := by
  match x with
  | .line (.phys n) =>
    unfold State.evictable State.pinnedLine State.reservedLine State.copyPart State.gddrOwner State.part
    rw [h.lines, h.parts, h.cores]
  | .line (.gen p l) =>
    unfold State.evictable State.genLine
    dsimp only
    rw [h.genLines, State.home_congr h.parts h.buckets]
    unfold State.pinnedLine State.reservedLine State.part
    rw [h.parts, h.cores]
  | .guest c =>
    unfold State.evictable
    rw [h.guests]

theorem State.SameSlice.ageOf {s t : State} {slice : Nat} (h : s.SameSlice t slice) (x : Held) : t.ageOf slice x = s.ageOf slice x := by
  unfold State.ageOf State.genLine
  rw [h.lines, h.guests, h.genLines]

theorem State.SameSlice.oldestOf {s t : State} {slice : Nat} (h : s.SameSlice t slice) (xs : List Held) :
    t.oldestOf slice xs = s.oldestOf slice xs := by
  have hev : t.evictable slice = s.evictable slice := funext h.evictable
  unfold State.oldestOf
  simp only [hev, h.ageOf]

theorem State.SameSlice.setFull {s t : State} {slice : Nat} (h : s.SameSlice t slice) (code : Nat) : t.setFull slice code = s.setFull slice code := by
  unfold State.setFull State.setOf
  rw [h.heldAt]

theorem State.SameSlice.sliceFull {s t : State} {slice : Nat} (h : s.SameSlice t slice) : t.sliceFull slice = s.sliceFull slice := by
  unfold State.sliceFull State.contextLines State.contextCount State.contextBucket State.sharedClusters State.bucket State.part
  dsimp only
  rw [h.heldAt, h.lines, h.guests, h.genLines, h.parts, h.buckets]

theorem State.SameSlice.hasSpace {s t : State} {slice : Nat} (h : s.SameSlice t slice) (code : Nat) : t.hasSpace slice code = s.hasSpace slice code := by
  rw [State.hasSpace_eq, State.hasSpace_eq, h.setFull, h.sliceFull, h.heldAt, h.oldestOf, State.setOf, State.setOf, h.heldAt, h.oldestOf]

/-! ### Lines that arrive -/

theorem State.lines_putLine (s : State) (slice n : Nat) (x : Line) : Tab.find ((s.putLine slice n x).slice slice).lines n = some x := by
  unfold State.putLine
  rw [State.slice_setSlice_same]
  exact Tab.find_put_same ..

/-- An arriving line is in its slice, where no slot waits for it any more. -/
theorem State.arrive_brings {s : State} {slice part n : Nat}
    (h : (Tab.find (s.slice slice).lines n).isSome = true ∨ s.hasSpace slice (LineKey.phys n).code = true) :
    (s.arrive slice part n).mem = s.mem ∧ (Tab.find ((s.arrive slice part n).slice slice).lines n).isSome = true ∧
      ∀ x ∈ ((s.arrive slice part n).slice slice).slots, x.key ≠ .line (.phys n) := by
  have hfree : ∀ t : State, t.mem = s.mem → (Tab.find (t.slice slice).lines n).isSome = true →
      (t.freeSlot slice (.line (.phys n))).mem = s.mem ∧ (Tab.find ((t.freeSlot slice (.line (.phys n))).slice slice).lines n).isSome = true ∧
        ∀ x ∈ ((t.freeSlot slice (.line (.phys n))).slice slice).slots, x.key ≠ .line (.phys n) := by
    intro t hmem hline
    unfold State.freeSlot
    dsimp only
    rw [State.slice_setSlice_same]
    exact ⟨hmem, hline, fun x hx => by simpa using (List.mem_filter.1 hx).2⟩
  unfold State.arrive
  dsimp only
  by_cases hthere : (Tab.find (s.slice slice).lines n).isSome = true
  · rw [if_pos hthere]
    refine hfree _ (State.data_mem (State.modLine_data ..)) ?_
    obtain ⟨x, hx⟩ := Option.isSome_iff_exists.1 hthere
    unfold State.modLine
    rw [hx]
    dsimp only
    rw [State.lines_putLine]
    rfl
  · rw [if_neg hthere]
    obtain ⟨u, hu⟩ := Option.isSome_iff_exists.1 (h.resolve_left hthere)
    have henter : s.enter slice part n = some ((if inGddr (copyLine n * 128) then u.readLine128 (copyLine n) else u).putLine slice n
        ⟨false, false, 0, (s.chargeOf n).getD part⟩) := by
      unfold State.enter
      rw [hu]
      rfl
    rw [henter]
    refine hfree _ (State.data_mem (State.enter_data henter)) ?_
    rw [State.lines_putLine]
    rfl

/-- The age of an entry of the victim store is no part of a slice. -/
theorem State.victimAge_sameSlice (s : State) (part : Nat) (k : LineKey) (age slice : Nat) : s.SameSlice (s.victimAge part k age) slice := by
  unfold State.victimAge
  split
  · exact ⟨rfl, rfl, rfl, rfl, rfl, rfl⟩
  · exact ⟨rfl, rfl, rfl, rfl, rfl, rfl⟩

theorem State.victimAge_mem (s : State) (part : Nat) (k : LineKey) (age : Nat) : (s.victimAge part k age).mem = s.mem := by
  unfold State.victimAge
  split
  · rfl
  · rfl

theorem State.makeRoom_data (s : State) (slice : Nat) (v : Option Held) : (s.makeRoom slice v).data = s.data := by
  unfold State.makeRoom
  split
  · dsimp only
    split
    · exact State.evict_data ..
    · rfl
  · rfl

theorem lowerTierRead_phys_brings (n : Nat) (victim : Option Nat) (h : Nat × MissSlot) : Brings (.lowerTierRead (LineKey.phys n).code victim)
    (fun s => inFlash (copyLine n * 128) = false ∧ s.readersOf (.phys n) = [h] ∧
      let u := s.makeRoom h.1 (victim.map Held.ofNat)
      ((Tab.find (u.slice h.1).lines n).isSome = true ∨ u.hasSpace h.1 (LineKey.phys n).code = true))
    fun s t => t.mem = s.mem ∧ (Tab.find (t.slice h.1).lines n).isSome = true ∧ ∀ x ∈ (t.slice h.1).slots, x.key ≠ .line (.phys n) := by
  intro s ⟨hflash, hreaders, hroom⟩
  have hread : s.lowerRead (LineKey.phys n).code (victim.map Held.ofNat) =
      ((s.makeRoom h.1 (victim.map Held.ofNat)).victimAge h.2.part (.phys (copyLine n)) 0).arrive h.1 h.2.part n := by
    unfold State.lowerRead
    dsimp only
    rw [LineKey.ofCode_code_phys, hreaders, List.foldl_cons, List.foldl_nil]
    unfold State.readDone
    dsimp only
    rw [hflash, if_neg (by simp)]
  refine ⟨_, rfl, ?_⟩
  dsimp only
  rw [hread]
  have hsame := (s.makeRoom h.1 (victim.map Held.ofNat)).victimAge_sameSlice h.2.part (.phys (copyLine n)) 0 h.1
  obtain ⟨hmem, hline, hslots⟩ := State.arrive_brings (part := h.2.part) (hroom.imp (fun hl => (hsame.lines ▸ hl)) fun hsp => (hsame.hasSpace _).trans hsp)
  exact ⟨hmem.trans ((State.victimAge_mem ..).trans (State.data_mem (s.makeRoom_data h.1 _))), hline, hslots⟩

theorem State.slots_freeSlot (s : State) (slice : Nat) (key : SlotKey) : ∀ x ∈ ((s.freeSlot slice key).slice slice).slots, x.key ≠ key := by
  intro x hx
  unfold State.freeSlot at hx
  rw [State.slice_setSlice_same] at hx
  simpa using (List.mem_filter.1 hx).2

theorem lowerTierRead_gen_brings (part line : Nat) (h : Nat × MissSlot) (hpart : part < 32) : Brings (.lowerTierRead (LineKey.gen part line).code none)
    (fun s => s.readersOf (.gen part line) = [h] ∧ ((s.genLine part line).isSome = true ∨ s.hasSpace h.1 (LineKey.gen part line).code = true))
    fun s t => t.mem = s.mem ∧ ∀ x ∈ (t.slice h.1).slots, x.key ≠ .line (.gen part line) := by
  intro s ⟨hreaders, hroom⟩
  have hkey : h.2.key = .line (.gen part line) := by
    have hmem : h ∈ s.readersOf (.gen part line) := hreaders ▸ List.mem_singleton_self h
    unfold State.readersOf at hmem
    obtain ⟨e, -, hin⟩ := List.mem_flatMap.1 hmem
    obtain ⟨y, hy, hyh⟩ := List.mem_map.1 hin
    rw [← hyh]
    simpa using (List.mem_filter.1 hy).2
  refine ⟨_, rfl, ?_⟩
  dsimp only
  have hread : s.lowerRead (LineKey.gen part line).code (none.map Held.ofNat) = s.readDone (.gen part line) h none := by
    unfold State.lowerRead
    dsimp only
    rw [LineKey.ofCode_code_gen line hpart, hreaders]
    rfl
  rw [hread]
  unfold State.readDone
  dsimp only
  rw [hkey]
  split
  next v _ =>
    split
    · exact ⟨rfl, fun x => State.slots_freeSlot _ _ _ x⟩
    next hgen =>
      obtain ⟨u, hu⟩ := Option.isSome_iff_exists.1 (hroom.resolve_left hgen)
      have hplace : (s.makeRoom h.1 none).placeGen h.1 part line ⟨.valid, v.data, .fault, 0⟩ =
          some (u.setGenLine part line (some ⟨.valid, v.data, .fault, 0⟩)) := by
        unfold State.placeGen State.makeRoom
        rw [hu]
        rfl
      rw [hplace]
      exact ⟨(State.victimAge_mem ..).trans (State.data_mem (State.placeGen_data hplace)), fun x => State.slots_freeSlot _ _ _ x⟩
  next => exact ⟨rfl, fun x => State.slots_freeSlot _ _ _ x⟩

/-! ### Pages of flash -/

theorem State.SameSlice.trans {s t u : State} {slice : Nat} (h : s.SameSlice t slice) (h' : t.SameSlice u slice) : s.SameSlice u slice :=
  ⟨h'.cores.trans h.cores, h'.parts.trans h.parts, h'.buckets.trans h.buckets, h'.genLines.trans h.genLines, h'.lines.trans h.lines,
    h'.guests.trans h.guests⟩

theorem State.victimPut_sameSlice (s : State) (part : Nat) (k : LineKey) (bytes : List Byte) (slice : Nat) :
    s.SameSlice (s.victimPut part k bytes) slice := by
  unfold State.victimPut
  dsimp only
  split
  · exact ⟨rfl, rfl, rfl, rfl, rfl, rfl⟩
  · split
    · exact ⟨rfl, rfl, rfl, rfl, rfl, rfl⟩
    · exact ⟨rfl, rfl, rfl, rfl, rfl, rfl⟩

/-- Lines that enter the victim store leave every slice. -/
theorem State.victimPuts_sameSlice (part : Nat) (ls : List Nat) (bytes : Nat → List Byte) (s : State) (slice : Nat) :
    s.SameSlice (ls.foldl (fun (st : State) l => st.victimPut part (.phys l) (bytes l)) s) slice :=
  List.foldlRecOn ls _ (motive := fun t => s.SameSlice t slice) ⟨rfl, rfl, rfl, rfl, rfl, rfl⟩ fun t ht _ _ => ht.trans (t.victimPut_sameSlice ..)

theorem flashPageRead_good_brings (page part l : Nat) : Brings (.flashPageRead page part true)
    (fun s => (flashLines page).filter (fun l => inFlash (l * 128) && (s.victimCopy part (.phys l)).isNone &&
        (s.slice (s.home part (.phys l))).holdsSlot (.line (.phys (copyNo part l)))) = [l] ∧
      s.hasSpace (s.home part (.phys l)) (LineKey.phys (copyNo part l)).code = true)
    fun s t => t.mem = s.mem ∧ (Tab.find (t.slice (s.home part (.phys l))).lines (copyNo part l)).isSome = true ∧
      ∀ x ∈ (t.slice (s.home part (.phys l))).slots, x.key ≠ .line (.phys (copyNo part l)) := by
  intro s ⟨hheld, hspace⟩
  refine ⟨_, rfl, ?_⟩
  dsimp only
  unfold State.flashRead
  dsimp only
  rw [hheld, if_neg (by simp), if_pos rfl]
  generalize hs0 : ({ s with flashBad := s.flashBad.filter fun x => !(x.1 = part && (flashLines page).contains x.2) } : State) = s0
  have h0 : ∀ slice, s.SameSlice s0 slice := fun _ => hs0 ▸ ⟨rfl, rfl, rfl, rfl, rfl, rfl⟩
  have hsame := fun slice => (h0 slice).trans (State.victimPuts_sameSlice part (flashLines page) (fun l => s.mem.readBytes (128 * l) 128) s0 slice)
  have hmem : (List.foldl (fun (st : State) l => st.victimPut part (.phys l) (s.mem.readBytes (128 * l) 128)) s0 (flashLines page)).mem = s.mem :=
    (State.data_mem (State.foldl_data (fun t l => t.victimPut_data part (.phys l) _) _ s0)).trans (hs0 ▸ rfl)
  rw [List.foldl_cons, List.foldl_nil, State.home_congr (hsame 0).parts (hsame 0).buckets]
  obtain ⟨hkept, hbrought⟩ := State.arrive_brings (part := part) (.inr (((hsame _).hasSpace _).trans hspace))
  exact ⟨hkept.trans hmem, hbrought⟩

/-- The slots of some lines of a partition are freed. -/
def State.freeSlots (s : State) (part : Nat) (ls : List Nat) : State :=
  ls.foldl (fun (st : State) l => st.freeSlot (st.home part (.phys l)) (.line (.phys (copyNo part l)))) s

theorem State.freeSlot_slots_subset (s : State) (slice : Nat) (key : SlotKey) (k : Nat) :
    ∀ x ∈ ((s.freeSlot slice key).slice k).slots, x ∈ (s.slice k).slots := by
  intro x hx
  unfold State.freeSlot at hx
  by_cases hk : k = slice
  · rw [hk, State.slice_setSlice_same] at hx
    rw [hk]
    exact List.mem_of_mem_filter hx
  · rwa [State.slice_setSlice_ne _ _ hk] at hx

theorem State.freeSlots_subset (part : Nat) (ls : List Nat) (s : State) (k : Nat) :
    ∀ x ∈ ((s.freeSlots part ls).slice k).slots, x ∈ (s.slice k).slots := by
  induction ls generalizing s with
  | nil => exact fun x hx => hx
  | cons l ls ih => exact fun x hx => State.freeSlot_slots_subset _ _ _ _ _ (ih _ x hx)

/-- No slot stands for a line whose slot was freed. -/
theorem State.slots_freeSlots (part : Nat) (ls : List Nat) (s : State) {l : Nat} (hl : l ∈ ls) :
    ∀ x ∈ ((s.freeSlots part ls).slice (s.home part (.phys l))).slots, x.key ≠ .line (.phys (copyNo part l)) := by
  induction ls generalizing s with
  | nil => cases hl
  | cons a ls ih =>
    rcases List.mem_cons.1 hl with rfl | hin
    · exact fun x hx => State.slots_freeSlot _ _ _ x (State.freeSlots_subset part ls _ _ x hx)
    · exact ih (s.freeSlot (s.home part (.phys a)) (.line (.phys (copyNo part a)))) hin

/-- What the operations that wait for poisoned lines learn leaves the slots. -/
theorem State.spoilReaders_slots (s : State) (part : Nat) (ls : List Nat) (k : Nat) :
    ((s.spoilReaders part ls).slice k).slots = (s.slice k).slots := by
  have h := State.mapSlices_places s (fun x => { x with merges := x.merges.map fun m => if m.part = part then { m with bad := m.bad ++ ls } else m })
    fun _ => rfl
  exact State.asks_slots (State.places_asks h) k

theorem flashPageRead_bad_brings (page part : Nat) : Brings (.flashPageRead page part false) (fun _ => True)
    fun s t => ∀ l ∈ flashLines page, inFlash (l * 128) = true → s.victimCopy part (.phys l) = none →
      ∀ x ∈ (t.slice (s.home part (.phys l))).slots, x.key ≠ .line (.phys (copyNo part l)) := by
  intro s _
  refine ⟨_, rfl, fun l hl hflash hcopy x hx hkey => ?_⟩
  generalize hheld : (flashLines page).filter (fun l => inFlash (l * 128) && (s.victimCopy part (.phys l)).isNone &&
    (s.slice (s.home part (.phys l))).holdsSlot (.line (.phys (copyNo part l)))) = held
  have hread : s.flashRead page part false = if held.isEmpty then s else
      ((s.spoilReaders part held).freeSlots part held).record { source := 10, sev := 1, part := some part, addr := 16384 * page } := by
    unfold State.flashRead
    dsimp only
    rw [hheld]
    rfl
  rw [hread] at hx
  have hin : x ∈ (s.slice (s.home part (.phys l))).slots := by
    split at hx
    · exact hx
    · rw [State.record_slots] at hx
      rw [← State.spoilReaders_slots s part held]
      exact State.freeSlots_subset _ _ _ _ x hx
  have hmem : l ∈ held := by
    rw [← hheld]
    refine List.mem_filter.2 ⟨hl, ?_⟩
    rw [hflash, hcopy, Bool.and_eq_true]
    exact ⟨rfl, List.any_eq_true.2 ⟨x, hin, decide_eq_true hkey⟩⟩
  rw [if_neg (by rw [List.isEmpty_iff]; exact List.ne_nil_of_mem hmem), State.record_slots] at hx
  exact State.slots_freeSlots part held (s.spoilReaders part held) hmem x hx hkey

/-! ### Ages, and slots that are granted -/

theorem ageSweep_brings (slice : Nat) : Brings (.ageSweep slice) (fun _ => True)
    fun s t => t.mem = s.mem ∧ (∀ n x, Tab.find (s.slice slice).lines n = some x →
        Tab.find (t.slice slice).lines n = some { x with age := if x.age < 7 then x.age + 1 else x.age }) ∧
      ∀ code age, Tab.find (s.slice slice).guests code = some age → Tab.find (t.slice slice).guests code = some (if age < 7 then age + 1 else age) := by
  intro s _
  refine ⟨_, rfl, rfl, fun n x hx => ?_, fun code age hage => ?_⟩
  · refine (congrArg (fun sl : Slice => Tab.find sl.lines n) (State.slice_setSlice_same s slice _)).trans ?_
    refine (Tab.find_map (fun x : Line => { x with age := if x.age < 7 then x.age + 1 else x.age }) _ n).trans ?_
    rw [hx]
    rfl
  · refine (congrArg (fun sl : Slice => Tab.find sl.guests code) (State.slice_setSlice_same s slice _)).trans ?_
    refine (Tab.find_map (fun a => if a < 7 then a + 1 else a) _ code).trans ?_
    rw [hage]
    rfl

/-- The one request that waits is the first. -/
theorem State.firstWait_of_one {s : State} {slice depth : Nat} {w : MissWait} (h : (s.slice slice).waiting.filter (fun x => x.depth = depth) = [w]) :
    s.firstWait slice depth = some w := by
  unfold State.firstWait
  dsimp only
  rw [h]
  rfl

theorem missSlotGrant_happens (slice depth : Nat) (w : MissWait) (line : Nat) (hw : w.key = .phys line) : Happens (.missSlotGrant slice depth)
    (fun s => (s.slice slice).waiting.filter (fun x => x.depth = depth) = [w] ∧ (s.slice slice).hasSlot depth = true ∧
      s.hasSpace slice (LineKey.phys (copyNo w.part line)).code = true ∧ Tab.find (s.slice slice).lines (copyNo w.part line) = none ∧
      (s.slice slice).holdsSlot (.line (.phys (copyNo w.part line))) = false)
    fun s => s.setSlice slice { s.slice slice with
      waiting := (s.slice slice).waiting.erase w
      slots := (s.slice slice).slots ++ [⟨depth, w.part, .line (.phys (copyNo w.part line))⟩] } := by
  intro s ⟨hwait, hslot, hspace, hline, hheld⟩
  have hdepth : w.depth = depth := by
    have hmem : w ∈ (s.slice slice).waiting.filter fun x => x.depth = depth := hwait ▸ List.mem_singleton_self w
    simpa using (List.mem_filter.1 hmem).2
  generalize hu : s.setSlice slice { s.slice slice with waiting := (s.slice slice).waiting.erase w } = u
  have hslice : u.slice slice = { s.slice slice with waiting := (s.slice slice).waiting.erase w } := by
    rw [← hu, State.slice_setSlice_same]
  have hsame : s.SameSlice u slice :=
    ⟨hu ▸ rfl, hu ▸ rfl, hu ▸ rfl, hu ▸ rfl, (congrArg Slice.lines hslice).trans rfl, (congrArg Slice.guests hslice).trans rfl⟩
  have hheld' : (u.slice slice).holdsSlot (.line (.phys (copyNo w.part line))) = false := by rw [hslice]; exact hheld
  have hgrant : u.grantTo slice w = some (u.takeSlot slice ⟨w.depth, w.part, .line (.phys (copyNo w.part line))⟩) := by
    unfold State.grantTo
    rw [hw]
    dsimp only
    rw [hheld', hsame.lines, hline, if_neg (by simp)]
    unfold State.readSlot
    rw [hsame.hasSpace, hspace, if_pos rfl]
  show Host.Outcome.next (s.grantSlot slice depth) = _
  congr 1
  unfold State.grantSlot
  rw [State.firstWait_of_one hwait]
  dsimp only
  rw [hslot, if_neg (by simp), hu, hgrant, Option.getD_some, State.takeSlot, hslice, ← hu, hdepth]
  unfold State.setSlice
  dsimp only
  rw [Tab.put_put]

/-! ### Guest copies -/

theorem guestCopyFill_brings (line sector : Nat) (hsector : sector < 3) : Brings (.guestCopyFill line sector)
    (fun s => let copy := LineKey.ofCode line
      s.homeOf copy / 32 ≠ sector ∧ s.holdsCopy copy = true ∧ s.moving (s.copyOf copy).1 (s.copyOf copy).2 = false ∧
      s.guestEligible copy sector = true ∧ Tab.find (s.slice (s.guestSlice copy sector)).guests line = none ∧
      (line, sector) ∉ s.invals ∧ s.hasSpace (s.guestSlice copy sector) line = true)
    fun s t => t.mem = s.mem ∧ (line, sector) ∈ t.guests ∧ Tab.find (t.slice (s.guestSlice (LineKey.ofCode line) sector)).guests line = some 0 := by
  intro s ⟨hhome, hholds, hmoving, heligible, hnone, hinval, hspace⟩
  obtain ⟨u, hu⟩ := Option.isSome_iff_exists.1 hspace
  refine ⟨_, rfl, ?_⟩
  dsimp only
  rw [LineKey.code_ofCode, decide_eq_true hsector, decide_eq_true hhome, hholds, hmoving, heligible, hnone, if_pos (by simp [hinval])]
  unfold State.fillGuest
  dsimp only
  rw [LineKey.code_ofCode, hu, Option.map_some, Option.getD_some]
  have hmem : u.mem = s.mem := State.data_mem (State.makeSpace?_data hu)
  generalize hg : s.guestSlice (LineKey.ofCode line) sector = g
  have hfound : Tab.find ((u.setSlice g { u.slice g with guests := (u.slice g).guests.put line 0 }).slice g).guests line = some 0 := by
    rw [State.slice_setSlice_same]
    exact Tab.find_put_same ..
  split
  next hin => exact ⟨hmem, by simpa using hin, hfound⟩
  next => exact ⟨hmem, List.mem_append_right _ (List.mem_singleton_self _), hfound⟩

theorem guestInvalidation_brings (line sector : Nat) : Brings (.guestInvalidation line sector) (fun s => (line, sector) ∈ s.invals)
    fun s t => t.mem = s.mem ∧ (line, sector) ∉ t.guests ∧ (line, sector) ∉ t.invals ∧
      Tab.find (t.slice (s.guestSlice (LineKey.ofCode line) sector)).guests line = none := by
  intro s hin
  refine ⟨_, rfl, ?_⟩
  dsimp only
  rw [if_pos (by simpa using hin)]
  refine ⟨State.data_mem (State.clearGuest_data ..), ?_, ?_, ?_⟩
  · unfold State.clearGuest
    simp
  · unfold State.clearGuest
    simp
  · unfold State.clearGuest
    dsimp only
    split
    · refine (congrArg (fun sl : Slice => Tab.find sl.guests line) (State.slice_setSlice_same s _ _)).trans ?_
      exact Tab.find_erase ..
    next hnone => exact Option.not_isSome_iff_eq_none.1 hnone

/-- Settles O45: each event of a slice, with what its evictions leave. -/
theorem sliceEventsTakeEffect : Obligations.SliceEventsTakeEffect :=
  ⟨lowerTierRead_phys_brings, lowerTierRead_gen_brings, flashPageRead_good_brings, flashPageRead_bad_brings, ageSweep_brings, missSlotGrant_happens,
    guestCopyFill_brings, guestInvalidation_brings⟩

end Sys2Proof.Machine
end


section
/-!
PROOF. Walks, bucket moves and migrations: the statement speaks of the bytes that a migration leaves in its leaf, of any state, and in a memory that is not in
its canonical form a byte that is written need not read as it was written.
-/
namespace Sys2Proof.Machine

/-- A migration whose page is copied, of a leaf of zeros at address 0. -/
def copiedMigration : Migration := ⟨0, 0, 0, 0, 0, true, 32⟩

/-- A device with that migration in partition 0, whose memory lists address 1 before address 0: it is not in the canonical form. -/
def unorderedMigrating : State :=
  { State.reset with
    mem := [(1, 1), (0, 1)]
    parts := [(0, { Partition.reset with migBusy := true, mig := some copiedMigration })] }

/-- The moved leaf is 0, and its first byte reads as 1 after it has been written: a zero byte is not listed, and the entry of address 0 stays. -/
theorem migrate_unordered_read : ((unorderedMigrating.migrate 0).readD 0) = 1 := by decide +kernel

theorem unorderedMigrating_due : unorderedMigrating.moving 0 (.phys (copiedMigration.leafPa / 128)) = false ∧
    unorderedMigrating.touchable 0 [copiedMigration.leafPa / 128] = true ∧ ∀ i < 8, unorderedMigrating.chanFailed (copiedMigration.leafPa + i) = false := by
  decide +kernel

/-- Refutes O46: the leaf of a migration that ends reads as written only where memory is in its canonical form (assumption 5), which the statement does not
ask: with address 1 listed before address 0, the zero byte written at address 0 leaves the 1 that is listed there. -/
theorem not_translationEventsTakeEffect : ¬ Obligations.TranslationEventsTakeEffect := by
  intro h
  obtain ⟨-, -, -, -, -, -, -, -, -, -, -, hmoved⟩ := h
  obtain ⟨hmoving, hroom, hchannels⟩ := unorderedMigrating_due
  obtain ⟨t, hexec, hleaf, -⟩ := hmoved 0 copiedMigration rfl (by decide) unorderedMigrating ⟨rfl, rfl, hmoving, hroom, hchannels⟩
  have hruns : exec (.pageMigration 0) unorderedMigrating = .next (unorderedMigrating.migrate 0) := rfl
  have ht : t = unorderedMigrating.migrate 0 := (Host.Outcome.next.inj (hruns.symm.trans hexec)).symm
  have hread : copiedMigration.movedLeaf = 1 := by rw [← hleaf, ht]; exact migrate_unordered_read
  exact absurd hread (by decide)

end Sys2Proof.Machine
end


section
/-!
Obligation O47: the commands of the generator table, fillers, and the walker of a core task graph.
-/
namespace Sys2Proof.Machine

/-! ### GEN_LOAD and GEN_INVALIDATE -/

/-- A generator command that has ended is not busy, and holds its result; the table stays. -/
theorem State.endGen_part (s : State) (part result : Nat) :
    (s.endGen part result).part part = { s.part part with genBusy := false, genResult := BitVec.ofNat 3 result } :=
  State.part_setPart_same ..

theorem genLoad_outside (part : Nat) (index : BitVec 8) (a : Nat) : Brings (.genLoad part index)
    (fun s => (s.part part).genIndex = index ∧ (s.part part).genBusy = true ∧ (s.part part).genOp = false ∧
      a = (s.part part).genTbase.toNat % 2 ^ 52 + 64 * index.toNat ∧ (s.part part).ownsGddr a (a + 63) = false)
    fun s t => (t.part part).genBusy = false ∧ (t.part part).genResult = 3 ∧ (t.part part).gens = (s.part part).gens := by
  intro s ⟨hindex, hbusy, hop, ha, howns⟩
  refine ⟨_, rfl, ?_⟩
  dsimp only
  unfold State.loadGen
  dsimp only
  rw [if_pos hindex, hbusy, hop, if_neg (by simp), hindex, ← ha, howns, if_pos (by rfl), State.endGen_part]
  exact ⟨rfl, rfl, rfl⟩

theorem genLoad_loads (part : Nat) (index : BitVec 8) (a : Nat) (s0 s1 : State) (im : Image) : Brings (.genLoad part index)
    (fun s => (s.part part).genIndex = index ∧ (s.part part).genBusy = true ∧ (s.part part).genOp = false ∧
      a = (s.part part).genTbase.toNat % 2 ^ 52 + 64 * index.toNat ∧ (s.part part).ownsGddr a (a + 63) = true ∧
      s.moving part (.phys (a / 128)) = false ∧ s.touchLine? part (a / 128) id = some s0 ∧
      (∀ j < 8, s0.wordPoisoned (a + 8 * j) = false) ∧ genOk (leNat (s.mem.readBytes a 64)) = true ∧
      s0.readLaunch (s0.frontReader part (2 ^ 21)) (BitVec.ofNat 64 (bitsOf (leNat (s.mem.readBytes a 64)) 191 128)) false =
        (s1, .image im) ∧
      im.hdr.fills = true ∧
      let g := parseGen (leNat (s.mem.readBytes a 64)) im.hdr im.binds
      (s1.part part).gens.any (fun e => e.1 ≠ index.toNat && e.2.vbase < g.vbase + g.vlen && g.vbase < e.2.vbase + e.2.vlen) = false)
    fun s t => (t.part part).genBusy = false ∧ (t.part part).genResult = 0 ∧
      Tab.find (t.part part).gens index.toNat = some (parseGen (leNat (s.mem.readBytes a 64)) im.hdr im.binds) := by
  intro s ⟨hindex, hbusy, hop, ha, howns, hmoving, htouch, hgood, hok, hread, hfills, hapart⟩
  have hclean : ((List.range 8).any fun j => s0.wordPoisoned (a + 8 * j)) = false :=
    List.any_eq_false.2 fun j hj => Bool.eq_false_iff.1 (hgood j (List.mem_range.1 hj))
  have hmem : s0.mem = s.mem := State.data_mem (State.touchLine?_data htouch)
  refine ⟨_, rfl, ?_⟩
  dsimp only
  unfold State.loadGen
  dsimp only
  rw [if_pos hindex, hbusy, hop, if_neg (by simp), hindex, ← ha, howns, if_neg (by simp), hmoving, if_neg (by simp), htouch]
  dsimp only
  rw [hclean, if_neg (by simp), hmem, hok, if_neg (by simp), hread]
  dsimp only
  rw [hfills, if_neg (by simp), hapart, if_neg (by simp), State.endGen_part, State.part_setPart_same]
  exact ⟨rfl, rfl, Tab.find_put_same ..⟩

theorem genInvalidate_brings (part : Nat) (index : BitVec 8) (g : Gen) : Brings (.genInvalidate part index)
    (fun s => (s.part part).genIndex = index ∧ (s.part part).genBusy = true ∧ (s.part part).genOp = true ∧
      Tab.find (s.part part).gens index.toNat = some g)
    fun _ t => Tab.find (t.part part).gens index.toNat = some { g with closing := true } := by
  intro s ⟨hindex, hbusy, hop, hfind⟩
  refine ⟨_, rfl, ?_⟩
  dsimp only
  unfold State.closeGen
  dsimp only
  rw [if_pos hindex, hbusy, hop, if_neg (by simp), hindex, hfind]
  dsimp only
  rw [State.part_setPart_same]
  exact Tab.find_put_same ..

theorem genInvalidateFinish_brings (part : Nat) (g : Gen) : Brings (.genInvalidateFinish part)
    (fun s => (s.part part).genBusy = true ∧ (s.part part).genOp = true ∧ Tab.find (s.part part).gens (s.part part).genIndex.toNat = some g ∧
      g.closing = true ∧ s.fillOwed part g.vbase (g.vbase + g.vlen) = false ∧ ∀ t ∈ (s.part part).tasks, t.gen ≠ (s.part part).genIndex.toNat)
    fun s t => (t.part part).genBusy = false ∧ (t.part part).genResult = 0 ∧ Tab.find (t.part part).gens (s.part part).genIndex.toNat = none := by
  intro s ⟨hbusy, hop, hfind, hclosing, howed, htasks⟩
  have hnone : ((s.part part).tasks.any fun t => t.gen = (s.part part).genIndex.toNat) = false :=
    List.any_eq_false.2 fun t ht => by simpa using htasks t ht
  refine ⟨_, rfl, ?_⟩
  dsimp only
  rw [hfind]
  dsimp only
  rw [hbusy, hop, hclosing, howed, hnone, if_pos (by rfl), State.endGen_part, State.part_setPart_same]
  exact ⟨rfl, rfl, Tab.find_erase ..⟩

/-! ### Fillers -/

theorem State.wave?_createAt (s : State) (core slot : Nat) (n : NewWave) :
    (s.createAt core slot n).wave? core slot = some (n.wave s.uid (Config.width core)) := by
  show Tab.find ((s.setCore core _).core core).waves slot = _
  rw [State.core_setCore_same]
  exact Tab.find_put_same ..

theorem fillerCreation_brings (part depth core : Nat) (task : Task) (g : Gen) (slot : Nat) : Brings (.fillerCreation part depth core)
    (fun s => s.firstTask part depth = some task ∧ Tab.find (s.part part).gens task.gen = some g ∧
      (fillerCores (s.part part) task.opener).find? (fun k => s.hasTurn part k && s.fillerRoom k depth g.hdr.regblk) = some core ∧
      (s.core core).freeSlot core = some slot)
    fun _ t => ∃ v, t.wave? core slot = some v ∧ v.bound = some task.id ∧ v.depth = depth ∧ v.gen = some task.gen ∧ v.source = .filler ∧
      (v.s 0).val = g.param ∧ (v.s 1).val = g.srcBase ∧ (v.s 2).val = BitVec.ofNat 64 g.srcLen ∧ (v.s 3).val = g.altBase := by
  intro s ⟨htask, hgen, hcore, hslot⟩
  refine ⟨_, rfl, ?_⟩
  dsimp only
  unfold State.createFiller
  rw [htask]
  dsimp only
  rw [hgen]
  dsimp only
  rw [hcore, if_neg (by simp), hslot]
  exact ⟨_, State.wave?_createAt .., rfl, rfl, rfl, rfl, rfl, rfl, rfl, rfl⟩

/-! ### Nodes of a graph -/

theorem graphNodeStart_plain (core : Nat) (g : Graph) (n : Node) (l : Launch) (hn : g.node = some n) (hstarted : g.started = false)
    (h1 : nodeKind n ≠ 1) (h2 : nodeKind n ≠ 2) : Happens (.graphNodeStart core)
      (fun s => (s.core core).graph = some g ∧ s.graphLaunch g = some l ∧ (s.core core).flags &&& nodeWait n = nodeWait n)
      fun s => s.setCore core { s.core core with flags := (s.core core).flags &&& ~~~nodeWait n, graph := some { g with started := true } } := by
  intro s ⟨hgraph, hlaunch, hflags⟩
  refine congrArg Host.Outcome.next ?_
  unfold State.startNode
  rw [hgraph]
  dsimp only
  rw [hn, hlaunch]
  dsimp only
  rw [hstarted, if_neg (by simp [hflags])]
  split
  next h => exact absurd h h1
  next h => exact absurd h h2
  next => rfl

theorem graphNodeStart_engine (core : Nat) (g : Graph) (n : Node) (l : Launch) (s1 : State) (hn : g.node = some n) (hstarted : g.started = false)
    (hkind : nodeKind n = 1) : Brings (.graphNodeStart core)
      (fun s => (s.core core).graph = some g ∧ s.graphLaunch g = some l ∧ (s.core core).flags &&& nodeWait n = nodeWait n ∧
        s.startEngine core l n = .going s1)
      fun s t => (t.core core).graph = some { g with op := some s.uid, started := true } ∧
        (t.core core).flags = (s1.core core).flags &&& ~~~nodeWait n := by
  intro s ⟨hgraph, hlaunch, hflags, hgoing⟩
  refine ⟨_, rfl, ?_⟩
  dsimp only
  unfold State.startNode
  rw [hgraph]
  dsimp only
  rw [hn, hlaunch]
  dsimp only
  rw [hstarted, if_neg (by simp [hflags]), hkind, hgoing]
  exact ⟨congrArg Core.graph (State.core_setCore_same s1 core _), congrArg Core.flags (State.core_setCore_same s1 core _)⟩

theorem graphNodeCompletion_happens (core : Nat) (g : Graph) (n : Node) (hn : g.node = some n) (hstarted : g.started = true) :
    Happens (.graphNodeCompletion core)
      (fun s => (s.core core).graph = some g ∧
        (nodeKind n = 1 → ∀ id, g.op = some id → s.opPending core id = false) ∧ (nodeKind n = 2 → g.pending = 0))
      fun s =>
        let x := g.successor n (s.spNat core ((nodeArg0 n).toNat % 2 ^ 19) 4)
        s.setCore core { s.core core with
          flags := (s.core core).flags ||| nodeSet n, graph := some { x.1 with at_ := x.2, started := false, op := none } } := by
  intro s ⟨hgraph, hengine, hlaunch⟩
  refine congrArg Host.Outcome.next ?_
  unfold State.completeNode
  rw [hgraph]
  dsimp only
  rw [hn]
  dsimp only
  refine if_neg ?_
  rw [hstarted, Bool.true_and]
  split
  next h =>
    split
    next id hid => simp [hengine h id hid]
    next => simp
  next h => simp [hlaunch h]
  next => simp

theorem recordWaveLaunch_brings (core node : Nat) (g : Graph) (n : Node) (l : Launch) (s1 : State) (im : Image) (hn : g.nodes[node]? = some n)
    (hkind : nodeKind n = 5) : Brings (.recordWaveLaunch core node)
      (fun s => (s.core core).graph = some g ∧ s.graphLaunch g = some l ∧ s.batch core g node n ≠ [] ∧
        s.readLaunch (s.frontReader l.part (walkerKey core)) (nodeArg0 n) false = (s1, .image im))
      fun s t => ∃ w, (t.core core).newWaves = (s1.core core).newWaves ++ [w] ∧ w.source = .record ∧ w.node = node ∧ w.sregs =
        [(0, ringAddr n (Tab.get 0 g.heads node)), (1, BitVec.ofNat 64 (s.batch core g node n).length),
          (2, BitVec.ofNat 64 (((s.batch core g node n).head?.map (·.depth)).getD 0))] := by
  intro s ⟨hgraph, hlaunch, hbatch, hread⟩
  refine ⟨_, rfl, ?_⟩
  dsimp only
  unfold State.launchRecords
  rw [hgraph]
  dsimp only
  rw [hn, hlaunch]
  dsimp only
  rw [if_neg (by simp [hkind, hbatch]), hread]
  exact ⟨_, congrArg Core.newWaves (State.core_setCore_same s1 core _), rfl, rfl, rfl⟩

/-! ### GRAPH_COMPLETION -/

/-- The end of a team leaves the graphs of the cores and the bytes of memory. -/
theorem State.endTeam_graph (s : State) (t : Team) (core : Nat) : ((s.endTeam t).core core).graph = (s.core core).graph ∧ (s.endTeam t).mem = s.mem := by
  unfold State.endTeam
  extract_lets s1 band bands s2
  have h1 : (s1.core core).graph = (s.core core).graph ∧ s1.mem = s.mem := by
    refine List.foldlRecOn t.cores _ (motive := fun u : State => (u.core core).graph = (s.core core).graph ∧ u.mem = s.mem) ⟨rfl, rfl⟩ ?_
    intro u hu c _
    refine ⟨?_, hu.2⟩
    by_cases hc : core = c
    · rw [hc, State.core_setCore_same]
      exact hc ▸ hu.1
    · exact (congrArg Core.graph (State.core_setCore_ne u _ hc)).trans hu.1
  split
  · exact h1
  · exact h1

theorem graphCompletion_brings (core : Nat) (g : Graph) : Brings (.graphCompletion core) (fun s => (s.core core).graph = some g ∧ g.finished = true)
    fun s t => (t.core core).graph = none ∧ t.mem = s.mem := by
  intro s ⟨hgraph, hfinished⟩
  refine ⟨_, rfl, ?_⟩
  unfold State.graphDone
  rw [hgraph]
  dsimp only
  rw [hfinished, if_neg (by simp)]
  have hnone : ((s.setCore core { s.core core with graph := none }).core core).graph = none := by rw [State.core_setCore_same]
  split
  next t _ =>
    split
    · exact ⟨(State.endTeam_graph _ t core).1.trans hnone, (State.endTeam_graph _ t core).2⟩
    · exact ⟨hnone, rfl⟩
  next => exact ⟨hnone, rfl⟩

/-- Settles O47: each event of the generators, fillers and graphs by the branch that its conditions choose. -/
theorem generatorAndGraphEventsTakeEffect : Obligations.GeneratorAndGraphEventsTakeEffect :=
  ⟨genLoad_outside, genLoad_loads, genInvalidate_brings, genInvalidateFinish_brings, fillerCreation_brings, graphNodeStart_plain,
    graphNodeStart_engine, graphNodeCompletion_happens, recordWaveLaunch_brings, graphCompletion_brings⟩

end Sys2Proof.Machine
end


section
/-!
Obligation O48: waves, teams, grids and the turns of partitions.
-/
namespace Sys2Proof.Machine

/-! ### Turns, blocks and exception windows -/

/-- An entry that a write to it shows is what was written. -/
theorem Wave.eq_of_frag?_setFrag {w : Wave} {i : Nat} {x : Option Fragment} {f : Fragment} (h : (w.setFrag i x).frag? i = some f) : x = some f := by
  by_cases hi : i < w.entries.length
  · rwa [Wave.frag?_setFrag_same hi] at h
  · simp [Wave.setFrag, Wave.frag?, List.set_eq_of_length_le (Nat.not_lt.1 hi), List.getElem?_eq_none (Nat.not_lt.1 hi)] at h

/-- A fragment that starts its turn anew. -/
theorem Fragment.turn_of_map {x : Option Fragment} {f : Fragment} (h : (x.map fun f : Fragment => { f with turn := 0 }) = some f) : f.turn = 0 := by
  obtain ⟨g, -, rfl⟩ := Option.map_eq_some_iff.1 h
  rfl

/-- Where a wave's turn ends, its issuing fragment begins a turn, and its registers stay. -/
theorem State.endTurn_wave {s : State} {core slot : Nat} {w : Wave} (h : s.wave? core slot = some w) (swap : Bool) :
    ∃ v, (s.endTurn core slot swap).wave? core slot = some v ∧ v.vregs = w.vregs ∧ ∀ f, v.frag? v.cur = some f → f.turn = 0 := by
  unfold State.endTurn
  rw [h]
  dsimp -zeta only
  extract_lets w1 s1
  have hw1 : w1.vregs = w.vregs := by
    unfold w1
    split
    · split
      · exact (congrArg Wave.vregs (Wave.mergeOvf_same _)).trans rfl
      · rfl
    · rfl
  split
  next i _ =>
    refine ⟨_, State.wave?_setWave_same .., hw1, fun f hf => ?_⟩
    exact Fragment.turn_of_map (Wave.eq_of_frag?_setFrag hf)
  next =>
    refine ⟨_, State.wave?_setWave_same .., hw1, fun f hf => ?_⟩
    exact Fragment.turn_of_map (Wave.eq_of_frag?_setFrag hf)

theorem fairnessTimerExpiry_brings (core slot : Nat) (w : Wave) : Brings (.fairnessTimerExpiry core slot)
    (fun s => s.wave? core slot = some w ∧ w.turnOver = true)
    fun _ t => ∃ v, t.wave? core slot = some v ∧ v.vregs = w.vregs ∧ ∀ f, v.frag? v.cur = some f → f.turn = 0 := by
  intro s ⟨hw, hover⟩
  refine ⟨_, rfl, ?_⟩
  dsimp only
  rw [hw]
  dsimp only
  rw [if_pos hover]
  exact State.endTurn_wave hw true

theorem blockGrant_grants (core pool : Nat) (x : BlockWait) : Happens (.blockGrant core pool)
    (fun s => firstWait (s.blockWaits core pool) = some x ∧ (∀ w, s.wave? core x.slot = some w → w.blocks + x.n ≤ 16) ∧
      x.n ≤ (s.core core).freeIn pool)
    fun s => ((s.takeBlocks core x.slot x.n).modWave core x.slot fun w =>
      w.firstBlocked x.n fun f => { f.advance with park := none }).settle core x.slot := by
  intro s ⟨hfirst, hfits, hfree⟩
  refine congrArg Host.Outcome.next ?_
  rw [hfirst]
  dsimp only
  rw [if_neg ?_, if_pos hfree]
  intro hany
  obtain ⟨w, hw, hmany⟩ := (Option.any_eq_true ..).1 hany
  exact absurd (hfits w hw) (by simpa using hmany)

theorem blockGrant_reissues (core pool : Nat) (x : BlockWait) (w : Wave) : Happens (.blockGrant core pool)
    (fun s => firstWait (s.blockWaits core pool) = some x ∧ s.wave? core x.slot = some w ∧ 16 < w.blocks + x.n)
    fun s => s.modWave core x.slot fun w => w.firstBlocked x.n fun f => { f with park := none } := by
  intro s ⟨hfirst, hw, hmany⟩
  refine congrArg Host.Outcome.next ?_
  rw [hfirst]
  dsimp only
  rw [hw, if_pos (by simpa using hmany)]

/-! ### Creation and placement -/

theorem waveCreation_brings (core : Nat) (n : NewWave) (rest : List NewWave) (slot : Nat) (hrest : rest.head?.map (·.team) ≠ some n.team) :
    Brings (.waveCreation core)
      (fun s => (s.core core).newWaves = n :: rest ∧ (s.core core).freeSlot core = some slot ∧ s.roomFor core 1 n.blocks = true)
      fun s t => (t.core core).newWaves = rest ∧ ∃ v f, t.wave? core slot = some v ∧ v.uid = s.uid ∧ v.width = Config.width core ∧
        v.frags = [f] ∧ f.pc = n.entry ∧ f.live = Mask.first (Config.width core) ∧ f.exec = f.live ∧ f.level = n.level ∧
        v.vregs = [] ∧ v.preds = [] ∧ v.stack = [] ∧ v.fpmode = 0 ∧ v.latches = [] ∧ v.blocks = n.blocks := by
  intro s ⟨hnew, hslot, hroom⟩
  have hmine : ((n :: rest).takeWhile fun x => x.team = n.team) = [n] := by
    cases rest with
    | nil => simp
    | cons a l =>
      have ha : ¬ a.team = n.team := fun h => hrest (congrArg some h)
      simp [ha]
  refine ⟨_, rfl, ?_⟩
  dsimp only
  rw [hnew]
  dsimp only
  rw [hmine, List.map_cons, List.map_nil, List.sum_singleton, List.length_singleton, if_pos hroom]
  generalize hl1 : (if [n].any fun x => x.source == .record then [] else (s.core core).l1) = l1
  generalize hc : ({ s.core core with newWaves := (n :: rest).drop 1, l1 := l1 } : Core) = c
  have hfree : c.freeSlot core = some slot := by
    rw [← hc]
    exact hslot
  have hcreate : (s.setCore core c).createMany core [n] = (s.setCore core c).createAt core slot n := by
    show (match ((s.setCore core c).core core).freeSlot core with | some slot => _ | none => _) = _
    rw [State.core_setCore_same, hfree]
  rw [hcreate]
  refine ⟨?_, _, _, State.wave?_createAt .., rfl, rfl, rfl, rfl, rfl, rfl, rfl, rfl, rfl, rfl, rfl, rfl, rfl⟩
  refine (congrArg Core.newWaves (State.core_setCore_same (s.setCore core c) core _)).trans ?_
  dsimp only
  rw [State.core_setCore_same, ← hc]
  rfl

/-- What the creation of waves leaves of a core: its owner and its L1. -/
theorem State.createAt_keeps (s : State) (core slot : Nat) (n : NewWave) (k : Nat) :
    ((s.createAt core slot n).core k).owner = (s.core k).owner ∧ ((s.createAt core slot n).core k).l1 = (s.core k).l1 := by
  unfold State.createAt
  dsimp only
  by_cases hk : k = core
  · rw [hk]
    exact ⟨(congrArg Core.owner (State.core_setCore_same s core _)).trans rfl, (congrArg Core.l1 (State.core_setCore_same s core _)).trans rfl⟩
  · exact ⟨congrArg Core.owner (State.core_setCore_ne s _ hk), congrArg Core.l1 (State.core_setCore_ne s _ hk)⟩

theorem State.createMany_keeps (s : State) (core : Nat) (ns : List NewWave) (k : Nat) :
    ((s.createMany core ns).core k).owner = (s.core k).owner ∧ ((s.createMany core ns).core k).l1 = (s.core k).l1 := by
  refine List.foldlRecOn ns _ (motive := fun t : State => (t.core k).owner = (s.core k).owner ∧ (t.core k).l1 = (s.core k).l1) ⟨rfl, rfl⟩ ?_
  intro t ⟨howner, hl1⟩ n _
  split
  next slot _ => exact ⟨(t.createAt_keeps core slot n k).1.trans howner, (t.createAt_keeps core slot n k).2.trans hl1⟩
  next => exact ⟨howner, hl1⟩

/-- The cores of a new team, each with its new owner. -/
theorem State.foldl_fill_owner {f : Core → Nat → Core} {id : Nat} (hf : ∀ c k, (f c k).owner = some id ∧ (f c k).l1 = []) (ks : List Nat) (s : State)
    {core : Nat} (hcore : core ∈ ks) :
    ((ks.foldl (fun (st : State) k => st.setCore k (f (st.core k) k)) s).core core).owner = some id ∧
      ((ks.foldl (fun (st : State) k => st.setCore k (f (st.core k) k)) s).core core).l1 = [] := by
  have hkeep : ∀ (ls : List Nat) (t : State), (t.core core).owner = some id ∧ (t.core core).l1 = [] →
      ((ls.foldl (fun (st : State) k => st.setCore k (f (st.core k) k)) t).core core).owner = some id ∧
        ((ls.foldl (fun (st : State) k => st.setCore k (f (st.core k) k)) t).core core).l1 = [] := by
    intro ls t ht
    refine List.foldlRecOn ls _ (motive := fun u : State => (u.core core).owner = some id ∧ (u.core core).l1 = []) ht fun u hu k _ => ?_
    by_cases hk : core = k
    · rw [hk, State.core_setCore_same]
      exact hf _ _
    · rw [State.core_setCore_ne _ _ hk]
      exact hu
  induction ks generalizing s with
  | nil => cases hcore
  | cons k ks ih =>
    rcases List.mem_cons.1 hcore with rfl | hin
    · refine hkeep ks _ ?_
      rw [State.core_setCore_same]
      exact hf _ _
    · exact ih _ hin

/-- A placed team owns its core, whose L1 is empty, and stands among the teams with its coordinates. -/
theorem State.placeTeam_brings (s : State) (l : Launch) (core : Nat) :
    ((s.placeTeam l core).core core).owner = some s.uid ∧ ((s.placeTeam l core).core core).l1 = [] ∧
      ∃ x ∈ (s.placeTeam l core).teams, x.id = s.uid ∧ x.launch = l.id ∧ x.core = some core ∧ (x.x, x.y, x.z, x.stage) = l.hdr.coord l.next := by
  unfold State.placeTeam
  generalize l.hdr.coord l.next = xyz
  generalize l.hdr.halves = ab
  obtain ⟨x, y, z, stage⟩ := xyz
  obtain ⟨a, b⟩ := ab
  dsimp only
  generalize ht : ({ looseTeam s.uid l.id l.part core l.hdr.waves l.hdr x l.binds with
    y := y, z := z, stage := stage, paired := l.hdr.paired, owns := true } : Team) = t
  have hmem : core ∈ t.cores := by
    rw [← ht]
    unfold Team.cores looseTeam
    dsimp only
    split
    · exact List.mem_cons_self ..
    · exact List.mem_singleton_self _
  have hfill := State.foldl_fill_owner (f := fun c k => { c with
      owner := some s.uid, scratch := scratchTab l.scratch, spoison := [], l1 := [], flags := 0
      graph := if k = core then l.graph.map (Graph.start l.id s.uid) else none }) (id := s.uid) (fun _ _ => ⟨rfl, rfl⟩) t.cores s.fresh hmem
  obtain ⟨howner, hl1⟩ := hfill
  refine ⟨?_, ?_, t, List.mem_append_right _ (List.mem_singleton_self t), ?_⟩
  · refine Eq.trans ?_ howner
    split
    · exact (State.createMany_keeps _ _ _ core).1.trans (State.createMany_keeps _ _ _ core).1
    · exact (State.createMany_keeps _ _ _ core).1
  · refine Eq.trans ?_ hl1
    split
    · exact (State.createMany_keeps _ _ _ core).2.trans (State.createMany_keeps _ _ _ core).2
    · exact (State.createMany_keeps _ _ _ core).2
  · rw [← ht]
    exact ⟨rfl, rfl, rfl, rfl⟩

theorem teamPlacement_brings (launch core : Nat) (l : Launch) : Brings (.teamPlacement launch core)
    (fun s => s.launches.find? (fun x => x.id = launch) = some l ∧ l.hdr.coresident = false ∧
      (s.launches.any fun u => u.part = l.part && u.before l && u.phase == .placing && s.wantsPlace u && (s.placesFor u).contains core) = false ∧
      s.wantsPlace l = true ∧ core ∈ s.placesFor l ∧ s.savedOf l = [])
    fun s t => (t.core core).owner = some s.uid ∧ (t.core core).l1 = [] ∧
      ∃ x ∈ t.teams, x.id = s.uid ∧ x.launch = l.id ∧ x.core = some core ∧ (x.x, x.y, x.z, x.stage) = l.hdr.coord l.next := by
  intro s ⟨hfind, hcores, hahead, hwants, hplaces, hsaved⟩
  refine ⟨_, rfl, ?_⟩
  have hone : s.placeOne launch core = s.placeTeam l core := by
    unfold State.placeOne
    rw [hfind]
    dsimp only
    rw [hwants, if_neg (by simpa using hplaces), hsaved]
  unfold State.place
  rw [hfind]
  dsimp only
  rw [hahead, if_neg (by simp), hcores, hone]
  simp only [Bool.false_eq_true, if_false]
  split
  · exact s.placeTeam_brings l core
  · exact s.placeTeam_brings l core

theorem teamPreemption_brings (team : Nat) (x : Team) : Brings (.teamPreemption team)
    (fun s => s.teams.find? (fun u => u.id = team) = some x ∧ x.hdr.coresident = false ∧
      (s.launches.any fun l => l.part = x.part && s.lacks l && ((s.asTurn l.part).victimTeam l.part l.prio).map (·.id) == some team) = true ∧
      (∀ c ∈ x.cores, s.hasTurn x.part c = true ∧ s.quiet c = true) ∧ ∃ l, s.launches.find? (fun l => l.id = x.launch) = some l ∧ (s.writeSave l).2 = true)
    fun _ t => ∀ u ∈ t.teams, u.id = team → u.core = none ∧ u.saved.isSome = true := by
  intro s ⟨hfind, hcores, hwanted, hquiet, l, hl, hdone⟩
  have hid : x.id = team := by simpa using List.find?_some hfind
  have htogether : s.together x = [x] := if_neg (by simp [hcores])
  have hall : (x.cores.all fun c => s.hasTurn x.part c && s.quiet c) = true := by
    refine List.all_eq_true.2 fun c hc => ?_
    rw [(hquiet c hc).1, (hquiet c hc).2]
    rfl
  have hpre : s.preempt team = (s.writeSave l).1.saveTeam x := by
    unfold State.preempt
    rw [hfind]
    dsimp only
    rw [hwanted, htogether, List.all_cons, hall, if_neg (by simp), hl]
    dsimp only
    rw [if_pos hdone]
    rfl
  refine ⟨_, rfl, fun u hu hteam => ?_⟩
  rw [hpre] at hu
  unfold State.saveTeam at hu
  dsimp only at hu
  obtain ⟨v, -, hv⟩ := List.mem_map.1 hu
  rw [← hv]
  split
  · exact ⟨rfl, rfl⟩
  next hne =>
    rw [if_neg hne] at hv
    exact absurd (hv.symm ▸ hteam.trans hid.symm) hne

/-! ### GRID_COMPLETION -/

theorem State.putRecord_launches (s : State) (part q : Nat) (seq : BitVec 32) (status detail subidx : Nat) :
    (s.putRecord part q seq status detail subidx).1.launches.map (·.id) = s.launches.map (·.id) := by
  have hw := State.rest_launches (State.frontWrite_rest s (s.queueReader part q) ((s.fq part q).recordAddr seq) (recordBytes seq.toNat status detail subidx))
  unfold State.putRecord
  split
  next s1 h => rw [h] at hw; exact hw
  next s1 _ _ h => rw [h] at hw; exact hw

theorem State.putCmp_launches (s : State) (part q : Nat) : (s.putCmp part q).1.launches.map (·.id) = s.launches.map (·.id) := by
  unfold State.putCmp
  dsimp only
  split
  · rfl
  next x _ =>
    have hw := State.rest_launches (State.writeBlock_rest s part q (s.fq part q).acc (s.fq part q).iss x)
    split
    next s1 h => rw [h] at hw; exact hw
    next s1 h => rw [h] at hw; exact hw

theorem State.flush_launches (s : State) (part q n : Nat) : (s.flush part q n).launches.map (·.id) = s.launches.map (·.id) := by
  induction n generalizing s with
  | zero => rfl
  | succ n ih =>
    have hcmp := s.putCmp_launches part q
    rw [State.flush]
    split
    next s1 h => rw [h] at hcmp; exact hcmp
    next s1 h =>
      rw [h] at hcmp
      split
      · exact hcmp
      next seq status detail subidx _ =>
        have hrec := s1.putRecord_launches part q seq status detail subidx
        split
        next s2 h2 => rw [h2] at hrec; exact hrec.trans hcmp
        next s2 h2 =>
          rw [h2] at hrec
          exact (ih _).trans (hrec.trans hcmp)

theorem gridCompletion_brings (launch : Nat) (l : Launch) : Brings (.gridCompletion launch)
    (fun s => s.launches.find? (fun x => x.id = launch) = some l ∧ s.gridOver l = true)
    fun _ t => ∀ x ∈ t.launches, x.id ≠ launch := by
  intro s ⟨hfind, hover⟩
  refine ⟨_, rfl, fun x hx => ?_⟩
  unfold State.gridDone at hx
  rw [hfind] at hx
  dsimp only at hx
  rw [hover, if_neg (by simp)] at hx
  have hid := List.mem_map_of_mem (f := fun u : Launch => u.id) hx
  rw [State.flushAll, State.flush_launches] at hid
  obtain ⟨u, hu, hux⟩ := List.mem_map.1 hid
  rw [← hux]
  simpa using (List.mem_filter.1 hu).2

/-! ### Turns of partitions -/

/-- The waves of a core that some cores' halting reaches are halted. -/
theorem State.foldl_haltCore_halted (ks : List Nat) (s : State) {core : Nat} (hcore : core ∈ ks) {slot : Nat} {w : Wave}
    (hw : (ks.foldl (fun (st : State) k => st.haltCore k true) s).wave? core slot = some w) : w.halted = true := by
  have hhalt : ∀ (t : State) (v : Wave), (t.haltCore core true).wave? core slot = some v → v.halted = true := by
    intro t v hv
    unfold State.wave? State.haltCore at hv
    rw [State.core_setCore_same] at hv
    have hfind := (Tab.find_map (fun w : Wave => { w with halted := true }) (t.core core).waves slot).symm.trans hv
    obtain ⟨u, -, rfl⟩ := Option.map_eq_some_iff.1 hfind
    rfl
  have hkeep : ∀ (ls : List Nat) (t : State), (∀ v, t.wave? core slot = some v → v.halted = true) →
      ∀ v, (ls.foldl (fun (st : State) k => st.haltCore k true) t).wave? core slot = some v → v.halted = true := by
    intro ls t ht
    refine List.foldlRecOn ls _ (motive := fun u : State => ∀ v, u.wave? core slot = some v → v.halted = true) ht fun u hu k _ => ?_
    by_cases hk : core = k
    · exact hk ▸ hhalt u
    · intro v hv
      unfold State.wave? State.haltCore at hv
      rw [State.core_setCore_ne _ _ hk] at hv
      exact hu v hv
  induction ks generalizing s with
  | nil => cases hcore
  | cons k ks ih =>
    rcases List.mem_cons.1 hcore with rfl | hin
    · exact hkeep ks _ (hhalt s) w hw
    · exact ih _ hin hw

theorem quantumExpiry_brings (part : Nat) : Brings (.quantumExpiry part) (fun _ => True)
    fun s t => ∀ c < 48, (s.cluster c).turn = some part → ∀ core ∈ coresOf c, ∀ slot w, t.wave? core slot = some w → w.halted = true := by
  intro s _
  refine ⟨_, rfl, fun c hc hturn core hcore slot w hw => ?_⟩
  refine State.foldl_haltCore_halted _ s (List.mem_flatMap.2 ⟨c, ?_, hcore⟩) hw
  exact List.mem_filter.2 ⟨List.mem_range.2 hc, decide_eq_true hturn⟩

/-- A partition that comes in on a cluster has the turn there, and on any other the turn stays. -/
theorem State.swapIn_turn (s : State) (part k c : Nat) :
    ((s.swapIn part k).cluster c).turn = if c = k then some part else (s.cluster c).turn := by
  have hload : ∀ (ks : List Nat) (t : State), (ks.foldl (fun (st : State) k => st.loadCore part k) t).clusters = t.clusters := fun ks t =>
    List.foldlRecOn ks _ (motive := fun u : State => u.clusters = t.clusters) rfl fun _ hu _ _ => hu
  unfold State.swapIn State.loadCluster
  by_cases hc : c = k
  · rw [if_pos hc, hc]
    exact congrArg Cluster.turn (Tab.get_put_same _ _ _ _)
  · rw [if_neg hc]
    refine (congrArg Cluster.turn (Tab.get_put_ne _ _ _ hc)).trans ?_
    exact congrArg (fun cl : Tab Cluster => (cl.get Cluster.reset c).turn) (hload (coresOf k) s)

theorem State.swapOut_clusters (s : State) (part k : Nat) : (s.swapOut part k).clusters = s.clusters :=
  List.foldlRecOn (coresOf k) _ (motive := fun u : State => u.clusters = s.clusters) rfl fun _ hu _ _ => hu

/-- After the swap of some clusters the incoming partition has the turn on each. -/
theorem State.foldl_swap_turn (outgoing incoming : Nat) (ks : List Nat) (s : State) {c : Nat} (hc : c ∈ ks) :
    ((ks.foldl (fun (st : State) k => (st.swapOut outgoing k).swapIn incoming k) s).cluster c).turn = some incoming := by
  have hkeep : ∀ (ls : List Nat) (t : State), (t.cluster c).turn = some incoming →
      ((ls.foldl (fun (st : State) k => (st.swapOut outgoing k).swapIn incoming k) t).cluster c).turn = some incoming := by
    intro ls t ht
    refine List.foldlRecOn ls _ (motive := fun u : State => (u.cluster c).turn = some incoming) ht fun u hu k _ => ?_
    rw [State.swapIn_turn]
    split
    · rfl
    · unfold State.cluster
      rw [State.swapOut_clusters]
      exact hu
  induction ks generalizing s with
  | nil => cases hc
  | cons k ks ih =>
    rw [List.foldl_cons]
    rcases List.mem_cons.1 hc with rfl | hin
    · exact hkeep ks _ ((State.swapIn_turn (s.swapOut outgoing c) incoming c c).trans (if_pos rfl))
    · exact ih _ hin

theorem shadowStoreSwap_brings (outgoing incoming : Nat) (hne : outgoing ≠ incoming) : Brings (.shadowStoreSwap outgoing incoming)
    (fun s => (s.part incoming).valid = true ∧
      ∀ c < 48, (s.cluster c).turn = some outgoing → (s.part incoming).clusters.getLsbD c = true → ∀ core ∈ coresOf c, s.calm core = true)
    fun s t => ∀ c < 48, (s.cluster c).turn = some outgoing → (s.part incoming).clusters.getLsbD c = true →
      (t.cluster c).turn = some incoming := by
  intro s ⟨hvalid, hcalm⟩
  generalize hcs : (s.turnsOf outgoing).filter (fun c => (s.part incoming).clusters.getLsbD c) = cs
  have hmem : ∀ c, c ∈ cs ↔ c < 48 ∧ (s.cluster c).turn = some outgoing ∧ (s.part incoming).clusters.getLsbD c = true := by
    intro c
    rw [← hcs]
    simp only [State.turnsOf, List.mem_filter, List.mem_range, decide_eq_true_eq, and_assoc]
  have hall : ((cs.flatMap coresOf).all s.calm) = true := by
    refine List.all_eq_true.2 fun core hin => ?_
    obtain ⟨c, hc, hcore⟩ := List.mem_flatMap.1 hin
    obtain ⟨hlt, hturn, hholds⟩ := (hmem c).1 hc
    exact hcalm c hlt hturn hholds core hcore
  have hswap : s.swap outgoing incoming = cs.foldl (fun (st : State) c => (st.swapOut outgoing c).swapIn incoming c) s := by
    unfold State.swap
    dsimp only
    rw [hcs, hall, hvalid, if_neg (by simpa using hne)]
  refine ⟨_, rfl, fun c hc hturn hholds => ?_⟩
  rw [hswap]
  exact State.foldl_swap_turn outgoing incoming cs s ((hmem c).2 ⟨hc, hturn, hholds⟩)

/-- Settles O48: each event by the branch that its conditions choose, with what the steps after it leave. -/
theorem waveAndTeamEventsTakeEffect : Obligations.WaveAndTeamEventsTakeEffect :=
  ⟨fairnessTimerExpiry_brings, blockGrant_grants, blockGrant_reissues, fun _ _ _ => rfl, waveCreation_brings, teamPlacement_brings, teamPreemption_brings,
    gridCompletion_brings, quantumExpiry_brings, shadowStoreSwap_brings⟩

end Sys2Proof.Machine
end


section
/-!
Obligation O57, the canonical form of memory: the canonical form of memory and the claims about it.
-/
namespace Sys2Proof.Machine

/-- A state, if there is one, whose memory is in its canonical form. -/
def InvSome : Option State → Prop
  | some t => Inv t
  | none => True

/-- A step that goes on, if it does, to a state whose memory is in its canonical form. -/
def Goes : Host.Outcome State Fault Refusal → Prop
  | .next t => Inv t
  | _ => True

/-- The states that an attempt to write a ring entry can leave have their memory in its canonical form. -/
def RingOut.Keeps : RingOut → Prop
  | .written t => Inv t
  | .wait t => Inv t
  | .lost => True

/-- What stands before an instruction leaves memory in its canonical form. -/
def Prep.Keeps : Prep → Prop
  | .run _ t => Inv t
  | .other t => Inv t

/-- The states that the store of a row can leave have their memory in its canonical form. -/
def RowOut.Keeps : RowOut → Prop
  | .done t => Inv t
  | .wait t => Inv t
  | .fault t _ => Inv t

/-- A node of a graph that starts does so in a state whose memory is in its canonical form. -/
def NodeStart.Keeps : NodeStart → Prop
  | .going t => Inv t
  | _ => True

/-! ### Choices, options and folds -/

theorem Inv.ite {c : Prop} [Decidable c] {a b : State} (ha : Inv a) (hb : Inv b) : Inv (if c then a else b) := by
  split
  · exact ha
  · exact hb

theorem Inv.ite_fst {α : Type} {c : Prop} [Decidable c] {a b : State × α} (ha : Inv a.1) (hb : Inv b.1) :
    Inv (if c then a else b).1 := by
  split
  · exact ha
  · exact hb

theorem Goes.next {t : State} (h : Inv t) : Goes (.next t) := h

theorem InvSome.ite {c : Prop} [Decidable c] {a b : Option State} (ha : InvSome a) (hb : InvSome b) :
    InvSome (if c then a else b) := by
  split
  · exact ha
  · exact hb

theorem Inv.getD {o : Option State} {s : State} (ho : InvSome o) (h : Inv s) : Inv (o.getD s) := by
  cases o with
  | none => exact h
  | some t => exact ho

theorem InvSome.map {o : Option State} {f : State → State} (ho : InvSome o) (hf : ∀ t, Inv t → Inv (f t)) :
    InvSome (o.map f) := by
  cases o with
  | none => trivial
  | some t => exact hf t ho

theorem InvSome.mapAny {α : Type} {o : Option α} {f : α → State} (hf : ∀ a, Inv (f a)) : InvSome (o.map f) := by
  cases o with
  | none => trivial
  | some a => exact hf a

theorem InvSome.bind {o : Option State} {f : State → Option State} (ho : InvSome o) (hf : ∀ t, Inv t → InvSome (f t)) :
    InvSome (o.bind f) := by
  cases o with
  | none => trivial
  | some t => exact hf t ho

theorem Inv.foldl {α : Type} {f : State → α → State} {s : State} {l : List α} (h : Inv s) (hf : ∀ t a, Inv t → Inv (f t a)) :
    Inv (l.foldl f s) :=
  List.foldlRecOn l f (motive := Inv) h fun t ht a _ => hf t a ht

theorem Inv.foldl_fst {α β : Type} {f : State × β → α → State × β} {s : State × β} {l : List α} (h : Inv s.1)
    (hf : ∀ t a, Inv t.1 → Inv (f t a).1) : Inv (l.foldl f s).1 :=
  List.foldlRecOn l f (motive := fun t => Inv t.1) h fun t ht a _ => hf t a ht

theorem InvSome.foldl {α : Type} {f : Option State → α → Option State} {o : Option State} {l : List α} (h : InvSome o)
    (hf : ∀ t a, InvSome t → InvSome (f t a)) : InvSome (l.foldl f o) :=
  List.foldlRecOn l f (motive := InvSome) h fun t ht a _ => hf t a ht

/-! ### The state that a match names -/

theorem Inv.of_fst {α : Type} {x : State × α} {t : State} {a : α} (he : x = (t, a)) (h : Inv x.1) : Inv t := by
  rw [he] at h
  exact h

theorem Inv.of_some {x : Option State} {t : State} (he : x = some t) (h : InvSome x) : Inv t := by
  rw [he] at h
  exact h

theorem Inv.of_next {x : Host.Outcome State Fault Refusal} {t : State} (he : x = .next t) (h : Goes x) : Inv t := by
  rw [he] at h
  exact h

theorem Inv.of_ring_written {x : RingOut} {t : State} (he : x = .written t) (h : x.Keeps) : Inv t := by
  rw [he] at h
  exact h

theorem Inv.of_ring_wait {x : RingOut} {t : State} (he : x = .wait t) (h : x.Keeps) : Inv t := by
  rw [he] at h
  exact h

theorem Inv.of_row_done {x : RowOut} {t : State} (he : x = .done t) (h : x.Keeps) : Inv t := by
  rw [he] at h
  exact h

theorem Inv.of_row_wait {x : RowOut} {t : State} (he : x = .wait t) (h : x.Keeps) : Inv t := by
  rw [he] at h
  exact h

theorem Inv.of_row_fault {x : RowOut} {t : State} {n : Nat} (he : x = .fault t n) (h : x.Keeps) : Inv t := by
  rw [he] at h
  exact h

theorem Inv.of_going {x : NodeStart} {t : State} (he : x = .going t) (h : x.Keeps) : Inv t := by
  rw [he] at h
  exact h

theorem Inv.of_prep_run {x : Prep} {i : Instr} {t : State} (he : x = .run i t) (h : x.Keeps) : Inv t := by
  rw [he] at h
  exact h

theorem Inv.of_prep_other {x : Prep} {t : State} (he : x = .other t) (h : x.Keeps) : Inv t := by
  rw [he] at h
  exact h

end Sys2Proof.Machine
end


section
/-!
Obligation O57, the canonical form of memory: memory, error records and generated ranges.
-/
namespace Sys2Proof.Machine

/-! ### Memory -/

theorem State.setCore_inv {s : State} {c : Nat} {x : Core} (hs : Inv s) : Inv (s.setCore c x) := hs

theorem State.setCluster_inv {s : State} {c : Nat} {x : Cluster} (hs : Inv s) : Inv (s.setCluster c x) := hs

theorem State.setPart_inv {s : State} {p : Nat} {x : Partition} (hs : Inv s) : Inv (s.setPart p x) := hs

theorem State.fresh_inv {s : State} (hs : Inv s) : Inv s.fresh := hs

theorem State.draw_inv {s : State} (hs : Inv s) : Inv s.draw := hs

theorem State.irq_inv {s : State} {p vec : Nat} (hs : Inv s) : Inv (s.irq p vec) := hs

theorem State.countRequest_inv {s : State} {p : Nat} {k : LineKey} (hs : Inv s) : Inv (s.countRequest p k) := hs

theorem State.markWords_inv {s : State} {ws : List Nat} {bad : Bool} (hs : Inv s) : Inv (s.markWords ws bad) := hs

theorem State.sealBlock_inv {s : State} {block : Nat} (hs : Inv s) : Inv (s.sealBlock block) := by
  unfold State.sealBlock
  exact Inv.ite hs hs

theorem State.readBlock64_inv {s : State} {block : Nat} (hs : Inv s) : Inv (s.readBlock64 block) := by
  unfold State.readBlock64
  exact Inv.ite (Inv.ite (State.sealBlock_inv hs) (State.sealBlock_inv hs)) (Inv.ite (Inv.ite hs hs) hs)

theorem State.readLine128_inv {s : State} {line : Nat} (hs : Inv s) : Inv (s.readLine128 line) := by
  unfold State.readLine128
  exact State.readBlock64_inv (State.readBlock64_inv hs)

theorem State.breakReservations_inv {s : State} {line : Nat} {keep : Option (Nat × Nat)} (hs : Inv s) : Inv (s.breakReservations line keep) := hs

theorem State.writeBack_inv {s : State} {line : Nat} (hs : Inv s) : Inv (s.writeBack line) := by
  unfold State.writeBack
  exact Inv.ite hs (Inv.foldl hs (fun t _ h => Inv.ite h h))

theorem State.uncover_inv {s : State} {line : Nat} {dirty : Bool} (hs : Inv s) : Inv (s.uncover line dirty) := by
  unfold State.uncover
  exact Inv.ite hs (Inv.ite hs hs)

theorem State.dropLine_inv {s : State} {slice n : Nat} (hs : Inv s) : Inv (s.dropLine slice n) := by
  unfold State.dropLine
  dsimp only
  split
  · exact hs
  · exact State.uncover_inv (Inv.ite (State.writeBack_inv hs) hs)

theorem State.victimPut_inv {s : State} {part : Nat} {k : LineKey} {data : List Byte} (hs : Inv s) : Inv (s.victimPut part k data) := by
  unfold State.victimPut
  exact Inv.ite hs (Inv.ite hs hs)

theorem State.victimAge_inv {s : State} {part : Nat} {k : LineKey} {age : Nat} (hs : Inv s) : Inv (s.victimAge part k age) := by
  unfold State.victimAge
  exact Inv.ite hs hs

theorem State.forgetGuests_inv {s : State} {code : Nat} (hs : Inv s) : Inv (s.forgetGuests code) := by
  unfold State.forgetGuests
  exact Inv.ite hs hs

theorem State.evict_inv {s : State} {slice : Nat} {v : Held} (hs : Inv s) : Inv (s.evict slice v) := by
  unfold State.evict
  dsimp only
  split
  · exact State.dropLine_inv hs
  · split
    · exact Inv.ite (State.victimPut_inv (State.forgetGuests_inv hs)) (State.forgetGuests_inv hs)
    · exact State.forgetGuests_inv hs
  · exact hs

theorem State.makeSpace?_inv {s : State} {slice code : Nat} (hs : Inv s) : InvSome (s.makeSpace? slice code) := by
  unfold State.makeSpace?
  exact InvSome.ite (InvSome.mapAny (fun a => State.evict_inv hs)) (InvSome.ite (InvSome.mapAny (fun a => State.evict_inv hs)) hs)

theorem State.makeRoom_inv {s : State} {slice : Nat} {victim : Option Held} (hs : Inv s) : Inv (s.makeRoom slice victim) := by
  unfold State.makeRoom
  dsimp only
  split
  · exact Inv.ite (State.evict_inv hs) hs
  · exact hs

theorem State.modLine_inv {s : State} {slice n : Nat} {f : Line → Line} (hs : Inv s) : Inv (s.modLine slice n f) := by
  unfold State.modLine
  dsimp only
  split
  · exact hs
  · exact hs

theorem State.enter_inv {s : State} {slice part n : Nat} (hs : Inv s) : InvSome (s.enter slice part n) := by
  unfold State.enter
  exact InvSome.map (State.makeSpace?_inv hs) fun t h => Inv.ite (State.readLine128_inv h) h

theorem State.touchLine?_inv {s : State} {p line : Nat} {f : Line → Line} (hs : Inv s) : InvSome (s.touchLine? p line f) := by
  unfold State.touchLine?
  exact InvSome.ite (State.modLine_inv hs) (InvSome.ite hs (InvSome.map (State.enter_inv hs) (fun t h => State.modLine_inv h)))

theorem State.touchLine_inv {s : State} {p line : Nat} {f : Line → Line} (hs : Inv s) : Inv (s.touchLine p line f) := by
  unfold State.touchLine
  exact Inv.getD (State.touchLine?_inv hs) hs

theorem State.sendInvals_inv {s : State} {line : Nat} (hs : Inv s) : Inv (s.sendInvals line) := by
  unfold State.sendInvals
  exact Inv.foldl hs fun t _ h => Inv.ite h h

theorem State.clearGuest_inv {s : State} {g : Nat × Nat} (hs : Inv s) : Inv (s.clearGuest g) := by
  unfold State.clearGuest
  exact Inv.ite hs hs

theorem State.dropGuest_inv {s : State} {g : Nat × Nat} (hs : Inv s) : Inv (s.dropGuest g) := by
  unfold State.dropGuest
  exact Inv.ite hs (State.clearGuest_inv (Inv.ite hs hs))

theorem State.dropGuests_inv {s : State} {line : Nat} (hs : Inv s) : Inv (s.dropGuests line) := by
  unfold State.dropGuests
  exact Inv.foldl hs fun t a h => State.dropGuest_inv h

theorem State.dropCopies_inv {s : State} {k : LineKey} (hs : Inv s) : Inv (s.dropCopies k) := by
  unfold State.dropCopies
  exact Inv.foldl hs fun t a h => State.dropGuest_inv h

theorem State.markLine_inv {s : State} {p line : Nat} {bs : List ByteWrite} {poisoned nt : Bool} (hs : Inv s) :
    Inv (s.markLine p line bs poisoned nt) := by
  unfold State.markLine
  dsimp only
  split
  · split
    · exact State.touchLine_inv hs
    · exact State.touchLine_inv hs
  · exact State.touchLine_inv hs

theorem State.performWrites_inv {s : State} {p : Nat} {all : List ByteWrite} {poisoned nt : Bool} {keep : Option (Nat × Nat)} (hs : Inv s) :
    Inv (s.performWrites p all poisoned nt keep) := by
  have hput : ∀ (bs : List ByteWrite) (t : State), Inv t →
      Memory.wf (bs.foldl (fun m b => m.write b.addr ((m.read b.addr &&& ~~~b.en) ||| (b.val &&& b.en))) t.mem) = true := fun bs t ht =>
    Memory.wf_foldl _ (fun m b hm => Memory.wf_write m hm _ _) bs t.mem ht
  unfold State.performWrites
  extract_lets bs lines s0 s1 s2 words s3 hosts s4
  have h0 : Inv s0 := Inv.ite hs (Inv.foldl hs fun t b ht => State.sealBlock_inv ht)
  have h1 : Inv s1 := Inv.foldl h0 fun t l ht => State.markLine_inv ht
  have h2 : Inv s2 := hput bs s1 h1
  have h4 : Inv s4 := Inv.ite (Inv.ite h2 (Inv.ite h2 h2)) (Inv.ite h2 (Inv.ite h2 h2))
  exact Inv.foldl h4 fun t l ht => ht

theorem State.writePhys_inv {s : State} {p pa : Nat} {bs : List Byte} {poisoned : Bool} (hs : Inv s) : Inv (s.writePhys p pa bs poisoned) := by
  unfold State.writePhys
  exact State.performWrites_inv (Inv.ite hs (Inv.foldl hs (fun t a h => State.dropGuests_inv h)))

theorem State.touchWalk_inv {s : State} {part : Nat} {va : DWord} (hs : Inv s) : Inv (s.touchWalk part va) := by
  unfold State.touchWalk
  exact Inv.foldl hs fun t a h => State.touchLine_inv h

theorem State.noteWalk_inv {s : State} {part : Nat} {k : AccessKind} {va : DWord} (hs : Inv s) : Inv (s.noteWalk part k va) := by
  unfold State.noteWalk
  split
  · exact hs
  · exact hs

theorem State.fillTlb_inv {s : State} {core : Nat} {e : TlbEntry} (hs : Inv s) : Inv (s.fillTlb core e) := hs

theorem State.requestWalk_inv {s : State} {core part req agent : Nat} {k : AccessKind} {va : DWord} (hs : Inv s) :
    Inv (s.requestWalk core part req agent k va) := by
  unfold State.requestWalk
  exact Inv.ite hs hs

theorem State.dropWalks_inv {s : State} {core req : Nat} (hs : Inv s) : Inv (s.dropWalks core req) := by
  unfold State.dropWalks
  exact Inv.ite hs hs

/-! ### Error records -/

theorem State.writeVirt_inv {s : State} {part : Nat} {va : DWord} {bs : List Byte} (hs : Inv s) : InvSome (s.writeVirt part va bs) := by
  unfold State.writeVirt
  split
  · exact InvSome.ite trivial (State.writePhys_inv (State.touchWalk_inv hs))
  · exact trivial

/-- A write of memory, and of the device, keeps the canonical form when the new memory has it. -/
theorem Inv.withMem {s : State} {m : Memory} {d : Device} (hm : m.wf = true) : Inv { s with mem := m, dev := d } := hm

theorem State.deviceRecord_inv {s : State} {r : BitVec 256} (hs : Inv s) : Inv (s.deviceRecord r) := by
  unfold State.deviceRecord
  dsimp only
  split
  · split
    · exact State.irq_inv (Inv.withMem (Memory.wf_writeBytes s.mem hs _ _))
    · exact Inv.withMem (Memory.wf_writeBytes s.mem hs _ _)
  · exact Inv.ite hs hs

theorem State.writeRing_inv {s : State} {part : Nat} {va : DWord} {bs : List Byte} (hs : Inv s) : (s.writeRing part va bs).Keeps := by
  unfold State.writeRing
  dsimp only
  split
  · split
    · exact hs
    · exact State.writePhys_inv (State.touchWalk_inv (State.dropWalks_inv hs))
  · exact State.requestWalk_inv hs
  · exact trivial

theorem State.partRecord_inv {s : State} {part : Nat} {r : BitVec 256} (hs : Inv s) : Inv (s.partRecord part r) := by
  unfold State.partRecord
  dsimp only
  split
  · split
    next he1 =>
      exact Inv.ite (State.irq_inv (State.setPart_inv (Inv.of_ring_written he1 (State.writeRing_inv hs)))) (State.setPart_inv
        (Inv.of_ring_written he1 (State.writeRing_inv hs)))
    next he1 =>
      exact Inv.ite (State.setPart_inv (Inv.of_ring_wait he1 (State.writeRing_inv hs))) (State.setPart_inv (Inv.of_ring_wait he1
        (State.writeRing_inv hs)))
    · exact State.dropWalks_inv hs
  · exact Inv.ite hs hs

theorem State.record_inv {s : State} {r : ErrRec} (hs : Inv s) : Inv (s.record r) := by
  unfold State.record
  dsimp only
  split
  · exact State.partRecord_inv (State.deviceRecord_inv hs)
  · exact State.deviceRecord_inv hs

theorem State.drainDevice_inv {s : State} (hs : Inv s) : Inv s.drainDevice := by
  unfold State.drainDevice
  exact Inv.foldl hs fun t a h => State.deviceRecord_inv h

theorem State.drainPart_inv {s : State} {part : Nat} (hs : Inv s) : Inv (s.drainPart part) := by
  unfold State.drainPart
  exact Inv.foldl hs fun t a h => State.partRecord_inv h

theorem State.sendDue_inv {s : State} (hs : Inv s) : Inv s.sendDue := by
  unfold State.sendDue
  refine Inv.foldl ?_ fun t a h => State.drainPart_inv h
  split
  · exact hs
  · refine Inv.foldl hs ?_
    intro t a h
    split
    · exact State.record_inv h
    · exact State.record_inv h

/-! ### Miss slots and fill tasks -/

theorem State.freeSlot_inv {s : State} {slice : Nat} {key : SlotKey} (hs : Inv s) : Inv (s.freeSlot slice key) := hs

theorem State.askSlot_inv {s : State} {slice : Nat} {me : MissWait} {grant : State → Option State} (hs : Inv s)
    (hgrant : ∀ a0, Inv a0 → InvSome (grant a0)) : Inv (s.askSlot slice me grant) := by
  unfold State.askSlot
  exact Inv.ite (Inv.getD (hgrant _ hs) (Inv.ite hs hs)) (Inv.ite hs hs)

theorem State.readSlot_inv {s : State} {slice : Nat} {x : MissSlot} {copy : LineKey} (hs : Inv s) : InvSome (s.readSlot slice x copy) := by
  unfold State.readSlot
  exact InvSome.ite hs trivial

theorem State.placeGen_inv {s : State} {slice part line : Nat} {x : GenLine} (hs : Inv s) : InvSome (s.placeGen slice part line x) := by
  unfold State.placeGen
  exact InvSome.map (State.makeSpace?_inv hs) fun _ h => h

theorem State.openTask_inv {s : State} {core part gi : Nat} {g : Gen} {block d : Nat} (hs : Inv s) : InvSome (s.openTask core part gi g block d) := by
  unfold State.openTask
  exact InvSome.map (InvSome.foldl hs (fun t a h => InvSome.bind h (fun t h1 => State.placeGen_inv h1))) fun _ h => h

theorem State.wantCopy_inv {s : State} {part uid d line : Nat} (hs : Inv s) : Inv (s.wantCopy part uid d line) := by
  unfold State.wantCopy
  exact Inv.ite hs (State.askSlot_inv hs (fun _ h => State.readSlot_inv h))

theorem State.touchGen_inv {s : State} {core part uid d line : Nat} (hs : Inv s) : Inv (s.touchGen core part uid d line).1 := by
  unfold State.touchGen
  dsimp only
  split
  · exact hs
  · split
    · split
      · exact Inv.ite_fst hs hs
      · exact hs
    · split
      · exact hs
      · exact Inv.ite_fst hs (Inv.ite_fst (State.wantCopy_inv (Inv.ite hs hs)) (Inv.ite_fst (Inv.ite hs hs) (State.askSlot_inv (Inv.ite hs hs)
          (fun _ h => State.openTask_inv h))))

theorem State.poisonLine_inv {s : State} {part line : Nat} {o : Origin} (hs : Inv s) : Inv (s.poisonLine part line o) := by
  unfold State.poisonLine
  dsimp only
  split
  · exact hs
  · exact Inv.ite hs (State.record_inv hs)

theorem State.settleSlot_inv {s : State} {t : Task} (hs : Inv s) : Inv (s.settleSlot t) := by
  unfold State.settleSlot
  split
  · exact hs
  · exact Inv.ite hs hs

theorem State.endTask_inv {s : State} {part id : Nat} {o : Origin} (hs : Inv s) : Inv (s.endTask part id o) := by
  unfold State.endTask
  dsimp only
  split
  · exact hs
  · refine State.setPart_inv ?_
    refine State.settleSlot_inv ?_
    refine Inv.foldl hs ?_
    intro t a h
    split
    · exact Inv.ite (State.poisonLine_inv h) h
    · exact h

end Sys2Proof.Machine
end


section
/-!
Obligation O57, the canonical form of memory: the state's operations, flags and operands.
-/
namespace Sys2Proof.Machine

/-! ### Waves, traps and registers -/

theorem State.setWave_inv {s : State} {core slot : Nat} {w : Wave} (hs : Inv s) : Inv (s.setWave core slot w) := hs

theorem State.modWave_inv {s : State} {core slot : Nat} {g : Wave → Wave} (hs : Inv s) : Inv (s.modWave core slot g) := by
  unfold State.modWave
  split
  · exact hs
  · exact hs

theorem State.cross_inv {s : State} {bs : List Byte} (hs : Inv s) : Inv (s.cross bs).1 := by
  unfold State.cross
  split
  · exact hs
  · exact hs

theorem State.abortOps_inv {s : State} {core slot : Nat} {ids : List Nat} (hs : Inv s) : Inv (s.abortOps core slot ids) := by
  unfold State.abortOps
  exact Inv.ite hs (State.modWave_inv hs)

theorem State.fenceWave_inv {s : State} {core slot : Nat} (hs : Inv s) : Inv (s.fenceWave core slot) := by
  unfold State.fenceWave
  exact State.modWave_inv hs

theorem State.endTurn_inv {s : State} {core slot : Nat} {swap : Bool} (hs : Inv s) : Inv (s.endTurn core slot swap) := by
  unfold State.endTurn
  dsimp only
  split
  · exact hs
  · split
    · exact hs
    · exact hs

theorem State.endTeam_inv {s : State} {t : Team} (hs : Inv s) : Inv (s.endTeam t) := by
  unfold State.endTeam
  exact Inv.ite (Inv.foldl hs (fun _ _ h => h)) (Inv.foldl hs (fun _ _ h => h))

theorem State.endWave_inv {s : State} {core slot : Nat} {killed : Bool} (hs : Inv s) : Inv (s.endWave core slot killed) := by
  unfold State.endWave
  split
  · exact hs
  · extract_lets c keep given c1 s1 s2 s3
    have h1 : Inv s1 := State.dropWalks_inv (s := s.setCore core c1) hs
    have h3 : Inv s3 := by
      unfold s3 s2
      split
      · exact State.endTask_inv h1
      · exact State.endTask_inv h1
      · exact h1
    clear_value s3
    split
    · exact Inv.ite (State.endTeam_inv h3) h3
    · exact h3

theorem State.markKilled_inv {s : State} {core uid : Nat} (hs : Inv s) : Inv (s.markKilled core uid) := by
  unfold State.markKilled
  exact Inv.ite hs hs

theorem State.killWave_inv {s : State} {core slot : Nat} {r : ErrRec} (hs : Inv s) : Inv (s.killWave core slot r) := by
  unfold State.killWave
  dsimp only
  split
  · exact hs
  · exact State.endWave_inv (State.markKilled_inv (State.record_inv hs))

theorem State.settle_inv {s : State} {core slot : Nat} (hs : Inv s) : Inv (s.settle core slot) := by
  unfold State.settle
  dsimp only
  split
  · exact hs
  · exact Inv.ite (State.endWave_inv hs) hs

theorem State.nextWord_inv {s : State} {core slot : Nat} (hs : Inv s) : Inv (s.nextWord core slot) := by
  unfold State.nextWord
  exact State.settle_inv (State.modWave_inv hs)

theorem State.ctx?_inv {s : State} {c : Ctx} (hs : Inv s) (hc : s.ctx? = some c) : Inv c.s := by
  rw [(State.ctx_some hc).2.1]
  exact hs

theorem withCtx_inv {s : State} {k : Ctx → State} (hs : Inv s) (hk : ∀ c, Inv c.s → Inv (k c)) : Goes (withCtx s k) := by
  unfold withCtx
  split
  next => trivial
  next c hc => exact hk c (State.ctx?_inv hs hc)

theorem Ctx.put_inv {c : Ctx} {w : Wave} (hc : Inv c.s) : Inv (c.put w) := hc

theorem Ctx.done_inv {c : Ctx} {w : Wave} (hc : Inv c.s) : Inv (c.done w) := by
  unfold Ctx.done
  exact State.nextWord_inv hc

theorem Ctx.next_inv {c : Ctx} {s : State} (hs : Inv s) : Inv (c.next s) := by
  unfold Ctx.next
  exact State.nextWord_inv hs

theorem Ctx.enter_inv {c : Ctx} {t : Trap} {iaddr : DWord} {word : BitVec 96} (hc : Inv c.s) : Inv (c.enter t iaddr word) := by
  unfold Ctx.enter
  dsimp only
  split
  · exact hc
  · exact hc

theorem Ctx.trapAt_inv {c : Ctx} {t : Trap} {iaddr : DWord} {word : BitVec 96} (hc : Inv c.s) : Inv (c.trapAt t iaddr word) := by
  unfold Ctx.trapAt
  exact Inv.ite (State.killWave_inv hc) (Inv.ite (State.killWave_inv hc) (Inv.ite (State.record_inv (State.modWave_inv hc))
    (Inv.ite (State.killWave_inv hc) (Inv.ite (Ctx.enter_inv hc) (State.killWave_inv hc)))))

theorem Ctx.trap_inv {c : Ctx} {t : Trap} (hc : Inv c.s) : Inv (c.trap t) := by
  unfold Ctx.trap
  exact Ctx.trapAt_inv (State.dropWalks_inv hc)

theorem Ctx.awaitFetch_inv {c : Ctx} {user : Bool} {va : DWord} (hc : Inv c.s) : Inv (c.awaitFetch user va) := by
  unfold Ctx.awaitFetch
  exact State.requestWalk_inv hc

theorem Ctx.awaitLine_inv {c : Ctx} {l : Nat} (hc : Inv c.s) : Inv (c.awaitLine l) := by
  unfold Ctx.awaitLine
  exact State.askSlot_inv hc fun _ h => State.readSlot_inv h

theorem Ctx.eret_inv {c : Ctx} (hc : Inv c.s) : Inv c.eret := by
  unfold Ctx.eret
  split
  · exact Ctx.trap_inv hc
  · dsimp only
    split
    · exact hc
    · split
      · exact Ctx.awaitFetch_inv hc
      · exact Ctx.awaitLine_inv hc
      · exact State.settle_inv (State.dropWalks_inv hc)

theorem State.setBar_inv {s : State} {core off : Nat} {b : Bar} (hs : Inv s) : Inv (s.setBar core off b) := by
  unfold State.setBar
  exact Inv.ite hs hs

theorem State.sendCredit_inv {s : State} {core off n : Nat} {fault : Option Nat} (hs : Inv s) : Inv (s.sendCredit core off n fault) := hs

/-! ### Exception counts -/

theorem State.countFor_inv {s : State} {traps : Bool} {core wc slot uid : Nat} {k : XClass} {n : Nat} {iaddr : DWord} {word : BitVec 96}
    (hs : Inv s) : Inv (s.countFor traps core wc slot uid k n iaddr word) := by
  unfold State.countFor
  exact Inv.ite hs (Inv.ite hs (Inv.ite (State.record_inv (Inv.ite (State.modWave_inv hs) hs)) (Inv.ite (State.modWave_inv hs) hs)))

theorem State.countOn_inv {s : State} {core wc slot uid : Nat} {k : XClass} {n : Nat} {iaddr : DWord} {word : BitVec 96} (hs : Inv s) :
    Inv (s.countOn core wc slot uid k n iaddr word) := by
  unfold State.countOn
  exact State.countFor_inv hs

theorem State.countAll_inv {s : State} {core slot uid : Nat} {evs : List (XClass × Nat)} {iaddr : DWord} {word : BitVec 96} (hs : Inv s) :
    Inv (s.countAll core slot uid evs iaddr word) := by
  unfold State.countAll
  exact Inv.foldl hs fun t a h => State.countOn_inv h

/-! ### Operands and checks -/

theorem Ctx.stop_inv {c : Ctx} {st : Stop} (hc : Inv c.s) : Inv (c.stop st) := by
  unfold Ctx.stop
  split
  · exact Ctx.trap_inv hc
  · exact hc
  · exact hc

theorem Ctx.vector_inv {c : Ctx} {g : Guard} {us : List Use} {k : Mask → State} (hc : Inv c.s) (hk : ∀ a0, Inv (k a0)) : Inv (c.vector g us k) := by
  unfold Ctx.vector
  dsimp only
  split
  · exact Ctx.next_inv hc
  · split
    · exact Ctx.stop_inv hc
    · exact hk _

theorem Ctx.uniformOn_inv {c : Ctx} {g : Guard} {act : Mask} {us : List Use} {k : State} (hc : Inv c.s) (hk : Inv k) :
    Inv (c.uniformOn g act us k) := by
  unfold Ctx.uniformOn
  split
  · exact Ctx.next_inv hc
  · split
    · exact Ctx.stop_inv hc
    · exact Inv.ite hk (Ctx.next_inv hc)

theorem Ctx.uniform_inv {c : Ctx} {g : Guard} {us : List Use} {k : State} (hc : Inv c.s) (hk : Inv k) : Inv (c.uniform g us k) := by
  unfold Ctx.uniform
  exact Ctx.uniformOn_inv hc hk

theorem State.outvote_inv {s : State} {core slot part lost thread : Nat} (hs : Inv s) : Inv (s.outvote core slot part lost thread) := by
  unfold State.outvote
  exact Inv.ite (State.record_inv hs) hs

theorem Ctx.chkKill_inv {c : Ctx} {thread : Nat} (hc : Inv c.s) : Inv (c.chkKill thread) := by
  unfold Ctx.chkKill
  exact State.killWave_inv hc

theorem Ctx.voted_inv {c : Ctx} {act : Mask} {eff : Flip} {k : State → (Nat → Flip) → State} (hc : Inv c.s) (hk : ∀ a0 a1, Inv a0 → Inv (k a0 a1)) :
    Inv (c.voted act eff k) := by
  unfold Ctx.voted
  dsimp only
  split
  · exact Ctx.chkKill_inv hc
  · exact hk _ _ hc
  · exact hk _ _ (State.outvote_inv hc)

theorem Ctx.writeResult_inv {c : Ctx} {s1 : State} {dst : Opnd} {act : Mask} {r : Result} (hs1 : Inv s1) : Inv (c.writeResult s1 dst act r) := by
  unfold Ctx.writeResult
  exact Inv.ite (Ctx.next_inv hs1) (Ctx.next_inv (State.countAll_inv hs1))

theorem Ctx.commit_inv {c : Ctx} {dst : Opnd} {act : Mask} {r : Result} (hc : Inv c.s) : Inv (c.commit dst act r) := by
  unfold Ctx.commit
  exact Ctx.voted_inv hc fun _ _ h => Ctx.writeResult_inv h

theorem Ctx.runVector_inv {c : Ctx} {o : Ops} {pl : Plan} {act : Mask} (hc : Inv c.s) : Inv (c.runVector o pl act) := by
  unfold Ctx.runVector
  exact Ctx.commit_inv hc

theorem Ctx.writeUniform_inv {c : Ctx} {o : Ops} {pl : Plan} {out : LaneOut} {bad : Bool} (hc : Inv c.s) : Inv (c.writeUniform o pl out bad) := by
  unfold Ctx.writeUniform
  exact Inv.ite (Ctx.next_inv hc) (Ctx.next_inv (State.countAll_inv hc))

theorem Ctx.runUniform_inv {c : Ctx} {o : Ops} {pl : Plan} (hc : Inv c.s) : Inv (c.runUniform o pl) := by
  unfold Ctx.runUniform
  exact Ctx.writeUniform_inv hc

theorem Ctx.alu_inv {c : Ctx} {o : Ops} {pl : Plan} (hc : Inv c.s) : Inv (c.alu o pl) := by
  unfold Ctx.alu
  exact Inv.ite (Ctx.vector_inv hc (fun _ => Ctx.runVector_inv hc)) (Ctx.uniform_inv hc (Ctx.runUniform_inv hc))

end Sys2Proof.Machine
end


section
/-!
Obligation O57, the canonical form of memory: integer, floating-point and cross-lane instructions.
-/
namespace Sys2Proof.Machine

/-! ### Integer instructions -/

theorem execIadd_inv {o : Ops} {ty : Ty} {sat : Bool} {s : State} (hs : Inv s) : Goes (execIadd o ty sat s) := by
  unfold execIadd
  exact withCtx_inv hs fun _ h => Ctx.alu_inv h

theorem execIsub_inv {o : Ops} {ty : Ty} {sat : Bool} {s : State} (hs : Inv s) : Goes (execIsub o ty sat s) := by
  unfold execIsub
  exact withCtx_inv hs fun _ h => Ctx.alu_inv h

theorem execIneg_inv {o : Ops} {ty : Ty} {sat : Bool} {s : State} (hs : Inv s) : Goes (execIneg o ty sat s) := by
  unfold execIneg
  exact withCtx_inv hs fun _ h => Ctx.alu_inv h

theorem execIabs_inv {o : Ops} {ty : Ty} {sat : Bool} {s : State} (hs : Inv s) : Goes (execIabs o ty sat s) := by
  unfold execIabs
  exact withCtx_inv hs fun _ h => Ctx.alu_inv h

theorem execIaddc_inv {o : Ops} {ty : Ty} {ci : Bool} {pc : BitVec 3} {sub : Bool} {s : State} (hs : Inv s) : Goes (execIaddc o ty ci pc sub s) := by
  unfold execIaddc
  exact withCtx_inv hs fun _ h => Ctx.alu_inv h

theorem execImul_inv {o : Ops} {ty : Ty} {sat : Bool} {s : State} (hs : Inv s) : Goes (execImul o ty sat s) := by
  unfold execImul
  exact withCtx_inv hs fun _ h => Ctx.alu_inv h

theorem execImulh_inv {o : Ops} {ty : Ty} {s : State} (hs : Inv s) : Goes (execImulh o ty s) := by
  unfold execImulh
  exact withCtx_inv hs fun _ h => Ctx.alu_inv h

theorem execImulw_inv {o : Ops} {ty : Ty} {s : State} (hs : Inv s) : Goes (execImulw o ty s) := by
  unfold execImulw
  exact withCtx_inv hs fun _ h => Ctx.alu_inv h

theorem execImad_inv {o : Ops} {ty : Ty} {sat : Bool} {s : State} (hs : Inv s) : Goes (execImad o ty sat s) := by
  unfold execImad
  exact withCtx_inv hs fun _ h => Ctx.alu_inv h

theorem execImin_inv {o : Ops} {ty : Ty} {s : State} (hs : Inv s) : Goes (execImin o ty s) := by
  unfold execImin
  exact withCtx_inv hs fun _ h => Ctx.alu_inv h

theorem execImax_inv {o : Ops} {ty : Ty} {s : State} (hs : Inv s) : Goes (execImax o ty s) := by
  unfold execImax
  exact withCtx_inv hs fun _ h => Ctx.alu_inv h

theorem execIaddmin_inv {o : Ops} {ty : Ty} {sat : Bool} {s : State} (hs : Inv s) : Goes (execIaddmin o ty sat s) := by
  unfold execIaddmin
  exact withCtx_inv hs fun _ h => Ctx.alu_inv h

theorem execIaddmax_inv {o : Ops} {ty : Ty} {sat : Bool} {s : State} (hs : Inv s) : Goes (execIaddmax o ty sat s) := by
  unfold execIaddmax
  exact withCtx_inv hs fun _ h => Ctx.alu_inv h

theorem execIcmp_inv {o : Ops} {ty : Ty} {cond : ICond} {s : State} (hs : Inv s) : Goes (execIcmp o ty cond s) := by
  unfold execIcmp
  exact withCtx_inv hs fun _ h => Ctx.alu_inv h

theorem Ctx.predOp_inv {c : Ctx} {o : Ops} {f : Mask → Mask → Mask} (hc : Inv c.s) : Inv (c.predOp o f) := by
  unfold Ctx.predOp
  exact Ctx.uniform_inv hc (Ctx.done_inv hc)

theorem Ctx.logic_inv {c : Ctx} {o : Ops} {ty : Ty} {f : Nat → Nat → Nat} {g : Mask → Mask → Mask} (hc : Inv c.s) : Inv (c.logic o ty f g) := by
  unfold Ctx.logic
  exact Inv.ite (Ctx.predOp_inv hc) (Ctx.alu_inv hc)

theorem execAnd_inv {o : Ops} {ty : Ty} {s : State} (hs : Inv s) : Goes (execAnd o ty s) := by
  unfold execAnd
  exact withCtx_inv hs fun c h => Ctx.logic_inv h

theorem execOr_inv {o : Ops} {ty : Ty} {s : State} (hs : Inv s) : Goes (execOr o ty s) := by
  unfold execOr
  exact withCtx_inv hs fun c h => Ctx.logic_inv h

theorem execXor_inv {o : Ops} {ty : Ty} {s : State} (hs : Inv s) : Goes (execXor o ty s) := by
  unfold execXor
  exact withCtx_inv hs fun c h => Ctx.logic_inv h

theorem execAndn_inv {o : Ops} {ty : Ty} {s : State} (hs : Inv s) : Goes (execAndn o ty s) := by
  unfold execAndn
  exact withCtx_inv hs fun c h => Ctx.logic_inv h

theorem execNot_inv {o : Ops} {ty : Ty} {s : State} (hs : Inv s) : Goes (execNot o ty s) := by
  unfold execNot
  exact withCtx_inv hs fun c h => Ctx.logic_inv h

theorem Ctx.shift_inv {c : Ctx} {o : Ops} {ty : Ty} {f : Nat → Nat → Nat} (hc : Inv c.s) : Inv (c.shift o ty f) := by
  unfold Ctx.shift
  exact Ctx.alu_inv hc

theorem execShl_inv {o : Ops} {ty : Ty} {s : State} (hs : Inv s) : Goes (execShl o ty s) := by
  unfold execShl
  exact withCtx_inv hs fun _ h => Ctx.shift_inv h

theorem execShr_inv {o : Ops} {ty : Ty} {s : State} (hs : Inv s) : Goes (execShr o ty s) := by
  unfold execShr
  exact withCtx_inv hs fun _ h => Ctx.shift_inv h

theorem execSar_inv {o : Ops} {ty : Ty} {s : State} (hs : Inv s) : Goes (execSar o ty s) := by
  unfold execSar
  exact withCtx_inv hs fun _ h => Ctx.shift_inv h

theorem execRot_inv {o : Ops} {ty : Ty} {s : State} (hs : Inv s) : Goes (execRot o ty s) := by
  unfold execRot
  exact withCtx_inv hs fun _ h => Ctx.shift_inv h

theorem execFshl_inv {o : Ops} {s : State} (hs : Inv s) : Goes (execFshl o s) := by
  unfold execFshl
  exact withCtx_inv hs fun _ h => Ctx.alu_inv h

theorem execFshr_inv {o : Ops} {s : State} (hs : Inv s) : Goes (execFshr o s) := by
  unfold execFshr
  exact withCtx_inv hs fun _ h => Ctx.alu_inv h

theorem execBfx_inv {o : Ops} {ty : Ty} {s : State} (hs : Inv s) : Goes (execBfx o ty s) := by
  unfold execBfx
  exact withCtx_inv hs fun _ h => Ctx.alu_inv h

theorem execBfi_inv {o : Ops} {s : State} (hs : Inv s) : Goes (execBfi o s) := by
  unfold execBfi
  exact withCtx_inv hs fun _ h => Ctx.alu_inv h

theorem execPopc_inv {o : Ops} {ty : Ty} {s : State} (hs : Inv s) : Goes (execPopc o ty s) := by
  unfold execPopc
  exact withCtx_inv hs fun _ h => Ctx.alu_inv h

theorem execClz_inv {o : Ops} {ty : Ty} {s : State} (hs : Inv s) : Goes (execClz o ty s) := by
  unfold execClz
  exact withCtx_inv hs fun _ h => Ctx.alu_inv h

theorem execCtz_inv {o : Ops} {ty : Ty} {s : State} (hs : Inv s) : Goes (execCtz o ty s) := by
  unfold execCtz
  exact withCtx_inv hs fun _ h => Ctx.alu_inv h

theorem execBrev_inv {o : Ops} {ty : Ty} {s : State} (hs : Inv s) : Goes (execBrev o ty s) := by
  unfold execBrev
  exact withCtx_inv hs fun _ h => Ctx.alu_inv h

theorem execBperm_inv {o : Ops} {s : State} (hs : Inv s) : Goes (execBperm o s) := by
  unfold execBperm
  exact withCtx_inv hs fun _ h => Ctx.alu_inv h

theorem execSel_inv {o : Ops} {ty : Ty} {ps : BitVec 3} {neg : Bool} {s : State} (hs : Inv s) : Goes (execSel o ty ps neg s) := by
  unfold execSel
  exact withCtx_inv hs fun _ h => Ctx.alu_inv h

theorem Ctx.movExec_inv {c : Ctx} {o : Ops} (hc : Inv c.s) : Inv (c.movExec o) := by
  unfold Ctx.movExec
  exact Ctx.uniformOn_inv hc (Ctx.done_inv hc)

theorem Ctx.movFromExec_inv {c : Ctx} {o : Ops} (hc : Inv c.s) : Inv (c.movFromExec o) := by
  unfold Ctx.movFromExec
  exact Ctx.uniform_inv hc (Ctx.done_inv hc)

theorem execMov_inv {o : Ops} {ty : Ty} {s : State} (hs : Inv s) : Goes (execMov o ty s) := by
  unfold execMov
  refine withCtx_inv hs ?_
  intro c h
  dsimp only
  split
  · exact Ctx.movExec_inv h
  · exact Ctx.movFromExec_inv h
  · exact Ctx.alu_inv h
  · exact Ctx.predOp_inv h
  · exact Ctx.alu_inv h
  · exact Ctx.alu_inv h

theorem execMovi_inv {o : Ops} {ty : Ty} {s : State} (hs : Inv s) : Goes (execMovi o ty s) := by
  unfold execMovi
  exact withCtx_inv hs fun _ h => Ctx.alu_inv h

theorem execMovh_inv {o : Ops} {ty : Ty} {part : HPart} {s : State} (hs : Inv s) : Goes (execMovh o ty part s) := by
  unfold execMovh
  exact withCtx_inv hs fun _ h => Ctx.alu_inv h

theorem execLea_inv {o : Ops} {ty : Ty} {scale : BitVec 3} {s : State} (hs : Inv s) : Goes (execLea o ty scale s) := by
  unfold execLea
  exact withCtx_inv hs fun _ h => Ctx.alu_inv h

theorem execIadd64_inv {o : Ops} {sub : Bool} {s : State} (hs : Inv s) : Goes (execIadd64 o sub s) := by
  unfold execIadd64
  exact withCtx_inv hs fun _ h => Ctx.alu_inv h

theorem execIdp4_inv {o : Ops} {ty : Ty} {sat mix : Bool} {s : State} (hs : Inv s) : Goes (execIdp4 o ty sat mix s) := by
  unfold execIdp4
  exact withCtx_inv hs fun _ h => Ctx.alu_inv h

theorem execIdp2_inv {o : Ops} {ty : Ty} {sat mix : Bool} {s : State} (hs : Inv s) : Goes (execIdp2 o ty sat mix s) := by
  unfold execIdp2
  exact withCtx_inv hs fun _ h => Ctx.alu_inv h

/-! ### Floating-point instructions -/

theorem execFadd_inv {o : Ops} {ty : Ty} {rnd : Rnd} {s : State} (hs : Inv s) : Goes (execFadd o ty rnd s) := by
  unfold execFadd
  exact withCtx_inv hs fun _ h => Ctx.alu_inv h

theorem execFsub_inv {o : Ops} {ty : Ty} {rnd : Rnd} {s : State} (hs : Inv s) : Goes (execFsub o ty rnd s) := by
  unfold execFsub
  exact withCtx_inv hs fun _ h => Ctx.alu_inv h

theorem execFmul_inv {o : Ops} {ty : Ty} {rnd : Rnd} {s : State} (hs : Inv s) : Goes (execFmul o ty rnd s) := by
  unfold execFmul
  exact withCtx_inv hs fun _ h => Ctx.alu_inv h

theorem execFfma_inv {o : Ops} {ty : Ty} {rnd : Rnd} {s : State} (hs : Inv s) : Goes (execFfma o ty rnd s) := by
  unfold execFfma
  exact withCtx_inv hs fun _ h => Ctx.alu_inv h

theorem execFmin_inv {o : Ops} {ty : Ty} {s : State} (hs : Inv s) : Goes (execFmin o ty s) := by
  unfold execFmin
  exact withCtx_inv hs fun _ h => Ctx.alu_inv h

theorem execFmax_inv {o : Ops} {ty : Ty} {s : State} (hs : Inv s) : Goes (execFmax o ty s) := by
  unfold execFmax
  exact withCtx_inv hs fun _ h => Ctx.alu_inv h

theorem execFcmp_inv {o : Ops} {ty : Ty} {cond : FCond} {hi : Bool} {s : State} (hs : Inv s) : Goes (execFcmp o ty cond hi s) := by
  unfold execFcmp
  exact withCtx_inv hs fun _ h => Ctx.alu_inv h

theorem execFclass_inv {o : Ops} {ty : Ty} {hi : Bool} {s : State} (hs : Inv s) : Goes (execFclass o ty hi s) := by
  unfold execFclass
  exact withCtx_inv hs fun _ h => Ctx.alu_inv h

theorem execFrcp_inv {o : Ops} {rnd : Rnd} {s : State} (hs : Inv s) : Goes (execFrcp o rnd s) := by
  unfold execFrcp
  exact withCtx_inv hs fun _ h => Ctx.alu_inv h

theorem execFsqrt_inv {o : Ops} {rnd : Rnd} {s : State} (hs : Inv s) : Goes (execFsqrt o rnd s) := by
  unfold execFsqrt
  exact withCtx_inv hs fun _ h => Ctx.alu_inv h

theorem execFrsq_inv {o : Ops} {s : State} (hs : Inv s) : Goes (execFrsq o s) := by
  unfold execFrsq
  exact withCtx_inv hs fun _ h => Ctx.alu_inv h

theorem execFexp2_inv {o : Ops} {s : State} (hs : Inv s) : Goes (execFexp2 o s) := by
  unfold execFexp2
  exact withCtx_inv hs fun _ h => Ctx.alu_inv h

theorem execFlog2_inv {o : Ops} {s : State} (hs : Inv s) : Goes (execFlog2 o s) := by
  unfold execFlog2
  exact withCtx_inv hs fun _ h => Ctx.alu_inv h

theorem execFsinpi_inv {o : Ops} {s : State} (hs : Inv s) : Goes (execFsinpi o s) := by
  unfold execFsinpi
  exact withCtx_inv hs fun _ h => Ctx.alu_inv h

theorem execFcospi_inv {o : Ops} {s : State} (hs : Inv s) : Goes (execFcospi o s) := by
  unfold execFcospi
  exact withCtx_inv hs fun _ h => Ctx.alu_inv h

theorem execFtanh_inv {o : Ops} {s : State} (hs : Inv s) : Goes (execFtanh o s) := by
  unfold execFtanh
  exact withCtx_inv hs fun _ h => Ctx.alu_inv h

theorem execFrnd_inv {o : Ops} {ty : Ty} {rnd : Rnd} {s : State} (hs : Inv s) : Goes (execFrnd o ty rnd s) := by
  unfold execFrnd
  exact withCtx_inv hs fun _ h => Ctx.alu_inv h

theorem execFscaleb_inv {o : Ops} {ty : Ty} {rnd : Rnd} {s : State} (hs : Inv s) : Goes (execFscaleb o ty rnd s) := by
  unfold execFscaleb
  exact withCtx_inv hs fun _ h => Ctx.alu_inv h

theorem execFexpt_inv {o : Ops} {s : State} (hs : Inv s) : Goes (execFexpt o s) := by
  unfold execFexpt
  exact withCtx_inv hs fun _ h => Ctx.alu_inv h

theorem execFcvt_inv {o : Ops} {ty : Ty} {rnd : Rnd} {hi : Bool} {sat : Bool} {sty : Ty} {s : State} (hs : Inv s) :
    Goes (execFcvt o ty rnd hi sat sty s) := by
  unfold execFcvt
  exact withCtx_inv hs fun _ h => Ctx.alu_inv h

theorem execFcvti_inv {o : Ops} {ty : Ty} {rnd : Rnd} {hi : Bool} {sty : Ty} {s : State} (hs : Inv s) : Goes (execFcvti o ty rnd hi sty s) := by
  unfold execFcvti
  exact withCtx_inv hs fun _ h => Ctx.alu_inv h

theorem execIcvtf_inv {o : Ops} {ty : Ty} {rnd : Rnd} {sat : Bool} {sty : Ty} {s : State} (hs : Inv s) : Goes (execIcvtf o ty rnd sat sty s) := by
  unfold execIcvtf
  exact withCtx_inv hs fun _ h => Ctx.alu_inv h

theorem execFdot2_inv {o : Ops} {ty : Ty} {rnd : Rnd} {s : State} (hs : Inv s) : Goes (execFdot2 o ty rnd s) := by
  unfold execFdot2
  exact withCtx_inv hs fun _ h => Ctx.alu_inv h

/-! ### Cross-lane instructions -/

theorem Ctx.cross_inv {c : Ctx} {dst : Opnd} {act : Mask} {out64 : Bool} {tagOut : Nat → BitVec 5} {f : Nat → CrossOut} (hc : Inv c.s) :
    Inv (c.cross dst act out64 tagOut f) := by
  unfold Ctx.cross
  exact Ctx.commit_inv hc

theorem execShfl_inv {o : Ops} {ty : Ty} {fill : Bool} {s : State} (hs : Inv s) : Goes (execShfl o ty fill s) := by
  unfold execShfl
  exact withCtx_inv hs fun c h => Ctx.vector_inv h fun _ => Ctx.cross_inv h

theorem execShfli_inv {o : Ops} {ty : Ty} {mode : ShflMode} {wrel : Bool} {fill : Bool} {s : State} (hs : Inv s) :
    Goes (execShfli o ty mode wrel fill s) := by
  unfold execShfli
  exact withCtx_inv hs fun c h => Ctx.vector_inv h fun _ => Ctx.cross_inv h

theorem execLsh_inv {o : Ops} {ty : Ty} {s : State} (hs : Inv s) : Goes (execLsh o ty s) := by
  unfold execLsh
  exact withCtx_inv hs fun c h => Ctx.vector_inv h fun _ => Ctx.cross_inv h

theorem execBcast_inv {o : Ops} {ty : Ty} {s : State} (hs : Inv s) : Goes (execBcast o ty s) := by
  unfold execBcast
  exact withCtx_inv hs fun c h => Ctx.vector_inv h fun _ => Ctx.commit_inv h

theorem execRedstep_inv {o : Ops} {ty : Ty} {op : ROp} {j : BitVec 3} {s : State} (hs : Inv s) : Goes (execRedstep o ty op j s) := by
  unfold execRedstep
  exact withCtx_inv hs fun c h => Ctx.vector_inv h fun _ => Ctx.cross_inv h

theorem execReduce_inv {o : Ops} {ty : Ty} {op : ROp} {s : State} (hs : Inv s) : Goes (execReduce o ty op s) := by
  unfold execReduce
  exact withCtx_inv hs fun c h => Ctx.vector_inv h fun _ => Ctx.commit_inv h

theorem execScan_inv {o : Ops} {ty : Ty} {op : ROp} {excl : Bool} {s : State} (hs : Inv s) : Goes (execScan o ty op excl s) := by
  unfold execScan
  exact withCtx_inv hs fun c h => Ctx.vector_inv h fun _ => Ctx.cross_inv h

theorem execBallot_inv {o : Ops} {hi : Bool} {s : State} (hs : Inv s) : Goes (execBallot o hi s) := by
  unfold execBallot
  exact withCtx_inv hs fun _ h => Ctx.uniform_inv h (Ctx.done_inv h)

theorem execVote_inv {o : Ops} {kind : VKind} {s : State} (hs : Inv s) : Goes (execVote o kind s) := by
  unfold execVote
  exact withCtx_inv hs fun _ h => Ctx.uniform_inv h (Ctx.done_inv h)

theorem execElect_inv {o : Ops} {s : State} (hs : Inv s) : Goes (execElect o s) := by
  unfold execElect
  exact withCtx_inv hs fun _ h => Ctx.uniform_inv h (Ctx.done_inv h)

theorem execMatchLanes_inv {o : Ops} {ty : Ty} {cnt : Bool} {s : State} (hs : Inv s) : Goes (execMatchLanes o ty cnt s) := by
  unfold execMatchLanes
  exact withCtx_inv hs fun c h => Ctx.vector_inv h fun _ => Ctx.commit_inv h

end Sys2Proof.Machine
end


section
/-!
Obligation O57, the canonical form of memory: the fetch, control instructions and accesses.
-/
namespace Sys2Proof.Machine

/-! ### The fetch and what stands before an instruction -/

theorem Ctx.touchWords_inv {c : Ctx} {pcs : List DWord} (hc : Inv c.s) : Inv (c.touchWords pcs) := by
  unfold Ctx.touchWords
  exact Inv.foldl hc fun t a h => State.touchLine_inv h

theorem Ctx.issueWord_inv {c : Ctx} {ibuf : List (DWord × BitVec 96)} {w : BitVec 96} (hc : Inv c.s) : (c.issueWord ibuf w).Keeps := by
  unfold Ctx.issueWord
  dsimp only
  split
  · exact Ctx.put_inv hc
  next he => exact Ctx.trap_inv (State.ctx?_inv (Ctx.put_inv hc) he)
  · exact Ctx.put_inv hc

theorem Ctx.prepare_inv {c : Ctx} (hc : Inv c.s) : c.prepare.Keeps := by
  unfold Ctx.prepare
  dsimp only
  split
  · exact Ctx.enter_inv hc
  · exact Ctx.trapAt_inv hc
  · split
    · exact Ctx.trap_inv hc
    · split
      · exact Ctx.issueWord_inv hc
      · split
        · exact Ctx.awaitFetch_inv hc
        · exact Ctx.awaitLine_inv hc
        · exact Ctx.trap_inv hc
        · exact State.killWave_inv hc
        · exact Ctx.issueWord_inv (Ctx.touchWords_inv hc)

theorem State.prepare_inv {s : State} (hs : Inv s) : s.prepare.Keeps := by
  unfold State.prepare
  split
  · exact hs
  · split
    · exact hs
    next w _ =>
      split
      · exact hs
      · extract_lets s0
        have h0 : Inv s0 := Inv.ite (State.endTurn_inv hs) hs
        split
        · exact h0
        · split
          · exact h0
          · split
            next he => exact Ctx.prepare_inv (State.ctx?_inv (Inv.ite h0 (State.setWave_inv h0)) he)
            · exact h0

theorem State.finish_inv {s : State} (hs : Inv s) : Inv s.finish := by
  unfold State.finish
  split
  · exact hs
  · split
    · exact hs
    · exact Inv.ite (State.endTurn_inv hs) hs

theorem State.nextWave_inv {s : State} (hs : Inv s) : InvSome s.nextWave := by
  unfold State.nextWave
  dsimp only
  split
  · exact trivial
  · exact InvSome.mapAny fun _ => hs

/-! ### Control instructions -/

theorem Ctx.goTo_inv {c : Ctx} {w : Wave} {pc : DWord} (hc : Inv c.s) : Inv (c.goTo w pc) := by
  unfold Ctx.goTo
  exact State.settle_inv hc

theorem Ctx.split_inv {c : Ctx} {taken : Mask} {target : DWord} (hc : Inv c.s) : Inv (c.split taken target) := by
  unfold Ctx.split
  exact State.settle_inv (State.abortOps_inv hc)

theorem execBra_inv {o : Ops} {s : State} (hs : Inv s) : Goes (execBra o s) := by
  unfold execBra
  refine withCtx_inv hs ?_
  intro c h
  split
  · exact Ctx.next_inv h
  · dsimp only
    split
    · exact Ctx.stop_inv h
    · exact Inv.ite (Ctx.next_inv h) (Inv.ite (Ctx.goTo_inv h) (Ctx.split_inv h))

theorem Ctx.retire_inv {c : Ctx} (hc : Inv c.s) : Inv c.retire := by
  unfold Ctx.retire
  exact State.settle_inv hc

theorem execExit_inv {o : Ops} {s : State} (hs : Inv s) : Goes (execExit o s) := by
  unfold execExit
  refine withCtx_inv hs ?_
  intro c h
  split
  · exact Ctx.next_inv h
  · split
    · exact Ctx.retire_inv h
    · dsimp only
      split
      · exact Ctx.stop_inv h
      · exact Inv.ite (Ctx.retire_inv h) (Ctx.done_inv h)

theorem execBru_inv {o : Ops} {cond : UCond} {s : State} (hs : Inv s) : Goes (execBru o cond s) := by
  unfold execBru
  exact withCtx_inv hs fun _ h => Ctx.uniform_inv h (Inv.ite (Ctx.goTo_inv h) (Ctx.next_inv h))

theorem execBrx_inv {o : Ops} {s : State} (hs : Inv s) : Goes (execBrx o s) := by
  unfold execBrx
  exact withCtx_inv hs fun _ h => Ctx.uniform_inv h (Ctx.goTo_inv h)

theorem execCall_inv {o : Ops} {ind : Bool} {s : State} (hs : Inv s) : Goes (execCall o ind s) := by
  unfold execCall
  exact withCtx_inv hs fun _ h => Ctx.uniform_inv h (Ctx.goTo_inv h)

theorem Ctx.leaveNest_inv {c : Ctx} {held : Option Rep × Level} {pc : DWord} (hc : Inv c.s) : Inv (c.leaveNest held pc) := by
  unfold Ctx.leaveNest
  dsimp only
  split
  · exact Inv.ite hc (Ctx.goTo_inv hc)
  · exact Ctx.goTo_inv hc

theorem execRet_inv {o : Ops} {s : State} (hs : Inv s) : Goes (execRet o s) := by
  unfold execRet
  refine withCtx_inv hs ?_
  intro c h
  refine Ctx.uniform_inv h ?_
  split
  · exact Ctx.leaveNest_inv h
  · exact Ctx.goTo_inv h

theorem execJoinp_inv {o : Ops} {s : State} (hs : Inv s) : Goes (execJoinp o s) := by
  unfold execJoinp
  exact withCtx_inv hs fun _ h => Ctx.uniform_inv h (Inv.ite (Ctx.trap_inv h) (Ctx.done_inv h))

theorem execRep_inv {o : Ops} {dStep aStep bStep : BitVec 3} {count : BitVec 6} {s : State} (hs : Inv s) :
    Goes (execRep o dStep aStep bStep count s) := by
  unfold execRep
  refine withCtx_inv hs ?_
  intro c h
  dsimp only
  split
  · exact Inv.ite h (Ctx.trap_inv h)
  · exact Ctx.awaitFetch_inv h
  · exact h

theorem execYield_inv {o : Ops} {s : State} (hs : Inv s) : Goes (execYield o s) := by
  unfold execYield
  exact withCtx_inv hs fun _ h => Ctx.uniform_inv h (State.endTurn_inv (Ctx.next_inv h))

theorem execNop_inv {o : Ops} {s : State} (hs : Inv s) : Goes (execNop o s) := by
  unfold execNop
  exact withCtx_inv hs fun _ h => Ctx.uniform_inv h (Ctx.next_inv h)

theorem execWaitr_inv {o : Ops} {count : BitVec 4} {s : State} (hs : Inv s) : Goes (execWaitr o count s) := by
  unfold execWaitr
  refine withCtx_inv hs ?_
  intro c h
  split
  · exact Ctx.next_inv h
  · split
    · exact Inv.ite (Ctx.stop_inv h) (Ctx.next_inv h)
    · exact Ctx.next_inv h

theorem execExecs_inv {o : Ops} {s : State} (hs : Inv s) : Goes (execExecs o s) := by
  unfold execExecs
  exact withCtx_inv hs fun _ h => Ctx.uniformOn_inv h (Ctx.done_inv h)

theorem execExecr_inv {o : Ops} {s : State} (hs : Inv s) : Goes (execExecr o s) := by
  unfold execExecr
  exact withCtx_inv hs fun _ h => Ctx.uniformOn_inv h (Ctx.done_inv h)

theorem State.takeBlocks_inv {s : State} {core slot n : Nat} (hs : Inv s) : Inv (s.takeBlocks core slot n) := by
  unfold State.takeBlocks
  dsimp only
  split
  · exact hs
  · exact hs

theorem execRacq_inv {o : Ops} {n : BitVec 5} {s : State} (hs : Inv s) : Goes (execRacq o n s) := by
  unfold execRacq
  refine withCtx_inv hs ?_
  intro c h
  refine Ctx.uniform_inv h ?_
  dsimp only
  split
  · exact Ctx.trap_inv h
  · split
    · exact Ctx.next_inv (State.modWave_inv (Inv.ite (State.takeBlocks_inv h) h))
    · exact Inv.ite (Ctx.next_inv (State.takeBlocks_inv h)) h

theorem execRrel_inv {o : Ops} {n : BitVec 5} {s : State} (hs : Inv s) : Goes (execRrel o n s) := by
  unfold execRrel
  exact withCtx_inv hs fun _ h => Ctx.uniform_inv h (Inv.ite (Ctx.trap_inv h) (Inv.ite h (Ctx.next_inv h)))

theorem execRqry_inv {o : Ops} {s : State} (hs : Inv s) : Goes (execRqry o s) := by
  unfold execRqry
  exact withCtx_inv hs fun _ h => Ctx.uniform_inv h (Ctx.done_inv h)

theorem execRdsr_inv {o : Ops} {num : BitVec 8} {s : State} (hs : Inv s) : Goes (execRdsr o num s) := by
  unfold execRdsr
  refine withCtx_inv hs ?_
  intro c h
  split
  · exact Ctx.vector_inv h fun _ => Ctx.done_inv h
  · exact Ctx.uniform_inv h (Ctx.done_inv h)

theorem Ctx.writeSr_inv {c : Ctx} {n : Nat} {x : DWord} (hc : Inv c.s) : Inv (c.writeSr n x) := by
  unfold Ctx.writeSr
  exact Inv.ite hc (Inv.ite hc hc)

theorem execWrsr_inv {o : Ops} {num : BitVec 8} {s : State} (hs : Inv s) : Goes (execWrsr o num s) := by
  unfold execWrsr
  exact withCtx_inv hs fun _ h => Ctx.uniform_inv h (Ctx.next_inv (Ctx.writeSr_inv h))

theorem execXcnt_inv {o : Ops} {cls : XClass} {s : State} (hs : Inv s) : Goes (execXcnt o cls s) := by
  unfold execXcnt
  exact withCtx_inv hs fun _ h => Ctx.uniform_inv h (Ctx.next_inv (State.modWave_inv h))

theorem execTrap_inv {o : Ops} {code : BitVec 16} {s : State} (hs : Inv s) : Goes (execTrap o code s) := by
  unfold execTrap
  exact withCtx_inv hs fun _ h => Ctx.uniform_inv h (Ctx.trap_inv h)

theorem execBkpt_inv {o : Ops} {code : BitVec 16} {s : State} (hs : Inv s) : Goes (execBkpt o code s) := by
  unfold execBkpt
  exact withCtx_inv hs fun _ h => Ctx.uniform_inv h (Ctx.trap_inv h)

theorem execCycle_inv {o : Ops} {s : State} (hs : Inv s) : Goes (execCycle o s) := by
  unfold execCycle
  exact withCtx_inv hs fun _ h => Ctx.uniform_inv h (Ctx.next_inv (State.modWave_inv h))

/-! ### Accesses under way -/

theorem Ctx.either_inv {c : Ctx} {o : Ops} {us : List Use} {k : Mask → State} (hc : Inv c.s) (hk : ∀ a0, Inv (k a0)) : Inv (c.either o us k) := by
  unfold Ctx.either
  exact Inv.ite (Ctx.vector_inv hc (fun _ => hk _)) (Ctx.uniform_inv hc (hk _))

theorem Ctx.memory_inv {c : Ctx} {k : State} (hc : Inv c.s) (hk : Inv k) : Inv (c.memory k) := by
  unfold Ctx.memory
  split
  · exact hc
  · exact hk

theorem Ctx.withWave_inv {c : Ctx} {w : Wave} (hc : Inv c.s) : Inv (c.withWave w).s := hc

theorem Ctx.spoil_inv {c : Ctx} (hc : Inv c.s) : Inv c.spoil.s := by
  unfold Ctx.spoil
  split
  · exact hc
  · exact Ctx.withWave_inv hc

theorem Ctx.reachAll_inv {c : Ctx} {o : Ops} {write : Bool} {accs : List (Nat × DWord × List Nat)} {bad : DWord → Bool}
    {k : Ctx → List (Nat × List Nat) → State} (hc : Inv c.s) (hk : ∀ a0 a1, Inv a0.s → Inv (k a0 a1)) : Inv (c.reachAll o write accs bad k) := by
  unfold Ctx.reachAll
  dsimp only
  split
  · exact Inv.foldl hc fun t a h => State.requestWalk_inv h
  · split
    · exact Ctx.trap_inv hc
    · exact Ctx.trap_inv hc
    · exact hk _ _ (State.dropWalks_inv hc)

theorem State.acquire_inv {s : State} {core : Nat} {w : Wave} {bar : Bool} {obj : DWord} (hs : Inv s) : Inv (s.acquire core w bar obj) := by
  unfold State.acquire
  dsimp only
  split
  · exact hs
  · exact Inv.ite hs hs

theorem State.addOps_inv {s : State} {core : Nat} {ops : List MemOp} (hs : Inv s) : Inv (s.addOps core ops) := hs

theorem Ctx.enqueue_inv {c : Ctx} {q : Queue} {add : Core → Core} {after : State → State} (hc : Inv c.s) (hafter : ∀ a0, Inv a0 → Inv (after a0)) :
    Inv (c.enqueue q add after) := by
  unfold Ctx.enqueue
  exact Inv.ite hc (Ctx.next_inv (hafter _ (State.modWave_inv hc)))

theorem State.opDone_inv {s : State} {uid launch q status cls row : Nat} {epi : Bool} (hs : Inv s) :
    Inv (s.opDone uid launch q status cls row epi) := by
  unfold State.opDone
  dsimp only
  split
  · exact Inv.ite hs hs
  · exact State.modWave_inv (Inv.ite hs hs)

end Sys2Proof.Machine
end


section
/-!
Obligation O57, the canonical form of memory: memory instructions and barriers.
-/
namespace Sys2Proof.Machine

/-! ### Memory instructions -/

theorem State.touchAccs_inv {s : State} {core part uid depth : Nat} {hits : LineKey → Bool} {accs : List (DWord × Nat)} (hs : Inv s) :
    Inv (s.touchAccs core part uid depth hits accs) := by
  unfold State.touchAccs
  exact Inv.ite (Inv.foldl hs (fun t a h => Inv.ite (State.touchGen_inv h) h)) (Inv.foldl hs (fun t a h => Inv.ite (State.touchGen_inv h) h))

theorem Ctx.startLoad_inv {c : Ctx} {o : Ops} {ty : Ty} {one : Bool} {cnt : Cnt} {sub : Nat} {nc lr : Bool} {act : Mask} (hc : Inv c.s) :
    Inv (c.startLoad o ty one cnt sub nc lr act) := by
  unfold Ctx.startLoad
  exact Ctx.next_inv (State.touchAccs_inv (State.addOps_inv (Ctx.put_inv hc)))

theorem execLd_inv {o : Ops} {ty : Ty} {one : Bool} {cnt : Cnt} {sub : BitVec 2} {s : State} (hs : Inv s) : Goes (execLd o ty one cnt sub s) := by
  unfold execLd
  exact withCtx_inv hs fun c h => Ctx.vector_inv h fun _ => Ctx.memory_inv h (Ctx.startLoad_inv (Ctx.spoil_inv h))

theorem execLdnc_inv {o : Ops} {ty : Ty} {one : Bool} {cnt : Cnt} {sub : BitVec 2} {s : State} (hs : Inv s) : Goes (execLdnc o ty one cnt sub s) := by
  unfold execLdnc
  exact withCtx_inv hs fun c h => Ctx.vector_inv h fun _ => Ctx.memory_inv h (Ctx.startLoad_inv (Ctx.spoil_inv h))

theorem execLdu_inv {o : Ops} {ty : Ty} {cnt : Cnt} {s : State} (hs : Inv s) : Goes (execLdu o ty cnt s) := by
  unfold execLdu
  exact withCtx_inv hs fun _ h => Ctx.uniform_inv h (Ctx.memory_inv h (Ctx.startLoad_inv (Ctx.spoil_inv h)))

theorem execLr_inv {o : Ops} {ty : Ty} {s : State} (hs : Inv s) : Goes (execLr o ty s) := by
  unfold execLr
  exact withCtx_inv hs fun c h => Ctx.vector_inv h fun _ => Ctx.memory_inv h (Ctx.startLoad_inv (Ctx.spoil_inv h))

theorem Ctx.store_inv {c : Ctx} {o : Ops} {ty : Ty} {one : Bool} {cnt sub : Nat} {nt : Bool} {act : Mask} (hc : Inv c.s) :
    Inv (c.store o ty one cnt sub nt act) := by
  unfold Ctx.store
  exact Ctx.reachAll_inv hc fun _ _ h => Ctx.next_inv (State.countAll_inv h)

theorem execSt_inv {o : Ops} {ty : Ty} {one : Bool} {cnt : Cnt} {sub : BitVec 2} {s : State} (hs : Inv s) : Goes (execSt o ty one cnt sub s) := by
  unfold execSt
  exact withCtx_inv hs fun _ h => Ctx.either_inv h fun _ => Ctx.memory_inv h (Ctx.store_inv (Ctx.spoil_inv h))

theorem execStnt_inv {o : Ops} {ty : Ty} {one : Bool} {cnt : Cnt} {sub : BitVec 2} {s : State} (hs : Inv s) : Goes (execStnt o ty one cnt sub s) := by
  unfold execStnt
  exact withCtx_inv hs fun _ h => Ctx.either_inv h fun _ => Ctx.memory_inv h (Ctx.store_inv (Ctx.spoil_inv h))

theorem Ctx.storeMasked_inv {c : Ctx} {o : Ops} {quad : Bool} {act : Mask} (hc : Inv c.s) : Inv (c.storeMasked o quad act) := by
  unfold Ctx.storeMasked
  exact Ctx.reachAll_inv hc fun _ _ h => Ctx.next_inv h

theorem execStm_inv {o : Ops} {quad : Bool} {s : State} (hs : Inv s) : Goes (execStm o quad s) := by
  unfold execStm
  exact withCtx_inv hs fun c h => Ctx.vector_inv h fun _ => Ctx.memory_inv h (Ctx.storeMasked_inv (Ctx.spoil_inv h))

theorem Ctx.startAtom_inv {c : Ctx} {o : Ops} {ty : Ty} {op : Option AOp} {fop : Option FAOp} {cas : Bool} {act : Mask} (hc : Inv c.s) :
    Inv (c.startAtom o ty op fop cas act) := by
  unfold Ctx.startAtom
  exact Ctx.reachAll_inv hc fun _ _ h => Ctx.next_inv h

theorem execAtom_inv {o : Ops} {ty : Ty} {op : AOp} {s : State} (hs : Inv s) : Goes (execAtom o ty op s) := by
  unfold execAtom
  exact withCtx_inv hs fun _ h => Ctx.either_inv h fun _ => Ctx.memory_inv h (Ctx.startAtom_inv (Ctx.spoil_inv h))

theorem execAtomf_inv {o : Ops} {ty : Ty} {op : FAOp} {s : State} (hs : Inv s) : Goes (execAtomf o ty op s) := by
  unfold execAtomf
  exact withCtx_inv hs fun _ h => Ctx.either_inv h fun _ => Ctx.memory_inv h (Ctx.startAtom_inv (Ctx.spoil_inv h))

theorem execCas_inv {o : Ops} {ty : Ty} {s : State} (hs : Inv s) : Goes (execCas o ty s) := by
  unfold execCas
  exact withCtx_inv hs fun _ h => Ctx.either_inv h fun _ => Ctx.memory_inv h (Ctx.startAtom_inv (Ctx.spoil_inv h))

theorem Ctx.startSc_inv {c : Ctx} {o : Ops} {ty : Ty} {act : Mask} (hc : Inv c.s) : Inv (c.startSc o ty act) := by
  unfold Ctx.startSc
  exact Ctx.reachAll_inv hc fun _ _ h => Ctx.next_inv h

theorem execSc_inv {o : Ops} {ty : Ty} {s : State} (hs : Inv s) : Goes (execSc o ty s) := by
  unfold execSc
  exact withCtx_inv hs fun c h => Ctx.vector_inv h fun _ => Ctx.memory_inv h (Ctx.startSc_inv h)

theorem Ctx.spCheck_inv {c : Ctx} {o : Ops} {act skip : Mask} {n : Nat} {align out : Bool} {k : List SpAcc → State} (hc : Inv c.s)
    (hk : ∀ a0, Inv (k a0)) : Inv (c.spCheck o act skip n align out k) := by
  unfold Ctx.spCheck
  dsimp only
  split
  · exact Ctx.trap_inv hc
  · split
    · exact Ctx.trap_inv hc
    · split
      · exact hc
      · split
        · exact hc
        · exact hk _

theorem Ctx.loadSp_inv {c : Ctx} {o : Ops} {ty : Ty} {one : Bool} {cnt : Nat} {act : Mask} (hc : Inv c.s) : Inv (c.loadSp o ty one cnt act) := by
  unfold Ctx.loadSp
  exact Ctx.spCheck_inv hc fun _ => Ctx.next_inv hc

theorem execLds_inv {o : Ops} {ty : Ty} {one : Bool} {cnt : Cnt} {s : State} (hs : Inv s) : Goes (execLds o ty one cnt s) := by
  unfold execLds
  exact withCtx_inv hs fun _ h => Ctx.either_inv h fun _ => Ctx.memory_inv h (Ctx.loadSp_inv (Ctx.spoil_inv h))

theorem Ctx.storeSp_inv {c : Ctx} {o : Ops} {ty : Ty} {one : Bool} {cnt : Nat} {credit : Bool} {act : Mask} (hc : Inv c.s) :
    Inv (c.storeSp o ty one cnt credit act) := by
  unfold Ctx.storeSp
  exact Inv.ite (Ctx.trap_inv hc) (Ctx.spCheck_inv hc (fun _ => Inv.ite (Ctx.next_inv (State.countAll_inv (Inv.foldl hc (fun t _ h => Inv.ite
    (Inv.ite h h) h)))) (State.settle_inv (State.modWave_inv (State.countAll_inv (Inv.foldl hc (fun t _ h => Inv.ite (Inv.ite h h) h)))))))

theorem execSts_inv {o : Ops} {ty : Ty} {one : Bool} {cnt : Cnt} {credit : Bool} {s : State} (hs : Inv s) : Goes (execSts o ty one cnt credit s) := by
  unfold execSts
  exact withCtx_inv hs fun _ h => Ctx.either_inv h fun _ => Ctx.memory_inv h (Ctx.storeSp_inv (Ctx.spoil_inv h))

theorem Ctx.startAtoms_inv {c : Ctx} {o : Ops} {ty : Ty} {op : AOp} {act : Mask} (hc : Inv c.s) : Inv (c.startAtoms o ty op act) := by
  unfold Ctx.startAtoms
  exact Ctx.spCheck_inv hc fun _ => Ctx.next_inv hc

theorem execAtoms_inv {o : Ops} {ty : Ty} {op : AOp} {s : State} (hs : Inv s) : Goes (execAtoms o ty op s) := by
  unfold execAtoms
  exact withCtx_inv hs fun _ h => Ctx.either_inv h fun _ => Ctx.memory_inv h (Ctx.startAtoms_inv (Ctx.spoil_inv h))

theorem Ctx.startLdmc_inv {c : Ctx} {o : Ops} {bar : Nat} (hc : Inv c.s) : Inv (c.startLdmc o bar) := by
  unfold Ctx.startLdmc
  exact Inv.ite (Ctx.trap_inv hc) (Inv.ite (Ctx.trap_inv hc) (Inv.ite (Ctx.trap_inv hc) (Inv.ite (Ctx.trap_inv hc) (Inv.ite hc
    (Inv.ite (Ctx.next_inv hc) (Ctx.next_inv (State.touchAccs_inv hc)))))))

theorem execLdmc_inv {o : Ops} {bar : BitVec 19} {s : State} (hs : Inv s) : Goes (execLdmc o bar s) := by
  unfold execLdmc
  exact withCtx_inv hs fun c h => Ctx.vector_inv h fun _ => Ctx.memory_inv h (Ctx.startLdmc_inv (Ctx.spoil_inv h))

theorem Ctx.prefetch_inv {c : Ctx} {o : Ops} {llc : Bool} {act : Mask} (hc : Inv c.s) : Inv (c.prefetch o llc act) := by
  unfold Ctx.prefetch
  exact Inv.ite (Ctx.next_inv hc) (Ctx.next_inv (State.touchAccs_inv hc))

theorem execPref_inv {o : Ops} {llc : Bool} {s : State} (hs : Inv s) : Goes (execPref o llc s) := by
  unfold execPref
  exact withCtx_inv hs fun c h => Ctx.either_inv h fun _ => Ctx.memory_inv h (Ctx.prefetch_inv h)

theorem execThint_inv {o : Ops} {hint : Hint} {s : State} (hs : Inv s) : Goes (execThint o hint s) := by
  unfold execThint
  exact withCtx_inv hs fun _ h => Ctx.uniform_inv h (Inv.ite (Ctx.next_inv h) (Ctx.enqueue_inv h (fun _ h1 => h1)))

theorem Ctx.drained_inv {c : Ctx} {k : State} (hc : Inv c.s) (hk : Inv k) : Inv (c.drained k) := by
  unfold Ctx.drained
  exact Inv.ite hc hk

theorem execFence_inv {o : Ops} {scope : Scope} {seq : Bool} {s : State} (hs : Inv s) : Goes (execFence o scope seq s) := by
  unfold execFence
  exact withCtx_inv hs fun c h => Ctx.uniform_inv h (Ctx.drained_inv (Ctx.spoil_inv h) (Ctx.next_inv (Inv.ite (State.fenceWave_inv
    (Inv.ite (Ctx.spoil_inv h) (Ctx.spoil_inv h))) (Inv.ite (Ctx.spoil_inv h) (Ctx.spoil_inv h)))))

theorem Ctx.lockWord_inv {c : Ctx} {o : Ops} {write : Bool} {gen : State} {k : Ctx → List Nat → State} (hc : Inv c.s) (hgen : Inv gen)
    (hk : ∀ a0 a1, Inv a0.s → Inv (k a0 a1)) : Inv (c.lockWord o write gen k) := by
  unfold Ctx.lockWord
  exact Inv.ite (Ctx.trap_inv hc) (Inv.ite hgen (Ctx.reachAll_inv hc (fun _ _ h => hk _ _ h)))

theorem execAcq_inv {o : Ops} {scope : Scope} {s : State} (hs : Inv s) : Goes (execAcq o scope s) := by
  unfold execAcq
  exact withCtx_inv hs fun c h => Ctx.uniform_inv h (Ctx.memory_inv h (Ctx.lockWord_inv h (Ctx.next_inv (State.touchAccs_inv h)) (fun _ _ h1 =>
    Ctx.next_inv (State.touchAccs_inv h1))))

theorem Ctx.releases_inv {c : Ctx} {scope : Scope} {k : Ctx → State} (hc : Inv c.s) (hk : ∀ a0, Inv a0.s → Inv (k a0)) :
    Inv (c.releases scope k) := by
  unfold Ctx.releases
  exact Inv.ite (Ctx.drained_inv hc (hk _ hc)) (Inv.ite hc (hk _ hc))

theorem execRel_inv {o : Ops} {scope : Scope} {s : State} (hs : Inv s) : Goes (execRel o scope s) := by
  unfold execRel
  exact withCtx_inv hs fun c h => Ctx.uniform_inv h (Ctx.memory_inv h (Ctx.lockWord_inv h h (fun _ _ h1 => Ctx.releases_inv h1 (fun _ h2 =>
    Ctx.next_inv h2))))

theorem Ctx.putBind_inv {c : Ctx} {slot : Nat} {b : Option BindSlot} (hc : Inv c.s) : Inv (c.putBind slot b) := by
  unfold Ctx.putBind
  exact Ctx.next_inv hc

theorem execBind_inv {o : Ops} {bar : Bool} {slot : BitVec 4} {s : State} (hs : Inv s) : Goes (execBind o bar slot s) := by
  unfold execBind
  exact withCtx_inv hs fun _ h => Ctx.uniform_inv h (Inv.ite (Ctx.trap_inv h) (Inv.ite (Ctx.putBind_inv h) (Inv.ite (Ctx.trap_inv h)
    (Inv.ite (Ctx.trap_inv h) (Ctx.putBind_inv h)))))

/-! ### Barrier instructions -/

theorem Ctx.barObj_inv {c : Ctx} {o : Ops} {k : Nat → State} (hc : Inv c.s) (hk : ∀ a0, Inv (k a0)) : Inv (c.barObj o k) := by
  unfold Ctx.barObj
  exact Inv.ite (Ctx.trap_inv hc) (Inv.ite (Ctx.trap_inv hc) (hk _))

theorem Ctx.report_inv {c : Ctx} {o : Ops} {off x : Nat} (hc : Inv c.s) : Inv (c.report o off x) := by
  unfold Ctx.report
  exact Ctx.next_inv (State.modWave_inv (Inv.ite hc (State.fenceWave_inv (State.acquire_inv hc))))

theorem Ctx.reportOrPark_inv {c : Ctx} {o : Ops} {off token : Nat} (hc : Inv c.s) : Inv (c.reportOrPark o off token) := by
  unfold Ctx.reportOrPark
  dsimp only
  split
  · exact Ctx.report_inv hc
  · exact Inv.ite (Ctx.report_inv hc) hc

theorem execBarinit_inv {o : Ops} {arr : BitVec 6} {s : State} (hs : Inv s) : Goes (execBarinit o arr s) := by
  unfold execBarinit
  exact withCtx_inv hs fun _ h => Ctx.uniform_inv h (Ctx.barObj_inv h (fun _ => Inv.ite (Ctx.trap_inv h) (Ctx.next_inv h)))

theorem execBararr_inv {o : Ops} {s : State} (hs : Inv s) : Goes (execBararr o s) := by
  unfold execBararr
  exact withCtx_inv hs fun _ h => Ctx.uniform_inv h (Ctx.barObj_inv h (fun _ => Ctx.drained_inv h (Inv.ite (Ctx.trap_inv h) (Ctx.next_inv
    (State.modWave_inv (State.setBar_inv h))))))

theorem execBarexp_inv {o : Ops} {s : State} (hs : Inv s) : Goes (execBarexp o s) := by
  unfold execBarexp
  exact withCtx_inv hs fun _ h => Ctx.uniform_inv h (Ctx.barObj_inv h (fun _ => Ctx.next_inv (State.setBar_inv h)))

theorem execBarwait_inv {o : Ops} {s : State} (hs : Inv s) : Goes (execBarwait o s) := by
  unfold execBarwait
  exact withCtx_inv hs fun _ h => Ctx.uniform_inv h (Ctx.barObj_inv h (fun _ => Ctx.reportOrPark_inv h))

theorem execBarq_inv {o : Ops} {s : State} (hs : Inv s) : Goes (execBarq o s) := by
  unfold execBarq
  exact withCtx_inv hs fun _ h => Ctx.uniform_inv h (Ctx.barObj_inv h (fun _ => Ctx.report_inv h))

theorem execBarsync_inv {o : Ops} {s : State} (hs : Inv s) : Goes (execBarsync o s) := by
  unfold execBarsync
  refine withCtx_inv hs ?_
  intro c h
  refine Ctx.uniform_inv h ?_
  refine Ctx.barObj_inv h ?_
  intro a0
  dsimp only
  split
  · exact Ctx.reportOrPark_inv h
  · exact Inv.ite (Ctx.report_inv h) (Ctx.drained_inv h (Inv.ite (Ctx.trap_inv h) (Ctx.reportOrPark_inv (State.setBar_inv h))))

end Sys2Proof.Machine
end


section
/-!
Obligation O57, the canonical form of memory: engine queues, reads and copies.
-/
namespace Sys2Proof.Machine

/-! ### Engine queues -/

theorem Ctx.enqueue1_inv {c : Ctx} {kind : Q1Kind} {sides : List Side} {after : State → State} (hc : Inv c.s)
    (hafter : ∀ a0, Inv a0 → Inv (after a0)) : Inv (c.enqueue1 kind sides after) := by
  unfold Ctx.enqueue1
  exact Inv.ite hc (Ctx.enqueue_inv hc (fun _ h => hafter _ h))

theorem Ctx.startCopy_inv {c : Ctx} {field : Opnd} {w0 w1 w2 w3 : DWord} (hc : Inv c.s) : Inv (c.startCopy field w0 w1 w2 w3) := by
  unfold Ctx.startCopy
  dsimp only
  split
  · exact Ctx.trap_inv hc
  · exact Ctx.enqueue1_inv hc fun _ h => h

theorem execKick_inv {o : Ops} {s : State} (hs : Inv s) : Goes (execKick o s) := by
  unfold execKick
  refine withCtx_inv hs ?_
  intro c h
  refine Ctx.uniform_inv h ?_
  dsimp only
  split
  · exact Ctx.trap_inv h
  · exact Inv.ite (Ctx.trap_inv h) (Inv.ite (Ctx.trap_inv h) (Ctx.memory_inv h (Ctx.startCopy_inv (Ctx.spoil_inv h))))

theorem execEqst_inv {o : Ops} {q : Queue} {reg : BitVec 2} {s : State} (hs : Inv s) : Goes (execEqst o q reg s) := by
  unfold execEqst
  exact withCtx_inv hs fun _ h => Ctx.uniform_inv h (Inv.ite (Ctx.trap_inv h) (Ctx.done_inv h))

theorem Ctx.startMatrix_inv {c : Ctx} {qa qb qc qd : DWord} (hc : Inv c.s) : Inv (c.startMatrix qa qb qc qd) := by
  unfold Ctx.startMatrix
  exact Inv.ite (Ctx.trap_inv hc) (Inv.ite hc (Ctx.enqueue_inv hc (fun _ h => h)))

theorem Ctx.startHint_inv {c : Ctx} {qa qb qc qd : DWord} (hc : Inv c.s) : Inv (c.startHint qa qb qc qd) := by
  unfold Ctx.startHint
  split
  · exact Inv.ite (Ctx.trap_inv hc) (Ctx.enqueue_inv hc (fun _ h => h))
  · exact Ctx.trap_inv hc

theorem execEqgo_inv {o : Ops} {q : Queue} {s : State} (hs : Inv s) : Goes (execEqgo o q s) := by
  unfold execEqgo
  refine withCtx_inv hs ?_
  intro c h
  refine Ctx.uniform_inv h ?_
  refine Ctx.memory_inv h ?_
  dsimp only
  split
  · exact Ctx.startMatrix_inv (Ctx.spoil_inv h)
  · exact Ctx.startCopy_inv (Ctx.spoil_inv h)
  · exact Ctx.startHint_inv (Ctx.spoil_inv h)
  · exact Ctx.enqueue_inv (Ctx.spoil_inv h) fun _ h1 => h1
  · exact Ctx.enqueue_inv (Ctx.spoil_inv h) fun _ h1 => h1

theorem execEqfence_inv {o : Ops} {mask : BitVec 5} {s : State} (hs : Inv s) : Goes (execEqfence o mask s) := by
  unfold execEqfence
  exact withCtx_inv hs fun _ h => Ctx.uniform_inv h (Ctx.next_inv (Inv.foldl h (fun _ _ h1 => h1)))

theorem execEqwait_inv {o : Ops} {q : Queue} {n : BitVec 6} {s : State} (hs : Inv s) : Goes (execEqwait o q n s) := by
  unfold execEqwait
  exact withCtx_inv hs fun c h => Ctx.uniform_inv h (Inv.ite h (Ctx.next_inv (State.fenceWave_inv h)))

theorem Ctx.tileBase_inv {c : Ctx} {o : Ops} {sp inbound : Bool} {span : Nat} {k : DWord → List Side → State} (hc : Inv c.s)
    (hk : ∀ a0 a1, Inv (k a0 a1)) : Inv (c.tileBase o sp inbound span k) := by
  unfold Ctx.tileBase
  exact Inv.ite (Inv.ite (Ctx.trap_inv hc) (Inv.ite (Ctx.trap_inv hc) (hk _ _))) (Inv.ite (Ctx.trap_inv hc) (hk _ _))

theorem execTld_inv {o : Ops} {ty : Ty} {sp : Bool} {s : State} (hs : Inv s) : Goes (execTld o ty sp s) := by
  unfold execTld
  exact withCtx_inv hs fun _ h => Ctx.uniform_inv h (Ctx.memory_inv h (Inv.ite (Ctx.trap_inv h) (Ctx.tileBase_inv h (fun _ _ => Ctx.enqueue1_inv h
    (fun _ h1 => h1)))))

theorem execTst_inv {o : Ops} {sp : Bool} {s : State} (hs : Inv s) : Goes (execTst o sp s) := by
  unfold execTst
  exact withCtx_inv hs fun _ h => Ctx.uniform_inv h (Ctx.memory_inv h (Inv.ite (Ctx.trap_inv h) (Ctx.tileBase_inv h (fun _ _ => Ctx.enqueue1_inv h
    (fun _ h1 => h1)))))

theorem execTcpy_inv {o : Ops} {s : State} (hs : Inv s) : Goes (execTcpy o s) := by
  unfold execTcpy
  exact withCtx_inv hs fun _ h => Ctx.uniform_inv h (Ctx.memory_inv h (Ctx.enqueue1_inv h (fun _ h1 => h1)))

theorem execTcb_inv {o : Ops} {sp : Bool} {s : State} (hs : Inv s) : Goes (execTcb o sp s) := by
  unfold execTcb
  exact withCtx_inv hs fun _ h => Ctx.uniform_inv h (Ctx.memory_inv h (Ctx.tileBase_inv h (fun _ _ => Ctx.enqueue1_inv h (fun _ h1 => h1))))

theorem execMxprg_inv {o : Ops} {s : State} (hs : Inv s) : Goes (execMxprg o s) := by
  unfold execMxprg
  exact withCtx_inv hs fun _ h => Ctx.uniform_inv h (Ctx.done_inv h)

theorem Ctx.startVxm_inv {c : Ctx} {o : Ops} {rnd : Rnd} {act : Mask} (hc : Inv c.s) : Inv (c.startVxm o rnd act) := by
  unfold Ctx.startVxm
  exact Ctx.voted_inv hc fun _ _ h => Ctx.next_inv (State.touchAccs_inv h)

theorem execVxm_inv {o : Ops} {rnd : Rnd} {s : State} (hs : Inv s) : Goes (execVxm o rnd s) := by
  unfold execVxm
  exact withCtx_inv hs fun c h => Ctx.vector_inv h fun _ => Ctx.memory_inv h (Ctx.startVxm_inv (Ctx.spoil_inv h))

/-! ### Reads of lines -/

theorem State.failWalk_inv {s : State} {r : Reader} {k : AccessKind} {va : DWord} {cls : Nat} (hs : Inv s) : Inv (s.failWalk r k va cls) := by
  unfold State.failWalk
  dsimp only
  split
  · exact State.noteWalk_inv hs
  · exact hs

theorem State.locate_inv {s : State} {r : Reader} {write : Bool} {va : DWord} {n : Nat} (hs : Inv s) : Inv (s.locate r write va n).1 := by
  unfold State.locate
  dsimp only
  split
  · split
    · exact hs
    · split
      · exact Inv.foldl hs fun t a h => State.requestWalk_inv h
      · split
        · exact State.failWalk_inv (Inv.foldl hs (fun t a h => State.touchWalk_inv h))
        · exact Inv.foldl hs fun t a h => State.touchWalk_inv h
  · split
    · exact hs
    · split
      · exact Inv.foldl hs fun t a h => State.requestWalk_inv h
      · split
        · exact Inv.foldl hs fun t a h => State.touchWalk_inv h
        · exact Inv.foldl hs fun t a h => State.touchWalk_inv h

theorem State.wantLine_inv {s : State} {r : Reader} {line : Nat} (hs : Inv s) : Inv (s.wantLine r line) := by
  unfold State.wantLine
  exact Inv.ite hs (State.askSlot_inv hs (fun _ h => State.readSlot_inv h))

theorem State.noteLines_inv {s : State} {part : Nat} {launch : Option Nat} {ks : List LineKey} (hs : Inv s) : Inv (s.noteLines part launch ks) := by
  unfold State.noteLines
  split
  · exact hs
  · exact Inv.ite hs hs

theorem State.lineReady_inv {s0 : State} {r : Reader} {k : LineKey} (hs0 : Inv s0) : Inv (s0.lineReady r k).1 := by
  unfold State.lineReady
  dsimp only
  split
  · exact State.noteLines_inv hs0
  · split
    · exact State.noteLines_inv hs0
    · split
      · split
        next he2 => exact State.countRequest_inv (Inv.of_fst he2 (State.touchGen_inv (State.noteLines_inv hs0)))
        next he2 => exact Inv.of_fst he2 (State.touchGen_inv (State.noteLines_inv hs0))
        next he2 => exact Inv.of_fst he2 (State.touchGen_inv (State.noteLines_inv hs0))
      · split
        · exact State.noteLines_inv hs0
        · split
          · split
            next he4 => exact Inv.of_some he4 (State.touchLine?_inv (State.noteLines_inv hs0))
            · exact State.noteLines_inv hs0
          · exact State.wantLine_inv (State.noteLines_inv hs0)

theorem State.readyAll_inv {s : State} {r : Reader} {ks : List LineKey} (hs : Inv s) : Inv (s.readyAll r ks).1 := by
  unfold State.readyAll
  exact Inv.foldl_fst hs fun t a h => State.lineReady_inv h

theorem State.readGlobal_inv {s : State} {r : Reader} {va : DWord} {n : Nat} (hs : Inv s) : Inv (s.readGlobal r va n).1 := by
  unfold State.readGlobal
  dsimp only
  split
  next he => exact Inv.of_fst he (State.locate_inv hs)
  next he => exact Inv.of_fst he (State.locate_inv hs)
  next he =>
    split
    · exact State.readyAll_inv (Inv.of_fst he (State.locate_inv hs))
    · split
      · exact State.readyAll_inv (Inv.of_fst he (State.locate_inv hs))
      · exact State.readyAll_inv (Inv.of_fst he (State.locate_inv hs))

theorem State.askGuests_inv {s : State} {lines : List Nat} (hs : Inv s) : Inv (s.askGuests lines) := by
  unfold State.askGuests
  exact Inv.ite hs (Inv.foldl hs (fun t a h => State.sendInvals_inv h))

/-! ### Copies and tile operations -/

theorem State.readCell_inv {s : State} {r : Reader} {c : Cell} (hs : Inv s) : Inv (s.readCell r c).1 := by
  unfold State.readCell
  dsimp only
  split
  · exact hs
  · exact hs
  · split
    next he1 => exact Inv.of_fst he1 (State.readGlobal_inv hs)
    next he1 => exact Inv.of_fst he1 (State.readGlobal_inv hs)
    next he1 => exact Inv.of_fst he1 (State.readGlobal_inv hs)
    next he1 => exact Inv.of_fst he1 (State.readGlobal_inv hs)

theorem State.readCells_inv {s : State} {r : Reader} {cs : List Cell} (hs : Inv s) : Inv (s.readCells r cs).1 := by
  unfold State.readCells
  refine Inv.foldl_fst hs ?_
  intro t a h
  split
  next he => exact Inv.of_fst he (State.readCell_inv h)
  next he => exact Inv.of_fst he (State.readCell_inv h)

theorem State.targetOf_inv {s : State} {r : Reader} {e : End} (hs : Inv s) : Inv (s.targetOf r e).1 := by
  unfold State.targetOf
  dsimp only
  split
  · exact hs
  · exact hs
  · split
    next he => exact Inv.of_fst he (State.locate_inv hs)
    next he => exact Inv.of_fst he (State.locate_inv hs)
    next he =>
      exact Inv.ite_fst (Inv.of_fst he (State.locate_inv hs)) (Inv.ite_fst (State.noteLines_inv (Inv.of_fst he (State.locate_inv hs)))
        (State.askGuests_inv (Inv.of_fst he (State.locate_inv hs))))

theorem State.targetsOf_inv {s : State} {r : Reader} {cs : List Cell} (hs : Inv s) : Inv (s.targetsOf r cs).1 := by
  unfold State.targetsOf
  exact Inv.foldl_fst hs fun t a h => State.targetOf_inv h

theorem State.putSp_inv {s : State} {core off : Nat} {bs : List (Byte × Option Origin)} (hs : Inv s) : Inv (s.putSp core off bs) := hs

theorem State.putMem_inv {s : State} {part : Nat} {ws : List (Nat × Byte × Option Origin)} (hs : Inv s) : Inv (s.putMem part ws) := by
  unfold State.putMem
  exact Inv.ite (Inv.ite hs (State.performWrites_inv hs)) (State.performWrites_inv (Inv.ite hs (State.performWrites_inv hs)))

theorem State.move_inv {s : State} {part : Nat} {ins : List CellIn} {ts : List Target} (hs : Inv s) : Inv (s.move part ins ts).s := by
  unfold State.move
  extract_lets xs srcBad dstBad faults lineBad good same bytes outs s1 mems s2 rotten
  have h1 : Inv s1 := Inv.foldl hs fun t o ht => by
    split
    · exact State.putSp_inv ht
    · exact ht
  have h2 : Inv s2 := State.draw_inv (Inv.ite h1 (State.putMem_inv h1))
  split
  · exact h2
  · exact h2
  · exact h2

/-- Cells that have moved did so in the state that the move leaves. -/
theorem State.moveCells_some {s : State} {r : Reader} {cs : List Cell} {m : Moved} (h : (s.moveCells r cs).2 = some m) :
    m.s = (s.moveCells r cs).1 := by
  unfold State.moveCells at h ⊢
  dsimp only at h ⊢
  split
  · rw [if_pos ‹_›] at h
    cases h
    rfl
  · rw [if_neg ‹_›] at h
    split
    · rw [if_pos ‹_›] at h
      cases h
    · rw [if_neg ‹_›] at h
      split
      next he =>
        rw [he] at h
        cases h
      next he =>
        rw [he] at h
        cases h
        rfl

theorem State.moveCells_inv {s : State} {r : Reader} {cs : List Cell} (hs : Inv s) : Inv (s.moveCells r cs).1 := by
  unfold State.moveCells
  have h2 := State.readCells_inv (r := r) (cs := cs) (State.targetsOf_inv (r := r) (cs := cs) hs)
  dsimp only
  split
  · exact State.targetsOf_inv hs
  · split
    · exact h2
    · split
      · exact h2
      · exact State.move_inv h2

theorem State.enterSides_inv {s : State} {e : QEntry Q1Kind} {sides : List Side} (hs : Inv s) : Inv (s.enterSides e sides) := by
  unfold State.enterSides
  exact Inv.foldl hs fun t _ h => Inv.ite h h

theorem State.run1_inv {s : State} {core : Nat} {k : QEntry Q1Kind → State} (hs : Inv s) (hk : ∀ a0, Inv (k a0)) : Inv (s.run1 core k) := by
  unfold State.run1
  split
  · exact hs
  · split
    · exact hs
    · split
      · exact hk _
      · exact State.enterSides_inv hs

theorem State.finish1_inv {s : State} {core : Nat} {e : QEntry Q1Kind} {status cls row : Nat} (hs : Inv s) :
    Inv (s.finish1 core e status cls row) := by
  unfold State.finish1
  exact State.opDone_inv (State.dropWalks_inv hs)

theorem State.runCopy_inv {s : State} {core : Nat} {e : QEntry Q1Kind} {d : CopyDesc} (hs : Inv s) : Inv (s.runCopy core e d) := by
  have hm := State.moveCells_inv (r := e.reader core) (cs := d.cells core) hs
  unfold State.runCopy
  split
  next he => exact Inv.of_fst he hm
  next m he =>
    have h1 : Inv m.s := by
      rw [State.moveCells_some (congrArg Prod.snd he)]
      exact hm
    exact State.finish1_inv (Inv.ite (State.sendCredit_inv h1) h1)

theorem execCopyCompletion_inv {core : Nat} {s : State} (hs : Inv s) : Goes (execCopyCompletion core s) := by
  unfold execCopyCompletion
  refine Goes.next ?_
  refine State.run1_inv hs ?_
  intro a0
  split
  · exact State.runCopy_inv hs
  · exact hs

theorem State.setTile_inv {s : State} {core n : Nat} {t : Tile} (hs : Inv s) : Inv (s.setTile core n t) := hs

theorem State.runLoad_inv {s : State} {core : Nat} {e : QEntry Q1Kind} {n toff : Nat} {cs : List Cell} (hs : Inv s) :
    Inv (s.runLoad core e n toff cs) := by
  unfold State.runLoad
  dsimp only
  split
  next he => exact Inv.of_fst he (State.readCells_inv hs)
  next he => exact State.finish1_inv (State.setTile_inv (Inv.of_fst he (State.readCells_inv hs)))

theorem State.runTst_inv {s : State} {core : Nat} {e : QEntry Q1Kind} {n : Nat} {sp : Bool} {base shape : DWord} (hs : Inv s) :
    Inv (s.runTst core e n sp base shape) := by
  unfold State.runTst
  exact Inv.ite (State.finish1_inv (Inv.foldl_fst hs (fun t a h => State.targetOf_inv h))) (Inv.ite (Inv.foldl_fst hs (fun t a h =>
    State.targetOf_inv h)) (State.finish1_inv (State.move_inv (Inv.foldl_fst hs (fun t a h => State.targetOf_inv h)))))

theorem execTileOperationCompletion_inv {core : Nat} {s : State} (hs : Inv s) : Goes (execTileOperationCompletion core s) := by
  unfold execTileOperationCompletion
  refine Goes.next ?_
  refine State.run1_inv hs ?_
  intro a0
  dsimp only
  split
  · exact hs
  · exact State.runTst_inv hs
  · exact State.finish1_inv (Inv.ite hs hs)
  · split
    · exact State.runLoad_inv hs
    · exact hs

theorem execScoreboardEntryRelease_inv {core k : Nat} {s : State} (hs : Inv s) : Goes (execScoreboardEntryRelease core k s) := by
  unfold execScoreboardEntryRelease
  dsimp only
  refine Goes.next ?_
  split
  · exact Inv.ite hs hs
  · exact hs

end Sys2Proof.Machine
end


section
/-!
Obligation O57, the canonical form of memory: the matrix unit, packed arithmetic, codebooks and traversal.
-/
namespace Sys2Proof.Machine

/-! ### The matrix unit -/

theorem State.setMx_inv {s : State} {pair : Nat} {e : QEntry MxOp} (hs : Inv s) : Inv (s.setMx pair e) := hs

theorem State.setAcc_inv {s : State} {pair half n : Nat} {a : Acc} (hs : Inv s) : Inv (s.setAcc pair half n a) := hs

theorem State.countElems_inv {s : State} {core : Nat} {e : QEntry MxOp} {xs : List (Nat × List XClass)} (hs : Inv s) :
    Inv (s.countElems core e xs).1 := by
  unfold State.countElems
  exact Inv.foldl hs fun t a h => State.countOn_inv h

theorem State.finish0_inv {s : State} {pair : Nat} {e : QEntry MxOp} {status cls row : Nat} {epi : Bool} (hs : Inv s) :
    Inv (s.finish0 pair e status cls row epi) := by
  unfold State.finish0
  exact State.opDone_inv (State.dropWalks_inv hs)

theorem State.startMx_inv {s : State} {pair : Nat} {e : QEntry MxOp} (hs : Inv s) : Inv (s.startMx pair e).1 := by
  unfold State.startMx
  exact Inv.ite hs hs

theorem State.readRanges_inv {s : State} {r : Reader} {xs : List (DWord × Nat)} (hs : Inv s) : Inv (s.readRanges r xs).1 := by
  unfold State.readRanges
  exact Inv.foldl_fst hs fun t a h => State.readGlobal_inv h

theorem State.checkKill_inv {s : State} {pair : Nat} {e : QEntry MxOp} (hs : Inv s) : Inv (s.checkKill pair e) := by
  unfold State.checkKill
  dsimp only
  split
  · exact State.killWave_inv hs
  · exact State.record_inv hs

theorem State.computeChunk_inv {s : State} {pair : Nat} {e : QEntry MxOp} {reads : List ReadOut} (hs : Inv s) :
    Inv (s.computeChunk pair e reads) := by
  unfold State.computeChunk
  extract_lets m a b checked s0 half pass kept
  have h0 : Inv s0 := hs
  split
  · exact Inv.ite (State.finish0_inv (State.checkKill_inv h0)) hs
  · split
    next he =>
      have h1 := Inv.of_fst he (State.countElems_inv h0)
      split
      next he2 => exact State.setMx_inv (State.setAcc_inv (State.setAcc_inv (Inv.of_fst he2 (State.countElems_inv h1))))

theorem State.settleMx_inv {s : State} {pair : Nat} (hs : Inv s) : Inv (s.settleMx pair) := by
  unfold State.settleMx
  split
  · exact Inv.ite (State.finish0_inv hs) hs
  · exact hs

theorem execMatrixChunk_inv {pair : Nat} {s : State} (hs : Inv s) : Goes (execMatrixChunk pair s) := by
  unfold execMatrixChunk
  refine Goes.next ?_
  dsimp only
  split
  · exact State.settleMx_inv hs
  · split
    · exact hs
    · split
      · split
        · exact hs
        · split
          · exact State.readRanges_inv hs
          · dsimp only
            split
            · exact Inv.ite (State.finish0_inv (State.readRanges_inv hs)) (State.readRanges_inv hs)
            · exact State.settleMx_inv (State.computeChunk_inv (State.readRanges_inv hs))
      · split
        · exact hs
        · split
          · exact State.readRanges_inv (State.startMx_inv hs)
          · split
            · exact Inv.ite (State.finish0_inv (State.readRanges_inv (State.startMx_inv hs))) (State.readRanges_inv (State.startMx_inv hs))
            · exact State.settleMx_inv (State.computeChunk_inv (State.readRanges_inv (State.startMx_inv hs)))

theorem State.stageMx_inv {s : State} {pair : Nat} {e : QEntry MxOp} (hs : Inv s) : Inv (s.stageMx pair e) := by
  unfold State.stageMx
  extract_lets m d r n ptr
  split
  · exact hs
  · split
    · exact State.finish0_inv hs
    · split
      next s1 reads he =>
        have h1 : Inv s1 := Inv.of_fst he (State.readRanges_inv hs)
        split
        · exact State.setMx_inv h1
        · split
          · exact State.finish0_inv h1
          · extract_lets data rows cols bias half stage
            have hstage : ∀ st h, Inv st.1 → Inv (stage st h).1 := by
              intro st h hst
              unfold stage
              dsimp only
              split
              · exact State.setTile_inv (State.setCore_inv (State.countElems_inv hst))
              · exact State.setCore_inv (State.countElems_inv hst)
            clear_value stage
            have h2 : Inv ([0, 1].foldl stage (s1, e)).1 := Inv.foldl_fst h1 hstage
            exact State.setMx_inv h2

theorem State.locateEnabled_inv {s : State} {r : Reader} {base : DWord} {row : List (Byte × Byte × Bool)} (hs : Inv s) :
    Inv (s.locateEnabled r base row).1 := by
  unfold State.locateEnabled
  refine Inv.foldl_fst hs ?_
  intro t a h
  dsimp only
  split
  next he1 => exact Inv.of_fst he1 (State.locate_inv h)
  next he2 => exact Inv.of_fst he2 (State.locate_inv h)
  next he _ => exact Inv.of_fst he (State.locate_inv h)
  next he1 _ _ => exact Inv.of_fst he1 (State.locate_inv h)

theorem State.storeRow_inv {s : State} {e : QEntry MxOp} {d : Nat} {row : List (Byte × Byte × Bool)} {i : Nat} (hs : Inv s) :
    (s.storeRow e d row i).Keeps := by
  unfold State.storeRow
  dsimp only
  split
  next he => exact Inv.of_fst he (State.locateEnabled_inv hs)
  next he => exact Inv.of_fst he (State.locateEnabled_inv hs)
  next he =>
    split
    · exact Inv.of_fst he (State.locateEnabled_inv hs)
    · split
      · exact State.askGuests_inv (Inv.of_fst he (State.locateEnabled_inv hs))
      · exact Inv.ite (Inv.ite (State.noteLines_inv (Inv.of_fst he (State.locateEnabled_inv hs))) (State.performWrites_inv (State.noteLines_inv
          (Inv.of_fst he (State.locateEnabled_inv hs))))) (State.performWrites_inv (Inv.ite (State.noteLines_inv (Inv.of_fst he
          (State.locateEnabled_inv hs))) (State.performWrites_inv (State.noteLines_inv (Inv.of_fst he (State.locateEnabled_inv hs))))))

theorem State.storeRows_inv {pair d fuel : Nat} {ty : Ty} {e : QEntry MxOp} {s : State} (hs : Inv s) :
    Inv (State.storeRows pair d ty fuel e s) := by
  induction fuel generalizing e s with
  | zero => exact State.setMx_inv hs
  | succ fuel ih =>
    unfold State.storeRows
    extract_lets m free staged xs rotten
    have hfree : ∀ t, Inv t → Inv (free t) := fun t ht => Inv.foldl ht fun u a hu => State.setCore_inv hu
    split
    · split
      · exact State.finish0_inv (hfree s hs)
      · exact State.finish0_inv (hfree s hs)
    · split
      · exact ih hs
      · split
        next he => exact ih (Inv.of_row_done he (State.storeRow_inv hs))
        next he => exact State.setMx_inv (Inv.of_row_wait he (State.storeRow_inv hs))
        next he => exact State.finish0_inv (hfree _ (Inv.of_row_fault he (State.storeRow_inv hs)))

theorem execEpilogueDrain_inv {pair : Nat} {s : State} (hs : Inv s) : Goes (execEpilogueDrain pair s) := by
  unfold execEpilogueDrain
  refine Goes.next ?_
  dsimp only
  split
  · exact hs
  · exact Inv.ite hs (Inv.ite (State.stageMx_inv hs) (State.settleMx_inv (State.storeRows_inv hs)))

/-! ### Packed instructions -/

theorem execPadd_inv {o : Ops} {ty : Ty} {rnd : Rnd} {sat : Bool} {s : State} (hs : Inv s) : Goes (execPadd o ty rnd sat s) := by
  unfold execPadd
  exact withCtx_inv hs fun _ h => Ctx.alu_inv h

theorem execPmul_inv {o : Ops} {ty : Ty} {rnd : Rnd} {sat : Bool} {s : State} (hs : Inv s) : Goes (execPmul o ty rnd sat s) := by
  unfold execPmul
  exact withCtx_inv hs fun _ h => Ctx.alu_inv h

theorem execPfma_inv {o : Ops} {ty : Ty} {rnd : Rnd} {sat : Bool} {s : State} (hs : Inv s) : Goes (execPfma o ty rnd sat s) := by
  unfold execPfma
  exact withCtx_inv hs fun _ h => Ctx.alu_inv h

theorem execPmin_inv {o : Ops} {ty : Ty} {s : State} (hs : Inv s) : Goes (execPmin o ty s) := by
  unfold execPmin
  exact withCtx_inv hs fun _ h => Ctx.alu_inv h

theorem execPmax_inv {o : Ops} {ty : Ty} {s : State} (hs : Inv s) : Goes (execPmax o ty s) := by
  unfold execPmax
  exact withCtx_inv hs fun _ h => Ctx.alu_inv h

theorem execPcvt_inv {o : Ops} {ty : Ty} {rnd : Rnd} {sat : Bool} {sty : Ty} {pick : BitVec 3} {de8 se8 : Bool} {s : State} (hs : Inv s) :
    Goes (execPcvt o ty rnd sat sty pick de8 se8 s) := by
  unfold execPcvt
  exact withCtx_inv hs fun _ h => Ctx.alu_inv h

theorem execPdot4_inv {o : Ops} {ty : Ty} {rnd : Rnd} {mix : Bool} {s : State} (hs : Inv s) : Goes (execPdot4 o ty rnd mix s) := by
  unfold execPdot4
  exact withCtx_inv hs fun _ h => Ctx.alu_inv h

theorem Ctx.retagVector_inv {c : Ctx} {o : Ops} {n : Nat} {tag : BitVec 5} (hc : Inv c.s) : Inv (c.retagVector o n tag) := by
  unfold Ctx.retagVector
  exact Inv.ite (Ctx.next_inv hc) (Inv.ite (Ctx.trap_inv hc) (Ctx.vector_inv hc (fun _ => Ctx.done_inv hc)))

theorem execRetag_inv {o : Ops} {tag : BitVec 5} {s : State} (hs : Inv s) : Goes (execRetag o tag s) := by
  unfold execRetag
  refine withCtx_inv hs ?_
  intro c h
  dsimp only
  split
  · exact Ctx.retagVector_inv h
  · exact Ctx.uniform_inv h (Ctx.next_inv h)
  · exact Ctx.next_inv h

/-! ### Codebooks -/

/-- A load of a codebook under way is found in a state whose memory is in its canonical form. -/
theorem State.loading_inv {s t : State} {core n : Nat} {e : QEntry Q1Kind} {x : Tile} (hs : Inv s) (h : s.loading core n = some (e, t, x)) :
    Inv t := by
  unfold State.loading at h
  split at h
  · cases h
  · split at h
    · split at h
      · cases h
      · split at h
        next he =>
          cases h
          exact Inv.of_fst he (State.readCells_inv hs)
        · cases h
    · cases h

theorem Ctx.tabled_inv {c : Ctx} {n : Nat} (hc : Inv c.s) : Inv (c.tabled n) := by
  unfold Ctx.tabled
  split
  next he => exact State.setCore_inv (State.setTile_inv (State.loading_inv hc he))
  · exact hc

theorem Ctx.withTile_inv {c : Ctx} {o : Ops} {us : List Use} {n : Nat} {k : Mask → State} (hc : Inv c.s) (hk : ∀ a0, Inv (k a0)) :
    Inv (c.withTile o us n k) := by
  unfold Ctx.withTile
  exact Inv.ite (Ctx.trap_inv hc) (Inv.ite (Ctx.vector_inv hc (fun _ => hk _)) (Ctx.uniform_inv hc (Ctx.next_inv hc)))

theorem Ctx.runTable_inv {c : Ctx} {o : Ops} {pl : Plan} {n : Nat} {bad : Nat → Bool} {act : Mask} (hc : Inv c.s) :
    Inv (c.runTable o pl n bad act) := by
  unfold Ctx.runTable
  exact Ctx.commit_inv (Ctx.tabled_inv hc)

theorem execCbdec_inv {o : Ops} {pick : BitVec 2} {tile : BitVec 3} {s : State} (hs : Inv s) : Goes (execCbdec o pick tile s) := by
  unfold execCbdec
  exact withCtx_inv hs fun _ h => Ctx.withTile_inv h fun _ => Ctx.runTable_inv h

theorem execCbenc_inv {o : Ops} {h : Bool} {tile : BitVec 3} {s : State} (hs : Inv s) : Goes (execCbenc o h tile s) := by
  unfold execCbenc
  exact withCtx_inv hs fun _ h1 => Ctx.withTile_inv h1 fun _ => Ctx.runTable_inv h1

/-! ### Traversal -/

theorem Ctx.startTester_inv {c : Ctx} {o : Ops} {tri sort : Bool} {act : Mask} (hc : Inv c.s) : Inv (c.startTester o tri sort act) := by
  unfold Ctx.startTester
  exact Ctx.voted_inv hc fun _ _ h => Ctx.next_inv (State.touchAccs_inv h)

theorem execBoxt_inv {o : Ops} {sort : Bool} {s : State} (hs : Inv s) : Goes (execBoxt o sort s) := by
  unfold execBoxt
  exact withCtx_inv hs fun c h => Ctx.vector_inv h fun _ => Ctx.memory_inv h (Ctx.startTester_inv (Ctx.spoil_inv h))

theorem execTrit_inv {o : Ops} {s : State} (hs : Inv s) : Goes (execTrit o s) := by
  unfold execTrit
  exact withCtx_inv hs fun c h => Ctx.vector_inv h fun _ => Ctx.memory_inv h (Ctx.startTester_inv (Ctx.spoil_inv h))

theorem Ctx.stackArea_inv {c : Ctx} {o : Ops} {act : Mask} {poisoned out : Bool} {entries : List (Nat × Nat)} {k : Nat → State} (hc : Inv c.s)
    (hk : ∀ a0, Inv (k a0)) : Inv (c.stackArea o act poisoned out entries k) := by
  unfold Ctx.stackArea
  dsimp only
  split
  · exact hk _
  · split
    · exact Ctx.trap_inv hc
    · split
      · exact Ctx.trap_inv hc
      · split
        · exact hc
        · split
          · exact hc
          · exact hk _

theorem Ctx.push_inv {c : Ctx} {o : Ops} {act : Mask} (hc : Inv c.s) : Inv (c.push o act) := by
  unfold Ctx.push
  exact Ctx.stackArea_inv hc fun _ => Ctx.next_inv hc

theorem execSpush_inv {o : Ops} {s : State} (hs : Inv s) : Goes (execSpush o s) := by
  unfold execSpush
  exact withCtx_inv hs fun c h => Ctx.vector_inv h fun _ => Ctx.memory_inv h (Ctx.push_inv (Ctx.spoil_inv h))

theorem Ctx.top_inv {c : Ctx} {o : Ops} {pe : Nat} {pop : Bool} {act : Mask} (hc : Inv c.s) : Inv (c.top o pe pop act) := by
  unfold Ctx.top
  exact Ctx.stackArea_inv hc fun _ => Ctx.next_inv hc

theorem execSpop_inv {o : Ops} {pe : BitVec 3} {s : State} (hs : Inv s) : Goes (execSpop o pe s) := by
  unfold execSpop
  exact withCtx_inv hs fun c h => Ctx.vector_inv h fun _ => Ctx.memory_inv h (Ctx.top_inv (Ctx.spoil_inv h))

theorem execSpeek_inv {o : Ops} {pe : BitVec 3} {s : State} (hs : Inv s) : Goes (execSpeek o pe s) := by
  unfold execSpeek
  exact withCtx_inv hs fun c h => Ctx.vector_inv h fun _ => Ctx.memory_inv h (Ctx.top_inv (Ctx.spoil_inv h))

theorem execSclr_inv {o : Ops} {s : State} (hs : Inv s) : Goes (execSclr o s) := by
  unfold execSclr
  exact withCtx_inv hs fun c h => Ctx.vector_inv h fun _ => Ctx.done_inv h

end Sys2Proof.Machine
end


section
/-!
Obligation O57, the canonical form of memory: Lath, Glaze and fillers.
-/
namespace Sys2Proof.Machine

/-! ### Lath -/

theorem execLathreq_inv {o : Ops} {reload : Bool} {s : State} (hs : Inv s) : Goes (execLathreq o reload s) := by
  unfold execLathreq
  exact withCtx_inv hs fun _ h => Ctx.uniform_inv h (Inv.ite (Ctx.trap_inv h) (Ctx.memory_inv h (Ctx.enqueue_inv h (fun _ h1 => h1))))

theorem Ctx.startRun_inv {c : Ctx} {o : Ops} {nin nout : Nat} {act : Mask} (hc : Inv c.s) : Inv (c.startRun o nin nout act) := by
  unfold Ctx.startRun
  dsimp only
  split
  · exact Ctx.trap_inv (Ctx.withWave_inv hc)
  · exact Inv.ite hc (State.modWave_inv hc)

theorem execLathrun_inv {o : Ops} {nin : BitVec 3} {nout : BitVec 2} {s : State} (hs : Inv s) : Goes (execLathrun o nin nout s) := by
  unfold execLathrun
  exact withCtx_inv hs fun c h => Ctx.vector_inv h fun _ => Ctx.memory_inv h (Ctx.startRun_inv h)

theorem execLathwait_inv {o : Ops} {s : State} (hs : Inv s) : Goes (execLathwait o s) := by
  unfold execLathwait
  refine withCtx_inv hs ?_
  intro c h
  refine Ctx.uniform_inv h ?_
  dsimp only
  split
  · exact Ctx.done_inv h
  · exact h

theorem State.readImage_inv {s : State} {core : Nat} {e : QEntry Q3Kind} {image : DWord} (hs : Inv s) : Inv (s.readImage core e image).1 := by
  unfold State.readImage
  split
  · exact hs
  · split
    next he1 => exact Inv.of_fst he1 (State.readGlobal_inv hs)
    next he1 => exact Inv.of_fst he1 (State.readGlobal_inv hs)
    next he1 => exact Inv.of_fst he1 (State.readGlobal_inv hs)
    next he1 =>
      exact Inv.ite_fst (Inv.of_fst he1 (State.readGlobal_inv hs)) (Inv.ite_fst (Inv.of_fst he1 (State.readGlobal_inv hs)) (Inv.of_fst he1
        (State.readGlobal_inv hs)))

theorem State.noteLoad_inv {s : State} {uid : Nat} {image : DWord} {why : Option Nat} (hs : Inv s) : Inv (s.noteLoad uid image why) := by
  unfold State.noteLoad
  split
  · exact hs
  · exact State.modWave_inv hs

theorem State.setGrid_inv {s : State} {core : Nat} {e : QEntry Q3Kind} {image : DWord} {r : Sum Nat (List Byte)} (hs : Inv s) :
    Inv (s.setGrid core e image r) := by
  unfold State.setGrid
  dsimp only
  split
  · exact State.noteLoad_inv hs
  · exact State.noteLoad_inv hs

theorem State.done3_inv {s : State} {core : Nat} {e : QEntry Q3Kind} (hs : Inv s) : Inv (s.done3 core e) := by
  unfold State.done3
  exact State.opDone_inv (State.dropWalks_inv hs)

theorem State.release_inv {s : State} {uid id : Nat} {g : Fragment → Fragment} (hs : Inv s) : Inv (s.release uid id g) := by
  unfold State.release
  dsimp only
  split
  · exact hs
  · exact State.settle_inv (State.modWave_inv hs)

theorem State.failRun_inv {s : State} {core : Nat} {e : QEntry Q3Kind} {why : Nat} (hs : Inv s) : Inv (s.failRun core e why) := by
  unfold State.failRun
  exact State.release_inv (State.done3_inv hs)

theorem State.imageLoad_inv {s : State} {core : Nat} (hs : Inv s) : Inv (s.imageLoad core) := by
  unfold State.imageLoad
  split
  · exact hs
  · split
    · exact hs
    · split
      · exact hs
      · split
        · exact State.done3_inv (State.noteLoad_inv hs)
        · split
          next he4 => exact Inv.of_fst he4 (State.readImage_inv hs)
          next he4 => exact State.done3_inv (State.setGrid_inv (Inv.of_fst he4 (State.readImage_inv hs)))
          next he4 => exact State.done3_inv (State.setGrid_inv (Inv.of_fst he4 (State.readImage_inv hs)))
      · split
        · exact hs
        · split
          · exact State.failRun_inv hs
          · split
            next he5 => exact Inv.of_fst he5 (State.readImage_inv hs)
            next he5 => exact State.failRun_inv (State.setGrid_inv (Inv.of_fst he5 (State.readImage_inv hs)))
            next he5 => exact State.setGrid_inv (Inv.of_fst he5 (State.readImage_inv hs))

theorem execLathImageLoad_inv {core : Nat} {s : State} (hs : Inv s) : Goes (execLathImageLoad core s) := by
  unfold execLathImageLoad
  exact State.imageLoad_inv hs

theorem State.runDone_inv {s : State} {core : Nat} (hs : Inv s) : Inv (s.runDone core) := by
  unfold State.runDone
  dsimp only
  split
  · split
    · split
      · exact hs
      · split
        · exact State.failRun_inv hs
        · split
          · exact State.done3_inv hs
          · split
            · exact State.done3_inv hs
            · split
              · exact State.release_inv (State.countAll_inv (State.modWave_inv (State.done3_inv hs)))
              · exact State.release_inv (State.countAll_inv (State.modWave_inv (State.done3_inv hs)))
              · exact State.killWave_inv (State.done3_inv hs)
    · exact hs
  · exact hs

theorem execLathRunCompletion_inv {core : Nat} {s : State} (hs : Inv s) : Goes (execLathRunCompletion core s) := by
  unfold execLathRunCompletion
  exact State.runDone_inv hs

theorem State.markerDone_inv {s : State} {core q : Nat} (hs : Inv s) : Inv (s.markerDone core q) := by
  unfold State.markerDone
  dsimp only
  split
  · split
    · exact Inv.ite (State.done3_inv hs) hs
    · exact hs
  · split
    · exact Inv.ite (State.opDone_inv hs) hs
    · exact hs
  · exact hs

theorem execQueueMarkerCompletion_inv {core q : Nat} {s : State} (hs : Inv s) : Goes (execQueueMarkerCompletion core q s) := by
  unfold execQueueMarkerCompletion
  exact State.markerDone_inv hs

/-! ### Glaze -/

theorem GzRun.setCl_inv {g : GzRun} {c : Cluster} (hg : Inv g.s) : Inv (g.setCl c).s := hg

theorem GzRun.count_inv {g : GzRun} {exc : List XClass} (hg : Inv g.s) : Inv (g.count exc).s := by
  unfold GzRun.count
  exact Inv.foldl hg fun t a h => State.countFor_inv h

theorem State.entryTarget_inv {s : State} {r : Reader} {va : DWord} (hs : Inv s) : Inv (s.entryTarget r va).1 := by
  unfold State.entryTarget
  split
  next he =>
    split
    next he1 => exact Inv.of_fst he1 (State.targetOf_inv (Inv.of_fst he (State.targetOf_inv hs)))
    · exact State.targetOf_inv (Inv.of_fst he (State.targetOf_inv hs))
  · exact State.targetOf_inv hs

theorem GzRun.log_inv {g : GzRun} {rec_ : Nat} {old : GzRec} {e : GzEntry} {kind : GzKind} (hg : Inv g.s) : Inv (g.log rec_ old e kind).s := by
  unfold GzRun.log
  dsimp only
  split
  · exact hg
  · split
    · exact GzRun.setCl_inv hg
    · split
      next he2 => exact GzRun.setCl_inv (State.performWrites_inv (Inv.of_fst he2 (State.entryTarget_inv hg)))
      · exact hg
      next he4 => exact GzRun.setCl_inv (Inv.of_fst he4 (State.entryTarget_inv hg))

theorem GzRun.vote_inv {g : GzRun} (hg : Inv g.s) : Inv g.vote.1.s := by
  unfold GzRun.vote
  dsimp only
  split
  · exact hg
  · split
    · exact hg
    · exact hg
    · exact State.record_inv hg

theorem GzRun.commit_inv {g : GzRun} {rec_ : Nat} {e : GzEntry} {kind : GzKind} (hg : Inv g.s) : Inv (g.commit rec_ e kind).s := by
  unfold GzRun.commit
  dsimp only
  split
  · exact hg
  · exact GzRun.count_inv (GzRun.setCl_inv (GzRun.log_inv (GzRun.vote_inv hg)))

theorem GzRun.drop_inv {g : GzRun} {rec_ : Nat} (hg : Inv g.s) : Inv (g.drop rec_).s := hg

theorem GzRun.arrive_inv {g : GzRun} {a : Arrival} (hg : Inv g.s) : Inv (g.arrive a).s := by
  unfold GzRun.arrive
  extract_lets r0 av one zero alpha g0 e r1 g1 mid g2 r2
  have h0 : Inv g0.s := by
    unfold g0
    split
    · exact hg
    · exact GzRun.count_inv hg
  have h1 : Inv g1.s := GzRun.setCl_inv h0
  split
  · exact GzRun.count_inv (GzRun.drop_inv hg)
  · split
    · exact GzRun.drop_inv hg
    · split
      · split
        next near rest _ =>
          split
          · exact GzRun.setCl_inv h1
          · split
            · exact GzRun.commit_inv h1
            · extract_lets g3 r3
              have h3 : Inv g3.s := GzRun.commit_inv (GzRun.setCl_inv h1)
              split
              · exact GzRun.drop_inv h3
              · exact GzRun.setCl_inv h3
        · exact GzRun.setCl_inv h1
      · split
        · exact GzRun.commit_inv h1
        · exact GzRun.setCl_inv (GzRun.commit_inv h1)

theorem GzRun.flush_inv {rec_ n : Nat} {g : GzRun} (hg : Inv g.s) : Inv (GzRun.flush rec_ n g).s := by
  induction n generalizing g with
  | zero => exact hg
  | succ n ih =>
    unfold GzRun.flush
    dsimp only
    split
    · exact hg
    · exact ih (GzRun.commit_inv (GzRun.setCl_inv hg))

theorem State.done4_inv {s : State} {core : Nat} {e : QEntry Q4Kind} {status cls row : Nat} (hs : Inv s) : Inv (s.done4 core e status cls row) := by
  unfold State.done4
  exact State.opDone_inv (State.dropWalks_inv hs)

theorem State.startGz_inv {s : State} {core : Nat} {e : QEntry Q4Kind} (hs : Inv s) : Inv (s.startGz core e).s := hs

theorem GzRun.end_inv {g : GzRun} {old : State} {k : State → State} (hg : Inv g.s) (hold : Inv old) (hk : ∀ a0, Inv a0 → Inv (k a0)) :
    Inv (g.end_ old k) := by
  unfold GzRun.end_
  split
  · exact State.entryTarget_inv hold
  · exact hk _ hg

theorem execGlazeArrival_inv {core : Nat} {s : State} (hs : Inv s) : Goes (execGlazeArrival core s) := by
  refine Goes.next ?_
  split
  next e _ =>
    split
    next as _ =>
      have hg : Inv (as.foldl GzRun.arrive (s.startGz core e)).s :=
        List.foldlRecOn as _ (motive := fun g : GzRun => Inv g.s) (State.startGz_inv hs) fun g hg _ _ => GzRun.arrive_inv hg
      exact GzRun.end_inv hg hs fun t ht => State.done4_inv ht
    · exact hs
  · exact hs

theorem State.glazeRead_inv {s : State} {core : Nat} {e : QEntry Q4Kind} {dst : Opnd} {flush : Bool} {recs : List (Nat × Nat)} {poison : Mask}
    {org : Origin} (hs : Inv s) : Inv (s.glazeRead core e dst flush recs poison org) := by
  unfold State.glazeRead
  extract_lets g g1 cl xs
  have hg : Inv g.s := State.startGz_inv hs
  have h1 : Inv g1.s := by
    unfold g1
    split
    · exact List.foldlRecOn recs _ (motive := fun g : GzRun => Inv g.s) hg fun g hg _ _ => GzRun.flush_inv hg
    · exact hg
  refine GzRun.end_inv h1 hs fun t ht => ?_
  dsimp only
  split
  · exact State.release_inv (State.modWave_inv (State.done4_inv ht))
  · exact State.done4_inv ht

theorem execGlazeRead_inv {core : Nat} {s : State} (hs : Inv s) : Goes (execGlazeRead core s) := by
  unfold execGlazeRead
  refine Goes.next ?_
  split
  · split
    · exact State.glazeRead_inv hs
    · exact hs
  · exact hs

theorem execGlazeClear_inv {core : Nat} {s : State} (hs : Inv s) : Goes (execGlazeClear core s) := by
  unfold execGlazeClear
  refine Goes.next ?_
  dsimp only
  split
  · split
    · exact State.done4_inv hs
    · exact State.done4_inv hs
    · exact hs
  · exact hs

theorem execGlazeStatusRead_inv {core : Nat} {s : State} (hs : Inv s) : Goes (execGlazeStatusRead core s) := by
  unfold execGlazeStatusRead
  refine Goes.next ?_
  dsimp only
  split
  · split
    · split
      · exact State.release_inv (State.modWave_inv (State.done4_inv hs))
      · exact State.done4_inv hs
    · exact hs
  · exact hs

theorem State.readEntry_inv {s : State} {r : Reader} {va : DWord} (hs : Inv s) : Inv (s.readEntry r va).1 := by
  unfold State.readEntry
  split
  next he => exact Inv.ite_fst (Inv.of_fst he (State.locate_inv hs)) (State.readGlobal_inv hs)
  · exact State.readGlobal_inv hs

theorem Replay.entry_inv {x : Replay} {r : Reader} {out : DWord} (hx : Inv x.s) : Inv (x.entry r out).s := by
  unfold Replay.entry
  dsimp only
  split
  · exact hx
  · split
    next he1 => exact Inv.of_fst he1 (State.readEntry_inv hx)
    next he1 => exact Inv.of_fst he1 (State.readEntry_inv hx)
    next he1 => exact Inv.of_fst he1 (State.readEntry_inv hx)
    next he1 =>
      split
      next he2 => exact Inv.of_fst he2 (State.entryTarget_inv (Inv.of_fst he1 (State.readEntry_inv hx)))
      next he2 => exact Inv.of_fst he2 (State.entryTarget_inv (Inv.of_fst he1 (State.readEntry_inv hx)))
      next he2 => exact State.performWrites_inv (Inv.of_fst he2 (State.entryTarget_inv (Inv.of_fst he1 (State.readEntry_inv hx))))
      next he5 => exact Inv.of_fst he5 (State.entryTarget_inv (Inv.of_fst he1 (State.readEntry_inv hx)))

theorem Replay.run_inv {r : Reader} {out : DWord} {fuel : Nat} {x : Replay} (hx : Inv x.s) : Inv (Replay.run r out fuel x).s := by
  induction fuel generalizing x with
  | zero => exact hx
  | succ fuel ih => exact ih (Replay.entry_inv hx)

theorem State.glazeReplay_inv {s : State} {core : Nat} {e : QEntry Q4Kind} {out : DWord} {n : Nat} (hs : Inv s) :
    Inv (s.glazeReplay core e out n) := by
  unfold State.glazeReplay
  dsimp only
  split
  · exact Replay.run_inv hs
  · split
    · exact State.done4_inv (Replay.run_inv hs)
    · exact State.done4_inv (Replay.run_inv hs)
    · exact State.done4_inv (Replay.run_inv hs)

theorem execGlazeReplay_inv {core : Nat} {s : State} (hs : Inv s) : Goes (execGlazeReplay core s) := by
  unfold execGlazeReplay
  refine Goes.next ?_
  split
  · split
    · exact State.glazeReplay_inv hs
    · exact hs
  · exact hs

theorem Ctx.stall4_inv {c : Ctx} {kind : Q4Kind} (hc : Inv c.s) : Inv (c.stall4 kind) := by
  unfold Ctx.stall4
  exact Inv.ite hc (State.modWave_inv hc)

theorem Ctx.enqueue4_inv {c : Ctx} {kind : Q4Kind} (hc : Inv c.s) : Inv (c.enqueue4 kind) := by
  unfold Ctx.enqueue4
  exact Ctx.enqueue_inv hc fun _ h => h

theorem Ctx.recordNumbers_inv {c : Ctx} {o : Ops} {x : Opnd} {ts : List Nat} {k : List (Nat × Nat) → State} (hc : Inv c.s) (hk : ∀ a0, Inv (k a0)) :
    Inv (c.recordNumbers o x ts k) := by
  unfold Ctx.recordNumbers
  dsimp only
  split
  · exact Ctx.trap_inv hc
  · exact hk _

theorem execGzarr_inv {o : Ops} {s : State} (hs : Inv s) : Goes (execGzarr o s) := by
  unfold execGzarr
  exact withCtx_inv hs fun c h => Ctx.vector_inv h fun _ => Ctx.recordNumbers_inv h fun _ => Ctx.enqueue4_inv h

theorem execGzrd_inv {o : Ops} {flush : Bool} {s : State} (hs : Inv s) : Goes (execGzrd o flush s) := by
  unfold execGzrd
  exact withCtx_inv hs fun c h => Ctx.vector_inv h fun _ => Ctx.recordNumbers_inv h fun _ => Ctx.stall4_inv h

theorem execGzclr_inv {o : Ops} {all : Bool} {s : State} (hs : Inv s) : Goes (execGzclr o all s) := by
  unfold execGzclr
  exact withCtx_inv hs fun c h => Inv.ite (Ctx.uniform_inv h (Ctx.enqueue4_inv h)) (Ctx.either_inv h (fun _ => Ctx.recordNumbers_inv h
    (fun _ => Ctx.enqueue4_inv h)))

theorem execGzrpl_inv {o : Ops} {s : State} (hs : Inv s) : Goes (execGzrpl o s) := by
  unfold execGzrpl
  exact withCtx_inv hs fun _ h => Ctx.uniform_inv h (Inv.ite (Ctx.trap_inv h) (Inv.ite (Ctx.trap_inv h) (Ctx.memory_inv h (Ctx.enqueue_inv h
    (fun _ h1 => h1)))))

theorem execGzst_inv {o : Ops} {s : State} (hs : Inv s) : Goes (execGzst o s) := by
  unfold execGzst
  exact withCtx_inv hs fun _ h => Ctx.uniform_inv h (Ctx.stall4_inv h)

/-! ### Fillers and flags -/

theorem execFget_inv {o : Ops} {s : State} (hs : Inv s) : Goes (execFget o s) := by
  unfold execFget
  refine withCtx_inv hs ?_
  intro c h
  refine Ctx.uniform_inv h ?_
  split
  · exact Ctx.trap_inv h
  · refine Ctx.next_inv ?_
    refine State.addOps_inv ?_
    refine State.modWave_inv ?_
    split
    · exact h
    · exact h

theorem State.commitLine_inv {s : State} {part line : Nat} {r : VReg} {first : Nat} (hs : Inv s) : Inv (s.commitLine part line r first) := by
  unfold State.commitLine
  dsimp only
  split
  · exact State.poisonLine_inv hs
  · exact State.cross_inv hs

theorem execFcmt_inv {o : Ops} {s : State} (hs : Inv s) : Goes (execFcmt o s) := by
  unfold execFcmt
  refine withCtx_inv hs ?_
  intro c h
  refine Ctx.vector_inv h ?_
  intro a0
  dsimp only
  split
  · exact Ctx.drained_inv h (Ctx.next_inv (State.settleSlot_inv (Inv.foldl h (fun t a h1 => State.commitLine_inv h1))))
  · exact Ctx.trap_inv h

theorem execFpsn_inv {o : Ops} {blk : Bool} {s : State} (hs : Inv s) : Goes (execFpsn o blk s) := by
  unfold execFpsn
  refine withCtx_inv hs ?_
  intro c h
  refine Ctx.uniform_inv h ?_
  dsimp only
  split
  · exact Ctx.drained_inv h (Ctx.next_inv (State.settleSlot_inv (Inv.foldl h (fun t a h1 => State.poisonLine_inv h1))))
  · exact Ctx.trap_inv h

theorem execFend_inv {o : Ops} {s : State} (hs : Inv s) : Goes (execFend o s) := by
  unfold execFend
  refine withCtx_inv hs ?_
  intro c h
  refine Ctx.uniform_inv h ?_
  split
  · exact Inv.ite (Ctx.trap_inv h) (Ctx.next_inv (State.modWave_inv (State.endTask_inv h)))
  · exact Ctx.trap_inv h

theorem execGprobe_inv {o : Ops} {s : State} (hs : Inv s) : Goes (execGprobe o s) := by
  unfold execGprobe
  exact withCtx_inv hs fun _ h => Ctx.uniform_inv h (Ctx.memory_inv h (Inv.ite (Ctx.trap_inv h) (Ctx.done_inv h)))

theorem execTgcond_inv {o : Ops} {s : State} (hs : Inv s) : Goes (execTgcond o s) := by
  unfold execTgcond
  exact withCtx_inv hs fun _ h => Ctx.uniform_inv h (Ctx.memory_inv h (Inv.ite (Ctx.trap_inv h) (Inv.ite (Ctx.trap_inv h) (Inv.ite h (Ctx.drained_inv
    (Ctx.spoil_inv h) (Ctx.next_inv (Ctx.spoil_inv h)))))))

theorem execTgsig_inv {o : Ops} {mask : BitVec 16} {s : State} (hs : Inv s) : Goes (execTgsig o mask s) := by
  unfold execTgsig
  exact withCtx_inv hs fun _ h => Ctx.uniform_inv h (Inv.ite (Ctx.next_inv h) (Ctx.drained_inv h (Ctx.next_inv h)))

theorem execTgwait_inv {o : Ops} {mask : BitVec 16} {s : State} (hs : Inv s) : Goes (execTgwait o mask s) := by
  unfold execTgwait
  exact withCtx_inv hs fun c h => Ctx.uniform_inv h (Inv.ite (Ctx.next_inv h) (Inv.ite (Ctx.next_inv (State.fenceWave_inv h)) h))

theorem Ctx.queueRecords_inv {c : Ctx} {o : Ops} {g : Graph} {node : Nat} {n : Node} {act : Mask} {places : List (Nat × Nat)} (hc : Inv c.s) :
    Inv (c.queueRecords o g node n act places) := by
  unfold Ctx.queueRecords
  exact Ctx.reachAll_inv hc fun _ _ h => Ctx.next_inv (State.modWave_inv h)

theorem Ctx.emit_inv {c : Ctx} {o : Ops} {g : Graph} {node : Nat} {n : Node} {act : Mask} (hc : Inv c.s) : Inv (c.emit o g node n act) := by
  unfold Ctx.emit
  dsimp only
  split
  · exact Inv.ite (Ctx.trap_inv hc) (Ctx.next_inv (State.modWave_inv hc))
  · split
    · exact Ctx.trap_inv hc
    · exact Ctx.drained_inv hc (Ctx.queueRecords_inv hc)

theorem execEmit_inv {o : Ops} {node : BitVec 6} {regs : BitVec 4} {s : State} (hs : Inv s) : Goes (execEmit o node regs s) := by
  unfold execEmit
  refine withCtx_inv hs ?_
  intro c h
  dsimp only
  split
  · exact Ctx.next_inv h
  · split
    · exact Ctx.trap_inv h
    · exact Ctx.vector_inv h fun _ => Ctx.memory_inv h (Ctx.emit_inv (Ctx.spoil_inv h))

end Sys2Proof.Machine
end


section
/-!
Obligation O57, the canonical form of memory: completions of memory operations.
-/
namespace Sys2Proof.Machine

theorem State.noteChannel_inv {s : State} {core : Nat} {m : MemOp} (hs : Inv s) : Inv (s.noteChannel core m) := by
  unfold State.noteChannel
  exact Inv.ite (State.noteLines_inv hs) hs

theorem State.dropOp_inv {s : State} {core k : Nat} (hs : Inv s) : Inv (s.dropOp core k) := by
  unfold State.dropOp
  refine State.setCore_inv ?_
  split
  · exact State.noteChannel_inv hs
  · exact hs

theorem State.locateAll_inv {s : State} {r : Reader} {accs : List (Nat × Option DWord)} {n : Nat} (hs : Inv s) : Inv (s.locateAll r accs n).1 := by
  unfold State.locateAll
  refine Inv.foldl_fst hs ?_
  intro t a h
  split
  · exact h
  · split
    next he1 => exact Inv.of_fst he1 (State.locate_inv h)
    next he1 => exact Inv.of_fst he1 (State.locate_inv h)
    next he1 => exact Inv.of_fst he1 (State.locate_inv h)

theorem State.noteNc_inv {s : State} {core : Nat} {k : LineKey} (hs : Inv s) : Inv (s.noteNc core k) := by
  unfold State.noteNc
  extract_lets named c slot s1
  clear_value named
  have h1 : Inv s1 := by
    cases named with
    | none => exact hs
    | some cl => exact State.setCore_inv hs
  exact h1

theorem State.fillL1_inv {s : State} {core part : Nat} {bad : List Nat} {sent : List ByteWrite} {view : L1View} {ks : List LineKey} (hs : Inv s) :
    Inv (s.fillL1 core part bad sent view ks) := by
  unfold State.fillL1
  exact Inv.foldl hs fun t a h => Inv.ite (Inv.ite (State.noteNc_inv h) h) (Inv.ite (State.noteNc_inv h) h)

theorem State.dropBadL1_inv {s : State} {core : Nat} {ks : List LineKey} (hs : Inv s) : Inv (s.dropBadL1 core ks) := by
  unfold State.dropBadL1
  exact Inv.foldl hs fun _ _ h => h

theorem State.markFilling_inv {s : State} {core op : Nat} {ks : List LineKey} (hs : Inv s) : Inv (s.markFilling core op ks) := by
  unfold State.markFilling
  exact Inv.ite hs hs

/-- A read of lines that must wait, or that is done, keeps the canonical form. -/
def LanesKeep : State ⊕ ReadDone → Prop
  | .inl t => Inv t
  | .inr d => Inv d.s

theorem Inv.of_inl {x : State ⊕ ReadDone} {t : State} (he : x = .inl t) (h : LanesKeep x) : Inv t := by
  rw [he] at h
  exact h

theorem Inv.of_inr {x : State ⊕ ReadDone} {d : ReadDone} (he : x = .inr d) (h : LanesKeep x) : Inv d.s := by
  rw [he] at h
  exact h

theorem State.readLanes_inv {s : State} {r : Reader} {accs : List (Nat × Option DWord)} {n : Nat} {way : Option L1Way} (hs : Inv s) :
    LanesKeep (s.readLanes r accs n way) := by
  unfold State.readLanes
  split
  next s0 ls he =>
    have h0 : Inv s0 := Inv.of_fst he (State.locateAll_inv hs)
    split
    · exact h0
    · extract_lets locs keys s1 view absent
      have h1 : Inv s1 := Inv.ite (State.dropBadL1_inv h0) h0
      split
      next s2 outs he2 =>
        have h2 : Inv s2 := Inv.of_fst he2 (State.readyAll_inv h1)
        extract_lets sent
        split
        · exact State.markFilling_inv h2
        · exact Inv.ite (State.fillL1_inv h2) h2

theorem State.modOpWave_inv {s : State} {core : Nat} {m : MemOp} {g : Wave → Wave} (hs : Inv s) : Inv (s.modOpWave core m g) := by
  unfold State.modOpWave
  split
  · exact Inv.ite hs hs
  · exact hs

theorem State.wokenL1_inv {s : State} {core : Nat} {m : MemOp} (hs : Inv s) : Inv (s.wokenL1 core m) := by
  unfold State.wokenL1
  exact Inv.ite hs hs

theorem State.endOp_inv {s : State} {core : Nat} {m : MemOp} (hs : Inv s) : Inv (s.endOp core m) := by
  unfold State.endOp
  exact State.dropWalks_inv (State.noteChannel_inv hs)

theorem State.reserve_inv {s : State} {core : Nat} {m : MemOp} {lines : List (Nat × Nat)} (hs : Inv s) : Inv (s.reserve core m lines) := by
  unfold State.reserve
  exact State.modOpWave_inv hs

theorem State.finishLoad_inv {s : State} {core part : Nat} {m : MemOp} {dst : Opnd} {ty : Ty} {one : Bool} {cnt sub : Nat} {nc lr : Bool}
    {all : List (Nat × Option DWord)} (hs : Inv s) : Inv (s.finishLoad core part m dst ty one cnt sub nc lr all) := by
  unfold State.finishLoad
  extract_lets r n quiet accs
  split
  next he => exact Inv.of_inl he (State.readLanes_inv hs)
  next d he =>
    have hd : Inv d.s := Inv.of_inr he (State.readLanes_inv hs)
    split
    · exact State.endOp_inv hd
    · extract_lets s1 s2 lines c s3
      have h2 : Inv s2 := State.modOpWave_inv (State.wokenL1_inv hd)
      exact State.endOp_inv (State.draw_inv (Inv.ite (State.reserve_inv (State.setCore_inv h2)) h2))

theorem State.finishAcq_inv {s : State} {core part : Nat} {m : MemOp} {dst : Opnd} {addr : DWord} {scope : Scope} (hs : Inv s) :
    Inv (s.finishAcq core part m dst addr scope) := by
  unfold State.finishAcq
  split
  · exact hs
  · split
    next he => exact Inv.of_inl he (State.readLanes_inv hs)
    next d he =>
      extract_lets s1 s2 s3
      have h2 : Inv s2 := State.modOpWave_inv (State.wokenL1_inv (Inv.of_inr he (State.readLanes_inv hs)))
      have h3 : Inv s3 := by
        unfold s3
        split
        · exact Inv.ite (State.acquire_inv h2) h2
        · exact h2
      exact State.endOp_inv (State.draw_inv (Inv.ite (State.fenceWave_inv h3) h3))

theorem State.finishNode_inv {s : State} {core part : Nat} {m : MemOp} {dst : Opnd} {tri sort : Bool}
    {rays : List (Nat × Option DWord × List Word)} {poison : Mask} {org : Origin} {flips : Tab Flip} (hs : Inv s) :
    Inv (s.finishNode core part m dst tri sort rays poison org flips) := by
  unfold State.finishNode
  split
  next he => exact Inv.of_inl he (State.readLanes_inv hs)
  next he =>
    exact State.endOp_inv (State.draw_inv (State.modOpWave_inv (State.wokenL1_inv (Inv.of_inr he (State.readLanes_inv hs)))))

theorem State.finishVxm_inv {s : State} {core part : Nat} {m : MemOp} {dst : Opnd} {mode : Nat} {flush : Bool}
    {accs : List (Nat × Option DWord × List Word × List Word)} {poison : Mask} {org : Origin} {flips : Tab Flip} {iaddr : DWord}
    {word : BitVec 96} (hs : Inv s) : Inv (s.finishVxm core part m dst mode flush accs poison org flips iaddr word) := by
  unfold State.finishVxm
  split
  next he => exact Inv.of_inl he (State.readLanes_inv hs)
  next he =>
    have h1 := State.wokenL1_inv (core := core) (m := m) (Inv.of_inr he (State.readLanes_inv hs))
    exact State.endOp_inv (State.draw_inv (State.countAll_inv (State.modOpWave_inv h1)))

theorem State.loadDone_inv {s : State} {core k : Nat} (hs : Inv s) : Inv (s.loadDone core k) := by
  unfold State.loadDone
  dsimp only
  split
  · exact hs
  · split
    · exact hs
    · split
      · exact State.finishLoad_inv hs
      · exact State.finishAcq_inv hs
      · exact State.finishNode_inv hs
      · exact State.finishVxm_inv hs
      · exact hs

theorem execLoadCompletion_inv {core k : Nat} {s : State} (hs : Inv s) : Goes (execLoadCompletion core k s) := by
  unfold execLoadCompletion
  exact State.loadDone_inv hs

theorem State.peerProbe_inv {s : State} {core k : Nat} (hs : Inv s) : Inv (s.peerProbe core k) := by
  unfold State.peerProbe
  dsimp only
  split
  · exact hs
  · split
    · refine Inv.foldl hs ?_
      intro t a h
      split
      · exact h
      · refine Inv.foldl h ?_
        intro t a h1
        split
        · split
          · exact h1
          · exact h1
        · exact h1
    · exact hs

theorem execPeerProbe_inv {core k : Nat} {s : State} (hs : Inv s) : Goes (execPeerProbe core k s) := by
  unfold execPeerProbe
  exact State.peerProbe_inv hs

theorem execSpecialFunctionCompletion_inv {core k : Nat} {s : State} (hs : Inv s) : Goes (execSpecialFunctionCompletion core k s) := by
  unfold execSpecialFunctionCompletion
  refine Goes.next ?_
  split
  · split
    · exact State.dropOp_inv (State.countAll_inv (State.modOpWave_inv hs))
    · exact State.dropOp_inv (State.modOpWave_inv hs)
    · exact hs
  · exact hs

theorem State.settleL1_inv {s : State} {core : Nat} {bytes : List ByteWrite} {nt : Bool} (hs : Inv s) : Inv (s.settleL1 core bytes nt) := by
  unfold State.settleL1
  exact Inv.ite hs (Inv.ite hs hs)

theorem State.performAtom_inv {s : State} {core part k : Nat} {m : MemOp} {dst : Opnd} {t addr : Nat} {ty : Ty} {op : Option AOp} {fop : Option FAOp}
    {cmp : Option DWord} {data : DWord} {flush : Bool} {iaddr : DWord} {word : BitVec 96} (hs : Inv s) : Inv
    (s.performAtom core part k m dst t addr ty op fop cmp data flush iaddr word) := by
  unfold State.performAtom
  refine State.dropOp_inv ?_
  refine State.draw_inv ?_
  refine State.countAll_inv ?_
  refine State.modOpWave_inv ?_
  dsimp only
  split
  · exact State.performWrites_inv hs
  · exact State.touchLine_inv hs

theorem State.crossStore_inv {s : State} {bs : List ByteWrite} (hs : Inv s) : Inv (s.crossStore bs).1 := by
  unfold State.crossStore
  exact Inv.ite_fst hs (State.cross_inv hs)

theorem State.beforeAtom_inv {s : State} {core : Nat} {m : MemOp} {line : Nat} (hs : Inv s) : InvSome (s.beforeAtom core m line) := by
  unfold State.beforeAtom
  exact InvSome.ite hs (InvSome.ite (State.wantLine_inv hs) (InvSome.ite trivial (State.askGuests_inv hs)))

theorem State.storeDone_inv {s : State} {core k : Nat} (hs : Inv s) : Inv (s.storeDone core k) := by
  unfold State.storeDone
  dsimp only
  split
  · exact hs
  · split
    · exact hs
    · split
      · exact Inv.ite (State.settleL1_inv (State.dropOp_inv (State.performWrites_inv (State.crossStore_inv hs)))) (State.askGuests_inv hs)
      · split
        next he3 => exact Inv.of_some he3 (State.beforeAtom_inv hs)
        · exact State.performAtom_inv hs
      · split
        next he3 => exact Inv.of_some he3 (State.beforeAtom_inv hs)
        · exact State.dropOp_inv (State.modOpWave_inv (Inv.ite (State.performWrites_inv hs) hs))
      · exact hs

theorem execStorePerformed_inv {core k : Nat} {s : State} (hs : Inv s) : Goes (execStorePerformed core k s) := by
  unfold execStorePerformed
  exact State.storeDone_inv hs

theorem State.remoteDone_inv {s : State} {core k : Nat} (hs : Inv s) : Inv (s.remoteDone core k) := by
  unfold State.remoteDone
  dsimp only
  split
  · exact hs
  · split
    · split
      · exact hs
      · split
        · exact State.dropOp_inv hs
        · exact State.dropOp_inv hs
    · exact Inv.ite hs (State.dropOp_inv (State.modOpWave_inv (Inv.ite hs hs)))
    · exact hs

theorem execRemoteScratchpadStore_inv {core k : Nat} {s : State} (hs : Inv s) : Goes (execRemoteScratchpadStore core k s) := by
  unfold execRemoteScratchpadStore
  exact State.remoteDone_inv hs

theorem execInboundCredit_inv {core k : Nat} {s : State} (hs : Inv s) : Goes (execInboundCredit core k s) := by
  unfold execInboundCredit
  refine Goes.next ?_
  dsimp only
  split
  · exact State.setBar_inv hs
  · exact hs

end Sys2Proof.Machine
end


section
/-!
Obligation O57, the canonical form of memory: the fabric and images.
-/
namespace Sys2Proof.Machine

/-! ### Fabric events -/

theorem State.arrive_inv {s : State} {slice part n : Nat} (hs : Inv s) : Inv (s.arrive slice part n) := by
  unfold State.arrive
  dsimp only
  split
  next he => exact State.freeSlot_inv (Inv.of_some he (InvSome.ite (State.modLine_inv hs) (State.enter_inv hs)))
  · exact hs

theorem State.readDone_inv {s : State} {k : LineKey} {x : Nat × MissSlot} {victim : Option Held} (hs : Inv s) : Inv (s.readDone k x victim) := by
  unfold State.readDone
  dsimp only
  split
  · exact Inv.ite hs (State.arrive_inv (State.victimAge_inv (State.makeRoom_inv hs)))
  · split
    · split
      · exact hs
      · split
        next he2 => exact State.victimAge_inv (Inv.of_some he2 (State.placeGen_inv (State.makeRoom_inv hs)))
        · exact hs
    · exact hs

theorem State.lowerRead_inv {s : State} {line : Nat} {victim : Option Held} (hs : Inv s) : Inv (s.lowerRead line victim) := by
  unfold State.lowerRead
  exact Inv.foldl hs fun t a h => State.readDone_inv h

theorem execLowerTierRead_inv {line : Nat} {victim : Option Nat} {s : State} (hs : Inv s) : Goes (execLowerTierRead line victim s) := by
  unfold execLowerTierRead
  exact State.lowerRead_inv hs

theorem State.flashRead_inv {s : State} {page part : Nat} {good : Bool} (hs : Inv s) : Inv (s.flashRead page part good) := by
  unfold State.flashRead
  exact Inv.ite hs (Inv.ite (Inv.foldl (Inv.foldl hs (fun t a h => State.victimPut_inv h)) (fun t a h => State.arrive_inv h)) (State.record_inv
    (Inv.foldl hs (fun _ _ h => h))))

theorem execFlashPageRead_inv {page part : Nat} {good : Bool} {s : State} (hs : Inv s) : Goes (execFlashPageRead page part good s) := by
  unfold execFlashPageRead
  exact State.flashRead_inv hs

theorem execAgeSweep_inv {slice : Nat} {s : State} (hs : Inv s) : Goes (execAgeSweep slice s) := hs

theorem State.grantTo_inv {s : State} {slice : Nat} {w : MissWait} (hs : Inv s) : InvSome (s.grantTo slice w) := by
  unfold State.grantTo
  dsimp only
  split
  · exact InvSome.ite hs (State.readSlot_inv hs)
  · split
    · exact hs
    · exact InvSome.ite hs (InvSome.ite (State.readSlot_inv hs) (InvSome.ite hs (State.openTask_inv hs)))

theorem State.grantSlot_inv {s : State} {slice depth : Nat} (hs : Inv s) : Inv (s.grantSlot slice depth) := by
  unfold State.grantSlot
  dsimp only
  split
  · exact hs
  · exact Inv.ite hs (Inv.getD (State.grantTo_inv hs) hs)

theorem execMissSlotGrant_inv {slice depth : Nat} {s : State} (hs : Inv s) : Goes (execMissSlotGrant slice depth s) := by
  unfold execMissSlotGrant
  exact State.grantSlot_inv hs

theorem State.fillGuest_inv {s : State} {copy : LineKey} {sector : Nat} (hs : Inv s) : InvSome (s.fillGuest copy sector) := by
  unfold State.fillGuest
  exact InvSome.map (State.makeSpace?_inv hs) fun t h => Inv.ite h h

theorem execGuestCopyFill_inv {line sector : Nat} {s : State} (hs : Inv s) : Goes (execGuestCopyFill line sector s) := by
  unfold execGuestCopyFill
  exact Inv.ite (Inv.getD (State.fillGuest_inv hs) hs) hs

theorem execGuestInvalidation_inv {line sector : Nat} {s : State} (hs : Inv s) : Goes (execGuestInvalidation line sector s) := by
  unfold execGuestInvalidation
  exact Inv.ite (State.clearGuest_inv hs) hs

theorem State.setAge_inv {s : State} {part : Nat} {k : LineKey} {a : Nat} (hs : Inv s) : Inv (s.setAge part k a) := by
  unfold State.setAge
  dsimp only
  split
  · split
    · exact State.victimAge_inv hs
    · exact State.victimAge_inv hs
  · split
    · exact State.victimAge_inv hs
    · exact State.victimAge_inv hs

theorem State.unpin_inv {s : State} {part : Nat} {k : LineKey} (hs : Inv s) : Inv (s.unpin part k) := by
  unfold State.unpin
  exact Inv.ite hs hs

theorem State.promoteHost_inv {s : State} {part l : Nat} (hs : Inv s) : Inv (s.promoteHost part l) := by
  unfold State.promoteHost
  exact State.victimPut_inv hs

theorem State.demoteHost_inv {s : State} {part l : Nat} (hs : Inv s) : Inv (s.demoteHost part l) := by
  unfold State.demoteHost
  exact Inv.ite hs (State.dropLine_inv hs)

theorem State.promoteLine_inv {s : State} {r : Reader} {llc : Bool} {k : LineKey} (hs : Inv s) : Inv (s.promoteLine r llc k).1 := by
  unfold State.promoteLine
  dsimp only
  split
  · split
    · split
      · exact Inv.ite (State.setAge_inv (State.promoteHost_inv hs)) (State.promoteHost_inv hs)
      · split
        next he2 => exact Inv.of_some he2 (State.enter_inv (State.promoteHost_inv hs))
        · exact State.promoteHost_inv hs
    · split
      · split
        next he2 => exact Inv.ite (State.victimPut_inv (Inv.of_fst he2 (State.lineReady_inv hs))) (Inv.of_fst he2 (State.lineReady_inv hs))
        next he3 => exact Inv.of_fst he3 (State.lineReady_inv hs)
      · exact hs
  · split
    · exact hs
    · split
      · exact State.setAge_inv hs
      · split
        · exact Inv.ite_fst (State.wantCopy_inv hs) hs
        · exact hs

theorem State.dontneedLine_inv {s : State} {part : Nat} {k : LineKey} (hs : Inv s) : Inv (s.dontneedLine part k) := by
  unfold State.dontneedLine
  dsimp only
  split
  · exact Inv.ite (State.setAge_inv (State.dropCopies_inv (State.unpin_inv hs))) (State.demoteHost_inv (State.dropLine_inv (State.setAge_inv
      (State.dropCopies_inv (State.unpin_inv hs)))))
  · split
    · exact Inv.ite (State.dropCopies_inv (State.unpin_inv hs)) (State.dropCopies_inv (State.unpin_inv hs))
    · exact State.dropCopies_inv (State.unpin_inv hs)

theorem State.hintLine_inv {s : State} {r : Reader} {h : Hint} {k : LineKey} (hs : Inv s) : Inv (s.hintLine r h k).1 := by
  unfold State.hintLine
  dsimp only
  split
  · exact hs
  · split
    · exact State.promoteLine_inv hs
    · exact State.promoteLine_inv hs
    · dsimp only
      split
      · exact State.demoteHost_inv (State.setAge_inv (State.unpin_inv hs))
      · exact State.setAge_inv (State.unpin_inv hs)
    · exact hs
    · exact State.dontneedLine_inv hs

theorem State.pinPage_inv {s : State} {part : Nat} {ks : List LineKey} (hs : Inv s) : Inv (s.pinPage part ks).1 := by
  unfold State.pinPage
  exact Inv.ite_fst hs hs

theorem HintRun.page_inv {x : HintRun} {r : Reader} {h : Hint} {first : Nat} (hx : Inv x.s) : Inv (x.page r h first).s := by
  unfold HintRun.page
  dsimp only
  split
  · exact hx
  · split
    · exact hx
    · split
      · exact Inv.ite_fst (Inv.ite (State.touchWalk_inv hx) hx) (State.pinPage_inv (Inv.ite (State.touchWalk_inv hx) hx))
      · split
        · split
          · exact Inv.foldl_fst (State.touchWalk_inv hx) fun t a h1 => State.hintLine_inv h1
          · exact Inv.foldl_fst (State.touchWalk_inv hx) fun t a h1 => State.hintLine_inv h1
        · split
          · exact Inv.foldl_fst hx fun t a h1 => State.hintLine_inv h1
          · exact Inv.foldl_fst hx fun t a h1 => State.hintLine_inv h1

theorem State.runHint_inv {s : State} {core : Nat} (hs : Inv s) : Inv (s.runHint core) := by
  unfold State.runHint
  split
  · exact hs
  next e rest _ =>
    split
    · exact hs
    · extract_lets r first n x c
      have hx : Inv x.s := List.foldlRecOn (List.range (n - e.kind.at_)) _ (motive := fun y : HintRun => Inv y.s) hs
        fun y hy _ _ => HintRun.page_inv hy
      split
      · exact State.setCore_inv hx
      · exact State.opDone_inv (State.setCore_inv hx)

theorem execTierHintOperation_inv {core : Nat} {s : State} (hs : Inv s) : Goes (execTierHintOperation core s) := by
  unfold execTierHintOperation
  exact State.runHint_inv hs

theorem State.rebalance_inv {s : State} {sector : Nat} (hs : Inv s) : Inv (s.rebalance sector) := by
  unfold State.rebalance
  dsimp only
  split
  · split
    · exact hs
    · split
      · exact hs
      · exact hs
  · exact hs

theorem execRebalanceEpoch_inv {sector : Nat} {s : State} (hs : Inv s) : Goes (execRebalanceEpoch sector s) := by
  unfold execRebalanceEpoch
  exact Inv.ite (State.rebalance_inv hs) hs

theorem State.flushBucket_inv {s : State} {part b slice : Nat} {stays : Nat × Line → Bool} (hs : Inv s) : Inv (s.flushBucket part b slice stays) := by
  unfold State.flushBucket
  exact Inv.foldl (Inv.foldl (Inv.foldl hs (fun t a h => State.dropCopies_inv h)) (fun t a h => State.dropCopies_inv h)) fun t a h => Inv.ite h
    (State.dropLine_inv h)

theorem State.moveBucket_inv {s : State} {b : Nat} (hs : Inv s) : Inv (s.moveBucket b) := by
  unfold State.moveBucket
  dsimp only
  split
  · exact Inv.ite hs (Inv.getD (InvSome.map (InvSome.foldl (InvSome.foldl (Inv.foldl (State.flushBucket_inv hs) (fun _ _ h => h)) (fun t a h =>
      InvSome.bind h (fun t h1 => InvSome.map (State.makeSpace?_inv h1) (fun _ h2 => h2)))) (fun t a h => InvSome.bind h (fun t h1 =>
      State.placeGen_inv h1))) (fun _ h => h)) hs)
  · exact hs

theorem execBucketMove_inv {bucket : Nat} {s : State} (hs : Inv s) : Goes (execBucketMove bucket s) := by
  unfold execBucketMove
  exact State.moveBucket_inv hs

theorem execBucketMoveAbandon_inv {bucket : Nat} {s : State} (hs : Inv s) : Goes (execBucketMoveAbandon bucket s) := by
  unfold execBucketMoveAbandon
  exact Inv.ite hs hs

theorem State.transmit_inv {s : State} {from_ : Option Nat} {quad off bar : Nat} {pieces : List (Nat × List Byte × Bool × Nat)}
    {reqs : List (Nat × Nat × BitVec 16)} (hs : Inv s) : Inv (s.transmit from_ quad off bar pieces reqs) := by
  unfold State.transmit
  exact Inv.foldl hs fun _ _ h => h

theorem State.mergeAt_inv {s : State} {slice : Nat} {m : Merge} (hs : Inv s) : Inv (s.mergeAt slice m) := by
  unfold State.mergeAt
  dsimp only
  split
  · exact hs
  · exact hs

theorem State.multicast_inv {s : State} {core k : Nat} (hs : Inv s) : Inv (s.multicast core k) := by
  unfold State.multicast
  dsimp only
  split
  · exact hs
  · split
    · exact Inv.ite hs (Inv.ite (Inv.foldl_fst hs (fun t a h => State.locate_inv h)) (Inv.ite (Inv.foldl_fst hs (fun t a h => State.locate_inv h))
        (Inv.foldl (Inv.ite (Inv.foldl_fst hs (fun t a h => State.locate_inv h)) (State.transmit_inv (Inv.foldl_fst hs (fun t a h =>
        State.locate_inv h)))) (fun t a h => State.mergeAt_inv h))))
    · exact hs

theorem execMulticastRequest_inv {core k : Nat} {s : State} (hs : Inv s) : Goes (execMulticastRequest core k s) := by
  unfold execMulticastRequest
  exact State.multicast_inv hs

theorem State.renewPiece_inv {s : State} {r : Reader} {src : DWord} {x : Piece} (hs : Inv s) : Inv (s.renewPiece r src x).1 := by
  unfold State.renewPiece
  split
  · exact hs
  · split
    · exact hs
    · split
      next he2 => exact Inv.of_fst he2 (State.locate_inv hs)
      next he2 => exact Inv.of_fst he2 (State.locate_inv hs)
      next he4 => exact Inv.of_fst he4 (State.locate_inv hs)

theorem State.sendMerge_inv {s : State} {slice k : Nat} {phase : MergePhase} {count : Slice → Slice} (hs : Inv s) :
    Inv (s.sendMerge slice k phase count) := by
  unfold State.sendMerge
  dsimp only
  split
  · exact hs
  · exact Inv.ite hs (Inv.ite (State.readyAll_inv (Inv.foldl_fst hs (fun t a h => State.renewPiece_inv h))) (State.transmit_inv (State.readyAll_inv
      (Inv.foldl_fst hs (fun t a h => State.renewPiece_inv h)))))

theorem execMergedResponse_inv {slice k : Nat} {s : State} (hs : Inv s) : Goes (execMergedResponse slice k s) := by
  unfold execMergedResponse
  exact State.sendMerge_inv hs

theorem execFollowupTransmission_inv {slice k : Nat} {s : State} (hs : Inv s) : Goes (execFollowupTransmission slice k s) := by
  unfold execFollowupTransmission
  exact State.sendMerge_inv hs

theorem execMergeEntryClose_inv {slice k : Nat} {s : State} (hs : Inv s) : Goes (execMergeEntryClose slice k s) := by
  unfold execMergeEntryClose
  refine Goes.next ?_
  dsimp only
  split
  · exact Inv.ite hs hs
  · exact hs

theorem State.ldmcFail_inv {s : State} {core op : Nat} {f : Option (Nat × Nat)} (hs : Inv s) : Inv (s.ldmcFail core op f) := by
  unfold State.ldmcFail
  dsimp only
  split
  · exact hs
  · exact hs

theorem State.ldmcEnd_inv {s : State} {core op d : Nat} (hs : Inv s) : Inv (s.ldmcEnd core op d) := by
  unfold State.ldmcEnd
  dsimp only
  split
  · split
    · exact hs
    · split
      · exact hs
      · split
        · exact State.endOp_inv (Inv.ite (State.modOpWave_inv hs) (State.modOpWave_inv hs))
        · exact hs
  · split
    · exact hs
    · split
      · exact hs
      · split
        · exact State.endOp_inv (Inv.ite (State.modOpWave_inv hs) (State.modOpWave_inv hs))
        · exact hs

theorem State.deliver_inv {s : State} {d k : Nat} (hs : Inv s) : Inv (s.deliver d k) := by
  unfold State.deliver
  dsimp only
  split
  · exact hs
  · exact Inv.ite hs (Inv.foldl (Inv.foldl hs (fun t _ h => Inv.ite h h)) (fun t a h => State.ldmcEnd_inv (State.ldmcFail_inv h)))

theorem execLdmcDelivery_inv {core k : Nat} {s : State} (hs : Inv s) : Goes (execLdmcDelivery core k s) := by
  unfold execLdmcDelivery
  exact State.deliver_inv hs

/-! ### Images -/

theorem State.frontLine_inv {s : State} {r : Reader} {k : LineKey} (hs : Inv s) : Inv (s.frontLine r k).1 := by
  unfold State.frontLine
  split
  · split
    · exact State.lineReady_inv hs
    · split
      · exact hs
      · split
        next he2 => exact Inv.of_some he2 (State.touchLine?_inv hs)
        · exact hs
  · exact State.lineReady_inv hs

theorem State.frontRead_inv {s : State} {r0 : Reader} {va : DWord} {n : Nat} (hs : Inv s) : Inv (s.frontRead r0 va n).1 := by
  unfold State.frontRead
  dsimp only
  split
  next he => exact Inv.of_fst he (State.locate_inv hs)
  next he => exact State.dropWalks_inv (Inv.of_fst he (State.locate_inv hs))
  next t _ he =>
    exact Inv.ite_fst (Inv.foldl_fst (Inv.of_fst he (State.locate_inv hs)) (fun t a h => State.frontLine_inv h)) (Inv.ite_fst (State.dropWalks_inv
      (Inv.foldl_fst (Inv.of_fst he (State.locate_inv hs)) (fun t a h => State.frontLine_inv h))) (State.dropWalks_inv (Inv.foldl_fst (Inv.of_fst he
      (State.locate_inv hs)) (fun t a h => State.frontLine_inv h))))

theorem State.frontWrite_inv {s : State} {r : Reader} {va : DWord} {bs : List Byte} (hs : Inv s) : Inv (s.frontWrite r va bs).1 := by
  unfold State.frontWrite
  dsimp only
  split
  next he => exact Inv.of_fst he (State.locate_inv hs)
  next he => exact State.dropWalks_inv (Inv.of_fst he (State.locate_inv hs))
  next t _ he =>
    exact Inv.ite_fst (State.dropWalks_inv (Inv.of_fst he (State.locate_inv hs))) (Inv.ite_fst (Inv.of_fst he (State.locate_inv hs))
      (State.performWrites_inv (Inv.foldl (State.dropWalks_inv (Inv.of_fst he (State.locate_inv hs))) (fun t a h => State.dropGuests_inv h))))

theorem State.readGraph_inv {s : State} {r : Reader} {va : DWord} (hs : Inv s) : Inv (s.readGraph r va).1 := by
  unfold State.readGraph
  dsimp only
  split
  next he => exact Inv.of_fst he (State.frontRead_inv hs)
  next he => exact Inv.of_fst he (State.frontRead_inv hs)
  next he =>
    split
    next he1 => exact Inv.of_fst he1 (State.frontRead_inv (Inv.of_fst he (State.frontRead_inv hs)))
    next he1 => exact Inv.of_fst he1 (State.frontRead_inv (Inv.of_fst he (State.frontRead_inv hs)))
    next he1 => exact Inv.of_fst he1 (State.frontRead_inv (Inv.of_fst he (State.frontRead_inv hs)))

theorem State.readTeams_inv {s : State} {r : Reader} {va : DWord} {h : Header} (hs : Inv s) : Inv (s.readTeams r va h).1 := by
  unfold State.readTeams
  split
  · exact hs
  · split
    next he1 => exact Inv.of_fst he1 (State.frontRead_inv hs)
    next he1 => exact Inv.of_fst he1 (State.frontRead_inv hs)
    next he1 => exact Inv.of_fst he1 (State.frontRead_inv hs)

theorem State.readLaunch_inv {s : State} {r : Reader} {va : DWord} {saves : Bool} (hs : Inv s) : Inv (s.readLaunch r va saves).1 := by
  unfold State.readLaunch
  dsimp only
  split
  next he => exact Inv.of_fst he (State.frontRead_inv hs)
  next he => exact Inv.of_fst he (State.frontRead_inv hs)
  next he =>
    split
    · split
      next he3 =>
        exact Inv.of_fst he3 (Inv.ite_fst (Inv.of_fst he (State.frontRead_inv hs)) (State.frontRead_inv (Inv.of_fst he (State.frontRead_inv hs))))
      next he3 =>
        exact Inv.of_fst he3 (Inv.ite_fst (Inv.of_fst he (State.frontRead_inv hs)) (State.frontRead_inv (Inv.of_fst he (State.frontRead_inv hs))))
      next he3 =>
        split
        next he4 =>
          exact Inv.of_fst he4 (State.readTeams_inv (Inv.of_fst he3 (Inv.ite_fst (Inv.of_fst he (State.frontRead_inv hs)) (State.frontRead_inv
            (Inv.of_fst he (State.frontRead_inv hs))))))
        next he4 =>
          exact Inv.of_fst he4 (State.readTeams_inv (Inv.of_fst he3 (Inv.ite_fst (Inv.of_fst he (State.frontRead_inv hs)) (State.frontRead_inv
            (Inv.of_fst he (State.frontRead_inv hs))))))
        next he4 =>
          split
          · exact Inv.of_fst he4 (State.readTeams_inv (Inv.of_fst he3 (Inv.ite_fst (Inv.of_fst he (State.frontRead_inv hs)) (State.frontRead_inv
              (Inv.of_fst he (State.frontRead_inv hs))))))
          · split
            next he6 =>
              exact Inv.of_fst he6 (State.readGraph_inv (Inv.of_fst he4 (State.readTeams_inv (Inv.of_fst he3 (Inv.ite_fst (Inv.of_fst he
                (State.frontRead_inv hs)) (State.frontRead_inv (Inv.of_fst he (State.frontRead_inv hs))))))))
            next he6 =>
              exact Inv.of_fst he6 (State.readGraph_inv (Inv.of_fst he4 (State.readTeams_inv (Inv.of_fst he3 (Inv.ite_fst (Inv.of_fst he
                (State.frontRead_inv hs)) (State.frontRead_inv (Inv.of_fst he (State.frontRead_inv hs))))))))
            next he6 =>
              exact Inv.of_fst he6 (State.readGraph_inv (Inv.of_fst he4 (State.readTeams_inv (Inv.of_fst he3 (Inv.ite_fst (Inv.of_fst he
                (State.frontRead_inv hs)) (State.frontRead_inv (Inv.of_fst he (State.frontRead_inv hs))))))))
    · exact Inv.of_fst he (State.frontRead_inv hs)

end Sys2Proof.Machine
end


section
/-!
Obligation O57, the canonical form of memory: launches, graphs and walks.
-/
namespace Sys2Proof.Machine

/-! ### Launches and teams -/

theorem execFairnessTimerExpiry_inv {core slot : Nat} {s : State} (hs : Inv s) : Goes (execFairnessTimerExpiry core slot s) := by
  unfold execFairnessTimerExpiry
  refine Goes.next ?_
  split
  · exact Inv.ite (State.endTurn_inv hs) hs
  · exact hs

theorem execExceptionWindowRestart_inv {core : Nat} {s : State} (hs : Inv s) : Goes (execExceptionWindowRestart core s) := hs

theorem execBlockGrant_inv {core pool : Nat} {s : State} (hs : Inv s) : Goes (execBlockGrant core pool s) := by
  unfold execBlockGrant
  refine Goes.next ?_
  dsimp only
  split
  · exact Inv.ite (State.modWave_inv hs) (Inv.ite (State.settle_inv (State.modWave_inv (State.takeBlocks_inv hs))) hs)
  · exact hs

theorem State.createMany_inv {s : State} {core : Nat} {ns : List NewWave} (hs : Inv s) : Inv (s.createMany core ns) := by
  unfold State.createMany
  refine Inv.foldl hs ?_
  intro t a h
  split
  · exact h
  · exact h

theorem execWaveCreation_inv {core : Nat} {s : State} (hs : Inv s) : Goes (execWaveCreation core s) := by
  unfold execWaveCreation
  refine Goes.next ?_
  dsimp only
  split
  · exact hs
  · exact Inv.ite (State.createMany_inv hs) hs

theorem State.createFiller_inv {s : State} {part depth core : Nat} (hs : Inv s) : Inv (s.createFiller part depth core) := by
  unfold State.createFiller
  dsimp only
  split
  · exact hs
  · split
    · exact hs
    · split
      · exact hs
      · split
        · exact hs
        · exact hs

theorem execFillerCreation_inv {part depth core : Nat} {s : State} (hs : Inv s) : Goes (execFillerCreation part depth core s) := by
  unfold execFillerCreation
  exact State.createFiller_inv hs

theorem State.placeTeam_inv {s : State} {l : Launch} {core : Nat} (hs : Inv s) : Inv (s.placeTeam l core) := by
  unfold State.placeTeam
  exact Inv.ite (State.createMany_inv (State.createMany_inv (Inv.foldl hs (fun _ _ h => h)))) (State.createMany_inv (Inv.foldl hs (fun _ _ h => h)))

theorem State.restoreTeam_inv {s : State} {t : Team} {core : Nat} (hs : Inv s) : Inv (s.restoreTeam t core) := by
  unfold State.restoreTeam
  exact Inv.foldl hs fun _ _ h => h

theorem State.addSaved_inv {s : State} {l : Launch} {ts : List SavedTeam} (hs : Inv s) : Inv (s.addSaved l ts) := by
  unfold State.addSaved
  exact Inv.ite hs (Inv.foldl hs (fun _ _ h => h))

theorem State.placeOne_inv {s : State} {id core : Nat} (hs : Inv s) : Inv (s.placeOne id core) := by
  unfold State.placeOne
  split
  · exact hs
  · split
    · exact hs
    · split
      · exact State.restoreTeam_inv hs
      · exact State.placeTeam_inv hs

theorem State.placeAll_inv {s : State} {id core : Nat} (hs : Inv s) : Inv (s.placeAll id core) := by
  unfold State.placeAll
  dsimp only
  split
  · exact hs
  · exact Inv.foldl hs fun t a h => State.placeOne_inv h

theorem State.place_inv {s : State} {id core : Nat} (hs : Inv s) : Inv (s.place id core) := by
  unfold State.place
  dsimp only
  split
  · exact hs
  · exact Inv.ite hs (Inv.ite (Inv.ite (Inv.ite (State.placeAll_inv hs) hs) (State.placeOne_inv hs)) (Inv.ite (Inv.ite (State.placeAll_inv hs) hs)
      (State.placeOne_inv hs)))

theorem execTeamPlacement_inv {launch core : Nat} {s : State} (hs : Inv s) : Goes (execTeamPlacement launch core s) := by
  unfold execTeamPlacement
  exact State.place_inv hs

theorem State.takeBack_inv {s : State} {core : Nat} (hs : Inv s) : Inv (s.takeBack core) := by
  unfold State.takeBack
  exact Inv.foldl hs fun t a h => State.abortOps_inv h

theorem State.saveHalf_inv {s0 : State} {core : Nat} (hs0 : Inv s0) : Inv (s0.saveHalf core).1 := by
  unfold State.saveHalf
  exact Inv.foldl (Inv.foldl (State.takeBack_inv hs0) (fun t a h => State.dropWalks_inv h)) fun t a h => State.dropWalks_inv h

theorem State.saveTeam_inv {s : State} {t : Team} (hs : Inv s) : Inv (s.saveTeam t) := by
  unfold State.saveTeam
  exact Inv.foldl_fst hs fun t a h => State.saveHalf_inv h

theorem State.writeSave_inv {s : State} {l : Launch} (hs : Inv s) : Inv (s.writeSave l).1 := by
  unfold State.writeSave
  refine Inv.foldl_fst hs ?_
  intro t a h
  split
  · exact h
  · split
    next he1 => exact Inv.of_fst he1 (State.frontWrite_inv h)
    next he2 => exact Inv.of_fst he2 (State.frontWrite_inv h)

theorem State.preempt_inv {s : State} {team : Nat} (hs : Inv s) : Inv (s.preempt team) := by
  unfold State.preempt
  dsimp only
  split
  · exact hs
  · split
    · exact hs
    · split
      · exact hs
      · exact Inv.ite (Inv.foldl (State.writeSave_inv hs) (fun t a h => State.saveTeam_inv h)) (State.writeSave_inv hs)

theorem execTeamPreemption_inv {team : Nat} {s : State} (hs : Inv s) : Goes (execTeamPreemption team s) := by
  unfold execTeamPreemption
  exact State.preempt_inv hs

/-! ### Graphs -/

theorem State.setGraph_inv {s : State} {core : Nat} {g : Graph} (hs : Inv s) : Inv (s.setGraph core g) := hs

theorem State.startEngine_inv {s : State} {core : Nat} {l : Launch} {n : Node} (hs : Inv s) : (s.startEngine core l n).Keeps := by
  unfold State.startEngine
  extract_lets c x k
  clear_value c x
  split
  · split
    · trivial
    · split
      · trivial
      · exact hs
  · split
    · trivial
    · split
      · trivial
      · exact State.setCore_inv hs
  · split
    · split
      · trivial
      · split
        · trivial
        · exact State.setCore_inv hs
    · trivial

theorem State.startTeams_inv {s : State} {core : Nat} {l : Launch} {n : Node} {i : Image} (hs : Inv s) : Inv (s.startTeams core l n i) := by
  unfold State.startTeams
  exact Inv.foldl hs fun _ _ h => h

theorem State.startNode_inv {s : State} {core : Nat} (hs : Inv s) : Inv (s.startNode core) := by
  unfold State.startNode
  dsimp only
  split
  · exact hs
  · split
    · split
      · exact hs
      · split
        · split
          · exact hs
          next he5 => exact State.fresh_inv (State.setCore_inv (Inv.of_going he5 (State.startEngine_inv hs)))
          · exact hs
        · split
          next he5 => exact Inv.of_fst he5 (State.readLaunch_inv hs)
          next he5 => exact State.setCore_inv (Inv.of_fst he5 (State.readLaunch_inv hs))
          next he5 =>
            exact Inv.ite (State.startTeams_inv (State.setCore_inv (Inv.of_fst he5 (State.readLaunch_inv hs)))) (State.setCore_inv (Inv.of_fst he5
              (State.readLaunch_inv hs)))
        · exact hs
    · exact hs

theorem execGraphNodeStart_inv {core : Nat} {s : State} (hs : Inv s) : Goes (execGraphNodeStart core s) := by
  unfold execGraphNodeStart
  exact State.startNode_inv hs

theorem State.completeNode_inv {s : State} {core : Nat} (hs : Inv s) : Inv (s.completeNode core) := by
  unfold State.completeNode
  dsimp only
  split
  · exact hs
  · split
    · exact hs
    · exact Inv.ite hs hs

theorem execGraphNodeCompletion_inv {core : Nat} {s : State} (hs : Inv s) : Goes (execGraphNodeCompletion core s) := by
  unfold execGraphNodeCompletion
  exact State.completeNode_inv hs

theorem State.launchRecords_inv {s : State} {core node : Nat} (hs : Inv s) : Inv (s.launchRecords core node) := by
  unfold State.launchRecords
  split
  · exact hs
  · split
    next n l _ _ =>
      extract_lets rs
      split
      · exact hs
      · have h1 := State.readLaunch_inv (r := s.frontReader l.part (walkerKey core)) (va := nodeArg0 n) (saves := false) hs
        split
        next he => exact Inv.of_fst he h1
        next he => exact State.setGraph_inv (Inv.of_fst he h1)
        next he =>
          have h2 := Inv.of_fst he h1
          exact h2
    · exact hs

theorem execRecordWaveLaunch_inv {core node : Nat} {s : State} (hs : Inv s) : Goes (execRecordWaveLaunch core node s) := by
  unfold execRecordWaveLaunch
  exact State.launchRecords_inv hs

theorem State.graphDone_inv {s : State} {core : Nat} (hs : Inv s) : Inv (s.graphDone core) := by
  unfold State.graphDone
  dsimp only
  split
  · exact hs
  · split
    · exact hs
    · split
      · exact Inv.ite (State.endTeam_inv hs) hs
      · exact hs

theorem execGraphCompletion_inv {core : Nat} {s : State} (hs : Inv s) : Goes (execGraphCompletion core s) := by
  unfold execGraphCompletion
  exact State.graphDone_inv hs

/-! ### Walks and migrations -/

theorem State.openToken_inv {s t : State} {w v : Walk} {level cls : Nat} {entry : DWord} (hs : Inv s)
    (h : s.openToken w level cls entry = some (t, v)) : Inv t := by
  unfold State.openToken at h
  dsimp only at h
  split at h
  · cases h
    exact hs
  · split at h
    · split at h
      · cases h
      · cases h
        exact Inv.ite (State.irq_inv (State.setPart_inv (State.writePhys_inv hs))) (State.setPart_inv (State.writePhys_inv hs))
    · cases h
      exact hs

theorem State.replaceWalk_inv {s : State} {sector : Nat} {w : Walk} {v : Option Walk} (hs : Inv s) : Inv (s.replaceWalk sector w v) := hs

theorem State.walkOne_inv {s0 : State} {sector : Nat} {w : Walk} (hs : Inv s0) : Inv (s0.walkOne sector w) := by
  unfold State.walkOne
  split
  · exact hs
  · have ht : Inv (s0.touchWalk w.part w.va) := State.touchWalk_inv hs
    extract_lets s
    split
    · exact State.replaceWalk_inv (State.fillTlb_inv ht)
    · extract_lets fail
      have hf : Inv fail := State.replaceWalk_inv ht
      split
      · split
        · exact State.replaceWalk_inv ht
        · split
          · exact hf
          · split
            next he => exact State.replaceWalk_inv (State.openToken_inv ht he)
            · exact ht
      · split
        · exact State.record_inv hf
        · exact hf

theorem State.walkStep_inv {s : State} {sector walker : Nat} (hs : Inv s) : Inv (s.walkStep sector walker) := by
  unfold State.walkStep
  exact Inv.ite hs (Inv.ite (Inv.foldl hs (fun _ _ h => h)) (Inv.foldl hs (fun t a h => State.walkOne_inv h)))

theorem execPageTableWalk_inv {sector k : Nat} {s : State} (hs : Inv s) : Goes (execPageTableWalk sector k s) := by
  unfold execPageTableWalk
  exact State.walkStep_inv hs

theorem State.endToken_inv {s : State} {part : Nat} {token : BitVec 32} {abort : Bool} (hs : Inv s) : Inv (s.endToken part token abort) := by
  unfold State.endToken
  exact Inv.ite hs hs

theorem execFaultResume_inv {part : Nat} {token : BitVec 32} {s : State} (hs : Inv s) : Goes (execFaultResume part token s) := by
  unfold execFaultResume
  exact State.endToken_inv hs

theorem execFaultAbort_inv {part : Nat} {token : BitVec 32} {s : State} (hs : Inv s) : Goes (execFaultAbort part token s) := by
  unfold execFaultAbort
  exact State.endToken_inv hs

theorem State.dropAllTlb_inv {s : State} {part lo hi : Nat} (hs : Inv s) : Inv (s.dropAllTlb part lo hi) := hs

theorem State.endMigration_inv {s : State} {part result : Nat} (hs : Inv s) : Inv (s.endMigration part result) := hs

theorem State.migrateLine_inv {s : State} {r : Reader} {src dst : Nat} (hs : Inv s) : Inv (s.migrateLine r src dst).1 := by
  unfold State.migrateLine
  dsimp only
  split
  · exact State.frontLine_inv hs
  · exact Inv.ite (State.writePhys_inv (State.frontLine_inv hs)) (State.writePhys_inv (State.frontLine_inv hs))

theorem State.copyLines_inv {s : State} {r : Reader} {src dst n i : Nat} (hs : Inv s) : Inv (s.copyLines r src dst n i).1 := by
  induction n generalizing s i with
  | zero => exact hs
  | succ n ih =>
    unfold State.copyLines
    split
    next he => exact ih (Inv.of_fst he (State.migrateLine_inv hs))
    next he => exact Inv.of_fst he (State.migrateLine_inv hs)

theorem State.migrate_inv {s : State} {part : Nat} (hs : Inv s) : Inv (s.migrate part) := by
  unfold State.migrate
  dsimp only
  split
  · exact hs
  · split
    · split
      · exact hs
      · split
        · exact hs
        · split
          · exact hs
          next he4 =>
            split
            · exact State.setPart_inv (Inv.of_some he4 (State.touchLine?_inv hs))
            · exact State.endMigration_inv (Inv.of_some he4 (State.touchLine?_inv hs))
    · exact Inv.ite (Inv.ite hs (Inv.ite (State.touchLine_inv hs) (State.writePhys_inv hs))) (Inv.ite (State.copyLines_inv hs) (Inv.ite hs
        (State.writePhys_inv hs)))

theorem execPageMigration_inv {part : Nat} {s : State} (hs : Inv s) : Goes (execPageMigration part s) := by
  unfold execPageMigration
  exact State.migrate_inv hs

theorem State.endGen_inv {s : State} {part result : Nat} (hs : Inv s) : Inv (s.endGen part result) := hs

theorem State.loadGen_inv {s : State} {part : Nat} (hs : Inv s) : Inv (s.loadGen part) := by
  unfold State.loadGen
  dsimp only
  split
  · exact hs
  · split
    · exact hs
    · split
      · exact hs
      · split
        · exact hs
        next he3 =>
          split
          · exact State.endGen_inv (Inv.of_some he3 (State.touchLine?_inv hs))
          · split
            · exact State.endGen_inv (Inv.of_some he3 (State.touchLine?_inv hs))
            · split
              next he6 => exact Inv.of_fst he6 (State.readLaunch_inv (Inv.of_some he3 (State.touchLine?_inv hs)))
              next he6 => exact State.endGen_inv (Inv.of_fst he6 (State.readLaunch_inv (Inv.of_some he3 (State.touchLine?_inv hs))))
              next he6 =>
                exact Inv.ite (State.endGen_inv (Inv.of_fst he6 (State.readLaunch_inv (Inv.of_some he3 (State.touchLine?_inv hs)))))
                  (Inv.ite (State.endGen_inv (Inv.of_fst he6 (State.readLaunch_inv (Inv.of_some he3 (State.touchLine?_inv hs))))) (State.endGen_inv
                  (State.setPart_inv (Inv.of_fst he6 (State.readLaunch_inv (Inv.of_some he3 (State.touchLine?_inv hs)))))))

theorem execGenLoad_inv {part : Nat} {index : BitVec 8} {s : State} (hs : Inv s) : Goes (execGenLoad part index s) := by
  unfold execGenLoad
  exact Inv.ite (State.loadGen_inv hs) hs

theorem State.closeGen_inv {s : State} {part : Nat} (hs : Inv s) : Inv (s.closeGen part) := by
  unfold State.closeGen
  dsimp only
  split
  · exact hs
  · split
    · exact hs
    · exact hs

theorem execGenInvalidate_inv {part : Nat} {index : BitVec 8} {s : State} (hs : Inv s) : Goes (execGenInvalidate part index s) := by
  unfold execGenInvalidate
  exact Inv.ite (State.closeGen_inv hs) hs

theorem State.dropGenRange_inv {s : State} {part lo hi : Nat} (hs : Inv s) : Inv (s.dropGenRange part lo hi) := by
  unfold State.dropGenRange
  exact Inv.foldl hs fun t a h => State.dropCopies_inv h

theorem execGenInvalidateFinish_inv {part : Nat} {s : State} (hs : Inv s) : Goes (execGenInvalidateFinish part s) := by
  unfold execGenInvalidateFinish
  refine Goes.next ?_
  extract_lets p i
  split
  next g _ =>
    have h1 : Inv (s.dropGenRange part g.vbase (g.vbase + g.vlen)) := State.dropGenRange_inv hs
    exact Inv.ite (State.endGen_inv (State.setPart_inv h1)) hs
  · exact hs

end Sys2Proof.Machine
end


section
/-!
Obligation O57, the canonical form of memory: the front end.
-/
namespace Sys2Proof.Machine

theorem State.setFq_inv {s : State} {part q : Nat} {f : Fq} (hs : Inv s) : Inv (s.setFq part q f) := hs

theorem State.modFq_inv {s : State} {part q : Nat} {g : Fq → Fq} (hs : Inv s) : Inv (s.modFq part q g) := hs

theorem State.writeBlock_inv {s : State} {part q : Nat} {acc iss cmp : BitVec 32} (hs : Inv s) : Inv (s.writeBlock part q acc iss cmp).1 := by
  unfold State.writeBlock
  exact State.frontWrite_inv hs

theorem State.putRecord_inv {s : State} {part q : Nat} {seq : BitVec 32} {status detail subidx : Nat} (hs : Inv s) :
    Inv (s.putRecord part q seq status detail subidx).1 := by
  unfold State.putRecord
  split
  next he => exact Inv.of_fst he (State.frontWrite_inv hs)
  next he1 => exact State.modFq_inv (Inv.of_fst he1 (State.frontWrite_inv hs))

theorem State.putCmp_inv {s : State} {part q : Nat} (hs : Inv s) : Inv (s.putCmp part q).1 := by
  unfold State.putCmp
  dsimp only
  split
  · exact hs
  · split
    next he1 => exact Inv.of_fst he1 (State.writeBlock_inv hs)
    next he1 => exact State.modFq_inv (Inv.of_fst he1 (State.writeBlock_inv hs))

theorem State.flush_inv {s : State} {part q n : Nat} (hs : Inv s) : Inv (s.flush part q n) := by
  induction n generalizing s with
  | zero => exact hs
  | succ n ih =>
    unfold State.flush
    split
    next he => exact Inv.of_fst he (State.putCmp_inv hs)
    next he =>
      have h1 := Inv.of_fst he (State.putCmp_inv hs)
      split
      · exact h1
      · split
        next he2 => exact Inv.of_fst he2 (State.putRecord_inv h1)
        next he2 => exact ih (State.modFq_inv (Inv.of_fst he2 (State.putRecord_inv h1)))

theorem State.flushAll_inv {s : State} {part q : Nat} (hs : Inv s) : Inv (s.flushAll part q) := by
  unfold State.flushAll
  exact State.flush_inv hs

theorem State.readBlock_inv {s : State} {part q : Nat} (hs : Inv s) : Inv (s.readBlock part q) := by
  unfold State.readBlock
  dsimp only
  split
  · exact hs
  · split
    next he1 => exact Inv.of_fst he1 (State.frontRead_inv hs)
    next he1 => exact State.setFq_inv (Inv.of_fst he1 (State.frontRead_inv hs))
    next he1 => exact State.setFq_inv (Inv.of_fst he1 (State.frontRead_inv hs))

theorem State.abortStarted_inv {s : State} {part q n : Nat} (hs : Inv s) : Inv (s.abortStarted part q n) := by
  induction n generalizing s with
  | zero => exact hs
  | succ n ih =>
    unfold State.abortStarted
    split
    next he => exact Inv.of_fst he (State.putCmp_inv hs)
    next s1 he =>
      have h1 : Inv s1 := Inv.of_fst he (State.putCmp_inv hs)
      extract_lets f
      split
      next i _ =>
        split
        · exact State.setFq_inv h1
        · split
          next he2 => exact Inv.of_fst he2 (State.frontRead_inv h1)
          next s2 x _ he2 =>
            have h2 : Inv s2 := Inv.of_fst he2 (State.frontRead_inv h1)
            extract_lets held
            have h3 := Inv.ite_fst (c := held = true) (a := (s2.modFq part q fun g => { g with cmpDue := some (i + 1) }, true))
              (State.modFq_inv h2) (State.putRecord_inv (part := part) (q := q) (seq := i) (status := 7) (detail := 0) (subidx := 0) h2)
            split
            next he3 => exact Inv.of_fst he3 h3
            next he3 => exact ih (State.modFq_inv (Inv.of_fst he3 h3))
      · exact h1

theorem State.catchUp_inv {s : State} {part q : Nat} (hs : Inv s) : Inv (s.catchUp part q) := by
  unfold State.catchUp
  exact Inv.ite hs (State.flushAll_inv (State.abortStarted_inv (State.readBlock_inv hs)))

theorem State.failCall_inv {s : State} {part q : Nat} {seq : BitVec 32} {path : List Nat} {detail : Nat} (hs : Inv s) :
    Inv (s.failCall part q seq path detail) := hs

theorem State.acceptRing_inv {s : State} {part q : Nat} {bs : List Byte} (hs : Inv s) : Inv (s.acceptRing part q bs) := by
  unfold State.acceptRing
  dsimp only
  split
  next he => exact Inv.of_fst he (Inv.ite_fst (State.writeBlock_inv hs) hs)
  next he => exact State.modFq_inv (Inv.of_fst he (Inv.ite_fst (State.writeBlock_inv hs) hs))

theorem State.acceptCalled_inv {s : State} {part q : Nat} {c : CallFrame} {bs : List Byte} (hs : Inv s) : Inv (s.acceptCalled part q c bs) := by
  unfold State.acceptCalled
  exact Inv.ite hs (Inv.ite hs hs)

theorem State.stallQueue_inv {s : State} {part q state : Nat} {n : BitVec 32} (hs : Inv s) : Inv (s.stallQueue part q state n) := hs

theorem State.fetchPacket_inv {s : State} {part q : Nat} {again : Bool} (hs : Inv s) : Inv (s.fetchPacket part q again) := by
  unfold State.fetchPacket
  dsimp only
  split
  · split
    next he1 => exact Inv.of_fst he1 (State.frontRead_inv hs)
    next he1 => exact State.failCall_inv (Inv.of_fst he1 (State.frontRead_inv hs))
    next he1 =>
      exact Inv.ite (State.acceptCalled_inv (Inv.of_fst he1 (State.frontRead_inv hs))) (Inv.ite (State.failCall_inv (Inv.of_fst he1
        (State.frontRead_inv hs))) (Inv.ite (State.failCall_inv (Inv.of_fst he1 (State.frontRead_inv hs))) (State.modFq_inv (Inv.of_fst he1
        (State.frontRead_inv hs)))))
  · split
    next he1 => exact Inv.of_fst he1 (State.frontRead_inv hs)
    next he1 => exact State.stallQueue_inv (Inv.of_fst he1 (State.frontRead_inv hs))
    next he1 =>
      exact Inv.ite (State.acceptRing_inv (Inv.of_fst he1 (State.frontRead_inv hs))) (Inv.ite (State.stallQueue_inv (Inv.of_fst he1
        (State.frontRead_inv hs))) (State.modFq_inv (Inv.of_fst he1 (State.frontRead_inv hs))))

theorem execPacketAcceptance_inv {part q : Nat} {s : State} (hs : Inv s) : Goes (execPacketAcceptance part q s) := by
  unfold execPacketAcceptance
  exact Inv.ite (State.fetchPacket_inv (State.catchUp_inv hs)) (State.catchUp_inv hs)

theorem execTornPacketReread_inv {part q : Nat} {s : State} (hs : Inv s) : Goes (execTornPacketReread part q s) := by
  unfold execTornPacketReread
  exact Inv.ite (State.fetchPacket_inv (State.catchUp_inv hs)) (State.catchUp_inv hs)

theorem State.startHead_inv {s : State} {part q : Nat} {k : State → State} (hs : Inv s) (hk : ∀ a0, Inv a0 → Inv (k a0)) :
    Inv (s.startHead part q k) := by
  unfold State.startHead
  dsimp only
  split
  · exact hs
  · split
    · exact hk _ hs
    · split
      next he2 => exact Inv.of_fst he2 (State.writeBlock_inv hs)
      next he2 => exact hk _ (State.modFq_inv (Inv.of_fst he2 (State.writeBlock_inv hs)))

theorem State.completeHead_inv {s : State} {part q status detail : Nat} (hs : Inv s) : Inv (s.completeHead part q status detail) := by
  unfold State.completeHead
  exact State.flushAll_inv hs

theorem State.finishHead_inv {s : State} {part q status detail : Nat} (hs : Inv s) : Inv (s.finishHead part q status detail) := by
  unfold State.finishHead
  exact State.startHead_inv hs fun _ h => State.completeHead_inv h

theorem State.reachFail_inv {s : State} {part q : Nat} {p : Packet} (hs : Inv s) : Inv (s.reachFail part q p) := by
  unfold State.reachFail
  exact State.flushAll_inv hs

theorem State.atHead_inv {s : State} {part q type : Nat} {k : State → Packet → State} (hs : Inv s) (hk : ∀ a0 a1, Inv a0 → Inv (k a0 a1)) :
    Inv (s.atHead part q type k) := by
  unfold State.atHead
  dsimp only
  split
  · exact State.catchUp_inv hs
  · exact Inv.ite (State.reachFail_inv (State.catchUp_inv hs)) (Inv.ite (State.finishHead_inv (State.catchUp_inv hs))
      (Inv.ite (hk _ _ (State.catchUp_inv hs)) (State.catchUp_inv hs)))

theorem State.enterLaunch_inv {s : State} {part q : Nat} {p : Packet} {l : Launch} {saved : List SavedTeam} (hs : Inv s) :
    Inv (s.enterLaunch part q p l saved) := by
  unfold State.enterLaunch
  exact State.addSaved_inv hs

theorem State.startLaunch_inv {s : State} {part q : Nat} {p : Packet} (hs : Inv s) : Inv (s.startLaunch part q p) := by
  unfold State.startLaunch
  split
  · exact hs
  · refine State.startHead_inv hs ?_
    intro a0 h
    dsimp only
    split
    next he1 => exact Inv.of_fst he1 (State.readLaunch_inv h)
    next he1 => exact State.completeHead_inv (Inv.of_fst he1 (State.readLaunch_inv h))
    next he1 =>
      exact Inv.ite (State.completeHead_inv (Inv.of_fst he1 (State.readLaunch_inv h))) (Inv.ite (State.completeHead_inv (Inv.of_fst he1
        (State.readLaunch_inv h))) (State.enterLaunch_inv (Inv.of_fst he1 (State.readLaunch_inv h))))

theorem execLaunch_inv {part q : Nat} {s : State} (hs : Inv s) : Goes (execLaunch part q s) := by
  unfold execLaunch
  exact State.atHead_inv hs fun _ _ h => State.startLaunch_inv h

theorem State.startSignal_inv {s : State} {part q : Nat} {p : Packet} (hs : Inv s) : Inv (s.startSignal part q p) := by
  unfold State.startSignal
  split
  · exact hs
  · refine State.startHead_inv hs ?_
    intro a0 h
    dsimp only
    split
    · split
      next he2 => exact Inv.of_fst he2 (State.frontWrite_inv h)
      next he2 => exact State.completeHead_inv (Inv.of_fst he2 (State.frontWrite_inv h))
      next he2 => exact State.completeHead_inv (Inv.of_fst he2 (State.frontWrite_inv h))
    · split
      next he2 => exact Inv.of_fst he2 (State.frontRead_inv h)
      next he2 => exact State.completeHead_inv (Inv.of_fst he2 (State.frontRead_inv h))
      next he2 =>
        split
        next he3 => exact Inv.of_fst he3 (State.frontWrite_inv (Inv.of_fst he2 (State.frontRead_inv h)))
        next he3 => exact State.completeHead_inv (Inv.of_fst he3 (State.frontWrite_inv (Inv.of_fst he2 (State.frontRead_inv h))))
        next he3 => exact State.completeHead_inv (Inv.of_fst he3 (State.frontWrite_inv (Inv.of_fst he2 (State.frontRead_inv h))))

theorem execSignal_inv {part q : Nat} {s : State} (hs : Inv s) : Goes (execSignal part q s) := by
  unfold execSignal
  exact State.atHead_inv hs fun _ _ h => State.startSignal_inv h

theorem State.pollWait_inv {s : State} {part q : Nat} (hs : Inv s) : Inv (s.pollWait part q) := by
  unfold State.pollWait
  dsimp only
  split
  · exact hs
  · split
    next he1 => exact Inv.of_fst he1 (State.frontRead_inv hs)
    next he1 => exact State.flushAll_inv (State.modFq_inv (Inv.of_fst he1 (State.frontRead_inv hs)))
    next he1 =>
      exact Inv.ite (State.flushAll_inv (State.modFq_inv (Inv.of_fst he1 (State.frontRead_inv hs)))) (Inv.of_fst he1 (State.frontRead_inv hs))

theorem execWait_inv {part q : Nat} {s : State} (hs : Inv s) : Goes (execWait part q s) := by
  unfold execWait
  exact State.atHead_inv hs fun _ _ h => State.startHead_inv h fun _ h1 => State.pollWait_inv h1

theorem execWaitConditionHolds_inv {part q : Nat} {s : State} (hs : Inv s) : Goes (execWaitConditionHolds part q s) := by
  unfold execWaitConditionHolds
  exact State.pollWait_inv (State.catchUp_inv hs)

theorem execCallPacket_inv {part q : Nat} {s : State} (hs : Inv s) : Goes (execCallPacket part q s) := by
  unfold execCallPacket
  exact Inv.ite (State.atHead_inv hs (fun _ _ h => Inv.ite (State.startHead_inv h (fun _ h1 => State.flushAll_inv h1)) h))
    (Inv.ite (State.fetchPacket_inv (State.catchUp_inv hs)) (State.catchUp_inv hs))

theorem execBarrier_inv {part q : Nat} {s : State} (hs : Inv s) : Goes (execBarrier part q s) := by
  unfold execBarrier
  exact State.atHead_inv hs fun _ _ h => Inv.ite (State.finishHead_inv h) h

theorem execJoin_inv {part q : Nat} {s : State} (hs : Inv s) : Goes (execJoin part q s) := by
  unfold execJoin
  exact State.atHead_inv hs fun _ _ h => Inv.ite (State.startHead_inv h (fun _ h1 => State.completeHead_inv h1)) h

theorem execPriority_inv {part q : Nat} {s : State} (hs : Inv s) : Goes (execPriority part q s) := by
  unfold execPriority
  exact State.atHead_inv hs fun _ _ h => State.startHead_inv h fun _ h1 => State.completeHead_inv h1

theorem State.gridDone_inv {s : State} {id : Nat} (hs : Inv s) : Inv (s.gridDone id) := by
  unfold State.gridDone
  dsimp only
  split
  · exact hs
  · exact Inv.ite hs (State.flushAll_inv hs)

theorem execGridCompletion_inv {launch : Nat} {s : State} (hs : Inv s) : Goes (execGridCompletion launch s) := by
  unfold execGridCompletion
  exact State.gridDone_inv hs

theorem State.writeTail_inv {s : State} {part q : Nat} {tail : BitVec 32} (hs : Inv s) : Inv (s.writeTail part q tail) := by
  unfold State.writeTail
  exact Inv.ite hs (Inv.ite hs hs)

theorem execQueueTailWrite_inv {part q : Nat} {tail : BitVec 32} {s : State} (hs : Inv s) : Goes (execQueueTailWrite part q tail s) := by
  unfold execQueueTailWrite
  exact State.writeTail_inv hs

theorem State.enableQueue_inv {s : State} {part q : Nat} (hs : Inv s) : Inv (s.enableQueue part q) := by
  unfold State.enableQueue
  exact Inv.ite hs hs

theorem execQueueEnable_inv {part q : Nat} {s : State} (hs : Inv s) : Goes (execQueueEnable part q s) := by
  unfold execQueueEnable
  exact State.enableQueue_inv hs

theorem State.recoverQueue_inv {s : State} {part q : Nat} (hs : Inv s) : Inv (s.recoverQueue part q) := by
  unfold State.recoverQueue
  exact Inv.ite (State.catchUp_inv hs) (State.catchUp_inv hs)

theorem execQueueRecover_inv {part q : Nat} {s : State} (hs : Inv s) : Goes (execQueueRecover part q s) := by
  unfold execQueueRecover
  exact State.recoverQueue_inv hs

theorem execQueueDisable_inv {part q : Nat} {s : State} (hs : Inv s) : Goes (execQueueDisable part q s) := hs

theorem execQueueRetry_inv {part q : Nat} {s : State} (hs : Inv s) : Goes (execQueueRetry part q s) := hs

theorem State.dropWave_inv {s : State} {core slot : Nat} (hs : Inv s) : Inv (s.dropWave core slot) := by
  unfold State.dropWave
  exact State.killWave_inv hs

theorem State.dropWavesOn_inv {s : State} {core : Nat} {p : Wave → Bool} (hs : Inv s) : Inv (s.dropWavesOn core p) := by
  unfold State.dropWavesOn
  exact Inv.foldl hs fun t a h => State.dropWave_inv h

theorem State.inContext_inv {s : State} {part core : Nat} {f : State → State} (hs : Inv s) (hf : ∀ a0, Inv a0 → Inv (f a0)) :
    Inv (s.inContext part core f) := by
  unfold State.inContext
  dsimp only
  split
  · exact hs
  · exact hf _ hs

theorem State.onAllCores_inv {s : State} {f : Nat → State → State} (hs : Inv s) (hf : ∀ a0 a1, Inv a1 → Inv (f a0 a1)) : Inv (s.onAllCores f) := by
  unfold State.onAllCores
  exact Inv.foldl (Inv.foldl hs (fun _ _ h => hf _ _ h)) fun t a h => State.inContext_inv h fun _ h1 => hf _ _ h1

theorem State.dropWaves_inv {s : State} {p : Wave → Bool} (hs : Inv s) : Inv (s.dropWaves p) := by
  unfold State.dropWaves
  exact State.onAllCores_inv hs fun _ _ h => State.dropWavesOn_inv h

theorem State.clearLaunch_inv {s : State} {id : Nat} {teams : List Nat} {core : Nat} (hs : Inv s) : Inv (s.clearLaunch id teams core) := hs

theorem State.killLaunch_inv {s : State} {id : Nat} (hs : Inv s) : Inv (s.killLaunch id) := by
  unfold State.killLaunch
  extract_lets s1 gone s2
  have h1 : Inv s1 := State.dropWaves_inv (State.onAllCores_inv hs fun _ _ ht => State.clearLaunch_inv ht)
  have h2 : Inv s2 := State.onAllCores_inv h1 fun _ _ ht => State.clearLaunch_inv ht
  clear_value s2
  exact h2

theorem State.endQueue_inv {s : State} {part q : Nat} (hs : Inv s) : Inv (s.endQueue part q) := by
  unfold State.endQueue
  exact State.catchUp_inv (Inv.ite (Inv.foldl hs (fun t a h => State.killLaunch_inv h)) (Inv.foldl hs (fun t a h => State.killLaunch_inv h)))

theorem execFunctionLevelReset_inv {vf : Nat} {s : State} (hs : Inv s) : Goes (execFunctionLevelReset vf s) := by
  unfold execFunctionLevelReset
  refine Goes.next ?_
  split
  · exact Inv.foldl hs fun t a h => State.endQueue_inv h
  · exact hs

theorem execControlComplexFailure_inv {s : State} (hs : Inv s) : Goes (execControlComplexFailure s) := by
  unfold execControlComplexFailure
  exact Inv.ite hs hs

end Sys2Proof.Machine
end


section
/-!
Obligation O57, the canonical form of memory: partitions and Lustre.
-/
namespace Sys2Proof.Machine

/-! ### Partitions -/

theorem execQuantumExpiry_inv {part : Nat} {s : State} (hs : Inv s) : Goes (execQuantumExpiry part s) := by
  unfold execQuantumExpiry
  exact Inv.foldl hs fun _ _ h => h

theorem State.storeCore_inv {s : State} {part core : Nat} (hs : Inv s) : Inv (s.storeCore part core) := hs

theorem State.storeCluster_inv {s : State} {part cluster : Nat} (hs : Inv s) : Inv (s.storeCluster part cluster) := hs

theorem State.loadCore_inv {s : State} {part core : Nat} (hs : Inv s) : Inv (s.loadCore part core) := hs

theorem State.loadCluster_inv {s : State} {part cluster : Nat} (hs : Inv s) : Inv (s.loadCluster part cluster) := hs

theorem State.swapIn_inv {s : State} {part cluster : Nat} (hs : Inv s) : Inv (s.swapIn part cluster) :=
  State.loadCluster_inv (Inv.foldl hs fun _ _ ht => State.loadCore_inv ht)

theorem State.swapOut_inv {s : State} {part cluster : Nat} (hs : Inv s) : Inv (s.swapOut part cluster) :=
  State.storeCluster_inv (Inv.foldl hs fun _ _ ht => State.storeCore_inv ht)

theorem State.swap_inv {s : State} {outgoing incoming : Nat} (hs : Inv s) : Inv (s.swap outgoing incoming) := by
  unfold State.swap
  exact Inv.ite hs (Inv.foldl hs (fun t a h => State.swapIn_inv (State.swapOut_inv h)))

theorem execShadowStoreSwap_inv {outgoing incoming : Nat} {s : State} (hs : Inv s) : Goes (execShadowStoreSwap outgoing incoming s) := by
  unfold execShadowStoreSwap
  exact State.swap_inv hs

theorem State.freeBuckets_inv {s : State} {p : Partition} (hs : Inv s) : Inv (s.freeBuckets p) := hs

theorem State.dropShare_inv {s : State} {part : Nat} (hs : Inv s) : Inv (s.dropShare part) := by
  unfold State.dropShare
  exact Inv.foldl (Inv.foldl hs (fun t a h => State.dropLine_inv (State.dropCopies_inv h))) fun t a h => State.dropCopies_inv h

theorem State.carve_inv {s : State} {slice n : Nat} (hs : Inv s) : Inv (s.carve slice n) := by
  induction n generalizing s with
  | zero => exact hs
  | succ n ih =>
    unfold State.carve
    split
    · exact hs
    · split
      · exact ih (State.evict_inv hs)
      · exact hs

theorem State.shareClusters_inv {s : State} {part : Nat} (hs : Inv s) : Inv (s.shareClusters part) := by
  unfold State.shareClusters
  dsimp only
  split
  · refine Inv.foldl hs ?_
    intro t a h
    split
    · exact h
    · exact Inv.ite h h
  · refine Inv.foldl ?_ fun t a h => State.carve_inv h
    refine Inv.foldl hs ?_
    intro t a h
    split
    · exact h
    · exact Inv.ite h h

theorem State.describe_inv {s : State} {part : Nat} {d : BitVec 512} (hs : Inv s) : Inv (s.describe part d) := by
  unfold State.describe
  exact Inv.ite hs (State.shareClusters_inv (Inv.ite (Inv.ite hs (State.dropShare_inv hs)) (Inv.ite hs (State.dropShare_inv hs))))

theorem State.endWork_inv {s : State} {part : Nat} (hs : Inv s) : Inv (s.endWork part) :=
  Inv.foldl (State.dropWaves_inv hs) fun _ _ ht => State.endQueue_inv ht

theorem State.resetCore_inv {s : State} {core : Nat} (hs : Inv s) : Inv (s.resetCore core) := hs

theorem State.leaveCluster_inv {s : State} {part cluster : Nat} (hs : Inv s) : Inv (s.leaveCluster part cluster) := by
  unfold State.leaveCluster
  extract_lets alone settle
  have hsettle : ∀ t, Inv t → Inv (settle t) := fun t ht => Inv.ite (State.setCluster_inv ht) ht
  split
  · split
    · exact hsettle s hs
    · split
      · exact hsettle _ (State.swapIn_inv hs)
      · exact hs
  · exact State.setCluster_inv (Inv.foldl hs fun t k ht => show Inv (t.resetCore k) from State.resetCore_inv ht)

theorem State.erasePart_inv {s : State} {part : Nat} (hs : Inv s) : Inv (s.erasePart part) := by
  unfold State.erasePart
  extract_lets p s1 s2 p2 s3 s4 s5 s6 p6
  have h1 : Inv s1 := State.dropAllTlb_inv hs
  have h3 : Inv s3 := State.setPart_inv (s := s2) h1
  have h5 : Inv s5 := Inv.foldl (State.freeBuckets_inv (State.dropShare_inv h3)) fun t c ht => State.leaveCluster_inv ht
  exact State.setPart_inv (s := s6) h5

theorem State.teardown_inv {s : State} {part : Nat} (hs : Inv s) : Inv (s.teardown part) := by
  unfold State.teardown
  extract_lets s1
  have h1 : Inv s1 := State.endWork_inv hs
  exact Inv.ite hs (Inv.ite (State.setPart_inv h1) (State.erasePart_inv h1))

theorem execPartitionTeardown_inv {part : Nat} {s : State} (hs : Inv s) : Goes (execPartitionTeardown part s) := by
  unfold execPartitionTeardown
  exact State.teardown_inv hs

theorem execPartitionDescriptorWrite_inv {part : Nat} {desc : BitVec 512} {s : State} (hs : Inv s) :
    Goes (execPartitionDescriptorWrite part desc s) := by
  unfold execPartitionDescriptorWrite
  exact Inv.ite hs (Inv.ite (State.describe_inv hs) (State.teardown_inv hs))

/-! ### Lustre -/

theorem State.setHead_inv {s : State} {h : Nat} {x : Head} (hs : Inv s) : Inv (s.setHead h x) := hs

theorem State.modHead_inv {s : State} {h : Nat} {g : Head → Head} (hs : Inv s) : Inv (s.modHead h g) := hs

theorem execHeadGrant_inv {head : Nat} {part : Option Nat} {s : State} (hs : Inv s) : Goes (execHeadGrant head part s) := by
  unfold execHeadGrant
  refine Goes.next ?_
  dsimp only
  split
  · exact Inv.ite (Inv.ite hs hs) hs
  · exact hs

theorem State.enableHead_inv {s : State} {h : Nat} (hs : Inv s) : Inv (s.enableHead h) := by
  unfold State.enableHead
  exact Inv.ite hs hs

theorem execHeadEnable_inv {head : Nat} {s : State} (hs : Inv s) : Goes (execHeadEnable head s) := by
  unfold execHeadEnable
  exact Inv.ite (State.enableHead_inv hs) hs

theorem execHeadDisable_inv {head : Nat} {s : State} (hs : Inv s) : Goes (execHeadDisable head s) := hs

theorem State.loadKernel_inv {s : State} {head : Nat} {value : DWord} (hs : Inv s) : Inv (s.loadKernel head value) := by
  unfold State.loadKernel
  dsimp only
  split
  · exact hs
  · split
    · exact hs
    · split
      next he2 => exact State.modHead_inv (Inv.of_fst he2 (State.readLaunch_inv hs))
      next he2 => exact State.modHead_inv (Inv.of_fst he2 (State.readLaunch_inv hs))
      next he2 =>
        exact Inv.ite (State.modHead_inv (Inv.of_fst he2 (State.readLaunch_inv hs))) (State.modHead_inv (Inv.of_fst he2 (State.readLaunch_inv hs)))

theorem execScanKernelLoad_inv {head : Nat} {value : DWord} {s : State} (hs : Inv s) : Goes (execScanKernelLoad head value s) := by
  unfold execScanKernelLoad
  exact Inv.ite (State.loadKernel_inv hs) hs

theorem execPresent_inv {head : Nat} {value : DWord} {s : State} (hs : Inv s) : Goes (execPresent head value s) := by
  unfold execPresent
  exact Inv.ite hs hs

theorem State.readPixels_inv {s : State} {head part n i : Nat} {d : List Byte} (hs : Inv s) : Inv (s.readPixels head part d n i) := by
  induction n generalizing s i with
  | zero => exact State.modHead_inv hs
  | succ n ih =>
    unfold State.readPixels
    dsimp only
    split
    next he => exact Inv.of_fst he (State.frontRead_inv hs)
    next he => exact ih (State.modHead_inv (Inv.of_fst he (State.frontRead_inv hs)))
    next he => exact ih (State.modHead_inv (Inv.of_fst he (State.frontRead_inv hs)))

theorem State.readFrame_inv {s : State} {head : Nat} (hs : Inv s) : Inv (s.readFrame head) := by
  unfold State.readFrame
  dsimp only
  split
  · exact State.readPixels_inv hs
  · exact hs

theorem State.takePresent_inv {s : State} {head : Nat} (hs : Inv s) : Inv (s.takePresent head) := by
  unfold State.takePresent
  dsimp only
  split
  · split
    · exact State.readFrame_inv hs
    · split
      next he4 => exact Inv.of_fst he4 (State.frontRead_inv hs)
      next he4 => exact State.modHead_inv (Inv.of_fst he4 (State.frontRead_inv hs))
      next he4 =>
        exact Inv.ite (State.readFrame_inv (State.modHead_inv (Inv.of_fst he4 (State.frontRead_inv hs)))) (State.modHead_inv (Inv.of_fst he4
          (State.frontRead_inv hs)))
  · exact Inv.ite (State.readFrame_inv hs) hs
  · exact hs

theorem State.dispatch_inv {s : State} {head b : Nat} (hs : Inv s) : Inv (s.dispatch head b) := by
  unfold State.dispatch
  dsimp only
  split
  · exact hs
  · split
    · exact hs
    · exact Inv.ite hs (Inv.ite (State.takePresent_inv hs) hs)

theorem execBandDispatch_inv {head band : Nat} {s : State} (hs : Inv s) : Goes (execBandDispatch head band s) := by
  unfold execBandDispatch
  exact State.dispatch_inv hs

theorem State.startBand_inv {s : State} {head b core : Nat} (hs : Inv s) : Inv (s.startBand head b core) := by
  unfold State.startBand
  dsimp only
  split
  · exact hs
  · split
    · exact Inv.ite hs (State.createMany_inv hs)
    · exact hs

theorem execBandTeamStart_inv {head band core : Nat} {s : State} (hs : Inv s) : Goes (execBandTeamStart head band core s) := by
  unfold execBandTeamStart
  exact State.startBand_inv hs

theorem State.putRecords_inv {s : State} {head n : Nat} (hs : Inv s) : Inv (s.putRecords head n) := by
  induction n generalizing s with
  | zero => exact hs
  | succ n ih =>
    unfold State.putRecords
    dsimp only
    split
    · split
      next he => exact Inv.of_fst he (State.frontWrite_inv hs)
      next he =>
        have h1 := Inv.of_fst he (State.frontWrite_inv hs)
        split
        next he2 => exact Inv.of_fst he2 (State.frontWrite_inv h1)
        next he2 => exact ih (State.modHead_inv (Inv.of_fst he2 (State.frontWrite_inv h1)))
    · exact hs

theorem State.flushRecords_inv {s : State} {head : Nat} (hs : Inv s) : Inv (s.flushRecords head) := by
  unfold State.flushRecords
  exact State.putRecords_inv hs

theorem State.writeLatch_inv {s : State} {head : Nat} (hs : Inv s) : Inv (s.writeLatch head) := by
  unfold State.writeLatch
  exact Inv.ite hs (State.flushRecords_inv hs)

theorem execGazeLatch_inv {head : Nat} {s : State} (hs : Inv s) : Goes (execGazeLatch head s) := by
  unfold execGazeLatch
  exact Inv.ite (State.writeLatch_inv hs) hs

theorem State.latchPose_inv {s : State} {head : Nat} (hs : Inv s) : Inv (s.latchPose head) := by
  unfold State.latchPose
  dsimp only
  split
  · exact hs
  · split
    · exact State.writeLatch_inv hs
    · split
      next he2 => exact State.writeLatch_inv (State.modHead_inv (Inv.of_fst he2 (State.frontRead_inv hs)))
      next he3 => exact State.draw_inv (State.writeLatch_inv (State.modHead_inv (Inv.of_fst he3 (State.frontRead_inv hs))))

theorem execPoseLatch_inv {head : Nat} {s : State} (hs : Inv s) : Goes (execPoseLatch head s) := by
  unfold execPoseLatch
  exact State.latchPose_inv hs

theorem State.deadline_inv {s : State} {head b : Nat} (hs : Inv s) : Inv (s.deadline head b) := by
  unfold State.deadline
  extract_lets s1 h
  have h1 : Inv s1 := Inv.ite (State.latchPose_inv hs) hs
  split
  · exact hs
  · split
    · exact hs
    · exact Inv.ite hs (State.setHead_inv h1)

theorem execBandDeadline_inv {head band : Nat} {s : State} (hs : Inv s) : Goes (execBandDeadline head band s) := by
  unfold execBandDeadline
  exact State.deadline_inv hs

theorem State.slotLine_inv {s : State} {head part : Nat} {h : Head} {x : Band} (hs : Inv s) : Inv (s.slotLine head part h x).1 := by
  unfold State.slotLine
  dsimp only
  split
  next he => exact Inv.of_fst he (State.frontRead_inv hs)
  next he1 => exact Inv.of_fst he1 (State.frontRead_inv hs)

theorem State.lineSource_inv {s : State} {head : Nat} {ready : Bool} (hs : Inv s) : Inv (s.lineSource head ready).1 := by
  unfold State.lineSource
  dsimp only
  split
  · split
    · exact State.slotLine_inv hs
    · exact hs
    · exact hs
    · exact hs
  · exact hs

theorem State.headWork_inv {s : State} {head : Nat} (hs : Inv s) : Inv (s.headWork head) := by
  unfold State.headWork
  exact State.flushRecords_inv (State.takePresent_inv (Inv.ite (State.loadKernel_inv hs) hs))

theorem State.scanLine_inv {s0 : State} {head : Nat} {ready : Bool} (hs0 : Inv s0) : Inv (s0.scanLine head ready) := by
  unfold State.scanLine
  dsimp only
  split
  · exact hs0
  · split
    · exact hs0
    · split
      · exact State.headWork_inv hs0
      · split
        · exact State.headWork_inv hs0
        · split
          next he4 => exact State.draw_inv (State.setHead_inv (Inv.of_fst he4 (State.lineSource_inv (State.headWork_inv hs0))))
          next he4 => exact State.draw_inv (State.setHead_inv (Inv.of_fst he4 (State.lineSource_inv (State.headWork_inv hs0))))

theorem execLineScanout_inv {head : Nat} {ready : Bool} {s : State} (hs : Inv s) : Goes (execLineScanout head ready s) := by
  unfold execLineScanout
  exact State.scanLine_inv hs

theorem State.estimateMotion_inv {s : State} {head : Nat} (hs : Inv s) : Inv (s.estimateMotion head) := by
  unfold State.estimateMotion
  dsimp only
  split
  · split
    · exact hs
    · split
      next he5 => exact Inv.of_fst he5 (State.frontWrite_inv hs)
      next he6 =>
        split
        next he7 => exact Inv.of_fst he7 (State.frontWrite_inv (Inv.of_fst he6 (State.frontWrite_inv hs)))
        next he8 => exact State.draw_inv (State.modHead_inv (Inv.of_fst he8 (State.frontWrite_inv (Inv.of_fst he6 (State.frontWrite_inv hs)))))
  · exact hs

theorem execMotionEstimation_inv {head : Nat} {s : State} (hs : Inv s) : Goes (execMotionEstimation head s) := by
  unfold execMotionEstimation
  exact State.estimateMotion_inv hs

theorem execGovernorInterval_inv {watts : Nat} {s : State} (hs : Inv s) : Goes (execGovernorInterval watts s) := hs

end Sys2Proof.Machine
end


section
/-!
Obligation O57, the canonical form of memory: registers, privileged instructions and reliability.
-/
namespace Sys2Proof.Machine

/-! ### Control registers -/

theorem State.writeQctl_inv {s : State} {part q x : Nat} {host : Bool} (hs : Inv s) : Inv (s.writeQctl part q x host) := by
  unfold State.writeQctl
  exact Inv.ite (Inv.ite (Inv.ite (State.recoverQueue_inv hs) (State.enableQueue_inv hs)) (Inv.ite hs hs))
    (Inv.ite (Inv.ite (State.recoverQueue_inv hs) (State.enableQueue_inv hs)) (Inv.ite hs hs))

theorem State.writeQueue_inv {s : State} {part q k : Nat} {v : DWord} {host : Bool} (hs : Inv s) : Inv (s.writeQueue part q k v host) := by
  unfold State.writeQueue
  dsimp only
  split
  · exact Inv.ite hs hs
  · exact State.writeQctl_inv hs
  · exact State.writeTail_inv hs
  · exact hs
  · exact Inv.ite hs hs
  · exact Inv.ite hs hs

theorem State.writeFront_inv {s : State} {part k : Nat} {v : DWord} (hs : Inv s) : Inv (s.writeFront part k v) := by
  unfold State.writeFront
  dsimp only
  split
  · exact hs
  · exact Inv.ite hs hs
  · exact hs
  · exact Inv.ite hs hs

theorem State.writeGlaze_inv {s : State} {cluster k : Nat} {v : DWord} (hs : Inv s) : Inv (s.writeGlaze cluster k v) := by
  unfold State.writeGlaze
  dsimp only
  split
  · exact hs
  · exact hs
  · exact hs
  · exact hs
  · exact hs

theorem State.writeLsCtl_inv {s : State} {head x : Nat} (hs : Inv s) : Inv (s.writeLsCtl head x) := by
  unfold State.writeLsCtl
  exact Inv.ite (Inv.ite hs hs) (Inv.ite hs (Inv.ite (State.enableHead_inv hs) hs))

theorem State.writeHead_inv {s : State} {head k : Nat} {v : DWord} (hs : Inv s) : Inv (s.writeHead head k v) := by
  unfold State.writeHead
  dsimp only
  split
  · exact Inv.ite hs hs
  · exact State.writeLsCtl_inv hs
  · exact State.loadKernel_inv hs
  · exact hs
  · exact hs
  · exact hs
  · exact hs
  · exact hs
  · exact hs
  · exact hs
  · exact hs
  · exact hs

theorem State.writePt_inv {s : State} {part k : Nat} {v : DWord} (hs : Inv s) : Inv (s.writePt part k v) := by
  unfold State.writePt
  dsimp only
  split
  · exact hs
  · exact Inv.ite hs hs
  · exact hs
  · exact State.endToken_inv hs
  · exact hs
  · exact Inv.ite hs hs
  · exact hs

theorem State.writeGen_inv {s : State} {part k : Nat} {v : DWord} (hs : Inv s) : Inv (s.writeGen part k v) := by
  unfold State.writeGen
  dsimp only
  split
  · exact hs
  · exact Inv.ite hs (Inv.ite (State.closeGen_inv hs) (State.loadGen_inv hs))
  · exact hs

theorem State.writeSec_inv {s : State} {part k : Nat} {v : DWord} (hs : Inv s) : Inv (s.writeSec part k v) := by
  unfold State.writeSec
  dsimp only
  split
  · exact Inv.ite hs hs
  · exact State.drainPart_inv hs
  · exact hs

theorem State.writeDevRing_inv {s : State} {k : Nat} {v : DWord} (hs : Inv s) : Inv (s.writeDevRing k v) := by
  unfold State.writeDevRing
  dsimp only
  split
  · exact Inv.ite hs hs
  · exact State.drainDevice_inv hs
  · exact hs

theorem State.writeCounter_inv {s : State} {slice k : Nat} {v : DWord} (hs : Inv s) : Inv (s.writeCounter slice k v) := by
  unfold State.writeCounter
  dsimp only
  split
  · exact hs
  · exact hs
  · exact hs
  · exact hs

theorem State.writeReg_inv {s : State} {num inst : Nat} {v : DWord} {host : Bool} (hs : Inv s) : Inv (s.writeReg num inst v host) := by
  unfold State.writeReg
  dsimp only
  split
  · exact Inv.ite (State.writeFront_inv hs) (State.writeQueue_inv hs)
  · exact State.writeGlaze_inv hs
  · exact State.writeHead_inv hs
  · exact State.writePt_inv hs
  · exact State.writeGen_inv hs
  · exact State.writeSec_inv hs
  · exact State.writeCounter_inv hs
  · exact hs

theorem State.vfWrite_inv {s : State} {vf num inst : Nat} {v : DWord} (hs : Inv s) : Inv (s.vfWrite vf num inst v) := by
  unfold State.vfWrite
  split
  · exact hs
  · exact Inv.ite (State.writeReg_inv hs) (Inv.ite (State.writeReg_inv hs) hs)

theorem State.vfWriteAt_inv {s : State} {vf off : Nat} {v : DWord} (hs : Inv s) : Inv (s.vfWriteAt vf off v) := by
  unfold State.vfWriteAt
  exact Inv.ite (State.vfWrite_inv hs) (Inv.ite (State.vfWrite_inv hs) hs)

theorem State.rcvStart_inv {s : State} {v : DWord} (hs : Inv s) : Inv (s.rcvStart v) := by
  unfold State.rcvStart
  exact Inv.ite hs hs

theorem State.pfWrite_inv {s : State} {off : Nat} {v : DWord} (hs : Inv s) : Inv (s.pfWrite off v) := by
  unfold State.pfWrite
  exact Inv.ite (State.rcvStart_inv hs) (Inv.ite (State.writeDevRing_inv hs) (Inv.ite hs hs))

theorem execControlRegisterWrite_inv {port : Port} {num : BitVec 16} {inst : Nat} {value : BitVec 64} {s : State} (hs : Inv s) :
    Goes (execControlRegisterWrite port num inst value s) := by
  unfold execControlRegisterWrite
  refine Goes.next ?_
  dsimp only
  split
  · exact State.vfWrite_inv hs
  · exact State.pfWrite_inv hs
  · exact Inv.ite (State.writeReg_inv hs) hs

/-! ### Privileged instructions -/

theorem execSyscall_inv {o : Ops} {code : BitVec 16} {s : State} (hs : Inv s) : Goes (execSyscall o code s) := by
  unfold execSyscall
  exact withCtx_inv hs fun _ h => Ctx.uniform_inv h (Ctx.trap_inv h)

theorem execEret_inv {o : Ops} {s : State} (hs : Inv s) : Goes (execEret o s) := by
  unfold execEret
  exact withCtx_inv hs fun _ h => Ctx.uniform_inv h (Ctx.eret_inv h)

theorem Ctx.crAccess_inv {c : Ctx} {o : Ops} {num : Nat} {write : Bool} {k : Nat → State} (hc : Inv c.s) (hk : ∀ a0, Inv (k a0)) :
    Inv (c.crAccess o num write k) := by
  unfold Ctx.crAccess
  dsimp only
  split
  · exact Inv.ite (Ctx.trap_inv hc) (Inv.ite (Ctx.trap_inv hc) (hk _))
  · exact Inv.ite (Ctx.trap_inv hc) (hk _)

theorem execCrrd_inv {o : Ops} {num : BitVec 16} {s : State} (hs : Inv s) : Goes (execCrrd o num s) := by
  unfold execCrrd
  exact withCtx_inv hs fun c h => Ctx.uniform_inv h (Ctx.crAccess_inv h (fun _ => Ctx.done_inv h))

theorem execCrwr_inv {o : Ops} {num : BitVec 16} {s : State} (hs : Inv s) : Goes (execCrwr o num s) := by
  unfold execCrwr
  exact withCtx_inv hs fun c h => Ctx.uniform_inv h (Ctx.crAccess_inv h (fun _ => Ctx.drained_inv (Ctx.spoil_inv h) (Ctx.next_inv (State.writeReg_inv
    (State.fenceWave_inv (Ctx.spoil_inv h))))))

theorem Ctx.dropTlbs_inv {c : Ctx} {scope : TScope} {lo hi : Nat} (hc : Inv c.s) : Inv (c.dropTlbs scope lo hi) := by
  unfold Ctx.dropTlbs
  dsimp only
  split
  · exact hc
  · exact hc
  · exact hc

theorem execTlbi_inv {o : Ops} {all : Bool} {scope : TScope} {s : State} (hs : Inv s) : Goes (execTlbi o all scope s) := by
  unfold execTlbi
  exact withCtx_inv hs fun _ h => Ctx.uniform_inv h (Inv.ite (Ctx.next_inv (Ctx.dropTlbs_inv h)) (Inv.ite (Ctx.trap_inv h) (Inv.ite (Ctx.next_inv h)
    (Ctx.next_inv (Ctx.dropTlbs_inv h)))))

theorem execTlbp_inv {o : Ops} {w : Bool} {s : State} (hs : Inv s) : Goes (execTlbp o w s) := by
  unfold execTlbp
  exact withCtx_inv hs fun _ h => Ctx.uniform_inv h (Ctx.done_inv h)

theorem State.onTarget_inv {s : State} {part core : Nat} {f : State → State} (hs : Inv s) (hf : ∀ a0, Inv a0 → Inv (f a0)) :
    Inv (s.onTarget part core f) := by
  unfold State.onTarget
  exact Inv.ite (hf _ hs) (State.inContext_inv hs (fun _ h => hf _ h))

theorem Ctx.onHandle_inv {c : Ctx} {o : Ops} {own : Bool} {k : Nat → Option Wave → State} (hc : Inv c.s) (hk : ∀ a0 a1, Inv (k a0 a1)) :
    Inv (c.onHandle o own k) := by
  unfold Ctx.onHandle
  exact Ctx.uniform_inv hc (Inv.ite (Ctx.trap_inv hc) (hk _ _))

theorem Ctx.answer_inv {c : Ctx} {o : Ops} {s : State} {x : Nat} (hs : Inv s) : Inv (c.answer o s x) := by
  unfold Ctx.answer
  exact Ctx.next_inv (State.modWave_inv hs)

theorem State.suspend_inv {s : State} {part h : Nat} {stop : Bool} (hs : Inv s) : Inv (s.suspend part h stop) := by
  unfold State.suspend
  exact State.onTarget_inv hs fun _ h1 => State.modWave_inv h1

theorem execWkill_inv {o : Ops} {s : State} (hs : Inv s) : Goes (execWkill o s) := by
  unfold execWkill
  refine withCtx_inv hs ?_
  intro c h
  refine Ctx.onHandle_inv h ?_
  intro a0 a1
  dsimp only
  split
  · exact Ctx.answer_inv h
  · exact Inv.ite (State.onTarget_inv h (fun _ h1 => State.killWave_inv h1)) (Ctx.answer_inv (State.onTarget_inv h (fun _ h1 =>
      State.killWave_inv h1)))

theorem execWsusp_inv {o : Ops} {s : State} (hs : Inv s) : Goes (execWsusp o s) := by
  unfold execWsusp
  refine withCtx_inv hs ?_
  intro c h
  refine Ctx.onHandle_inv h ?_
  intro a0 a1
  split
  · exact Ctx.answer_inv h
  · exact Inv.ite (Ctx.answer_inv h) (Ctx.answer_inv (State.suspend_inv h))

theorem execWresm_inv {o : Ops} {s : State} (hs : Inv s) : Goes (execWresm o s) := by
  unfold execWresm
  refine withCtx_inv hs ?_
  intro c h
  refine Ctx.onHandle_inv h ?_
  intro a0 a1
  split
  · exact Ctx.answer_inv h
  · exact Inv.ite (Ctx.answer_inv (State.suspend_inv h)) (Ctx.answer_inv h)

theorem execHalt_inv {o : Ops} {code : BitVec 16} {s : State} (hs : Inv s) : Goes (execHalt o code s) := by
  unfold execHalt
  exact withCtx_inv hs fun c h => Ctx.uniform_inv h (State.modWave_inv (Ctx.next_inv (State.record_inv h)))

theorem execResumeCommand_inv {handle : BitVec 32} {s : State} (hs : Inv s) : Goes (execResumeCommand handle s) := by
  unfold execResumeCommand
  exact Inv.foldl (Inv.ite (State.modWave_inv hs) hs) fun t a h => State.inContext_inv h fun _ h1 => Inv.ite (State.modWave_inv h1) h1

/-! ### Reliability -/

theorem State.poisonBlock_inv {s : State} {block : Nat} (hs : Inv s) : Inv (s.poisonBlock block) := by
  unfold State.poisonBlock
  split
  · exact Inv.ite hs hs
  · exact hs

theorem State.scrubGddr_inv {s : State} {addr : Nat} {f : Finding} (hs : Inv s) : Inv (s.scrubGddr addr f) := by
  unfold State.scrubGddr
  dsimp only
  split
  · exact hs
  · split
    · exact hs
    · exact State.record_inv hs
    · exact State.poisonBlock_inv (State.record_inv hs)
    · exact State.poisonBlock_inv (State.record_inv hs)

theorem State.scrubGen_inv {s : State} {part line : Nat} {f : Finding} (hs : Inv s) : Inv (s.scrubGen part line f) := by
  unfold State.scrubGen
  dsimp only
  split
  · exact hs
  · split
    · exact hs
    · split
      · exact State.record_inv hs
      · exact State.forgetGuests_inv (State.record_inv hs)
      · exact hs

theorem State.scrubLlc_inv {s : State} {addr : Nat} {f : Finding} (hs : Inv s) : Inv (s.scrubLlc addr f) := by
  unfold State.scrubLlc
  split
  · exact State.scrubGen_inv hs
  · dsimp only
    split
    · exact hs
    · split
      · exact State.record_inv hs
      · exact Inv.ite (State.record_inv hs) (State.dropLine_inv (State.record_inv hs))
      · exact hs

theorem State.coreUpset_inv {s : State} {core source handle lane : Nat} {corrected : Bool} {poisoned : State} (hs : Inv s)
    (hpoisoned : Inv poisoned) : Inv (s.coreUpset core source handle lane corrected poisoned) := by
  unfold State.coreUpset
  exact Inv.ite (State.record_inv hs) (State.record_inv hpoisoned)

theorem State.storeUpset_inv {s : State} {u : StoreUpset} {corrected : Bool} (hs : Inv s) : Inv (s.storeUpset u corrected) := by
  unfold State.storeUpset
  dsimp only
  split
  · split
    · exact Inv.ite (State.coreUpset_inv hs hs) hs
    · exact hs
  · split
    · exact Inv.ite (State.coreUpset_inv hs hs) hs
    · exact hs
  · split
    · exact Inv.ite (State.coreUpset_inv hs hs) hs
    · exact hs
  · exact Inv.ite (State.coreUpset_inv hs hs) hs
  · exact Inv.ite (State.coreUpset_inv hs hs) hs
  · exact Inv.ite (State.coreUpset_inv hs hs) hs

theorem execScrubRead_inv {store : ScrubStore} {addr : Nat} {finding : Finding} {s : State} (hs : Inv s) :
    Goes (execScrubRead store addr finding s) := by
  unfold execScrubRead
  refine Goes.next ?_
  split
  · exact State.scrubLlc_inv hs
  · exact State.scrubGddr_inv hs

theorem execLaneCountClear_inv {core : Nat} {s : State} (hs : Inv s) : Goes (execLaneCountClear core s) := hs

theorem execRingPacketError_inv {link : Nat} {s : State} (hs : Inv s) : Goes (execRingPacketError link s) := by
  unfold execRingPacketError
  exact Inv.ite hs (Inv.ite (State.record_inv hs) hs)

theorem execFlitParityError_inv {link : Nat} {s : State} (hs : Inv s) : Goes (execFlitParityError link s) := hs

theorem State.faultTouching_inv {s : State} (hs : Inv s) : Inv s.faultTouching := by
  unfold State.faultTouching
  exact Inv.foldl hs fun t a h => Inv.foldl h fun t a h1 => State.noteChannel_inv h1

theorem execGddrLinkError_inv {chan : Nat} {s : State} (hs : Inv s) : Goes (execGddrLinkError chan s) := by
  unfold execGddrLinkError
  exact Inv.ite hs (Inv.ite (State.faultTouching_inv (State.record_inv hs)) (State.record_inv hs))

theorem execIdeIntegrityFailure_inv {stream : Nat} {s : State} (hs : Inv s) : Goes (execIdeIntegrityFailure stream s) := by
  unfold execIdeIntegrityFailure
  exact Inv.ite hs (State.record_inv hs)

theorem execPcieLinkError_inv {corrected : Bool} {s : State} (hs : Inv s) : Goes (execPcieLinkError corrected s) := by
  unfold execPcieLinkError
  exact Inv.ite (State.record_inv hs) (State.record_inv hs)

theorem State.hostWrite_inv {s : State} {addr : Nat} {bs : List Byte} (hs : Inv s) : Inv (s.hostWrite addr bs) := by
  unfold State.hostWrite
  extract_lets p lines ws s1
  have h1 : Inv s1 := Memory.wf_writeBytes s.mem hs addr bs
  split
  · exact Inv.foldl (Inv.ite h1 (State.markWords_inv h1)) fun t l ht => State.breakReservations_inv ht
  · exact Inv.ite hs (State.writePhys_inv hs)

theorem State.barWrite_inv {s : State} {fn off : Nat} {bs : List Byte} (hs : Inv s) : Inv (s.barWrite fn off bs) := by
  unfold State.barWrite
  exact Inv.ite hs (Inv.ite (State.pfWrite_inv hs) (Inv.ite (State.vfWriteAt_inv hs) hs))

theorem State.hostRead_inv {s : State} {addr : Nat} (hs : Inv s) : Inv (s.hostRead addr) := by
  unfold State.hostRead
  extract_lets p a
  split
  · exact hs
  · split
    · exact hs
    next he =>
      have h1 := Inv.of_some he (State.touchLine?_inv hs)
      exact h1

theorem execHostLinkAccess_inv {addr : Nat} {data : Option (List (BitVec 8))} {s : State} (hs : Inv s) : Goes (execHostLinkAccess addr data s) := by
  unfold execHostLinkAccess
  refine Goes.next ?_
  split
  · exact hs
  · split
    · exact Inv.ite (State.hostWrite_inv hs) (State.barWrite_inv hs)
    · exact Inv.ite (State.hostRead_inv hs) hs

theorem execVictimStoreSizing_inv {base len : Nat} {s : State} (hs : Inv s) : Goes (execVictimStoreSizing base len s) := by
  unfold execVictimStoreSizing
  exact Inv.ite hs hs

end Sys2Proof.Machine
end


section
/-!
Obligation O57, the canonical form of memory: security and bring-up.
-/
namespace Sys2Proof.Machine

/-! ### Security and debug -/

theorem State.respond_inv {s : State} {r : SpdmReq} {a : SpdmAnswer} (hs : Inv s) : Inv (s.respond r a) := by
  unfold State.respond
  exact Inv.ite hs hs

theorem State.respondAlways_inv {s : State} {r : SpdmReq} {a : SpdmAnswer} (hs : Inv s) : Inv (s.respondAlways r a) := by
  unfold State.respondAlways
  exact Inv.ite hs (State.respond_inv hs)

theorem execGetVersion_inv {req : SpdmReq} {s : State} (hs : Inv s) : Goes (execGetVersion req s) := by
  unfold execGetVersion
  exact State.respond_inv hs

theorem execGetCapabilities_inv {req : SpdmReq} {s : State} (hs : Inv s) : Goes (execGetCapabilities req s) := by
  unfold execGetCapabilities
  exact State.respond_inv hs

theorem execNegotiateAlgorithms_inv {req : SpdmReq} {s : State} (hs : Inv s) : Goes (execNegotiateAlgorithms req s) := by
  unfold execNegotiateAlgorithms
  exact State.respond_inv hs

theorem execGetDigests_inv {req : SpdmReq} {s : State} (hs : Inv s) : Goes (execGetDigests req s) := by
  unfold execGetDigests
  exact State.respondAlways_inv hs

theorem execGetCertificate_inv {req : SpdmReq} {s : State} (hs : Inv s) : Goes (execGetCertificate req s) := by
  unfold execGetCertificate
  exact State.respondAlways_inv hs

theorem execChallenge_inv {req : SpdmReq} {s : State} (hs : Inv s) : Goes (execChallenge req s) := by
  unfold execChallenge
  exact State.respondAlways_inv hs

theorem execGetMeasurements_inv {req : SpdmReq} {s : State} (hs : Inv s) : Goes (execGetMeasurements req s) := by
  unfold execGetMeasurements
  exact State.respondAlways_inv hs

theorem State.setDebug_inv {s : State} {d : DebugState} {part : Option Nat} (hs : Inv s) : Inv (s.setDebug d part) := by
  unfold State.setDebug
  exact Inv.ite hs (State.record_inv hs)

theorem State.endDebug_inv {s : State} (hs : Inv s) : Inv s.endDebug := by
  unfold State.endDebug
  exact State.setDebug_inv hs

theorem State.endSession_inv {s : State} {r : Requester} (hs : Inv s) : Inv (s.endSession r) := by
  unfold State.endSession
  exact Inv.ite (State.endDebug_inv hs) hs

theorem execKeyExchange_inv {req : SpdmReq} {s : State} (hs : Inv s) : Goes (execKeyExchange req s) := by
  unfold execKeyExchange
  exact Inv.ite (State.respond_inv (State.endSession_inv hs)) hs

theorem execFinish_inv {req : SpdmReq} {s : State} (hs : Inv s) : Goes (execFinish req s) := by
  unfold execFinish
  exact Inv.ite (Inv.ite (State.respond_inv hs) (State.respond_inv hs)) hs

theorem execEndSession_inv {req : SpdmReq} {s : State} (hs : Inv s) : Goes (execEndSession req s) := by
  unfold execEndSession
  exact Inv.ite (State.respond_inv (State.endSession_inv hs)) (State.respond_inv hs)

theorem State.takeToken_inv {s : State} {r : Requester} {t : DebugToken} (hs : Inv s) : Inv (s.takeToken r t) := by
  unfold State.takeToken
  dsimp only
  split
  · exact State.setDebug_inv hs
  · exact State.setDebug_inv hs
  · exact Inv.ite (State.setDebug_inv hs) hs

theorem execVendorDefinedRequest_inv {req : SpdmReq} {token : DebugToken} {s : State} (hs : Inv s) : Goes (execVendorDefinedRequest req token s) := by
  unfold execVendorDefinedRequest
  exact Inv.ite hs (Inv.ite (State.respond_inv (State.takeToken_inv hs)) (State.respond_inv hs))

theorem State.restart_inv {s : State} (hs : Inv s) : Inv s.restart := Memory.wf_filter _ s.mem hs

theorem State.enterHot_inv {s : State} (hs : Inv s) : Inv s.enterHot := by
  unfold State.enterHot
  exact Inv.ite hs (State.endDebug_inv hs)

theorem State.enterCold_inv {s : State} (hs : Inv s) : Inv s.enterCold := by
  unfold State.enterCold
  exact State.restart_inv hs

theorem State.enterPower_inv {s : State} {p : Power} (hs : Inv s) : Inv (s.enterPower p) := by
  unfold State.enterPower
  exact Inv.ite hs (Inv.ite hs (Inv.ite (State.enterHot_inv hs) (Inv.ite (State.enterCold_inv hs) hs)))

theorem State.enterInvasive_inv {s : State} (hs : Inv s) : Inv s.enterInvasive := by
  unfold State.enterInvasive
  dsimp only
  split
  · exact hs
  · split
    · exact Inv.foldl hs fun t a h => State.teardown_inv h
    · split
      · exact State.enterPower_inv (State.setDebug_inv (Inv.foldl hs (fun t a h => State.teardown_inv h)))
      · exact State.setDebug_inv (Inv.foldl hs (fun t a h => State.teardown_inv h))

theorem execInvasiveDebugEntry_inv {s : State} (hs : Inv s) : Goes (execInvasiveDebugEntry s) := by
  unfold execInvasiveDebugEntry
  exact State.enterInvasive_inv hs

theorem State.debugWave_inv {s : State} {core slot : Nat} {g : Wave → Wave} (hs : Inv s) : Inv (s.debugWave core slot g) := by
  unfold State.debugWave
  exact State.modWave_inv hs

theorem State.debugRead_inv {s : State} {core slot : Nat} {g : Wave → Option Nat} (hs : Inv s) : Inv (s.debugRead core slot g) := by
  unfold State.debugRead
  split
  · exact Inv.ite (Inv.getD (InvSome.mapAny (fun _ => hs)) hs) hs
  · exact hs

theorem State.debugBy_inv {s : State} {r : DebugReq} (hs : Inv s) : Inv (s.debugBy r) := by
  unfold State.debugBy
  exact Inv.ite hs (Inv.ite (Inv.ite hs (State.setDebug_inv hs)) (Inv.ite hs (State.setDebug_inv hs)))

theorem State.debugged_inv {s : State} {req : DebugReq} (hs : Inv s) : Inv (s.debugged req) := by
  unfold State.debugged
  dsimp only
  split
  · exact State.debugWave_inv hs
  · exact State.debugWave_inv hs
  · exact Inv.ite (Inv.getD (InvSome.mapAny (fun _ => hs)) hs) hs
  · exact Inv.ite (Inv.getD (State.writeVirt_inv hs) hs) hs
  · exact State.debugRead_inv hs
  · exact State.debugWave_inv hs
  · exact State.debugRead_inv hs
  · exact State.debugWave_inv hs
  · exact State.debugRead_inv hs
  · exact State.debugWave_inv hs
  · exact Inv.ite hs hs
  · exact Inv.ite hs hs
  · split
    · exact Inv.ite (Inv.getD (InvSome.mapAny (fun _ => hs)) hs) hs
    · exact hs
  · exact Inv.ite hs hs

theorem State.debugger_inv {s : State} {r : DebugReq} (hs : Inv s) : Inv (s.debugger r) := by
  unfold State.debugger
  exact State.debugged_inv (State.debugBy_inv hs)

theorem execDebuggerRequest_inv {req : DebugReq} {s : State} (hs : Inv s) : Goes (execDebuggerRequest req s) := by
  unfold execDebuggerRequest
  exact State.debugger_inv hs

/-! ### Bring-up -/

theorem execColdReset_inv {s : State} (hs : Inv s) : Goes (execColdReset s) := by
  unfold execColdReset
  exact State.restart_inv hs

theorem execD3hotEntry_inv {s : State} (hs : Inv s) : Goes (execD3hotEntry s) := by
  unfold execD3hotEntry
  exact State.enterPower_inv hs

theorem execD3coldEntry_inv {s : State} (hs : Inv s) : Goes (execD3coldEntry s) := by
  unfold execD3coldEntry
  exact State.enterPower_inv hs

theorem execReturnFromD3cold_inv {s : State} (hs : Inv s) : Goes (execReturnFromD3cold s) := by
  unfold execReturnFromD3cold
  refine Goes.next ?_
  dsimp only
  split
  · exact State.restart_inv hs
  · exact hs
  · exact hs

theorem State.noteBad_inv {s : State} {badSlices badChannels : List Nat} (hs : Inv s) : Inv (s.noteBad badSlices badChannels) := by
  unfold State.noteBad
  exact Inv.foldl (Inv.foldl hs (fun _ _ h => h)) fun t a h => State.record_inv h

theorem State.enterStage1_inv {s : State} {slot : Bool} {badSlices badChannels : List Nat} (hs : Inv s) :
    Inv (s.enterStage1 slot badSlices badChannels) := by
  unfold State.enterStage1
  exact State.noteBad_inv hs

theorem execStage1_inv {badSlices badChannels : List Nat} {s : State} (hs : Inv s) : Goes (execStage1 badSlices badChannels s) := by
  unfold execStage1
  refine Goes.next ?_
  split
  · exact hs
  · dsimp only
    split
    · exact State.enterStage1_inv hs
    · exact State.noteBad_inv hs

theorem execStage2_inv {s : State} (hs : Inv s) : Goes (execStage2 s) := by
  unfold execStage2
  exact Inv.ite hs hs

theorem State.rcvBlock_inv {s : State} (hs : Inv s) : Inv s.rcvBlock := by
  unfold State.rcvBlock
  exact Inv.ite hs (Inv.ite hs hs)

theorem State.rcvStep_inv {s : State} {badSlices badChannels : List Nat} (hs : Inv s) : Inv (s.rcvStep badSlices badChannels) := by
  unfold State.rcvStep
  exact Inv.ite hs (Inv.ite (Inv.ite (State.enterStage1_inv hs) hs) (Inv.ite hs (Inv.ite (State.rcvBlock_inv hs) (Inv.ite hs hs))))

theorem State.rcvEvent_inv {s : State} {op : Nat} {cmd : DWord} {badSlices badChannels : List Nat} (hs : Inv s) :
    Inv (s.rcvEvent op cmd badSlices badChannels) := by
  unfold State.rcvEvent
  exact Inv.ite (Inv.ite (State.rcvStep_inv hs) hs) (Inv.ite (State.rcvStart_inv hs) hs)

theorem execRcvWrite_inv {cmd : BitVec 64} {s : State} (hs : Inv s) : Goes (execRcvWrite cmd s) := by
  unfold execRcvWrite
  exact State.rcvEvent_inv hs

theorem execRcvAuth_inv {cmd : BitVec 64} {badSlices badChannels : List Nat} {s : State} (hs : Inv s) :
    Goes (execRcvAuth cmd badSlices badChannels s) := by
  unfold execRcvAuth
  exact State.rcvEvent_inv hs

theorem execRcvErase_inv {cmd : BitVec 64} {s : State} (hs : Inv s) : Goes (execRcvErase cmd s) := by
  unfold execRcvErase
  exact State.rcvEvent_inv hs

theorem execUpdate_inv {s : State} (hs : Inv s) : Goes (execUpdate s) := by
  unfold execUpdate
  exact Inv.ite hs (Inv.ite hs hs)

theorem execUpdateHandover_inv {s : State} (hs : Inv s) : Goes (execUpdateHandover s) := by
  unfold execUpdateHandover
  exact Inv.ite hs (Inv.ite (Inv.ite hs hs) (Inv.ite hs hs))

theorem State.overheat_inv {s : State} (hs : Inv s) : Inv s.overheat := by
  unfold State.overheat
  exact Inv.ite hs (Inv.ite (Inv.foldl hs (fun t a h => State.teardown_inv h)) (State.record_inv (Inv.foldl hs (fun t a h => State.teardown_inv h))))

theorem execJunctionOvertemp_inv {s : State} (hs : Inv s) : Goes (execJunctionOvertemp s) := by
  unfold execJunctionOvertemp
  exact State.overheat_inv hs

end Sys2Proof.Machine
end


section
/-!
Obligation O57, the canonical form of memory: dispatch, the agenda and the step.
-/
namespace Sys2Proof.Machine

/-! ### Dispatch -/

theorem exec_inv {i : Instr} {s : State} (hs : Inv s) : Goes (exec i s) := by
  cases i with
  | iadd => exact execIadd_inv hs
  | isub => exact execIsub_inv hs
  | iaddc => exact execIaddc_inv hs
  | imul => exact execImul_inv hs
  | imulh => exact execImulh_inv hs
  | imulw => exact execImulw_inv hs
  | imad => exact execImad_inv hs
  | imin => exact execImin_inv hs
  | imax => exact execImax_inv hs
  | iabs => exact execIabs_inv hs
  | ineg => exact execIneg_inv hs
  | iaddmin => exact execIaddmin_inv hs
  | iaddmax => exact execIaddmax_inv hs
  | icmp => exact execIcmp_inv hs
  | and => exact execAnd_inv hs
  | or => exact execOr_inv hs
  | xor => exact execXor_inv hs
  | andn => exact execAndn_inv hs
  | not => exact execNot_inv hs
  | shl => exact execShl_inv hs
  | shr => exact execShr_inv hs
  | sar => exact execSar_inv hs
  | rot => exact execRot_inv hs
  | fshl => exact execFshl_inv hs
  | fshr => exact execFshr_inv hs
  | bfx => exact execBfx_inv hs
  | bfi => exact execBfi_inv hs
  | popc => exact execPopc_inv hs
  | clz => exact execClz_inv hs
  | ctz => exact execCtz_inv hs
  | brev => exact execBrev_inv hs
  | bperm => exact execBperm_inv hs
  | sel => exact execSel_inv hs
  | mov => exact execMov_inv hs
  | movi => exact execMovi_inv hs
  | movh => exact execMovh_inv hs
  | lea => exact execLea_inv hs
  | iadd64 => exact execIadd64_inv hs
  | idp4 => exact execIdp4_inv hs
  | idp2 => exact execIdp2_inv hs
  | fadd => exact execFadd_inv hs
  | fsub => exact execFsub_inv hs
  | fmul => exact execFmul_inv hs
  | ffma => exact execFfma_inv hs
  | fmin => exact execFmin_inv hs
  | fmax => exact execFmax_inv hs
  | fcmp => exact execFcmp_inv hs
  | frcp => exact execFrcp_inv hs
  | frsq => exact execFrsq_inv hs
  | fsqrt => exact execFsqrt_inv hs
  | fexp2 => exact execFexp2_inv hs
  | flog2 => exact execFlog2_inv hs
  | fsinpi => exact execFsinpi_inv hs
  | fcospi => exact execFcospi_inv hs
  | ftanh => exact execFtanh_inv hs
  | frnd => exact execFrnd_inv hs
  | fclass => exact execFclass_inv hs
  | fscaleb => exact execFscaleb_inv hs
  | fexpt => exact execFexpt_inv hs
  | fcvt => exact execFcvt_inv hs
  | fcvti => exact execFcvti_inv hs
  | icvtf => exact execIcvtf_inv hs
  | fdot2 => exact execFdot2_inv hs
  | padd => exact execPadd_inv hs
  | pmul => exact execPmul_inv hs
  | pfma => exact execPfma_inv hs
  | pmin => exact execPmin_inv hs
  | pmax => exact execPmax_inv hs
  | pcvt => exact execPcvt_inv hs
  | pdot4 => exact execPdot4_inv hs
  | cbdec => exact execCbdec_inv hs
  | cbenc => exact execCbenc_inv hs
  | retag => exact execRetag_inv hs
  | shfl => exact execShfl_inv hs
  | shfli => exact execShfli_inv hs
  | lsh => exact execLsh_inv hs
  | bcast => exact execBcast_inv hs
  | redstep => exact execRedstep_inv hs
  | reduce => exact execReduce_inv hs
  | scan => exact execScan_inv hs
  | ballot => exact execBallot_inv hs
  | vote => exact execVote_inv hs
  | elect => exact execElect_inv hs
  | matchLanes => exact execMatchLanes_inv hs
  | bra => exact execBra_inv hs
  | bru => exact execBru_inv hs
  | brx => exact execBrx_inv hs
  | call => exact execCall_inv hs
  | ret => exact execRet_inv hs
  | exit => exact execExit_inv hs
  | joinp => exact execJoinp_inv hs
  | rep => exact execRep_inv hs
  | yield => exact execYield_inv hs
  | nop => exact execNop_inv hs
  | waitr => exact execWaitr_inv hs
  | execs => exact execExecs_inv hs
  | execr => exact execExecr_inv hs
  | racq => exact execRacq_inv hs
  | rrel => exact execRrel_inv hs
  | rqry => exact execRqry_inv hs
  | rdsr => exact execRdsr_inv hs
  | wrsr => exact execWrsr_inv hs
  | xcnt => exact execXcnt_inv hs
  | trap => exact execTrap_inv hs
  | bkpt => exact execBkpt_inv hs
  | cycle => exact execCycle_inv hs
  | ld => exact execLd_inv hs
  | ldnc => exact execLdnc_inv hs
  | st => exact execSt_inv hs
  | stnt => exact execStnt_inv hs
  | stm => exact execStm_inv hs
  | lds => exact execLds_inv hs
  | sts => exact execSts_inv hs
  | ldu => exact execLdu_inv hs
  | ldmc => exact execLdmc_inv hs
  | atom => exact execAtom_inv hs
  | atomf => exact execAtomf_inv hs
  | cas => exact execCas_inv hs
  | atoms => exact execAtoms_inv hs
  | lr => exact execLr_inv hs
  | sc => exact execSc_inv hs
  | pref => exact execPref_inv hs
  | thint => exact execThint_inv hs
  | fence _ _ seq => exact execFence_inv (seq := seq) hs
  | acq => exact execAcq_inv hs
  | rel => exact execRel_inv hs
  | bind => exact execBind_inv hs
  | barinit => exact execBarinit_inv hs
  | bararr => exact execBararr_inv hs
  | barwait => exact execBarwait_inv hs
  | barsync => exact execBarsync_inv hs
  | barexp => exact execBarexp_inv hs
  | barq => exact execBarq_inv hs
  | kick => exact execKick_inv hs
  | eqst => exact execEqst_inv hs
  | eqgo => exact execEqgo_inv hs
  | eqfence => exact execEqfence_inv hs
  | eqwait => exact execEqwait_inv hs
  | tld => exact execTld_inv hs
  | tst => exact execTst_inv hs
  | tcpy => exact execTcpy_inv hs
  | tcb => exact execTcb_inv hs
  | mxprg => exact execMxprg_inv hs
  | vxm => exact execVxm_inv hs
  | boxt => exact execBoxt_inv hs
  | trit => exact execTrit_inv hs
  | spush => exact execSpush_inv hs
  | spop => exact execSpop_inv hs
  | speek => exact execSpeek_inv hs
  | sclr => exact execSclr_inv hs
  | lathreq => exact execLathreq_inv hs
  | lathrun => exact execLathrun_inv hs
  | lathwait => exact execLathwait_inv hs
  | gzarr => exact execGzarr_inv hs
  | gzrd => exact execGzrd_inv hs
  | gzclr => exact execGzclr_inv hs
  | gzrpl => exact execGzrpl_inv hs
  | gzst => exact execGzst_inv hs
  | fget => exact execFget_inv hs
  | fcmt => exact execFcmt_inv hs
  | fpsn => exact execFpsn_inv hs
  | fend => exact execFend_inv hs
  | gprobe => exact execGprobe_inv hs
  | tgcond => exact execTgcond_inv hs
  | tgsig => exact execTgsig_inv hs
  | tgwait => exact execTgwait_inv hs
  | emit => exact execEmit_inv hs
  | syscall => exact execSyscall_inv hs
  | eret => exact execEret_inv hs
  | crrd => exact execCrrd_inv hs
  | crwr => exact execCrwr_inv hs
  | tlbi => exact execTlbi_inv hs
  | tlbp => exact execTlbp_inv hs
  | wkill => exact execWkill_inv hs
  | wsusp => exact execWsusp_inv hs
  | wresm => exact execWresm_inv hs
  | halt => exact execHalt_inv hs
  | loadCompletion => exact execLoadCompletion_inv hs
  | specialFunctionCompletion => exact execSpecialFunctionCompletion_inv hs
  | fairnessTimerExpiry => exact execFairnessTimerExpiry_inv hs
  | blockGrant => exact execBlockGrant_inv hs
  | waveCreation => exact execWaveCreation_inv hs
  | exceptionWindowRestart => exact execExceptionWindowRestart_inv hs
  | storePerformed => exact execStorePerformed_inv hs
  | remoteScratchpadStore => exact execRemoteScratchpadStore_inv hs
  | inboundCredit => exact execInboundCredit_inv hs
  | scoreboardEntryRelease => exact execScoreboardEntryRelease_inv hs
  | peerProbe => exact execPeerProbe_inv hs
  | lowerTierRead => exact execLowerTierRead_inv hs
  | flashPageRead => exact execFlashPageRead_inv hs
  | ageSweep => exact execAgeSweep_inv hs
  | guestCopyFill => exact execGuestCopyFill_inv hs
  | guestInvalidation => exact execGuestInvalidation_inv hs
  | multicastRequest => exact execMulticastRequest_inv hs
  | mergedResponse => exact execMergedResponse_inv hs
  | followupTransmission => exact execFollowupTransmission_inv hs
  | mergeEntryClose => exact execMergeEntryClose_inv hs
  | ldmcDelivery => exact execLdmcDelivery_inv hs
  | copyCompletion => exact execCopyCompletion_inv hs
  | matrixChunk => exact execMatrixChunk_inv hs
  | epilogueDrain => exact execEpilogueDrain_inv hs
  | queueMarkerCompletion => exact execQueueMarkerCompletion_inv hs
  | tierHintOperation => exact execTierHintOperation_inv hs
  | lathImageLoad => exact execLathImageLoad_inv hs
  | lathRunCompletion => exact execLathRunCompletion_inv hs
  | glazeArrival => exact execGlazeArrival_inv hs
  | glazeRead => exact execGlazeRead_inv hs
  | glazeClear => exact execGlazeClear_inv hs
  | glazeStatusRead => exact execGlazeStatusRead_inv hs
  | glazeReplay => exact execGlazeReplay_inv hs
  | missSlotGrant => exact execMissSlotGrant_inv hs
  | fillerCreation => exact execFillerCreation_inv hs
  | pageTableWalk => exact execPageTableWalk_inv hs
  | faultResume => exact execFaultResume_inv hs
  | faultAbort => exact execFaultAbort_inv hs
  | pageMigration => exact execPageMigration_inv hs
  | genLoad => exact execGenLoad_inv hs
  | genInvalidate => exact execGenInvalidate_inv hs
  | genInvalidateFinish => exact execGenInvalidateFinish_inv hs
  | graphNodeStart => exact execGraphNodeStart_inv hs
  | graphNodeCompletion => exact execGraphNodeCompletion_inv hs
  | recordWaveLaunch => exact execRecordWaveLaunch_inv hs
  | graphCompletion => exact execGraphCompletion_inv hs
  | rebalanceEpoch => exact execRebalanceEpoch_inv hs
  | bucketMove => exact execBucketMove_inv hs
  | bucketMoveAbandon => exact execBucketMoveAbandon_inv hs
  | scrubRead => exact execScrubRead_inv hs
  | laneCountClear => exact execLaneCountClear_inv hs
  | ringPacketError => exact execRingPacketError_inv hs
  | gddrLinkError => exact execGddrLinkError_inv hs
  | ideIntegrityFailure => exact execIdeIntegrityFailure_inv hs
  | launch => exact execLaunch_inv hs
  | signal => exact execSignal_inv hs
  | wait => exact execWait_inv hs
  | callPacket => exact execCallPacket_inv hs
  | join => exact execJoin_inv hs
  | barrier => exact execBarrier_inv hs
  | priority => exact execPriority_inv hs
  | packetAcceptance => exact execPacketAcceptance_inv hs
  | tornPacketReread => exact execTornPacketReread_inv hs
  | queueTailWrite => exact execQueueTailWrite_inv hs
  | queueEnable => exact execQueueEnable_inv hs
  | queueRecover => exact execQueueRecover_inv hs
  | queueDisable => exact execQueueDisable_inv hs
  | queueRetry => exact execQueueRetry_inv hs
  | teamPlacement => exact execTeamPlacement_inv hs
  | teamPreemption => exact execTeamPreemption_inv hs
  | gridCompletion => exact execGridCompletion_inv hs
  | quantumExpiry => exact execQuantumExpiry_inv hs
  | shadowStoreSwap => exact execShadowStoreSwap_inv hs
  | functionLevelReset => exact execFunctionLevelReset_inv hs
  | controlComplexFailure => exact execControlComplexFailure_inv hs
  | coldReset => exact execColdReset_inv hs
  | stage1 => exact execStage1_inv hs
  | stage2 => exact execStage2_inv hs
  | d3hotEntry => exact execD3hotEntry_inv hs
  | d3coldEntry => exact execD3coldEntry_inv hs
  | junctionOvertemp => exact execJunctionOvertemp_inv hs
  | governorInterval => exact execGovernorInterval_inv hs
  | partitionDescriptorWrite => exact execPartitionDescriptorWrite_inv hs
  | partitionTeardown => exact execPartitionTeardown_inv hs
  | headGrant => exact execHeadGrant_inv hs
  | update => exact execUpdate_inv hs
  | updateHandover => exact execUpdateHandover_inv hs
  | rcvWrite => exact execRcvWrite_inv hs
  | rcvAuth => exact execRcvAuth_inv hs
  | rcvErase => exact execRcvErase_inv hs
  | getVersion => exact execGetVersion_inv hs
  | getCapabilities => exact execGetCapabilities_inv hs
  | negotiateAlgorithms => exact execNegotiateAlgorithms_inv hs
  | getDigests => exact execGetDigests_inv hs
  | getCertificate => exact execGetCertificate_inv hs
  | challenge => exact execChallenge_inv hs
  | getMeasurements => exact execGetMeasurements_inv hs
  | keyExchange => exact execKeyExchange_inv hs
  | finish => exact execFinish_inv hs
  | endSession => exact execEndSession_inv hs
  | vendorDefinedRequest => exact execVendorDefinedRequest_inv hs
  | invasiveDebugEntry => exact execInvasiveDebugEntry_inv hs
  | headEnable => exact execHeadEnable_inv hs
  | headDisable => exact execHeadDisable_inv hs
  | scanKernelLoad => exact execScanKernelLoad_inv hs
  | present => exact execPresent_inv hs
  | motionEstimation => exact execMotionEstimation_inv hs
  | gazeLatch => exact execGazeLatch_inv hs
  | poseLatch => exact execPoseLatch_inv hs
  | bandDispatch => exact execBandDispatch_inv hs
  | bandTeamStart => exact execBandTeamStart_inv hs
  | bandDeadline => exact execBandDeadline_inv hs
  | lineScanout => exact execLineScanout_inv hs
  | controlRegisterWrite => exact execControlRegisterWrite_inv hs
  | tileOperationCompletion => exact execTileOperationCompletion_inv hs
  | pcieLinkError => exact execPcieLinkError_inv hs
  | flitParityError link => exact execFlitParityError_inv (link := link) hs
  | hostLinkAccess => exact execHostLinkAccess_inv hs
  | waitConditionHolds => exact execWaitConditionHolds_inv hs
  | returnFromD3cold => exact execReturnFromD3cold_inv hs
  | debuggerRequest => exact execDebuggerRequest_inv hs
  | resumeCommand => exact execResumeCommand_inv hs
  | victimStoreSizing => exact execVictimStoreSizing_inv hs

/-! ### The agenda -/

/-- Events that each keep the canonical form of memory. -/
def AllKeep (es : List Event) : Prop := ∀ e ∈ es, ∀ s, Inv s → Goes (e s)

theorem AllKeep.nil : AllKeep [] := List.forall_mem_nil _

theorem AllKeep.cons {e : Event} {es : List Event} (he : ∀ s, Inv s → Goes (e s)) (h : AllKeep es) : AllKeep (e :: es) :=
  List.forall_mem_cons.2 ⟨he, h⟩

theorem AllKeep.one {e : Event} (he : ∀ s, Inv s → Goes (e s)) : AllKeep [e] := AllKeep.cons he AllKeep.nil

theorem AllKeep.append {es fs : List Event} (h : AllKeep es) (hf : AllKeep fs) : AllKeep (es ++ fs) := List.forall_mem_append.2 ⟨h, hf⟩

theorem AllKeep.flatMap {α : Type} {l : List α} {f : α → List Event} (h : ∀ a, AllKeep (f a)) : AllKeep (l.flatMap f) := fun e he =>
  let ⟨a, _, ha⟩ := List.mem_flatMap.1 he
  h a e ha

theorem AllKeep.map {α : Type} {l : List α} {f : α → Event} (h : ∀ a s, Inv s → Goes (f a s)) : AllKeep (l.map f) := fun _ he =>
  let ⟨a, _, ha⟩ := List.mem_map.1 he
  ha ▸ h a

theorem AllKeep.ite {c : Prop} [Decidable c] {es fs : List Event} (h : AllKeep es) (hf : AllKeep fs) : AllKeep (if c then es else fs) := by
  split
  · exact h
  · exact hf

theorem AllKeep.rotateLeft {es : List Event} (h : AllKeep es) (n : Nat) : AllKeep (es.rotateLeft n) := by
  unfold List.rotateLeft
  extract_lets len i ys zs
  split
  · exact h
  · exact AllKeep.append (fun e he => h e (List.mem_of_mem_drop he)) fun e he => h e (List.mem_of_mem_take he)

theorem State.firstEvent_inv {s : State} {es : List Event} (hs : Inv s) (h : AllKeep es) : InvSome (s.firstEvent es) := by
  induction es with
  | nil => trivial
  | cons e rest ih =>
    obtain ⟨he, hrest⟩ := List.forall_mem_cons.1 h
    unfold State.firstEvent
    split
    next hn => exact InvSome.ite (ih hrest) (Inv.of_next hn (he s hs))
    · exact ih hrest

theorem State.coreEvents_keep (s : State) (core : Nat) : AllKeep (s.coreEvents core) := by
  unfold State.coreEvents
  extract_lets c ks memq credits arrivals entries q1 q2 q3 q4 waits new graph
  have hmemq : AllKeep memq := AllKeep.flatMap fun k => AllKeep.cons (fun _ => execStorePerformed_inv) <|
    AllKeep.cons (fun _ => execLoadCompletion_inv) <| AllKeep.cons (fun _ => execSpecialFunctionCompletion_inv) <|
    AllKeep.cons (fun _ => execRemoteScratchpadStore_inv) <| AllKeep.one fun _ => execMulticastRequest_inv
  have hcredits : AllKeep credits := AllKeep.map fun _ _ => execInboundCredit_inv
  have harrivals : AllKeep arrivals := AllKeep.map fun _ _ => execLdmcDelivery_inv
  have hentries : AllKeep entries := AllKeep.map fun _ _ => execScoreboardEntryRelease_inv
  have h1 : AllKeep q1 := AllKeep.ite AllKeep.nil <| AllKeep.cons (fun _ => execCopyCompletion_inv) <|
    AllKeep.one fun _ => execTileOperationCompletion_inv
  have h2 : AllKeep q2 := AllKeep.ite AllKeep.nil <| AllKeep.one fun _ => execTierHintOperation_inv
  have h3 : AllKeep q3 := AllKeep.ite AllKeep.nil <| AllKeep.cons (fun _ => execLathImageLoad_inv) <|
    AllKeep.cons (fun _ => execLathRunCompletion_inv) <| AllKeep.one fun _ => execQueueMarkerCompletion_inv
  have h4 : AllKeep q4 := AllKeep.ite AllKeep.nil <| AllKeep.cons (fun _ => execGlazeArrival_inv) <|
    AllKeep.cons (fun _ => execGlazeRead_inv) <| AllKeep.cons (fun _ => execGlazeClear_inv) <|
    AllKeep.cons (fun _ => execGlazeStatusRead_inv) <| AllKeep.cons (fun _ => execGlazeReplay_inv) <|
    AllKeep.one fun _ => execQueueMarkerCompletion_inv
  have hwaits : AllKeep waits := AllKeep.ite AllKeep.nil <| AllKeep.cons (fun _ => execBlockGrant_inv) <|
    AllKeep.cons (fun _ => execBlockGrant_inv) <| AllKeep.one fun _ => execBlockGrant_inv
  have hnew : AllKeep new := AllKeep.ite AllKeep.nil <| AllKeep.one fun _ => execWaveCreation_inv
  have hgraph : AllKeep graph := by
    unfold graph
    split
    · exact AllKeep.cons (fun _ => execGraphNodeStart_inv) <| AllKeep.cons (fun _ => execGraphNodeCompletion_inv) <|
        AllKeep.append (AllKeep.map fun _ _ => execRecordWaveLaunch_inv) <| AllKeep.one fun _ => execGraphCompletion_inv
    · exact AllKeep.nil
  exact hmemq.append hcredits |>.append harrivals |>.append hentries |>.append h1 |>.append h2 |>.append h3 |>.append h4 |>.append hwaits
    |>.append hnew |>.append hgraph

theorem State.sliceEvents_keep (s : State) (h : Nat) : AllKeep (s.sliceEvents h) := by
  unfold State.sliceEvents
  extract_lets sl merges grants reads
  have hmerges : AllKeep merges := AllKeep.flatMap fun k => AllKeep.cons (fun _ => execMergedResponse_inv) <|
    AllKeep.cons (fun _ => execFollowupTransmission_inv) <| AllKeep.one fun _ => execMergeEntryClose_inv
  have hgrants : AllKeep grants := AllKeep.ite AllKeep.nil <| AllKeep.cons (fun _ => execMissSlotGrant_inv) <|
    AllKeep.cons (fun _ => execMissSlotGrant_inv) <| AllKeep.one fun _ => execMissSlotGrant_inv
  have hreads : AllKeep reads := AllKeep.flatMap fun x => by
    split
    · exact AllKeep.nil
    · refine AllKeep.cons (fun _ => execLowerTierRead_inv) ?_
      split
      · exact AllKeep.ite (AllKeep.one fun _ => execFlashPageRead_inv) AllKeep.nil
      · exact AllKeep.nil
  exact hmerges.append hgrants |>.append hreads

theorem State.partEvents_keep (s : State) (p : Nat) : AllKeep (s.partEvents p) := by
  unfold State.partEvents
  extract_lets q commands fillers queues
  have hcommands : AllKeep commands := AllKeep.append (AllKeep.ite (AllKeep.one fun _ => execPageMigration_inv) AllKeep.nil) <|
    AllKeep.ite (AllKeep.cons (fun _ => execGenLoad_inv) <| AllKeep.cons (fun _ => execGenInvalidate_inv) <|
      AllKeep.one fun _ => execGenInvalidateFinish_inv) AllKeep.nil
  have hfillers : AllKeep fillers := AllKeep.flatMap fun d => AllKeep.ite (AllKeep.map fun _ _ => execFillerCreation_inv) AllKeep.nil
  have hqueues : AllKeep queues := AllKeep.flatMap fun e => AllKeep.cons (fun _ => execPacketAcceptance_inv) <|
    AllKeep.cons (fun _ => execTornPacketReread_inv) <| AllKeep.cons (fun _ => execLaunch_inv) <|
    AllKeep.cons (fun _ => execSignal_inv) <| AllKeep.cons (fun _ => execWait_inv) <| AllKeep.cons (fun _ => execCallPacket_inv) <|
    AllKeep.cons (fun _ => execJoin_inv) <| AllKeep.cons (fun _ => execBarrier_inv) <| AllKeep.cons (fun _ => execPriority_inv) <|
    AllKeep.one fun _ => execWaitConditionHolds_inv
  exact hcommands.append hfillers |>.append hqueues

theorem State.launchEvents_keep (s : State) : AllKeep s.launchEvents := by
  unfold State.launchEvents
  refine AllKeep.flatMap fun l => ?_
  extract_lets places victims
  have hplaces : AllKeep places := AllKeep.ite (AllKeep.map fun _ _ => execTeamPlacement_inv) AllKeep.nil
  have hvictims : AllKeep victims := by
    unfold victims
    refine AllKeep.ite ?_ AllKeep.nil
    split
    · exact AllKeep.one fun _ => execTeamPreemption_inv
    · exact AllKeep.nil
  exact hplaces.append hvictims |>.append (AllKeep.one fun _ => execGridCompletion_inv)

theorem State.deviceEvents_keep (s : State) : AllKeep s.deviceEvents := by
  unfold State.deviceEvents
  extract_lets d rcv leaving heads
  have hrcv : AllKeep rcv := AllKeep.ite (AllKeep.cons (fun _ => execRcvWrite_inv) <| AllKeep.cons (fun _ => execRcvAuth_inv) <|
    AllKeep.one fun _ => execRcvErase_inv) AllKeep.nil
  have hleaving : AllKeep leaving := AllKeep.flatMap fun e => AllKeep.ite (AllKeep.one fun _ => execPartitionTeardown_inv) AllKeep.nil
  have hheads : AllKeep heads := AllKeep.flatMap fun e => AllKeep.append
    (AllKeep.ite (AllKeep.one fun _ ht => Goes.next (State.headWork_inv ht)) AllKeep.nil)
    (AllKeep.ite (AllKeep.one fun _ => execMotionEstimation_inv) AllKeep.nil)
  exact hrcv.append hleaving |>.append (AllKeep.ite (AllKeep.one fun _ => execInvasiveDebugEntry_inv) AllKeep.nil)
    |>.append (AllKeep.ite (AllKeep.one fun _ => execJunctionOvertemp_inv) AllKeep.nil) |>.append hheads

theorem State.candidates_keep (s : State) : AllKeep s.candidates := by
  unfold State.candidates
  extract_lets walks guests pairs moves
  have hwalks : AllKeep walks := AllKeep.flatMap fun e => AllKeep.ite AllKeep.nil <| AllKeep.map fun _ _ => execPageTableWalk_inv
  have hguests : AllKeep guests := AllKeep.map fun _ _ => execGuestInvalidation_inv
  have hpairs : AllKeep pairs := AllKeep.flatMap fun e => AllKeep.ite AllKeep.nil <| AllKeep.cons (fun _ => execMatrixChunk_inv) <|
    AllKeep.one fun _ => execEpilogueDrain_inv
  have hmoves : AllKeep moves := AllKeep.flatMap fun e => AllKeep.ite (AllKeep.one fun _ => execBucketMove_inv) AllKeep.nil
  exact hwalks.append hguests |>.append (AllKeep.flatMap fun _ => s.coreEvents_keep _) |>.append hpairs
    |>.append (AllKeep.flatMap fun _ => s.sliceEvents_keep _) |>.append hmoves |>.append (AllKeep.flatMap fun _ => s.partEvents_keep _)
    |>.append s.launchEvents_keep |>.append s.deviceEvents_keep

theorem State.autoEvent_inv {s : State} (hs : Inv s) : InvSome s.autoEvent :=
  State.firstEvent_inv hs (s.candidates_keep.rotateLeft _)

theorem issueFocus_inv {s : State} (hs : Inv s) : Goes (issueFocus s) := by
  unfold issueFocus
  split
  next he => exact Inv.of_prep_other he (State.prepare_inv hs)
  next he =>
    split
    next he1 => exact State.finish_inv (Inv.of_next he1 (exec_inv (Inv.of_prep_run he (State.prepare_inv hs))))
    · exact exec_inv (Inv.of_prep_run he (State.prepare_inv hs))

theorem issueAny_inv {s : State} (hs : Inv s) : Goes (issueAny s) := by
  unfold issueAny
  split
  next t he =>
    have ht : Inv t := Inv.of_some he (State.nextWave_inv hs)
    exact issueFocus_inv (s := { t with tick := t.tick + 1 }) ht
  · split
    next t he =>
      have ht : Inv t := Inv.of_some he (State.autoEvent_inv hs)
      exact Goes.next (t := { t with tick := t.tick + 1 }) ht
    · exact Goes.next hs

theorem State.promptEvent_inv {s : State} (hs : Inv s) : InvSome s.promptEvent := by
  refine State.firstEvent_inv hs (AllKeep.append ?_ ?_)
  · exact AllKeep.flatMap fun e => AllKeep.map fun _ _ => execInboundCredit_inv
  · exact AllKeep.flatMap fun e => AllKeep.ite (AllKeep.cons (fun _ => execGenLoad_inv) <|
      AllKeep.cons (fun _ => execGenInvalidate_inv) <| AllKeep.one fun _ => execGenInvalidateFinish_inv) AllKeep.nil

theorem idle_inv {s : State} (hs : Inv s) : Goes (idle s) := by
  unfold idle
  split
  next he => exact Goes.next (Inv.of_some he (State.promptEvent_inv hs))
  · split
    · split
      next t he =>
        have ht : Inv t := Inv.of_some he (State.autoEvent_inv hs)
        exact Goes.next (t := { t with tick := t.tick + 1 }) ht
      · exact issueAny_inv hs
    · exact issueAny_inv hs

theorem closeStep_inv {r : Host.Outcome State Fault Refusal} (hr : Goes r) : Goes (closeStep r) := by
  unfold closeStep
  split
  · exact State.sendDue_inv hr
  · exact hr
  · exact hr

/-! ### The step -/

theorem step_inv {s : State} (hs : Inv s) : Goes (step s) := by
  unfold step
  refine closeStep_inv ?_
  split
  · exact exec_inv hs
  · exact issueFocus_inv hs
  · exact State.storeUpset_inv hs
  · exact idle_inv hs

/-- Settles O57: every event and every instruction keeps the canonical form of memory, function by function. -/
theorem everyStepKeepsMemoryCanonical : Obligations.EveryStepKeepsMemoryCanonical := by
  intro s t hs h
  exact Inv.of_next h (step_inv hs)

end Sys2Proof.Machine
end
